-- ==== Sys2Proof/Word.lean ====
section
/-! DEFINITION. The words of the part: a byte of the serial line and a path tick. -/

namespace Sys2Proof

/-- One byte of a frame (R173). -/
abbrev Byte := BitVec 8

/-- A tick of Tick Time: 32 bits, wrapping (00 section 0.3, R1). -/
abbrev Tick := BitVec 32

/-- A 32-bit count that wraps: table revision (R69), plan revision (R140), episode number (R107). -/
abbrev Count32 := BitVec 32

/-- A set of removal areas: bits 0 to 7 are A to H, bit 8 is FINISHER (12.7). -/
abbrev AreaSet := BitVec 9

end Sys2Proof
end

