-- ==== Sys2Proof/Config.lean ====
section
/-! DEFINITION. The fixed sizes of the part (00 section 0.5) and its free values. -/

namespace Sys2Proof.Config

/-- Places of the receive queue (R176). -/
def receiveQueueSize : Nat := 4
/-- Places of the Normal Queue (R31). -/
def normalQueueSize : Nat := 64
/-- Places of the Priority Queue (R31). -/
def priorityQueueSize : Nat := 16
/-- Records of the Sheet Table (R69). -/
def sheetTableSize : Nat := 24
/-- Places of the Image Call Queue (R92). -/
def imageCallSize : Nat := 8
/-- Records of the Jam Record List (R116). -/
def jamRecordSize : Nat := 4
/-- The last sheet number (R51). -/
def lastSheetNumber : Nat := 4294967295
/-- The largest pages-accepted count (R27). -/
def lastPageCount : Nat := 4294967295
/-- Ticks after the previous byte of a frame at which its want of a next one discards it (R174). -/
def byteGapTicks : Nat := 41
/-- Ticks the LINK FAULT condition outlives a discard (R175). -/
def linkFaultTicks : Nat := 20000

/-- FREE VALUE (entry 9). What a field of `n` bytes or bits carries for a number `v` too large for it: the spec gives
such numbers a place in a message and no encoding. It has no body, so nothing is provable of its value. -/
opaque unstatedField : (n : Nat) → (v : Nat) → Nat

/-- FREE VALUE (entry 9). The sheets-ejected count of a set whose partial ejects passed 65,535 (R148 gives the range). -/
opaque sheetsEjectedBeyond : Nat → BitVec 16

end Sys2Proof.Config
end

