-- ==== Sys2Proof/Syntax.lean ====
section
/-! DEFINITION. The commands of the part: one constructor for each row of spec/opcode_table.json, with its operands.
A request carries the tick at which it is taken and the body of its frame (12.3, 12.7); its KIND is the row. An edge carries
its tick and where it falls. A run of received bytes carries the tick its first byte is counted from. An expiry is taken at the deadline of its timer and carries only what names that timer. -/

namespace Sys2Proof

/-- One byte as the receiver sees it (R174). -/
structure RxByte where
  /-- ticks after the byte before it, or for a command's first byte after the command's tick -/
  after : Nat
  /-- the eight data bits -/
  byte : Byte
  /-- the stop bit was good -/
  stopOk : Bool
  deriving DecidableEq, Repr

/-- The two lines of a tray unit (R8, R39). -/
inductive TraySensor where
  | present
  | paperOut
  deriving DecidableEq, Repr

/-- The commands, in the order of the table. -/
inductive Instr where
  /-- HARDWARE_RESET (R182): The reset input or power-up puts every block in its hardware-reset state and samples the strap pins for the serial rate. -/
  | hardwareReset (strapFirst strapSecond : Bool)
  /-- STATION_DEF (R3): Defines or removes one station in the stored description. -/
  | stationDef (t : Tick) (body : List Byte)
  /-- LEG_DEF (R5): Replaces one whole leg in the stored description. -/
  | legDef (t : Tick) (body : List Byte)
  /-- DRIVE_DEF (R7): Sets the speed classes, the ramp, run-on and sweep times, and the drive lines. -/
  | driveDef (t : Tick) (body : List Byte)
  /-- TRAY_DEF (R8): Sets the settings of one tray unit, bin or the purge bin. -/
  | trayDef (t : Tick) (body : List Byte)
  /-- DOOR_DEF (R9): Defines or removes one door with its areas and finisher flag. -/
  | doorDef (t : Tick) (body : List Byte)
  /-- TIMING_DEF (R10): Sets every timing setting in one request. -/
  | timingDef (t : Tick) (body : List Byte)
  /-- FINISHER_DEF (R11): Sets the compile capacity, the finisher times and the finisher lines. -/
  | finisherDef (t : Tick) (body : List Byte)
  /-- LINE_DEF (R14): Sets the polarity and filter of an input line, or the rest level of an output line. -/
  | lineDef (t : Tick) (body : List Byte)
  /-- NOTICE_MASK (R178): Enables or disables the maskable notice kinds and withdraws pending notices of disabled kinds. -/
  | noticeMask (t : Tick) (body : List Byte)
  /-- PATH_CLOSE (R15): Validates the stored description and, if it passes, puts it in force and moves the path to IDLE. -/
  | pathClose (t : Tick) (body : List Byte)
  /-- PAGE (R26): Checks one page record and appends it to its job's queue. -/
  | page (t : Tick) (body : List Byte)
  /-- IMAGE_READY (R33): Sets the image-ready flag of every held uncommitted record that carries the page identifier. -/
  | imageReady (t : Tick) (body : List Byte)
  /-- HOLD (R48): Sets the hold flag at once, or sets the set-end mark. -/
  | hold (t : Tick) (body : List Byte)
  /-- CONTINUE (R49): Clears the hold flag and the set-end mark and judges the start or return conditions again. -/
  | continueFeed (t : Tick) (body : List Byte)
  /-- STOP (R120): Opens or extends a HOST STOP episode, or abandons a sweep. -/
  | hostStop (t : Tick) (body : List Byte)
  /-- ABANDON_JOB (R40): Removes a job's withdrawable pages from every place and counts them abandoned. -/
  | abandonJob (t : Tick) (body : List Byte)
  /-- RESYNC_STATION (R81): Sets a station's resynchronisation mark. -/
  | resyncStation (t : Tick) (body : List Byte)
  /-- SWEEP (R127): Starts a sweep in HELD if the clearance conditions hold, or is refused with NOT CLEAR. -/
  | sweep (t : Tick) (body : List Byte)
  /-- PLAN_READ (R142): Returns up to three plan entries and sets the read-through mark when the last entry is returned. -/
  | planRead (t : Tick) (body : List Byte)
  /-- RESUME (R144): Checks state, read-through mark and clearance, then closes the episode and moves the path to STARTING. -/
  | resume (t : Tick) (body : List Byte)
  /-- STATUS_READ (R179): Returns a snapshot of the state of the whole part. -/
  | statusRead (t : Tick) (body : List Byte)
  /-- SHEET_READ (R180): Returns the table revision and up to three sheet summaries. -/
  | sheetRead (t : Tick) (body : List Byte)
  /-- JAM_READ (R122): Returns the episode record and up to two jam records. -/
  | jamRead (t : Tick) (body : List Byte)
  /-- COUNTER_READ (R164): Returns one counter record and, with clear, subtracts the values returned. -/
  | counterRead (t : Tick) (body : List Byte)
  /-- COUNTER_WIDTH (R162): Sets a counter group's width and watermark and judges its watermark condition. -/
  | counterWidth (t : Tick) (body : List Byte)
  /-- DRY_RUN (R166): Enters or leaves dry run in IDLE with an empty Compile Set. -/
  | dryRun (t : Tick) (body : List Byte)
  /-- FAULT_PLAN (R170): Replaces the whole Fault Plan with unspent entries. -/
  | faultPlan (t : Tick) (body : List Byte)
  /-- PATH_RESET (R181): Discards pages and sheets, resets the blocks and leaves the path HELD or IDLE. -/
  | pathReset (t : Tick) (body : List Byte)
  /-- UNKNOWN_KIND (R176): An accepted frame whose KIND is not a request kind is refused with UNKNOWN KIND. -/
  | unknownKind (t : Tick) (kind : Byte) (body : List Byte)
  /-- FRAME_DISCARD (R174): A frame with a stop-bit error, bad LEN, bad CRC or no room in the receive queue is discarded. -/
  | frameDiscard (t : Tick) (rx : List RxByte)
  /-- BYTE_GAP_TIMEOUT (R174): More than 40 ticks without the next byte of a frame discards the frame. -/
  | byteGapTimeout (t : Tick) (rx : List RxByte)
  /-- LINK_FAULT_TIMER_EXPIRY (R175): The fault timer expires and LINK FAULT becomes inactive. -/
  | linkFaultTimerExpiry
  /-- FRAME_SENT (R177): Transmission of a frame ends and the transmit selector chooses the next pending frame. -/
  | frameSent (t : Tick)
  /-- STATION_LEADING_EDGE (R73): A leading edge at a station sensor is matched and judged according to the path state. -/
  | stationLeadingEdge (t : Tick) (station : Fin 24)
  /-- STATION_TRAILING_EDGE (R76): A trailing edge at a station sensor is matched to the covering sheet. -/
  | stationTrailingEdge (t : Tick) (station : Fin 24)
  /-- DOOR_OPENING (R118): A door opens, forcing outputs to rest and acting on the path according to its state. -/
  | doorOpening (t : Tick) (door : Fin 8)
  /-- DOOR_CLOSING (R117): A door closes, releasing the output hold when the last door closes, and clearance and start conditions are judged again. -/
  | doorClosing (t : Tick) (door : Fin 8)
  /-- TRAY_LEVEL_CHANGE (R39): A tray-present or paper-out line changes and the tray's availability is passed on. -/
  | trayLevelChange (t : Tick) (unit : Fin 5) (sensor : TraySensor) (asserted : Bool)
  /-- BIN_FULL_LINE_CHANGE (R39): A bin-full line changes and the bin's fullness is passed on. -/
  | binFullLineChange (t : Tick) (bin : Fin 2) (asserted : Bool)
  /-- PURGE_BIN_REMOVED (R102): The purge-bin-removed line asserts and the purge count is set to 0. -/
  | purgeBinRemoved (t : Tick) (asserted : Bool)
  /-- STAPLE_HOME_EDGE (R151): The staple-home line asserts, ending a staple cycle. -/
  | stapleHomeEdge (t : Tick) (asserted : Bool)
  /-- EJECT_HOME_EDGE (R152): The eject-home line asserts, completing an eject. -/
  | ejectHomeEdge (t : Tick) (asserted : Bool)
  /-- COMPILE_TRAY_EDGE (R125): The compile-tray-paper line changes and clearance is judged again. -/
  | compileTrayEdge (t : Tick) (paper : Bool)
  /-- PICK_TIMER_EXPIRY (R60): The pick timer expires and the pick conditions are judged afresh. -/
  | pickTimerExpiry
  /-- STARVATION_HOLDOFF_EXPIRY (R50): The starvation holdoff expires in RUNNING, a drain condition. -/
  | starvationHoldoffExpiry
  /-- RAMP_TIMER_EXPIRY (R45): The ramp timer expires and the path becomes RUNNING. -/
  | rampTimerExpiry
  /-- RUN_ON_TIMER_EXPIRY (R47): The run-on timer expires in DRAINING, the drives stop and the path becomes IDLE. -/
  | runOnTimerExpiry
  /-- LEADING_DEADLINE_EXPIRY (R78): A sheet's leading deadline expires before its arrival is taken. -/
  | leadingDeadlineExpiry (sheet : Nat)
  /-- TRAILING_DEADLINE_EXPIRY (R78): A station's trailing deadline expires before the covering sheet's trailing edge is taken. -/
  | trailingDeadlineExpiry (station : Fin 24)
  /-- SETTLE_EXPIRY (R149): A compiled sheet's settle time expires and its compile completes. -/
  | settleExpiry
  /-- STAPLE_LIMIT_EXPIRY (R151): The staple limit expires, the set becomes FAULTED and a STAPLE FAIL is declared. -/
  | stapleLimitExpiry
  /-- EJECT_LIMIT_EXPIRY (R153): The eject limit expires, the set becomes RETAINED and a STAPLE FAIL is declared. -/
  | ejectLimitExpiry
  /-- SWEEP_TIMER_EXPIRY (R131): The sweep timer expires, the sweep succeeds and plan build follows. -/
  | sweepTimerExpiry
  /-- SYNTHESISED_STATION_EDGE (R168): A scheduled dry-run station edge reaches its tick and is delivered to the Sheet Tracker. -/
  | synthesisedStationEdge (station : Fin 24) (leading : Bool)
  /-- SYNTHESISED_HOME_EDGE (R169): A scheduled dry-run staple-home or eject-home edge reaches its tick. -/
  | synthesisedHomeEdge
  /-- PATH_START (R44): The path moves from IDLE to STARTING when the start conditions hold. -/
  | pathStart (t : Tick)
  /-- DRAIN_RETURN (R47): The path returns from DRAINING to RUNNING when the return conditions hold. -/
  | drainReturn (t : Tick)
  /-- PICK (R61): The Feed Scheduler binds the next page to a new sheet and pulses the tray clutch. -/
  | pick (t : Tick)
  /-- AUTO_SWEEP (R126): With auto-sweep ON and the mark clear, clearance reached in HELD starts a sweep by itself. -/
  | autoSweep (t : Tick)
  /-- SET_CYCLE_START (R150): A closed COMPILING set starts its staple or eject cycle once nothing holds it back. -/
  | setCycleStart (t : Tick)
  deriving DecidableEq, Repr

end Sys2Proof
end

