-- ==== Sys2Proof/WellFormed.lean ====
section
/-! DEFINITION. Which commands can come about at all: the checks the spec's own ranges give. A command that fails one names
no event of the part. -/

namespace Sys2Proof

/-- A frame's body is at most 64 bytes (R173). -/
def bodyFits (body : List Byte) : Bool := decide (body.length ≤ 64)

/-- 0x01 to 0x1C are the request kinds (R173, R176). -/
def isRequestKind (kind : Byte) : Bool := decide (1 ≤ kind.toNat ∧ kind.toNat ≤ 28)

/-- A sheet number is 1 to 4,294,967,295 (R68). -/
def isSheetNumber (n : Nat) : Bool := decide (1 ≤ n ∧ n ≤ Config.lastSheetNumber)

/-- The command names an event of the part. -/
def Instr.wf : Instr → Bool
  | .stationDef _ b | .legDef _ b | .driveDef _ b | .trayDef _ b | .doorDef _ b | .timingDef _ b | .finisherDef _ b
  | .lineDef _ b | .noticeMask _ b | .pathClose _ b | .page _ b | .imageReady _ b | .hold _ b | .continueFeed _ b | .hostStop _ b
  | .abandonJob _ b | .resyncStation _ b | .sweep _ b | .planRead _ b | .resume _ b | .statusRead _ b | .sheetRead _ b
  | .jamRead _ b | .counterRead _ b | .counterWidth _ b | .dryRun _ b | .faultPlan _ b | .pathReset _ b => bodyFits b
  | .unknownKind _ k b => bodyFits b && !isRequestKind k
  | .frameDiscard _ rx => !rx.isEmpty
  | .leadingDeadlineExpiry n => isSheetNumber n
  | .hardwareReset _ _ | .byteGapTimeout _ _ | .linkFaultTimerExpiry | .frameSent _ | .stationLeadingEdge _ _ | .stationTrailingEdge _ _
  | .doorOpening _ _ | .doorClosing _ _ | .trayLevelChange _ _ _ _ | .binFullLineChange _ _ _ | .purgeBinRemoved _ _
  | .stapleHomeEdge _ _ | .ejectHomeEdge _ _ | .compileTrayEdge _ _ | .pickTimerExpiry | .starvationHoldoffExpiry
  | .rampTimerExpiry | .runOnTimerExpiry | .trailingDeadlineExpiry _ | .settleExpiry | .stapleLimitExpiry
  | .ejectLimitExpiry | .sweepTimerExpiry | .synthesisedStationEdge _ _ | .synthesisedHomeEdge | .pathStart _
  | .drainReturn _ | .pick _ | .autoSweep _ | .setCycleStart _ => true

end Sys2Proof
end

