-- ==== Sys2Proof/Decode.lean ====
section
/-! DEFINITION. The command a word of the opcode table spells. spec/opcode_table.json gives no row any bits (its rows have
no "fixed" and empty "fields"), so no word spells a command (entry 25). The layouts of frames (12.7) are read in
Machine/Operands.lean. -/

namespace Sys2Proof

/-- No row of the table has bits: no word spells a command. -/
def decodeTableWord (_nbits _w : Nat) : Option Instr := none

end Sys2Proof
end

