-- ==== Sys2Proof/Machine/State.lean ====
section
/-! DEFINITION. The state of the part: everything the spec gives it, as plain data, one record for each block of 00 section
0.2, and the state after hardware reset. INVENTORY.md lists each field with its rule. -/

namespace Sys2Proof.Machine

/-! ## Names -/

/-- Path states, in the order of the table of 03 section 3.1. -/
inductive PathState where
  | unconfigured | idle | starting | running | draining | halting | held | sweeping | resumable
  deriving DecidableEq, Repr

/-- Station roles, in the order of R3. -/
inductive Role where
  | plain | registration | exit | purgeGate | binEntry0 | binEntry1 | finisherEntry | purgeEntry
  deriving DecidableEq, Repr

/-- Drives, in the order of R3. -/
inductive Drive where
  | feed | process | duplex | delivery
  deriving DecidableEq, Repr

/-- Legs, in the order of R5 and R15. -/
inductive LegName where
  | tray0 | tray1 | tray2 | tray3 | insert | main | duplex | deliverBin0 | deliverBin1 | deliverFinisher | deliverPurge
  deriving DecidableEq, Repr

/-- Destinations of a sheet, in the order of R68. -/
inductive Dest where
  | bin0 | bin1 | finisher | purge
  deriving DecidableEq, Repr

/-- Sides of a page record, in the order of R25. -/
inductive Side where
  | simplex | front | back | insert
  deriving DecidableEq, Repr

/-- The two page queues (R31), in the order of R34. -/
inductive Queue where
  | normal | priority
  deriving DecidableEq, Repr

/-- Sheet kinds, in the order of R68. -/
inductive SheetKind where
  | simplex | duplex | insert
  deriving DecidableEq, Repr

/-- Passes of a sheet (R68). -/
inductive Pass where
  | first | final
  deriving DecidableEq, Repr

/-- Side states of a sheet, in the order of R68. -/
inductive SideState where
  | none | called | committed | spoiled | void
  deriving DecidableEq, Repr

/-- Conditions of a sheet, in the order of R68. -/
inductive Condition where
  | normal | purging | runningOut | stranded
  deriving DecidableEq, Repr

/-- Outcomes of a taken arrival (R20). -/
inductive Arrival where
  | onTime | drift
  deriving DecidableEq, Repr

/-- Kinds of jam, in the order of R106. -/
inductive JamKind where
  | misfeed | noArrival | earlyArrival | unexpectedPaper | stay | multifeed | sizeMismatch | residual | doorOpen
  | hostStop | hostReset | stapleFail | finisherOverrun
  deriving DecidableEq, Repr

/-- Why a page joined the Reprint List, in the order of R134. -/
inductive Reason where
  | spoiled | stranded | setRestart
  deriving DecidableEq, Repr

/-- Kinds of merge reservation (R63). -/
inductive ResvKind where
  | feed | return
  deriving DecidableEq, Repr

/-- States of the Compile Set, in the order of R148. -/
inductive SetState where
  | empty | compiling | stapling | ejecting | faulted | retained
  deriving DecidableEq, Repr

/-- Outcomes of a finished set, in the order of R152. -/
inductive SetOutcome where
  | stapled | stapleSkipped | abandoned | unstapled
  deriving DecidableEq, Repr

/-- Counter groups, in the order of R162. -/
inductive Group where
  | station | tray | path
  deriving DecidableEq, Repr

/-- Counter widths (R161). -/
inductive Width where
  | narrow | wide
  deriving DecidableEq, Repr

/-- Faults of the Fault Plan, in the order of R170. -/
inductive FaultKind where
  | delay | omit | stretch | extra | noStaple
  deriving DecidableEq, Repr

/-- Settings of the ready gate, in the order of R10. -/
inductive ReadyGate where
  | off | front | both
  deriving DecidableEq, Repr

/-- Serial rates (R173). -/
inductive Rate where
  | baud115200 | baud230400 | baud460800 | baud921600
  deriving DecidableEq, Repr

/-! ## The path description (chapter 1) -/

/-- A defined station (R3). -/
structure StationDef where
  line : Fin 32
  role : Role
  area : Fin 8
  drive : Drive
  gate : Option (Fin 24)
  deriving DecidableEq, Repr

/-- One step of a leg: a station and its distance in dmm from the previous point (R5). -/
structure LegStep where
  station : Fin 24
  dist : Nat
  deriving DecidableEq, Repr

/-- A defined leg (R5). The end distance is 0 for a leg that has none. -/
structure Leg where
  steps : List LegStep
  endDist : Nat
  deriving DecidableEq, Repr

/-- The settings of DRIVE DEF (R7). -/
structure DriveSet where
  speed0 : Nat
  speed1 : Nat
  speed2 : Nat
  ramp : Nat
  runOn : Nat
  sweep : Nat
  feedLine : Fin 24
  processLine : Fin 24
  duplexLine : Fin 24
  deliveryLine : Fin 24
  select0 : Fin 24
  select1 : Fin 24
  deriving DecidableEq, Repr

/-- The settings of a tray unit (R8). -/
structure TraySet where
  clutch : Fin 24
  present : Fin 32
  paperOut : Fin 32
  retries : Nat
  deriving DecidableEq, Repr

/-- The settings of the purge bin (R8). -/
structure PurgeSet where
  removed : Fin 32
  capacity : Nat
  deriving DecidableEq, Repr

/-- A defined door (R9). Bit i of `areas` is area i of A to H. -/
structure DoorDef where
  line : Fin 32
  areas : BitVec 8
  finisher : Bool
  deriving DecidableEq, Repr

/-- The timing settings (R10). -/
structure Timing where
  q : Nat
  wmin : Nat
  jam : Nat
  omax : Nat
  window : Nat
  autoResync : Bool
  gap : Nat
  caution : Nat
  multifeed : Nat
  holdoff : Nat
  readyGate : ReadyGate
  loop : Nat
  autoSweep : Bool
  markNormal : Nat
  markPriority : Nat
  deriving DecidableEq, Repr

/-- The finisher settings but for the compile capacity (R11). -/
structure FinisherSet where
  nominal : Nat
  limit : Nat
  eject : Nat
  settle : Nat
  stapler : Fin 24
  ejector : Fin 24
  stapleHome : Fin 32
  ejectHome : Fin 32
  compileTray : Fin 32
  deriving DecidableEq, Repr

/-- An input line's settings (R14). -/
structure InputSet where
  /-- polarity HIGH: a high level means asserted -/
  high : Bool
  filter : Nat
  deriving DecidableEq, Repr

/-- A path description (01 section 1.1). -/
structure Desc where
  stations : Vector (Option StationDef) 24
  legs : Vector (Option Leg) 11
  drive : Option DriveSet
  trays : Vector (Option TraySet) 5
  bins : Vector (Option (Fin 32)) 2
  purge : Option PurgeSet
  doors : Vector (Option DoorDef) 8
  timing : Timing
  capacity : Nat
  finisher : Option FinisherSet
  inputs : Vector InputSet 32
  /-- rest level HIGH, by output line -/
  restHigh : Vector Bool 24
  deriving DecidableEq, Repr

/-! ## Lines (chapter 1) -/

/-- The 32 input lines: the level at the pin (true: HIGH), the filtered level (true: asserted) and how many samples in a row
have differed from it (R13). -/
structure Lines where
  pin : Vector Bool 32
  level : Vector Bool 32
  run : Vector Nat 32
  deriving DecidableEq, Repr

/-- What the owners drive their output lines to (R12); the lines themselves are computed from it (`outputLevel`). -/
structure Outputs where
  enFeed : Bool
  enProcess : Bool
  enDuplex : Bool
  enDelivery : Bool
  /-- the class the class-select lines present -/
  presented : Nat
  clutch : Vector Bool 5
  /-- EXIT gate set to DUPLEX -/
  exitGate : Bool
  /-- purge diverter set to PURGE -/
  purgeGate : Bool
  stapler : Bool
  ejector : Bool
  deriving DecidableEq, Repr

/-! ## Pages and jobs (chapter 2) -/

/-- A page record (R25). Tray, speed class and destination keep the byte the host sent, since for a BACK (and the tray of an
INSERT) it is not examined (R27). -/
structure Page where
  id : Nat
  job : Nat
  set : Nat
  side : Side
  noBack : Bool
  firstOfSet : Bool
  lastOfSet : Bool
  staple : Bool
  lastOfJob : Bool
  priority : Bool
  tray : Nat
  media : Nat
  cls : Nat
  dest : Nat
  ready : Bool
  origin : Option Nat
  deriving DecidableEq, Repr

/-- A Job Table slot that holds a job (R34). -/
structure Slot where
  job : Nat
  queue : Queue
  accepted : Nat
  delivered : Nat
  abandoned : Nat
  lastPage : Option Nat
  closed : Bool
  deriving DecidableEq, Repr

/-- The Intake Unit. -/
structure Intake where
  normal : List Page
  priority : List Page
  slots : Vector (Option Slot) 8
  /-- INTAKE LOW conditions (R38) -/
  lowNormal : Bool
  lowPriority : Bool
  deriving DecidableEq, Repr

/-! ## Feed Scheduler (chapter 3) -/

/-- An entry of the Merge Reservation List (R63). -/
structure Resv where
  sheet : Nat
  kind : ResvKind
  lead : Tick
  trail : Tick
  deriving DecidableEq, Repr

/-- The Feed Scheduler. -/
structure Feed where
  path : PathState
  cls : Nat
  hold : Bool
  setEnd : Bool
  pickTimer : Option Tick
  holdoff : Option Tick
  ramp : Option Tick
  runOn : Option Tick
  selector : Queue
  normalMark : Bool
  priorityMark : Bool
  /-- the last-of-set flag of the last page bound since the path last entered IDLE (R48) -/
  lastBound : Option Bool
  /-- the job of the last page bound from each queue (R54) -/
  lastJobNormal : Option Nat
  lastJobPriority : Option Nat
  /-- the sheet whose pick is not yet confirmed (R57) -/
  unconfirmed : Option Nat
  merge : List Resv
  nextSheet : Nat
  exhausted : Bool
  trayEmpty : Vector Bool 5
  binFull : Vector Bool 2
  deriving DecidableEq, Repr

/-! ## Sheet Tracker (chapter 4) -/

/-- A step of an itinerary (R6): its leg, its place in the leg counting from 1, its station and its distance in dmm from the
previous itinerary station, or from the pick roller for the first. -/
structure Step where
  leg : LegName
  pos : Nat
  station : Fin 24
  dist : Nat
  deriving DecidableEq, Repr

/-- The expected arrival of a sheet and its windows (R20), with the transit it was computed from. -/
structure Expect where
  e : Tick
  wt : Nat
  wj : Nat
  transit : Nat
  deriving DecidableEq, Repr

/-- A sheet record (R68). Each bound page holds its own origin and image-ready flag. -/
structure Sheet where
  number : Nat
  /-- TRAY0 to TRAY3 are 0 to 3, INSERT is 4 -/
  source : Fin 5
  kind : SheetKind
  front : Option Page
  back : Option Page
  blankBack : Bool
  job : Nat
  set : Nat
  firstOfSet : Bool
  lastOfSet : Bool
  staple : Bool
  media : Nat
  cls : Nat
  dest : Dest
  pass : Pass
  itinerary : List Step
  /-- the step index: how many steps have been reached -/
  index : Nat
  lastPassed : Option (Fin 24)
  attempts : Nat
  anchor : Tick
  expect : Option Expect
  /-- the leading deadline while it is armed -/
  deadline : Option Tick
  covering : Option (Fin 24)
  frontSide : SideState
  backSide : SideState
  cond : Condition
  released : Bool
  deriving DecidableEq, Repr

/-- The Sheet Table and its revision (R69). -/
structure Table where
  sheets : List Sheet
  revision : Count32
  deriving DecidableEq, Repr

/-- A covering entry (R70): the trailing deadline is absent once cancelled. -/
structure Cover where
  sheet : Nat
  lead : Tick
  deadline : Option Tick
  deriving DecidableEq, Repr

/-- What the tracker holds for a station (R70). -/
structure Station where
  offset : Int
  /-- oldest first -/
  history : List Arrival
  outOfStep : Bool
  resync : Bool
  cover : Option Cover
  deriving DecidableEq, Repr

/-! ## Imaging Gate and image calls (chapter 5) -/

/-- An image call (R92). -/
structure Call where
  page : Nat
  side : Side
  sheet : Nat
  tick : Tick
  deriving DecidableEq, Repr

/-- The Image Call Queue and the deferred back calls (R92). -/
structure Calls where
  queue : List Call
  deferred : List Call
  deriving DecidableEq, Repr

/-- The Imaging Gate. -/
structure Gate where
  purgeCount : Nat
  purgeFull : Bool
  spoilCount : Nat
  deriving DecidableEq, Repr

/-! ## Episode Unit (chapters 6 and 7) -/

/-- A jam record (R106). Areas 0 to 7 are A to H, 8 is FINISHER. -/
structure Jam where
  kind : JamKind
  station : Option (Fin 24)
  door : Option (Fin 8)
  area : Option (Fin 9)
  sheet : Option Nat
  tick : Tick
  front : Option Nat
  back : Option Nat
  deriving DecidableEq, Repr

/-- The Episode Unit. The door levels are the filtered levels of the door lines (R117). -/
structure Episode where
  number : Count32
  isOpen : Bool
  firstKind : Option JamKind
  records : List Jam
  overflow : Nat
  areas : AreaSet
  sweepTimer : Option Tick
  barred : Bool
  /-- expiry tick of a STAPLE FAIL held over from UNCONFIGURED to the next PATH CLOSE (R106, R108, R119; entry 43) -/
  heldOver : Option Tick
  /-- DOOR conditions (R117) -/
  doorActive : Vector Bool 8
  deriving DecidableEq, Repr

/-! ## Recovery Planner (chapter 8) -/

/-- A Reprint List entry (R134). -/
structure Entry where
  page : Page
  reason : Reason
  deriving DecidableEq, Repr

/-- The Recovery Planner. -/
structure Planner where
  list : List Entry
  revision : Count32
  readThrough : Bool
  deriving DecidableEq, Repr

/-! ## Finisher Unit (chapter 9) -/

/-- A sheet held in the compile tray (R148). -/
structure Held where
  number : Nat
  job : Nat
  set : Nat
  pages : List Page
  staple : Bool
  lastOfSet : Bool
  delivered : Tick
  settling : Bool
  settleAt : Tick
  deriving DecidableEq, Repr

/-- The Finisher Unit: the Compile Set and its timers (R148, R151, R152). -/
structure Finisher where
  state : SetState
  /-- job and set number, absent in EMPTY -/
  ident : Option (Nat × Nat)
  toStaple : Bool
  closed : Bool
  stapled : Bool
  skipped : Bool
  abandoned : Bool
  disturbed : Bool
  /-- the eject that follows, or is under way, is a partial eject (R154) -/
  split : Bool
  ejected : Nat
  sheets : List Held
  stapleLimit : Option Tick
  ejectLimit : Option Tick
  deriving DecidableEq, Repr

/-! ## Statistics Unit (chapter 10) -/

/-- The settings and condition of a counter group (R161, R163). -/
structure GroupSet where
  width : Width
  watermark : Nat
  active : Bool
  deriving DecidableEq, Repr

/-- The Statistics Unit: the records of R160, their counters in the order of its table. -/
structure Stats where
  station : Vector (Vector Nat 3) 24
  tray : Vector (Vector Nat 3) 5
  path : Vector Nat 10
  stationSet : GroupSet
  traySet : GroupSet
  pathSet : GroupSet
  deriving DecidableEq, Repr

/-! ## Dry-Run Generator (chapter 11) -/

/-- A Fault Plan entry (R170). -/
structure FaultEntry where
  ordinal : Nat
  station : Nat
  kind : FaultKind
  amount : Int
  spent : Bool
  deriving DecidableEq, Repr

/-- A scheduled station edge (R168). `sheet` is absent for an EXTRA edge. `stretch`, `extras` and `dwell` are what the
trailing edge that follows will need. -/
structure Edge where
  station : Fin 24
  leading : Bool
  tick : Tick
  sheet : Option Nat
  stretch : Nat
  extras : Nat
  dwell : Nat
  deriving DecidableEq, Repr

/-- A scheduled finisher home edge (R169). -/
structure HomeEdge where
  /-- staple-home, or else eject-home -/
  staple : Bool
  tick : Tick
  deriving DecidableEq, Repr

/-- The Dry-Run Generator. -/
structure Dry where
  on : Bool
  firstSheet : Nat
  plan : List FaultEntry
  schedule : List Edge
  home : Option HomeEdge
  deriving DecidableEq, Repr

/-! ## Link Unit (chapter 12) -/

/-- The KIND and body of a frame (R173). -/
structure Frame where
  kind : Byte
  body : List Byte
  deriving DecidableEq, Repr

/-- The frame being sent, and whether it is a reply (R176, R177). -/
structure Sending where
  frame : Frame
  reply : Bool
  deriving DecidableEq, Repr

/-- The receiver (R174): hunting, or inside a frame with the bytes after the start byte, oldest first, and the tick of the last
byte of the frame. -/
inductive Receiver where
  | hunting
  | inFrame (bytes : List Byte) (last : Tick)
  deriving DecidableEq, Repr

/-- The receiver, the queues and the transmitter of the Link Unit. -/
structure Link where
  rate : Rate
  receiver : Receiver
  rxQueue : List Frame
  replies : List Frame
  sending : Option Sending
  fault : Bool
  faultTimer : Option Tick
  deriving DecidableEq, Repr

/-- The enable bits of NOTICE MASK (R178). -/
structure Mask where
  pathState : Bool
  door : Bool
  spoil : Bool
  setDone : Bool
  progress : Bool
  condition : Bool
  intakeLow : Bool
  deriving DecidableEq, Repr

/-- A pending JAM notice (R116): its content is fixed when it is made pending. -/
structure JamNote where
  episode : Count32
  /-- 1 to 4 -/
  position : Nat
  jam : Jam
  overflow : Nat
  areas : AreaSet
  deriving DecidableEq, Repr

/-- A pending SPOIL notice (R100). -/
structure SpoilNote where
  sheet : Nat
  page : Nat
  redirected : Nat
  deriving DecidableEq, Repr

/-- A pending SET DONE notice (R152). -/
structure SetDoneNote where
  job : Nat
  set : Nat
  count : Nat
  outcome : SetOutcome
  deriving DecidableEq, Repr

/-- What a pending COUNTER WATERMARK notice holds (R163). -/
structure WatermarkNote where
  watermark : Nat
  record : Nat
  counter : Nat
  deriving DecidableEq, Repr

/-- The pending notice set (R178). -/
structure Notices where
  /-- oldest first by the moment each was last made pending -/
  jams : List JamNote
  planReady : Bool
  pathState : Bool
  door : Vector Bool 8
  spoil : Option SpoilNote
  setDone : Option SetDoneNote
  progress : Vector Bool 8
  trayEmpty : Vector Bool 5
  binFull : Vector Bool 2
  purgeFull : Bool
  outOfStep : Vector Bool 24
  wmStation : Option WatermarkNote
  wmTray : Option WatermarkNote
  wmPath : Option WatermarkNote
  linkFault : Bool
  exhausted : Bool
  lowNormal : Bool
  lowPriority : Bool
  deriving DecidableEq, Repr

/-! ## The whole -/

/-- The part: all its blocks. -/
structure Part where
  tick : Tick
  lines : Lines
  stored : Desc
  force : Desc
  link : Link
  mask : Mask
  notices : Notices
  calls : Calls
  intake : Intake
  feed : Feed
  out : Outputs
  table : Table
  stations : Vector Station 24
  gate : Gate
  episode : Episode
  planner : Planner
  finisher : Finisher
  stats : Stats
  dry : Dry
  deriving DecidableEq, Repr

/-- The machine: the queue of waiting commands, first in first out, and the part. -/
structure State where
  pending : List Instr
  part : Part
  deriving DecidableEq, Repr

/-- No command stops the part: the spec's jams, refusals by result code and discards are effects on State, so there is no
fault to name. -/
inductive Fault where
  deriving DecidableEq, Repr

/-- Refusals. -/
inductive Refusal where
  /-- Raised by `exec` alone, for a command without a meaning. No arm of this model raises it. Safe: the machine stops. -/
  | notModelled (mnemonic : String)
  deriving DecidableEq, Repr

/-! ## Hardware reset -/

/-- The timing settings after hardware reset (R10). -/
def Timing.reset : Timing where
  q := 12
  wmin := 100
  jam := 400
  omax := 1000
  window := 4
  autoResync := true
  gap := 500
  caution := 200
  multifeed := 150
  holdoff := 20000
  readyGate := .front
  loop := 3
  autoSweep := true
  markNormal := 8
  markPriority := 2

/-- Both descriptions after hardware reset (R18). -/
def Desc.reset : Desc where
  stations := .replicate 24 none
  legs := .replicate 11 none
  drive := none
  trays := .replicate 5 none
  bins := .replicate 2 none
  purge := none
  doors := .replicate 8 none
  timing := .reset
  capacity := 50
  finisher := none
  inputs := .replicate 32 ⟨true, 3⟩
  restHigh := .replicate 24 false

/-- The input lines after hardware reset, from the levels at the pins: R13 takes the filtered level at once through the
polarity in force, which R18 makes HIGH. -/
def Lines.reset (pin : Vector Bool 32) : Lines where
  pin := pin
  level := pin
  run := .replicate 32 0

/-- Every output at rest (R18). -/
def Outputs.reset : Outputs where
  enFeed := false
  enProcess := false
  enDuplex := false
  enDelivery := false
  presented := 0
  clutch := .replicate 5 false
  exitGate := false
  purgeGate := false
  stapler := false
  ejector := false

/-- The Link Unit after hardware reset (R175, R182). -/
def Link.reset (rate : Rate) : Link where
  rate := rate
  receiver := .hunting
  rxQueue := []
  replies := []
  sending := none
  fault := false
  faultTimer := none

/-- Every notice kind enabled (R178). -/
def Mask.reset : Mask := ⟨true, true, true, true, true, true, true⟩

/-- No notice pending (R178). -/
def Notices.reset : Notices where
  jams := []
  planReady := false
  pathState := false
  door := .replicate 8 false
  spoil := none
  setDone := none
  progress := .replicate 8 false
  trayEmpty := .replicate 5 false
  binFull := .replicate 2 false
  purgeFull := false
  outOfStep := .replicate 24 false
  wmStation := none
  wmTray := none
  wmPath := none
  linkFault := false
  exhausted := false
  lowNormal := false
  lowPriority := false

/-- The Intake Unit after hardware reset: the INTAKE LOW conditions stand active (R42). -/
def Intake.reset : Intake where
  normal := []
  priority := []
  slots := .replicate 8 none
  lowNormal := true
  lowPriority := true

/-- The Feed Scheduler after hardware reset (R67). TRAY EMPTY and BIN FULL, first judged at the first PATH CLOSE, are inactive until
then (entry 35). -/
def Feed.reset : Feed where
  path := .unconfigured
  cls := 0
  hold := false
  setEnd := false
  pickTimer := none
  holdoff := none
  ramp := none
  runOn := none
  selector := .normal
  normalMark := true
  priorityMark := true
  lastBound := none
  lastJobNormal := none
  lastJobPriority := none
  unconfirmed := none
  merge := []
  nextSheet := 1
  exhausted := false
  trayEmpty := .replicate 5 false
  binFull := .replicate 2 false

/-- A station's state after hardware reset (R91). -/
def Station.reset : Station := ⟨0, [], false, false, none⟩

/-- The Episode Unit after hardware reset (R107, R123, R133). -/
def Episode.reset : Episode where
  number := 0
  isOpen := false
  firstKind := none
  records := []
  overflow := 0
  areas := 0
  sweepTimer := none
  barred := false
  heldOver := none
  doorActive := .replicate 8 false

/-- The Finisher Unit with an EMPTY Compile Set and idle timers (R159). -/
def Finisher.reset : Finisher where
  state := .empty
  ident := none
  toStaple := false
  closed := false
  stapled := false
  skipped := false
  abandoned := false
  disturbed := false
  split := false
  ejected := 0
  sheets := []
  stapleLimit := none
  ejectLimit := none

/-- A counter group after hardware reset (R165). -/
def GroupSet.reset : GroupSet := ⟨.narrow, 0, false⟩

/-- The Statistics Unit after hardware reset (R165). -/
def Stats.reset : Stats where
  station := .replicate 24 (.replicate 3 0)
  tray := .replicate 5 (.replicate 3 0)
  path := .replicate 10 0
  stationSet := .reset
  traySet := .reset
  pathSet := .reset

/-- The Dry-Run Generator after hardware reset (R172). -/
def Dry.reset : Dry := ⟨false, 1, [], [], none⟩

/-- The part after hardware reset, with the serial rate the straps give (R173) and the levels then at the input pins. -/
def Part.reset (rate : Rate) (pin : Vector Bool 32) : Part where
  tick := 0
  lines := .reset pin
  stored := .reset
  force := .reset
  link := .reset rate
  mask := .reset
  notices := .reset
  calls := ⟨[], []⟩
  intake := .reset
  feed := .reset
  out := .reset
  table := ⟨[], 0⟩
  stations := .replicate 24 .reset
  gate := ⟨0, false, 0⟩
  episode := .reset
  planner := ⟨[], 0, false⟩
  finisher := .reset
  stats := .reset
  dry := .reset

/-- The machine right after hardware reset. DESIGN CHOICE (entry 8): both strap pins and all 32 input pins are low, which
are levels from outside that the spec does not give. -/
def State.reset : State := ⟨[], .reset .baud115200 (.replicate 32 false)⟩

end Sys2Proof.Machine
end

