-- ==== Sys2Proof/Machine/Operands.lean ====
section
/-! DEFINITION. How a request's body is read (12 section 12.7): numbers high byte first, enumerated fields by position, and the
ranges of each request's fields. A reading answers none where a field is out of range (R2). -/

namespace Sys2Proof.Machine

/-! ## Numbers -/

/-- Bytes as a number, high byte first (12.7). -/
def beNat (l : List Byte) : Nat := l.foldl (fun a b => a * 256 + b.toNat) 0

/-- The number in `n` bytes at offset `i` of a body. -/
def numAt (b : List Byte) (i n : Nat) : Nat := beNat ((b.drop i).take n)

/-- The signed number in four bytes at offset `i`: two's complement (12.7). -/
def intAt (b : List Byte) (i : Nat) : Int := (BitVec.ofNat 32 (numAt b i 4)).toInt

/-- A number below `n`. -/
def below (n v : Nat) : Option (Fin n) := if h : v < n then some ⟨v, h⟩ else none

/-- A number in a range, ends included (R1). -/
def within (lo hi v : Nat) : Option Nat := if lo ≤ v ∧ v ≤ hi then some v else none

/-- A value only where a condition holds. -/
def onlyIf {α : Type} (c : Bool) (x : α) : Option α := if c then some x else none

/-! ## Enumerations, by position (12.7) -/

/-- A flag of one byte: 0 clear, 1 set (12.7). -/
def flagOf : Nat → Option Bool
  | 0 => some false
  | 1 => some true
  | _ => none

/-- ON or OFF, in that order (R10, R166). -/
def onOffOf (v : Nat) : Option Bool := (flagOf v).map (!·)

/-- HIGH or LOW, in that order (R13, R14). -/
def highLowOf (v : Nat) : Option Bool := (flagOf v).map (!·)

/-- Roles, in the order of R3. -/
def roleAt (v : Nat) : Option Role :=
  [Role.plain, .registration, .exit, .purgeGate, .binEntry0, .binEntry1, .finisherEntry, .purgeEntry][v]?

/-- Drives, in the order of R3. -/
def driveAt (v : Nat) : Option Drive := [Drive.feed, .process, .duplex, .delivery][v]?

/-- Legs, in the order of R5. -/
def legAt (v : Nat) : Option LegName :=
  [LegName.tray0, .tray1, .tray2, .tray3, .insert, .main, .duplex, .deliverBin0, .deliverBin1, .deliverFinisher,
    .deliverPurge][v]?

/-- Sides, in the order of R25. -/
def sideAt (v : Nat) : Option Side := [Side.simplex, .front, .back, .insert][v]?

/-- Ready gate settings, in the order of R10. -/
def readyGateAt (v : Nat) : Option ReadyGate := [ReadyGate.off, .front, .both][v]?

/-- Counter groups, in the order of R162. -/
def groupAt (v : Nat) : Option Group := [Group.station, .tray, .path][v]?

/-- Widths, in the order of R162. -/
def widthAt (v : Nat) : Option Width := [Width.narrow, .wide][v]?

/-- Faults, in the order of R170. -/
def faultAt (v : Nat) : Option FaultKind := [FaultKind.delay, .omit, .stretch, .extra, .noStaple][v]?

/-! ## Body lengths (12.3) -/

/-- The body has a given length. -/
def lengthIs (b : List Byte) (n : Nat) : Bool := b.length == n

/-- The body of LEG DEF: 4 + 3k bytes, k from 1 to 8. -/
def legLengthOk (b : List Byte) : Bool := (List.range 8).any fun k => b.length == 4 + 3 * (k + 1)

/-- The body of FAULT PLAN: 8k bytes, k from 0 to 8. -/
def planLengthOk (b : List Byte) : Bool := (List.range 9).any fun k => b.length == 8 * k

/-! ## Definition requests (R3 to R14) -/

/-- STATION DEF (R3): with REMOVE only the id and the action are read; a gate line is read for EXIT and PURGE GATE alone. -/
def readStation (b : List Byte) : Option (Fin 24 × Option StationDef) := do
  let id ← below 24 (numAt b 0 1)
  match numAt b 1 1 with
  | 1 => some (id, none)
  | 0 => do
    let line ← below 32 (numAt b 2 1)
    let role ← roleAt (numAt b 3 1)
    let area ← below 8 (numAt b 4 1)
    let drive ← driveAt (numAt b 5 1)
    let gate ← if role = .exit ∨ role = .purgeGate then (below 24 (numAt b 6 1)).map some else some none
    some (id, some ⟨line, role, area, drive, gate⟩)
  | _ => none

/-- One step of LEG DEF: a station byte and a two-byte distance (12.7). -/
def readLegStep (b : List Byte) (i : Nat) : Option LegStep := do
  let st ← below 24 (numAt b (2 + 3 * i) 1)
  let dist ← within 1 20000 (numAt b (3 + 3 * i) 2)
  some ⟨st, dist⟩

/-- LEG DEF (R5): the step count must be the number of steps carried (entry 12); the end distance is read for a leg that has
one. -/
def readLeg (b : List Byte) : Option (LegName × Leg) := do
  let k := (b.length - 4) / 3
  let leg ← legAt (numAt b 0 1)
  let _ ← onlyIf (numAt b 1 1 == k) ()
  let steps ← (List.range k).mapM (readLegStep b)
  let endDist ← if leg = .duplex ∨ leg = .insert ∨ leg = .tray0 ∨ leg = .tray1 ∨ leg = .tray2 ∨ leg = .tray3 then
    within 1 20000 (numAt b (2 + 3 * k) 2) else some 0
  some (leg, ⟨steps, endDist⟩)

/-- DRIVE DEF (R7). -/
def readDrive (b : List Byte) : Option DriveSet := do
  let speed0 ← within 100 600 (numAt b 0 2)
  let speed1 ← within 100 600 (numAt b 2 2)
  let speed2 ← within 100 600 (numAt b 4 2)
  let ramp ← within 200 60000 (numAt b 6 2)
  let runOn ← within 0 200000 (numAt b 8 4)
  let sweep ← within 2000 200000 (numAt b 12 4)
  let feedLine ← below 24 (numAt b 16 1)
  let processLine ← below 24 (numAt b 17 1)
  let duplexLine ← below 24 (numAt b 18 1)
  let deliveryLine ← below 24 (numAt b 19 1)
  let select0 ← below 24 (numAt b 20 1)
  let select1 ← below 24 (numAt b 21 1)
  some { speed0, speed1, speed2, ramp, runOn, sweep, feedLine, processLine, duplexLine, deliveryLine, select0, select1 }

/-- What TRAY DEF sets (R8). -/
inductive UnitSet where
  | tray (u : Fin 5) (x : TraySet)
  | bin (b : Fin 2) (line : Fin 32)
  | purge (x : PurgeSet)
  deriving DecidableEq, Repr

/-- The settings of a tray unit (R8). -/
def readTray (b : List Byte) (u : Fin 5) : Option UnitSet := do
  let clutch ← below 24 (numAt b 1 1)
  let present ← below 32 (numAt b 2 1)
  let paperOut ← below 32 (numAt b 3 1)
  let retries ← within 0 2 (numAt b 4 1)
  some (.tray u ⟨clutch, present, paperOut, retries⟩)

/-- TRAY DEF (R8): the unit reads the setting bytes it uses (12.7). `count` is the purge count, which no capacity may be
below. -/
def readUnit (b : List Byte) (count : Nat) : Option UnitSet :=
  match numAt b 0 1 with
  | 0 => readTray b 0
  | 1 => readTray b 1
  | 2 => readTray b 2
  | 3 => readTray b 3
  | 4 => readTray b 4
  | 5 => (below 32 (numAt b 1 1)).map (.bin 0)
  | 6 => (below 32 (numAt b 1 1)).map (.bin 1)
  | 7 => do
    let removed ← below 32 (numAt b 1 1)
    let capacity ← within 30 250 (numAt b 2 1)
    onlyIf (decide (count ≤ capacity)) (.purge ⟨removed, capacity⟩)
  | _ => none

/-- DOOR DEF (R9): every field is checked whatever the action (entry 13). -/
def readDoor (b : List Byte) : Option (Fin 8 × Option DoorDef) := do
  let id ← below 8 (numAt b 0 1)
  let remove ← flagOf (numAt b 1 1)
  let line ← below 32 (numAt b 2 1)
  let finisher ← flagOf (numAt b 4 1)
  some (id, if remove then none else some ⟨line, BitVec.ofNat 8 (numAt b 3 1), finisher⟩)

/-- TIMING DEF (R10). -/
def readTiming (b : List Byte) : Option Timing := do
  let q ← within 1 64 (numAt b 0 1)
  let wmin ← within 20 2000 (numAt b 1 2)
  let jam ← within 20 20000 (numAt b 3 2)
  let omax ← within 0 4000 (numAt b 5 2)
  let window ← within 4 5 (numAt b 7 1)
  let autoResync ← onOffOf (numAt b 8 1)
  let gap ← within 200 2000 (numAt b 9 2)
  let caution ← within 0 1000 (numAt b 11 2)
  let multifeed ← within 20 500 (numAt b 13 2)
  let holdoff ← within 0 200000 (numAt b 15 4)
  let readyGate ← readyGateAt (numAt b 19 1)
  let loop ← within 1 6 (numAt b 20 1)
  let autoSweep ← onOffOf (numAt b 21 1)
  let markNormal ← within 0 63 (numAt b 22 1)
  let markPriority ← within 0 15 (numAt b 23 1)
  some { q, wmin, jam, omax, window, autoResync, gap, caution, multifeed, holdoff, readyGate, loop, autoSweep, markNormal,
         markPriority }

/-- FINISHER DEF (R11): the compile capacity and the other settings. -/
def readFinisher (b : List Byte) : Option (Nat × FinisherSet) := do
  let capacity ← within 2 100 (numAt b 0 1)
  let nominal ← within 200 40000 (numAt b 1 2)
  let limit ← within 400 80000 (numAt b 3 4)
  let eject ← within 200 40000 (numAt b 7 2)
  let settle ← within 0 4000 (numAt b 9 2)
  let stapler ← below 24 (numAt b 11 1)
  let ejector ← below 24 (numAt b 12 1)
  let stapleHome ← below 32 (numAt b 13 1)
  let ejectHome ← below 32 (numAt b 14 1)
  let compileTray ← below 32 (numAt b 15 1)
  onlyIf (decide (nominal < limit))
    (capacity, { nominal, limit, eject, settle, stapler, ejector, stapleHome, ejectHome, compileTray })

/-- What LINE DEF sets (R14): direction 0 is an input line, 1 an output line; for an output line the filter is ignored (12.7). -/
def readLine (b : List Byte) : Option ((Fin 32 × InputSet) ⊕ (Fin 24 × Bool)) := do
  let output ← flagOf (numAt b 0 1)
  let high ← highLowOf (numAt b 2 1)
  if output then do
    let line ← below 24 (numAt b 1 1)
    some (.inr (line, high))
  else do
    let line ← below 32 (numAt b 1 1)
    let filter ← within 0 15 (numAt b 3 1)
    some (.inl (line, ⟨high, filter⟩))

/-! ## Other requests -/

/-- NOTICE MASK: bits 0 to 6 (12.7). -/
def readMask (b : List Byte) : Mask :=
  let w := b.headD 0
  ⟨w.getLsbD 0, w.getLsbD 1, w.getLsbD 2, w.getLsbD 3, w.getLsbD 4, w.getLsbD 5, w.getLsbD 6⟩

/-- The PAGE body as the record to be stored (R25, R30; 12.7): staple stands only with destination FINISHER, no-back only on a
FRONT. None where the side is outside its values. -/
def readPage (b : List Byte) : Option Page := do
  let side ← sideAt (numAt b 7 1)
  let flags := b.getD 8 0
  let dest := numAt b 13 1
  some {
    id := numAt b 0 4
    job := numAt b 4 1
    set := numAt b 5 2
    side := side
    noBack := flags.getLsbD 0 && side == .front
    firstOfSet := flags.getLsbD 1
    lastOfSet := flags.getLsbD 2
    staple := flags.getLsbD 3 && dest == 2
    lastOfJob := flags.getLsbD 4
    priority := flags.getLsbD 5
    tray := numAt b 9 1
    media := numAt b 10 2
    cls := numAt b 12 1
    dest := dest
    ready := false
    origin := none }

/-- The fields of a record are in range and it is consistent in itself (R27): a BACK's fields are not examined, nor an INSERT's
tray. -/
def Page.consistent (p : Page) : Bool :=
  (p.side == .back || ((p.side == .insert || decide (p.tray ≤ 3)) && decide (1000 ≤ p.media) && decide (p.media ≤ 6000)
      && decide (p.cls ≤ 2) && decide (p.dest ≤ 2)))
    && !(p.side == .front && !p.noBack && p.lastOfJob)

/-- The group, index and clear flag of COUNTER READ (R164). -/
def readCounter (b : List Byte) : Option (Group × Nat × Bool) := do
  let g ← groupAt (numAt b 0 1)
  let i ← within 0 (match g with | .station => 23 | .tray => 4 | .path => 0) (numAt b 1 1)
  let c ← flagOf (numAt b 2 1)
  some (g, i, c)

/-- The group, width and watermark of COUNTER WIDTH (R162). -/
def readWidth (b : List Byte) : Option (Group × Width × Nat) := do
  let g ← groupAt (numAt b 0 1)
  let w ← widthAt (numAt b 1 1)
  let m ← within 0 (match w with | .narrow => 65535 | .wide => 16777215) (numAt b 2 4)
  some (g, w, m)

/-- Entry `i` of FAULT PLAN (R170), unspent: the station is ignored for NO STAPLE, the amount except for DELAY and STRETCH. -/
def readFault (b : List Byte) (i : Nat) : Option FaultEntry := do
  let ordinal ← within 1 65535 (numAt b (8 * i) 2)
  let station := numAt b (8 * i + 2) 1
  let kind ← faultAt (numAt b (8 * i + 3) 1)
  let amount := intAt b (8 * i + 4)
  let _ ← onlyIf (kind == .noStaple || decide (station ≤ 23)) ()
  let _ ← onlyIf (match kind with
    | .delay => decide (-20000 ≤ amount ∧ amount ≤ 20000)
    | .stretch => decide (1 ≤ amount ∧ amount ≤ 100000)
    | _ => true) ()
  some ⟨ordinal, station, kind, amount, false⟩

/-- FAULT PLAN (R170). -/
def readFaultPlan (b : List Byte) : Option (List FaultEntry) := (List.range (b.length / 8)).mapM (readFault b)

end Sys2Proof.Machine
end

