-- ==== Sys2Proof/Machine/Timing.lean ====
section
/-! DEFINITION. Tick comparisons (R1), what the path description says of a place (chapter 1), and the timing arithmetic of 01
section 1.10. All divisions truncate; where a formula rounds, the rounding is written out (R1). -/

namespace Sys2Proof.Machine

/-! ## Ticks (R1) -/

/-- Later minus earlier, as the signed 32-bit difference (R1). -/
def since (earlier later : Tick) : Int := (later - earlier).toInt

/-- `a` is before `b` or the same tick. -/
def notAfter (a b : Tick) : Bool := decide (0 ≤ since a b)

/-- `a` is before `b`. -/
def isBefore (a b : Tick) : Bool := decide (0 < since a b)

/-- The later of two ticks. -/
def laterOf (a b : Tick) : Tick := if notAfter a b then b else a

/-- The tick `n` ticks on. -/
def plusTicks (a : Tick) (n : Nat) : Tick := a + BitVec.ofNat 32 n

/-- The tick moved by a signed number of ticks. -/
def plusInt (a : Tick) (i : Int) : Tick := a + BitVec.ofInt 32 i

/-! ## The path description -/

/-- Position of a leg in the list of R5. -/
def LegName.pos : LegName → Fin 11
  | .tray0 => 0 | .tray1 => 1 | .tray2 => 2 | .tray3 => 3 | .insert => 4 | .main => 5 | .duplex => 6
  | .deliverBin0 => 7 | .deliverBin1 => 8 | .deliverFinisher => 9 | .deliverPurge => 10

/-- All legs, in the order of R15. -/
def allLegs : List LegName :=
  [.tray0, .tray1, .tray2, .tray3, .insert, .main, .duplex, .deliverBin0, .deliverBin1, .deliverFinisher, .deliverPurge]

/-- The four DELIVER legs, in the order of R15. -/
def deliverLegs : List LegName := [.deliverBin0, .deliverBin1, .deliverFinisher, .deliverPurge]

/-- A DELIVER leg. -/
def LegName.isDeliver : LegName → Bool
  | .deliverBin0 | .deliverBin1 | .deliverFinisher | .deliverPurge => true
  | _ => false

/-- A tray leg or the INSERT leg. -/
def LegName.isFeed : LegName → Bool
  | .tray0 | .tray1 | .tray2 | .tray3 | .insert => true
  | _ => false

/-- A leg with an end distance: a tray leg, INSERT or DUPLEX (R5). -/
def LegName.hasEnd (l : LegName) : Bool := l.isFeed || decide (l = .duplex)

/-- The leg of a tray unit (R6). -/
def feedLegOf (u : Fin 5) : LegName :=
  if u = 0 then .tray0 else if u = 1 then .tray1 else if u = 2 then .tray2 else if u = 3 then .tray3 else .insert

/-- The DELIVER leg of a destination (R6). -/
def deliverLegOf : Dest → LegName
  | .bin0 => .deliverBin0 | .bin1 => .deliverBin1 | .finisher => .deliverFinisher | .purge => .deliverPurge

/-- A leg of a description; an undefined one has no step. -/
def Desc.leg (d : Desc) (l : LegName) : Leg := (d.legs[l.pos]).getD ⟨[], 0⟩

/-- The role of a defined station. -/
def Desc.roleOf (d : Desc) (st : Fin 24) : Option Role := (d.stations[st]).map StationDef.role

/-- The drive of a defined station. -/
def Desc.driveOf (d : Desc) (st : Fin 24) : Option Drive := (d.stations[st]).map StationDef.drive

/-- A defined station's removal area, as a set; empty for an undefined one. -/
def Desc.areaOf (d : Desc) (st : Fin 24) : AreaSet :=
  match d.stations[st] with
  | some x => BitVec.ofNat 9 (2 ^ x.area.val)
  | none => 0

/-- A defined station's removal area as a jam record names it. -/
def Desc.areaName (d : Desc) (st : Fin 24) : Option (Fin 9) := (d.stations[st]).map fun x => x.area.castSucc

/-- The lowest-numbered station with a role (PATH CLOSE leaves one of each role but PLAIN, R16). -/
def Desc.stationWith (d : Desc) (r : Role) : Option (Fin 24) :=
  (List.finRange 24).find? fun st => d.roleOf st == some r

/-- The speed in mm/s of a speed class (R7). -/
def Desc.speed (d : Desc) (cls : Nat) : Nat :=
  match d.drive with
  | none => 0
  | some x => if cls = 0 then x.speed0 else if cls = 1 then x.speed1 else x.speed2

/-- The slowest class: the lowest-numbered of those with the lowest speed (R7). -/
def Desc.slowest (d : Desc) : Nat :=
  if d.speed 0 ≤ d.speed 1 ∧ d.speed 0 ≤ d.speed 2 then 0 else if d.speed 1 ≤ d.speed 2 then 1 else 2

/-- The steps of a leg as itinerary steps: the first one's distance is raised by `extra`, which is the end distance of the
leg just left where the leg is MAIN (R6). -/
def Desc.legSteps (d : Desc) (l : LegName) (extra : Nat) : List Step :=
  (d.leg l).steps.mapIdx fun i x => ⟨l, i + 1, x.station, if i = 0 then x.dist + extra else x.dist⟩

/-- The itinerary of a sheet (R6). -/
def Desc.itinerary (d : Desc) (kind : SheetKind) (source : Fin 5) (dest : Dest) : List Step :=
  let feed := feedLegOf source
  let toMain := d.legSteps feed 0 ++ d.legSteps .main (d.leg feed).endDist
  let loop := d.legSteps .duplex 0 ++ d.legSteps .main (d.leg .duplex).endDist
  let deliver := d.legSteps (deliverLegOf dest) 0
  match kind with
  | .duplex => toMain ++ loop ++ deliver
  | .simplex | .insert => toMain ++ deliver

/-- The itinerary with its DELIVER steps replaced by those of DELIVER PURGE (R6). -/
def Desc.toPurge (d : Desc) (it : List Step) : List Step :=
  it.filter (fun x => !x.leg.isDeliver) ++ d.legSteps .deliverPurge 0

/-- The steps up to and including the first whose station has a role. -/
def Desc.through (d : Desc) (r : Role) : List Step → List Step
  | [] => []
  | x :: rest => if d.roleOf x.station = some r then [x] else x :: d.through r rest

/-- The itinerary distance over some steps (R6). -/
def distanceOver (steps : List Step) : Nat := (steps.map Step.dist).sum

/-- The sum of the learned offsets of the stations of some steps (R23, R24). -/
def offsetsOver (stations : Vector Station 24) (steps : List Step) : Int :=
  (steps.map fun x => (stations[x.station]).offset).sum

/-! ## Timing arithmetic -/

/-- The nominal transit of `d` dmm at `v` mm/s, rounded half up (R19). -/
def transit (d v : Nat) : Nat := (d * 2000 + v / 2) / v

/-- The inner window Wt (R20). -/
def innerWindow (tm : Timing) (T : Nat) : Nat := max tm.wmin (T * tm.q / 256)

/-- The outer window Wj (R20). -/
def outerWindow (tm : Timing) (T : Nat) : Nat := innerWindow tm T + tm.jam

/-- The expected arrival and windows over a step distance, from an anchor, at a learned offset (R20). -/
def expectAt (tm : Timing) (v : Nat) (anchor : Tick) (dist : Nat) (offset : Int) : Expect :=
  let T := transit dist v
  ⟨plusInt (plusTicks anchor T) offset, innerWindow tm T, outerWindow tm T, T⟩

/-- The leading deadline (R20). -/
def Expect.deadline (x : Expect) : Tick := plusTicks x.e x.wj

/-- The judgement of an arrival `delta` ticks after the expected one, none for EARLY ARRIVAL (R20). One later than Wj, which
the deadline's expiry precedes, counts as DRIFT (entry 2). -/
def judgeArrival (x : Expect) (delta : Int) : Option Arrival :=
  if delta < -(x.wj : Int) then none
  else if -(x.wt : Int) ≤ delta ∧ delta ≤ (x.wt : Int) then some .onTime
  else some .drift

/-- A value held to −Omax … +Omax (R21). -/
def clampOffset (omax : Nat) (x : Int) : Int := max (-(omax : Int)) (min x (omax : Int))

/-- The learned offset after an arrival with raw error `r` (R21): one eighth of δ, truncating toward zero, or the raw error
itself when the arrival resynchronises. -/
def updatedOffset (omax : Nat) (resync : Bool) (old r : Int) : Int :=
  clampOffset omax (if resync then r else old + (r - old).tdiv 8)

/-- The time a sheet takes to pass a sensor (R22). -/
def dwell (media v : Nat) : Nat := (media * 2000 + v / 2) / v

/-- The multifeed allowance Tm (R22). -/
def multifeedTicks (tm : Timing) (v : Nat) : Nat := (tm.multifeed * 2000 + v / 2) / v

/-- The trailing deadline of a sheet whose arrival is taken at `a` (R22). -/
def trailingDeadline (tm : Timing) (v media : Nat) (a : Tick) : Tick :=
  plusTicks a (dwell media v + multifeedTicks tm v + tm.jam)

/-- The measured length in dmm (R22). -/
def measuredLength (v : Nat) (lead trail : Tick) : Nat := ((since lead trail).toNat * v + 1000) / 2000

/-- The merge gap Gt in ticks (R23): the caution gap counts while any station is OUT OF STEP. -/
def mergeGap (tm : Timing) (anyOut : Bool) (v : Nat) : Nat :=
  ((tm.gap + if anyOut then tm.caution else 0) * 2000 + v / 2) / v

/-- The step state after an outcome has entered the history (R80). -/
def judgedOutOfStep (wasOut : Bool) (history : List Arrival) : Bool :=
  if wasOut then !(decide (3 ≤ history.length) && (history.reverse.take 3).all (· == .onTime))
  else decide (2 ≤ history.count .drift)

/-- The history with an outcome entered at its newest end, the oldest leaving first when it is full (R80). -/
def enterOutcome (n : Nat) (history : List Arrival) (o : Arrival) : List Arrival :=
  let h := if n ≤ history.length then history.drop (history.length + 1 - n) else history
  h ++ [o]

end Sys2Proof.Machine
end

