-- ==== Sys2Proof/Machine/Modify.lean ====
section
/-! DEFINITION. One modifier for each block of the part: every operation on State is written over these. -/

namespace Sys2Proof.Machine

/-- The part with its tick changed by `g`. -/
def Part.modTick (s : Part) (g : Tick → Tick) : Part := { s with tick := g s.tick }

/-- The part with its lines changed by `g`. -/
def Part.modLines (s : Part) (g : Lines → Lines) : Part := { s with lines := g s.lines }

/-- The part with its stored changed by `g`. -/
def Part.modStored (s : Part) (g : Desc → Desc) : Part := { s with stored := g s.stored }

/-- The part with its force changed by `g`. -/
def Part.modForce (s : Part) (g : Desc → Desc) : Part := { s with force := g s.force }

/-- The part with its link changed by `g`. -/
def Part.modLink (s : Part) (g : Link → Link) : Part := { s with link := g s.link }

/-- The part with its mask changed by `g`. -/
def Part.modMask (s : Part) (g : Mask → Mask) : Part := { s with mask := g s.mask }

/-- The part with its notices changed by `g`. -/
def Part.modNotices (s : Part) (g : Notices → Notices) : Part := { s with notices := g s.notices }

/-- The part with its calls changed by `g`. -/
def Part.modCalls (s : Part) (g : Calls → Calls) : Part := { s with calls := g s.calls }

/-- The part with its intake changed by `g`. -/
def Part.modIntake (s : Part) (g : Intake → Intake) : Part := { s with intake := g s.intake }

/-- The part with its feed changed by `g`. -/
def Part.modFeed (s : Part) (g : Feed → Feed) : Part := { s with feed := g s.feed }

/-- The part with its out changed by `g`. -/
def Part.modOut (s : Part) (g : Outputs → Outputs) : Part := { s with out := g s.out }

/-- The part with its table changed by `g`. -/
def Part.modTable (s : Part) (g : Table → Table) : Part := { s with table := g s.table }

/-- The part with its stations changed by `g`. -/
def Part.modStations (s : Part) (g : (Vector Station 24) → (Vector Station 24)) : Part := { s with stations := g s.stations }

/-- The part with its gate changed by `g`. -/
def Part.modGate (s : Part) (g : Gate → Gate) : Part := { s with gate := g s.gate }

/-- The part with its episode changed by `g`. -/
def Part.modEpisode (s : Part) (g : Episode → Episode) : Part := { s with episode := g s.episode }

/-- The part with its planner changed by `g`. -/
def Part.modPlanner (s : Part) (g : Planner → Planner) : Part := { s with planner := g s.planner }

/-- The part with its finisher changed by `g`. -/
def Part.modFinisher (s : Part) (g : Finisher → Finisher) : Part := { s with finisher := g s.finisher }

/-- The part with its stats changed by `g`. -/
def Part.modStats (s : Part) (g : Stats → Stats) : Part := { s with stats := g s.stats }

/-- The part with its dry changed by `g`. -/
def Part.modDry (s : Part) (g : Dry → Dry) : Part := { s with dry := g s.dry }

end Sys2Proof.Machine
end

