-- ==== Sys2Proof/Machine/Ops.lean ====
section
/-! DEFINITION. The named operations over the part's registers and tables that the blocks share: time, line levels and roles,
output lines, notices and counters, the Sheet Table, the Merge Reservation List, the Image Call Queue, the Reprint List and
the schedule of synthesised edges. -/

namespace Sys2Proof.Machine

/-! ## Time -/

/-- The event is taken at tick `t`. Tick Time does not run backward: a command stamped before it is taken at Tick Time
(entry 2). -/
def Part.advance (s : Part) (t : Tick) : Part := s.modTick fun now => laterOf now t

/-! ## Input lines (R12, R13) -/

/-- The role of an input line: what the description in force names it for (R12). -/
inductive InputRole where
  | station (st : Fin 24)
  | present (u : Fin 5)
  | paperOut (u : Fin 5)
  | binFull (b : Fin 2)
  | purgeRemoved
  | door (d : Fin 8)
  | stapleHome
  | ejectHome
  | compileTray
  deriving DecidableEq, Repr

/-- The line a role names, if the description defines it. -/
def Desc.lineOf (d : Desc) : InputRole → Option (Fin 32)
  | .station st => (d.stations[st]).map StationDef.line
  | .present u => (d.trays[u]).map TraySet.present
  | .paperOut u => (d.trays[u]).map TraySet.paperOut
  | .binFull b => d.bins[b]
  | .purgeRemoved => d.purge.map PurgeSet.removed
  | .door i => (d.doors[i]).map DoorDef.line
  | .stapleHome => d.finisher.map FinisherSet.stapleHome
  | .ejectHome => d.finisher.map FinisherSet.ejectHome
  | .compileTray => d.finisher.map FinisherSet.compileTray

/-- Every input role. -/
def allInputRoles : List InputRole :=
  (List.finRange 24).map .station ++ (List.finRange 5).map .present ++ (List.finRange 5).map .paperOut
    ++ (List.finRange 2).map .binFull ++ [.purgeRemoved] ++ (List.finRange 8).map .door
    ++ [.stapleHome, .ejectHome, .compileTray]

/-- The role of a line in a description (R12); PATH CLOSE leaves at most one (R17). -/
def Desc.roleOfLine (d : Desc) (line : Fin 32) : Option InputRole :=
  allInputRoles.find? fun r => d.lineOf r == some line

/-- The filtered level of the line a role names; not asserted where the role has no line. -/
def Part.levelOf (s : Part) (r : InputRole) : Bool :=
  match s.force.lineOf r with
  | some line => s.lines.level[line]
  | none => false

/-- An edge of a line to a level, as a command gives it: the filter is satisfied, so the pin stands at that level too
(entry 4). -/
def Lines.edge (l : Lines) (inputs : Vector InputSet 32) (line : Fin 32) (asserted : Bool) : Lines where
  pin := l.pin.set line (asserted == (inputs[line]).high)
  level := l.level.set line asserted
  run := l.run.set line 0

/-- The edge on the line of a role. -/
def Part.lineEdge (s : Part) (r : InputRole) (asserted : Bool) : Part :=
  match s.force.lineOf r with
  | some line => s.modLines fun l => l.edge s.force.inputs line asserted
  | none => s

/-- The level of a pin read through a polarity (R13). -/
def sampled (x : InputSet) (pin : Bool) : Bool := pin == x.high

/-- Paper under a station sensor in force; in dry run no station reads paper (R167). -/
def Part.paperAt (s : Part) (st : Fin 24) : Bool := !s.dry.on && s.levelOf (.station st)

/-- A door defined in force reads OPEN: its line is not asserted (R12, R117). -/
def Part.doorIsOpen (s : Part) (d : Fin 8) : Bool := (s.force.doors[d]).isSome && !s.levelOf (.door d)

/-- Some defined door reads OPEN. -/
def Part.anyDoorOpen (s : Part) : Bool := (List.finRange 8).any s.doorIsOpen

/-- A tray unit is available: in place and with paper (R39); in dry run always (R167). -/
def Part.trayAvailable (s : Part) (u : Fin 5) : Bool :=
  s.dry.on || (s.levelOf (.present u) && !s.levelOf (.paperOut u))

/-- A bin is full (R39); in dry run never (R167). -/
def Part.binIsFull (s : Part) (b : Fin 2) : Bool := !s.dry.on && s.levelOf (.binFull b)

/-- The compile-tray-paper line reads paper; in dry run never (R167). -/
def Part.trayPaper (s : Part) : Bool := !s.dry.on && s.levelOf .compileTray

/-! ## Output lines (R12, R14, R117, R167) -/

/-- The role of an output line. -/
inductive OutputRole where
  | exitGate
  | purgeGate
  | clutch (u : Fin 5)
  | enable (d : Drive)
  | select0
  | select1
  | stapler
  | ejector
  deriving DecidableEq, Repr

/-- The gate line of the lowest-numbered station with a role. -/
def Desc.gateLine (d : Desc) (r : Role) : Option (Fin 24) :=
  (d.stationWith r).bind fun st => (d.stations[st]).bind StationDef.gate

/-- The line an output role names. -/
def Desc.outLineOf (d : Desc) : OutputRole → Option (Fin 24)
  | .exitGate => d.gateLine .exit
  | .purgeGate => d.gateLine .purgeGate
  | .clutch u => (d.trays[u]).map TraySet.clutch
  | .enable .feed => d.drive.map DriveSet.feedLine
  | .enable .process => d.drive.map DriveSet.processLine
  | .enable .duplex => d.drive.map DriveSet.duplexLine
  | .enable .delivery => d.drive.map DriveSet.deliveryLine
  | .select0 => d.drive.map DriveSet.select0
  | .select1 => d.drive.map DriveSet.select1
  | .stapler => d.finisher.map FinisherSet.stapler
  | .ejector => d.finisher.map FinisherSet.ejector

/-- Every output role. -/
def allOutputRoles : List OutputRole :=
  [.exitGate, .purgeGate] ++ (List.finRange 5).map .clutch
    ++ [.enable .feed, .enable .process, .enable .duplex, .enable .delivery, .select0, .select1, .stapler, .ejector]

/-- What the owner of an output role drives it to. -/
def Outputs.wish (o : Outputs) : OutputRole → Bool
  | .exitGate => o.exitGate
  | .purgeGate => o.purgeGate
  | .clutch u => o.clutch[u]
  | .enable .feed => o.enFeed
  | .enable .process => o.enProcess
  | .enable .duplex => o.enDuplex
  | .enable .delivery => o.enDelivery
  | .select0 => decide (o.presented = 1)
  | .select1 => decide (o.presented = 2)
  | .stapler => o.stapler
  | .ejector => o.ejector

/-- An open door holds every role at rest but the class-select lines (R117). -/
def OutputRole.heldByDoor : OutputRole → Bool
  | .select0 | .select1 => false
  | _ => true

/-- An output role is active: its owner drives it, no open door holds it (R117) and dry run does not (R167). -/
def Part.outputActive (s : Part) (r : OutputRole) : Bool :=
  s.out.wish r && !s.dry.on && !(r.heldByDoor && s.anyDoorOpen)

/-- The level of an output line (true: HIGH): the opposite of its rest level while the role that names it is active, and the
rest level otherwise (R14). -/
def Part.outputLevel (s : Part) (line : Fin 24) : Bool :=
  let active := allOutputRoles.any fun r => s.force.outLineOf r == some line && s.outputActive r
  (s.force.restHigh[line]) != active

/-! ## Notices (R178) and path state (R43) -/

/-- The pending flag of a gated condition's notice: set when the condition becomes active and its kind is enabled (R178). -/
def gated (enabled was now flag : Bool) : Bool := flag || (enabled && now && !was)

/-- A PATH STATE notice is made pending, if the kind is enabled (R43). -/
def Part.notePath (s : Part) : Part := s.modNotices fun n => { n with pathState := n.pathState || s.mask.pathState }

/-- The path state becomes `p`; each change makes a PATH STATE notice pending (R43). -/
def Part.setPath (s : Part) (p : PathState) : Part :=
  if s.feed.path = p then s else (s.modFeed fun f => { f with path := p }).notePath

/-- PLAN READY is made pending (R141). -/
def Part.notePlanReady (s : Part) : Part := s.modNotices fun n => { n with planReady := true }

/-- A JAM notice is made pending, replacing the one of its position (R116). -/
def Part.noteJam (s : Part) (x : JamNote) : Part :=
  s.modNotices fun n => { n with jams := n.jams.filter (fun y => y.position != x.position) ++ [x] }

/-! ## Counters (chapter 10) -/

/-- The saturation value of a width (R161). -/
def Width.limit : Width → Nat
  | .narrow => 65535
  | .wide => 16777215

/-- The settings of a group. -/
def Stats.groupSet (x : Stats) : Group → GroupSet
  | .station => x.stationSet
  | .tray => x.traySet
  | .path => x.pathSet

/-- A group's settings replaced. -/
def Stats.setGroup (x : Stats) (g : Group) (y : GroupSet) : Stats :=
  match g with
  | .station => { x with stationSet := y }
  | .tray => { x with traySet := y }
  | .path => { x with pathSet := y }

/-- The records of a group in index order, each as the list of its counters (R160). -/
def Stats.records (x : Stats) : Group → List (List Nat)
  | .station => x.station.toList.map Vector.toList
  | .tray => x.tray.toList.map Vector.toList
  | .path => [x.path.toList]

/-- The COUNTER WATERMARK condition of a group (R163). -/
def Stats.reached (x : Stats) (g : Group) : Bool :=
  let w := (x.groupSet g).watermark
  decide (w ≠ 0) && (x.records g).any fun r => r.any fun c => decide (w ≤ c)

/-- A report's effect on one counter (R161). -/
def raised (w : Width) (c : Nat) : Nat := if c < w.limit then c + 1 else c

/-- What the watermark notice of a group is replaced by. -/
def Notices.setWatermark (n : Notices) (g : Group) (y : Option WatermarkNote) : Notices :=
  match g with
  | .station => { n with wmStation := y }
  | .tray => { n with wmTray := y }
  | .path => { n with wmPath := y }

/-- The group's COUNTER WATERMARK condition judged afresh; on becoming active it makes its notice pending, naming a record and
a counter (R163). -/
def Part.judgeWatermark (s : Part) (g : Group) (record counter : Nat) : Part :=
  let was := (s.stats.groupSet g).active
  let now := s.stats.reached g
  let s := s.modStats fun x => x.setGroup g { x.groupSet g with active := now }
  if s.mask.condition && now && !was then
    s.modNotices fun n => n.setWatermark g (some ⟨(s.stats.groupSet g).watermark, record, counter⟩)
  else s

/-- One counter of a STATION record: arrivals 0, drifts 1, jams 2 (R160). -/
def Part.countStation (s : Part) (st : Fin 24) (c : Fin 3) : Part :=
  (s.modStats fun x => { x with
    station := x.station.set st ((x.station[st]).set c (raised x.stationSet.width (x.station[st])[c])) }).judgeWatermark
    .station st c

/-- One counter of a TRAY record: picks 0, retries 1, misfeeds 2 (R160). -/
def Part.countTray (s : Part) (u : Fin 5) (c : Fin 3) : Part :=
  (s.modStats fun x => { x with
    tray := x.tray.set u ((x.tray[u]).set c (raised x.traySet.width (x.tray[u])[c])) }).judgeWatermark .tray u c

/-- One counter of the PATH record: sheets picked 0, delivered to bins 1, compiled 2, purged 3, spoiled 4, multifeeds 5,
episodes 6, staples 7, sets 8, frames discarded 9 (R160). -/
def Part.countPath (s : Part) (c : Fin 10) : Part :=
  (s.modStats fun x => { x with path := x.path.set c (raised x.pathSet.width (x.path[c])) }).judgeWatermark .path 0 c

/-! ## The Sheet Table (R68, R69) -/

/-- The speed in mm/s of the current class (R7). -/
def Part.speed (s : Part) : Nat := s.force.speed s.feed.cls

/-- The record of a sheet number. -/
def Part.sheet? (s : Part) (n : Nat) : Option Sheet := s.table.sheets.find? fun x => x.number == n

/-- The record of a sheet number changed. -/
def Part.modSheet (s : Part) (n : Nat) (g : Sheet → Sheet) : Part :=
  s.modTable fun t => { t with sheets := t.sheets.map fun x => if x.number = n then g x else x }

/-- The table revision raised by `k` (R69). -/
def Part.raiseRevision (s : Part) (k : Nat) : Part :=
  s.modTable fun t => { t with revision := t.revision + BitVec.ofNat 32 k }

/-- The step a sheet is to reach next (R68). -/
def Sheet.nextStep (x : Sheet) : Option Step := x.itinerary[x.index]?

/-- The page records bound to a sheet, front first. -/
def Sheet.pages (x : Sheet) : List Page := x.front.toList ++ x.back.toList

/-- The condition is NORMAL, PURGING or RUNNING OUT: the sheet is tracked (R73). -/
def Sheet.moving (x : Sheet) : Bool := decide (x.cond ≠ .stranded)

/-- The sheet has passed the PURGE GATE (R87): a step at that station lies behind it. -/
def Desc.pastPurgeGate (d : Desc) (x : Sheet) : Bool :=
  (x.itinerary.take x.index).any fun y => d.roleOf y.station == some .purgeGate

/-- The release of a sheet's pages: its page fields become absent and its released flag is set (R69). -/
def Sheet.release (x : Sheet) : Sheet := { x with front := none, back := none, released := true }

/-- One station's state changed. -/
def Part.modStation (s : Part) (st : Fin 24) (g : Station → Station) : Part :=
  s.modStations fun v => v.set st (g v[st])

/-! ## The schedule of synthesised edges (R168) -/

/-- The scheduled edges of a sheet are withdrawn. -/
def Part.withdrawEdges (s : Part) (n : Nat) : Part :=
  s.modDry fun d => { d with schedule := d.schedule.filter fun x => x.sheet != some n }

/-- A record leaves the table: its covering entries are cleared, its deadlines and scheduled edges go with it (R69, R79,
R168). -/
def Part.removeSheet (s : Part) (n : Nat) : Part :=
  (((s.modTable fun t => { t with sheets := t.sheets.filter fun x => x.number != n }).raiseRevision 1).modStations fun v =>
    v.map fun st => if st.cover.any (fun c => c.sheet == n) then { st with cover := none } else st).withdrawEdges n

/-- The tick of a scheduled edge: one that is not after the event that schedules it falls at the first tick after it
(R168). -/
def Part.edgeTick (s : Part) (t : Tick) : Tick := if isBefore s.tick t then t else s.tick + 1

/-- The ordinal of a sheet in dry run (R166). -/
def Dry.ordinal (d : Dry) (n : Nat) : Nat := n + 1 - d.firstSheet

/-- The Fault Plan entries that fire when the first leading edge of a sheet at a station is scheduled (R171). -/
def Dry.firing (d : Dry) (n : Nat) (st : Fin 24) : List FaultEntry :=
  d.plan.filter fun x => !x.spent && x.kind != .noStaple && x.ordinal == d.ordinal n && x.station == st.val

/-- Those entries marked spent. -/
def Dry.spend (d : Dry) (n : Nat) (st : Fin 24) : Dry :=
  { d with plan := d.plan.map fun x =>
      if !x.spent && x.kind != .noStaple && x.ordinal == d.ordinal n && x.station == st.val then { x with spent := true }
      else x }

/-- The sum of the amounts of one kind of fault. -/
def faultSum (k : FaultKind) (l : List FaultEntry) : Int := ((l.filter fun x => x.kind == k).map FaultEntry.amount).sum

/-- The generator schedules a leading edge at anchor + T, as the faults that fire alter or withhold it (R168, R171). Outside
dry run nothing is scheduled. -/
def Part.scheduleLeading (s : Part) (x : Sheet) (st : Fin 24) (T : Nat) : Part :=
  if !s.dry.on then s
  else
    let faults := s.dry.firing x.number st
    let s := s.modDry fun d => d.spend x.number st
    if faults.any (fun f => f.kind == .omit) then s
    else
      let edge : Edge := {
        station := st
        leading := true
        tick := s.edgeTick (plusInt (plusTicks x.anchor T) (faultSum .delay faults))
        sheet := some x.number
        stretch := (faultSum .stretch faults).toNat
        extras := faults.countP fun f => f.kind == .extra
        dwell := dwell x.media s.speed }
      s.modDry fun d => { d with schedule := d.schedule ++ [edge] }

/-- The tracker computes a sheet's expected arrival at its next step and arms its leading deadline, or leaves it without one
when no step remains (R72). The generator schedules the edge (R168). -/
def Part.armNext (s : Part) (n : Nat) : Part :=
  match s.sheet? n with
  | none => s
  | some x =>
    match x.nextStep with
    | none => s.modSheet n fun y => { y with expect := none, deadline := none }
    | some step =>
      let e := expectAt s.force.timing s.speed x.anchor step.dist (s.stations[step.station]).offset
      (s.modSheet n fun y => { y with expect := some e, deadline := some e.deadline }).scheduleLeading x step.station
        e.transit

/-! ## The Merge Reservation List (R63) -/

/-- `x` stands before `y` in the list: the earlier lead, then the lower sheet number. -/
def Resv.precedes (x y : Resv) : Bool := isBefore x.lead y.lead || (x.lead == y.lead && decide (x.sheet ≤ y.sheet))

/-- An entry placed in lead order. -/
def insertResv (r : Resv) (l : List Resv) : List Resv :=
  l.takeWhile (fun x => x.precedes r) ++ r :: l.dropWhile (fun x => x.precedes r)

/-- The merge prediction at a point of a feed or DUPLEX leg: `stations` are those of the leg after the point and `dist` the
distance from it to the merge point (R23). -/
def Part.predict (s : Part) (t0 : Tick) (dist : Nat) (stations : List Step) (media : Nat) : Tick × Tick :=
  let lead := plusInt (plusTicks t0 (transit dist s.speed)) (offsetsOver s.stations stations)
  (lead, plusTicks lead (dwell media s.speed))

/-- The prediction from the place after the first `k` steps of a leg. -/
def Part.predictFrom (s : Part) (t0 : Tick) (leg : LegName) (k media : Nat) : Tick × Tick :=
  let rest := (s.force.legSteps leg 0).drop k
  s.predict t0 (distanceOver rest + (s.force.leg leg).endDist) rest media

/-- A sheet's entry re-predicted, moving to its place; without an entry, nothing (R64). -/
def Part.repredict (s : Part) (n : Nat) (lead trail : Tick) : Part :=
  match s.feed.merge.find? (fun r => r.sheet == n) with
  | none => s
  | some r => s.modFeed fun f =>
      { f with merge := insertResv { r with lead := lead, trail := trail } (f.merge.filter fun x => x.sheet != n) }

/-! ## Image calls (R92 to R94) -/

/-- Rank of a side where two calls, or two entries of one origin, meet: FRONT before BACK. -/
def Side.rank : Side → Nat
  | .back => 1
  | _ => 0

/-- `x` stands before `y` in the queue (R92). -/
def Call.precedes (x y : Call) : Bool :=
  isBefore x.tick y.tick || (x.tick == y.tick && (decide (x.sheet < y.sheet)
    || (x.sheet == y.sheet && decide (x.side.rank ≤ y.side.rank))))

/-- A call placed in order. -/
def insertCall (c : Call) (l : List Call) : List Call :=
  l.takeWhile (fun x => x.precedes c) ++ c :: l.dropWhile (fun x => x.precedes c)

/-- The first deferred call in order: the earliest predicted commit tick, then the lower-numbered sheet (R94). -/
def firstCall : List Call → Option Call
  | [] => none
  | c :: rest => match firstCall rest with
    | none => some c
    | some d => if c.precedes d then some c else some d

/-- Deferred calls enter the queue while it has room, at most `k` of them (R94). -/
def promote : Nat → Calls → Calls
  | 0, c => c
  | k + 1, c =>
    if c.queue.length < Config.imageCallSize then
      match firstCall c.deferred with
      | none => c
      | some x => promote k ⟨insertCall x c.queue, c.deferred.erase x⟩
    else c

/-- Calls leave, from the queue or the deferred set, and deferred calls take the places freed (R94). -/
def Calls.drop (c : Calls) (p : Call → Bool) : Calls :=
  promote c.deferred.length ⟨c.queue.filter fun x => !p x, c.deferred.filter fun x => !p x⟩

/-- The unsent calls (R92). -/
def Calls.unsent (c : Calls) : Nat := c.queue.length + c.deferred.length

/-- A back call: into the queue where it has room, else deferred (R93). -/
def Calls.addBack (c : Calls) (x : Call) : Calls :=
  if c.queue.length < Config.imageCallSize then { c with queue := insertCall x c.queue }
  else { c with deferred := c.deferred ++ [x] }

/-! ## The Reprint List (R134) -/

/-- The key of the list's order: origin, then FRONT before BACK. -/
def Page.orderKey (p : Page) : Nat × Nat := (p.origin.getD 0, p.side.rank)

/-- `x` stands before a page that joins: its key is not above the page's. -/
def Entry.precedes (x : Entry) (p : Page) : Bool :=
  decide (x.page.orderKey.1 < p.orderKey.1) || (x.page.orderKey.1 == p.orderKey.1
    && decide (x.page.orderKey.2 ≤ p.orderKey.2))

/-- A page joins the list at its place; the entries already there keep theirs relative to one another (R134). -/
def insertEntry (e : Entry) (l : List Entry) : List Entry :=
  l.takeWhile (fun x => x.precedes e.page) ++ e :: l.dropWhile (fun x => x.precedes e.page)

/-- Pages released into the list, in turn (R98, R137, R138). -/
def Part.reprint (s : Part) (reason : Reason) (pages : List Page) : Part :=
  s.modPlanner fun p => { p with list := pages.foldl (fun l x => insertEntry ⟨x, reason⟩ l) p.list }

/-! ## The Job Table (R34 to R37) -/

/-- The slot that holds a job. -/
def Intake.slotOf (x : Intake) (job : Nat) : Option (Fin 8) :=
  (List.finRange 8).find? fun i => (x.slots[i]).any fun y => y.job == job

/-- The lowest-numbered free slot. -/
def Intake.freeSlot (x : Intake) : Option (Fin 8) := (List.finRange 8).find? fun i => (x.slots[i]).isNone

/-- A slot changed, if it holds a job. -/
def Part.modSlot (s : Part) (i : Fin 8) (g : Slot → Slot) : Part :=
  s.modIntake fun x => { x with slots := x.slots.set i ((x.slots[i]).map g) }

/-- A slot is freed when it is closed, its counts balance and no PROGRESS for it is pending (R37). -/
def Part.examineSlot (s : Part) (i : Fin 8) : Part :=
  match s.intake.slots[i] with
  | none => s
  | some x =>
    if x.closed ∧ x.accepted = x.delivered + x.abandoned ∧ (s.notices.progress[i]) = false then
      s.modIntake fun y => { y with slots := y.slots.set i none }
    else s

/-- A PROGRESS for a slot is made pending, if the kind is enabled (R36). -/
def Part.noteProgress (s : Part) (i : Fin 8) : Part :=
  s.modNotices fun n => { n with progress := n.progress.set i ((n.progress[i]) || s.mask.progress) }

/-- Pages of a job are counted delivered, in their order (R35), with the PROGRESS and slot examination that follow. A report
of no pages changes nothing. -/
def Part.deliverPages (s : Part) (job : Nat) (pages : List Page) : Part :=
  match s.intake.slotOf job, pages.getLast? with
  | some i, some p =>
    (((s.modSlot i fun x => { x with delivered := x.delivered + pages.length, lastPage := some p.id }).noteProgress
      i)).examineSlot i
  | _, _ => s

end Sys2Proof.Machine
end

