-- ==== Sys2Proof/Machine/Flags.lean ====
section
/-! DEFINITION. The gated conditions (TRAY EMPTY, BIN FULL, PURGE FULL, INTAKE LOW, DOOR, OUT OF STEP, LINK FAULT,
NUMBERS EXHAUSTED) and the clearance conditions: when each is active and what its becoming active does. -/

namespace Sys2Proof.Machine

/-- TRAY EMPTY of a tray unit judged: active while the unit is not available (R58). -/
def Part.judgeTrayEmpty (s : Part) (u : Fin 5) : Part :=
  let was := s.feed.trayEmpty[u]
  let now := !s.trayAvailable u
  (s.modFeed fun f => { f with trayEmpty := f.trayEmpty.set u now }).modNotices fun n =>
    { n with trayEmpty := n.trayEmpty.set u (gated s.mask.condition was now (n.trayEmpty[u])) }

/-- BIN FULL of a bin judged: active while the bin is full (R58). -/
def Part.judgeBinFull (s : Part) (b : Fin 2) : Part :=
  let was := s.feed.binFull[b]
  let now := s.binIsFull b
  (s.modFeed fun f => { f with binFull := f.binFull.set b now }).modNotices fun n =>
    { n with binFull := n.binFull.set b (gated s.mask.condition was now (n.binFull[b])) }

/-- TRAY EMPTY and BIN FULL of every unit and bin judged (R58). -/
def Part.judgeSupplies (s : Part) : Part :=
  let s := (List.finRange 5).foldl Part.judgeTrayEmpty s
  (List.finRange 2).foldl Part.judgeBinFull s

/-- The purge reserve is met (R103). -/
def Part.reserveMet (s : Part) : Bool :=
  s.dry.on || decide (s.gate.purgeCount + 24 < (s.force.purge.map PurgeSet.capacity).getD 0)

/-- PURGE FULL judged: active while the purge reserve is not met (R103). -/
def Part.judgePurgeFull (s : Part) : Part :=
  let was := s.gate.purgeFull
  let now := !s.reserveMet
  (s.modGate fun g => { g with purgeFull := now }).modNotices fun n =>
    { n with purgeFull := gated s.mask.condition was now n.purgeFull }

/-- INTAKE LOW of a queue judged: active while its count is below its mark in force (R38). -/
def Part.judgeIntakeLow (s : Part) : Queue → Part
  | .normal =>
    let was := s.intake.lowNormal
    let now := decide (s.intake.normal.length < s.force.timing.markNormal)
    (s.modIntake fun x => { x with lowNormal := now }).modNotices fun n =>
      { n with lowNormal := gated s.mask.intakeLow was now n.lowNormal }
  | .priority =>
    let was := s.intake.lowPriority
    let now := decide (s.intake.priority.length < s.force.timing.markPriority)
    (s.modIntake fun x => { x with lowPriority := now }).modNotices fun n =>
      { n with lowPriority := gated s.mask.intakeLow was now n.lowPriority }

/-- The DOOR condition of a door judged: active while it is open (R117). -/
def Part.judgeDoor (s : Part) (d : Fin 8) : Part :=
  let was := s.episode.doorActive[d]
  let now := s.doorIsOpen d
  (s.modEpisode fun e => { e with doorActive := e.doorActive.set d now }).modNotices fun n =>
    { n with door := n.door.set d (gated s.mask.door was now (n.door[d])) }

/-- A station's step state becomes `now`; OUT OF STEP makes its CONDITION notice pending on becoming active (R82). -/
def Part.setStep (s : Part) (st : Fin 24) (now : Bool) : Part :=
  let was := (s.stations[st]).outOfStep
  (s.modStation st fun x => { x with outOfStep := now }).modNotices fun n =>
    { n with outOfStep := n.outOfStep.set st (gated s.mask.condition was now (n.outOfStep[st])) }

/-- Some station in force is OUT OF STEP (R23). -/
def Part.anyOutOfStep (s : Part) : Bool :=
  (List.finRange 24).any fun st => (s.force.stations[st]).isSome && (s.stations[st]).outOfStep

/-- NUMBERS EXHAUSTED becomes active (R51). -/
def Part.exhaust (s : Part) : Part :=
  let was := s.feed.exhausted
  (s.modFeed fun f => { f with exhausted := true }).modNotices fun n =>
    { n with exhausted := gated s.mask.condition was true n.exhausted }

/-! ## Clearance (R124, R125) -/

/-- Paper is expected in the compile tray (R124). -/
def Finisher.paperExpected (f : Finisher) : Bool :=
  !f.sheets.isEmpty && !f.disturbed && (f.state == .retained || f.state == .faulted)

/-- The Compile Set is STAPLING or EJECTING. -/
def Finisher.busy (f : Finisher) : Bool := f.state == .stapling || f.state == .ejecting

/-- The compile-tray-paper line reads paper where paper is not expected (R125). -/
def Part.strayTrayPaper (s : Part) : Bool := s.trayPaper && !s.finisher.paperExpected

/-- Some station sensor in force reads paper. -/
def Part.anyPaper (s : Part) : Bool := (List.finRange 24).any s.paperAt

/-- The clearance conditions hold (R124). -/
def Part.clear (s : Part) : Bool :=
  !s.anyDoorOpen && !s.anyPaper && !s.strayTrayPaper && !s.finisher.busy

/-- The sweep may start by itself: HELD, clear, auto-sweep ON and not barred (R126). -/
def Part.autoSweepReady (s : Part) : Bool :=
  s.feed.path == .held && s.clear && s.force.timing.autoSweep && !s.episode.barred

end Sys2Proof.Machine
end

