-- ==== Sys2Proof/Machine/Finisher.lean ====
section
/-! DEFINITION. The shared operations of the Finisher Unit (chapter 9): closing a set, starting and ending its cycles, splits,
compiles, and what doors, episodes and RESUME do to it. -/

namespace Sys2Proof.Machine

/-- The finisher settings in force; before the first PATH CLOSE nothing reads them. -/
def Part.finisherSet (s : Part) : FinisherSet := s.force.finisher.getD ⟨0, 0, 0, 0, 0, 0, 0, 0, 0⟩

/-- A NO STAPLE entry fires for the sheets the set holds (R171). -/
def Dry.noStapleFires (d : Dry) (held : List Held) (x : FaultEntry) : Bool :=
  !x.spent && x.kind == .noStaple && held.any fun h => d.ordinal h.number == x.ordinal

/-- Those entries marked spent. -/
def Dry.spendNoStaple (held : List Held) (d : Dry) : Dry :=
  { d with plan := d.plan.map fun x => if d.noStapleFires held x then { x with spent := true } else x }

/-- Entering STAPLING: stapler active, limit armed (R151); in dry run the staple-home edge is scheduled, unless a NO STAPLE
fault withholds it (R169, R171). -/
def Part.enterStapling (s : Part) : Part :=
  let fs := s.finisherSet
  let s := (s.modFinisher fun f => { f with
    state := .stapling, stapleLimit := some (plusTicks s.tick fs.limit) }).modOut fun o => { o with stapler := true }
  if !s.dry.on then s
  else if s.dry.plan.any (s.dry.noStapleFires s.finisher.sheets) then
    s.modDry (Dry.spendNoStaple s.finisher.sheets)
  else s.modDry fun d => { d with home := some ⟨true, plusTicks s.tick fs.nominal⟩ }

/-- Entering EJECTING, for a partial eject or the final one: ejector active, limit armed for twice the eject time (R152); in
dry run the eject-home edge is scheduled (R169). -/
def Part.enterEjecting (s : Part) (part : Bool) : Part :=
  let fs := s.finisherSet
  let s := (s.modFinisher fun f => { f with
    state := .ejecting, split := part, ejectLimit := some (plusTicks s.tick (2 * fs.eject)) }).modOut fun o =>
      { o with ejector := true }
  if !s.dry.on then s else s.modDry fun d => { d with home := some ⟨false, plusTicks s.tick fs.eject⟩ }

/-- The outcome SET DONE carries (R152, R158; entry 19). -/
def Finisher.outcome (f : Finisher) : SetOutcome :=
  if f.abandoned then .abandoned else if f.stapled then .stapled else if f.skipped then .stapleSkipped else .unstapled

/-- The sheets-ejected count raised by a partial eject of `n` sheets; beyond 65,535 it is a free value (entry 9). -/
def ejectedAfter (e n : Nat) : Nat := if e + n ≤ 65535 then e + n else (Config.sheetsEjectedBeyond (e + n)).toNat

/-- The end of a partial eject: the set goes on compiling, RETAINED in an episode (R152). -/
def Part.endPartial (s : Part) : Part :=
  s.modFinisher fun f => { f with
    sheets := [], ejected := ejectedAfter f.ejected f.sheets.length, split := false,
    state := if s.episode.isOpen then .retained else .compiling }

/-- The end of a final eject: the set is finished, one set is reported unless it is abandoned, SET DONE is made pending, and
the Compile Set becomes EMPTY (R152). -/
def Part.endFinal (s : Part) : Part :=
  let f := s.finisher
  let id := f.ident.getD (0, 0)
  let s := if f.abandoned then s else s.countPath 8
  let s := if s.mask.setDone then
    s.modNotices fun n => { n with setDone := some ⟨id.1, id.2, f.ejected + f.sheets.length, f.outcome⟩ } else s
  s.modFinisher fun _ => .reset

/-- Eject completion (R152): the ejector rests, the pages still held are counted delivered, and the eject ends as a partial
or the final one. -/
def Part.completeEject (s : Part) : Part :=
  let f := s.finisher
  let s := (s.modOut fun o => { o with ejector := false }).modFinisher fun f => { f with ejectLimit := none }
  let s := s.modDry fun d => { d with home := none }
  let s := s.deliverPages (f.ident.getD (0, 0)).1 (f.sheets.flatMap Held.pages)
  if f.split then s.endPartial else s.endFinal

/-- Rule 2 of R150: no sheet of the set is still on its way, and one of another set is. -/
def Part.followedByOther (s : Part) : Bool :=
  match s.finisher.ident with
  | none => false
  | some (job, set) =>
    !(s.table.sheets.any fun x => x.job == job && x.set == set && x.dest == .finisher
        && (x.cond == .normal || x.cond == .runningOut))
      && s.table.sheets.any fun x => x.dest == .finisher && x.cond == .normal && (x.job != job || x.set != set)

/-- The set is closed while COMPILING or RETAINED by any of the three conditions of R150; a disturbed set is not (R156). -/
def Part.judgeClosure (s : Part) : Part :=
  let f := s.finisher
  if (f.state == .compiling || f.state == .retained) && !f.disturbed
      && ((f.sheets.any fun h => h.lastOfSet && !h.settling) || s.followedByOther || f.abandoned) then
    s.modFinisher fun f => { f with closed := true }
  else s

/-- A closed set, or one whose partial eject is due, may start its cycle (R150, R154, R156). -/
def Part.cycleReady (s : Part) : Bool :=
  let f := s.finisher
  f.state == .compiling && (f.closed || f.split) && !f.disturbed && !(f.sheets.any Held.settling) && !s.episode.isOpen
    && !s.anyDoorOpen

/-- The course a set takes at the start of its cycle (R150). -/
def Part.startCycle (s : Part) : Part :=
  let f := s.finisher
  if f.closed then
    if f.sheets.isEmpty then (s.modFinisher fun f => { f with split := false }).completeEject
    else if f.toStaple && !f.stapled && !f.skipped && !f.abandoned then s.enterStapling
    else s.enterEjecting false
  else s.enterEjecting true

/-- The Finisher Unit judges closure and starts the cycle of a set that nothing holds back (R150). -/
def Part.judgeFinisher (s : Part) : Part :=
  let s := s.judgeClosure
  if s.cycleReady then s.startCycle else s

/-- The split of R154: the set holds C sheets, none settling, unclosed. COMPILING, it starts its partial eject at once;
RETAINED, the eject waits for RESUME. -/
def Part.judgeSplit (s : Part) : Part :=
  let f := s.finisher
  if !f.closed && !f.disturbed && f.sheets.length == s.force.capacity && !(f.sheets.any Held.settling)
      && (f.state == .compiling || f.state == .retained) then
    let s := s.modFinisher fun f => { f with skipped := true, split := true }
    if f.state == .compiling then s.enterEjecting true else s
  else s

/-- The first settling sheet's mark cleared. -/
def settleFirst : List Held → List Held
  | [] => []
  | h :: rest => if h.settling then { h with settling := false } :: rest else h :: settleFirst rest

/-- The compile of the first settling sheet completes (R149): its mark is cleared, staple joins the set, one sheet compiled is
reported, and closure and split are judged (R150, R154) unless the set is disturbed (R156). -/
def Part.completeCompile (s : Part) : Part :=
  match s.finisher.sheets.find? Held.settling with
  | none => s
  | some h =>
    let s := (s.modFinisher fun f => { f with
      sheets := settleFirst f.sheets, toStaple := f.toStaple || h.staple }).countPath 2
    s.judgeClosure.judgeSplit

/-- The sheet record as the compile tray holds it (R148). -/
def Part.heldOf (s : Part) (x : Sheet) : Held where
  number := x.number
  job := x.job
  set := x.set
  pages := x.pages
  staple := x.staple
  lastOfSet := x.lastOfSet
  delivered := s.tick
  settling := true
  settleAt := plusTicks s.tick s.finisherSet.settle

/-- Hand-over of a sheet delivered at FINISHER ENTRY (R149): also to a set whose cycle started while the sheet was under the sensor
(entry 40). The compile itself completes at the settle expiry. -/
def Part.handOver (s : Part) (x : Sheet) : Part :=
  s.modFinisher fun f =>
    let f := if f.state == .empty then
      { f with ident := some (x.job, x.set), state := if s.episode.isOpen then .retained else .compiling } else f
    { f with sheets := f.sheets ++ [s.heldOf x] }

/-- The arrival of a sheet at FINISHER ENTRY is an overrun (R155). -/
def Part.overruns (s : Part) (x : Sheet) : Bool :=
  let f := s.finisher
  f.busy || (f.state != .empty && f.ident != some (x.job, x.set)) || decide (s.force.capacity ≤ f.sheets.length)

/-- An opening episode finds a COMPILING set: it becomes RETAINED (R156). -/
def Part.retain (s : Part) : Part :=
  s.modFinisher fun f => if f.state = .compiling then { f with state := .retained } else f

/-- A door opening aborts a cycle under way: output at rest, limit cancelled, scheduled home edge withdrawn; the set is
COMPILING until an open episode retains it (R156, R169). -/
def Part.abortCycle (s : Part) : Part :=
  if s.finisher.busy then
    ((s.modFinisher fun f => { f with state := .compiling, stapleLimit := none, ejectLimit := none }).modOut fun o =>
      { o with stapler := false, ejector := false }).modDry fun d => { d with home := none }
  else s

/-- A finisher door opened onto a set that holds sheets disturbs it; a disturbed COMPILING set is RETAINED (R156). -/
def Part.disturb (s : Part) : Part :=
  if s.finisher.sheets.isEmpty then s
  else s.modFinisher fun f => { f with
    disturbed := true, state := if f.state = .compiling then .retained else f.state }

/-- What RESUME does to the set before the path starts (R157). -/
def Part.resumeFinisher (s : Part) : Part :=
  match s.finisher.state with
  | .retained => ((s.modFinisher fun f => { f with state := .compiling }).judgeClosure.judgeSplit).judgeFinisher
  | .faulted => if s.finisher.disturbed then s else s.enterStapling
  | _ => s

end Sys2Proof.Machine
end

