-- ==== Sys2Proof/Machine/Recovery.lean ====
section
/-! DEFINITION. Plan build: the shared operation of the Recovery Planner (chapter 8). -/

namespace Sys2Proof.Machine

/-- All four drive enables to rest. The class-select lines keep the class they present (R111). -/
def Part.stopDrives (s : Part) : Part :=
  s.modOut fun o => { o with enFeed := false, enProcess := false, enDuplex := false, enDelivery := false }

/-- All four drive enables active. -/
def Part.runDrives (s : Part) : Part :=
  s.modOut fun o => { o with enFeed := true, enProcess := true, enDuplex := true, enDelivery := true }

/-- A STRANDED sheet gives its pages to the Reprint List with reason STRANDED, and its record leaves the table (R137). -/
def Part.planSheet (s : Part) (x : Sheet) : Part := (s.reprint .stranded x.pages).removeSheet x.number

/-- A disturbed Compile Set is emptied into the Reprint List with reason SET RESTART (R138). -/
def Part.planSet (s : Part) : Part :=
  if s.finisher.disturbed then
    (s.reprint .setRestart (s.finisher.sheets.flatMap Held.pages)).modFinisher fun _ => .reset
  else s

/-- The Merge Reservation List and the image calls are emptied (R139), and a pick left unconfirmed is no longer outstanding
(R137). -/
def Part.planEmpty (s : Part) : Part :=
  (s.modFeed fun f => { f with merge := [], unconfirmed := none }).modCalls fun _ => ⟨[], []⟩

/-- Plan build (R136 to R139), with the drives stopped and the sweep timer idle (R131): the path becomes RESUMABLE. -/
def Part.planBuild (s : Part) : Part :=
  let s := (s.stopDrives).modEpisode fun e => { e with sweepTimer := none }
  let s := (s.table.sheets.filter fun x => x.cond == .stranded).foldl Part.planSheet s
  let s := s.planSet.planEmpty
  let s := s.modPlanner fun p => { p with revision := p.revision + 1, readThrough := false }
  (s.setPath .resumable).notePlanReady

end Sys2Proof.Machine
end

