-- ==== Sys2Proof/Machine/Episode.lean ====
section
/-! DEFINITION. The shared operations of the Episode Unit (chapters 6 and 7): stranding, opening and extending an episode, the
end of halting, and the sweep. -/

namespace Sys2Proof.Machine

/-! ## Areas and stranding -/

/-- An area as a set. -/
def areaSet : Option (Fin 9) → AreaSet
  | some a => BitVec.ofNat 9 (2 ^ a.val)
  | none => 0

/-- The set holding FINISHER alone. -/
def finisherArea : AreaSet := 256#9

/-- The station whose area is a sheet's: its covering station, or else its last station passed, or else the first of its tray
or INSERT leg (R115). -/
def Desc.placeOf (d : Desc) (x : Sheet) : Option (Fin 24) :=
  (x.covering <|> x.lastPassed) <|> ((d.leg (feedLegOf x.source)).steps.head?).map LegStep.station

/-- The area of a sheet (R115). -/
def Desc.sheetArea (d : Desc) (x : Sheet) : AreaSet :=
  match d.placeOf x with
  | some st => d.areaOf st
  | none => 0

/-- Areas join the removal area set (R115). -/
def Part.addAreas (s : Part) (a : AreaSet) : Part := s.modEpisode fun e => { e with areas := e.areas ||| a }

/-- A moving sheet that `p` picks is STRANDED and its leading deadline cancelled (R69, R79). -/
def Sheet.strandIf (p : Sheet → Bool) (x : Sheet) : Sheet :=
  if x.moving && p x then { x with cond := .stranded, deadline := none } else x

/-- The moving sheets `p` picks become STRANDED: the revision rises for each, their deadlines are cancelled, their scheduled
edges withdrawn and their areas join the set (R69, R79, R115, R168). -/
def Part.strand (s : Part) (p : Sheet → Bool) : Part :=
  let hits := s.table.sheets.filter fun x => x.moving && p x
  let hit := fun n => hits.any fun x => x.number == n
  let s := (s.modTable fun t => { t with sheets := t.sheets.map (Sheet.strandIf p) }).raiseRevision hits.length
  let s := s.modStations fun v => v.map fun st => { st with
    cover := st.cover.map fun c => if hit c.sheet then { c with deadline := none } else c }
  let s := s.modDry fun d => { d with schedule := d.schedule.filter fun e => !(e.sheet.any hit) }
  s.addAreas (hits.foldl (fun a x => a ||| s.force.sheetArea x) 0)

/-! ## Jam records (R116) -/

/-- The JAM notice of a record, with the set and count as they stand (R116). -/
def Part.noteRecord (s : Part) (position : Nat) (j : Jam) : Part :=
  s.noteJam ⟨s.episode.number, position, j, s.episode.overflow, s.episode.areas⟩

/-- A further jam of the open episode: its area joins the set, and it is kept as a record or counted in the overflow count
(R115, R116). -/
def Part.addRecord (s : Part) (j : Jam) : Part :=
  let s := s.addAreas (areaSet j.area)
  if s.episode.records.length < Config.jamRecordSize then
    let s := s.modEpisode fun e => { e with records := e.records ++ [j] }
    s.noteRecord s.episode.records.length j
  else
    let s := s.modEpisode fun e => { e with overflow := min (e.overflow + 1) 65535 }
    match s.episode.records[3]? with
    | some last => s.noteRecord 4 last
    | none => s

/-! ## Opening an episode (R109) -/

/-- What the Feed Scheduler does at an opening: timers cancelled, hold flag and set-end mark cleared, clutches at rest
(R52). -/
def Part.feedOnEpisode (s : Part) : Part :=
  (s.modFeed fun f => { f with
    pickTimer := none, holdoff := none, ramp := none, runOn := none, hold := false, setEnd := false }).modOut fun o =>
      { o with clutch := .replicate 5 false }

/-- The first kinds whose run-out set is empty (R110). -/
def JamKind.noRunOut : JamKind → Bool
  | .doorOpen | .hostStop | .hostReset | .stapleFail => true
  | _ => false

/-- A sheet may run out: FINAL, NORMAL or PURGING, its trailing edge gone from EXIT, and not the one the jam names (R110). -/
def Part.mayRunOut (s : Part) (j : Jam) (x : Sheet) : Bool :=
  let atExit := (List.finRange 24).any fun st =>
    s.force.roleOf st == some .exit && (s.stations[st]).cover.any fun c => c.sheet == x.number
  let beyond := x.lastPassed.any fun st => s.force.roleOf st == some .exit || s.force.driveOf st == some .delivery
  x.pass == .final && (x.cond == .normal || x.cond == .purging) && !atExit && beyond && j.sheet != some x.number

/-- The run-out set of a new episode, as sheet numbers (R110). -/
def Part.runOutSet (s : Part) (j : Jam) : List Nat :=
  if j.kind.noRunOut || j.station.any (fun st => s.force.driveOf st == some .delivery) then []
  else (s.table.sheets.takeWhile (s.mayRunOut j)).map Sheet.number

/-- A sheet of the run-out set is RUNNING OUT. -/
def Sheet.runOutIf (ns : List Nat) (x : Sheet) : Sheet :=
  if ns.contains x.number then { x with cond := .runningOut } else x

/-- The sheets of the run-out set become RUNNING OUT (R109). -/
def Part.makeRunOut (s : Part) (ns : List Nat) : Part :=
  (s.modTable fun t => { t with sheets := t.sheets.map (Sheet.runOutIf ns) }).raiseRevision ns.length

/-- The halt: every drive stops and the path is HELD, or DELIVERY runs on and the path is HALTING (R111). -/
def Part.halt (s : Part) (runOut : Bool) : Part :=
  if runOut then
    (s.modOut fun o => { o with enFeed := false, enProcess := false, enDuplex := false, enDelivery := true }).setPath
      .halting
  else s.stopDrives.setPath .held

/-- FINISHER joins the set while the Compile Set stands FAULTED or disturbed (R115). -/
def Part.addFinisherArea (s : Part) : Part :=
  if s.finisher.state == .faulted || s.finisher.disturbed then s.addAreas finisherArea else s

/-- An episode opens with jam `j` (R109). `extra` holds the areas a HOST RESET forms from the sheets it removed (R121). -/
def Part.openEpisode (s : Part) (j : Jam) (extra : AreaSet) : Part :=
  let s := s.modEpisode fun e => { e with
    number := e.number + 1, isOpen := true, firstKind := some j.kind, records := [j], overflow := 0, areas := extra,
    sweepTimer := none, barred := false }
  let s := s.feedOnEpisode
  let ns := s.runOutSet j
  let s := (s.makeRunOut ns).strand fun x => !ns.contains x.number
  let s := s.retain
  let s := (s.addAreas (areaSet j.area)).addFinisherArea
  let s := s.halt (!ns.isEmpty)
  (s.noteRecord 1 j).countPath 6

/-! ## Halting (R112, R113) -/

/-- In HALTING with no sheet RUNNING OUT left, DELIVERY stops and the path is HELD (R112). -/
def Part.endHalting (s : Part) : Part :=
  if s.feed.path = .halting ∧ (s.table.sheets.any fun x => x.cond == .runningOut) = false then
    s.stopDrives.setPath .held
  else s

/-- A jam in HALTING extends the episode and strands the sheet it names and those behind it, or every RUNNING OUT sheet (R113). Its
JAM notice is formed before they are stranded (entry 38). -/
def Part.extendHalting (s : Part) (j : Jam) : Part :=
  ((s.addRecord j).strand fun x => x.cond == .runningOut && (j.sheet.all fun n => decide (n ≤ x.number))).endHalting

/-! ## The sweep (R126 to R132) -/

/-- A sweep is abandoned: timer cancelled, drives stopped, path HELD; a STOP or a RESIDUAL bars the automatic start (R126,
R129, R130). -/
def Part.abandonSweep (s : Part) (bar : Bool) : Part :=
  ((s.modEpisode fun e => { e with sweepTimer := none, barred := e.barred || bar }).stopDrives).setPath .held

/-- A sweep starts (R128). In dry run it succeeds at its start and hands over to plan build (R132). -/
def Part.startSweep (s : Part) : Part :=
  let s := s.setPath .sweeping
  if s.dry.on then s.planBuild
  else
    let s := (s.modOut fun o => { o with presented := s.force.slowest }).runDrives
    s.modEpisode fun e => { e with
      sweepTimer := some (plusTicks s.tick ((s.force.drive.map DriveSet.sweep).getD 0)) }

/-- The clearance judgement of R125: in HELD it may start a sweep (R126). -/
def Part.judgeClearance (s : Part) : Part := if s.autoSweepReady then s.startSweep else s

/-! ## Jams (R108) -/

/-- A STAPLE FAIL in UNCONFIGURED opens no episode: its tick is held over to the next PATH CLOSE (R108, R119; entry 43). -/
def Part.holdOver (s : Part) (j : Jam) : Part :=
  if j.kind = .stapleFail then s.modEpisode fun e => { e with heldOver := some j.tick } else s

/-- A jam is taken according to the path state (R108). In RESUMABLE none arises (entry 23). -/
def Part.takeJam (s : Part) (j : Jam) : Part :=
  match s.feed.path with
  | .unconfigured => s.holdOver j
  | .resumable => s
  | .idle => if j.kind = .doorOpen ∨ j.kind = .stapleFail then s.openEpisode j 0 else s
  | .starting | .running | .draining => s.openEpisode j 0
  | .halting => s.extendHalting j
  | .held => s.addRecord j
  | .sweeping => (s.addRecord j).abandonSweep (decide (j.kind = .residual))

/-- A jam at a station, naming a sheet or none; the station's jam counter rises (R90, R106). -/
def Part.jamAt (s : Part) (kind : JamKind) (st : Fin 24) (tick : Tick) (x : Option Sheet) : Part :=
  (s.countStation st 2).takeJam {
    kind := kind
    station := some st
    door := none
    area := s.force.areaName st
    sheet := x.map Sheet.number
    tick := tick
    front := x.bind fun y => y.front.map Page.id
    back := x.bind fun y => y.back.map Page.id }

/-- A jam that names no station: DOOR OPEN, HOST STOP, HOST RESET and STAPLE FAIL (R106). -/
def plainJam (kind : JamKind) (door : Option (Fin 8)) (area : Option (Fin 9)) (tick : Tick) : Jam :=
  ⟨kind, none, door, area, none, tick, none, none⟩

end Sys2Proof.Machine
end

