-- ==== Sys2Proof/Machine/Feed.lean ====
section
/-! DEFINITION. The shared operations of the Feed Scheduler (chapter 3) and of the two diverters (04 section 4.8): the next
page, the start, drain and return conditions, the pick and when it may be made. -/

namespace Sys2Proof.Machine

/-! ## Diverters (R83 to R86) -/

/-- The step a sheet reached last. -/
def Sheet.lastStep (x : Sheet) : Option Step := if x.index = 0 then none else x.itinerary[x.index - 1]?

/-- A passage through EXIT is still ahead of the sheet (R83). -/
def Sheet.awaitsExit (x : Sheet) : Bool := x.moving && x.nextStep.any fun y => !y.leg.isDeliver

/-- The sheet is on MAIN: it has arrived at the first station of MAIN on its present traversal (R83). -/
def Sheet.onMain (x : Sheet) : Bool :=
  x.awaitsExit && x.nextStep.any (fun y => y.leg == .main) && x.lastStep.any fun y => y.leg == .main

/-- How far along MAIN the next step lies. -/
def Sheet.mainPos (x : Sheet) : Nat := (x.nextStep.map Step.pos).getD 0

/-- The sheet furthest along MAIN, and of two that are level the one with the earlier anchor (R83). -/
def furthest : List Sheet → Option Sheet
  | [] => none
  | x :: rest => match furthest rest with
    | none => some x
    | some y => if y.mainPos < x.mainPos || (x.mainPos == y.mainPos && notAfter x.anchor y.anchor) then some x else some y

/-- The next sheet for EXIT (R83). -/
def Part.nextForExit (s : Part) : Option Sheet :=
  match furthest (s.table.sheets.filter Sheet.onMain) with
  | some x => some x
  | none => s.feed.merge.findSome? fun r => s.table.sheets.find? fun x => x.number == r.sheet && x.awaitsExit

/-- The next sheet for the PURGE GATE (R84). -/
def Part.nextForPurge (s : Part) : Option Sheet := s.table.sheets.find? fun x => x.moving && !s.force.pastPurgeGate x

/-- A station of a role stands uncovered. -/
def Part.uncovered (s : Part) (r : Role) : Bool :=
  (s.force.stationWith r).any fun st => (s.stations[st]).cover.isNone

/-- The EXIT gate judged: DUPLEX for a sheet on its FIRST pass, and kept without a next sheet (R85). -/
def Part.judgeExitGate (s : Part) : Part :=
  if s.uncovered .exit && !s.anyDoorOpen then
    match s.nextForExit with
    | some x => s.modOut fun o => { o with exitGate := x.pass == .first }
    | none => s
  else s

/-- The purge diverter judged: PURGE for a sheet with that destination, and kept without a next sheet (R86). -/
def Part.judgePurgeGate (s : Part) : Part :=
  if s.uncovered .purgeGate && !s.anyDoorOpen then
    match s.nextForPurge with
    | some x => s.modOut fun o => { o with purgeGate := x.dest == .purge }
    | none => s
  else s

/-- Both diverters judged. -/
def Part.judgeGates (s : Part) : Part := s.judgeExitGate.judgePurgeGate

/-! ## The next page (R53, R54) -/

/-- The next page, with the BACK it needs and its source: a queue, or the Reprint List where absent. -/
structure NextPage where
  front : Page
  back : Option Page
  source : Option Queue
  deriving DecidableEq, Repr

/-- A FRONT whose no-back flag is clear (R29, R53). -/
def Page.needsBack (p : Page) : Bool := p.side == .front && !p.noBack

/-- The page at the head of a source, if it is whole (R53). -/
def formNext (source : Option Queue) : List Page → Option NextPage
  | [] => none
  | p :: rest =>
    if p.side = .back then none
    else if p.needsBack then
      match rest with
      | b :: _ => if b.side = .back then some ⟨p, some b, source⟩ else none
      | [] => none
    else some ⟨p, none, source⟩

/-- The records of a queue. -/
def Intake.queue (x : Intake) : Queue → List Page
  | .normal => x.normal
  | .priority => x.priority

/-- The selector judged (R54). It is judged where the next page must be found from the queues: with the Reprint List
empty. -/
def Part.judgeSelector (s : Part) : Part :=
  if s.planner.list.isEmpty then
    match s.feed.selector with
    | .normal =>
      if s.feed.normalMark && !s.intake.priority.isEmpty then s.modFeed fun f => { f with selector := .priority } else s
    | .priority =>
      if s.feed.priorityMark && s.intake.priority.isEmpty then s.modFeed fun f => { f with selector := .normal } else s
  else s

/-- The next page, if it is bindable (R53). -/
def Part.nextPage (s : Part) : Option NextPage :=
  if s.planner.list.isEmpty then formNext (some s.feed.selector) (s.intake.queue s.feed.selector)
  else formNext none (s.planner.list.map Entry.page)

/-- The kind of sheet the next page makes (R55). -/
def NextPage.kind (n : NextPage) : SheetKind :=
  match n.front.side with
  | .insert => .insert
  | .front => .duplex
  | _ => .simplex

/-- The tray unit it is picked from (R55). -/
def NextPage.unit (n : NextPage) : Fin 5 :=
  if n.front.side = .insert then 4
  else if n.front.tray = 0 then 0 else if n.front.tray = 1 then 1 else if n.front.tray = 2 then 2 else 3

/-- The destination of a page record. -/
def Page.destination (p : Page) : Dest := if p.dest = 0 then .bin0 else if p.dest = 1 then .bin1 else .finisher

/-- The bound records, front first. -/
def NextPage.pages (n : NextPage) : List Page := n.front :: n.back.toList

/-- The last page bound: the BACK of a pair. -/
def NextPage.lastPage (n : NextPage) : Page := n.back.getD n.front

/-! ## Starting, draining and returning (R44 to R47, R50) -/

/-- The start conditions (R44). -/
def Part.startReady (s : Part) : Bool :=
  s.nextPage.isSome && !s.feed.hold && !s.anyDoorOpen && s.finisher.state != .faulted && s.finisher.state != .retained
    && !s.feed.exhausted

/-- Entry to STARTING (R44, R45): the class of the page that would be bound first, the drives running, the stations sampled;
paper opens a RESIDUAL episode, otherwise the ramp timer is armed. -/
def Part.enterStarting (s : Part) : Part :=
  let cls := match s.nextPage with
    | some n => n.front.cls
    | none => s.feed.cls
  let s := (s.modFeed fun f => { f with cls := cls }).setPath .starting
  let s := (s.modOut fun o => { o with presented := cls }).runDrives
  match (List.finRange 24).filter s.paperAt with
  | [] => s.modFeed fun f =>
      { f with ramp := some (plusTicks s.tick ((s.force.drive.map DriveSet.ramp).getD 0)) }
  | st :: rest => (st :: rest).foldl (fun s st => s.jamAt .residual st s.tick none) s

/-- In IDLE the path starts when the start conditions hold (R44). -/
def Part.judgeStart (s : Part) : Part :=
  let s := s.judgeSelector
  if s.startReady then s.enterStarting else s

/-- The run-on timer is armed when the Sheet Table is empty in DRAINING (R47). -/
def Part.armRunOn (s : Part) : Part :=
  if s.feed.path = .draining ∧ s.table.sheets.isEmpty then
    s.modFeed fun f => { f with runOn := some (plusTicks s.tick ((s.force.drive.map DriveSet.runOn).getD 0)) }
  else s

/-- Drain conditions 2 to 4 of R46. -/
def Part.drainHolds (s : Part) : Bool :=
  s.feed.hold || s.feed.exhausted || s.nextPage.any fun n => n.front.cls != s.feed.cls

/-- Entry to DRAINING (R46, R47). -/
def Part.enterDraining (s : Part) : Part :=
  ((s.modFeed fun f => { f with pickTimer := none, holdoff := none }).setPath .draining).armRunOn

/-- The return conditions of R47. -/
def Part.returnHolds (s : Part) : Bool :=
  !s.feed.hold && !s.feed.exhausted && s.nextPage.any fun n => n.front.cls == s.feed.cls

/-- The return to RUNNING (R47). -/
def Part.returnToRunning (s : Part) : Part := (s.modFeed fun f => { f with runOn := none }).setPath .running

/-- The starvation holdoff in RUNNING: armed while no bindable page exists, cancelled when one does (R50). -/
def Part.judgeHoldoff (s : Part) : Part :=
  s.modFeed fun f => { f with
    holdoff := if s.nextPage.isSome then none
      else f.holdoff <|> some (plusTicks s.tick s.force.timing.holdoff) }

/-- Entry to IDLE: the drives stopped, both boundary marks set, no page bound since (R43, R48, R54). -/
def Part.enterIdle (s : Part) : Part :=
  ((s.stopDrives).modFeed fun f => { f with
    runOn := none, normalMark := true, priorityMark := true, lastBound := none }).setPath .idle

/-! ## When a pick may be made (R57, R60, R66) -/

/-- A DUPLEX sheet on its FIRST pass, which the loop is still to bring back to the merge (R59). -/
def Sheet.loops (x : Sheet) : Bool := x.kind == .duplex && x.pass == .first

/-- FIRST-pass DUPLEX sheets in the Sheet Table (R59). -/
def Part.firstPassCount (s : Part) : Nat := s.table.sheets.countP Sheet.loops

/-- The ready gate of the next page (R57). -/
def readyGatePasses (g : ReadyGate) (n : NextPage) : Bool :=
  n.kind == .insert || match g with
    | .off => true
    | .front => n.front.ready
    | .both => n.pages.all Page.ready

/-- The conditions of R57 that do not depend on the tick. -/
def Part.pickHolds (s : Part) (n : NextPage) : Bool :=
  n.front.cls == s.feed.cls
    && decide (s.table.sheets.length < Config.sheetTableSize)
    && s.feed.unconfirmed.isNone
    && s.trayAvailable n.unit
    && (match n.front.destination with
        | .bin0 => !s.binIsFull 0
        | .bin1 => !s.binIsFull 1
        | _ => true)
    && s.reserveMet
    && decide (s.calls.unsent < Config.imageCallSize)
    && (if n.kind = .duplex then decide (s.firstPassCount < s.force.timing.loop) else s.firstPassCount == 0)
    && readyGatePasses s.force.timing.readyGate n

/-- The latest sheet bound toward FINISHER, in the Sheet Table or failing that the last of the Compile Set (R66). A set between
its partial ejects with no sheet in either place has none: DESIGN CHOICE, no set gap applies to it then (R157; entry 47). -/
def Part.lastToward (s : Part) : Option (Sheet ⊕ Held) :=
  match (s.table.sheets.filter fun x => x.dest == .finisher && x.cond != .purging).getLast? with
  | some x => some (.inl x)
  | none => (s.finisher.sheets.getLast?).map .inr

/-- The predicted FINISHER ENTRY trail of the previous set's last sheet, in the three ways of R24. -/
def Part.finisherTrail (s : Part) : Sheet ⊕ Held → Tick
  | .inr h => h.delivered
  | .inl x =>
    let pass := dwell x.media s.speed
    match (s.force.stationWith .finisherEntry).bind fun st => (s.stations[st]).cover.filter fun c => c.sheet == x.number with
    | some c => plusTicks c.lead pass
    | none =>
      let rest := s.force.through .finisherEntry (x.itinerary.drop x.index)
      plusTicks (plusInt (plusTicks x.anchor (transit (distanceOver rest) s.speed)) (offsetsOver s.stations rest)) pass

/-- The previous set is to be stapled and its staple has not been skipped (R24; entry 21). -/
def Part.stapleAwaited (s : Part) (id : Nat × Nat) : Bool :=
  let here := s.finisher.ident == some id
  !(here && (s.finisher.skipped || s.finisher.abandoned))
    && ((here && (s.finisher.toStaple || s.finisher.sheets.any Held.staple))
      || s.table.sheets.any fun x => x.dest == .finisher && x.job == id.1 && x.set == id.2 && x.staple)

/-- The predicted completion of the previous set, whose last sheet is given (R24). -/
def Part.predictedCompletion (s : Part) (last : Sheet ⊕ Held) (id : Nat × Nat) : Tick :=
  let fs := s.finisherSet
  let t := plusTicks (s.finisherTrail last) (fs.settle + (if s.stapleAwaited id then fs.nominal else 0) + fs.eject)
  if isBefore s.tick t then t else plusTicks s.tick fs.eject

/-- The job and set of a sheet bound toward FINISHER. -/
def setOf : Sheet ⊕ Held → Nat × Nat
  | .inl x => (x.job, x.set)
  | .inr h => (h.job, h.set)

/-- The earliest tick at which the set gap holds, where it applies: to a sheet for FINISHER whose set differs from that of the
latest sheet bound there, while that set has not been ejected (R66; entries 21 and 47). -/
def Part.setGapTick (s : Part) (n : NextPage) : Option Tick :=
  if n.front.destination ≠ .finisher then none
  else match s.lastToward with
    | none => none
    | some last =>
      if setOf last = (n.front.job, n.front.set) then none
      else
        let way := s.force.through .finisherEntry (s.force.itinerary n.kind n.unit .finisher)
        let ahead := plusInt (BitVec.ofNat 32 (transit (distanceOver way) s.speed)) (offsetsOver s.stations way)
        some (s.predictedCompletion last (setOf last) - ahead)

/-- The earlier of the ticks in a list, counting from a first. -/
def earliest (t : Tick) (l : List Tick) : Tick := l.foldl (fun a b => if isBefore b a then b else a) t

/-- The widened interval of a pick at tick `t` (R23). -/
def Part.widened (s : Part) (n : NextPage) (t : Tick) : Tick × Tick :=
  let gt := mergeGap s.force.timing s.anyOutOfStep s.speed
  let (lead, trail) := s.predictFrom t (feedLegOf n.unit) 0 n.front.media
  (lead - BitVec.ofNat 32 gt, plusTicks trail gt)

/-- A pick at tick `t` is allowed at the merge (R23): its widened interval overlaps no reservation. -/
def Part.mergeAllows (s : Part) (n : NextPage) (t : Tick) : Bool :=
  let w := s.widened n t
  s.feed.merge.all fun r => notAfter w.2 r.lead || notAfter r.trail w.1

/-- The earliest allowed pick tick: the earliest candidate allowed at the merge (R23, R57, R60). No other condition holds it back
(entry 37). -/
def Part.pickTick (s : Part) (n : NextPage) : Option Tick :=
  let base := match s.setGapTick n with
    | some ts => laterOf s.tick ts
    | none => s.tick
  let gt := mergeGap s.force.timing s.anyOutOfStep s.speed
  let x := (s.predictFrom s.tick (feedLegOf n.unit) 0 n.front.media).1 - s.tick
  let after := (s.feed.merge.map fun r => plusTicks r.trail gt - x).filter (notAfter base)
  match (base :: after).filter (s.mergeAllows n) with
  | [] => none
  | t :: rest => some (earliest t rest)

/-! ## The pick (R55, R56, R61) -/

/-- A page as it is bound to sheet `num`: one from a queue takes it as its origin (R55). -/
def boundPage (num : Nat) (source : Option Queue) (p : Page) : Page :=
  if source.isSome then { p with origin := some num } else p

/-- The sheet record the pick composes (R56). -/
def Part.newSheet (s : Part) (n : NextPage) : Sheet where
  number := s.feed.nextSheet
  source := n.unit
  kind := n.kind
  front := some (boundPage s.feed.nextSheet n.source n.front)
  back := n.back.map (boundPage s.feed.nextSheet n.source)
  blankBack := n.kind == .duplex && n.back.isNone
  job := n.front.job
  set := n.front.set
  firstOfSet := n.front.firstOfSet
  lastOfSet := n.pages.any Page.lastOfSet
  staple := n.front.staple
  media := n.front.media
  cls := n.front.cls
  dest := n.front.destination
  pass := if n.kind = .duplex then .first else .final
  itinerary := s.force.itinerary n.kind n.unit n.front.destination
  index := 0
  lastPassed := none
  attempts := 1
  anchor := s.tick
  expect := none
  deadline := none
  covering := none
  frontSide := if n.kind = .insert then .none else .called
  backSide := .none
  cond := .normal
  released := false

/-- The next page leaves its source (R61); a queue's INTAKE LOW is judged (R38). -/
def Part.takeNext (s : Part) (n : NextPage) : Part :=
  let k := n.pages.length
  match n.source with
  | none => s.modPlanner fun p => { p with list := p.list.drop k }
  | some .normal => (s.modIntake fun x => { x with normal := x.normal.drop k }).judgeIntakeLow .normal
  | some .priority => (s.modIntake fun x => { x with priority := x.priority.drop k }).judgeIntakeLow .priority

/-- The record joins the Sheet Table at its tail (R69). -/
def Part.joinTable (s : Part) (x : Sheet) : Part :=
  (s.modTable fun t => { t with sheets := t.sheets ++ [x] }).raiseRevision 1

/-- The FEED entry of a pick or, from EXIT, the RETURN entry of a DUPLEX sheet: any entry of the sheet gives way (R63). -/
def Part.reserve (s : Part) (x : Sheet) (kind : ResvKind) (leg : LegName) : Part :=
  let (lead, trail) := s.predictFrom s.tick leg 0 x.media
  s.modFeed fun f => { f with merge := insertResv ⟨x.number, kind, lead, trail⟩ (f.merge.filter fun r => r.sheet != x.number) }

/-- The predicted commit tick of a side whose remaining way to REGISTRATION is given, from `t0` (R61, R93). -/
def Part.commitTick (s : Part) (t0 : Tick) (way : List Step) : Tick :=
  plusInt (plusTicks t0 (transit (distanceOver way) s.speed)) (offsetsOver s.stations way)

/-- The image call of a picked sheet's front page, unless it is an INSERT (R61, R93). -/
def Part.callFront (s : Part) (x : Sheet) (p : Page) : Part :=
  if x.kind = .insert then s
  else s.modCalls fun c => { c with
    queue := insertCall ⟨p.id, p.side, x.number, s.commitTick s.tick (s.force.through .registration x.itinerary)⟩ c.queue }

/-- What binding does to the hold flag, the set-end mark and the boundary marks (R48, R54). -/
def Feed.bound (f : Feed) (n : NextPage) : Feed :=
  let closes := f.setEnd && n.pages.any Page.lastOfSet
  let f := { f with hold := f.hold || closes, setEnd := f.setEnd && !closes, lastBound := some n.lastPage.lastOfSet }
  match n.source with
  | none => f
  | some .normal => { f with normalMark := n.lastPage.lastOfSet, lastJobNormal := some n.front.job }
  | some .priority => { f with priorityMark := n.lastPage.lastOfSet, lastJobPriority := some n.front.job }

/-- The Feed Scheduler's own record of a pick: the number is taken, the timers are idle, the pick is unconfirmed (R51, R61). -/
def Part.notePick (s : Part) (n : NextPage) : Part :=
  let num := s.feed.nextSheet
  let s := s.modFeed fun f =>
    { f.bound n with nextSheet := num + 1, pickTimer := none, holdoff := none, unconfirmed := some num }
  if num = Config.lastSheetNumber then s.exhaust else s

/-- The pick (R61), with the judgements its new sheet calls for (R85, R86, R150). -/
def Part.makePick (s : Part) (n : NextPage) : Part :=
  let x := s.newSheet n
  let s := ((s.takeNext n).joinTable x).armNext x.number
  let s := s.reserve x .feed (feedLegOf n.unit)
  let s := s.modOut fun o => { o with clutch := o.clutch.set n.unit true }
  let s := (s.callFront x n.front).notePick n
  let s := (s.countTray n.unit 0).countPath 0
  s.judgeGates.judgeFinisher

/-- The pick conditions judged in RUNNING: the pick is made, or the pick timer armed or cancelled (R60). -/
def Part.judgePick (s : Part) : Part :=
  let cancelled := s.modFeed fun f => { f with pickTimer := none }
  match s.nextPage with
  | none => cancelled
  | some n =>
    if s.pickHolds n then
      match s.pickTick n with
      | none => cancelled
      | some t => if notAfter t s.tick then s.makePick n else s.modFeed fun f => { f with pickTimer := some t }
    else cancelled

/-- In RUNNING: a drain condition drains the path (R46); otherwise the holdoff and the pick conditions are judged, and after a
pick the drain conditions and the holdoff once more, on the next page found afresh (R50, R61). -/
def Part.judgeRunning (s : Part) : Part :=
  let s := s.judgeSelector
  if s.drainHolds then s.enterDraining
  else
    let picked := s.judgeHoldoff.judgePick
    if picked.feed.nextSheet = s.feed.nextSheet then picked
    else
      let s := picked.judgeSelector
      if s.drainHolds then s.enterDraining else s.judgeHoldoff

/-- In DRAINING the path returns to RUNNING as soon as the return conditions hold (R47). -/
def Part.judgeDraining (s : Part) : Part :=
  let s := s.judgeSelector
  if s.returnHolds then s.returnToRunning.judgeRunning else s

/-- The Feed Scheduler judges what its path state calls for (R44, R46, R47, R60). -/
def Part.judgeFeed (s : Part) : Part :=
  match s.feed.path with
  | .idle => s.judgeStart
  | .running => s.judgeRunning
  | .draining => s.judgeDraining
  | _ => s

/-- What the end of an event that touched sheets, sets or doors judges, in this order (entry 26): the diverters (R85, R86), the
set's closure and cycle (R150), the clearance (R125), the path and the next pick (R44, R46, R47, R60). Closure is judged once, on
all the sheet changes of the event together (entry 44). -/
def Part.judge (s : Part) : Part := ((s.judgeGates.judgeFinisher).judgeClearance).judgeFeed

end Sys2Proof.Machine
end

