-- ==== Sys2Proof/Machine/Imaging.lean ====
section
/-! DEFINITION. The shared operations of the Imaging Gate (chapter 5): the commit decision at REGISTRATION, the spoil cascade and
the back image call; and the change of destination to PURGE (R87). -/

namespace Sys2Proof.Machine

/-- The side of a sheet that passes REGISTRATION on its present pass is the back (chapter 5, section 5.2). -/
def Sheet.backPasses (x : Sheet) : Bool := x.kind == .duplex && x.pass == .final

/-- The page bound to a side. -/
def Sheet.pageOf (x : Sheet) (back : Bool) : Option Page := if back then x.back else x.front

/-- A side's state replaced. -/
def Sheet.setSide (x : Sheet) (back : Bool) (v : SideState) : Sheet :=
  if back then { x with backSide := v } else { x with frontSide := v }

/-- A side is COMMITTED and the image-ready flag of its page cleared (R95). -/
def Sheet.commit (x : Sheet) (back : Bool) : Sheet :=
  if back then { x with backSide := .committed, back := x.back.map fun p => { p with ready := false } }
  else { x with frontSide := .committed, front := x.front.map fun p => { p with ready := false } }

/-- The unsent calls for one side of a sheet are removed (R94). -/
def Part.dropSideCall (s : Part) (n : Nat) (back : Bool) : Part :=
  s.modCalls fun c => c.drop fun y => y.sheet == n && (y.side == .back) == back

/-- The unsent calls of a sheet are removed (R94). -/
def Part.dropSheetCalls (s : Part) (n : Nat) : Part := s.modCalls fun c => c.drop fun y => y.sheet == n

/-- A sheet with its destination changed to PURGE (R87). -/
def Desc.purged (d : Desc) (x : Sheet) : Sheet :=
  { x with dest := .purge, cond := .purging, itinerary := d.toPurge x.itinerary }

/-- The change of destination to PURGE, which raises the table revision (R87). -/
def Part.purgeSheet (s : Part) (n : Nat) : Part := (s.modSheet n fun x => s.force.purged x).raiseRevision 1

/-- One subject of a cascade: its destination, its pages, its calls (R97, R98). -/
def Part.spoilSheet (s : Part) (x : Sheet) : Part :=
  (((s.purgeSheet x.number).reprint .spoiled x.pages).modSheet x.number Sheet.release).dropSheetCalls x.number

/-- The subjects of the cascade of sheet `n`: the sheet and every NORMAL sheet with a greater number (R97), but for one past the
PURGE GATE, which keeps its destination and is not reached (R87; entry 45). -/
def Part.subjects (s : Part) (n : Nat) : List Sheet :=
  s.table.sheets.filter fun x =>
    x.number == n || (decide (n < x.number) && x.cond == .normal && !s.force.pastPurgeGate x)

/-- The spoil count, and the SPOIL notice where its kind is enabled (R100). -/
def Part.noteSpoil (s : Part) (sheet page redirected : Nat) : Part :=
  let s := s.modGate fun g => { g with spoilCount := g.spoilCount + 1 }
  if s.mask.spoil then s.modNotices fun n => { n with spoil := some ⟨sheet, page, redirected⟩ } else s

/-- The spoil cascade of sheet `n`, whose spoiled side carries page `page` (R97 to R100). -/
def Part.cascade (s : Part) (n page : Nat) : Part :=
  let xs := s.subjects n
  (xs.foldl Part.spoilSheet s).noteSpoil n page xs.length

/-- The commit decision for a sheet at REGISTRATION (R95). -/
def Part.decideCommit (s : Part) (n : Nat) : Part :=
  match s.sheet? n with
  | none => s
  | some x =>
    let back := x.backPasses
    let s := s.dropSideCall n back
    if x.cond = .purging ∨ x.released = true then s.modSheet n fun y => y.setSide back .void
    else if x.kind = .insert then s
    else match x.pageOf back with
      | none => s
      | some p =>
        if p.ready then s.modSheet n fun y => y.commit back
        else ((s.modSheet n fun y => y.setSide back .spoiled).countPath 4).cascade n p.id

/-- The back image call of a DUPLEX sheet that reached EXIT on its FIRST pass (R93). -/
def Part.callBack (s : Part) (n : Nat) : Part :=
  match s.sheet? n with
  | none => s
  | some x =>
    match x.back with
    | none => s
    | some p =>
      if x.cond = .normal ∧ x.released = false then
        let tick := s.commitTick s.tick (s.force.through .registration (x.itinerary.drop x.index))
        (s.modCalls fun c => c.addBack ⟨p.id, p.side, n, tick⟩).modSheet n fun y => { y with backSide := .called }
      else s

end Sys2Proof.Machine
end

