-- ==== Sys2Proof/Machine/Track.lean ====
section
/-! DEFINITION. The shared operations of the Sheet Tracker (chapter 4): station edges, taken arrivals, trailing edges and
delivery, deadlines and pick retries; and the synthesised edges that feed it in dry run (chapter 11). -/

namespace Sys2Proof.Machine

/-! ## Candidates (R73) -/

/-- The sheet's pick was retried at tick `t`, its deadline's expiry taken first there: an edge of that tick does not find it
(R20; entry 36). -/
def Sheet.retriedAt (x : Sheet) (t : Tick) : Bool := x.index == 0 && decide (1 < x.attempts) && x.anchor == t

/-- The sheets awaiting a station (R73). -/
def Part.awaiting (s : Part) (st : Fin 24) : List Sheet :=
  s.table.sheets.filter fun x => x.moving && (x.nextStep.any fun y => y.station == st) && !x.retriedAt s.tick

/-- `y` is expected before `x`. -/
def Sheet.expectedBefore (y x : Sheet) : Bool :=
  match y.expect, x.expect with
  | some e, some f => isBefore e.e f.e
  | _, _ => false

/-- The awaiting sheet with the earliest expected arrival, the first of those that share it. -/
def soonest : List Sheet → Option Sheet
  | [] => none
  | x :: rest => match soonest rest with
    | none => some x
    | some y => if y.expectedBefore x then some y else some x

/-- The moving sheet a station's covering entry names. -/
def Part.coveringSheet (s : Part) (st : Fin 24) : Option Sheet :=
  ((s.stations[st]).cover.bind fun c => s.sheet? c.sheet).filter Sheet.moving

/-! ## Taken arrivals (R74, R75) -/

/-- A station's learned state after a taken arrival (R21, R80): `r` is the raw error. -/
def Station.learn (x : Station) (tm : Timing) (r : Int) (o : Arrival) : Station :=
  let offset := updatedOffset tm.omax x.resync x.offset r
  if x.resync then { x with offset := offset, history := [], resync := false }
  else
    let history := enterOutcome tm.window x.history o
    let out := judgedOutOfStep x.outOfStep history
    { x with offset := offset, history := history, resync := out && !x.outOfStep && tm.autoResync }

/-- The step state a taken arrival leaves (R80). -/
def Station.stepAfter (x : Station) (tm : Timing) (o : Arrival) : Bool :=
  if x.resync then x.outOfStep else judgedOutOfStep x.outOfStep (enterOutcome tm.window x.history o)

/-- Effect 1 of R74. -/
def Part.learnAt (s : Part) (st : Fin 24) (r : Int) (o : Arrival) : Part :=
  let after := (s.stations[st]).stepAfter s.force.timing o
  (s.modStation st fun x => x.learn s.force.timing r o).setStep st after

/-- Effect 2 of R74. -/
def Part.countArrival (s : Part) (st : Fin 24) (o : Arrival) : Part :=
  let s := s.countStation st 0
  if o = .drift then s.countStation st 1 else s

/-- Effect 3 of R74, and the covering station of effect 4. -/
def Sheet.arrived (x : Sheet) (st : Fin 24) (a : Tick) : Sheet :=
  { x with deadline := none, lastPassed := some st, anchor := a, index := x.index + 1, covering := some st }

/-- The covering entry of effect 4 of R74. -/
def Part.coverWith (s : Part) (x : Sheet) (st : Fin 24) (a : Tick) : Part :=
  s.modStation st fun y => { y with
    cover := some ⟨x.number, a, some (trailingDeadline s.force.timing s.speed x.media a)⟩ }

/-- The pick is confirmed: its clutch rests (R62, R75). -/
def Part.confirmPick (s : Part) (x : Sheet) : Part :=
  (s.modOut fun o => { o with clutch := o.clutch.set x.source false }).modFeed fun f =>
    { f with unconfirmed := if f.unconfirmed = some x.number then none else f.unconfirmed }

/-- A taken arrival is a DUPLEX sheet's return to MAIN (R73): `x` as it stands with its step index moved on. -/
def Sheet.returns (x : Sheet) : Bool :=
  decide (2 ≤ x.index) && (x.itinerary[x.index - 1]?).any (fun y => y.leg == .main && y.pos == 1)
    && (x.itinerary[x.index - 2]?).any fun y => y.leg == .duplex

/-- The role action of a taken arrival of `x`, whose step index has moved on, at station `st` (R75). -/
def Part.roleAction (s : Part) (x : Sheet) (st : Fin 24) : Part :=
  let s := if x.index = 1 then s.confirmPick x else s
  let s := if x.returns then s.modSheet x.number fun y => { y with pass := .final } else s
  match s.force.roleOf st with
  | some .registration => s.decideCommit x.number
  | some .exit => if x.pass = .first then (s.reserve x .return .duplex).callBack x.number else s
  | some .finisherEntry => if s.overruns x then s.jamAt .finisherOverrun st s.tick (some x) else s
  | _ => s

/-- Effect 7 of R74: the reservation re-predicted from a station of a tray, INSERT or DUPLEX leg (R64). -/
def Part.repredictAt (s : Part) (x : Sheet) (step : Step) : Part :=
  if step.leg.hasEnd then
    let p := s.predictFrom s.tick step.leg step.pos x.media
    s.repredict x.number p.1 p.2
  else s

/-- An arrival of `x` taken at `st` with outcome `o` (R74). The diverters are judged at the end of the event. -/
def Part.takeArrival (s : Part) (x : Sheet) (step : Step) (e : Expect) (o : Arrival) : Part :=
  let st := step.station
  let a := s.tick
  let r := since (plusTicks x.anchor e.transit) a
  let s := (s.learnAt st r o).countArrival st o
  let s := (s.modSheet x.number fun y => y.arrived st a).coverWith x st a
  let s := s.armNext x.number
  (s.roleAction (x.arrived st a) st).repredictAt x step

/-! ## Leading edges (R71, R73) -/

/-- A leading edge matched and judged at Tick Time (R73). -/
def Part.matchLeading (s : Part) (st : Fin 24) : Part :=
  match s.coveringSheet st with
  | some x => s.jamAt .stay st s.tick (some x)
  | none =>
    match soonest (s.awaiting st) with
    | none => s.jamAt .unexpectedPaper st s.tick none
    | some x =>
      match x.nextStep, x.expect with
      | some step, some e =>
        match judgeArrival e (since e.e s.tick) with
        | none => s.jamAt .earlyArrival st s.tick (some x)
        | some o => s.takeArrival x step e o
      | _, _ => s

/-- A leading edge delivered to the tracker, by path state (R71). -/
def Part.leadingEdge (s : Part) (st : Fin 24) : Part :=
  match s.feed.path with
  | .starting | .sweeping => s.jamAt .residual st s.tick none
  | .running | .draining | .halting => s.matchLeading st
  | .unconfigured | .idle | .held | .resumable => s

/-! ## Trailing edges and delivery (R76, R77, R88) -/

/-- The latest station whose covering entry still names a sheet (R76 step 1). -/
def Part.latestCover (s : Part) (x : Sheet) : Option (Fin 24) :=
  ((x.itinerary.take x.index).reverse.map Step.station).find? fun st =>
    (s.stations[st]).cover.any fun c => c.sheet == x.number

/-- Step 1 of R76. -/
def Part.uncover (s : Part) (x : Sheet) (st : Fin 24) : Part :=
  let s := s.modStation st fun y => { y with cover := none }
  if x.covering = some st then s.modSheet x.number fun y => { y with covering := s.latestCover x } else s

/-- The length check (R77). The multifeed is counted before the jam, and so before the episode the jam may open (entry 41). -/
def Part.checkLength (s : Part) (x : Sheet) (st : Fin 24) (lead : Tick) : Part :=
  let length := measuredLength s.speed lead s.tick
  let margin := s.force.timing.multifeed
  if x.media + margin < length then (s.countPath 5).jamAt .multifeed st s.tick (some x)
  else if length + margin < x.media then s.jamAt .sizeMismatch st s.tick (some x)
  else s

/-- The kind of reservation a sheet's trailing edge at the first station of MAIN removes: its RETURN on the return pass of a
DUPLEX sheet, its FEED on any other (R65). -/
def Sheet.endsResv (x : Sheet) : ResvKind := if x.kind = .duplex ∧ x.pass = .final then .return else .feed

/-- That reservation of the sheet is removed; where it no longer stands, nothing is (R65). -/
def Part.unreserve (s : Part) (x : Sheet) : Part :=
  s.modFeed fun f => { f with merge := f.merge.filter fun r => !(r.sheet == x.number && r.kind == x.endsResv) }

/-- A delivery to PURGE ENTRY raises the purge count outside dry run (R102). -/
def Part.countPurge (s : Part) : Part :=
  (if s.dry.on then s else (s.modGate fun g => { g with purgeCount := g.purgeCount + 1 }).judgePurgeFull).countPath 3

/-- What is delivered, by the role of the final entry station (R88). -/
def Part.deliverTo (s : Part) (x : Sheet) : Option Role → Part
  | some .binEntry0 | some .binEntry1 => (s.deliverPages x.job x.pages).countPath 1
  | some .finisherEntry => s.handOver x
  | some .purgeEntry => s.countPurge
  | _ => s

/-- The delivery of a sheet at its final entry station (R88, R47, R112); with settle time 0 its compile completes at once (R149),
its record gone from the Sheet Table by then (entry 39). -/
def Part.deliver (s : Part) (x : Sheet) (st : Fin 24) : Part :=
  let role := s.force.roleOf st
  let s := (s.deliverTo x role).removeSheet x.number
  let s := if role = some .finisherEntry ∧ s.finisherSet.settle = 0 then s.completeCompile else s
  s.armRunOn.endHalting

/-- The trailing edge of a moving covering sheet (R76). Step 4, the diverters, is judged at the end of the event. -/
def Part.takeTrailing (s : Part) (x : Sheet) (c : Cover) (st : Fin 24) : Part :=
  let s := s.uncover x st
  let s := if (x.itinerary.head?.map Step.station) = some st then s.checkLength x st c.lead else s
  let s := if ((s.force.leg .main).steps.head?.map LegStep.station) = some st then s.unreserve x else s
  if (x.itinerary.getLast?.map Step.station) = some st then s.deliver x st else s

/-- A trailing edge matched (R76). -/
def Part.matchTrailing (s : Part) (st : Fin 24) : Part :=
  match (s.stations[st]).cover, s.coveringSheet st with
  | some c, some x => s.takeTrailing x c st
  | _, _ => s

/-- A trailing edge delivered to the tracker, by path state (R71). -/
def Part.trailingEdge (s : Part) (st : Fin 24) : Part :=
  match s.feed.path with
  | .running | .draining | .halting => s.matchTrailing st
  | .unconfigured | .idle | .starting | .held | .sweeping | .resumable => s

/-! ## Deadlines and pick retries (R62, R78) -/

/-- The pick retries set for a tray unit (R8). -/
def Part.retriesOf (s : Part) (u : Fin 5) : Nat := ((s.force.trays[u]).map TraySet.retries).getD 0

/-- A pick retry (R62): the anchor moves to now, the deadline and the synthesised edge are scheduled anew, the clutch pulses
again and the reservation is re-predicted. -/
def Part.retryPick (s : Part) (x : Sheet) : Part :=
  let s := s.modSheet x.number fun y => { y with attempts := y.attempts + 1, anchor := s.tick }
  let s := (s.withdrawEdges x.number).armNext x.number
  let s := s.modOut fun o => { o with clutch := o.clutch.set x.source true }
  let p := s.predictFrom s.tick (feedLegOf x.source) 0 x.media
  (s.repredict x.number p.1 p.2).countTray x.source 1

/-- The expiry of a first leading deadline in RUNNING or DRAINING: a retry or a MISFEED (R62, R78). -/
def Part.firstExpiry (s : Part) (x : Sheet) (st : Fin 24) (d : Tick) : Part :=
  let s := s.modOut fun o => { o with clutch := o.clutch.set x.source false }
  if x.attempts ≤ s.retriesOf x.source ∧ s.trayAvailable x.source = true then s.retryPick x
  else (s.countTray x.source 2).jamAt .misfeed st d (some x)

/-- A sheet's leading deadline `d` expires (R78). -/
def Part.leadingExpiry (s : Part) (x : Sheet) (step : Step) (d : Tick) : Part :=
  let s := (s.advance d).modSheet x.number fun y => { y with deadline := none }
  if x.index = 0 ∧ (s.feed.path = .running ∨ s.feed.path = .draining) then s.firstExpiry x step.station d
  else s.jamAt .noArrival step.station d (some x)

/-- A station's trailing deadline `d` expires (R78); the covering entry is kept. -/
def Part.trailingExpiry (s : Part) (st : Fin 24) (c : Cover) (d : Tick) : Part :=
  let s := (s.advance d).modStation st fun y => { y with cover := some { c with deadline := none } }
  s.jamAt .stay st d (s.sheet? c.sheet)

/-! ## Synthesised station edges (R168, R171) -/

/-- The path states in which a synthesised edge is delivered. -/
def PathState.takesEdges : PathState → Bool
  | .starting | .running | .draining | .halting => true
  | _ => false

/-- `x` falls no later than `y`. -/
def Edge.precedes (x y : Edge) : Bool := notAfter x.tick y.tick

/-- The first edge due of those in a list; of two due at one tick, the one scheduled first (entry 42). -/
def firstEdge : List Edge → Option Edge
  | [] => none
  | x :: rest => match firstEdge rest with
    | none => some x
    | some y => if x.precedes y then some x else some y

/-- The next scheduled edge of a station and direction. -/
def Dry.nextEdge (d : Dry) (st : Fin 24) (leading : Bool) : Option Edge :=
  firstEdge (d.schedule.filter fun e => e.station == st && e.leading == leading)

/-- The trailing edge that follows a leading edge delivered for a sheet (R168). An EXTRA one has its pair already. -/
def trailingOf (e : Edge) : List Edge :=
  if e.sheet.isNone then []
  else [{ e with leading := false, tick := plusTicks e.tick (e.dwell + e.stretch), stretch := 0 }]

/-- The spurious pairs that follow a trailing edge delivered where EXTRA faults fired (R171). -/
def extrasOf (e : Edge) : List Edge :=
  (List.replicate e.extras [
    { e with leading := true, tick := plusTicks e.tick 1000, sheet := none, extras := 0 },
    { e with leading := false, tick := plusTicks e.tick (1000 + e.dwell), sheet := none, extras := 0 }]).flatten

/-- A scheduled edge reaches its tick: it leaves the schedule, and is delivered or discarded (R168). One left over from a dry run
that has ended is discarded (entry 24), and so is one at a station no longer defined in force, which declares no jam and counts
nothing (R160; entry 46). -/
def Part.runEdge (s : Part) (e : Edge) : Part :=
  let s := (s.modDry fun d => { d with schedule := d.schedule.erase e }).advance e.tick
  if s.dry.on && s.feed.path.takesEdges && (s.force.stations[e.station]).isSome then
    if e.leading then (s.modDry fun d => { d with schedule := d.schedule ++ trailingOf e }).leadingEdge e.station
    else (s.modDry fun d => { d with schedule := d.schedule ++ extrasOf e }).trailingEdge e.station
  else s

end Sys2Proof.Machine
end

