-- ==== Sys2Proof/Machine/Layout.lean ====
section
/-! DEFINITION. The byte layouts of frames, replies and notices (12 section 12.7). Numbers go high byte first. A number too large
for its field leaves a free value in it (entry 9). -/

namespace Sys2Proof.Machine

/-! ## Fields -/

/-- A number in `n` bytes, high byte first (12.7). -/
def bytesOf (n v : Nat) : List Byte :=
  let w := if v < 256 ^ n then v else Config.unstatedField n v
  (List.range n).map fun i => BitVec.ofNat 8 (w / 256 ^ (n - 1 - i))

/-- A tick in four bytes. -/
def tickBytes (t : BitVec 32) : List Byte := bytesOf 4 t.toNat

/-- A number in `w` bits of a packed byte. -/
def bitField (w v : Nat) : Nat := if v < 2 ^ w then v else Config.unstatedField w v % 2 ^ w

/-- Fields of given widths packed from bit 0 upward. -/
def packed : List (Nat × Nat) → Nat
  | [] => 0
  | (w, v) :: rest => bitField w v + 2 ^ w * packed rest

/-- The bits that hold in a set of positions, from bit 0 upward. -/
def bitSet (l : List Bool) : Nat := packed (l.map fun b => (1, b.toNat))

/-- An absent station, door or area is 0xFF (12.7). -/
def orAbsent (o : Option Nat) : Nat := o.getD 255

/-- An area set in two bytes (12.7). -/
def areaBytes (a : AreaSet) : List Byte := bytesOf 2 a.toNat

/-! ## Enumerations: the position in the list where the field is first specified (12.7); each type lists its values so -/

def PathState.code (x : PathState) : Nat := x.ctorIdx
def Side.code (x : Side) : Nat := x.ctorIdx
def Dest.code (x : Dest) : Nat := x.ctorIdx
def SheetKind.code (x : SheetKind) : Nat := x.ctorIdx
def Pass.code (x : Pass) : Nat := x.ctorIdx
def SideState.code (x : SideState) : Nat := x.ctorIdx
def Condition.code (x : Condition) : Nat := x.ctorIdx
def JamKind.code (x : JamKind) : Nat := x.ctorIdx
def Reason.code (x : Reason) : Nat := x.ctorIdx
def SetState.code (x : SetState) : Nat := x.ctorIdx
def SetOutcome.code (x : SetOutcome) : Nat := x.ctorIdx
def Group.code (x : Group) : Nat := x.ctorIdx
def Width.code (x : Width) : Nat := x.ctorIdx
def Role.code (x : Role) : Nat := x.ctorIdx

/-! ## Frames (R173) -/

/-- One bit of the CRC generator x^16 + x^12 + x^5 + 1 (R173). -/
def crcBit (c : BitVec 16) : BitVec 16 := if c.msb then (c <<< 1) ^^^ 0x1021#16 else c <<< 1

/-- One byte into the CRC. -/
def crcByte (c : BitVec 16) (b : Byte) : BitVec 16 :=
  crcBit (crcBit (crcBit (crcBit (crcBit (crcBit (crcBit (crcBit (c ^^^ (b.setWidth 16 <<< 8)))))))))

/-- The CRC of LEN, KIND and body (R173). -/
def crc (l : List Byte) : BitVec 16 := l.foldl crcByte 0xFFFF#16

/-- LEN, KIND and body. -/
def Frame.covered (f : Frame) : List Byte := BitVec.ofNat 8 (f.body.length + 1) :: f.kind :: f.body

/-- The bytes of a frame on the line: start byte, LEN, KIND, body and CRC (R173). -/
def Frame.bytes (f : Frame) : List Byte := 0xD5#8 :: f.covered ++ bytesOf 2 (crc f.covered).toNat

/-! ## Tables of 12.7 -/

/-- A page identifier, 0 if absent. -/
def pageIdBytes (p : Option Page) : List Byte := bytesOf 4 ((p.map Page.id).getD 0)

/-- A station in five bits, 31 if absent. -/
def stationBits (st : Option (Fin 24)) : Nat := (st.map Fin.val).getD 31

/-- A sheet summary (19 bytes). -/
def Sheet.summary (x : Sheet) : List Byte :=
  bytesOf 4 x.number ++ pageIdBytes x.front ++ pageIdBytes x.back ++ bytesOf 1 x.job ++ bytesOf 2 x.set
    ++ bytesOf 1 (packed [(2, x.kind.code), (1, x.pass.code), (2, x.dest.code), (2, x.cond.code), (1, x.released.toNat)])
    ++ bytesOf 1 (packed [(3, x.frontSide.code), (3, x.backSide.code), (1, x.blankBack.toNat), (1, x.front.isSome.toNat)])
    ++ bytesOf 1 (packed [(1, x.back.isSome.toNat), (1, (x.front.any Page.ready).toNat), (1, (x.back.any Page.ready).toNat),
        (5, stationBits x.lastPassed)])
    ++ bytesOf 1 (packed [(5, stationBits x.covering)])

/-- A jam record (21 bytes). -/
def Jam.bytes (j : Jam) : List Byte :=
  bytesOf 1 j.kind.code ++ bytesOf 1 (orAbsent (j.station.map Fin.val)) ++ bytesOf 1 (orAbsent (j.door.map Fin.val))
    ++ bytesOf 1 (orAbsent (j.area.map Fin.val)) ++ bytesOf 1 (bitSet [j.sheet.isSome, j.front.isSome, j.back.isSome])
    ++ bytesOf 4 (j.sheet.getD 0) ++ tickBytes j.tick ++ bytesOf 4 (j.front.getD 0) ++ bytesOf 4 (j.back.getD 0)

/-- A plan entry (15 bytes). -/
def Entry.bytes (x : Entry) : List Byte :=
  let p := x.page
  bytesOf 4 p.id ++ bytesOf 4 (p.origin.getD 0) ++ bytesOf 1 p.job ++ bytesOf 2 p.set
    ++ bytesOf 2 (packed [(13, p.media), (2, x.reason.code), (1, p.ready.toNat)])
    ++ bytesOf 1 (packed [(2, p.side.code), (2, p.tray), (2, p.cls), (2, p.dest)])
    ++ bytesOf 1 (bitSet [p.noBack, p.firstOfSet, p.lastOfSet, p.staple, p.lastOfJob])

/-- The open doors, one bit each. -/
def Part.openDoors (s : Part) : Nat := bitSet ((List.finRange 8).map s.doorIsOpen)

/-- The clearance report (R125), 5 bytes. -/
def Part.clearanceReport (s : Part) : List Byte :=
  bytesOf 1 (bitSet [!s.clear, s.strayTrayPaper, s.finisher.busy, s.episode.barred]) ++ bytesOf 1 s.openDoors
    ++ bytesOf 3 (bitSet ((List.finRange 24).map s.paperAt))

/-- The active conditions word of STATUS READ. -/
def Part.activeConditions (s : Part) : Nat :=
  bitSet (s.feed.trayEmpty.toList ++ s.feed.binFull.toList ++ [s.gate.purgeFull, s.link.fault, s.feed.exhausted,
    s.stats.stationSet.active, s.stats.traySet.active, s.stats.pathSet.active, s.intake.lowNormal, s.intake.lowPriority])

/-- The STATUS READ reply after the result code (R179), 50 bytes. -/
def Part.status (s : Part) : List Byte :=
  bytesOf 1 s.feed.path.code
    ++ bytesOf 1 (packed [(1, s.feed.hold.toNat), (1, s.feed.setEnd.toNat), (1, (s.feed.selector == .priority).toNat),
        (1, s.dry.on.toNat), (2, s.feed.cls)])
    ++ bytesOf 1 s.intake.normal.length ++ bytesOf 1 s.intake.priority.length ++ bytesOf 1 s.planner.list.length
    ++ tickBytes s.planner.revision
    ++ bytesOf 1 (packed [(1, s.planner.readThrough.toNat), (1, s.episode.isOpen.toNat), (3, s.finisher.state.code)])
    ++ bytesOf 1 s.table.sheets.length ++ tickBytes s.table.revision ++ bytesOf 1 s.gate.purgeCount
    ++ tickBytes s.episode.number ++ areaBytes s.episode.areas ++ s.clearanceReport ++ bytesOf 2 s.activeConditions
    ++ bytesOf 3 (bitSet ((List.finRange 24).map fun st => (s.stations[st]).outOfStep))
    ++ bytesOf 1 (bitSet (s.intake.slots.toList.map Option.isSome))
    ++ (s.intake.slots.toList.flatMap fun x => bytesOf 1 ((x.map Slot.job).getD 0))
    ++ bytesOf 1 (s.dry.plan.countP fun x => !x.spent) ++ bytesOf 4 s.feed.nextSheet ++ tickBytes s.tick

/-! ## Notices -/

/-- A notice kind: 0x40 to 0x49 (R173). -/
def noticeKind (i : Nat) : Byte := BitVec.ofNat 8 (0x40 + i)

/-- IMAGE CALL (R94). -/
def Call.frame (c : Call) : Frame :=
  ⟨noticeKind 0, bytesOf 4 c.page ++ bytesOf 1 c.side.code ++ bytesOf 4 c.sheet ++ tickBytes c.tick⟩

/-- JAM (R116). -/
def JamNote.frame (x : JamNote) : Frame :=
  ⟨noticeKind 1, tickBytes x.episode ++ bytesOf 1 x.position ++ x.jam.bytes ++ bytesOf 2 x.overflow ++ areaBytes x.areas⟩

/-- PLAN READY (R141). -/
def Part.planReadyFrame (s : Part) : Frame :=
  ⟨noticeKind 2, tickBytes s.planner.revision ++ bytesOf 1 s.planner.list.length⟩

/-- PATH STATE (R43). -/
def Part.pathStateFrame (s : Part) : Frame :=
  ⟨noticeKind 3, bytesOf 1 s.feed.path.code ++ bytesOf 1 s.feed.cls ++ bytesOf 1 s.feed.hold.toNat
    ++ areaBytes s.episode.areas⟩

/-- DOOR (R117). -/
def Part.doorFrame (s : Part) (d : Fin 8) : Frame :=
  ⟨noticeKind 4, bytesOf 1 d.val ++ bytesOf 1 (s.doorIsOpen d).toNat ++ bytesOf 1 s.openDoors⟩

/-- SPOIL, with the running spoil count as it stands (R100). -/
def Part.spoilFrame (s : Part) (x : SpoilNote) : Frame :=
  ⟨noticeKind 5, bytesOf 4 x.sheet ++ bytesOf 4 x.page ++ bytesOf 1 x.redirected ++ bytesOf 4 s.gate.spoilCount⟩

/-- SET DONE (R152). -/
def SetDoneNote.frame (x : SetDoneNote) : Frame :=
  ⟨noticeKind 6, bytesOf 1 x.job ++ bytesOf 2 x.set ++ bytesOf 2 x.count ++ bytesOf 1 x.outcome.code⟩

/-- PROGRESS (R36). -/
def Slot.frame (x : Slot) (i : Fin 8) : Frame :=
  ⟨noticeKind 7, bytesOf 1 i.val ++ bytesOf 1 x.job ++ bytesOf 4 x.accepted ++ bytesOf 4 x.delivered
    ++ bytesOf 4 x.abandoned ++ bytesOf 4 (x.lastPage.getD 0) ++ bytesOf 1 (bitSet [x.lastPage.isSome, x.closed])⟩

/-- CONDITION: the condition's place in the order of R177 and its index (R178). -/
def conditionFrame (condition index : Nat) (w : WatermarkNote) : Frame :=
  ⟨noticeKind 8, bytesOf 1 condition ++ bytesOf 1 index ++ bytesOf 4 w.watermark ++ bytesOf 1 w.record ++ bytesOf 1 w.counter⟩

/-- INTAKE LOW: the queue, its count and its mark (R38). -/
def intakeLowFrame (queue count mark : Nat) : Frame :=
  ⟨noticeKind 9, bytesOf 1 queue ++ bytesOf 1 count ++ bytesOf 1 mark⟩

end Sys2Proof.Machine
end

