-- ==== Sys2Proof/Machine/Link.lean ====
section
/-! DEFINITION. The shared operations of the Link Unit (chapter 12): the receiver, discards, the taking of a request, and the
transmit selector. -/

namespace Sys2Proof.Machine

/-! ## Receiving (R174, R175) -/

/-- What one byte does to the receiver. -/
inductive Received where
  | moves (r : Receiver)
  | discards
  | accepts (f : Frame)
  deriving DecidableEq, Repr

/-- The receiver inside a frame, with `bytes` taken after the start byte and the last of them at `t`: a bad LEN, a frame not yet whole, a CRC that does
not match, or a frame (R174). -/
def examine (bytes : List Byte) (t : Tick) : Received :=
  let len := (bytes.headD 0).toNat
  if len = 0 ∨ 65 < len then .discards
  else if bytes.length < len + 3 then .moves (.inFrame bytes t)
  else if bytesOf 2 (crc (bytes.take (len + 1))).toNat = bytes.drop (len + 1) then
    .accepts ⟨(bytes.drop 1).headD 0, (bytes.take (len + 1)).drop 2⟩
  else .discards

/-- One byte at the receiver at tick `t` (R174). -/
def receive (r : Receiver) (t : Tick) (x : RxByte) : Received :=
  match r with
  | .hunting => .moves (if x.stopOk && x.byte == 0xD5#8 then .inFrame [] t else .hunting)
  | .inFrame bytes _ => if x.stopOk then examine (bytes ++ [x.byte]) t else .discards

/-- A discard: the receiver hunts, one frame discarded is reported, LINK FAULT becomes active and its timer is armed
(R174, R175). -/
def Part.discardFrame (s : Part) : Part :=
  let was := s.link.fault
  let s := s.modLink fun l => { l with
    receiver := .hunting, fault := true, faultTimer := some (plusTicks s.tick Config.linkFaultTicks) }
  (s.modNotices fun n => { n with linkFault := gated s.mask.condition was true n.linkFault }).countPath 9

/-- The receive queue holds four frames (R174). -/
def Part.queueFull (s : Part) : Bool := decide (Config.receiveQueueSize ≤ s.link.rxQueue.length)

/-! ## The transmit selector (R177) -/

/-- A frame chosen, whether it is a reply, and the part without what made it pending. -/
structure Choice where
  frame : Frame
  reply : Bool
  part : Part

/-- A notice chosen. -/
def notice (frame : Frame) (part : Part) : Choice := ⟨frame, false, part⟩

/-- 1: the oldest pending reply. -/
def Part.chooseReply (s : Part) : Option Choice :=
  match s.link.replies with
  | [] => none
  | f :: rest => some ⟨f, true, s.modLink fun l => { l with replies := rest }⟩

/-- 2: the head of the Image Call Queue, whose leaving lets a deferred call in and the pick be judged (R94, R60). -/
def Part.chooseCall (s : Part) : Option Choice :=
  match s.calls.queue with
  | [] => none
  | c :: rest =>
    some (notice c.frame ((s.modCalls fun x => promote x.deferred.length { x with queue := rest }).judgeFeed))

/-- 3: the oldest pending JAM. -/
def Part.chooseJam (s : Part) : Option Choice :=
  match s.notices.jams with
  | [] => none
  | x :: rest => some (notice x.frame (s.modNotices fun n => { n with jams := rest }))

/-- 4: PLAN READY. -/
def Part.choosePlanReady (s : Part) : Option Choice :=
  if s.notices.planReady then some (notice s.planReadyFrame (s.modNotices fun n => { n with planReady := false })) else none

/-- 5: PATH STATE. -/
def Part.choosePath (s : Part) : Option Choice :=
  if s.notices.pathState then some (notice s.pathStateFrame (s.modNotices fun n => { n with pathState := false })) else none

/-- 6: DOOR, lowest door id first. -/
def Part.chooseDoor (s : Part) : Option Choice :=
  ((List.finRange 8).find? fun d => s.notices.door[d]).map fun d =>
    notice (s.doorFrame d) (s.modNotices fun n => { n with door := n.door.set d false })

/-- 7: SPOIL; sending it sets the running spoil count to 0 (R100). -/
def Part.chooseSpoil (s : Part) : Option Choice :=
  s.notices.spoil.map fun x =>
    notice (s.spoilFrame x) ((s.modNotices fun n => { n with spoil := none }).modGate fun g => { g with spoilCount := 0 })

/-- 8: SET DONE. -/
def Part.chooseSetDone (s : Part) : Option Choice :=
  s.notices.setDone.map fun x => notice x.frame (s.modNotices fun n => { n with setDone := none })

/-- 9: PROGRESS, lowest slot first; its sending may free the slot (R37). -/
def Part.chooseProgress (s : Part) : Option Choice :=
  ((List.finRange 8).find? fun i => s.notices.progress[i]).bind fun i => (s.intake.slots[i]).map fun x =>
    notice (x.frame i) ((s.modNotices fun n => { n with progress := n.progress.set i false }).examineSlot i)

/-- A CONDITION without a watermark. -/
def plainCondition (condition index : Nat) : Frame := conditionFrame condition index ⟨0, 0, 0⟩

/-- 10: TRAY EMPTY. -/
def Part.chooseTrayEmpty (s : Part) : Option Choice :=
  ((List.finRange 5).find? fun (u : Fin 5) => s.notices.trayEmpty[u]).map fun (u : Fin 5) =>
    notice (plainCondition 0 u.val) (s.modNotices fun n => { n with trayEmpty := n.trayEmpty.set u false })

/-- 10: BIN FULL. -/
def Part.chooseBinFull (s : Part) : Option Choice :=
  ((List.finRange 2).find? fun (b : Fin 2) => s.notices.binFull[b]).map fun (b : Fin 2) =>
    notice (plainCondition 1 b.val) (s.modNotices fun n => { n with binFull := n.binFull.set b false })

/-- 10: PURGE FULL. -/
def Part.choosePurgeFull (s : Part) : Option Choice :=
  if s.notices.purgeFull then some (notice (plainCondition 2 0) (s.modNotices fun n => { n with purgeFull := false })) else none

/-- 10: OUT OF STEP. -/
def Part.chooseOutOfStep (s : Part) : Option Choice :=
  ((List.finRange 24).find? fun (st : Fin 24) => s.notices.outOfStep[st]).map fun (st : Fin 24) =>
    notice (plainCondition 3 st.val) (s.modNotices fun n => { n with outOfStep := n.outOfStep.set st false })

/-- The pending watermark notice of a group. -/
def Notices.watermark (n : Notices) : Group → Option WatermarkNote
  | .station => n.wmStation
  | .tray => n.wmTray
  | .path => n.wmPath

/-- 10: COUNTER WATERMARK of a group (R163). -/
def Part.chooseWatermark (g : Group) (s : Part) : Option Choice :=
  (s.notices.watermark g).map fun w =>
    notice (conditionFrame 4 g.code w) (s.modNotices fun n => n.setWatermark g none)

/-- 10: LINK FAULT. -/
def Part.chooseLinkFault (s : Part) : Option Choice :=
  if s.notices.linkFault then some (notice (plainCondition 5 0) (s.modNotices fun n => { n with linkFault := false })) else none

/-- 10: NUMBERS EXHAUSTED. -/
def Part.chooseExhausted (s : Part) : Option Choice :=
  if s.notices.exhausted then some (notice (plainCondition 6 0) (s.modNotices fun n => { n with exhausted := false })) else none

/-- 11: INTAKE LOW of the Normal Queue. -/
def Part.chooseLowNormal (s : Part) : Option Choice :=
  if s.notices.lowNormal then
    some (notice (intakeLowFrame 0 s.intake.normal.length s.force.timing.markNormal)
      (s.modNotices fun n => { n with lowNormal := false }))
  else none

/-- 11: INTAKE LOW of the Priority Queue. -/
def Part.chooseLowPriority (s : Part) : Option Choice :=
  if s.notices.lowPriority then
    some (notice (intakeLowFrame 1 s.intake.priority.length s.force.timing.markPriority)
      (s.modNotices fun n => { n with lowPriority := false }))
  else none

/-- The classes of R177 in their order. -/
def selectors : List (Part → Option Choice) :=
  [Part.chooseReply, Part.chooseCall, Part.chooseJam, Part.choosePlanReady, Part.choosePath, Part.chooseDoor,
    Part.chooseSpoil, Part.chooseSetDone, Part.chooseProgress, Part.chooseTrayEmpty, Part.chooseBinFull,
    Part.choosePurgeFull, Part.chooseOutOfStep, Part.chooseWatermark .station, Part.chooseWatermark .tray,
    Part.chooseWatermark .path, Part.chooseLinkFault, Part.chooseExhausted, Part.chooseLowNormal, Part.chooseLowPriority]

/-- The frame the selector chooses, if anything is pending. -/
def Part.select (s : Part) : Option Choice := selectors.findSome? fun f => f s

/-- The end of every event: an idle transmitter starts the next pending frame (R177). -/
def Part.conclude (s : Part) : Part :=
  if s.link.sending.isSome then s
  else match s.select with
    | none => s
    | some c => c.part.modLink fun l => { l with sending := some ⟨c.frame, c.reply⟩ }

/-- An event at tick `t`: `g` takes it, and the transmitter follows. -/
def Part.event (s : Part) (t : Tick) (g : Part → Part) : Part := (g (s.advance t)).conclude

/-- The gap that ends a frame begun: at the 41st tick after its last byte the frame is discarded (R174). A receiver that hunts has
no gap to wait for. -/
def Part.gapDiscard (s : Part) : Part :=
  match s.link.receiver with
  | .hunting => s
  | .inFrame _ last => s.event (plusTicks last Config.byteGapTicks) Part.discardFrame

/-- The gap, if a byte at tick `t` comes too late for the frame begun (R174). -/
def Part.gapBefore (s : Part) (t : Tick) : Part :=
  match s.link.receiver with
  | .hunting => s
  | .inFrame _ last => if (Config.byteGapTicks : Int) ≤ since last t then s.gapDiscard else s

/-! ## Requests (R176) -/

/-- Result codes, in the order of R176. -/
inductive Result where
  | done | unknownKind | badLength | badValue | notConfigured | wrongState | badPath | queueFull | jobTableFull | jobClosed
  | orphanBack | expectBack | unknownJob | unknownPage | planUnread | notClear
  deriving DecidableEq, Repr

/-- A result code's byte. -/
def Result.byte (r : Result) : Byte := BitVec.ofNat 8 r.ctorIdx

/-- An owner's answer to a request: the part after it, the result code and the data of the reply. -/
structure Answer where
  part : Part
  result : Result
  data : List Byte

/-- DONE without data. -/
def Part.done (s : Part) : Answer := ⟨s, .done, []⟩

/-- A refusal without data: nothing changes. -/
def Part.refuse (s : Part) (r : Result) : Answer := ⟨s, r, []⟩

/-- The frame joins the receive queue and the receiver hunts again (R174, R176). -/
def Part.enqueue (s : Part) (f : Frame) : Part :=
  s.modLink fun l => { l with receiver := .hunting, rxQueue := l.rxQueue ++ [f] }

/-- The reply to a request of a kind is made pending behind every reply already pending (R173, R176). -/
def Part.reply (kind : Byte) (a : Answer) : Part :=
  a.part.modLink fun l => { l with replies := l.replies ++ [⟨kind ||| 0x80#8, a.result.byte :: a.data⟩] }

/-- An owner behind the Link Unit's check of the length (R176). -/
def Part.checked (s : Part) (lengthOk : Bool) (owner : Part → Answer) : Answer :=
  if lengthOk then owner s else s.refuse .badLength

/-- A frame with a good CRC (R174, R176): discarded without room in the receive queue, or else accepted, taken by its owner and
answered. -/
def Part.acceptFrame (s : Part) (kind : Byte) (body : List Byte) (owner : Part → Answer) : Part :=
  if s.queueFull then s.discardFrame else Part.reply kind (owner (s.enqueue ⟨kind, body⟩))

/-- A request command at tick `t` (entry 6): a frame begun before it was ended by its gap (R174, entry 7), and its own frame is
accepted. -/
def Part.takeRequest (s : Part) (t : Tick) (kind : Byte) (body : List Byte) (owner : Part → Answer) : Part :=
  s.gapDiscard.event t fun s => s.acceptFrame kind body owner

end Sys2Proof.Machine
end

