-- ==== Sys2Proof/Machine/PathCheck.lean ====
section
/-! DEFINITION. The six checks of PATH CLOSE (R15 to R17). A check answers the detail byte of the first item that fails it, or
none. -/

namespace Sys2Proof.Machine

/-! ## Details (12.7) -/

/-- A leg as a detail. -/
def LegName.detail (l : LegName) : Nat := 0x20 + l.pos.val

/-- The roles each of which exactly one station holds (R16), in the order of R3. -/
def soleRoles : List Role := [.registration, .exit, .purgeGate, .binEntry0, .binEntry1, .finisherEntry, .purgeEntry]

/-! ## 1 MISSING ITEM (R16) -/

/-- The stations that hold a role, in ascending id. -/
def Desc.holders (d : Desc) (r : Role) : List (Fin 24) := (List.finRange 24).filter fun st => d.roleOf st == some r

/-- A role missing or held twice. -/
def Desc.roleFault (d : Desc) (r : Role) : Option Nat :=
  match d.holders r with
  | [] => some (0x60 + r.code)
  | [_] => none
  | _ :: second :: _ => some second.val

/-- The units of TRAY DEF, in its order, each with whether it is set. -/
def Desc.unitsSet (d : Desc) : List Bool := d.trays.toList.map Option.isSome ++ d.bins.toList.map Option.isSome ++ [d.purge.isSome]

/-- Check 1. -/
def Desc.missingItem (d : Desc) : Option Nat :=
  if d.drive.isNone then some 0x40
  else if d.finisher.isNone then some 0x41
  else match d.unitsSet.findIdx? (!·) with
    | some i => some (0x50 + i)
    | none => match allLegs.find? fun l => (d.legs[l.pos]).isNone with
      | some l => some l.detail
      | none => soleRoles.findSome? d.roleFault

/-! ## 2 LEG SHAPE (R16) -/

/-- The stations of a leg. -/
def Desc.stationsOf (d : Desc) (l : LegName) : List (Fin 24) := (d.leg l).steps.map LegStep.station

/-- The entry role a DELIVER leg ends with. -/
def entryRole : LegName → Role
  | .deliverBin0 => .binEntry0
  | .deliverBin1 => .binEntry1
  | .deliverFinisher => .finisherEntry
  | _ => .purgeEntry

/-- No station of the leg stands in another leg, but for those DELIVER legs may share. -/
def Desc.apart (d : Desc) (l : LegName) : Bool :=
  allLegs.all fun m => m == l || (m.isDeliver && l.isDeliver) || (d.stationsOf l).all fun st => !(d.stationsOf m).contains st

/-- The roles of a leg's stations are as its name asks. -/
def Desc.rolesFit (d : Desc) (l : LegName) : Bool :=
  let roles := (d.stationsOf l).map d.roleOf
  if l.hasEnd then roles.all (· == some .plain)
  else
    let inner : Role := if l = .main then .registration else .purgeGate
    let last : Role := if l = .main then .exit else entryRole l
    decide (2 ≤ roles.length) && roles.contains (some inner) && roles.getLast? == some (some last)
      && roles.dropLast.all fun r => r == some .plain || r == some inner

/-- The end distance of a feed leg or DUPLEX plus the first distance of MAIN is at most 20,000 dmm. -/
def Desc.endFits (d : Desc) (l : LegName) : Bool :=
  !l.hasEnd || decide ((d.leg l).endDist + (((d.leg .main).steps.head?.map LegStep.dist).getD 0) ≤ 20000)

/-- A leg has its required shape. -/
def Desc.legFits (d : Desc) (l : LegName) : Bool :=
  (d.stationsOf l).all (fun st => (d.stations[st]).isSome) && decide (d.stationsOf l).Nodup && d.apart l && d.rolesFit l
    && d.endFits l

/-- Check 2: the legs in the order of R15, then the stations in no leg (entry 14). -/
def Desc.legShape (d : Desc) : Option Nat :=
  match allLegs.find? fun l => !d.legFits l with
  | some l => some l.detail
  | none => ((List.finRange 24).find? fun (st : Fin 24) =>
      (d.stations[st]).isSome && !(allLegs.any fun l => (d.stationsOf l).contains st)).map Fin.val

/-! ## 3 DELIVER PREFIX (R17) -/

/-- The steps of a leg up to and including the PURGE GATE. -/
def Desc.prefixOf (d : Desc) : List LegStep → List LegStep
  | [] => []
  | x :: rest => if d.roleOf x.station = some .purgeGate then [x] else x :: d.prefixOf rest

/-- The stations of a DELIVER leg after the PURGE GATE. -/
def Desc.tailStations (d : Desc) (l : LegName) : List (Fin 24) :=
  ((d.leg l).steps.drop (d.prefixOf (d.leg l).steps).length).map LegStep.station

/-- Check 3: the legs, then the stations in two tails (entry 14). -/
def Desc.deliverPrefix (d : Desc) : Option Nat :=
  match deliverLegs.find? fun l => d.prefixOf (d.leg l).steps != d.prefixOf (d.leg .deliverBin0).steps with
  | some l => some l.detail
  | none => ((List.finRange 24).find? fun (st : Fin 24) =>
      decide (2 ≤ deliverLegs.countP fun l => (d.tailStations l).contains st)).map Fin.val

/-! ## 4 DRIVE MISMATCH (R17) -/

/-- The stations of MAIN before REGISTRATION. -/
def Desc.beforeRegistration (d : Desc) : List (Fin 24) :=
  (d.stationsOf .main).takeWhile fun st => d.roleOf st != some .registration

/-- The drive a station's place asks for. -/
def Desc.placeDrive (d : Desc) (st : Fin 24) : Drive :=
  if (allLegs.any fun l => l.isFeed && (d.stationsOf l).contains st) || d.beforeRegistration.contains st then .feed
  else if (d.stationsOf .main).contains st then .process
  else if (d.stationsOf .duplex).contains st then .duplex
  else .delivery

/-- Check 4. -/
def Desc.driveMismatch (d : Desc) : Option Nat :=
  ((List.finRange 24).find? fun (st : Fin 24) => (d.stations[st]).isSome && d.driveOf st != some (d.placeDrive st)).map Fin.val

/-! ## 5 LINE CONFLICT (R17) -/

/-- Check 5: the input lines, then the output lines. -/
def Desc.lineConflict (d : Desc) : Option Nat :=
  match (List.finRange 32).find? fun (i : Fin 32) => decide (2 ≤ allInputRoles.countP fun r => d.lineOf r == some i) with
  | some i => some i.val
  | none => ((List.finRange 24).find? fun (o : Fin 24) =>
      decide (2 ≤ allOutputRoles.countP fun r => d.outLineOf r == some o)).map fun o => 0x80 + o.val

/-! ## 6 AREA UNCOVERED (R17) -/

/-- An area some defined station names and no defined door exposes. -/
def Desc.uncoveredArea (d : Desc) (a : Fin 8) : Bool :=
  ((List.finRange 24).any fun (st : Fin 24) => (d.stations[st]).any fun x => x.area == a)
    && !((List.finRange 8).any fun (i : Fin 8) => (d.doors[i]).any fun x => x.areas.getLsbD a.val)

/-- Check 6: the areas, then the finisher. -/
def Desc.areaUncovered (d : Desc) : Option Nat :=
  match (List.finRange 8).find? d.uncoveredArea with
  | some a => some a.val
  | none => if (List.finRange 8).any fun (i : Fin 8) => (d.doors[i]).any DoorDef.finisher then none else some 8

/-- The reason and detail of the first check that fails (R15). -/
def Desc.badPath (d : Desc) : Option (Nat × Nat) :=
  [d.missingItem, d.legShape, d.deliverPrefix, d.driveMismatch, d.lineConflict, d.areaUncovered].zipIdx.findSome? fun x =>
    x.1.map fun detail => (x.2 + 1, detail)

end Sys2Proof.Machine
end

