-- ==== Sys2Proof/Machine/DefinitionCommands.lean ====
section
/-! DEFINITION. The definition requests and PATH CLOSE (chapter 1). -/

namespace Sys2Proof.Machine

/-- A command's effect on the part; the queue of waiting commands is left alone. -/
def State.takes (s : State) (g : Part → Part) : Host.Outcome State Fault Refusal := .next { s with part := g s.part }

/-! ## Definition requests (R2) -/

/-- The path state in which definition requests and PATH CLOSE are taken (R2, R15). -/
def Part.definable (s : Part) : Bool := s.feed.path == .unconfigured || s.feed.path == .idle

/-- A definition request (R2): WRONG STATE outside UNCONFIGURED and IDLE, BAD VALUE where its fields do not read, and otherwise
an edit of the stored description, which moves IDLE to UNCONFIGURED. -/
def Part.define (s : Part) (edit : Option (Desc → Desc)) : Answer :=
  if s.definable then
    match edit with
    | none => s.refuse .badValue
    | some g => ((s.modStored g).setPath .unconfigured).done
  else s.refuse .wrongState

/-- A stored station replaced or removed (R3). -/
def Desc.withStation (x : Fin 24 × Option StationDef) (d : Desc) : Desc := { d with stations := d.stations.set x.1 x.2 }

/-- A stored leg replaced (R5). -/
def Desc.withLeg (x : LegName × Leg) (d : Desc) : Desc := { d with legs := d.legs.set x.1.pos (some x.2) }

/-- The stored drive settings replaced (R7). -/
def Desc.withDrive (x : DriveSet) (d : Desc) : Desc := { d with drive := some x }

/-- A stored unit's settings replaced (R8). -/
def Desc.withUnit (x : UnitSet) (d : Desc) : Desc :=
  match x with
  | .tray u y => { d with trays := d.trays.set u (some y) }
  | .bin b line => { d with bins := d.bins.set b (some line) }
  | .purge y => { d with purge := some y }

/-- A stored door replaced or removed (R9). -/
def Desc.withDoor (x : Fin 8 × Option DoorDef) (d : Desc) : Desc := { d with doors := d.doors.set x.1 x.2 }

/-- The stored timing settings replaced (R10). -/
def Desc.withTiming (x : Timing) (d : Desc) : Desc := { d with timing := x }

/-- The stored finisher settings replaced (R11). -/
def Desc.withFinisher (x : Nat × FinisherSet) (d : Desc) : Desc := { d with capacity := x.1, finisher := some x.2 }

/-- A stored line setting replaced (R14). -/
def Desc.withLine (x : (Fin 32 × InputSet) ⊕ (Fin 24 × Bool)) (d : Desc) : Desc :=
  match x with
  | .inl (line, y) => { d with inputs := d.inputs.set line y }
  | .inr (line, high) => { d with restHigh := d.restHigh.set line high }

/-- STATION DEF at its owner; a body of another length is refused first (R176). -/
def ownerStationDef (body : List Byte) (p : Part) : Answer :=
  p.checked (lengthIs body 7) fun p => p.define ((readStation body).map Desc.withStation)

/-- STATION DEF (R3). -/
def execStationDef (t : Tick) (body : List Byte) (s : State) : Host.Outcome State Fault Refusal :=
  s.takes fun p => p.takeRequest t 0x01 body (ownerStationDef body)

/-- LEG DEF at its owner; a body of another length is refused first (R176). -/
def ownerLegDef (body : List Byte) (p : Part) : Answer :=
  p.checked (legLengthOk body) fun p => p.define ((readLeg body).map Desc.withLeg)

/-- LEG DEF (R5). -/
def execLegDef (t : Tick) (body : List Byte) (s : State) : Host.Outcome State Fault Refusal :=
  s.takes fun p => p.takeRequest t 0x02 body (ownerLegDef body)

/-- DRIVE DEF at its owner; a body of another length is refused first (R176). -/
def ownerDriveDef (body : List Byte) (p : Part) : Answer :=
  p.checked (lengthIs body 22) fun p => p.define ((readDrive body).map Desc.withDrive)

/-- DRIVE DEF (R7). -/
def execDriveDef (t : Tick) (body : List Byte) (s : State) : Host.Outcome State Fault Refusal :=
  s.takes fun p => p.takeRequest t 0x03 body (ownerDriveDef body)

/-- TRAY DEF at its owner: a body of another length is refused first (R176), then a purge capacity below the purge count. -/
def ownerTrayDef (body : List Byte) (p : Part) : Answer :=
  p.checked (lengthIs body 5) fun p =>
    p.define ((readUnit body p.gate.purgeCount).map Desc.withUnit)

/-- TRAY DEF (R8). -/
def execTrayDef (t : Tick) (body : List Byte) (s : State) : Host.Outcome State Fault Refusal :=
  s.takes fun p => p.takeRequest t 0x04 body (ownerTrayDef body)

/-- DOOR DEF at its owner; a body of another length is refused first (R176). -/
def ownerDoorDef (body : List Byte) (p : Part) : Answer :=
  p.checked (lengthIs body 5) fun p => p.define ((readDoor body).map Desc.withDoor)

/-- DOOR DEF (R9). -/
def execDoorDef (t : Tick) (body : List Byte) (s : State) : Host.Outcome State Fault Refusal :=
  s.takes fun p => p.takeRequest t 0x05 body (ownerDoorDef body)

/-- TIMING DEF at its owner; a body of another length is refused first (R176). -/
def ownerTimingDef (body : List Byte) (p : Part) : Answer :=
  p.checked (lengthIs body 24) fun p => p.define ((readTiming body).map Desc.withTiming)

/-- TIMING DEF (R10). -/
def execTimingDef (t : Tick) (body : List Byte) (s : State) : Host.Outcome State Fault Refusal :=
  s.takes fun p => p.takeRequest t 0x06 body (ownerTimingDef body)

/-- FINISHER DEF's answer: WRONG STATE while the Compile Set is not EMPTY (R11). -/
def Part.defineFinisher (s : Part) (body : List Byte) : Answer :=
  if s.finisher.state = .empty then s.define ((readFinisher body).map Desc.withFinisher) else s.refuse .wrongState

/-- FINISHER DEF at its owner; a body of another length is refused first (R176). -/
def ownerFinisherDef (body : List Byte) (p : Part) : Answer :=
  p.checked (lengthIs body 16) fun p => p.defineFinisher body

/-- FINISHER DEF (R11). -/
def execFinisherDef (t : Tick) (body : List Byte) (s : State) : Host.Outcome State Fault Refusal :=
  s.takes fun p => p.takeRequest t 0x07 body (ownerFinisherDef body)

/-- LINE DEF at its owner; a body of another length is refused first (R176). -/
def ownerLineDef (body : List Byte) (p : Part) : Answer :=
  p.checked (lengthIs body 4) fun p => p.define ((readLine body).map Desc.withLine)

/-- LINE DEF (R14). -/
def execLineDef (t : Tick) (body : List Byte) (s : State) : Host.Outcome State Fault Refusal :=
  s.takes fun p => p.takeRequest t 0x08 body (ownerLineDef body)

/-! ## PATH CLOSE (R15 and what it calls up in the other blocks) -/

/-- What a station is, for its learned state, has changed: defined or not, its line or its role (R4). -/
def stationChanged (old new : Option StationDef) : Bool :=
  old.map StationDef.line != new.map StationDef.line || old.map StationDef.role != new.map StationDef.role

/-- A station's learned state at PATH CLOSE: reset (R4), or its offset clamped and its history shortened (R10). -/
def Station.onClose (x : Station) (changed : Bool) (tm : Timing) : Station :=
  if changed then { x with offset := 0, history := [], outOfStep := false, resync := false }
  else { x with offset := clampOffset tm.omax x.offset, history := x.history.drop (x.history.length - tm.window) }

/-- The lines whose role, polarity or filter changed are read afresh through the polarity now in force (R13). -/
def Lines.onClose (l : Lines) (old new : Desc) : Lines :=
  let changed := fun i : Fin 32 => old.roleOfLine i != new.roleOfLine i || old.inputs[i] != new.inputs[i]
  { l with
    level := .ofFn fun i => if changed i then sampled (new.inputs[i]) (l.pin[i]) else l.level[i]
    run := .ofFn fun i => if changed i then 0 else l.run[i] }

/-- Both diverters go to rest where an open door holds them, to be judged afresh when it no longer does (R117; entry 16). -/
def Part.restGates (s : Part) : Part := s.modOut fun o => { o with exitGate := false, purgeGate := false }

/-- The stored description comes into force, with the learned states and lines it changes (R4, R10, R13, R14). -/
def Part.putInForce (s : Part) : Part :=
  let old := s.force
  let new := s.stored
  let s := s.modStations fun v => .ofFn fun st : Fin 24 =>
    (v[st]).onClose (stationChanged (old.stations[st]) (new.stations[st])) new.timing
  (s.modForce fun _ => new).modLines fun l => l.onClose old new

/-- A pending DOOR notice of a door no longer defined is withdrawn (R117). -/
def Part.dropDoorNotices (s : Part) : Part :=
  s.modNotices fun n => { n with door := .ofFn fun d : Fin 8 => (n.door[d]) && (s.force.doors[d]).isSome }

/-- The conditions judged at a successful PATH CLOSE: INTAKE LOW (R38), also where the marks are as they were (entry 34), TRAY EMPTY
and BIN FULL (R58), PURGE FULL (R103), DOOR (R117). -/
def Part.judgeConditions (s : Part) : Part :=
  let s := ((s.judgeIntakeLow .normal).judgeIntakeLow .priority).judgeSupplies.judgePurgeFull
  let s := ((List.finRange 8).foldl Part.judgeDoor s).dropDoorNotices
  if s.anyDoorOpen then s.restGates else s

/-- The finisher episode held over while the path was UNCONFIGURED (R119, R153): a DOOR OPEN carries the tick of the PATH CLOSE, a
STAPLE FAIL that of the limit expiry held over (R106; entry 43). -/
def Part.heldOver (s : Part) : Part :=
  let f := s.finisher
  let expiry := s.episode.heldOver.getD s.tick
  let s := s.modEpisode fun e => { e with heldOver := none }
  if f.disturbed && !f.sheets.isEmpty then s.openEpisode (plainJam .doorOpen none (some 8) s.tick) 0
  else if f.state == .faulted || f.state == .retained then s.openEpisode (plainJam .stapleFail none (some 8) expiry) 0
  else s

/-- PATH CLOSE's answer (R15). -/
def Part.answerPathClose (s : Part) : Answer :=
  if s.definable then
    match s.stored.badPath with
    | some (reason, detail) => ⟨s, .badPath, bytesOf 1 reason ++ bytesOf 1 detail⟩
    | none =>
      let from_ := s.feed.path
      let s := s.putInForce.judgeConditions
      let s := if from_ = .unconfigured then s.enterIdle.heldOver else s
      s.judge.done
  else s.refuse .wrongState

/-- PATH CLOSE at its owner; a body of another length is refused first (R176). -/
def ownerPathClose (body : List Byte) (p : Part) : Answer :=
  p.checked (lengthIs body 0) fun p => p.answerPathClose

/-- PATH CLOSE (R15). -/
def execPathClose (t : Tick) (body : List Byte) (s : State) : Host.Outcome State Fault Refusal :=
  s.takes fun p => p.takeRequest t 0x0A body (ownerPathClose body)

end Sys2Proof.Machine
end

