-- ==== Sys2Proof/Machine/IntakeCommands.lean ====
section
/-! DEFINITION. The requests of the Intake Unit (chapter 2): PAGE, IMAGE READY and ABANDON JOB; and the tray and bin lines. -/

namespace Sys2Proof.Machine

/-! ## PAGE (R26 to R30) -/

/-- The queue a page goes to: its job's, or by its priority flag (R28). -/
def Intake.queueFor (x : Intake) (p : Page) : Queue :=
  match (x.slotOf p.job).bind fun i => x.slots[i] with
  | some y => y.queue
  | none => if p.priority then .priority else .normal

/-- A queue has room (R28). -/
def Intake.hasRoom (x : Intake) : Queue → Bool
  | .normal => decide (x.normal.length < Config.normalQueueSize)
  | .priority => decide (x.priority.length < Config.priorityQueueSize)

/-- The unpaired FRONT at a queue's tail, if the queue is awaiting a back (R29). -/
def unpairedFront (q : List Page) : Option Page := q.getLast?.filter Page.needsBack

/-- The slot of a job, if it has one. -/
def Intake.slot? (x : Intake) (job : Nat) : Option Slot := (x.slotOf job).bind fun i => x.slots[i]

/-- The first check that fails, after the path state (R26). -/
def Intake.refuses (x : Intake) (p : Page) : Option Result :=
  let slot := x.slot? p.job
  let awaiting := unpairedFront (x.queue (x.queueFor p))
  if !p.consistent || slot.any (fun y => decide (Config.lastPageCount ≤ y.accepted)) then some .badValue
  else if slot.isNone && x.freeSlot.isNone then some .jobTableFull
  else if !x.hasRoom (x.queueFor p) then some .queueFull
  else if slot.any Slot.closed then some .jobClosed
  else if p.side = .back then
    if awaiting.any fun f => f.job == p.job && f.set == p.set then none else some .orphanBack
  else if awaiting.isSome then some .expectBack
  else none

/-- Step 1 of R30: a job without a slot takes the lowest-numbered free one. -/
def Intake.takeSlot (x : Intake) (p : Page) : Intake :=
  if (x.slotOf p.job).isSome then x
  else match x.freeSlot with
    | none => x
    | some i => { x with slots := x.slots.set i (some ⟨p.job, x.queueFor p, 0, 0, 0, none, false⟩) }

/-- Steps 4 and 5 of R30. -/
def Slot.accept (x : Slot) (p : Page) : Slot := { x with accepted := x.accepted + 1, closed := x.closed || p.lastOfJob }

/-- Step 3 of R30. -/
def Intake.append (x : Intake) (q : Queue) (p : Page) : Intake :=
  match q with
  | .normal => { x with normal := x.normal ++ [p] }
  | .priority => { x with priority := x.priority ++ [p] }

/-- The acceptance of a page (R30). -/
def Part.acceptPage (s : Part) (p : Page) : Part :=
  let q := s.intake.queueFor p
  let s := s.modIntake fun x => (x.takeSlot p).append q p
  let s := match s.intake.slotOf p.job with
    | some i => s.modSlot i fun y => y.accept p
    | none => s
  s.judgeIntakeLow q

/-- PAGE's answer (R26). -/
def Part.answerPage (s : Part) (body : List Byte) : Answer :=
  if s.feed.path = .unconfigured then s.refuse .notConfigured
  else match readPage body with
    | none => s.refuse .badValue
    | some p =>
      match s.intake.refuses p with
      | some r => s.refuse r
      | none => (s.acceptPage p).judge.done

/-- PAGE at its owner; a body of another length is refused first (R176). -/
def ownerPage (body : List Byte) (p : Part) : Answer :=
  p.checked (lengthIs body 14) fun p => p.answerPage body

/-- PAGE (R26). -/
def execPage (t : Tick) (body : List Byte) (s : State) : Host.Outcome State Fault Refusal :=
  s.takes fun p => p.takeRequest t 0x0B body (ownerPage body)

/-! ## IMAGE READY (R33) -/

/-- The page with its image-ready flag set where it carries identifier `id`. -/
def Page.readyIf (id : Nat) (p : Page) : Page := if p.id = id then { p with ready := true } else p

/-- A sheet's bound page that IMAGE READY reaches: not released, its side not COMMITTED. -/
def Sheet.reaches (x : Sheet) (back : Bool) (id : Nat) : Bool :=
  (x.pageOf back).any (fun p => p.id == id) && (if back then x.backSide != .committed else x.frontSide != .committed)

/-- A sheet with the flags of the pages reached set. -/
def Sheet.readyIf (id : Nat) (x : Sheet) : Sheet :=
  { x with
    front := if x.reaches false id then x.front.map (Page.readyIf id) else x.front
    back := if x.reaches true id then x.back.map (Page.readyIf id) else x.back }

/-- Some held record carries the identifier where IMAGE READY looks (R33). -/
def Part.holdsPage (s : Part) (id : Nat) : Bool :=
  s.intake.normal.any (fun p => p.id == id) || s.intake.priority.any (fun p => p.id == id)
    || s.planner.list.any (fun x => x.page.id == id)
    || s.table.sheets.any fun x => x.reaches false id || x.reaches true id

/-- The flag of every record found is set (R33). -/
def Part.setReady (s : Part) (id : Nat) : Part :=
  let s := s.modIntake fun x => { x with
    normal := x.normal.map (Page.readyIf id), priority := x.priority.map (Page.readyIf id) }
  let s := s.modPlanner fun x => { x with list := x.list.map fun y => { y with page := y.page.readyIf id } }
  s.modTable fun x => { x with sheets := x.sheets.map (Sheet.readyIf id) }

/-- IMAGE READY's answer (R33). -/
def Part.answerImageReady (s : Part) (body : List Byte) : Answer :=
  let id := numAt body 0 4
  if s.holdsPage id then (s.setReady id).judge.done else s.refuse .unknownPage

/-- IMAGE READY at its owner; a body of another length is refused first (R176). -/
def ownerImageReady (body : List Byte) (p : Part) : Answer :=
  p.checked (lengthIs body 4) fun p => p.answerImageReady body

/-- IMAGE READY (R33). -/
def execImageReady (t : Tick) (body : List Byte) (s : State) : Host.Outcome State Fault Refusal :=
  s.takes fun p => p.takeRequest t 0x0C body (ownerImageReady body)

/-! ## ABANDON JOB (R40, R87, R114, R143, R158) -/

/-- The records of a job in a queue leave it. -/
def Part.abandonQueued (s : Part) (job : Nat) : Part :=
  s.modIntake fun x => { x with
    normal := x.normal.filter (fun p => p.job != job), priority := x.priority.filter fun p => p.job != job }

/-- Its entries leave the Reprint List; in RESUMABLE, where any did, the plan is revised (R143). -/
def Part.abandonPlanned (s : Part) (job : Nat) : Part :=
  let some_ := s.planner.list.any fun x => x.page.job == job
  let s := s.modPlanner fun x => { x with list := x.list.filter fun y => y.page.job != job }
  if s.feed.path = .resumable ∧ some_ = true then
    (s.modPlanner fun x => { x with revision := x.revision + 1, readThrough := false }).notePlanReady
  else s

/-- The sheets of a job that ABANDON JOB reaches, by path state (R40). -/
def Part.abandonable (s : Part) (job : Nat) (x : Sheet) : Bool :=
  x.job == job && match s.feed.path with
    | .halting | .held | .sweeping => x.cond == .stranded && !x.released
    | .running | .draining => x.moving && x.cond != .purging && !s.force.pastPurgeGate x
    | _ => false

/-- A sheet reached gives up its pages and calls: STRANDED it stays so and the revision rises (R114), otherwise it becomes
PURGING (R87). -/
def Part.abandonSheet (s : Part) (x : Sheet) : Part :=
  let s := if x.cond = .stranded then s.raiseRevision 1 else s.purgeSheet x.number
  (s.modSheet x.number Sheet.release).dropSheetCalls x.number

/-- The Compile Set belongs to the job. -/
def Finisher.ofJob (f : Finisher) (job : Nat) : Bool := f.ident.any fun id => id.1 == job

/-- The set in the compile tray is abandoned (R158). -/
def Finisher.abandon (f : Finisher) : Finisher :=
  { f with
    sheets := f.sheets.map fun h => { h with pages := [] }
    abandoned := true
    state := if f.state = .faulted then .retained else f.state }

/-- How many pages of a job ABANDON JOB removes from each place (R40). -/
def Part.abandonCount (s : Part) (job : Nat) : Nat :=
  s.intake.normal.countP (fun p => p.job == job) + s.intake.priority.countP (fun p => p.job == job)
    + s.planner.list.countP (fun x => x.page.job == job)
    + ((s.table.sheets.filter (s.abandonable job)).flatMap Sheet.pages).length
    + if s.finisher.ofJob job then (s.finisher.sheets.flatMap Held.pages).length else 0

/-- A boundary mark is set where the job is that of the last page bound from the queue (R54). -/
def Feed.abandonMarks (f : Feed) (job : Nat) : Feed :=
  { f with
    normalMark := f.normalMark || f.lastJobNormal == some job
    priorityMark := f.priorityMark || f.lastJobPriority == some job }

/-- What ABANDON JOB removes from everywhere (R40). -/
def Part.withdrawJob (s : Part) (job : Nat) : Part :=
  let xs := s.table.sheets.filter (s.abandonable job)
  let s := (s.abandonQueued job).abandonPlanned job
  let s := xs.foldl Part.abandonSheet s
  let s := s.modFinisher fun f => if f.ofJob job then f.abandon else f
  s.modFeed fun f => f.abandonMarks job

/-- The slot's account of an abandonment of `n` pages (R40, R36 to R38). -/
def Part.closeAbandoned (s : Part) (i : Fin 8) (x : Slot) (n : Nat) : Part :=
  let s := s.modSlot i fun y => { y with abandoned := y.abandoned + n, closed := true }
  let s := if n = 0 then s else s.noteProgress i
  (s.judgeIntakeLow x.queue).examineSlot i

/-- ABANDON JOB's answer (R40). -/
def Part.answerAbandon (s : Part) (body : List Byte) : Answer :=
  let job := numAt body 0 1
  if s.feed.path = .unconfigured then s.refuse .notConfigured
  else match s.intake.slotOf job, s.intake.slot? job with
    | some i, some x =>
      let n := s.abandonCount job
      let s := (s.withdrawJob job).closeAbandoned i x n
      ⟨s.judge, .done, bytesOf 2 n⟩
    | _, _ => s.refuse .unknownJob

/-- ABANDON JOB at its owner; a body of another length is refused first (R176). -/
def ownerAbandonJob (body : List Byte) (p : Part) : Answer :=
  p.checked (lengthIs body 1) fun p => p.answerAbandon body

/-- ABANDON JOB (R40). -/
def execAbandonJob (t : Tick) (body : List Byte) (s : State) : Host.Outcome State Fault Refusal :=
  s.takes fun p => p.takeRequest t 0x10 body (ownerAbandonJob body)

/-! ## Tray, bin and purge-bin lines (R39, R58, R102) -/

/-- The input role of a tray unit's line. -/
def trayRole (x : TraySensor) (u : Fin 5) : InputRole :=
  match x with
  | .present => .present u
  | .paperOut => .paperOut u

/-- TRAY EMPTY and BIN FULL are judged at a level event in every path state but UNCONFIGURED (R58), and the picks with
them (R60). -/
def Part.supplyChanged (s : Part) (g : Part → Part) : Part :=
  (if s.feed.path = .unconfigured then s else g s).judge

/-- TRAY_LEVEL_CHANGE (R39). -/
def execTrayLevelChange (t : Tick) (unit : Fin 5) (sensor : TraySensor) (asserted : Bool) (s : State) :
    Host.Outcome State Fault Refusal :=
  s.takes fun p => p.event t fun p => (p.lineEdge (trayRole sensor unit) asserted).supplyChanged fun p => p.judgeTrayEmpty unit

/-- BIN_FULL_LINE_CHANGE (R39). -/
def execBinFullLineChange (t : Tick) (bin : Fin 2) (asserted : Bool) (s : State) : Host.Outcome State Fault Refusal :=
  s.takes fun p => p.event t fun p => (p.lineEdge (.binFull bin) asserted).supplyChanged fun p => p.judgeBinFull bin

/-- The purge-bin-removed line asserted: the purge count is 0 (R102). -/
def Part.emptyPurgeBin (s : Part) : Part := ((s.modGate fun g => { g with purgeCount := 0 }).judgePurgeFull).judge

/-- The edge of the purge-bin-removed line (R102); without a line in that role none comes. -/
def Part.purgeBinEdge (s : Part) (asserted : Bool) : Part :=
  let s := s.lineEdge .purgeRemoved asserted
  if asserted && (s.force.lineOf .purgeRemoved).isSome then s.emptyPurgeBin else s

/-- PURGE_BIN_REMOVED (R102). -/
def execPurgeBinRemoved (t : Tick) (asserted : Bool) (s : State) : Host.Outcome State Fault Refusal :=
  s.takes fun p => p.event t fun p => p.purgeBinEdge asserted

end Sys2Proof.Machine
end

