-- ==== Sys2Proof/Machine/FeedCommands.lean ====
section
/-! DEFINITION. The requests, timers and internal steps of the Feed Scheduler (chapter 3). -/

namespace Sys2Proof.Machine

/-- HOLD and CONTINUE: NOT CONFIGURED in UNCONFIGURED, WRONG STATE in HALTING, HELD, SWEEPING and RESUMABLE (R48, R49). -/
def PathState.holdRefusal : PathState → Option Result
  | .unconfigured => some .notConfigured
  | .halting | .held | .sweeping | .resumable => some .wrongState
  | .idle | .starting | .running | .draining => none

/-! ## HOLD and CONTINUE (R48, R49) -/

/-- HOLD AT SHEET (R48). -/
def Feed.holdAtSheet (f : Feed) : Feed := if f.hold then f else { f with hold := true, setEnd := false }

/-- HOLD AT SET END (R48): at once where no page was bound since IDLE or the last one closed its set. -/
def Feed.holdAtSetEnd (f : Feed) : Feed :=
  if f.hold then f
  else if f.lastBound = some false then { f with setEnd := true }
  else { f with hold := true }

/-- HOLD's answer (R48). -/
def Part.answerHold (s : Part) (body : List Byte) : Answer :=
  match s.feed.path.holdRefusal with
  | some r => s.refuse r
  | none =>
    match numAt body 0 1 with
    | 0 => (s.modFeed Feed.holdAtSheet).judge.done
    | 1 => (s.modFeed Feed.holdAtSetEnd).judge.done
    | _ => s.refuse .badValue

/-- HOLD at its owner; a body of another length is refused first (R176). -/
def ownerHold (body : List Byte) (p : Part) : Answer :=
  p.checked (lengthIs body 1) fun p => p.answerHold body

/-- HOLD (R48). -/
def execHold (t : Tick) (body : List Byte) (s : State) : Host.Outcome State Fault Refusal :=
  s.takes fun p => p.takeRequest t 0x0D body (ownerHold body)

/-- CONTINUE's answer (R49). -/
def Part.answerContinue (s : Part) : Answer :=
  match s.feed.path.holdRefusal with
  | some r => s.refuse r
  | none => (s.modFeed fun f => { f with hold := false, setEnd := false }).judge.done

/-- CONTINUE at its owner; a body of another length is refused first (R176). -/
def ownerContinueFeed (body : List Byte) (p : Part) : Answer :=
  p.checked (lengthIs body 0) fun p => p.answerContinue

/-- CONTINUE (R49). -/
def execContinueFeed (t : Tick) (body : List Byte) (s : State) : Host.Outcome State Fault Refusal :=
  s.takes fun p => p.takeRequest t 0x0E body (ownerContinueFeed body)

/-! ## Timers: an armed timer expires at its deadline; an idle one does not (entry 2) -/

/-- The expiry of a timer, if it is armed: the event is taken at its deadline. -/
def Part.expiry (s : Part) (timer : Option Tick) (g : Part → Part) : Part :=
  match timer with
  | none => s
  | some d => s.event d g

/-- The pick timer expires: the pick conditions are judged afresh (R60). -/
def execPickTimerExpiry (s : State) : Host.Outcome State Fault Refusal :=
  s.takes fun p => p.expiry p.feed.pickTimer fun p => ((p.modFeed fun f => { f with pickTimer := none })).judge

/-- The starvation holdoff has expired: in RUNNING the path drains (R46, R50). -/
def Part.starve (s : Part) : Part :=
  let s := s.modFeed fun f => { f with holdoff := none }
  if s.feed.path = .running then s.enterDraining.judge else s.judge

/-- STARVATION_HOLDOFF_EXPIRY (R50). -/
def execStarvationHoldoffExpiry (s : State) : Host.Outcome State Fault Refusal :=
  s.takes fun p => p.expiry p.feed.holdoff Part.starve

/-- The ramp timer has expired: in STARTING the path becomes RUNNING (R45). -/
def Part.rampDone (s : Part) : Part :=
  let s := s.modFeed fun f => { f with ramp := none }
  if s.feed.path = .starting then (s.setPath .running).judge else s.judge

/-- RAMP_TIMER_EXPIRY (R45). -/
def execRampTimerExpiry (s : State) : Host.Outcome State Fault Refusal :=
  s.takes fun p => p.expiry p.feed.ramp Part.rampDone

/-- The run-on timer has expired: in DRAINING the drives stop and the path becomes IDLE (R47). -/
def Part.runOnDone (s : Part) : Part :=
  let s := s.modFeed fun f => { f with runOn := none }
  if s.feed.path = .draining then s.enterIdle.judge else s.judge

/-- RUN_ON_TIMER_EXPIRY (R47). -/
def execRunOnTimerExpiry (s : State) : Host.Outcome State Fault Refusal :=
  s.takes fun p => p.expiry p.feed.runOn Part.runOnDone

/-! ## The scheduler's own steps (entry 1) -/

/-- PATH_START (R44): from IDLE, where the start conditions hold. -/
def execPathStart (t : Tick) (s : State) : Host.Outcome State Fault Refusal :=
  s.takes fun p => p.event t fun p => if p.feed.path = .idle then p.judgeStart else p

/-- DRAIN_RETURN (R47): from DRAINING, where the return conditions hold. -/
def execDrainReturn (t : Tick) (s : State) : Host.Outcome State Fault Refusal :=
  s.takes fun p => p.event t fun p => if p.feed.path = .draining then p.judgeDraining else p

/-- PICK (R61): in RUNNING, at the earliest tick at which the pick conditions hold. -/
def execPick (t : Tick) (s : State) : Host.Outcome State Fault Refusal :=
  s.takes fun p => p.event t fun p => if p.feed.path = .running then p.judgeRunning else p

end Sys2Proof.Machine
end

