-- ==== Sys2Proof/Machine/TrackingCommands.lean ====
section
/-! DEFINITION. The requests, edges and deadlines of the Sheet Tracker (chapter 4) and the synthesised station edges (R168). -/

namespace Sys2Proof.Machine

/-! ## RESYNC STATION and SHEET READ (R81, R180) -/

/-- The station a body's byte names, if it is defined in force (R81). -/
def Desc.definedStation (d : Desc) (v : Nat) : Option (Fin 24) := (below 24 v).filter fun st => (d.stations[st]).isSome

/-- RESYNC STATION's answer (R81). -/
def Part.answerResync (s : Part) (body : List Byte) : Answer :=
  if s.feed.path = .unconfigured then s.refuse .notConfigured
  else match s.force.definedStation (numAt body 0 1) with
    | none => s.refuse .badValue
    | some st => (s.modStation st fun x => { x with resync := true }).done

/-- RESYNC STATION at its owner; a body of another length is refused first (R176). -/
def ownerResyncStation (body : List Byte) (p : Part) : Answer :=
  p.checked (lengthIs body 1) fun p => p.answerResync body

/-- RESYNC STATION (R81). -/
def execResyncStation (t : Tick) (body : List Byte) (s : State) : Host.Outcome State Fault Refusal :=
  s.takes fun p => p.takeRequest t 0x11 body (ownerResyncStation body)

/-- A start index into a list of `n` entries is taken: below `n`, or 0 of an empty list (R122, R142, R180). -/
def indexTaken (i n : Nat) : Bool := decide (i < n) || (i == 0 && n == 0)

/-- SHEET READ's data (R180, 12.7). -/
def Part.sheetData (s : Part) (i : Nat) : List Byte :=
  let got := (s.table.sheets.drop i).take 3
  tickBytes s.table.revision ++ bytesOf 1 s.table.sheets.length ++ bytesOf 1 got.length ++ got.flatMap Sheet.summary

/-- SHEET READ's answer (R180). -/
def Part.answerSheetRead (s : Part) (body : List Byte) : Answer :=
  let i := numAt body 0 1
  if indexTaken i s.table.sheets.length then ⟨s, .done, s.sheetData i⟩ else s.refuse .badValue

/-- SHEET READ at its owner; a body of another length is refused first (R176). -/
def ownerSheetRead (body : List Byte) (p : Part) : Answer :=
  p.checked (lengthIs body 1) fun p => p.answerSheetRead body

/-- SHEET READ (R180). -/
def execSheetRead (t : Tick) (body : List Byte) (s : State) : Host.Outcome State Fault Refusal :=
  s.takes fun p => p.takeRequest t 0x16 body (ownerSheetRead body)

/-! ## Station edges (R71): in dry run real edges reach no block (R167), and a station not in force has no line (R12) -/

/-- A real edge of a station sensor. -/
def Part.stationEdge (s : Part) (st : Fin 24) (leading : Bool) (g : Part → Part) : Part :=
  let s := s.lineEdge (.station st) leading
  if s.dry.on || (s.force.stations[st]).isNone then s else (g s).judge

/-- STATION_LEADING_EDGE (R71, R73). -/
def execStationLeadingEdge (t : Tick) (st : Fin 24) (s : State) : Host.Outcome State Fault Refusal :=
  s.takes fun p => p.event t fun p => p.stationEdge st true fun p => p.leadingEdge st

/-- STATION_TRAILING_EDGE (R71, R76). -/
def execStationTrailingEdge (t : Tick) (st : Fin 24) (s : State) : Host.Outcome State Fault Refusal :=
  s.takes fun p => p.event t fun p => p.stationEdge st false fun p => p.trailingEdge st

/-! ## Deadlines (R78) -/

/-- A sheet's leading deadline expires, if it is armed. -/
def Part.expireLeading (s : Part) (n : Nat) : Part :=
  match s.sheet? n with
  | none => s
  | some x =>
    match x.deadline, x.nextStep with
    | some d, some step => (s.leadingExpiry x step d).judge.conclude
    | _, _ => s

/-- LEADING_DEADLINE_EXPIRY (R78). -/
def execLeadingDeadlineExpiry (sheet : Nat) (s : State) : Host.Outcome State Fault Refusal :=
  s.takes fun p => p.expireLeading sheet

/-- A station's trailing deadline expires, if it is armed. -/
def Part.expireTrailing (s : Part) (st : Fin 24) : Part :=
  match (s.stations[st]).cover with
  | none => s
  | some c =>
    match c.deadline with
    | none => s
    | some d => (s.trailingExpiry st c d).judge.conclude

/-- TRAILING_DEADLINE_EXPIRY (R78). -/
def execTrailingDeadlineExpiry (st : Fin 24) (s : State) : Host.Outcome State Fault Refusal :=
  s.takes fun p => p.expireTrailing st

/-! ## Synthesised station edges (R168) -/

/-- The next scheduled edge of a station and direction reaches its tick, if there is one. -/
def Part.synthesised (s : Part) (st : Fin 24) (leading : Bool) : Part :=
  match s.dry.nextEdge st leading with
  | none => s
  | some e => (s.runEdge e).judge.conclude

/-- SYNTHESISED_STATION_EDGE (R168). -/
def execSynthesisedStationEdge (st : Fin 24) (leading : Bool) (s : State) : Host.Outcome State Fault Refusal :=
  s.takes fun p => p.synthesised st leading

end Sys2Proof.Machine
end

