-- ==== Sys2Proof/Machine/EpisodeCommands.lean ====
section
/-! DEFINITION. The requests, doors and timers of the Episode Unit and the Recovery Planner (chapters 6, 7 and 8). -/

namespace Sys2Proof.Machine

/-! ## STOP (R120) -/

/-- STOP's answer (R120). -/
def Part.answerStop (s : Part) : Answer :=
  match s.feed.path with
  | .unconfigured => s.refuse .notConfigured
  | .idle | .held | .resumable => s.refuse .wrongState
  | .starting | .running | .draining | .halting => (s.takeJam (plainJam .hostStop none none s.tick)).judge.done
  | .sweeping => (s.abandonSweep true).judge.done

/-- STOP at its owner; a body of another length is refused first (R176). -/
def ownerHostStop (body : List Byte) (p : Part) : Answer :=
  p.checked (lengthIs body 0) fun p => p.answerStop

/-- STOP (R120). -/
def execHostStop (t : Tick) (body : List Byte) (s : State) : Host.Outcome State Fault Refusal :=
  s.takes fun p => p.takeRequest t 0x0F body (ownerHostStop body)

/-! ## SWEEP (R127) -/

/-- A refusal with NOT CLEAR, which carries the clearance report (R127, R144). -/
def Part.notClear (s : Part) : Answer := ⟨s, .notClear, s.clearanceReport⟩

/-- SWEEP's answer (R127). -/
def Part.answerSweep (s : Part) : Answer :=
  match s.feed.path with
  | .unconfigured => s.refuse .notConfigured
  | .held =>
    if s.clear then (((s.modEpisode fun e => { e with barred := false })).startSweep).judge.done else s.notClear
  | _ => s.refuse .wrongState

/-- SWEEP at its owner; a body of another length is refused first (R176). -/
def ownerSweep (body : List Byte) (p : Part) : Answer :=
  p.checked (lengthIs body 0) fun p => p.answerSweep

/-- SWEEP (R127). -/
def execSweep (t : Tick) (body : List Byte) (s : State) : Host.Outcome State Fault Refusal :=
  s.takes fun p => p.takeRequest t 0x12 body (ownerSweep body)

/-! ## PLAN READ (R142) -/

/-- Up to three plan entries from an index (R142). -/
def Part.planFrom (s : Part) (i : Nat) : List Entry := (s.planner.list.drop i).take 3

/-- PLAN READ's data (R142, 12.7). -/
def Part.planData (s : Part) (i : Nat) : List Byte :=
  tickBytes s.planner.revision ++ bytesOf 1 s.planner.list.length ++ bytesOf 1 i ++ bytesOf 1 (s.planFrom i).length
    ++ (s.planFrom i).flatMap Entry.bytes

/-- PLAN READ's answer (R142): a read that returns the last entry sets the read-through mark. -/
def Part.answerPlanRead (s : Part) (body : List Byte) : Answer :=
  let i := numAt body 0 1
  match s.feed.path with
  | .unconfigured => s.refuse .notConfigured
  | .resumable =>
    if indexTaken i s.planner.list.length then
      let last := i + (s.planFrom i).length == s.planner.list.length
      ⟨s.modPlanner fun x => { x with readThrough := x.readThrough || last }, .done, s.planData i⟩
    else s.refuse .badValue
  | _ => s.refuse .wrongState

/-- PLAN READ at its owner; a body of another length is refused first (R176). -/
def ownerPlanRead (body : List Byte) (p : Part) : Answer :=
  p.checked (lengthIs body 1) fun p => p.answerPlanRead body

/-- PLAN READ (R142). -/
def execPlanRead (t : Tick) (body : List Byte) (s : State) : Host.Outcome State Fault Refusal :=
  s.takes fun p => p.takeRequest t 0x13 body (ownerPlanRead body)

/-! ## RESUME (R144, R145) -/

/-- The close of an episode (R123), which clears the sweep-barred mark (R126). -/
def Part.closeEpisode (s : Part) : Part := s.modEpisode fun e => { e with isOpen := false, areas := 0, barred := false }

/-- A RESUME that passed its checks (R145). -/
def Part.resumePath (s : Part) : Part :=
  let s := (s.modPlanner fun x => { x with readThrough := false }).closeEpisode
  s.resumeFinisher.judgeSelector.enterStarting

/-- RESUME's answer (R144). -/
def Part.answerResume (s : Part) : Answer :=
  if s.feed.path = .unconfigured then s.refuse .notConfigured
  else if s.feed.path ≠ .resumable then s.refuse .wrongState
  else if s.planner.readThrough = false then s.refuse .planUnread
  else if s.clear = false then s.notClear
  else s.resumePath.judge.done

/-- RESUME at its owner; a body of another length is refused first (R176). -/
def ownerResume (body : List Byte) (p : Part) : Answer :=
  p.checked (lengthIs body 0) fun p => p.answerResume

/-- RESUME (R144). -/
def execResume (t : Tick) (body : List Byte) (s : State) : Host.Outcome State Fault Refusal :=
  s.takes fun p => p.takeRequest t 0x14 body (ownerResume body)

/-! ## JAM READ (R122) -/

/-- JAM READ's data (R122, 12.7). -/
def Part.jamData (s : Part) (i : Nat) : List Byte :=
  let e := s.episode
  tickBytes e.number ++ bytesOf 1 e.isOpen.toNat ++ bytesOf 1 e.records.length ++ bytesOf 2 e.overflow ++ areaBytes e.areas
    ++ ((e.records.drop i).take 2).flatMap Jam.bytes

/-- JAM READ's answer (R122). -/
def Part.answerJamRead (s : Part) (body : List Byte) : Answer :=
  let i := numAt body 0 1
  if indexTaken i s.episode.records.length then ⟨s, .done, s.jamData i⟩ else s.refuse .badValue

/-- JAM READ at its owner; a body of another length is refused first (R176). -/
def ownerJamRead (body : List Byte) (p : Part) : Answer :=
  p.checked (lengthIs body 1) fun p => p.answerJamRead body

/-- JAM READ (R122). -/
def execJamRead (t : Tick) (body : List Byte) (s : State) : Host.Outcome State Fault Refusal :=
  s.takes fun p => p.takeRequest t 0x17 body (ownerJamRead body)

/-! ## PATH RESET (R181 and the reset rules it calls up) -/

/-- The pages a PATH RESET discards (R181). -/
def Part.resetPages (s : Part) : Nat :=
  s.intake.normal.length + s.intake.priority.length + s.planner.list.length + (s.table.sheets.flatMap Sheet.pages).length
    + (s.finisher.sheets.flatMap Held.pages).length

/-- The removal areas of a HOST RESET episode (R91, R121). -/
def Part.resetAreas (s : Part) : AreaSet :=
  (s.table.sheets.foldl (fun a x => a ||| s.force.sheetArea x) 0)
    ||| (if s.finisher.sheets.isEmpty then 0 else finisherArea)

/-- A HOST RESET episode opens (R121). -/
def Part.resetOpens (s : Part) : Bool := !s.table.sheets.isEmpty || !s.finisher.sheets.isEmpty || s.anyDoorOpen

/-- The Intake Unit (R42). -/
def Intake.pathReset (_ : Intake) : Intake := Intake.reset

/-- The Feed Scheduler (R67). -/
def Feed.pathReset (f : Feed) : Feed :=
  { f with
    hold := false, setEnd := false, pickTimer := none, holdoff := none, ramp := none, runOn := none, selector := .normal
    normalMark := true, priorityMark := true, unconfirmed := none, merge := [] }

/-- The Sheet Table (R91). -/
def Table.pathReset (x : Table) : Table := ⟨[], if x.sheets.isEmpty then x.revision else x.revision + 1⟩

/-- The notices the reset rules withdraw: PROGRESS and INTAKE LOW (R42), PLAN READY (R147), SET DONE (R159). -/
def Notices.pathReset (n : Notices) : Notices :=
  { n with progress := .replicate 8 false, lowNormal := false, lowPriority := false, planReady := false, setDone := none }

/-- Every drive, clutch, gate, stapler and ejector output at rest; the class-select lines keep their class (R181, R7). -/
def Outputs.pathReset (o : Outputs) : Outputs := { Outputs.reset with presented := o.presented }

/-- What each owner discards and keeps (R181). -/
def Part.discardAll (s : Part) : Part :=
  let s := ((s.modIntake Intake.pathReset).modFeed Feed.pathReset).modTable Table.pathReset
  let s := s.modStations fun v => v.map fun x => { x with cover := none }
  let s := (s.modCalls fun _ => ⟨[], []⟩).modPlanner fun x => { x with list := [], readThrough := false }
  let s := (s.modFinisher fun _ => .reset).modDry fun d => { d with plan := [], schedule := [], home := none }
  let s := s.modEpisode fun e => { e with sweepTimer := none }
  ((s.modNotices Notices.pathReset).modOut Outputs.pathReset).judgeSupplies

/-- PATH RESET's answer (R121, R181). -/
def Part.answerPathReset (s : Part) : Answer :=
  if s.feed.path = .unconfigured then s.refuse .notConfigured
  else
    let data := bytesOf 2 s.resetPages ++ bytesOf 1 s.table.sheets.length
    let areas := s.resetAreas
    let opens := s.resetOpens
    let s := s.discardAll
    let s := if opens then s.openEpisode (plainJam .hostReset none none s.tick) areas else s.closeEpisode.enterIdle
    ⟨s.judge, .done, data⟩

/-- PATH RESET at its owner; a body of another length is refused first (R176). -/
def ownerPathReset (body : List Byte) (p : Part) : Answer :=
  p.checked (lengthIs body 0) fun p => p.answerPathReset

/-- PATH RESET (R181). -/
def execPathReset (t : Tick) (body : List Byte) (s : State) : Host.Outcome State Fault Refusal :=
  s.takes fun p => p.takeRequest t 0x1C body (ownerPathReset body)

/-! ## Doors (R117 to R119) -/

/-- The finisher is touched by the opening of a door: the door carries the finisher flag and the Compile Set holds sheets
(R118, R119; entry 17). -/
def Part.opensOntoSet (s : Part) (d : Fin 8) : Bool :=
  (s.force.doors[d]).any DoorDef.finisher && !s.finisher.sheets.isEmpty

/-- The DOOR OPEN jam of a door (R106). -/
def Part.doorJam (s : Part) (d : Fin 8) (ontoSet : Bool) : Jam :=
  plainJam .doorOpen (some d) (if ontoSet then some 8 else none) s.tick

/-- What an opening does by path state (R118). -/
def Part.openInState (s : Part) (j : Jam) (ontoSet : Bool) : Part :=
  match s.feed.path with
  | .unconfigured | .held => s
  | .idle => if ontoSet then s.takeJam j else s
  | .starting | .running | .draining | .halting => s.takeJam j
  | .sweeping => s.abandonSweep false
  | .resumable => (s.modPlanner fun x => { x with readThrough := false }).setPath .held

/-- The opening of a door defined in force (R117 to R119, R126, R156). -/
def Part.openDoor (s : Part) (d : Fin 8) : Part :=
  let onto := s.opensOntoSet d
  let s := ((s.judgeDoor d).modEpisode fun e => { e with barred := false }).restGates
  let s := s.abortCycle
  let s := if onto then s.disturb else s
  let s := s.openInState (s.doorJam d onto) onto
  let s := if s.episode.isOpen then s.retain.addFinisherArea else s
  s.judge

/-- An edge of a door line; a door not defined in force has none. -/
def Part.doorEdge (s : Part) (d : Fin 8) (closed : Bool) (g : Part → Part) : Part :=
  if (s.force.doors[d]).isSome then g (s.lineEdge (.door d) closed) else s

/-- DOOR_OPENING (R118). -/
def execDoorOpening (t : Tick) (door : Fin 8) (s : State) : Host.Outcome State Fault Refusal :=
  s.takes fun p => p.event t fun p => p.doorEdge door false fun p => p.openDoor door

/-- DOOR_CLOSING (R117): clearance and the start conditions are judged again, and the diverters when the last door closes. -/
def execDoorClosing (t : Tick) (door : Fin 8) (s : State) : Host.Outcome State Fault Refusal :=
  s.takes fun p => p.event t fun p => p.doorEdge door true fun p => (p.judgeDoor door).judge

/-! ## The sweep (R126, R131) -/

/-- The sweep timer has expired: in SWEEPING the plan is built (R131). -/
def Part.sweepDone (s : Part) : Part :=
  let s := s.modEpisode fun e => { e with sweepTimer := none }
  if s.feed.path = .sweeping then s.planBuild.judge else s.judge

/-- SWEEP_TIMER_EXPIRY (R131). -/
def execSweepTimerExpiry (s : State) : Host.Outcome State Fault Refusal :=
  s.takes fun p => p.expiry p.episode.sweepTimer Part.sweepDone

/-- AUTO_SWEEP (R126): in HELD, where the clearance conditions hold, auto-sweep is ON and the mark is clear. -/
def execAutoSweep (t : Tick) (s : State) : Host.Outcome State Fault Refusal :=
  s.takes fun p => p.event t Part.judgeClearance

end Sys2Proof.Machine
end

