-- ==== Sys2Proof/Machine/FinisherCommands.lean ====
section
/-! DEFINITION. The edges and timers of the Finisher Unit (chapter 9) and the synthesised home edges (R169). -/

namespace Sys2Proof.Machine

/-! ## Home edges (R151, R152) -/

/-- A staple cycle reaches home: in STAPLING the stapler rests, the set is stapled and is ejected (R151). -/
def Part.stapleHome (s : Part) : Part :=
  if s.finisher.state = .stapling then
    let s := (s.modOut fun o => { o with stapler := false }).modFinisher fun f => { f with stapleLimit := none, stapled := true }
    ((s.modDry fun d => { d with home := none }).countPath 7).enterEjecting false
  else s

/-- An eject reaches home: in EJECTING it completes (R152). -/
def Part.ejectHome (s : Part) : Part := if s.finisher.state = .ejecting then s.completeEject else s

/-- A real edge of a home line: it has effect to asserted, and in dry run is not delivered (R151, R152, R167). -/
def Part.homeEdge (s : Part) (r : InputRole) (asserted : Bool) (g : Part → Part) : Part :=
  let s := s.lineEdge r asserted
  if asserted && !s.dry.on && (s.force.lineOf r).isSome then (g s).judge else s

/-- STAPLE_HOME_EDGE (R151). -/
def execStapleHomeEdge (t : Tick) (asserted : Bool) (s : State) : Host.Outcome State Fault Refusal :=
  s.takes fun p => p.event t fun p => p.homeEdge .stapleHome asserted Part.stapleHome

/-- EJECT_HOME_EDGE (R152). -/
def execEjectHomeEdge (t : Tick) (asserted : Bool) (s : State) : Host.Outcome State Fault Refusal :=
  s.takes fun p => p.event t fun p => p.homeEdge .ejectHome asserted Part.ejectHome

/-- COMPILE_TRAY_EDGE (R125): clearance is judged again; in dry run the line reads no paper whatever it does (R167). -/
def execCompileTrayEdge (t : Tick) (paper : Bool) (s : State) : Host.Outcome State Fault Refusal :=
  s.takes fun p => p.event t fun p => (p.lineEdge .compileTray paper).judge

/-! ## Timers -/

/-- The settle expiry of the first settling sheet: its compile completes (R149). -/
def execSettleExpiry (s : State) : Host.Outcome State Fault Refusal :=
  s.takes fun p => p.expiry ((p.finisher.sheets.find? Held.settling).map Held.settleAt) fun p => p.completeCompile.judge

/-- The STAPLE FAIL jam (R106). -/
def Part.stapleFail (s : Part) (d : Tick) : Part := s.takeJam (plainJam .stapleFail none (some 8) d)

/-- The staple limit has expired: in STAPLING the stapler rests, the set is FAULTED and a STAPLE FAIL is declared (R151). While
an episode is open, FINISHER joins the removal areas (R115). -/
def Part.stapleLimit (d : Tick) (s : Part) : Part :=
  if s.finisher.state = .stapling then
    let s := (s.modOut fun o => { o with stapler := false }).modFinisher fun f => { f with stapleLimit := none, state := .faulted }
    let s := s.modDry fun x => { x with home := none }
    let s := if s.episode.isOpen then s.addFinisherArea else s
    (s.stapleFail d).judge
  else (s.modFinisher fun f => { f with stapleLimit := none }).judge

/-- STAPLE_LIMIT_EXPIRY (R151). -/
def execStapleLimitExpiry (s : State) : Host.Outcome State Fault Refusal :=
  s.takes fun p => p.expiry p.finisher.stapleLimit (Part.stapleLimit (p.finisher.stapleLimit.getD 0))

/-- The eject limit has expired: in EJECTING the ejector rests, the set is RETAINED and a STAPLE FAIL is declared (R153). -/
def Part.ejectLimit (d : Tick) (s : Part) : Part :=
  if s.finisher.state = .ejecting then
    let s := (s.modOut fun o => { o with ejector := false }).modFinisher fun f => { f with ejectLimit := none, state := .retained }
    ((s.modDry fun x => { x with home := none }).stapleFail d).judge
  else (s.modFinisher fun f => { f with ejectLimit := none }).judge

/-- EJECT_LIMIT_EXPIRY (R153). -/
def execEjectLimitExpiry (s : State) : Host.Outcome State Fault Refusal :=
  s.takes fun p => p.expiry p.finisher.ejectLimit (Part.ejectLimit (p.finisher.ejectLimit.getD 0))

/-! ## Synthesised home edges (R169) -/

/-- The scheduled home edge is taken. -/
def Part.takeHome (h : HomeEdge) (s : Part) : Part :=
  let s := s.modDry fun d => { d with home := none }
  if s.dry.on then (if h.staple then s.stapleHome else s.ejectHome).judge else s

/-- SYNTHESISED_HOME_EDGE (R169). -/
def execSynthesisedHomeEdge (s : State) : Host.Outcome State Fault Refusal :=
  s.takes fun p => match p.dry.home with
    | none => p
    | some h => p.event h.tick (Part.takeHome h)

/-! ## The cycle (R150) -/

/-- SET_CYCLE_START (R150): a closed COMPILING set that nothing holds back starts its cycle. -/
def execSetCycleStart (t : Tick) (s : State) : Host.Outcome State Fault Refusal :=
  s.takes fun p => p.event t Part.judgeFinisher

end Sys2Proof.Machine
end

