-- ==== Sys2Proof/Machine/StatisticsCommands.lean ====
section
/-! DEFINITION. The requests of the Statistics Unit (chapter 10) and of the Dry-Run Generator (chapter 11). -/

namespace Sys2Proof.Machine

/-! ## COUNTER READ (R164) -/

/-- The counters of a record (R160). -/
def Stats.record (x : Stats) (g : Group) (i : Nat) : List Nat := ((x.records g)[i]?).getD []

/-- COUNTER READ's data (R164, 12.7). -/
def Part.counterData (s : Part) (g : Group) (i : Nat) : List Byte :=
  let y := s.stats.groupSet g
  bytesOf 1 g.code ++ bytesOf 1 i ++ bytesOf 1 y.width.code ++ bytesOf 4 y.watermark ++ bytesOf 1 y.active.toNat
    ++ (s.stats.record g i).flatMap (bytesOf 4)

/-- A record with the values returned subtracted: each counter falls to 0 (R164). -/
def Stats.cleared (x : Stats) (g : Group) (i : Nat) : Stats :=
  match g with
  | .station => { x with station := if h : i < 24 then x.station.set i (.replicate 3 0) h else x.station }
  | .tray => { x with tray := if h : i < 5 then x.tray.set i (.replicate 3 0) h else x.tray }
  | .path => { x with path := .replicate 10 0 }

/-- COUNTER READ's answer (R164). -/
def Part.answerCounterRead (s : Part) (body : List Byte) : Answer :=
  match readCounter body with
  | none => s.refuse .badValue
  | some (g, i, clear) =>
    let data := s.counterData g i
    if clear then ⟨(s.modStats fun x => x.cleared g i).judgeWatermark g i 0, .done, data⟩ else ⟨s, .done, data⟩

/-- COUNTER READ at its owner; a body of another length is refused first (R176). -/
def ownerCounterRead (body : List Byte) (p : Part) : Answer :=
  p.checked (lengthIs body 3) fun p => p.answerCounterRead body

/-- COUNTER READ (R164). -/
def execCounterRead (t : Tick) (body : List Byte) (s : State) : Host.Outcome State Fault Refusal :=
  s.takes fun p => p.takeRequest t 0x18 body (ownerCounterRead body)

/-! ## COUNTER WIDTH (R162) -/

/-- Every counter of a group held to a width's saturation value (R162). -/
def Stats.narrowed (x : Stats) (g : Group) (w : Width) : Stats :=
  match g with
  | .station => { x with station := x.station.map fun v => v.map (min w.limit) }
  | .tray => { x with tray := x.tray.map fun v => v.map (min w.limit) }
  | .path => { x with path := x.path.map (min w.limit) }

/-- The lowest-indexed record that holds a counter at or above a watermark, and its first such counter (R163). -/
def Stats.firstReached (x : Stats) (g : Group) (m : Nat) : Nat × Nat :=
  let hit := fun r : List Nat => r.findIdx? fun c => decide (m ≤ c)
  match (x.records g).findIdx? fun r => (hit r).isSome with
  | some i => (i, (hit (x.record g i)).getD 0)
  | none => (0, 0)

/-- COUNTER WIDTH taken (R162). -/
def Part.setWidth (s : Part) (g : Group) (w : Width) (m : Nat) : Part :=
  let s := s.modStats fun x => (x.narrowed g w).setGroup g { x.groupSet g with width := w, watermark := m }
  let at_ := s.stats.firstReached g m
  s.judgeWatermark g at_.1 at_.2

/-- COUNTER WIDTH's answer (R162). -/
def Part.answerCounterWidth (s : Part) (body : List Byte) : Answer :=
  match readWidth body with
  | none => s.refuse .badValue
  | some (g, w, m) => (s.setWidth g w m).done

/-- COUNTER WIDTH at its owner; a body of another length is refused first (R176). -/
def ownerCounterWidth (body : List Byte) (p : Part) : Answer :=
  p.checked (lengthIs body 6) fun p => p.answerCounterWidth body

/-- COUNTER WIDTH (R162). -/
def execCounterWidth (t : Tick) (body : List Byte) (s : State) : Host.Outcome State Fault Refusal :=
  s.takes fun p => p.takeRequest t 0x19 body (ownerCounterWidth body)

/-! ## DRY RUN (R166) -/

/-- DRY RUN ON (R166). -/
def Part.dryRunOn (s : Part) : Part :=
  ((s.modDry fun d => { d with on := true, firstSheet := s.feed.nextSheet }).judgeSupplies).judgePurgeFull

/-- DRY RUN OFF (R166); with the flag clear it changes nothing. -/
def Part.dryRunOff (s : Part) : Part :=
  if s.dry.on then ((s.modDry fun d => { d with on := false }).judgeSupplies).judgePurgeFull else s

/-- DRY RUN's answer (R166). -/
def Part.answerDryRun (s : Part) (body : List Byte) : Answer :=
  if s.feed.path = .idle ∧ s.finisher.state = .empty then
    match onOffOf (numAt body 0 1) with
    | some true => s.dryRunOn.done
    | some false => s.dryRunOff.done
    | none => s.refuse .badValue
  else s.refuse .wrongState

/-- DRY RUN at its owner; a body of another length is refused first (R176). -/
def ownerDryRun (body : List Byte) (p : Part) : Answer :=
  p.checked (lengthIs body 1) fun p => p.answerDryRun body

/-- DRY RUN (R166). -/
def execDryRun (t : Tick) (body : List Byte) (s : State) : Host.Outcome State Fault Refusal :=
  s.takes fun p => p.takeRequest t 0x1A body (ownerDryRun body)

/-! ## FAULT PLAN (R170) -/

/-- FAULT PLAN's answer (R170). -/
def Part.answerFaultPlan (s : Part) (body : List Byte) : Answer :=
  if s.feed.path = .idle then
    match readFaultPlan body with
    | some l => (s.modDry fun d => { d with plan := l }).done
    | none => s.refuse .badValue
  else s.refuse .wrongState

/-- FAULT PLAN at its owner; a body of another length is refused first (R176). -/
def ownerFaultPlan (body : List Byte) (p : Part) : Answer :=
  p.checked (planLengthOk body) fun p => p.answerFaultPlan body

/-- FAULT PLAN (R170). -/
def execFaultPlan (t : Tick) (body : List Byte) (s : State) : Host.Outcome State Fault Refusal :=
  s.takes fun p => p.takeRequest t 0x1B body (ownerFaultPlan body)

end Sys2Proof.Machine
end

