-- ==== Sys2Proof/Machine/LinkCommands.lean ====
section
/-! DEFINITION. The commands of the Link Unit (chapter 12) and hardware reset (R182). -/

namespace Sys2Proof.Machine

/-! ## Hardware reset (R173, R182) -/

/-- The rate the two strap pins give (R173). -/
def strapRate (first second : Bool) : Rate :=
  match first, second with
  | false, false => .baud115200
  | true, false => .baud230400
  | false, true => .baud460800
  | true, true => .baud921600

/-- HARDWARE_RESET (R182): every block in its hardware-reset state. The levels at the input pins are the engine's and
stay (entry 29). -/
def execHardwareReset (strapFirst strapSecond : Bool) (s : State) : Host.Outcome State Fault Refusal :=
  s.takes fun p => Part.reset (strapRate strapFirst strapSecond) p.lines.pin

/-! ## NOTICE MASK (R178) -/

/-- The pending instances of the kinds a mask disables are withdrawn (R178). -/
def Notices.masked (n : Notices) (m : Mask) : Notices where
  jams := n.jams
  planReady := n.planReady
  pathState := n.pathState && m.pathState
  door := n.door.map (· && m.door)
  spoil := if m.spoil then n.spoil else none
  setDone := if m.setDone then n.setDone else none
  progress := n.progress.map (· && m.progress)
  trayEmpty := n.trayEmpty.map (· && m.condition)
  binFull := n.binFull.map (· && m.condition)
  purgeFull := n.purgeFull && m.condition
  outOfStep := n.outOfStep.map (· && m.condition)
  wmStation := if m.condition then n.wmStation else none
  wmTray := if m.condition then n.wmTray else none
  wmPath := if m.condition then n.wmPath else none
  linkFault := n.linkFault && m.condition
  exhausted := n.exhausted && m.condition
  lowNormal := n.lowNormal && m.intakeLow
  lowPriority := n.lowPriority && m.intakeLow

/-- The mask takes effect; the withdrawal of a PROGRESS may free its slot (R37). -/
def Part.setMask (s : Part) (m : Mask) : Part :=
  let s := (s.modMask fun _ => m).modNotices fun n => n.masked m
  (List.finRange 8).foldl Part.examineSlot s

/-- NOTICE MASK's answer (R178). -/
def Part.answerMask (s : Part) (body : List Byte) : Answer :=
  if s.definable then (s.setMask (readMask body)).done else s.refuse .wrongState

/-- NOTICE MASK at its owner; a body of another length is refused first (R176). -/
def ownerNoticeMask (body : List Byte) (p : Part) : Answer :=
  p.checked (lengthIs body 1) fun p => p.answerMask body

/-- NOTICE MASK (R178). -/
def execNoticeMask (t : Tick) (body : List Byte) (s : State) : Host.Outcome State Fault Refusal :=
  s.takes fun p => p.takeRequest t 0x09 body (ownerNoticeMask body)

/-! ## STATUS READ (R179) -/

/-- STATUS READ at its owner: taken in every path state, it changes nothing; a body of another length is refused first (R176). -/
def ownerStatusRead (body : List Byte) (p : Part) : Answer :=
  p.checked (lengthIs body 0) fun p => ⟨p, .done, p.status⟩

/-- STATUS READ (R179). -/
def execStatusRead (t : Tick) (body : List Byte) (s : State) : Host.Outcome State Fault Refusal :=
  s.takes fun p => p.takeRequest t 0x15 body (ownerStatusRead body)

/-! ## Frames (R174 to R177) -/

/-- UNKNOWN_KIND (R176): refused before its body is looked at. A kind that is a request's is no event of this row. -/
def execUnknownKind (t : Tick) (kind : Byte) (body : List Byte) (s : State) : Host.Outcome State Fault Refusal :=
  s.takes fun p => if isRequestKind kind then p else p.takeRequest t kind body fun p => p.refuse .unknownKind

/-- A frame at the block that owns its KIND (R176). -/
def answerFrame (f : Frame) : Part → Answer :=
  match f.kind.toNat with
  | 1 => ownerStationDef f.body
  | 2 => ownerLegDef f.body
  | 3 => ownerDriveDef f.body
  | 4 => ownerTrayDef f.body
  | 5 => ownerDoorDef f.body
  | 6 => ownerTimingDef f.body
  | 7 => ownerFinisherDef f.body
  | 8 => ownerLineDef f.body
  | 9 => ownerNoticeMask f.body
  | 10 => ownerPathClose f.body
  | 11 => ownerPage f.body
  | 12 => ownerImageReady f.body
  | 13 => ownerHold f.body
  | 14 => ownerContinueFeed f.body
  | 15 => ownerHostStop f.body
  | 16 => ownerAbandonJob f.body
  | 17 => ownerResyncStation f.body
  | 18 => ownerSweep f.body
  | 19 => ownerPlanRead f.body
  | 20 => ownerResume f.body
  | 21 => ownerStatusRead f.body
  | 22 => ownerSheetRead f.body
  | 23 => ownerJamRead f.body
  | 24 => ownerCounterRead f.body
  | 25 => ownerCounterWidth f.body
  | 26 => ownerDryRun f.body
  | 27 => ownerFaultPlan f.body
  | 28 => ownerPathReset f.body
  | _ => fun p => p.refuse .unknownKind

/-- One byte received at tick `t` (R174): a gap that has passed discards the frame at its 41st tick; then the byte moves the receiver, or
discards the frame, or completes a request. A byte that only moves the receiver is no event of R20 (entry 31). -/
def Part.takeByte (s : Part) (t : Tick) (x : RxByte) : Part :=
  let s := s.gapBefore t
  match receive s.link.receiver t x with
  | .moves r => s.modLink fun l => { l with receiver := r }
  | .discards => s.event t Part.discardFrame
  | .accepts f => s.event t fun s => s.acceptFrame f.kind f.body (answerFrame f)

/-- Bytes received in turn, each some ticks after the one before; the first counts from `t`. -/
def Part.takeBytes (s : Part) (t : Tick) : List RxByte → Part
  | [] => s
  | x :: rest => (s.takeByte (plusTicks t x.after) x).takeBytes (plusTicks t x.after) rest

/-- FRAME_DISCARD (R174): the bytes by which a frame is discarded (entry 7). -/
def execFrameDiscard (t : Tick) (rx : List RxByte) (s : State) : Host.Outcome State Fault Refusal :=
  s.takes fun p => p.takeBytes t rx

/-- BYTE_GAP_TIMEOUT (R174): the bytes received so far, and the 41st tick after the last (entry 7). -/
def execByteGapTimeout (t : Tick) (rx : List RxByte) (s : State) : Host.Outcome State Fault Refusal :=
  s.takes fun p => (p.takeBytes t rx).gapDiscard

/-- LINK_FAULT_TIMER_EXPIRY (R175). -/
def execLinkFaultTimerExpiry (s : State) : Host.Outcome State Fault Refusal :=
  s.takes fun p => p.expiry p.link.faultTimer fun p => p.modLink fun l => { l with fault := false, faultTimer := none }

/-- The transmission under way ends; the request a reply answers leaves the receive queue (R176, R177). -/
def Part.sent (s : Part) : Part :=
  match s.link.sending with
  | none => s
  | some x => s.modLink fun l => { l with sending := none, rxQueue := if x.reply then l.rxQueue.drop 1 else l.rxQueue }

/-- FRAME_SENT (R177). -/
def execFrameSent (t : Tick) (s : State) : Host.Outcome State Fault Refusal :=
  s.takes fun p => p.event t Part.sent

end Sys2Proof.Machine
end

