-- ==== Sys2Proof/Machine/Sampling.lean ====
section
/-! DEFINITION. One path tick without a command: Tick Time rises and the Line Interface samples every input line (R13). What
step does on an empty queue (entry 3). -/

namespace Sys2Proof.Machine

/-- A line's sample differs from its filtered level. -/
def Part.differs (s : Part) (i : Fin 32) : Bool := sampled (s.force.inputs[i]) (s.lines.pin[i]) != s.lines.level[i]

/-- Samples in a row that have differed, this one included (R13). -/
def Part.runAfter (s : Part) (i : Fin 32) : Nat := if s.differs i then s.lines.run[i] + 1 else 0

/-- The filter of a line is satisfied at this sample: its filtered level changes (R13; entry 5). -/
def Part.edgeDue (s : Part) (i : Fin 32) : Bool := decide (max 1 (s.force.inputs[i]).filter ≤ s.runAfter i)

/-- An edge delivered to the user of a role (R12, R13). -/
def Part.deliverEdge (s : Part) (r : InputRole) (asserted : Bool) : Part :=
  match r with
  | .station st => s.stationEdge st asserted fun p => if asserted then p.leadingEdge st else p.trailingEdge st
  | .present u => (s.lineEdge r asserted).supplyChanged fun p => p.judgeTrayEmpty u
  | .paperOut u => (s.lineEdge r asserted).supplyChanged fun p => p.judgeTrayEmpty u
  | .binFull b => (s.lineEdge r asserted).supplyChanged fun p => p.judgeBinFull b
  | .purgeRemoved => s.purgeBinEdge asserted
  | .door d => s.doorEdge d asserted fun p => if asserted then (p.judgeDoor d).judge else p.openDoor d
  | .stapleHome => s.homeEdge r asserted Part.stapleHome
  | .ejectHome => s.homeEdge r asserted Part.ejectHome
  | .compileTray => (s.lineEdge r asserted).judge

/-- An edge of an input line: a line without a role is filtered and its edge reaches no block (R12). -/
def Part.inputEdge (s : Part) (i : Fin 32) : Part :=
  let asserted := sampled (s.force.inputs[i]) (s.lines.pin[i])
  match s.force.roleOfLine i with
  | none => s.modLines fun l => l.edge s.force.inputs i asserted
  | some r => s.deliverEdge r asserted

/-- One path tick: every line is sampled, and the edges due are delivered in the order of their lines (R13). -/
def Part.pathTick (s : Part) : Part :=
  let s := s.modTick (· + 1)
  let due := (List.finRange 32).filter s.edgeDue
  let s := s.modLines fun l => { l with run := .ofFn s.runAfter }
  (due.foldl Part.inputEdge s).conclude

end Sys2Proof.Machine
end

