-- ==== Sys2Proof/Machine/Dispatch.lean ====
section
/-! DEFINITION. The command dispatch: one arm per constructor of Instr, each one call of the command's meaning. -/

namespace Sys2Proof.Machine

def exec (i : Instr) (s : State) : Host.Outcome State Fault Refusal :=
  match i with
  | .hardwareReset strapFirst strapSecond => Sys2Proof.Machine.execHardwareReset strapFirst strapSecond s
  | .stationDef t body => Sys2Proof.Machine.execStationDef t body s
  | .legDef t body => Sys2Proof.Machine.execLegDef t body s
  | .driveDef t body => Sys2Proof.Machine.execDriveDef t body s
  | .trayDef t body => Sys2Proof.Machine.execTrayDef t body s
  | .doorDef t body => Sys2Proof.Machine.execDoorDef t body s
  | .timingDef t body => Sys2Proof.Machine.execTimingDef t body s
  | .finisherDef t body => Sys2Proof.Machine.execFinisherDef t body s
  | .lineDef t body => Sys2Proof.Machine.execLineDef t body s
  | .noticeMask t body => Sys2Proof.Machine.execNoticeMask t body s
  | .pathClose t body => Sys2Proof.Machine.execPathClose t body s
  | .page t body => Sys2Proof.Machine.execPage t body s
  | .imageReady t body => Sys2Proof.Machine.execImageReady t body s
  | .hold t body => Sys2Proof.Machine.execHold t body s
  | .continueFeed t body => Sys2Proof.Machine.execContinueFeed t body s
  | .hostStop t body => Sys2Proof.Machine.execHostStop t body s
  | .abandonJob t body => Sys2Proof.Machine.execAbandonJob t body s
  | .resyncStation t body => Sys2Proof.Machine.execResyncStation t body s
  | .sweep t body => Sys2Proof.Machine.execSweep t body s
  | .planRead t body => Sys2Proof.Machine.execPlanRead t body s
  | .resume t body => Sys2Proof.Machine.execResume t body s
  | .statusRead t body => Sys2Proof.Machine.execStatusRead t body s
  | .sheetRead t body => Sys2Proof.Machine.execSheetRead t body s
  | .jamRead t body => Sys2Proof.Machine.execJamRead t body s
  | .counterRead t body => Sys2Proof.Machine.execCounterRead t body s
  | .counterWidth t body => Sys2Proof.Machine.execCounterWidth t body s
  | .dryRun t body => Sys2Proof.Machine.execDryRun t body s
  | .faultPlan t body => Sys2Proof.Machine.execFaultPlan t body s
  | .pathReset t body => Sys2Proof.Machine.execPathReset t body s
  | .unknownKind t kind body => Sys2Proof.Machine.execUnknownKind t kind body s
  | .frameDiscard t rx => Sys2Proof.Machine.execFrameDiscard t rx s
  | .byteGapTimeout t rx => Sys2Proof.Machine.execByteGapTimeout t rx s
  | .linkFaultTimerExpiry => Sys2Proof.Machine.execLinkFaultTimerExpiry s
  | .frameSent t => Sys2Proof.Machine.execFrameSent t s
  | .stationLeadingEdge t station => Sys2Proof.Machine.execStationLeadingEdge t station s
  | .stationTrailingEdge t station => Sys2Proof.Machine.execStationTrailingEdge t station s
  | .doorOpening t door => Sys2Proof.Machine.execDoorOpening t door s
  | .doorClosing t door => Sys2Proof.Machine.execDoorClosing t door s
  | .trayLevelChange t unit sensor asserted => Sys2Proof.Machine.execTrayLevelChange t unit sensor asserted s
  | .binFullLineChange t bin asserted => Sys2Proof.Machine.execBinFullLineChange t bin asserted s
  | .purgeBinRemoved t asserted => Sys2Proof.Machine.execPurgeBinRemoved t asserted s
  | .stapleHomeEdge t asserted => Sys2Proof.Machine.execStapleHomeEdge t asserted s
  | .ejectHomeEdge t asserted => Sys2Proof.Machine.execEjectHomeEdge t asserted s
  | .compileTrayEdge t paper => Sys2Proof.Machine.execCompileTrayEdge t paper s
  | .pickTimerExpiry => Sys2Proof.Machine.execPickTimerExpiry s
  | .starvationHoldoffExpiry => Sys2Proof.Machine.execStarvationHoldoffExpiry s
  | .rampTimerExpiry => Sys2Proof.Machine.execRampTimerExpiry s
  | .runOnTimerExpiry => Sys2Proof.Machine.execRunOnTimerExpiry s
  | .leadingDeadlineExpiry sheet => Sys2Proof.Machine.execLeadingDeadlineExpiry sheet s
  | .trailingDeadlineExpiry station => Sys2Proof.Machine.execTrailingDeadlineExpiry station s
  | .settleExpiry => Sys2Proof.Machine.execSettleExpiry s
  | .stapleLimitExpiry => Sys2Proof.Machine.execStapleLimitExpiry s
  | .ejectLimitExpiry => Sys2Proof.Machine.execEjectLimitExpiry s
  | .sweepTimerExpiry => Sys2Proof.Machine.execSweepTimerExpiry s
  | .synthesisedStationEdge station leading => Sys2Proof.Machine.execSynthesisedStationEdge station leading s
  | .synthesisedHomeEdge => Sys2Proof.Machine.execSynthesisedHomeEdge s
  | .pathStart t => Sys2Proof.Machine.execPathStart t s
  | .drainReturn t => Sys2Proof.Machine.execDrainReturn t s
  | .pick t => Sys2Proof.Machine.execPick t s
  | .autoSweep t => Sys2Proof.Machine.execAutoSweep t s
  | .setCycleStart t => Sys2Proof.Machine.execSetCycleStart t s

end Sys2Proof.Machine
end

