-- ==== Sys2Proof/Safety.lean ====
section
/-! DEFINITION. The terms statements use: what it is for a command to complete, the layout of request bodies as 12.7 gives them
(written as bytes, not as the readers of Operands.lean), how an answered request leaves the Link Unit, and the invariants every
step keeps. -/

namespace Sys2Proof

/-- The tick, KIND and body of a request command (12.3). -/
def Instr.request? : Instr → Option (Tick × Byte × List Byte)
  | .stationDef t b => some (t, 0x01, b)
  | .legDef t b => some (t, 0x02, b)
  | .driveDef t b => some (t, 0x03, b)
  | .trayDef t b => some (t, 0x04, b)
  | .doorDef t b => some (t, 0x05, b)
  | .timingDef t b => some (t, 0x06, b)
  | .finisherDef t b => some (t, 0x07, b)
  | .lineDef t b => some (t, 0x08, b)
  | .noticeMask t b => some (t, 0x09, b)
  | .pathClose t b => some (t, 0x0A, b)
  | .page t b => some (t, 0x0B, b)
  | .imageReady t b => some (t, 0x0C, b)
  | .hold t b => some (t, 0x0D, b)
  | .continueFeed t b => some (t, 0x0E, b)
  | .hostStop t b => some (t, 0x0F, b)
  | .abandonJob t b => some (t, 0x10, b)
  | .resyncStation t b => some (t, 0x11, b)
  | .sweep t b => some (t, 0x12, b)
  | .planRead t b => some (t, 0x13, b)
  | .resume t b => some (t, 0x14, b)
  | .statusRead t b => some (t, 0x15, b)
  | .sheetRead t b => some (t, 0x16, b)
  | .jamRead t b => some (t, 0x17, b)
  | .counterRead t b => some (t, 0x18, b)
  | .counterWidth t b => some (t, 0x19, b)
  | .dryRun t b => some (t, 0x1A, b)
  | .faultPlan t b => some (t, 0x1B, b)
  | .pathReset t b => some (t, 0x1C, b)
  | .hardwareReset _ _ | .unknownKind _ _ _ | .frameDiscard _ _ | .byteGapTimeout _ _ | .linkFaultTimerExpiry | .frameSent _
  | .stationLeadingEdge _ _ | .stationTrailingEdge _ _ | .doorOpening _ _ | .doorClosing _ _ | .trayLevelChange _ _ _ _
  | .binFullLineChange _ _ _ | .purgeBinRemoved _ _ | .stapleHomeEdge _ _ | .ejectHomeEdge _ _ | .compileTrayEdge _ _
  | .pickTimerExpiry | .starvationHoldoffExpiry | .rampTimerExpiry | .runOnTimerExpiry | .leadingDeadlineExpiry _
  | .trailingDeadlineExpiry _ | .settleExpiry | .stapleLimitExpiry | .ejectLimitExpiry | .sweepTimerExpiry
  | .synthesisedStationEdge _ _ | .synthesisedHomeEdge | .pathStart _ | .drainReturn _ | .pick _ | .autoSweep _
  | .setCycleStart _ => none

/-- The commands that are an edge or a change of an input line: they move its pin and its filtered level. -/
def Instr.drivesLine : Instr → Bool
  | .stationLeadingEdge _ _ | .stationTrailingEdge _ _ | .doorOpening _ _ | .doorClosing _ _ | .trayLevelChange _ _ _ _
  | .binFullLineChange _ _ _ | .purgeBinRemoved _ _ | .stapleHomeEdge _ _ | .ejectHomeEdge _ _ | .compileTrayEdge _ _ => true
  | .stationDef _ _ | .legDef _ _ | .driveDef _ _ | .trayDef _ _ | .doorDef _ _ | .timingDef _ _ | .finisherDef _ _
  | .lineDef _ _ | .noticeMask _ _ | .pathClose _ _ | .page _ _ | .imageReady _ _ | .hold _ _ | .continueFeed _ _
  | .hostStop _ _ | .abandonJob _ _ | .resyncStation _ _ | .sweep _ _ | .planRead _ _ | .resume _ _ | .statusRead _ _
  | .sheetRead _ _ | .jamRead _ _ | .counterRead _ _ | .counterWidth _ _ | .dryRun _ _ | .faultPlan _ _ | .pathReset _ _
  | .hardwareReset _ _ | .unknownKind _ _ _ | .frameDiscard _ _ | .byteGapTimeout _ _ | .linkFaultTimerExpiry | .frameSent _
  | .pickTimerExpiry | .starvationHoldoffExpiry | .rampTimerExpiry | .runOnTimerExpiry | .leadingDeadlineExpiry _
  | .trailingDeadlineExpiry _ | .settleExpiry | .stapleLimitExpiry | .ejectLimitExpiry | .sweepTimerExpiry
  | .synthesisedStationEdge _ _ | .synthesisedHomeEdge | .pathStart _ | .drainReturn _ | .pick _ | .autoSweep _
  | .setCycleStart _ => false

/-- The catalogue gives a request of this KIND a body of `n` bytes (12.3). -/
def catalogueLength (kind : Byte) (n : Nat) : Prop :=
  match kind.toNat with
  | 1 => n = 7
  | 2 => ∃ k, 1 ≤ k ∧ k ≤ 8 ∧ n = 4 + 3 * k
  | 3 => n = 22
  | 4 => n = 5
  | 5 => n = 5
  | 6 => n = 24
  | 7 => n = 16
  | 8 => n = 4
  | 9 => n = 1
  | 11 => n = 14
  | 12 => n = 4
  | 13 => n = 1
  | 16 => n = 1
  | 17 => n = 1
  | 19 => n = 1
  | 22 => n = 1
  | 23 => n = 1
  | 24 => n = 3
  | 25 => n = 6
  | 26 => n = 1
  | 27 => ∃ k, k ≤ 8 ∧ n = 8 * k
  | _ => n = 0

end Sys2Proof

namespace Sys2Proof.Machine

/-! ## Completion and answers -/

/-- The command answers a next state, leaves the waiting commands as they are, and `φ` holds of the part after it. -/
def Completes (c : Instr) (s : State) (φ : Part → Prop) : Prop :=
  ∃ t, exec c s = .next t ∧ t.pending = s.pending ∧ φ t.part

/-- A request can be accepted: the receiver hunts and the receive queue has a place for one more frame (R174, R176). -/
abbrev Part.canAccept (p : Part) : Prop := p.link.receiver = .hunting ∧ p.link.rxQueue.length < 4

/-- The Link Unit after a request frame was accepted and its reply formed: the frame in the receive queue, the reply behind those
pending, and an idle transmitter started on the oldest reply (R176, R177). -/
def Link.answered (l : Link) (frame reply : Frame) : Link :=
  match l.sending, l.replies with
  | some x, rs => { l with receiver := .hunting, rxQueue := l.rxQueue ++ [frame], sending := some x, replies := rs ++ [reply] }
  | none, [] => { l with receiver := .hunting, rxQueue := l.rxQueue ++ [frame], sending := some ⟨reply, true⟩ }
  | none, r :: rs =>
    { l with receiver := .hunting, rxQueue := l.rxQueue ++ [frame], sending := some ⟨r, true⟩, replies := rs ++ [reply] }

/-- The Link Unit of `p` after a request of a kind was answered with a result code and data. -/
def Part.linkAfter (p : Part) (kind : Byte) (body reply : List Byte) : Link :=
  p.link.answered ⟨kind, body⟩ ⟨kind ||| 0x80#8, reply⟩

/-- `p` at the tick of an event: Tick Time does not run backward. -/
def Part.atTick (p : Part) (t : Tick) : Part := { p with tick := laterOf p.tick t }

/-- `p` after a request that changed nothing but the Link Unit and the tick: taken and answered with `reply`. -/
def Part.answered (p : Part) (t : Tick) (kind : Byte) (body reply : List Byte) : Part :=
  { p with tick := laterOf p.tick t, link := p.linkAfter kind body reply }

/-- A definition request's effect on the path state: IDLE moves to UNCONFIGURED, with its notice (R2, R43). -/
def Part.unconfigure (p : Part) : Part :=
  { p with
    feed := { p.feed with path := .unconfigured }
    notices := { p.notices with
      pathState := p.notices.pathState || (p.mask.pathState && p.feed.path != .unconfigured) } }

/-! ## Body layouts (12.7) -/

/-- A number in one byte. -/
def one (v : Nat) : List Byte := [BitVec.ofNat 8 v]

/-- A number in two bytes, high byte first. -/
def two (v : Nat) : List Byte := [BitVec.ofNat 8 (v / 256), BitVec.ofNat 8 v]

/-- A number in four bytes, high byte first. -/
def four (v : Nat) : List Byte :=
  [BitVec.ofNat 8 (v / 16777216), BitVec.ofNat 8 (v / 65536), BitVec.ofNat 8 (v / 256), BitVec.ofNat 8 v]

/-- A value lies in a range, ends included. -/
abbrev inRange (lo hi v : Nat) : Prop := lo ≤ v ∧ v ≤ hi

/-- The body of a STATION DEF (R3): REMOVE reads the id alone, and a gate line stands only with EXIT and PURGE GATE. -/
def StationBody (x : Fin 24 × Option StationDef) (b : List Byte) : Prop :=
  match x.2 with
  | none => ∃ r, r.length = 5 ∧ b = one x.1.val ++ one 1 ++ r
  | some d => ∃ g : Byte, b = one x.1.val ++ one 0 ++ one d.line.val ++ one d.role.ctorIdx ++ one d.area.val
      ++ one d.drive.ctorIdx ++ [g] ∧
      if d.role = .exit ∨ d.role = .purgeGate then ∃ l : Fin 24, d.gate = some l ∧ g = BitVec.ofNat 8 l.val
      else d.gate = none

/-- The body of a LEG DEF (R5): an end distance counts for TRAY0 to TRAY3, INSERT and DUPLEX. -/
def LegBody (x : LegName × Leg) (b : List Byte) : Prop :=
  let k := x.2.steps.length
  ∃ e, e < 65536 ∧ inRange 1 8 k ∧ (∀ y ∈ x.2.steps, inRange 1 20000 y.dist) ∧
    b = one x.1.pos.val ++ one k ++ x.2.steps.flatMap (fun y => one y.station.val ++ two y.dist) ++ two e ∧
    if x.1.hasEnd then x.2.endDist = e ∧ inRange 1 20000 e else x.2.endDist = 0

/-- The body of a DRIVE DEF (R7). -/
def DriveBody (x : DriveSet) (b : List Byte) : Prop :=
  b = two x.speed0 ++ two x.speed1 ++ two x.speed2 ++ two x.ramp ++ four x.runOn ++ four x.sweep ++ one x.feedLine.val
      ++ one x.processLine.val ++ one x.duplexLine.val ++ one x.deliveryLine.val ++ one x.select0.val ++ one x.select1.val ∧
    inRange 100 600 x.speed0 ∧ inRange 100 600 x.speed1 ∧ inRange 100 600 x.speed2 ∧ inRange 200 60000 x.ramp ∧
    x.runOn ≤ 200000 ∧ inRange 2000 200000 x.sweep

/-- The body of a TRAY DEF (R8): bytes the unit does not use are ignored. -/
def UnitBody (count : Nat) (x : UnitSet) (b : List Byte) : Prop :=
  match x with
  | .tray u y => b = one u.val ++ one y.clutch.val ++ one y.present.val ++ one y.paperOut.val ++ one y.retries ∧ y.retries ≤ 2
  | .bin i line => ∃ r, r.length = 3 ∧ b = one (5 + i.val) ++ one line.val ++ r
  | .purge y => ∃ r, r.length = 2 ∧ b = one 7 ++ one y.removed.val ++ one y.capacity ++ r ∧ inRange 30 250 y.capacity ∧
      count ≤ y.capacity

/-- The body of a DOOR DEF (R9), all of whose fields are in range. -/
def DoorBody (x : Fin 8 × Option DoorDef) (b : List Byte) : Prop :=
  ∃ d : DoorDef, b = one x.1.val ++ one (if x.2.isSome then 0 else 1) ++ one d.line.val ++ [d.areas] ++ one d.finisher.toNat ∧
    (x.2 = none ∨ x.2 = some d)

/-- The body of a TIMING DEF (R10). -/
def TimingBody (x : Timing) (b : List Byte) : Prop :=
  b = one x.q ++ two x.wmin ++ two x.jam ++ two x.omax ++ one x.window ++ one (if x.autoResync then 0 else 1) ++ two x.gap
      ++ two x.caution ++ two x.multifeed ++ four x.holdoff ++ one x.readyGate.ctorIdx ++ one x.loop
      ++ one (if x.autoSweep then 0 else 1) ++ one x.markNormal ++ one x.markPriority ∧
    inRange 1 64 x.q ∧ inRange 20 2000 x.wmin ∧ inRange 20 20000 x.jam ∧ x.omax ≤ 4000 ∧ inRange 4 5 x.window ∧
    inRange 200 2000 x.gap ∧ x.caution ≤ 1000 ∧ inRange 20 500 x.multifeed ∧ x.holdoff ≤ 200000 ∧ inRange 1 6 x.loop ∧
    x.markNormal ≤ 63 ∧ x.markPriority ≤ 15

/-- The body of a FINISHER DEF (R11). -/
def FinisherBody (x : Nat × FinisherSet) (b : List Byte) : Prop :=
  b = one x.1 ++ two x.2.nominal ++ four x.2.limit ++ two x.2.eject ++ two x.2.settle ++ one x.2.stapler.val
      ++ one x.2.ejector.val ++ one x.2.stapleHome.val ++ one x.2.ejectHome.val ++ one x.2.compileTray.val ∧
    inRange 2 100 x.1 ∧ inRange 200 40000 x.2.nominal ∧ inRange 400 80000 x.2.limit ∧ inRange 200 40000 x.2.eject ∧
    x.2.settle ≤ 4000 ∧ x.2.nominal < x.2.limit

/-- The body of a LINE DEF (R14): direction 0 is an input line, 1 an output line, whose filter byte is ignored. -/
def LineBody (x : (Fin 32 × InputSet) ⊕ (Fin 24 × Bool)) (b : List Byte) : Prop :=
  match x with
  | .inl (line, y) => b = one 0 ++ one line.val ++ one (if y.high then 0 else 1) ++ one y.filter ∧ y.filter ≤ 15
  | .inr (line, high) => ∃ r, r.length = 1 ∧ b = one 1 ++ one line.val ++ one (if high then 0 else 1) ++ r

/-- The body of a PAGE (R25, R30): staple is stored only with destination FINISHER, no-back only on a FRONT. -/
def PageBody (p : Page) (b : List Byte) : Prop :=
  ∃ flags : Byte, b = four p.id ++ one p.job ++ two p.set ++ one p.side.ctorIdx ++ [flags] ++ one p.tray ++ two p.media
      ++ one p.cls ++ one p.dest ∧
    p.id < 4294967296 ∧ p.job < 256 ∧ p.set < 65536 ∧ p.tray < 256 ∧ p.media < 65536 ∧ p.cls < 256 ∧ p.dest < 256 ∧
    p.noBack = (flags.getLsbD 0 && p.side == .front) ∧ p.firstOfSet = flags.getLsbD 1 ∧ p.lastOfSet = flags.getLsbD 2 ∧
    p.staple = (flags.getLsbD 3 && p.dest == 2) ∧ p.lastOfJob = flags.getLsbD 4 ∧ p.priority = flags.getLsbD 5 ∧
    p.ready = false ∧ p.origin = none

/-- One entry of a FAULT PLAN body (R170), unspent. -/
def FaultBody (x : FaultEntry) (b : List Byte) : Prop :=
  ∃ a : BitVec 32, b = two x.ordinal ++ one x.station ++ one x.kind.ctorIdx ++ four a.toNat ∧ x.amount = a.toInt ∧
    inRange 1 65535 x.ordinal ∧ x.station < 256 ∧ (x.kind = .noStaple ∨ x.station ≤ 23) ∧
    (x.kind = .delay → -20000 ≤ x.amount ∧ x.amount ≤ 20000) ∧ (x.kind = .stretch → 1 ≤ x.amount ∧ x.amount ≤ 100000) ∧
    x.spent = false

/-- The body of a FAULT PLAN (R170): its entries one after another. -/
def PlanBody : List FaultEntry → List Byte → Prop
  | [], b => b = []
  | x :: rest, b => ∃ h r, b = h ++ r ∧ FaultBody x h ∧ PlanBody rest r

/-! ## What commands leave -/

/-- The path states of an open episode (R107 to R112). -/
def PathState.inEpisode : PathState → Bool
  | .halting | .held | .sweeping | .resumable => true
  | .unconfigured | .idle | .starting | .running | .draining => false

/-- The path states in which all four drives run (03 section 3.1). -/
def PathState.allDrives : PathState → Bool
  | .starting | .running | .draining | .sweeping => true
  | .unconfigured | .idle | .halting | .held | .resumable => false

/-- A request at tick `t` was taken and answered with `reply`: the tick and the Link Unit say so, and both descriptions, the mask
and the input lines are as they were. -/
def Part.repliedTo (p : Part) (t : Tick) (kind : Byte) (body reply : List Byte) (q : Part) : Prop :=
  q.tick = laterOf p.tick t ∧ q.link = p.linkAfter kind body reply ∧ q.lines = p.lines ∧ q.stored = p.stored ∧
    q.force = p.force ∧ q.mask = p.mask

/-- An event at tick `t` that is no frame's: Tick Time moves, and both descriptions, the mask, the receiver and the receive queue
are as they were. -/
def Part.passesTo (p : Part) (t : Tick) (q : Part) : Prop :=
  q.tick = laterOf p.tick t ∧ q.stored = p.stored ∧ q.force = p.force ∧ q.mask = p.mask ∧
    q.link.receiver = p.link.receiver ∧ q.link.rxQueue = p.link.rxQueue ∧ q.link.fault = p.link.fault ∧
    q.link.faultTimer = p.link.faultTimer

/-- The same outside the Statistics Unit, the Link Unit and its notices. -/
def Part.sameButReports (p q : Part) : Prop :=
  { q with tick := p.tick, link := p.link, notices := p.notices, stats := p.stats } = p

/-- A record of the PATH, TRAY or STATION group counted one report at counter `c` (R161). -/
def countedUp {n : Nat} (w : Width) (old new : Vector Nat n) (c : Fin n) : Prop :=
  new[c] = if old[c] < w.limit then old[c] + 1 else old[c]

/-- All four drive enables of `o` stand so. -/
def Outputs.drives (o : Outputs) (on : Bool) : Prop :=
  o.enFeed = on ∧ o.enProcess = on ∧ o.enDuplex = on ∧ o.enDelivery = on

/-- No page waits in a queue or in the Reprint List. -/
abbrev Part.noPages (p : Part) : Prop := p.intake.normal = [] ∧ p.intake.priority = [] ∧ p.planner.list = []

/-- No timer of the Feed Scheduler runs (R52). -/
def Feed.timersIdle (f : Feed) : Prop := f.pickTimer = none ∧ f.holdoff = none ∧ f.ramp = none ∧ f.runOn = none

/-- An episode opened with jam `j` as its first record (R52, R109, R111). -/
def Part.openedWith (p : Part) (j : Jam) (q : Part) : Prop :=
  q.episode.isOpen = true ∧ q.episode.number = p.episode.number + 1 ∧ q.episode.firstKind = some j.kind ∧
    q.episode.records = [j] ∧ q.episode.overflow = 0 ∧ q.feed.timersIdle ∧ q.feed.hold = false ∧ q.feed.setEnd = false ∧
    q.out.clutch = .replicate 5 false ∧ (∀ x ∈ q.table.sheets, x.cond = .runningOut ∨ x.cond = .stranded) ∧
    (q.feed.path = .halting ↔ ∃ x ∈ q.table.sheets, x.cond = .runningOut)

/-- The open episode was extended with jam `j`: kept as a record while fewer than four are, and counted otherwise (R116). -/
def Part.extendedWith (p : Part) (j : Jam) (q : Part) : Prop :=
  q.episode.isOpen = p.episode.isOpen ∧ q.episode.number = p.episode.number ∧ q.episode.firstKind = p.episode.firstKind ∧
    if p.episode.records.length < 4 then
      q.episode.records = p.episode.records ++ [j] ∧ q.episode.overflow = p.episode.overflow
    else q.episode.records = p.episode.records ∧ q.episode.overflow = min (p.episode.overflow + 1) 65535

/-- A jam was taken according to the path state: it opened an episode or extended the open one, its area joined the removal area
set, and the path is in an episode state (R108, R115). -/
def Part.tookJam (p : Part) (j : Jam) (q : Part) : Prop :=
  (if p.feed.path = .starting ∨ p.feed.path = .running ∨ p.feed.path = .draining ∨ p.feed.path = .idle then p.openedWith j q
    else p.extendedWith j q) ∧
    (∀ a : Fin 9, j.area = some a → q.episode.areas.getLsbD a.val = true) ∧ q.feed.path.inEpisode = true

/-- The path states in which a jam of a sheet or a station is taken (R71, R108). -/
def PathState.takesJams : PathState → Bool
  | .starting | .running | .draining | .halting | .held | .sweeping => true
  | .unconfigured | .idle | .resumable => false

/-- The clearance conditions (R124): every door reads CLOSED; no station in force reads paper; the compile-tray-paper line reads none
(in dry run it never does: R167) or paper is expected there, of a set that holds sheets, is undisturbed and is RETAINED or FAULTED;
and no staple or eject is under way. -/
abbrev Part.clearance (p : Part) : Prop :=
  p.anyDoorOpen = false ∧ p.anyPaper = false ∧
    (p.dry.on = true ∨ p.levelOf .compileTray = false ∨
      (p.finisher.sheets ≠ [] ∧ p.finisher.disturbed = false ∧ (p.finisher.state = .retained ∨ p.finisher.state = .faulted))) ∧
    p.finisher.state ≠ .stapling ∧ p.finisher.state ≠ .ejecting

/-- The plan was built: every STRANDED sheet left the Sheet Table and its pages joined the Reprint List, as did those of a disturbed
Compile Set, which is EMPTY; the list's revision rose, and the path is RESUMABLE with its drives stopped (R136 to R141). -/
def Part.builtPlan (p q : Part) : Prop :=
  q.feed.path = .resumable ∧ q.planner.revision = p.planner.revision + 1 ∧ q.planner.readThrough = false ∧
    q.planner.list.Perm (p.planner.list
      ++ ((p.table.sheets.filter fun x => x.cond == .stranded).flatMap Sheet.pages).map (⟨·, .stranded⟩)
      ++ if p.finisher.disturbed then (p.finisher.sheets.flatMap Held.pages).map (⟨·, .setRestart⟩) else []) ∧
    q.table.sheets = p.table.sheets.filter (fun x => x.cond != .stranded) ∧
    (p.finisher.disturbed = true → q.finisher = .reset) ∧ q.feed.merge = [] ∧ q.calls = ⟨[], []⟩ ∧
    q.feed.unconfirmed = none ∧ q.out.drives false ∧ q.episode.sweepTimer = none

/-- A sweep was started at tick `now` outside dry run (R128). -/
def Part.startedSweep (p : Part) (now : Tick) (q : Part) : Prop :=
  q.feed.path = .sweeping ∧ q.out.presented = p.force.slowest ∧ q.feed.cls = p.feed.cls ∧ q.out.drives true ∧
    q.episode.sweepTimer = some (plusTicks now ((p.force.drive.map DriveSet.sweep).getD 0))

/-- Pages of a job were counted delivered: the slot's count and last page say so, unless the slot was freed by it (R35, R37). -/
def Part.countedDelivered (p : Part) (job : Nat) (pages : List Page) (q : Part) : Prop :=
  ∀ i : Fin 8, p.intake.slotOf job = some i → ∀ x ∈ p.intake.slots[i], ∀ last ∈ pages.getLast?,
    q.intake.slots[i] = some { x with delivered := x.delivered + pages.length, lastPage := some last.id } ∨
      (q.intake.slots[i] = none ∧ x.closed = true ∧ x.accepted = x.delivered + pages.length + x.abandoned)

/-- The sheet is a candidate for an edge of tick `now` at `st`: it is not STRANDED, its next step is there (R73), and no retry of its
pick was taken at that very tick (R20; entry 36). -/
def Sheet.candidateAt (x : Sheet) (st : Fin 24) (now : Tick) : Bool :=
  x.cond != .stranded && (x.itinerary[x.index]?).any (fun z => z.station == st)
    && !(x.index == 0 && decide (1 < x.attempts) && x.anchor == now)

/-- Sheet `x` is the one a leading edge of tick `now` at `st` is matched to: no moving sheet covers the station, and `x` is the
candidate with an expected arrival before that of every other (R73). -/
abbrev Part.matchesLead (p : Part) (now : Tick) (st : Fin 24) (x : Sheet) (step : Step) (e : Expect) : Prop :=
  (∀ c ∈ (p.stations[st]).cover, ∀ y ∈ p.table.sheets, y.number = c.sheet → y.cond = .stranded) ∧
    x ∈ p.table.sheets ∧ x.candidateAt st now = true ∧ x.itinerary[x.index]? = some step ∧ x.expect = some e ∧
    ∀ y ∈ p.table.sheets, y ≠ x → y.candidateAt st now = true → y.expect.any (fun f => isBefore e.e f.e) = true

/-- The path states in which edges are matched to sheets (R71). -/
def PathState.tracks : PathState → Bool
  | .running | .draining | .halting => true
  | .unconfigured | .idle | .starting | .held | .sweeping | .resumable => false

/-- The Sheet Table ascends strictly, holds at most 24 records and only numbers already given; the numbers end at 4,294,967,295
(R51, R69). -/
abbrev Part.tableSound (p : Part) : Prop :=
  (p.table.sheets.map Sheet.number).Pairwise (· < ·) ∧ (∀ x ∈ p.table.sheets, x.number < p.feed.nextSheet) ∧
    p.table.sheets.length ≤ 24 ∧ p.feed.nextSheet ≤ 4294967296 ∧
    (p.feed.nextSheet = 4294967296 → p.feed.exhausted = true)

/-- Command `c` brings the Sheet Tracker an edge of station `st` at tick `t`: the sensor's own outside dry run, and in it the next
synthesised edge of the station and direction (R13, R167, R168). -/
abbrev Part.brings (p : Part) (c : Instr) (leading : Bool) (st : Fin 24) (t : Tick) : Prop :=
  if p.dry.on then c = .synthesisedStationEdge st leading ∧ (p.dry.nextEdge st leading).map Edge.tick = some t
  else c = if leading then .stationLeadingEdge t st else .stationTrailingEdge t st

/-- The input lines after such an edge: a sensor's own moves its line (entry 4), a synthesised one moves none (R167). -/
def Part.linesAfter (p : Part) (line : Fin 32) (asserted : Bool) : Lines :=
  if p.dry.on then p.lines else p.lines.edge p.force.inputs line asserted

/-- Command `c` brings a leading edge at `st` that is the arrival of `x` at its next step, neither early nor late nor an overrun
(R73, R155). -/
abbrev Part.arrives (p : Part) (c : Instr) (t : Tick) (st : Fin 24) (d : StationDef) (x : Sheet) (step : Step) (e : Expect) : Prop :=
  p.tableSound ∧ p.brings c true st t ∧ p.force.stations[st] = some d ∧ p.feed.path.tracks = true ∧
    p.matchesLead (laterOf p.tick t) st x step e ∧
    -(e.wj : Int) ≤ since e.e (laterOf p.tick t) ∧ since e.e (laterOf p.tick t) ≤ e.wj ∧
    (d.role = .finisherEntry → p.overruns x = false)

/-- Command `c` brings a trailing edge at `st` that is that of the moving sheet `x`, which covers the station (R76). -/
abbrev Part.departs (p : Part) (c : Instr) (t : Tick) (st : Fin 24) (d : StationDef) (x : Sheet) (k : Cover) : Prop :=
  p.tableSound ∧ p.brings c false st t ∧ p.force.stations[st] = some d ∧ p.feed.path.tracks = true ∧
    (p.stations[st]).cover = some k ∧ x ∈ p.table.sheets ∧ x.number = k.sheet ∧ x.cond ≠ .stranded

/-- The arrival of `x` at `step` is a DUPLEX sheet's return: the first station of MAIN, at the step after the DUPLEX leg (R73). -/
def Sheet.returnsAt (x : Sheet) (step : Step) : Bool :=
  step.leg == .main && step.pos == 1 && x.index != 0 && (x.itinerary[x.index - 1]?).any fun y => y.leg == .duplex

/-- A sheet made PURGING and released: its destination, its way, its pages (R87, R97). -/
def Part.spoiled (p : Part) (x : Sheet) : Sheet :=
  { x with
    dest := .purge, cond := .purging, itinerary := p.force.toPurge x.itinerary, front := none, back := none, released := true }

/-- At `now` the generator scheduled the leading edge of sheet `num` at `st`, `transit` ticks after `anchor`, as the faults of the
plan that fire for it alter or withhold it; they are spent by it (R168, R171). -/
def Part.scheduledEdge (p : Part) (now : Tick) (num : Nat) (st : Fin 24) (anchor : Tick) (transit len : Nat) (q : Part) : Prop :=
  let fires := fun x : FaultEntry =>
    !x.spent && x.kind != .noStaple && x.station == st.val && x.ordinal == num + 1 - p.dry.firstSheet
  let fault := fun k : FaultKind => p.dry.plan.filter fun x => fires x && x.kind == k
  let due := plusInt (plusTicks anchor transit) ((fault .delay).map FaultEntry.amount).sum
  (∀ i : Fin p.dry.plan.length, fires p.dry.plan[i] = true → q.dry.plan[i.val]? = some { p.dry.plan[i] with spent := true }) ∧
    if fault .omit = [] then
      { station := st, leading := true, tick := if isBefore now due then due else now + 1, sheet := some num,
        stretch := ((fault .stretch).map FaultEntry.amount).sum.toNat, extras := (fault .extra).length,
        dwell := len : Edge } ∈ q.dry.schedule
    else ∀ e ∈ q.dry.schedule, e.sheet = some num → e.leading = true → e ∈ p.dry.schedule

/-- The command that brings the edge of an input line to its user, by the line's role (R12, R13). -/
def InputRole.edgeCommand (r : InputRole) (t : Tick) (asserted : Bool) : Instr :=
  match r with
  | .station st => if asserted then .stationLeadingEdge t st else .stationTrailingEdge t st
  | .present u => .trayLevelChange t u .present asserted
  | .paperOut u => .trayLevelChange t u .paperOut asserted
  | .binFull b => .binFullLineChange t b asserted
  | .purgeRemoved => .purgeBinRemoved t asserted
  | .door d => if asserted then .doorClosing t d else .doorOpening t d
  | .stapleHome => .stapleHomeEdge t asserted
  | .ejectHome => .ejectHomeEdge t asserted
  | .compileTray => .compileTrayEdge t asserted

/-- An arrival of `x` at `now` was taken (R74): its step, anchor and covering station, the expected arrival at its next step with the
leading deadline there, and the station's covering entry, learned offset, history and mark. -/
def Part.tookArrival (p : Part) (now : Tick) (x : Sheet) (step : Step) (e : Expect) (q : Part) : Prop :=
  let st := step.station
  let old := p.stations[st]
  let new := q.stations[st]
  let omax := p.force.timing.omax
  let raw := since (plusTicks x.anchor e.transit) now
  let outcome : Arrival := if -(e.wt : Int) ≤ since e.e now ∧ since e.e now ≤ e.wt then .onTime else .drift
  let history := enterOutcome p.force.timing.window old.history outcome
  (∃ y ∈ q.table.sheets, y.number = x.number ∧ y.index = x.index + 1 ∧ y.anchor = now ∧ y.lastPassed = some st ∧
    y.covering = some st ∧
    y.expect = (x.itinerary[x.index + 1]?).map (fun z =>
      expectAt p.force.timing p.speed now z.dist (q.stations[z.station]).offset) ∧
    y.deadline = y.expect.map fun z => plusTicks z.e z.wj) ∧
    new.cover = some ⟨x.number, now, some (plusTicks now
      (dwell x.media p.speed + multifeedTicks p.force.timing p.speed + p.force.timing.jam))⟩ ∧
    new.offset = max (-(omax : Int)) (min (if old.resync then raw else old.offset + (raw - old.offset).tdiv 8) omax) ∧
    new.history = (if old.resync then [] else history) ∧
    new.outOfStep = (if old.resync then old.outOfStep else judgedOutOfStep old.outOfStep history) ∧
    new.resync = (!old.resync && !old.outOfStep && new.outOfStep && p.force.timing.autoResync) ∧
    (∀ other : Fin 24, other ≠ st → q.stations[other] = p.stations[other]) ∧
    countedUp p.stats.stationSet.width (p.stats.station[st]) (q.stats.station[st]) 0 ∧
    (outcome = .drift → countedUp p.stats.stationSet.width (p.stats.station[st]) (q.stats.station[st]) 1)

/-! ## The Compile Set (R150, R154) -/

/-- No sheet of the Compile Set's job and set is still on its way to it, and one of another job or set is: the second condition
of R150. -/
def Part.overtaken (p : Part) : Prop :=
  ∃ id, p.finisher.ident = some id ∧
    (∀ x ∈ p.table.sheets, (x.job, x.set) = id → x.dest = .finisher → x.cond ≠ .normal ∧ x.cond ≠ .runningOut) ∧
    ∃ x ∈ p.table.sheets, (x.job, x.set) ≠ id ∧ x.dest = .finisher ∧ x.cond = .normal

/-- With these sheets compiled the Compile Set holds C of them, is undisturbed and not closed, and none of the three conditions of
R150 closes it: it is split (R154). -/
def Part.fullUnclosed (p : Part) (sheets : List Held) : Prop :=
  sheets.length = p.force.capacity ∧ p.finisher.disturbed = false ∧ p.finisher.closed = false ∧
    (∀ h ∈ sheets, h.lastOfSet = false) ∧ ¬ p.overtaken ∧ p.finisher.abandoned = false

/-- The Compile Set in its final cycle, from tick `now` (R150 to R152): STAPLING where it is to be stapled and was not, and EJECTING
otherwise. -/
def Part.inFinalCycle (p : Part) (now : Tick) (q : Part) : Prop :=
  if p.finisher.toStaple = true ∧ p.finisher.stapled = false ∧ p.finisher.skipped = false ∧ p.finisher.abandoned = false then
    q.finisher = { p.finisher with state := .stapling, stapleLimit := some (plusTicks now p.finisherSet.limit) } ∧
      q.out.stapler = true
  else q.finisher = { p.finisher with
      state := .ejecting, split := false, ejectLimit := some (plusTicks now (2 * p.finisherSet.eject)) } ∧
    q.out.ejector = true

/-- The Compile Set in the partial eject of a split, from tick `now`: its staple is skipped (R154), and in dry run the eject-home
edge is scheduled (R169). -/
def Part.inPartialEject (p : Part) (now : Tick) (q : Part) : Prop :=
  q.finisher.state = .ejecting ∧ q.finisher.skipped = true ∧ q.finisher.split = true ∧
    q.finisher.ejectLimit = some (plusTicks now (2 * p.finisherSet.eject)) ∧ q.finisher.closed = false ∧
    q.finisher.ident = p.finisher.ident ∧ q.finisher.ejected = p.finisher.ejected ∧ q.out.ejector = true ∧
    (p.dry.on = true → q.dry.home = some ⟨false, plusTicks now p.finisherSet.eject⟩)

/-! ## The next page (R53, R54) -/

/-- The active queue, once the selector is judged (R54): with no entry in the Reprint List it turns to PRIORITY where the Normal
boundary mark stands and the Priority Queue holds a record, back to NORMAL where the Priority boundary mark stands and that
queue is empty, and otherwise stays. -/
def Part.activeQueue (p : Part) : Queue :=
  if p.planner.list = [] ∧ p.feed.selector = .normal ∧ p.feed.normalMark = true ∧ p.intake.priority ≠ [] then .priority
  else if p.planner.list = [] ∧ p.feed.selector = .priority ∧ p.feed.priorityMark = true ∧ p.intake.priority = [] then .normal
  else p.feed.selector

/-- The next page, if it is bindable (R53): the head of the Reprint List, or with that list empty the head of the active queue; with
the BACK right behind it where it needs one. -/
def Part.nextUp (p : Part) : Option NextPage :=
  let source := if p.planner.list = [] then some p.activeQueue else none
  match if p.planner.list = [] then p.intake.queue p.activeQueue else p.planner.list.map Entry.page with
  | [] => none
  | x :: rest =>
    if x.side = .back then none
    else if x.side = .front ∧ x.noBack = false then (rest.head?.filter fun b => b.side == .back).map fun b => ⟨x, some b, source⟩
    else some ⟨x, none, source⟩

/-! ## When a pick may be made (R23, R24, R57, R66) -/

/-- The FIRST-pass DUPLEX sheets of the table (R59). -/
def Part.looping (p : Part) : Nat := (p.table.sheets.filter fun x => x.kind == .duplex && x.pass == .first).length

/-- The conditions of R57 that do not depend on the tick: class, table room, one pick at a time, tray, bin, purge reserve, image
calls, duplex loop or simplex exclusion, ready gate. In dry run trays, bins and the reserve hold no pick (R167). -/
abbrev Part.mayPick (p : Part) (n : NextPage) : Prop :=
  n.front.cls = p.feed.cls ∧ p.table.sheets.length < 24 ∧ p.feed.unconfirmed = none ∧
    (p.dry.on = true ∨ p.levelOf (.present n.unit) = true ∧ p.levelOf (.paperOut n.unit) = false ∧
      (n.front.dest = 0 → p.levelOf (.binFull 0) = false) ∧ (n.front.dest = 1 → p.levelOf (.binFull 1) = false) ∧
      p.force.purge.any (fun x => decide (p.gate.purgeCount + 24 < x.capacity)) = true) ∧
    p.calls.queue.length + p.calls.deferred.length < 8 ∧
    (if n.kind = .duplex then p.looping < p.force.timing.loop else p.looping = 0) ∧
    (n.kind = .insert ∨ p.force.timing.readyGate = .off ∨
      n.front.ready = true ∧ (p.force.timing.readyGate = .front ∨ ∀ b ∈ n.back, b.ready = true))

/-- The merge gap in ticks (R23). -/
def Part.gapTicks (p : Part) : Nat :=
  let outOfStep := (List.finRange 24).any fun st => (p.force.stations[st]).isSome && (p.stations[st]).outOfStep
  let caution := if outOfStep then p.force.timing.caution else 0
  ((p.force.timing.gap + caution) * 2000 + p.speed / 2) / p.speed

/-- The predicted lead at the merge from the pick roller of a tray unit at tick `t` (R23). -/
def Part.rollerLead (p : Part) (u : Fin 5) (t : Tick) : Tick :=
  let leg := p.force.leg (feedLegOf u)
  plusInt (plusTicks t (transit ((leg.steps.map LegStep.dist).sum + leg.endDist) p.speed))
    (leg.steps.map fun y => (p.stations[y.station]).offset).sum

/-- The predicted lead at the merge of a pick of `n` at tick `t` (R23). -/
def Part.pickLead (p : Part) (n : NextPage) (t : Tick) : Tick := p.rollerLead n.unit t

/-- A pick of `n` at tick `t` may be placed at the merge: its interval, widened by the gap on each side, overlaps no reservation; it
begins at or after that one's trail or ends at or before its lead (R23). -/
abbrev Part.placedAt (p : Part) (n : NextPage) (t : Tick) : Prop :=
  ∀ r ∈ p.feed.merge, notAfter r.trail (p.pickLead n t - BitVec.ofNat 32 p.gapTicks) = true ∨
    notAfter (plusTicks (plusTicks (p.pickLead n t) (dwell n.front.media p.speed)) p.gapTicks) r.lead = true

/-- The set of the latest sheet bound toward FINISHER and its predicted trail at FINISHER ENTRY (R24, R66): of the sheets of the table
not PURGING the highest-numbered, or else the last of the Compile Set; none where neither holds one (entry 47). -/
def Part.latestToward (p : Part) : Option ((Nat × Nat) × Tick) :=
  match (p.table.sheets.filter fun x => x.dest == .finisher && x.cond != .purging).getLast?, p.finisher.sheets.getLast? with
  | some x, _ =>
    let passing := dwell x.media p.speed
    let under := ((p.force.stationWith .finisherEntry).bind fun st => (p.stations[st]).cover).filter fun c => c.sheet == x.number
    let way := p.force.through .finisherEntry (x.itinerary.drop x.index)
    let due := plusInt (plusTicks x.anchor (transit (way.map Step.dist).sum p.speed))
      (way.map fun y => (p.stations[y.station]).offset).sum
    some ((x.job, x.set), plusTicks ((under.map Cover.lead).getD due) passing)
  | none, some h => some ((h.job, h.set), h.delivered)
  | none, none => none

/-- The tick from which the set gap holds for `n`, where it applies: the one that brings its predicted lead at FINISHER ENTRY to the
predicted completion of the previous set (R24, R66; entries 21 and 47). -/
def Part.setGapFrom (p : Part) (n : NextPage) : Option Tick :=
  match p.latestToward with
  | none => none
  | some (id, trail) =>
    if n.front.destination ≠ .finisher ∨ id = (n.front.job, n.front.set) then none
    else
      let here := p.finisher.ident == some id
      let toStaple := (here && (p.finisher.toStaple || p.finisher.sheets.any Held.staple)) ||
        p.table.sheets.any fun x => x.dest == .finisher && (x.job, x.set) == id && x.staple
      let stapling := if toStaple && !(here && (p.finisher.skipped || p.finisher.abandoned)) then p.finisherSet.nominal else 0
      let done := plusTicks trail (p.finisherSet.settle + stapling + p.finisherSet.eject)
      let done := if isBefore p.tick done then done else plusTicks p.tick p.finisherSet.eject
      let way := p.force.through .finisherEntry (p.force.itinerary n.kind n.unit .finisher)
      some (done - plusInt (BitVec.ofNat 32 (transit (way.map Step.dist).sum p.speed))
        (way.map fun y => (p.stations[y.station]).offset).sum)

/-- The ticks at which a pick of `n` may be tried: now, or the later tick from which the set gap holds, and those after it that a
reservation's trail gives (R23, R60, R66). -/
def Part.pickTicks (p : Part) (n : NextPage) : List Tick :=
  let base := ((p.setGapFrom n).map (laterOf p.tick)).getD p.tick
  let ahead := p.pickLead n p.tick - p.tick
  base :: (p.feed.merge.map fun r => plusTicks r.trail p.gapTicks - ahead).filter (notAfter base)

/-- `u` is the earliest of those ticks at which a pick of `n` may be placed (R60). -/
def Part.picksAt (p : Part) (n : NextPage) (u : Tick) : Prop :=
  u ∈ p.pickTicks n ∧ p.placedAt n u ∧ ∀ v ∈ p.pickTicks n, p.placedAt n v → notAfter u v = true

/-- The learned state of a station (R70). -/
def Part.learned (p : Part) (st : Fin 24) : Int × List Arrival × Bool × Bool :=
  let x := p.stations[st]
  (x.offset, x.history, x.outOfStep, x.resync)

/-- A discard at tick `now` (R174, R175): the receiver hunts, LINK FAULT stands for 20,000 ticks, one frame discarded is counted,
and the receive queue is as it was; while a frame is being sent, nothing else of the part moves. -/
def Part.discarded (p : Part) (now : Tick) (q : Part) : Prop :=
  q.tick = now ∧ q.link.receiver = .hunting ∧ q.link.rxQueue = p.link.rxQueue ∧ q.link.fault = true ∧
    q.link.faultTimer = some (plusTicks now 20000) ∧ countedUp p.stats.pathSet.width p.stats.path q.stats.path 9 ∧
    (p.link.sending.isSome = true → p.sameButReports q ∧ q.link.sending = p.link.sending ∧ q.link.replies = p.link.replies)

/-- Bytes heard in turn with good stop bits, none of them late: what the last of them does to the receiver, or the discard that
came before. -/
def Receiver.hear (r : Receiver) (t : Tick) : List Byte → Received
  | [] => .moves r
  | b :: rest =>
    match receive r t ⟨0, b, true⟩ with
    | .moves r' => r'.hear t rest
    | x => if rest.isEmpty then x else .discards

/-- Bytes as received at one tick with good stop bits. -/
def clean (l : List Byte) : List RxByte := l.map (⟨0, ·, true⟩)

/-! ## PATH CLOSE's checks (R16, R17) -/

/-- The stations of a leg, in the order of its steps. -/
def Desc.way (d : Desc) (l : LegName) : List (Fin 24) := (d.leg l).steps.map LegStep.station

/-- Every defined leg has 1 to 8 steps (R5). -/
abbrev Desc.legsInRange (d : Desc) : Prop := ∀ i : Fin 11, ∀ x ∈ d.legs[i], inRange 1 8 x.steps.length

/-- The unit at a place of the TRAY DEF selector is set: TRAY0 to TRAY3, INSERT, BIN0, BIN1, PURGE (R8, R16). -/
def Desc.unitSet (d : Desc) (i : Fin 8) : Bool :=
  if h : i.val < 5 then (d.trays[i.val]).isSome
  else if i = 5 then (d.bins[0]).isSome else if i = 6 then (d.bins[1]).isSome else d.purge.isSome

/-- How many stations hold a role. -/
def Desc.holding (d : Desc) (r : Role) : Nat := (List.finRange 24).countP fun st => d.roleOf st == some r

/-- A leg has the shape of check 2 (R16). -/
structure Desc.legSound (d : Desc) (l : LegName) : Prop where
  defined : ∀ st ∈ d.way l, (d.stations[st]).isSome = true
  once : (d.way l).Nodup
  apart : ∀ m : LegName, m ≠ l → ¬ (m.isDeliver = true ∧ l.isDeliver = true) → ∀ st ∈ d.way l, st ∉ d.way m
  plain : l.hasEnd = true → ∀ st ∈ d.way l, d.roleOf st = some .plain
  main : l = .main → 2 ≤ (d.way l).length ∧ (d.way l).getLast?.bind d.roleOf = some .exit ∧
    (∃ st ∈ d.way l, d.roleOf st = some .registration) ∧
    ∀ st ∈ (d.way l).dropLast, d.roleOf st = some .registration ∨ d.roleOf st = some .plain
  deliver : l.isDeliver = true → (∃ st ∈ d.way l, d.roleOf st = some .purgeGate) ∧
    (d.way l).getLast?.bind d.roleOf = some (match l with
      | .deliverBin0 => .binEntry0
      | .deliverBin1 => .binEntry1
      | .deliverFinisher => .finisherEntry
      | _ => .purgeEntry) ∧
    ∀ st ∈ (d.way l).dropLast, d.roleOf st = some .purgeGate ∨ d.roleOf st = some .plain
  ends : l.hasEnd = true → (d.leg l).endDist + ((d.leg .main).steps.head?.map LegStep.dist).getD 0 ≤ 20000

/-- A DELIVER leg agrees with DELIVER BIN0 up to and including the PURGE GATE, in stations and distances (R17). -/
def Desc.agrees (d : Desc) (l : LegName) : Prop :=
  ∃ i : Fin 8, (((d.leg .deliverBin0).steps[i.val]?).any fun x => d.roleOf x.station == some .purgeGate) = true ∧
    (d.leg l).steps.take (i.val + 1) = (d.leg .deliverBin0).steps.take (i.val + 1)

/-- A station stands after the PURGE GATE in a DELIVER leg. -/
def Desc.beyondGate (d : Desc) (l : LegName) (st : Fin 24) : Prop :=
  ∃ i : Fin 8, ∃ j : Fin 8, i < j ∧ (d.way l)[j.val]? = some st ∧
    (((d.way l)[i.val]?).any fun x => d.roleOf x == some .purgeGate) = true

/-- The drive a station's place asks for (R17). -/
def Desc.driveFits (d : Desc) (st : Fin 24) : Prop :=
  ∀ x ∈ d.stations[st], ∀ l : LegName, ∀ i : Fin 8, (d.way l)[i.val]? = some st →
    x.drive = if l.isFeed then .feed else if l = .duplex then .duplex else if l.isDeliver then .delivery
      else if ∃ j : Fin 8, j ≤ i ∧ (((d.way l)[j.val]?).any fun y => d.roleOf y == some .registration) = true then .process
      else .feed

/-- A station's area has a door (R17). -/
def Desc.exposed (d : Desc) (a : Fin 8) : Prop :=
  (∃ st : Fin 24, ∃ x ∈ d.stations[st], x.area = a) → ∃ i : Fin 8, ∃ y ∈ d.doors[i], y.areas.getLsbD a.val = true

/-- `x` is the first of a list that fails `ok`. -/
def firstFailing {α : Type} (l : List α) (ok : α → Prop) (x : α) : Prop :=
  ∃ before after, l = before ++ x :: after ∧ ¬ ok x ∧ ∀ y ∈ before, ok y

/-- No item of a list fails `ok`. -/
def allPass {α : Type} (l : List α) (ok : α → Prop) : Prop := ∀ x ∈ l, ok x

/-! ## PAGE (R26 to R30) -/

/-- Every field of a page record is in range and the record is consistent in itself (R27). -/
abbrev Page.inOrder (x : Page) : Prop :=
  (x.side = .back ∨ ((x.side = .insert ∨ x.tray ≤ 3) ∧ inRange 1000 6000 x.media ∧ x.cls ≤ 2 ∧ x.dest ≤ 2)) ∧
    ¬ (x.side = .front ∧ x.noBack = false ∧ x.lastOfJob = true)

/-- The unpaired FRONT at the tail of the job's queue, if that queue is awaiting a back (R28, R29). -/
def Intake.unpaired (x : Intake) (p : Page) : Option Page :=
  ((x.queue (x.queueFor p)).getLast?).filter fun f => f.side == .front && !f.noBack

/-- The result code of the first of the checks 2 to 7 that a page record fails (R26 to R29). -/
def Intake.pageCode (x : Intake) (p : Page) : Option Byte :=
  let slot := x.slot? p.job
  if ¬ p.inOrder ∨ slot.any (fun y => decide (4294967295 ≤ y.accepted)) = true then some 0x03
  else if slot = none ∧ x.freeSlot = none then some 0x08
  else if (match x.queueFor p with | .normal => 64 | .priority => 16) ≤ (x.queue (x.queueFor p)).length then some 0x07
  else if slot.any Slot.closed = true then some 0x09
  else if p.side = .back then
    if (x.unpaired p).any (fun f => f.job == p.job && f.set == p.set) = true then none else some 0x0A
  else if x.unpaired p = none then none
  else some 0x0B

/-! ## Invariants -/

/-- The frames of the receive queue are those whose replies are pending or being sent, in the same order, and there are at most
four (R176). -/
def Link.paired (l : Link) : Prop :=
  ((l.sending.filter Sending.reply).map fun x => x.frame.kind).toList ++ l.replies.map Frame.kind
      = l.rxQueue.map (fun f => f.kind ||| 0x80#8) ∧
    l.rxQueue.length ≤ 4

/-- No counter is above the saturation value of its group's width, and each COUNTER WATERMARK condition is active exactly while
the group's watermark is not 0 and some counter has reached it (R161, R163). -/
def Stats.sound (x : Stats) : Prop :=
  ∀ g, (∀ r ∈ x.records g, ∀ c ∈ r, c ≤ (x.groupSet g).width.limit) ∧
    ((x.groupSet g).active = true ↔
      (x.groupSet g).watermark ≠ 0 ∧ ∃ r ∈ x.records g, ∃ c ∈ r, (x.groupSet g).watermark ≤ c)

/-- What the path state says of the drives, the timers, the episode, the hold flag, the clutches and the Sheet Table (03 section
3.1, R45, R47, R50, R52, R60, R111, R128). -/
structure Part.pathSound (p : Part) : Prop where
  feed : p.out.enFeed = p.feed.path.allDrives
  process : p.out.enProcess = p.feed.path.allDrives
  duplex : p.out.enDuplex = p.feed.path.allDrives
  delivery : p.out.enDelivery = (p.feed.path.allDrives || p.feed.path == .halting)
  episode : p.episode.isOpen = p.feed.path.inEpisode
  hold : p.episode.isOpen = true → p.feed.hold = false ∧ p.feed.setEnd = false
  clutch : p.episode.isOpen = true → p.out.clutch = .replicate 5 false
  pick : p.feed.pickTimer.isSome = true → p.feed.path = .running
  holdoff : p.feed.holdoff.isSome = true → p.feed.path = .running
  ramp : p.feed.ramp.isSome = true ↔ p.feed.path = .starting
  runOn : p.feed.runOn.isSome = true ↔ p.feed.path = .draining ∧ p.table.sheets = []
  sweep : p.episode.sweepTimer.isSome = true ↔ p.feed.path = .sweeping
  empty : p.feed.path = .unconfigured ∨ p.feed.path = .idle → p.table.sheets = []

/-- What the Compile Set's state says of its fields, its limits and its outputs (R148, R151, R152, R156). -/
structure Part.finisherSound (p : Part) : Prop where
  empty : p.finisher.state = .empty → p.finisher = .reset
  stapleLimit : p.finisher.stapleLimit.isSome = true ↔ p.finisher.state = .stapling
  ejectLimit : p.finisher.ejectLimit.isSome = true ↔ p.finisher.state = .ejecting
  stapler : p.out.stapler = true ↔ p.finisher.state = .stapling
  ejector : p.out.ejector = true ↔ p.finisher.state = .ejecting
  disturbed : p.finisher.disturbed = true → p.finisher.state ≠ .stapling ∧ p.finisher.state ≠ .ejecting

/-- The Reprint List ascends by origin, a FRONT before the BACK of the same origin (R134). -/
def Planner.ordered (x : Planner) : Prop :=
  x.list.Pairwise fun a b => (a.page.origin.getD 0 < b.page.origin.getD 0) ∨
    (a.page.origin.getD 0 = b.page.origin.getD 0 ∧ (a.page.side = .back → b.page.side = .back))

/-- The queues, the Image Call Queue and the Jam Record List keep within their places, and the legs of both descriptions within
their steps (R5, R31, R92, R116). -/
def Part.withinPlaces (p : Part) : Prop :=
  p.intake.normal.length ≤ 64 ∧ p.intake.priority.length ≤ 16 ∧ p.calls.queue.length ≤ 8 ∧ p.episode.records.length ≤ 4 ∧
    p.episode.overflow ≤ 65535 ∧ p.stored.legsInRange ∧ p.force.legsInRange

/-- A slot whose PROGRESS is pending is held: its release waits for the notice to be sent (R37). -/
def Part.progressHeld (p : Part) : Prop :=
  ∀ i : Fin 8, p.notices.progress[i] = true → (p.intake.slots[i]).isSome = true

/-- No two pending JAM notices tell of one record position: a later one takes the place of the one before it (R116). -/
abbrev Part.jamsApart (p : Part) : Prop := (p.notices.jams.map JamNote.position).Nodup

/-- A page record needs the BACK that follows it (R29). -/
def Page.awaitsBack (x : Page) : Bool := x.side == .front && !x.noBack

/-- A list of page records is made of whole sheets: each FRONT that needs a back stands right before it, of one job and one origin,
and no BACK stands elsewhere. With `waiting`, the last FRONT may still wait for its back (R28, R29). -/
def pairsUp (waiting : Bool) : List Page → Prop
  | [] => True
  | [x] => x.side ≠ .back ∧ (waiting = true ∨ x.awaitsBack = false)
  | x :: y :: rest =>
    if x.awaitsBack then y.side = .back ∧ y.job = x.job ∧ y.origin = x.origin ∧ pairsUp waiting rest
    else x.side ≠ .back ∧ pairsUp waiting (y :: rest)

/-- The page records of the part, place by place (R41). -/
def Part.records (p : Part) : List Page :=
  p.intake.normal ++ p.intake.priority ++ p.planner.list.map Entry.page ++ p.table.sheets.flatMap Sheet.pages
    ++ p.finisher.sheets.flatMap Held.pages

/-- The origins of the sheets' worth of pages outside the queues, one for each. -/
def Part.origins (p : Part) : List (Option Nat) :=
  ((p.planner.list.map Entry.page ++ p.table.sheets.flatMap Sheet.pages ++ p.finisher.sheets.flatMap Held.pages).filter
    fun x => x.side != .back).map Page.origin

/-- The table holds no sheet in UNCONFIGURED and IDLE, nor while the run-on timer that ends in IDLE runs (R46, R47). -/
abbrev Part.emptyAtRest (p : Part) : Prop :=
  (p.feed.path = .unconfigured ∨ p.feed.path = .idle → p.table.sheets = []) ∧
    (p.feed.runOn.isSome = true → p.feed.path = .draining ∧ p.table.sheets = [])

/-- Every page record is in exactly one place and every job slot's counts balance (R41), with what keeps it so: pairs stay whole and
carry one origin each, a sheet's way is that of its destination, a sheet bound for the purge bin carries no page, and a sheet under
FINISHER ENTRY fits the Compile Set. -/
structure Part.pagesSound (p : Part) : Prop where
  table : p.tableSound
  empty : p.emptyAtRest
  valid : p.feed.path ≠ .unconfigured → p.force.badPath = none
  balance : ∀ i : Fin 8, ∀ x ∈ p.intake.slots[i],
    x.accepted = x.delivered + x.abandoned + p.records.countP fun y => y.job == x.job
  oneSlot : ∀ i j : Fin 8, ∀ x ∈ p.intake.slots[i], ∀ y ∈ p.intake.slots[j], x.job = y.job → i = j
  hasSlot : ∀ y ∈ p.records, ∃ i : Fin 8, ∃ x ∈ p.intake.slots[i], x.job = y.job
  queues : pairsUp true p.intake.normal ∧ pairsUp true p.intake.priority
  fresh : ∀ y ∈ p.intake.normal ++ p.intake.priority, y.origin = none
  list : pairsUp false (p.planner.list.map Entry.page) ∧ p.planner.ordered
  origins : p.origins.Nodup ∧ ∀ o ∈ p.origins, ∃ n ∈ o, n < p.feed.nextSheet
  sheets : ∀ x ∈ p.table.sheets, pairsUp false x.pages ∧ x.pages.length ≤ 1 + x.back.toList.length ∧
    (x.back.isSome = true → x.front.any Page.awaitsBack = true) ∧ (∀ y ∈ x.pages, y.job = x.job) ∧
    x.itinerary = p.force.itinerary x.kind x.source x.dest ∧ (x.cond = .purging → x.dest = .purge) ∧
    (x.dest = .purge → x.pages = [])
  held : ∀ h ∈ p.finisher.sheets, pairsUp false h.pages ∧ (h.pages.countP fun y => y.side != .back) ≤ 1 ∧
    ∀ y ∈ h.pages, p.finisher.ident.map Prod.fst = some y.job
  noSet : p.finisher.state = .empty → p.finisher.sheets = []
  halting : p.feed.path = .halting → ∀ x ∈ p.table.sheets, x.cond ≠ .normal
  covers : ∀ st : Fin 24, ∀ c ∈ (p.stations[st]).cover, c.sheet < p.feed.nextSheet ∧
    (p.force.roleOf st = some .finisherEntry → ∀ x ∈ p.table.sheets, x.number = c.sheet → x.cond ≠ .stranded →
      p.finisher.state = .empty ∨ p.finisher.ident = some (x.job, x.set))

/-- The purge count never exceeds the capacity, and leaves room in the bin for every sheet in the path outside dry run (R103,
R104); the capacity stored is the one in force while the path is configured, and TRAY DEF keeps it above the count (R8). -/
structure Part.purgeSound (p : Part) : Prop where
  empty : p.emptyAtRest
  stored : p.feed.path ≠ .unconfigured → p.stored.purge = p.force.purge
  capacity : ∀ x ∈ p.stored.purge, p.gate.purgeCount ≤ x.capacity
  count : p.gate.purgeCount ≤ (p.force.purge.map PurgeSet.capacity).getD 0
  room : p.dry.on = false → p.gate.purgeCount + p.table.sheets.length ≤ (p.force.purge.map PurgeSet.capacity).getD 0

/-- At most D DUPLEX sheets are on their FIRST pass (R57, R59). -/
abbrev Part.loopSound (p : Part) : Prop :=
  p.emptyAtRest ∧ p.table.sheets.countP (fun x => x.kind == .duplex && x.pass == .first) ≤ p.force.timing.loop

/-- The leads of the Merge Reservation List rise, entries of one lead by sheet number, counted from tick `from_` (R63). -/
abbrev inLeadOrder (from_ : Tick) (l : List Resv) : Prop :=
  l.Pairwise fun a b => since from_ a.lead < since from_ b.lead ∨ (a.lead = b.lead ∧ a.sheet < b.sheet)

/-- Every lead lies within a quarter of the tick range after tick `from_`. -/
abbrev nearLeads (from_ : Tick) (l : List Resv) : Prop := ∀ r ∈ l, 0 ≤ since from_ r.lead ∧ since from_ r.lead < 1073741824

/-- A passage through EXIT is ahead of the sheet (R83). -/
def Sheet.beforeExit (x : Sheet) : Bool :=
  x.cond != .stranded && (x.itinerary[x.index]?).any fun y => !y.leg.isDeliver

/-- The sheet is on MAIN: its next step lies there, and it has arrived at the first station of MAIN on this traversal (R83). -/
def Sheet.withinMain (x : Sheet) : Bool :=
  x.beforeExit && x.index != 0 && (x.itinerary[x.index]?).any (fun y => y.leg == .main)
    && (x.itinerary[x.index - 1]?).any fun y => y.leg == .main

/-- `x` is further along MAIN than `y`, or level with it on an earlier anchor (R83). -/
def Sheet.leads (x y : Sheet) : Prop :=
  let at_ := fun z : Sheet => ((z.itinerary[z.index]?).map Step.pos).getD 0
  at_ y < at_ x ∨ (at_ x = at_ y ∧ isBefore x.anchor y.anchor = true)

/-- `x` is the next sheet for EXIT (R83). -/
def Part.nextAtExit (p : Part) (x : Sheet) : Prop :=
  x ∈ p.table.sheets ∧ x.beforeExit = true ∧
    if ∃ y ∈ p.table.sheets, y.withinMain = true then
      x.withinMain = true ∧ ∀ y ∈ p.table.sheets, y ≠ x → y.withinMain = true → x.leads y
    else (p.feed.merge.find? fun r => p.table.sheets.any fun y => y.number == r.sheet && y.beforeExit).map Resv.sheet
      = some x.number

/-- `x` is the next sheet for the PURGE GATE (R84). -/
def Part.nextAtPurge (p : Part) (x : Sheet) : Prop :=
  let short := fun y : Sheet =>
    y.cond != .stranded && !((y.itinerary.take y.index).any fun z => p.force.roleOf z.station == some .purgeGate)
  x ∈ p.table.sheets ∧ short x = true ∧ ∀ y ∈ p.table.sheets, y.number < x.number → short y = false

/-- Both diverters fit the sheets they wait for: with every door closed and its station uncovered, the EXIT gate is set for the pass
of the next sheet for EXIT and the purge diverter for the destination of the next sheet for the PURGE GATE (R85, R86). -/
structure Part.gatesSound (p : Part) : Prop where
  table : p.tableSound
  empty : p.emptyAtRest
  valid : p.feed.path ≠ .unconfigured → p.force.badPath = none
  still : p.feed.path = .held ∨ p.feed.path = .sweeping ∨ p.feed.path = .resumable → ∀ x ∈ p.table.sheets, x.cond = .stranded
  halting : p.feed.path = .halting → ∀ x ∈ p.table.sheets, x.cond = .runningOut ∨ x.cond = .stranded
  exit : p.anyDoorOpen = false → p.uncovered .exit = true → ∀ x, p.nextAtExit x → p.out.exitGate = decide (x.pass = .first)
  purge : p.anyDoorOpen = false → p.uncovered .purgeGate = true →
    ∀ x, p.nextAtPurge x → p.out.purgeGate = decide (x.dest = .purge)

/-- Every learned offset lies between −Omax and +Omax in force, and no history is longer than the window (R70). -/
def Part.stationsSound (p : Part) : Prop :=
  1 ≤ p.stored.timing.window ∧ 1 ≤ p.force.timing.window ∧
    ∀ st : Fin 24, -(p.force.timing.omax : Int) ≤ (p.stations[st]).offset ∧ (p.stations[st]).offset ≤ p.force.timing.omax ∧
      (p.stations[st]).history.length ≤ p.force.timing.window

end Sys2Proof.Machine
end

