-- ==== Sys2Proof/Certificates/Slice0/Obligations.lean ====
section
/-! DEFINITION. The statements for the provers. Each says what a command does (its next state, and what it leaves alone), what the
part does of itself, or what every step keeps. `p.answered t kind body reply` is `p` with nothing changed but the tick and the Link
Unit, where the frame has joined the receive queue and the reply stands behind those pending. -/

open Sys2Proof Sys2Proof.Machine

/-! ## The step -/

/-- The command at the front of the queue is taken and run with the queue's rest. -/
def Obligations.StepTakesFront : Prop :=
  ∀ (c : Instr) (rest : List Instr) (s : State), step { s with pending := c :: rest } = exec c { s with pending := rest }

/-- On an empty queue one path tick passes (entry 3, the model's choice). Every input line is sampled: the count of samples in a
row that differ from its filtered level rises or falls back to 0, and with no filter satisfied nothing else moves. A line whose
filter is satisfied, and alone, changes its level and brings its user the command of its edge; one without a role moves its
level alone. (Filter length 0 asks for one sample.) -/
def Obligations.EmptyQueueTicks : Prop :=
  ∀ p : Part, ∃ q : Part, step ⟨[], p⟩ = .next ⟨[], q⟩ ∧
    let reads := fun i : Fin 32 => p.lines.pin[i] == (p.force.inputs[i]).high
    let run := fun i : Fin 32 => if reads i = p.lines.level[i] then 0 else p.lines.run[i] + 1
    let due := fun i : Fin 32 => 1 ≤ run i ∧ (p.force.inputs[i]).filter ≤ run i
    let sampledPart := { p with tick := p.tick + 1, lines := { p.lines with run := .ofFn run } }
    ((∀ i, ¬ due i) → q.tick = p.tick + 1 ∧ q.lines = sampledPart.lines ∧ (p.link.sending.isSome = true → q = sampledPart)) ∧
    ∀ i, due i → (∀ j, j ≠ i → ¬ due j) →
      (p.force.roleOfLine i = none → q.tick = p.tick + 1 ∧
        q.lines = ⟨p.lines.pin, p.lines.level.set i (reads i), (Vector.ofFn run).set i 0⟩) ∧
      ∀ r, p.force.roleOfLine i = some r → exec (r.edgeCommand (p.tick + 1) (reads i)) ⟨[], sampledPart⟩ = .next ⟨[], q⟩

/-! ## Requests in general (12.3) -/

/-- The path states in which a request of a kind is refused before its body is read, with the result code (12.3 and the rule of
each request). -/
def refusedIn (kind : Byte) (path : PathState) : Option Byte :=
  match kind.toNat, path with
  -- the definition requests, NOTICE MASK and PATH CLOSE: UNCONFIGURED and IDLE alone
  | 1, x | 2, x | 3, x | 4, x | 5, x | 6, x | 7, x | 8, x | 9, x | 10, x =>
    if x = .unconfigured ∨ x = .idle then none else some 0x05
  -- PAGE, ABANDON JOB, RESYNC STATION and PATH RESET: NOT CONFIGURED in UNCONFIGURED
  | 11, x | 16, x | 17, x | 28, x => if x = .unconfigured then some 0x04 else none
  -- HOLD and CONTINUE
  | 13, x | 14, x =>
    if x = .unconfigured then some 0x04
    else if x = .halting ∨ x = .held ∨ x = .sweeping ∨ x = .resumable then some 0x05 else none
  -- STOP
  | 15, x => if x = .unconfigured then some 0x04 else if x = .idle ∨ x = .held ∨ x = .resumable then some 0x05 else none
  -- SWEEP
  | 18, x => if x = .unconfigured then some 0x04 else if x = .held then none else some 0x05
  -- PLAN READ and RESUME
  | 19, x | 20, x => if x = .unconfigured then some 0x04 else if x = .resumable then none else some 0x05
  -- DRY RUN and FAULT PLAN: IDLE alone
  | 26, x | 27, x => if x = .idle then none else some 0x05
  | _, _ => none

/-- A request whose body length is not the catalogue's is refused with BAD LENGTH and changes nothing else.

A KIND that is no request's is refused with UNKNOWN KIND whatever its body.

A request in a path state that does not take it is refused with NOT CONFIGURED or WRONG STATE and changes nothing else. (That
the path state is judged before the body is read is the model's choice, DEDUCED: entry 10.) -/
def Obligations.RequestsRefused : Prop :=
  (∀ (c : Instr) (s : State) (t : Tick) (kind : Byte) (body : List Byte), c.request? = some (t, kind, body) →
     s.part.canAccept → ¬ catalogueLength kind body.length →
     exec c s = .next { s with part := s.part.answered t kind body [0x02] }) ∧
  (∀ (s : State) (t : Tick) (kind : Byte) (body : List Byte), ¬ inRange 1 28 kind.toNat → s.part.canAccept →
     exec (.unknownKind t kind body) s = .next { s with part := s.part.answered t kind body [0x01] }) ∧
  ∀ (c : Instr) (s : State) (t : Tick) (kind : Byte) (body : List Byte) (code : Byte), c.request? = some (t, kind, body) →
    s.part.canAccept → catalogueLength kind body.length → refusedIn kind s.part.feed.path = some code →
    exec c s = .next { s with part := s.part.answered t kind body [code] }

/-! ## Definition requests (R2 to R14) -/

/-- A definition request's state after it was taken: the stored description edited, IDLE left for UNCONFIGURED, the answer DONE,
and nothing else changed. -/
def defined (s : State) (t : Tick) (kind : Byte) (body : List Byte) (stored : Desc) : State :=
  { s with part := { (s.part.answered t kind body [0x00]).unconfigure with stored := stored } }

/-- STATION DEF replaces or removes the stored station its body lays out, and refuses any other body with BAD VALUE.

LEG DEF replaces the whole stored leg its body lays out, and refuses any other body with BAD VALUE. (That a step count byte
which is not the number of steps carried is a BAD VALUE is the model's choice, DEDUCED: entry 12.)

TRAY DEF replaces the stored settings of one tray unit, bin or the purge bin, and refuses any other body; so it does a purge
capacity below the purge count.

DOOR DEF defines or removes a stored door; a door id, an action, a line or a finisher flag out of range is refused (with REMOVE
the line and the flag are the model's choice to check, entry 13, and are left out here). -/
def Obligations.PathDefsTaken : Prop :=
  (∀ (s : State) (t : Tick) (b : List Byte), s.part.canAccept → refusedIn 0x01 s.part.feed.path = none → b.length = 7 →
     (∀ x, StationBody x b → exec (.stationDef t b) s = .next (defined s t 0x01 b
       { s.part.stored with stations := s.part.stored.stations.set x.1 x.2 })) ∧
     ((∀ x, ¬ StationBody x b) → exec (.stationDef t b) s = .next { s with part := s.part.answered t 0x01 b [0x03] })) ∧
  (∀ (s : State) (t : Tick) (b : List Byte), s.part.canAccept → refusedIn 0x02 s.part.feed.path = none →
     catalogueLength 0x02 b.length →
     (∀ x, LegBody x b → exec (.legDef t b) s = .next (defined s t 0x02 b
       { s.part.stored with legs := s.part.stored.legs.set x.1.pos (some x.2) })) ∧
     ((∀ x, ¬ LegBody x b) → exec (.legDef t b) s = .next { s with part := s.part.answered t 0x02 b [0x03] })) ∧
  (∀ (s : State) (t : Tick) (b : List Byte), s.part.canAccept → refusedIn 0x04 s.part.feed.path = none → b.length = 5 →
     (∀ x, UnitBody s.part.gate.purgeCount x b → exec (.trayDef t b) s = .next (defined s t 0x04 b
       (match x with
         | .tray u y => { s.part.stored with trays := s.part.stored.trays.set u (some y) }
         | .bin i line => { s.part.stored with bins := s.part.stored.bins.set i (some line) }
         | .purge y => { s.part.stored with purge := some y }))) ∧
     ((∀ x, ¬ UnitBody s.part.gate.purgeCount x b) →
       exec (.trayDef t b) s = .next { s with part := s.part.answered t 0x04 b [0x03] })) ∧
  ∀ (s : State) (t : Tick) (b : List Byte), s.part.canAccept → refusedIn 0x05 s.part.feed.path = none → b.length = 5 →
    (∀ x, DoorBody x b → exec (.doorDef t b) s = .next (defined s t 0x05 b
      { s.part.stored with doors := s.part.stored.doors.set x.1 x.2 })) ∧
    ((∀ x, ¬ DoorBody x b) → (b[1]?).map BitVec.toNat ≠ some 1 →
      exec (.doorDef t b) s = .next { s with part := s.part.answered t 0x05 b [0x03] })

/-- DRIVE DEF replaces the stored drive settings, and refuses a body with a field out of range.

TIMING DEF replaces every stored timing setting, and refuses a body with a field out of range.

FINISHER DEF replaces the stored finisher settings while the Compile Set is EMPTY, refuses a body out of range or with a nominal
staple time not below the staple limit, and is refused with WRONG STATE while the Compile Set is not EMPTY, whatever its body
(that the state is judged before the body is read is the model's choice, DEDUCED: entry 10).

LINE DEF replaces the stored setting of one input or output line, and refuses any other body. -/
def Obligations.SettingDefsTaken : Prop :=
  (∀ (s : State) (t : Tick) (b : List Byte), s.part.canAccept → refusedIn 0x03 s.part.feed.path = none → b.length = 22 →
     (∀ x, DriveBody x b → exec (.driveDef t b) s = .next (defined s t 0x03 b { s.part.stored with drive := some x })) ∧
     ((∀ x, ¬ DriveBody x b) → exec (.driveDef t b) s = .next { s with part := s.part.answered t 0x03 b [0x03] })) ∧
  (∀ (s : State) (t : Tick) (b : List Byte), s.part.canAccept → refusedIn 0x06 s.part.feed.path = none → b.length = 24 →
     (∀ x, TimingBody x b → exec (.timingDef t b) s = .next (defined s t 0x06 b { s.part.stored with timing := x })) ∧
     ((∀ x, ¬ TimingBody x b) → exec (.timingDef t b) s = .next { s with part := s.part.answered t 0x06 b [0x03] })) ∧
  (∀ (s : State) (t : Tick) (b : List Byte), s.part.canAccept → refusedIn 0x07 s.part.feed.path = none → b.length = 16 →
     (s.part.finisher.state = .empty →
       (∀ x, FinisherBody x b → exec (.finisherDef t b) s = .next (defined s t 0x07 b
         { s.part.stored with capacity := x.1, finisher := some x.2 })) ∧
       ((∀ x, ¬ FinisherBody x b) → exec (.finisherDef t b) s = .next { s with part := s.part.answered t 0x07 b [0x03] })) ∧
     (s.part.finisher.state ≠ .empty → exec (.finisherDef t b) s = .next { s with part := s.part.answered t 0x07 b [0x05] })) ∧
  ∀ (s : State) (t : Tick) (b : List Byte), s.part.canAccept → refusedIn 0x08 s.part.feed.path = none → b.length = 4 →
    (∀ x, LineBody x b → exec (.lineDef t b) s = .next (defined s t 0x08 b
      (match x with
        | .inl (line, y) => { s.part.stored with inputs := s.part.stored.inputs.set line y }
        | .inr (line, high) => { s.part.stored with restHigh := s.part.stored.restHigh.set line high }))) ∧
    ((∀ x, ¬ LineBody x b) → exec (.lineDef t b) s = .next { s with part := s.part.answered t 0x08 b [0x03] })

/-! ## NOTICE MASK and PATH CLOSE (R178, R15 to R17) -/

/-- NOTICE MASK sets the seven enable bits, withdraws the pending notices of the kinds it disables, and frees the Job Table
slots that only a withdrawn PROGRESS still held. -/
def Obligations.NoticeMaskTaken : Prop :=
  ∀ (w : List Instr) (p : Part) (t : Tick) (m : Byte), p.canAccept → refusedIn 0x09 p.feed.path = none →
    exec (.noticeMask t [m]) ⟨w, p⟩ = .next ⟨w, { p.answered t 0x09 [m] [0x00] with
      mask := ⟨m.getLsbD 0, m.getLsbD 1, m.getLsbD 2, m.getLsbD 3, m.getLsbD 4, m.getLsbD 5, m.getLsbD 6⟩
      notices := { p.notices with
        pathState := p.notices.pathState && m.getLsbD 0
        door := p.notices.door.map (· && m.getLsbD 1)
        spoil := if m.getLsbD 2 then p.notices.spoil else none
        setDone := if m.getLsbD 3 then p.notices.setDone else none
        progress := p.notices.progress.map (· && m.getLsbD 4)
        trayEmpty := p.notices.trayEmpty.map (· && m.getLsbD 5)
        binFull := p.notices.binFull.map (· && m.getLsbD 5)
        purgeFull := p.notices.purgeFull && m.getLsbD 5
        outOfStep := p.notices.outOfStep.map (· && m.getLsbD 5)
        wmStation := if m.getLsbD 5 then p.notices.wmStation else none
        wmTray := if m.getLsbD 5 then p.notices.wmTray else none
        wmPath := if m.getLsbD 5 then p.notices.wmPath else none
        linkFault := p.notices.linkFault && m.getLsbD 5
        exhausted := p.notices.exhausted && m.getLsbD 5
        lowNormal := p.notices.lowNormal && m.getLsbD 6
        lowPriority := p.notices.lowPriority && m.getLsbD 6 }
      intake := { p.intake with slots := .ofFn fun i : Fin 8 => (p.intake.slots[i]).filter fun x =>
        !(x.closed && x.accepted == x.delivered + x.abandoned && !((p.notices.progress[i]) && m.getLsbD 4)) } }⟩

/-- A PATH CLOSE whose checks pass puts the stored description in force and resets or keeps each station's learned state; the
lines it changes are read afresh, and DOOR, TRAY EMPTY, BIN FULL and PURGE FULL judged. With no page waiting and no finisher
fault held over the path is IDLE. (What INTAKE LOW, TRAY EMPTY and BIN FULL do besides is entries 34 and 35.)

A finisher fault held over while the path was UNCONFIGURED opens its episode at the PATH CLOSE: DOOR OPEN with that tick for a
disturbed Compile Set that holds sheets, STAPLE FAIL with the tick of the limit expiry held over for another one FAULTED or
RETAINED. (The tick of the STAPLE FAIL: entry 43, the model's reading.) -/
def Obligations.PathCloseTaken : Prop :=
  (∀ (w : List Instr) (p : Part) (t : Tick), p.canAccept → refusedIn 0x0A p.feed.path = none → p.stored.badPath = none →
     Completes (.pathClose t []) ⟨w, p⟩ fun q =>
       q.tick = laterOf p.tick t ∧ q.link = p.linkAfter 0x0A [] [0x00] ∧ q.stored = p.stored ∧ q.force = p.stored ∧
       q.mask = p.mask ∧ q.lines.pin = p.lines.pin ∧
       (∀ i : Fin 32, q.lines.level[i] =
         if p.force.roleOfLine i ≠ p.stored.roleOfLine i ∨ p.force.inputs[i] ≠ p.stored.inputs[i] then
           p.lines.pin[i] == (p.stored.inputs[i]).high
         else p.lines.level[i]) ∧
       (∀ st : Fin 24,
         let x := p.stations[st]
         let y := q.stations[st]
         if (p.force.stations[st]).map (fun d => (d.line, d.role)) = (p.stored.stations[st]).map (fun d => (d.line, d.role)) then
           y.offset = max (-(p.stored.timing.omax : Int)) (min x.offset p.stored.timing.omax) ∧
           y.history = x.history.drop (x.history.length - p.stored.timing.window) ∧ y.outOfStep = x.outOfStep ∧
           y.resync = x.resync
         else y.offset = 0 ∧ y.history = [] ∧ y.outOfStep = false ∧ y.resync = false) ∧
       (∀ d : Fin 8, q.episode.doorActive[d] = q.doorIsOpen d) ∧ (∀ u : Fin 5, q.feed.trayEmpty[u] = !q.trayAvailable u) ∧
       (∀ i : Fin 2, q.feed.binFull[i] = q.binIsFull i) ∧ q.gate.purgeCount = p.gate.purgeCount ∧
       q.gate.purgeFull = !q.reserveMet ∧
       (p.noPages → (p.feed.path = .idle ∨ (p.finisher.state ≠ .faulted ∧ p.finisher.state ≠ .retained ∧
           p.finisher.disturbed = false)) → q.feed.path = .idle)) ∧
  ∀ (w : List Instr) (p : Part) (t : Tick) (kind : JamKind), p.canAccept → p.feed.path = .unconfigured →
    p.stored.badPath = none →
    (if p.finisher.disturbed = true ∧ p.finisher.sheets ≠ [] then kind = .doorOpen
      else (p.finisher.state = .faulted ∨ p.finisher.state = .retained) ∧ kind = .stapleFail) →
    Completes (.pathClose t []) ⟨w, p⟩ fun q =>
      let now := laterOf p.tick t
      let declared := if kind = .stapleFail then p.episode.heldOver.getD now else now
      p.openedWith ⟨kind, none, none, some 8, none, declared, none, none⟩ q ∧ q.episode.heldOver = none ∧
      q.episode.areas.getLsbD 8 = true ∧ (q.feed.path = .held ∨ q.feed.path = .sweeping ∨ q.feed.path = .resumable)

/-- The legs in the order of R15. -/
def legOrder : List LegName :=
  [.tray0, .tray1, .tray2, .tray3, .insert, .main, .duplex, .deliverBin0, .deliverBin1, .deliverFinisher, .deliverPurge]

/-- The roles one station each must hold, in the order of R3. -/
def roleOrder : List Role := [.registration, .exit, .purgeGate, .binEntry0, .binEntry1, .finisherEntry, .purgeEntry]

/-- Check 1 of PATH CLOSE fails at the item a detail byte names: the drives, the finisher, the units in their order, the legs in
theirs, then a role no station holds or the second station that holds one (R16). -/
def missing (d : Desc) (detail : Nat) : Prop :=
  if d.drive = none then detail = 0x40
  else if d.finisher = none then detail = 0x41
  else
    (∃ i : Fin 8, firstFailing (List.finRange 8) (fun i => d.unitSet i = true) i ∧ detail = 0x50 + i.val) ∨
    allPass (List.finRange 8) (fun i => d.unitSet i = true) ∧
      ((∃ l : LegName, firstFailing legOrder (fun l => (d.legs[l.pos]).isSome = true) l ∧ detail = 0x20 + l.pos.val) ∨
      allPass legOrder (fun l => (d.legs[l.pos]).isSome = true) ∧
        ∃ r : Role, firstFailing roleOrder (fun r => d.holding r = 1) r ∧
          if d.holding r = 0 then detail = 0x60 + r.ctorIdx
          else ∃ st : Fin 24, d.roleOf st = some r ∧ detail = st.val ∧
            (List.finRange 24).countP (fun k => decide (k < st) && d.roleOf k == some r) = 1)

/-- The six checks of PATH CLOSE: check `k` fails with a detail byte (R16, R17). Each presumes those before it. That checks 2
and 3 look at their legs before the stations, where a description fails in both, is the model's choice (entry 14). -/
def fails (d : Desc) (k detail : Nat) : Prop :=
  let inOneLeg := fun st : Fin 24 => (d.stations[st]).isSome = true → ∃ l : LegName, st ∈ d.way l
  let inOneTail := fun st : Fin 24 => ∀ l m : LegName, l.isDeliver = true → m.isDeliver = true → l ≠ m →
    ¬ (d.beyondGate l st ∧ d.beyondGate m st)
  let oneInput := fun i : Fin 32 => ∀ r ∈ allInputRoles, ∀ r' ∈ allInputRoles, d.lineOf r = some i → d.lineOf r' = some i → r = r'
  let oneOutput := fun o : Fin 24 => ∀ r ∈ allOutputRoles, ∀ r' ∈ allOutputRoles,
    d.outLineOf r = some o → d.outLineOf r' = some o → r = r'
  match k with
  | 1 => missing d detail
  | 2 => (∃ l : LegName, firstFailing legOrder d.legSound l ∧ detail = 0x20 + l.pos.val) ∨
    allPass legOrder d.legSound ∧ ∃ st : Fin 24, firstFailing (List.finRange 24) inOneLeg st ∧ detail = st.val
  | 3 => (∃ l : LegName, firstFailing (legOrder.drop 7) d.agrees l ∧ detail = 0x20 + l.pos.val) ∨
    allPass (legOrder.drop 7) d.agrees ∧ ∃ st : Fin 24, firstFailing (List.finRange 24) inOneTail st ∧ detail = st.val
  | 4 => ∃ st : Fin 24, firstFailing (List.finRange 24) d.driveFits st ∧ detail = st.val
  | 5 => (∃ i : Fin 32, firstFailing (List.finRange 32) oneInput i ∧ detail = i.val) ∨
    allPass (List.finRange 32) oneInput ∧ ∃ o : Fin 24, firstFailing (List.finRange 24) oneOutput o ∧ detail = 0x80 + o.val
  | 6 => (∃ a : Fin 8, firstFailing (List.finRange 8) d.exposed a ∧ detail = a.val) ∨
    allPass (List.finRange 8) d.exposed ∧ (∀ i : Fin 8, ∀ y ∈ d.doors[i], y.finisher = false) ∧ detail = 8
  | _ => False

/-- A PATH CLOSE that fails a check is refused with BAD PATH, the reason and the detail, and changes nothing else.

A description whose legs have 1 to 8 steps each, as LEG DEF leaves every one (an invariant of both descriptions: the statement
about lists), is refused by the first of the six checks that fails, with its detail, and passes where none fails. (Which detail
checks 2 and 3 name where a leg fails and a station does too, the leg, is the model's choice, DEDUCED: entry 14.) -/
def Obligations.PathCloseChecked : Prop :=
  (∀ (w : List Instr) (p : Part) (t : Tick) (reason detail : Nat), p.canAccept → refusedIn 0x0A p.feed.path = none →
     p.stored.badPath = some (reason, detail) →
     inRange 1 6 reason ∧
     exec (.pathClose t []) ⟨w, p⟩ =
       .next ⟨w, p.answered t 0x0A [] [0x06, BitVec.ofNat 8 reason, BitVec.ofNat 8 detail]⟩) ∧
  ∀ d : Desc, d.legsInRange →
    (∀ reason detail, d.badPath = some (reason, detail) ↔
      fails d reason detail ∧ ∀ k, k < reason → ∀ e, ¬ fails d k e) ∧
    (d.badPath = none ↔ ∀ k e, ¬ fails d k e)

/-! ## Pages and jobs (R26 to R33, R40) -/

/-- A PAGE that passes the seven checks is appended to its job's queue and counted by its job's slot, which it may take and may
close. In RUNNING or DRAINING the pick it makes possible may take up to two records from the head of a queue. (What is kept of a
BACK's tray, length, class and destination is entry 22.)

A PAGE that fails a check is refused with that check's code and changes nothing else; so is one whose side byte names no
side. -/
def Obligations.PageJudged : Prop :=
  (∀ (w : List Instr) (p : Part) (t : Tick) (b : List Byte) (x : Page), p.canAccept → p.feed.path ≠ .unconfigured →
     PageBody x b → p.intake.pageCode x = none →
     Completes (.page t b) ⟨w, p⟩ fun q =>
       let own := p.intake.queueFor x
       let slot := (p.intake.slot? x.job).getD ⟨x.job, own, 0, 0, 0, none, false⟩
       p.repliedTo t 0x0B b [0x00] q ∧
       (∀ c : Queue, ∃ k, k ≤ 2 ∧ (k ≠ 0 → p.feed.path = .running ∨ p.feed.path = .draining) ∧
         q.intake.queue c = (if c = own then p.intake.queue c ++ [x] else p.intake.queue c).drop k) ∧
       ∃ i : Fin 8, (p.intake.slotOf x.job = some i ∨ (p.intake.slotOf x.job = none ∧ p.intake.freeSlot = some i)) ∧
         q.intake.slots = p.intake.slots.set i
           (some { slot with accepted := slot.accepted + 1, closed := slot.closed || x.lastOfJob })) ∧
  ∀ (w : List Instr) (p : Part) (t : Tick) (b : List Byte) (code : Byte), p.canAccept → p.feed.path ≠ .unconfigured →
    b.length = 14 →
    ((∃ x, PageBody x b ∧ p.intake.pageCode x = some code) ∨ (4 ≤ (b.getD 7 0).toNat ∧ code = 0x03)) →
    exec (.page t b) ⟨w, p⟩ = .next ⟨w, p.answered t 0x0B b [code]⟩

/-- A page record with its image-ready flag set where it carries an identifier (R33). -/
def readied (id : Nat) (x : Page) : Page := if x.id = id then { x with ready := true } else x

/-- The sides of a sheet with the flags set of the pages that carry an identifier and are not COMMITTED (R33). -/
def readiedSides (id : Nat) (x : Sheet) : Nat × Option Page × Option Page :=
  (x.number, if x.frontSide = .committed then x.front else x.front.map (readied id),
    if x.backSide = .committed then x.back else x.back.map (readied id))

/-- IMAGE READY sets the flag of every held record that carries the identifier in the queues, in the Reprint List and on a side
not yet COMMITTED, where there is one in any of these places, and is refused with UNKNOWN PAGE where there is none. A pick it makes possible may take records from the head
of one of the lists and add its sheet. (In HELD it is taken alike; what a dry-run plan build that follows at once there does to
the list and the sheets is left to the statement about plan builds.) -/
def Obligations.ImageReady : Prop :=
  ∀ (w : List Instr) (p : Part) (t : Tick) (b : List Byte) (id : Nat), p.canAccept → id < 4294967296 → b = four id →
    ((∃ c : Queue, ∃ x ∈ p.intake.queue c, x.id = id) ∨ (∃ y ∈ p.planner.list, y.page.id = id) ∨
        (∃ x ∈ p.table.sheets, (∃ y ∈ x.front, y.id = id ∧ x.frontSide ≠ .committed) ∨
          ∃ y ∈ x.back, y.id = id ∧ x.backSide ≠ .committed) →
      Completes (.imageReady t b) ⟨w, p⟩ fun q =>
        p.repliedTo t 0x0C b [0x00] q ∧
        (∀ c : Queue, ∃ k, k ≤ 2 ∧ (k ≠ 0 → p.feed.path = .running ∨ p.feed.path = .draining) ∧
          q.intake.queue c = ((p.intake.queue c).map (readied id)).drop k) ∧
        q.intake.slots = p.intake.slots ∧
        (p.feed.path ≠ .held ∨ p.dry.on = false →
          (∃ k, k ≤ 2 ∧ (k ≠ 0 → p.feed.path = .running ∨ p.feed.path = .draining) ∧
            q.planner.list = (p.planner.list.map fun y => { y with page := readied id y.page }).drop k) ∧
          (q.table.sheets.take p.table.sheets.length).map (fun y => (y.number, y.front, y.back))
            = p.table.sheets.map (readiedSides id) ∧
          q.table.sheets.length ≤ p.table.sheets.length + 1)) ∧
    ((∀ c : Queue, ∀ x ∈ p.intake.queue c, x.id ≠ id) → (∀ y ∈ p.planner.list, y.page.id ≠ id) →
      (∀ x ∈ p.table.sheets, (∀ y ∈ x.front, y.id = id → x.frontSide = .committed) ∧
        (∀ y ∈ x.back, y.id = id → x.backSide = .committed)) →
      exec (.imageReady t b) ⟨w, p⟩ = .next ⟨w, p.answered t 0x0C b [0x0D]⟩)

/-- The sheets ABANDON JOB reaches: the job's STRANDED sheets not yet released in HALTING, HELD and SWEEPING; in RUNNING and
DRAINING those on their way that are not bound for the purge bin already and have not reached the PURGE GATE (R40). -/
def reached (p : Part) (job : Nat) (y : Sheet) : Bool :=
  y.job == job &&
    if p.feed.path = .halting ∨ p.feed.path = .held ∨ p.feed.path = .sweeping then y.cond == .stranded && !y.released
    else (p.feed.path == .running || p.feed.path == .draining) && y.cond != .stranded && y.cond != .purging
      && (y.itinerary.take y.index).all fun z => p.force.roleOf z.station != some .purgeGate

/-- The number of page records ABANDON JOB removes (R40). -/
def removedBy (p : Part) (job : Nat) : Nat :=
  ((p.intake.normal ++ p.intake.priority ++ p.planner.list.map Entry.page).filter fun x => x.job == job).length
    + ((p.table.sheets.filter (reached p job)).flatMap fun y => y.front.toList ++ y.back.toList).length
    + if p.finisher.ident.map Prod.fst = some job then (p.finisher.sheets.flatMap Held.pages).length else 0

/-- ABANDON JOB removes the job's records from its queue, the Reprint List, the sheets it reaches and the Compile Set, counts
their number abandoned and closes the slot, which is freed where its counts then balance and no PROGRESS for it is pending;
other slots stay. A sheet reached in RUNNING and DRAINING becomes PURGING, a STRANDED one loses its pages, and every other sheet
stays as it is, unless the request starts an IDLE path and a station reads paper (RESIDUAL). In HELD in dry run, clear, with
auto-sweep ON and no bar, the sweep that follows at once builds the plan of what the request left. In RESUMABLE a list it
changes is a new plan. INTAKE LOW of the slot's queue is judged. Without a slot it is refused with UNKNOWN JOB. -/
def Obligations.AbandonJob : Prop :=
  ∀ (w : List Instr) (p : Part) (t : Tick) (job : Byte), p.canAccept → p.feed.path ≠ .unconfigured → p.tableSound →
    (p.intake.slotOf job.toNat = none → exec (.abandonJob t [job]) ⟨w, p⟩ = .next ⟨w, p.answered t 0x10 [job] [0x0C]⟩) ∧
    ∀ (i : Fin 8), p.intake.slotOf job.toNat = some i → ∀ x ∈ p.intake.slots[i],
      Completes (.abandonJob t [job]) ⟨w, p⟩ fun q =>
        let n := removedBy p job.toNat
        let builds := p.feed.path = .held ∧ p.dry.on = true ∧ p.clearance ∧ p.force.timing.autoSweep = true ∧
          p.episode.barred = false
        p.repliedTo t 0x10 [job] (0x00 :: bytesOf 2 n) q ∧
        (∀ c : Queue, ∃ k, k ≤ 2 ∧ (k ≠ 0 → p.feed.path = .running ∨ p.feed.path = .draining) ∧
          q.intake.queue c = ((p.intake.queue c).filter fun y => y.job != job.toNat).drop k) ∧
        (match x.queue with
          | .normal => q.intake.lowNormal = decide (q.intake.normal.length < p.force.timing.markNormal)
          | .priority => q.intake.lowPriority = decide (q.intake.priority.length < p.force.timing.markPriority)) ∧
        (¬ builds → (p.feed.path = .idle → q.feed.path.inEpisode = false) →
          (∃ k, k ≤ 2 ∧ (k ≠ 0 → p.feed.path = .running ∨ p.feed.path = .draining) ∧
            q.planner.list = (p.planner.list.filter fun y => y.page.job != job.toNat).drop k) ∧
          (∀ y ∈ p.table.sheets,
            (if reached p job.toNat y = true then
              if y.cond = .stranded then { y with front := none, back := none, released := true } else p.spoiled y
            else y) ∈ q.table.sheets)) ∧
        (builds → p.episode.isOpen = true →
          q.feed.path = .resumable ∧ q.table.sheets = p.table.sheets.filter (fun y => y.cond != .stranded) ∧
          q.planner.list.Perm ((p.planner.list.filter fun y => y.page.job != job.toNat)
            ++ ((p.table.sheets.filter fun y => y.cond == .stranded && !reached p job.toNat y).flatMap Sheet.pages).map
              (⟨·, .stranded⟩)
            ++ if p.finisher.disturbed = true ∧ p.finisher.ident.map Prod.fst ≠ some job.toNat then
                (p.finisher.sheets.flatMap Held.pages).map (⟨·, .setRestart⟩) else [])) ∧
        (p.feed.path = .resumable → if (∃ y ∈ p.planner.list, y.page.job = job.toNat) then
            q.planner.revision = p.planner.revision + 1 ∧ q.planner.readThrough = false ∧ q.notices.planReady = true
          else q.planner = p.planner) ∧
        (∀ y ∈ p.table.sheets, reached p job.toNat y = true → ∀ z ∈ q.table.sheets, z.number = y.number →
          z.front = none ∧ z.back = none ∧ z.released = true) ∧
        (p.finisher.ident.map Prod.fst = some job.toNat → (∀ h ∈ q.finisher.sheets, h.pages = []) ∧ q.finisher.state ≠ .faulted ∧
          (q.finisher.abandoned = true ∨ q.finisher = .reset)) ∧
        q.intake.slots[i] = (if x.accepted = x.delivered + (x.abandoned + n) ∧ p.notices.progress[i] = false ∧
            (n = 0 ∨ p.mask.progress = false) then none
          else some { x with abandoned := x.abandoned + n, closed := true }) ∧
        ∀ j : Fin 8, j ≠ i → q.intake.slots[j] = p.intake.slots[j]

/-! ## HOLD, CONTINUE, STOP and RESYNC STATION (R48, R49, R120, R81) -/

/-- The blocks a HOLD leaves alone. -/
def heldStill (p q : Part) : Prop :=
  q.intake = p.intake ∧ q.table = p.table ∧ q.planner = p.planner ∧ q.calls = p.calls ∧ q.stations = p.stations ∧
    q.episode = p.episode ∧ q.gate = p.gate

/-- The path after the hold flag is set: RUNNING drains at once. -/
def drained (p q : Part) : Prop :=
  q.feed.path = (if p.feed.path = .running then .draining else p.feed.path) ∧
    (p.feed.path = .running → q.feed.pickTimer = none ∧ q.feed.holdoff = none)

/-- HOLD AT SHEET sets the hold flag; HOLD AT SET END sets it too unless the last page bound left its set open, and then sets
the set-end mark, which the pick of a last page of a set turns into the hold flag (from IDLE a start may come with it, into a
RESIDUAL episode). Another mode is refused with BAD VALUE (R48 gives no refusal for a mode: that is the model's choice, DEDUCED,
entry 11).

CONTINUE clears the hold flag and the set-end mark, and the path is judged again: without a page it stays where it is, and from
IDLE it starts where the start conditions hold.

STOP opens a HOST STOP episode in STARTING, RUNNING and DRAINING and extends the open one in HALTING, stranding every moving
sheet; in SWEEPING it abandons the sweep and bars the next.

RESYNC STATION sets the resynchronisation mark of a station defined in force, and refuses any other with BAD VALUE. -/
def Obligations.OperatorRequests : Prop :=
  (∀ (w : List Instr) (p : Part) (t : Tick), p.canAccept → refusedIn 0x0D p.feed.path = none →
     Completes (.hold t [0x00]) ⟨w, p⟩ (fun q =>
       p.repliedTo t 0x0D [0x00] [0x00] q ∧ q.feed.hold = true ∧ q.feed.setEnd = (p.feed.hold && p.feed.setEnd) ∧
       drained p q ∧ heldStill p q) ∧
     Completes (.hold t [0x01]) ⟨w, p⟩ (fun q =>
       p.repliedTo t 0x0D [0x01] [0x00] q ∧
       if p.feed.hold = true ∨ p.feed.lastBound ≠ some false then
         q.feed.hold = true ∧ q.feed.setEnd = p.feed.setEnd ∧ drained p q ∧ heldStill p q
       else (q.feed.hold = false ∧ q.feed.setEnd = true) ∨
         (q.feed.hold = true ∧ q.feed.setEnd = false ∧ q.feed.nextSheet = p.feed.nextSheet + 1) ∨
         (p.feed.path = .idle ∧ q.feed.path.inEpisode = true)) ∧
     ∀ v : Byte, 2 ≤ v.toNat → exec (.hold t [v]) ⟨w, p⟩ = .next ⟨w, p.answered t 0x0D [v] [0x03]⟩) ∧
  (∀ (w : List Instr) (p : Part) (t : Tick), p.canAccept → refusedIn 0x0E p.feed.path = none →
     Completes (.continueFeed t []) ⟨w, p⟩ fun q =>
       p.repliedTo t 0x0E [] [0x00] q ∧ q.feed.hold = false ∧ q.feed.setEnd = false ∧
       (p.noPages → p.feed.exhausted = false → q.feed.path = p.feed.path ∧ q.intake = p.intake ∧ q.table = p.table ∧
         q.episode = p.episode) ∧
       (p.feed.path = .idle → p.judgeSelector.nextPage.isSome = true → p.anyDoorOpen = false → p.finisher.state ≠ .faulted →
         p.finisher.state ≠ .retained → p.feed.exhausted = false →
         q.feed.path = .starting ∨ (q.feed.path.inEpisode = true ∧ p.anyPaper = true))) ∧
  (∀ (w : List Instr) (p : Part) (t : Tick), p.canAccept → refusedIn 0x0F p.feed.path = none →
     Completes (.hostStop t []) ⟨w, p⟩ fun q =>
       p.repliedTo t 0x0F [] [0x00] q ∧
       if p.feed.path = .sweeping then
         q.feed.path = .held ∧ q.episode = { p.episode with sweepTimer := none, barred := true } ∧ q.out.drives false ∧
         q.table = p.table ∧ q.planner = p.planner
       else
         p.tookJam ⟨.hostStop, none, none, none, none, laterOf p.tick t, none, none⟩ q ∧ q.feed.path ≠ .halting ∧
         (∀ x ∈ q.table.sheets, x.cond ≠ .runningOut) ∧
         (p.feed.path ≠ .halting → countedUp p.stats.pathSet.width p.stats.path q.stats.path 6)) ∧
  ∀ (w : List Instr) (p : Part) (t : Tick) (v : Byte), p.canAccept → p.feed.path ≠ .unconfigured →
    (∀ st : Fin 24, v.toNat = st.val → (p.force.stations[st]).isSome = true →
      exec (.resyncStation t [v]) ⟨w, p⟩ = .next ⟨w, { p.answered t 0x11 [v] [0x00] with
        stations := p.stations.set st { p.stations[st] with resync := true } }⟩) ∧
    ((∀ st : Fin 24, v.toNat = st.val → p.force.stations[st] = none) →
      exec (.resyncStation t [v]) ⟨w, p⟩ = .next ⟨w, p.answered t 0x11 [v] [0x03]⟩)

/-! ## SWEEP, PLAN READ and RESUME (R127, R142, R144) -/

/-- Flags as a number, the first of them bit 0. -/
def bits : List Bool → Nat
  | [] => 0
  | b :: rest => (if b then 1 else 0) + 2 * bits rest

/-- A number in three bytes, high byte first. -/
def three (v : Nat) : List Byte := [BitVec.ofNat 8 (v / 65536), BitVec.ofNat 8 (v / 256), BitVec.ofNat 8 v]

/-- The clearance report: NOT CLEAR, paper in the compile tray where none is expected, a finisher cycle, the barred mark; the
open doors; the stations that read paper (R124, R125, 12.7). -/
def report (p : Part) : List Byte :=
  let cycle := p.finisher.state == .stapling || p.finisher.state == .ejecting
  one (bits [p.anyDoorOpen || p.anyPaper || p.strayTrayPaper || cycle, p.strayTrayPaper, cycle, p.episode.barred])
    ++ one (bits ((List.finRange 8).map p.doorIsOpen)) ++ three (bits ((List.finRange 24).map p.paperAt))

/-- SWEEP: refused outside HELD; in HELD refused with NOT CLEAR and the clearance report while the clearance conditions fail (a
door, a station, the compile tray where no paper is expected, a staple or eject under way), and otherwise taken, clearing the sweep-barred mark and starting a sweep, which in dry run succeeds at once. -/
def Obligations.SweepRequest : Prop :=
  ∀ (w : List Instr) (p : Part) (t : Tick), p.canAccept → p.tableSound →
    (p.feed.path = .unconfigured → exec (.sweep t []) ⟨w, p⟩ = .next ⟨w, p.answered t 0x12 [] [0x04]⟩) ∧
    (p.feed.path ≠ .unconfigured → p.feed.path ≠ .held →
      exec (.sweep t []) ⟨w, p⟩ = .next ⟨w, p.answered t 0x12 [] [0x05]⟩) ∧
    (p.feed.path = .held →
      if p.clearance then
        Completes (.sweep t []) ⟨w, p⟩ fun q =>
          p.repliedTo t 0x12 [] [0x00] q ∧ q.episode.barred = false ∧
          if p.dry.on = true then p.builtPlan q else p.startedSweep (laterOf p.tick t) q ∧ q.table = p.table
      else exec (.sweep t []) ⟨w, p⟩ = .next ⟨w, p.answered t 0x12 [] (0x0F :: report p)⟩)

/-- PLAN READ: refused outside RESUMABLE, and for a start index not below the number of entries (index 0 of an empty list is
taken); otherwise answered with the revision, the counts and up to three entries, and a read that reaches the last entry sets
the read-through mark. -/
def Obligations.PlanReadTaken : Prop :=
  ∀ (w : List Instr) (p : Part) (t : Tick) (v : Byte), p.canAccept →
    let l := p.planner.list
    let got := (l.drop v.toNat).take 3
    (p.feed.path = .unconfigured → exec (.planRead t [v]) ⟨w, p⟩ = .next ⟨w, p.answered t 0x13 [v] [0x04]⟩) ∧
    (p.feed.path ≠ .unconfigured → p.feed.path ≠ .resumable →
      exec (.planRead t [v]) ⟨w, p⟩ = .next ⟨w, p.answered t 0x13 [v] [0x05]⟩) ∧
    (p.feed.path = .resumable → exec (.planRead t [v]) ⟨w, p⟩ = .next ⟨w,
      if v.toNat < l.length ∨ (v = 0 ∧ l = []) then
        { p.answered t 0x13 [v] (0x00 :: tickBytes p.planner.revision ++ bytesOf 1 l.length ++ bytesOf 1 v.toNat
            ++ bytesOf 1 got.length ++ got.flatMap Entry.bytes) with
          planner := { p.planner with readThrough := p.planner.readThrough || decide (v.toNat + got.length = l.length) } }
      else p.answered t 0x13 [v] [0x03]⟩)

/-- RESUME: refused, in this order, with NOT CONFIGURED, WRONG STATE, PLAN UNREAD and NOT CLEAR with the clearance report; one
that passes closes the episode and moves the path to STARTING with the drives running and the ramp timer armed, a RETAINED set
taken up again and a FAULTED one stapled again. -/
def Obligations.ResumeTaken : Prop :=
  ∀ (w : List Instr) (p : Part) (t : Tick), p.canAccept →
    let now := laterOf p.tick t
    (p.feed.path = .unconfigured → exec (.resume t []) ⟨w, p⟩ = .next ⟨w, p.answered t 0x14 [] [0x04]⟩) ∧
    (p.feed.path ≠ .unconfigured → p.feed.path ≠ .resumable →
      exec (.resume t []) ⟨w, p⟩ = .next ⟨w, p.answered t 0x14 [] [0x05]⟩) ∧
    (p.feed.path = .resumable → p.planner.readThrough = false →
      exec (.resume t []) ⟨w, p⟩ = .next ⟨w, p.answered t 0x14 [] [0x0E]⟩) ∧
    (p.feed.path = .resumable → p.planner.readThrough = true →
      if p.anyDoorOpen = false ∧ p.anyPaper = false ∧ p.strayTrayPaper = false ∧ p.finisher.state ≠ .stapling ∧
          p.finisher.state ≠ .ejecting then
        Completes (.resume t []) ⟨w, p⟩ fun q =>
          p.repliedTo t 0x14 [] [0x00] q ∧ q.feed.path = .starting ∧
          q.episode = { p.episode with isOpen := false, areas := 0, barred := false } ∧
          q.planner = { p.planner with readThrough := false } ∧ q.table = p.table ∧ q.intake = p.intake ∧
          q.feed.cls = ((p.judgeSelector.nextPage).map fun n => n.front.cls).getD p.feed.cls ∧
          q.out.presented = q.feed.cls ∧ q.out.drives true ∧
          q.feed.ramp = some (plusTicks now ((p.force.drive.map DriveSet.ramp).getD 0)) ∧
          (p.finisher.state = .retained → q.finisher.state ≠ .retained) ∧
          (p.finisher.state = .faulted → p.finisher.disturbed = false →
            q.finisher = { p.finisher with state := .stapling, stapleLimit := some (plusTicks now p.finisherSet.limit) } ∧
            q.out.stapler = true)
      else exec (.resume t []) ⟨w, p⟩ = .next ⟨w, p.answered t 0x14 [] (0x0F :: report p)⟩)

/-! ## Reads and counters (R122, R162, R164, R179, R180) -/

/-- The data of a STATUS READ at tick `now`, 50 bytes (R179, 12.7). A number that its field cannot hold stands as a free value
(entry 9), as `bytesOf` and `bitField` give it. -/
def statusData (p : Part) (now : Tick) : List Byte :=
  let slots := p.intake.slots.toList
  one p.feed.path.ctorIdx
    ++ one (bits [p.feed.hold, p.feed.setEnd, p.feed.selector == .priority, p.dry.on] + 16 * bitField 2 p.feed.cls)
    ++ bytesOf 1 p.intake.normal.length ++ bytesOf 1 p.intake.priority.length ++ bytesOf 1 p.planner.list.length
    ++ four p.planner.revision.toNat
    ++ one (bits [p.planner.readThrough, p.episode.isOpen] + 4 * p.finisher.state.ctorIdx)
    ++ bytesOf 1 p.table.sheets.length ++ four p.table.revision.toNat ++ bytesOf 1 p.gate.purgeCount
    ++ four p.episode.number.toNat ++ two p.episode.areas.toNat ++ report p
    ++ two (bits (p.feed.trayEmpty.toList ++ p.feed.binFull.toList ++ [p.gate.purgeFull, p.link.fault, p.feed.exhausted,
        p.stats.stationSet.active, p.stats.traySet.active, p.stats.pathSet.active, p.intake.lowNormal, p.intake.lowPriority]))
    ++ three (bits ((List.finRange 24).map fun st => (p.stations[st]).outOfStep))
    ++ one (bits (slots.map Option.isSome)) ++ slots.flatMap (fun x => bytesOf 1 ((x.map Slot.job).getD 0))
    ++ bytesOf 1 (p.dry.plan.filter fun x => !x.spent).length ++ bytesOf 4 p.feed.nextSheet ++ four now.toNat

/-- STATUS READ is taken in every path state, answers its snapshot of 50 bytes and changes nothing; SHEET READ and JAM READ
answer up to three summaries and two records from their start index on, or BAD VALUE. -/
def Obligations.ReadsTaken : Prop :=
  ∀ (w : List Instr) (p : Part) (t : Tick) (v : Byte), p.canAccept →
    let l := p.table.sheets
    let got := (l.drop v.toNat).take 3
    let e := p.episode
    exec (.statusRead t []) ⟨w, p⟩ = .next ⟨w, p.answered t 0x15 [] (0x00 :: statusData p (laterOf p.tick t))⟩ ∧
    exec (.sheetRead t [v]) ⟨w, p⟩ = .next ⟨w, p.answered t 0x16 [v]
      (if v.toNat < l.length ∨ (v = 0 ∧ l = []) then
        0x00 :: tickBytes p.table.revision ++ bytesOf 1 l.length ++ bytesOf 1 got.length ++ got.flatMap Sheet.summary
      else [0x03])⟩ ∧
    exec (.jamRead t [v]) ⟨w, p⟩ = .next ⟨w, p.answered t 0x17 [v]
      (if v.toNat < e.records.length ∨ (v = 0 ∧ e.records = []) then
        0x00 :: tickBytes e.number ++ bytesOf 1 e.isOpen.toNat ++ bytesOf 1 e.records.length ++ bytesOf 2 e.overflow
          ++ areaBytes e.areas ++ ((e.records.drop v.toNat).take 2).flatMap Jam.bytes
      else [0x03])⟩

/-- The number of records of a group. -/
def groupSize : Group → Nat
  | .station => 24
  | .tray => 5
  | .path => 1

/-- The body of a COUNTER READ. -/
def counterBody (g : Group) (i : Nat) (c : Byte) : List Byte := [BitVec.ofNat 8 g.code, BitVec.ofNat 8 i, c]

/-- The reply to a COUNTER READ of record `i` of group `g`. -/
def counterReply (p : Part) (g : Group) (i : Nat) : List Byte :=
  let y := p.stats.groupSet g
  0x00 :: bytesOf 1 g.code ++ bytesOf 1 i ++ bytesOf 1 y.width.code ++ bytesOf 4 y.watermark ++ bytesOf 1 y.active.toNat
    ++ ((p.stats.records g).getD i []).flatMap (bytesOf 4)

/-- COUNTER READ answers the record's counters and changes nothing with the clear flag clear; with it set, the record's counters
are 0 after, every other record as before, and the group's condition judged afresh. A group or index out of range is refused.

COUNTER WIDTH gives the group its width and watermark, holds every counter of it to the new width's saturation value, leaves
every other group alone and judges the group's condition; a watermark above the saturation value, and a group or a width that is
none, is refused. -/
def Obligations.CountersReadAndSet : Prop :=
  (∀ (w : List Instr) (p : Part) (t : Tick) (g : Group) (i : Nat), p.canAccept →
     (i < groupSize g →
       exec (.counterRead t (counterBody g i 0x00)) ⟨w, p⟩ =
         .next ⟨w, p.answered t 0x18 (counterBody g i 0x00) (counterReply p g i)⟩ ∧
       Completes (.counterRead t (counterBody g i 0x01)) ⟨w, p⟩ fun q =>
         p.repliedTo t 0x18 (counterBody g i 0x01) (counterReply p g i) q ∧ p.sameButReports q ∧
         (∀ h, q.stats.records h = if h = g then (p.stats.records g).modify i (List.map fun _ => 0) else p.stats.records h) ∧
         (∀ h, (q.stats.groupSet h).width = (p.stats.groupSet h).width ∧
           (q.stats.groupSet h).watermark = (p.stats.groupSet h).watermark) ∧
         ((q.stats.groupSet g).active = true ↔ (q.stats.groupSet g).watermark ≠ 0 ∧
           ∃ r ∈ q.stats.records g, ∃ c ∈ r, (q.stats.groupSet g).watermark ≤ c)) ∧
     (∀ c : Byte, groupSize g ≤ i → i < 256 →
       exec (.counterRead t (counterBody g i c)) ⟨w, p⟩ = .next ⟨w, p.answered t 0x18 (counterBody g i c) [0x03]⟩) ∧
     ∀ a c d : Byte, 3 ≤ a.toNat → exec (.counterRead t [a, c, d]) ⟨w, p⟩ = .next ⟨w, p.answered t 0x18 [a, c, d] [0x03]⟩) ∧
  ∀ (w : List Instr) (p : Part) (t : Tick), p.canAccept →
   (∀ (a c : Byte) (r : List Byte), r.length = 4 → 3 ≤ a.toNat ∨ 2 ≤ c.toNat →
    exec (.counterWidth t (a :: c :: r)) ⟨w, p⟩ = .next ⟨w, p.answered t 0x19 (a :: c :: r) [0x03]⟩) ∧
   ∀ (g : Group) (x : Width) (m : Nat), m < 4294967296 →
    let b := one g.code ++ one x.code ++ four m
    if m ≤ x.limit then
      Completes (.counterWidth t b) ⟨w, p⟩ fun q =>
        p.repliedTo t 0x19 b [0x00] q ∧ p.sameButReports q ∧
        (q.stats.groupSet g).width = x ∧ (q.stats.groupSet g).watermark = m ∧
        (∀ h, q.stats.records h = if h = g then (p.stats.records g).map (List.map (min x.limit)) else p.stats.records h) ∧
        (∀ h, h ≠ g → q.stats.groupSet h = p.stats.groupSet h) ∧
        ((q.stats.groupSet g).active = true ↔ m ≠ 0 ∧ ∃ r ∈ q.stats.records g, ∃ c ∈ r, m ≤ c)
    else exec (.counterWidth t b) ⟨w, p⟩ = .next ⟨w, p.answered t 0x19 b [0x03]⟩

/-! ## DRY RUN, FAULT PLAN and PATH RESET (R166, R170, R181) -/

/-- DRY RUN, in IDLE with an EMPTY Compile Set: ON sets the flag and the first dry-run sheet number, OFF clears the flag, and
TRAY EMPTY, BIN FULL and PURGE FULL are judged by it; an OFF with the flag clear changes nothing. With a Compile Set not EMPTY
it is refused with WRONG STATE.

FAULT PLAN in IDLE replaces the whole Fault Plan with the entries its body lays out, all unspent, and refuses any other body. -/
def Obligations.DryRunAndFaultPlan : Prop :=
  (∀ (w : List Instr) (p : Part) (t : Tick), p.canAccept → p.feed.path = .idle →
     (p.finisher.state = .empty →
       Completes (.dryRun t [0x00]) ⟨w, p⟩ (fun q =>
         p.repliedTo t 0x1A [0x00] [0x00] q ∧
         q = { p with
           tick := q.tick, link := q.link, notices := q.notices, dry := { p.dry with on := true, firstSheet := p.feed.nextSheet }
           feed := { p.feed with trayEmpty := .replicate 5 false, binFull := .replicate 2 false }
           gate := { p.gate with purgeFull := false } }) ∧
       (p.dry.on = true → Completes (.dryRun t [0x01]) ⟨w, p⟩ (fun q =>
         p.repliedTo t 0x1A [0x01] [0x00] q ∧
         q = { p with
           tick := q.tick, link := q.link, notices := q.notices, dry := { p.dry with on := false }
           feed := { p.feed with
             trayEmpty := .ofFn fun u : Fin 5 => !(p.levelOf (.present u) && !p.levelOf (.paperOut u))
             binFull := .ofFn fun i : Fin 2 => p.levelOf (.binFull i) }
           gate := { p.gate with
             purgeFull := !decide (p.gate.purgeCount + 24 < (p.force.purge.map PurgeSet.capacity).getD 0) } })) ∧
       (p.dry.on = false → exec (.dryRun t [0x01]) ⟨w, p⟩ = .next ⟨w, p.answered t 0x1A [0x01] [0x00]⟩)) ∧
     (p.finisher.state ≠ .empty → ∀ v : Byte, exec (.dryRun t [v]) ⟨w, p⟩ = .next ⟨w, p.answered t 0x1A [v] [0x05]⟩)) ∧
  ∀ (w : List Instr) (p : Part) (t : Tick) (b : List Byte), p.canAccept → p.feed.path = .idle → catalogueLength 0x1B b.length →
    (∀ l, PlanBody l b →
      exec (.faultPlan t b) ⟨w, p⟩ = .next ⟨w, { p.answered t 0x1B b [0x00] with dry := { p.dry with plan := l } }⟩) ∧
    ((∀ l, ¬ PlanBody l b) → exec (.faultPlan t b) ⟨w, p⟩ = .next ⟨w, p.answered t 0x1B b [0x03]⟩)

/-- PATH RESET discards every page and sheet, frees every slot with INTAKE LOW active, empties the image calls, the reservations,
the Compile Set and the Fault Plan, clears the hold flag, the set-end mark, the unconfirmed pick and the read-through mark and puts
the selector and both boundary marks back. It keeps the descriptions, the purge count, the learned states, the sheet numbering with
NUMBERS EXHAUSTED, the current class, the plan revision (which only the plan build of a HOST RESET episode swept at once in dry run
raises) and every counter, width and watermark (but for the HOST RESET counted as an episode); the table revision rises by 1 where a
record is removed. With a sheet, a set or an open door found it opens a HOST RESET episode, and otherwise the path is IDLE and no
episode open. (That a Compile Set between its partial ejects, which holds no sheet, counts as empty there is the model's choice,
DEDUCED: entry 17.) -/
def Obligations.PathResetTaken : Prop :=
  ∀ (w : List Instr) (p : Part) (t : Tick), p.canAccept → p.feed.path ≠ .unconfigured →
    Completes (.pathReset t []) ⟨w, p⟩ fun q =>
      p.repliedTo t 0x1C [] (0x00 :: bytesOf 2 (p.intake.normal.length + p.intake.priority.length + p.planner.list.length
        + (p.table.sheets.flatMap Sheet.pages).length + (p.finisher.sheets.flatMap Held.pages).length)
        ++ bytesOf 1 p.table.sheets.length) q ∧
      q.noPages ∧ q.intake.slots = .replicate 8 none ∧ q.table.sheets = [] ∧ q.calls = ⟨[], []⟩ ∧ q.feed.merge = [] ∧
      q.finisher = .reset ∧ q.dry = { p.dry with plan := [], schedule := [], home := none } ∧ q.feed.timersIdle ∧
      q.feed.nextSheet = p.feed.nextSheet ∧ q.feed.exhausted = p.feed.exhausted ∧ q.feed.cls = p.feed.cls ∧ q.gate = p.gate ∧
      q.feed.hold = false ∧ q.feed.setEnd = false ∧ q.feed.selector = .normal ∧ q.feed.normalMark = true ∧
      q.feed.priorityMark = true ∧ q.feed.unconfirmed = none ∧ q.intake.lowNormal = true ∧ q.intake.lowPriority = true ∧
      q.table.revision = (if p.table.sheets = [] then p.table.revision else p.table.revision + 1) ∧
      q.planner.readThrough = false ∧
      q.planner.revision = (if q.feed.path = .resumable then p.planner.revision + 1 else p.planner.revision) ∧
      q.stats.station = p.stats.station ∧ q.stats.tray = p.stats.tray ∧ q.stats.stationSet = p.stats.stationSet ∧
      q.stats.traySet = p.stats.traySet ∧ q.stats.pathSet.width = p.stats.pathSet.width ∧
      q.stats.pathSet.watermark = p.stats.pathSet.watermark ∧ (∀ i : Fin 10, i ≠ 6 → q.stats.path[i] = p.stats.path[i]) ∧
      (∀ st : Fin 24, q.stations[st] = { p.stations[st] with cover := none }) ∧
      q.out.clutch = .replicate 5 false ∧ q.out.stapler = false ∧ q.out.ejector = false ∧
      if p.table.sheets ≠ [] ∨ p.finisher.sheets ≠ [] ∨ p.anyDoorOpen = true then
        p.openedWith ⟨.hostReset, none, none, none, none, laterOf p.tick t, none, none⟩ q ∧
        (q.feed.path = .held ∨ q.feed.path = .sweeping ∨ q.feed.path = .resumable) ∧
        countedUp p.stats.pathSet.width p.stats.path q.stats.path 6
      else q.feed.path = .idle ∧ q.episode = { p.episode with isOpen := false, areas := 0, barred := false, sweepTimer := none } ∧
        q.out.drives false ∧ q.stats = p.stats

/-! ## The line (R173 to R177, R182) -/

/-- Every frame with a body of at most 64 bytes, sent as R173 lays it out and heard from hunting, is accepted as that frame, and
with other CRC bytes it is discarded at the last of them. -/
def Obligations.FramesHeard : Prop :=
  ∀ (f : Frame) (t : Tick), f.body.length ≤ 64 →
    Receiver.hunting.hear t f.bytes = .accepts f ∧
    ∀ c d : Byte, [c, d] ≠ bytesOf 2 (crc f.covered).toNat → Receiver.hunting.hear t (0xD5 :: f.covered ++ [c, d]) = .discards

/-- The command that brings a good frame heard at tick `t`: a request's, or UNKNOWN_KIND. -/
def heardAs (f : Frame) (t : Tick) (c : Instr) : Prop :=
  c.request? = some (t, f.kind, f.body) ∨ (c = .unknownKind t f.kind f.body ∧ ¬ inRange 1 28 f.kind.toNat)

/-- The bytes of FRAME_DISCARD and BYTE_GAP_TIMEOUT are taken one after another, each some ticks after the one before. Hunting,
a byte moves the receiver alone: into a frame if it is a good start byte. Inside a frame, a byte 41 ticks or more after the last
finds the frame discarded at the 41st; one in time with a good stop bit is kept while the LEN is in range and the frame not yet
whole; and one that makes a good frame whole does what that frame's command does. A request command that finds a frame begun
runs as after its gap. (That these commands may carry such bytes is the model's reading, entries 6 and 7; that a byte which only
moves the receiver is no event, and leaves Tick Time, is entry 31.) -/
def Obligations.BytesInTurn : Prop :=
  ∀ (w : List Instr) (p : Part) (t : Tick) (x : RxByte),
    let now := plusTicks t x.after
    let heard := fun r : Receiver =>
      (.next ⟨w, { p with link := { p.link with receiver := r } }⟩ : Host.Outcome State Fault Refusal)
    Completes (.frameDiscard t [x]) ⟨w, p⟩ (fun q => ∀ rest,
      exec (.frameDiscard t (x :: rest)) ⟨w, p⟩ = exec (.frameDiscard now rest) ⟨w, q⟩ ∧
      exec (.byteGapTimeout t (x :: rest)) ⟨w, p⟩ = exec (.byteGapTimeout now rest) ⟨w, q⟩) ∧
    (p.link.receiver = .hunting → exec (.frameDiscard t [x]) ⟨w, p⟩ =
      heard (if x.stopOk = true ∧ x.byte = 0xD5 then .inFrame [] now else .hunting)) ∧
    ∀ (l : List Byte) (last : Tick), p.link.receiver = .inFrame l last →
      Completes (.byteGapTimeout t []) ⟨w, p⟩ (fun q =>
        (41 ≤ since last now → exec (.frameDiscard t [x]) ⟨w, p⟩ = exec (.frameDiscard t [x]) ⟨w, q⟩) ∧
        ∀ (c : Instr) (u : Tick) (f : Frame), heardAs f u c → exec c ⟨w, p⟩ = exec c ⟨w, q⟩) ∧
      (since last now < 41 → x.stopOk = true →
        (inRange 1 65 ((l ++ [x.byte]).headD 0).toNat → l.length < ((l ++ [x.byte]).headD 0).toNat + 2 →
          exec (.frameDiscard t [x]) ⟨w, p⟩ = heard (.inFrame (l ++ [x.byte]) now)) ∧
        ∀ (f : Frame) (c : Instr), f.body.length ≤ 64 → 0xD5 :: l ++ [x.byte] = f.bytes → heardAs f now c →
          exec (.frameDiscard t [x]) ⟨w, p⟩ = exec c ⟨w, { p with link := { p.link with receiver := .hunting } }⟩)

/-- FRAME_DISCARD: a stop-bit error inside a frame, a LEN of 0 or above 65, a CRC that does not match, and a good frame that
finds the receive queue full are each one discard.

BYTE_GAP_TIMEOUT: a gap after any byte of a frame but the last is one discard at the 41st tick after that byte; a receiver that
hunts has none to discard (the model's reading, entry 7).

A request that finds the receive queue full is one discard and is not taken.

The fault timer's expiry makes LINK FAULT inactive; while a frame is being sent nothing else moves. (An idle timer does not expire: entry 2, the model's choice.) -/
def Obligations.Discards : Prop :=
  (∀ (w : List Instr) (p : Part) (t : Tick),
     let now := laterOf p.tick t
     (∀ (l : List Byte) (last : Tick) (b : Byte), p.link.receiver = .inFrame l last → since last t < 41 →
       Completes (.frameDiscard t [⟨0, b, false⟩]) ⟨w, p⟩ (p.discarded now)) ∧
     (p.link.receiver = .hunting →
       (∀ len : Byte, (len.toNat = 0 ∨ 65 < len.toNat) →
         Completes (.frameDiscard t (clean [0xD5, len])) ⟨w, p⟩ (p.discarded now)) ∧
       (∀ (f : Frame) (c d : Byte), f.body.length ≤ 64 → [c, d] ≠ bytesOf 2 (crc f.covered).toNat →
         Completes (.frameDiscard t (clean (0xD5 :: f.covered ++ [c, d]))) ⟨w, p⟩ (p.discarded now)) ∧
       ∀ f : Frame, f.body.length ≤ 64 → 4 ≤ p.link.rxQueue.length →
         Completes (.frameDiscard t (clean f.bytes)) ⟨w, p⟩ (p.discarded now))) ∧
  (∀ (w : List Instr) (p : Part) (t : Tick),
     (p.link.receiver = .hunting → exec (.byteGapTimeout t []) ⟨w, p⟩ = .next ⟨w, p⟩ ∧
       ∀ (f : Frame) (k : Nat), f.body.length ≤ 64 → inRange 1 (f.body.length + 4) k →
         Completes (.byteGapTimeout t (clean (f.bytes.take k))) ⟨w, p⟩ (p.discarded (laterOf p.tick (plusTicks t 41)))) ∧
     ∀ (l : List Byte) (last : Tick), p.link.receiver = .inFrame l last →
       Completes (.byteGapTimeout t []) ⟨w, p⟩ (p.discarded (laterOf p.tick (plusTicks last 41)))) ∧
  (∀ (w : List Instr) (p : Part) (c : Instr) (t : Tick) (f : Frame), heardAs f t c →
     p.link.receiver = .hunting → 4 ≤ p.link.rxQueue.length → Completes c ⟨w, p⟩ (p.discarded (laterOf p.tick t))) ∧
  ∀ (w : List Instr) (p : Part),
    (∀ d, p.link.faultTimer = some d → Completes .linkFaultTimerExpiry ⟨w, p⟩ fun q =>
      q.tick = laterOf p.tick d ∧ q.link.fault = false ∧ q.link.faultTimer = none ∧ q.link.rxQueue = p.link.rxQueue ∧
      q.stored = p.stored ∧ q.force = p.force ∧ q.mask = p.mask ∧ q.lines = p.lines ∧
      (p.link.sending.isSome = true →
        q = { p with tick := q.tick, link := { p.link with fault := false, faultTimer := none } })) ∧
    (p.link.faultTimer = none → exec .linkFaultTimerExpiry ⟨w, p⟩ = .next ⟨w, p⟩)

/-- Everything pending but the replies, as the frames it would send, in the order of R177: class by class, and inside a class as
R177 orders it. A watermark notice's place is its group's. -/
def noticesInOrder (p : Part) : List Frame :=
  let n := p.notices
  let when := fun (b : Bool) (f : Frame) => if b then [f] else []
  p.calls.queue.map Call.frame ++ n.jams.map JamNote.frame ++ when n.planReady p.planReadyFrame ++ when n.pathState p.pathStateFrame
    ++ ((List.finRange 8).filter fun d => n.door[d]).map p.doorFrame
    ++ n.spoil.toList.map p.spoilFrame ++ n.setDone.toList.map SetDoneNote.frame
    ++ ((List.finRange 8).filter fun i => n.progress[i]).flatMap (fun i => (p.intake.slots[i]).toList.map fun x => x.frame i)
    ++ ((List.finRange 5).filter fun u => n.trayEmpty[u]).map (fun u => conditionFrame 0 u.val ⟨0, 0, 0⟩)
    ++ ((List.finRange 2).filter fun b => n.binFull[b]).map (fun b => conditionFrame 1 b.val ⟨0, 0, 0⟩)
    ++ when n.purgeFull (conditionFrame 2 0 ⟨0, 0, 0⟩)
    ++ ((List.finRange 24).filter fun st => n.outOfStep[st]).map (fun st => conditionFrame 3 st.val ⟨0, 0, 0⟩)
    ++ n.wmStation.toList.map (conditionFrame 4 0) ++ n.wmTray.toList.map (conditionFrame 4 1)
    ++ n.wmPath.toList.map (conditionFrame 4 2) ++ when n.linkFault (conditionFrame 5 0 ⟨0, 0, 0⟩)
    ++ when n.exhausted (conditionFrame 6 0 ⟨0, 0, 0⟩)
    ++ when n.lowNormal (intakeLowFrame 0 p.intake.normal.length p.force.timing.markNormal)
    ++ when n.lowPriority (intakeLowFrame 1 p.intake.priority.length p.force.timing.markPriority)

/-- FRAME_SENT: the request a reply answers leaves the receive queue, and the transmitter goes on with the oldest reply, or else
the first of everything pending in the order of R177, which is then pending no longer; with nothing pending it is idle. An image
call sent leaves its queue and lets a deferred call in; a SPOIL sent sets the running spoil count to 0; a PROGRESS sent frees
its slot if that is closed and balanced. (The CONDITION frames of PURGE FULL, LINK FAULT and NUMBERS EXHAUSTED carry index 0:
entry 11, the model's reading.) -/
def Obligations.FrameSent : Prop :=
  ∀ (w : List Instr) (p : Part) (t : Tick) (x : Sending), p.progressHeld → p.link.sending = some x →
    Completes (.frameSent t) ⟨w, p⟩ fun q =>
      let first := (noticesInOrder p).head?
      q.tick = laterOf p.tick t ∧ q.stored = p.stored ∧ q.force = p.force ∧ q.mask = p.mask ∧ q.lines = p.lines ∧
      q.link.receiver = p.link.receiver ∧ q.link.rxQueue = (if x.reply then p.link.rxQueue.drop 1 else p.link.rxQueue) ∧
      q.link.replies = p.link.replies.drop 1 ∧
      (∀ r rest, p.link.replies = r :: rest → q = { p with
        tick := q.tick, link := { p.link with sending := some ⟨r, true⟩, replies := rest, rxQueue := q.link.rxQueue } }) ∧
      (p.link.replies = [] →
        q.link.sending = first.map (fun f => ⟨f, false⟩) ∧
        (p.calls.queue = [] → noticesInOrder q = (noticesInOrder p).drop 1 ∧
          (first = none → q = { p with tick := q.tick, link := { p.link with sending := none, rxQueue := q.link.rxQueue } })) ∧
        (∀ c rest, p.calls.queue = c :: rest →
          (q.feed.nextSheet = p.feed.nextSheet → (q.calls.queue ++ q.calls.deferred).Perm (rest ++ p.calls.deferred)) ∧
          (rest.length < 8 → p.calls.deferred ≠ [] → q.calls.deferred.length < p.calls.deferred.length)) ∧
        q.gate = (if first.any (fun f => f.kind == 0x45) = true then { p.gate with spoilCount := 0 } else p.gate) ∧
        (first.any (fun f => f.kind == 0x47) = true → ∀ i : Fin 8, p.notices.progress[i] = true →
          (∀ j : Fin 8, j < i → p.notices.progress[j] = false) → ∀ y ∈ p.intake.slots[i],
          let kept := if y.closed = true ∧ y.accepted = y.delivered + y.abandoned then none else some y
          q.notices.progress[i] = false ∧ q.intake = { p.intake with slots := p.intake.slots.set i kept }))

/-- HARDWARE_RESET puts every block in its hardware-reset state; the straps give the serial rate, and the lines are read afresh
from the pins. (That the pins are the engine's and stay is the model's reading: entries 8 and 29.)

The machine right after reset: the values the rules of each chapter give. -/
def Obligations.HardwareReset : Prop :=
  (∀ (w : List Instr) (p : Part) (a b : Bool), Completes (.hardwareReset a b) ⟨w, p⟩ fun q =>
     q.link.rate = (match a, b with
       | false, false => .baud115200
       | true, false => .baud230400
       | false, true => .baud460800
       | true, true => .baud921600) ∧
     q.lines = ⟨p.lines.pin, p.lines.pin, .replicate 32 0⟩ ∧
     { q with link := { q.link with rate := .baud115200 }, lines := State.reset.part.lines } = State.reset.part) ∧
  let p := State.reset.part
  State.reset.pending = [] ∧ p.tick = 0 ∧ p.stored = p.force ∧ (∀ st : Fin 24, p.force.stations[st] = none) ∧
    (∀ l : LegName, p.force.legs[l.pos] = none) ∧ p.force.drive = none ∧ (∀ u : Fin 5, p.force.trays[u] = none) ∧
    (∀ i : Fin 2, p.force.bins[i] = none) ∧ p.force.purge = none ∧ (∀ d : Fin 8, p.force.doors[d] = none) ∧
    p.force.timing = ⟨12, 100, 400, 1000, 4, true, 500, 200, 150, 20000, .front, 3, true, 8, 2⟩ ∧ p.force.capacity = 50 ∧
    p.force.finisher = none ∧ (∀ i : Fin 32, p.force.inputs[i] = ⟨true, 3⟩) ∧ (∀ i : Fin 24, p.force.restHigh[i] = false) ∧
    (∀ i : Fin 24, p.outputLevel i = false) ∧
    p.link.receiver = .hunting ∧ p.link.rxQueue = [] ∧ p.link.replies = [] ∧ p.link.sending = none ∧ p.link.fault = false ∧
    p.link.faultTimer = none ∧ p.mask = ⟨true, true, true, true, true, true, true⟩ ∧ p.calls = ⟨[], []⟩ ∧
    p.notices.jams = [] ∧ p.notices.planReady = false ∧ p.notices.pathState = false ∧ p.notices.spoil = none ∧
    p.notices.setDone = none ∧ p.notices.linkFault = false ∧ p.notices.lowNormal = false ∧ p.notices.lowPriority = false ∧
    p.noPages ∧ (∀ i : Fin 8, p.intake.slots[i] = none) ∧ p.intake.lowNormal = true ∧ p.intake.lowPriority = true ∧
    p.feed.path = .unconfigured ∧ p.feed.cls = 0 ∧ p.feed.hold = false ∧ p.feed.setEnd = false ∧ p.feed.timersIdle ∧
    p.feed.selector = .normal ∧ p.feed.normalMark = true ∧ p.feed.priorityMark = true ∧ p.feed.merge = [] ∧
    p.feed.nextSheet = 1 ∧ p.feed.exhausted = false ∧ p.table = ⟨[], 0⟩ ∧
    (∀ st : Fin 24, p.stations[st] = ⟨0, [], false, false, none⟩) ∧ p.gate = ⟨0, false, 0⟩ ∧ p.episode.number = 0 ∧
    p.episode.isOpen = false ∧ p.episode.firstKind = none ∧ p.episode.records = [] ∧ p.episode.overflow = 0 ∧
    p.episode.areas = 0 ∧ p.episode.sweepTimer = none ∧ p.episode.barred = false ∧ p.planner = ⟨[], 0, false⟩ ∧
    p.finisher.state = .empty ∧ p.finisher.sheets = [] ∧ p.finisher.stapleLimit = none ∧ p.finisher.ejectLimit = none ∧
    (∀ g, ∀ r ∈ p.stats.records g, ∀ c ∈ r, c = 0) ∧ (∀ g, p.stats.groupSet g = ⟨.narrow, 0, false⟩) ∧
    p.dry.on = false ∧ p.dry.plan = [] ∧ p.dry.schedule = []

/-! ## Output lines (R12, R14, R117, R167) -/

/-- What an output line's owner asks of it (R12): the class-select lines present classes 1 and 2. -/
def asked (o : Outputs) : OutputRole → Bool
  | .exitGate => o.exitGate
  | .purgeGate => o.purgeGate
  | .clutch u => o.clutch[u]
  | .enable .feed => o.enFeed
  | .enable .process => o.enProcess
  | .enable .duplex => o.enDuplex
  | .enable .delivery => o.enDelivery
  | .select0 => o.presented == 1
  | .select1 => o.presented == 2
  | .stapler => o.stapler
  | .ejector => o.ejector

/-- An output line without a role, and in dry run every line, is at its rest level. A line with one role is at the level
opposite exactly while its owner asks for it and no open door holds it; doors hold every role but the class-select lines. -/
def Obligations.OutputLevels : Prop :=
  ∀ (p : Part) (line : Fin 24),
    let rest := p.force.restHigh[line]
    ((∀ r, p.force.outLineOf r ≠ some line) → p.outputLevel line = rest) ∧
    (p.dry.on = true → p.outputLevel line = rest) ∧
    ∀ r, p.force.outLineOf r = some line → (∀ r', p.force.outLineOf r' = some line → r' = r) → p.dry.on = false →
      p.outputLevel line =
        if asked p.out r = true ∧ ¬ (r ≠ .select0 ∧ r ≠ .select1 ∧ ∃ d : Fin 8, p.doorIsOpen d = true) then !rest else rest

/-! ## Supply lines (R39, R58, R102) -/

/-- A change of a tray-present or paper-out line moves the line's level and TRAY EMPTY of the unit with the unit's availability;
a change of a bin-full line moves BIN FULL; in UNCONFIGURED the conditions wait. In dry run every unit is available and no bin
full. (The pin: entry 4.)

The purge-bin-removed line sets the purge count to 0 when it asserts, and PURGE FULL is judged from it; when it goes off, only
its level moves. -/
def Obligations.SupplyLines : Prop :=
  (∀ (w : List Instr) (p : Part) (t : Tick) (asserted : Bool),
     (∀ (u : Fin 5) (x : TraySet) (sensor : TraySensor), p.force.trays[u] = some x →
       Completes (.trayLevelChange t u sensor asserted) ⟨w, p⟩ fun q =>
         let line := match sensor with
           | .present => x.present
           | .paperOut => x.paperOut
         p.passesTo t q ∧ q.lines = p.lines.edge p.force.inputs line asserted ∧ q.feed.binFull = p.feed.binFull ∧
         q.feed.trayEmpty = if p.feed.path = .unconfigured then p.feed.trayEmpty else p.feed.trayEmpty.set u
           !(p.dry.on || (q.lines.level[x.present] && !q.lines.level[x.paperOut]))) ∧
     ∀ (i : Fin 2) (line : Fin 32), p.force.bins[i] = some line →
       Completes (.binFullLineChange t i asserted) ⟨w, p⟩ fun q =>
         p.passesTo t q ∧ q.lines = p.lines.edge p.force.inputs line asserted ∧ q.feed.trayEmpty = p.feed.trayEmpty ∧
         q.feed.binFull = if p.feed.path = .unconfigured then p.feed.binFull else p.feed.binFull.set i
           (!p.dry.on && asserted)) ∧
  ∀ (w : List Instr) (p : Part) (t : Tick) (asserted : Bool) (x : PurgeSet), p.force.purge = some x →
    Completes (.purgeBinRemoved t asserted) ⟨w, p⟩ fun q =>
      p.passesTo t q ∧ q.lines = p.lines.edge p.force.inputs x.removed asserted ∧
      if asserted = true then
        q.gate.purgeCount = 0 ∧ q.gate.purgeFull = !(p.dry.on || decide (24 < x.capacity))
      else q.gate.purgeCount = p.gate.purgeCount ∧ q.gate.purgeFull = p.gate.purgeFull

/-! ## Doors and clearance (R117, R118, R125, R126) -/

/-- A door opening: its DOOR condition stands, the sweep-barred mark is cleared, both gates rest, a staple or eject under way is
aborted, and a finisher door disturbs a set that holds sheets. By path state it opens or extends an episode (in IDLE only where
it disturbs a set), abandons a sweep, or takes a RESUMABLE path back to HELD with the read-through mark clear. (The pin: entry
4.) (That the gates' own positions go to rest, and not their lines alone, is the model's choice, DEDUCED: entry 16; and so is
reading R118's "not empty" as a set that holds sheets: entry 17.) -/
def Obligations.DoorOpening : Prop :=
  ∀ (w : List Instr) (p : Part) (t : Tick) (d : Fin 8) (x : DoorDef), p.force.doors[d] = some x →
    Completes (.doorOpening t d) ⟨w, p⟩ fun q =>
      let onto := x.finisher = true ∧ p.finisher.sheets ≠ []
      let jam : Jam :=
        ⟨.doorOpen, none, some d, if onto then some 8 else none, none, laterOf p.tick t, none, none⟩
      p.passesTo t q ∧ q.lines = p.lines.edge p.force.inputs x.line false ∧ q.episode.doorActive[d] = true ∧
      q.episode.barred = false ∧ q.out.exitGate = false ∧ q.out.purgeGate = false ∧
      q.finisher.state ≠ .stapling ∧ q.finisher.state ≠ .ejecting ∧ (onto → q.finisher.disturbed = true) ∧
      (p.finisher.state = .stapling ∨ p.finisher.state = .ejecting →
        q.out.stapler = false ∧ q.out.ejector = false ∧ q.finisher.stapleLimit = none ∧ q.finisher.ejectLimit = none) ∧
      (p.feed.path = .unconfigured ∨ p.feed.path = .held →
        q.feed.path = p.feed.path ∧ q.episode.records = p.episode.records) ∧
      (p.feed.path = .idle → if onto then p.openedWith jam q ∧ q.feed.path = .held else q.feed.path = .idle) ∧
      (p.feed.path = .starting ∨ p.feed.path = .running ∨ p.feed.path = .draining ∨ p.feed.path = .halting →
        p.tookJam jam q ∧ q.feed.path = .held ∧ ∀ y ∈ q.table.sheets, y.cond ≠ .runningOut) ∧
      (p.feed.path = .sweeping → q.feed.path = .held ∧ q.episode.records = p.episode.records ∧ q.episode.sweepTimer = none ∧
        q.out.drives false) ∧
      (p.feed.path = .resumable → q.feed.path = .held ∧ q.episode.records = p.episode.records ∧
        q.planner = { p.planner with readThrough := false })

/-- In HELD with an open episode, where the levels and the set then meet the clearance conditions, auto-sweep is ON and the mark
is clear, a sweep starts by itself (and in dry run builds the plan); otherwise the path stays HELD and the Sheet Table as it is.
`r` is the part before, at the levels the event leaves. -/
def sweptIfClear (p r : Part) (now : Tick) (q : Part) : Prop :=
  if r.anyDoorOpen = false ∧ r.anyPaper = false ∧ r.strayTrayPaper = false ∧ r.finisher.state ≠ .stapling ∧
      r.finisher.state ≠ .ejecting ∧ p.force.timing.autoSweep = true ∧ p.episode.barred = false then
    if p.dry.on = true then p.builtPlan q else p.startedSweep now q ∧ q.table = p.table
  else q.feed.path = .held ∧ q.table = p.table ∧ q.episode.records = p.episode.records

/-- A door closing, and an edge of the compile-tray-paper line: the level moves, the door's condition goes, and in HELD the
clearance is judged again: in dry run a sweep it starts has built its plan at once. (The pin: entry 4.) -/
def Obligations.ClearanceEdges : Prop :=
  ∀ (w : List Instr) (p : Part) (t : Tick), p.tableSound → (p.feed.path = .held → p.episode.isOpen = true) →
    (∀ (d : Fin 8) (x : DoorDef), p.force.doors[d] = some x → Completes (.doorClosing t d) ⟨w, p⟩ fun q =>
      p.passesTo t q ∧ q.lines = p.lines.edge p.force.inputs x.line true ∧ q.episode.doorActive[d] = false ∧
      (p.feed.path = .held → sweptIfClear p { p with lines := q.lines } q.tick q)) ∧
    ∀ (paper : Bool) (x : FinisherSet), p.force.finisher = some x →
      Completes (.compileTrayEdge t paper) ⟨w, p⟩ fun q =>
        p.passesTo t q ∧ q.lines = p.lines.edge p.force.inputs x.compileTray paper ∧
        (p.feed.path = .held → sweptIfClear p { p with lines := q.lines } q.tick q)

/-- AUTO_SWEEP in HELD starts the sweep exactly where the clearance conditions hold, auto-sweep is ON and the mark is clear; in
any other path state but IDLE (where the path may start) the episode record is left alone.

The sweep timer's expiry in SWEEPING builds the plan. -/
def Obligations.SweepsByItself : Prop :=
  (∀ (w : List Instr) (p : Part) (t : Tick), p.tableSound →
     Completes (.autoSweep t) ⟨w, p⟩ fun q =>
       p.passesTo t q ∧ q.lines = p.lines ∧
       (p.feed.path ≠ .idle → q.episode.records = p.episode.records ∧ q.episode.number = p.episode.number) ∧
       (p.feed.path = .held → sweptIfClear p p q.tick q)) ∧
  ∀ (w : List Instr) (p : Part) (d : Tick), p.tableSound → p.feed.path = .sweeping → p.episode.sweepTimer = some d →
    Completes .sweepTimerExpiry ⟨w, p⟩ fun q =>
      p.passesTo d q ∧ q.lines = p.lines ∧ p.builtPlan q ∧ q.episode.records = p.episode.records ∧
      q.episode.areas = p.episode.areas

/-! ## Station edges (R71 to R77, R88) -/

/-- A leading edge within the outer window of the sheet it is matched to, the sensor's own or in dry run a synthesised one, is
taken as that sheet's arrival: its record moves on, and the station learns from it, its resynchronisation mark used up or, where
it falls OUT OF STEP with auto-resync ON, set. (A FINISHER OVERRUN is left to the statement about jams. An edge later than the
window, which the deadline precedes, is entry 2; that a sensor's edge moves its pin too is entry 4.) -/
def Obligations.LeadingEdgeTaken : Prop :=
  ∀ (w : List Instr) (p : Part) (c : Instr) (t : Tick) (st : Fin 24) (d : StationDef) (x : Sheet) (step : Step) (e : Expect),
    p.arrives c t st d x step e →
    Completes c ⟨w, p⟩ fun q =>
      p.passesTo t q ∧ q.lines = p.linesAfter d.line true ∧ q.episode = p.episode ∧
      p.tookArrival (laterOf p.tick t) x step e q

/-- The calls of a part, waiting and deferred. -/
def callsOf (p : Part) : List Call := p.calls.queue ++ p.calls.deferred

/-- The role actions of an arrival. At the first station the pick is confirmed and the clutch rests. At the first station of
MAIN after the DUPLEX leg the pass becomes FINAL. At EXIT a FIRST-pass sheet's only reservation is its RETURN over the DUPLEX
leg, and a NORMAL sheet with an unreleased back page calls it: into the queue while fewer than eight calls wait there, and
deferred otherwise. At a station of a tray, INSERT or DUPLEX leg the sheet's reservation is predicted anew over the rest of the
leg. The reservations of other sheets of the table stay. -/
def Obligations.RoleActions : Prop :=
  ∀ (w : List Instr) (p : Part) (c : Instr) (t : Tick) (st : Fin 24) (d : StationDef) (x : Sheet) (step : Step) (e : Expect),
    p.arrives c t st d x step e →
    Completes c ⟨w, p⟩ fun q =>
      let now := laterOf p.tick t
      let leadOver := fun (l : LegName) (behind : Nat) =>
        let way := (p.force.leg l).steps.drop behind
        plusInt (plusTicks now (transit ((way.map LegStep.dist).sum + (p.force.leg l).endDist) p.speed))
          (way.map fun y => (q.stations[y.station]).offset).sum
      let passing := dwell x.media p.speed
      (∀ r ∈ p.feed.merge, r.sheet ≠ x.number → r.sheet ≠ p.feed.nextSheet → r ∈ q.feed.merge) ∧
      (x.index = 0 → q.feed.unconfirmed ≠ some x.number ∧
        (q.feed.nextSheet = p.feed.nextSheet → q.out.clutch[x.source] = false)) ∧
      (∃ y ∈ q.table.sheets, y.number = x.number ∧ y.pass = (if x.returnsAt step = true then .final else x.pass)) ∧
      (d.role = .exit → step.leg = .main → x.pass = .first → x.returnsAt step = false →
        (∀ r, (r ∈ q.feed.merge ∧ r.sheet = x.number) ↔
          r = ⟨x.number, .return, leadOver .duplex 0, plusTicks (leadOver .duplex 0) passing⟩) ∧
        ∀ y ∈ q.table.sheets, y.number = x.number →
          if x.cond = .normal ∧ x.released = false ∧ x.back.isSome = true then
            y.backSide = .called ∧
            (p.link.sending.isSome = true → ∀ pg ∈ x.back,
              let way := p.force.through .registration (x.itinerary.drop (x.index + 1))
              let call : Call := ⟨pg.id, pg.side, x.number, plusInt (plusTicks now (transit (way.map Step.dist).sum p.speed))
                (way.map fun z => (q.stations[z.station]).offset).sum⟩
              if p.calls.queue.length < 8 then call ∈ q.calls.queue else call ∈ q.calls.deferred)
          else y.backSide = x.backSide) ∧
      (step.leg.hasEnd = true → d.role ≠ .exit → ∀ r, p.feed.merge.find? (fun z => z.sheet == x.number) = some r →
        let lead := leadOver step.leg step.pos
        ∀ r', (r' ∈ q.feed.merge ∧ r'.sheet = x.number) ↔ r' = { r with lead := lead, trail := plusTicks lead passing })

/-- The side of a sheet that an arrival at REGISTRATION brings under it: the back on the return pass of a DUPLEX sheet (R75,
R95). -/
def backPassesAt (x : Sheet) (step : Step) : Bool := x.kind == .duplex && (x.pass == .final || x.returnsAt step)

/-- The state of a side, and its page. -/
def sideOf (x : Sheet) (back : Bool) : SideState × Option Page := if back then (x.backSide, x.back) else (x.frontSide, x.front)

/-- The subjects of the spoil cascade of `x`: itself and every NORMAL sheet behind it (R97), but for one that has passed the
PURGE GATE (R87; entry 45). -/
def subjectOf (d : Desc) (x y : Sheet) : Bool :=
  y.number == x.number || (decide (x.number < y.number) && y.cond == .normal
    && (y.itinerary.take y.index).all fun z => d.roleOf z.station != some .purgeGate)

/-- The commit decision at REGISTRATION. The side that passes becomes VOID on a sheet PURGING or released; it keeps its state
without a page and on an INSERT; it is COMMITTED, its page's flag cleared, where the image is ready; and else SPOILED: the sheet
and every NORMAL sheet behind it become PURGING, their pages joining the Reprint List, one sheet spoiled is counted, the running
spoil count rises and SPOIL is pending. The calls of the side, or of the subjects, are gone. Every other sheet stays as it is.
(That a NORMAL sheet behind it but past the PURGE GATE is none of the subjects is entry 45.) -/
def Obligations.CommitDecided : Prop :=
  ∀ (w : List Instr) (p : Part) (c : Instr) (t : Tick) (st : Fin 24) (d : StationDef) (x : Sheet) (step : Step) (e : Expect),
    p.arrives c t st d x step e → d.role = .registration →
    Completes c ⟨w, p⟩ fun q =>
      let back := backPassesAt x step
      let page := (sideOf x back).2
      let voided := x.cond = .purging ∨ x.released = true
      let spoils := ¬ voided ∧ x.kind ≠ .insert ∧ page.any (fun g => !g.ready) = true
      (∀ y ∈ p.table.sheets, y.number ≠ x.number → (if spoils ∧ subjectOf p.force x y = true then p.spoiled y else y) ∈ q.table.sheets) ∧
      (∃ y ∈ q.table.sheets, y.number = x.number ∧
        if spoils then
          (sideOf y back).1 = .spoiled ∧ (sideOf y (!back)).1 = (sideOf x (!back)).1 ∧ y.front = none ∧ y.back = none ∧
          y.released = true ∧ y.cond = .purging ∧ y.dest = .purge ∧ y.itinerary = p.force.toPurge x.itinerary
        else
          sideOf y (!back) = sideOf x (!back) ∧ y.cond = x.cond ∧ y.dest = x.dest ∧ y.released = x.released ∧
          sideOf y back =
            if voided then (.void, page)
            else if x.kind = .insert ∨ page = none then sideOf x back
            else (.committed, page.map fun g => { g with ready := false })) ∧
      (∀ k ∈ callsOf q, ¬ (k.sheet = x.number ∧ (k.side == .back) = back)) ∧
      (if spoils then
        let gone := p.table.sheets.filter (subjectOf p.force x)
        (∀ k ∈ callsOf q, ∀ y ∈ gone, k.sheet ≠ y.number) ∧
        (q.feed.nextSheet = p.feed.nextSheet → q.planner.list.Perm
          (p.planner.list ++ (gone.flatMap fun y => y.front.toList ++ y.back.toList).map (⟨·, .spoiled⟩))) ∧
        countedUp p.stats.pathSet.width p.stats.path q.stats.path 4 ∧
        (p.link.sending.isSome = true → q.gate = { p.gate with spoilCount := p.gate.spoilCount + 1 } ∧
          (p.mask.spoil = true → ∀ g ∈ page, q.notices.spoil = some ⟨x.number, g.id, gone.length⟩))
      else (q.feed.nextSheet = p.feed.nextSheet → q.planner.list = p.planner.list) ∧
        (p.link.sending.isSome = true → q.gate = p.gate ∧ q.notices.spoil = p.notices.spoil))

/-- A jam the Sheet Tracker declares at a station (R90, R106). -/
def stationJam (p : Part) (kind : JamKind) (st : Fin 24) (tick : Tick) (x : Option Sheet) : Jam :=
  ⟨kind, some st, none, (p.force.stations[st]).map fun y => y.area.castSucc, x.map Sheet.number, tick,
    x.bind fun y => y.front.map Page.id, x.bind fun y => y.back.map Page.id⟩

/-- A leading edge, the sensor's own or a synthesised one, that is a jam: RESIDUAL in STARTING and SWEEPING (which bars the next
sweep); STAY at a station a moving sheet covers, UNEXPECTED PAPER where no sheet awaits the station or the one that does was
picked anew at that very tick (R20, and the model's reading of R73: entry 36), EARLY ARRIVAL before the outer window, FINISHER
OVERRUN at FINISHER ENTRY on a set being stapled or ejected, on one of another job or set number, or on as many sheets as the
tray holds. (In SWEEPING a synthesised edge is discarded.) In dry run the plan may be built at once. (The pin:
entry 4. An overrun has no latest tick: a late edge is entry 2.) -/
def Obligations.LeadingEdgeJams : Prop :=
  ∀ (w : List Instr) (p : Part) (c : Instr) (t : Tick) (st : Fin 24) (def_ : StationDef) (kind : JamKind) (x : Option Sheet),
    p.tableSound → p.brings c true st t → p.force.stations[st] = some def_ →
    ((p.feed.path = .starting ∨ (p.feed.path = .sweeping ∧ p.dry.on = false)) ∧ kind = .residual ∧ x = none ∨
      p.feed.path.tracks = true ∧
        ((kind = .stay ∧ ∃ k ∈ (p.stations[st]).cover, ∃ y ∈ p.table.sheets, y.number = k.sheet ∧ y.cond ≠ .stranded ∧ x = some y) ∨
          (kind = .unexpectedPaper ∧ x = none ∧
            (∀ k ∈ (p.stations[st]).cover, ∀ y ∈ p.table.sheets, y.number = k.sheet → y.cond = .stranded) ∧
            ∀ y ∈ p.table.sheets, y.candidateAt st (laterOf p.tick t) = false) ∨
          ∃ y ∈ p.table.sheets, x = some y ∧ ∃ step ∈ y.itinerary[y.index]?, ∃ e ∈ y.expect, p.matchesLead (laterOf p.tick t) st y step e ∧
            ((kind = .earlyArrival ∧ since e.e (laterOf p.tick t) < -(e.wj : Int)) ∨
              (kind = .finisherOverrun ∧ -(e.wj : Int) ≤ since e.e (laterOf p.tick t) ∧ def_.role = .finisherEntry ∧
                (p.finisher.state = .stapling ∨ p.finisher.state = .ejecting ∨
                  (p.finisher.state ≠ .empty ∧ p.finisher.ident ≠ some (y.job, y.set)) ∨
                  p.force.capacity ≤ p.finisher.sheets.length))))) →
    Completes c ⟨w, p⟩ fun q =>
      p.passesTo t q ∧ q.lines = p.linesAfter def_.line true ∧
      p.tookJam (stationJam p kind st (laterOf p.tick t) x) q ∧
      (q.feed.path = .halting ∨ q.feed.path = .held ∨ (p.dry.on = true ∧ q.feed.path = .resumable)) ∧
      (p.feed.path = .sweeping → q.feed.path = .held ∧ q.episode.barred = true ∧ q.episode.sweepTimer = none) ∧
      countedUp p.stats.stationSet.width (p.stats.station[st]) (q.stats.station[st]) 2

/-- A trailing edge, the sensor's own or a synthesised one, at the final entry station of a sheet delivers it: its record leaves
the table. Its pages are counted delivered at a bin, the sheet joins the Compile Set at the finisher (counted compiled at once
with a settle time of 0), and the purge count rises at the purge bin outside dry run. (A dry run that ends its HALTING with this
edge may build the plan at once, which takes the stranded sheets and a disturbed set. The pin: entry 4. With settle time 0 the
record goes first: entry 39. That a sheet joins also a set that began STAPLING or EJECTING while it stood under the station is
entry 40.) -/
def Obligations.SheetDelivered : Prop :=
  ∀ (w : List Instr) (p : Part) (c : Instr) (t : Tick) (st : Fin 24) (def_ : StationDef) (x : Sheet) (k : Cover),
    p.departs c t st def_ x k →
    (x.itinerary.head?).map Step.station ≠ some st → (x.itinerary.getLast?).map Step.station = some st →
    Completes c ⟨w, p⟩ fun q =>
      p.passesTo t q ∧ q.lines = p.linesAfter def_.line false ∧ (q.stations[st]).cover = none ∧
      (∀ y ∈ q.table.sheets, y.number ≠ x.number) ∧
      (∀ y ∈ p.table.sheets, y.number ≠ x.number → y ∈ q.table.sheets ∨ (q.feed.path = .resumable ∧ y.cond = .stranded)) ∧
      (def_.role = .binEntry0 ∨ def_.role = .binEntry1 →
        p.countedDelivered x.job x.pages q ∧ countedUp p.stats.pathSet.width p.stats.path q.stats.path 1) ∧
      (def_.role = .finisherEntry → 0 < p.finisherSet.settle → q.feed.path ≠ .resumable →
        q.finisher.sheets = p.finisher.sheets ++ [⟨x.number, x.job, x.set, x.pages, x.staple, x.lastOfSet, q.tick, true,
          plusTicks q.tick p.finisherSet.settle⟩] ∧
        (p.finisher.state = .empty → q.finisher.ident = some (x.job, x.set))) ∧
      (def_.role = .finisherEntry → p.finisherSet.settle = 0 →
        countedUp p.stats.pathSet.width p.stats.path q.stats.path 2) ∧
      (def_.role = .purgeEntry → q.gate.purgeCount = (if p.dry.on = true then p.gate.purgeCount else p.gate.purgeCount + 1) ∧
        countedUp p.stats.pathSet.width p.stats.path q.stats.path 3)

/-- A trailing edge, the sensor's own or a synthesised one, at a station covered by a moving sheet that neither ends its way nor
is its first: the covering entry goes, the sheet's covering station becomes the latest other whose entry still names it or none,
its reservation (RETURN on the return pass of a DUPLEX sheet, otherwise FEED) goes at the first station of MAIN and every other
one of a number given stays, and the sheet stays. (The pin: entry 4.)

A trailing edge, the sensor's own or a synthesised one, at a sheet's first station checks its length: MULTIFEED above the media
length by more than the allowance, SIZE MISMATCH below it by more, and otherwise no jam. (The pin: entry 4.) -/
def Obligations.StationUncovered : Prop :=
  (∀ (w : List Instr) (p : Part) (c : Instr) (t : Tick) (st : Fin 24) (def_ : StationDef) (x : Sheet) (k : Cover),
     p.departs c t st def_ x k →
     (x.itinerary.head?).map Step.station ≠ some st → (x.itinerary.getLast?).map Step.station ≠ some st →
     Completes c ⟨w, p⟩ fun q =>
       let atMain := ((p.force.leg .main).steps.head?).map LegStep.station = some st
       let latest := ((x.itinerary.take x.index).reverse.map Step.station).find? fun i =>
         i != st && ((p.stations[i]).cover).any fun z => z.sheet == x.number
       let ends : ResvKind := if x.kind = .duplex ∧ x.pass = .final then .return else .feed
       p.passesTo t q ∧ q.lines = p.linesAfter def_.line false ∧ q.episode = p.episode ∧
       (q.stations[st]).cover = none ∧ (∀ other : Fin 24, other ≠ st → q.stations[other] = p.stations[other]) ∧
       { x with covering := if x.covering = some st then latest else x.covering } ∈ q.table.sheets ∧
       (∀ r ∈ p.feed.merge, r.sheet ≠ p.feed.nextSheet → r ∈ q.feed.merge ∨ (atMain ∧ r.sheet = x.number ∧ r.kind = ends)) ∧
       (atMain → ∀ r ∈ q.feed.merge, r.sheet = x.number → r.kind ≠ ends)) ∧
  ∀ (w : List Instr) (p : Part) (c : Instr) (t : Tick) (st : Fin 24) (def_ : StationDef) (x : Sheet) (k : Cover),
    p.departs c t st def_ x k →
    (x.itinerary.head?).map Step.station = some st → (x.itinerary.getLast?).map Step.station ≠ some st →
    Completes c ⟨w, p⟩ fun q =>
      let length := ((since k.lead (laterOf p.tick t)).toNat * p.speed + 1000) / 2000
      let margin := p.force.timing.multifeed
      p.passesTo t q ∧ q.lines = p.linesAfter def_.line false ∧ (q.stations[st]).cover = none ∧
      if x.media + margin < length then
        p.tookJam (stationJam p .multifeed st q.tick (some x)) q ∧ countedUp p.stats.pathSet.width p.stats.path q.stats.path 5
      else if length + margin < x.media then p.tookJam (stationJam p .sizeMismatch st q.tick (some x)) q
      else q.episode = p.episode ∧ ∃ y ∈ q.table.sheets, y = { x with covering := y.covering }

/-! ## Deadlines (R62, R78) -/

/-- A leading deadline's expiry: in RUNNING and DRAINING a sheet not yet arrived anywhere is picked again while attempts remain
and its tray is available, its reservation predicted anew from the pick roller, and is a MISFEED otherwise; any other is a NO
ARRIVAL. (A sheet without an armed deadline has none to
expire: entry 2, the model's choice.)

A trailing deadline's expiry is a STAY at its station, naming the covering sheet. (A station without an armed deadline has none
to expire: entry 2, the model's choice.) -/
def Obligations.Deadlines : Prop :=
  (∀ (w : List Instr) (p : Part) (x : Sheet) (step : Step) (d : Tick), p.tableSound → x ∈ p.table.sheets →
     (x.deadline = none → exec (.leadingDeadlineExpiry x.number) ⟨w, p⟩ = .next ⟨w, p⟩) ∧
     (x.deadline = some d → x.itinerary[x.index]? = some step → p.feed.path.takesJams = true →
       Completes (.leadingDeadlineExpiry x.number) ⟨w, p⟩ fun q =>
         let now := laterOf p.tick d
         p.passesTo d q ∧ q.lines = p.lines ∧
         if x.index = 0 ∧ (p.feed.path = .running ∨ p.feed.path = .draining) then
           if x.attempts ≤ p.retriesOf x.source ∧ p.trayAvailable x.source = true then
             (∃ y ∈ q.table.sheets, y.number = x.number ∧ y.attempts = x.attempts + 1 ∧ y.anchor = now ∧ y.index = 0 ∧
               y.expect = some (expectAt p.force.timing p.speed now step.dist (p.stations[step.station]).offset) ∧
               y.deadline = y.expect.map fun z => plusTicks z.e z.wj) ∧
             (p.dry.on = true →
               p.scheduledEdge now x.number step.station now (transit step.dist p.speed) (dwell x.media p.speed) q) ∧
             (∀ r, p.feed.merge.find? (fun z => z.sheet == x.number) = some r →
               let lead := p.rollerLead x.source now
               ∀ r', (r' ∈ q.feed.merge ∧ r'.sheet = x.number) ↔
                 r' = { r with lead := lead, trail := plusTicks lead (dwell x.media p.speed) }) ∧
             (∀ r ∈ p.feed.merge, r.sheet ≠ x.number → r.sheet ≠ p.feed.nextSheet → r ∈ q.feed.merge) ∧
             q.out.clutch[x.source] = true ∧ q.episode = p.episode ∧
             countedUp p.stats.traySet.width (p.stats.tray[x.source]) (q.stats.tray[x.source]) 1
           else
             p.tookJam (stationJam p .misfeed step.station d (some x)) q ∧ q.out.clutch[x.source] = false ∧
             countedUp p.stats.traySet.width (p.stats.tray[x.source]) (q.stats.tray[x.source]) 2
         else p.tookJam (stationJam p .noArrival step.station d (some x)) q ∧
           countedUp p.stats.stationSet.width (p.stats.station[step.station]) (q.stats.station[step.station]) 2)) ∧
  ∀ (w : List Instr) (p : Part) (st : Fin 24),
    (∀ (c : Cover) (d : Tick), (p.stations[st]).cover = some c → c.deadline = some d → p.feed.path.takesJams = true →
      Completes (.trailingDeadlineExpiry st) ⟨w, p⟩ fun q =>
        p.passesTo d q ∧ q.lines = p.lines ∧
        p.tookJam (stationJam p .stay st d (p.table.sheets.find? fun x => x.number == c.sheet)) q ∧
        ((q.stations[st]).cover = none ∨ (q.stations[st]).cover = some { c with deadline := none }) ∧
        countedUp p.stats.stationSet.width (p.stats.station[st]) (q.stats.station[st]) 2) ∧
    ((p.stations[st]).cover.bind Cover.deadline = none → exec (.trailingDeadlineExpiry st) ⟨w, p⟩ = .next ⟨w, p⟩)

/-- A synthesised station edge `e`, the next of its station and direction, leaves the schedule: whatever becomes of it, at most the
other edges equal to it stay there. It is delivered in dry run in
STARTING, RUNNING, DRAINING and HALTING, as the statements about edges say, and discarded elsewhere (left over from a dry run
that has ended: entry 24): then it moves no sheet, and in HELD has the clearance judged. At a station no longer defined in force
it is discarded there too, opening no episode and counting nothing (entry 46). A leading edge delivered and taken
schedules its trailing edge, the sheet's dwell and its STRETCH later; an EXTRA one schedules none. A trailing edge delivered
schedules one spurious pair for each EXTRA fault of its sheet: 1,000 ticks on, and a dwell after that. -/
def Obligations.SynthesisedEdge : Prop :=
  ∀ (w : List Instr) (p : Part) (e : Edge), p.tableSound → p.dry.nextEdge e.station e.leading = some e →
    let c := Instr.synthesisedStationEdge e.station e.leading
    let left := p.dry.schedule.erase e
    let gone := fun q : Part => q.dry.schedule.count e ≤ left.count e
    let wanted := p.dry.on = true ∧
      (p.feed.path = .starting ∨ p.feed.path = .running ∨ p.feed.path = .draining ∨ p.feed.path = .halting)
    let delivered := wanted ∧ (p.force.stations[e.station]).isSome = true
    (wanted → p.force.stations[e.station] = none → Completes c ⟨w, p⟩ fun q =>
      p.passesTo e.tick q ∧ q.lines = p.lines ∧ q.stations = p.stations ∧ q.episode = p.episode ∧
      q.stats.station = p.stats.station ∧ (∀ y ∈ p.table.sheets, y ∈ q.table.sheets) ∧ gone q ∧
      ∃ more, q.dry.schedule = left ++ more ∧ ∀ a ∈ more, a.sheet = some p.feed.nextSheet) ∧
    (¬ wanted → Completes c ⟨w, p⟩ fun q =>
      p.passesTo e.tick q ∧ q.lines = p.lines ∧ gone q ∧ (∀ a ∈ q.dry.schedule, a ∈ left) ∧
      (p.feed.path = .held → p.episode.isOpen = true → sweptIfClear p p q.tick q) ∧
      (p.feed.path ≠ .held → (p.feed.path = .idle → p.noPages) →
        q.dry.schedule = left ∧ q.stations = p.stations ∧ q.episode = p.episode ∧ ∀ y ∈ p.table.sheets, y ∈ q.table.sheets)) ∧
    (delivered → e.leading = true → Completes c ⟨w, p⟩ fun q =>
      p.passesTo e.tick q ∧ q.lines = p.lines ∧ gone q ∧
      (e.sheet = none → ∀ a ∈ q.dry.schedule, a.leading = false → a ∈ p.dry.schedule) ∧
      ∀ d x step f, e.sheet.isSome = true → p.arrives c e.tick e.station d x step f →
        { e with leading := false, tick := plusTicks e.tick (e.dwell + e.stretch), stretch := 0 } ∈ q.dry.schedule) ∧
    (delivered → e.leading = false → Completes c ⟨w, p⟩ fun q =>
      p.passesTo e.tick q ∧ q.lines = p.lines ∧ gone q ∧
      ∀ lead, let gap := if lead then 1000 else 1000 + e.dwell
        let extra := { e with leading := lead, tick := plusTicks e.tick gap, sheet := none, extras := 0 }
        q.dry.schedule.count extra = left.count extra + e.extras)

/-- The Fault Plan fires. At an arrival in dry run the leading edge at the next step is scheduled at anchor + T, moved by its
DELAYs, or withheld by an OMIT, carrying its STRETCHes and EXTRAs, and the entries that fire are spent (a pick and a pick retry
do the same: their statements). Where a set enters STAPLING, a NO STAPLE entry of a sheet it holds withholds the staple-home
edge and is spent; otherwise that edge is scheduled at the nominal staple time. -/
def Obligations.FaultsFire : Prop :=
  ∀ (w : List Instr) (p : Part), p.dry.on = true →
    (∀ (c : Instr) (t : Tick) (st : Fin 24) (d : StationDef) (x : Sheet) (step next : Step) (e : Expect),
      p.arrives c t st d x step e → x.itinerary[x.index + 1]? = some next →
      Completes c ⟨w, p⟩ fun q =>
        p.scheduledEdge (laterOf p.tick t) x.number next.station (laterOf p.tick t) (transit next.dist p.speed)
          (dwell x.media p.speed) q) ∧
    ∀ t : Tick, p.finisher.state = .compiling → p.finisher.closed = true → p.finisher.disturbed = false →
      p.finisher.sheets ≠ [] → (∀ h ∈ p.finisher.sheets, h.settling = false) → p.episode.isOpen = false → p.anyDoorOpen = false →
      p.finisher.toStaple = true → p.finisher.stapled = false → p.finisher.skipped = false → p.finisher.abandoned = false →
      Completes (.setCycleStart t) ⟨w, p⟩ fun q =>
        let fires := fun x : FaultEntry => !x.spent && x.kind == .noStaple &&
          p.finisher.sheets.any fun h => x.ordinal == h.number + 1 - p.dry.firstSheet
        q.finisher.state = .stapling ∧
        (q.feed.nextSheet = p.feed.nextSheet → q.dry = if p.dry.plan.any fires = true then
            { p.dry with plan := p.dry.plan.map fun x => if fires x then { x with spent := true } else x }
          else { p.dry with home := some ⟨true, plusTicks q.tick p.finisherSet.nominal⟩ })

/-! ## The Finisher Unit (R149 to R154, R169) -/

/-- A staple-home edge in STAPLING, real outside dry run or synthesised in it: the stapler rests, the set is stapled and
counted, and its final eject begins, with twice the eject time to reach home. (The pin: entry 4.)

An eject-home edge in EJECTING, real outside dry run or synthesised in it: the ejector rests and the pages held are counted
delivered. A partial eject leaves the set open with its sheets counted ejected, unless the set is finished at once; a final one
leaves it EMPTY, counts a set unless it was abandoned, and makes SET DONE pending where its kind is enabled (which outcome wins
where several hold is entry 19). -/
def Obligations.HomeEdges : Prop :=
  (∀ (w : List Instr) (p : Part) (c : Instr) (t : Tick),
     (c = .stapleHomeEdge t true ∧ p.dry.on = false ∧ p.force.finisher.isSome = true) ∨
       (c = .synthesisedHomeEdge ∧ p.dry.on = true ∧ p.dry.home = some ⟨true, t⟩) →
     p.finisher.state = .stapling →
     Completes c ⟨w, p⟩ fun q =>
       p.passesTo t q ∧ q.out.stapler = false ∧ q.out.ejector = true ∧
       q.finisher = { p.finisher with
         state := .ejecting, stapled := true, split := false, stapleLimit := none
         ejectLimit := some (plusTicks q.tick (2 * p.finisherSet.eject)) } ∧
       q.dry.home = (if p.dry.on then some ⟨false, plusTicks q.tick p.finisherSet.eject⟩ else none) ∧
       countedUp p.stats.pathSet.width p.stats.path q.stats.path 7) ∧
  ∀ (w : List Instr) (p : Part) (c : Instr) (t : Tick),
    (c = .ejectHomeEdge t true ∧ p.dry.on = false ∧ p.force.finisher.isSome = true) ∨
      (c = .synthesisedHomeEdge ∧ p.dry.on = true ∧ p.dry.home = some ⟨false, t⟩) →
    p.finisher.state = .ejecting →
    Completes c ⟨w, p⟩ fun q =>
      p.passesTo t q ∧ q.out.ejector = false ∧
      p.countedDelivered (p.finisher.ident.getD (0, 0)).1 (p.finisher.sheets.flatMap Held.pages) q ∧
      if p.finisher.split = true then
        q.finisher = .reset ∨ (q.finisher.sheets = [] ∧ q.finisher.split = false ∧ q.finisher.ejectLimit = none ∧
          q.finisher.ident = p.finisher.ident ∧
          (p.finisher.ejected + p.finisher.sheets.length ≤ 65535 →
            q.finisher.ejected = p.finisher.ejected + p.finisher.sheets.length))
      else q.finisher = .reset ∧
        (p.finisher.abandoned = false → countedUp p.stats.pathSet.width p.stats.path q.stats.path 8) ∧
        (p.mask.setDone = true → p.link.sending.isSome = true → ∀ id, p.finisher.ident = some id →
          q.notices.setDone = some ⟨id.1, id.2, p.finisher.ejected + p.finisher.sheets.length,
            if p.finisher.abandoned = true then .abandoned else if p.finisher.stapled = true then .stapled
            else if p.finisher.skipped = true then .stapleSkipped else .unstapled⟩)

/-- An edge of a station sensor where nothing tracks it is level only. A leading edge in UNCONFIGURED, RESUMABLE, HELD (where
paper then stands under it) and, with no page to start for, IDLE, and a trailing edge there and in STARTING and SWEEPING, moves
no sheet, no covering entry and no record; a trailing edge in HELD has the clearance judged again. In dry run real edges move
nothing but the level while a frame is being sent. (The pin: entry 4.)

A home line that goes off, and in dry run one that asserts, moves its level alone while a frame is being sent. (The pin: entry
4.) -/
def Obligations.LevelOnlyEdges : Prop :=
  (∀ (w : List Instr) (p : Part) (t : Tick) (st : Fin 24) (def_ : StationDef) (leading : Bool),
     p.tableSound → p.force.stations[st] = some def_ →
     (let c : Instr := if leading then .stationLeadingEdge t st else .stationTrailingEdge t st
     let untracked := p.feed.path = .unconfigured ∨ p.feed.path = .resumable ∨ (p.feed.path = .idle ∧ p.noPages) ∨
       if leading then p.feed.path = .held else p.feed.path = .starting ∨ p.feed.path = .sweeping
     (untracked → p.dry.on = false → Completes c ⟨w, p⟩ fun q =>
       p.passesTo t q ∧ q.lines = p.lines.edge p.force.inputs def_.line leading ∧ q.feed.path = p.feed.path ∧
       q.table = p.table ∧ q.stations = p.stations ∧ q.episode = p.episode ∧ q.planner = p.planner) ∧
     (leading = false → p.feed.path = .held → p.episode.isOpen = true → p.dry.on = false → Completes c ⟨w, p⟩ fun q =>
       p.passesTo t q ∧ q.lines = p.lines.edge p.force.inputs def_.line leading ∧ q.stations = p.stations ∧
       sweptIfClear p { p with lines := q.lines } q.tick q) ∧
     (p.dry.on = true → p.link.sending.isSome = true → exec c ⟨w, p⟩ = .next ⟨w, { p with
       tick := laterOf p.tick t, lines := p.lines.edge p.force.inputs def_.line leading }⟩))) ∧
  ∀ (w : List Instr) (p : Part) (t : Tick) (asserted : Bool) (x : FinisherSet), p.force.finisher = some x →
    asserted = false ∨ p.dry.on = true → p.link.sending.isSome = true →
    exec (.stapleHomeEdge t asserted) ⟨w, p⟩ = .next ⟨w, { p with
      tick := laterOf p.tick t, lines := p.lines.edge p.force.inputs x.stapleHome asserted }⟩ ∧
    exec (.ejectHomeEdge t asserted) ⟨w, p⟩ = .next ⟨w, { p with
      tick := laterOf p.tick t, lines := p.lines.edge p.force.inputs x.ejectHome asserted }⟩

/-- The limits: the staple limit in STAPLING leaves the set FAULTED and the eject limit in EJECTING leaves it RETAINED, the
output at rest, and either declares a STAPLE FAIL, which opens an episode even in IDLE and in UNCONFIGURED is held over to the
next PATH CLOSE. (Its tick is held over with it: entry 43, the model's reading. Of an undisturbed set, as every set in
a cycle is.) -/
def Obligations.FinisherLimits : Prop :=
  ∀ (w : List Instr) (p : Part) (d : Tick), p.finisher.disturbed = false →
    (p.finisher.state = .stapling → p.finisher.stapleLimit = some d → Completes .stapleLimitExpiry ⟨w, p⟩ fun q =>
      p.passesTo d q ∧ q.lines = p.lines ∧ q.finisher = { p.finisher with state := .faulted, stapleLimit := none } ∧
      q.out.stapler = false ∧
      (p.feed.path = .idle ∨ p.feed.path.takesJams = true →
        p.tookJam ⟨.stapleFail, none, none, some 8, none, d, none, none⟩ q) ∧
      (p.feed.path = .unconfigured → q.feed.path = .unconfigured ∧ q.episode.isOpen = p.episode.isOpen ∧
        q.episode.records = p.episode.records ∧ q.episode.heldOver = some d)) ∧
    (p.finisher.state = .ejecting → p.finisher.ejectLimit = some d → Completes .ejectLimitExpiry ⟨w, p⟩ fun q =>
      p.passesTo d q ∧ q.lines = p.lines ∧ q.finisher.state = .retained ∧ q.finisher.ejectLimit = none ∧
      q.finisher.sheets = p.finisher.sheets ∧ q.out.ejector = false ∧
      (p.feed.path = .idle ∨ p.feed.path.takesJams = true →
        p.tookJam ⟨.stapleFail, none, none, some 8, none, d, none, none⟩ q) ∧
      (p.feed.path = .unconfigured → q.feed.path = .unconfigured ∧ q.episode.isOpen = p.episode.isOpen ∧
        q.episode.records = p.episode.records ∧ q.episode.heldOver = some d))

/-- The settle expiry of the first settling sheet completes its compile: it settles no longer, its staple flag joins the set's,
and one sheet compiled is counted. (Of a disturbed set in HELD in dry run only the count is said: a plan build that follows at
once there empties it.) When it closes the set and nothing holds the set back, the cycle starts: to STAPLING where
the set is to be stapled, and to EJECTING otherwise. When it leaves the set holding C sheets, none settling, and nothing closes
the set, the set is split: its staple is skipped, and a COMPILING set enters EJECTING with a partial eject at once, a RETAINED one
with its eject marked as a partial one.

SET_CYCLE_START: a closed COMPILING set, undisturbed, none of its sheets settling, with no episode open and no door open, is
stapled if it is to be and was not, and is ejected otherwise; without a sheet it is finished at once. A set neither COMPILING
nor RETAINED is left alone.

RESUME of a RETAINED set, undisturbed and none of its sheets settling: a closed one starts its cycle, and one that holds C sheets
and is not closed is split and makes its partial eject. -/
def Obligations.SetCycles : Prop :=
  (∀ (w : List Instr) (p : Part) (before after : List Held) (h : Held), p.finisher.sheets = before ++ h :: after →
     (∀ y ∈ before, y.settling = false) → h.settling = true →
     Completes .settleExpiry ⟨w, p⟩ fun q =>
       p.passesTo h.settleAt q ∧ q.lines = p.lines ∧ countedUp p.stats.pathSet.width p.stats.path q.stats.path 2 ∧
       (p.feed.path ≠ .held ∨ p.dry.on = false ∨ p.finisher.disturbed = false →
         q.finisher.sheets = before ++ { h with settling := false } :: after ∧
         q.finisher.toStaple = (p.finisher.toStaple || h.staple)) ∧
       (h.lastOfSet = true → (∀ y ∈ after, y.settling = false) → p.finisher.state = .compiling → p.finisher.disturbed = false →
         p.episode.isOpen = false → p.anyDoorOpen = false →
         if q.finisher.toStaple = true ∧ p.finisher.stapled = false ∧ p.finisher.skipped = false ∧ p.finisher.abandoned = false then
           q.finisher.state = .stapling ∧ q.out.stapler = true ∧
           q.finisher.stapleLimit = some (plusTicks q.tick p.finisherSet.limit)
         else q.finisher.state = .ejecting ∧ q.out.ejector = true ∧
           q.finisher.ejectLimit = some (plusTicks q.tick (2 * p.finisherSet.eject))) ∧
       ((∀ y ∈ after, y.settling = false) → p.fullUnclosed (before ++ h :: after) →
         (p.finisher.state = .compiling → p.inPartialEject q.tick q) ∧
         (p.finisher.state = .retained →
           q.finisher.state = .retained ∧ q.finisher.skipped = true ∧ q.finisher.split = true))) ∧
  (∀ (w : List Instr) (p : Part) (t : Tick), p.canAccept → p.feed.path = .resumable → p.planner.readThrough = true →
     p.clearance → p.finisher.state = .retained → p.finisher.disturbed = false →
     (∀ h ∈ p.finisher.sheets, h.settling = false) → Completes (.resume t []) ⟨w, p⟩ fun q =>
       p.repliedTo t 0x14 [] [0x00] q ∧ q.feed.path = .starting ∧
       (p.finisher.closed = true → p.finisher.sheets ≠ [] → p.inFinalCycle q.tick q) ∧
       (p.fullUnclosed p.finisher.sheets → p.inPartialEject q.tick q ∧ q.finisher.sheets = p.finisher.sheets)) ∧
  ∀ (w : List Instr) (p : Part) (t : Tick),
    (p.finisher.state = .compiling → p.finisher.closed = true → p.finisher.disturbed = false →
      (∀ h ∈ p.finisher.sheets, h.settling = false) → p.episode.isOpen = false → p.anyDoorOpen = false →
      Completes (.setCycleStart t) ⟨w, p⟩ fun q =>
        p.passesTo t q ∧ q.lines = p.lines ∧
        if p.finisher.sheets = [] then q.finisher = .reset ∧ q.out.ejector = false else p.inFinalCycle q.tick q) ∧
    (p.finisher.state ≠ .compiling → p.finisher.state ≠ .retained → Completes (.setCycleStart t) ⟨w, p⟩ fun q =>
      p.passesTo t q ∧ q.lines = p.lines ∧ q.finisher = p.finisher)

/-! ## The Feed Scheduler (R44 to R47, R50, R57 to R61) -/

/-- PICK in RUNNING, and the expiry of the pick timer there with no set cycle due, where the path need not drain and its next
page, the head of the Reprint List or else of the active queue, is of the current class. Where that page meets the pick conditions and its earliest pick tick has come, a new sheet joins
the table, bound to the page and numbered next; the tray's clutch is pulsed, the pick is unconfirmed, its FEED reservation
stands, its first deadline is armed, and in dry run its first edge is scheduled.

Where the conditions hold and that tick is still to come, the pick timer is armed for it; where they fail, it is cancelled; and
no sheet joins. (The earliest tick rests on entries 21 and 47 for the set gap, and on entry 37 for a pick ahead of an earlier
sheet's reservation.) -/
def Obligations.PickMade : Prop :=
  ∀ (w : List Instr) (p : Part) (c : Instr) (t u : Tick) (n : NextPage), p.tableSound →
    c = .pick t ∨ (c = .pickTimerExpiry ∧ p.feed.pickTimer = some t ∧ p.judgeClosure.cycleReady = false) →
    p.feed.path = .running → p.nextUp = some n → p.feed.hold = false → p.feed.exhausted = false →
    n.front.cls = p.feed.cls →
    (¬ (p.atTick t).mayPick n → p.link.sending.isSome = true → Completes c ⟨w, p⟩ fun q =>
      p.passesTo t q ∧ q.lines = p.lines ∧ q.feed.path = .running ∧ q.feed.pickTimer = none ∧ q.table = p.table) ∧
    ((p.atTick t).mayPick n → (p.atTick t).picksAt n u → notAfter u (laterOf p.tick t) = false → Completes c ⟨w, p⟩ fun q =>
      p.passesTo t q ∧ q.lines = p.lines ∧ q.feed.path = .running ∧ q.feed.pickTimer = some u ∧ q.table = p.table ∧
      q.feed.unconfirmed = none) ∧
    ((p.atTick t).mayPick n → (p.atTick t).picksAt n u → notAfter u (laterOf p.tick t) = true → Completes c ⟨w, p⟩ fun q =>
      let now := laterOf p.tick t
      let num := p.feed.nextSheet
      let bind := fun x : Page => if n.source.isSome then { x with origin := some num } else x
      p.passesTo t q ∧ q.lines = p.lines ∧ q.episode = p.episode ∧ q.feed.nextSheet = num + 1 ∧ q.feed.pickTimer = none ∧
      q.feed.unconfirmed = some num ∧ q.out.clutch[n.unit] = true ∧
      (let lead := p.pickLead n now
       q.feed.merge.filter (fun r => r.sheet == num)
         = [⟨num, .feed, lead, plusTicks lead (dwell n.front.media p.speed)⟩]) ∧
      (∀ r ∈ p.feed.merge, r.sheet ≠ num → r ∈ q.feed.merge) ∧
      (p.dry.on = true → ∀ z ∈ (p.force.itinerary n.kind n.unit n.front.destination).head?,
        p.scheduledEdge now num z.station now (transit z.dist p.speed) (dwell n.front.media p.speed) q) ∧
      (∃ y, q.table.sheets = p.table.sheets ++ [y] ∧ y.number = num ∧ y.source = n.unit ∧ y.kind = n.kind ∧
        y.front = some (bind n.front) ∧ y.back = n.back.map bind ∧ y.blankBack = (n.kind == .duplex && n.back.isNone) ∧
        y.job = n.front.job ∧ y.set = n.front.set ∧ y.firstOfSet = n.front.firstOfSet ∧
        y.lastOfSet = (n.front.lastOfSet || n.back.any Page.lastOfSet) ∧ y.staple = n.front.staple ∧ y.media = n.front.media ∧
        y.cls = n.front.cls ∧ y.dest = n.front.destination ∧ y.pass = (if n.kind = .duplex then .first else .final) ∧
        y.itinerary = p.force.itinerary n.kind n.unit n.front.destination ∧ y.index = 0 ∧ y.attempts = 1 ∧ y.anchor = now ∧
        y.cond = .normal ∧ y.released = false ∧ y.covering = none ∧
        y.expect = (y.itinerary.head?).map (fun z =>
          expectAt p.force.timing p.speed now z.dist (p.stations[z.station]).offset) ∧
        y.deadline = y.expect.map fun z => plusTicks z.e z.wj) ∧
      (∀ x : Queue, q.intake.queue x = if n.source = some x then (p.intake.queue x).drop (1 + n.back.toList.length)
        else p.intake.queue x) ∧
      q.planner.list = (if n.source = none then p.planner.list.drop (1 + n.back.toList.length) else p.planner.list) ∧
      countedUp p.stats.traySet.width (p.stats.tray[n.unit]) (q.stats.tray[n.unit]) 0 ∧
      countedUp p.stats.pathSet.width p.stats.path q.stats.path 0)

/-- The scheduler's other timers: the holdoff in RUNNING without a page drains the path, the ramp in STARTING ends in RUNNING
(or in DRAINING where the path must drain at once), and the run-on in DRAINING ends in IDLE with the drives stopped where
nothing starts the path again. (That an idle timer does not expire is the model's choice: entry 2.) -/
def Obligations.FeedTimers : Prop :=
  ∀ (w : List Instr) (p : Part) (d : Tick),
    (p.feed.holdoff = some d → p.feed.path = .running → p.noPages → Completes .starvationHoldoffExpiry ⟨w, p⟩ fun q =>
      p.passesTo d q ∧ q.lines = p.lines ∧ q.feed.path = .draining ∧ q.feed.holdoff = none ∧ q.feed.pickTimer = none ∧
      q.table = p.table ∧ (p.table.sheets = [] →
        q.feed.runOn = some (plusTicks q.tick ((p.force.drive.map DriveSet.runOn).getD 0)))) ∧
    (p.feed.ramp = some d → p.feed.path = .starting → Completes .rampTimerExpiry ⟨w, p⟩ fun q =>
      p.passesTo d q ∧ q.lines = p.lines ∧ q.feed.ramp = none ∧ q.episode = p.episode ∧
      (q.feed.path = .running ∨ q.feed.path = .draining) ∧
      (p.noPages → p.feed.hold = false → p.feed.exhausted = false → q.feed.path = .running ∧ q.table = p.table)) ∧
    (p.feed.runOn = some d → p.feed.path = .draining →
      p.noPages ∨ p.feed.hold = true ∨ p.feed.exhausted = true ∨ p.anyDoorOpen = true →
      Completes .runOnTimerExpiry ⟨w, p⟩ fun q =>
        p.passesTo d q ∧ q.lines = p.lines ∧ q.feed.path = .idle ∧ q.feed.runOn = none ∧ q.out.drives false ∧
        q.feed.normalMark = true ∧ q.feed.priorityMark = true ∧ q.feed.lastBound = none) ∧
    (p.feed.pickTimer = none → exec .pickTimerExpiry ⟨w, p⟩ = .next ⟨w, p⟩) ∧
    (p.feed.holdoff = none → exec .starvationHoldoffExpiry ⟨w, p⟩ = .next ⟨w, p⟩) ∧
    (p.feed.ramp = none → exec .rampTimerExpiry ⟨w, p⟩ = .next ⟨w, p⟩) ∧
    (p.feed.runOn = none → exec .runOnTimerExpiry ⟨w, p⟩ = .next ⟨w, p⟩)

/-- PATH_START in IDLE: with a page to bind, no hold, every door closed, the Compile Set neither FAULTED nor RETAINED and
numbers left, the path is STARTING in that page's class with the drives running and the ramp timer armed, or a RESIDUAL episode
opens where a station reads paper; otherwise it stays IDLE. The page is the head of the Reprint List, or else of the active
queue, which the selector names once judged. (What counts as a page to bind: entry 32.)

DRAIN_RETURN in DRAINING: with no hold, numbers left and a page of the current class to bind, the path returns to RUNNING and
its run-on timer is cancelled, unless it binds a sheet at once and drains again; otherwise it stays. -/
def Obligations.PathStartAndReturn : Prop :=
  (∀ (w : List Instr) (p : Part) (t : Tick), p.feed.path = .idle → Completes (.pathStart t) ⟨w, p⟩ fun q =>
     p.passesTo t q ∧ q.lines = p.lines ∧ q.intake.normal = p.intake.normal ∧ q.intake.priority = p.intake.priority ∧
     q.planner = p.planner ∧
     q.feed.selector = p.activeQueue ∧
     if p.nextUp.isSome = true ∧ p.feed.hold = false ∧ p.anyDoorOpen = false ∧ p.finisher.state ≠ .faulted ∧
         p.finisher.state ≠ .retained ∧ p.feed.exhausted = false then
       (∀ n ∈ p.nextUp, q.feed.cls = n.front.cls ∧ q.out.presented = n.front.cls) ∧
       if p.anyPaper = false then
         q.feed.path = .starting ∧ q.out.drives true ∧ q.table = p.table ∧ q.episode = p.episode ∧
         q.feed.ramp = some (plusTicks q.tick ((p.force.drive.map DriveSet.ramp).getD 0))
       else q.feed.path.inEpisode = true ∧ q.episode.isOpen = true ∧ q.episode.number = p.episode.number + 1 ∧
         q.episode.firstKind = some .residual ∧
         q.episode.records.head? = ((List.finRange 24).find? p.paperAt).map fun st => stationJam p .residual st q.tick none
     else q.feed.path = .idle ∧ q.table = p.table ∧ q.episode = p.episode) ∧
  ∀ (w : List Instr) (p : Part) (t : Tick), p.feed.path = .draining → Completes (.drainReturn t) ⟨w, p⟩ fun q =>
    p.passesTo t q ∧ q.lines = p.lines ∧ q.episode = p.episode ∧
    if p.feed.hold = false ∧ p.feed.exhausted = false ∧
        p.nextUp.any (fun n => n.front.cls == p.feed.cls) = true then
      (q.feed.path = .running ∧ q.feed.runOn = none) ∨
        (q.feed.path = .draining ∧ q.feed.nextSheet = p.feed.nextSheet + 1)
    else q.feed.path = .draining ∧ q.feed.runOn = p.feed.runOn ∧ q.table = p.table ∧ q.feed.selector = p.activeQueue

/-! ## What every step keeps -/

/-- An invariant holds after every step from every state in which it holds. -/
def keptByEveryStep (inv : Part → Prop) : Prop := ∀ s t : State, inv s.part → step s = .next t → inv t.part

/-- A command that runs as one event of its own while a frame is being sent: not a reset, a mask, bytes of the line or the end
of that frame. -/
def oneEvent (w : List Instr) : Prop :=
  match w.head? with
  | some (.hardwareReset _ _) | some (.pathReset _ _) | some (.noticeMask _ _) | some (.frameSent _) | some (.frameDiscard _ _)
  | some (.byteGapTimeout _ _) => False
  | _ => True

/-- What becomes of the notices while a frame is being sent, in any step but a reset, NOTICE MASK and the end of that frame. A
gated condition of a kind enabled that becomes active has its notice pending, as has a path state that changes and a job slot
whose delivered or abandoned count does; and a notice once pending stays so, but for a DOOR notice at PATH CLOSE; of the JAM
notices, one for each record position, there come to be no fewer. INTAKE LOW
says of a queue whose count changed whether it is below its mark. -/
def Obligations.ConditionsNoticed : Prop :=
  ∀ (w : List Instr) (p : Part) (t : State), oneEvent w → p.link.sending.isSome = true → step ⟨w, p⟩ = .next t →
    let q := t.part
    let m := p.mask
    let n := q.notices
    let told := fun (enabled was now before after : Bool) => (before = true ∨ (enabled = true ∧ now = true ∧ was = false)) → after = true
    told m.intakeLow p.intake.lowNormal q.intake.lowNormal p.notices.lowNormal n.lowNormal ∧
    told m.intakeLow p.intake.lowPriority q.intake.lowPriority p.notices.lowPriority n.lowPriority ∧
    (∀ u : Fin 5, told m.condition p.feed.trayEmpty[u] q.feed.trayEmpty[u] p.notices.trayEmpty[u] n.trayEmpty[u]) ∧
    (∀ i : Fin 2, told m.condition p.feed.binFull[i] q.feed.binFull[i] p.notices.binFull[i] n.binFull[i]) ∧
    told m.condition p.gate.purgeFull q.gate.purgeFull p.notices.purgeFull n.purgeFull ∧
    (∀ st : Fin 24,
      told m.condition (p.stations[st]).outOfStep (q.stations[st]).outOfStep p.notices.outOfStep[st] n.outOfStep[st]) ∧
    told m.condition p.stats.stationSet.active q.stats.stationSet.active p.notices.wmStation.isSome n.wmStation.isSome ∧
    told m.condition p.stats.traySet.active q.stats.traySet.active p.notices.wmTray.isSome n.wmTray.isSome ∧
    told m.condition p.stats.pathSet.active q.stats.pathSet.active p.notices.wmPath.isSome n.wmPath.isSome ∧
    told m.condition p.link.fault q.link.fault p.notices.linkFault n.linkFault ∧
    told m.condition p.feed.exhausted q.feed.exhausted p.notices.exhausted n.exhausted ∧
    ((∀ u b, w.head? ≠ some (.pathClose u b)) → ∀ d : Fin 8,
      told m.door p.episode.doorActive[d] q.episode.doorActive[d] p.notices.door[d] n.door[d]) ∧
    told m.pathState false (q.feed.path != p.feed.path) p.notices.pathState n.pathState ∧
    (∀ i : Fin 8, ∀ x ∈ p.intake.slots[i], ∀ y ∈ q.intake.slots[i],
      told m.progress false (x.delivered != y.delivered || x.abandoned != y.abandoned) p.notices.progress[i] n.progress[i]) ∧
    told true true true p.notices.planReady n.planReady ∧ told true true true p.notices.spoil.isSome n.spoil.isSome ∧
    told true true true p.notices.setDone.isSome n.setDone.isSome ∧ (p.jamsApart → p.notices.jams.length ≤ n.jams.length) ∧
    ((∀ u b, w.head? ≠ some (.abandonJob u b)) →
      (q.intake.normal.length ≠ p.intake.normal.length →
        q.intake.lowNormal = decide (q.intake.normal.length < q.force.timing.markNormal)) ∧
      (q.intake.priority.length ≠ p.intake.priority.length →
        q.intake.lowPriority = decide (q.intake.priority.length < q.force.timing.markPriority)))

/-- The receive queue and the replies stay paired: every accepted frame has exactly one reply, in order (R176). -/
def Obligations.LinkPairingKept : Prop := keptByEveryStep fun p => p.link.paired

/-- The Sheet Table ascends strictly, stays within 24 records and below the next sheet number (R51, R69). -/
def Obligations.SheetTableKept : Prop := keptByEveryStep Part.tableSound

/-- No counter passes its width's saturation value, and each COUNTER WATERMARK condition says what its group's counters say
(R161, R163). -/
def Obligations.CountersKept : Prop := keptByEveryStep fun p => p.stats.sound

/-- The path state agrees with the drives, the timers, the episode and the hold flag (03 section 3.1, R45, R47, R52, R111,
R128). -/
def Obligations.PathStateKept : Prop := keptByEveryStep Part.pathSound

/-- The Compile Set's state agrees with its fields, its limits and its outputs (R148, R151, R152, R156). -/
def Obligations.CompileSetKept : Prop := keptByEveryStep Part.finisherSound

/-- Every learned offset stays within −Omax and +Omax and every history within the window (R70). -/
def Obligations.StationStateKept : Prop := keptByEveryStep Part.stationsSound

/-- The Reprint List stays in its order, every queue and list within its places, every defined leg of both descriptions within 1 to
8 steps, every slot with a PROGRESS pending held, and no record position with two JAM notices pending (R5, R31, R37, R92, R116,
R134). -/
def Obligations.ListsKept : Prop :=
  keptByEveryStep fun p => p.planner.ordered ∧ p.withinPlaces ∧ p.progressHeld ∧ p.jamsApart

/-- Every page record stays in exactly one place, and the counts of every job slot balance: pages accepted are those delivered,
abandoned and held (R41). -/
def Obligations.PagesAccounted : Prop := keptByEveryStep Part.pagesSound

/-- The purge count never exceeds the capacity in force (R104). -/
def Obligations.PurgeCountKept : Prop := keptByEveryStep Part.purgeSound

/-- At most D sheets are on the duplex loop's FIRST pass (R57, R59). -/
def Obligations.DuplexLoopKept : Prop := keptByEveryStep Part.loopSound

/-- With every door closed, a diverter whose station is uncovered fits the next sheet it waits for (R83 to R86). -/
def Obligations.GatesKept : Prop := keptByEveryStep Part.gatesSound

/-- A sheet keeps at most one merge reservation, and the list its order: by lead, then by sheet number, for leads that all lie
within a quarter of the tick range after some tick (R63; the premise on the leads keeps R1's comparisons an order). -/
def Obligations.MergeListKept : Prop :=
  (keptByEveryStep fun p => (p.feed.merge.map Resv.sheet).Nodup) ∧
  ∀ (c : Instr) (rest : List Instr) (p : Part) (t : State) (u : Tick), step ⟨c :: rest, p⟩ = .next t →
    (∀ v b, c ≠ .frameDiscard v b ∧ c ≠ .byteGapTimeout v b) → inLeadOrder u p.feed.merge → nearLeads u p.feed.merge →
    nearLeads u t.part.feed.merge → inLeadOrder u t.part.feed.merge

/-- The reset state meets every invariant above. -/
def Obligations.ResetMeetsInvariants : Prop :=
  let p := State.reset.part
  p.link.paired ∧ p.tableSound ∧ p.stats.sound ∧ p.pathSound ∧ p.finisherSound ∧ p.stationsSound ∧ p.planner.ordered ∧
    p.withinPlaces ∧ p.progressHeld ∧ p.jamsApart ∧ p.pagesSound ∧ p.purgeSound ∧ p.loopSound ∧ p.gatesSound ∧ p.feed.merge = []

/-- What only one kind of command, or the path tick of an empty queue, may change: the description in force only PATH CLOSE, the
stored one only a definition request, the mask only NOTICE MASK, the dry-run flag and the first dry-run sheet number only DRY
RUN; the receive queue only a request and FRAME_SENT, the input lines only their edges, PATH CLOSE and the tick, the purge count
only a trailing edge, PURGE_BIN_REMOVED and the tick, a station's learned state only an arrival, RESYNC STATION, PATH CLOSE and
the tick. The serial rate stands and sheet numbers never go back; only COUNTER READ and COUNTER WIDTH lower a counter. HARDWARE
RESET may change them all, and the bytes of FRAME_DISCARD and BYTE_GAP_TIMEOUT may carry requests. -/
def Obligations.OwnedByOneRequest : Prop :=
  ∀ (w : List Instr) (p : Part) (t : State), step ⟨w, p⟩ = .next t →
    (∀ a b, w.head? ≠ some (.hardwareReset a b)) →
    (∀ u b, w.head? ≠ some (.frameDiscard u b) ∧ w.head? ≠ some (.byteGapTimeout u b)) →
    let byRequest := fun ok : Byte → Prop => ∃ c ∈ w.head?, ∃ u kind b, c.request? = some (u, kind, b) ∧ ok kind
    (t.part.force ≠ p.force → byRequest (· = 0x0A)) ∧
    (t.part.stored ≠ p.stored → byRequest fun kind => inRange 1 8 kind.toNat) ∧
    (t.part.mask ≠ p.mask → byRequest (· = 0x09)) ∧
    (t.part.dry.on ≠ p.dry.on ∨ t.part.dry.firstSheet ≠ p.dry.firstSheet → byRequest (· = 0x1A)) ∧
    t.part.link.rate = p.link.rate ∧ p.feed.nextSheet ≤ t.part.feed.nextSheet ∧
    (t.part.link.rxQueue ≠ p.link.rxQueue → byRequest (fun _ => True) ∨
      ∃ u, w.head? = some (.frameSent u) ∨ ∃ kind b, w.head? = some (.unknownKind u kind b)) ∧
    (t.part.lines ≠ p.lines → w = [] ∨ (∃ c ∈ w.head?, c.drivesLine = true) ∨ byRequest (· = 0x0A)) ∧
    (t.part.gate.purgeCount ≠ p.gate.purgeCount →
      w = [] ∨ ∃ u, (∃ st, w.head? = some (.stationTrailingEdge u st)) ∨ ∃ a, w.head? = some (.purgeBinRemoved u a)) ∧
    ((∃ st : Fin 24, t.part.learned st ≠ p.learned st) → w = [] ∨ byRequest (fun kind => kind = 0x0A ∨ kind = 0x11) ∨
      ∃ st, (∃ u, w.head? = some (.stationLeadingEdge u st)) ∨ ∃ a, w.head? = some (.synthesisedStationEdge st a)) ∧
    (¬ byRequest (fun kind => kind = 0x18 ∨ kind = 0x19) →
      (∀ i : Fin 10, p.stats.path[i] ≤ t.part.stats.path[i]) ∧
      (∀ (st : Fin 24) (i : Fin 3), (p.stats.station[st])[i] ≤ (t.part.stats.station[st])[i]) ∧
      ∀ (u : Fin 5) (i : Fin 3), (p.stats.tray[u])[i] ≤ (t.part.stats.tray[u])[i])
end

