-- ==== Sys2Proof/Laws/State.lean ====
section
/-! SUPPORT. The lemmas of State: for each modifier and each block, what the modifier does to it. All true by rfl. -/

namespace Sys2Proof.Machine

variable (s : Part)

@[simp] theorem Part.modTick_tick (h : Tick → Tick) : (s.modTick h).tick = h s.tick := rfl
@[simp] theorem Part.modTick_lines (h : Tick → Tick) : (s.modTick h).lines = s.lines := rfl
@[simp] theorem Part.modTick_stored (h : Tick → Tick) : (s.modTick h).stored = s.stored := rfl
@[simp] theorem Part.modTick_force (h : Tick → Tick) : (s.modTick h).force = s.force := rfl
@[simp] theorem Part.modTick_link (h : Tick → Tick) : (s.modTick h).link = s.link := rfl
@[simp] theorem Part.modTick_mask (h : Tick → Tick) : (s.modTick h).mask = s.mask := rfl
@[simp] theorem Part.modTick_notices (h : Tick → Tick) : (s.modTick h).notices = s.notices := rfl
@[simp] theorem Part.modTick_calls (h : Tick → Tick) : (s.modTick h).calls = s.calls := rfl
@[simp] theorem Part.modTick_intake (h : Tick → Tick) : (s.modTick h).intake = s.intake := rfl
@[simp] theorem Part.modTick_feed (h : Tick → Tick) : (s.modTick h).feed = s.feed := rfl
@[simp] theorem Part.modTick_out (h : Tick → Tick) : (s.modTick h).out = s.out := rfl
@[simp] theorem Part.modTick_table (h : Tick → Tick) : (s.modTick h).table = s.table := rfl
@[simp] theorem Part.modTick_stations (h : Tick → Tick) : (s.modTick h).stations = s.stations := rfl
@[simp] theorem Part.modTick_gate (h : Tick → Tick) : (s.modTick h).gate = s.gate := rfl
@[simp] theorem Part.modTick_episode (h : Tick → Tick) : (s.modTick h).episode = s.episode := rfl
@[simp] theorem Part.modTick_planner (h : Tick → Tick) : (s.modTick h).planner = s.planner := rfl
@[simp] theorem Part.modTick_finisher (h : Tick → Tick) : (s.modTick h).finisher = s.finisher := rfl
@[simp] theorem Part.modTick_stats (h : Tick → Tick) : (s.modTick h).stats = s.stats := rfl
@[simp] theorem Part.modTick_dry (h : Tick → Tick) : (s.modTick h).dry = s.dry := rfl
@[simp] theorem Part.modLines_tick (h : Lines → Lines) : (s.modLines h).tick = s.tick := rfl
@[simp] theorem Part.modLines_lines (h : Lines → Lines) : (s.modLines h).lines = h s.lines := rfl
@[simp] theorem Part.modLines_stored (h : Lines → Lines) : (s.modLines h).stored = s.stored := rfl
@[simp] theorem Part.modLines_force (h : Lines → Lines) : (s.modLines h).force = s.force := rfl
@[simp] theorem Part.modLines_link (h : Lines → Lines) : (s.modLines h).link = s.link := rfl
@[simp] theorem Part.modLines_mask (h : Lines → Lines) : (s.modLines h).mask = s.mask := rfl
@[simp] theorem Part.modLines_notices (h : Lines → Lines) : (s.modLines h).notices = s.notices := rfl
@[simp] theorem Part.modLines_calls (h : Lines → Lines) : (s.modLines h).calls = s.calls := rfl
@[simp] theorem Part.modLines_intake (h : Lines → Lines) : (s.modLines h).intake = s.intake := rfl
@[simp] theorem Part.modLines_feed (h : Lines → Lines) : (s.modLines h).feed = s.feed := rfl
@[simp] theorem Part.modLines_out (h : Lines → Lines) : (s.modLines h).out = s.out := rfl
@[simp] theorem Part.modLines_table (h : Lines → Lines) : (s.modLines h).table = s.table := rfl
@[simp] theorem Part.modLines_stations (h : Lines → Lines) : (s.modLines h).stations = s.stations := rfl
@[simp] theorem Part.modLines_gate (h : Lines → Lines) : (s.modLines h).gate = s.gate := rfl
@[simp] theorem Part.modLines_episode (h : Lines → Lines) : (s.modLines h).episode = s.episode := rfl
@[simp] theorem Part.modLines_planner (h : Lines → Lines) : (s.modLines h).planner = s.planner := rfl
@[simp] theorem Part.modLines_finisher (h : Lines → Lines) : (s.modLines h).finisher = s.finisher := rfl
@[simp] theorem Part.modLines_stats (h : Lines → Lines) : (s.modLines h).stats = s.stats := rfl
@[simp] theorem Part.modLines_dry (h : Lines → Lines) : (s.modLines h).dry = s.dry := rfl
@[simp] theorem Part.modStored_tick (h : Desc → Desc) : (s.modStored h).tick = s.tick := rfl
@[simp] theorem Part.modStored_lines (h : Desc → Desc) : (s.modStored h).lines = s.lines := rfl
@[simp] theorem Part.modStored_stored (h : Desc → Desc) : (s.modStored h).stored = h s.stored := rfl
@[simp] theorem Part.modStored_force (h : Desc → Desc) : (s.modStored h).force = s.force := rfl
@[simp] theorem Part.modStored_link (h : Desc → Desc) : (s.modStored h).link = s.link := rfl
@[simp] theorem Part.modStored_mask (h : Desc → Desc) : (s.modStored h).mask = s.mask := rfl
@[simp] theorem Part.modStored_notices (h : Desc → Desc) : (s.modStored h).notices = s.notices := rfl
@[simp] theorem Part.modStored_calls (h : Desc → Desc) : (s.modStored h).calls = s.calls := rfl
@[simp] theorem Part.modStored_intake (h : Desc → Desc) : (s.modStored h).intake = s.intake := rfl
@[simp] theorem Part.modStored_feed (h : Desc → Desc) : (s.modStored h).feed = s.feed := rfl
@[simp] theorem Part.modStored_out (h : Desc → Desc) : (s.modStored h).out = s.out := rfl
@[simp] theorem Part.modStored_table (h : Desc → Desc) : (s.modStored h).table = s.table := rfl
@[simp] theorem Part.modStored_stations (h : Desc → Desc) : (s.modStored h).stations = s.stations := rfl
@[simp] theorem Part.modStored_gate (h : Desc → Desc) : (s.modStored h).gate = s.gate := rfl
@[simp] theorem Part.modStored_episode (h : Desc → Desc) : (s.modStored h).episode = s.episode := rfl
@[simp] theorem Part.modStored_planner (h : Desc → Desc) : (s.modStored h).planner = s.planner := rfl
@[simp] theorem Part.modStored_finisher (h : Desc → Desc) : (s.modStored h).finisher = s.finisher := rfl
@[simp] theorem Part.modStored_stats (h : Desc → Desc) : (s.modStored h).stats = s.stats := rfl
@[simp] theorem Part.modStored_dry (h : Desc → Desc) : (s.modStored h).dry = s.dry := rfl
@[simp] theorem Part.modForce_tick (h : Desc → Desc) : (s.modForce h).tick = s.tick := rfl
@[simp] theorem Part.modForce_lines (h : Desc → Desc) : (s.modForce h).lines = s.lines := rfl
@[simp] theorem Part.modForce_stored (h : Desc → Desc) : (s.modForce h).stored = s.stored := rfl
@[simp] theorem Part.modForce_force (h : Desc → Desc) : (s.modForce h).force = h s.force := rfl
@[simp] theorem Part.modForce_link (h : Desc → Desc) : (s.modForce h).link = s.link := rfl
@[simp] theorem Part.modForce_mask (h : Desc → Desc) : (s.modForce h).mask = s.mask := rfl
@[simp] theorem Part.modForce_notices (h : Desc → Desc) : (s.modForce h).notices = s.notices := rfl
@[simp] theorem Part.modForce_calls (h : Desc → Desc) : (s.modForce h).calls = s.calls := rfl
@[simp] theorem Part.modForce_intake (h : Desc → Desc) : (s.modForce h).intake = s.intake := rfl
@[simp] theorem Part.modForce_feed (h : Desc → Desc) : (s.modForce h).feed = s.feed := rfl
@[simp] theorem Part.modForce_out (h : Desc → Desc) : (s.modForce h).out = s.out := rfl
@[simp] theorem Part.modForce_table (h : Desc → Desc) : (s.modForce h).table = s.table := rfl
@[simp] theorem Part.modForce_stations (h : Desc → Desc) : (s.modForce h).stations = s.stations := rfl
@[simp] theorem Part.modForce_gate (h : Desc → Desc) : (s.modForce h).gate = s.gate := rfl
@[simp] theorem Part.modForce_episode (h : Desc → Desc) : (s.modForce h).episode = s.episode := rfl
@[simp] theorem Part.modForce_planner (h : Desc → Desc) : (s.modForce h).planner = s.planner := rfl
@[simp] theorem Part.modForce_finisher (h : Desc → Desc) : (s.modForce h).finisher = s.finisher := rfl
@[simp] theorem Part.modForce_stats (h : Desc → Desc) : (s.modForce h).stats = s.stats := rfl
@[simp] theorem Part.modForce_dry (h : Desc → Desc) : (s.modForce h).dry = s.dry := rfl
@[simp] theorem Part.modLink_tick (h : Link → Link) : (s.modLink h).tick = s.tick := rfl
@[simp] theorem Part.modLink_lines (h : Link → Link) : (s.modLink h).lines = s.lines := rfl
@[simp] theorem Part.modLink_stored (h : Link → Link) : (s.modLink h).stored = s.stored := rfl
@[simp] theorem Part.modLink_force (h : Link → Link) : (s.modLink h).force = s.force := rfl
@[simp] theorem Part.modLink_link (h : Link → Link) : (s.modLink h).link = h s.link := rfl
@[simp] theorem Part.modLink_mask (h : Link → Link) : (s.modLink h).mask = s.mask := rfl
@[simp] theorem Part.modLink_notices (h : Link → Link) : (s.modLink h).notices = s.notices := rfl
@[simp] theorem Part.modLink_calls (h : Link → Link) : (s.modLink h).calls = s.calls := rfl
@[simp] theorem Part.modLink_intake (h : Link → Link) : (s.modLink h).intake = s.intake := rfl
@[simp] theorem Part.modLink_feed (h : Link → Link) : (s.modLink h).feed = s.feed := rfl
@[simp] theorem Part.modLink_out (h : Link → Link) : (s.modLink h).out = s.out := rfl
@[simp] theorem Part.modLink_table (h : Link → Link) : (s.modLink h).table = s.table := rfl
@[simp] theorem Part.modLink_stations (h : Link → Link) : (s.modLink h).stations = s.stations := rfl
@[simp] theorem Part.modLink_gate (h : Link → Link) : (s.modLink h).gate = s.gate := rfl
@[simp] theorem Part.modLink_episode (h : Link → Link) : (s.modLink h).episode = s.episode := rfl
@[simp] theorem Part.modLink_planner (h : Link → Link) : (s.modLink h).planner = s.planner := rfl
@[simp] theorem Part.modLink_finisher (h : Link → Link) : (s.modLink h).finisher = s.finisher := rfl
@[simp] theorem Part.modLink_stats (h : Link → Link) : (s.modLink h).stats = s.stats := rfl
@[simp] theorem Part.modLink_dry (h : Link → Link) : (s.modLink h).dry = s.dry := rfl
@[simp] theorem Part.modMask_tick (h : Mask → Mask) : (s.modMask h).tick = s.tick := rfl
@[simp] theorem Part.modMask_lines (h : Mask → Mask) : (s.modMask h).lines = s.lines := rfl
@[simp] theorem Part.modMask_stored (h : Mask → Mask) : (s.modMask h).stored = s.stored := rfl
@[simp] theorem Part.modMask_force (h : Mask → Mask) : (s.modMask h).force = s.force := rfl
@[simp] theorem Part.modMask_link (h : Mask → Mask) : (s.modMask h).link = s.link := rfl
@[simp] theorem Part.modMask_mask (h : Mask → Mask) : (s.modMask h).mask = h s.mask := rfl
@[simp] theorem Part.modMask_notices (h : Mask → Mask) : (s.modMask h).notices = s.notices := rfl
@[simp] theorem Part.modMask_calls (h : Mask → Mask) : (s.modMask h).calls = s.calls := rfl
@[simp] theorem Part.modMask_intake (h : Mask → Mask) : (s.modMask h).intake = s.intake := rfl
@[simp] theorem Part.modMask_feed (h : Mask → Mask) : (s.modMask h).feed = s.feed := rfl
@[simp] theorem Part.modMask_out (h : Mask → Mask) : (s.modMask h).out = s.out := rfl
@[simp] theorem Part.modMask_table (h : Mask → Mask) : (s.modMask h).table = s.table := rfl
@[simp] theorem Part.modMask_stations (h : Mask → Mask) : (s.modMask h).stations = s.stations := rfl
@[simp] theorem Part.modMask_gate (h : Mask → Mask) : (s.modMask h).gate = s.gate := rfl
@[simp] theorem Part.modMask_episode (h : Mask → Mask) : (s.modMask h).episode = s.episode := rfl
@[simp] theorem Part.modMask_planner (h : Mask → Mask) : (s.modMask h).planner = s.planner := rfl
@[simp] theorem Part.modMask_finisher (h : Mask → Mask) : (s.modMask h).finisher = s.finisher := rfl
@[simp] theorem Part.modMask_stats (h : Mask → Mask) : (s.modMask h).stats = s.stats := rfl
@[simp] theorem Part.modMask_dry (h : Mask → Mask) : (s.modMask h).dry = s.dry := rfl
@[simp] theorem Part.modNotices_tick (h : Notices → Notices) : (s.modNotices h).tick = s.tick := rfl
@[simp] theorem Part.modNotices_lines (h : Notices → Notices) : (s.modNotices h).lines = s.lines := rfl
@[simp] theorem Part.modNotices_stored (h : Notices → Notices) : (s.modNotices h).stored = s.stored := rfl
@[simp] theorem Part.modNotices_force (h : Notices → Notices) : (s.modNotices h).force = s.force := rfl
@[simp] theorem Part.modNotices_link (h : Notices → Notices) : (s.modNotices h).link = s.link := rfl
@[simp] theorem Part.modNotices_mask (h : Notices → Notices) : (s.modNotices h).mask = s.mask := rfl
@[simp] theorem Part.modNotices_notices (h : Notices → Notices) : (s.modNotices h).notices = h s.notices := rfl
@[simp] theorem Part.modNotices_calls (h : Notices → Notices) : (s.modNotices h).calls = s.calls := rfl
@[simp] theorem Part.modNotices_intake (h : Notices → Notices) : (s.modNotices h).intake = s.intake := rfl
@[simp] theorem Part.modNotices_feed (h : Notices → Notices) : (s.modNotices h).feed = s.feed := rfl
@[simp] theorem Part.modNotices_out (h : Notices → Notices) : (s.modNotices h).out = s.out := rfl
@[simp] theorem Part.modNotices_table (h : Notices → Notices) : (s.modNotices h).table = s.table := rfl
@[simp] theorem Part.modNotices_stations (h : Notices → Notices) : (s.modNotices h).stations = s.stations := rfl
@[simp] theorem Part.modNotices_gate (h : Notices → Notices) : (s.modNotices h).gate = s.gate := rfl
@[simp] theorem Part.modNotices_episode (h : Notices → Notices) : (s.modNotices h).episode = s.episode := rfl
@[simp] theorem Part.modNotices_planner (h : Notices → Notices) : (s.modNotices h).planner = s.planner := rfl
@[simp] theorem Part.modNotices_finisher (h : Notices → Notices) : (s.modNotices h).finisher = s.finisher := rfl
@[simp] theorem Part.modNotices_stats (h : Notices → Notices) : (s.modNotices h).stats = s.stats := rfl
@[simp] theorem Part.modNotices_dry (h : Notices → Notices) : (s.modNotices h).dry = s.dry := rfl
@[simp] theorem Part.modCalls_tick (h : Calls → Calls) : (s.modCalls h).tick = s.tick := rfl
@[simp] theorem Part.modCalls_lines (h : Calls → Calls) : (s.modCalls h).lines = s.lines := rfl
@[simp] theorem Part.modCalls_stored (h : Calls → Calls) : (s.modCalls h).stored = s.stored := rfl
@[simp] theorem Part.modCalls_force (h : Calls → Calls) : (s.modCalls h).force = s.force := rfl
@[simp] theorem Part.modCalls_link (h : Calls → Calls) : (s.modCalls h).link = s.link := rfl
@[simp] theorem Part.modCalls_mask (h : Calls → Calls) : (s.modCalls h).mask = s.mask := rfl
@[simp] theorem Part.modCalls_notices (h : Calls → Calls) : (s.modCalls h).notices = s.notices := rfl
@[simp] theorem Part.modCalls_calls (h : Calls → Calls) : (s.modCalls h).calls = h s.calls := rfl
@[simp] theorem Part.modCalls_intake (h : Calls → Calls) : (s.modCalls h).intake = s.intake := rfl
@[simp] theorem Part.modCalls_feed (h : Calls → Calls) : (s.modCalls h).feed = s.feed := rfl
@[simp] theorem Part.modCalls_out (h : Calls → Calls) : (s.modCalls h).out = s.out := rfl
@[simp] theorem Part.modCalls_table (h : Calls → Calls) : (s.modCalls h).table = s.table := rfl
@[simp] theorem Part.modCalls_stations (h : Calls → Calls) : (s.modCalls h).stations = s.stations := rfl
@[simp] theorem Part.modCalls_gate (h : Calls → Calls) : (s.modCalls h).gate = s.gate := rfl
@[simp] theorem Part.modCalls_episode (h : Calls → Calls) : (s.modCalls h).episode = s.episode := rfl
@[simp] theorem Part.modCalls_planner (h : Calls → Calls) : (s.modCalls h).planner = s.planner := rfl
@[simp] theorem Part.modCalls_finisher (h : Calls → Calls) : (s.modCalls h).finisher = s.finisher := rfl
@[simp] theorem Part.modCalls_stats (h : Calls → Calls) : (s.modCalls h).stats = s.stats := rfl
@[simp] theorem Part.modCalls_dry (h : Calls → Calls) : (s.modCalls h).dry = s.dry := rfl
@[simp] theorem Part.modIntake_tick (h : Intake → Intake) : (s.modIntake h).tick = s.tick := rfl
@[simp] theorem Part.modIntake_lines (h : Intake → Intake) : (s.modIntake h).lines = s.lines := rfl
@[simp] theorem Part.modIntake_stored (h : Intake → Intake) : (s.modIntake h).stored = s.stored := rfl
@[simp] theorem Part.modIntake_force (h : Intake → Intake) : (s.modIntake h).force = s.force := rfl
@[simp] theorem Part.modIntake_link (h : Intake → Intake) : (s.modIntake h).link = s.link := rfl
@[simp] theorem Part.modIntake_mask (h : Intake → Intake) : (s.modIntake h).mask = s.mask := rfl
@[simp] theorem Part.modIntake_notices (h : Intake → Intake) : (s.modIntake h).notices = s.notices := rfl
@[simp] theorem Part.modIntake_calls (h : Intake → Intake) : (s.modIntake h).calls = s.calls := rfl
@[simp] theorem Part.modIntake_intake (h : Intake → Intake) : (s.modIntake h).intake = h s.intake := rfl
@[simp] theorem Part.modIntake_feed (h : Intake → Intake) : (s.modIntake h).feed = s.feed := rfl
@[simp] theorem Part.modIntake_out (h : Intake → Intake) : (s.modIntake h).out = s.out := rfl
@[simp] theorem Part.modIntake_table (h : Intake → Intake) : (s.modIntake h).table = s.table := rfl
@[simp] theorem Part.modIntake_stations (h : Intake → Intake) : (s.modIntake h).stations = s.stations := rfl
@[simp] theorem Part.modIntake_gate (h : Intake → Intake) : (s.modIntake h).gate = s.gate := rfl
@[simp] theorem Part.modIntake_episode (h : Intake → Intake) : (s.modIntake h).episode = s.episode := rfl
@[simp] theorem Part.modIntake_planner (h : Intake → Intake) : (s.modIntake h).planner = s.planner := rfl
@[simp] theorem Part.modIntake_finisher (h : Intake → Intake) : (s.modIntake h).finisher = s.finisher := rfl
@[simp] theorem Part.modIntake_stats (h : Intake → Intake) : (s.modIntake h).stats = s.stats := rfl
@[simp] theorem Part.modIntake_dry (h : Intake → Intake) : (s.modIntake h).dry = s.dry := rfl
@[simp] theorem Part.modFeed_tick (h : Feed → Feed) : (s.modFeed h).tick = s.tick := rfl
@[simp] theorem Part.modFeed_lines (h : Feed → Feed) : (s.modFeed h).lines = s.lines := rfl
@[simp] theorem Part.modFeed_stored (h : Feed → Feed) : (s.modFeed h).stored = s.stored := rfl
@[simp] theorem Part.modFeed_force (h : Feed → Feed) : (s.modFeed h).force = s.force := rfl
@[simp] theorem Part.modFeed_link (h : Feed → Feed) : (s.modFeed h).link = s.link := rfl
@[simp] theorem Part.modFeed_mask (h : Feed → Feed) : (s.modFeed h).mask = s.mask := rfl
@[simp] theorem Part.modFeed_notices (h : Feed → Feed) : (s.modFeed h).notices = s.notices := rfl
@[simp] theorem Part.modFeed_calls (h : Feed → Feed) : (s.modFeed h).calls = s.calls := rfl
@[simp] theorem Part.modFeed_intake (h : Feed → Feed) : (s.modFeed h).intake = s.intake := rfl
@[simp] theorem Part.modFeed_feed (h : Feed → Feed) : (s.modFeed h).feed = h s.feed := rfl
@[simp] theorem Part.modFeed_out (h : Feed → Feed) : (s.modFeed h).out = s.out := rfl
@[simp] theorem Part.modFeed_table (h : Feed → Feed) : (s.modFeed h).table = s.table := rfl
@[simp] theorem Part.modFeed_stations (h : Feed → Feed) : (s.modFeed h).stations = s.stations := rfl
@[simp] theorem Part.modFeed_gate (h : Feed → Feed) : (s.modFeed h).gate = s.gate := rfl
@[simp] theorem Part.modFeed_episode (h : Feed → Feed) : (s.modFeed h).episode = s.episode := rfl
@[simp] theorem Part.modFeed_planner (h : Feed → Feed) : (s.modFeed h).planner = s.planner := rfl
@[simp] theorem Part.modFeed_finisher (h : Feed → Feed) : (s.modFeed h).finisher = s.finisher := rfl
@[simp] theorem Part.modFeed_stats (h : Feed → Feed) : (s.modFeed h).stats = s.stats := rfl
@[simp] theorem Part.modFeed_dry (h : Feed → Feed) : (s.modFeed h).dry = s.dry := rfl
@[simp] theorem Part.modOut_tick (h : Outputs → Outputs) : (s.modOut h).tick = s.tick := rfl
@[simp] theorem Part.modOut_lines (h : Outputs → Outputs) : (s.modOut h).lines = s.lines := rfl
@[simp] theorem Part.modOut_stored (h : Outputs → Outputs) : (s.modOut h).stored = s.stored := rfl
@[simp] theorem Part.modOut_force (h : Outputs → Outputs) : (s.modOut h).force = s.force := rfl
@[simp] theorem Part.modOut_link (h : Outputs → Outputs) : (s.modOut h).link = s.link := rfl
@[simp] theorem Part.modOut_mask (h : Outputs → Outputs) : (s.modOut h).mask = s.mask := rfl
@[simp] theorem Part.modOut_notices (h : Outputs → Outputs) : (s.modOut h).notices = s.notices := rfl
@[simp] theorem Part.modOut_calls (h : Outputs → Outputs) : (s.modOut h).calls = s.calls := rfl
@[simp] theorem Part.modOut_intake (h : Outputs → Outputs) : (s.modOut h).intake = s.intake := rfl
@[simp] theorem Part.modOut_feed (h : Outputs → Outputs) : (s.modOut h).feed = s.feed := rfl
@[simp] theorem Part.modOut_out (h : Outputs → Outputs) : (s.modOut h).out = h s.out := rfl
@[simp] theorem Part.modOut_table (h : Outputs → Outputs) : (s.modOut h).table = s.table := rfl
@[simp] theorem Part.modOut_stations (h : Outputs → Outputs) : (s.modOut h).stations = s.stations := rfl
@[simp] theorem Part.modOut_gate (h : Outputs → Outputs) : (s.modOut h).gate = s.gate := rfl
@[simp] theorem Part.modOut_episode (h : Outputs → Outputs) : (s.modOut h).episode = s.episode := rfl
@[simp] theorem Part.modOut_planner (h : Outputs → Outputs) : (s.modOut h).planner = s.planner := rfl
@[simp] theorem Part.modOut_finisher (h : Outputs → Outputs) : (s.modOut h).finisher = s.finisher := rfl
@[simp] theorem Part.modOut_stats (h : Outputs → Outputs) : (s.modOut h).stats = s.stats := rfl
@[simp] theorem Part.modOut_dry (h : Outputs → Outputs) : (s.modOut h).dry = s.dry := rfl
@[simp] theorem Part.modTable_tick (h : Table → Table) : (s.modTable h).tick = s.tick := rfl
@[simp] theorem Part.modTable_lines (h : Table → Table) : (s.modTable h).lines = s.lines := rfl
@[simp] theorem Part.modTable_stored (h : Table → Table) : (s.modTable h).stored = s.stored := rfl
@[simp] theorem Part.modTable_force (h : Table → Table) : (s.modTable h).force = s.force := rfl
@[simp] theorem Part.modTable_link (h : Table → Table) : (s.modTable h).link = s.link := rfl
@[simp] theorem Part.modTable_mask (h : Table → Table) : (s.modTable h).mask = s.mask := rfl
@[simp] theorem Part.modTable_notices (h : Table → Table) : (s.modTable h).notices = s.notices := rfl
@[simp] theorem Part.modTable_calls (h : Table → Table) : (s.modTable h).calls = s.calls := rfl
@[simp] theorem Part.modTable_intake (h : Table → Table) : (s.modTable h).intake = s.intake := rfl
@[simp] theorem Part.modTable_feed (h : Table → Table) : (s.modTable h).feed = s.feed := rfl
@[simp] theorem Part.modTable_out (h : Table → Table) : (s.modTable h).out = s.out := rfl
@[simp] theorem Part.modTable_table (h : Table → Table) : (s.modTable h).table = h s.table := rfl
@[simp] theorem Part.modTable_stations (h : Table → Table) : (s.modTable h).stations = s.stations := rfl
@[simp] theorem Part.modTable_gate (h : Table → Table) : (s.modTable h).gate = s.gate := rfl
@[simp] theorem Part.modTable_episode (h : Table → Table) : (s.modTable h).episode = s.episode := rfl
@[simp] theorem Part.modTable_planner (h : Table → Table) : (s.modTable h).planner = s.planner := rfl
@[simp] theorem Part.modTable_finisher (h : Table → Table) : (s.modTable h).finisher = s.finisher := rfl
@[simp] theorem Part.modTable_stats (h : Table → Table) : (s.modTable h).stats = s.stats := rfl
@[simp] theorem Part.modTable_dry (h : Table → Table) : (s.modTable h).dry = s.dry := rfl
@[simp] theorem Part.modStations_tick (h : (Vector Station 24) → (Vector Station 24)) : (s.modStations h).tick = s.tick := rfl
@[simp] theorem Part.modStations_lines (h : (Vector Station 24) → (Vector Station 24)) : (s.modStations h).lines = s.lines := rfl
@[simp] theorem Part.modStations_stored (h : (Vector Station 24) → (Vector Station 24)) : (s.modStations h).stored = s.stored := rfl
@[simp] theorem Part.modStations_force (h : (Vector Station 24) → (Vector Station 24)) : (s.modStations h).force = s.force := rfl
@[simp] theorem Part.modStations_link (h : (Vector Station 24) → (Vector Station 24)) : (s.modStations h).link = s.link := rfl
@[simp] theorem Part.modStations_mask (h : (Vector Station 24) → (Vector Station 24)) : (s.modStations h).mask = s.mask := rfl
@[simp] theorem Part.modStations_notices (h : (Vector Station 24) → (Vector Station 24)) : (s.modStations h).notices = s.notices := rfl
@[simp] theorem Part.modStations_calls (h : (Vector Station 24) → (Vector Station 24)) : (s.modStations h).calls = s.calls := rfl
@[simp] theorem Part.modStations_intake (h : (Vector Station 24) → (Vector Station 24)) : (s.modStations h).intake = s.intake := rfl
@[simp] theorem Part.modStations_feed (h : (Vector Station 24) → (Vector Station 24)) : (s.modStations h).feed = s.feed := rfl
@[simp] theorem Part.modStations_out (h : (Vector Station 24) → (Vector Station 24)) : (s.modStations h).out = s.out := rfl
@[simp] theorem Part.modStations_table (h : (Vector Station 24) → (Vector Station 24)) : (s.modStations h).table = s.table := rfl
@[simp] theorem Part.modStations_stations (h : (Vector Station 24) → (Vector Station 24)) : (s.modStations h).stations = h s.stations := rfl
@[simp] theorem Part.modStations_gate (h : (Vector Station 24) → (Vector Station 24)) : (s.modStations h).gate = s.gate := rfl
@[simp] theorem Part.modStations_episode (h : (Vector Station 24) → (Vector Station 24)) : (s.modStations h).episode = s.episode := rfl
@[simp] theorem Part.modStations_planner (h : (Vector Station 24) → (Vector Station 24)) : (s.modStations h).planner = s.planner := rfl
@[simp] theorem Part.modStations_finisher (h : (Vector Station 24) → (Vector Station 24)) : (s.modStations h).finisher = s.finisher := rfl
@[simp] theorem Part.modStations_stats (h : (Vector Station 24) → (Vector Station 24)) : (s.modStations h).stats = s.stats := rfl
@[simp] theorem Part.modStations_dry (h : (Vector Station 24) → (Vector Station 24)) : (s.modStations h).dry = s.dry := rfl
@[simp] theorem Part.modGate_tick (h : Gate → Gate) : (s.modGate h).tick = s.tick := rfl
@[simp] theorem Part.modGate_lines (h : Gate → Gate) : (s.modGate h).lines = s.lines := rfl
@[simp] theorem Part.modGate_stored (h : Gate → Gate) : (s.modGate h).stored = s.stored := rfl
@[simp] theorem Part.modGate_force (h : Gate → Gate) : (s.modGate h).force = s.force := rfl
@[simp] theorem Part.modGate_link (h : Gate → Gate) : (s.modGate h).link = s.link := rfl
@[simp] theorem Part.modGate_mask (h : Gate → Gate) : (s.modGate h).mask = s.mask := rfl
@[simp] theorem Part.modGate_notices (h : Gate → Gate) : (s.modGate h).notices = s.notices := rfl
@[simp] theorem Part.modGate_calls (h : Gate → Gate) : (s.modGate h).calls = s.calls := rfl
@[simp] theorem Part.modGate_intake (h : Gate → Gate) : (s.modGate h).intake = s.intake := rfl
@[simp] theorem Part.modGate_feed (h : Gate → Gate) : (s.modGate h).feed = s.feed := rfl
@[simp] theorem Part.modGate_out (h : Gate → Gate) : (s.modGate h).out = s.out := rfl
@[simp] theorem Part.modGate_table (h : Gate → Gate) : (s.modGate h).table = s.table := rfl
@[simp] theorem Part.modGate_stations (h : Gate → Gate) : (s.modGate h).stations = s.stations := rfl
@[simp] theorem Part.modGate_gate (h : Gate → Gate) : (s.modGate h).gate = h s.gate := rfl
@[simp] theorem Part.modGate_episode (h : Gate → Gate) : (s.modGate h).episode = s.episode := rfl
@[simp] theorem Part.modGate_planner (h : Gate → Gate) : (s.modGate h).planner = s.planner := rfl
@[simp] theorem Part.modGate_finisher (h : Gate → Gate) : (s.modGate h).finisher = s.finisher := rfl
@[simp] theorem Part.modGate_stats (h : Gate → Gate) : (s.modGate h).stats = s.stats := rfl
@[simp] theorem Part.modGate_dry (h : Gate → Gate) : (s.modGate h).dry = s.dry := rfl
@[simp] theorem Part.modEpisode_tick (h : Episode → Episode) : (s.modEpisode h).tick = s.tick := rfl
@[simp] theorem Part.modEpisode_lines (h : Episode → Episode) : (s.modEpisode h).lines = s.lines := rfl
@[simp] theorem Part.modEpisode_stored (h : Episode → Episode) : (s.modEpisode h).stored = s.stored := rfl
@[simp] theorem Part.modEpisode_force (h : Episode → Episode) : (s.modEpisode h).force = s.force := rfl
@[simp] theorem Part.modEpisode_link (h : Episode → Episode) : (s.modEpisode h).link = s.link := rfl
@[simp] theorem Part.modEpisode_mask (h : Episode → Episode) : (s.modEpisode h).mask = s.mask := rfl
@[simp] theorem Part.modEpisode_notices (h : Episode → Episode) : (s.modEpisode h).notices = s.notices := rfl
@[simp] theorem Part.modEpisode_calls (h : Episode → Episode) : (s.modEpisode h).calls = s.calls := rfl
@[simp] theorem Part.modEpisode_intake (h : Episode → Episode) : (s.modEpisode h).intake = s.intake := rfl
@[simp] theorem Part.modEpisode_feed (h : Episode → Episode) : (s.modEpisode h).feed = s.feed := rfl
@[simp] theorem Part.modEpisode_out (h : Episode → Episode) : (s.modEpisode h).out = s.out := rfl
@[simp] theorem Part.modEpisode_table (h : Episode → Episode) : (s.modEpisode h).table = s.table := rfl
@[simp] theorem Part.modEpisode_stations (h : Episode → Episode) : (s.modEpisode h).stations = s.stations := rfl
@[simp] theorem Part.modEpisode_gate (h : Episode → Episode) : (s.modEpisode h).gate = s.gate := rfl
@[simp] theorem Part.modEpisode_episode (h : Episode → Episode) : (s.modEpisode h).episode = h s.episode := rfl
@[simp] theorem Part.modEpisode_planner (h : Episode → Episode) : (s.modEpisode h).planner = s.planner := rfl
@[simp] theorem Part.modEpisode_finisher (h : Episode → Episode) : (s.modEpisode h).finisher = s.finisher := rfl
@[simp] theorem Part.modEpisode_stats (h : Episode → Episode) : (s.modEpisode h).stats = s.stats := rfl
@[simp] theorem Part.modEpisode_dry (h : Episode → Episode) : (s.modEpisode h).dry = s.dry := rfl
@[simp] theorem Part.modPlanner_tick (h : Planner → Planner) : (s.modPlanner h).tick = s.tick := rfl
@[simp] theorem Part.modPlanner_lines (h : Planner → Planner) : (s.modPlanner h).lines = s.lines := rfl
@[simp] theorem Part.modPlanner_stored (h : Planner → Planner) : (s.modPlanner h).stored = s.stored := rfl
@[simp] theorem Part.modPlanner_force (h : Planner → Planner) : (s.modPlanner h).force = s.force := rfl
@[simp] theorem Part.modPlanner_link (h : Planner → Planner) : (s.modPlanner h).link = s.link := rfl
@[simp] theorem Part.modPlanner_mask (h : Planner → Planner) : (s.modPlanner h).mask = s.mask := rfl
@[simp] theorem Part.modPlanner_notices (h : Planner → Planner) : (s.modPlanner h).notices = s.notices := rfl
@[simp] theorem Part.modPlanner_calls (h : Planner → Planner) : (s.modPlanner h).calls = s.calls := rfl
@[simp] theorem Part.modPlanner_intake (h : Planner → Planner) : (s.modPlanner h).intake = s.intake := rfl
@[simp] theorem Part.modPlanner_feed (h : Planner → Planner) : (s.modPlanner h).feed = s.feed := rfl
@[simp] theorem Part.modPlanner_out (h : Planner → Planner) : (s.modPlanner h).out = s.out := rfl
@[simp] theorem Part.modPlanner_table (h : Planner → Planner) : (s.modPlanner h).table = s.table := rfl
@[simp] theorem Part.modPlanner_stations (h : Planner → Planner) : (s.modPlanner h).stations = s.stations := rfl
@[simp] theorem Part.modPlanner_gate (h : Planner → Planner) : (s.modPlanner h).gate = s.gate := rfl
@[simp] theorem Part.modPlanner_episode (h : Planner → Planner) : (s.modPlanner h).episode = s.episode := rfl
@[simp] theorem Part.modPlanner_planner (h : Planner → Planner) : (s.modPlanner h).planner = h s.planner := rfl
@[simp] theorem Part.modPlanner_finisher (h : Planner → Planner) : (s.modPlanner h).finisher = s.finisher := rfl
@[simp] theorem Part.modPlanner_stats (h : Planner → Planner) : (s.modPlanner h).stats = s.stats := rfl
@[simp] theorem Part.modPlanner_dry (h : Planner → Planner) : (s.modPlanner h).dry = s.dry := rfl
@[simp] theorem Part.modFinisher_tick (h : Finisher → Finisher) : (s.modFinisher h).tick = s.tick := rfl
@[simp] theorem Part.modFinisher_lines (h : Finisher → Finisher) : (s.modFinisher h).lines = s.lines := rfl
@[simp] theorem Part.modFinisher_stored (h : Finisher → Finisher) : (s.modFinisher h).stored = s.stored := rfl
@[simp] theorem Part.modFinisher_force (h : Finisher → Finisher) : (s.modFinisher h).force = s.force := rfl
@[simp] theorem Part.modFinisher_link (h : Finisher → Finisher) : (s.modFinisher h).link = s.link := rfl
@[simp] theorem Part.modFinisher_mask (h : Finisher → Finisher) : (s.modFinisher h).mask = s.mask := rfl
@[simp] theorem Part.modFinisher_notices (h : Finisher → Finisher) : (s.modFinisher h).notices = s.notices := rfl
@[simp] theorem Part.modFinisher_calls (h : Finisher → Finisher) : (s.modFinisher h).calls = s.calls := rfl
@[simp] theorem Part.modFinisher_intake (h : Finisher → Finisher) : (s.modFinisher h).intake = s.intake := rfl
@[simp] theorem Part.modFinisher_feed (h : Finisher → Finisher) : (s.modFinisher h).feed = s.feed := rfl
@[simp] theorem Part.modFinisher_out (h : Finisher → Finisher) : (s.modFinisher h).out = s.out := rfl
@[simp] theorem Part.modFinisher_table (h : Finisher → Finisher) : (s.modFinisher h).table = s.table := rfl
@[simp] theorem Part.modFinisher_stations (h : Finisher → Finisher) : (s.modFinisher h).stations = s.stations := rfl
@[simp] theorem Part.modFinisher_gate (h : Finisher → Finisher) : (s.modFinisher h).gate = s.gate := rfl
@[simp] theorem Part.modFinisher_episode (h : Finisher → Finisher) : (s.modFinisher h).episode = s.episode := rfl
@[simp] theorem Part.modFinisher_planner (h : Finisher → Finisher) : (s.modFinisher h).planner = s.planner := rfl
@[simp] theorem Part.modFinisher_finisher (h : Finisher → Finisher) : (s.modFinisher h).finisher = h s.finisher := rfl
@[simp] theorem Part.modFinisher_stats (h : Finisher → Finisher) : (s.modFinisher h).stats = s.stats := rfl
@[simp] theorem Part.modFinisher_dry (h : Finisher → Finisher) : (s.modFinisher h).dry = s.dry := rfl
@[simp] theorem Part.modStats_tick (h : Stats → Stats) : (s.modStats h).tick = s.tick := rfl
@[simp] theorem Part.modStats_lines (h : Stats → Stats) : (s.modStats h).lines = s.lines := rfl
@[simp] theorem Part.modStats_stored (h : Stats → Stats) : (s.modStats h).stored = s.stored := rfl
@[simp] theorem Part.modStats_force (h : Stats → Stats) : (s.modStats h).force = s.force := rfl
@[simp] theorem Part.modStats_link (h : Stats → Stats) : (s.modStats h).link = s.link := rfl
@[simp] theorem Part.modStats_mask (h : Stats → Stats) : (s.modStats h).mask = s.mask := rfl
@[simp] theorem Part.modStats_notices (h : Stats → Stats) : (s.modStats h).notices = s.notices := rfl
@[simp] theorem Part.modStats_calls (h : Stats → Stats) : (s.modStats h).calls = s.calls := rfl
@[simp] theorem Part.modStats_intake (h : Stats → Stats) : (s.modStats h).intake = s.intake := rfl
@[simp] theorem Part.modStats_feed (h : Stats → Stats) : (s.modStats h).feed = s.feed := rfl
@[simp] theorem Part.modStats_out (h : Stats → Stats) : (s.modStats h).out = s.out := rfl
@[simp] theorem Part.modStats_table (h : Stats → Stats) : (s.modStats h).table = s.table := rfl
@[simp] theorem Part.modStats_stations (h : Stats → Stats) : (s.modStats h).stations = s.stations := rfl
@[simp] theorem Part.modStats_gate (h : Stats → Stats) : (s.modStats h).gate = s.gate := rfl
@[simp] theorem Part.modStats_episode (h : Stats → Stats) : (s.modStats h).episode = s.episode := rfl
@[simp] theorem Part.modStats_planner (h : Stats → Stats) : (s.modStats h).planner = s.planner := rfl
@[simp] theorem Part.modStats_finisher (h : Stats → Stats) : (s.modStats h).finisher = s.finisher := rfl
@[simp] theorem Part.modStats_stats (h : Stats → Stats) : (s.modStats h).stats = h s.stats := rfl
@[simp] theorem Part.modStats_dry (h : Stats → Stats) : (s.modStats h).dry = s.dry := rfl
@[simp] theorem Part.modDry_tick (h : Dry → Dry) : (s.modDry h).tick = s.tick := rfl
@[simp] theorem Part.modDry_lines (h : Dry → Dry) : (s.modDry h).lines = s.lines := rfl
@[simp] theorem Part.modDry_stored (h : Dry → Dry) : (s.modDry h).stored = s.stored := rfl
@[simp] theorem Part.modDry_force (h : Dry → Dry) : (s.modDry h).force = s.force := rfl
@[simp] theorem Part.modDry_link (h : Dry → Dry) : (s.modDry h).link = s.link := rfl
@[simp] theorem Part.modDry_mask (h : Dry → Dry) : (s.modDry h).mask = s.mask := rfl
@[simp] theorem Part.modDry_notices (h : Dry → Dry) : (s.modDry h).notices = s.notices := rfl
@[simp] theorem Part.modDry_calls (h : Dry → Dry) : (s.modDry h).calls = s.calls := rfl
@[simp] theorem Part.modDry_intake (h : Dry → Dry) : (s.modDry h).intake = s.intake := rfl
@[simp] theorem Part.modDry_feed (h : Dry → Dry) : (s.modDry h).feed = s.feed := rfl
@[simp] theorem Part.modDry_out (h : Dry → Dry) : (s.modDry h).out = s.out := rfl
@[simp] theorem Part.modDry_table (h : Dry → Dry) : (s.modDry h).table = s.table := rfl
@[simp] theorem Part.modDry_stations (h : Dry → Dry) : (s.modDry h).stations = s.stations := rfl
@[simp] theorem Part.modDry_gate (h : Dry → Dry) : (s.modDry h).gate = s.gate := rfl
@[simp] theorem Part.modDry_episode (h : Dry → Dry) : (s.modDry h).episode = s.episode := rfl
@[simp] theorem Part.modDry_planner (h : Dry → Dry) : (s.modDry h).planner = s.planner := rfl
@[simp] theorem Part.modDry_finisher (h : Dry → Dry) : (s.modDry h).finisher = s.finisher := rfl
@[simp] theorem Part.modDry_stats (h : Dry → Dry) : (s.modDry h).stats = s.stats := rfl
@[simp] theorem Part.modDry_dry (h : Dry → Dry) : (s.modDry h).dry = h s.dry := rfl

end Sys2Proof.Machine
end

