-- ==== Sys2Proof/Laws/Frame.lean ====
section
/-! SUPPORT. Frames. `Via A s t` says that `t` comes from `s` by changes of the blocks in `A` alone. Every shared operation has
one lemma, named after it with `_via`, that says which blocks it can change; a block outside the list stands as it was
(`Via.force_eq` and its like). -/

namespace Sys2Proof.Machine

/-- The blocks of State. -/
inductive Block where
  | tick | lines | stored | force | link | mask | notices | calls | intake | feed | out | table | stations | gate |
  episode | planner | finisher | stats | dry
  deriving DecidableEq, Repr

/-- A block stands in a list. -/
def hasBlock (A : List Block) (b : Block) : Bool := A.any fun x => Nat.beq x.ctorIdx b.ctorIdx

/-- Every block of `B` stands in `A`. -/
def hasBlocks (A B : List Block) : Bool := B.all (hasBlock A)

/-- `t` comes from `s` by changes of the blocks in `A` alone. -/
inductive Via (A : List Block) : Part → Part → Prop where
  | refl (s : Part) : Via A s s
  | tick {s t : Part} (h : Via A s t) (g) (hA : hasBlock A .tick = true) : Via A s (t.modTick g)
  | lines {s t : Part} (h : Via A s t) (g) (hA : hasBlock A .lines = true) : Via A s (t.modLines g)
  | stored {s t : Part} (h : Via A s t) (g) (hA : hasBlock A .stored = true) : Via A s (t.modStored g)
  | force {s t : Part} (h : Via A s t) (g) (hA : hasBlock A .force = true) : Via A s (t.modForce g)
  | link {s t : Part} (h : Via A s t) (g) (hA : hasBlock A .link = true) : Via A s (t.modLink g)
  | mask {s t : Part} (h : Via A s t) (g) (hA : hasBlock A .mask = true) : Via A s (t.modMask g)
  | notices {s t : Part} (h : Via A s t) (g) (hA : hasBlock A .notices = true) : Via A s (t.modNotices g)
  | calls {s t : Part} (h : Via A s t) (g) (hA : hasBlock A .calls = true) : Via A s (t.modCalls g)
  | intake {s t : Part} (h : Via A s t) (g) (hA : hasBlock A .intake = true) : Via A s (t.modIntake g)
  | feed {s t : Part} (h : Via A s t) (g) (hA : hasBlock A .feed = true) : Via A s (t.modFeed g)
  | out {s t : Part} (h : Via A s t) (g) (hA : hasBlock A .out = true) : Via A s (t.modOut g)
  | table {s t : Part} (h : Via A s t) (g) (hA : hasBlock A .table = true) : Via A s (t.modTable g)
  | stations {s t : Part} (h : Via A s t) (g) (hA : hasBlock A .stations = true) : Via A s (t.modStations g)
  | gate {s t : Part} (h : Via A s t) (g) (hA : hasBlock A .gate = true) : Via A s (t.modGate g)
  | episode {s t : Part} (h : Via A s t) (g) (hA : hasBlock A .episode = true) : Via A s (t.modEpisode g)
  | planner {s t : Part} (h : Via A s t) (g) (hA : hasBlock A .planner = true) : Via A s (t.modPlanner g)
  | finisher {s t : Part} (h : Via A s t) (g) (hA : hasBlock A .finisher = true) : Via A s (t.modFinisher g)
  | stats {s t : Part} (h : Via A s t) (g) (hA : hasBlock A .stats = true) : Via A s (t.modStats g)
  | dry {s t : Part} (h : Via A s t) (g) (hA : hasBlock A .dry = true) : Via A s (t.modDry g)

theorem hasBlock_mono {A B : List Block} {b : Block} (h : hasBlocks A B = true) (hb : hasBlock B b = true) :
    hasBlock A b = true := by
  obtain ⟨x, hx, e⟩ := List.any_eq_true.mp hb
  have hx := List.all_eq_true.mp h x hx
  simpa [hasBlock, Nat.eq_of_beq_eq_true e] using hx

theorem Via.mono {A B : List Block} {s t : Part} (h : Via B s t) (hB : hasBlocks A B = true) : Via A s t := by
  induction h with
  | refl => exact .refl _
  | tick _ g hA ih => exact .tick ih g (hasBlock_mono hB hA)
  | lines _ g hA ih => exact .lines ih g (hasBlock_mono hB hA)
  | stored _ g hA ih => exact .stored ih g (hasBlock_mono hB hA)
  | force _ g hA ih => exact .force ih g (hasBlock_mono hB hA)
  | link _ g hA ih => exact .link ih g (hasBlock_mono hB hA)
  | mask _ g hA ih => exact .mask ih g (hasBlock_mono hB hA)
  | notices _ g hA ih => exact .notices ih g (hasBlock_mono hB hA)
  | calls _ g hA ih => exact .calls ih g (hasBlock_mono hB hA)
  | intake _ g hA ih => exact .intake ih g (hasBlock_mono hB hA)
  | feed _ g hA ih => exact .feed ih g (hasBlock_mono hB hA)
  | out _ g hA ih => exact .out ih g (hasBlock_mono hB hA)
  | table _ g hA ih => exact .table ih g (hasBlock_mono hB hA)
  | stations _ g hA ih => exact .stations ih g (hasBlock_mono hB hA)
  | gate _ g hA ih => exact .gate ih g (hasBlock_mono hB hA)
  | episode _ g hA ih => exact .episode ih g (hasBlock_mono hB hA)
  | planner _ g hA ih => exact .planner ih g (hasBlock_mono hB hA)
  | finisher _ g hA ih => exact .finisher ih g (hasBlock_mono hB hA)
  | stats _ g hA ih => exact .stats ih g (hasBlock_mono hB hA)
  | dry _ g hA ih => exact .dry ih g (hasBlock_mono hB hA)

theorem Via.trans {A : List Block} {s t u : Part} (h : Via A s t) (k : Via A t u) : Via A s u := by
  induction k with
  | refl => exact h
  | tick _ g hA ih => exact .tick ih g hA
  | lines _ g hA ih => exact .lines ih g hA
  | stored _ g hA ih => exact .stored ih g hA
  | force _ g hA ih => exact .force ih g hA
  | link _ g hA ih => exact .link ih g hA
  | mask _ g hA ih => exact .mask ih g hA
  | notices _ g hA ih => exact .notices ih g hA
  | calls _ g hA ih => exact .calls ih g hA
  | intake _ g hA ih => exact .intake ih g hA
  | feed _ g hA ih => exact .feed ih g hA
  | out _ g hA ih => exact .out ih g hA
  | table _ g hA ih => exact .table ih g hA
  | stations _ g hA ih => exact .stations ih g hA
  | gate _ g hA ih => exact .gate ih g hA
  | episode _ g hA ih => exact .episode ih g hA
  | planner _ g hA ih => exact .planner ih g hA
  | finisher _ g hA ih => exact .finisher ih g hA
  | stats _ g hA ih => exact .stats ih g hA
  | dry _ g hA ih => exact .dry ih g hA

theorem Via.andThen {A B : List Block} {s t u : Part} (h : Via A s t) (k : Via B t u) (hB : hasBlocks A B = true) :
    Via A s u := h.trans (k.mono hB)

theorem Via.ite {A : List Block} {s t u : Part} {c : Prop} [Decidable c] (h : Via A s t) (k : Via A s u) :
    Via A s (if c then t else u) := by
  split <;> assumption

theorem Via.fold {A : List Block} {α : Type} {s t : Part} {f : Part → α → Part} (h : Via A s t) (l : List α)
    (hf : ∀ p x, Via A p (f p x)) : Via A s (l.foldl f t) := by
  induction l generalizing t with
  | nil => exact h
  | cons x l ih => exact ih (h.trans (hf t x))

theorem Via.tick_eq {A : List Block} {s t : Part} (h : Via A s t) (hA : hasBlock A .tick = false) : t.tick = s.tick := by
  induction h with
  | refl => rfl
  | tick _ _ h' _ => exact absurd (h'.symm.trans hA) (by decide)
  | lines _ _ _ ih => exact ih
  | stored _ _ _ ih => exact ih
  | force _ _ _ ih => exact ih
  | link _ _ _ ih => exact ih
  | mask _ _ _ ih => exact ih
  | notices _ _ _ ih => exact ih
  | calls _ _ _ ih => exact ih
  | intake _ _ _ ih => exact ih
  | feed _ _ _ ih => exact ih
  | out _ _ _ ih => exact ih
  | table _ _ _ ih => exact ih
  | stations _ _ _ ih => exact ih
  | gate _ _ _ ih => exact ih
  | episode _ _ _ ih => exact ih
  | planner _ _ _ ih => exact ih
  | finisher _ _ _ ih => exact ih
  | stats _ _ _ ih => exact ih
  | dry _ _ _ ih => exact ih

theorem Via.lines_eq {A : List Block} {s t : Part} (h : Via A s t) (hA : hasBlock A .lines = false) : t.lines = s.lines := by
  induction h with
  | refl => rfl
  | tick _ _ _ ih => exact ih
  | lines _ _ h' _ => exact absurd (h'.symm.trans hA) (by decide)
  | stored _ _ _ ih => exact ih
  | force _ _ _ ih => exact ih
  | link _ _ _ ih => exact ih
  | mask _ _ _ ih => exact ih
  | notices _ _ _ ih => exact ih
  | calls _ _ _ ih => exact ih
  | intake _ _ _ ih => exact ih
  | feed _ _ _ ih => exact ih
  | out _ _ _ ih => exact ih
  | table _ _ _ ih => exact ih
  | stations _ _ _ ih => exact ih
  | gate _ _ _ ih => exact ih
  | episode _ _ _ ih => exact ih
  | planner _ _ _ ih => exact ih
  | finisher _ _ _ ih => exact ih
  | stats _ _ _ ih => exact ih
  | dry _ _ _ ih => exact ih

theorem Via.stored_eq {A : List Block} {s t : Part} (h :
    Via A s t) (hA : hasBlock A .stored = false) : t.stored = s.stored := by
  induction h with
  | refl => rfl
  | tick _ _ _ ih => exact ih
  | lines _ _ _ ih => exact ih
  | stored _ _ h' _ => exact absurd (h'.symm.trans hA) (by decide)
  | force _ _ _ ih => exact ih
  | link _ _ _ ih => exact ih
  | mask _ _ _ ih => exact ih
  | notices _ _ _ ih => exact ih
  | calls _ _ _ ih => exact ih
  | intake _ _ _ ih => exact ih
  | feed _ _ _ ih => exact ih
  | out _ _ _ ih => exact ih
  | table _ _ _ ih => exact ih
  | stations _ _ _ ih => exact ih
  | gate _ _ _ ih => exact ih
  | episode _ _ _ ih => exact ih
  | planner _ _ _ ih => exact ih
  | finisher _ _ _ ih => exact ih
  | stats _ _ _ ih => exact ih
  | dry _ _ _ ih => exact ih

theorem Via.force_eq {A : List Block} {s t : Part} (h : Via A s t) (hA : hasBlock A .force = false) : t.force = s.force := by
  induction h with
  | refl => rfl
  | tick _ _ _ ih => exact ih
  | lines _ _ _ ih => exact ih
  | stored _ _ _ ih => exact ih
  | force _ _ h' _ => exact absurd (h'.symm.trans hA) (by decide)
  | link _ _ _ ih => exact ih
  | mask _ _ _ ih => exact ih
  | notices _ _ _ ih => exact ih
  | calls _ _ _ ih => exact ih
  | intake _ _ _ ih => exact ih
  | feed _ _ _ ih => exact ih
  | out _ _ _ ih => exact ih
  | table _ _ _ ih => exact ih
  | stations _ _ _ ih => exact ih
  | gate _ _ _ ih => exact ih
  | episode _ _ _ ih => exact ih
  | planner _ _ _ ih => exact ih
  | finisher _ _ _ ih => exact ih
  | stats _ _ _ ih => exact ih
  | dry _ _ _ ih => exact ih

theorem Via.link_eq {A : List Block} {s t : Part} (h : Via A s t) (hA : hasBlock A .link = false) : t.link = s.link := by
  induction h with
  | refl => rfl
  | tick _ _ _ ih => exact ih
  | lines _ _ _ ih => exact ih
  | stored _ _ _ ih => exact ih
  | force _ _ _ ih => exact ih
  | link _ _ h' _ => exact absurd (h'.symm.trans hA) (by decide)
  | mask _ _ _ ih => exact ih
  | notices _ _ _ ih => exact ih
  | calls _ _ _ ih => exact ih
  | intake _ _ _ ih => exact ih
  | feed _ _ _ ih => exact ih
  | out _ _ _ ih => exact ih
  | table _ _ _ ih => exact ih
  | stations _ _ _ ih => exact ih
  | gate _ _ _ ih => exact ih
  | episode _ _ _ ih => exact ih
  | planner _ _ _ ih => exact ih
  | finisher _ _ _ ih => exact ih
  | stats _ _ _ ih => exact ih
  | dry _ _ _ ih => exact ih

theorem Via.mask_eq {A : List Block} {s t : Part} (h : Via A s t) (hA : hasBlock A .mask = false) : t.mask = s.mask := by
  induction h with
  | refl => rfl
  | tick _ _ _ ih => exact ih
  | lines _ _ _ ih => exact ih
  | stored _ _ _ ih => exact ih
  | force _ _ _ ih => exact ih
  | link _ _ _ ih => exact ih
  | mask _ _ h' _ => exact absurd (h'.symm.trans hA) (by decide)
  | notices _ _ _ ih => exact ih
  | calls _ _ _ ih => exact ih
  | intake _ _ _ ih => exact ih
  | feed _ _ _ ih => exact ih
  | out _ _ _ ih => exact ih
  | table _ _ _ ih => exact ih
  | stations _ _ _ ih => exact ih
  | gate _ _ _ ih => exact ih
  | episode _ _ _ ih => exact ih
  | planner _ _ _ ih => exact ih
  | finisher _ _ _ ih => exact ih
  | stats _ _ _ ih => exact ih
  | dry _ _ _ ih => exact ih

theorem Via.notices_eq {A : List Block} {s t : Part} (h :
    Via A s t) (hA : hasBlock A .notices = false) : t.notices = s.notices := by
  induction h with
  | refl => rfl
  | tick _ _ _ ih => exact ih
  | lines _ _ _ ih => exact ih
  | stored _ _ _ ih => exact ih
  | force _ _ _ ih => exact ih
  | link _ _ _ ih => exact ih
  | mask _ _ _ ih => exact ih
  | notices _ _ h' _ => exact absurd (h'.symm.trans hA) (by decide)
  | calls _ _ _ ih => exact ih
  | intake _ _ _ ih => exact ih
  | feed _ _ _ ih => exact ih
  | out _ _ _ ih => exact ih
  | table _ _ _ ih => exact ih
  | stations _ _ _ ih => exact ih
  | gate _ _ _ ih => exact ih
  | episode _ _ _ ih => exact ih
  | planner _ _ _ ih => exact ih
  | finisher _ _ _ ih => exact ih
  | stats _ _ _ ih => exact ih
  | dry _ _ _ ih => exact ih

theorem Via.calls_eq {A : List Block} {s t : Part} (h : Via A s t) (hA : hasBlock A .calls = false) : t.calls = s.calls := by
  induction h with
  | refl => rfl
  | tick _ _ _ ih => exact ih
  | lines _ _ _ ih => exact ih
  | stored _ _ _ ih => exact ih
  | force _ _ _ ih => exact ih
  | link _ _ _ ih => exact ih
  | mask _ _ _ ih => exact ih
  | notices _ _ _ ih => exact ih
  | calls _ _ h' _ => exact absurd (h'.symm.trans hA) (by decide)
  | intake _ _ _ ih => exact ih
  | feed _ _ _ ih => exact ih
  | out _ _ _ ih => exact ih
  | table _ _ _ ih => exact ih
  | stations _ _ _ ih => exact ih
  | gate _ _ _ ih => exact ih
  | episode _ _ _ ih => exact ih
  | planner _ _ _ ih => exact ih
  | finisher _ _ _ ih => exact ih
  | stats _ _ _ ih => exact ih
  | dry _ _ _ ih => exact ih

theorem Via.intake_eq {A : List Block} {s t : Part} (h :
    Via A s t) (hA : hasBlock A .intake = false) : t.intake = s.intake := by
  induction h with
  | refl => rfl
  | tick _ _ _ ih => exact ih
  | lines _ _ _ ih => exact ih
  | stored _ _ _ ih => exact ih
  | force _ _ _ ih => exact ih
  | link _ _ _ ih => exact ih
  | mask _ _ _ ih => exact ih
  | notices _ _ _ ih => exact ih
  | calls _ _ _ ih => exact ih
  | intake _ _ h' _ => exact absurd (h'.symm.trans hA) (by decide)
  | feed _ _ _ ih => exact ih
  | out _ _ _ ih => exact ih
  | table _ _ _ ih => exact ih
  | stations _ _ _ ih => exact ih
  | gate _ _ _ ih => exact ih
  | episode _ _ _ ih => exact ih
  | planner _ _ _ ih => exact ih
  | finisher _ _ _ ih => exact ih
  | stats _ _ _ ih => exact ih
  | dry _ _ _ ih => exact ih

theorem Via.feed_eq {A : List Block} {s t : Part} (h : Via A s t) (hA : hasBlock A .feed = false) : t.feed = s.feed := by
  induction h with
  | refl => rfl
  | tick _ _ _ ih => exact ih
  | lines _ _ _ ih => exact ih
  | stored _ _ _ ih => exact ih
  | force _ _ _ ih => exact ih
  | link _ _ _ ih => exact ih
  | mask _ _ _ ih => exact ih
  | notices _ _ _ ih => exact ih
  | calls _ _ _ ih => exact ih
  | intake _ _ _ ih => exact ih
  | feed _ _ h' _ => exact absurd (h'.symm.trans hA) (by decide)
  | out _ _ _ ih => exact ih
  | table _ _ _ ih => exact ih
  | stations _ _ _ ih => exact ih
  | gate _ _ _ ih => exact ih
  | episode _ _ _ ih => exact ih
  | planner _ _ _ ih => exact ih
  | finisher _ _ _ ih => exact ih
  | stats _ _ _ ih => exact ih
  | dry _ _ _ ih => exact ih

theorem Via.out_eq {A : List Block} {s t : Part} (h : Via A s t) (hA : hasBlock A .out = false) : t.out = s.out := by
  induction h with
  | refl => rfl
  | tick _ _ _ ih => exact ih
  | lines _ _ _ ih => exact ih
  | stored _ _ _ ih => exact ih
  | force _ _ _ ih => exact ih
  | link _ _ _ ih => exact ih
  | mask _ _ _ ih => exact ih
  | notices _ _ _ ih => exact ih
  | calls _ _ _ ih => exact ih
  | intake _ _ _ ih => exact ih
  | feed _ _ _ ih => exact ih
  | out _ _ h' _ => exact absurd (h'.symm.trans hA) (by decide)
  | table _ _ _ ih => exact ih
  | stations _ _ _ ih => exact ih
  | gate _ _ _ ih => exact ih
  | episode _ _ _ ih => exact ih
  | planner _ _ _ ih => exact ih
  | finisher _ _ _ ih => exact ih
  | stats _ _ _ ih => exact ih
  | dry _ _ _ ih => exact ih

theorem Via.table_eq {A : List Block} {s t : Part} (h : Via A s t) (hA : hasBlock A .table = false) : t.table = s.table := by
  induction h with
  | refl => rfl
  | tick _ _ _ ih => exact ih
  | lines _ _ _ ih => exact ih
  | stored _ _ _ ih => exact ih
  | force _ _ _ ih => exact ih
  | link _ _ _ ih => exact ih
  | mask _ _ _ ih => exact ih
  | notices _ _ _ ih => exact ih
  | calls _ _ _ ih => exact ih
  | intake _ _ _ ih => exact ih
  | feed _ _ _ ih => exact ih
  | out _ _ _ ih => exact ih
  | table _ _ h' _ => exact absurd (h'.symm.trans hA) (by decide)
  | stations _ _ _ ih => exact ih
  | gate _ _ _ ih => exact ih
  | episode _ _ _ ih => exact ih
  | planner _ _ _ ih => exact ih
  | finisher _ _ _ ih => exact ih
  | stats _ _ _ ih => exact ih
  | dry _ _ _ ih => exact ih

theorem Via.stations_eq {A : List Block} {s t : Part} (h :
    Via A s t) (hA : hasBlock A .stations = false) : t.stations = s.stations := by
  induction h with
  | refl => rfl
  | tick _ _ _ ih => exact ih
  | lines _ _ _ ih => exact ih
  | stored _ _ _ ih => exact ih
  | force _ _ _ ih => exact ih
  | link _ _ _ ih => exact ih
  | mask _ _ _ ih => exact ih
  | notices _ _ _ ih => exact ih
  | calls _ _ _ ih => exact ih
  | intake _ _ _ ih => exact ih
  | feed _ _ _ ih => exact ih
  | out _ _ _ ih => exact ih
  | table _ _ _ ih => exact ih
  | stations _ _ h' _ => exact absurd (h'.symm.trans hA) (by decide)
  | gate _ _ _ ih => exact ih
  | episode _ _ _ ih => exact ih
  | planner _ _ _ ih => exact ih
  | finisher _ _ _ ih => exact ih
  | stats _ _ _ ih => exact ih
  | dry _ _ _ ih => exact ih

theorem Via.gate_eq {A : List Block} {s t : Part} (h : Via A s t) (hA : hasBlock A .gate = false) : t.gate = s.gate := by
  induction h with
  | refl => rfl
  | tick _ _ _ ih => exact ih
  | lines _ _ _ ih => exact ih
  | stored _ _ _ ih => exact ih
  | force _ _ _ ih => exact ih
  | link _ _ _ ih => exact ih
  | mask _ _ _ ih => exact ih
  | notices _ _ _ ih => exact ih
  | calls _ _ _ ih => exact ih
  | intake _ _ _ ih => exact ih
  | feed _ _ _ ih => exact ih
  | out _ _ _ ih => exact ih
  | table _ _ _ ih => exact ih
  | stations _ _ _ ih => exact ih
  | gate _ _ h' _ => exact absurd (h'.symm.trans hA) (by decide)
  | episode _ _ _ ih => exact ih
  | planner _ _ _ ih => exact ih
  | finisher _ _ _ ih => exact ih
  | stats _ _ _ ih => exact ih
  | dry _ _ _ ih => exact ih

theorem Via.episode_eq {A : List Block} {s t : Part} (h :
    Via A s t) (hA : hasBlock A .episode = false) : t.episode = s.episode := by
  induction h with
  | refl => rfl
  | tick _ _ _ ih => exact ih
  | lines _ _ _ ih => exact ih
  | stored _ _ _ ih => exact ih
  | force _ _ _ ih => exact ih
  | link _ _ _ ih => exact ih
  | mask _ _ _ ih => exact ih
  | notices _ _ _ ih => exact ih
  | calls _ _ _ ih => exact ih
  | intake _ _ _ ih => exact ih
  | feed _ _ _ ih => exact ih
  | out _ _ _ ih => exact ih
  | table _ _ _ ih => exact ih
  | stations _ _ _ ih => exact ih
  | gate _ _ _ ih => exact ih
  | episode _ _ h' _ => exact absurd (h'.symm.trans hA) (by decide)
  | planner _ _ _ ih => exact ih
  | finisher _ _ _ ih => exact ih
  | stats _ _ _ ih => exact ih
  | dry _ _ _ ih => exact ih

theorem Via.planner_eq {A : List Block} {s t : Part} (h :
    Via A s t) (hA : hasBlock A .planner = false) : t.planner = s.planner := by
  induction h with
  | refl => rfl
  | tick _ _ _ ih => exact ih
  | lines _ _ _ ih => exact ih
  | stored _ _ _ ih => exact ih
  | force _ _ _ ih => exact ih
  | link _ _ _ ih => exact ih
  | mask _ _ _ ih => exact ih
  | notices _ _ _ ih => exact ih
  | calls _ _ _ ih => exact ih
  | intake _ _ _ ih => exact ih
  | feed _ _ _ ih => exact ih
  | out _ _ _ ih => exact ih
  | table _ _ _ ih => exact ih
  | stations _ _ _ ih => exact ih
  | gate _ _ _ ih => exact ih
  | episode _ _ _ ih => exact ih
  | planner _ _ h' _ => exact absurd (h'.symm.trans hA) (by decide)
  | finisher _ _ _ ih => exact ih
  | stats _ _ _ ih => exact ih
  | dry _ _ _ ih => exact ih

theorem Via.finisher_eq {A : List Block} {s t : Part} (h :
    Via A s t) (hA : hasBlock A .finisher = false) : t.finisher = s.finisher := by
  induction h with
  | refl => rfl
  | tick _ _ _ ih => exact ih
  | lines _ _ _ ih => exact ih
  | stored _ _ _ ih => exact ih
  | force _ _ _ ih => exact ih
  | link _ _ _ ih => exact ih
  | mask _ _ _ ih => exact ih
  | notices _ _ _ ih => exact ih
  | calls _ _ _ ih => exact ih
  | intake _ _ _ ih => exact ih
  | feed _ _ _ ih => exact ih
  | out _ _ _ ih => exact ih
  | table _ _ _ ih => exact ih
  | stations _ _ _ ih => exact ih
  | gate _ _ _ ih => exact ih
  | episode _ _ _ ih => exact ih
  | planner _ _ _ ih => exact ih
  | finisher _ _ h' _ => exact absurd (h'.symm.trans hA) (by decide)
  | stats _ _ _ ih => exact ih
  | dry _ _ _ ih => exact ih

theorem Via.stats_eq {A : List Block} {s t : Part} (h : Via A s t) (hA : hasBlock A .stats = false) : t.stats = s.stats := by
  induction h with
  | refl => rfl
  | tick _ _ _ ih => exact ih
  | lines _ _ _ ih => exact ih
  | stored _ _ _ ih => exact ih
  | force _ _ _ ih => exact ih
  | link _ _ _ ih => exact ih
  | mask _ _ _ ih => exact ih
  | notices _ _ _ ih => exact ih
  | calls _ _ _ ih => exact ih
  | intake _ _ _ ih => exact ih
  | feed _ _ _ ih => exact ih
  | out _ _ _ ih => exact ih
  | table _ _ _ ih => exact ih
  | stations _ _ _ ih => exact ih
  | gate _ _ _ ih => exact ih
  | episode _ _ _ ih => exact ih
  | planner _ _ _ ih => exact ih
  | finisher _ _ _ ih => exact ih
  | stats _ _ h' _ => exact absurd (h'.symm.trans hA) (by decide)
  | dry _ _ _ ih => exact ih

theorem Via.dry_eq {A : List Block} {s t : Part} (h : Via A s t) (hA : hasBlock A .dry = false) : t.dry = s.dry := by
  induction h with
  | refl => rfl
  | tick _ _ _ ih => exact ih
  | lines _ _ _ ih => exact ih
  | stored _ _ _ ih => exact ih
  | force _ _ _ ih => exact ih
  | link _ _ _ ih => exact ih
  | mask _ _ _ ih => exact ih
  | notices _ _ _ ih => exact ih
  | calls _ _ _ ih => exact ih
  | intake _ _ _ ih => exact ih
  | feed _ _ _ ih => exact ih
  | out _ _ _ ih => exact ih
  | table _ _ _ ih => exact ih
  | stations _ _ _ ih => exact ih
  | gate _ _ _ ih => exact ih
  | episode _ _ _ ih => exact ih
  | planner _ _ _ ih => exact ih
  | finisher _ _ _ ih => exact ih
  | stats _ _ _ ih => exact ih
  | dry _ _ h' _ => exact absurd (h'.symm.trans hA) (by decide)

end Sys2Proof.Machine
end

