-- ==== Sys2Proof/Laws/FrameShared.lean ====
section
/-! SUPPORT. Which blocks the operations of Ops, Flags, Finisher, Recovery and Episode can change. -/

namespace Sys2Proof.Machine

theorem Part.advance_via (s : Part) (t : Tick) : Via [.tick] s (Part.advance s t) := by
  unfold Part.advance
  repeat' (with_reducible first | exact Via.refl _ | refine Via.tick ?_ _ rfl)

theorem Part.lineEdge_via (s : Part) (r : InputRole) (asserted : Bool) : Via [.lines] s (Part.lineEdge s r asserted) := by
  unfold Part.lineEdge
  repeat' (with_reducible first | exact Via.refl _ | refine Via.lines ?_ _ rfl | split)

theorem Part.notePath_via (s : Part) : Via [.notices] s (Part.notePath s) := by
  unfold Part.notePath
  repeat' (with_reducible first | exact Via.refl _ | refine Via.notices ?_ _ rfl)

theorem Part.setPath_via (s : Part) (p : PathState) : Via [.notices, .feed] s (Part.setPath s p) := by
  unfold Part.setPath
  repeat' (with_reducible first
      | exact Via.refl _ | refine Via.feed ?_ _ rfl | refine Via.andThen ?_ (Part.notePath_via ..) rfl | split)

theorem Part.notePlanReady_via (s : Part) : Via [.notices] s (Part.notePlanReady s) := by
  unfold Part.notePlanReady
  repeat' (with_reducible first | exact Via.refl _ | refine Via.notices ?_ _ rfl)

theorem Part.noteJam_via (s : Part) (x : JamNote) : Via [.notices] s (Part.noteJam s x) := by
  unfold Part.noteJam
  repeat' (with_reducible first | exact Via.refl _ | refine Via.notices ?_ _ rfl)

theorem Part.judgeWatermark_via (s : Part) (g : Group) (record : Nat) (counter : Nat) :
    Via [.notices, .stats] s (Part.judgeWatermark s g record counter) := by
  unfold Part.judgeWatermark
  dsimp only
  repeat' (with_reducible first | exact Via.refl _ | refine Via.stats ?_ _ rfl | refine Via.notices ?_ _ rfl | split)

theorem Part.countStation_via (s : Part) (st : Fin 24) (c : Fin 3) : Via [.notices, .stats] s (Part.countStation s st c) := by
  unfold Part.countStation
  repeat' (with_reducible first
      | exact Via.refl _ | refine Via.stats ?_ _ rfl | refine Via.andThen ?_ (Part.judgeWatermark_via ..) rfl)

theorem Part.countTray_via (s : Part) (u : Fin 5) (c : Fin 3) : Via [.notices, .stats] s (Part.countTray s u c) := by
  unfold Part.countTray
  repeat' (with_reducible first
      | exact Via.refl _ | refine Via.stats ?_ _ rfl | refine Via.andThen ?_ (Part.judgeWatermark_via ..) rfl)

theorem Part.countPath_via (s : Part) (c : Fin 10) : Via [.notices, .stats] s (Part.countPath s c) := by
  unfold Part.countPath
  repeat' (with_reducible first
      | exact Via.refl _ | refine Via.stats ?_ _ rfl | refine Via.andThen ?_ (Part.judgeWatermark_via ..) rfl)

theorem Part.modSheet_via (s : Part) (n : Nat) (g : Sheet → Sheet) : Via [.table] s (Part.modSheet s n g) := by
  unfold Part.modSheet
  repeat' (with_reducible first | exact Via.refl _ | refine Via.table ?_ _ rfl)

theorem Part.raiseRevision_via (s : Part) (k : Nat) : Via [.table] s (Part.raiseRevision s k) := by
  unfold Part.raiseRevision
  repeat' (with_reducible first | exact Via.refl _ | refine Via.table ?_ _ rfl)

theorem Part.modStation_via (s : Part) (st : Fin 24) (g : Station → Station) : Via [.stations] s (Part.modStation s st g) := by
  unfold Part.modStation
  repeat' (with_reducible first | exact Via.refl _ | refine Via.stations ?_ _ rfl)

theorem Part.withdrawEdges_via (s : Part) (n : Nat) : Via [.dry] s (Part.withdrawEdges s n) := by
  unfold Part.withdrawEdges
  repeat' (with_reducible first | exact Via.refl _ | refine Via.dry ?_ _ rfl)

theorem Part.removeSheet_via (s : Part) (n : Nat) : Via [.table, .stations, .dry] s (Part.removeSheet s n) := by
  unfold Part.removeSheet
  repeat' (with_reducible first
      | exact Via.refl _ | refine Via.table ?_ _ rfl | refine Via.andThen ?_ (Part.raiseRevision_via ..) rfl
      | refine Via.stations ?_ _ rfl | refine Via.andThen ?_ (Part.withdrawEdges_via ..) rfl)

theorem Part.scheduleLeading_via (s : Part) (x : Sheet) (st : Fin 24) (T : Nat) :
    Via [.dry] s (Part.scheduleLeading s x st T) := by
  unfold Part.scheduleLeading
  dsimp only
  repeat' (with_reducible first | exact Via.refl _ | refine Via.dry ?_ _ rfl | split)

theorem Part.armNext_via (s : Part) (n : Nat) : Via [.table, .dry] s (Part.armNext s n) := by
  unfold Part.armNext
  dsimp only
  repeat' (with_reducible first
      | exact Via.refl _ | refine Via.andThen ?_ (Part.modSheet_via ..) rfl
      | refine Via.andThen ?_ (Part.scheduleLeading_via ..) rfl | split)

theorem Part.repredict_via (s : Part) (n : Nat) (lead : Tick) (trail : Tick) :
    Via [.feed] s (Part.repredict s n lead trail) := by
  unfold Part.repredict
  repeat' (with_reducible first | exact Via.refl _ | refine Via.feed ?_ _ rfl | split)

theorem Part.reprint_via (s : Part) (reason : Reason) (pages : List Page) : Via [.planner] s (Part.reprint s reason pages) := by
  unfold Part.reprint
  repeat' (with_reducible first | exact Via.refl _ | refine Via.fold ?_ _ (fun _ _ => ?_) | refine Via.planner ?_ _ rfl)

theorem Part.modSlot_via (s : Part) (i : Fin 8) (g : Slot → Slot) : Via [.intake] s (Part.modSlot s i g) := by
  unfold Part.modSlot
  repeat' (with_reducible first | exact Via.refl _ | refine Via.intake ?_ _ rfl)

theorem Part.examineSlot_via (s : Part) (i : Fin 8) : Via [.intake] s (Part.examineSlot s i) := by
  unfold Part.examineSlot
  repeat' (with_reducible first | exact Via.refl _ | refine Via.intake ?_ _ rfl | split)

theorem Part.noteProgress_via (s : Part) (i : Fin 8) : Via [.notices] s (Part.noteProgress s i) := by
  unfold Part.noteProgress
  repeat' (with_reducible first | exact Via.refl _ | refine Via.notices ?_ _ rfl)

theorem Part.deliverPages_via (s : Part) (job : Nat) (pages : List Page) :
    Via [.notices, .intake] s (Part.deliverPages s job pages) := by
  unfold Part.deliverPages
  repeat' (with_reducible first
      | exact Via.refl _ | refine Via.andThen ?_ (Part.modSlot_via ..) rfl
      | refine Via.andThen ?_ (Part.noteProgress_via ..) rfl | refine Via.andThen ?_ (Part.examineSlot_via ..) rfl | split)

theorem Part.judgeTrayEmpty_via (s : Part) (u : Fin 5) : Via [.notices, .feed] s (Part.judgeTrayEmpty s u) := by
  unfold Part.judgeTrayEmpty
  dsimp only
  repeat' (with_reducible first | exact Via.refl _ | refine Via.feed ?_ _ rfl | refine Via.notices ?_ _ rfl)

theorem Part.judgeBinFull_via (s : Part) (b : Fin 2) : Via [.notices, .feed] s (Part.judgeBinFull s b) := by
  unfold Part.judgeBinFull
  dsimp only
  repeat' (with_reducible first | exact Via.refl _ | refine Via.feed ?_ _ rfl | refine Via.notices ?_ _ rfl)

theorem Part.judgeSupplies_via (s : Part) : Via [.notices, .feed] s (Part.judgeSupplies s) := by
  unfold Part.judgeSupplies
  dsimp only
  repeat' (with_reducible first
      | exact Via.refl _ | refine Via.fold ?_ _ (fun _ _ => ?_) | refine Via.andThen ?_ (Part.judgeTrayEmpty_via ..) rfl
      | refine Via.andThen ?_ (Part.judgeBinFull_via ..) rfl)

theorem Part.judgePurgeFull_via (s : Part) : Via [.notices, .gate] s (Part.judgePurgeFull s) := by
  unfold Part.judgePurgeFull
  dsimp only
  repeat' (with_reducible first | exact Via.refl _ | refine Via.gate ?_ _ rfl | refine Via.notices ?_ _ rfl)

theorem Part.judgeIntakeLow_via (s : Part) (y0 : Queue) : Via [.notices, .intake] s (Part.judgeIntakeLow s y0) := by
  unfold Part.judgeIntakeLow
  dsimp only
  repeat' (with_reducible first | exact Via.refl _ | refine Via.intake ?_ _ rfl | refine Via.notices ?_ _ rfl | split)

theorem Part.judgeDoor_via (s : Part) (d : Fin 8) : Via [.notices, .episode] s (Part.judgeDoor s d) := by
  unfold Part.judgeDoor
  dsimp only
  repeat' (with_reducible first | exact Via.refl _ | refine Via.episode ?_ _ rfl | refine Via.notices ?_ _ rfl)

theorem Part.setStep_via (s : Part) (st : Fin 24) (now : Bool) : Via [.notices, .stations] s (Part.setStep s st now) := by
  unfold Part.setStep
  dsimp only
  repeat' (with_reducible first
      | exact Via.refl _ | refine Via.andThen ?_ (Part.modStation_via ..) rfl | refine Via.notices ?_ _ rfl)

theorem Part.exhaust_via (s : Part) : Via [.notices, .feed] s (Part.exhaust s) := by
  unfold Part.exhaust
  dsimp only
  repeat' (with_reducible first | exact Via.refl _ | refine Via.feed ?_ _ rfl | refine Via.notices ?_ _ rfl)

theorem Part.enterStapling_via (s : Part) : Via [.out, .finisher, .dry] s (Part.enterStapling s) := by
  unfold Part.enterStapling
  dsimp only
  repeat' (with_reducible first
      | exact Via.refl _ | refine Via.finisher ?_ _ rfl | refine Via.andThen ?_ (Part.stapleLimit_via ..) rfl
      | refine Via.out ?_ _ rfl | refine Via.dry ?_ _ rfl | split)

theorem Part.enterEjecting_via (s : Part) (part : Bool) : Via [.out, .finisher, .dry] s (Part.enterEjecting s part) := by
  unfold Part.enterEjecting
  dsimp only
  repeat' (with_reducible first
      | exact Via.refl _ | refine Via.finisher ?_ _ rfl | refine Via.andThen ?_ (Part.ejectLimit_via ..) rfl
      | refine Via.out ?_ _ rfl | refine Via.dry ?_ _ rfl | split)

theorem Part.endPartial_via (s : Part) : Via [.finisher] s (Part.endPartial s) := by
  unfold Part.endPartial
  repeat' (with_reducible first | exact Via.refl _ | refine Via.finisher ?_ _ rfl)

theorem Part.endFinal_via (s : Part) : Via [.notices, .finisher, .stats] s (Part.endFinal s) := by
  unfold Part.endFinal
  dsimp only
  repeat' (with_reducible first
      | exact Via.refl _ | refine Via.andThen ?_ (Part.countPath_via ..) rfl | refine Via.notices ?_ _ rfl
      | refine Via.finisher ?_ _ rfl | split)

theorem Part.completeEject_via (s : Part) :
    Via [.notices, .intake, .out, .finisher, .stats, .dry] s (Part.completeEject s) := by
  unfold Part.completeEject
  dsimp only
  repeat' (with_reducible first
      | exact Via.refl _ | refine Via.out ?_ _ rfl | refine Via.finisher ?_ _ rfl
      | refine Via.andThen ?_ (Part.ejectLimit_via ..) rfl | refine Via.dry ?_ _ rfl
      | refine Via.andThen ?_ (Part.deliverPages_via ..) rfl | refine Via.andThen ?_ (Part.endPartial_via ..) rfl
      | refine Via.andThen ?_ (Part.endFinal_via ..) rfl | split)

theorem Part.judgeClosure_via (s : Part) : Via [.finisher] s (Part.judgeClosure s) := by
  unfold Part.judgeClosure
  dsimp only
  repeat' (with_reducible first | exact Via.refl _ | refine Via.finisher ?_ _ rfl | split)

theorem Part.startCycle_via (s : Part) : Via [.notices, .intake, .out, .finisher, .stats, .dry] s (Part.startCycle s) := by
  unfold Part.startCycle
  dsimp only
  repeat' (with_reducible first
      | exact Via.refl _ | refine Via.finisher ?_ _ rfl | refine Via.andThen ?_ (Part.completeEject_via ..) rfl
      | refine Via.andThen ?_ (Part.enterStapling_via ..) rfl | refine Via.andThen ?_ (Part.enterEjecting_via ..) rfl
      | split)

theorem Part.judgeFinisher_via (s : Part) :
    Via [.notices, .intake, .out, .finisher, .stats, .dry] s (Part.judgeFinisher s) := by
  unfold Part.judgeFinisher
  dsimp only
  repeat' (with_reducible first
      | exact Via.refl _ | refine Via.andThen ?_ (Part.judgeClosure_via ..) rfl
      | refine Via.andThen ?_ (Part.startCycle_via ..) rfl | split)

theorem Part.judgeSplit_via (s : Part) : Via [.out, .finisher, .dry] s (Part.judgeSplit s) := by
  unfold Part.judgeSplit
  dsimp only
  repeat' (with_reducible first
      | exact Via.refl _ | refine Via.finisher ?_ _ rfl | refine Via.andThen ?_ (Part.enterEjecting_via ..) rfl | split)

theorem Part.completeCompile_via (s : Part) : Via [.notices, .out, .finisher, .stats, .dry] s (Part.completeCompile s) := by
  unfold Part.completeCompile
  dsimp only
  repeat' (with_reducible first
      | exact Via.refl _ | refine Via.finisher ?_ _ rfl | refine Via.andThen ?_ (Part.countPath_via ..) rfl
      | refine Via.andThen ?_ (Part.judgeClosure_via ..) rfl | refine Via.andThen ?_ (Part.judgeSplit_via ..) rfl | split)

theorem Part.handOver_via (s : Part) (x : Sheet) : Via [.finisher] s (Part.handOver s x) := by
  unfold Part.handOver
  dsimp only
  repeat' (with_reducible first | exact Via.refl _ | refine Via.finisher ?_ _ rfl)

theorem Part.retain_via (s : Part) : Via [.finisher] s (Part.retain s) := by
  unfold Part.retain
  repeat' (with_reducible first | exact Via.refl _ | refine Via.finisher ?_ _ rfl)

theorem Part.abortCycle_via (s : Part) : Via [.out, .finisher, .dry] s (Part.abortCycle s) := by
  unfold Part.abortCycle
  repeat' (with_reducible first
      | exact Via.refl _ | refine Via.finisher ?_ _ rfl | refine Via.andThen ?_ (Part.stapleLimit_via ..) rfl
      | refine Via.andThen ?_ (Part.ejectLimit_via ..) rfl | refine Via.out ?_ _ rfl | refine Via.dry ?_ _ rfl | split)

theorem Part.disturb_via (s : Part) : Via [.finisher] s (Part.disturb s) := by
  unfold Part.disturb
  repeat' (with_reducible first | exact Via.refl _ | refine Via.finisher ?_ _ rfl | split)

theorem Part.resumeFinisher_via (s : Part) :
    Via [.notices, .intake, .out, .finisher, .stats, .dry] s (Part.resumeFinisher s) := by
  unfold Part.resumeFinisher
  repeat' (with_reducible first
      | exact Via.refl _ | refine Via.finisher ?_ _ rfl | refine Via.andThen ?_ (Part.judgeClosure_via ..) rfl
      | refine Via.andThen ?_ (Part.judgeSplit_via ..) rfl | refine Via.andThen ?_ (Part.judgeFinisher_via ..) rfl
      | refine Via.andThen ?_ (Part.enterStapling_via ..) rfl | split)

theorem Part.stopDrives_via (s : Part) : Via [.out] s (Part.stopDrives s) := by
  unfold Part.stopDrives
  repeat' (with_reducible first | exact Via.refl _ | refine Via.out ?_ _ rfl)

theorem Part.runDrives_via (s : Part) : Via [.out] s (Part.runDrives s) := by
  unfold Part.runDrives
  repeat' (with_reducible first | exact Via.refl _ | refine Via.out ?_ _ rfl)

theorem Part.planSheet_via (s : Part) (x : Sheet) : Via [.table, .stations, .planner, .dry] s (Part.planSheet s x) := by
  unfold Part.planSheet
  repeat' (with_reducible first
      | exact Via.refl _ | refine Via.andThen ?_ (Part.reprint_via ..) rfl
      | refine Via.andThen ?_ (Part.removeSheet_via ..) rfl)

theorem Part.planSet_via (s : Part) : Via [.planner, .finisher] s (Part.planSet s) := by
  unfold Part.planSet
  repeat' (with_reducible first
      | exact Via.refl _ | refine Via.andThen ?_ (Part.reprint_via ..) rfl | refine Via.finisher ?_ _ rfl | split)

theorem Part.planEmpty_via (s : Part) : Via [.calls, .feed] s (Part.planEmpty s) := by
  unfold Part.planEmpty
  repeat' (with_reducible first | exact Via.refl _ | refine Via.feed ?_ _ rfl | refine Via.calls ?_ _ rfl)

theorem Part.planBuild_via (s : Part) :
    Via [.notices, .calls, .feed, .out, .table, .stations, .episode, .planner, .finisher, .dry] s (Part.planBuild s) := by
  have h := (Via.refl s (A := [.notices, .calls, .feed, .out, .table, .stations, .episode, .planner, .finisher, .dry])).andThen
    (Part.stopDrives_via s) rfl
  have h := (h.episode (fun e => { e with sweepTimer := none }) rfl).fold
    ((s.stopDrives.modEpisode fun e => { e with sweepTimer := none }).table.sheets.filter fun x => x.cond == .stranded)
    fun p x => (Part.planSheet_via p x).mono rfl
  exact ((((h.andThen (Part.planSet_via _) rfl).andThen (Part.planEmpty_via _) rfl).planner _ rfl).andThen
    (Part.setPath_via ..) rfl).andThen (Part.notePlanReady_via _) rfl

theorem Part.addAreas_via (s : Part) (a : AreaSet) : Via [.episode] s (Part.addAreas s a) := by
  unfold Part.addAreas
  repeat' (with_reducible first | exact Via.refl _ | refine Via.episode ?_ _ rfl)

theorem Part.strand_via (s : Part) (p : Sheet → Bool) : Via [.table, .stations, .episode, .dry] s (Part.strand s p) := by
  unfold Part.strand
  dsimp only
  repeat' (with_reducible first
      | exact Via.refl _ | refine Via.fold ?_ _ (fun _ _ => ?_) | refine Via.table ?_ _ rfl
      | refine Via.andThen ?_ (Part.raiseRevision_via ..) rfl | refine Via.stations ?_ _ rfl | refine Via.dry ?_ _ rfl
      | refine Via.andThen ?_ (Part.addAreas_via ..) rfl)

theorem Part.noteRecord_via (s : Part) (position : Nat) (j : Jam) : Via [.notices] s (Part.noteRecord s position j) := by
  unfold Part.noteRecord
  repeat' (with_reducible first | exact Via.refl _ | refine Via.andThen ?_ (Part.noteJam_via ..) rfl)

theorem Part.addRecord_via (s : Part) (j : Jam) : Via [.notices, .episode] s (Part.addRecord s j) := by
  unfold Part.addRecord
  dsimp only
  repeat' (with_reducible first
      | exact Via.refl _ | refine Via.andThen ?_ (Part.addAreas_via ..) rfl | refine Via.episode ?_ _ rfl
      | refine Via.andThen ?_ (Part.noteRecord_via ..) rfl | split)

theorem Part.feedOnEpisode_via (s : Part) : Via [.feed, .out] s (Part.feedOnEpisode s) := by
  unfold Part.feedOnEpisode
  repeat' (with_reducible first | exact Via.refl _ | refine Via.feed ?_ _ rfl | refine Via.out ?_ _ rfl)

theorem Part.makeRunOut_via (s : Part) (ns : List Nat) : Via [.table] s (Part.makeRunOut s ns) := by
  unfold Part.makeRunOut
  repeat' (with_reducible first
      | exact Via.refl _ | refine Via.table ?_ _ rfl | refine Via.andThen ?_ (Part.raiseRevision_via ..) rfl)

theorem Part.halt_via (s : Part) (runOut : Bool) : Via [.notices, .feed, .out] s (Part.halt s runOut) := by
  unfold Part.halt
  repeat' (with_reducible first
      | exact Via.refl _ | refine Via.out ?_ _ rfl | refine Via.andThen ?_ (Part.setPath_via ..) rfl
      | refine Via.andThen ?_ (Part.stopDrives_via ..) rfl | split)

theorem Part.addFinisherArea_via (s : Part) : Via [.episode] s (Part.addFinisherArea s) := by
  unfold Part.addFinisherArea
  repeat' (with_reducible first | exact Via.refl _ | refine Via.andThen ?_ (Part.addAreas_via ..) rfl | split)

theorem Part.openEpisode_via (s : Part) (j : Jam) (extra : AreaSet) :
    Via [.notices, .feed, .out, .table, .stations, .episode, .finisher, .stats, .dry] s (Part.openEpisode s j extra) := by
  have h := (Via.refl s (A := [.notices, .feed, .out, .table, .stations, .episode, .finisher, .stats, .dry])).episode
    (fun e => { e with
      number := e.number + 1, isOpen := true, firstKind := some j.kind, records := [j], overflow := 0,
      areas := extra, sweepTimer := none, barred := false }) rfl
  have h := h.andThen (Part.feedOnEpisode_via _) rfl
  exact (((((((h.andThen (Part.makeRunOut_via ..) rfl).andThen (Part.strand_via ..) rfl).andThen (Part.retain_via _) rfl).andThen (Part.addAreas_via ..) rfl).andThen
    (Part.addFinisherArea_via _) rfl).andThen (Part.halt_via ..) rfl).andThen (Part.noteRecord_via ..) rfl).andThen
    (Part.countPath_via ..) rfl

theorem Part.endHalting_via (s : Part) : Via [.notices, .feed, .out] s (Part.endHalting s) := by
  unfold Part.endHalting
  repeat' (with_reducible first
      | exact Via.refl _ | refine Via.andThen ?_ (Part.stopDrives_via ..) rfl
      | refine Via.andThen ?_ (Part.setPath_via ..) rfl | split)

theorem Part.extendHalting_via (s : Part) (j : Jam) :
    Via [.notices, .feed, .out, .table, .stations, .episode, .dry] s (Part.extendHalting s j) := by
  exact (((Via.refl s).andThen (Part.addRecord_via ..) rfl).andThen (Part.strand_via ..) rfl).andThen
    (Part.endHalting_via _) rfl

theorem Part.abandonSweep_via (s : Part) (bar : Bool) : Via [.notices, .feed, .out, .episode] s (Part.abandonSweep s bar) := by
  unfold Part.abandonSweep
  repeat' (with_reducible first
      | exact Via.refl _ | refine Via.episode ?_ _ rfl | refine Via.andThen ?_ (Part.stopDrives_via ..) rfl
      | refine Via.andThen ?_ (Part.setPath_via ..) rfl)

theorem Part.startSweep_via (s : Part) :
    Via [.notices, .calls, .feed, .out, .table, .stations, .episode, .planner, .finisher, .dry] s (Part.startSweep s) := by
  have h := (Via.refl s (A := [.notices, .calls, .feed, .out, .table, .stations, .episode, .planner, .finisher, .dry])).andThen
    (Part.setPath_via s .sweeping) rfl
  unfold Part.startSweep
  dsimp only
  split
  · exact h.andThen (Part.planBuild_via _) rfl
  · exact (((h.out (fun o => { o with presented := (s.setPath .sweeping).force.slowest }) rfl).andThen
      (Part.runDrives_via _) rfl).episode _ rfl)

theorem Part.judgeClearance_via (s : Part) :
    Via [.notices, .calls, .feed, .out, .table, .stations, .episode, .planner, .finisher, .dry] s (Part.judgeClearance s) := by
  unfold Part.judgeClearance
  repeat' (with_reducible first | exact Via.refl _ | refine Via.andThen ?_ (Part.startSweep_via ..) rfl | split)

theorem Part.holdOver_via (s : Part) (j : Jam) : Via [.episode] s (Part.holdOver s j) := by
  unfold Part.holdOver
  split
  · exact (Via.refl s).episode _ rfl
  · exact Via.refl _

theorem Part.takeJam_via (s : Part) (j : Jam) :
    Via [.notices, .feed, .out, .table, .stations, .episode, .finisher, .stats, .dry] s (Part.takeJam s j) := by
  unfold Part.takeJam
  repeat' (with_reducible first
      | exact Via.refl _ | refine Via.andThen ?_ (Part.holdOver_via ..) rfl
      | refine Via.andThen ?_ (Part.openEpisode_via ..) rfl | refine Via.andThen ?_ (Part.extendHalting_via ..) rfl
      | refine Via.andThen ?_ (Part.addRecord_via ..) rfl | refine Via.andThen ?_ (Part.abandonSweep_via ..) rfl | split)

theorem Part.jamAt_via (s : Part) (kind : JamKind) (st : Fin 24) (tick : Tick) (x : Option Sheet) :
    Via [.notices, .feed, .out, .table, .stations, .episode, .finisher, .stats, .dry] s (Part.jamAt s kind st tick x) := by
  unfold Part.jamAt
  repeat' (with_reducible first
      | exact Via.refl _ | refine Via.andThen ?_ (Part.countStation_via ..) rfl
      | refine Via.andThen ?_ (Part.takeJam_via ..) rfl)

end Sys2Proof.Machine
end

