-- ==== Sys2Proof/Laws/FramePath.lean ====
section
/-! SUPPORT. Which blocks the operations of Feed, Imaging and Track can change. -/

namespace Sys2Proof.Machine

theorem Part.judgeExitGate_via (s : Part) : Via [.out] s (Part.judgeExitGate s) := by
  unfold Part.judgeExitGate
  repeat' (with_reducible first | exact Via.refl _ | refine Via.out ?_ _ rfl | split)

theorem Part.judgePurgeGate_via (s : Part) : Via [.out] s (Part.judgePurgeGate s) := by
  unfold Part.judgePurgeGate
  repeat' (with_reducible first | exact Via.refl _ | refine Via.out ?_ _ rfl | split)

theorem Part.judgeGates_via (s : Part) : Via [.out] s (Part.judgeGates s) := by
  unfold Part.judgeGates
  repeat' (with_reducible first
      | exact Via.refl _ | refine Via.andThen ?_ (Part.judgeExitGate_via ..) rfl
      | refine Via.andThen ?_ (Part.judgePurgeGate_via ..) rfl)

theorem Part.judgeSelector_via (s : Part) : Via [.feed] s (Part.judgeSelector s) := by
  unfold Part.judgeSelector
  repeat' (with_reducible first | exact Via.refl _ | refine Via.feed ?_ _ rfl | split)

theorem Part.enterStarting_via (s : Part) :
    Via [.notices, .feed, .out, .table, .stations, .episode, .finisher, .stats, .dry] s (Part.enterStarting s) := by
  unfold Part.enterStarting
  dsimp only
  repeat' (with_reducible first
      | exact Via.refl _ | refine Via.fold ?_ _ (fun _ _ => ?_) | refine Via.feed ?_ _ rfl
      | refine Via.andThen ?_ (Part.setPath_via ..) rfl | refine Via.out ?_ _ rfl
      | refine Via.andThen ?_ (Part.runDrives_via ..) rfl | refine Via.andThen ?_ (Part.jamAt_via ..) rfl | split)

theorem Part.judgeStart_via (s : Part) :
    Via [.notices, .feed, .out, .table, .stations, .episode, .finisher, .stats, .dry] s (Part.judgeStart s) := by
  unfold Part.judgeStart
  dsimp only
  repeat' (with_reducible first
      | exact Via.refl _ | refine Via.andThen ?_ (Part.judgeSelector_via ..) rfl
      | refine Via.andThen ?_ (Part.enterStarting_via ..) rfl | split)

theorem Part.armRunOn_via (s : Part) : Via [.feed] s (Part.armRunOn s) := by
  unfold Part.armRunOn
  repeat' (with_reducible first | exact Via.refl _ | refine Via.feed ?_ _ rfl | split)

theorem Part.enterDraining_via (s : Part) : Via [.notices, .feed] s (Part.enterDraining s) := by
  unfold Part.enterDraining
  repeat' (with_reducible first
      | exact Via.refl _ | refine Via.feed ?_ _ rfl | refine Via.andThen ?_ (Part.setPath_via ..) rfl
      | refine Via.andThen ?_ (Part.armRunOn_via ..) rfl)

theorem Part.returnToRunning_via (s : Part) : Via [.notices, .feed] s (Part.returnToRunning s) := by
  unfold Part.returnToRunning
  repeat' (with_reducible first | exact Via.refl _ | refine Via.feed ?_ _ rfl | refine Via.andThen ?_ (Part.setPath_via ..) rfl)

theorem Part.judgeHoldoff_via (s : Part) : Via [.feed] s (Part.judgeHoldoff s) := by
  unfold Part.judgeHoldoff
  repeat' (with_reducible first | exact Via.refl _ | refine Via.feed ?_ _ rfl)

theorem Part.enterIdle_via (s : Part) : Via [.notices, .feed, .out] s (Part.enterIdle s) := by
  unfold Part.enterIdle
  repeat' (with_reducible first
      | exact Via.refl _ | refine Via.andThen ?_ (Part.stopDrives_via ..) rfl | refine Via.feed ?_ _ rfl
      | refine Via.andThen ?_ (Part.setPath_via ..) rfl)

theorem Part.takeNext_via (s : Part) (n : NextPage) : Via [.notices, .intake, .planner] s (Part.takeNext s n) := by
  unfold Part.takeNext
  dsimp only
  repeat' (with_reducible first
      | exact Via.refl _ | refine Via.planner ?_ _ rfl | refine Via.intake ?_ _ rfl
      | refine Via.andThen ?_ (Part.judgeIntakeLow_via ..) rfl | split)

theorem Part.joinTable_via (s : Part) (x : Sheet) : Via [.table] s (Part.joinTable s x) := by
  unfold Part.joinTable
  repeat' (with_reducible first
      | exact Via.refl _ | refine Via.table ?_ _ rfl | refine Via.andThen ?_ (Part.raiseRevision_via ..) rfl)

theorem Part.reserve_via (s : Part) (x : Sheet) (kind : ResvKind) (leg : LegName) :
    Via [.feed] s (Part.reserve s x kind leg) := by
  unfold Part.reserve
  dsimp only
  repeat' (with_reducible first | exact Via.refl _ | refine Via.feed ?_ _ rfl)

theorem Part.callFront_via (s : Part) (x : Sheet) (p : Page) : Via [.calls] s (Part.callFront s x p) := by
  unfold Part.callFront
  repeat' (with_reducible first | exact Via.refl _ | refine Via.calls ?_ _ rfl | split)

theorem Part.notePick_via (s : Part) (n : NextPage) : Via [.notices, .feed] s (Part.notePick s n) := by
  unfold Part.notePick
  dsimp only
  repeat' (with_reducible first
      | exact Via.refl _ | refine Via.feed ?_ _ rfl | refine Via.andThen ?_ (Part.exhaust_via ..) rfl | split)

theorem Part.makePick_via (s : Part) (n : NextPage) :
    Via [.notices, .calls, .intake, .feed, .out, .table, .planner, .finisher, .stats, .dry] s (Part.makePick s n) := by
  unfold Part.makePick
  exact ((((((((((Via.refl s).andThen (Part.takeNext_via ..) rfl).andThen (Part.joinTable_via ..) rfl).andThen
    (Part.armNext_via ..) rfl).andThen (Part.reserve_via ..) rfl).out _ rfl).andThen (Part.callFront_via ..) rfl).andThen
    (Part.notePick_via ..) rfl).andThen (Part.countTray_via ..) rfl).andThen (Part.countPath_via ..) rfl).andThen
    (Part.judgeGates_via _) rfl |>.andThen (Part.judgeFinisher_via _) rfl

theorem Part.judgePick_via (s : Part) :
    Via [.notices, .calls, .intake, .feed, .out, .table, .planner, .finisher, .stats, .dry] s (Part.judgePick s) := by
  have h := Via.feed (A := [.notices, .calls, .intake, .feed, .out, .table, .planner, .finisher, .stats, .dry]) (.refl s)
    (fun f => { f with pickTimer := none }) rfl
  unfold Part.judgePick
  dsimp only
  split
  · exact h
  · split
    · split
      · exact h
      · exact Via.ite ((Part.makePick_via ..).mono rfl) (Via.feed (.refl s) _ rfl)
    · exact h

theorem Part.judgeRunning_via (s : Part) :
    Via [.notices, .calls, .intake, .feed, .out, .table, .planner, .finisher, .stats, .dry] s (Part.judgeRunning s) := by
  unfold Part.judgeRunning
  dsimp only
  repeat' (with_reducible first
      | exact Via.refl _ | refine Via.andThen ?_ (Part.judgeSelector_via ..) rfl
      | refine Via.andThen ?_ (Part.enterDraining_via ..) rfl | refine Via.andThen ?_ (Part.judgeHoldoff_via ..) rfl
      | refine Via.andThen ?_ (Part.judgePick_via ..) rfl | split)

theorem Part.judgeDraining_via (s : Part) :
    Via [.notices, .calls, .intake, .feed, .out, .table, .planner, .finisher, .stats, .dry] s (Part.judgeDraining s) := by
  unfold Part.judgeDraining
  dsimp only
  repeat' (with_reducible first
      | exact Via.refl _ | refine Via.andThen ?_ (Part.judgeSelector_via ..) rfl
      | refine Via.andThen ?_ (Part.returnToRunning_via ..) rfl | refine Via.andThen ?_ (Part.judgeRunning_via ..) rfl
      | split)

theorem Part.judgeFeed_via (s : Part) :
    Via [.notices, .calls, .intake, .feed, .out, .table, .stations, .episode, .planner, .finisher, .stats, .dry]
      s (Part.judgeFeed s) := by
  unfold Part.judgeFeed
  repeat' (with_reducible first
      | exact Via.refl _ | refine Via.andThen ?_ (Part.judgeStart_via ..) rfl
      | refine Via.andThen ?_ (Part.judgeRunning_via ..) rfl | refine Via.andThen ?_ (Part.judgeDraining_via ..) rfl | split)

theorem Part.judge_via (s : Part) :
    Via [.notices, .calls, .intake, .feed, .out, .table, .stations, .episode, .planner, .finisher, .stats, .dry]
      s (Part.judge s) := by
  exact (((Via.refl s).andThen (Part.judgeGates_via _) rfl).andThen (Part.judgeFinisher_via _) rfl).andThen
    (Part.judgeClearance_via _) rfl |>.andThen (Part.judgeFeed_via _) rfl

theorem Part.dropSideCall_via (s : Part) (n : Nat) (back : Bool) : Via [.calls] s (Part.dropSideCall s n back) := by
  unfold Part.dropSideCall
  repeat' (with_reducible first | exact Via.refl _ | refine Via.calls ?_ _ rfl)

theorem Part.dropSheetCalls_via (s : Part) (n : Nat) : Via [.calls] s (Part.dropSheetCalls s n) := by
  unfold Part.dropSheetCalls
  repeat' (with_reducible first | exact Via.refl _ | refine Via.calls ?_ _ rfl)

theorem Part.purgeSheet_via (s : Part) (n : Nat) : Via [.table] s (Part.purgeSheet s n) := by
  unfold Part.purgeSheet
  repeat' (with_reducible first
      | exact Via.refl _ | refine Via.andThen ?_ (Part.modSheet_via ..) rfl
      | refine Via.andThen ?_ (Part.raiseRevision_via ..) rfl)

theorem Part.spoilSheet_via (s : Part) (x : Sheet) : Via [.calls, .table, .planner] s (Part.spoilSheet s x) := by
  unfold Part.spoilSheet
  repeat' (with_reducible first
      | exact Via.refl _ | refine Via.andThen ?_ (Part.purgeSheet_via ..) rfl
      | refine Via.andThen ?_ (Part.reprint_via ..) rfl | refine Via.andThen ?_ (Part.modSheet_via ..) rfl
      | refine Via.andThen ?_ (Part.dropSheetCalls_via ..) rfl)

theorem Part.noteSpoil_via (s : Part) (sheet : Nat) (page : Nat) (redirected : Nat) :
    Via [.notices, .gate] s (Part.noteSpoil s sheet page redirected) := by
  unfold Part.noteSpoil
  dsimp only
  repeat' (with_reducible first | exact Via.refl _ | refine Via.gate ?_ _ rfl | refine Via.notices ?_ _ rfl | split)

theorem Part.cascade_via (s : Part) (n : Nat) (page : Nat) :
    Via [.notices, .calls, .table, .gate, .planner] s (Part.cascade s n page) := by
  exact ((Via.refl s).fold _ fun p x => (Part.spoilSheet_via p x).mono rfl).andThen (Part.noteSpoil_via ..) rfl

theorem Part.decideCommit_via (s : Part) (n : Nat) :
    Via [.notices, .calls, .table, .gate, .planner, .stats] s (Part.decideCommit s n) := by
  unfold Part.decideCommit
  dsimp only
  repeat' (with_reducible first
      | exact Via.refl _ | refine Via.andThen ?_ (Part.dropSideCall_via ..) rfl
      | refine Via.andThen ?_ (Part.modSheet_via ..) rfl | refine Via.andThen ?_ (Part.countPath_via ..) rfl
      | refine Via.andThen ?_ (Part.cascade_via ..) rfl | split)

theorem Part.callBack_via (s : Part) (n : Nat) : Via [.calls, .table] s (Part.callBack s n) := by
  unfold Part.callBack
  dsimp only
  repeat' (with_reducible first
      | exact Via.refl _ | refine Via.calls ?_ _ rfl | refine Via.andThen ?_ (Part.modSheet_via ..) rfl | split)

theorem Part.learnAt_via (s : Part) (st : Fin 24) (r : Int) (o : Arrival) :
    Via [.notices, .stations] s (Part.learnAt s st r o) := by
  unfold Part.learnAt
  dsimp only
  repeat' (with_reducible first
      | exact Via.refl _ | refine Via.andThen ?_ (Part.modStation_via ..) rfl
      | refine Via.andThen ?_ (Part.setStep_via ..) rfl)

theorem Part.countArrival_via (s : Part) (st : Fin 24) (o : Arrival) : Via [.notices, .stats] s (Part.countArrival s st o) := by
  unfold Part.countArrival
  dsimp only
  repeat' (with_reducible first | exact Via.refl _ | refine Via.andThen ?_ (Part.countStation_via ..) rfl | split)

theorem Part.coverWith_via (s : Part) (x : Sheet) (st : Fin 24) (a : Tick) : Via [.stations] s (Part.coverWith s x st a) := by
  unfold Part.coverWith
  repeat' (with_reducible first | exact Via.refl _ | refine Via.andThen ?_ (Part.modStation_via ..) rfl)

theorem Part.confirmPick_via (s : Part) (x : Sheet) : Via [.feed, .out] s (Part.confirmPick s x) := by
  unfold Part.confirmPick
  repeat' (with_reducible first | exact Via.refl _ | refine Via.out ?_ _ rfl | refine Via.feed ?_ _ rfl)

theorem Part.roleAction_via (s : Part) (x : Sheet) (st : Fin 24) :
    Via [.notices, .calls, .feed, .out, .table, .stations, .gate, .episode, .planner, .finisher, .stats, .dry]
      s (Part.roleAction s x st) := by
  have h : Via [.notices, .calls, .feed, .out, .table, .stations, .gate, .episode, .planner, .finisher, .stats, .dry] s
      (if x.index = 1 then s.confirmPick x else s) := Via.ite ((Part.confirmPick_via s x).mono rfl) (.refl s)
  have h := h.trans (Via.ite (c := x.returns)
    ((Part.modSheet_via _ x.number fun y => { y with pass := .final }).mono rfl) (.refl _))
  unfold Part.roleAction
  dsimp only
  split
  · exact h.andThen (Part.decideCommit_via ..) rfl
  · exact Via.ite ((h.andThen (Part.reserve_via ..) rfl).andThen (Part.callBack_via ..) rfl) h
  · exact Via.ite (h.andThen (Part.jamAt_via ..) rfl) h
  · exact h

theorem Part.repredictAt_via (s : Part) (x : Sheet) (step : Step) : Via [.feed] s (Part.repredictAt s x step) := by
  unfold Part.repredictAt
  dsimp only
  repeat' (with_reducible first | exact Via.refl _ | refine Via.andThen ?_ (Part.repredict_via ..) rfl | split)

theorem Part.takeArrival_via (s : Part) (x : Sheet) (step : Step) (e : Expect) (o : Arrival) :
    Via [.notices, .calls, .feed, .out, .table, .stations, .gate, .episode, .planner, .finisher, .stats, .dry]
      s (Part.takeArrival s x step e o) := by
  unfold Part.takeArrival
  exact ((((((Via.refl s).andThen (Part.learnAt_via ..) rfl).andThen (Part.countArrival_via ..) rfl).andThen
    (Part.modSheet_via ..) rfl).andThen (Part.coverWith_via ..) rfl).andThen (Part.armNext_via ..) rfl).andThen
    (Part.roleAction_via ..) rfl |>.andThen (Part.repredictAt_via ..) rfl

theorem Part.matchLeading_via (s : Part) (st : Fin 24) :
    Via [.notices, .calls, .feed, .out, .table, .stations, .gate, .episode, .planner, .finisher, .stats, .dry]
      s (Part.matchLeading s st) := by
  unfold Part.matchLeading
  repeat' (with_reducible first
      | exact Via.refl _ | refine Via.andThen ?_ (Part.jamAt_via ..) rfl
      | refine Via.andThen ?_ (Part.takeArrival_via ..) rfl | split)

theorem Part.leadingEdge_via (s : Part) (st : Fin 24) :
    Via [.notices, .calls, .feed, .out, .table, .stations, .gate, .episode, .planner, .finisher, .stats, .dry]
      s (Part.leadingEdge s st) := by
  unfold Part.leadingEdge
  repeat' (with_reducible first
      | exact Via.refl _ | refine Via.andThen ?_ (Part.jamAt_via ..) rfl
      | refine Via.andThen ?_ (Part.matchLeading_via ..) rfl | split)

theorem Part.uncover_via (s : Part) (x : Sheet) (st : Fin 24) : Via [.table, .stations] s (Part.uncover s x st) := by
  unfold Part.uncover
  dsimp only
  repeat' (with_reducible first
      | exact Via.refl _ | refine Via.andThen ?_ (Part.modStation_via ..) rfl
      | refine Via.andThen ?_ (Part.modSheet_via ..) rfl | split)

theorem Part.checkLength_via (s : Part) (x : Sheet) (st : Fin 24) (lead : Tick) :
    Via [.notices, .feed, .out, .table, .stations, .episode, .finisher, .stats, .dry] s (Part.checkLength s x st lead) := by
  unfold Part.checkLength
  dsimp only
  repeat' (with_reducible first
      | exact Via.refl _ | refine Via.andThen ?_ (Part.countPath_via ..) rfl | refine Via.andThen ?_ (Part.jamAt_via ..) rfl
      | split)

theorem Part.unreserve_via (s : Part) (x : Sheet) : Via [.feed] s (Part.unreserve s x) := by
  unfold Part.unreserve
  repeat' (with_reducible first | exact Via.refl _ | refine Via.feed ?_ _ rfl)

theorem Part.countPurge_via (s : Part) : Via [.notices, .gate, .stats] s (Part.countPurge s) := by
  unfold Part.countPurge
  repeat' (with_reducible first
      | exact Via.refl _ | refine Via.gate ?_ _ rfl | refine Via.andThen ?_ (Part.judgePurgeFull_via ..) rfl
      | refine Via.andThen ?_ (Part.countPath_via ..) rfl | split)

theorem Part.deliverTo_via (s : Part) (x : Sheet) (y0 : Option Role) :
    Via [.notices, .intake, .gate, .finisher, .stats] s (Part.deliverTo s x y0) := by
  unfold Part.deliverTo
  split
  · exact ((Part.deliverPages_via ..).mono rfl).andThen (Part.countPath_via ..) rfl
  · exact ((Part.deliverPages_via ..).mono rfl).andThen (Part.countPath_via ..) rfl
  · exact (Part.handOver_via ..).mono rfl
  · exact (Part.countPurge_via _).mono rfl
  · exact .refl s

theorem Part.deliver_via (s : Part) (x : Sheet) (st : Fin 24) :
    Via [.notices, .intake, .feed, .out, .table, .stations, .gate, .finisher, .stats, .dry] s (Part.deliver s x st) := by
  unfold Part.deliver
  have h := ((Via.refl s (A := [.notices, .intake, .feed, .out, .table, .stations, .gate, .finisher, .stats, .dry])).andThen
    (Part.deliverTo_via s x (s.force.roleOf st)) rfl).andThen (Part.removeSheet_via _ x.number) rfl
  exact ((Via.ite (h.andThen (Part.completeCompile_via _) rfl) h).andThen (Part.armRunOn_via _) rfl).andThen
    (Part.endHalting_via _) rfl

theorem Part.takeTrailing_via (s : Part) (x : Sheet) (c : Cover) (st : Fin 24) :
    Via [.notices, .intake, .feed, .out, .table, .stations, .gate, .episode, .finisher, .stats, .dry]
      s (Part.takeTrailing s x c st) := by
  unfold Part.takeTrailing
  have h := (Via.refl s (A := [.notices, .intake, .feed, .out, .table, .stations, .gate, .episode, .finisher, .stats, .dry])).andThen
    (Part.uncover_via s x st) rfl
  have h := Via.ite (c := (x.itinerary.head?.map Step.station) = some st) (h.andThen (Part.checkLength_via _ x st c.lead) rfl) h
  have g : ∀ p : Part, Via [.notices, .intake, .feed, .out, .table, .stations, .gate, .episode, .finisher, .stats, .dry] p
      (if ((p.force.leg .main).steps.head?.map LegStep.station) = some st then p.unreserve x else p) := fun p =>
    Via.ite ((Part.unreserve_via p x).mono rfl) (.refl p)
  exact Via.ite ((h.trans (g _)).andThen (Part.deliver_via ..) rfl) (h.trans (g _))

theorem Part.matchTrailing_via (s : Part) (st : Fin 24) :
    Via [.notices, .intake, .feed, .out, .table, .stations, .gate, .episode, .finisher, .stats, .dry]
      s (Part.matchTrailing s st) := by
  unfold Part.matchTrailing
  repeat' (with_reducible first | exact Via.refl _ | refine Via.andThen ?_ (Part.takeTrailing_via ..) rfl | split)

theorem Part.trailingEdge_via (s : Part) (st : Fin 24) :
    Via [.notices, .intake, .feed, .out, .table, .stations, .gate, .episode, .finisher, .stats, .dry]
      s (Part.trailingEdge s st) := by
  unfold Part.trailingEdge
  repeat' (with_reducible first | exact Via.refl _ | refine Via.andThen ?_ (Part.matchTrailing_via ..) rfl | split)

theorem Part.retryPick_via (s : Part) (x : Sheet) :
    Via [.notices, .feed, .out, .table, .stats, .dry] s (Part.retryPick s x) := by
  unfold Part.retryPick
  dsimp only
  repeat' (with_reducible first
      | exact Via.refl _ | refine Via.andThen ?_ (Part.modSheet_via ..) rfl
      | refine Via.andThen ?_ (Part.withdrawEdges_via ..) rfl | refine Via.andThen ?_ (Part.armNext_via ..) rfl
      | refine Via.out ?_ _ rfl | refine Via.andThen ?_ (Part.repredict_via ..) rfl
      | refine Via.andThen ?_ (Part.countTray_via ..) rfl)

theorem Part.firstExpiry_via (s : Part) (x : Sheet) (st : Fin 24) (d : Tick) :
    Via [.notices, .feed, .out, .table, .stations, .episode, .finisher, .stats, .dry] s (Part.firstExpiry s x st d) := by
  unfold Part.firstExpiry
  have h : Via [.notices, .feed, .out, .table, .stations, .episode, .finisher, .stats, .dry] s
      (s.modOut fun o => { o with clutch := o.clutch.set x.source false }) := Via.out (Via.refl _) _ rfl
  revert h
  generalize (s.modOut fun o => { o with clutch := o.clutch.set x.source false }) = q
  intro h
  dsimp only
  split
  · exact Via.andThen h (Part.retryPick_via ..) rfl
  · exact Via.andThen (Via.andThen h (Part.countTray_via ..) rfl) (Part.jamAt_via ..) rfl

theorem Part.leadingExpiry_via (s : Part) (x : Sheet) (step : Step) (d : Tick) :
    Via [.tick, .notices, .feed, .out, .table, .stations, .episode, .finisher, .stats, .dry]
      s (Part.leadingExpiry s x step d) := by
  unfold Part.leadingExpiry
  dsimp only
  repeat' (with_reducible first
      | exact Via.refl _ | refine Via.andThen ?_ (Part.advance_via ..) rfl | refine Via.andThen ?_ (Part.modSheet_via ..) rfl
      | refine Via.andThen ?_ (Part.firstExpiry_via ..) rfl | refine Via.andThen ?_ (Part.jamAt_via ..) rfl | split)

theorem Part.trailingExpiry_via (s : Part) (st : Fin 24) (c : Cover) (d : Tick) :
    Via [.tick, .notices, .feed, .out, .table, .stations, .episode, .finisher, .stats, .dry]
      s (Part.trailingExpiry s st c d) := by
  unfold Part.trailingExpiry
  dsimp only
  repeat' (with_reducible first
      | exact Via.refl _ | refine Via.andThen ?_ (Part.advance_via ..) rfl
      | refine Via.andThen ?_ (Part.modStation_via ..) rfl | refine Via.andThen ?_ (Part.jamAt_via ..) rfl)

theorem Part.runEdge_via (s : Part) (e : Edge) :
    Via [.tick, .notices, .calls, .intake, .feed, .out, .table, .stations, .gate, .episode, .planner, .finisher, .stats, .dry]
      s (Part.runEdge s e) := by
  unfold Part.runEdge
  dsimp only
  repeat' (with_reducible first
      | exact Via.refl _ | refine Via.dry ?_ _ rfl | refine Via.andThen ?_ (Part.advance_via ..) rfl
      | refine Via.andThen ?_ (Part.leadingEdge_via ..) rfl | refine Via.andThen ?_ (Part.trailingEdge_via ..) rfl | split)

end Sys2Proof.Machine
end

