-- ==== Sys2Proof/Laws/Picks.lean ====
section
/-! SUPPORT. What the next page, the earliest pick tick, the tick of a scheduled edge, the candidates of an edge and the subjects
of a cascade are. -/

namespace Sys2Proof.Machine

/-- The earliest of some ticks is one of them. -/
theorem earliest_mem (t : Tick) (l : List Tick) : earliest t l ∈ t :: l := by
  induction l generalizing t with
  | nil => simp [earliest]
  | cons b rest ih =>
    have h := ih (if isBefore b t then b else t)
    simp only [earliest, List.foldl_cons, List.mem_cons] at h ⊢
    split at h <;> rcases h with h | h <;> simp_all

/-- A pick tick is allowed at the merge (R23). -/
theorem Part.pickTick_allowed {s : Part} {n : NextPage} {t : Tick} (h : s.pickTick n = some t) :
    s.mergeAllows n t = true := by
  simp only [Part.pickTick] at h
  split at h
  · cases h
  · rename_i u rest heq
    cases h
    have hm := earliest_mem u rest
    rw [← heq, List.mem_filter] at hm
    exact hm.2

/-- A function of the distances and stations of a leg's steps takes on the itinerary steps what it takes on the leg's own. -/
theorem Desc.legSteps_map {α : Type} (d : Desc) (l : LegName) (f : Nat → Fin 24 → α) :
    (d.legSteps l 0).map (fun x => f x.dist x.station) = (d.leg l).steps.map fun y => f y.dist y.station := by
  apply List.ext_getElem <;> simp [Desc.legSteps]

/-- The distance over a whole leg, its end distance apart. -/
theorem Desc.distanceOver_leg (d : Desc) (l : LegName) :
    distanceOver (d.legSteps l 0) = ((d.leg l).steps.map LegStep.dist).sum :=
  congrArg List.sum (d.legSteps_map l fun k _ => k)

/-- The offsets over a whole leg. -/
theorem Desc.offsetsOver_leg (d : Desc) (stations : Vector Station 24) (l : LegName) :
    offsetsOver stations (d.legSteps l 0) = ((d.leg l).steps.map fun y => (stations[y.station]).offset).sum :=
  congrArg List.sum (d.legSteps_map l fun _ st => (stations[st]).offset)

/-- The lead from a pick roller is the one R23 spells. -/
theorem Part.pickLead_eq (p : Part) (n : NextPage) (t : Tick) :
    (p.predictFrom t (feedLegOf n.unit) 0 n.front.media).1 = p.pickLead n t := by
  simp only [Part.predictFrom, Part.predict, Part.pickLead, Part.rollerLead, List.drop_zero, Desc.distanceOver_leg,
    Desc.offsetsOver_leg]

/-- The merge gap is the one R23 spells. -/
theorem Part.gapTicks_eq (p : Part) : mergeGap p.force.timing p.anyOutOfStep p.speed = p.gapTicks := rfl

/-- The merge allows a pick where R23 lets it be placed. -/
theorem Part.mergeAllows_iff (p : Part) (n : NextPage) (t : Tick) : p.mergeAllows n t = true ↔ p.placedAt n t := by
  have trail : (p.predictFrom t (feedLegOf n.unit) 0 n.front.media).2 = plusTicks (p.pickLead n t) (dwell n.front.media p.speed) :=
    p.pickLead_eq n t ▸ rfl
  simp only [Part.mergeAllows, Part.widened, Part.placedAt, List.all_eq_true, Bool.or_eq_true, p.gapTicks_eq, p.pickLead_eq, trail]
  exact forall₂_congr fun _ _ => or_comm

/-- An edge is scheduled for a tick after the event that schedules it (R168). -/
theorem Part.edgeTick_after (s : Part) (t : Tick) : isBefore s.tick (s.edgeTick t) = true := by
  unfold Part.edgeTick
  split
  · assumption
  · simp [isBefore, since, BitVec.add_comm s.tick]

/-- The next page a source gives is its head, with the BACK right behind it where it needs one (R53). -/
theorem formNext_eq (source : Option Queue) (l : List Page) :
    formNext source l = match l with
      | [] => none
      | x :: rest =>
        if x.side = .back then none
        else if x.side = .front ∧ x.noBack = false then (rest.head?.filter fun b => b.side == .back).map fun b => ⟨x, some b, source⟩
        else some ⟨x, none, source⟩ := by
  rcases l with _ | ⟨x, _ | ⟨b, rest⟩⟩
  · rfl
  · simp [formNext, Page.needsBack]
  · by_cases h : b.side = .back <;> simp [formNext, Page.needsBack, h, Option.filter]

/-- The selector, once judged, names the active queue (R54). -/
theorem Part.judgeSelector_selector (p : Part) : p.judgeSelector.feed.selector = p.activeQueue := by
  rcases hl : p.planner.list with _ | ⟨e, l⟩ <;> rcases hq : p.intake.priority with _ | ⟨q, r⟩ <;> cases hs : p.feed.selector <;>
    cases hn : p.feed.normalMark <;> cases hp : p.feed.priorityMark <;>
    simp [Part.judgeSelector, Part.activeQueue, Part.modFeed, hl, hq, hs, hn, hp]

/-- The queues and the Reprint List are not the selector's to change. -/
theorem Part.judgeSelector_lists (p : Part) :
    p.judgeSelector.planner = p.planner ∧ p.judgeSelector.intake = p.intake := by
  unfold Part.judgeSelector
  split
  · split <;> split <;> exact ⟨rfl, rfl⟩
  · exact ⟨rfl, rfl⟩

/-- The next page found after the selector is judged is the one R53 and R54 spell. -/
theorem Part.judgeSelector_nextPage (p : Part) : p.judgeSelector.nextPage = p.nextUp := by
  have ⟨hp, hi⟩ := p.judgeSelector_lists
  simp only [Part.nextPage, Part.nextUp, hp, hi, p.judgeSelector_selector, formNext_eq, List.isEmpty_iff]
  split <;> rfl

/-- The sheets awaiting a station (R20, R73). -/
theorem Part.mem_awaiting {s : Part} {st : Fin 24} {x : Sheet} :
    x ∈ s.awaiting st ↔ x ∈ s.table.sheets ∧ x.moving = true ∧ (x.nextStep.any fun y => y.station == st) = true ∧
      x.retriedAt s.tick = false := by
  simp [Part.awaiting, and_assoc]

/-- The subjects of a cascade (R87, R97). -/
theorem Part.mem_subjects {s : Part} {n : Nat} {x : Sheet} :
    x ∈ s.subjects n ↔ x ∈ s.table.sheets ∧
      (x.number = n ∨ (n < x.number ∧ x.cond = .normal ∧ s.force.pastPurgeGate x = false)) := by
  simp [Part.subjects, and_assoc]

end Sys2Proof.Machine
end

