-- ==== Sys2Proof/Laws/Requests.lean ====
section
/-! SUPPORT. What taking a request does, once for all 28 (R176, R177): where it can be accepted, the part is its owner's
answer with the frame queued and the reply behind those pending. -/

namespace Sys2Proof.Machine

/-- The part as a request's owner finds it: at the tick, with the frame in the receive queue. -/
def Part.found (p : Part) (t : Tick) (kind : Byte) (body : List Byte) : Part := (p.advance t).enqueue ⟨kind, body⟩

theorem Part.conclude_reply (l : Link) (kind : Byte) (body : List Byte) (a : Answer)
    (hl : a.part.link = { l with receiver := .hunting, rxQueue := l.rxQueue ++ [⟨kind, body⟩] }) :
    (Part.reply kind a).conclude =
      { a.part with link := l.answered ⟨kind, body⟩ ⟨kind ||| 0x80#8, a.result.byte :: a.data⟩ } := by
  obtain ⟨⟨⟩, result, data⟩ := a
  dsimp only at hl
  subst hl
  obtain ⟨r, rec, q, rs, sd, f, ft⟩ := l
  cases sd <;> cases rs <;> rfl

/-- A receiver that hunts has no frame to discard. -/
theorem Part.gapDiscard_hunting (p : Part) (h : p.link.receiver = .hunting) : p.gapDiscard = p := by
  simp only [Part.gapDiscard, h]

/-- A request whose owner leaves the Link Unit alone. -/
theorem Part.takeRequest_owner (p : Part) (t : Tick) (kind : Byte) (body : List Byte) (owner : Part → Answer) (hp : p.canAccept)
    (hl : (owner (p.found t kind body)).part.link = (p.found t kind body).link) :
    p.takeRequest t kind body owner =
      { (owner (p.found t kind body)).part with
        link := p.linkAfter kind body
          ((owner (p.found t kind body)).result.byte :: (owner (p.found t kind body)).data) } := by
  have h : (p.advance t).queueFull = false := decide_eq_false (Nat.not_le.mpr hp.2)
  simp only [Part.takeRequest, Part.gapDiscard_hunting p hp.1, Part.event, Part.acceptFrame, h, Bool.false_eq_true, if_false]
  exact Part.conclude_reply p.link kind body _ hl

/-- An answer that leaves the part as its owner found it. -/
theorem Part.takeRequest_unchanged (p : Part) (t : Tick) (kind : Byte) (body : List Byte) (owner : Part → Answer)
    (hp : p.canAccept) (r : Result) (data : List Byte) (h : owner (p.found t kind body) = ⟨p.found t kind body, r, data⟩) :
    p.takeRequest t kind body owner = p.answered t kind body (r.byte :: data) := by
  rw [Part.takeRequest_owner p t kind body owner hp (by rw [h]), h]
  rfl

/-- A request whose length is wrong. -/
theorem Part.takeRequest_badLength (p : Part) (t : Tick) (kind : Byte) (body : List Byte) (owner : Part → Answer)
    (hp : p.canAccept) : (p.takeRequest t kind body fun q => q.checked false owner) = p.answered t kind body [0x02] :=
  p.takeRequest_unchanged t kind body _ hp .badLength [] rfl

/-- A request that finds the receiver inside a frame is taken once the frame's gap has discarded it (R174). -/
theorem Part.takeRequest_inFrame (p : Part) (t : Tick) (kind : Byte) (body : List Byte) (owner : Part → Answer) :
    p.takeRequest t kind body owner = p.gapDiscard.event t fun q => q.acceptFrame kind body owner := rfl

/-! ## The receiver (R174) -/

/-- What a byte inside a frame can do, once: a bad LEN or a CRC that does not match discards, a frame not yet whole is kept, and a whole
one is accepted. -/
theorem examine_cases (bytes : List Byte) (t : Tick) :
    let len := (bytes.headD 0).toNat
    ((len = 0 ∨ 65 < len) ∧ examine bytes t = .discards) ∨
    (inRange 1 65 len ∧ bytes.length < len + 3 ∧ examine bytes t = .moves (.inFrame bytes t)) ∨
    (inRange 1 65 len ∧ len + 3 ≤ bytes.length ∧
      if bytesOf 2 (crc (bytes.take (len + 1))).toNat = bytes.drop (len + 1) then
        examine bytes t = .accepts ⟨(bytes.drop 1).headD 0, (bytes.take (len + 1)).drop 2⟩
      else examine bytes t = .discards) := by
  intro len
  by_cases h : len = 0 ∨ 65 < len
  · exact .inl ⟨h, if_pos h⟩
  · have hr : inRange 1 65 len := by constructor <;> omega
    by_cases hl : bytes.length < len + 3
    · exact .inr (.inl ⟨hr, hl, (if_neg h).trans (if_pos hl)⟩)
    · refine .inr (.inr ⟨hr, Nat.not_lt.mp hl, ?_⟩)
      split
      · next hc => exact (if_neg h).trans ((if_neg hl).trans (if_pos hc))
      · next hc => exact (if_neg h).trans ((if_neg hl).trans (if_neg hc))

/-- A byte moves the receiver, is an event that discards, or is an event that accepts a frame, behind the gap it may come after. -/
theorem Part.takeByte_cases (s : Part) (t : Tick) (x : RxByte) :
    let g := s.gapBefore t
    (∃ r, receive g.link.receiver t x = .moves r ∧ s.takeByte t x = g.modLink fun l => { l with receiver := r }) ∨
    (receive g.link.receiver t x = .discards ∧ s.takeByte t x = g.event t Part.discardFrame) ∨
    ∃ f, receive g.link.receiver t x = .accepts f ∧
      s.takeByte t x = g.event t fun q => q.acceptFrame f.kind f.body (answerFrame f) := by
  intro g
  unfold Part.takeByte
  dsimp only
  cases h : receive (s.gapBefore t).link.receiver t x with
  | moves r => exact .inl ⟨r, rfl, rfl⟩
  | discards => exact .inr (.inl ⟨rfl, rfl⟩)
  | accepts f => exact .inr (.inr ⟨f, rfl, rfl⟩)

/-- A discard moves the Link Unit, the notices and the counters alone. -/
theorem Part.discardFrame_via (s : Part) : Via [.link, .notices, .stats] s s.discardFrame := by
  unfold Part.discardFrame
  dsimp only
  exact ((Via.link (.refl s) _ rfl).notices _ rfl).andThen (Part.countPath_via ..) rfl

end Sys2Proof.Machine
end

