-- ==== Sys2Proof/Laws/Spelled.lean ====
section
/-! SUPPORT. The model's own tests say what the statements spell from the rules: clearance, an overrun, a set
overtaken, a page found. -/

namespace Sys2Proof.Machine

/-- The clearance conditions hold as R124 spells them. -/
theorem Part.clear_iff (p : Part) : p.clear = true ↔ p.clearance := by
  have h : p.strayTrayPaper = false ↔ (p.dry.on = true ∨ p.levelOf .compileTray = false ∨
      (p.finisher.sheets ≠ [] ∧ p.finisher.disturbed = false ∧ (p.finisher.state = .retained ∨ p.finisher.state = .faulted))) := by
    cases hd : p.dry.on <;> cases hl : p.levelOf .compileTray <;>
      simp [Part.strayTrayPaper, Part.trayPaper, Finisher.paperExpected, and_assoc, hd, hl]
    exact fun _ _ => Decidable.or_iff_not_imp_left.symm
  simp only [Part.clear, Bool.and_eq_true, Bool.not_eq_true', and_assoc, Part.clearance, h]
  simp [Finisher.busy]

/-- An arrival at FINISHER ENTRY is an overrun by one of the three conditions of R155. -/
theorem Part.overruns_iff (p : Part) (x : Sheet) : p.overruns x = true ↔
    p.finisher.state = .stapling ∨ p.finisher.state = .ejecting ∨
      (p.finisher.state ≠ .empty ∧ p.finisher.ident ≠ some (x.job, x.set)) ∨ p.force.capacity ≤ p.finisher.sheets.length := by
  simp [Part.overruns, Finisher.busy, or_assoc]

/-- The second condition of R150 holds as the statements spell it. -/
theorem Part.followedByOther_iff (p : Part) : p.followedByOther = true ↔ p.overtaken := by
  unfold Part.followedByOther Part.overtaken
  cases p.finisher.ident with
  | none => simp
  | some id =>
    obtain ⟨job, set⟩ := id
    simp only [Option.some.injEq, exists_eq_left', Bool.and_eq_true, Bool.not_eq_true', List.any_eq_false, List.any_eq_true,
      Prod.mk.injEq, Bool.or_eq_true, beq_iff_eq, bne_iff_ne, ne_eq]
    constructor
    · rintro ⟨h, x, hx, ⟨hd, hc⟩, hn⟩
      exact ⟨fun y hy hi hf => ⟨fun hk => h y hy ⟨⟨hi, hf⟩, .inl hk⟩, fun hk => h y hy ⟨⟨hi, hf⟩, .inr hk⟩⟩,
        x, hx, fun hi => hn.elim (absurd hi.1) (absurd hi.2), hd, hc⟩
    · rintro ⟨h, x, hx, hn, hd, hc⟩
      refine ⟨fun y hy ⟨⟨hi, hf⟩, hk⟩ => hk.elim (h y hy hi hf).1 (h y hy hi hf).2, x, hx, ⟨hd, hc⟩, ?_⟩
      exact Decidable.not_and_iff_or_not.mp hn

/-- IMAGE READY finds a record in one of the places of R33. -/
theorem Part.holdsPage_iff (p : Part) (id : Nat) : p.holdsPage id = true ↔
    (∃ c : Queue, ∃ x ∈ p.intake.queue c, x.id = id) ∨ (∃ y ∈ p.planner.list, y.page.id = id) ∨
      ∃ x ∈ p.table.sheets, (∃ y ∈ x.front, y.id = id ∧ x.frontSide ≠ .committed) ∨
        ∃ y ∈ x.back, y.id = id ∧ x.backSide ≠ .committed := by
  have hq : (∃ c : Queue, ∃ x ∈ p.intake.queue c, x.id = id) ↔
      (∃ x ∈ p.intake.normal, x.id = id) ∨ ∃ x ∈ p.intake.priority, x.id = id :=
    ⟨fun ⟨c, h⟩ => by cases c <;> simp_all [Intake.queue], fun h => h.elim (⟨.normal, ·⟩) (⟨.priority, ·⟩)⟩
  rw [hq]
  have hs : ∀ x : Sheet, (x.reaches false id || x.reaches true id) = true ↔
      (∃ y ∈ x.front, y.id = id ∧ x.frontSide ≠ .committed) ∨ ∃ y ∈ x.back, y.id = id ∧ x.backSide ≠ .committed := by
    intro x
    cases hf : x.front <;> cases hb : x.back <;> simp [Sheet.reaches, Sheet.pageOf, hf, hb]
  simp only [Part.holdsPage, Bool.or_eq_true, List.any_eq_true, beq_iff_eq, or_assoc]
  simp only [← Bool.or_eq_true, hs]

end Sys2Proof.Machine
end

