-- ==== Sys2Proof/Tests/Slice0.lean ====
section
/-! SUPPORT. Tests: the checks of WellFormed refuse, the spec's worked figures come out, and for each statement with hypotheses a
concrete state and operands meet them. Expected figures are the spec's; each test names where they stand. -/

namespace Sys2Proof.Tests

set_option Elab.async false

open Sys2Proof Sys2Proof.Machine

/-! ## WellFormed refuses -/

theorem test_wf_body_too_long : (Instr.page 0 (.replicate 65 0)).wf = false ∧ (Instr.page 0 (.replicate 64 0)).wf = true := by
  decide

theorem test_wf_unknown_kind_is_a_request : (Instr.unknownKind 0 0x1C []).wf = false ∧ (Instr.unknownKind 0 0x1D []).wf = true ∧
    (Instr.unknownKind 0 0x01 []).wf = false ∧ (Instr.unknownKind 0 0x00 []).wf = true := by decide

theorem test_wf_unknown_kind_too_long : (Instr.unknownKind 0 0x40 (.replicate 65 0)).wf = false := by decide

theorem test_wf_discard_of_no_byte : (Instr.frameDiscard 0 []).wf = false ∧ (Instr.byteGapTimeout 0 []).wf = true := by decide

theorem test_wf_sheet_number : (Instr.leadingDeadlineExpiry 0).wf = false ∧ (Instr.leadingDeadlineExpiry 1).wf = true ∧
    (Instr.leadingDeadlineExpiry 4294967295).wf = true ∧ (Instr.leadingDeadlineExpiry 4294967296).wf = false := by decide

theorem test_no_word_spells_a_command : decodeTableWord 8 0x15 = none ∧ decodeTableWord 32 0 = none := ⟨rfl, rfl⟩

/-! ## The spec's figures -/

/-- R173: the CRC of the nine characters 123456789. -/
theorem test_crc_check_value : crc [0x31, 0x32, 0x33, 0x34, 0x35, 0x36, 0x37, 0x38, 0x39] = 0x29B1#16 := by decide +kernel

/-- 1.11: T, Wt, Wj, e and the leading deadline. -/
theorem test_arrival_window : transit 1234 300 = 8227 ∧
    expectAt .reset 300 1000000 1234 37 = ⟨1008264, 385, 785, 8227⟩ ∧
    (expectAt .reset 300 1000000 1234 37).deadline = 1009049 := by decide

/-- 1.11: a drift of +436, an arrival beyond the outer window, and the offset after, with and without the mark. -/
theorem test_arrival_judged : judgeArrival (expectAt .reset 300 1000000 1234 37) 436 = some .drift ∧
    judgeArrival (expectAt .reset 300 1000000 1234 37) (-864) = none ∧
    updatedOffset 1000 false 37 473 = 91 ∧ updatedOffset 1000 true 37 473 = 473 := by decide

/-- 1.12: the windows at their limits and an offset stopped at Omax; division truncates toward zero. -/
theorem test_arithmetic_limits : transit 1 600 = 3 ∧ innerWindow .reset 3 = 100 ∧
    innerWindow { Timing.reset with q := 64 } 400000 = 100000 ∧
    outerWindow { Timing.reset with q := 64, jam := 20000 } 400000 = 120000 ∧
    updatedOffset 1000 false 990 1190 = 1000 ∧ updatedOffset 1000 false 100 87 = 99 ∧ updatedOffset 1000 false 100 107 = 100 := by
  decide

/-- 1.11: dwell, the multifeed allowance in ticks, the trailing deadline and two measured lengths. -/
theorem test_length : dwell 2970 300 = 19800 ∧ multifeedTicks .reset 300 = 1000 ∧
    trailingDeadline .reset 300 2970 5000 = 26200 ∧ measuredLength 300 5000 24890 = 2984 ∧
    measuredLength 300 5000 26100 = 3165 := by decide

/-- 1.11 and 1.12: the merge gap, with and without the caution gap, and at its widest. -/
theorem test_merge_gap : mergeGap .reset false 300 = 3333 ∧ mergeGap .reset true 300 = 4667 ∧
    mergeGap { Timing.reset with gap := 2000, caution := 1000 } true 100 = 60000 := by decide

/-- R1: comparisons go by the signed difference, so the wrap of Tick Time has no effect. -/
theorem test_tick_wrap : since 0xFFFFFFF0 0x00000010 = 32 ∧ isBefore 0xFFFFFFF0 0x00000010 = true ∧
    laterOf 0xFFFFFFF0 0x00000010 = 0x00000010 := by decide

/-- 4.13: the offsets of the seven arrivals, the fourth resynchronised. -/
theorem test_offsets_of_a_station_out_of_step : updatedOffset 1000 false 0 100 = 12 ∧ updatedOffset 1000 false 12 500 = 73 ∧
    updatedOffset 1000 false 73 520 = 128 ∧ updatedOffset 1000 true 128 530 = 530 ∧ updatedOffset 1000 false 530 540 = 531 ∧
    updatedOffset 1000 false 531 520 = 530 ∧ updatedOffset 1000 false 530 535 = 530 := by decide

/-- 4.13: the histories, and the step states they give. -/
theorem test_step_states : judgedOutOfStep false [.onTime, .drift] = false ∧
    judgedOutOfStep false (enterOutcome 4 [.onTime, .drift] .drift) = true ∧
    judgedOutOfStep true (enterOutcome 4 [.onTime] .onTime) = true ∧
    judgedOutOfStep true (enterOutcome 4 [.onTime, .onTime] .onTime) = false := by decide

/-- 11.6: the offsets after a delayed arrival and the nominal one that follows. -/
theorem test_offsets_after_a_delay : updatedOffset 1000 false 0 600 = 75 ∧ updatedOffset 1000 false 75 0 = 66 := by decide

/-! ## A small machine -/

/-- A path description like 1.11's: TRAY1 has two steps and 1,950 dmm in all. -/
def desc : Desc where
  stations := .ofFn fun st : Fin 24 => match st.val with
    | 5 => some ⟨5, .plain, 1, .feed, none⟩
    | 6 => some ⟨6, .registration, 1, .process, none⟩
    | 7 => some ⟨7, .exit, 1, .process, some 0⟩
    | 8 => some ⟨8, .plain, 2, .duplex, none⟩
    | 9 => some ⟨9, .purgeGate, 3, .delivery, some 1⟩
    | 10 => some ⟨10, .binEntry0, 3, .delivery, none⟩
    | 11 => some ⟨11, .binEntry1, 3, .delivery, none⟩
    | 12 => some ⟨12, .finisherEntry, 3, .delivery, none⟩
    | 13 => some ⟨13, .purgeEntry, 3, .delivery, none⟩
    | 14 => some ⟨31, .plain, 0, .feed, none⟩
    | n => if n < 5 then some ⟨(st.castLE (by decide)), .plain, 0, .feed, none⟩ else none
  legs := #v[some ⟨[⟨0, 500⟩], 1000⟩, some ⟨[⟨1, 600⟩, ⟨14, 900⟩], 450⟩, some ⟨[⟨2, 500⟩], 1000⟩, some ⟨[⟨3, 500⟩], 1000⟩,
    some ⟨[⟨4, 500⟩], 1000⟩, some ⟨[⟨5, 1000⟩, ⟨6, 2000⟩, ⟨7, 3000⟩], 0⟩, some ⟨[⟨8, 4000⟩], 2000⟩,
    some ⟨[⟨9, 1000⟩, ⟨10, 2000⟩], 0⟩, some ⟨[⟨9, 1000⟩, ⟨11, 2000⟩], 0⟩, some ⟨[⟨9, 1000⟩, ⟨12, 2000⟩], 0⟩,
    some ⟨[⟨9, 1000⟩, ⟨13, 2000⟩], 0⟩]
  drive := some ⟨200, 300, 400, 2000, 4000, 6000, 7, 8, 9, 10, 11, 12⟩
  trays := #v[some ⟨2, 14, 15, 1⟩, some ⟨3, 16, 17, 1⟩, some ⟨4, 18, 19, 1⟩, some ⟨5, 20, 21, 1⟩, some ⟨6, 22, 23, 1⟩]
  bins := #v[some 24, some 25]
  purge := some ⟨26, 150⟩
  doors := #v[some ⟨27, 255, true⟩, none, none, none, none, none, none, none]
  timing := .reset
  capacity := 4
  finisher := some ⟨1000, 12000, 2000, 400, 13, 14, 28, 29, 30⟩
  inputs := .replicate 32 ⟨true, 3⟩
  restHigh := .replicate 24 false

/-- The door CLOSED and paper in every tray; no station reads paper. -/
def quiet : Vector Bool 32 := .ofFn fun i => [14, 16, 18, 20, 22, 27].contains i.val

/-- The part configured, in a path state, at the tick 1,000,000 and in speed class 1. -/
def base (path : PathState) : Part :=
  { State.reset.part with
    tick := 1000000, lines := ⟨quiet, quiet, .replicate 32 0⟩, stored := desc, force := desc
    feed := { Feed.reset with path, cls := 1 }, episode := { Episode.reset with isOpen := path.inEpisode } }

/-- The part while it sends a frame that is no reply. -/
def sending (p : Part) : Part := { p with link := { p.link with sending := some ⟨⟨0x43, []⟩, false⟩ } }

/-- A part with a full receive queue. -/
def full (p : Part) : Part := { p with link := { p.link with rxQueue := .replicate 4 ⟨0x15, []⟩ } }

/-- A ready page for TRAY1, in job 1. -/
def page : Page := ⟨7, 1, 1, .simplex, false, true, false, false, false, false, 1, 2970, 1, 0, true, none⟩

/-- The page in the Normal Queue, counted by the slot of its job. -/
def withPage (p : Part) : Part :=
  { p with intake := { p.intake with normal := [page], slots := p.intake.slots.set 0 (some ⟨1, .normal, 1, 0, 0, none, false⟩) } }

/-- Sheet 1 from TRAY1 to a destination with `k` steps behind it, its last at tick 1,000,000. -/
def sheet (dest : Dest) (k : Nat) : Sheet :=
  let way := desc.itinerary .simplex 1 dest
  let e := (way[k]?).map fun z => expectAt .reset 300 1000000 z.dist 0
  { number := 1, source := 1, kind := .simplex, front := some { page with origin := some 1 }, back := none, blankBack := false
    job := 1, set := 1, firstOfSet := true, lastOfSet := false, staple := false, media := 2970, cls := 1, dest, pass := .final
    itinerary := way, index := k, lastPassed := none, attempts := 1, anchor := 1000000, expect := e
    deadline := e.map Expect.deadline, covering := none, frontSide := .called, backSide := .none, cond := .normal
    released := false }

/-- The part with one sheet on its way, which covers a station or none. -/
def tracking (p : Part) (dest : Dest) (k : Nat) (cover : Option (Fin 24)) : Part :=
  let x := { sheet dest k with covering := cover }
  { p with
    table := ⟨[x], 1⟩
    feed := { p.feed with nextSheet := 2 }
    stations := match cover with
      | none => p.stations
      | some st => p.stations.set st { Station.reset with cover := some ⟨1, 1000000, some 1021200⟩ } }

/-- A sheet in the compile tray. -/
def held (settling last : Bool) : Held := ⟨1, 1, 1, [page], true, last, 999000, settling, 1000400⟩

/-- The part with a Compile Set of one sheet in a state. -/
def compiled (p : Part) (state : SetState) (settling : Bool) : Part :=
  { p with
    finisher := { Finisher.reset with
      state, ident := some (1, 1), toStaple := true, closed := true, sheets := [held settling true]
      stapleLimit := if state = .stapling then some 1012000 else none
      ejectLimit := if state = .ejecting then some 1004000 else none }
    out := { p.out with stapler := state = .stapling, ejector := state = .ejecting } }

/-- The part in dry run. -/
def dry (p : Part) : Part := { p with dry := { p.dry with on := true } }

/-- The part in dry run, one edge scheduled. -/
def scheduled (p : Part) (e : Edge) : Part := { p with dry := { p.dry with on := true, schedule := [e] } }

/-- Sheet 1 of two sides awaiting its step `k`: TRAY1, MAIN, the DUPLEX leg, MAIN again and bin 0. -/
def twoSided (k : Nat) (pass : Pass) : Sheet :=
  let way := desc.itinerary .duplex 1 .bin0
  let e := (way[k]?).map fun z => expectAt .reset 300 1000000 z.dist 0
  { sheet .bin0 0 with
    kind := .duplex, back := some { page with id := 8, side := .back, origin := some 1 }, itinerary := way, index := k, pass
    expect := e, deadline := e.map Expect.deadline }

/-- The part with one given sheet in its table. -/
def alone (p : Part) (x : Sheet) : Part := { p with table := ⟨[x], 1⟩, feed := { p.feed with nextSheet := 2 } }

/-- What a command leaves of a part. -/
def after (c : Instr) (p : Part) : Option Part :=
  match exec c ⟨[], p⟩ with
  | .next s => some s.part
  | _ => none

/-! ## Witnesses: the step and requests in general -/

/-- The line's filter will be satisfied by the next sample. -/
def due (p : Part) (i : Fin 32) : Bool :=
  let reads := p.lines.pin[i] == (p.force.inputs[i]).high
  let run := if reads = p.lines.level[i] then 0 else p.lines.run[i] + 1
  decide (1 ≤ run ∧ (p.force.inputs[i]).filter ≤ run)

/-- Pin 31 high after two samples that found it so. -/
def rising (p : Part) : Part := { p with lines := ⟨p.lines.pin.set 31 true, p.lines.level, p.lines.run.set 31 2⟩ }

/-- No line due; line 31 due alone, with a role and without one. -/
theorem witness_EmptyQueueTicks : (∀ i, due (base .idle) i = false) ∧ (∀ i, due (rising (base .idle)) i = decide (i = 31)) ∧
    (rising (base .idle)).force.roleOfLine 31 = some (.station 14) ∧
    (∀ i, due (rising State.reset.part) i = decide (i = 31)) ∧ (rising State.reset.part).force.roleOfLine 31 = none := by
  decide +kernel

theorem witness_RequestsRefused_length :
    (Instr.sweep 5 [0]).request? = some (5, 0x12, [0]) ∧ (base .held).canAccept ∧ ¬ catalogueLength 0x12 1 :=
  ⟨rfl, by decide +kernel, by simp [catalogueLength]⟩

theorem witness_RequestsRefused_kind : ¬ inRange 1 28 (0x1D : Byte).toNat ∧ ¬ inRange 1 28 (0x00 : Byte).toNat ∧
    (base .held).canAccept := by decide +kernel

/-- One command for each of the lines of `refusedIn`, at the ends of their ranges of KINDs. -/
theorem witness_RequestsRefused :
    (refusedIn 0x01 .starting = some 0x05 ∧ catalogueLength 0x01 7) ∧ (refusedIn 0x0A .resumable = some 0x05 ∧ catalogueLength 0x0A 0) ∧
    (refusedIn 0x0B .unconfigured = some 0x04 ∧ catalogueLength 0x0B 14) ∧
    (refusedIn 0x1C .unconfigured = some 0x04 ∧ catalogueLength 0x1C 0) ∧
    (refusedIn 0x0D .unconfigured = some 0x04 ∧ catalogueLength 0x0D 1) ∧ (refusedIn 0x0E .halting = some 0x05 ∧ catalogueLength 0x0E 0) ∧
    (refusedIn 0x0F .unconfigured = some 0x04 ∧ refusedIn 0x0F .idle = some 0x05) ∧
    (refusedIn 0x12 .unconfigured = some 0x04 ∧ refusedIn 0x12 .running = some 0x05) ∧
    (refusedIn 0x13 .unconfigured = some 0x04 ∧ refusedIn 0x14 .held = some 0x05) ∧
    (refusedIn 0x1A .unconfigured = some 0x05 ∧ refusedIn 0x1B .running = some 0x05 ∧ catalogueLength 0x1B 64) := 
  ⟨⟨rfl, rfl⟩, ⟨rfl, rfl⟩, ⟨rfl, rfl⟩, ⟨rfl, rfl⟩, ⟨rfl, rfl⟩, ⟨rfl, rfl⟩, ⟨rfl, rfl⟩, ⟨rfl, rfl⟩, ⟨rfl, rfl⟩, rfl, rfl, 8, by decide⟩

theorem witness_RequestsRefused_place : ∀ x ∈ [PathState.unconfigured, .running, .resumable], (base x).canAccept := by
  decide +kernel

/-! ## Witnesses: definitions -/

/-- Both path states that take a definition request, with room for it. -/
theorem witness_definitions : ∀ k ∈ [(0x01 : Byte), 0x02, 0x03, 0x04, 0x05, 0x06, 0x07, 0x08, 0x09, 0x0A],
    ∀ x ∈ [PathState.unconfigured, .idle], (base x).canAccept ∧ refusedIn k (base x).feed.path = none := by decide +kernel

theorem witness_PathDefsTaken_station :
    StationBody (23, some ⟨31, .exit, 7, .delivery, some 23⟩) [23, 0, 31, 2, 7, 3, 23] ∧
    StationBody (0, some ⟨0, .plain, 0, .feed, none⟩) [0, 0, 0, 0, 0, 0, 0xFF] ∧
    StationBody (23, none) [23, 1, 9, 9, 9, 9, 9] :=
  ⟨⟨23, rfl, by simp⟩, ⟨0xFF, rfl, by simp⟩, ⟨[9, 9, 9, 9, 9], rfl, rfl⟩⟩

theorem witness_PathDefsTaken_station_refused : ∀ x, ¬ StationBody x [24, 0, 0, 0, 0, 0, 0] := by
  rintro ⟨st, _ | d⟩ h
  · obtain ⟨r, _, h⟩ := h
    simp [one] at h
  · obtain ⟨g, h, _⟩ := h
    have := st.isLt
    simp [one, ← BitVec.toNat_inj] at h
    omega

theorem witness_PathDefsTaken_leg : LegBody (.tray0, ⟨[⟨23, 20000⟩], 1⟩) [0, 1, 23, 0x4E, 0x20, 0, 1] ∧
    LegBody (.deliverPurge, ⟨.replicate 8 ⟨0, 1⟩, 0⟩) (10 :: 8 :: (List.replicate 8 [0, 0, 1]).flatten ++ [0xFF, 0xFF]) ∧
    catalogueLength 0x02 7 ∧ catalogueLength 0x02 28 :=
  ⟨⟨1, by decide, by decide, by decide, by decide, by decide⟩, ⟨65535, by decide, by decide, by decide, by decide, by decide⟩,
    ⟨1, by decide⟩, ⟨8, by decide⟩⟩

theorem witness_PathDefsTaken_leg_refused : ∀ x, ¬ LegBody x [11, 1, 0, 0, 1, 0, 1] := by
  rintro ⟨l, d⟩ ⟨e, _, _, _, h, _⟩
  cases l <;> simp [one, two, LegName.pos] at h

theorem witness_SettingDefsTaken_drive : DriveBody ⟨100, 600, 100, 200, 0, 200000, 0, 23, 0, 0, 0, 0⟩
    [0, 100, 2, 0x58, 0, 100, 0, 200, 0, 0, 0, 0, 0, 3, 0x0D, 0x40, 0, 23, 0, 0, 0, 0] :=
  ⟨by decide, by decide, by decide, by decide, by decide, by decide, by decide⟩

theorem witness_SettingDefsTaken_drive_refused : ∀ x, ¬ DriveBody x (.replicate 22 0) := by
  rintro x ⟨h, h0, _⟩
  simp [one, two, four, ← BitVec.toNat_inj, List.replicate] at h
  omega

theorem witness_SettingDefsTaken_timing : TimingBody { Timing.reset with q := 64, window := 5, autoSweep := false, markNormal := 63 }
    [64, 0, 100, 1, 144, 3, 232, 5, 0, 1, 244, 0, 200, 0, 150, 0, 0, 0x4E, 0x20, 1, 3, 1, 63, 2] :=
  ⟨by decide, by decide, by decide, by decide, by decide, by decide, by decide, by decide, by decide, by decide, by decide,
    by decide, by decide⟩

theorem witness_SettingDefsTaken_timing_refused : ∀ x, ¬ TimingBody x (.replicate 24 0) := by
  rintro x ⟨h, h0, _⟩
  simp [one, two, four, ← BitVec.toNat_inj, List.replicate] at h
  omega

theorem witness_PathDefsTaken_tray : UnitBody 0 (.tray 4 ⟨23, 31, 0, 2⟩) [4, 23, 31, 0, 2] ∧
    UnitBody 0 (.bin 1 31) [6, 31, 0, 0, 0] ∧ UnitBody 250 (.purge ⟨31, 250⟩) [7, 31, 250, 0, 0] :=
  ⟨⟨rfl, by decide⟩, ⟨[0, 0, 0], rfl, rfl⟩, ⟨[0, 0], rfl, rfl, by decide, by decide⟩⟩

theorem witness_PathDefsTaken_tray_refused : ∀ x, ¬ UnitBody 0 x [8, 0, 0, 0, 0] := by
  rintro (⟨u, y⟩ | ⟨i, line⟩ | y) h
  · obtain ⟨h, _⟩ := h
    have := u.isLt
    simp [one, ← BitVec.toNat_inj] at h
    omega
  · obtain ⟨r, _, h⟩ := h
    have := i.isLt
    simp [one, ← BitVec.toNat_inj] at h
    omega
  · obtain ⟨r, _, h, _⟩ := h
    simp [one] at h

theorem witness_PathDefsTaken_door : DoorBody (7, some ⟨31, 0xFF, true⟩) [7, 0, 31, 0xFF, 1] ∧ DoorBody (0, none) [0, 1, 0, 0, 0] :=
  ⟨⟨⟨31, 0xFF, true⟩, rfl, .inr rfl⟩, ⟨⟨0, 0, false⟩, rfl, .inl rfl⟩⟩

theorem witness_PathDefsTaken_door_refused : (∀ x, ¬ DoorBody x [8, 0, 0, 0, 0]) ∧
    (([8, 0, 0, 0, 0] : List Byte)[1]?).map BitVec.toNat ≠ some 1 := by
  refine ⟨?_, by decide⟩
  rintro ⟨i, d⟩ ⟨y, h, _⟩
  have := i.isLt
  simp [one, ← BitVec.toNat_inj] at h
  omega

theorem witness_SettingDefsTaken_finisher : (base .idle).finisher.state = .empty ∧
    FinisherBody (100, ⟨200, 400, 40000, 0, 23, 0, 31, 0, 0⟩) [100, 0, 200, 0, 0, 1, 144, 0x9C, 0x40, 0, 0, 23, 0, 31, 0, 0] :=
  ⟨rfl, by decide, by decide, by decide, by decide, by decide, by decide, by decide⟩

theorem witness_SettingDefsTaken_finisher_refused : (∀ x, ¬ FinisherBody x (.replicate 16 0)) ∧
    (compiled (base .idle) .compiling false).finisher.state ≠ .empty ∧ (compiled (base .idle) .compiling false).canAccept := by
  refine ⟨?_, by decide +kernel⟩
  rintro ⟨n, x⟩ ⟨h, h0, _⟩
  simp [one, two, four, ← BitVec.toNat_inj, List.replicate] at h
  omega

theorem witness_SettingDefsTaken_line : LineBody (.inl (31, ⟨false, 15⟩)) [0, 31, 1, 15] ∧ LineBody (.inr (23, true)) [1, 23, 0, 0xFF] :=
  ⟨⟨rfl, by decide⟩, ⟨[0xFF], rfl, rfl⟩⟩

theorem witness_SettingDefsTaken_line_refused : ∀ x, ¬ LineBody x [2, 0, 0, 0] := by
  rintro (⟨line, y⟩ | ⟨line, high⟩) h
  · simp [LineBody, one] at h
  · obtain ⟨r, _, h⟩ := h
    simp [one] at h

/-! ## Witnesses: PATH CLOSE -/

theorem witness_PathCloseTaken : (base .unconfigured).stored.badPath = none ∧ (base .idle).noPages ∧
    refusedIn 0x0A (base .idle).feed.path = none ∧ (base .idle).canAccept ∧ (base .idle).finisher.state ≠ .faulted := by
  decide +kernel

/-- The second clause: a RETAINED set whose limit expired at a tick held over (STAPLE FAIL), and a disturbed one that holds sheets
(DOOR OPEN). -/
theorem witness_PathCloseTaken_heldOver :
    (let p := compiled { base .unconfigured with episode := { Episode.reset with heldOver := some 950000 } } .retained false
     p.episode.heldOver = some 950000 ∧ p.canAccept ∧ p.feed.path = .unconfigured ∧ p.stored.badPath = none ∧ p.finisher.disturbed = false ∧
       p.finisher.state = .retained) ∧
    (let p := compiled (base .unconfigured) .faulted false
     let q := { p.finisher with disturbed := true }
     q.disturbed = true ∧ q.sheets ≠ []) := by decide +kernel

theorem witness_PathCloseChecked : desc.badPath = none ∧ desc.legsInRange ∧ Desc.reset.drive = none ∧ Desc.reset.legsInRange ∧
    (State.reset.part.stored.badPath).map Prod.fst = some 1 ∧ State.reset.part.canAccept := by decide +kernel

/-- A description failed by each of the checks 2 to 6: MAIN backwards, a DELIVER leg of its own distance to the PURGE GATE, a process
station on another drive, two roles of one input line, and an area that no door exposes. -/
theorem witness_PathCloseChecked_each : ([{ desc with legs := desc.legs.set 5 (some ⟨[⟨7, 1000⟩, ⟨6, 2000⟩, ⟨5, 3000⟩], 0⟩) },
      { desc with legs := desc.legs.set 8 (some ⟨[⟨9, 1001⟩, ⟨11, 2000⟩], 0⟩) },
      { desc with stations := desc.stations.set 6 (some ⟨6, .registration, 1, .feed, none⟩) },
      { desc with bins := #v[some 24, some 24] },
      { desc with doors := desc.doors.set 0 (some ⟨27, 0x07, true⟩) }].map fun d => (d.badPath).map Prod.fst)
    = [some 2, some 3, some 4, some 5, some 6] := by decide +kernel
theorem witness_NoticeMaskTaken : (base .unconfigured).canAccept ∧ refusedIn 0x09 (base .unconfigured).feed.path = none ∧
    refusedIn 0x09 (base .idle).feed.path = none := by decide +kernel

/-! ## Witnesses: pages and jobs -/

theorem witness_PageJudged : (base .running).canAccept ∧ (base .running).feed.path ≠ .unconfigured ∧
    PageBody { page with ready := false } [0, 0, 0, 7, 1, 0, 1, 0, 2, 1, 0x0B, 0x9A, 1, 0] ∧
    (base .running).intake.pageCode { page with ready := false } = none :=
  ⟨by decide +kernel, by decide, ⟨2, by decide⟩, by decide +kernel⟩

/-- The second clause: a tray out of range for a check, and a side byte of 4 for a side that is none. -/
theorem witness_PageJudged_refused :
    PageBody { page with ready := false, tray := 4 } [0, 0, 0, 7, 1, 0, 1, 0, 2, 4, 0x0B, 0x9A, 1, 0] ∧
    (base .running).intake.pageCode { page with ready := false, tray := 4 } = some 0x03 ∧
    4 ≤ (([0, 0, 0, 7, 1, 0, 1, 4, 2, 1, 0x0B, 0x9A, 1, 0] : List Byte).getD 7 0).toNat :=
  ⟨⟨2, by decide⟩, by decide +kernel, by decide⟩

/-- The page in a queue, in the Reprint List, and on a sheet's side not yet COMMITTED. -/
theorem witness_ImageReady : (∀ x ∈ [PathState.running, .held], (withPage (base x)).canAccept ∧
      ∃ y ∈ (withPage (base x)).intake.queue .normal, y.id = 7) ∧
    (withPage (base .held)).dry.on = false ∧ (7 : Nat) < 4294967296 ∧
    (∃ y ∈ ({ base .running with planner := ⟨[⟨page, .stranded⟩], 1, false⟩ } : Part).planner.list, y.page.id = 7) ∧
    ∃ x ∈ (tracking (base .running) .bin0 3 none).table.sheets, ∃ y ∈ x.front, y.id = 7 ∧ x.frontSide ≠ .committed := by
  decide +kernel

/-- The second clause, at the largest identifier, and with the only record of it on a side already COMMITTED. -/
theorem witness_ImageReady_unknown :
    (let p := withPage (base .idle)
     (∀ x ∈ p.intake.normal ++ p.intake.priority, x.id ≠ 4294967295) ∧ (∀ y ∈ p.planner.list, y.page.id ≠ 4294967295) ∧
       p.table.sheets = []) ∧
    (let x := { sheet .bin0 5 with frontSide := .committed }
     (∀ y ∈ x.front, y.id = 7 → x.frontSide = .committed) ∧ x.back = none) := by decide +kernel

theorem witness_AbandonJob : (withPage (base .resumable)).canAccept ∧ (withPage (base .resumable)).feed.path ≠ .unconfigured ∧
    (withPage (base .resumable)).tableSound ∧ (withPage (base .resumable)).intake.slotOf 1 = some 0 ∧
    ((withPage (base .resumable)).intake.slots[(0 : Fin 8)]).isSome = true ∧
    (withPage (base .resumable)).intake.slotOf 2 = none := by decide +kernel

/-- A sheet in the table that ABANDON JOB reaches, a STRANDED one, and a set of the job. -/
theorem witness_AbandonJob_reached : (withPage (tracking (base .running) .bin0 3 (some 5))).tableSound ∧
    reached (tracking (base .running) .bin0 3 (some 5)) 1 (sheet .bin0 3) = true ∧
    reached (base .sweeping) 1 { sheet .bin0 3 with cond := .stranded } = true ∧
    (compiled (base .running) .compiling false).finisher.ident = some (1, 1) := by decide +kernel

/-- HELD, where nothing follows and where in dry run the plan is built at once; a slot the request frees, and one it does not. -/
theorem witness_AbandonJob_held :
    (let p := tracking (withPage (base .held)) .bin0 3 none
     p.canAccept ∧ p.tableSound ∧ p.dry.on = false) ∧
    (let p := dry (tracking (withPage (base .held)) .bin0 3 none)
     p.feed.path = .held ∧ p.dry.on = true ∧ p.clearance ∧ p.force.timing.autoSweep = true ∧ p.episode.barred = false ∧
       p.episode.isOpen = true) ∧
    (let p := { withPage (base .resumable) with mask := { (base .resumable).mask with progress := false } }
     ∀ x ∈ p.intake.slots[(0 : Fin 8)], x.accepted = x.delivered + (x.abandoned + removedBy p 1) ∧
       p.notices.progress[(0 : Fin 8)] = false ∧ p.mask.progress = false) ∧
    (withPage (base .resumable)).mask.progress = true ∧ removedBy (withPage (base .resumable)) 1 ≠ 0 := by decide +kernel

/-! ## Witnesses: HOLD, CONTINUE, STOP, RESYNC STATION -/

theorem witness_OperatorRequests_hold : ∀ x ∈ [PathState.idle, .starting, .running, .draining], (base x).canAccept ∧
    refusedIn 0x0D (base x).feed.path = none ∧ refusedIn 0x0E (base x).feed.path = none ∧ (base x).noPages ∧
    (base x).feed.exhausted = false := by decide +kernel

/-- CONTINUE in IDLE with a page to start for. -/
theorem witness_OperatorRequests_start : (withPage (base .idle)).judgeSelector.nextPage.isSome = true ∧
    (withPage (base .idle)).anyDoorOpen = false ∧ (withPage (base .idle)).finisher.state = .empty ∧
    (withPage (base .idle)).feed.exhausted = false := by decide +kernel

theorem witness_OperatorRequests_stop : ∀ x ∈ [PathState.starting, .running, .draining, .halting, .sweeping], (base x).canAccept ∧
    refusedIn 0x0F (base x).feed.path = none := by decide +kernel

theorem witness_OperatorRequests_resync : (base .running).canAccept ∧ ((base .running).force.stations[(14 : Fin 24)]).isSome = true ∧
    (base .running).force.stations[(23 : Fin 24)] = none ∧ ∀ st : Fin 24, (24 : Byte).toNat = st.val →
      (base .running).force.stations[st] = none := by decide +kernel

/-! ## Witnesses: SWEEP, PLAN READ, RESUME -/

/-- Clear, with the compile tray empty and with the paper expected there; and not clear for an open door, for paper there that is not
expected, and for a set being ejected. -/
theorem witness_SweepRequest : (base .held).canAccept ∧ (base .held).tableSound ∧ (base .held).clearance ∧
    (let p := { base .held with lines := ⟨quiet, quiet.set 30 true, .replicate 32 0⟩ }
     (compiled p .retained false).clearance ∧ ¬ p.clearance ∧ p.levelOf .compileTray = true) ∧
    ({ base .held with lines := State.reset.part.lines } : Part).anyDoorOpen = true ∧
    (compiled (base .held) .ejecting false).finisher.state = .ejecting := by decide +kernel

theorem witness_PlanReadTaken : (base .unconfigured).canAccept ∧ (base .held).canAccept ∧ (base .resumable).canAccept ∧
    (base .resumable).feed.path = .resumable ∧ (base .resumable).planner.list = [] := by decide +kernel

theorem witness_ResumeTaken : (base .resumable).canAccept ∧ (base .resumable).planner.readThrough = false ∧
    (let p : Part := { base .resumable with planner := ⟨[], 1, true⟩ }
     p.planner.readThrough = true ∧ p.anyDoorOpen = false ∧ p.anyPaper = false ∧ p.strayTrayPaper = false) ∧
    (compiled (base .resumable) .faulted false).finisher.disturbed = false ∧
    (compiled (base .resumable) .retained false).finisher.state = .retained := by decide +kernel

/-! ## Witnesses: reads, counters, dry run, PATH RESET -/

theorem witness_ReadsTaken : (tracking (base .running) .bin0 3 (some 5)).canAccept := by decide +kernel

/-- The last index of each group and the first beyond it. -/
theorem witness_CountersReadAndSet_read : (base .running).canAccept ∧ 23 < groupSize .station ∧ groupSize .station ≤ 24 ∧
    4 < groupSize .tray ∧ groupSize .tray ≤ 5 ∧ 0 < groupSize .path ∧ groupSize .path ≤ 1 ∧ 3 ≤ (3 : Byte).toNat := by
  decide +kernel

/-- The saturation values and the first watermarks beyond them. -/
theorem witness_CountersReadAndSet_width : (base .running).canAccept ∧ 65535 ≤ Width.limit .narrow ∧ ¬ 65536 ≤ Width.limit .narrow ∧
    16777215 ≤ Width.limit .wide ∧ ¬ 16777216 ≤ Width.limit .wide ∧ 16777216 < 4294967296 ∧ 3 ≤ (3 : Byte).toNat ∧
    2 ≤ (2 : Byte).toNat := by decide +kernel

theorem witness_DryRunAndFaultPlan : (base .idle).canAccept ∧ (base .idle).feed.path = .idle ∧ (base .idle).finisher.state = .empty ∧
    (base .idle).dry.on = false ∧ (dry (base .idle)).dry.on = true ∧
    (compiled (base .idle) .retained false).finisher.state ≠ .empty := by decide +kernel

/-- Entries at the ends of their ranges: the shortest DELAY, the longest STRETCH and a NO STAPLE, and an ordinal of 0. -/
theorem witness_DryRunAndFaultPlan_bodies :
    PlanBody [⟨1, 0, .delay, -20000, false⟩, ⟨65535, 23, .stretch, 100000, false⟩, ⟨1, 255, .noStaple, 0, false⟩]
      [0, 1, 0, 0, 0xFF, 0xFF, 0xB1, 0xE0, 0xFF, 0xFF, 23, 2, 0, 1, 0x86, 0xA0, 0, 1, 0xFF, 4, 0, 0, 0, 0] ∧
    catalogueLength 0x1B 24 ∧ catalogueLength 0x1B 0 ∧ (∀ l, ¬ PlanBody l [0, 0, 0, 0, 0, 0, 0, 0]) := by
  refine ⟨⟨[0, 1, 0, 0, 0xFF, 0xFF, 0xB1, 0xE0], _, rfl, ⟨0xFFFFB1E0, by decide⟩, [0xFF, 0xFF, 23, 2, 0, 1, 0x86, 0xA0], _, rfl,
    ⟨0x000186A0, by decide⟩, [0, 1, 0xFF, 4, 0, 0, 0, 0], _, rfl, ⟨0, by decide⟩, rfl⟩, ⟨3, by decide⟩, ⟨0, by decide⟩, ?_⟩
  rintro (_ | ⟨x, l⟩) h
  · cases h
  · obtain ⟨_, r, h, ⟨a, rfl, _, h0, _⟩, _⟩ := h
    simp [one, two, four, ← BitVec.toNat_inj] at h
    omega

theorem witness_PathResetTaken : (base .running).canAccept ∧ (base .running).feed.path ≠ .unconfigured ∧
    (tracking (base .running) .bin0 3 (some 5)).table.sheets ≠ [] ∧ (base .running).anyDoorOpen = false ∧
    (base .running).finisher.sheets = [] := by decide +kernel

/-! ## Witnesses: the line -/

theorem witness_FramesHeard : (⟨0x0B, .replicate 64 0xD5⟩ : Frame).body.length ≤ 64 ∧
    [(0 : Byte), 0] ≠ bytesOf 2 (crc (⟨0x15, []⟩ : Frame).covered).toNat := by decide +kernel

/-- Inside a frame 40 ticks after its last byte, a LEN at each end of what is refused, a CRC that does not match, a full queue. -/
theorem witness_Discards :
    ({ base .running with link := { Link.reset .baud115200 with receiver := .inFrame [5] 1000000 } } : Part).link.receiver
      = .inFrame [5] 1000000 ∧ since (1000000 : Tick) 1000040 < 41 ∧ (base .running).link.receiver = .hunting ∧
    (0 : Byte).toNat = 0 ∧ 65 < (66 : Byte).toNat ∧
    [(0 : Byte), 0] ≠ bytesOf 2 (crc (⟨0x15, []⟩ : Frame).covered).toNat ∧ 4 ≤ (full (base .running)).link.rxQueue.length ∧
    inRange 1 4 1 ∧ inRange 1 68 (64 + 4) ∧ (Instr.statusRead 5 []).request? = some (5, 0x15, []) := by decide +kernel

/-- A frame begun whose byte may come: 41 ticks after the last (late) and 40 (in time), first a LEN of 65 and the byte before its
last, then the last byte of a whole STATUS READ. -/
theorem witness_BytesInTurn : (41 : Int) ≤ since (1000000 : Tick) (plusTicks 1000000 41) ∧
    since (1000000 : Tick) (plusTicks 1000000 40) < 41 ∧
    (inRange 1 65 (([] ++ [(65 : Byte)]).headD 0).toNat ∧ ([] : List Byte).length < (([] ++ [(65 : Byte)]).headD 0).toNat + 2) ∧
    (let l := (65 : Byte) :: List.replicate 65 0
     inRange 1 65 ((l ++ [0]).headD 0).toNat ∧ l.length < ((l ++ [0]).headD 0).toNat + 2) ∧
    (let f : Frame := ⟨0x15, []⟩
     0xD5 :: (f.bytes.drop 1).dropLast ++ [(f.bytes.getLast?).getD 0] = f.bytes) ∧
    heardAs ⟨0x15, []⟩ 1000040 (.statusRead 1000040 []) :=
  ⟨by decide, by decide, by decide, by decide, by decide +kernel, .inl rfl⟩

/-- R174: a byte 40 ticks after the last is in time, and 41 ticks after it the frame has been discarded at the 41st. -/
theorem test_byte_gap : (after (.frameDiscard 1000000 [⟨0, 0xD5, true⟩, ⟨40, 2, true⟩]) (base .running)).map (fun q =>
      (q.link.receiver, q.link.fault, q.tick)) = some (.inFrame [2] 1000040, false, 1000000) ∧
    (after (.frameDiscard 1000000 [⟨0, 0xD5, true⟩, ⟨41, 2, true⟩]) (base .running)).map (fun q =>
      (q.link.receiver, q.link.fault, q.tick)) = some (.hunting, true, 1000041) := by decide +kernel

/-- R174, R176: a good frame among the bytes is accepted and answered. -/
theorem test_frame_heard : (after (.frameDiscard 1000000 (clean (⟨0x15, []⟩ : Frame).bytes)) (base .running)).map (fun q =>
    (q.link.receiver, q.link.rxQueue, q.link.sending.map fun x => x.frame.body.length)) =
    some (.hunting, [⟨0x15, []⟩], some 51) := by decide +kernel

/-- The fault timer armed, with an idle transmitter and with a frame being sent; and idle. -/
theorem witness_Discards_fault :
    (let p : Part := { base .idle with link := { Link.reset .baud115200 with fault := true, faultTimer := some 5 } }
     p.link.faultTimer = some 5 ∧ (sending p).link.faultTimer = some 5 ∧ (sending p).link.sending.isSome = true) ∧
    (base .idle).link.faultTimer = none := by decide +kernel

/-- A frame being sent with nothing pending, a reply pending, a call pending, and a PROGRESS first. -/
theorem witness_FrameSent : (sending (base .running)).progressHeld ∧ (sending (base .running)).link.sending = some ⟨⟨0x43, []⟩, false⟩ ∧
    (sending (base .running)).link.replies = [] ∧ (sending (base .running)).calls.queue = [] ∧
    noticesInOrder (sending (base .running)) = [] ∧
    (noticesInOrder { sending (base .running) with calls := ⟨[⟨7, .front, 1, 5⟩], []⟩ }).length = 1 ∧
    (let p := withPage (sending (base .running))
     let q : Part := { p with notices := { p.notices with progress := p.notices.progress.set 0 true } }
     q.progressHeld ∧ (noticesInOrder q).head?.any (fun f => f.kind == 0x47) = true) := by
  simp only [Part.progressHeld]
  decide +kernel

/-- A line without a role, one with one role, and dry run. -/
theorem witness_OutputLevels : (∀ r, (base .running).force.outLineOf r ≠ some 23) ∧ (base .running).force.outLineOf .exitGate = some 0 ∧
    (∀ r, (base .running).force.outLineOf r = some 0 → r = .exitGate) ∧ (base .running).dry.on = false ∧
    (dry (base .running)).dry.on = true := by
  refine ⟨fun r => ?_, by decide +kernel, fun r => ?_, rfl, rfl⟩
  · cases r with
    | clutch u => revert u; decide +kernel
    | enable d => cases d <;> decide +kernel
    | _ => decide +kernel
  · cases r with
    | clutch u => revert u; decide +kernel
    | enable d => cases d <;> decide +kernel
    | _ => decide +kernel

/-! ## Witnesses: supplies, doors, sweeps -/

theorem witness_SupplyLines : ((base .running).force.trays[(4 : Fin 5)]).isSome = true ∧
    (base .running).force.bins[(1 : Fin 2)] = some 25 ∧ (base .running).force.purge = some ⟨26, 150⟩ := by decide +kernel

/-- Every path state, and a set under the door's finisher flag or none. -/
theorem witness_DoorOpening : (∀ x ∈ [PathState.unconfigured, .idle, .starting, .running, .draining, .halting, .held, .sweeping,
      .resumable], (base x).feed.path = x ∧ (base x).force.doors[(0 : Fin 8)] = some ⟨27, 255, true⟩) ∧
    (compiled (base .idle) .stapling false).finisher.sheets ≠ [] ∧
    (compiled (base .idle) .stapling false).finisher.state = .stapling := by decide +kernel

theorem witness_ClearanceEdges : (base .held).tableSound ∧ (base .held).episode.isOpen = true ∧ (base .held).feed.path = .held ∧
    (base .held).force.doors[(0 : Fin 8)] = some ⟨27, 255, true⟩ ∧ (base .held).force.finisher.isSome = true ∧
    (base .held).force.timing.autoSweep = true ∧ (base .held).episode.barred = false ∧ (base .held).anyPaper = false := by
  decide +kernel

theorem witness_SweepsByItself : (tracking (base .held) .bin0 3 none).tableSound ∧
    (let p : Part := { base .sweeping with episode := { Episode.reset with isOpen := true, sweepTimer := some 1006000 } }
     p.tableSound ∧ p.feed.path = .sweeping ∧ p.episode.sweepTimer = some 1006000) := by decide +kernel

/-! ## Witnesses: station edges -/

/-- Sheet 1 awaits station 14, its outer window taken in at both ends. -/
theorem witness_LeadingEdgeTaken : let e := expectAt desc.timing 300 1000000 900 0
    let p := tracking (base .running) .bin0 1 none
    p.tableSound ∧ p.dry.on = false ∧ p.feed.path.tracks = true ∧ 
      p.matchesLead e.e 14 (sheet .bin0 1) ⟨.tray1, 2, 14, 900⟩ e ∧
      since e.e (laterOf p.tick (plusTicks e.e e.wj)) = e.wj ∧
      since e.e (laterOf p.tick (e.e - BitVec.ofNat 32 e.wj)) = -(e.wj : Int) := by decide +kernel

/-- Such an edge of the sensor, and in dry run a synthesised one, at the tick expected. -/
theorem witness_LeadingEdgeTaken_arrives : let e := expectAt desc.timing 300 1000000 900 0
    (tracking (base .running) .bin0 1 none).arrives (.stationLeadingEdge e.e 14) e.e 14 ⟨31, .plain, 0, .feed, none⟩
      (sheet .bin0 1) ⟨.tray1, 2, 14, 900⟩ e := by decide +kernel

theorem witness_LeadingEdgeTaken_dry : let e := expectAt desc.timing 300 1000000 900 0
    (scheduled (tracking (base .running) .bin0 1 none) ⟨14, true, e.e, some 1, 0, 0, 19800⟩).arrives
      (.synthesisedStationEdge 14 true) e.e 14 ⟨31, .plain, 0, .feed, none⟩ (sheet .bin0 1) ⟨.tray1, 2, 14, 900⟩ e := by
  decide +kernel

/-- The first station of a sheet, the return to MAIN, EXIT on the FIRST pass with a back to call, and a tray leg under a reservation. -/
theorem witness_RoleActions : (sheet .bin0 0).index = 0 ∧
    (let x := sheet .bin0 0
     ∃ e, (alone (base .running) x).arrives (.stationLeadingEdge e.e 1) e.e 1 ⟨1, .plain, 0, .feed, none⟩ x ⟨.tray1, 1, 1, 600⟩ e) ∧
    (let x := twoSided 6 .first
     x.returnsAt ⟨.main, 1, 5, 3000⟩ = true ∧ ∃ e,
       (alone (base .running) x).arrives (.stationLeadingEdge e.e 5) e.e 5 ⟨5, .plain, 1, .feed, none⟩ x ⟨.main, 1, 5, 3000⟩ e) ∧
    (let x := twoSided 4 .first
     x.returnsAt ⟨.main, 3, 7, 3000⟩ = false ∧ x.cond = .normal ∧ x.released = false ∧ x.back.isSome = true ∧ ∃ e,
       (sending (alone (base .running) x)).arrives (.stationLeadingEdge e.e 7) e.e 7 ⟨7, .exit, 1, .process, some 0⟩ x
         ⟨.main, 3, 7, 3000⟩ e) ∧
    (let p := tracking (base .running) .bin0 1 none
     let q : Part := { p with feed := { p.feed with merge := [⟨1, .feed, 1010000, 1029800⟩] } }
     LegName.tray1.hasEnd = true ∧ q.feed.merge.find? (fun z => z.sheet == 1) = some ⟨1, .feed, 1010000, 1029800⟩) :=
  ⟨rfl, ⟨expectAt .reset 300 1000000 600 0, by decide +kernel⟩,
    ⟨by decide +kernel, expectAt .reset 300 1000000 3000 0, by decide +kernel⟩,
    ⟨by decide +kernel, rfl, rfl, rfl, expectAt .reset 300 1000000 3000 0, by decide +kernel⟩, rfl, by decide +kernel⟩

/-- At REGISTRATION: a sheet whose front is ready and one whose front is not, each side; a sheet PURGING; and one without the page. -/
theorem witness_CommitDecided : ∀ x ∈ [sheet .bin0 3, { sheet .bin0 3 with front := some { page with ready := false } },
      { sheet .bin0 3 with cond := .purging }, { twoSided 7 .final with back := none }, twoSided 7 .final],
    x.expect.isSome = true ∧ ∀ e ∈ x.expect, (sending (alone (base .running) x)).arrives (.stationLeadingEdge e.e 6) e.e 6
      ⟨6, .registration, 1, .process, none⟩ x ⟨.main, 2, 6, 2000⟩ e := by decide +kernel

/-- 5.2, 5.3: a front not ready at REGISTRATION spoils its sheet: PURGING, its page in the Reprint List, one spoil counted. -/
theorem test_spoiled : (after (.stationLeadingEdge 1013333 6) (alone (base .running)
    { sheet .bin0 3 with front := some { page with ready := false } })).map (fun q =>
      (q.table.sheets.map fun y => (y.cond, y.dest, y.frontSide), q.planner.list.map fun y => (y.page.id, y.reason),
        q.stats.path.toList)) =
    some ([(.purging, .purge, .spoiled)], [(7, .spoiled)], [0, 0, 0, 0, 1, 0, 0, 0, 0, 0]) := by decide +kernel

/-- One state for each kind of jam, EARLY ARRIVAL one tick before the outer window. -/
theorem witness_LeadingEdgeJams :
    (∀ x ∈ [PathState.starting, .sweeping], (base x).tableSound ∧ (base x).feed.path = x ∧ (base x).dry.on = false ∧
      (base x).brings (.stationLeadingEdge 1000000 14) true 14 1000000 ∧ ((base x).force.stations[(14 : Fin 24)]).isSome = true) ∧
    (let p := tracking (base .running) .bin0 3 (some 5)
     p.tableSound ∧ (∃ c ∈ (p.stations[(5 : Fin 24)]).cover, ∃ y ∈ p.table.sheets, y.number = c.sheet ∧ y.cond ≠ .stranded)) ∧
    (let p := tracking (base .running) .bin0 1 none
     let e := expectAt desc.timing 300 1000000 900 0
     (∀ y ∈ p.table.sheets, y.candidateAt 0 1000000 = false) ∧
       p.matchesLead (e.e - BitVec.ofNat 32 (e.wj + 1)) 14 (sheet .bin0 1) ⟨.tray1, 2, 14, 900⟩ e ∧
       since e.e (laterOf p.tick (e.e - BitVec.ofNat 32 (e.wj + 1))) < -(e.wj : Int)) ∧
    (let p := tracking (compiled (base .running) .ejecting false) .finisher 6 none
     let e := expectAt desc.timing 300 1000000 2000 0
     p.matchesLead e.e 12 (sheet .finisher 6) ⟨.deliverFinisher, 2, 12, 2000⟩ e ∧
       (p.force.stations[(12 : Fin 24)]).map StationDef.role = some .finisherEntry ∧ p.finisher.state = .ejecting) ∧
    (compiled (base .running) .stapling false).finisher.state = .stapling ∧
    (let p := compiled (base .running) .compiling false
     p.finisher.state ≠ .empty ∧ p.finisher.ident ≠ some (2, 1) ∧
       ({ desc with capacity := 1 } : Desc).capacity ≤ p.finisher.sheets.length) := by
  refine ⟨by decide +kernel, ⟨by decide +kernel, ⟨1, 1000000, some 1021200⟩, by decide +kernel,
    { sheet .bin0 3 with covering := some 5 }, by decide +kernel⟩, by decide +kernel, by decide +kernel, by decide +kernel,
    by decide +kernel⟩

/-- R20: at the tick of a pick retry the retried sheet is no candidate, and a tick later it is. -/
theorem witness_LeadingEdgeJams_retried : let x := { sheet .bin0 0 with attempts := 2 }
    x.candidateAt 1 1000000 = false ∧ x.candidateAt 1 1000001 = true := by decide +kernel

/-- R20, R73: such an edge is UNEXPECTED PAPER, and one of the next tick an EARLY ARRIVAL. -/
theorem test_retried_edge : (let p := alone (base .running) { sheet .bin0 0 with attempts := 2 }
    [1000000, 1000001].map fun t => (after (.stationLeadingEdge t 1) p).bind fun q => q.episode.firstKind) =
    [some .unexpectedPaper, some .earlyArrival] := by decide +kernel

/-- R87: a cascade does not reach a sheet past the PURGE GATE. -/
theorem test_spoil_past_gate : (let p := alone (base .running) { sheet .bin0 3 with front := some { page with ready := false } }
    after (.stationLeadingEdge 1013333 6) { p with
      table := ⟨p.table.sheets ++ [{ sheet .bin0 6 with number := 2 }], 1⟩, feed := { p.feed with nextSheet := 3 } }).map (fun q =>
        q.table.sheets.map fun y => (y.cond, y.dest, y.front.isSome)) =
    some [(.purging, .purge, false), (.normal, .bin0, true)] := by decide +kernel

/-- Every path state that tracks nothing; HELD; and in dry run. -/
theorem witness_LevelOnlyEdges : (∀ x ∈ [PathState.unconfigured, .resumable, .idle, .held, .starting, .sweeping],
      (base x).tableSound ∧ (base x).feed.path = x ∧ (base x).dry.on = false) ∧ (base .idle).noPages ∧
    (base .held).episode.isOpen = true ∧ (base .held).force.stations[(14 : Fin 24)] = some ⟨31, .plain, 0, .feed, none⟩ ∧
    (dry (sending (base .running))).dry.on = true ∧ (dry (sending (base .running))).link.sending.isSome = true ∧
    (sending (base .running)).force.finisher.isSome = true := by decide +kernel

/-- Sheet 1 under the first station of MAIN, by the sensor's edge and by a synthesised one. -/
theorem witness_StationUncovered : let p := tracking (base .running) .bin0 3 (some 5)
    let x := { sheet .bin0 3 with covering := some 5 }
    let d : StationDef := ⟨5, .plain, 1, .feed, none⟩
    p.departs (.stationTrailingEdge 1019890 5) 1019890 5 d x ⟨1, 1000000, some 1021200⟩ ∧
      (scheduled p ⟨5, false, 1019800, some 1, 0, 0, 19800⟩).departs (.synthesisedStationEdge 5 false) 1019800 5 d x
        ⟨1, 1000000, some 1021200⟩ ∧
      (x.itinerary.head?).map Step.station ≠ some 5 ∧ (x.itinerary.getLast?).map Step.station ≠ some 5 ∧
      ((p.force.leg .main).steps.head?).map LegStep.station = some 5 := by decide +kernel

/-- Sheet 1 under its last station, at a bin, the finisher and the purge bin. -/
theorem witness_SheetDelivered : ∀ y ∈ [(Dest.bin0, (10 : Fin 24), Role.binEntry0), (.bin1, 11, .binEntry1),
      (.finisher, 12, .finisherEntry), (.purge, 13, .purgeEntry)],
    let p := tracking (base .running) y.1 7 (some y.2.1)
    let x := { sheet y.1 7 with covering := some y.2.1 }
    (∀ d ∈ p.force.stations[y.2.1], d.role = y.2.2 ∧
      p.departs (.stationTrailingEdge 1019890 y.2.1) 1019890 y.2.1 d x ⟨1, 1000000, some 1021200⟩) ∧
      (p.force.stations[y.2.1]).isSome = true ∧
      (x.itinerary.head?).map Step.station ≠ some y.2.1 ∧ (x.itinerary.getLast?).map Step.station = some y.2.1 ∧
      0 < p.finisherSet.settle := by decide +kernel

/-- Sheet 1 under its first station. -/
theorem witness_StationUncovered_length : let p := tracking (base .running) .bin0 1 (some 1)
    let x := { sheet .bin0 1 with covering := some 1 }
    p.departs (.stationTrailingEdge 1019890 1) 1019890 1 ⟨1, .plain, 0, .feed, none⟩ x ⟨1, 1000000, some 1021200⟩ ∧
      (x.itinerary.head?).map Step.station = some 1 ∧ (x.itinerary.getLast?).map Step.station ≠ some 1 := by decide +kernel

/-- A pick not yet confirmed, at its last attempt and before it, a sheet further on, and none armed. -/
theorem witness_Deadlines :
    (let p := tracking (base .running) .bin0 0 none
     p.tableSound ∧ sheet .bin0 0 ∈ p.table.sheets ∧ (sheet .bin0 0).deadline.isSome = true ∧
       (sheet .bin0 0).itinerary[(sheet .bin0 0).index]? = some ⟨.tray1, 1, 1, 600⟩ ∧ p.feed.path.takesJams = true ∧
       (sheet .bin0 0).attempts ≤ p.retriesOf 1 ∧ ¬ (sheet .bin0 0).attempts + 1 ≤ p.retriesOf 1 ∧ p.trayAvailable 1 = true ∧
       ({ p with feed := { p.feed with merge := [⟨1, .feed, 1010000, 1029800⟩, ⟨3, .return, 1040000, 1059800⟩] } } : Part).feed.merge.find?
         (fun z => z.sheet == 1) = some ⟨1, .feed, 1010000, 1029800⟩ ∧ p.feed.nextSheet = 2) ∧
    (let p := tracking (base .halting) .bin0 3 (some 5)
     (sheet .bin0 3).deadline.isSome = true ∧ (sheet .bin0 7).deadline = none ∧ p.feed.path.takesJams = true ∧
       (p.stations[(5 : Fin 24)]).cover = some ⟨1, 1000000, some 1021200⟩ ∧
       (p.stations[(23 : Fin 24)]).cover.bind Cover.deadline = none) := by decide +kernel

/-- A scheduled leading edge at the tick expected, an EXTRA one, a trailing one with an EXTRA fault, and one that is discarded. -/
theorem witness_SynthesisedEdge : let p := tracking (base .running) .bin0 1 none
    let f := expectAt desc.timing 300 1000000 900 0
    (let e : Edge := ⟨14, true, f.e, some 1, 0, 0, 19800⟩
     let q := scheduled p e
     q.tableSound ∧ q.dry.nextEdge 14 true = some e ∧ q.dry.on = true ∧ q.feed.path = .running ∧
       q.arrives (.synthesisedStationEdge 14 true) f.e 14 ⟨31, .plain, 0, .feed, none⟩ (sheet .bin0 1) ⟨.tray1, 2, 14, 900⟩ f ∧
       ({ base .idle with dry := q.dry } : Part).dry.nextEdge 14 true = some e ∧ (base .idle).noPages ∧
       ({ base .held with dry := q.dry } : Part).episode.isOpen = true) ∧
    (∀ e ∈ [(⟨14, true, 1001000, none, 0, 0, 900⟩ : Edge), ⟨5, false, 1019800, some 1, 0, 1, 19800⟩],
      (scheduled p e).dry.nextEdge e.station e.leading = some e) := by decide +kernel

/-- An EXTRA edge at a station no longer defined. -/
theorem witness_SynthesisedEdge_undefined : let e : Edge := ⟨14, true, 1001000, none, 0, 0, 900⟩
    let q := { scheduled (base .running) e with force := { desc with stations := desc.stations.set 14 none } }
    q.tableSound ∧ q.dry.nextEdge e.station e.leading = some e ∧ q.dry.on = true ∧ q.feed.path = .running ∧
      q.force.stations[e.station] = none := by decide +kernel

/-- R160: at a station not defined such an edge declares no jam and counts none; at one defined it does. -/
theorem test_edge_undefined_station : ([none, desc.stations[(14 : Fin 24)]].map fun d =>
    (after (.synthesisedStationEdge 14 true) { scheduled (base .running) ⟨14, true, 1001000, none, 0, 0, 900⟩ with
      force := { desc with stations := desc.stations.set 14 d } }).map fun q =>
        (q.feed.path, (q.stats.station[(14 : Fin 24)]).toList, q.dry.schedule.length)) =
    [some (.running, [0, 0, 0], 0), some (.resumable, [0, 0, 1], 0)] := by decide +kernel

/-- An arrival in dry run with a step to come, and a set to be stapled. -/
theorem witness_FaultsFire : let p := tracking (base .running) .bin0 1 none
    let f := expectAt desc.timing 300 1000000 900 0
    let q := scheduled p ⟨14, true, f.e, some 1, 0, 0, 19800⟩
    q.dry.on = true ∧ (sheet .bin0 1).itinerary[(sheet .bin0 1).index + 1]? = some ⟨.main, 1, 5, 1450⟩ ∧
      q.arrives (.synthesisedStationEdge 14 true) f.e 14 ⟨31, .plain, 0, .feed, none⟩ (sheet .bin0 1) ⟨.tray1, 2, 14, 900⟩ f ∧
      (let c := dry (compiled (base .running) .compiling false)
       c.dry.on = true ∧ c.finisher.state = .compiling ∧ c.finisher.closed = true ∧ c.finisher.disturbed = false ∧
         c.finisher.sheets ≠ [] ∧ (∀ h ∈ c.finisher.sheets, h.settling = false) ∧ c.episode.isOpen = false ∧
         c.anyDoorOpen = false ∧ c.finisher.toStaple = true ∧ c.finisher.stapled = false ∧ c.finisher.skipped = false ∧
         c.finisher.abandoned = false) := by decide +kernel

/-! ## Witnesses: the finisher -/

theorem witness_HomeEdges_staple : (compiled (base .running) .stapling false).finisher.state = .stapling ∧
    (compiled (base .running) .stapling false).dry.on = false ∧ (base .running).force.finisher.isSome = true ∧
    ({ dry (compiled (base .running) .stapling false) with dry := ⟨true, 1, [], [], some ⟨true, 1001000⟩⟩ } : Part).dry.home
      = some ⟨true, 1001000⟩ := by decide +kernel

theorem witness_HomeEdges_eject : (compiled (base .running) .ejecting false).finisher.state = .ejecting ∧
    (compiled (base .running) .ejecting false).dry.on = false ∧ (base .running).force.finisher.isSome = true ∧
    (base .running).mask.setDone = true ∧ (compiled (base .running) .ejecting false).finisher.ident = some (1, 1) ∧
    ({ dry (compiled (base .running) .ejecting false) with dry := ⟨true, 1, [], [], some ⟨false, 1002000⟩⟩ } : Part).dry.home
      = some ⟨false, 1002000⟩ := by decide +kernel

theorem witness_SetCycles_settle : let p := compiled (base .running) .compiling true
    p.finisher.sheets = [] ++ held true true :: [] ∧ (held true true).settling = true ∧ (held true true).lastOfSet = true ∧
      p.finisher.state = .compiling ∧ p.finisher.disturbed = false ∧ p.episode.isOpen = false ∧ p.anyDoorOpen = false ∧
      p.feed.path ≠ .held := by
  decide +kernel

theorem witness_FinisherLimits :
    (let p := compiled (base .idle) .stapling false
     p.finisher.disturbed = false ∧ p.finisher.state = .stapling ∧ p.finisher.stapleLimit = some 1012000 ∧ p.feed.path = .idle) ∧
    (let p := compiled (base .running) .ejecting false
     p.finisher.disturbed = false ∧ p.finisher.state = .ejecting ∧ p.finisher.ejectLimit = some 1004000 ∧
       p.feed.path.takesJams = true) ∧
    (compiled (base .unconfigured) .stapling false).feed.path = .unconfigured := by decide +kernel

/-- R106, R119: a staple limit that expires in UNCONFIGURED is held over, and the record of the next PATH CLOSE carries its tick. -/
theorem test_held_over : let p := after .stapleLimitExpiry (compiled (base .unconfigured) .stapling false)
    p.map (fun q => (q.feed.path, q.episode.heldOver)) = some (.unconfigured, some 1012000) ∧
    (p.bind (after (.pathClose 2000000 []))).map (fun q => (q.feed.path, q.episode.records.map fun j => (j.kind, j.tick)))
      = some (.sweeping, [(.stapleFail, 1012000)]) := by decide +kernel

/-- RESUMABLE, its empty plan read through. -/
def planRead : Part := { base .resumable with planner := ⟨[], 1, true⟩ }

/-- A set of four sheets, as many as the tray holds, none of them its last; the last of them settling or not. -/
def crammed (p : Part) (state : SetState) (settling : Bool) : Part :=
  { p with
    finisher := { Finisher.reset with
      state, ident := some (1, 1), toStaple := true, sheets := .replicate 3 (held false false) ++ [held settling false] } }

/-- A settle expiry that fills the tray, of a set COMPILING and RETAINED; a RESUME of a set that fills it and of a closed one. -/
theorem witness_SetCycles_split : (∀ x ∈ [SetState.compiling, .retained],
      let p := crammed (base .running) x true
      p.finisher.sheets = .replicate 3 (held false false) ++ held true false :: [] ∧ p.finisher.state = x) ∧
    (∀ s, (crammed (base .running) .compiling s).fullUnclosed (crammed (base .running) .compiling s).finisher.sheets ∧
      (crammed planRead .retained s).fullUnclosed (crammed planRead .retained s).finisher.sheets) ∧
    (∀ p ∈ [crammed planRead .retained false, compiled planRead .retained false],
      p.canAccept ∧ p.feed.path = .resumable ∧ p.planner.readThrough = true ∧ p.clearance ∧ p.finisher.state = .retained ∧ p.finisher.disturbed = false ∧
        ∀ h ∈ p.finisher.sheets, h.settling = false) ∧
    (compiled planRead .retained false).finisher.closed = true := by
  refine ⟨by decide +kernel, ?_, by decide +kernel, by decide +kernel⟩
  intro s
  cases s <;>
    exact ⟨⟨by decide, rfl, rfl, by decide, fun ⟨_, _, _, x, h, _⟩ => absurd h (List.not_mem_nil), rfl⟩,
      ⟨by decide, rfl, rfl, by decide, fun ⟨_, _, _, x, h, _⟩ => absurd h (List.not_mem_nil), rfl⟩⟩

/-- 9.10: the compile of the fourth sheet splits the set, and so does the RESUME of a set that holds four. -/
theorem test_set_split : let told := fun q : Part => (q.finisher.state, q.finisher.skipped, q.finisher.split, q.finisher.sheets.length)
    (after .settleExpiry (crammed (base .running) .compiling true)).map told = some (.ejecting, true, true, 4) ∧
    (after (.resume 1000000 []) (crammed planRead .retained false)).map told = some (.ejecting, true, true, 4) := by decide +kernel

theorem witness_SetCycles_start : (let p := compiled (base .running) .compiling false
     p.finisher.state = .compiling ∧ p.finisher.closed = true ∧ p.finisher.disturbed = false ∧
       (∀ h ∈ p.finisher.sheets, h.settling = false) ∧ p.episode.isOpen = false ∧ p.anyDoorOpen = false) ∧
    (base .running).finisher.state = .empty := by decide +kernel

/-! ## Witnesses: the scheduler -/

/-- The page the scheduler takes next. -/
def next : NextPage := ⟨page, none, some .normal⟩

/-- The next page, and two reservations behind which a pick must wait. -/
def crowded (p : Part) : Part :=
  { p with
    tick := 2000000
    stations := (p.stations.set 1 { Station.reset with offset := 12 }).set 14 { Station.reset with offset := -5 }
    feed := { p.feed with merge := [⟨41, .feed, 2010000, 2029800⟩, ⟨43, .return, 2036000, 2055800⟩] } }

theorem witness_PickMade : let p := withPage (base .running)
    p.tableSound ∧ p.feed.path = .running ∧ p.nextUp = some next ∧ p.feed.hold = false ∧
      p.feed.exhausted = false ∧ next.front.cls = p.feed.cls ∧ (p.atTick 1000000).mayPick next ∧
      notAfter 1000000 (laterOf p.tick 1000000) = true ∧ p.judgeClosure.cycleReady = false ∧
      ({ p with feed := { p.feed with pickTimer := some 1000000 } } : Part).feed.pickTimer = some 1000000 := by decide +kernel

theorem witness_PickMade_tick : ((withPage (base .running)).atTick 1000000).picksAt next 1000000 := by
  have h : ((withPage (base .running)).atTick 1000000).pickTicks next = [1000000] := by decide +kernel
  simp only [Part.picksAt, h, List.forall_mem_cons]
  exact ⟨by simp, by decide +kernel, by decide +kernel, by simp⟩

/-- 1.11: a page whose tick is to come. -/
theorem witness_PickMade_armed : let p := crowded (withPage (base .running))
    p.tableSound ∧ p.nextUp = some next ∧ (p.atTick 2000000).mayPick next ∧
      (p.atTick 2000000).picksAt next 2046126 ∧ notAfter 2046126 (laterOf p.tick 2000000) = false := by
  have h : ((crowded (withPage (base .running))).atTick 2000000).pickTicks next = [2000000, 2020126, 2046126] := by decide +kernel
  refine ⟨by decide +kernel, by decide +kernel, by decide +kernel, ?_, by decide +kernel⟩
  simp only [Part.picksAt, h, List.forall_mem_cons]
  exact ⟨by simp, by decide +kernel, by decide +kernel, by decide +kernel, by decide +kernel, by simp⟩

/-- A page that waits for a pick to be confirmed. -/
theorem witness_PickMade_cancelled : let p := sending (withPage (base .running))
    let q : Part := { p with feed := { p.feed with unconfirmed := some 1 } }
    q.tableSound ∧ q.nextUp = some next ∧ ¬ (q.atTick 1000000).mayPick next ∧
      q.link.sending.isSome = true := by decide +kernel

/-- R53, R54: the head of the Reprint List first; at a set boundary the Priority Queue; a FRONT with the BACK behind it, and a FRONT
that waits for its BACK. -/
theorem test_next_up : let p := withPage (base .running)
    let front := { page with side := .front, id := 8 }
    let back := { page with side := .back, id := 9 }
    ({ p with planner := ⟨[⟨{ page with id := 5 }, .stranded⟩], 1, false⟩ } : Part).nextUp = some ⟨{ page with id := 5 }, none, none⟩ ∧
    ({ p with intake := { p.intake with priority := [front, back] } } : Part).nextUp = some ⟨front, some back, some .priority⟩ ∧
    ({ p with
        intake := { p.intake with priority := [front, back] }, feed := { p.feed with normalMark := false } } : Part).nextUp
      = some next ∧
    ({ p with intake := { p.intake with normal := [front] } } : Part).nextUp = none := by decide +kernel

theorem witness_FeedTimers :
    (let p : Part := { base .running with feed := { (base .running).feed with holdoff := some 1020000 } }
     p.feed.holdoff = some 1020000 ∧ p.feed.path = .running ∧ p.noPages) ∧
    (let p : Part := { base .starting with feed := { (base .starting).feed with ramp := some 1002000 } }
     p.feed.ramp = some 1002000 ∧ p.feed.path = .starting ∧ p.noPages ∧ p.feed.hold = false ∧ p.feed.exhausted = false) ∧
    (let p : Part := { base .draining with feed := { (base .draining).feed with runOn := some 1004000 } }
     p.feed.runOn = some 1004000 ∧ p.feed.path = .draining ∧ p.noPages) ∧
    (base .idle).feed.timersIdle := by
  refine ⟨by decide +kernel, by decide +kernel, by decide +kernel, rfl, rfl, rfl, rfl⟩

/-- A start, a RESIDUAL start and none; a return and none. -/
theorem witness_PathStartAndReturn : (withPage (base .idle)).feed.path = .idle ∧
    (withPage (base .idle)).nextUp.isSome = true ∧ (withPage (base .idle)).anyPaper = false ∧
    ({ base .idle with lines := ⟨quiet, quiet.set 31 true, .replicate 32 0⟩ } : Part).anyPaper = true ∧
    (base .idle).nextUp.isSome = false ∧ (withPage (base .draining)).feed.path = .draining ∧
    (withPage (base .draining)).nextUp = some next ∧ next.front.cls = (base .draining).feed.cls := by
  decide +kernel

/-! ## Witnesses: what every step keeps -/

theorem witness_LinkPairingKept : (sending (base .running)).link.paired := by
  exact ⟨rfl, by decide⟩

theorem witness_SheetTableKept : (tracking (base .running) .bin0 3 (some 5)).tableSound := by decide +kernel

theorem witness_CountersKept : (base .running).stats.sound := by
  intro g
  cases g <;> exact ⟨by decide +kernel, by decide +kernel⟩

/-- RUNNING with every drive on. -/
theorem witness_PathStateKept : ({ base .running with out := { Outputs.reset with
    enFeed := true, enProcess := true, enDuplex := true, enDelivery := true } } : Part).pathSound := by
  constructor <;> decide +kernel

theorem witness_CompileSetKept : (compiled (base .running) .stapling false).finisherSound := by
  constructor <;> decide +kernel

theorem witness_StationStateKept : (tracking (base .running) .bin0 3 (some 5)).stationsSound := by
  exact ⟨by decide +kernel, by decide +kernel, by decide +kernel⟩

theorem witness_ListsKept : (withPage (base .running)).planner.ordered ∧ (withPage (base .running)).withinPlaces ∧
    (withPage (base .running)).progressHeld ∧ (withPage (base .running)).jamsApart := by
  refine ⟨List.Pairwise.nil, ⟨by decide +kernel, by decide +kernel, by decide +kernel, by decide +kernel, by decide +kernel,
    by decide +kernel, by decide +kernel⟩, ?_, by decide +kernel⟩
  unfold Part.progressHeld
  decide +kernel

/-- One page waiting. -/
theorem witness_PagesAccounted : (withPage (base .running)).pagesSound := by
  constructor <;> first
    | decide +kernel | exact ⟨⟨by decide, .inl rfl⟩, trivial⟩ | exact ⟨trivial, List.Pairwise.nil⟩ | exact List.forall_mem_nil _

theorem witness_PurgeCountKept : ({ base .running with gate := ⟨126, false, 0⟩ } : Part).purgeSound := by
  constructor <;> decide +kernel

/-- Two sheets on the loop, as many as it takes. -/
theorem witness_DuplexLoopKept : ({ base .running with table := ⟨[twoSided 4 .first, { twoSided 4 .first with number := 2 }], 1⟩ } : Part).loopSound := by
  decide +kernel

/-- A FINAL sheet is the next at both gates, which rest. -/
theorem witness_GatesKept : (tracking (base .running) .bin0 3 none).gatesSound ∧
    (tracking (base .running) .bin0 3 none).nextAtExit (sheet .bin0 3) ∧
    (tracking (base .running) .bin0 3 none).nextAtPurge (sheet .bin0 3) := by
  have only : ∀ x ∈ (tracking (base .running) .bin0 3 none).table.sheets, x = sheet .bin0 3 := by decide +kernel
  refine ⟨?_, ?_, ?_⟩
  · constructor
    case exit => rintro - - x ⟨h, -⟩; rw [only x h]; rfl
    case purge => rintro - - x ⟨h, -⟩; rw [only x h]; rfl
    all_goals decide +kernel
  · simp only [Part.nextAtExit, Sheet.leads]; decide +kernel
  · simp only [Part.nextAtPurge]; decide +kernel

/-- Two reservations in order, and a step that leaves them. -/
theorem witness_MergeListKept : let p := tracking (base .running) .bin0 1 none
    let l : List Resv := [⟨1, .feed, 1010000, 1029800⟩, ⟨2, .return, 1040000, 1059800⟩]
    let q : Part := { p with feed := { p.feed with merge := l } }
    inLeadOrder 1000000 l ∧ nearLeads 1000000 l ∧ (l.map Resv.sheet).Nodup ∧
      (after (.statusRead 1000000 []) q).map (fun t => t.feed.merge) = some l := by decide +kernel

/-- A step that is one event, while a frame is being sent. -/
theorem witness_ConditionsNoticed : oneEvent [.hold 5 [0]] ∧ oneEvent [] ∧ (sending (base .running)).link.sending.isSome = true ∧
    (∃ t, step ⟨[.hold 5 [0]], sending (base .running)⟩ = .next t) ∧
    (∀ u b, ([Instr.hold 5 [0]]).head? ≠ some (.pathClose u b) ∧ ([Instr.hold 5 [0]]).head? ≠ some (.abandonJob u b)) ∧
    (sending (base .running)).jamsApart :=
  ⟨trivial, trivial, rfl, ⟨_, rfl⟩, by simp, by decide +kernel⟩

/-- The step of the invariants' witnesses answers a next state: every command does. -/
theorem witness_step : ∃ t, step ⟨[.statusRead 5 []], base .running⟩ = .next t := ⟨_, rfl⟩

theorem witness_OwnedByOneRequest : (∃ t, step ⟨[.hold 5 [0]], base .running⟩ = .next t) ∧
    ∀ u b x y, ([Instr.hold 5 [0]]).head? ≠ some (.hardwareReset x y) ∧ ([Instr.hold 5 [0]]).head? ≠ some (.frameDiscard u b) ∧
      ([Instr.hold 5 [0]]).head? ≠ some (.byteGapTimeout u b) := ⟨⟨_, rfl⟩, by simp⟩

/-! ## One step on a small machine -/

/-- 1.11: the station's learned offset is +37, and sheet 1 awaits it at tick 1,008,264. -/
def awaited : Part :=
  let p := tracking (base .running) .bin0 1 none
  { p with
    table := ⟨[{ sheet .bin0 1 with expect := some (expectAt .reset 300 1000000 1234 37), deadline := some 1009049 }], 1⟩
    stations := p.stations.set 14 { Station.reset with offset := 37 } }

/-- 1.11: the arrival at 1,008,700 is a DRIFT and leaves the offset 91. -/
theorem test_arrival_taken : (after (.stationLeadingEdge 1008700 14) awaited).map (fun q =>
    (q.feed.path, (q.stations[(14 : Fin 24)]).offset, (q.stations[(14 : Fin 24)]).history)) = some (.running, 91, [.drift]) := by
  decide +kernel

/-- 1.11: with the resynchronisation mark the offset is the raw error itself. -/
theorem test_arrival_resynchronises : (after (.stationLeadingEdge 1008700 14) { awaited with
    stations := awaited.stations.set 14 { Station.reset with offset := 37, resync := true } }).map (fun q =>
    ((q.stations[(14 : Fin 24)]).offset, (q.stations[(14 : Fin 24)]).resync)) = some (473, false) := by decide +kernel

/-- 1.11: the arrival at 1,007,400 is an EARLY ARRIVAL jam. -/
theorem test_arrival_early : (after (.stationLeadingEdge 1007400 14) awaited).map (fun q =>
    (q.episode.firstKind, q.episode.number)) = some (some .earlyArrival, 1) := by decide +kernel

/-- 1.11: a sheet of 2,970 dmm measured 19,890 ticks is accepted, and one measured 21,100 is a MULTIFEED jam. -/
theorem test_length_checked :
    (after (.stationTrailingEdge 1019890 1) (tracking (base .running) .bin0 1 (some 1))).map (fun q => q.episode.firstKind)
      = some none ∧
    (after (.stationTrailingEdge 1021100 1) (tracking (base .running) .bin0 1 (some 1))).map (fun q => q.episode.firstKind)
      = some (some .multifeed) := by decide +kernel

/-- R65: under the first station of MAIN a first-pass DUPLEX sheet whose RETURN already stands leaves it standing; a SIMPLEX sheet
gives up its FEED. -/
theorem test_reservation_ends :
    let p := tracking (base .draining) .bin0 3 (some 5)
    let x := { sheet .bin0 3 with covering := some 5 }
    (after (.stationTrailingEdge 1019890 5) { p with
      table := ⟨[{ x with kind := .duplex, pass := .first }], 1⟩
      feed := { p.feed with merge := [⟨1, .return, 1040000, 1059800⟩] } }).map (fun q => q.feed.merge)
      = some [⟨1, .return, 1040000, 1059800⟩] ∧
    (after (.stationTrailingEdge 1019890 5) { p with
      feed := { p.feed with merge := [⟨1, .feed, 1000000, 1019800⟩] } }).map (fun q => q.feed.merge) = some [] := by
  decide +kernel

/-- 1.11: the earliest allowed pick tick behind two reservations. -/
theorem test_pick_placed : (crowded (withPage (base .running))).pickTick next = some 2046126 := by decide +kernel

/-- R23, R60: the earliest tick allowed is taken, ahead of a reservation of either kind. -/
theorem test_pick_order : (let p := crowded (withPage (base .running))
    [ResvKind.return, .feed].map fun k =>
      ({ p with feed := { p.feed with merge := [⟨41, k, 2100000, 2119800⟩] } } : Part).pickTick next) =
    [some 2000000, some 2000000] := by decide +kernel

/-- 4.13: the third arrival is the second DRIFT, and sets the mark where auto-resync is ON. -/
theorem test_arrival_out_of_step : ([true, false].map fun auto =>
    (after (.stationLeadingEdge 1008747 14) { awaited with
      force := { desc with timing := { desc.timing with autoResync := auto } }
      table := ⟨[{ sheet .bin0 1 with expect := some (expectAt .reset 300 1000000 1234 73), deadline := some 1009085 }], 1⟩
      stations := awaited.stations.set 14 { Station.reset with offset := 73, history := [.onTime, .drift] } }).map fun q =>
        ((q.stations[(14 : Fin 24)]).offset, (q.stations[(14 : Fin 24)]).outOfStep, (q.stations[(14 : Fin 24)]).resync)) =
    [some (128, true, true), some (128, true, false)] := by decide +kernel

/-- 1.11: the set gap behind a stapled set whose last trailing edge came at 3,100,000. The way to FINISHER ENTRY is made 18,000 dmm
long and its offsets sum to −40. -/
theorem test_set_gap : (let p := compiled (base .running) .compiling false
    { p with
      tick := 2900000
      force := { desc with
        legs := desc.legs.set 5 (some ⟨[⟨5, 1000⟩, ⟨6, 9050⟩, ⟨7, 3000⟩], 0⟩)
        finisher := some ⟨6000, 20000, 8000, 400, 13, 14, 28, 29, 30⟩ }
      finisher := { p.finisher with sheets := [{ held false true with delivered := 3100000 }] }
      stations := p.stations.set 6 { Station.reset with offset := -40 } }).setGapTick
        { next with front := { page with set := 2, dest := 2 } } = some 2994440 := by decide +kernel

/-- 10.6: the PATH record read with clear. -/
theorem test_counter_read_clears : (let p := base .running
    after (.counterRead 1000000 [2, 0, 1]) { p with
      stats := { p.stats with path := #v[60000, 59201, 0, 640, 41, 0, 3, 0, 0, 0], pathSet := ⟨.narrow, 60000, true⟩ } }).map (fun q =>
        (q.stats.path.toList, q.stats.pathSet, q.link.sending.map fun x => x.frame.body.take 13)) =
    some ([0, 0, 0, 0, 0, 0, 0, 0, 0, 0], ⟨.narrow, 60000, false⟩,
      some [0, 2, 0, 0, 0, 0, 0xEA, 0x60, 1, 0, 0, 0xEA, 0x60]) := by decide +kernel

/-- 10.6: narrowing a group clamps its counters and finds station 5's arrivals at the new watermark. -/
theorem test_counter_width_narrows : (let p := base .idle
    after (.counterWidth 1000000 [0, 0, 0, 0, 0xC3, 0x50]) { p with
      stats := { p.stats with station := p.stats.station.set 5 #v[90000, 7, 0], stationSet := ⟨.wide, 200000, false⟩ } }).map (fun q =>
        ((q.stats.station[(5 : Fin 24)]).toList, q.stats.stationSet, q.notices.wmStation)) =
    some ([65535, 7, 0], ⟨.narrow, 50000, true⟩, some ⟨50000, 5, 0⟩) := by decide +kernel

/-- 10.6: a watermark above the NARROW saturation value is refused. -/
theorem test_counter_width_refused : (after (.counterWidth 1000000 [0, 0, 0, 1, 0x86, 0xA0]) (base .idle)).map (fun q =>
    (q.stats, q.link.sending)) = some (.reset, some ⟨⟨0x99, [3]⟩, true⟩) := by decide +kernel

/-- 12.3: a request with another body length is BAD LENGTH, and an unknown KIND is UNKNOWN KIND. -/
theorem test_unreadable : (after (.sweep 0 [0]) (base .held)).map (fun q => q.link.sending) = some (some ⟨⟨0x92, [2]⟩, true⟩) ∧
    (after (.unknownKind 0 0x60 []) (base .held)).map (fun q => q.link.sending) = some (some ⟨⟨0xE0, [1]⟩, true⟩) := by
  decide +kernel

end Sys2Proof.Tests
end

section
/-! PROOF. PLAN READ (R142): its owner's answer in each path state, and the request taken. -/

namespace Sys2Proof.Machine

/-- A body of one byte reads as that byte's number (12.7). -/
@[simp] theorem numAt_singleton (v : Byte) : numAt [v] 0 1 = v.toNat := by
  simp [numAt, beNat]

/-- A start index is taken below the length, and 0 of an empty list is (R142). -/
theorem indexTaken_toNat_iff {α : Type} (v : Byte) (l : List α) :
    indexTaken v.toNat l.length = true ↔ v.toNat < l.length ∨ (v = 0 ∧ l = []) := by
  simp [indexTaken, ← BitVec.toNat_inj]

/-- PLAN READ as the command that takes the request (R142). -/
theorem exec_planRead (t : Tick) (body : List Byte) (w : List Instr) (p : Part) :
    exec (.planRead t body) ⟨w, p⟩ = .next ⟨w, p.takeRequest t 0x13 body (ownerPlanRead body)⟩ := rfl

/-- A body of one byte passes the check of its length (R176). -/
theorem ownerPlanRead_singleton (v : Byte) (q : Part) : ownerPlanRead [v] q = q.answerPlanRead [v] := rfl

theorem ownerPlanRead_unconfigured (v : Byte) (q : Part) (h : q.feed.path = .unconfigured) :
    ownerPlanRead [v] q = q.refuse .notConfigured := by
  simp only [ownerPlanRead_singleton, Part.answerPlanRead, h]

theorem ownerPlanRead_wrongState (v : Byte) (q : Part) (hu : q.feed.path ≠ .unconfigured) (hr : q.feed.path ≠ .resumable) :
    ownerPlanRead [v] q = q.refuse .wrongState := by
  rw [ownerPlanRead_singleton]
  unfold Part.answerPlanRead
  dsimp only
  split
  · next h => exact absurd h hu
  · next h => exact absurd h hr
  · rfl

/-- In RESUMABLE the index decides between the entries and BAD VALUE (R142). -/
theorem ownerPlanRead_resumable (v : Byte) (q : Part) (h : q.feed.path = .resumable) :
    ownerPlanRead [v] q =
      if v.toNat < q.planner.list.length ∨ (v = 0 ∧ q.planner.list = []) then
        ⟨q.modPlanner fun x => { x with
            readThrough := x.readThrough || decide (v.toNat + (q.planFrom v.toNat).length = q.planner.list.length) },
          .done, q.planData v.toNat⟩
      else q.refuse .badValue := by
  simp only [ownerPlanRead_singleton, Part.answerPlanRead, h, numAt_singleton, indexTaken_toNat_iff, beq_eq_decide]

/-- Settles O14, by the owner's answer in each path state: a refusal changes nothing but the Link Unit, and a read taken the
read-through mark besides. -/
theorem planReadTaken : Obligations.PlanReadTaken := by
  intro w p t v hp l got
  refine ⟨fun hu => ?unconfigured, fun hu hr => ?wrongState, fun hr => ?resumable⟩ <;> rw [exec_planRead]
  case unconfigured =>
    rw [p.takeRequest_unchanged t 0x13 [v] _ hp .notConfigured [] (ownerPlanRead_unconfigured v _ hu)]
    rfl
  case wrongState =>
    rw [p.takeRequest_unchanged t 0x13 [v] _ hp .wrongState [] (ownerPlanRead_wrongState v _ hu hr)]
    rfl
  case resumable =>
    have howner := ownerPlanRead_resumable v (p.found t 0x13 [v]) hr
    by_cases hi : v.toNat < l.length ∨ (v = 0 ∧ l = [])
    · have hread := howner.trans (if_pos hi)
      rw [if_pos hi, p.takeRequest_owner t 0x13 [v] _ hp (by rw [hread]; rfl), hread]
      rfl
    · rw [if_neg hi, p.takeRequest_unchanged t 0x13 [v] _ hp .badValue [] (howner.trans (if_neg hi))]
      rfl

end Sys2Proof.Machine
end

section
/-! PROOF. COUNTER READ and COUNTER WIDTH (R162, R164): their bodies read back, the settings and records each leaves, and the
requests taken. -/

namespace Sys2Proof.Machine

/-! ## The bodies (12.7) -/

@[simp] theorem numAt_cons_head (v : Byte) (b : List Byte) : numAt (v :: b) 0 1 = v.toNat := by
  simp [numAt, beNat]

@[simp] theorem numAt_cons_succ (v : Byte) (b : List Byte) (i n : Nat) : numAt (v :: b) (i + 1) n = numAt b i n := rfl

theorem numAt_four (m : Nat) (h : m < 4294967296) : numAt (four m) 0 4 = m := by
  simp [numAt, beNat, four]
  omega

/-- A group's code in a byte names the group. -/
theorem groupAt_code (g : Group) : groupAt (BitVec.ofNat 8 g.code).toNat = some g := by cases g <;> rfl

/-- A width's code in a byte names the width. -/
theorem widthAt_code (x : Width) : widthAt (BitVec.ofNat 8 x.code).toNat = some x := by cases x <;> rfl

theorem groupAt_eq_none (v : Nat) (h : 3 ≤ v) : groupAt v = none := by
  obtain ⟨k, rfl⟩ := Nat.exists_eq_add_of_le' h
  rfl

theorem widthAt_eq_none (v : Nat) (h : 2 ≤ v) : widthAt v = none := by
  obtain ⟨k, rfl⟩ := Nat.exists_eq_add_of_le' h
  rfl

/-- Of a group that is one, a COUNTER READ's body names a record where its index is below the group's size (R164). -/
theorem readCounter_of_group (b : List Byte) (g : Group) (h : groupAt (numAt b 0 1) = some g) :
    readCounter b = if numAt b 1 1 < groupSize g then (flagOf (numAt b 2 1)).map (g, numAt b 1 1, ·) else none := by
  simp only [readCounter, h, within, Nat.zero_le, true_and, Option.bind_eq_bind, Option.bind_some, Option.map_eq_bind]
  cases g <;> simp only [groupSize, Nat.lt_succ_iff] <;> split <;> rfl

theorem readCounter_badGroup (a : Byte) (b : List Byte) (h : 3 ≤ a.toNat) : readCounter (a :: b) = none := by
  simp [readCounter, groupAt_eq_none _ h]

theorem readCounter_counterBody (g : Group) (i : Nat) (c : Byte) (hi : i < 256) :
    readCounter (counterBody g i c) = if i < groupSize g then (flagOf c.toNat).map (g, i, ·) else none := by
  have hgroup : groupAt (numAt (counterBody g i c) 0 1) = some g := by simp only [counterBody, numAt_cons_head, groupAt_code]
  have hindex : numAt (counterBody g i c) 1 1 = i := by simpa [counterBody] using hi
  have hflag : numAt (counterBody g i c) 2 1 = c.toNat := by simp [counterBody]
  rw [readCounter_of_group _ g hgroup, hindex, hflag]

/-- An index in range is one a byte holds. -/
theorem readCounter_inRange (g : Group) (i : Nat) (c : Byte) (hi : i < groupSize g) :
    readCounter (counterBody g i c) = (flagOf c.toNat).map (g, i, ·) := by
  have hsize : groupSize g ≤ 256 := by cases g <;> decide
  rw [readCounter_counterBody g i c (hi.trans_le hsize), if_pos hi]

/-- Of a group and a width that are ones, a COUNTER WIDTH's body reads back where its watermark is at most the saturation value
(R162). -/
theorem readWidth_of_codes (b : List Byte) (g : Group) (x : Width) (hg : groupAt (numAt b 0 1) = some g)
    (hx : widthAt (numAt b 1 1) = some x) :
    readWidth b = if numAt b 2 4 ≤ x.limit then some (g, x, numAt b 2 4) else none := by
  simp only [readWidth, hg, hx, within, Nat.zero_le, true_and, Option.bind_eq_bind, Option.bind_some]
  cases x <;> exact apply_ite (Option.bind · fun m => some (g, _, m)) _ _ _

/-- A group or a width that is none makes the body one that does not read. -/
theorem readWidth_badCode (a c : Byte) (r : List Byte) (h : 3 ≤ a.toNat ∨ 2 ≤ c.toNat) : readWidth (a :: c :: r) = none := by
  rcases h with ha | hc
  · simp [readWidth, groupAt_eq_none _ ha]
  · simp [readWidth, widthAt_eq_none _ hc]

theorem readWidth_body (g : Group) (x : Width) (m : Nat) (hm : m < 4294967296) :
    readWidth (one g.code ++ one x.code ++ four m) = if m ≤ x.limit then some (g, x, m) else none := by
  have hgroup : groupAt (numAt (one g.code ++ one x.code ++ four m) 0 1) = some g :=
    (congrArg groupAt (numAt_cons_head ..)).trans (groupAt_code g)
  have hwidth : widthAt (numAt (one g.code ++ one x.code ++ four m) 1 1) = some x :=
    (congrArg widthAt (numAt_cons_head ..)).trans (widthAt_code x)
  have hmark : numAt (one g.code ++ one x.code ++ four m) 2 4 = m := numAt_four m hm
  rw [readWidth_of_codes _ g x hgroup hwidth, hmark]

/-! ## Settings and records (R160, R161) -/

@[simp] theorem Stats.groupSet_setGroup (x : Stats) (g h : Group) (y : GroupSet) :
    (x.setGroup g y).groupSet h = if h = g then y else x.groupSet h := by
  cases g <;> cases h <;> rfl

@[simp] theorem Stats.records_setGroup (x : Stats) (g h : Group) (y : GroupSet) : (x.setGroup g y).records h = x.records h := by
  cases g <;> cases h <;> rfl

@[simp] theorem Stats.groupSet_cleared (x : Stats) (g h : Group) (i : Nat) : (x.cleared g i).groupSet h = x.groupSet h := by
  cases g <;> cases h <;> rfl

@[simp] theorem Stats.groupSet_narrowed (x : Stats) (g h : Group) (w : Width) : (x.narrowed g w).groupSet h = x.groupSet h := by
  cases g <;> cases h <;> rfl

/-- A record of a table of records put to 0 is that record of the list with its counters put to 0. -/
theorem toList_map_set_replicate {n k : Nat} (v : Vector (Vector Nat k) n) (i : Nat) (hi : i < n) :
    (v.set i (.replicate k 0)).toList.map Vector.toList = (v.toList.map Vector.toList).modify i (List.map fun _ => 0) := by
  apply List.ext_getElem
  · simp
  · intro j hj _
    have hj : j < n := by simpa using hj
    by_cases h : i = j
    · subst h
      simp [List.map_const']
    · simp [h]

/-- Clearing puts the counters of the record named to 0 (R164). -/
theorem Stats.records_cleared_same (x : Stats) (g : Group) (i : Nat) (hi : i < groupSize g) :
    (x.cleared g i).records g = (x.records g).modify i (List.map fun _ => 0) := by
  cases g with
  | station => simpa [Stats.cleared, Stats.records, show i < 24 from hi] using toList_map_set_replicate x.station i hi
  | tray => simpa [Stats.cleared, Stats.records, show i < 5 from hi] using toList_map_set_replicate x.tray i hi
  | path =>
    obtain rfl : i = 0 := Nat.lt_one_iff.mp hi
    simp [Stats.cleared, Stats.records, List.map_const']

theorem Stats.records_cleared_other (x : Stats) (g h : Group) (i : Nat) (e : h ≠ g) :
    (x.cleared g i).records h = x.records h := by
  revert e
  cases g <;> cases h <;> simp [Stats.cleared, Stats.records]

theorem Stats.records_cleared (x : Stats) (g h : Group) (i : Nat) (hi : i < groupSize g) :
    (x.cleared g i).records h = if h = g then (x.records g).modify i (List.map fun _ => 0) else x.records h := by
  split
  · next e => rw [e, x.records_cleared_same g i hi]
  · next e => exact x.records_cleared_other g h i e

/-- Narrowing holds every counter of the one group to the saturation value (R162). -/
theorem Stats.records_narrowed (x : Stats) (g h : Group) (w : Width) :
    (x.narrowed g w).records h = if h = g then (x.records g).map (List.map (min w.limit)) else x.records h := by
  cases g <;> cases h <;> simp [Stats.narrowed, Stats.records, Vector.toList_map, Function.comp_def]

/-- What COUNTER WIDTH makes of the counters and settings, before the condition is judged (R162). -/
def Stats.withWidth (x : Stats) (g : Group) (w : Width) (m : Nat) : Stats :=
  (x.narrowed g w).setGroup g { x.groupSet g with width := w, watermark := m }

theorem Stats.groupSet_withWidth (x : Stats) (g h : Group) (w : Width) (m : Nat) :
    (x.withWidth g w m).groupSet h = if h = g then { x.groupSet g with width := w, watermark := m } else x.groupSet h := by
  rw [Stats.withWidth, Stats.groupSet_setGroup, Stats.groupSet_narrowed]

theorem Stats.records_withWidth (x : Stats) (g h : Group) (w : Width) (m : Nat) :
    (x.withWidth g w m).records h = if h = g then (x.records g).map (List.map (min w.limit)) else x.records h := by
  rw [Stats.withWidth, Stats.records_setGroup, Stats.records_narrowed]

/-- A group's condition is active at a watermark other than 0 that some counter has reached (R163). -/
theorem Stats.reached_iff (x : Stats) (g : Group) : x.reached g = true ↔
    (x.groupSet g).watermark ≠ 0 ∧ ∃ r ∈ x.records g, ∃ c ∈ r, (x.groupSet g).watermark ≤ c := by
  simp [Stats.reached]

/-! ## The condition judged afresh (R163) -/

/-- The Statistics Unit with a group's condition judged afresh. -/
def Stats.judged (x : Stats) (g : Group) : Stats := x.setGroup g { x.groupSet g with active := x.reached g }

/-- Judging moves the group's condition and the notices alone. -/
theorem Part.judgeWatermark_eq (s : Part) (g : Group) (record counter : Nat) :
    s.judgeWatermark g record counter =
      { s with notices := (s.judgeWatermark g record counter).notices, stats := s.stats.judged g } := by
  unfold Part.judgeWatermark
  dsimp only
  split <;> rfl

@[simp] theorem Stats.records_judged (x : Stats) (g h : Group) : (x.judged g).records h = x.records h :=
  x.records_setGroup g h _

theorem Stats.groupSet_judged_other (x : Stats) (g h : Group) (e : h ≠ g) : (x.judged g).groupSet h = x.groupSet h := by
  rw [Stats.judged, Stats.groupSet_setGroup, if_neg e]

@[simp] theorem Stats.groupSet_judged_width (x : Stats) (g h : Group) :
    ((x.judged g).groupSet h).width = (x.groupSet h).width := by
  cases g <;> cases h <;> rfl

@[simp] theorem Stats.groupSet_judged_watermark (x : Stats) (g h : Group) :
    ((x.judged g).groupSet h).watermark = (x.groupSet h).watermark := by
  cases g <;> cases h <;> rfl

/-- Once judged, a group's condition is the one R163 spells. -/
theorem Stats.judged_active_iff (x : Stats) (g : Group) : ((x.judged g).groupSet g).active = true ↔
    (x.groupSet g).watermark ≠ 0 ∧ ∃ r ∈ x.records g, ∃ c ∈ r, (x.groupSet g).watermark ≤ c := by
  rw [← x.reached_iff g, Stats.judged, Stats.groupSet_setGroup, if_pos rfl]

/-- A request whose owner changes the counters and judges a group leaves the part as it was but for the tick, the Link Unit, the
notices and the Statistics Unit. -/
theorem Part.takeRequest_judged (p : Part) (t : Tick) (kind : Byte) (body : List Byte) (owner : Part → Answer) (hp : p.canAccept)
    (f : Stats → Stats) (g : Group) (record counter : Nat) (data : List Byte)
    (h : owner (p.found t kind body) = ⟨((p.found t kind body).modStats f).judgeWatermark g record counter, .done, data⟩) :
    let q := p.takeRequest t kind body owner
    p.repliedTo t kind body (0x00 :: data) q ∧ p.sameButReports q ∧ q.stats = (f p.stats).judged g := by
  have hq := p.takeRequest_owner t kind body owner hp (by rw [h, Part.judgeWatermark_eq]; rfl)
  rw [h, Part.judgeWatermark_eq] at hq
  intro q
  rw [show q = _ from hq]
  exact ⟨⟨rfl, rfl, rfl, rfl, rfl, rfl⟩, rfl, rfl⟩

/-! ## COUNTER READ (R164) -/

/-- COUNTER READ as the command that takes the request. -/
theorem exec_counterRead (t : Tick) (body : List Byte) (w : List Instr) (p : Part) :
    exec (.counterRead t body) ⟨w, p⟩ = .next ⟨w, p.takeRequest t 0x18 body (ownerCounterRead body)⟩ := rfl

/-- A body of three bytes is the owner's to read. -/
theorem ownerCounterRead_three (b : List Byte) (q : Part) (hl : b.length = 3) :
    ownerCounterRead b q = q.answerCounterRead b := by
  simp [ownerCounterRead, Part.checked, lengthIs, hl]

/-- A group or an index out of range is refused. -/
theorem ownerCounterRead_badValue (b : List Byte) (q : Part) (hl : b.length = 3) (h : readCounter b = none) :
    ownerCounterRead b q = q.refuse .badValue := by
  rw [ownerCounterRead_three b q hl]
  simp only [Part.answerCounterRead, h]

/-- With the clear flag clear the record is answered and the part left alone. -/
theorem ownerCounterRead_keep (b : List Byte) (q : Part) (hl : b.length = 3) (g : Group) (i : Nat)
    (h : readCounter b = some (g, i, false)) : ownerCounterRead b q = ⟨q, .done, q.counterData g i⟩ := by
  rw [ownerCounterRead_three b q hl]
  simp [Part.answerCounterRead, h]

/-- With the clear flag set the same record is answered, then cleared and its group judged. -/
theorem ownerCounterRead_clear (b : List Byte) (q : Part) (hl : b.length = 3) (g : Group) (i : Nat)
    (h : readCounter b = some (g, i, true)) : ownerCounterRead b q =
      ⟨(q.modStats fun x => x.cleared g i).judgeWatermark g i 0, .done, q.counterData g i⟩ := by
  rw [ownerCounterRead_three b q hl]
  simp [Part.answerCounterRead, h]

/-- The reply's bytes are the result code before the record's data. -/
theorem counterReply_eq (p : Part) (g : Group) (i : Nat) : counterReply p g i = 0x00 :: p.counterData g i := by
  simp [counterReply, Part.counterData, Stats.record, List.getD]

theorem counterRead_refused (w : List Instr) (p : Part) (t : Tick) (b : List Byte) (hp : p.canAccept) (hl : b.length = 3)
    (h : readCounter b = none) : exec (.counterRead t b) ⟨w, p⟩ = .next ⟨w, p.answered t 0x18 b [0x03]⟩ := by
  rw [exec_counterRead, p.takeRequest_unchanged t 0x18 b _ hp .badValue [] (ownerCounterRead_badValue b _ hl h)]
  rfl

/-- A record read and kept (R164). -/
theorem counterRead_keeps (w : List Instr) (p : Part) (t : Tick) (b : List Byte) (hp : p.canAccept) (hl : b.length = 3) (g : Group)
    (i : Nat) (h : readCounter b = some (g, i, false)) :
    exec (.counterRead t b) ⟨w, p⟩ = .next ⟨w, p.answered t 0x18 b (counterReply p g i)⟩ := by
  rw [exec_counterRead, p.takeRequest_unchanged t 0x18 b _ hp .done _ (ownerCounterRead_keep b _ hl g i h), counterReply_eq]
  rfl

/-- A record cleared (R164): the reply is the record as it was, and its group is judged after. -/
theorem counterRead_clears (w : List Instr) (p : Part) (t : Tick) (b : List Byte) (hp : p.canAccept) (hl : b.length = 3) (g : Group)
    (i : Nat) (h : readCounter b = some (g, i, true)) :
    Completes (.counterRead t b) ⟨w, p⟩ fun q =>
      p.repliedTo t 0x18 b (counterReply p g i) q ∧ p.sameButReports q ∧ q.stats = (p.stats.cleared g i).judged g := by
  obtain ⟨hreply, hsame, hstats⟩ := p.takeRequest_judged t 0x18 b _ hp _ g i 0 _ (ownerCounterRead_clear b _ hl g i h)
  rw [counterReply_eq]
  exact ⟨_, exec_counterRead .., rfl, hreply, hsame, hstats⟩

/-! ## COUNTER WIDTH (R162) -/

/-- COUNTER WIDTH as the command that takes the request. -/
theorem exec_counterWidth (t : Tick) (body : List Byte) (w : List Instr) (p : Part) :
    exec (.counterWidth t body) ⟨w, p⟩ = .next ⟨w, p.takeRequest t 0x19 body (ownerCounterWidth body)⟩ := rfl

/-- A body of six bytes is the owner's to read. -/
theorem ownerCounterWidth_six (b : List Byte) (q : Part) (hl : b.length = 6) :
    ownerCounterWidth b q = q.answerCounterWidth b := by
  simp [ownerCounterWidth, Part.checked, lengthIs, hl]

theorem ownerCounterWidth_badValue (b : List Byte) (q : Part) (hl : b.length = 6) (h : readWidth b = none) :
    ownerCounterWidth b q = q.refuse .badValue := by
  rw [ownerCounterWidth_six b q hl]
  simp only [Part.answerCounterWidth, h]

theorem ownerCounterWidth_taken (b : List Byte) (q : Part) (hl : b.length = 6) (g : Group) (x : Width) (m : Nat)
    (h : readWidth b = some (g, x, m)) : ownerCounterWidth b q = (q.setWidth g x m).done := by
  rw [ownerCounterWidth_six b q hl]
  simp only [Part.answerCounterWidth, h]

/-- Taking the request is a change of the counters and settings, and the group judged. -/
theorem Part.setWidth_eq (q : Part) (g : Group) (x : Width) (m : Nat) :
    q.setWidth g x m = (q.modStats fun y => y.withWidth g x m).judgeWatermark g
      ((q.stats.withWidth g x m).firstReached g m).1 ((q.stats.withWidth g x m).firstReached g m).2 := rfl

theorem counterWidth_refused (w : List Instr) (p : Part) (t : Tick) (b : List Byte) (hp : p.canAccept) (hl : b.length = 6)
    (h : readWidth b = none) : exec (.counterWidth t b) ⟨w, p⟩ = .next ⟨w, p.answered t 0x19 b [0x03]⟩ := by
  rw [exec_counterWidth, p.takeRequest_unchanged t 0x19 b _ hp .badValue [] (ownerCounterWidth_badValue b _ hl h)]
  rfl

/-- A width and a watermark taken (R162). -/
theorem counterWidth_sets (w : List Instr) (p : Part) (t : Tick) (hp : p.canAccept) (b : List Byte) (hl : b.length = 6) (g : Group)
    (x : Width) (m : Nat) (h : readWidth b = some (g, x, m)) :
    Completes (.counterWidth t b) ⟨w, p⟩ fun q =>
      p.repliedTo t 0x19 b [0x00] q ∧ p.sameButReports q ∧ q.stats = (p.stats.withWidth g x m).judged g := by
  obtain ⟨hreply, hsame, hstats⟩ := p.takeRequest_judged t 0x19 b _ hp _ g _ _ []
    ((ownerCounterWidth_taken b _ hl g x m h).trans (congrArg Part.done (Part.setWidth_eq ..)))
  exact ⟨_, exec_counterWidth .., rfl, hreply, hsame, hstats⟩

/-! ## The obligation -/

/-- Settles O17: each body is read back, a refusal changes nothing but the Link Unit, and a request taken leaves the counters
cleared or narrowed and the group judged. -/
theorem countersReadAndSet : Obligations.CountersReadAndSet := by
  refine ⟨fun w p t g i hp => ⟨fun hi => ⟨?keep, ?clear⟩, fun c hi hb => ?index, fun a c d ha => ?group⟩,
    fun w p t hp => ⟨fun a c r hr h => ?code, fun g x m hm => ?width⟩⟩
  case keep => exact counterRead_keeps w p t _ hp rfl g i (readCounter_inRange g i 0x00 hi)
  case clear =>
    obtain ⟨s, hexec, hw, hreply, hsame, hstats⟩ := counterRead_clears w p t _ hp rfl g i (readCounter_inRange g i 0x01 hi)
    refine ⟨s, hexec, hw, hreply, hsame, fun h => ?_, fun h => ?_, ?_⟩ <;> rw [hstats]
    · rw [Stats.records_judged, Stats.records_cleared _ _ _ _ hi]
    · simp
    · simpa using (p.stats.cleared g i).judged_active_iff g
  case index =>
    exact counterRead_refused w p t _ hp rfl
      ((readCounter_counterBody g i c hb).trans (if_neg (Nat.not_lt.mpr hi)))
  case group => exact counterRead_refused w p t _ hp rfl (readCounter_badGroup a _ ha)
  case code => exact counterWidth_refused w p t _ hp (by simp [hr]) (readWidth_badCode a c r h)
  case width =>
    have hread := readWidth_body g x m hm
    intro b
    split
    · next hle =>
      rw [if_pos hle] at hread
      obtain ⟨s, hexec, hw, hreply, hsame, hstats⟩ := counterWidth_sets w p t hp b rfl g x m hread
      refine ⟨s, hexec, hw, hreply, hsame, ?_, ?_, fun h => ?_, fun h hg => ?_, ?_⟩ <;> rw [hstats]
      · simp [Stats.groupSet_withWidth]
      · simp [Stats.groupSet_withWidth]
      · rw [Stats.records_judged, Stats.records_withWidth]
      · rw [Stats.groupSet_judged_other _ _ _ hg, Stats.groupSet_withWidth, if_neg hg]
      · simpa [Stats.groupSet_withWidth] using (p.stats.withWidth g x m).judged_active_iff g
    · next hlt => exact counterWidth_refused w p t b hp rfl (hread.trans (if_neg hlt))

end Sys2Proof.Machine
end

