-- ==== Sys2Proof/Proofs/Refutations.lean ====
section
/-! PROOF. A configured part for counterexamples, and the diverters' invariant (R83 to R86) refuted: it holds the HALTING path to
sheets RUNNING OUT or STRANDED, and a RUNNING OUT sheet that passes REGISTRATION without its image is spoiled there (R95, R97). -/

namespace Sys2Proof.Machine

/-- The stations of a description with one station to each tray, to INSERT and to DUPLEX. -/
def walkStations : Vector (Option StationDef) 24 :=
  #v[some ⟨0, .plain, 0, .feed, none⟩, some ⟨1, .plain, 0, .feed, none⟩, some ⟨2, .plain, 0, .feed, none⟩,
    some ⟨3, .plain, 0, .feed, none⟩, some ⟨4, .plain, 0, .feed, none⟩, some ⟨5, .registration, 0, .process, none⟩,
    some ⟨6, .exit, 0, .process, some 0⟩, some ⟨7, .plain, 0, .duplex, none⟩, some ⟨8, .purgeGate, 0, .delivery, some 1⟩,
    some ⟨9, .binEntry0, 0, .delivery, none⟩, some ⟨10, .binEntry1, 0, .delivery, none⟩,
    some ⟨11, .finisherEntry, 0, .delivery, none⟩, some ⟨12, .purgeEntry, 0, .delivery, none⟩, none, none, none, none, none, none,
    none, none, none, none, none]

/-- A path description that passes the six checks (R15). -/
def walkDesc : Desc where
  stations := walkStations
  legs := #v[some ⟨[⟨0, 500⟩], 500⟩, some ⟨[⟨1, 500⟩], 500⟩, some ⟨[⟨2, 500⟩], 500⟩, some ⟨[⟨3, 500⟩], 500⟩,
    some ⟨[⟨4, 500⟩], 500⟩, some ⟨[⟨5, 1000⟩, ⟨6, 1000⟩], 0⟩, some ⟨[⟨7, 1000⟩], 1000⟩, some ⟨[⟨8, 1000⟩, ⟨9, 1000⟩], 0⟩,
    some ⟨[⟨8, 1000⟩, ⟨10, 1000⟩], 0⟩, some ⟨[⟨8, 1000⟩, ⟨11, 1000⟩], 0⟩, some ⟨[⟨8, 1000⟩, ⟨12, 1000⟩], 0⟩]
  drive := some ⟨200, 300, 400, 2000, 4000, 6000, 2, 3, 4, 5, 6, 7⟩
  trays := #v[some ⟨8, 13, 14, 1⟩, some ⟨9, 15, 16, 1⟩, some ⟨10, 17, 18, 1⟩, some ⟨11, 19, 20, 1⟩, some ⟨12, 21, 22, 1⟩]
  bins := #v[some 23, some 24]
  purge := some ⟨25, 150⟩
  doors := #v[some ⟨26, 255, true⟩, none, none, none, none, none, none, none]
  timing := .reset
  capacity := 4
  finisher := some ⟨1000, 12000, 2000, 400, 13, 14, 27, 28, 29⟩
  inputs := .replicate 32 ⟨true, 3⟩
  restHigh := .replicate 24 false

theorem walkDesc_badPath : walkDesc.badPath = none := by decide +kernel

/-- A configured part at tick 0 with every line low, in a path state. -/
def walkPart (path : PathState) : Part :=
  { Part.reset .baud115200 (.replicate 32 false) with
    stored := walkDesc, force := walkDesc, feed := { Feed.reset with path, nextSheet := 2 } }

/-- A SIMPLEX page whose image is not ready. -/
def walkPage : Page := ⟨7, 1, 1, .simplex, false, true, false, false, false, false, 0, 2970, 0, 0, false, some 1⟩

/-- Sheet 1 from TRAY0 to BIN0, awaited at REGISTRATION. -/
def walkSheet (cond : Condition) : Sheet where
  number := 1
  source := 0
  kind := .simplex
  front := some walkPage
  back := none
  blankBack := false
  job := 1
  set := 1
  firstOfSet := true
  lastOfSet := false
  staple := false
  media := 2970
  cls := 0
  dest := .bin0
  pass := .final
  itinerary := walkDesc.itinerary .simplex 0 .bin0
  index := 1
  lastPassed := some 0
  attempts := 1
  anchor := 0
  expect := some (expectAt .reset 200 0 1500 0)
  deadline := none
  covering := none
  frontSide := .called
  backSide := .none
  cond := cond
  released := false

/-- An invariant fails where a command takes a part that has it to one that does not. -/
theorem not_kept_of {inv : Part → Prop} (c : Instr) (p : Part) (q : State) (hp : inv p) (hq : exec c ⟨[], p⟩ = .next q)
    (hn : ¬ inv q.part) : ¬ keptByEveryStep inv := fun h => hn (h ⟨[c], p⟩ q hp hq)

/-- HALTING with one sheet RUNNING OUT that still awaits REGISTRATION. -/
def haltingPart : Part := { walkPart .halting with table := ⟨[walkSheet .runningOut], 1⟩ }

theorem haltingPart_gatesSound : haltingPart.gatesSound := by
  have only : ∀ x ∈ haltingPart.table.sheets, x = walkSheet .runningOut := by simp [haltingPart]
  constructor
  case exit => rintro - - x ⟨h, -⟩; rw [only x h]; rfl
  case purge => rintro - - x ⟨h, -⟩; rw [only x h]; rfl
  all_goals decide +kernel

/-- Refutes O57: in HALTING a RUNNING OUT sheet arrives at REGISTRATION with its image not ready, and becomes PURGING, which the
invariant's clause about HALTING excludes. -/
theorem not_gatesKept : ¬ Obligations.GatesKept := by
  refine not_kept_of (.stationLeadingEdge 15000 5) haltingPart _ haltingPart_gatesSound rfl fun h => ?_
  exact absurd h.halting (by decide +kernel)

end Sys2Proof.Machine
end

