-- ==== Sys2Proof/Proofs/Moves.lean ====
section
/-! PROOF. The moves a step is made of. `Move` lists, once, the smallest changes of the part that keep what the part must keep,
each with the blocks it can change and the conditions it is made under; `Moves` strings them together. Every operation of the
model is such a string (MovesShared, MovesPath, MovesStep), so an invariant is shown by one look at each move. -/

namespace Sys2Proof.Machine

/-! ## What a tame change of a block leaves alone -/

/-- A page record but for its image-ready flag. -/
def Page.core (p : Page) : Page := { p with ready := false }

/-- A sheet record but for what tracking and imaging move. -/
def Sheet.core (x : Sheet) : Sheet :=
  { x with
    front := x.front.map Page.core, back := x.back.map Page.core, pass := .first, index := 0, lastPassed := none, attempts := 0
    anchor := 0, expect := none, deadline := none, covering := none, frontSide := .none, backSide := .none }

/-- A change of a sheet record that tracking or imaging makes: a FINAL pass stays FINAL. -/
def Sheet.Tame (g : Sheet → Sheet) : Prop := ∀ x, (g x).core = x.core ∧ (x.pass = .final → (g x).pass = .final)

/-- The Feed Scheduler but for class, selector, marks and the unconfirmed pick. -/
def Feed.core (f : Feed) : Feed :=
  { f with
    cls := 0, selector := .normal, normalMark := false, priorityMark := false, lastBound := none, lastJobNormal := none
    lastJobPriority := none, unconfirmed := none }

/-- The outputs but for the two diverters. -/
def Outputs.core (o : Outputs) : Outputs := { o with exitGate := false, purgeGate := false }

/-- The Episode Unit but for the areas, the sweep-barred mark and the expiry held over. -/
def Episode.core (e : Episode) : Episode := { e with areas := 0, barred := false, heldOver := none }

/-- A held sheet but for its settling mark. -/
def Held.core (h : Held) : Held := { h with settling := false }

/-- The Compile Set but for its flags and its sheets' settling marks. -/
def Finisher.core (f : Finisher) : Finisher :=
  { f with
    toStaple := false, closed := false, stapled := false, skipped := false, split := false, sheets := f.sheets.map Held.core }

/-- A station's state `y` is what `x` becomes by a change that learns nothing: its covering entry goes or names the sheet it
named. -/
def Station.Tame (x y : Station) : Prop :=
  y.offset = x.offset ∧ y.history = x.history ∧ y.outOfStep = x.outOfStep ∧ y.resync = x.resync ∧
    (y.cover = none ∨ y.cover.map Cover.sheet = x.cover.map Cover.sheet)

/-- A change of the Dry-Run Generator that keeps its flag and its first sheet number. -/
def Dry.Tame (g : Dry → Dry) : Prop := ∀ d, (g d).on = d.on ∧ (g d).firstSheet = d.firstSheet

/-- A change of the Link Unit that leaves the serial rate and the frame being sent and raises no LINK FAULT. -/
def Link.Tame (g : Link → Link) : Prop :=
  ∀ l, (g l).sending = l.sending ∧ ((g l).fault = true → l.fault = true) ∧ (g l).rate = l.rate

/-- A change of the Link Unit that leaves the receive queue. -/
def Link.KeepsQueue (g : Link → Link) : Prop := ∀ l, (g l).rxQueue = l.rxQueue

/-- A change of the image calls that keeps the queue within its places (R92). -/
def Calls.Tame (g : Calls → Calls) : Prop := ∀ c, c.queue.length ≤ 8 → (g c).queue.length ≤ 8

/-- A change of the notices by which some are pending no longer. -/
def Notices.Taken (g : Notices → Notices) : Prop :=
  ∀ n, (g n).jams.Sublist n.jams ∧ ∀ i : Fin 8, (g n).progress[i] = true → n.progress[i] = true

/-- An edit of the stored description as a definition request makes it: legs within their steps, a window, and no purge capacity
below the purge count (R5, R8, R10). -/
structure Desc.Edit (count : Nat) (g : Desc → Desc) : Prop where
  legs : ∀ d, d.legsInRange → (g d).legsInRange
  window : ∀ d, 1 ≤ d.timing.window → 1 ≤ (g d).timing.window
  purge : ∀ d, (g d).purge = d.purge ∨ ∃ x, (g d).purge = some x ∧ count ≤ x.capacity

/-! ## The cores of the operations -/

/-- STAPLING entered, dry run's home edge apart (R151). -/
def Part.staple (s : Part) : Part :=
  (s.modFinisher fun f => { f with
    state := .stapling, stapleLimit := some (plusTicks s.tick s.finisherSet.limit) }).modOut fun o => { o with stapler := true }

/-- EJECTING entered, dry run's home edge apart (R152). -/
def Part.eject (s : Part) (part : Bool) : Part :=
  (s.modFinisher fun f => { f with
    state := .ejecting, split := part, ejectLimit := some (plusTicks s.tick (2 * s.finisherSet.eject)) }).modOut fun o =>
      { o with ejector := true }

/-- A staple cycle that reached home, up to its eject's entry (R151). -/
def Part.stapled (s : Part) : Part :=
  ((((s.modOut fun o => { o with stapler := false }).modFinisher fun f => { f with stapleLimit := none, stapled := true }).modDry
    fun d => { d with home := none }).countPath 7).eject false

/-- An episode opened, its first JAM notice and its count apart (R109). -/
def Part.openCore (s : Part) (j : Jam) (extra : AreaSet) : Part :=
  let s := s.modEpisode fun e => { e with
    number := e.number + 1, isOpen := true, firstKind := some j.kind, records := [j], overflow := 0, areas := extra,
    sweepTimer := none, barred := false }
  let s := s.feedOnEpisode
  let ns := s.runOutSet j
  let s := (s.makeRunOut ns).strand fun x => !ns.contains x.number
  let s := s.retain
  let s := (s.addAreas (areaSet j.area)).addFinisherArea
  s.halt (!ns.isEmpty)

/-- STARTING entered, the stations not yet sampled (R44, R45). -/
def Part.enterPath (s : Part) : Part :=
  let cls := match s.nextPage with
    | some n => n.front.cls
    | none => s.feed.cls
  (((s.modFeed fun f => { f with cls := cls }).setPath .starting).modOut fun o => { o with presented := cls }).runDrives

/-- STARTING entered with no paper under a station: the ramp timer runs (R45). -/
def Part.start (s : Part) : Part :=
  s.enterPath.modFeed fun f => { f with ramp := some (plusTicks s.tick ((s.force.drive.map DriveSet.ramp).getD 0)) }

/-- The RESIDUAL jam of a station sampled at the start. -/
def Part.residual (s : Part) (st : Fin 24) : Jam where
  kind := .residual
  station := some st
  door := none
  area := s.force.areaName st
  sheet := none
  tick := s.tick
  front := none
  back := none

/-- STARTING entered with paper under a station, which opens a RESIDUAL episode (R45). -/
def Part.startJammed (s : Part) (st : Fin 24) : Part := (s.enterPath.countStation st 2).openCore (s.residual st) 0

/-- The pick, its counts and the judgements that follow apart (R61). -/
def Part.pickCore (s : Part) (n : NextPage) : Part :=
  let x := s.newSheet n
  let s := ((s.takeNext n).joinTable x).armNext x.number
  let s := s.reserve x .feed (feedLegOf n.unit)
  let s := s.modOut fun o => { o with clutch := o.clutch.set n.unit true }
  (s.callFront x n.front).notePick n

/-- A sheet's delivery: what is delivered, and its record gone (R88). -/
def Part.deliverCore (s : Part) (x : Sheet) (st : Fin 24) : Part :=
  (s.deliverTo x (s.force.roleOf st)).removeSheet x.number

/-- ABANDON JOB up to the judgements of its slot and queue (R40). -/
def Part.abandonCore (s : Part) (job : Nat) (i : Fin 8) : Part :=
  let n := s.abandonCount job
  let s := (s.withdrawJob job).modSlot i fun y => { y with abandoned := y.abandoned + n, closed := true }
  if n = 0 then s else s.noteProgress i

/-- A discard but for its count (R174, R175). -/
def Part.discardCore (s : Part) : Part :=
  let was := s.link.fault
  let s := s.modLink fun l => { l with
    receiver := .hunting, fault := true, faultTimer := some (plusTicks s.tick Config.linkFaultTicks) }
  s.modNotices fun n => { n with linkFault := gated s.mask.condition was true n.linkFault }

/-- What PATH RESET discards, the supplies not yet judged (R181). -/
def Part.discardCoreAll (s : Part) : Part :=
  let s := ((s.modIntake Intake.pathReset).modFeed Feed.pathReset).modTable Table.pathReset
  let s := s.modStations fun v => v.map fun x => { x with cover := none }
  let s := (s.modCalls fun _ => ⟨[], []⟩).modPlanner fun x => { x with list := [], readThrough := false }
  let s := (s.modFinisher fun _ => .reset).modDry fun d => { d with plan := [], schedule := [], home := none }
  let s := s.modEpisode fun e => { e with sweepTimer := none }
  (s.modNotices Notices.pathReset).modOut Outputs.pathReset

/-! ## Phases and moves -/

/-- Where a step stands between two moves: at rest, or inside an operation that still owes something. -/
inductive Phase where
  /-- nothing is owed -/
  | settled
  /-- sheet `x` has just covered `st`, in a path state; its role action follows (R74, R75) -/
  | arriving (x : Sheet) (st : Fin 24) (path : PathState)
  /-- sheet `x` has just uncovered `st`; its delivery may follow (R76) -/
  | leaving (x : Sheet) (st : Fin 24)
  /-- a sheet's record has left the table; the run-on timer is to be judged (R47) -/
  | delivering
  /-- RESUME has closed the episode; the path is to start (R145) -/
  | resuming
  /-- PATH RESET has discarded; the path is to be HELD or IDLE (R181) -/
  | resetting
  deriving DecidableEq

/-- The phases in which jams are taken. -/
def Phase.calm : Phase → Bool
  | .settled | .arriving _ _ _ | .leaving _ _ => true
  | .delivering | .resuming | .resetting => false

/-- What a string of moves has leave to do, of the things only some commands do. -/
structure Mode where
  /-- to end the frame being sent and to withdraw notices -/
  withdraw : Bool
  /-- to withdraw DOOR notices, as PATH CLOSE does (R117) -/
  doors : Bool
  tick : Bool
  lines : Bool
  link : Bool
  /-- to move the receive queue -/
  queue : Bool
  mask : Bool
  /-- to edit the stored description -/
  define : Bool
  /-- to put a description in force -/
  force : Bool
  /-- to clear counters and set their width -/
  clear : Bool
  /-- to change what a station has learned (R70) -/
  learn : Bool
  /-- to deliver a sheet -/
  deliver : Bool
  /-- to empty the purge bin -/
  empty : Bool
  dryRun : Bool
  /-- to accept a page -/
  accept : Bool
  /-- to abandon a job -/
  abandon : Bool
  /-- to reserve the merge point and to confirm a pick -/
  track : Bool

/-- Leave for everything. -/
def Mode.free : Mode := ⟨true, true, true, true, true, true, true, true, true, true, true, true, true, true, true, true, true⟩

/-- The smallest changes of the part: `Move q A a s b t` takes `s` in phase `a` to `t` in phase `b`, changes the blocks in `A`
alone and has leave from mode `q` for what it does. -/
inductive Move : Mode → List Block → Phase → Part → Phase → Part → Prop where
  -- time, lines, link, descriptions
  | tick {q a s} (g) (hq : q.tick = true) : Move q [.tick] a s a (s.modTick g)
  | lines {q a s} (g) (hq : q.lines = true) : Move q [.lines] a s a (s.modLines g)
  | link {q a s} (g) (h : Link.Tame g) (hk : q.queue = true ∨ Link.KeepsQueue g) (hq : q.link = true) :
      Move q [.link] a s a (s.modLink g)
  | anyLink {q a s} (g) (h : ∀ l, (g l).rate = l.rate) (hk : q.queue = true ∨ Link.KeepsQueue g) (hw : q.withdraw = true)
      (hq : q.link = true) : Move q [.link] a s a (s.modLink g)
  | discard {q a s} (hq : q.link = true) : Move q [.link, .notices] a s a s.discardCore
  | mask {q a s} (m : Mask) (hw : q.withdraw = true) (hq : q.mask = true) :
      Move q [.mask, .notices] a s a ((s.modMask fun _ => m).modNotices fun n => n.masked m)
  | taken {q a s} (g) (h : Notices.Taken g) (hs : s.link.sending = none) (hw : q.withdraw = true) :
      Move q [.notices] a s a (s.modNotices g)
  | define {q s} (g) (h : Desc.Edit s.gate.purgeCount g) (hp : s.definable = true) (hq : q.define = true) :
      Move q [.stored, .notices, .feed] .settled s .settled ((s.modStored g).setPath .unconfigured)
  | putInForce {q s} (hp : s.definable = true) (hb : s.stored.badPath = none) (hq : q.force = true) :
      Move q [.stations, .force, .lines] .settled s .settled s.putInForce
  | dropDoorNotices {q a s} (hq : q.doors = true) : Move q [.notices] a s a s.dropDoorNotices
  -- counters
  | countStation {q a s} (st) (c) : Move q [.notices, .stats] a s a (s.countStation st c)
  | countTray {q a s} (u) (c) : Move q [.notices, .stats] a s a (s.countTray u c)
  | countPath {q a s} (c : Fin 10) (hc : q.link = true ∨ c ≠ 9 := by exact .inr (by decide)) : Move q [.notices, .stats] a s a (s.countPath c)
  | clearCounters {q a s} (g) (i) (k) (hq : q.clear = true) :
      Move q [.notices, .stats] a s a ((s.modStats fun x => x.cleared g i).judgeWatermark g i k)
  | setWidth {q a s} (g) (w) (m) (hq : q.clear = true) : Move q [.notices, .stats] a s a (s.setWidth g w m)
  -- conditions
  | judgeTrayEmpty {q a s} (u) : Move q [.notices, .feed] a s a (s.judgeTrayEmpty u)
  | judgeBinFull {q a s} (b) : Move q [.notices, .feed] a s a (s.judgeBinFull b)
  | judgePurgeFull {q a s} : Move q [.notices, .gate] a s a s.judgePurgeFull
  | judgeIntakeLow {q a s} (k) : Move q [.notices, .intake] a s a (s.judgeIntakeLow k)
  | judgeDoor {q a s} (d) : Move q [.notices, .episode] a s a (s.judgeDoor d)
  | learnAt {q a s} (st) (r) (o) (hq : q.learn = true) : Move q [.notices, .stations] a s a (s.learnAt st r o)
  | resync {q a s} (st : Fin 24) (hq : q.learn = true) :
      Move q [.stations] a s a (s.modStation st fun x => { x with resync := true })
  -- pages and jobs
  | acceptPage {q s} (p : Page) (hp : s.feed.path ≠ .unconfigured) (ho : p.origin = none) (h : s.intake.refuses p = none)
      (hq : q.accept = true) :
      Move q [.notices, .intake] .settled s .settled (s.acceptPage p)
  | setReady {q s} (id) : Move q [.intake, .planner, .table] .settled s .settled (s.setReady id)
  | abandon {q s} (job) (i) (hp : s.feed.path ≠ .unconfigured) (hi : s.intake.slotOf job = some i)
      (hq : q.abandon = true) :
      Move q [.notices, .intake, .planner, .table, .calls, .finisher, .feed] .settled s .settled (s.abandonCore job i)
  | examineSlot {q a s} (i) : Move q [.intake] a s a (s.examineSlot i)
  | planRead {q a s} (g : Planner → Planner) (h : ∀ x, (g x).list = x.list) : Move q [.planner] a s a (s.modPlanner g)
  -- feed scheduler
  | feed {q a s} (g) (h : ∀ f : Feed, (g f).core = f.core) (hu : q.track = true ∨ ∀ f : Feed, (g f).unconfirmed = f.unconfirmed) :
      Move q [.feed] a s a (s.modFeed g)
  | hold {q s} (g) (h : ∀ f : Feed, { g f with hold := false, setEnd := false } = { f with hold := false, setEnd := false })
      (hp : s.feed.path.inEpisode = false) : Move q [.feed] .settled s .settled (s.modFeed g)
  | pickTimer {q s} (v : Option Tick) (h : v.isSome = true → s.feed.path = .running) :
      Move q [.feed] .settled s .settled (s.modFeed fun f => { f with pickTimer := v })
  | holdoff {q s} (g : Option Tick → Option Tick) (h : (∀ v, g v = none) ∨ s.feed.path = .running) :
      Move q [.feed] .settled s .settled (s.modFeed fun f => { f with holdoff := g f.holdoff })
  | dropRamp {q s} (h : s.feed.path ≠ .starting) : Move q [.feed] .settled s .settled (s.modFeed fun f => { f with ramp := none })
  | dropRunOn {q s} (h : s.feed.path ≠ .draining) :
      Move q [.feed] .settled s .settled (s.modFeed fun f => { f with runOn := none })
  | ramped {q s} (h : s.feed.path = .starting) :
      Move q [.notices, .feed] .settled s .settled ((s.modFeed fun f => { f with ramp := none }).setPath .running)
  | drain {q s} (h : s.feed.path = .running) : Move q [.notices, .feed] .settled s .settled s.enterDraining
  | goBack {q s} (h : s.feed.path = .draining) : Move q [.notices, .feed] .settled s .settled s.returnToRunning
  | runOnDone {q s} (h : s.feed.path = .draining) (hr : s.feed.runOn.isSome = true) :
      Move q [.notices, .feed, .out] .settled s .settled ((s.modFeed fun f => { f with runOn := none }).enterIdle)
  | closed {q s} (h : s.feed.path = .unconfigured) (hb : s.force.badPath = none) (hs : s.stored = s.force) :
      Move q [.notices, .feed, .out] .settled s .settled s.enterIdle
  | start {q a s} (h : a = .settled ∧ s.feed.path = .idle ∨ a = .resuming) :
      Move q [.notices, .feed, .out] a s .settled s.start
  | startJammed {q a s} (st) (h : a = .settled ∧ s.feed.path = .idle ∨ a = .resuming) :
      Move q [.notices, .feed, .out, .table, .stations, .episode, .finisher, .stats, .dry] a s .settled (s.startJammed st)
  | armRunOn {q s} : Move q [.feed] .delivering s .settled s.armRunOn
  | pick {q s} (n : NextPage) (hp : s.feed.path = .running) (hd : s.feed.exhausted = false) (hn : s.nextPage = some n)
      (hh : s.pickHolds n = true) :
      Move q [.notices, .calls, .intake, .feed, .out, .table, .planner, .dry] .settled s .settled (s.pickCore n)
  | reserve {q a s} (r : Resv) (hq : q.track = true) : Move q [.feed] a s a
      (s.modFeed fun f => { f with merge := insertResv r (f.merge.filter fun x => x.sheet != r.sheet) })
  | unreserve {q a s} (p : Resv → Bool) (hq : q.track = true) : Move q [.feed] a s a
      (s.modFeed fun f => { f with merge := f.merge.filter p })
  -- outputs
  | gates {q a s} (g) (h : ∀ o : Outputs, (g o).core = o.core) : Move q [.out] a s a (s.modOut g)
  | clutch {q a s} (u : Fin 5) (v : Bool) (h : v = true → s.feed.path = .running ∨ s.feed.path = .draining) :
      Move q [.out] a s a (s.modOut fun o => { o with clutch := o.clutch.set u v })
  -- sheets and stations
  | sheet {q a s} (n) (g) (h : Sheet.Tame g) : Move q [.table] a s a (s.modSheet n g)
  | station {q a s} (st : Fin 24) (g) (h : Station.Tame (s.stations[st]) (g (s.stations[st]))) : Move q [.stations] a s a (s.modStation st g)
  | uncover {q s} (x : Sheet) (st) (h : s.coveringSheet st = some x) (hp : s.feed.path.tracks = true) :
      Move q [.stations, .table] .settled s (.leaving x st) (s.uncover x st)
  | left {q x st s} : Move q [] (.leaving x st) s .settled s
  | cover {q s} (x : Sheet) (step : Step) (hx : x ∈ s.table.sheets) (hm : x.moving = true) (hs : x.nextStep = some step)
      (hp : s.feed.path.tracks = true) :
      Move q [.table, .stations] .settled s (.arriving x step.station s.feed.path)
        ((s.modSheet x.number fun y => y.arrived step.station s.tick).coverWith x step.station s.tick)
  | arrived {q x st path s} (h : s.force.roleOf st = some .finisherEntry → s.overruns x = true →
        (s.table.sheets.map Sheet.number).Nodup → ∀ y ∈ s.table.sheets, y.number = x.number →
          y.cond = .stranded ∨ y.cond = x.cond ∧ path = .halting ∧ x.cond ≠ .runningOut) :
      Move q [] (.arriving x st path) s .settled s
  | spoil {q a s} (x : Sheet) (ha : a = .settled ∨ ∃ y st path, a = .arriving y st path)
      (h : (s.table.sheets.map Sheet.number).Nodup → x ∈ s.table.sheets ∧ x.cond ≠ .stranded) :
      Move q [.table, .planner, .calls] a s a (s.spoilSheet x)
  | deliver {q x st s} (h : (x.itinerary.getLast?.map Step.station) = some st) (hq : q.deliver = true) :
      Move q [.notices, .intake, .gate, .finisher, .stats, .table, .stations, .dry] (.leaving x st) s .delivering
        (s.deliverCore x st)
  | calls {q a s} (g) (h : Calls.Tame g) : Move q [.calls] a s a (s.modCalls g)
  | spoiled {q a s} (sheet page n) : Move q [.notices, .gate] a s a (s.noteSpoil sheet page n)
  | spoilCount {q a s} (hw : q.withdraw = true) : Move q [.gate] a s a (s.modGate fun g => { g with spoilCount := 0 })
  | emptyBin {q a s} (hq : q.empty = true) : Move q [.gate] a s a (s.modGate fun g => { g with purgeCount := 0 })
  -- episodes
  | openEpisode {q a b s} (j) (extra) (h : a.calm = true ∧ b = a ∨ a = .resetting ∧ b = .settled)
      (hp : s.feed.path ≠ .unconfigured) :
      Move q [.notices, .feed, .out, .table, .stations, .episode, .finisher, .dry] a s b (s.openCore j extra)
  | noteRecord {q a s} (k) (j) : Move q [.notices] a s a (s.noteRecord k j)
  | record {q a s} (j) (h : s.episode.records.length < 4) :
      Move q [.episode] a s a (s.modEpisode fun e => { e with records := e.records ++ [j] })
  | overflow {q a s} : Move q [.episode] a s a (s.modEpisode fun e => { e with overflow := min (e.overflow + 1) 65535 })
  | episode {q a s} (g) (h : ∀ e : Episode, (g e).core = e.core) : Move q [.episode] a s a (s.modEpisode g)
  | strand {q a s} (p) (h : a.calm = true) : Move q [.table, .stations, .dry, .episode] a s a (s.strand p)
  | halted {q a s} (ha : a.calm = true) (h : s.feed.path = .halting)
      (hn : (s.table.sheets.any fun x => x.cond == .runningOut) = false) :
      Move q [.notices, .feed, .out] a s a (s.stopDrives.setPath .held)
  | abandonSweep {q a s} (bar) (ha : a.calm = true) (h : s.feed.path = .sweeping) :
      Move q [.notices, .feed, .out, .episode] a s a (s.abandonSweep bar)
  | dropSweep {q s} (h : s.feed.path ≠ .sweeping) :
      Move q [.episode] .settled s .settled (s.modEpisode fun e => { e with sweepTimer := none })
  | startSweep {q s} (h : s.feed.path = .held) (hd : s.dry.on = false) :
      Move q [.notices, .feed, .out, .episode] .settled s .settled s.startSweep
  | planBuild {q s} (h : s.feed.path = .held ∨ s.feed.path = .sweeping) :
      Move q [.notices, .calls, .feed, .out, .table, .stations, .episode, .planner, .finisher, .dry] .settled s .settled
        ((s.setPath .sweeping).planBuild)
  | reheld {q s} (h : s.feed.path = .resumable) : Move q [.notices, .feed] .settled s .settled (s.setPath .held)
  | resume {q s} (h : s.feed.path = .resumable) : Move q [.episode] .settled s .resuming s.closeEpisode
  | discardAll {q s} (h : s.feed.path ≠ .unconfigured) (hw : q.withdraw = true) :
      Move q [.intake, .feed, .table, .stations, .calls, .planner, .finisher, .dry, .episode, .notices, .out] .settled s
        .resetting s.discardCoreAll
  | resetIdle {q s} (h : s.feed.path ≠ .unconfigured) (hd : s.anyDoorOpen = false) :
      Move q [.episode, .notices, .feed, .out] .resetting s .settled s.closeEpisode.enterIdle
  -- finisher
  | finisher {q a s} (g) (h : ∀ f : Finisher, (g f).core = f.core) (hn : s.finisher ≠ .reset) :
      Move q [.finisher] a s a (s.modFinisher g)
  | staple {q a s} (h : s.finisher.state = .compiling ∨ s.finisher.state = .faulted) (hd : s.finisher.disturbed = false) :
      Move q [.finisher, .out] a s a s.staple
  | eject {q a s} (part) (h : s.finisher.state = .compiling) (hd : s.finisher.disturbed = false) :
      Move q [.finisher, .out] a s a (s.eject part)
  | stapled {q s} (h : s.finisher.state = .stapling) :
      Move q [.finisher, .out, .dry, .stats, .notices] .settled s .settled s.stapled
  | ejected {q a s} (ha : a = .settled ∨ a = .resuming)
      (h : s.finisher.state = .ejecting ∨ s.finisher.state = .compiling ∧ s.finisher.sheets = []) :
      Move q [.notices, .intake, .out, .finisher, .stats, .dry] a s a s.completeEject
  | retain {q a s} : Move q [.finisher] a s a s.retain
  | recompile {q a s} (h : s.finisher.state = .retained) :
      Move q [.finisher] a s a (s.modFinisher fun f => { f with state := .compiling })
  | abort {q a s} (h : s.finisher.busy = true) : Move q [.finisher, .out] a s a
      ((s.modFinisher fun f => { f with state := .compiling, stapleLimit := none, ejectLimit := none }).modOut fun o =>
        { o with stapler := false, ejector := false })
  | disturb {q a s} (h : s.finisher.busy = false) : Move q [.finisher] a s a s.disturb
  | stapleFails {q a s} (h : s.finisher.state = .stapling) : Move q [.finisher, .out] a s a
      ((s.modOut fun o => { o with stapler := false }).modFinisher fun f => { f with stapleLimit := none, state := .faulted })
  | ejectFails {q a s} (h : s.finisher.state = .ejecting) : Move q [.finisher, .out] a s a
      ((s.modOut fun o => { o with ejector := false }).modFinisher fun f => { f with ejectLimit := none, state := .retained })
  | dropStapleLimit {q a s} (h : s.finisher.state ≠ .stapling) :
      Move q [.finisher] a s a (s.modFinisher fun f => { f with stapleLimit := none })
  | dropEjectLimit {q a s} (h : s.finisher.state ≠ .ejecting) :
      Move q [.finisher] a s a (s.modFinisher fun f => { f with ejectLimit := none })
  -- dry run
  | dry {q a s} (g) (h : Dry.Tame g) : Move q [.dry] a s a (s.modDry g)
  | dryRun {q s} (on : Bool) (first : Nat) (hp : s.feed.path = .idle) (hq : q.dryRun = true) :
      Move q [.dry] .settled s .settled (s.modDry fun d => { d with on := on, firstSheet := first })

/-- A string of moves. -/
inductive Moves (q : Mode) : Phase → Part → Phase → Part → Prop where
  | refl (a s) : Moves q a s a s
  | snoc {a s b t c u A} (h : Moves q a s b t) (k : Move q A b t c u) : Moves q a s c u

theorem Moves.trans {q : Mode} {a b c : Phase} {s t u : Part} (h : Moves q a s b t) (k : Moves q b t c u) : Moves q a s c u := by
  induction k with
  | refl => exact h
  | snoc _ m ih => exact .snoc ih m

theorem Move.moves {q : Mode} {A : List Block} {a b : Phase} {s t : Part} (h : Move q A a s b t) : Moves q a s b t :=
  .snoc (.refl _ _) h

theorem Moves.ite {q : Mode} {a b : Phase} {s t u : Part} {c : Prop} [Decidable c] (h : c → Moves q a s b t)
    (k : ¬ c → Moves q a s b u) : Moves q a s b (if c then t else u) := by
  split
  · next hc => exact h hc
  · next hc => exact k hc

theorem Moves.fold {q : Mode} {a : Phase} {α : Type} {f : Part → α → Part} (l : List α) (s : Part)
    (hf : ∀ p x, Moves q a p a (f p x)) : Moves q a s a (l.foldl f s) := by
  induction l generalizing s with
  | nil => exact .refl _ _
  | cons x l ih => exact (hf s x).trans (ih _)

/-- What every move keeps, phase by phase, every string of them keeps. -/
theorem Moves.keeps {q : Mode} {I : Phase → Part → Prop} (hI : ∀ {A a s b t}, Move q A a s b t → I a s → I b t) {a b : Phase}
    {s t : Part} (h : Moves q a s b t) (hs : I a s) : I b t := by
  induction h with
  | refl => exact hs
  | snoc _ m ih => exact hI m ih

end Sys2Proof.Machine
end

