-- ==== Sys2Proof/Proofs/MovesShared.lean ====
section
/-! PROOF. The operations of Ops, Flags, Finisher, Recovery, Episode and Feed as strings of moves. -/

namespace Sys2Proof.Machine

variable {q : Mode} {a : Phase} (s : Part)

/-! ## Time, sheets, slots, calls -/

theorem Part.advance_moves (hq : q.tick = true) (t : Tick) : Moves q a s a (s.advance t) := (Move.tick _ hq).moves

theorem Part.lineEdge_moves (hq : q.lines = true) (r : InputRole) (v : Bool) : Moves q a s a (s.lineEdge r v) := by
  unfold Part.lineEdge
  split
  · exact (Move.lines _ hq).moves
  · exact .refl _ _

theorem Part.judgeSupplies_moves : Moves q a s a s.judgeSupplies :=
  (Moves.fold _ s fun _ u => (Move.judgeTrayEmpty u).moves).trans (Moves.fold _ _ fun _ b => (Move.judgeBinFull b).moves)

theorem Part.withdrawEdges_moves (n : Nat) : Moves q a s a (s.withdrawEdges n) := (Move.dry _ (by exact fun _ => ⟨rfl, rfl⟩)).moves

theorem Part.scheduleLeading_moves (x : Sheet) (st : Fin 24) (T : Nat) : Moves q a s a (s.scheduleLeading x st T) := by
  have spent : Moves q a s a (s.modDry fun d => d.spend x.number st) := (Move.dry _ (by exact fun _ => ⟨rfl, rfl⟩)).moves
  unfold Part.scheduleLeading
  dsimp only
  split
  · exact .refl _ _
  · split
    · exact spent
    · exact spent.trans (Move.dry _ (by exact fun _ => ⟨rfl, rfl⟩)).moves

theorem Part.armNext_moves (n : Nat) : Moves q a s a (s.armNext n) := by
  unfold Part.armNext
  split
  · exact .refl _ _
  · split
    · exact (Move.sheet n _ (by exact fun _ => ⟨rfl, id⟩)).moves
    · exact ((Move.sheet n _ (by exact fun _ => ⟨rfl, id⟩)).moves).trans (Part.scheduleLeading_moves ..)

theorem Part.repredict_moves (hk : q.track = true) (n : Nat) (lead trail : Tick) : Moves q a s a (s.repredict n lead trail) := by
  unfold Part.repredict
  split
  · exact .refl _ _
  · next r h =>
    obtain rfl : r.sheet = n := by simpa using List.find?_some h
    exact (Move.reserve { r with lead := lead, trail := trail } hk).moves

theorem Part.reserve_moves (hk : q.track = true) (x : Sheet) (kind : ResvKind) (leg : LegName) : Moves q a s a (s.reserve x kind leg) :=
  (Move.reserve ⟨x.number, kind, (s.predictFrom s.tick leg 0 x.media).1, (s.predictFrom s.tick leg 0 x.media).2⟩ hk).moves

theorem insertCall_length (c : Call) (l : List Call) : (insertCall c l).length = l.length + 1 := by
  have h := congrArg List.length (List.takeWhile_append_dropWhile (p := fun x : Call => x.precedes c) (l := l))
  simp only [List.length_append] at h
  simp only [insertCall, List.length_append, List.length_cons]
  omega

theorem promote_queue_length (k : Nat) (c : Calls) (h : c.queue.length ≤ 8) : (promote k c).queue.length ≤ 8 := by
  induction k generalizing c with
  | zero => exact h
  | succ k ih =>
    unfold promote
    split
    · next hl =>
      split
      · exact h
      · exact ih _ (by simpa [insertCall_length, Config.imageCallSize] using hl)
    · exact h

theorem Calls.tame_drop (p : Call → Bool) : Calls.Tame fun c => c.drop p := fun c h =>
  promote_queue_length _ _ ((List.length_filter_le _ c.queue).trans h)

theorem Calls.tame_addBack (x : Call) : Calls.Tame fun c => c.addBack x := by
  intro c h
  simp only [Calls.addBack]
  split
  · next hl => simpa [insertCall_length, Config.imageCallSize] using hl
  · exact h

/-! ## Finisher -/

theorem Part.enterStapling_eq : s.enterStapling =
    if !s.dry.on then s.staple
    else if s.dry.plan.any (s.dry.noStapleFires s.finisher.sheets) then s.staple.modDry (Dry.spendNoStaple s.finisher.sheets)
    else s.staple.modDry fun d => { d with home := some ⟨true, plusTicks s.tick s.finisherSet.nominal⟩ } := rfl

theorem Part.enterEjecting_eq (part : Bool) : s.enterEjecting part =
    if !s.dry.on then s.eject part
    else (s.eject part).modDry fun d => { d with home := some ⟨false, plusTicks s.tick s.finisherSet.eject⟩ } := rfl

theorem Part.enterStapling_moves (h : s.finisher.state = .compiling ∨ s.finisher.state = .faulted)
    (hd : s.finisher.disturbed = false) : Moves q a s a s.enterStapling := by
  have core : Moves q a s a s.staple := (Move.staple h hd).moves
  rw [Part.enterStapling_eq]
  split
  · exact core
  · split
    · exact core.trans (Move.dry _ (by exact fun _ => ⟨rfl, rfl⟩)).moves
    · exact core.trans (Move.dry _ (by exact fun _ => ⟨rfl, rfl⟩)).moves

theorem Part.enterEjecting_moves (part : Bool) (h : s.finisher.state = .compiling) (hd : s.finisher.disturbed = false) :
    Moves q a s a (s.enterEjecting part) := by
  rw [Part.enterEjecting_eq]
  split
  · exact (Move.eject part h hd).moves
  · exact ((Move.eject part h hd).moves).trans (Move.dry _ (by exact fun _ => ⟨rfl, rfl⟩)).moves

/-- A Compile Set in a state that is not EMPTY is not the one at reset. -/
theorem Finisher.ne_reset {f : Finisher} (h : f.state ≠ .empty) : f ≠ .reset := fun e => h (e ▸ rfl)

theorem Part.judgeClosure_moves : Moves q a s a s.judgeClosure := by
  unfold Part.judgeClosure
  dsimp only
  split
  · next h =>
    refine (Move.finisher _ (by exact fun _ => rfl) (Finisher.ne_reset ?_)).moves
    simp only [Bool.and_eq_true, Bool.or_eq_true, beq_iff_eq] at h
    rintro he
    simp [he] at h
  · exact .refl _ _

theorem Part.judgeSplit_moves : Moves q a s a s.judgeSplit := by
  unfold Part.judgeSplit
  dsimp only
  split
  · next h =>
    simp only [Bool.and_eq_true, Bool.or_eq_true, beq_iff_eq, Bool.not_eq_true'] at h
    obtain ⟨⟨⟨⟨-, hd⟩, -⟩, -⟩, hs⟩ := h
    have mark : Moves q a s a (s.modFinisher fun f => { f with skipped := true, split := true }) :=
      (Move.finisher _ (by exact fun _ => rfl) (Finisher.ne_reset (by rcases hs with hs | hs <;> simp [hs]))).moves
    split
    · next hc => exact mark.trans (Part.enterEjecting_moves _ true (by simpa using hc) hd)
    · exact mark
  · exact .refl _ _

/-- A closed or split set whose cycle may start is COMPILING and undisturbed (R150). -/
theorem Part.cycleReady_state (h : s.cycleReady = true) : s.finisher.state = .compiling ∧ s.finisher.disturbed = false := by
  simp only [Part.cycleReady, Bool.and_eq_true, beq_iff_eq, Bool.not_eq_true'] at h
  exact ⟨h.1.1.1.1.1, h.1.1.1.2⟩

theorem Part.startCycle_moves (ha : a = .settled ∨ a = .resuming) (h : s.finisher.state = .compiling)
    (hd : s.finisher.disturbed = false) : Moves q a s a s.startCycle := by
  unfold Part.startCycle
  dsimp only
  split
  · split
    · next he =>
      have split : Moves q a s a (s.modFinisher fun f => { f with split := false }) :=
        (Move.finisher _ (by exact fun _ => rfl) (Finisher.ne_reset (by simp [h]))).moves
      exact split.snoc (.ejected ha (.inr ⟨h, List.isEmpty_iff.mp he⟩))
    · split
      · exact Part.enterStapling_moves s (.inl h) hd
      · exact Part.enterEjecting_moves s false h hd
  · exact Part.enterEjecting_moves s true h hd

theorem Part.judgeFinisher_moves (ha : a = .settled ∨ a = .resuming) : Moves q a s a s.judgeFinisher := by
  unfold Part.judgeFinisher
  dsimp only
  split
  · next h =>
    have hs := s.judgeClosure.cycleReady_state h
    exact s.judgeClosure_moves.trans (Part.startCycle_moves _ ha hs.1 hs.2)
  · exact s.judgeClosure_moves

theorem settleFirst_core (l : List Held) : (settleFirst l).map Held.core = l.map Held.core := by
  induction l with
  | nil => rfl
  | cons h rest ih =>
    unfold settleFirst
    split
    · simp [Held.core]
    · simp [ih]

theorem Part.completeCompile_moves : Moves q a s a s.completeCompile := by
  unfold Part.completeCompile
  split
  · exact .refl _ _
  · next h hf =>
    refine (((Move.finisher _ (fun f => ?core) ?ne).moves.trans (Move.countPath 2).moves).trans
      (Part.judgeClosure_moves _)).trans (Part.judgeSplit_moves _)
    case core => simp only [Finisher.core, settleFirst_core]
    case ne =>
      intro e
      simp [e, Finisher.reset] at hf

theorem Part.resumeFinisher_moves (ha : a = .settled ∨ a = .resuming) : Moves q a s a s.resumeFinisher := by
  unfold Part.resumeFinisher
  split
  · next h =>
    exact (((Move.recompile h).moves.trans (Part.judgeClosure_moves _)).trans (Part.judgeSplit_moves _)).trans
      (Part.judgeFinisher_moves _ ha)
  · next h =>
    split
    · exact .refl _ _
    · next hd => exact Part.enterStapling_moves s (.inr h) (by simpa using hd)
  · exact .refl _ _

theorem Part.abortCycle_moves : Moves q a s a s.abortCycle := by
  unfold Part.abortCycle
  split
  · next h => exact (Move.abort h).moves.trans (Move.dry _ (by exact fun _ => ⟨rfl, rfl⟩)).moves
  · exact .refl _ _

/-- After the abort no staple or eject is under way. -/
theorem Part.abortCycle_busy : s.abortCycle.finisher.busy = false := by
  unfold Part.abortCycle
  split
  · rfl
  · next h => simpa using h

/-! ## Episodes -/

theorem Part.addAreas_moves (x : AreaSet) : Moves q a s a (s.addAreas x) := (Move.episode _ (by exact fun _ => rfl)).moves

theorem Part.addRecord_moves (j : Jam) : Moves q a s a (s.addRecord j) := by
  unfold Part.addRecord
  dsimp only
  refine (s.addAreas_moves (areaSet j.area)).trans ?_
  split
  · next h => exact (Move.record j h).moves.trans (Move.noteRecord _ _).moves
  · split
    · exact Move.overflow.moves.trans (Move.noteRecord _ _).moves
    · exact Move.overflow.moves

theorem Part.openEpisode_eq (j : Jam) (extra : AreaSet) :
    s.openEpisode j extra = ((s.openCore j extra).noteRecord 1 j).countPath 6 := rfl

theorem Part.openEpisode_moves {b : Phase} (j : Jam) (extra : AreaSet)
    (h : a.calm = true ∧ b = a ∨ a = .resetting ∧ b = .settled) (hp : s.feed.path ≠ .unconfigured) :
    Moves q a s b (s.openEpisode j extra) := by
  rw [Part.openEpisode_eq]
  exact ((Move.openEpisode j extra h hp).moves.trans (Move.noteRecord 1 j).moves).trans (Move.countPath 6).moves

theorem Part.endHalting_moves (ha : a.calm = true) : Moves q a s a s.endHalting := by
  unfold Part.endHalting
  split
  · next h => exact (Move.halted ha h.1 h.2).moves
  · exact .refl _ _

theorem Part.extendHalting_moves (j : Jam) (ha : a.calm = true) : Moves q a s a (s.extendHalting j) :=
  ((s.addRecord_moves j).trans (Move.strand _ ha).moves).trans (Part.endHalting_moves _ ha)

theorem Part.addRecord_feed (j : Jam) : (s.addRecord j).feed = s.feed := (s.addRecord_via j).feed_eq rfl

theorem Part.addFinisherArea_moves : Moves q a s a s.addFinisherArea := by
  unfold Part.addFinisherArea
  split
  · exact Part.addAreas_moves _ _
  · exact .refl _ _

theorem Part.takeJam_moves (j : Jam) (ha : a.calm = true) : Moves q a s a (s.takeJam j) := by
  unfold Part.takeJam
  split
  case h_1 =>
    unfold Part.holdOver
    split
    · exact (Move.episode _ (by exact fun _ => rfl)).moves
    · exact .refl _ _
  case h_2 => exact .refl _ _
  case h_3 hp =>
    split
    · exact s.openEpisode_moves j 0 (.inl ⟨ha, rfl⟩) (by simp [hp])
    · exact .refl _ _
  case h_4 hp => exact s.openEpisode_moves j 0 (.inl ⟨ha, rfl⟩) (by simp [hp])
  case h_5 hp => exact s.openEpisode_moves j 0 (.inl ⟨ha, rfl⟩) (by simp [hp])
  case h_6 hp => exact s.openEpisode_moves j 0 (.inl ⟨ha, rfl⟩) (by simp [hp])
  case h_7 => exact s.extendHalting_moves j ha
  case h_8 => exact s.addRecord_moves j
  case h_9 hp => exact (s.addRecord_moves j).trans (Move.abandonSweep _ ha (by rw [s.addRecord_feed, hp])).moves

theorem Part.jamAt_moves (kind : JamKind) (st : Fin 24) (t : Tick) (x : Option Sheet) (ha : a.calm = true) :
    Moves q a s a (s.jamAt kind st t x) := (Move.countStation st 2).moves.trans (Part.takeJam_moves _ _ ha)

/-- A sweep started in dry run is a plan built at once (R132). -/
theorem Part.startSweep_moves (h : s.feed.path = .held) : Moves q .settled s .settled s.startSweep := by
  cases hd : s.dry.on with
  | false => exact (Move.startSweep h hd).moves
  | true =>
    have e : s.startSweep = (s.setPath .sweeping).planBuild := by
      unfold Part.startSweep
      dsimp only
      rw [(s.setPath_via .sweeping).dry_eq rfl, hd, if_pos rfl]
    exact e ▸ (Move.planBuild (.inl h)).moves

theorem Part.judgeClearance_moves : Moves q .settled s .settled s.judgeClearance := by
  unfold Part.judgeClearance
  split
  · next h =>
    simp only [Part.autoSweepReady, Bool.and_eq_true, beq_iff_eq] at h
    exact s.startSweep_moves h.1.1.1
  · exact .refl _ _

/-! ## Feed -/

theorem Part.judgeExitGate_moves : Moves q a s a s.judgeExitGate := by
  unfold Part.judgeExitGate
  split
  · split
    · exact (Move.gates _ (by exact fun _ => rfl)).moves
    · exact .refl _ _
  · exact .refl _ _

theorem Part.judgePurgeGate_moves : Moves q a s a s.judgePurgeGate := by
  unfold Part.judgePurgeGate
  split
  · split
    · exact (Move.gates _ (by exact fun _ => rfl)).moves
    · exact .refl _ _
  · exact .refl _ _

theorem Part.judgeGates_moves : Moves q a s a s.judgeGates := s.judgeExitGate_moves.trans (Part.judgePurgeGate_moves _)

theorem Part.judgeSelector_moves : Moves q a s a s.judgeSelector := by
  unfold Part.judgeSelector
  split
  · split
    · split
      · exact (Move.feed _ (by exact fun _ => rfl) (.inr (by exact fun _ => rfl))).moves
      · exact .refl _ _
    · split
      · exact (Move.feed _ (by exact fun _ => rfl) (.inr (by exact fun _ => rfl))).moves
      · exact .refl _ _
  · exact .refl _ _

theorem Part.judgeSelector_core : s.judgeSelector.feed.core = s.feed.core := by
  unfold Part.judgeSelector
  split
  · split <;> split <;> rfl
  · rfl

/-- The selector's judgement leaves the path state. -/
@[simp] theorem Part.judgeSelector_path : s.judgeSelector.feed.path = s.feed.path := (congrArg Feed.path s.judgeSelector_core :)

theorem Part.setPath_path (p : PathState) : (s.setPath p).feed.path = p := by
  unfold Part.setPath
  split
  · assumption
  · rfl

theorem Part.enterPath_path : s.enterPath.feed.path = .starting := by
  unfold Part.enterPath
  dsimp only
  exact Part.setPath_path _ _

theorem Part.enterPath_via : Via [.notices, .feed, .out] s s.enterPath := by
  unfold Part.enterPath
  dsimp only
  exact (((Via.feed (.refl s) _ rfl).andThen (Part.setPath_via ..) rfl).out _ rfl).andThen (Part.runDrives_via ..) rfl

/-- Entry to STARTING, by what the stations read (R45). -/
theorem Part.enterStarting_eq : s.enterStarting =
    match (List.finRange 24).filter s.enterPath.paperAt with
    | [] => s.start
    | st :: rest => (st :: rest).foldl (fun s st => s.jamAt .residual st s.tick none) s.enterPath := by
  have e : s.enterStarting = match (List.finRange 24).filter s.enterPath.paperAt with
      | [] => s.enterPath.modFeed fun f =>
        { f with ramp := some (plusTicks s.enterPath.tick ((s.enterPath.force.drive.map DriveSet.ramp).getD 0)) }
      | st :: rest => (st :: rest).foldl (fun s st => s.jamAt .residual st s.tick none) s.enterPath := rfl
  rw [e, s.enterPath_via.tick_eq rfl, s.enterPath_via.force_eq rfl]
  rfl

theorem Part.countStation_tick (st : Fin 24) (c : Fin 3) : (s.countStation st c).tick = s.tick :=
  (s.countStation_via st c).tick_eq rfl

/-- The first jam of a start opens the episode. -/
theorem Part.jamAt_enterPath (st : Fin 24) : s.enterPath.jamAt .residual st s.enterPath.tick none =
    ((s.startJammed st).noteRecord 1 (s.residual st)).countPath 6 := by
  have hp : (s.enterPath.countStation st 2).feed.path = .starting := by
    rw [(s.enterPath.countStation_via st 2).feed_eq rfl, s.enterPath_path]
  have ht : s.enterPath.tick = s.tick := s.enterPath_via.tick_eq rfl
  have hf : s.enterPath.force = s.force := s.enterPath_via.force_eq rfl
  unfold Part.jamAt Part.takeJam
  simp only [hp, Part.openEpisode_eq, Part.startJammed, Part.residual, ht, hf]
  rfl

theorem Part.enterStarting_moves (h : a = .settled ∧ s.feed.path = .idle ∨ a = .resuming) :
    Moves q a s .settled s.enterStarting := by
  rw [Part.enterStarting_eq]
  split
  · exact (Move.start h).moves
  · next st rest _ =>
    have first : Moves q a s .settled (s.enterPath.jamAt .residual st s.enterPath.tick none) := by
      rw [s.jamAt_enterPath]
      exact ((Move.startJammed st h).moves.trans (Move.noteRecord 1 _).moves).trans (Move.countPath 6).moves
    exact first.trans (Moves.fold rest _ fun p x => p.jamAt_moves .residual x p.tick none rfl)

theorem Part.judgeStart_moves (h : s.feed.path = .idle) : Moves q .settled s .settled s.judgeStart := by
  unfold Part.judgeStart
  dsimp only
  split
  · exact s.judgeSelector_moves.trans (Part.enterStarting_moves _ (.inl ⟨rfl, by simpa using h⟩))
  · exact s.judgeSelector_moves

theorem Part.judgeHoldoff_moves (h : s.feed.path = .running) : Moves q .settled s .settled s.judgeHoldoff := by
  unfold Part.judgeHoldoff
  exact (Move.holdoff (fun v => if s.nextPage.isSome then none else v <|> some (plusTicks s.tick s.force.timing.holdoff)) (.inr h)).moves

theorem Part.makePick_eq (n : NextPage) :
    s.makePick n = ((((s.pickCore n).countTray n.unit 0).countPath 0).judgeGates).judgeFinisher := rfl

theorem Part.makePick_moves (n : NextPage) (hp : s.feed.path = .running) (hd : s.feed.exhausted = false)
    (hn : s.nextPage = some n) (hh : s.pickHolds n = true) : Moves q .settled s .settled (s.makePick n) := by
  rw [Part.makePick_eq]
  exact ((((Move.pick n hp hd hn hh).moves.trans (Move.countTray _ 0).moves).trans (Move.countPath 0).moves).trans
    (Part.judgeGates_moves _)).trans (Part.judgeFinisher_moves _ (.inl rfl))

theorem Part.judgePick_moves (h : s.feed.path = .running) (hd : s.feed.exhausted = false) :
    Moves q .settled s .settled s.judgePick := by
  have cancel : Moves q .settled s .settled (s.modFeed fun f => { f with pickTimer := none }) :=
    (Move.pickTimer none fun h => by simp at h).moves
  unfold Part.judgePick
  dsimp only
  split
  · exact cancel
  · next n hn =>
    split
    · next hh =>
      split
      · exact cancel
      · split
        · exact s.makePick_moves n h hd hn hh
        · exact (Move.pickTimer _ fun _ => h).moves
    · exact cancel

/-- Only a pick takes a sheet number, and it leaves the path RUNNING. -/
theorem Part.pickCore_path (n : NextPage) : (s.pickCore n).feed.path = s.feed.path := by
  have hf : ∀ p : Part, (p.notePick n).feed.path = p.feed.path := by
    intro p
    unfold Part.notePick Feed.bound
    dsimp only
    split <;> split <;> rfl
  have ht : (s.takeNext n).feed = s.feed := by
    unfold Part.takeNext
    dsimp only
    split
    · rfl
    · exact (Part.judgeIntakeLow_via ..).feed_eq rfl
    · exact (Part.judgeIntakeLow_via ..).feed_eq rfl
  unfold Part.pickCore
  dsimp only
  rw [hf, (Part.callFront_via ..).feed_eq rfl]
  exact (congrArg Feed.path ((Part.armNext_via ..).feed_eq rfl)).trans (congrArg Feed.path ht)

theorem Part.makePick_path (n : NextPage) : (s.makePick n).feed.path = s.feed.path := by
  rw [Part.makePick_eq, (Part.judgeFinisher_via _).feed_eq rfl, (Part.judgeGates_via _).feed_eq rfl,
    (Part.countPath_via ..).feed_eq rfl, (Part.countTray_via ..).feed_eq rfl, s.pickCore_path]

theorem Part.judgePick_path : s.judgePick.feed.path = s.feed.path := by
  unfold Part.judgePick
  dsimp only
  split
  · rfl
  · split
    · split
      · rfl
      · split
        · exact s.makePick_path _
        · rfl
    · rfl

theorem Part.judgeRunning_moves (h : s.feed.path = .running) : Moves q .settled s .settled s.judgeRunning := by
  have sel : Moves q .settled s .settled s.judgeSelector := s.judgeSelector_moves
  have hs : s.judgeSelector.feed.path = .running := by simpa using h
  unfold Part.judgeRunning
  dsimp only
  split
  · exact sel.trans (Move.drain hs).moves
  · next hd =>
    have he : s.judgeSelector.judgeHoldoff.feed.exhausted = false := by
      have : s.judgeSelector.feed.exhausted = false := by
        simp only [Part.drainHolds, Bool.or_eq_true, not_or, Bool.not_eq_true] at hd
        exact hd.1.2
      exact this
    have picked : Moves q .settled s .settled s.judgeSelector.judgeHoldoff.judgePick :=
      (sel.trans (Part.judgeHoldoff_moves _ hs)).trans (Part.judgePick_moves _ hs he)
    have hp : s.judgeSelector.judgeHoldoff.judgePick.judgeSelector.feed.path = .running := by
      rw [Part.judgeSelector_path, Part.judgePick_path]
      exact hs
    split
    · exact picked
    · split
      · exact (picked.trans (Part.judgeSelector_moves _)).trans (Move.drain hp).moves
      · exact (picked.trans (Part.judgeSelector_moves _)).trans (Part.judgeHoldoff_moves _ hp)

theorem Part.judgeDraining_moves (h : s.feed.path = .draining) : Moves q .settled s .settled s.judgeDraining := by
  unfold Part.judgeDraining
  dsimp only
  split
  · exact (s.judgeSelector_moves.trans (Move.goBack (by simpa using h)).moves).trans
      (Part.judgeRunning_moves _ (Part.setPath_path _ _))
  · exact s.judgeSelector_moves

theorem Part.judgeFeed_moves : Moves q .settled s .settled s.judgeFeed := by
  unfold Part.judgeFeed
  split
  · next h => exact s.judgeStart_moves h
  · next h => exact s.judgeRunning_moves h
  · next h => exact s.judgeDraining_moves h
  · exact .refl _ _

theorem Part.judge_moves : Moves q .settled s .settled s.judge :=
  ((s.judgeGates_moves.trans (Part.judgeFinisher_moves _ (.inl rfl))).trans (Part.judgeClearance_moves _)).trans
    (Part.judgeFeed_moves _)

end Sys2Proof.Machine
end

