-- ==== Sys2Proof/Proofs/MovesFrame.lean ====
section
/-! PROOF. A move changes the blocks it names alone, and without leave to end one keeps the frame being sent. -/

namespace Sys2Proof.Machine

theorem Part.openCore_via (s : Part) (j : Jam) (extra : AreaSet) :
    Via [.notices, .feed, .out, .table, .stations, .episode, .finisher, .dry] s (s.openCore j extra) := by
  unfold Part.openCore
  dsimp only
  exact (((((((Via.episode (.refl s) _ rfl).andThen (Part.feedOnEpisode_via _) rfl).andThen (Part.makeRunOut_via ..) rfl).andThen
    (Part.strand_via ..) rfl).andThen (Part.retain_via _) rfl).andThen (Part.addAreas_via ..) rfl).andThen
    (Part.addFinisherArea_via _) rfl).andThen (Part.halt_via ..) rfl

theorem Part.startJammed_via (s : Part) (st : Fin 24) :
    Via [.notices, .feed, .out, .table, .stations, .episode, .finisher, .stats, .dry] s (s.startJammed st) :=
  ((s.enterPath_via.mono rfl).andThen (Part.countStation_via ..) rfl).andThen (Part.openCore_via ..) rfl

theorem Part.pickCore_via (s : Part) (n : NextPage) :
    Via [.notices, .calls, .intake, .feed, .out, .table, .planner, .dry] s (s.pickCore n) := by
  unfold Part.pickCore
  dsimp only
  exact (((((((Part.takeNext_via s n).mono rfl).andThen (Part.joinTable_via ..) rfl).andThen (Part.armNext_via ..) rfl).andThen
    (Part.reserve_via ..) rfl).out _ rfl).andThen (Part.callFront_via ..) rfl).andThen (Part.notePick_via ..) rfl

theorem Part.deliverCore_via (s : Part) (x : Sheet) (st : Fin 24) :
    Via [.notices, .intake, .gate, .finisher, .stats, .table, .stations, .dry] s (s.deliverCore x st) :=
  ((Part.deliverTo_via s x _).mono rfl).andThen (Part.removeSheet_via ..) rfl

theorem Part.abandonSheet_via (s : Part) (x : Sheet) : Via [.table, .calls] s (s.abandonSheet x) := by
  unfold Part.abandonSheet
  dsimp only
  refine ((Via.ite ?_ ?_).andThen (Part.modSheet_via ..) rfl).andThen (Part.dropSheetCalls_via ..) rfl
  · exact (Part.raiseRevision_via ..).mono rfl
  · exact (Part.purgeSheet_via ..).mono rfl

theorem Part.abandonPlanned_via (s : Part) (job : Nat) : Via [.notices, .planner] s (s.abandonPlanned job) := by
  unfold Part.abandonPlanned
  dsimp only
  exact Via.ite (((Via.planner (.refl s) _ rfl).planner _ rfl).andThen (Part.notePlanReady_via _) rfl)
    (Via.planner (.refl s) _ rfl)

theorem Part.withdrawJob_via (s : Part) (job : Nat) :
    Via [.notices, .intake, .planner, .table, .calls, .finisher, .feed] s (s.withdrawJob job) := by
  unfold Part.withdrawJob Part.abandonQueued
  dsimp only
  exact ((Via.fold (((Via.intake (.refl s) _ rfl).andThen (Part.abandonPlanned_via ..) rfl)) _ fun p x =>
    (p.abandonSheet_via x).mono rfl).finisher _ rfl).feed _ rfl

theorem Part.abandonCore_via (s : Part) (job : Nat) (i : Fin 8) :
    Via [.notices, .intake, .planner, .table, .calls, .finisher, .feed] s (s.abandonCore job i) := by
  have slot : Via [.notices, .intake, .planner, .table, .calls, .finisher, .feed] s
      ((s.withdrawJob job).modSlot i fun y => { y with abandoned := y.abandoned + s.abandonCount job, closed := true }) :=
    (s.withdrawJob_via job).andThen (Part.modSlot_via ..) rfl
  unfold Part.abandonCore
  exact Via.ite slot (slot.andThen (Part.noteProgress_via ..) rfl)

theorem Part.eject_via (s : Part) (part : Bool) : Via [.finisher, .out] s (s.eject part) := by
  unfold Part.eject
  exact (Via.finisher (.refl s) _ rfl).out _ rfl

theorem Part.stapled_via (s : Part) : Via [.finisher, .out, .dry, .stats, .notices] s s.stapled := by
  unfold Part.stapled
  exact ((((Via.out (.refl s) _ rfl).finisher _ rfl).dry _ rfl).andThen (Part.countPath_via ..) rfl).andThen
    (Part.eject_via ..) rfl

theorem Part.discardCore_via (s : Part) : Via [.link, .notices] s s.discardCore := by
  unfold Part.discardCore
  exact (Via.link (.refl s) _ rfl).notices _ rfl

theorem Part.putInForce_via (s : Part) : Via [.stations, .force, .lines] s s.putInForce := by
  unfold Part.putInForce
  exact ((Via.stations (.refl s) _ rfl).force _ rfl).lines _ rfl

theorem Part.setReady_via (s : Part) (id : Nat) : Via [.intake, .planner, .table] s (s.setReady id) := by
  unfold Part.setReady
  exact ((Via.intake (.refl s) _ rfl).planner _ rfl).table _ rfl

theorem Part.discardCoreAll_via (s : Part) :
    Via [.intake, .feed, .table, .stations, .calls, .planner, .finisher, .dry, .episode, .notices, .out] s s.discardCoreAll := by
  unfold Part.discardCoreAll
  exact ((((((((((Via.intake (.refl s) _ rfl).feed _ rfl).table _ rfl).stations _ rfl).calls _ rfl).planner _ rfl).finisher _
    rfl).dry _ rfl).episode _ rfl).notices _ rfl).out _ rfl

theorem Part.acceptPage_via (s : Part) (p : Page) : Via [.notices, .intake] s (s.acceptPage p) := by
  unfold Part.acceptPage
  dsimp only
  split
  · exact ((Via.intake (.refl s) _ rfl).andThen (Part.modSlot_via ..) rfl).andThen (Part.judgeIntakeLow_via ..) rfl
  · exact (Via.intake (.refl s) _ rfl).andThen (Part.judgeIntakeLow_via ..) rfl

theorem Part.closeEpisode_via (s : Part) : Via [.episode] s s.closeEpisode := .episode (.refl s) _ rfl

/-- A move changes the blocks it names alone. -/
theorem Move.via {q : Mode} {A : List Block} {a b : Phase} {s t : Part} (h : Move q A a s b t) : Via A s t := by
  cases h with
  | tick => exact .tick (.refl s) _ rfl
  | lines => exact .lines (.refl s) _ rfl
  | link => exact .link (.refl s) _ rfl
  | anyLink => exact .link (.refl s) _ rfl
  | discard => exact Part.discardCore_via _
  | mask => exact (Via.mask (.refl s) _ rfl).notices _ rfl
  | taken => exact .notices (.refl s) _ rfl
  | define => exact (Via.stored (.refl s) _ rfl).andThen (Part.setPath_via ..) rfl
  | putInForce => exact Part.putInForce_via _
  | dropDoorNotices => exact .notices (.refl s) _ rfl
  | countStation => exact Part.countStation_via ..
  | countTray => exact Part.countTray_via ..
  | countPath => exact Part.countPath_via ..
  | clearCounters => exact (Via.stats (.refl s) _ rfl).andThen (Part.judgeWatermark_via ..) rfl
  | setWidth => exact (Via.stats (.refl s) _ rfl).andThen (Part.judgeWatermark_via ..) rfl
  | judgeTrayEmpty => exact Part.judgeTrayEmpty_via ..
  | judgeBinFull => exact Part.judgeBinFull_via ..
  | judgePurgeFull => exact Part.judgePurgeFull_via ..
  | judgeIntakeLow => exact Part.judgeIntakeLow_via ..
  | judgeDoor => exact Part.judgeDoor_via ..
  | learnAt => exact Part.learnAt_via ..
  | resync => exact Part.modStation_via ..
  | acceptPage => exact Part.acceptPage_via ..
  | setReady => exact Part.setReady_via ..
  | abandon => exact Part.abandonCore_via ..
  | examineSlot => exact Part.examineSlot_via ..
  | planRead => exact .planner (.refl s) _ rfl
  | feed => exact .feed (.refl s) _ rfl
  | hold => exact .feed (.refl s) _ rfl
  | pickTimer => exact .feed (.refl s) _ rfl
  | holdoff => exact .feed (.refl s) _ rfl
  | dropRamp => exact .feed (.refl s) _ rfl
  | dropRunOn => exact .feed (.refl s) _ rfl
  | ramped => exact (Via.feed (.refl s) _ rfl).andThen (Part.setPath_via ..) rfl
  | drain => exact Part.enterDraining_via ..
  | goBack => exact Part.returnToRunning_via ..
  | runOnDone => exact (Via.feed (.refl s) _ rfl).andThen (Part.enterIdle_via ..) rfl
  | closed => exact Part.enterIdle_via ..
  | start => exact s.enterPath_via.feed _ rfl
  | startJammed => exact Part.startJammed_via ..
  | armRunOn => exact Part.armRunOn_via ..
  | pick => exact Part.pickCore_via ..
  | reserve => exact .feed (.refl s) _ rfl
  | unreserve => exact .feed (.refl s) _ rfl
  | gates => exact .out (.refl s) _ rfl
  | clutch => exact .out (.refl s) _ rfl
  | sheet => exact Part.modSheet_via ..
  | station => exact Part.modStation_via ..
  | uncover => exact (Part.uncover_via ..).mono rfl
  | left => exact .refl _
  | cover => exact ((Part.modSheet_via ..).mono rfl).andThen (Part.coverWith_via ..) rfl
  | arrived => exact .refl _
  | spoil => exact (Part.spoilSheet_via ..).mono rfl
  | deliver => exact Part.deliverCore_via ..
  | calls => exact .calls (.refl s) _ rfl
  | spoiled => exact (Part.noteSpoil_via ..).mono rfl
  | spoilCount => exact .gate (.refl s) _ rfl
  | emptyBin => exact .gate (.refl s) _ rfl
  | openEpisode => exact Part.openCore_via ..
  | noteRecord => exact Part.noteRecord_via ..
  | record => exact .episode (.refl s) _ rfl
  | overflow => exact .episode (.refl s) _ rfl
  | episode => exact .episode (.refl s) _ rfl
  | strand => exact (Part.strand_via ..).mono rfl
  | halted => exact ((Part.stopDrives_via s).mono rfl).andThen (Part.setPath_via ..) rfl
  | abandonSweep => exact (Part.abandonSweep_via ..).mono rfl
  | dropSweep => exact .episode (.refl s) _ rfl
  | startSweep h hd =>
    unfold Part.startSweep
    dsimp only
    rw [(s.setPath_via .sweeping).dry_eq rfl, hd, if_neg Bool.false_ne_true]
    exact ((((Part.setPath_via ..).mono rfl).out _ rfl).andThen (Part.runDrives_via _) rfl).episode _ rfl
  | planBuild => exact ((Part.setPath_via ..).mono rfl).andThen (Part.planBuild_via _) rfl
  | reheld => exact Part.setPath_via ..
  | resume => exact Part.closeEpisode_via ..
  | discardAll => exact Part.discardCoreAll_via _
  | resetIdle => exact ((Part.closeEpisode_via s).mono rfl).andThen (Part.enterIdle_via ..) rfl
  | finisher => exact .finisher (.refl s) _ rfl
  | staple => exact (Via.finisher (.refl s) _ rfl).out _ rfl
  | eject => exact Part.eject_via ..
  | stapled => exact Part.stapled_via _
  | ejected => exact (Part.completeEject_via _).mono rfl
  | retain => exact (Part.retain_via _).mono rfl
  | recompile => exact .finisher (.refl s) _ rfl
  | abort => exact (Via.finisher (.refl s) _ rfl).out _ rfl
  | disturb => exact (Part.disturb_via _).mono rfl
  | stapleFails => exact (Via.out (.refl s) _ rfl).finisher _ rfl
  | ejectFails => exact (Via.out (.refl s) _ rfl).finisher _ rfl
  | dropStapleLimit => exact .finisher (.refl s) _ rfl
  | dropEjectLimit => exact .finisher (.refl s) _ rfl
  | dry => exact .dry (.refl s) _ rfl
  | dryRun => exact .dry (.refl s) _ rfl

/-- A move without leave to end one keeps the frame being sent. -/
theorem Move.sending_eq {q : Mode} {A : List Block} {a b : Phase} {s t : Part} (h : Move q A a s b t) (hq : q.withdraw = false) :
    t.link.sending = s.link.sending := by
  cases hA : hasBlock A .link with
  | false => rw [h.via.link_eq hA]
  | true =>
    cases h with
    | link g hg => exact (hg _).1
    | anyLink _ _ _ hw => exact absurd (hw.symm.trans hq) (by decide)
    | discard => rfl
    | _ => cases hA

theorem Moves.sending_eq {q : Mode} {a b : Phase} {s t : Part} (h : Moves q a s b t) (hq : q.withdraw = false) :
    t.link.sending = s.link.sending := by
  induction h with
  | refl => rfl
  | snoc _ m ih => exact (m.sending_eq hq).trans ih

end Sys2Proof.Machine
end

