-- ==== Sys2Proof/Proofs/MovesTrack.lean ====
section
/-! PROOF. The operations of Imaging and Track as strings of moves. -/

namespace Sys2Proof.Machine

variable {q : Mode} {a : Phase} (s : Part)

/-! ## The sheets of the table under a change of one of them -/

/-- The numbers and conditions of the sheets. -/
def Part.idents : List (Nat × Condition) := s.table.sheets.map fun x => (x.number, x.cond)

theorem Part.modSheet_sheets (n : Nat) (g : Sheet → Sheet) :
    (s.modSheet n g).table.sheets = s.table.sheets.map fun x => if x.number = n then g x else x := rfl

theorem Part.modSheet_idents (n : Nat) (g : Sheet → Sheet) (h : ∀ x, (g x).number = x.number ∧ (g x).cond = x.cond) :
    (s.modSheet n g).idents = s.idents := by
  simp only [Part.idents, Part.modSheet_sheets, List.map_map]
  apply List.map_congr_left
  intro x _
  simp only [Function.comp_apply]
  split
  · rw [(h x).1, (h x).2]
  · rfl

theorem Part.idents_of_table {s t : Part} (h : t.table = s.table) : t.idents = s.idents := by
  rw [Part.idents, Part.idents, h]

theorem Part.armNext_idents (n : Nat) : (s.armNext n).idents = s.idents := by
  unfold Part.armNext
  split
  · rfl
  · split
    · exact s.modSheet_idents n _ (by exact fun _ => ⟨rfl, rfl⟩)
    · rw [Part.idents_of_table ((Part.scheduleLeading_via ..).table_eq rfl)]
      exact s.modSheet_idents n _ (by exact fun _ => ⟨rfl, rfl⟩)

/-- Of sheets numbered apart, what `idents` lists under a number is that sheet's condition. -/
theorem Part.cond_of_idents {s t : Part} (h : t.idents = s.idents) (hn : (s.table.sheets.map Sheet.number).Nodup) {x y : Sheet}
    (hx : x ∈ s.table.sheets) (hy : y ∈ t.table.sheets) (e : y.number = x.number) : y.cond = x.cond := by
  have hm : (y.number, y.cond) ∈ s.idents := h ▸ List.mem_map_of_mem hy
  obtain ⟨z, hz, ez⟩ := List.mem_map.mp hm
  obtain ⟨ez, hc⟩ := Prod.mk.inj ez
  rw [← hc, List.inj_on_of_nodup_map hn hz hx (ez.trans e)]

/-- The number list of a table is kept where `idents` is. -/
theorem Part.numbers_of_idents {s t : Part} (h : t.idents = s.idents) :
    t.table.sheets.map Sheet.number = s.table.sheets.map Sheet.number := by
  have := congrArg (List.map Prod.fst) h
  simpa [Part.idents, Function.comp_def] using this

/-! ## Imaging -/

theorem Part.dropSideCall_moves (n : Nat) (back : Bool) : Moves q a s a (s.dropSideCall n back) :=
  (Move.calls _ (Calls.tame_drop _)).moves

/-- A subject of a cascade takes PURGE and gives up its pages; every other sheet stays (R97, R98). -/
theorem Part.spoilSheet_sheets (x : Sheet) : (s.spoilSheet x).table.sheets =
    s.table.sheets.map fun y => if y.number = x.number then (s.force.purged y).release else y := by
  have e : (s.spoilSheet x).table.sheets = (s.table.sheets.map fun y => if y.number = x.number then s.force.purged y else y).map
      fun y => if y.number = x.number then y.release else y := rfl
  rw [e, List.map_map]
  apply List.map_congr_left
  intro y _
  simp only [Function.comp_apply]
  by_cases h : y.number = x.number
  · simp [h, Desc.purged]
  · simp [h]

theorem Part.spoilSheet_numbers (x : Sheet) :
    (s.spoilSheet x).table.sheets.map Sheet.number = s.table.sheets.map Sheet.number := by
  rw [s.spoilSheet_sheets, List.map_map]
  apply List.map_congr_left
  intro y _
  simp only [Function.comp_apply]
  split <;> rfl

theorem Part.mem_spoilSheet_of_ne {x y : Sheet} (hy : y ∈ s.table.sheets) (h : y.number ≠ x.number) :
    y ∈ (s.spoilSheet x).table.sheets := by
  rw [s.spoilSheet_sheets]
  exact List.mem_map.mpr ⟨y, hy, if_neg h⟩

/-- Of sheets numbered apart, the one of number `n` is not STRANDED. -/
def Part.unstranded (n : Nat) : Prop := (s.idents.map Prod.fst).Nodup → (n, Condition.stranded) ∉ s.idents

theorem Part.idents_numbers : s.idents.map Prod.fst = s.table.sheets.map Sheet.number := by
  simp [Part.idents, Function.comp_def]

/-- Sheets that move, in the table under numbers of their own, may be spoiled one after another. -/
theorem Part.spoilAll_moves (ha : a = .settled ∨ ∃ y st path, a = .arriving y st path) (xs : List Sheet)
    (h : (s.table.sheets.map Sheet.number).Nodup → (xs.map Sheet.number).Nodup ∧ ∀ x ∈ xs, x ∈ s.table.sheets ∧ x.cond ≠ .stranded) :
    Moves q a s a (xs.foldl Part.spoilSheet s) := by
  induction xs generalizing s with
  | nil => exact .refl _ _
  | cons x xs ih =>
    refine (Move.spoil x ha fun hn => (h hn).2 x List.mem_cons_self).moves.trans (ih _ fun hn => ?_)
    rw [s.spoilSheet_numbers] at hn
    obtain ⟨hnodup, hmem⟩ := h hn
    obtain ⟨hx, hxs⟩ := List.nodup_cons.mp hnodup
    exact ⟨hxs, fun y hy => (hmem y (List.mem_cons_of_mem _ hy)).imp_left fun hy' => s.mem_spoilSheet_of_ne hy' fun e =>
      hx (e ▸ List.mem_map_of_mem hy)⟩

theorem Part.cascade_moves (ha : a = .settled ∨ ∃ y st path, a = .arriving y st path) (n page : Nat)
    (hm : s.unstranded n) : Moves q a s a (s.cascade n page) := by
  unfold Part.cascade
  refine (s.spoilAll_moves ha (s.subjects n) fun hn => ⟨hn.sublist (List.filter_sublist.map _), fun x hx => ?_⟩).trans
    (Move.spoiled ..).moves
  obtain ⟨mem, subject⟩ := List.mem_filter.mp hx
  refine ⟨mem, fun stranded => ?_⟩
  rw [stranded, Bool.or_eq_true, beq_iff_eq] at subject
  rcases subject with own | below
  · exact hm (by rwa [s.idents_numbers]) (List.mem_map.mpr ⟨x, mem, by rw [own, stranded]⟩)
  · simp at below

/-- A sheet after a change of its side states and flags. -/
theorem Sheet.tame_setSide (back : Bool) (v : SideState) : Sheet.Tame fun y => y.setSide back v := by
  intro y
  cases back <;> exact ⟨rfl, id⟩

theorem Sheet.tame_commit (back : Bool) : Sheet.Tame fun y => y.commit back := by
  intro y
  have flag : ∀ o : Option Page, (o.map fun p => { p with ready := false }).map Page.core = o.map Page.core := by
    intro o
    cases o <;> rfl
  cases back <;> exact ⟨by simp only [Sheet.commit, Sheet.core, flag, if_true, Bool.false_eq_true, if_false], id⟩

theorem Part.decideCommit_moves (ha : a = .settled ∨ ∃ y st path, a = .arriving y st path) (n : Nat) (hm : s.unstranded n) :
    Moves q a s a (s.decideCommit n) := by
  unfold Part.decideCommit
  split
  · exact .refl _ _
  · next x _ =>
    have side : ∀ (p : Part) v, Moves q a p a (p.modSheet n fun y => y.setSide x.backPasses v) := fun p v =>
      (Move.sheet n _ (Sheet.tame_setSide _ v)).moves
    refine (s.dropSideCall_moves n x.backPasses).trans ?_
    dsimp only
    split
    · exact side _ _
    · split
      · exact .refl _ _
      · split
        · exact .refl _ _
        · split
          · exact (Move.sheet n _ (Sheet.tame_commit _)).moves
          · refine ((side _ .spoiled).trans (Move.countPath 4).moves).trans (Part.cascade_moves _ ha n _ ?_)
            unfold Part.unstranded
            rw [Part.idents_of_table ((Part.countPath_via ..).table_eq rfl), Part.modSheet_idents _ _ _ fun y => by
              unfold Sheet.setSide
              split <;> exact ⟨rfl, rfl⟩]
            exact hm

theorem Part.callBack_moves (n : Nat) : Moves q a s a (s.callBack n) := by
  unfold Part.callBack
  split
  · exact .refl _ _
  · split
    · exact .refl _ _
    · split
      · exact (Move.calls _ (Calls.tame_addBack _)).moves.trans (Move.sheet n _ (by exact fun _ => ⟨rfl, id⟩)).moves
      · exact .refl _ _

/-! ## Arrivals -/

theorem Part.countArrival_moves (st : Fin 24) (o : Arrival) : Moves q a s a (s.countArrival st o) := by
  unfold Part.countArrival
  dsimp only
  split
  · exact (Move.countStation st 0).moves.trans (Move.countStation st 1).moves
  · exact (Move.countStation st 0).moves

theorem Part.confirmPick_moves (hk : q.track = true) (x : Sheet) : Moves q a s a (s.confirmPick x) := by
  unfold Part.confirmPick
  exact (Move.clutch x.source false (by exact fun h => nomatch h)).moves.trans (Move.feed _ (by exact fun _ => rfl) (.inl hk)).moves

/-- What a taken arrival does before its role's action: the pick confirmed, the return pass. -/
def Part.passAction (x : Sheet) : Part :=
  let s := if x.index = 1 then s.confirmPick x else s
  if x.returns then s.modSheet x.number fun y => { y with pass := .final } else s

theorem Part.roleAction_eq (x : Sheet) (st : Fin 24) : s.roleAction x st =
    match (s.passAction x).force.roleOf st with
    | some .registration => (s.passAction x).decideCommit x.number
    | some .exit => if x.pass = .first then ((s.passAction x).reserve x .return .duplex).callBack x.number else s.passAction x
    | some .finisherEntry =>
      if (s.passAction x).overruns x then (s.passAction x).jamAt .finisherOverrun st (s.passAction x).tick (some x)
      else s.passAction x
    | _ => s.passAction x := rfl

theorem Part.passAction_moves (hk : q.track = true) (x : Sheet) : Moves q a s a (s.passAction x) := by
  have confirm : Moves q a s a (if x.index = 1 then s.confirmPick x else s) :=
    Moves.ite (fun _ => s.confirmPick_moves hk x) fun _ => .refl _ _
  unfold Part.passAction
  dsimp only
  split
  · exact confirm.trans (Move.sheet x.number _ (by exact fun _ => ⟨rfl, fun _ => rfl⟩)).moves
  · exact confirm

theorem Part.passAction_via (x : Sheet) : Via [.feed, .out, .table] s (s.passAction x) := by
  unfold Part.passAction
  dsimp only
  have confirm : Via [.feed, .out, .table] s (if x.index = 1 then s.confirmPick x else s) :=
    Via.ite ((Part.confirmPick_via ..).mono rfl) (.refl _)
  exact Via.ite (confirm.andThen (Part.modSheet_via ..) rfl) confirm

theorem Part.passAction_idents (x : Sheet) : (s.passAction x).idents = s.idents := by
  have confirm : (if x.index = 1 then s.confirmPick x else s).idents = s.idents := by
    split
    · exact Part.idents_of_table ((s.confirmPick_via x).table_eq rfl)
    · rfl
  unfold Part.passAction
  dsimp only
  split
  · exact (Part.modSheet_idents _ _ _ (by exact fun _ => ⟨rfl, rfl⟩)).trans confirm
  · exact confirm

theorem Part.passAction_path (x : Sheet) : (s.passAction x).feed.path = s.feed.path := by
  unfold Part.passAction Part.confirmPick
  dsimp only
  split <;> split <;> rfl

theorem Part.roleAction_moves (hk : q.track = true) (ha : ∃ y st path, a = .arriving y st path) (x : Sheet) (st : Fin 24)
    (hm : s.unstranded x.number) : Moves q a s a (s.roleAction x st) := by
  have pass := s.passAction_moves (q := q) (a := a) hk x
  have hc : a.calm = true := by obtain ⟨_, _, _, rfl⟩ := ha; rfl
  rw [Part.roleAction_eq]
  split
  · refine pass.trans (Part.decideCommit_moves _ (.inr ha) _ ?_)
    unfold Part.unstranded
    rw [s.passAction_idents]
    exact hm
  · split
    · exact (pass.trans (Part.reserve_moves _ hk ..)).trans (Part.callBack_moves ..)
    · exact pass
  · split
    · exact pass.trans (Part.jamAt_moves _ _ _ _ _ hc)
    · exact pass
  · exact pass

theorem Part.repredictAt_moves (hk : q.track = true) (x : Sheet) (step : Step) : Moves q a s a (s.repredictAt x step) := by
  unfold Part.repredictAt
  split
  · exact Part.repredict_moves _ hk ..
  · exact .refl _ _

/-- The run-out set of an episode leaves out the sheet its jam names (R110). -/
theorem Part.not_mem_runOutSet (j : Jam) (n : Nat) (h : j.sheet = some n) : n ∉ s.runOutSet j := by
  unfold Part.runOutSet
  split
  · simp
  · rw [List.mem_map]
    rintro ⟨x, hx, rfl⟩
    have := List.mem_takeWhile_imp hx
    simp [Part.mayRunOut, h] at this

theorem Part.strand_sheets (p : Sheet → Bool) : (s.strand p).table.sheets = s.table.sheets.map (Sheet.strandIf p) := rfl

/-- The sheets after an episode's opening: those of the run-out set RUNNING OUT, every other STRANDED (R109). -/
theorem Part.openCore_sheets (j : Jam) (extra : AreaSet) : ∃ ns : List Nat,
    ns = ((s.modEpisode fun e => { e with
      number := e.number + 1, isOpen := true, firstKind := some j.kind, records := [j], overflow := 0, areas := extra,
      sweepTimer := none, barred := false }).feedOnEpisode).runOutSet j ∧
    (s.openCore j extra).table.sheets =
      (s.table.sheets.map (Sheet.runOutIf ns)).map (Sheet.strandIf fun x => !ns.contains x.number) := by
  refine ⟨_, rfl, ?_⟩
  unfold Part.openCore
  dsimp only
  rw [(Part.halt_via ..).table_eq rfl, (Part.addFinisherArea_via _).table_eq rfl, (Part.addAreas_via ..).table_eq rfl,
    (Part.retain_via _).table_eq rfl, Part.strand_sheets]
  rfl

@[simp] theorem Sheet.runOutIf_number (ns : List Nat) (x : Sheet) : (Sheet.runOutIf ns x).number = x.number := by
  unfold Sheet.runOutIf
  split <;> rfl

@[simp] theorem Sheet.strandIf_number (p : Sheet → Bool) (x : Sheet) : (Sheet.strandIf p x).number = x.number := by
  unfold Sheet.strandIf
  split <;> rfl

/-- A sheet that `p` picks is STRANDED after. -/
theorem Sheet.strandIf_cond_of (p : Sheet → Bool) (x : Sheet) (h : p x = true) : (Sheet.strandIf p x).cond = .stranded := by
  by_cases hm : x.moving = true
  · simp [Sheet.strandIf, hm, h]
  · have : x.cond = .stranded := by simpa [Sheet.moving] using hm
    simp [Sheet.strandIf, hm, this]

/-- A sheet that `p` does not pick stays as it is. -/
theorem Sheet.strandIf_of_not (p : Sheet → Bool) (x : Sheet) (h : p x = false) : Sheet.strandIf p x = x := by
  simp [Sheet.strandIf, h]

/-- An episode strands the sheet its jam names (R109, R110). -/
theorem Part.openCore_strands (j : Jam) (extra : AreaSet) (n : Nat) (hj : j.sheet = some n) :
    ∀ y ∈ (s.openCore j extra).table.sheets, y.number = n → y.cond = .stranded := by
  obtain ⟨ns, hns, e⟩ := s.openCore_sheets j extra
  intro y hy hn
  rw [e] at hy
  obtain ⟨z, hz, rfl⟩ := List.mem_map.mp hy
  have hnot : n ∉ ns := hns ▸ Part.not_mem_runOutSet _ j n hj
  refine Sheet.strandIf_cond_of _ _ ?_
  rw [Sheet.strandIf_number] at hn
  simpa [hn] using hnot

/-- The sheets after a jam in HALTING (R113). -/
theorem Part.extendHalting_sheets (j : Jam) : (s.extendHalting j).table.sheets =
    s.table.sheets.map (Sheet.strandIf fun x => x.cond == .runningOut && (j.sheet.all fun n => decide (n ≤ x.number))) := by
  have e : ∀ p : Part, p.endHalting.table = p.table := fun p => by
    unfold Part.endHalting
    split
    · exact (((Part.stopDrives_via p).mono (A := [.notices, .feed, .out]) rfl).andThen (Part.setPath_via ..) rfl).table_eq rfl
    · rfl
  rw [Part.extendHalting, e, Part.strand_sheets, (s.addRecord_via j).table_eq rfl]

theorem Sheet.runOutIf_strandIf_numbers (ns : List Nat) (p : Sheet → Bool) (l : List Sheet) :
    ((l.map (Sheet.runOutIf ns)).map (Sheet.strandIf p)).map Sheet.number = l.map Sheet.number := by
  simp [Function.comp_def]

theorem Part.openCore_numbers (j : Jam) (extra : AreaSet) :
    (s.openCore j extra).table.sheets.map Sheet.number = s.table.sheets.map Sheet.number := by
  obtain ⟨ns, -, e⟩ := s.openCore_sheets j extra
  rw [e, Sheet.runOutIf_strandIf_numbers]

theorem Part.extendHalting_numbers (j : Jam) :
    (s.extendHalting j).table.sheets.map Sheet.number = s.table.sheets.map Sheet.number := by
  rw [s.extendHalting_sheets]
  simp [Function.comp_def]

theorem Part.openEpisode_table (j : Jam) (extra : AreaSet) : (s.openEpisode j extra).table = (s.openCore j extra).table := by
  rw [Part.openEpisode_eq, (Part.countPath_via ..).table_eq rfl, (Part.noteRecord_via ..).table_eq rfl]

/-- A jam in a path state that tracks takes no sheet from the table. -/
theorem Part.jamAt_numbers (kind : JamKind) (st : Fin 24) (t : Tick) (x : Option Sheet) (hp : s.feed.path.tracks = true) :
    (s.jamAt kind st t x).table.sheets.map Sheet.number = s.table.sheets.map Sheet.number := by
  have ht : (s.countStation st 2).table = s.table := (s.countStation_via st 2).table_eq rfl
  unfold Part.jamAt Part.takeJam
  rw [(s.countStation_via st 2).feed_eq rfl]
  revert hp
  cases s.feed.path <;> intro hp <;> try contradiction
  case running | draining => dsimp only; rw [Part.openEpisode_table, Part.openCore_numbers, ht]
  case halting => dsimp only; rw [Part.extendHalting_numbers, ht]

/-- After a FINISHER OVERRUN of a tracked sheet `n` it is STRANDED, or it was not RUNNING OUT in HALTING and stays (R109, R113). -/
theorem Part.jamAt_strands (st : Fin 24) (x : Sheet) (t : Tick) (hp : s.feed.path.tracks = true) :
    ∀ y ∈ (s.jamAt .finisherOverrun st t (some x)).table.sheets, y.number = x.number →
      y.cond = .stranded ∨ y ∈ s.table.sheets ∧ s.feed.path = .halting ∧ y.cond ≠ .runningOut := by
  intro y hy hn
  have hf : (s.countStation st 2).feed = s.feed := (s.countStation_via st 2).feed_eq rfl
  unfold Part.jamAt Part.takeJam at hy
  rw [hf] at hy
  revert hp hy
  cases s.feed.path <;> intro hp hy <;> try contradiction
  case running | draining =>
    rw [Part.openEpisode_table] at hy
    exact .inl (Part.openCore_strands _ _ _ _ rfl y hy hn)
  case halting =>
    rw [Part.extendHalting_sheets, (s.countStation_via st 2).table_eq rfl] at hy
    obtain ⟨z, hz, rfl⟩ := List.mem_map.mp hy
    rw [Sheet.strandIf_number] at hn
    cases hc : z.cond == .runningOut with
    | true => exact .inl (Sheet.strandIf_cond_of _ _ (by simp [hc, hn]))
    | false =>
      rw [Sheet.strandIf_of_not _ _ (by simp [hc])]
      exact .inr ⟨hz, rfl, by simpa using hc⟩

/-- The part with an arrival entered, its role's action still to come (R74). -/
def Part.enterArrival (x : Sheet) (step : Step) : Part :=
  ((s.modSheet x.number fun y => y.arrived step.station s.tick).coverWith x step.station s.tick).armNext x.number

theorem Part.enterArrival_via (x : Sheet) (step : Step) : Via [.table, .stations, .dry] s (s.enterArrival x step) :=
  (((Part.modSheet_via ..).mono rfl).andThen (Part.coverWith_via ..) rfl).andThen (Part.armNext_via ..) rfl

theorem Part.enterArrival_idents (x : Sheet) (step : Step) : (s.enterArrival x step).idents = s.idents := by
  unfold Part.enterArrival
  rw [Part.armNext_idents, Part.idents_of_table ((Part.coverWith_via ..).table_eq rfl)]
  exact s.modSheet_idents _ _ (by exact fun _ => ⟨rfl, rfl⟩)

/-- What the Compile Set finds amiss of a sheet, its finisher and capacity alone say. -/
theorem Part.overruns_congr {s t : Part} (hf : t.finisher = s.finisher) (hd : t.force = s.force) (x y : Sheet)
    (h : (y.job, y.set) = (x.job, x.set)) : t.overruns y = s.overruns x := by
  simp only [Part.overruns, hf, hd, h]

/-- An arrival in a path state that tracks is a string of moves, from `cover` to `arrived`. -/
theorem Part.enterArrival_moves (hk : q.track = true) (x : Sheet) (step : Step) (hx : x ∈ s.table.sheets) (hm : x.moving = true)
    (hs : x.nextStep = some step) (hp : s.feed.path.tracks = true) :
    Moves q .settled s .settled ((s.enterArrival x step).roleAction (x.arrived step.station s.tick) step.station) := by
  have entered : Moves q .settled s (.arriving x step.station s.feed.path) (s.enterArrival x step) :=
    (Move.cover x step hx hm hs hp).moves.trans (Part.armNext_moves _ _)
  have unstranded : (s.enterArrival x step).unstranded x.number := fun hn stranded => by
    rw [s.enterArrival_idents] at hn stranded
    obtain ⟨y, hy, e⟩ := List.mem_map.mp stranded
    rw [s.idents_numbers] at hn
    obtain ⟨number, cond⟩ := Prod.mk.inj e
    rw [List.inj_on_of_nodup_map hn hy hx number] at cond
    simp [Sheet.moving, cond] at hm
  have acted := entered.trans (Part.roleAction_moves _ hk ⟨_, _, _, rfl⟩ (x.arrived step.station s.tick) step.station unstranded)
  refine acted.snoc (.arrived fun hrole hover hnodup y hy hn => ?_)
  -- the part the overrun is judged on
  have hid := ((s.enterArrival x step).passAction_idents (x.arrived step.station s.tick)).trans (s.enterArrival_idents x step)
  have hvia := (((s.enterArrival_via x step).mono (A := [.feed, .out, .table, .stations, .dry]) rfl)).andThen
    ((s.enterArrival x step).passAction_via (x.arrived step.station s.tick)) rfl
  have hpath : ((s.enterArrival x step).passAction (x.arrived step.station s.tick)).feed.path = s.feed.path :=
    (Part.passAction_path _ _).trans (congrArg Feed.path ((s.enterArrival_via x step).feed_eq rfl))
  have hacted := (s.enterArrival x step).roleAction_eq (x.arrived step.station s.tick) step.station
  have hforce : ((s.enterArrival x step).roleAction (x.arrived step.station s.tick) step.station).force = s.force :=
    ((Part.roleAction_via ..).force_eq rfl).trans ((s.enterArrival_via x step).force_eq rfl)
  rw [hforce] at hrole
  rw [hvia.force_eq rfl, hrole] at hacted
  dsimp only at hacted
  revert hid hvia hpath hacted
  generalize (s.enterArrival x step).passAction (x.arrived step.station s.tick) = p
  intro hid hvia hpath hacted
  split at hacted
  · rw [hacted] at hy
    rcases p.jamAt_strands step.station (x.arrived step.station s.tick) p.tick (hpath ▸ hp) y hy hn with h | ⟨hmem, hhalt, hc⟩
    · exact .inl h
    · have hsn : (s.table.sheets.map Sheet.number).Nodup := by
        rwa [hacted, p.jamAt_numbers _ _ _ _ (hpath ▸ hp), Part.numbers_of_idents hid] at hnodup
      have e : y.cond = x.cond := Part.cond_of_idents hid hsn hx hmem hn
      exact .inr ⟨e, hpath ▸ hhalt, e ▸ hc⟩
  · next hno =>
    rw [hacted, Part.overruns_congr rfl rfl (x.arrived step.station s.tick) x rfl] at hover
    exact absurd hover (by simpa using hno)

end Sys2Proof.Machine
end

