-- ==== Sys2Proof/Proofs/MovesEdges.lean ====
section
/-! PROOF. Station edges, deliveries, deadlines and synthesised edges as strings of moves. -/

namespace Sys2Proof.Machine

variable {q : Mode} (s : Part)

/-! ## Leading edges -/

theorem soonest_mem {l : List Sheet} {x : Sheet} (h : soonest l = some x) : x ∈ l := by
  induction l generalizing x with
  | nil => cases h
  | cons y l ih =>
    unfold soonest at h
    split at h
    · cases h
      exact List.mem_cons_self
    · next z hz =>
      split at h
      · cases h
        exact List.mem_cons_of_mem _ (ih hz)
      · cases h
        exact List.mem_cons_self

/-- A taken arrival: what the station learns and counts, then the arrival entered, its role's action and the reservation. -/
theorem Part.takeArrival_eq (x : Sheet) (step : Step) (e : Expect) (o : Arrival) : s.takeArrival x step e o =
    let l := (s.learnAt step.station (since (plusTicks x.anchor e.transit) s.tick) o).countArrival step.station o
    ((l.enterArrival x step).roleAction (x.arrived step.station l.tick) step.station).repredictAt x step := by
  have ht : ((s.learnAt step.station (since (plusTicks x.anchor e.transit) s.tick) o).countArrival step.station o).tick = s.tick :=
    (((Part.learnAt_via s ..).mono (A := [.notices, .stations, .stats]) rfl).andThen (Part.countArrival_via ..) rfl).tick_eq rfl
  unfold Part.takeArrival Part.enterArrival
  dsimp only
  rw [ht]

theorem Part.takeArrival_moves (hq : q.learn = true) (hk : q.track = true) (x : Sheet) (step : Step) (e : Expect) (o : Arrival) (hx : x ∈ s.table.sheets)
    (hm : x.moving = true) (hs : x.nextStep = some step) (hp : s.feed.path.tracks = true) :
    Moves q .settled s .settled (s.takeArrival x step e o) := by
  have learned := ((Part.learnAt_via s step.station (since (plusTicks x.anchor e.transit) s.tick) o).mono
    (A := [.notices, .stations, .stats]) rfl).andThen (Part.countArrival_via _ step.station o) rfl
  rw [Part.takeArrival_eq]
  refine (((Move.learnAt _ _ _ hq).moves.trans (Part.countArrival_moves _ _ _)).trans
    (Part.enterArrival_moves _ hk x step ?_ hm hs ?_)).trans (Part.repredictAt_moves _ hk _ _)
  · rwa [learned.table_eq rfl]
  · rwa [learned.feed_eq rfl]

theorem Part.matchLeading_moves (hq : q.learn = true) (hk : q.track = true) (st : Fin 24) (hp : s.feed.path.tracks = true) :
    Moves q .settled s .settled (s.matchLeading st) := by
  have jam := fun kind x => Part.jamAt_moves (q := q) (a := .settled) s kind st s.tick x rfl
  unfold Part.matchLeading
  split
  · exact jam _ _
  · split
    · exact jam _ _
    · next x hx =>
      split
      · next step e hstep hexpect =>
        split
        · exact jam _ _
        · have hmem := Part.mem_awaiting.mp (soonest_mem hx)
          exact s.takeArrival_moves hq hk x step e _ hmem.1 hmem.2.1 hstep hp
      · exact .refl _ _

theorem Part.leadingEdge_moves (hq : q.learn = true) (hk : q.track = true) (st : Fin 24) : Moves q .settled s .settled (s.leadingEdge st) := by
  unfold Part.leadingEdge
  split
  case h_1 => exact s.jamAt_moves .residual st s.tick none rfl
  case h_2 => exact s.jamAt_moves .residual st s.tick none rfl
  case h_3 h => exact s.matchLeading_moves hq hk st (by rw [h]; rfl)
  case h_4 h => exact s.matchLeading_moves hq hk st (by rw [h]; rfl)
  case h_5 h => exact s.matchLeading_moves hq hk st (by rw [h]; rfl)
  all_goals exact .refl _ _

/-! ## Trailing edges -/

theorem Part.checkLength_moves {a : Phase} (ha : a.calm = true) (x : Sheet) (st : Fin 24) (lead : Tick) :
    Moves q a s a (s.checkLength x st lead) := by
  unfold Part.checkLength
  dsimp only
  split
  · exact (Move.countPath 5).moves.trans (Part.jamAt_moves _ _ _ _ _ ha)
  · split
    · exact Part.jamAt_moves _ _ _ _ _ ha
    · exact .refl _ _

theorem Part.deliver_eq (x : Sheet) (st : Fin 24) : s.deliver x st =
    (if s.force.roleOf st = some .finisherEntry ∧ (s.deliverCore x st).finisherSet.settle = 0 then (s.deliverCore x st).completeCompile
      else s.deliverCore x st).armRunOn.endHalting := rfl

theorem Part.deliver_moves (hq : q.deliver = true) (x : Sheet) (st : Fin 24) (h : x.itinerary.getLast?.map Step.station = some st) :
    Moves q (.leaving x st) s .settled (s.deliver x st) := by
  rw [Part.deliver_eq]
  have core : Moves q (.leaving x st) s .delivering (s.deliverCore x st) := (Move.deliver h hq).moves
  have compiled : Moves q (.leaving x st) s .delivering (if s.force.roleOf st = some .finisherEntry ∧
      (s.deliverCore x st).finisherSet.settle = 0 then (s.deliverCore x st).completeCompile else s.deliverCore x st) := by
    split
    · exact core.trans (Part.completeCompile_moves _)
    · exact core
  exact (compiled.snoc .armRunOn).trans (Part.endHalting_moves _ rfl)

theorem Part.takeTrailing_moves (hq : q.deliver = true) (hk : q.track = true) (x : Sheet) (c : Cover) (st : Fin 24) (hx : s.coveringSheet st = some x)
    (hp : s.feed.path.tracks = true) : Moves q .settled s .settled (s.takeTrailing x c st) := by
  have left : Moves q .settled s (.leaving x st) (s.uncover x st) := (Move.uncover x st hx hp).moves
  have checked : Moves q .settled s (.leaving x st) (if x.itinerary.head?.map Step.station = some st then
      (s.uncover x st).checkLength x st c.lead else s.uncover x st) := by
    split
    · exact left.trans (Part.checkLength_moves _ rfl _ _ _)
    · exact left
  unfold Part.takeTrailing
  dsimp only
  generalize (if x.itinerary.head?.map Step.station = some st then (s.uncover x st).checkLength x st c.lead
    else s.uncover x st) = u at checked ⊢
  have freed : Moves q .settled s (.leaving x st)
      (if (u.force.leg .main).steps.head?.map LegStep.station = some st then u.unreserve x else u) := by
    split
    · exact checked.trans (Move.unreserve _ hk).moves
    · exact checked
  split
  · next h => exact freed.trans (Part.deliver_moves _ hq x st h)
  · exact freed.snoc .left

theorem Part.matchTrailing_moves (hq : q.deliver = true) (hk : q.track = true) (st : Fin 24) (hp : s.feed.path.tracks = true) :
    Moves q .settled s .settled (s.matchTrailing st) := by
  unfold Part.matchTrailing
  split
  · next c x _ hx => exact s.takeTrailing_moves hq hk x c st hx hp
  · exact .refl _ _

theorem Part.trailingEdge_moves (hq : q.deliver = true) (hk : q.track = true) (st : Fin 24) : Moves q .settled s .settled (s.trailingEdge st) := by
  unfold Part.trailingEdge
  split
  case h_1 h => exact s.matchTrailing_moves hq hk st (by rw [h]; rfl)
  case h_2 h => exact s.matchTrailing_moves hq hk st (by rw [h]; rfl)
  case h_3 h => exact s.matchTrailing_moves hq hk st (by rw [h]; rfl)
  all_goals exact .refl _ _

/-! ## Deadlines -/

theorem Part.retryPick_moves (hk : q.track = true) (x : Sheet) (hp : s.feed.path = .running ∨ s.feed.path = .draining) :
    Moves q .settled s .settled (s.retryPick x) := by
  unfold Part.retryPick
  dsimp only
  refine (((((Move.sheet x.number _ (by exact fun _ => ⟨rfl, id⟩)).moves.trans (Part.withdrawEdges_moves _ _)).trans
    (Part.armNext_moves _ _)).trans (Move.clutch x.source true fun _ => ?_).moves).trans (Part.repredict_moves _ hk ..)).trans
    (Move.countTray _ 1).moves
  rw [(Part.armNext_via ..).feed_eq rfl, (Part.withdrawEdges_via ..).feed_eq rfl, (Part.modSheet_via ..).feed_eq rfl]
  exact hp

theorem Part.firstExpiry_moves (hk : q.track = true) (x : Sheet) (st : Fin 24) (d : Tick) (hp : s.feed.path = .running ∨ s.feed.path = .draining) :
    Moves q .settled s .settled (s.firstExpiry x st d) := by
  have rest : Moves q .settled s .settled (s.modOut fun o => { o with clutch := o.clutch.set x.source false }) :=
    (Move.clutch x.source false (by exact fun h => nomatch h)).moves
  unfold Part.firstExpiry
  dsimp only
  split
  · exact rest.trans (Part.retryPick_moves _ hk x hp)
  · exact (rest.trans (Move.countTray _ 2).moves).trans (Part.jamAt_moves _ _ _ _ _ rfl)

theorem Part.leadingExpiry_moves (hq : q.tick = true) (hk : q.track = true) (x : Sheet) (step : Step) (d : Tick) :
    Moves q .settled s .settled (s.leadingExpiry x step d) := by
  have cancelled : Moves q .settled s .settled ((s.advance d).modSheet x.number fun y => { y with deadline := none }) :=
    (s.advance_moves hq d).trans (Move.sheet x.number _ (by exact fun _ => ⟨rfl, id⟩)).moves
  unfold Part.leadingExpiry
  dsimp only
  split
  · next h => exact cancelled.trans (Part.firstExpiry_moves _ hk _ _ _ h.2)
  · exact cancelled.trans (Part.jamAt_moves _ _ _ _ _ rfl)

theorem Part.trailingExpiry_moves (hq : q.tick = true) (st : Fin 24) (c : Cover) (d : Tick) (hc : (s.stations[st]).cover = some c) :
    Moves q .settled s .settled (s.trailingExpiry st c d) := by
  unfold Part.trailingExpiry
  dsimp only
  refine ((s.advance_moves hq d).trans (Move.station st _ ⟨rfl, rfl, rfl, rfl, .inr ?_⟩).moves).trans
    (Part.jamAt_moves _ _ _ _ _ rfl)
  rw [(s.advance_via d).stations_eq rfl, hc]
  rfl

/-! ## Synthesised edges -/

theorem Part.runEdge_moves (e : Edge) (ht : q.tick = true) (hk : q.track = true) (hl : e.leading = true → q.learn = true)
    (hd : e.leading = false → s.dry.on = true → q.deliver = true) : Moves q .settled s .settled (s.runEdge e) := by
  have dry : ∀ (p : Part) (g : Dry → List Edge), Moves q .settled p .settled (p.modDry fun d => { d with schedule := g d }) :=
    fun p g => (Move.dry _ (by exact fun _ => ⟨rfl, rfl⟩)).moves
  have taken := (dry s fun d => d.schedule.erase e).trans (Part.advance_moves _ ht e.tick)
  unfold Part.runEdge
  dsimp only
  split
  · next h =>
    have on : s.dry.on = true := by
      simp only [Bool.and_eq_true] at h
      exact h.1.1
    split
    · next h => exact (taken.trans (dry _ fun d => d.schedule ++ trailingOf e)).trans (Part.leadingEdge_moves _ (hl h) hk _)
    · next h =>
      exact (taken.trans (dry _ fun d => d.schedule ++ extrasOf e)).trans
        (Part.trailingEdge_moves _ (hd (by simpa using h) on) hk _)
  · exact taken

end Sys2Proof.Machine
end

