-- ==== Sys2Proof/Proofs/MovesLink.lean ====
section
/-! PROOF. What stands around every command as strings of moves: the transmitter, events, discards and requests. -/

namespace Sys2Proof.Machine

variable {q : Mode} (s : Part)

/-! ## The transmitter (R177) -/

/-- Some notices taken from the pending ones, none of them a JAM or a PROGRESS, while no frame is being sent. -/
theorem Part.taken_moves (hw : q.withdraw = true) (g : Notices → Notices) (hs : s.link.sending = none) (h : ∀ n, (g n).jams = n.jams)
    (hp : ∀ n, (g n).progress = n.progress) : Moves q .settled s .settled (s.modNotices g) :=
  (Move.taken g (fun n => ⟨h n ▸ .refl _, fun i hi => by rwa [hp n] at hi⟩) hs hw).moves

/-- A notice was chosen, by a string of moves. -/
def Part.tells (s : Part) (q : Mode) (c : Choice) : Prop := Moves q .settled s .settled c.part ∧ c.reply = false

theorem Part.chooseCall_tells {c : Choice} (h : s.chooseCall = some c) : s.tells q c := by
  unfold Part.chooseCall at h
  split at h
  · cases h
  · next x rest hq =>
    obtain rfl := Option.some.inj h
    have e : (s.modCalls fun x => promote x.deferred.length { x with queue := rest }) =
        s.modCalls fun x => promote x.deferred.length { x with queue := x.queue.tail } := by
      rw [show rest = s.calls.queue.tail by rw [hq]; rfl]
      rfl
    refine ⟨Moves.trans ?_ (Part.judgeFeed_moves _), rfl⟩
    rw [e]
    exact (Move.calls _ fun y hy => promote_queue_length _ _ (by simpa using Nat.le_succ_of_le hy)).moves

theorem Part.chooseJam_tells (hw : q.withdraw = true) {c : Choice} (hs : s.link.sending = none) (h : s.chooseJam = some c) :
    s.tells q c := by
  unfold Part.chooseJam at h
  split at h
  · cases h
  · next x rest hj =>
    obtain rfl := Option.some.inj h
    have e : (s.modNotices fun n => { n with jams := rest }) = s.modNotices fun n => { n with jams := n.jams.tail } := by
      rw [show rest = s.notices.jams.tail by rw [hj]; rfl]
      rfl
    refine ⟨?_, rfl⟩
    show Moves q .settled s .settled (s.modNotices fun n => { n with jams := rest })
    rw [e]
    exact (Move.taken _ (by exact fun n => ⟨List.tail_sublist _, fun _ h => h⟩) hs hw).moves

theorem Part.chooseSpoil_tells (hw : q.withdraw = true) {c : Choice} (hs : s.link.sending = none) (h : s.chooseSpoil = some c) :
    s.tells q c := by
  obtain ⟨x, -, rfl⟩ := Option.map_eq_some_iff.mp h
  exact ⟨(s.taken_moves hw (fun n => { n with spoil := none }) hs (fun _ => rfl) fun _ => rfl).trans (Move.spoilCount hw).moves, rfl⟩

theorem Part.chooseProgress_tells (hw : q.withdraw = true) {c : Choice} (hs : s.link.sending = none)
    (h : s.chooseProgress = some c) : s.tells q c := by
  unfold Part.chooseProgress at h
  simp only [Option.bind_eq_some_iff, Option.map_eq_some_iff] at h
  obtain ⟨i, -, x, -, rfl⟩ := h
  refine ⟨Moves.trans (Move.taken (fun n => { n with progress := n.progress.set i false })
    (fun n => ⟨.refl _, fun j hj => ?_⟩) hs hw).moves (Move.examineSlot i).moves, rfl⟩
  by_cases e : i = j
  · subst e
    simp at hj
  · simpa [Fin.val_ne_of_ne e] using hj

/-- A notice chosen where its flag stands. -/
theorem Part.tells_of_ite (hw : q.withdraw = true) {b : Prop} [Decidable b] {f : Frame} {g : Notices → Notices} {c : Choice}
    (h : (if b then some (notice f (s.modNotices g)) else none) = some c) (hs : s.link.sending = none)
    (hj : ∀ n, (g n).jams = n.jams) (hp : ∀ n, (g n).progress = n.progress) : s.tells q c := by
  rw [Option.ite_none_right_eq_some] at h
  exact Option.some.inj h.2 ▸ ⟨s.taken_moves hw g hs hj hp, rfl⟩

/-- A notice chosen of something found. -/
theorem Part.tells_of_map (hw : q.withdraw = true) {α : Type} {o : Option α} {f : α → Frame} {g : α → Notices → Notices}
    {c : Choice} (h : (o.map fun x => notice (f x) (s.modNotices (g x))) = some c) (hs : s.link.sending = none)
    (hj : ∀ x n, (g x n).jams = n.jams) (hp : ∀ x n, (g x n).progress = n.progress) : s.tells q c := by
  obtain ⟨x, -, rfl⟩ := Option.map_eq_some_iff.mp h
  exact ⟨s.taken_moves hw (g x) hs (hj x) (hp x), rfl⟩

/-- Every selector but that of the replies chooses a notice. -/
theorem Part.selectors_tell (hw : q.withdraw = true) (hs : s.link.sending = none) {f : Part → Option Choice}
    (hf : f ∈ selectors.tail) {c : Choice} (hc : f s = some c) : s.tells q c := by
  simp only [selectors, List.tail_cons, List.mem_cons, List.not_mem_nil, or_false] at hf
  rcases hf with rfl | rfl | rfl | rfl | rfl | rfl | rfl | rfl | rfl | rfl | rfl | rfl | rfl | rfl | rfl | rfl | rfl | rfl | rfl
  · exact s.chooseCall_tells hc
  · exact s.chooseJam_tells hw hs hc
  · exact s.tells_of_ite hw hc hs (by exact fun _ => rfl) (by exact fun _ => rfl)
  · exact s.tells_of_ite hw hc hs (by exact fun _ => rfl) (by exact fun _ => rfl)
  · exact s.tells_of_map hw hc hs (by exact fun _ _ => rfl) (by exact fun _ _ => rfl)
  · exact s.chooseSpoil_tells hw hs hc
  · exact s.tells_of_map hw hc hs (by exact fun _ _ => rfl) (by exact fun _ _ => rfl)
  · exact s.chooseProgress_tells hw hs hc
  · exact s.tells_of_map hw hc hs (by exact fun _ _ => rfl) (by exact fun _ _ => rfl)
  · exact s.tells_of_map hw hc hs (by exact fun _ _ => rfl) (by exact fun _ _ => rfl)
  · exact s.tells_of_ite hw hc hs (by exact fun _ => rfl) (by exact fun _ => rfl)
  · exact s.tells_of_map hw hc hs (by exact fun _ _ => rfl) (by exact fun _ _ => rfl)
  · exact s.tells_of_map hw hc hs (by exact fun _ _ => rfl) (by exact fun _ _ => rfl)
  · exact s.tells_of_map hw hc hs (by exact fun _ _ => rfl) (by exact fun _ _ => rfl)
  · exact s.tells_of_map hw hc hs (by exact fun _ _ => rfl) (by exact fun _ _ => rfl)
  · exact s.tells_of_ite hw hc hs (by exact fun _ => rfl) (by exact fun _ => rfl)
  · exact s.tells_of_ite hw hc hs (by exact fun _ => rfl) (by exact fun _ => rfl)
  · exact s.tells_of_ite hw hc hs (by exact fun _ => rfl) (by exact fun _ => rfl)
  · exact s.tells_of_ite hw hc hs (by exact fun _ => rfl) (by exact fun _ => rfl)

/-- The selector chooses the oldest reply, or without one a notice. -/
theorem Part.select_cases {c : Choice} (h : s.select = some c) :
    (∃ f rest, s.link.replies = f :: rest ∧ c = ⟨f, true, s.modLink fun l => { l with replies := rest }⟩) ∨
      s.link.replies = [] ∧ ∃ f ∈ selectors.tail, f s = some c := by
  have cons : selectors = Part.chooseReply :: selectors.tail := rfl
  unfold Part.select at h
  rw [cons, List.findSome?_cons] at h
  unfold Part.chooseReply at h
  cases e : s.link.replies with
  | nil =>
    simp only [e] at h
    exact .inr ⟨rfl, List.exists_of_findSome?_eq_some h⟩
  | cons f rest =>
    simp only [e] at h
    exact .inl ⟨f, rest, rfl, (Option.some.inj h).symm⟩

/-- Every choice of the transmit selector is a string of moves. -/
theorem Part.select_moves (hw : q.withdraw = true) (hl : q.link = true) {c : Choice} (hs : s.link.sending = none)
    (h : s.select = some c) : Moves q .settled s .settled c.part := by
  rcases s.select_cases h with ⟨f, rest, -, rfl⟩ | ⟨-, f, hf, hc⟩
  · exact (Move.anyLink (fun l => { l with replies := rest }) (fun _ => rfl) (.inr fun _ => rfl) hw hl).moves
  · exact (s.selectors_tell hw hs hf hc).1

/-- While a frame is being sent the transmitter starts no other. -/
theorem Part.conclude_sending (h : s.link.sending.isSome = true) : s.conclude = s := if_pos h

theorem Part.conclude_moves (hl : q.link = true) (h : q.withdraw = true ∨ s.link.sending.isSome = true) : Moves q .settled s .settled s.conclude := by
  cases hs : s.link.sending with
  | some x =>
    rw [s.conclude_sending (by rw [hs]; rfl)]
    exact .refl _ _
  | none =>
    have hw : q.withdraw = true := h.resolve_right (by simp [hs])
    unfold Part.conclude
    rw [if_neg (by simp [hs])]
    split
    · exact .refl _ _
    · next c hc => exact (s.select_moves hw hl hs hc).trans (Move.anyLink _ (by exact fun _ => rfl) (.inr (by exact fun _ => rfl)) hw hl).moves

/-! ## Events, discards and requests -/

/-- What follows an operation that is a string of moves while a frame is being sent finds it still being sent. -/
theorem Moves.sending {q : Mode} {a b : Phase} {s t : Part} (m : Moves q a s b t)
    (h : q.withdraw = true ∨ s.link.sending.isSome = true) : q.withdraw = true ∨ t.link.sending.isSome = true := by
  rcases Bool.eq_false_or_eq_true q.withdraw with hq | hq
  · exact .inl hq
  · exact .inr (m.sending_eq hq ▸ h.resolve_left (by simp [hq]))

theorem Part.event_moves (ht : q.tick = true) (hl : q.link = true) (h : q.withdraw = true ∨ s.link.sending.isSome = true) (t : Tick) (g : Part → Part)
    (hg : Moves q .settled (s.advance t) .settled (g (s.advance t))) : Moves q .settled s .settled (s.event t g) := by
  have m := (s.advance_moves ht t).trans hg
  exact m.trans (Part.conclude_moves _ hl (m.sending h))

theorem Part.discardFrame_eq : s.discardFrame = s.discardCore.countPath 9 := rfl

theorem Part.discardFrame_moves (hl : q.link = true) : Moves q .settled s .settled s.discardFrame := by
  rw [Part.discardFrame_eq]
  exact (Move.discard hl).moves.trans (Move.countPath 9 (.inl hl)).moves

theorem Part.gapDiscard_moves (ht : q.tick = true) (hl : q.link = true)
    (h : q.withdraw = true ∨ s.link.sending.isSome = true) : Moves q .settled s .settled s.gapDiscard := by
  unfold Part.gapDiscard
  split
  · exact .refl _ _
  · exact s.event_moves ht hl h _ _ (Part.discardFrame_moves _ hl)

theorem Part.acceptFrame_moves (hl : q.link = true) (hk : q.queue = true) (kind : Byte) (body : List Byte) (owner : Part → Answer)
    (ho : ∀ p, Moves q .settled p .settled (owner p).part) : Moves q .settled s .settled (s.acceptFrame kind body owner) := by
  unfold Part.acceptFrame
  split
  · exact s.discardFrame_moves hl
  · exact ((Move.link _ (by exact fun _ => ⟨rfl, id, rfl⟩) (.inl hk) hl).moves.trans (ho _)).trans
      (Move.link _ (by exact fun _ => ⟨rfl, id, rfl⟩) (.inl hk) hl).moves

theorem Part.takeRequest_moves (ht : q.tick = true) (hl : q.link = true) (hk : q.queue = true)
    (h : q.withdraw = true ∨ s.link.sending.isSome = true) (t : Tick) (kind : Byte) (body : List Byte)
    (owner : Part → Answer) (ho : ∀ p, Moves q .settled p .settled (owner p).part) :
    Moves q .settled s .settled (s.takeRequest t kind body owner) :=
  (s.gapDiscard_moves ht hl h).trans
    (Part.event_moves _ ht hl ((s.gapDiscard_moves ht hl h).sending h) _ _ (Part.acceptFrame_moves _ hl hk _ _ _ ho))

theorem Part.expiry_moves (ht : q.tick = true) (hl : q.link = true) (h : q.withdraw = true ∨ s.link.sending.isSome = true) (timer : Option Tick) (g : Part → Part)
    (hg : ∀ d ∈ timer, Moves q .settled (s.advance d) .settled (g (s.advance d))) :
    Moves q .settled s .settled (s.expiry timer g) := by
  unfold Part.expiry
  split
  · exact .refl _ _
  · exact s.event_moves ht hl h _ _ (hg _ rfl)

theorem Part.checked_moves (ok : Bool) (owner : Part → Answer) (ho : ok = true → Moves q .settled s .settled (owner s).part) :
    Moves q .settled s .settled (s.checked ok owner).part := by
  unfold Part.checked
  split
  · next h => exact ho h
  · exact .refl _ _

end Sys2Proof.Machine
end

