-- ==== Sys2Proof/Proofs/MovesOwners.lean ====
section
/-! PROOF. What the owner of each request does as a string of moves. -/

namespace Sys2Proof.Machine

variable {q : Mode} (s : Part)

/-! ## Definition requests -/

/-- An edit that touches neither legs nor timing nor the purge bin. -/
theorem Desc.edit_of_same {count : Nat} {g : Desc → Desc} (hl : ∀ d, (g d).legs = d.legs) (ht : ∀ d, (g d).timing = d.timing)
    (hp : ∀ d, (g d).purge = d.purge) : Desc.Edit count g where
  legs d h := by unfold Desc.legsInRange; rwa [hl d]
  window d h := by rwa [ht d]
  purge d := .inl (hp d)

theorem mapM_length {α β : Type} {f : α → Option β} {l : List α} {m : List β} (h : l.mapM f = some m) : m.length = l.length := by
  induction l generalizing m with
  | nil => cases h; rfl
  | cons x l ih =>
    simp only [List.mapM_cons, Option.bind_eq_bind, Option.bind_eq_some_iff] at h
    obtain ⟨y, -, ys, hys, h⟩ := h
    cases h
    simp [ih hys]

/-- A body of LEG DEF carries 1 to 8 steps. -/
theorem legLengthOk_steps {b : List Byte} (h : legLengthOk b = true) : inRange 1 8 ((b.length - 4) / 3) := by
  simp only [legLengthOk, List.any_eq_true, List.mem_range, beq_iff_eq] at h
  obtain ⟨k, hk, e⟩ := h
  constructor <;> omega

theorem readLeg_steps {b : List Byte} {x : LegName × Leg} (h : readLeg b = some x) : x.2.steps.length = (b.length - 4) / 3 := by
  simp only [readLeg, Option.bind_eq_bind, Option.bind_eq_some_iff] at h
  obtain ⟨leg, -, -, -, steps, hs, e⟩ := h
  have hx : x.2.steps = steps := by
    split at e <;>
    · obtain ⟨_, -, e⟩ := Option.bind_eq_some_iff.mp e
      exact Option.some.inj e ▸ rfl
  simpa [hx] using mapM_length hs

theorem Desc.edit_withLeg {count : Nat} {b : List Byte} {x : LegName × Leg} (hb : legLengthOk b = true)
    (h : readLeg b = some x) : Desc.Edit count (Desc.withLeg x) where
  legs d hd := by
    intro i y hy
    simp only [Desc.withLeg] at hy
    by_cases e : x.1.pos = i
    · subst e
      obtain rfl : x.2 = y := by simpa using hy
      rw [readLeg_steps h]
      exact legLengthOk_steps hb
    · refine hd i y ?_
      simpa [Vector.getElem_set, Fin.val_ne_of_ne e] using hy
  window d h := h
  purge d := .inl rfl

theorem within_eq_some {lo hi v x : Nat} (h : within lo hi v = some x) : x = v ∧ inRange lo hi v := by
  unfold within at h
  split at h
  · next hr => exact ⟨(Option.some.inj h).symm, hr⟩
  · cases h

/-- What a reading of several fields answers, its first field was read. -/
theorem bind_some {α β : Type} {o : Option α} {f : α → Option β} {y : β} (h : (o >>= f) = some y) : ∃ x, o = some x ∧ f x = some y :=
  Option.bind_eq_some_iff.mp h

/-- A body of TIMING DEF that reads carries a window of 4 or 5 (R10). -/
theorem readTiming_window {b : List Byte} {x : Timing} (h : readTiming b = some x) : inRange 4 5 x.window := by
  unfold readTiming at h
  obtain ⟨_, -, h⟩ := bind_some h
  obtain ⟨_, -, h⟩ := bind_some h
  obtain ⟨_, -, h⟩ := bind_some h
  obtain ⟨_, -, h⟩ := bind_some h
  obtain ⟨w, hw, h⟩ := bind_some h
  obtain ⟨rfl, hr⟩ := within_eq_some hw
  obtain ⟨_, -, h⟩ := bind_some h
  obtain ⟨_, -, h⟩ := bind_some h
  obtain ⟨_, -, h⟩ := bind_some h
  obtain ⟨_, -, h⟩ := bind_some h
  obtain ⟨_, -, h⟩ := bind_some h
  obtain ⟨_, -, h⟩ := bind_some h
  obtain ⟨_, -, h⟩ := bind_some h
  obtain ⟨_, -, h⟩ := bind_some h
  obtain ⟨_, -, h⟩ := bind_some h
  obtain ⟨_, -, h⟩ := bind_some h
  exact Option.some.inj h ▸ hr

theorem Desc.edit_withTiming {count : Nat} {b : List Byte} {x : Timing} (h : readTiming b = some x) :
    Desc.Edit count (Desc.withTiming x) where
  legs d h := h
  window d _ := by
    have hw := (readTiming_window h).1
    exact Nat.le_trans (by decide) hw
  purge d := .inl rfl

theorem Desc.edit_withUnit {count : Nat} {b : List Byte} {x : UnitSet} (h : readUnit b count = some x) :
    Desc.Edit count (Desc.withUnit x) := by
  cases x with
  | tray u y => exact Desc.edit_of_same (fun _ => rfl) (fun _ => rfl) fun _ => rfl
  | bin i line => exact Desc.edit_of_same (fun _ => rfl) (fun _ => rfl) fun _ => rfl
  | purge y =>
    refine ⟨fun d h => h, fun d h => h, fun d => .inr ⟨y, rfl, ?_⟩⟩
    have tray : ∀ u, readTray b u ≠ some (.purge y) := by
      intro u hu
      simp only [readTray, Option.bind_eq_bind, Option.bind_eq_some_iff] at hu
      obtain ⟨_, _, _, _, _, _, _, _, hu⟩ := hu
      cases hu
    unfold readUnit at h
    split at h
    · exact absurd h (tray 0)
    · exact absurd h (tray 1)
    · exact absurd h (tray 2)
    · exact absurd h (tray 3)
    · exact absurd h (tray 4)
    · obtain ⟨_, _, h⟩ := Option.map_eq_some_iff.mp h
      cases h
    · obtain ⟨_, _, h⟩ := Option.map_eq_some_iff.mp h
      cases h
    · simp only [Option.bind_eq_bind, Option.bind_eq_some_iff] at h
      obtain ⟨_, _, c, _, h⟩ := h
      unfold onlyIf at h
      split at h
      · next hc =>
        cases h
        simpa using hc
      · cases h
    · cases h

theorem Part.define_moves (hq : q.define = true) (edit : Option (Desc → Desc)) (h : ∀ g ∈ edit, Desc.Edit s.gate.purgeCount g) :
    Moves q .settled s .settled (s.define edit).part := by
  unfold Part.define
  split
  · next hd =>
    split
    · exact .refl _ _
    · next g => exact (Move.define g (h g rfl) hd hq).moves
  · exact .refl _ _

/-- A definition request whose edit touches neither legs nor timing nor the purge bin. -/
theorem Part.define_same_moves {α : Type} (hq : q.define = true) (o : Option α) (g : α → Desc → Desc) (hl : ∀ x d, (g x d).legs = d.legs)
    (ht : ∀ x d, (g x d).timing = d.timing) (hp : ∀ x d, (g x d).purge = d.purge) :
    Moves q .settled s .settled (s.define (o.map g)).part :=
  s.define_moves hq _ fun e he => by
    obtain ⟨x, -, rfl⟩ := Option.map_eq_some_iff.mp he
    exact Desc.edit_of_same (hl x) (ht x) (hp x)

theorem ownerStationDef_moves (hq : q.define = true) (b : List Byte) : Moves q .settled s .settled (ownerStationDef b s).part :=
  s.checked_moves _ _ fun _ => s.define_same_moves hq _ _ (fun _ _ => rfl) (fun _ _ => rfl) fun _ _ => rfl

theorem ownerLegDef_moves (hq : q.define = true) (b : List Byte) : Moves q .settled s .settled (ownerLegDef b s).part :=
  s.checked_moves _ _ fun hb => s.define_moves hq _ fun e he => by
    obtain ⟨x, hx, rfl⟩ := Option.map_eq_some_iff.mp he
    exact Desc.edit_withLeg hb hx

theorem ownerDriveDef_moves (hq : q.define = true) (b : List Byte) : Moves q .settled s .settled (ownerDriveDef b s).part :=
  s.checked_moves _ _ fun _ => s.define_same_moves hq _ _ (fun _ _ => rfl) (fun _ _ => rfl) fun _ _ => rfl

theorem ownerTrayDef_moves (hq : q.define = true) (b : List Byte) : Moves q .settled s .settled (ownerTrayDef b s).part :=
  s.checked_moves _ _ fun _ => s.define_moves hq _ fun e he => by
    obtain ⟨x, hx, rfl⟩ := Option.map_eq_some_iff.mp he
    exact Desc.edit_withUnit hx

theorem ownerDoorDef_moves (hq : q.define = true) (b : List Byte) : Moves q .settled s .settled (ownerDoorDef b s).part :=
  s.checked_moves _ _ fun _ => s.define_same_moves hq _ _ (fun _ _ => rfl) (fun _ _ => rfl) fun _ _ => rfl

theorem ownerTimingDef_moves (hq : q.define = true) (b : List Byte) : Moves q .settled s .settled (ownerTimingDef b s).part :=
  s.checked_moves _ _ fun _ => s.define_moves hq _ fun e he => by
    obtain ⟨x, hx, rfl⟩ := Option.map_eq_some_iff.mp he
    exact Desc.edit_withTiming hx

theorem ownerFinisherDef_moves (hq : q.define = true) (b : List Byte) : Moves q .settled s .settled (ownerFinisherDef b s).part :=
  s.checked_moves _ _ fun _ => by
    unfold Part.defineFinisher
    split
    · exact s.define_same_moves hq _ _ (fun _ _ => rfl) (fun _ _ => rfl) fun _ _ => rfl
    · exact .refl _ _

theorem ownerLineDef_moves (hq : q.define = true) (b : List Byte) : Moves q .settled s .settled (ownerLineDef b s).part :=
  s.checked_moves _ _ fun _ => s.define_same_moves hq _ _ (fun x _ => by cases x <;> rfl) (fun x _ => by cases x <;> rfl)
    fun x _ => by cases x <;> rfl

/-- An answer given behind the judgements of the end of the event. -/
theorem Moves.judged {t : Part} (h : Moves q .settled s .settled t) : Moves q .settled s .settled t.judge.done.part :=
  h.trans t.judge_moves

/-! ## PATH CLOSE and NOTICE MASK -/

theorem Part.judgeConditions_moves (hq : q.doors = true) : Moves q .settled s .settled s.judgeConditions := by
  have judged := (((((Move.judgeIntakeLow .normal).moves.trans (Move.judgeIntakeLow .priority).moves).trans
    (Part.judgeSupplies_moves (q := q) (a := .settled) ((s.judgeIntakeLow .normal).judgeIntakeLow .priority))).trans
    Move.judgePurgeFull.moves).trans (Moves.fold (List.finRange 8) _ fun _ d => (Move.judgeDoor d).moves)).trans
    (Move.dropDoorNotices hq).moves
  unfold Part.judgeConditions
  dsimp only
  split
  · exact judged.trans (Move.gates _ (by exact fun _ => rfl)).moves
  · exact judged

/-- A change made for each of some items keeps what it keeps for one. -/
theorem foldl_keeps {α β γ : Type} {f : β → α → β} (k : β → γ) (h : ∀ b x, k (f b x) = k b) (l : List α) (b : β) :
    k (l.foldl f b) = k b := by
  induction l generalizing b with
  | nil => rfl
  | cons x l ih => exact (ih _).trans (h b x)

theorem Part.judgeSupplies_path : s.judgeSupplies.feed.path = s.feed.path := by
  unfold Part.judgeSupplies
  exact (foldl_keeps (f := Part.judgeBinFull) (fun p => p.feed.path) (fun _ _ => rfl) (List.finRange 2) _).trans
    (foldl_keeps (f := Part.judgeTrayEmpty) (fun p => p.feed.path) (fun _ _ => rfl) (List.finRange 5) s)

/-- The conditions judged at a PATH CLOSE, the diverters' rest apart. -/
def Part.closeConditions : Part :=
  ((List.finRange 8).foldl Part.judgeDoor
    ((s.judgeIntakeLow .normal).judgeIntakeLow .priority).judgeSupplies.judgePurgeFull).dropDoorNotices

theorem Part.judgeConditions_eq :
    s.judgeConditions = if s.closeConditions.anyDoorOpen then s.closeConditions.restGates else s.closeConditions := rfl

theorem Part.closeConditions_via : Via [.notices, .intake, .feed, .gate, .episode] s s.closeConditions := by
  have low := (((s.judgeIntakeLow_via .normal).mono (A := [.notices, .intake, .feed, .gate, .episode]) rfl).andThen
    (Part.judgeIntakeLow_via _ .priority) rfl).andThen (Part.judgeSupplies_via _) rfl
  unfold Part.closeConditions Part.dropDoorNotices
  exact (Via.fold (low.andThen (Part.judgePurgeFull_via _) rfl) (List.finRange 8) fun p d => (p.judgeDoor_via d).mono rfl).notices _ rfl

theorem Part.judgeConditions_via : Via [.notices, .intake, .feed, .out, .gate, .episode] s s.judgeConditions := by
  rw [Part.judgeConditions_eq]
  exact Via.ite ((s.closeConditions_via.mono rfl).out _ rfl) (s.closeConditions_via.mono rfl)

theorem Part.judgeConditions_path : s.judgeConditions.feed.path = s.feed.path := by
  have h : s.closeConditions.feed.path = s.feed.path := by
    have low : ∀ (p : Part) k, (p.judgeIntakeLow k).feed = p.feed := fun p k => (p.judgeIntakeLow_via k).feed_eq rfl
    have door := foldl_keeps (f := Part.judgeDoor) (fun p => p.feed.path) (fun _ _ => rfl) (List.finRange 8)
      ((s.judgeIntakeLow .normal).judgeIntakeLow .priority).judgeSupplies.judgePurgeFull
    unfold Part.closeConditions Part.dropDoorNotices
    refine door.trans ?_
    rw [show ((s.judgeIntakeLow .normal).judgeIntakeLow .priority).judgeSupplies.judgePurgeFull.feed =
      ((s.judgeIntakeLow .normal).judgeIntakeLow .priority).judgeSupplies.feed from (Part.judgePurgeFull_via _).feed_eq rfl,
      Part.judgeSupplies_path, low, low]
  rw [Part.judgeConditions_eq]
  split
  · exact h
  · exact h

theorem Part.heldOver_moves (hp : s.feed.path ≠ .unconfigured) : Moves q .settled s .settled s.heldOver := by
  have spent : Moves q .settled s .settled (s.modEpisode fun e => { e with heldOver := none }) :=
    (Move.episode _ (by exact fun _ => rfl)).moves
  unfold Part.heldOver
  dsimp only
  split
  · exact spent.trans (Part.openEpisode_moves _ _ _ (.inl ⟨rfl, rfl⟩) hp)
  · split
    · exact spent.trans (Part.openEpisode_moves _ _ _ (.inl ⟨rfl, rfl⟩) hp)
    · exact spent

/-- What PATH CLOSE does once the description is in force (R17). -/
theorem Part.closePath_moves (hq : q.doors = true) (hd : s.definable = true) (hb : s.stored.badPath = none) :
    Moves q .settled s.putInForce .settled s.answerPathClose.part := by
  unfold Part.answerPathClose
  rw [if_pos hd, hb]
  dsimp only
  have closed := Part.judgeConditions_moves (q := q) s.putInForce hq
  have via := (s.putInForce_via.mono (A := [.stations, .force, .lines, .notices, .feed, .intake, .gate, .episode, .out])
    rfl).andThen (Part.judgeConditions_via _) rfl
  have hforce : s.putInForce.judgeConditions.force = s.stored := Part.judgeConditions_via _ |>.force_eq rfl
  split
  · next hu =>
    refine Moves.judged _ ((closed.trans (Move.closed ?_ ?_ ?_).moves).trans (Part.heldOver_moves _ ?_))
    · rw [Part.judgeConditions_path]
      exact hu
    · rw [hforce, hb]
    · rw [hforce, via.stored_eq rfl]
    · unfold Part.enterIdle
      rw [Part.setPath_path]
      decide
  · exact Moves.judged _ closed

/-- A PATH CLOSE that does not put the stored description in force is refused (R15). -/
theorem Part.answerPathClose_refused (h : ¬ (s.definable = true ∧ s.stored.badPath = none)) : s.answerPathClose.part = s := by
  unfold Part.answerPathClose
  split
  · next hd =>
    split
    · rfl
    · next hb => exact (h ⟨hd, hb⟩).elim
  · rfl

theorem Part.answerPathClose_moves (hq : q.doors = true) (hf : q.force = true) : Moves q .settled s .settled s.answerPathClose.part := by
  by_cases h : s.definable = true ∧ s.stored.badPath = none
  · exact (Move.putInForce h.1 h.2 hf).moves.trans (s.closePath_moves hq h.1 h.2)
  · rw [s.answerPathClose_refused h]
    exact .refl _ _

theorem ownerPathClose_moves (hq : q.doors = true) (hf : q.force = true) (b : List Byte) : Moves q .settled s .settled (ownerPathClose b s).part :=
  s.checked_moves _ _ fun _ => s.answerPathClose_moves hq hf

theorem Part.setMask_moves (hw : q.withdraw = true) (hq : q.mask = true) (m : Mask) : Moves q .settled s .settled (s.setMask m) := by
  have freed := Moves.fold (q := q) (a := .settled) (f := Part.examineSlot) (List.finRange 8)
    ((s.modMask fun _ => m).modNotices fun n => n.masked m) fun p i => (Move.examineSlot i).moves
  exact (Move.mask m hw hq).moves.trans freed

@[simp] theorem Part.done_part : s.done.part = s := rfl

theorem Part.answerMask_moves (hw : q.withdraw = true) (hq : q.mask = true) (b : List Byte) : Moves q .settled s .settled (s.answerMask b).part := by
  unfold Part.answerMask
  split
  · rw [Part.done_part]
    exact s.setMask_moves hw hq (readMask b)
  · exact .refl _ _

theorem ownerNoticeMask_moves (hw : q.withdraw = true) (hq : q.mask = true) (b : List Byte) :
    Moves q .settled s .settled (ownerNoticeMask b s).part :=
  s.checked_moves _ _ fun _ => s.answerMask_moves hw hq b

/-! ## Intake requests -/

theorem readPage_origin {b : List Byte} {p : Page} (h : readPage b = some p) : p.origin = none := by
  simp only [readPage, Option.bind_eq_bind, Option.bind_eq_some_iff] at h
  obtain ⟨_, _, h⟩ := h
  exact Option.some.inj h ▸ rfl

theorem ownerPage_moves (hq : q.accept = true) (b : List Byte) : Moves q .settled s .settled (ownerPage b s).part :=
  s.checked_moves _ _ fun _ => by
    unfold Part.answerPage
    split
    · exact .refl _ _
    · next hu =>
      split
      · exact .refl _ _
      · next p hp =>
        split
        · exact .refl _ _
        · next hr => exact Moves.judged s (Move.acceptPage p hu (readPage_origin hp) hr hq).moves

theorem ownerImageReady_moves (b : List Byte) : Moves q .settled s .settled (ownerImageReady b s).part :=
  s.checked_moves _ _ fun _ => by
    unfold Part.answerImageReady
    dsimp only
    split
    · exact Moves.judged s (Move.setReady _).moves
    · exact .refl _ _

theorem ownerAbandonJob_moves (hq : q.abandon = true) (b : List Byte) : Moves q .settled s .settled (ownerAbandonJob b s).part :=
  s.checked_moves _ _ fun _ => by
    unfold Part.answerAbandon
    dsimp only
    split
    · exact .refl _ _
    · next hu =>
      split
      · next i x hi _ =>
        exact Moves.judged s (((Move.abandon (numAt b 0 1) i hu hi hq).moves.trans (Move.judgeIntakeLow x.queue).moves).trans
          (Move.examineSlot i).moves)
      · exact .refl _ _

/-! ## The scheduler's, the tracker's and the episode's requests -/

/-- HOLD and CONTINUE are taken in no state of an open episode. -/
theorem PathState.inEpisode_of_holdRefusal {p : PathState} (h : p.holdRefusal = none) : p.inEpisode = false := by
  cases p <;> first | rfl | cases h

theorem ownerHold_moves (b : List Byte) : Moves q .settled s .settled (ownerHold b s).part :=
  s.checked_moves _ _ fun _ => by
    unfold Part.answerHold
    split
    · exact .refl _ _
    · next h =>
      have hp := PathState.inEpisode_of_holdRefusal h
      split
      · exact Moves.judged s (Move.hold Feed.holdAtSheet (fun f => by unfold Feed.holdAtSheet; split <;> rfl) hp).moves
      · refine Moves.judged s (Move.hold Feed.holdAtSetEnd (fun f => ?_) hp).moves
        unfold Feed.holdAtSetEnd
        split
        · rfl
        · split <;> rfl
      · exact .refl _ _

theorem ownerContinueFeed_moves (b : List Byte) : Moves q .settled s .settled (ownerContinueFeed b s).part :=
  s.checked_moves _ _ fun _ => by
    unfold Part.answerContinue
    split
    · exact .refl _ _
    · next h =>
      exact Moves.judged s (Move.hold _ (by exact fun _ => rfl) (PathState.inEpisode_of_holdRefusal h)).moves

theorem ownerResyncStation_moves (hq : q.learn = true) (b : List Byte) : Moves q .settled s .settled (ownerResyncStation b s).part :=
  s.checked_moves _ _ fun _ => by
    unfold Part.answerResync
    split
    · exact .refl _ _
    · split
      · exact .refl _ _
      · exact (Move.resync _ hq).moves

theorem ownerHostStop_moves (b : List Byte) : Moves q .settled s .settled (ownerHostStop b s).part :=
  s.checked_moves _ _ fun _ => by
    unfold Part.answerStop
    split
    case h_9 h => exact Moves.judged s (Move.abandonSweep true rfl h).moves
    case h_5 | h_6 | h_7 | h_8 => exact Moves.judged s (s.takeJam_moves _ rfl)
    all_goals exact .refl _ _

theorem ownerSweep_moves (b : List Byte) : Moves q .settled s .settled (ownerSweep b s).part :=
  s.checked_moves _ _ fun _ => by
    unfold Part.answerSweep
    split
    · exact .refl _ _
    · next h =>
      split
      · exact Moves.judged s ((Move.episode (fun e => { e with barred := false }) fun _ => rfl).moves.trans (Part.startSweep_moves _ h))
      · exact .refl _ _
    · exact .refl _ _

theorem ownerPlanRead_moves (b : List Byte) : Moves q .settled s .settled (ownerPlanRead b s).part :=
  s.checked_moves _ _ fun _ => by
    unfold Part.answerPlanRead
    dsimp only
    split
    · exact .refl _ _
    · split
      · exact (Move.planRead (fun x => { x with readThrough := x.readThrough || _ }) fun _ => rfl).moves
      · exact .refl _ _
    · exact .refl _ _

theorem Part.resumePath_moves (h : s.feed.path = .resumable) : Moves q .settled s .settled s.resumePath := by
  unfold Part.resumePath
  dsimp only
  exact ((((Move.planRead (fun x => { x with readThrough := false }) fun _ => rfl).moves.trans (Move.resume (by exact h)).moves).trans
    (Part.resumeFinisher_moves _ (.inr rfl))).trans (Part.judgeSelector_moves _)).trans
    (Part.enterStarting_moves _ (.inr rfl))

theorem ownerResume_moves (b : List Byte) : Moves q .settled s .settled (ownerResume b s).part :=
  s.checked_moves _ _ fun _ => by
    unfold Part.answerResume
    split
    · exact .refl _ _
    · split
      · exact .refl _ _
      · next h =>
        split
        · exact .refl _ _
        · split
          · exact .refl _ _
          · exact Moves.judged s (s.resumePath_moves (Decidable.not_not.mp h))

/-! ## Reads, counters, dry run and PATH RESET -/

theorem ownerStatusRead_moves (b : List Byte) : Moves q .settled s .settled (ownerStatusRead b s).part :=
  s.checked_moves _ _ fun _ => .refl _ _

theorem ownerSheetRead_moves (b : List Byte) : Moves q .settled s .settled (ownerSheetRead b s).part :=
  s.checked_moves _ _ fun _ => by
    unfold Part.answerSheetRead
    dsimp only
    split
    · exact .refl _ _
    · exact .refl _ _

theorem ownerJamRead_moves (b : List Byte) : Moves q .settled s .settled (ownerJamRead b s).part :=
  s.checked_moves _ _ fun _ => by
    unfold Part.answerJamRead
    dsimp only
    split
    · exact .refl _ _
    · exact .refl _ _

theorem ownerCounterRead_moves (hq : q.clear = true) (b : List Byte) : Moves q .settled s .settled (ownerCounterRead b s).part :=
  s.checked_moves _ _ fun _ => by
    unfold Part.answerCounterRead
    split
    · exact .refl _ _
    · dsimp only
      split
      · exact (Move.clearCounters _ _ 0 hq).moves
      · exact .refl _ _

theorem ownerCounterWidth_moves (hq : q.clear = true) (b : List Byte) : Moves q .settled s .settled (ownerCounterWidth b s).part :=
  s.checked_moves _ _ fun _ => by
    unfold Part.answerCounterWidth
    split
    · exact .refl _ _
    · exact (Move.setWidth _ _ _ hq).moves

theorem ownerDryRun_moves (hq : q.dryRun = true) (b : List Byte) : Moves q .settled s .settled (ownerDryRun b s).part :=
  s.checked_moves _ _ fun _ => by
    unfold Part.answerDryRun
    split
    · next h =>
      split
      · exact ((Move.dryRun true s.feed.nextSheet h.1 hq).moves.trans (Part.judgeSupplies_moves _)).trans Move.judgePurgeFull.moves
      · show Moves q .settled s .settled s.dryRunOff
        unfold Part.dryRunOff
        split
        · exact ((Move.dryRun false s.dry.firstSheet h.1 hq).moves.trans (Part.judgeSupplies_moves _)).trans
            Move.judgePurgeFull.moves
        · exact .refl _ _
      · exact .refl _ _
    · exact .refl _ _

theorem ownerFaultPlan_moves (b : List Byte) : Moves q .settled s .settled (ownerFaultPlan b s).part :=
  s.checked_moves _ _ fun _ => by
    unfold Part.answerFaultPlan
    split
    · split
      · next l _ => exact (Move.dry (fun d => { d with plan := l }) fun _ => ⟨rfl, rfl⟩).moves
      · exact .refl _ _
    · exact .refl _ _

theorem Part.anyDoorOpen_congr {s t : Part} (hf : t.force = s.force) (hl : t.lines = s.lines) : t.anyDoorOpen = s.anyDoorOpen := by
  have h : t.doorIsOpen = s.doorIsOpen := by
    funext d
    simp only [Part.doorIsOpen, Part.levelOf, hf, hl]
  rw [Part.anyDoorOpen, Part.anyDoorOpen, h]

theorem Part.discardAll_eq : s.discardAll = s.discardCoreAll.judgeSupplies := rfl

theorem Part.discardAll_via : Via [.intake, .feed, .table, .stations, .calls, .planner, .finisher, .dry, .episode, .notices, .out]
    s s.discardAll := by
  rw [Part.discardAll_eq]
  exact s.discardCoreAll_via.andThen (Part.judgeSupplies_via _) rfl

theorem Part.answerPathReset_moves (hw : q.withdraw = true) : Moves q .settled s .settled s.answerPathReset.part := by
  unfold Part.answerPathReset
  split
  · exact .refl _ _
  · next hu =>
    have reset : Moves q .settled s .resetting s.discardAll := (Move.discardAll hu hw).moves.trans (Part.judgeSupplies_moves _)
    have via := s.discardAll_via
    have hp : s.discardAll.feed.path ≠ .unconfigured := by
      rw [s.discardAll_eq, Part.judgeSupplies_path]
      exact hu
    refine Moves.judged s ?_
    split
    · exact reset.trans (Part.openEpisode_moves _ _ _ (.inr ⟨rfl, rfl⟩) hp)
    · next hd =>
      refine reset.snoc (.resetIdle hp ?_)
      rw [Part.anyDoorOpen_congr (via.force_eq rfl) (via.lines_eq rfl)]
      simp only [Part.resetOpens, Bool.or_eq_true, not_or, Bool.not_eq_true] at hd
      exact hd.2

theorem ownerPathReset_moves (hw : q.withdraw = true) (b : List Byte) :
    Moves q .settled s .settled (ownerPathReset b s).part :=
  s.checked_moves _ _ fun _ => s.answerPathReset_moves hw

end Sys2Proof.Machine
end

