-- ==== Sys2Proof/Proofs/MovesStep.lean ====
section
/-! PROOF. Every command and the path tick as strings of moves; what every move keeps, every step keeps. -/

namespace Sys2Proof.Machine

variable {q : Mode} (s : Part)

/-! ## Lines and doors -/

theorem Part.supplyChanged_moves (g : Part → Part) (hg : Moves q .settled s .settled (g s)) :
    Moves q .settled s .settled (s.supplyChanged g) := by
  unfold Part.supplyChanged
  split
  · exact s.judge_moves
  · exact hg.trans (Part.judge_moves _)

theorem Part.purgeBinEdge_moves (hl : q.lines = true) (he : q.empty = true) (v : Bool) : Moves q .settled s .settled (s.purgeBinEdge v) := by
  unfold Part.purgeBinEdge
  dsimp only
  split
  · exact (((s.lineEdge_moves hl .purgeRemoved v).trans (Move.emptyBin he).moves).trans Move.judgePurgeFull.moves).trans
      (Part.judge_moves _)
  · exact s.lineEdge_moves hl .purgeRemoved v

theorem Part.stationEdge_moves (hl : q.lines = true) (st : Fin 24) (v : Bool) (g : Part → Part) (hg : ∀ p, Moves q .settled p .settled (g p)) :
    Moves q .settled s .settled (s.stationEdge st v g) := by
  unfold Part.stationEdge
  dsimp only
  split
  · exact s.lineEdge_moves hl _ v
  · exact ((s.lineEdge_moves hl _ v).trans (hg _)).trans (Part.judge_moves _)

theorem Part.doorEdge_moves (hl : q.lines = true) (d : Fin 8) (v : Bool) (g : Part → Part) (hg : ∀ p, Moves q .settled p .settled (g p)) :
    Moves q .settled s .settled (s.doorEdge d v g) := by
  unfold Part.doorEdge
  split
  · exact (s.lineEdge_moves hl _ v).trans (hg _)
  · exact .refl _ _

theorem Part.homeEdge_moves (hl : q.lines = true) (r : InputRole) (v : Bool) (g : Part → Part) (hg : ∀ p, Moves q .settled p .settled (g p)) :
    Moves q .settled s .settled (s.homeEdge r v g) := by
  unfold Part.homeEdge
  dsimp only
  split
  · exact ((s.lineEdge_moves hl _ v).trans (hg _)).trans (Part.judge_moves _)
  · exact s.lineEdge_moves hl _ v

theorem Part.openInState_moves (j : Jam) (onto : Bool) : Moves q .settled s .settled (s.openInState j onto) := by
  unfold Part.openInState
  split
  case h_3 =>
    split
    · exact s.takeJam_moves j rfl
    · exact .refl _ _
  case h_4 | h_5 | h_6 | h_7 => exact s.takeJam_moves j rfl
  case h_8 h => exact (Move.abandonSweep false rfl h).moves
  case h_9 h => exact (Move.planRead (fun x => { x with readThrough := false }) fun _ => rfl).moves.trans (Move.reheld (by exact h)).moves
  all_goals exact .refl _ _

theorem Part.openDoor_eq (d : Fin 8) : s.openDoor d =
    let r := (((s.judgeDoor d).modEpisode fun e => { e with barred := false }).restGates).abortCycle
    let u := (if s.opensOntoSet d then r.disturb else r).openInState
      ((if s.opensOntoSet d then r.disturb else r).doorJam d (s.opensOntoSet d)) (s.opensOntoSet d)
    (if u.episode.isOpen then u.retain.addFinisherArea else u).judge := rfl

theorem Part.openDoor_moves (d : Fin 8) : Moves q .settled s .settled (s.openDoor d) := by
  have rest : Moves q .settled s .settled
      (((s.judgeDoor d).modEpisode fun e => { e with barred := false }).restGates).abortCycle :=
    (((Move.judgeDoor d).moves.trans (Move.episode (fun e => { e with barred := false }) fun _ => rfl).moves).trans
      (Move.gates (fun o => { o with exitGate := false, purgeGate := false }) fun _ => rfl).moves).trans (Part.abortCycle_moves _)
  rw [Part.openDoor_eq]
  dsimp only
  have busy := Part.abortCycle_busy (((s.judgeDoor d).modEpisode fun e => { e with barred := false }).restGates)
  generalize (((s.judgeDoor d).modEpisode fun e => { e with barred := false }).restGates).abortCycle = r at rest busy ⊢
  have disturbed : Moves q .settled s .settled (if s.opensOntoSet d then r.disturb else r) :=
    Moves.ite (fun _ => rest.trans (Move.disturb busy).moves) fun _ => rest
  generalize (if s.opensOntoSet d then r.disturb else r) = p at disturbed ⊢
  have opened := disturbed.trans (p.openInState_moves (p.doorJam d (s.opensOntoSet d)) (s.opensOntoSet d))
  generalize p.openInState (p.doorJam d (s.opensOntoSet d)) (s.opensOntoSet d) = u at opened ⊢
  refine Moves.trans ?_ (Part.judge_moves _)
  split
  · exact (opened.trans Move.retain.moves).trans (Part.addFinisherArea_moves _)
  · exact opened

theorem Part.closeDoor_moves (d : Fin 8) : Moves q .settled s .settled (s.judgeDoor d).judge :=
  (Move.judgeDoor d).moves.trans (Part.judge_moves _)

/-! ## The finisher's edges and limits -/

theorem Part.stapleHome_moves : Moves q .settled s .settled s.stapleHome := by
  unfold Part.stapleHome
  split
  · next h =>
    have core : Moves q .settled s .settled s.stapled := (Move.stapled h).moves
    dsimp only
    rw [Part.enterEjecting_eq]
    split
    · exact core
    · exact core.trans (Move.dry _ (by exact fun _ => ⟨rfl, rfl⟩)).moves
  · exact .refl _ _

theorem Part.ejectHome_moves : Moves q .settled s .settled s.ejectHome := by
  unfold Part.ejectHome
  split
  · next h => exact (Move.ejected (.inl rfl) (.inl h)).moves
  · exact .refl _ _

theorem Part.noHome_moves : Moves q .settled s .settled (s.modDry fun d => { d with home := none }) :=
  (Move.dry _ (by exact fun _ => ⟨rfl, rfl⟩)).moves

theorem Part.stapleLimit_moves (d : Tick) : Moves q .settled s .settled (Part.stapleLimit d s) := by
  unfold Part.stapleLimit
  split
  · next h =>
    have failed := (Move.stapleFails (q := q) (a := .settled) h).moves.trans (Part.noHome_moves _)
    dsimp only
    refine (Moves.trans ?_ (Part.takeJam_moves _ _ rfl)).trans (Part.judge_moves _)
    split
    · exact failed.trans (Part.addFinisherArea_moves _)
    · exact failed
  · next h => exact (Move.dropStapleLimit h).moves.trans (Part.judge_moves _)

theorem Part.ejectLimit_moves (d : Tick) : Moves q .settled s .settled (Part.ejectLimit d s) := by
  unfold Part.ejectLimit
  split
  · next h =>
    exact (((Move.ejectFails h).moves.trans (Part.noHome_moves _)).trans (Part.takeJam_moves _ _ rfl)).trans (Part.judge_moves _)
  · next h => exact (Move.dropEjectLimit h).moves.trans (Part.judge_moves _)

theorem Part.takeHome_moves (h : HomeEdge) : Moves q .settled s .settled (Part.takeHome h s) := by
  unfold Part.takeHome
  dsimp only
  split
  · refine Moves.trans ?_ (Part.judge_moves _)
    split
    · exact s.noHome_moves.trans (Part.stapleHome_moves _)
    · exact s.noHome_moves.trans (Part.ejectHome_moves _)
  · exact s.noHome_moves

/-! ## Timers -/

theorem Part.pickDue_moves : Moves q .settled s .settled (s.modFeed fun f => { f with pickTimer := none }).judge :=
  (Move.pickTimer none fun h => nomatch h).moves.trans (Part.judge_moves _)

theorem Part.starve_moves : Moves q .settled s .settled s.starve := by
  have off : Moves q .settled s .settled (s.modFeed fun f => { f with holdoff := none }) :=
    (Move.holdoff (fun _ => none) (.inl fun _ => rfl)).moves
  unfold Part.starve
  dsimp only
  split
  · next h => exact (off.trans (Move.drain h).moves).trans (Part.judge_moves _)
  · exact off.trans (Part.judge_moves _)

theorem Part.rampDone_moves : Moves q .settled s .settled s.rampDone := by
  unfold Part.rampDone
  dsimp only
  split
  · next h => exact (Move.ramped (by exact h)).moves.trans (Part.judge_moves _)
  · next h => exact (Move.dropRamp (by exact h)).moves.trans (Part.judge_moves _)

theorem Part.runOnDone_moves (hr : s.feed.runOn.isSome = true) : Moves q .settled s .settled s.runOnDone := by
  unfold Part.runOnDone
  dsimp only
  split
  · next h => exact (Move.runOnDone (by exact h) hr).moves.trans (Part.judge_moves _)
  · next h => exact (Move.dropRunOn (by exact h)).moves.trans (Part.judge_moves _)

theorem Part.planBuild_eq_sweep (h : s.feed.path = .sweeping) :
    (s.modEpisode fun e => { e with sweepTimer := none }).planBuild = (s.setPath .sweeping).planBuild := by
  rw [Part.setPath, if_pos h]
  rfl

theorem Part.sweepDone_moves : Moves q .settled s .settled s.sweepDone := by
  unfold Part.sweepDone
  dsimp only
  split
  · next h =>
    rw [s.planBuild_eq_sweep h]
    exact (Move.planBuild (s := s) (.inr h)).moves.trans (Part.judge_moves _)
  · next h => exact (Move.dropSweep (by exact h)).moves.trans (Part.judge_moves _)

/-! ## Deadlines and synthesised edges -/

theorem firstEdge_mem {l : List Edge} {e : Edge} (h : firstEdge l = some e) : e ∈ l := by
  induction l generalizing e with
  | nil => cases h
  | cons x l ih =>
    unfold firstEdge at h
    split at h
    · cases h
      exact List.mem_cons_self
    · next f hf =>
      split at h
      · cases h
        exact List.mem_cons_self
      · cases h
        exact List.mem_cons_of_mem _ (ih hf)

theorem Dry.nextEdge_leading {d : Dry} {st : Fin 24} {v : Bool} {e : Edge} (h : d.nextEdge st v = some e) : e.leading = v := by
  have := (List.mem_filter.mp (firstEdge_mem h)).2
  simp only [Bool.and_eq_true, beq_iff_eq] at this
  exact this.2

/-- A command comes to nothing or ends, as every event does, with the transmitter's turn (R177). -/
def Part.concludes (s t : Part) (q : Mode) : Prop := t = s ∨ ∃ u, Moves q .settled s .settled u ∧ t = u.conclude

theorem Part.event_concludes (ht : q.tick = true) (t : Tick) (g : Part → Part)
    (hg : Moves q .settled (s.advance t) .settled (g (s.advance t))) : s.concludes (s.event t g) q :=
  .inr ⟨_, (s.advance_moves ht t).trans hg, rfl⟩

theorem Part.expiry_concludes (ht : q.tick = true) (timer : Option Tick) (g : Part → Part)
    (hg : ∀ d ∈ timer, Moves q .settled (s.advance d) .settled (g (s.advance d))) : s.concludes (s.expiry timer g) q := by
  unfold Part.expiry
  split
  · exact .inl rfl
  · exact s.event_concludes ht _ _ (hg _ rfl)

theorem Part.expireLeading_concludes (ht : q.tick = true) (hk : q.track = true) (n : Nat) : s.concludes (s.expireLeading n) q := by
  unfold Part.expireLeading
  split
  · exact .inl rfl
  · next x _ =>
    split
    · next d step _ _ => exact .inr ⟨_, (s.leadingExpiry_moves ht hk x step d).trans (Part.judge_moves _), rfl⟩
    · exact .inl rfl

theorem Part.expireTrailing_concludes (ht : q.tick = true) (st : Fin 24) : s.concludes (s.expireTrailing st) q := by
  unfold Part.expireTrailing
  split
  · exact .inl rfl
  · next c hc =>
    split
    · exact .inl rfl
    · next d _ => exact .inr ⟨_, (s.trailingExpiry_moves ht st c d hc).trans (Part.judge_moves _), rfl⟩

theorem Part.synthesised_concludes (ht : q.tick = true) (hk : q.track = true) (st : Fin 24) (v : Bool) (hl : v = true → q.learn = true)
    (hd : v = false → s.dry.on = true → q.deliver = true) : s.concludes (s.synthesised st v) q := by
  unfold Part.synthesised
  split
  · exact .inl rfl
  · next e he =>
    have leading : e.leading = v := Dry.nextEdge_leading he
    exact .inr ⟨_, (s.runEdge_moves e ht hk (fun k => hl (leading ▸ k)) fun k => hd (leading ▸ k)).trans (Part.judge_moves _), rfl⟩

/-! ## Received bytes -/

theorem answerFrame_moves (hq : { q with link := true } = Mode.free) (f : Frame) :
    Moves q .settled s .settled (answerFrame f s).part := by
  simp only [Mode.free, Mode.mk.injEq] at hq
  obtain ⟨hw, ho, ht, hl, -, hk, hm, hd, hf, hc, hn, -, -, hr, ha, hx, -⟩ := hq
  suffices h : ∀ o, answerFrame f = o → Moves q .settled s .settled (o s).part from h _ rfl
  intro o ho
  unfold answerFrame at ho
  split at ho <;> subst ho
  · exact ownerStationDef_moves s hd _
  · exact ownerLegDef_moves s hd _
  · exact ownerDriveDef_moves s hd _
  · exact ownerTrayDef_moves s hd _
  · exact ownerDoorDef_moves s hd _
  · exact ownerTimingDef_moves s hd _
  · exact ownerFinisherDef_moves s hd _
  · exact ownerLineDef_moves s hd _
  · exact ownerNoticeMask_moves s hw hm _
  · exact ownerPathClose_moves s ho hf _
  · exact ownerPage_moves s ha _
  · exact ownerImageReady_moves s _
  · exact ownerHold_moves s _
  · exact ownerContinueFeed_moves s _
  · exact ownerHostStop_moves s _
  · exact ownerAbandonJob_moves s hx _
  · exact ownerResyncStation_moves s hn _
  · exact ownerSweep_moves s _
  · exact ownerPlanRead_moves s _
  · exact ownerResume_moves s _
  · exact ownerStatusRead_moves s _
  · exact ownerSheetRead_moves s _
  · exact ownerJamRead_moves s _
  · exact ownerCounterRead_moves s hc _
  · exact ownerCounterWidth_moves s hc _
  · exact ownerDryRun_moves s hr _
  · exact ownerFaultPlan_moves s _
  · exact ownerPathReset_moves s hw _
  · exact .refl _ _

theorem Part.gapBefore_moves (t : Tick) : Moves .free .settled s .settled (s.gapBefore t) := by
  unfold Part.gapBefore
  split
  · exact .refl _ _
  · split
    · exact s.gapDiscard_moves rfl rfl (.inl rfl)
    · exact .refl _ _

theorem Part.takeByte_moves (t : Tick) (x : RxByte) : Moves .free .settled s .settled (s.takeByte t x) := by
  have gap := s.gapBefore_moves t
  rcases s.takeByte_cases t x with ⟨r, -, e⟩ | ⟨-, e⟩ | ⟨f, -, e⟩ <;> rw [e]
  · exact gap.trans (Move.link _ (by exact fun _ => ⟨rfl, id, rfl⟩) (.inl rfl) rfl).moves
  · exact gap.trans (Part.event_moves _ rfl rfl (.inl rfl) _ _ (Part.discardFrame_moves _ rfl))
  · exact gap.trans (Part.event_moves _ rfl rfl (.inl rfl) _ _ (Part.acceptFrame_moves _ rfl rfl _ _ _ fun p => answerFrame_moves p rfl f))

theorem Part.takeBytes_moves (t : Tick) (rx : List RxByte) : Moves .free .settled s .settled (s.takeBytes t rx) := by
  induction rx generalizing s t with
  | nil => exact .refl _ _
  | cons x rest ih => exact (s.takeByte_moves _ x).trans (ih _ _)

theorem Part.sent_moves (hw : q.withdraw = true) (hk : q.queue = true) (hl : q.link = true) : Moves q .settled s .settled s.sent := by
  unfold Part.sent
  split
  · exact .refl _ _
  · exact (Move.anyLink _ (by exact fun _ => rfl) (.inl hk) hw hl).moves

/-! ## The path tick (R13) -/

theorem Part.deliverEdge_moves (hl : q.lines = true) (hn : q.learn = true) (hd : q.deliver = true) (he : q.empty = true) (hk : q.track = true)
    (r : InputRole) (v : Bool) : Moves q .settled s .settled (s.deliverEdge r v) := by
  cases r with dsimp only [Part.deliverEdge]
  | station st =>
    refine s.stationEdge_moves hl st v _ fun p => ?_
    split
    · exact p.leadingEdge_moves hn hk st
    · exact p.trailingEdge_moves hd hk st
  | present u => exact (s.lineEdge_moves hl _ v).trans (Part.supplyChanged_moves _ _ (Move.judgeTrayEmpty u).moves)
  | paperOut u => exact (s.lineEdge_moves hl _ v).trans (Part.supplyChanged_moves _ _ (Move.judgeTrayEmpty u).moves)
  | binFull b => exact (s.lineEdge_moves hl _ v).trans (Part.supplyChanged_moves _ _ (Move.judgeBinFull b).moves)
  | purgeRemoved => exact s.purgeBinEdge_moves hl he v
  | door d =>
    refine s.doorEdge_moves hl d v _ fun p => ?_
    split
    · exact p.closeDoor_moves d
    · exact p.openDoor_moves d
  | stapleHome => exact s.homeEdge_moves hl _ v _ fun p => p.stapleHome_moves
  | ejectHome => exact s.homeEdge_moves hl _ v _ fun p => p.ejectHome_moves
  | compileTray => exact (s.lineEdge_moves hl _ v).trans (Part.judge_moves _)

theorem Part.inputEdge_moves (hl : q.lines = true) (hn : q.learn = true) (hd : q.deliver = true) (he : q.empty = true) (hk : q.track = true)
    (i : Fin 32) : Moves q .settled s .settled (s.inputEdge i) := by
  unfold Part.inputEdge
  dsimp only
  split
  · exact (Move.lines _ hl).moves
  · exact s.deliverEdge_moves hl hn hd he hk _ _

/-- The part at a path tick with every line's run counted, its edges still to be delivered (R13). -/
def Part.sampledTick : Part := (s.modTick (· + 1)).modLines fun l => { l with run := .ofFn (s.modTick (· + 1)).runAfter }

theorem Part.pathTick_eq : s.pathTick =
    (((List.finRange 32).filter (s.modTick (· + 1)).edgeDue).foldl Part.inputEdge s.sampledTick).conclude := by
  unfold Part.pathTick Part.sampledTick
  dsimp only

theorem Part.sampledTick_moves (ht : q.tick = true) (hl : q.lines = true) : Moves q .settled s .settled s.sampledTick := by
  unfold Part.sampledTick
  generalize Vector.ofFn _ = run
  exact (Move.tick (s := s) (· + 1) ht).moves.trans (Move.lines (s := s.modTick (· + 1)) (fun l => { l with run := run }) hl).moves

theorem Part.inputEdges_moves (hl : q.lines = true) (hn : q.learn = true) (hd : q.deliver = true) (he : q.empty = true) (hk : q.track = true) (l : List (Fin 32)) : Moves q .settled s .settled (l.foldl Part.inputEdge s) :=
  Moves.fold (f := Part.inputEdge) l s fun p i => p.inputEdge_moves hl hn hd he hk i

/-- The leave the path tick asks for. -/
def Mode.ticks (q : Mode) : Prop :=
  q.tick = true ∧ q.lines = true ∧ q.learn = true ∧ q.deliver = true ∧ q.empty = true ∧ q.track = true

theorem Part.pathTick_concludes (hq : q.ticks) : s.concludes s.pathTick q := by
  obtain ⟨ht, hl, hn, hd, he, hk⟩ := hq
  rw [Part.pathTick_eq]
  generalize (List.finRange 32).filter _ = l
  exact .inr ⟨_, (s.sampledTick_moves ht hl).trans (Part.inputEdges_moves (q := q) s.sampledTick hl hn hd he hk l), rfl⟩

/-! ## Commands -/

/-- The leave a command asks for, besides that to move the tick and the Link Unit: a request moves the receive queue, and what only
some commands do they ask for. -/
def Mode.runs (q : Mode) (p : Part) : Instr → Prop
  | .hardwareReset _ _ => False
  | .stationDef _ _ | .legDef _ _ | .driveDef _ _ | .trayDef _ _ | .doorDef _ _ | .timingDef _ _ | .finisherDef _ _
  | .lineDef _ _ => q.queue = true ∧ q.define = true
  | .noticeMask _ _ => q.queue = true ∧ q.withdraw = true ∧ q.mask = true
  | .pathClose _ _ => q.queue = true ∧ q.doors = true ∧ q.force = true
  | .resyncStation _ _ => q.queue = true ∧ q.learn = true
  | .counterRead _ _ | .counterWidth _ _ => q.queue = true ∧ q.clear = true
  | .dryRun _ _ => q.queue = true ∧ q.dryRun = true
  | .pathReset _ _ | .frameSent _ => q.queue = true ∧ q.withdraw = true
  | .page _ _ => q.queue = true ∧ q.accept = true
  | .abandonJob _ _ => q.queue = true ∧ q.abandon = true
  | .imageReady _ _ | .hold _ _ | .continueFeed _ _ | .hostStop _ _ | .sweep _ _ | .planRead _ _
  | .resume _ _ | .statusRead _ _ | .sheetRead _ _ | .jamRead _ _ | .faultPlan _ _ | .unknownKind _ _ _ => q.queue = true
  | .frameDiscard _ _ | .byteGapTimeout _ _ => { q with link := true } = Mode.free
  | .stationLeadingEdge _ _ => q.lines = true ∧ q.learn = true ∧ q.track = true
  | .stationTrailingEdge _ _ => q.lines = true ∧ q.deliver = true ∧ q.track = true
  | .purgeBinRemoved _ _ => q.lines = true ∧ q.empty = true
  | .doorOpening _ _ | .doorClosing _ _ | .trayLevelChange _ _ _ _ | .binFullLineChange _ _ _ | .stapleHomeEdge _ _
  | .ejectHomeEdge _ _ | .compileTrayEdge _ _ => q.lines = true
  | .synthesisedStationEdge _ v => q.track = true ∧ (v = true → q.learn = true) ∧ (v = false → p.dry.on = true → q.deliver = true)
  | .leadingDeadlineExpiry _ => q.track = true
  | .linkFaultTimerExpiry | .pickTimerExpiry | .starvationHoldoffExpiry | .rampTimerExpiry | .runOnTimerExpiry
  | .trailingDeadlineExpiry _ | .settleExpiry | .stapleLimitExpiry | .ejectLimitExpiry
  | .sweepTimerExpiry | .synthesisedHomeEdge | .pathStart _ | .drainReturn _ | .pick _ | .autoSweep _ | .setCycleStart _ => True

/-- How a command ends: at the transmitter's turn, as a request taken, as bytes heard, or at the end of a frame sent or of LINK
FAULT. The moves of mode `q` are its owner's. -/
inductive Part.Ends (q : Mode) (p : Part) : Part → Prop where
  | concludes {t} (h : p.concludes t q) : p.Ends q t
  | request (t kind body) (owner : Part → Answer) (hk : q.queue = true) (h : ∀ r, Moves q .settled r .settled (owner r).part) :
      p.Ends q (p.takeRequest t kind body owner)
  | bytes (t rx) (hq : { q with link := true } = Mode.free) : p.Ends q (p.takeBytes t rx)
  | gap (t rx) (hq : { q with link := true } = Mode.free) : p.Ends q (p.takeBytes t rx).gapDiscard
  | sent (t) (hw : q.withdraw = true) (hk : q.queue = true) : p.Ends q (p.event t Part.sent)
  | faultEnds : p.Ends q (p.expiry p.link.faultTimer fun x => x.modLink fun l => { l with fault := false, faultTimer := none })

/-- What each command but HARDWARE_RESET does. -/
theorem exec_ends (ht : q.tick = true) (c : Instr) (w : List Instr) (p : Part) (hc : q.runs p c) :
    ∃ p', exec c ⟨w, p⟩ = .next ⟨w, p'⟩ ∧ p.Ends q p' := by
  cases c with
  | hardwareReset => exact hc.elim
  | stationDef t b => exact ⟨_, rfl, .request t _ b _ hc.1 (ownerStationDef_moves · hc.2 b)⟩
  | legDef t b => exact ⟨_, rfl, .request t _ b _ hc.1 (ownerLegDef_moves · hc.2 b)⟩
  | driveDef t b => exact ⟨_, rfl, .request t _ b _ hc.1 (ownerDriveDef_moves · hc.2 b)⟩
  | trayDef t b => exact ⟨_, rfl, .request t _ b _ hc.1 (ownerTrayDef_moves · hc.2 b)⟩
  | doorDef t b => exact ⟨_, rfl, .request t _ b _ hc.1 (ownerDoorDef_moves · hc.2 b)⟩
  | timingDef t b => exact ⟨_, rfl, .request t _ b _ hc.1 (ownerTimingDef_moves · hc.2 b)⟩
  | finisherDef t b => exact ⟨_, rfl, .request t _ b _ hc.1 (ownerFinisherDef_moves · hc.2 b)⟩
  | lineDef t b => exact ⟨_, rfl, .request t _ b _ hc.1 (ownerLineDef_moves · hc.2 b)⟩
  | noticeMask t b =>
    exact ⟨_, rfl, .request t _ b _ hc.1 (ownerNoticeMask_moves · hc.2.1 hc.2.2 b)⟩
  | pathClose t b => exact ⟨_, rfl, .request t _ b _ hc.1 (ownerPathClose_moves · hc.2.1 hc.2.2 b)⟩
  | page t b => exact ⟨_, rfl, .request t _ b _ hc.1 (ownerPage_moves · hc.2 b)⟩
  | imageReady t b => exact ⟨_, rfl, .request t _ b _ hc (ownerImageReady_moves · b)⟩
  | hold t b => exact ⟨_, rfl, .request t _ b _ hc (ownerHold_moves · b)⟩
  | continueFeed t b => exact ⟨_, rfl, .request t _ b _ hc (ownerContinueFeed_moves · b)⟩
  | hostStop t b => exact ⟨_, rfl, .request t _ b _ hc (ownerHostStop_moves · b)⟩
  | abandonJob t b => exact ⟨_, rfl, .request t _ b _ hc.1 (ownerAbandonJob_moves · hc.2 b)⟩
  | resyncStation t b => exact ⟨_, rfl, .request t _ b _ hc.1 (ownerResyncStation_moves · hc.2 b)⟩
  | sweep t b => exact ⟨_, rfl, .request t _ b _ hc (ownerSweep_moves · b)⟩
  | planRead t b => exact ⟨_, rfl, .request t _ b _ hc (ownerPlanRead_moves · b)⟩
  | resume t b => exact ⟨_, rfl, .request t _ b _ hc (ownerResume_moves · b)⟩
  | statusRead t b => exact ⟨_, rfl, .request t _ b _ hc (ownerStatusRead_moves · b)⟩
  | sheetRead t b => exact ⟨_, rfl, .request t _ b _ hc (ownerSheetRead_moves · b)⟩
  | jamRead t b => exact ⟨_, rfl, .request t _ b _ hc (ownerJamRead_moves · b)⟩
  | counterRead t b => exact ⟨_, rfl, .request t _ b _ hc.1 (ownerCounterRead_moves · hc.2 b)⟩
  | counterWidth t b => exact ⟨_, rfl, .request t _ b _ hc.1 (ownerCounterWidth_moves · hc.2 b)⟩
  | dryRun t b => exact ⟨_, rfl, .request t _ b _ hc.1 (ownerDryRun_moves · hc.2 b)⟩
  | faultPlan t b => exact ⟨_, rfl, .request t _ b _ hc (ownerFaultPlan_moves · b)⟩
  | pathReset t b =>
    exact ⟨_, rfl, .request t _ b _ hc.1 (ownerPathReset_moves · hc.2 b)⟩
  | unknownKind t k b =>
    refine ⟨_, rfl, ?_⟩
    dsimp only
    split
    · exact .concludes (.inl rfl)
    · exact .request t _ b _ hc fun _ => .refl _ _
  | frameDiscard t rx => exact ⟨_, rfl, .bytes t rx hc⟩
  | byteGapTimeout t rx => exact ⟨_, rfl, .gap t rx hc⟩
  | linkFaultTimerExpiry => exact ⟨_, rfl, .faultEnds⟩
  | frameSent t => exact ⟨_, rfl, .sent t hc.2 hc.1⟩
  | stationLeadingEdge t st =>
    exact ⟨_, rfl, .concludes <| p.event_concludes ht t _ (Part.stationEdge_moves _ hc.1 st true _ fun p => p.leadingEdge_moves hc.2.1 hc.2.2 st)⟩
  | stationTrailingEdge t st =>
    exact ⟨_, rfl, .concludes <| p.event_concludes ht t _ (Part.stationEdge_moves _ hc.1 st false _ fun p => p.trailingEdge_moves hc.2.1 hc.2.2 st)⟩
  | doorOpening t d => exact ⟨_, rfl, .concludes <| p.event_concludes ht t _ (Part.doorEdge_moves _ hc d false _ fun p => p.openDoor_moves d)⟩
  | doorClosing t d => exact ⟨_, rfl, .concludes <| p.event_concludes ht t _ (Part.doorEdge_moves _ hc d true _ fun p => p.closeDoor_moves d)⟩
  | trayLevelChange t u x v =>
    exact ⟨_, rfl, .concludes <| p.event_concludes ht t _ ((Part.lineEdge_moves _ hc _ v).trans
      (Part.supplyChanged_moves _ _ (Move.judgeTrayEmpty u).moves))⟩
  | binFullLineChange t b v =>
    exact ⟨_, rfl, .concludes <| p.event_concludes ht t _ ((Part.lineEdge_moves _ hc _ v).trans
      (Part.supplyChanged_moves _ _ (Move.judgeBinFull b).moves))⟩
  | purgeBinRemoved t v => exact ⟨_, rfl, .concludes <| p.event_concludes ht t _ (Part.purgeBinEdge_moves _ hc.1 hc.2 v)⟩
  | stapleHomeEdge t v => exact ⟨_, rfl, .concludes <| p.event_concludes ht t _ (Part.homeEdge_moves _ hc _ v _ fun p => p.stapleHome_moves)⟩
  | ejectHomeEdge t v => exact ⟨_, rfl, .concludes <| p.event_concludes ht t _ (Part.homeEdge_moves _ hc _ v _ fun p => p.ejectHome_moves)⟩
  | compileTrayEdge t v => exact ⟨_, rfl, .concludes <| p.event_concludes ht t _ ((Part.lineEdge_moves _ hc _ v).trans (Part.judge_moves _))⟩
  | pickTimerExpiry => exact ⟨_, rfl, .concludes <| p.expiry_concludes ht _ _ fun _ _ => Part.pickDue_moves _⟩
  | starvationHoldoffExpiry => exact ⟨_, rfl, .concludes <| p.expiry_concludes ht _ _ fun _ _ => Part.starve_moves _⟩
  | rampTimerExpiry => exact ⟨_, rfl, .concludes <| p.expiry_concludes ht _ _ fun _ _ => Part.rampDone_moves _⟩
  | runOnTimerExpiry => exact ⟨_, rfl, .concludes <| p.expiry_concludes ht _ _ fun d hd => Part.runOnDone_moves _ (Option.isSome_of_mem hd)⟩
  | leadingDeadlineExpiry n => exact ⟨_, rfl, .concludes (p.expireLeading_concludes ht hc n)⟩
  | trailingDeadlineExpiry st => exact ⟨_, rfl, .concludes (p.expireTrailing_concludes ht st)⟩
  | settleExpiry =>
    exact ⟨_, rfl, .concludes <| p.expiry_concludes ht _ _ fun _ _ => (Part.completeCompile_moves _).trans (Part.judge_moves _)⟩
  | stapleLimitExpiry => exact ⟨_, rfl, .concludes <| p.expiry_concludes ht _ _ fun _ _ => Part.stapleLimit_moves _ _⟩
  | ejectLimitExpiry => exact ⟨_, rfl, .concludes <| p.expiry_concludes ht _ _ fun _ _ => Part.ejectLimit_moves _ _⟩
  | sweepTimerExpiry => exact ⟨_, rfl, .concludes <| p.expiry_concludes ht _ _ fun _ _ => Part.sweepDone_moves _⟩
  | synthesisedStationEdge st v => exact ⟨_, rfl, .concludes (p.synthesised_concludes ht hc.1 st v hc.2.1 hc.2.2)⟩
  | synthesisedHomeEdge =>
    refine ⟨_, rfl, ?_⟩
    dsimp only
    split
    · exact .concludes (.inl rfl)
    · exact .concludes <| p.event_concludes ht _ _ (Part.takeHome_moves _ _)
  | pathStart t =>
    refine ⟨_, rfl, .concludes <| p.event_concludes ht t _ ?_⟩
    split
    · next hi => exact Part.judgeStart_moves _ hi
    · exact .refl _ _
  | drainReturn t =>
    refine ⟨_, rfl, .concludes <| p.event_concludes ht t _ ?_⟩
    split
    · next hi => exact Part.judgeDraining_moves _ hi
    · exact .refl _ _
  | pick t =>
    refine ⟨_, rfl, .concludes <| p.event_concludes ht t _ ?_⟩
    split
    · next hi => exact Part.judgeRunning_moves _ hi
    · exact .refl _ _
  | autoSweep t => exact ⟨_, rfl, .concludes <| p.event_concludes ht t _ (Part.judgeClearance_moves _)⟩
  | setCycleStart t => exact ⟨_, rfl, .concludes <| p.event_concludes ht t _ (Part.judgeFinisher_moves _ (.inl rfl))⟩

theorem Part.concludes.moves {s t : Part} (h : s.concludes t q) (hl : q.link = true)
    (hs : q.withdraw = true ∨ s.link.sending.isSome = true) : Moves q .settled s .settled t := by
  rcases h with rfl | ⟨u, m, rfl⟩
  · exact .refl _ _
  · exact m.trans (Part.conclude_moves _ hl (m.sending hs))

theorem Mode.eq_free (hl : q.link = true) (h : { q with link := true } = Mode.free) : q = .free := by
  rw [← h, ← hl]

theorem Part.Ends.moves {s t : Part} (h : s.Ends q t) (ht : q.tick = true) (hl : q.link = true)
    (hs : q.withdraw = true ∨ s.link.sending.isSome = true) : Moves q .settled s .settled t := by
  cases h with
  | concludes h => exact h.moves hl hs
  | request t kind body owner hk ho => exact s.takeRequest_moves ht hl hk hs t kind body owner ho
  | bytes t rx hq =>
    obtain rfl := Mode.eq_free hl hq
    exact s.takeBytes_moves t rx
  | gap t rx hq =>
    obtain rfl := Mode.eq_free hl hq
    exact (s.takeBytes_moves t rx).trans (Part.gapDiscard_moves _ rfl rfl (.inl rfl))
  | sent t hw hk => exact s.event_moves ht hl hs t _ (Part.sent_moves _ hw hk hl)
  | faultEnds =>
    exact s.expiry_moves ht hl hs _ _ fun _ _ =>
      (Move.link _ (by exact fun _ => ⟨rfl, fun h => (nomatch h), rfl⟩) (.inr (by exact fun _ => rfl)) hl).moves

/-- A step is a string of moves where its mode gives leave: of the path tick, or of the command taken. -/
theorem step_moves {w : List Instr} {p : Part} {t : State} (ht : q.tick = true) (hk : q.link = true) (hn : w = [] → q.ticks)
    (hc : ∀ c ∈ w.head?, q.runs p c) (h : q.withdraw = true ∨ p.link.sending.isSome = true) (e : step ⟨w, p⟩ = .next t) :
    Moves q .settled p .settled t.part := by
  cases w with
  | nil =>
    cases e
    exact (p.pathTick_concludes (hn rfl)).moves hk h
  | cons c rest =>
    obtain ⟨p', ep, m⟩ := exec_ends ht c rest p (hc c rfl)
    have : Host.Outcome.next ⟨rest, p'⟩ = (.next t : Host.Outcome State Fault Refusal) := ep.symm.trans e
    cases this
    exact m.moves ht hk h

/-- With leave for everything every command but HARDWARE_RESET runs. -/
theorem Mode.free_runs (p : Part) {c : Instr} (h : ∀ t b, c ≠ .hardwareReset t b) : Mode.free.runs p c := by
  cases c with
  | hardwareReset t b => exact absurd rfl (h t b)
  | _ => simp [Mode.runs, Mode.free]

/-- A step is a hardware reset or a string of moves. -/
theorem step_reset_or_moves {w : List Instr} {p : Part} {t : State} (e : step ⟨w, p⟩ = .next t) :
    (∃ rate, t.part = .reset rate p.lines.pin) ∨ Moves .free .settled p .settled t.part := by
  by_cases hc : ∃ a b, w.head? = some (.hardwareReset a b)
  · obtain ⟨a, b, h⟩ := hc
    cases w with
    | nil => cases h
    | cons c rest =>
      obtain rfl := Option.some.inj h
      cases e
      exact .inl ⟨_, rfl⟩
  · refine .inr (step_moves rfl rfl (fun _ => ⟨rfl, rfl, rfl, rfl, rfl, rfl⟩) (fun c hw => ?_) (.inl rfl) e)
    exact Mode.free_runs p fun a b k => hc ⟨a, b, k ▸ hw⟩

/-- What holds after a hardware reset and is kept by every move, phase by phase, every step keeps. -/
theorem keptByEveryStep_of_moves {inv : Part → Prop} (I : Phase → Part → Prop) (hin : ∀ s, inv s → I .settled s)
    (hout : ∀ s, I .settled s → inv s) (hr : ∀ rate pin, inv (.reset rate pin))
    (hI : ∀ {A a s b t}, Move .free A a s b t → I a s → I b t) : keptByEveryStep inv := by
  rintro ⟨w, p⟩ t hp e
  rcases step_reset_or_moves e with ⟨rate, ht⟩ | m
  · exact ht ▸ hr _ _
  · exact hout _ (m.keeps hI (hin _ hp))

end Sys2Proof.Machine
end

