-- ==== Sys2Proof/Proofs/KeptCounters.lean ====
section
/-! PROOF. Every step keeps each counter within its width and each COUNTER WATERMARK condition true to its counters (R161, R163). -/

namespace Sys2Proof.Machine

/-- A change of one group's counters and settings, and that group judged afresh, keep the whole sound (R163). -/
theorem Stats.sound_judged {x y : Stats} {g : Group} (h : x.sound)
    (other : ∀ k, k ≠ g → y.groupSet k = x.groupSet k ∧ y.records k = x.records k)
    (within : ∀ r ∈ y.records g, ∀ c ∈ r, c ≤ (y.groupSet g).width.limit) : (y.judged g).sound := by
  intro k
  by_cases hk : k = g
  · subst hk
    refine ⟨fun r hr c hc => ?_, ?_⟩
    · rw [Stats.groupSet_judged_width]
      exact within r (by simpa using hr) c hc
    · simpa using y.judged_active_iff k
  · obtain ⟨hset, hrec⟩ := other k hk
    rw [Stats.groupSet_judged_other _ _ _ hk, Stats.records_judged, hset, hrec]
    exact h k

theorem raised_le {w : Width} {c : Nat} (h : c ≤ w.limit) : raised w c ≤ w.limit := by
  unfold raised
  split <;> omega

theorem Part.judgeWatermark_stats (s : Part) (g : Group) (record counter : Nat) :
    (s.judgeWatermark g record counter).stats = s.stats.judged g := by
  rw [s.judgeWatermark_eq]

/-- A raised counter of a table of records is within the width where all were. -/
theorem within_set {n k : Nat} {v : Vector (Vector Nat k) n} {w : Width} (h : ∀ r ∈ v.toList.map Vector.toList, ∀ c ∈ r, c ≤ w.limit)
    (i : Fin n) (j : Fin k) :
    ∀ r ∈ (v.set i ((v[i]).set j (raised w (v[i])[j]))).toList.map Vector.toList, ∀ c ∈ r, c ≤ w.limit := by
  have all : ∀ (a : Fin n) (b : Fin k), (v[a])[b] ≤ w.limit := fun a b =>
    h (v[a]).toList (List.mem_map.mpr ⟨v[a], by simp, rfl⟩) _ (by simp)
  intro r hr c hc
  obtain ⟨u, hu, rfl⟩ := List.mem_map.mp hr
  obtain ⟨a, ha, rfl⟩ := Vector.mem_iff_getElem.mp (Vector.mem_toList_iff.mp hu)
  obtain ⟨b, hb, rfl⟩ := Vector.mem_iff_getElem.mp (Vector.mem_toList_iff.mp hc)
  rw [Vector.getElem_set]
  split
  · rw [Vector.getElem_set]
    split
    · exact raised_le (all i j)
    · exact all i ⟨b, hb⟩
  · exact all ⟨a, ha⟩ ⟨b, hb⟩

theorem Part.countStation_sound {s : Part} (h : s.stats.sound) (st : Fin 24) (c : Fin 3) : (s.countStation st c).stats.sound := by
  unfold Part.countStation
  rw [Part.judgeWatermark_stats]
  refine Stats.sound_judged h (fun k hk => ?_) ?_
  · cases k
    · exact absurd rfl hk
    · exact ⟨rfl, rfl⟩
    · exact ⟨rfl, rfl⟩
  · exact within_set (h .station).1 st c

theorem Part.countTray_sound {s : Part} (h : s.stats.sound) (u : Fin 5) (c : Fin 3) : (s.countTray u c).stats.sound := by
  unfold Part.countTray
  rw [Part.judgeWatermark_stats]
  refine Stats.sound_judged h (fun k hk => ?_) ?_
  · cases k
    · exact ⟨rfl, rfl⟩
    · exact absurd rfl hk
    · exact ⟨rfl, rfl⟩
  · exact within_set (h .tray).1 u c

theorem Part.countPath_sound {s : Part} (h : s.stats.sound) (c : Fin 10) : (s.countPath c).stats.sound := by
  have all : ∀ a : Fin 10, s.stats.path[a] ≤ s.stats.pathSet.width.limit := fun a =>
    (h .path).1 _ (List.mem_singleton_self _) _ (by simp)
  unfold Part.countPath
  rw [Part.judgeWatermark_stats]
  refine Stats.sound_judged h (fun k hk => ?_) ?_
  · cases k
    · exact ⟨rfl, rfl⟩
    · exact ⟨rfl, rfl⟩
    · exact absurd rfl hk
  · intro r hr d hd
    obtain rfl := List.mem_singleton.mp hr
    obtain ⟨b, hb, rfl⟩ := Vector.mem_iff_getElem.mp (Vector.mem_toList_iff.mp hd)
    simp only [Part.modStats_stats, Vector.getElem_set]
    split
    · exact raised_le (all c)
    · exact all ⟨b, hb⟩

/-- Clearing a record leaves every counter of its group what it was or 0 (R164). -/
theorem Stats.mem_cleared {x : Stats} {g : Group} {i : Nat} {r : List Nat} (hr : r ∈ (x.cleared g i).records g) :
    r ∈ x.records g ∨ ∀ c ∈ r, c = 0 := by
  have table : ∀ {n k : Nat} (v : Vector (Vector Nat k) n) (hi : i < n),
      r ∈ (v.set i (.replicate k 0)).toList.map Vector.toList → r ∈ v.toList.map Vector.toList ∨ ∀ c ∈ r, c = 0 := by
    intro n k v hi hm
    obtain ⟨u, hu, rfl⟩ := List.mem_map.mp hm
    obtain ⟨a, ha, rfl⟩ := Vector.mem_iff_getElem.mp (Vector.mem_toList_iff.mp hu)
    rw [Vector.getElem_set]
    split
    · exact .inr fun c hc => by simp_all
    · exact .inl (List.mem_map.mpr ⟨_, by simp, rfl⟩)
  cases g with
  | station =>
    by_cases hi : i < 24
    · exact table x.station hi (by simpa [Stats.cleared, Stats.records, hi] using hr)
    · exact .inl (by simpa [Stats.cleared, Stats.records, hi] using hr)
  | tray =>
    by_cases hi : i < 5
    · exact table x.tray hi (by simpa [Stats.cleared, Stats.records, hi] using hr)
    · exact .inl (by simpa [Stats.cleared, Stats.records, hi] using hr)
  | path => exact .inr (by simp_all [Stats.cleared, Stats.records])

theorem Part.clearCounters_sound {s : Part} (h : s.stats.sound) (g : Group) (i k : Nat) :
    ((s.modStats fun x => x.cleared g i).judgeWatermark g i k).stats.sound := by
  rw [Part.judgeWatermark_stats]
  refine Stats.sound_judged h (fun k hk => ⟨Stats.groupSet_cleared .., Stats.records_cleared_other _ _ _ _ hk⟩) fun r hr c hc => ?_
  rw [Part.modStats_stats, Stats.groupSet_cleared]
  rcases Stats.mem_cleared hr with hr | hz
  · exact (h g).1 r hr c hc
  · exact hz c hc ▸ Nat.zero_le _

theorem Part.setWidth_sound {s : Part} (h : s.stats.sound) (g : Group) (w : Width) (m : Nat) : (s.setWidth g w m).stats.sound := by
  rw [Part.setWidth_eq, Part.judgeWatermark_stats]
  refine Stats.sound_judged h (fun k hk => ⟨?_, ?_⟩) fun r hr c hc => ?_
  · rw [Part.modStats_stats, Stats.groupSet_withWidth, if_neg hk]
  · rw [Part.modStats_stats, Stats.records_withWidth, if_neg hk]
  · rw [Part.modStats_stats, Stats.records_withWidth, if_pos rfl] at hr
    rw [Part.modStats_stats, Stats.groupSet_withWidth, if_pos rfl]
    obtain ⟨u, -, rfl⟩ := List.mem_map.mp hr
    obtain ⟨d, -, rfl⟩ := List.mem_map.mp hc
    exact Nat.min_le_left ..

/-- A change that leaves the Statistics Unit alone keeps it sound. -/
theorem Via.sound {A : List Block} {s t : Part} (v : Via A s t) (h : s.stats.sound) (hA : hasBlock A .stats = false) : t.stats.sound :=
  v.stats_eq hA ▸ h

theorem Part.deliverTo_sound {s : Part} (h : s.stats.sound) (x : Sheet) (r : Option Role) : (s.deliverTo x r).stats.sound := by
  unfold Part.deliverTo
  split
  · exact Part.countPath_sound ((Part.deliverPages_via ..).sound h rfl) 1
  · exact Part.countPath_sound ((Part.deliverPages_via ..).sound h rfl) 1
  · exact (Part.handOver_via ..).sound h rfl
  · refine Part.countPath_sound ?_ 3
    split
    · exact h
    · exact ((Via.gate (.refl s) _ rfl).andThen (Part.judgePurgeFull_via _) rfl :
        Via [.notices, .gate] s _).sound h rfl
  · exact h

theorem Part.endFinal_sound {s : Part} (h : s.stats.sound) : s.endFinal.stats.sound := by
  unfold Part.endFinal
  dsimp only
  rw [Part.modFinisher_stats, apply_ite Part.stats, Part.modNotices_stats, ite_self]
  split
  · exact h
  · exact Part.countPath_sound h 8

theorem Part.completeEject_sound {s : Part} (h : s.stats.sound) : s.completeEject.stats.sound := by
  have pages := ((((Via.out (.refl s) (fun o => { o with ejector := false }) rfl).finisher
    (fun f => { f with ejectLimit := none }) rfl).dry (fun d => { d with home := none }) rfl).andThen
    (Part.deliverPages_via _ (s.finisher.ident.getD (0, 0)).1 (s.finisher.sheets.flatMap Held.pages)) rfl :
    Via [.notices, .intake, .out, .finisher, .dry] s _).sound h rfl
  unfold Part.completeEject
  dsimp only
  split
  · exact pages
  · exact Part.endFinal_sound pages

theorem Move.stats_sound {q : Mode} {A : List Block} {a b : Phase} {s t : Part} (m : Move q A a s b t) (h : s.stats.sound) :
    t.stats.sound := by
  cases hA : hasBlock A .stats with
  | false => exact m.via.sound h hA
  | true =>
    cases m with
    | countStation st c => exact Part.countStation_sound h st c
    | countTray u c => exact Part.countTray_sound h u c
    | countPath c => exact Part.countPath_sound h c
    | clearCounters g i k => exact Part.clearCounters_sound h g i k
    | setWidth g w m => exact Part.setWidth_sound h g w m
    | startJammed st => exact (Part.openCore_via ..).sound (Part.countStation_sound (s.enterPath_via.sound h rfl) st 2) rfl
    | deliver => exact (Part.removeSheet_via ..).sound (Part.deliverTo_sound h _ _) rfl
    | stapled => exact (Part.eject_via ..).sound (Part.countPath_sound (by exact h) 7) rfl
    | ejected => exact Part.completeEject_sound h
    | _ => cases hA

theorem Stats.reset_sound : Stats.reset.sound := by
  intro g
  cases g <;> decide

/-- Settles O49: only the counting moves touch the Statistics Unit, and each judges the group it changes. -/
theorem countersKept : Obligations.CountersKept :=
  keptByEveryStep_of_moves (fun _ p => p.stats.sound) (fun _ h => h) (fun _ h => h) (fun _ _ => Stats.reset_sound)
    fun m h => m.stats_sound h

end Sys2Proof.Machine
end

