-- ==== Sys2Proof/Proofs/MovesEffects.lean ====
section
/-! PROOF. What the operations inside a move make of the blocks: the Feed Scheduler, the outputs, the Episode Unit and the sheets of
the table, each said once. -/

namespace Sys2Proof.Machine

variable (s : Part)

/-! ## The Feed Scheduler -/

@[simp] theorem Part.setPath_feed (p : PathState) : (s.setPath p).feed = { s.feed with path := p } := by
  unfold Part.setPath
  split
  · next h => rw [← h]
  · rfl

theorem Part.enterPath_feed : ∃ c, s.enterPath.feed = { s.feed with cls := c, path := .starting } := by
  unfold Part.enterPath
  dsimp only
  exact ⟨_, Part.setPath_feed ..⟩

theorem Part.start_feed : ∃ c t, s.start.feed = { s.feed with cls := c, path := .starting, ramp := some t } := by
  obtain ⟨c, e⟩ := s.enterPath_feed
  exact ⟨c, _, by rw [Part.start, Part.modFeed_feed, e]⟩

theorem Part.enterIdle_feed : s.enterIdle.feed =
    { s.feed with runOn := none, normalMark := true, priorityMark := true, lastBound := none, path := .idle } := by
  unfold Part.enterIdle
  rw [Part.setPath_feed]
  rfl

theorem Part.armRunOn_feed : s.armRunOn.feed = { s.feed with
    runOn := if s.feed.path = .draining ∧ s.table.sheets.isEmpty then
      some (plusTicks s.tick ((s.force.drive.map DriveSet.runOn).getD 0)) else s.feed.runOn } := by
  unfold Part.armRunOn
  split <;> rfl

theorem Part.enterDraining_feed : s.enterDraining.feed = { s.feed with
    pickTimer := none, holdoff := none, path := .draining
    runOn := if s.table.sheets.isEmpty then some (plusTicks s.tick ((s.force.drive.map DriveSet.runOn).getD 0))
      else s.feed.runOn } := by
  have hv : Via [.notices, .feed] s ((s.modFeed fun f => { f with pickTimer := none, holdoff := none }).setPath .draining) :=
    (Via.feed (.refl s) _ rfl).andThen (Part.setPath_via ..) rfl
  unfold Part.enterDraining
  rw [Part.armRunOn_feed, hv.table_eq rfl, hv.tick_eq rfl, hv.force_eq rfl, Part.setPath_feed]
  simp

theorem Part.returnToRunning_feed : s.returnToRunning.feed = { s.feed with runOn := none, path := .running } := by
  unfold Part.returnToRunning
  rw [Part.setPath_feed]
  rfl

theorem Part.halt_feed (b : Bool) : (s.halt b).feed = { s.feed with path := if b then .halting else .held } := by
  unfold Part.halt
  cases b
  · exact Part.setPath_feed ..
  · exact Part.setPath_feed ..

theorem Part.halt_out (b : Bool) : (s.halt b).out =
    { s.out with enFeed := false, enProcess := false, enDuplex := false, enDelivery := b } := by
  unfold Part.halt
  cases b
  · exact (Part.setPath_via ..).out_eq rfl
  · exact (Part.setPath_via ..).out_eq rfl

theorem Part.addAreas_core (x : AreaSet) : (s.addAreas x).episode.core = s.episode.core := rfl

theorem Part.strand_core (p : Sheet → Bool) : (s.strand p).episode.core = s.episode.core := rfl

theorem Part.addFinisherArea_core : s.addFinisherArea.episode.core = s.episode.core := by
  unfold Part.addFinisherArea
  split <;> rfl

/-- What follows an opening's own record and timers: the run-out set, the stranding, the areas and the halt (R109). -/
theorem Part.opening_settles (ns : List Nat) (f : Sheet → Bool) (x : AreaSet) (b : Bool) :
    let t := (((((s.makeRunOut ns).strand f).retain).addAreas x).addFinisherArea).halt b
    t.feed = { s.feed with path := if b then .halting else .held } ∧
    t.out = { s.out with enFeed := false, enProcess := false, enDuplex := false, enDelivery := b } ∧
    t.episode.core = s.episode.core := by
  have hv : Via [.table, .stations, .episode, .finisher, .dry] s
      (((((s.makeRunOut ns).strand f).retain).addAreas x).addFinisherArea) :=
    (((((Part.makeRunOut_via s ns).mono rfl).andThen (Part.strand_via ..) rfl).andThen (Part.retain_via _) rfl).andThen
      (Part.addAreas_via ..) rfl).andThen (Part.addFinisherArea_via _) rfl
  refine ⟨?_, ?_, ?_⟩
  · rw [Part.halt_feed, hv.feed_eq rfl]
  · rw [Part.halt_out, hv.out_eq rfl]
  · rw [(Part.halt_via ..).episode_eq rfl, Part.addFinisherArea_core, Part.addAreas_core, (Part.retain_via _).episode_eq rfl,
      Part.strand_core, (Part.makeRunOut_via ..).episode_eq rfl]

/-- A station's covering entry with its deadline cancelled where the sheet it names is hit. -/
def Station.relieve (hit : Nat → Bool) (x : Station) : Station :=
  { x with cover := x.cover.map fun c => if hit c.sheet then { c with deadline := none } else c }

/-- Sheet `n` is one of those a stranding picks. -/
def Part.hits (p : Sheet → Bool) (n : Nat) : Bool := (s.table.sheets.filter fun x => x.moving && p x).any fun x => x.number == n

theorem Part.strand_stations (p : Sheet → Bool) : (s.strand p).stations = s.stations.map (Station.relieve (s.hits p)) := rfl

theorem Part.opening_stations (ns : List Nat) (f : Sheet → Bool) (x : AreaSet) (b : Bool) : ∃ hit,
    ((((((s.makeRunOut ns).strand f).retain).addAreas x).addFinisherArea).halt b).stations = s.stations.map (Station.relieve hit) := by
  refine ⟨(s.makeRunOut ns).hits f, ?_⟩
  rw [(Part.halt_via ..).stations_eq rfl, (Part.addFinisherArea_via _).stations_eq rfl, (Part.addAreas_via ..).stations_eq rfl,
    (Part.retain_via _).stations_eq rfl, Part.strand_stations, (Part.makeRunOut_via ..).stations_eq rfl]

theorem Part.openCore_stations (j : Jam) (extra : AreaSet) : ∃ hit,
    (s.openCore j extra).stations = s.stations.map (Station.relieve hit) := by
  obtain ⟨hit, e⟩ := Part.opening_stations _ _ _ _ _
  exact ⟨hit, e⟩

/-- What an opening makes of the Feed Scheduler, the outputs and the Episode Unit (R52, R109, R111). -/
theorem Part.openCore_effect (j : Jam) (extra : AreaSet) : ∃ b : Bool,
    (s.openCore j extra).feed = { s.feed with
      pickTimer := none, holdoff := none, ramp := none, runOn := none, hold := false, setEnd := false
      path := if b then .halting else .held } ∧
    (s.openCore j extra).out = { s.out with
      clutch := .replicate 5 false, enFeed := false, enProcess := false, enDuplex := false, enDelivery := b } ∧
    (s.openCore j extra).episode.core = { s.episode.core with
      number := s.episode.number + 1, isOpen := true, firstKind := some j.kind, records := [j], overflow := 0
      sweepTimer := none } :=
  ⟨_, Part.opening_settles ..⟩

theorem Part.retain_finisher : s.retain.finisher =
    if s.finisher.state = .compiling then { s.finisher with state := .retained } else s.finisher := rfl

theorem Part.openCore_finisher (j : Jam) (extra : AreaSet) : (s.openCore j extra).finisher = s.retain.finisher := by
  unfold Part.openCore
  dsimp only
  rw [(Part.halt_via ..).finisher_eq rfl, (Part.addFinisherArea_via _).finisher_eq rfl, (Part.addAreas_via ..).finisher_eq rfl,
    Part.retain_finisher, (Part.strand_via ..).finisher_eq rfl, (Part.makeRunOut_via ..).finisher_eq rfl,
    (Part.feedOnEpisode_via _).finisher_eq rfl]
  rfl

theorem Feed.bound_kept (f : Feed) (n : NextPage) : (f.bound n).path = f.path ∧ (f.bound n).ramp = f.ramp ∧
    (f.bound n).runOn = f.runOn ∧ (f.bound n).merge = f.merge ∧ (f.bound n).exhausted = f.exhausted ∧
    (f.bound n).trayEmpty = f.trayEmpty ∧ (f.bound n).binFull = f.binFull := by
  unfold Feed.bound
  dsimp only
  split <;> exact ⟨rfl, rfl, rfl, rfl, rfl, rfl, rfl⟩

theorem Part.notePick_feed (n : NextPage) : (s.notePick n).feed = { s.feed.bound n with
    nextSheet := s.feed.nextSheet + 1, pickTimer := none, holdoff := none, unconfirmed := some s.feed.nextSheet
    exhausted := s.feed.exhausted || decide (s.feed.nextSheet = Config.lastSheetNumber) } := by
  have kept := (s.feed.bound_kept n).2.2.2.2.1
  unfold Part.notePick
  dsimp only
  split
  · next h => simp [Part.exhaust, h]
  · next h => simp [h, ← kept]

theorem Part.takeNext_feed (n : NextPage) : (s.takeNext n).feed = s.feed := (s.takeNext_via n).feed_eq rfl

theorem Part.reserve_feed (x : Sheet) (kind : ResvKind) (leg : LegName) :
    ∃ m, (s.reserve x kind leg).feed = { s.feed with merge := m } := ⟨_, rfl⟩

/-- What a pick makes of the Feed Scheduler (R61). -/
theorem Part.pickCore_feed (n : NextPage) : ∃ m, (s.pickCore n).feed = { ({ s.feed with merge := m } : Feed).bound n with
    nextSheet := s.feed.nextSheet + 1, pickTimer := none, holdoff := none, unconfirmed := some s.feed.nextSheet
    exhausted := s.feed.exhausted || decide (s.feed.nextSheet = Config.lastSheetNumber) } := by
  have before : (((s.takeNext n).joinTable (s.newSheet n)).armNext (s.newSheet n).number).feed = s.feed := by
    rw [(Part.armNext_via ..).feed_eq rfl, (Part.joinTable_via ..).feed_eq rfl, s.takeNext_feed]
  obtain ⟨m, hm⟩ := Part.reserve_feed (((s.takeNext n).joinTable (s.newSheet n)).armNext (s.newSheet n).number) (s.newSheet n)
    .feed (feedLegOf n.unit)
  rw [before] at hm
  refine ⟨m, ?_⟩
  unfold Part.pickCore
  dsimp only
  rw [Part.notePick_feed, (Part.callFront_via ..).feed_eq rfl, Part.modOut_feed, hm]

theorem Part.pickCore_merge (n : NextPage) : ∃ r : Resv,
    (s.pickCore n).feed.merge = insertResv r (s.feed.merge.filter fun x => x.sheet != r.sheet) := by
  have before : (((s.takeNext n).joinTable (s.newSheet n)).armNext (s.newSheet n).number).feed = s.feed := by
    rw [(Part.armNext_via ..).feed_eq rfl, (Part.joinTable_via ..).feed_eq rfl, s.takeNext_feed]
  have placed : ∀ (p : Part) (x : Sheet) (k : ResvKind) (l : LegName), ∃ r : Resv,
      (p.reserve x k l).feed.merge = insertResv r (p.feed.merge.filter fun x => x.sheet != r.sheet) := fun _ _ _ _ => ⟨_, rfl⟩
  obtain ⟨r, e⟩ := placed (((s.takeNext n).joinTable (s.newSheet n)).armNext (s.newSheet n).number) (s.newSheet n) .feed
    (feedLegOf n.unit)
  rw [before] at e
  refine ⟨r, ?_⟩
  unfold Part.pickCore
  dsimp only
  rw [Part.notePick_feed]
  dsimp only
  rw [(Feed.bound_kept _ n).2.2.2.1, (Part.callFront_via ..).feed_eq rfl, Part.modOut_feed, e]

theorem Part.pickCore_out (n : NextPage) : (s.pickCore n).out = { s.out with clutch := s.out.clutch.set n.unit true } := by
  unfold Part.pickCore
  dsimp only
  rw [(Part.notePick_via ..).out_eq rfl, (Part.callFront_via ..).out_eq rfl, Part.modOut_out, (Part.reserve_via ..).out_eq rfl,
    (Part.armNext_via ..).out_eq rfl, (Part.joinTable_via ..).out_eq rfl, (Part.takeNext_via ..).out_eq rfl]

theorem Part.enterIdle_out : s.enterIdle.out =
    { s.out with enFeed := false, enProcess := false, enDuplex := false, enDelivery := false } := by
  unfold Part.enterIdle
  rw [(Part.setPath_via ..).out_eq rfl]
  rfl

theorem Part.enterPath_out : ∃ c, s.enterPath.out =
    { s.out with presented := c, enFeed := true, enProcess := true, enDuplex := true, enDelivery := true } := by
  unfold Part.enterPath Part.runDrives
  dsimp only
  simp only [Part.modOut_out, (Part.setPath_via ..).out_eq rfl]
  exact ⟨_, rfl⟩

theorem Part.start_out : s.start.out = s.enterPath.out := rfl

theorem Part.planBuild_stations : s.planBuild.stations =
    ((s.table.sheets.filter fun x => x.cond == .stranded).foldl Part.planSheet
      (s.stopDrives.modEpisode fun e => { e with sweepTimer := none })).stations := by
  unfold Part.planBuild
  dsimp only
  rw [(Part.notePlanReady_via _).stations_eq rfl, (Part.setPath_via ..).stations_eq rfl, Part.modPlanner_stations,
    (Part.planEmpty_via _).stations_eq rfl, (Part.planSet_via _).stations_eq rfl]
  rfl

theorem Part.planBuild_feed : s.planBuild.feed =
    { s.feed with merge := [], unconfirmed := none, path := .resumable } := by
  have sheets : ∀ (l : List Sheet) (p : Part), (l.foldl Part.planSheet p).feed = p.feed := fun l p =>
    (Via.fold (A := [.table, .stations, .planner, .dry]) (.refl p) l fun p x => p.planSheet_via x).feed_eq rfl
  unfold Part.planBuild
  dsimp only
  rw [(Part.notePlanReady_via _).feed_eq rfl, Part.setPath_feed]
  simp only [Part.modPlanner_feed, Part.planEmpty, Part.modCalls_feed, Part.modFeed_feed]
  rw [(Part.planSet_via _).feed_eq rfl, sheets]
  rfl

theorem Part.planBuild_out : s.planBuild.out =
    { s.out with enFeed := false, enProcess := false, enDuplex := false, enDelivery := false } := by
  have sheets : ∀ (l : List Sheet) (p : Part), (l.foldl Part.planSheet p).out = p.out := fun l p =>
    (Via.fold (A := [.table, .stations, .planner, .dry]) (.refl p) l fun p x => p.planSheet_via x).out_eq rfl
  unfold Part.planBuild
  dsimp only
  rw [(Part.notePlanReady_via _).out_eq rfl, (Part.setPath_via ..).out_eq rfl]
  simp only [Part.modPlanner_out, Part.planEmpty, Part.modCalls_out, Part.modFeed_out]
  rw [(Part.planSet_via _).out_eq rfl, sheets]
  rfl

theorem Part.planBuild_episode : s.planBuild.episode = { s.episode with sweepTimer := none } := by
  have sheets : ∀ (l : List Sheet) (p : Part), (l.foldl Part.planSheet p).episode = p.episode := fun l p =>
    (Via.fold (A := [.table, .stations, .planner, .dry]) (.refl p) l fun p x => p.planSheet_via x).episode_eq rfl
  unfold Part.planBuild
  dsimp only
  rw [(Part.notePlanReady_via _).episode_eq rfl, (Part.setPath_via ..).episode_eq rfl]
  simp only [Part.modPlanner_episode, Part.planEmpty, Part.modCalls_episode, Part.modFeed_episode]
  rw [(Part.planSet_via _).episode_eq rfl, sheets]
  rfl

theorem Part.planSet_finisher : s.planSet.finisher = if s.finisher.disturbed then .reset else s.finisher := by
  unfold Part.planSet
  split <;> rfl

theorem Part.planBuild_finisher : s.planBuild.finisher = if s.finisher.disturbed then .reset else s.finisher := by
  have sheets : ∀ (l : List Sheet) (p : Part), (l.foldl Part.planSheet p).finisher = p.finisher := fun l p =>
    (Via.fold (A := [.table, .stations, .planner, .dry]) (.refl p) l fun p x => p.planSheet_via x).finisher_eq rfl
  unfold Part.planBuild
  dsimp only
  rw [(Part.notePlanReady_via _).finisher_eq rfl, (Part.setPath_via ..).finisher_eq rfl, Part.modPlanner_finisher,
    (Part.planEmpty_via _).finisher_eq rfl, Part.planSet_finisher, sheets, Part.modEpisode_finisher,
    (Part.stopDrives_via s).finisher_eq rfl]

theorem Part.withdrawJob_feed (job : Nat) : (s.withdrawJob job).feed = s.feed.abandonMarks job := by
  have sheets : ∀ (l : List Sheet) (p : Part), (l.foldl Part.abandonSheet p).feed = p.feed := fun l p =>
    (Via.fold (A := [.table, .calls]) (.refl p) l fun p x => p.abandonSheet_via x).feed_eq rfl
  unfold Part.withdrawJob
  dsimp only
  rw [Part.modFeed_feed, Part.modFinisher_feed, sheets, (Part.abandonPlanned_via ..).feed_eq rfl]
  rfl

theorem Part.abandonCore_feed (job : Nat) (i : Fin 8) : (s.abandonCore job i).feed = s.feed.abandonMarks job := by
  unfold Part.abandonCore
  dsimp only
  split
  · rw [(Part.modSlot_via ..).feed_eq rfl, s.withdrawJob_feed]
  · rw [(Part.noteProgress_via ..).feed_eq rfl, (Part.modSlot_via ..).feed_eq rfl, s.withdrawJob_feed]

theorem Part.discardCoreAll_feed : s.discardCoreAll.feed = s.feed.pathReset := by
  unfold Part.discardCoreAll
  rfl

theorem Part.discardCoreAll_table : s.discardCoreAll.table = s.table.pathReset := by
  unfold Part.discardCoreAll
  rfl

theorem Part.discardCoreAll_dry : s.discardCoreAll.dry = { s.dry with plan := [], schedule := [], home := none } := by
  unfold Part.discardCoreAll
  rfl

theorem Part.discardCoreAll_finisher : s.discardCoreAll.finisher = .reset := by
  unfold Part.discardCoreAll
  rfl

theorem Part.discardCoreAll_stations : s.discardCoreAll.stations = s.stations.map fun x => { x with cover := none } := by
  unfold Part.discardCoreAll
  rfl

theorem Part.discardCoreAll_out : s.discardCoreAll.out = s.out.pathReset := by
  unfold Part.discardCoreAll
  rfl

theorem Part.discardCoreAll_episode : s.discardCoreAll.episode = { s.episode with sweepTimer := none } := by
  unfold Part.discardCoreAll
  rfl

/-- What a sweep that starts outside dry run makes of the blocks (R128). -/
theorem Part.startSweep_eq (hd : s.dry.on = false) : s.startSweep =
    (((s.setPath .sweeping).modOut fun o => { o with presented := s.force.slowest }).runDrives).modEpisode fun e =>
      { e with sweepTimer := some (plusTicks s.tick ((s.force.drive.map DriveSet.sweep).getD 0)) } := by
  have hv := s.setPath_via .sweeping
  unfold Part.startSweep
  dsimp only
  rw [hv.dry_eq rfl, hd, if_neg Bool.false_ne_true, hv.force_eq rfl]
  simp only [Part.runDrives, Part.modOut_tick, Part.modOut_force, hv.tick_eq rfl, hv.force_eq rfl]

/-! ## The sheets of the table -/

/-- The sheets of `t` are sheets of `s`, some gone, changed in nothing that numbers them or puts them on a pass again. -/
def Part.Thins (s t : Part) : Prop :=
  ∃ (p : Sheet → Bool) (g : Sheet → Sheet), t.table.sheets = (s.table.sheets.filter p).map g ∧
    ∀ x, (g x).number = x.number ∧ (g x).kind = x.kind ∧ (x.pass = .final → (g x).pass = .final)

variable {s}

theorem Part.Thins.of_map {t : Part} (g : Sheet → Sheet) (e : t.table.sheets = s.table.sheets.map g)
    (h : ∀ x, (g x).number = x.number ∧ (g x).kind = x.kind ∧ (x.pass = .final → (g x).pass = .final)) : s.Thins t :=
  ⟨fun _ => true, g, by rw [e, List.filter_eq_self.mpr fun _ _ => rfl], h⟩

theorem Part.Thins.of_filter {t : Part} (p : Sheet → Bool) (e : t.table.sheets = s.table.sheets.filter p) : s.Thins t :=
  ⟨p, id, by rw [e, List.map_id], fun _ => ⟨rfl, rfl, id⟩⟩

theorem Part.Thins.refl (s : Part) : s.Thins s := .of_map id (List.map_id _).symm fun _ => ⟨rfl, rfl, id⟩

theorem Part.Thins.of_table {t : Part} (e : t.table = s.table) : s.Thins t := by
  have := Part.Thins.refl s
  unfold Part.Thins at this ⊢
  rwa [e]

theorem Part.Thins.trans {t u : Part} (h : s.Thins t) (k : t.Thins u) : s.Thins u := by
  obtain ⟨p, g, e, hg⟩ := h
  obtain ⟨p', g', e', hg'⟩ := k
  refine ⟨fun x => p x && p' (g x), g' ∘ g, ?_, fun x => ⟨(hg' _).1.trans (hg x).1, (hg' _).2.1.trans (hg x).2.1,
    fun hx => (hg' _).2.2 ((hg x).2.2 hx)⟩⟩
  rw [e', e, List.filter_map, List.filter_filter, List.map_map]
  simp only [Function.comp_apply, Bool.and_comm]

theorem Part.Thins.fold {α : Type} {f : Part → α → Part} (hf : ∀ (p : Part) (x : α), p.Thins (f p x)) (l : List α) (s : Part) :
    s.Thins (l.foldl f s) := by
  induction l generalizing s with
  | nil => exact .refl _
  | cons x l ih => exact (hf s x).trans (ih _)

/-- A change of one sheet's record that numbers none anew. -/
theorem Part.thins_modSheet (s : Part) (n : Nat) (g : Sheet → Sheet)
    (h : ∀ x, (g x).number = x.number ∧ (g x).kind = x.kind ∧ (x.pass = .final → (g x).pass = .final)) : s.Thins (s.modSheet n g) := by
  refine .of_map _ (s.modSheet_sheets n g) fun x => ?_
  split
  · exact h x
  · exact ⟨rfl, rfl, id⟩

theorem Sheet.Tame.kept {g : Sheet → Sheet} (h : Sheet.Tame g) (x : Sheet) :
    (g x).number = x.number ∧ (g x).kind = x.kind ∧ (x.pass = .final → (g x).pass = .final) :=
  ⟨(congrArg Sheet.number (h x).1 :), (congrArg Sheet.kind (h x).1 :), (h x).2⟩

theorem Part.thins_spoilSheet (s : Part) (x : Sheet) : s.Thins (s.spoilSheet x) := by
  refine .of_map _ (s.spoilSheet_sheets x) fun y => ?_
  split <;> exact ⟨rfl, rfl, id⟩

theorem Part.thins_abandonSheet (s : Part) (x : Sheet) : s.Thins (s.abandonSheet x) := by
  have release : ∀ p : Part, p.Thins ((p.modSheet x.number Sheet.release).dropSheetCalls x.number) := fun p =>
    (p.thins_modSheet x.number Sheet.release fun _ => ⟨rfl, rfl, id⟩).trans
      (.of_table ((Part.dropSheetCalls_via ..).table_eq rfl))
  unfold Part.abandonSheet
  dsimp only
  split
  · exact (Part.Thins.of_map id (List.map_id _).symm fun _ => ⟨rfl, rfl, id⟩ : s.Thins (s.raiseRevision 1)).trans (release _)
  · exact ((s.thins_modSheet _ _ fun _ => ⟨rfl, rfl, id⟩ : s.Thins (s.purgeSheet x.number))).trans (release _)

theorem Part.thins_withdrawJob (s : Part) (job : Nat) : s.Thins (s.withdrawJob job) := by
  unfold Part.withdrawJob
  dsimp only
  refine .trans (t := (s.abandonQueued job).abandonPlanned job) ?_
    (.trans (.fold (fun p x => p.thins_abandonSheet x) _ _) (.of_table rfl))
  exact .of_table ((Part.abandonPlanned_via ..).table_eq rfl)

theorem Part.thins_abandonCore (s : Part) (job : Nat) (i : Fin 8) : s.Thins (s.abandonCore job i) := by
  have slot := (s.thins_withdrawJob job).trans (.of_table (((Part.modSlot_via _ i
    fun y => { y with abandoned := y.abandoned + s.abandonCount job, closed := true })).table_eq rfl))
  unfold Part.abandonCore
  dsimp only
  split
  · exact slot
  · exact slot.trans (.of_table ((Part.noteProgress_via ..).table_eq rfl))

theorem Part.thins_openCore (s : Part) (j : Jam) (extra : AreaSet) : s.Thins (s.openCore j extra) := by
  obtain ⟨ns, -, e⟩ := s.openCore_sheets j extra
  refine .of_map _ (e.trans (List.map_map ..)) fun x => ?_
  simp only [Function.comp_apply, Sheet.strandIf, Sheet.runOutIf]
  split <;> split <;> exact ⟨rfl, rfl, id⟩

theorem Part.thins_removeSheet (s : Part) (n : Nat) : s.Thins (s.removeSheet n) := .of_filter _ rfl

theorem Part.thins_planSheet (s : Part) (x : Sheet) : s.Thins (s.planSheet x) :=
  (Part.Thins.of_table rfl : s.Thins (s.reprint .stranded x.pages)).trans (Part.thins_removeSheet ..)

theorem Part.planBuild_table (s : Part) : s.planBuild.table =
    ((s.table.sheets.filter fun x => x.cond == .stranded).foldl Part.planSheet
      (s.stopDrives.modEpisode fun e => { e with sweepTimer := none })).table := by
  unfold Part.planBuild
  dsimp only
  rw [(Part.notePlanReady_via _).table_eq rfl, (Part.setPath_via ..).table_eq rfl, Part.modPlanner_table,
    (Part.planEmpty_via _).table_eq rfl, (Part.planSet_via _).table_eq rfl]
  rfl

theorem Part.thins_planBuild (s : Part) : s.Thins s.planBuild := by
  have sheets := Part.Thins.fold (f := Part.planSheet) (fun p x => p.thins_planSheet x)
    (s.table.sheets.filter fun x => x.cond == .stranded) (s.stopDrives.modEpisode fun e => { e with sweepTimer := none })
  exact (Part.Thins.of_table rfl).trans (sheets.trans (.of_table s.planBuild_table))

theorem Part.thins_uncover (s : Part) (x : Sheet) (st : Fin 24) : s.Thins (s.uncover x st) := by
  unfold Part.uncover
  dsimp only
  split
  · exact (Part.Thins.of_table rfl : s.Thins (s.modStation st fun y => { y with cover := none })).trans
      (Part.thins_modSheet _ _ _ fun _ => ⟨rfl, rfl, id⟩)
  · exact .of_table rfl

theorem Sheet.readyIf_kept (id : Nat) (x : Sheet) : (x.readyIf id).number = x.number ∧ (x.readyIf id).kind = x.kind ∧
    (x.readyIf id).pass = x.pass := ⟨rfl, rfl, rfl⟩

/-- A move takes sheets from the table and numbers none anew, but for a pick, which adds one at the tail (R51, R69). -/
theorem Move.thins {q : Mode} {A : List Block} {a b : Phase} {s t : Part} (m : Move q A a s b t) :
    s.Thins t ∨ ∃ n, a = .settled ∧ b = .settled ∧ s.feed.path = .running ∧ s.feed.exhausted = false ∧ s.nextPage = some n ∧ s.pickHolds n = true ∧
      t = s.pickCore n := by
  cases hA : hasBlock A .table with
  | false => exact .inl (.of_table (m.via.table_eq hA))
  | true =>
    cases m with
    | setReady id => exact .inl (.of_map _ rfl fun x => ⟨rfl, rfl, fun h => h⟩)
    | abandon job i => exact .inl (s.thins_abandonCore job i)
    | startJammed st => exact .inl (.trans (.of_table (((Part.enterPath_via s).mono (A := [.notices, .feed, .out, .stats]) rfl).andThen
        (Part.countStation_via ..) rfl |>.table_eq rfl)) (Part.thins_openCore ..))
    | pick n hp hd hn hh => exact .inr ⟨n, rfl, rfl, hp, hd, hn, hh, rfl⟩
    | sheet n g h => exact .inl (s.thins_modSheet n g h.kept)
    | uncover x st => exact .inl (s.thins_uncover x st)
    | cover x step =>
      exact .inl ((s.thins_modSheet x.number (fun y => y.arrived step.station s.tick) fun _ => ⟨rfl, rfl, id⟩).trans
        (.of_table ((Part.coverWith_via ..).table_eq rfl)))
    | spoil x => exact .inl (s.thins_spoilSheet x)
    | deliver => exact .inl (.trans (.of_table ((Part.deliverTo_via ..).table_eq rfl)) (Part.thins_removeSheet ..))
    | openEpisode j extra => exact .inl (s.thins_openCore j extra)
    | strand p =>
      refine .inl (.of_map _ (s.strand_sheets p) fun x => ?_)
      unfold Sheet.strandIf
      split <;> exact ⟨rfl, rfl, id⟩
    | planBuild => exact .inl (.trans (.of_table ((Part.setPath_via ..).table_eq rfl)) (Part.thins_planBuild _))
    | discardAll => exact .inl (.of_filter (fun _ => false) (by simp [Part.discardCoreAll, Table.pathReset]))
    | _ => cases hA

end Sys2Proof.Machine
end

