-- ==== Sys2Proof/Proofs/KeptTable.lean ====
section
/-! PROOF. What every step keeps of the Sheet Table: its order and places (R51, R69), the room it leaves in the purge bin (R103,
R104) and on the duplex loop (R57, R59). -/

namespace Sys2Proof.Machine

/-- What a sheet number is given from: the next number and whether they are exhausted (R51). -/
def Feed.numbering (f : Feed) : Nat × Bool := (f.nextSheet, f.exhausted)

theorem Part.abandonSweep_feed (s : Part) (bar : Bool) : (s.abandonSweep bar).feed = { s.feed with path := .held } := by
  unfold Part.abandonSweep
  rw [Part.setPath_feed]
  rfl

theorem Part.startJammed_feed (s : Part) (st : Fin 24) : ∃ (b : Bool) (c : Nat), (s.startJammed st).feed = { s.feed with
    cls := c, pickTimer := none, holdoff := none, ramp := none, runOn := none, hold := false, setEnd := false
    path := if b then .halting else .held } := by
  obtain ⟨c, hc⟩ := s.enterPath_feed
  obtain ⟨b, hf, -⟩ := (s.enterPath.countStation st 2).openCore_effect (s.residual st) 0
  refine ⟨b, c, ?_⟩
  rw [Part.startJammed, hf, (Part.countStation_via ..).feed_eq rfl, hc]

theorem Feed.numbering_of_eq {f g h : Feed} (e : f = g) (k : g.numbering = h.numbering) : f.numbering = h.numbering := e ▸ k

/-- Only a pick takes a number (R51). -/
theorem Move.numbering {q : Mode} {A : List Block} {a b : Phase} {s t : Part} (m : Move q A a s b t) :
    t.feed.numbering = s.feed.numbering ∨ ∃ n, t = s.pickCore n := by
  cases hA : hasBlock A .feed with
  | false => exact .inl (m.via.feed_eq hA ▸ rfl)
  | true =>
    cases m with
    | define => exact .inl (Feed.numbering_of_eq (Part.setPath_feed ..) rfl)
    | judgeTrayEmpty u => exact .inl rfl
    | judgeBinFull b => exact .inl rfl
    | abandon job i => exact .inl (Feed.numbering_of_eq (s.abandonCore_feed job i) rfl)
    | feed g h => exact .inl (congrArg Feed.numbering (h s.feed) :)
    | hold g h => exact .inl (congrArg Feed.numbering (h s.feed) :)
    | pickTimer | holdoff | dropRamp | dropRunOn | reserve | unreserve => exact .inl rfl
    | ramped => exact .inl (Feed.numbering_of_eq (Part.setPath_feed ..) rfl)
    | drain => exact .inl (Feed.numbering_of_eq s.enterDraining_feed rfl)
    | goBack => exact .inl (Feed.numbering_of_eq s.returnToRunning_feed rfl)
    | runOnDone => exact .inl (Feed.numbering_of_eq (Part.enterIdle_feed _) rfl)
    | closed => exact .inl (Feed.numbering_of_eq s.enterIdle_feed rfl)
    | start =>
      obtain ⟨c, t, e⟩ := s.start_feed
      exact .inl (Feed.numbering_of_eq e rfl)
    | startJammed st =>
      obtain ⟨b, c, e⟩ := s.startJammed_feed st
      exact .inl (Feed.numbering_of_eq e rfl)
    | armRunOn => exact .inl (Feed.numbering_of_eq s.armRunOn_feed rfl)
    | pick n => exact .inr ⟨n, rfl⟩
    | openEpisode j extra =>
      obtain ⟨b, e, -⟩ := s.openCore_effect j extra
      exact .inl (Feed.numbering_of_eq e rfl)
    | halted => exact .inl (Feed.numbering_of_eq (Part.setPath_feed ..) rfl)
    | abandonSweep bar => exact .inl (Feed.numbering_of_eq (s.abandonSweep_feed bar) rfl)
    | startSweep h hd =>
      rw [s.startSweep_eq hd]
      exact .inl (Feed.numbering_of_eq (Part.setPath_feed ..) rfl)
    | planBuild =>
      rw [Part.planBuild_feed, Part.setPath_feed]
      exact .inl rfl
    | reheld => exact .inl (Feed.numbering_of_eq (Part.setPath_feed ..) rfl)
    | discardAll => exact .inl (Feed.numbering_of_eq s.discardCoreAll_feed rfl)
    | resetIdle => exact .inl (Feed.numbering_of_eq (Part.enterIdle_feed _) rfl)
    | _ => cases hA

/-! ## Order and places (R51, R69) -/

theorem Part.Thins.numbers {s t : Part} (h : s.Thins t) :
    (t.table.sheets.map Sheet.number).Sublist (s.table.sheets.map Sheet.number) := by
  obtain ⟨p, g, e, hg⟩ := h
  have same : Sheet.number ∘ g = Sheet.number := funext fun x => (hg x).1
  rw [e, List.map_map, same]
  exact List.filter_sublist.map _

theorem Part.Thins.tableSound {s t : Part} (h : s.Thins t) (hf : t.feed.numbering = s.feed.numbering) (hs : s.tableSound) :
    t.tableSound := by
  obtain ⟨order, below, places, last, full⟩ := hs
  obtain ⟨hn, he⟩ := Prod.mk.inj hf
  have sub := h.numbers
  refine ⟨order.sublist sub, fun x hx => ?_, ?_, hn ▸ last, fun e => he ▸ full (hn ▸ e)⟩
  · obtain ⟨y, hy, e⟩ := List.mem_map.mp (sub.subset (List.mem_map_of_mem hx))
    rw [hn, ← e]
    exact below y hy
  · have := sub.length_le
    simp only [List.length_map] at this
    omega

theorem Part.armNext_numbers (s : Part) (n : Nat) :
    (s.armNext n).table.sheets.map Sheet.number = s.table.sheets.map Sheet.number := Part.numbers_of_idents (s.armNext_idents n)

/-- A pick adds the next number at the tail of the table (R61, R69). -/
theorem Part.pickCore_numbers (s : Part) (n : NextPage) : (s.pickCore n).table.sheets.map Sheet.number =
    s.table.sheets.map Sheet.number ++ [s.feed.nextSheet] := by
  unfold Part.pickCore
  dsimp only
  rw [(Part.notePick_via ..).table_eq rfl, (Part.callFront_via ..).table_eq rfl, Part.modOut_table,
    (Part.reserve_via ..).table_eq rfl, Part.armNext_numbers]
  unfold Part.joinTable
  simp only [Part.raiseRevision, Part.modTable_table, List.map_append, (s.takeNext_via n).table_eq rfl]
  rfl

/-- The pick conditions of R57 that do not depend on the tick, one by one. -/
theorem Part.pickHolds_iff (s : Part) (n : NextPage) : s.pickHolds n = true ↔
    n.front.cls = s.feed.cls ∧ s.table.sheets.length < 24 ∧ s.feed.unconfirmed = none ∧ s.trayAvailable n.unit = true ∧
    (match n.front.destination with
      | .bin0 => !s.binIsFull 0
      | .bin1 => !s.binIsFull 1
      | _ => true) = true ∧
    s.reserveMet = true ∧ s.calls.unsent < 8 ∧
    (if n.kind = .duplex then s.firstPassCount < s.force.timing.loop else s.firstPassCount = 0) ∧
    readyGatePasses s.force.timing.readyGate n = true := by
  unfold Part.pickHolds
  simp only [Bool.and_eq_true, decide_eq_true_eq, beq_iff_eq, Option.isNone_iff_eq_none, and_assoc]
  refine and_congr_right fun _ => and_congr Iff.rfl (and_congr_right fun _ => and_congr_right fun _ => and_congr Iff.rfl
    (and_congr_right fun _ => and_congr Iff.rfl (and_congr ?_ Iff.rfl)))
  split <;> simp

theorem Part.pickHolds_places {s : Part} {n : NextPage} (h : s.pickHolds n = true) : s.table.sheets.length < 24 :=
  ((s.pickHolds_iff n).mp h).2.1

theorem Part.pickCore_tableSound {s : Part} {n : NextPage} (hs : s.tableSound) (hd : s.feed.exhausted = false)
    (hh : s.pickHolds n = true) : (s.pickCore n).tableSound := by
  obtain ⟨order, below, places, last, full⟩ := hs
  obtain ⟨m, hf⟩ := s.pickCore_feed n
  have room := s.pickCore_numbers n
  have hlast : s.feed.nextSheet ≠ 4294967296 := fun e => by simp [full e] at hd
  have length : (s.pickCore n).table.sheets.length = s.table.sheets.length + 1 := by
    simpa using congrArg List.length room
  have hroom := Part.pickHolds_places hh
  refine ⟨?_, fun x hx => ?_, by omega, ?_, fun e => ?_⟩
  · rw [room, List.pairwise_append]
    refine ⟨order, List.pairwise_singleton .., fun a ha b hb => ?_⟩
    obtain ⟨x, hx, rfl⟩ := List.mem_map.mp ha
    exact List.mem_singleton.mp hb ▸ below x hx
  · have hm := List.mem_map_of_mem (f := Sheet.number) hx
    rw [room, List.mem_append, List.mem_singleton] at hm
    rw [hf]
    rcases hm with hm | hm
    · obtain ⟨y, hy, e⟩ := List.mem_map.mp hm
      exact e ▸ Nat.lt_succ_of_lt (below y hy)
    · exact hm ▸ Nat.lt_succ_self _
  · rw [hf]
    show s.feed.nextSheet + 1 ≤ _
    omega
  · rw [hf] at e ⊢
    have : s.feed.nextSheet = Config.lastSheetNumber := by
      show s.feed.nextSheet = 4294967295
      have : s.feed.nextSheet + 1 = 4294967296 := e
      omega
    simp [this]

theorem Move.tableSound {q : Mode} {A : List Block} {a b : Phase} {s t : Part} (m : Move q A a s b t) (hs : s.tableSound) :
    t.tableSound := by
  rcases m.thins with thins | ⟨n, -, -, -, hd, -, hh, rfl⟩
  · rcases m.numbering with hf | ⟨n, rfl⟩
    · exact thins.tableSound hf hs
    · have := thins.numbers.length_le
      rw [Part.pickCore_numbers, List.length_append] at this
      simp at this
  · exact Part.pickCore_tableSound hs hd hh

theorem Part.reset_tableSound (rate : Rate) (pin : Vector Bool 32) : (Part.reset rate pin).tableSound := by
  simp [Part.tableSound, Part.reset, Feed.reset]

/-- Settles O48: a pick alone adds a sheet, under the next number and where a place is free. -/
theorem sheetTableKept : Obligations.SheetTableKept :=
  keptByEveryStep_of_moves (fun _ p => p.tableSound) (fun _ h => h) (fun _ h => h) Part.reset_tableSound
    fun m h => m.tableSound h

end Sys2Proof.Machine
end

