-- ==== Sys2Proof/Proofs/KeptRoom.lean ====
section
/-! PROOF. What every step keeps of the table's room: an empty table at rest (R46, R47), a place in the purge bin for every sheet
(R103, R104) and no more than D sheets on the duplex loop (R57, R59). -/

namespace Sys2Proof.Machine

/-! ## The table at rest (R46, R47) -/

/-- The table holds no sheet at rest, and what the phases of RESUME and PATH RESET know. -/
structure Part.resting (a : Phase) (s : Part) : Prop where
  empty : s.emptyAtRest
  resuming : a = .resuming → s.feed.path = .resumable
  resetting : a = .resetting → s.table.sheets = []

theorem Part.Thins.nil {s t : Part} (h : s.Thins t) (hs : s.table.sheets = []) : t.table.sheets = [] := by
  obtain ⟨p, g, e, -⟩ := h
  simp [e, hs]

theorem Part.Thins.length_le {s t : Part} (h : s.Thins t) : t.table.sheets.length ≤ s.table.sheets.length := by
  simpa using h.numbers.length_le

/-- The path state and the run-on timer, which say when the table is empty. -/
def Feed.rest (f : Feed) : PathState × Option Tick := (f.path, f.runOn)

theorem Part.emptyAtRest_of_thins {s t : Part} (h : s.Thins t) (hf : t.feed.rest = s.feed.rest) (hs : s.emptyAtRest) :
    t.emptyAtRest := by
  obtain ⟨hp, hr⟩ := Prod.mk.inj hf
  obtain ⟨rest, run⟩ := hs
  refine ⟨fun e => h.nil (rest (hp ▸ e)), fun e => ?_⟩
  obtain ⟨hd, hn⟩ := run (hr ▸ e)
  exact ⟨hp ▸ hd, h.nil hn⟩

/-- Where the path is neither UNCONFIGURED nor IDLE and the run-on timer idle, nothing is asked of the table. -/
theorem Part.emptyAtRest_of_moving {t : Part} (hp : t.feed.path ≠ .unconfigured ∧ t.feed.path ≠ .idle) (hr : t.feed.runOn = none) :
    t.emptyAtRest :=
  ⟨fun e => e.elim (absurd · hp.1) (absurd · hp.2), fun e => by simp [hr] at e⟩

/-- Outside DRAINING the run-on timer is idle. -/
theorem Part.emptyAtRest.runOn {s : Part} (h : s.emptyAtRest) (hp : s.feed.path ≠ .draining) : s.feed.runOn = none := by
  cases e : s.feed.runOn with
  | none => rfl
  | some d => exact absurd (h.2 (by rw [e]; rfl)).1 hp

theorem Part.resting.settled {s : Part} (h : s.emptyAtRest) : s.resting .settled := ⟨h, nofun, nofun⟩

theorem Feed.rest_of_eq {f g h : Feed} (e : f = g) (k : g.rest = h.rest) : f.rest = h.rest := e ▸ k

theorem Part.pickCore_rest (s : Part) (n : NextPage) : (s.pickCore n).feed.rest = s.feed.rest := by
  obtain ⟨m, e⟩ := s.pickCore_feed n
  obtain ⟨hp, -, hr, -⟩ := Feed.bound_kept { s.feed with merge := m } n
  rw [e]
  exact Prod.ext hp hr

theorem Part.openCore_rest (s : Part) (j : Jam) (extra : AreaSet) :
    ((s.openCore j extra).feed.path ≠ .unconfigured ∧ (s.openCore j extra).feed.path ≠ .idle) ∧
      (s.openCore j extra).feed.runOn = none := by
  obtain ⟨b, e, -⟩ := s.openCore_effect j extra
  rw [e]
  cases b <;> exact ⟨⟨nofun, nofun⟩, rfl⟩

/-- A pick is made with the path RUNNING, where the table may hold sheets. -/
theorem Part.pickCore_emptyAtRest {s : Part} (n : NextPage) (hp : s.feed.path = .running) (hs : s.emptyAtRest) :
    (s.pickCore n).emptyAtRest := by
  obtain ⟨path, run⟩ := Prod.mk.inj (s.pickCore_rest n)
  exact Part.emptyAtRest_of_moving (by rw [path, hp]; decide) (run.trans (hs.runOn (by rw [hp]; decide)))

theorem Move.emptyAtRest {q : Mode} {A : List Block} {a b : Phase} {s t : Part} (m : Move q A a s b t) (hs : s.resting a) :
    t.emptyAtRest := by
  have idleOf : ∀ {p : PathState}, s.feed.path = p → p ≠ .draining → s.feed.runOn = none := fun h hp => hs.empty.runOn (h ▸ hp)
  rcases m.thins with thins | ⟨n, -, -, hp, -, -, -, rfl⟩
  case inr => exact Part.pickCore_emptyAtRest n hp hs.empty
  cases hA : hasBlock A .feed with
  | false => exact Part.emptyAtRest_of_thins thins (m.via.feed_eq hA ▸ rfl) hs.empty
  | true =>
    cases m with
    | define g h hp =>
      have rest : s.feed.path = .unconfigured ∨ s.feed.path = .idle := by simpa [Part.definable] using hp
      refine ⟨fun _ => thins.nil (hs.empty.1 rest), fun e => ?_⟩
      rw [Part.setPath_feed] at e
      simp [hs.empty.runOn (by rcases rest with h | h <;> simp [h])] at e
    | judgeTrayEmpty | judgeBinFull | pickTimer | holdoff | dropRamp | reserve | unreserve =>
      exact Part.emptyAtRest_of_thins thins rfl hs.empty
    | feed g h | hold g h => exact Part.emptyAtRest_of_thins thins (congrArg Feed.rest (h s.feed) :) hs.empty
    | abandon job i => exact Part.emptyAtRest_of_thins thins (Feed.rest_of_eq (s.abandonCore_feed job i) rfl) hs.empty
    | dropRunOn => exact ⟨hs.empty.1, fun e => nomatch e⟩
    | ramped h =>
      refine Part.emptyAtRest_of_moving ?_ ?_ <;> rw [Part.setPath_feed]
      · exact ⟨nofun, nofun⟩
      · exact idleOf h nofun
    | drain h =>
      refine ⟨fun e => by simp [Part.enterDraining_feed] at e, fun e => ⟨by rw [Part.enterDraining_feed], thins.nil ?_⟩⟩
      rw [Part.enterDraining_feed, idleOf h nofun] at e
      by_cases hn : s.table.sheets.isEmpty = true
      · exact List.isEmpty_iff.mp hn
      · simp [hn] at e
    | goBack h =>
      refine Part.emptyAtRest_of_moving ?_ ?_ <;> rw [Part.returnToRunning_feed]
      exact ⟨nofun, nofun⟩
    | runOnDone h hr =>
      exact ⟨fun _ => thins.nil (hs.empty.2 hr).2, fun e => by simp [Part.enterIdle_feed] at e⟩
    | closed h =>
      exact ⟨fun _ => thins.nil (hs.empty.1 (.inl h)), fun e => by simp [Part.enterIdle_feed] at e⟩
    | start h =>
      obtain ⟨c, d, e⟩ := s.start_feed
      refine Part.emptyAtRest_of_moving ?_ ?_ <;> rw [e]
      · exact ⟨nofun, nofun⟩
      · rcases h with ⟨-, h⟩ | h
        · exact idleOf h nofun
        · exact idleOf (hs.resuming h) nofun
    | startJammed st h =>
      obtain ⟨hp, hr⟩ := (s.enterPath.countStation st 2).openCore_rest (s.residual st) 0
      exact Part.emptyAtRest_of_moving hp hr
    | armRunOn =>
      refine ⟨fun e => thins.nil (hs.empty.1 (by rwa [Part.armRunOn_feed] at e)), fun e => ?_⟩
      rw [Part.armRunOn_feed] at e ⊢
      by_cases hn : s.feed.path = .draining ∧ s.table.sheets.isEmpty = true
      · exact ⟨hn.1, thins.nil (List.isEmpty_iff.mp hn.2)⟩
      · obtain ⟨hd, hn⟩ := hs.empty.2 (by simpa only [if_neg hn] using e)
        exact ⟨hd, thins.nil hn⟩
    | openEpisode j extra =>
      obtain ⟨hp, hr⟩ := s.openCore_rest j extra
      exact Part.emptyAtRest_of_moving hp hr
    | halted ha h =>
      refine Part.emptyAtRest_of_moving ?_ ?_ <;> rw [Part.setPath_feed]
      · exact ⟨nofun, nofun⟩
      · exact idleOf h nofun
    | abandonSweep bar ha h =>
      refine Part.emptyAtRest_of_moving ?_ ?_ <;> rw [Part.abandonSweep_feed]
      · exact ⟨nofun, nofun⟩
      · exact idleOf h nofun
    | startSweep h hd =>
      rw [s.startSweep_eq hd]
      refine Part.emptyAtRest_of_moving ?_ ?_ <;> simp only [Part.runDrives, Part.modEpisode_feed, Part.modOut_feed, Part.setPath_feed]
      · exact ⟨nofun, nofun⟩
      · exact idleOf h nofun
    | planBuild h =>
      refine Part.emptyAtRest_of_moving ?_ ?_ <;> rw [Part.planBuild_feed]
      · exact ⟨nofun, nofun⟩
      · rw [Part.setPath_feed]
        rcases h with h | h <;> exact idleOf h nofun
    | reheld h =>
      refine Part.emptyAtRest_of_moving ?_ ?_ <;> rw [Part.setPath_feed]
      · exact ⟨nofun, nofun⟩
      · exact idleOf h nofun
    | discardAll h => exact ⟨fun _ => by rw [s.discardCoreAll_table]; rfl, fun e => by simp [s.discardCoreAll_feed, Feed.pathReset] at e⟩
    | pick n hp => exact Part.pickCore_emptyAtRest n hp hs.empty
    | resetIdle => exact ⟨fun _ => thins.nil (hs.resetting rfl), fun e => by simp [Part.enterIdle_feed] at e⟩
    | _ => cases hA

/-- A move that stays in RESUME's phase leaves the path RESUMABLE. -/
theorem Move.stays_resuming {q : Mode} {A : List Block} {s t : Part} (m : Move q A .resuming s .resuming t) :
    t.feed.path = s.feed.path := by
  cases hA : hasBlock A .feed with
  | false => rw [m.via.feed_eq hA]
  | true =>
    cases m with
    | judgeTrayEmpty | judgeBinFull | reserve | unreserve => rfl
    | feed g h => exact (congrArg Feed.path (h s.feed) :)
    | openEpisode _ _ h => simp [Phase.calm] at h
    | halted ha => cases ha
    | abandonSweep _ ha => cases ha
    | _ => cases hA

theorem Move.resting {q : Mode} {A : List Block} {a b : Phase} {s t : Part} (m : Move q A a s b t) (hs : s.resting a) :
    t.resting b := by
  refine ⟨m.emptyAtRest hs, ?_, ?_⟩
  · rintro rfl
    by_cases ha : a = .resuming
    · subst ha
      exact m.stays_resuming.trans (hs.resuming rfl)
    · cases m with
      | resume h => exact h
      | openEpisode _ _ h => rcases h with ⟨-, h⟩ | ⟨-, h⟩ <;> simp_all
      | _ => exact absurd rfl ha
  · rintro rfl
    by_cases ha : a = .resetting
    · subst ha
      rcases m.thins with thins | ⟨n, ha, -⟩
      · exact thins.nil (hs.resetting rfl)
      · cases ha
    · cases m with
      | discardAll => rw [s.discardCoreAll_table]; rfl
      | openEpisode _ _ h => rcases h with ⟨-, h⟩ | ⟨-, h⟩ <;> simp_all
      | _ => exact absurd rfl ha

end Sys2Proof.Machine
end

