-- ==== Sys2Proof/Proofs/KeptPlaces.lean ====
section
/-! PROOF. What every step keeps of the places for sheets: one in the purge bin for every sheet of the table (R103, R104), and D on
the duplex loop (R57, R59). -/

namespace Sys2Proof.Machine

/-! ## A description that passes PATH CLOSE (R15) -/

/-- A description that passes PATH CLOSE passes each of its six checks (R15). -/
theorem Desc.checks_of_badPath {d : Desc} (h : d.badPath = none) : d.missingItem = none ∧ d.legShape = none ∧
    d.deliverPrefix = none ∧ d.driveMismatch = none ∧ d.lineConflict = none ∧ d.areaUncovered = none := by
  simpa [Desc.badPath] using h

theorem Desc.purge_of_badPath {d : Desc} (h : d.badPath = none) : d.purge.isSome = true := by
  have missing := (Desc.checks_of_badPath h).1
  unfold Desc.missingItem at missing
  split at missing
  · simp at missing
  · split at missing
    · simp at missing
    · split at missing
      · simp at missing
      · next hu =>
        have := List.findIdx?_eq_none_iff.mp hu d.purge.isSome (by simp [Desc.unitsSet])
        simpa using this

/-! ## The sheet picked (R56) -/

/-- What arming a sheet's deadline makes of the table: a tame change of its record. -/
theorem Part.armNext_sheets (s : Part) (n : Nat) : ∃ g, Sheet.Tame g ∧
    (s.armNext n).table.sheets = s.table.sheets.map fun x => if x.number = n then g x else x := by
  unfold Part.armNext
  split
  · exact ⟨id, fun _ => ⟨rfl, id⟩, by simp⟩
  · split
    · refine ⟨_, ?_, s.modSheet_sheets n _⟩
      exact fun _ => ⟨rfl, id⟩
    · rw [(Part.scheduleLeading_via ..).table_eq rfl]
      refine ⟨_, ?_, s.modSheet_sheets n _⟩
      exact fun _ => ⟨rfl, id⟩

/-- A pick adds its sheet at the tail, and arms its deadline (R61). -/
theorem Part.pickCore_sheets (s : Part) (n : NextPage) : ∃ g, Sheet.Tame g ∧ (s.pickCore n).table.sheets =
    (s.table.sheets ++ [s.newSheet n]).map fun x => if x.number = s.feed.nextSheet then g x else x := by
  obtain ⟨g, hg, e⟩ := ((s.takeNext n).joinTable (s.newSheet n)).armNext_sheets s.feed.nextSheet
  refine ⟨g, hg, ?_⟩
  unfold Part.pickCore
  dsimp only
  rw [(Part.notePick_via ..).table_eq rfl, (Part.callFront_via ..).table_eq rfl, Part.modOut_table,
    (Part.reserve_via ..).table_eq rfl, show (s.newSheet n).number = s.feed.nextSheet from rfl, e]
  unfold Part.joinTable
  simp only [Part.raiseRevision, Part.modTable_table, (s.takeNext_via n).table_eq rfl]

theorem Part.pickCore_length (s : Part) (n : NextPage) : (s.pickCore n).table.sheets.length = s.table.sheets.length + 1 := by
  simpa using congrArg List.length (s.pickCore_numbers n)

/-! ## The purge bin (R103, R104) -/

/-- The capacity of the purge bin in force. -/
def Part.binPlaces (s : Part) : Nat := (s.force.purge.map PurgeSet.capacity).getD 0

/-- The purge count leaves a place for every sheet, and the sheet about to be delivered is one of the table. -/
structure Part.binFits (a : Phase) (s : Part) : Prop where
  rest : s.resting a
  stored : s.feed.path ≠ .unconfigured → s.stored.purge = s.force.purge
  capacity : ∀ x ∈ s.stored.purge, s.gate.purgeCount ≤ x.capacity
  count : s.gate.purgeCount ≤ s.binPlaces
  room : s.dry.on = false → s.gate.purgeCount + s.table.sheets.length ≤ s.binPlaces
  leaving : ∀ x st, a = .leaving x st → x.number ∈ s.table.sheets.map Sheet.number

theorem Part.modSheet_numbers (s : Part) (n : Nat) (g : Sheet → Sheet) (h : ∀ x, (g x).number = x.number) :
    (s.modSheet n g).table.sheets.map Sheet.number = s.table.sheets.map Sheet.number := by
  rw [Part.modSheet_sheets, List.map_map]
  apply List.map_congr_left
  intro x _
  simp only [Function.comp_apply]
  split
  · exact h x
  · rfl

theorem Part.uncover_numbers (s : Part) (x : Sheet) (st : Fin 24) :
    (s.uncover x st).table.sheets.map Sheet.number = s.table.sheets.map Sheet.number := by
  unfold Part.uncover
  dsimp only
  split
  · exact Part.modSheet_numbers _ _ _ fun _ => rfl
  · rfl

theorem Part.mem_of_coveringSheet {s : Part} {st : Fin 24} {x : Sheet} (h : s.coveringSheet st = some x) : x ∈ s.table.sheets := by
  unfold Part.coveringSheet at h
  obtain ⟨h, -⟩ := Option.filter_eq_some_iff.mp h
  obtain ⟨c, -, h⟩ := Option.bind_eq_some_iff.mp h
  exact List.mem_of_find?_eq_some h

theorem Move.enters_leaving {q : Mode} {A : List Block} {a : Phase} {x : Sheet} {st : Fin 24} {s t : Part}
    (m : Move q A a s (.leaving x st) t) : a = .leaving x st ∨ hasBlock A .table = true := by
  cases m with
  | uncover => exact .inr rfl
  | openEpisode _ _ h =>
    rcases h with ⟨-, h⟩ | ⟨-, h⟩
    · exact .inl h.symm
    · cases h
  | _ => exact .inl rfl

/-- A sheet that is leaving is one of the table while it leaves. -/
theorem Move.leaving_mem {q : Mode} {A : List Block} {a : Phase} {x : Sheet} {st : Fin 24} {s t : Part}
    (m : Move q A a s (.leaving x st) t) (hs : ∀ y u, a = .leaving y u → y.number ∈ s.table.sheets.map Sheet.number) :
    x.number ∈ t.table.sheets.map Sheet.number := by
  cases hA : hasBlock A .table with
  | false =>
    rw [m.via.table_eq hA]
    exact hs _ _ (m.enters_leaving.resolve_right (by simp [hA]))
  | true =>
    cases m with
    | uncover x st h => rw [s.uncover_numbers]; exact List.mem_map_of_mem (Part.mem_of_coveringSheet h)
    | sheet n g h => rw [s.modSheet_numbers n g fun x => (h.kept x).1]; exact hs _ _ rfl
    | strand p => rw [s.strand_sheets p, List.map_map]; simpa [Function.comp_def] using hs _ _ rfl
    | openEpisode j extra h =>
      rw [s.openCore_numbers j extra]
      rcases h with ⟨-, h⟩ | ⟨-, h⟩
      · exact hs _ _ h.symm
      · cases h
    | spoil x ha =>
      rcases ha with h | ⟨y, u, p, h⟩ <;> cases h
    | _ => cases hA

/-- A sheet handed to the purge bin outside dry run raises the purge count by one, and no other delivery does (R102). -/
theorem Part.deliverTo_purgeCount (s : Part) (x : Sheet) (r : Option Role) : (s.deliverTo x r).gate.purgeCount =
    if r = some .purgeEntry ∧ s.dry.on = false then s.gate.purgeCount + 1 else s.gate.purgeCount := by
  cases hr : decide (r = some .purgeEntry) with
  | true =>
    obtain rfl : r = some .purgeEntry := of_decide_eq_true hr
    show s.countPurge.gate.purgeCount = _
    unfold Part.countPurge
    rw [(Part.countPath_via ..).gate_eq rfl]
    cases s.dry.on <;> simp [Part.judgePurgeFull]
  | false =>
    have hr := of_decide_eq_false hr
    rw [if_neg fun h => hr h.1]
    unfold Part.deliverTo
    split
    · exact congrArg Gate.purgeCount (((Part.deliverPages_via ..).mono (A := [.notices, .intake, .stats]) rfl).andThen
        (Part.countPath_via ..) rfl |>.gate_eq rfl)
    · exact congrArg Gate.purgeCount (((Part.deliverPages_via ..).mono (A := [.notices, .intake, .stats]) rfl).andThen
        (Part.countPath_via ..) rfl |>.gate_eq rfl)
    · rfl
    · exact absurd rfl hr
    · rfl

theorem Part.removeSheet_length (s : Part) {n : Nat} (h : n ∈ s.table.sheets.map Sheet.number) :
    (s.removeSheet n).table.sheets.length < s.table.sheets.length := by
  obtain ⟨y, hy, e⟩ := List.mem_map.mp h
  show (s.table.sheets.filter fun x => x.number != n).length < _
  refine List.length_filter_lt_length_iff_exists.mpr ⟨y, hy, by simp [e]⟩

/-- The path is configured after a move where it was before, or at the end of PATH CLOSE. -/
theorem Move.configured {q : Mode} {A : List Block} {a b : Phase} {s t : Part} (m : Move q A a s b t) (hs : s.resting a)
    (ht : t.feed.path ≠ .unconfigured) : s.feed.path ≠ .unconfigured ∨ s.stored = s.force := by
  by_cases hu : s.feed.path = .unconfigured
  case neg => exact .inl hu
  have known : ∀ {p : PathState}, s.feed.path = p → p ≠ .unconfigured → False := fun h hp => hp (h.symm.trans hu)
  cases hA : hasBlock A .feed with
  | false => exact absurd (m.via.feed_eq hA ▸ hu) ht
  | true =>
    cases m with
    | closed h hb hs => exact .inr hs
    | define => exact absurd (by rw [Part.setPath_feed]) ht
    | judgeTrayEmpty | judgeBinFull | pickTimer | holdoff | dropRamp | dropRunOn | reserve | unreserve => exact absurd hu ht
    | feed g h | hold g h => exact absurd ((congrArg Feed.path (h s.feed) :).trans hu) ht
    | abandon job i => exact absurd (by rw [s.abandonCore_feed]; exact hu) ht
    | armRunOn => exact absurd (by rw [s.armRunOn_feed]; exact hu) ht
    | discardAll => exact absurd (by rw [s.discardCoreAll_feed]; exact hu) ht
    | ramped h | drain h | goBack h | runOnDone h | halted _ h | abandonSweep _ _ h | startSweep h | reheld h =>
      exact (known h nofun).elim
    | pick n h => exact (known h nofun).elim
    | planBuild h => rcases h with h | h <;> exact (known h nofun).elim
    | start h | startJammed _ h => rcases h.imp And.right hs.resuming with h | h <;> exact (known h nofun).elim
    | openEpisode _ _ _ h => exact absurd hu h
    | resetIdle h => exact absurd hu h
    | _ => cases hA

theorem Part.binFits.places {a : Phase} {s : Part} (h : s.binFits a) {x : Sheet} {st : Fin 24} (ha : a = .leaving x st) :
    s.feed.path ≠ .unconfigured ∧ s.stored.purge = s.force.purge := by
  have hp : s.feed.path ≠ .unconfigured := fun hu => by
    have := h.leaving x st ha
    simp [h.rest.empty.1 (.inl hu)] at this
  exact ⟨hp, h.stored hp⟩

/-- A move that leaves the descriptions, the purge count and the dry-run flag and takes sheets from the table alone. -/
theorem Part.binFits.of_thins {a b : Phase} {s t : Part} (h : s.binFits a) (hr : t.resting b) (thins : s.Thins t)
    (hd : t.stored = s.stored ∧ t.force = s.force) (hc : t.gate.purgeCount = s.gate.purgeCount ∨ t.gate.purgeCount = 0)
    (hdry : t.dry.on = s.dry.on) (hp : t.feed.path ≠ .unconfigured → s.feed.path ≠ .unconfigured ∨ s.stored = s.force)
    (hl : ∀ x st, b = .leaving x st → x.number ∈ t.table.sheets.map Sheet.number) : t.binFits b := by
  obtain ⟨hstored, hforce⟩ := hd
  have hcount : t.gate.purgeCount ≤ s.gate.purgeCount := by rcases hc with e | e <;> omega
  have hplaces : t.binPlaces = s.binPlaces := by rw [Part.binPlaces, hforce]; rfl
  refine ⟨hr, fun ht => ?_, fun x hx => ?_, ?_, fun hon => ?_, hl⟩
  · rw [hstored, hforce]
    rcases hp ht with hs | e
    · exact h.stored hs
    · rw [e]
  · exact hcount.trans (h.capacity x (hstored ▸ hx))
  · exact hplaces ▸ hcount.trans h.count
  · have := h.room (hdry ▸ hon)
    have := thins.length_le
    omega

/-! ## What moves the descriptions, the dry run and the purge count -/

/-- Only a definition request moves the stored description, and only PATH CLOSE the one in force (R2, R15). -/
theorem Move.descs {q : Mode} {A : List Block} {a b : Phase} {s t : Part} (m : Move q A a s b t) :
    (t.stored = s.stored ∧ t.force = s.force) ∨ a = .settled ∧ b = .settled ∧ s.definable = true ∧
      ((∃ g, Desc.Edit s.gate.purgeCount g ∧ t = (s.modStored g).setPath .unconfigured) ∨
        s.stored.badPath = none ∧ t = s.putInForce) := by
  cases hA : hasBlock A .stored || hasBlock A .force with
  | false =>
    obtain ⟨hs, hf⟩ := Bool.or_eq_false_iff.mp hA
    exact .inl ⟨m.via.stored_eq hs, m.via.force_eq hf⟩
  | true =>
    cases m with
    | define g h hp => exact .inr ⟨rfl, rfl, hp, .inl ⟨g, h, rfl⟩⟩
    | putInForce hp hb => exact .inr ⟨rfl, rfl, hp, .inr ⟨hb, rfl⟩⟩
    | _ => cases hA

/-- Dry run's flag and its first sheet number (R166). -/
def Dry.run (d : Dry) : Bool × Nat := (d.on, d.firstSheet)

theorem Dry.run_on {d e : Dry} (h : d.run = e.run) : d.on = e.on := congrArg Prod.fst h

theorem Part.modDry_run (s : Part) (g : Dry → Dry) (h : Dry.Tame g) : (s.modDry g).dry.run = s.dry.run :=
  Prod.ext (h s.dry).1 (h s.dry).2

theorem Part.removeSheet_run (s : Part) (n : Nat) : (s.removeSheet n).dry.run = s.dry.run := by
  unfold Part.removeSheet Part.withdrawEdges
  exact Part.modDry_run _ _ fun _ => ⟨rfl, rfl⟩

theorem Part.planSheet_run (s : Part) (x : Sheet) : (s.planSheet x).dry.run = s.dry.run :=
  (Part.removeSheet_run ..).trans (congrArg Dry.run ((s.reprint_via .stranded x.pages).dry_eq rfl))

theorem Part.strand_run (s : Part) (p : Sheet → Bool) : (s.strand p).dry.run = s.dry.run := by
  unfold Part.strand
  dsimp only
  rw [(Part.addAreas_via ..).dry_eq rfl]
  exact Part.modDry_run _ _ fun _ => ⟨rfl, rfl⟩

theorem Part.armNext_run (s : Part) (n : Nat) : (s.armNext n).dry.run = s.dry.run := by
  unfold Part.armNext Part.scheduleLeading
  split
  · rfl
  · split
    · rfl
    · dsimp only
      split
      · rfl
      · split <;> rfl

theorem Part.pickCore_run (s : Part) (n : NextPage) : (s.pickCore n).dry.run = s.dry.run := by
  unfold Part.pickCore
  dsimp only
  rw [(Part.notePick_via ..).dry_eq rfl, (Part.callFront_via ..).dry_eq rfl, Part.modOut_dry, (Part.reserve_via ..).dry_eq rfl,
    Part.armNext_run, (Part.joinTable_via ..).dry_eq rfl, (Part.takeNext_via ..).dry_eq rfl]

theorem Part.openCore_run (s : Part) (j : Jam) (extra : AreaSet) : (s.openCore j extra).dry.run = s.dry.run := by
  unfold Part.openCore
  dsimp only
  rw [(Part.halt_via ..).dry_eq rfl, (Part.addFinisherArea_via _).dry_eq rfl, (Part.addAreas_via ..).dry_eq rfl,
    (Part.retain_via _).dry_eq rfl, Part.strand_run, (Part.makeRunOut_via ..).dry_eq rfl, (Part.feedOnEpisode_via _).dry_eq rfl,
    Part.modEpisode_dry]

theorem Part.planBuild_run (s : Part) : s.planBuild.dry.run = s.dry.run := by
  have sheets : ∀ (l : List Sheet) (p : Part), (l.foldl Part.planSheet p).dry.run = p.dry.run := by
    intro l
    induction l with
    | nil => intro p; rfl
    | cons x l ih =>
      intro p
      rw [List.foldl_cons, ih, Part.planSheet_run]
  unfold Part.planBuild
  dsimp only
  rw [(Part.notePlanReady_via _).dry_eq rfl, (Part.setPath_via ..).dry_eq rfl, Part.modPlanner_dry, (Part.planEmpty_via _).dry_eq rfl,
    (Part.planSet_via _).dry_eq rfl, sheets, Part.modEpisode_dry, (Part.stopDrives_via s).dry_eq rfl]

theorem Part.completeEject_run (s : Part) : s.completeEject.dry.run = s.dry.run := by
  unfold Part.completeEject
  dsimp only
  rw [apply_ite (fun p : Part => p.dry.run), (Part.endPartial_via _).dry_eq rfl, (Part.endFinal_via _).dry_eq rfl,
    (Part.deliverPages_via ..).dry_eq rfl, ite_self]
  rfl

/-- Only DRY RUN, in IDLE, moves its flag and its first sheet number (R166). -/
theorem Move.dryRun_eq {q : Mode} {A : List Block} {a b : Phase} {s t : Part} (m : Move q A a s b t) :
    t.dry.run = s.dry.run ∨ q.dryRun = true ∧ a = .settled ∧ b = .settled ∧ s.feed.path = .idle ∧
      ∃ on first, t = s.modDry fun d => { d with on := on, firstSheet := first } := by
  cases hA : hasBlock A .dry with
  | false => exact .inl (m.via.dry_eq hA ▸ rfl)
  | true =>
    cases m with
    | dryRun on first hp hq => exact .inr ⟨hq, rfl, rfl, hp, on, first, rfl⟩
    | dry g h => exact .inl (Prod.ext (h s.dry).1 (h s.dry).2)
    | startJammed st =>
      refine .inl ((Part.openCore_run ..).trans ?_)
      rw [(Part.countStation_via ..).dry_eq rfl, (Part.enterPath_via s).dry_eq rfl]
    | pick n => exact .inl (s.pickCore_run n)
    | deliver => exact .inl ((Part.removeSheet_run ..).trans (congrArg Dry.run ((Part.deliverTo_via ..).dry_eq rfl)))
    | openEpisode j extra => exact .inl (s.openCore_run j extra)
    | strand p => exact .inl (s.strand_run p)
    | planBuild => exact .inl ((Part.planBuild_run _).trans (congrArg Dry.run ((Part.setPath_via ..).dry_eq rfl)))
    | discardAll =>
      rw [s.discardCoreAll_dry]
      exact .inl rfl
    | stapled =>
      refine .inl ?_
      unfold Part.stapled
      rw [(Part.eject_via ..).dry_eq rfl, (Part.countPath_via ..).dry_eq rfl]
      rfl
    | ejected => exact .inl s.completeEject_run
    | _ => cases hA

/-- The purge count moves at a delivery, and goes to 0 when the bin is taken out (R102). -/
theorem Move.purgeCount {q : Mode} {A : List Block} {a b : Phase} {s t : Part} (m : Move q A a s b t) :
    t.gate.purgeCount = s.gate.purgeCount ∨ q.empty = true ∧ t.gate.purgeCount = 0 ∨
      q.deliver = true ∧ ∃ x st, a = .leaving x st ∧ b = .delivering ∧ t = s.deliverCore x st := by
  cases hA : hasBlock A .gate with
  | false => exact .inl (m.via.gate_eq hA ▸ rfl)
  | true =>
    cases m with
    | judgePurgeFull | spoilCount => exact .inl rfl
    | spoiled =>
      refine .inl ?_
      unfold Part.noteSpoil
      dsimp only
      split <;> rfl
    | emptyBin hq => exact .inr (.inl ⟨hq, rfl⟩)
    | deliver _ hq => exact .inr (.inr ⟨hq, _, _, rfl, rfl, rfl⟩)
    | _ => cases hA

/-! ## The purge bin kept -/

/-- The pick's purge reserve leaves a place for one sheet more (R103). -/
theorem Part.reserveMet_room {s : Part} (h : s.reserveMet = true) (hd : s.dry.on = false) (hl : s.table.sheets.length < 24) :
    s.gate.purgeCount + (s.table.sheets.length + 1) ≤ s.binPlaces := by
  have : s.gate.purgeCount + 24 < s.binPlaces := by simpa [Part.reserveMet, hd, Part.binPlaces] using h
  omega

theorem Part.binPlaces_of_force {s t : Part} (h : t.force = s.force) : t.binPlaces = s.binPlaces :=
  congrArg (fun d : Desc => (d.purge.map PurgeSet.capacity).getD 0) h

theorem Part.pickCore_binFits {s : Part} {n : NextPage} (h : s.binFits .settled) (hp : s.feed.path = .running)
    (hh : s.pickHolds n = true) (hr : (s.pickCore n).resting .settled) : (s.pickCore n).binFits .settled := by
  have hv := s.pickCore_via n
  obtain ⟨-, hl, -, -, -, hreserve, -⟩ := (s.pickHolds_iff n).mp hh
  have hplaces := Part.binPlaces_of_force (hv.force_eq rfl)
  have hdry : (s.pickCore n).dry.on = s.dry.on := Dry.run_on (s.pickCore_run n)
  refine ⟨hr, fun _ => ?_, ?_, ?_, fun hon => ?_, fun _ _ h => by cases h⟩
  · rw [hv.stored_eq rfl, hv.force_eq rfl]
    exact h.stored (by rw [hp]; nofun)
  · rw [hv.stored_eq rfl, hv.gate_eq rfl]
    exact h.capacity
  · rw [hv.gate_eq rfl, hplaces]
    exact h.count
  · rw [hv.gate_eq rfl, hplaces, s.pickCore_length]
    exact Part.reserveMet_room hreserve (hdry ▸ hon) hl

/-- A sheet delivered to the purge bin takes the place its record kept (R102, R104). -/
theorem Part.deliverCore_binFits {s : Part} {x : Sheet} {st : Fin 24} (h : s.binFits (.leaving x st))
    (hr : (s.deliverCore x st).resting .delivering) : (s.deliverCore x st).binFits .delivering := by
  have hv := s.deliverCore_via x st
  obtain ⟨hp, hstored⟩ := h.places rfl
  have hplaces := Part.binPlaces_of_force (hv.force_eq rfl)
  have hdry : (s.deliverCore x st).dry.on = s.dry.on :=
    Dry.run_on ((Part.removeSheet_run ..).trans (congrArg Dry.run ((Part.deliverTo_via ..).dry_eq rfl)))
  have hlength : (s.deliverCore x st).table.sheets.length < s.table.sheets.length := by
    have e := (Part.deliverTo_via s x (s.force.roleOf st)).table_eq rfl
    have := (s.deliverTo x (s.force.roleOf st)).removeSheet_length (e ▸ h.leaving x st rfl)
    rwa [e] at this
  have hcount : (s.deliverCore x st).gate.purgeCount ≤ s.binPlaces ∧
      (s.dry.on = false → (s.deliverCore x st).gate.purgeCount + (s.deliverCore x st).table.sheets.length ≤ s.binPlaces) := by
    have e : (s.deliverCore x st).gate.purgeCount = _ :=
      (congrArg Gate.purgeCount ((Part.removeSheet_via ..).gate_eq rfl)).trans (s.deliverTo_purgeCount x (s.force.roleOf st))
    rw [e]
    have := h.count
    have := h.room
    split
    · next hc =>
      have := h.room hc.2
      omega
    · refine ⟨h.count, fun hon => ?_⟩
      have := h.room hon
      omega
  refine ⟨hr, fun _ => ?_, fun y hy => ?_, ?_, fun hon => ?_, fun _ _ h => by cases h⟩
  · rw [hv.stored_eq rfl, hv.force_eq rfl]
    exact hstored
  · rw [hv.stored_eq rfl, hstored] at hy
    have := hcount.1
    rwa [Part.binPlaces, Option.mem_def.mp hy] at this
  · exact hplaces ▸ hcount.1
  · exact hplaces ▸ hcount.2 (hdry ▸ hon)

theorem Part.definable_cases {s : Part} (h : s.definable = true) : s.feed.path = .unconfigured ∨ s.feed.path = .idle := by
  simpa [Part.definable] using h

/-- A definition request keeps the purge count within both descriptions' capacities (R8). -/
theorem Part.define_binFits {s : Part} {g : Desc → Desc} (h : s.binFits .settled) (hg : Desc.Edit s.gate.purgeCount g)
    (hr : ((s.modStored g).setPath .unconfigured).resting .settled) :
    ((s.modStored g).setPath .unconfigured).binFits .settled := by
  have hv := (s.modStored g).setPath_via .unconfigured
  refine ⟨hr, fun ht => absurd (by rw [Part.setPath_feed]) ht, fun x hx => ?_, ?_, fun hon => ?_, fun _ _ h => by cases h⟩
  · rw [hv.gate_eq rfl]
    rw [hv.stored_eq rfl] at hx
    rcases hg.purge s.stored with e | ⟨y, e, hy⟩
    · exact h.capacity x (e ▸ hx)
    · obtain rfl : y = x := Option.some.inj (e.symm.trans hx)
      exact hy
  · rw [hv.gate_eq rfl, Part.binPlaces_of_force (hv.force_eq rfl)]
    exact h.count
  · rw [hv.gate_eq rfl, Part.binPlaces_of_force (hv.force_eq rfl), hv.table_eq rfl]
    exact h.room (hv.dry_eq rfl ▸ hon)

/-- The description that comes into force has a purge bin with room for the sheets it holds (R8, R16). -/
theorem Part.putInForce_binFits {s : Part} (h : s.binFits .settled) (hd : s.definable = true) (hb : s.stored.badPath = none)
    (hr : s.putInForce.resting .settled) : s.putInForce.binFits .settled := by
  have hv := s.putInForce_via
  obtain ⟨x, hx⟩ := Option.isSome_iff_exists.mp (Desc.purge_of_badPath hb)
  have hforce : s.putInForce.force = s.stored := rfl
  have hcount : s.putInForce.gate.purgeCount ≤ s.putInForce.binPlaces := by
    rw [hv.gate_eq rfl, Part.binPlaces, hforce, hx]
    exact h.capacity x hx
  refine ⟨hr, fun _ => ?_, ?_, hcount, fun _ => ?_, fun _ _ h => by cases h⟩
  · rw [hv.stored_eq rfl, hforce]
  · rw [hv.stored_eq rfl, hv.gate_eq rfl]
    exact h.capacity
  · rw [hv.table_eq rfl, h.rest.empty.1 (Part.definable_cases hd)]
    exact hcount

theorem Move.binFits {q : Mode} {A : List Block} {a b : Phase} {s t : Part} (m : Move q A a s b t) (h : s.binFits a) :
    t.binFits b := by
  have hr := m.resting h.rest
  have hp := m.configured h.rest
  have hl : ∀ x st, b = .leaving x st → x.number ∈ t.table.sheets.map Sheet.number := by
    rintro x st rfl
    exact m.leaving_mem h.leaving
  rcases m.descs with hdesc | ⟨rfl, rfl, hd, ⟨g, hg, rfl⟩ | ⟨hb, rfl⟩⟩
  case inr.inl => exact Part.define_binFits h hg hr
  case inr.inr => exact Part.putInForce_binFits h hd hb hr
  rcases m.thins with thins | ⟨n, rfl, rfl, hpath, -, -, hh, rfl⟩
  case inr => exact Part.pickCore_binFits h hpath hh hr
  rcases m.dryRun_eq with hdry | ⟨-, rfl, rfl, hi, on, first, rfl⟩
  case inr =>
    refine ⟨hr, h.stored, h.capacity, h.count, fun _ => ?_, fun _ _ h => by cases h⟩
    rw [Part.modDry_gate, Part.modDry_table, h.rest.empty.1 (.inr hi)]
    exact h.count
  have hon : t.dry.on = s.dry.on := Dry.run_on hdry
  rcases m.purgeCount with hc | ⟨-, hc⟩ | ⟨-, x, st, rfl, rfl, rfl⟩
  · exact h.of_thins hr thins hdesc (.inl hc) hon hp hl
  · exact h.of_thins hr thins hdesc (.inr hc) hon hp hl
  · exact Part.deliverCore_binFits h hr

theorem Part.reset_emptyAtRest (rate : Rate) (pin : Vector Bool 32) : (Part.reset rate pin).emptyAtRest := by
  simp [Part.emptyAtRest, Part.reset, Feed.reset]

theorem Part.reset_purgeSound (rate : Rate) (pin : Vector Bool 32) : (Part.reset rate pin).purgeSound :=
  ⟨Part.reset_emptyAtRest rate pin, fun _ => rfl, nofun, Nat.zero_le _, fun _ => Nat.zero_le _⟩

/-- Settles O55: a sheet is picked where the bin has room for it, and its delivery takes the place its record kept. -/
theorem purgeCountKept : Obligations.PurgeCountKept :=
  keptByEveryStep_of_moves Part.binFits (fun _ h => ⟨.settled h.empty, h.stored, h.capacity, h.count, h.room, fun _ _ h => by cases h⟩)
    (fun _ h => ⟨h.rest.empty, h.stored, h.capacity, h.count, h.room⟩) Part.reset_purgeSound fun m h => m.binFits h

/-! ## The duplex loop kept (R57, R59) -/

theorem Part.Thins.loops {s t : Part} (h : s.Thins t) : t.table.sheets.countP Sheet.loops ≤ s.table.sheets.countP Sheet.loops := by
  obtain ⟨p, g, e, hg⟩ := h
  rw [e, List.countP_map]
  refine le_trans (List.countP_mono_left fun x _ hx => ?_) (List.filter_sublist.countP_le)
  obtain ⟨-, hk, hp⟩ := hg x
  simp only [Function.comp_apply, Sheet.loops, hk, Bool.and_eq_true, beq_iff_eq] at hx ⊢
  refine ⟨hx.1, ?_⟩
  cases e : x.pass with
  | first => rfl
  | final => exact absurd (hp e) (by simp [hx.2])

theorem Part.pickCore_loops {s : Part} {n : NextPage} (hh : s.pickHolds n = true)
    (h : s.table.sheets.countP Sheet.loops ≤ s.force.timing.loop) :
    (s.pickCore n).table.sheets.countP Sheet.loops ≤ s.force.timing.loop := by
  obtain ⟨-, -, -, -, -, -, -, hloop, -⟩ := (s.pickHolds_iff n).mp hh
  obtain ⟨g, hg, e⟩ := s.pickCore_sheets n
  have tame : ∀ x : Sheet, (if x.number = s.feed.nextSheet then g x else x).loops = true → x.loops = true := by
    intro x hx
    split at hx
    · obtain ⟨-, hk, hp⟩ := hg.kept x
      simp only [Sheet.loops, hk, Bool.and_eq_true, beq_iff_eq] at hx ⊢
      refine ⟨hx.1, ?_⟩
      cases e : x.pass with
      | first => rfl
      | final => exact absurd (hp e) (by simp [hx.2])
    · exact hx
  rw [e, List.countP_map]
  refine le_trans (List.countP_mono_left fun x _ hx => tame x hx) ?_
  rw [List.countP_append]
  by_cases hk : n.kind = .duplex
  · rw [if_pos hk] at hloop
    have : [s.newSheet n].countP Sheet.loops ≤ 1 := List.countP_le_length
    have : s.table.sheets.countP Sheet.loops < s.force.timing.loop := hloop
    omega
  · have : [s.newSheet n].countP Sheet.loops = 0 := by simp [Sheet.loops, Part.newSheet, hk]
    omega

/-- The table at rest, and the loop within its places. -/
structure Part.loopFits (a : Phase) (s : Part) : Prop where
  rest : s.resting a
  loop : s.table.sheets.countP Sheet.loops ≤ s.force.timing.loop

theorem Move.loopFits {q : Mode} {A : List Block} {a b : Phase} {s t : Part} (m : Move q A a s b t) (h : s.loopFits a) :
    t.loopFits b := by
  refine ⟨m.resting h.rest, ?_⟩
  rcases m.thins with thins | ⟨n, -, -, -, -, -, hh, rfl⟩
  · rcases m.descs with ⟨-, hf⟩ | ⟨rfl, -, hd, -⟩
    · exact thins.loops.trans (hf ▸ h.loop)
    · simp [thins.nil (h.rest.empty.1 (Part.definable_cases hd))]
  · rw [(s.pickCore_via n).force_eq rfl]
    exact Part.pickCore_loops hh h.loop

/-- Settles O56: a DUPLEX sheet is picked where the loop has a place, and no sheet comes to its FIRST pass again. -/
theorem duplexLoopKept : Obligations.DuplexLoopKept :=
  keptByEveryStep_of_moves Part.loopFits (fun _ h => ⟨.settled h.1, h.2⟩) (fun _ h => ⟨h.rest.empty, h.loop⟩)
    (fun rate pin => ⟨Part.reset_emptyAtRest rate pin, Nat.zero_le _⟩) fun m h => m.loopFits h

end Sys2Proof.Machine
end

