-- ==== Sys2Proof/Proofs/KeptFinisher.lean ====
section
/-! PROOF. Every step keeps the Compile Set's fields, limits and outputs in agreement with its state (R148, R151, R152, R156). -/

namespace Sys2Proof.Machine

/-- The stapler and ejector outputs. -/
def Outputs.cycle (o : Outputs) : Bool × Bool := (o.stapler, o.ejector)

theorem Outputs.cycle_of_eq {o p r : Outputs} (e : o = p) (k : p.cycle = r.cycle) : o.cycle = r.cycle := e ▸ k

theorem Part.finisherSound_of_eq {s t : Part} (hf : t.finisher = s.finisher) (ho : t.out.cycle = s.out.cycle)
    (h : s.finisherSound) : t.finisherSound := by
  obtain ⟨hs, he⟩ := Prod.mk.inj ho
  exact ⟨hf ▸ h.empty, hf ▸ h.stapleLimit, hf ▸ h.ejectLimit, by rw [hs, hf]; exact h.stapler,
    by rw [he, hf]; exact h.ejector, hf ▸ h.disturbed⟩

/-- A Compile Set neither EMPTY nor in a cycle, its limits idle and its outputs at rest. -/
theorem Part.finisherSound_of_idle {t : Part} (hs : t.finisher.state = .compiling ∨ t.finisher.state = .retained ∨ t.finisher.state = .faulted)
    (hl : t.finisher.stapleLimit = none ∧ t.finisher.ejectLimit = none) (ho : t.out.cycle = (false, false)) : t.finisherSound := by
  obtain ⟨hst, hej⟩ := Prod.mk.inj ho
  obtain ⟨hsl, hel⟩ := hl
  have hne : t.finisher.state ≠ .empty ∧ t.finisher.state ≠ .stapling ∧ t.finisher.state ≠ .ejecting := by
    rcases hs with h | h | h <;> simp [h]
  obtain ⟨he, hs, hj⟩ := hne
  exact ⟨fun h => absurd h he, by simp [hsl, hs], by simp [hel, hj], by simp [hst, hs], by simp [hej, hj], fun _ => ⟨hs, hj⟩⟩

/-- A Compile Set put to reset with its outputs at rest. -/
theorem Part.finisherSound_of_reset {t : Part} (hf : t.finisher = .reset) (ho : t.out.cycle = (false, false)) : t.finisherSound := by
  obtain ⟨hst, hej⟩ := Prod.mk.inj ho
  refine ⟨fun _ => hf, ?_, ?_, ?_, ?_, ?_⟩ <;> simp [hf, hst, hej, Finisher.reset]

/-- Outside a cycle the limits are idle and the outputs at rest. -/
theorem Part.finisherSound.idle {s : Part} (h : s.finisherSound) (hb : s.finisher.state ≠ .stapling ∧ s.finisher.state ≠ .ejecting) :
    (s.finisher.stapleLimit = none ∧ s.finisher.ejectLimit = none) ∧ s.out.cycle = (false, false) := by
  have off : ∀ {v : Bool} {p : Prop}, (v = true ↔ p) → ¬ p → v = false := fun h hn => by
    rw [← Bool.not_eq_true, h]; exact hn
  have none' : ∀ {o : Option Tick} {p : Prop}, (o.isSome = true ↔ p) → ¬ p → o = none := fun h hn => by
    rw [← Option.not_isSome_iff_eq_none, h]; exact hn
  exact ⟨⟨none' h.stapleLimit hb.1, none' h.ejectLimit hb.2⟩, Prod.ext (off h.stapler hb.1) (off h.ejector hb.2)⟩

theorem Part.finisherSound.idle_of {s : Part} (h : s.finisherSound) {x : SetState} (hx : s.finisher.state = x)
    (hb : x ≠ .stapling ∧ x ≠ .ejecting) :
    (s.finisher.stapleLimit = none ∧ s.finisher.ejectLimit = none) ∧ s.out.cycle = (false, false) := h.idle (hx ▸ hb)

/-! ## The moves that change the set's state -/

/-- A set retained as an episode opens (R156). -/
theorem Part.finisherSound_of_retain {s t : Part} (h : s.finisherSound) (hf : t.finisher = s.retain.finisher)
    (ho : t.out.cycle = s.out.cycle) : t.finisherSound := by
  by_cases hc : s.finisher.state = .compiling
  · have e : t.finisher = { s.finisher with state := .retained } := by rw [hf]; simp [Part.retain, hc]
    obtain ⟨hl, hcyc⟩ := h.idle_of hc ⟨nofun, nofun⟩
    exact Part.finisherSound_of_idle (by rw [e]; exact .inr (.inl rfl)) (by rw [e]; exact hl) (ho.trans hcyc)
  · exact Part.finisherSound_of_eq (by rw [hf]; simp [Part.retain, hc]) ho h

theorem Part.handOver_sound {s : Part} (h : s.finisherSound) (x : Sheet) : (s.handOver x).finisherSound := by
  by_cases he : s.finisher.state = .empty
  · obtain ⟨hl, hcyc⟩ := h.idle_of he ⟨nofun, nofun⟩
    refine Part.finisherSound_of_idle ?_ ?_ hcyc
    · simp only [Part.handOver, Part.modFinisher_finisher, he, beq_self_eq_true, if_true]
      cases s.episode.isOpen
      · exact .inl rfl
      · exact .inr (.inl rfl)
    · simpa only [Part.handOver, Part.modFinisher_finisher, he, beq_self_eq_true, if_true] using hl
  · have e : (s.handOver x).finisher = { s.finisher with sheets := s.finisher.sheets ++ [s.heldOf x] } := by
      simp [Part.handOver, he]
    exact ⟨fun hx => absurd (by rwa [e] at hx) he, by rw [e]; exact h.stapleLimit, by rw [e]; exact h.ejectLimit,
      by rw [e]; exact h.stapler, by rw [e]; exact h.ejector, by rw [e]; exact h.disturbed⟩

theorem Part.finisherSound_of_plan {s t : Part} (h : s.finisherSound)
    (hf : t.finisher = if s.finisher.disturbed then .reset else s.finisher) (ho : t.out.cycle = s.out.cycle) : t.finisherSound := by
  split at hf
  · next hd => exact Part.finisherSound_of_reset hf (ho.trans (h.idle (h.disturbed hd)).2)
  · exact Part.finisherSound_of_eq hf ho h

theorem Part.openCore_finisherSound {s : Part} (h : s.finisherSound) (j : Jam) (extra : AreaSet) :
    (s.openCore j extra).finisherSound := by
  obtain ⟨b, -, ho, -⟩ := s.openCore_effect j extra
  exact Part.finisherSound_of_retain h (s.openCore_finisher j extra) (Outputs.cycle_of_eq ho rfl)

theorem Part.deliverTo_finisherSound {s : Part} (h : s.finisherSound) (x : Sheet) (r : Option Role) :
    (s.deliverTo x r).finisherSound := by
  have other : ∀ {t : Part}, Via [.notices, .intake, .gate, .stats] s t → t.finisherSound := fun v =>
    Part.finisherSound_of_eq (v.finisher_eq rfl) (congrArg Outputs.cycle (v.out_eq rfl)) h
  unfold Part.deliverTo
  split
  · exact other (((Part.deliverPages_via ..).mono rfl).andThen (Part.countPath_via ..) rfl)
  · exact other (((Part.deliverPages_via ..).mono rfl).andThen (Part.countPath_via ..) rfl)
  · exact Part.handOver_sound h x
  · exact other ((Part.countPurge_via s).mono rfl)
  · exact h

theorem Part.completeEject_finisherSound {s : Part} (h : s.finisherSound)
    (hs : s.finisher.state = .ejecting ∨ s.finisher.state = .compiling) : s.completeEject.finisherSound := by
  have hstaple : s.finisher.stapleLimit = none ∧ s.out.stapler = false := by
    have hn : s.finisher.state ≠ .stapling := by rcases hs with e | e <;> simp [e]
    exact ⟨by rw [← Option.not_isSome_iff_eq_none, h.stapleLimit]; exact hn, by rw [← Bool.not_eq_true, h.stapler]; exact hn⟩
  have hpages := fun (p : Part) (job : Nat) (l : List Page) => (p.deliverPages_via job l)
  have hcyc : ∀ (p : Part), p.out = { s.out with ejector := false } → p.out.cycle = (false, false) := by
    intro p e
    rw [e]
    exact Prod.ext hstaple.2 rfl
  unfold Part.completeEject
  dsimp only
  split
  · refine Part.finisherSound_of_idle ?_ ?_ (hcyc _ ?_)
    · unfold Part.endPartial
      simp only [Part.modFinisher_finisher]
      split
      · exact .inr (.inl rfl)
      · exact .inl rfl
    · unfold Part.endPartial
      simp only [Part.modFinisher_finisher, (hpages ..).finisher_eq rfl]
      exact ⟨hstaple.1, rfl⟩
    · rw [(Part.endPartial_via _).out_eq rfl, (hpages ..).out_eq rfl]
      rfl
  · refine Part.finisherSound_of_reset ?_ (hcyc _ ?_)
    · rfl
    · rw [(Part.endFinal_via _).out_eq rfl, (hpages ..).out_eq rfl]
      rfl

/-- A move that leaves the Compile Set alone leaves the stapler and the ejector too. -/
theorem Move.cycle_eq {q : Mode} {A : List Block} {a b : Phase} {s t : Part} (m : Move q A a s b t)
    (hA : hasBlock A .finisher = false) : t.out.cycle = s.out.cycle := by
  cases hx : hasBlock A .out && !hasBlock A .finisher with
  | false => rw [m.via.out_eq (by simpa [hA] using hx)]
  | true =>
    cases m with
    | runOnDone | closed | resetIdle => exact Outputs.cycle_of_eq (Part.enterIdle_out _) rfl
    | start =>
      obtain ⟨c, e⟩ := s.enterPath_out
      exact Outputs.cycle_of_eq (s.start_out.trans e) rfl
    | pick n => exact Outputs.cycle_of_eq (s.pickCore_out n) rfl
    | gates g h => exact Prod.ext (congrArg Outputs.stapler (h s.out) :) (congrArg Outputs.ejector (h s.out) :)
    | clutch => rfl
    | halted => exact Outputs.cycle_of_eq ((Part.setPath_via ..).out_eq rfl) rfl
    | abandonSweep bar => exact Outputs.cycle_of_eq ((Part.setPath_via ..).out_eq rfl) rfl
    | startSweep h hd =>
      rw [s.startSweep_eq hd]
      simp only [Part.runDrives, Part.modEpisode_out, Part.modOut_out, (Part.setPath_via ..).out_eq rfl]
      rfl
    | _ => cases hx

theorem Part.abandonCore_finisher (s : Part) (job : Nat) (i : Fin 8) : (s.abandonCore job i).finisher =
    if s.finisher.ofJob job then s.finisher.abandon else s.finisher := by
  have sheets : ∀ (l : List Sheet) (p : Part), (l.foldl Part.abandonSheet p).finisher = p.finisher := fun l p =>
    (Via.fold (A := [.table, .calls]) (.refl p) l fun p x => p.abandonSheet_via x).finisher_eq rfl
  have withdrawn : (s.withdrawJob job).finisher = if s.finisher.ofJob job then s.finisher.abandon else s.finisher := by
    unfold Part.withdrawJob
    dsimp only
    rw [Part.modFeed_finisher, Part.modFinisher_finisher, sheets, (Part.abandonPlanned_via ..).finisher_eq rfl]
    rfl
  unfold Part.abandonCore
  dsimp only
  split
  · rw [(Part.modSlot_via ..).finisher_eq rfl, withdrawn]
  · rw [(Part.noteProgress_via ..).finisher_eq rfl, (Part.modSlot_via ..).finisher_eq rfl, withdrawn]

/-- ABANDON JOB leaves a set that is not EMPTY, and retains a FAULTED one (R158). -/
theorem Part.abandonCore_finisherSound {s : Part} (h : s.finisherSound) (job : Nat) (i : Fin 8) : (s.abandonCore job i).finisherSound := by
  have hf := s.abandonCore_finisher job i
  have ho : (s.abandonCore job i).out.cycle = s.out.cycle := congrArg Outputs.cycle ((s.abandonCore_via job i).out_eq rfl)
  split at hf
  · next hj =>
    have hne : s.finisher.state ≠ .empty := fun e => by
      rw [h.empty e] at hj
      exact Bool.false_ne_true hj
    by_cases hfault : s.finisher.state = .faulted
    · obtain ⟨hl, hcyc⟩ := h.idle_of hfault ⟨nofun, nofun⟩
      exact Part.finisherSound_of_idle (by rw [hf]; simp [Finisher.abandon, hfault]) (by rw [hf]; exact hl) (ho.trans hcyc)
    · have hs : (s.abandonCore job i).finisher.state = s.finisher.state := by rw [hf]; simp [Finisher.abandon, hfault]
      obtain ⟨hst, hej⟩ := Prod.mk.inj ho
      exact ⟨fun e => absurd (hs ▸ e) hne, by rw [hs, hf]; exact h.stapleLimit, by rw [hs, hf]; exact h.ejectLimit,
        by rw [hs, hst]; exact h.stapler, by rw [hs, hej]; exact h.ejector, by rw [hs, hf]; exact h.disturbed⟩
  · exact Part.finisherSound_of_eq hf ho h

/-- A set in a cycle of one kind: its limit armed and its output active (R151, R152). -/
theorem Part.finisherSound_of_cycle {t : Part} (b : Bool) (hs : t.finisher.state = if b then .stapling else .ejecting)
    (hl : t.finisher.stapleLimit.isSome = b ∧ t.finisher.ejectLimit.isSome = !b) (ho : t.out.cycle = (b, !b))
    (hd : t.finisher.disturbed = false) : t.finisherSound := by
  obtain ⟨hst, hej⟩ := Prod.mk.inj ho
  obtain ⟨hsl, hel⟩ := hl
  cases b <;> refine ⟨?_, ?_, ?_, ?_, ?_, ?_⟩ <;> simp [hs, hsl, hel, hst, hej, hd]

theorem Part.eject_sound {s : Part} (hl : s.finisher.stapleLimit = none) (hst : s.out.stapler = false)
    (hd : s.finisher.disturbed = false) (part : Bool) : (s.eject part).finisherSound := by
  refine Part.finisherSound_of_cycle false rfl ⟨?_, rfl⟩ (Prod.ext ?_ rfl) hd
  · exact congrArg Option.isSome hl
  · exact hst

/-- A finisher door leaves a set that is not in a cycle disturbed and out of COMPILING (R156). -/
theorem Part.disturb_sound {s : Part} (h : s.finisherSound) (hb : s.finisher.busy = false) : s.disturb.finisherSound := by
  by_cases he : s.finisher.sheets.isEmpty = true
  · exact Part.finisherSound_of_eq (by simp [Part.disturb, he]) (by simp [Part.disturb, he]) h
  · have hne : s.finisher.state ≠ .empty := fun e => he (by rw [h.empty e]; rfl)
    have hcycle : s.finisher.state ≠ .stapling ∧ s.finisher.state ≠ .ejecting := by
      simpa [Finisher.busy] using hb
    obtain ⟨hl, hcyc⟩ := h.idle hcycle
    refine Part.finisherSound_of_idle ?_ ?_ ?_ <;> simp only [Part.disturb, he, if_false, Bool.false_eq_true]
    · have : s.finisher.state = .compiling ∨ s.finisher.state = .retained ∨ s.finisher.state = .faulted := by
        cases e : s.finisher.state <;> simp_all
      rcases this with e | e | e <;> simp [e]
    · exact hl
    · exact hcyc

/-- A change of the set's flags and settling marks. -/
theorem Finisher.core_kept {f g : Finisher} (h : g.core = f.core) : g.state = f.state ∧ g.stapleLimit = f.stapleLimit ∧
    g.ejectLimit = f.ejectLimit ∧ g.disturbed = f.disturbed ∧ g.ident = f.ident :=
  ⟨(congrArg Finisher.state h :), (congrArg Finisher.stapleLimit h :), (congrArg Finisher.ejectLimit h :),
    (congrArg Finisher.disturbed h :), (congrArg Finisher.ident h :)⟩

theorem Move.finisherSound {q : Mode} {A : List Block} {a b : Phase} {s t : Part} (m : Move q A a s b t) (h : s.finisherSound) :
    t.finisherSound := by
  cases hA : hasBlock A .finisher with
  | false => exact Part.finisherSound_of_eq (m.via.finisher_eq hA) (m.cycle_eq hA) h
  | true =>
    cases m with
    | abandon job i => exact Part.abandonCore_finisherSound h job i
    | startJammed st =>
      have hv := s.enterPath.countStation_via st 2
      obtain ⟨c, ho⟩ := s.enterPath_out
      refine Part.openCore_finisherSound (Part.finisherSound_of_eq ?_ ?_ h) ..
      · rw [hv.finisher_eq rfl, s.enterPath_via.finisher_eq rfl]
      · exact Outputs.cycle_of_eq (hv.out_eq rfl) (Outputs.cycle_of_eq ho rfl)
    | openEpisode j extra => exact Part.openCore_finisherSound h j extra
    | deliver =>
      have hv := fun (p : Part) (n : Nat) => p.removeSheet_via n
      exact Part.finisherSound_of_eq ((hv ..).finisher_eq rfl) (congrArg Outputs.cycle ((hv ..).out_eq rfl))
        (Part.deliverTo_finisherSound h ..)
    | planBuild =>
      have hv := s.setPath_via .sweeping
      refine Part.finisherSound_of_plan h ?_ ?_
      · rw [Part.planBuild_finisher, hv.finisher_eq rfl]
      · rw [Part.planBuild_out, hv.out_eq rfl]
        rfl
    | discardAll => exact Part.finisherSound_of_reset s.discardCoreAll_finisher (Outputs.cycle_of_eq s.discardCoreAll_out rfl)
    | finisher g hg hn =>
      obtain ⟨hs, hsl, hel, hd, -⟩ := Finisher.core_kept (hg s.finisher)
      exact ⟨fun e => absurd (h.empty (hs ▸ e)) hn, by rw [Part.modFinisher_finisher, hs, hsl]; exact h.stapleLimit,
        by rw [Part.modFinisher_finisher, hs, hel]; exact h.ejectLimit, by rw [Part.modFinisher_finisher, hs]; exact h.stapler,
        by rw [Part.modFinisher_finisher, hs]; exact h.ejector, by rw [Part.modFinisher_finisher, hs, hd]; exact h.disturbed⟩
    | staple hs hd =>
      obtain ⟨⟨-, hl⟩, hcyc⟩ := h.idle (by rcases hs with e | e <;> simp [e])
      refine Part.finisherSound_of_cycle true rfl ⟨rfl, ?_⟩ (Prod.ext rfl ?_) hd
      · exact congrArg Option.isSome hl
      · exact (Prod.mk.inj hcyc).2
    | eject part hs hd =>
      obtain ⟨⟨hl, -⟩, hcyc⟩ := h.idle_of hs ⟨nofun, nofun⟩
      exact Part.eject_sound hl (congrArg Prod.fst hcyc) hd part
    | stapled hs =>
      have hd : s.finisher.disturbed = false := by
        rw [← Bool.not_eq_true]
        exact fun e => (h.disturbed e).1 hs
      unfold Part.stapled
      refine Part.eject_sound ?_ ?_ ?_ false
      · rw [(Part.countPath_via ..).finisher_eq rfl]
        rfl
      · rw [(Part.countPath_via ..).out_eq rfl]
        rfl
      · rw [(Part.countPath_via ..).finisher_eq rfl]
        exact hd
    | ejected ha hs => exact Part.completeEject_finisherSound h (hs.imp id And.left)
    | retain => exact Part.finisherSound_of_retain h rfl rfl
    | recompile hs =>
      obtain ⟨hl, hcyc⟩ := h.idle_of hs ⟨nofun, nofun⟩
      exact Part.finisherSound_of_idle (.inl rfl) hl hcyc
    | abort hb => exact Part.finisherSound_of_idle (.inl rfl) ⟨rfl, rfl⟩ rfl
    | disturb hb => exact Part.disturb_sound h hb
    | stapleFails hs =>
      have hel : s.finisher.ejectLimit = none ∧ s.out.ejector = false := by
        constructor
        · rw [← Option.not_isSome_iff_eq_none, h.ejectLimit, hs]
          nofun
        · rw [← Bool.not_eq_true, h.ejector, hs]
          nofun
      exact Part.finisherSound_of_idle (.inr (.inr rfl)) ⟨rfl, hel.1⟩ (Prod.ext rfl hel.2)
    | ejectFails hs =>
      have hsl : s.finisher.stapleLimit = none ∧ s.out.stapler = false := by
        constructor
        · rw [← Option.not_isSome_iff_eq_none, h.stapleLimit, hs]
          nofun
        · rw [← Bool.not_eq_true, h.stapler, hs]
          nofun
      exact Part.finisherSound_of_idle (.inr (.inl rfl)) ⟨hsl.1, rfl⟩ (Prod.ext hsl.2 rfl)
    | dropStapleLimit hs =>
      have hl : s.finisher.stapleLimit = none := by rwa [← Option.not_isSome_iff_eq_none, h.stapleLimit]
      exact Part.finisherSound_of_eq (s := s) (by rw [Part.modFinisher_finisher, ← hl]) rfl h
    | dropEjectLimit hs =>
      have hl : s.finisher.ejectLimit = none := by rwa [← Option.not_isSome_iff_eq_none, h.ejectLimit]
      exact Part.finisherSound_of_eq (s := s) (by rw [Part.modFinisher_finisher, ← hl]) rfl h
    | _ => cases hA

/-- Settles O51: a cycle's limit and output come and go with its state. -/
theorem compileSetKept : Obligations.CompileSetKept :=
  keptByEveryStep_of_moves (fun _ p => p.finisherSound) (fun _ h => h) (fun _ h => h)
    (fun _ _ => Part.finisherSound_of_reset rfl rfl) fun m h => m.finisherSound h

end Sys2Proof.Machine
end

