-- ==== Sys2Proof/Proofs/KeptStations.lean ====
section
/-! PROOF. What every step keeps of the stations' learned states (R70), and which moves change them at all. -/

namespace Sys2Proof.Machine

/-- The learned state of every station stands. -/
def Part.LearnsNothing (s t : Part) : Prop := ∀ st : Fin 24, t.learned st = s.learned st

theorem Part.LearnsNothing.trans {s t u : Part} (h : s.LearnsNothing t) (k : t.LearnsNothing u) : s.LearnsNothing u := fun st =>
  (k st).trans (h st)

theorem Part.LearnsNothing.of_stations {s t : Part} (h : t.stations = s.stations) : s.LearnsNothing t := fun st => by
  rw [Part.learned, Part.learned, h]

theorem Part.LearnsNothing.fold {α : Type} {f : Part → α → Part} (hf : ∀ (p : Part) (x : α), p.LearnsNothing (f p x)) (l : List α)
    (s : Part) : s.LearnsNothing (l.foldl f s) := by
  induction l generalizing s with
  | nil => exact fun _ => rfl
  | cons x l ih => exact (hf s x).trans (ih _)

theorem Part.getElem_modStation (s : Part) (st : Fin 24) (g : Station → Station) (u : Fin 24) :
    (s.modStation st g).stations[u] = if u = st then g s.stations[st] else s.stations[u] := by
  unfold Part.modStation
  simp only [Part.modStations_stations, Fin.getElem_fin, Vector.getElem_set]
  by_cases h : u = st
  · simp [h]
  · rw [if_neg fun e => h (Fin.ext e.symm), if_neg h]

/-- A change of one station's state that learns nothing. -/
theorem Part.learnsNothing_modStation (s : Part) (st : Fin 24) (g : Station → Station)
    (h : let x := s.stations[st]
      (g x).offset = x.offset ∧ (g x).history = x.history ∧ (g x).outOfStep = x.outOfStep ∧ (g x).resync = x.resync) :
    s.LearnsNothing (s.modStation st g) := by
  obtain ⟨ho, hh, hs, hr⟩ := h
  intro u
  unfold Part.learned
  rw [Part.getElem_modStation]
  split
  · next e => simp only [e, ho, hh, hs, hr]
  · rfl

/-- A change of every station's covering entry. -/
theorem Part.learnsNothing_map {s t : Part} (g : Station → Station) (e : t.stations = s.stations.map g)
    (h : ∀ x, (g x).offset = x.offset ∧ (g x).history = x.history ∧ (g x).outOfStep = x.outOfStep ∧ (g x).resync = x.resync) :
    s.LearnsNothing t := by
  intro u
  obtain ⟨ho, hh, hs, hr⟩ := h s.stations[u]
  unfold Part.learned
  simp only [e, Fin.getElem_fin, Vector.getElem_map] at *
  rw [ho, hh, hs, hr]

theorem Part.learnsNothing_strand (s : Part) (p : Sheet → Bool) : s.LearnsNothing (s.strand p) :=
  Part.learnsNothing_map _ rfl fun _ => ⟨rfl, rfl, rfl, rfl⟩

theorem Part.learnsNothing_removeSheet (s : Part) (n : Nat) : s.LearnsNothing (s.removeSheet n) := by
  refine Part.learnsNothing_map _ rfl fun x => ?_
  split <;> exact ⟨rfl, rfl, rfl, rfl⟩

theorem Part.learnsNothing_openCore (s : Part) (j : Jam) (extra : AreaSet) : s.LearnsNothing (s.openCore j extra) := by
  obtain ⟨hit, e⟩ := s.openCore_stations j extra
  exact Part.learnsNothing_map _ e fun _ => ⟨rfl, rfl, rfl, rfl⟩

theorem Part.learnsNothing_planSheet (s : Part) (x : Sheet) : s.LearnsNothing (s.planSheet x) :=
  (Part.LearnsNothing.of_stations ((s.reprint_via .stranded x.pages).stations_eq rfl)).trans (Part.learnsNothing_removeSheet _ _)

theorem Part.learnsNothing_planBuild (s : Part) : s.LearnsNothing s.planBuild := by
  have sheets := Part.LearnsNothing.fold (f := Part.planSheet) (fun p x => p.learnsNothing_planSheet x)
    (s.table.sheets.filter fun x => x.cond == .stranded) (s.stopDrives.modEpisode fun e => { e with sweepTimer := none })
  exact (Part.LearnsNothing.of_stations rfl).trans (sheets.trans (.of_stations s.planBuild_stations))

theorem Part.learnsNothing_uncover (s : Part) (x : Sheet) (st : Fin 24) : s.LearnsNothing (s.uncover x st) := by
  have base := s.learnsNothing_modStation st (fun y => { y with cover := none }) ⟨rfl, rfl, rfl, rfl⟩
  unfold Part.uncover
  dsimp only
  split
  · exact base
  · exact base

/-- A station learns from a taken arrival, at RESYNC STATION and as a description comes into force, and from nothing else (R70). -/
theorem Move.learned {q : Mode} {A : List Block} {a b : Phase} {s t : Part} (m : Move q A a s b t) :
    s.LearnsNothing t ∨ q.learn = true ∧ (∃ st r o, t = s.learnAt st r o) ∨
      q.learn = true ∧ (∃ st : Fin 24, t = s.modStation st fun x => { x with resync := true }) ∨
      q.force = true ∧ a = .settled ∧ s.stored.badPath = none ∧ t = s.putInForce := by
  cases hA : hasBlock A .stations with
  | false => exact .inl (.of_stations (m.via.stations_eq hA))
  | true =>
    cases m with
    | putInForce hp hb hq => exact .inr (.inr (.inr ⟨hq, rfl, hb, rfl⟩))
    | learnAt st r o hq => exact .inr (.inl ⟨hq, st, r, o, rfl⟩)
    | resync st hq => exact .inr (.inr (.inl ⟨hq, st, rfl⟩))
    | startJammed st =>
      refine .inl (.trans (.of_stations ?_) (Part.learnsNothing_openCore _ _ _))
      rw [(Part.countStation_via ..).stations_eq rfl, (Part.enterPath_via s).stations_eq rfl]
    | station st g h => exact .inl (s.learnsNothing_modStation st g ⟨h.1, h.2.1, h.2.2.1, h.2.2.2.1⟩)
    | uncover x st => exact .inl (s.learnsNothing_uncover x st)
    | cover x step => exact .inl (Part.learnsNothing_modStation (s.modSheet x.number _) step.station _ ⟨rfl, rfl, rfl, rfl⟩)
    | deliver => exact .inl (.trans (.of_stations ((Part.deliverTo_via ..).stations_eq rfl)) (Part.learnsNothing_removeSheet _ _))
    | openEpisode j extra => exact .inl (s.learnsNothing_openCore j extra)
    | strand p => exact .inl (s.learnsNothing_strand p)
    | planBuild =>
      exact .inl (.trans (.of_stations ((Part.setPath_via ..).stations_eq rfl)) (Part.learnsNothing_planBuild _))
    | discardAll =>
      exact .inl (Part.learnsNothing_map (fun x => { x with cover := none }) s.discardCoreAll_stations fun _ => ⟨rfl, rfl, rfl, rfl⟩)
    | _ => cases hA

/-! ## Offsets and histories within their bounds (R70) -/

theorem clampOffset_bounds (m : Nat) (x : Int) : -(m : Int) ≤ clampOffset m x ∧ clampOffset m x ≤ m := by
  unfold clampOffset
  omega

theorem enterOutcome_length {n : Nat} (hn : 1 ≤ n) {history : List Arrival} (h : history.length ≤ n) (o : Arrival) :
    (enterOutcome n history o).length ≤ n := by
  unfold enterOutcome
  dsimp only
  split <;> simp only [List.length_append, List.length_drop, List.length_singleton] <;> omega

/-- A station's learned state within the bounds of a description's timing. -/
def Station.fits (tm : Timing) (x : Station) : Prop :=
  -(tm.omax : Int) ≤ x.offset ∧ x.offset ≤ tm.omax ∧ x.history.length ≤ tm.window

theorem Station.learn_fits {tm : Timing} {x : Station} (hw : 1 ≤ tm.window) (h : x.fits tm) (r : Int) (o : Arrival) :
    (x.learn tm r o).fits tm := by
  have bounds := fun y => clampOffset_bounds tm.omax y
  unfold Station.learn updatedOffset Station.fits
  dsimp only
  split
  · exact ⟨(bounds _).1, (bounds _).2, Nat.zero_le _⟩
  · exact ⟨(bounds _).1, (bounds _).2, enterOutcome_length hw h.2.2 o⟩

theorem Station.onClose_fits (x : Station) (changed : Bool) (tm : Timing) : (x.onClose changed tm).fits tm := by
  have bounds := clampOffset_bounds tm.omax x.offset
  unfold Station.onClose Station.fits
  split
  · simp
  · refine ⟨bounds.1, bounds.2, ?_⟩
    rw [List.length_drop]
    omega

theorem Part.learnAt_stations (s : Part) (st : Fin 24) (r : Int) (o : Arrival) (u : Fin 24) :
    ((s.learnAt st r o).stations[u]).offset =
        (if u = st then (s.stations[st]).learn s.force.timing r o else s.stations[u]).offset ∧
      ((s.learnAt st r o).stations[u]).history =
        (if u = st then (s.stations[st]).learn s.force.timing r o else s.stations[u]).history := by
  unfold Part.learnAt Part.setStep
  dsimp only
  rw [Part.modNotices_stations, Part.getElem_modStation, Part.getElem_modStation, Part.getElem_modStation]
  split
  · next h => simp
  · exact ⟨rfl, rfl⟩

theorem Part.fits_of_learned {s t : Part} {st : Fin 24} (h : t.learned st = s.learned st) (tm : Timing) :
    (s.stations[st]).fits tm → (t.stations[st]).fits tm := by
  unfold Part.learned at h
  simp only [Prod.mk.injEq] at h
  obtain ⟨ho, hh, -⟩ := h
  unfold Station.fits
  rw [ho, hh]
  exact id

/-- A description comes into force with every learned state cut to its bounds (R4, R10). -/
theorem Part.putInForce_stationsSound {s : Part} (h : 1 ≤ s.stored.timing.window) : s.putInForce.stationsSound := by
  refine ⟨h, h, fun st => ?_⟩
  have e : s.putInForce.stations[st] =
      (s.stations[st]).onClose (stationChanged (s.force.stations[st]) (s.stored.stations[st])) s.stored.timing := by
    unfold Part.putInForce
    simp
  rw [e]
  exact Station.onClose_fits ..

theorem Move.stationsSound {q : Mode} {A : List Block} {a b : Phase} {s t : Part} (m : Move q A a s b t) (h : s.stationsSound) :
    t.stationsSound := by
  obtain ⟨hstored, hforce, hst⟩ := h
  rcases m.descs with ⟨es, ef⟩ | ⟨-, -, -, ⟨g, hg, rfl⟩ | ⟨-, rfl⟩⟩
  · rcases m.learned with hl | ⟨-, u, r, o, rfl⟩ | ⟨-, u, rfl⟩ | ⟨-, -, -, rfl⟩
    · exact ⟨es ▸ hstored, ef ▸ hforce, fun st => ef ▸ Part.fits_of_learned (hl st) _ (hst st)⟩
    · refine ⟨es ▸ hstored, ef ▸ hforce, fun st => ?_⟩
      obtain ⟨eo, eh⟩ := s.learnAt_stations u r o st
      rw [ef, eo, eh]
      split
      · exact Station.learn_fits hforce (hst u) r o
      · exact hst st
    · refine ⟨hstored, hforce, fun st => ?_⟩
      rw [Part.getElem_modStation]
      split
      · exact hst u
      · exact hst st
    · exact Part.putInForce_stationsSound hstored
  · have hv := (s.modStored g).setPath_via .unconfigured
    refine ⟨?_, ?_, fun st => ?_⟩
    · rw [hv.stored_eq rfl]
      exact hg.window _ hstored
    · rw [hv.force_eq rfl]
      exact hforce
    · rw [hv.stations_eq rfl, hv.force_eq rfl]
      exact hst st
  · exact Part.putInForce_stationsSound hstored

theorem Part.reset_stationsSound (rate : Rate) (pin : Vector Bool 32) : (Part.reset rate pin).stationsSound := by
  have window : 1 ≤ Timing.reset.window := by decide
  refine ⟨window, window, fun st => ?_⟩
  have e : (Part.reset rate pin).stations[st] = .reset := by simp [Part.reset]
  have low : -(Timing.reset.omax : Int) ≤ 0 := by decide
  have high : (0 : Int) ≤ Timing.reset.omax := by decide
  rw [e]
  exact ⟨low, high, Nat.zero_le _⟩

/-- Settles O52: an offset learned is clamped and a history full gives up its oldest outcome. -/
theorem stationStateKept : Obligations.StationStateKept :=
  keptByEveryStep_of_moves (fun _ p => p.stationsSound) (fun _ h => h) (fun _ h => h) Part.reset_stationsSound
    fun m h => m.stationsSound h

end Sys2Proof.Machine
end

