-- ==== Sys2Proof/Proofs/KeptOrder.lean ====
section
/-! PROOF. Entries placed in order: the Reprint List (R134), the Merge Reservation List (R63), and what the moves make of them. -/

namespace Sys2Proof.Machine

/-! ## Placing an entry -/

/-- An entry placed after the leading entries that stand before it keeps a list in order. -/
theorem pairwise_place {α : Type} {R : α → α → Prop} {e : α} {p : α → Bool} {l : List α} (h : l.Pairwise R)
    (before : ∀ x ∈ l, p x = true → R x e) (after : ∀ x ∈ l, p x = false → R e x)
    (trans : ∀ x ∈ l, ∀ y ∈ l, R e x → R x y → R e y) (through : ∀ x ∈ l, ∀ y ∈ l, R x e → R e y → R x y) :
    (l.takeWhile p ++ e :: l.dropWhile p).Pairwise R := by
  have hsplit : (l.takeWhile p ++ l.dropWhile p).Pairwise R := by rwa [List.takeWhile_append_dropWhile]
  obtain ⟨htake, hdrop, -⟩ := List.pairwise_append.mp hsplit
  have hfirst : ∀ x ∈ l.takeWhile p, R x e := fun x hx =>
    before x ((List.takeWhile_sublist p).subset hx) (List.mem_takeWhile_imp hx)
  have hrest : ∀ x ∈ l.dropWhile p, R e x := by
    intro x hx
    have hmem : ∀ y ∈ l.dropWhile p, y ∈ l := fun y hy => (List.dropWhile_sublist p).subset hy
    cases hd : l.dropWhile p with
    | nil => simp [hd] at hx
    | cons y rest =>
      have hy : p y = false := by
        have := List.head?_dropWhile_not p l
        rw [hd] at this
        simpa using this
      have hye := after y (hmem y (by simp [hd])) hy
      rw [hd] at hx hdrop
      rcases List.mem_cons.mp hx with rfl | hx
      · exact hye
      · exact trans y (hmem y (by simp [hd])) x (hmem x (by simp [hd, hx])) hye ((List.pairwise_cons.mp hdrop).1 x hx)
  rw [List.pairwise_append]
  refine ⟨htake, List.pairwise_cons.mpr ⟨hrest, hdrop⟩, fun x hx y hy => ?_⟩
  rcases List.mem_cons.mp hy with rfl | hy
  · exact hfirst x hx
  · exact through x ((List.takeWhile_sublist p).subset hx) y ((List.dropWhile_sublist p).subset hy) (hfirst x hx) (hrest y hy)

theorem mem_place {α : Type} (e x : α) (p : α → Bool) (l : List α) :
    x ∈ l.takeWhile p ++ e :: l.dropWhile p ↔ x = e ∨ x ∈ l := by
  rw [List.mem_append, List.mem_cons, or_left_comm, ← List.mem_append, List.takeWhile_append_dropWhile]

/-! ## The Reprint List (R134) -/

/-- The order of the Reprint List. -/
def Entry.before (a b : Entry) : Prop :=
  a.page.origin.getD 0 < b.page.origin.getD 0 ∨
    (a.page.origin.getD 0 = b.page.origin.getD 0 ∧ (a.page.side = .back → b.page.side = .back))

theorem Entry.before_trans {a b c : Entry} (h : a.before b) (k : b.before c) : a.before c := by
  rcases h with h | ⟨h, hs⟩ <;> rcases k with k | ⟨k, ks⟩
  · exact .inl (h.trans k)
  · exact .inl (k ▸ h)
  · exact .inl (h ▸ k)
  · exact .inr ⟨h.trans k, ks ∘ hs⟩

theorem Side.rank_le_iff (a b : Side) : a.rank ≤ b.rank ↔ (a = .back → b = .back) := by
  cases a <;> cases b <;> simp [Side.rank]

theorem Entry.precedes_iff (a : Entry) (p : Page) (r : Reason) : a.precedes p = true ↔ a.before ⟨p, r⟩ := by
  unfold Entry.precedes Entry.before Page.orderKey
  simp only [Bool.or_eq_true, Bool.and_eq_true, decide_eq_true_eq, beq_iff_eq, Side.rank_le_iff]

theorem Entry.after_of_not_precedes {a : Entry} {p : Page} {r : Reason} (h : a.precedes p = false) : Entry.before ⟨p, r⟩ a := by
  rw [← Bool.not_eq_true, Entry.precedes_iff a p r] at h
  obtain ⟨hlt, hside⟩ := not_or.mp h
  rcases Nat.lt_or_eq_of_le (Nat.not_lt.mp hlt) with lt | eq
  · exact .inl lt
  · refine .inr ⟨eq, fun _ => ?_⟩
    by_contra hb
    exact hside ⟨eq.symm, fun hback => absurd hback hb⟩

theorem insertEntry_ordered {l : List Entry} (h : l.Pairwise Entry.before) (e : Entry) : (insertEntry e l).Pairwise Entry.before :=
  pairwise_place h (fun x _ hx => (x.precedes_iff e.page e.reason).mp hx) (fun _ _ hx => Entry.after_of_not_precedes hx)
    (fun _ _ _ _ => Entry.before_trans) fun _ _ _ _ => Entry.before_trans

theorem insertAll_ordered (reason : Reason) (pages : List Page) {l : List Entry} (h : l.Pairwise Entry.before) :
    (pages.foldl (fun l x => insertEntry ⟨x, reason⟩ l) l).Pairwise Entry.before := by
  induction pages generalizing l with
  | nil => exact h
  | cons x pages ih => exact ih (insertEntry_ordered h _)

/-- A change that keeps every entry's place in the order keeps the list in order. -/
theorem ordered_map {l : List Entry} (h : l.Pairwise Entry.before) (g : Entry → Entry)
    (hg : ∀ x, (g x).page.origin = x.page.origin ∧ (g x).page.side = x.page.side) : (l.map g).Pairwise Entry.before := by
  rw [List.pairwise_map]
  refine h.imp fun {a b} hab => ?_
  obtain ⟨ha, has⟩ := hg a
  obtain ⟨hb, hbs⟩ := hg b
  unfold Entry.before
  rw [ha, hb, has, hbs]
  exact hab

theorem Page.readyIf_kept (id : Nat) (p : Page) : (p.readyIf id).origin = p.origin ∧ (p.readyIf id).side = p.side := by
  unfold Page.readyIf
  split <;> exact ⟨rfl, rfl⟩

/-- A list that keeps, of an ordered one, some entries, and takes others in at their places. -/
def Part.Reprints (s t : Part) : Prop := s.planner.ordered → t.planner.ordered

theorem Part.reprints_planSheet (s : Part) (x : Sheet) : s.Reprints (s.planSheet x) := fun h => by
  have e : (s.planSheet x).planner = (s.reprint .stranded x.pages).planner := (Part.removeSheet_via ..).planner_eq rfl
  rw [e]
  exact insertAll_ordered .stranded x.pages h

theorem Part.reprints_planSheets (l : List Sheet) (s : Part) : s.Reprints (l.foldl Part.planSheet s) := by
  induction l generalizing s with
  | nil => exact id
  | cons x l ih =>
    intro h
    rw [List.foldl_cons]
    exact ih (s.planSheet x) (s.reprints_planSheet x h)

theorem Part.reprints_planSet (s : Part) : s.Reprints s.planSet := fun h => by
  unfold Part.planSet
  split
  · exact insertAll_ordered .setRestart _ h
  · exact h

theorem Part.planBuild_list (s : Part) : s.planBuild.planner.list =
    (((s.table.sheets.filter fun x => x.cond == .stranded).foldl Part.planSheet
      (s.stopDrives.modEpisode fun e => { e with sweepTimer := none })).planSet).planner.list := by
  unfold Part.planBuild
  dsimp only
  rw [(Part.notePlanReady_via _).planner_eq rfl, (Part.setPath_via ..).planner_eq rfl, Part.modPlanner_planner,
    (Part.planEmpty_via _).planner_eq rfl]
  rfl

theorem Planner.ordered_of_list {x y : Planner} (e : y.list = x.list) (h : x.ordered) : y.ordered := by
  unfold Planner.ordered at h ⊢
  rwa [e]

theorem Part.reprints_planBuild (s : Part) : s.Reprints s.planBuild := fun h => by
  have start : (s.stopDrives.modEpisode fun e => { e with sweepTimer := none }).planner.ordered := by
    rw [Part.modEpisode_planner, (Part.stopDrives_via s).planner_eq rfl]
    exact h
  have sheets := Part.reprints_planSheets (s.table.sheets.filter fun x => x.cond == .stranded) _ start
  exact Planner.ordered_of_list s.planBuild_list (Part.reprints_planSet _ sheets)

theorem Part.withdrawJob_list (s : Part) (job : Nat) : (s.withdrawJob job).planner.list =
    s.planner.list.filter fun y => y.page.job != job := by
  have sheets : ∀ (l : List Sheet) (p : Part), (l.foldl Part.abandonSheet p).planner = p.planner := fun l p =>
    (Via.fold (A := [.table, .calls]) (.refl p) l fun p x => p.abandonSheet_via x).planner_eq rfl
  unfold Part.withdrawJob
  dsimp only
  rw [Part.modFeed_planner, Part.modFinisher_planner, sheets]
  unfold Part.abandonPlanned
  dsimp only
  split
  · rw [(Part.notePlanReady_via _).planner_eq rfl]
    rfl
  · rfl

theorem Part.abandonCore_list (s : Part) (job : Nat) (i : Fin 8) : (s.abandonCore job i).planner.list =
    s.planner.list.filter fun y => y.page.job != job := by
  unfold Part.abandonCore
  dsimp only
  split
  · rw [(Part.modSlot_via ..).planner_eq rfl, s.withdrawJob_list]
  · rw [(Part.noteProgress_via ..).planner_eq rfl, (Part.modSlot_via ..).planner_eq rfl, s.withdrawJob_list]

theorem Part.takeNext_list (s : Part) (n : NextPage) : (s.takeNext n).planner.list =
    if n.source.isSome then s.planner.list else s.planner.list.drop n.pages.length := by
  unfold Part.takeNext
  dsimp only
  split
  · next h => rw [h]; rfl
  · next h => rw [h, (Part.judgeIntakeLow_via ..).planner_eq rfl]; rfl
  · next h => rw [h, (Part.judgeIntakeLow_via ..).planner_eq rfl]; rfl

theorem Part.pickCore_list (s : Part) (n : NextPage) : (s.pickCore n).planner.list =
    if n.source.isSome then s.planner.list else s.planner.list.drop n.pages.length := by
  unfold Part.pickCore
  dsimp only
  rw [(Part.notePick_via ..).planner_eq rfl, (Part.callFront_via ..).planner_eq rfl, Part.modOut_planner,
    (Part.reserve_via ..).planner_eq rfl, (Part.armNext_via ..).planner_eq rfl, (Part.joinTable_via ..).planner_eq rfl,
    s.takeNext_list]

theorem Part.spoilSheet_list (s : Part) (x : Sheet) : (s.spoilSheet x).planner.list =
    x.pages.foldl (fun l p => insertEntry ⟨p, .spoiled⟩ l) s.planner.list := by
  unfold Part.spoilSheet
  rw [(Part.dropSheetCalls_via ..).planner_eq rfl]
  rfl

theorem Move.ordered {q : Mode} {A : List Block} {a b : Phase} {s t : Part} (m : Move q A a s b t) (h : s.planner.ordered) :
    t.planner.ordered := by
  cases hA : hasBlock A .planner with
  | false => exact m.via.planner_eq hA ▸ h
  | true =>
    unfold Planner.ordered
    cases m with
    | setReady id => exact ordered_map h _ fun x => x.page.readyIf_kept id
    | abandon job i =>
      rw [s.abandonCore_list]
      exact h.sublist List.filter_sublist
    | planRead g hg =>
      rw [Part.modPlanner_planner, hg]
      exact h
    | pick n =>
      rw [s.pickCore_list]
      split
      · exact h
      · exact h.sublist (List.drop_sublist ..)
    | spoil x =>
      rw [s.spoilSheet_list]
      exact insertAll_ordered .spoiled x.pages h
    | planBuild => exact Part.reprints_planBuild _ ((s.setPath_via .sweeping).planner_eq rfl ▸ h)
    | discardAll =>
      unfold Part.discardCoreAll
      exact .nil
    | _ => cases hA

/-! ## The Merge Reservation List (R63) -/

theorem insertResv_numbers {l : List Resv} (r : Resv) (h : (l.map Resv.sheet).Nodup) (hr : ∀ x ∈ l, x.sheet ≠ r.sheet) :
    ((insertResv r l).map Resv.sheet).Nodup := by
  have perm : ((insertResv r l).map Resv.sheet).Perm (r.sheet :: l.map Resv.sheet) := by
    have : (insertResv r l).Perm (r :: l) := by
      unfold insertResv
      refine List.perm_middle.trans ?_
      rw [List.takeWhile_append_dropWhile]
    simpa using this.map Resv.sheet
  rw [perm.nodup_iff, List.nodup_cons]
  refine ⟨fun hm => ?_, h⟩
  obtain ⟨x, hx, e⟩ := List.mem_map.mp hm
  exact hr x hx e

/-- A sheet's entry takes the place of any it had (R63). -/
theorem place_numbers {l : List Resv} (r : Resv) (h : (l.map Resv.sheet).Nodup) :
    ((insertResv r (l.filter fun x => x.sheet != r.sheet)).map Resv.sheet).Nodup :=
  insertResv_numbers r (h.sublist (List.filter_sublist.map _)) fun x hx => by simpa using (List.mem_filter.mp hx).2

/-- What a move makes of the Merge Reservation List: some entries go, or one sheet's entry is placed anew (R63, R65). -/
theorem Move.merge {q : Mode} {A : List Block} {a b : Phase} {s t : Part} (m : Move q A a s b t) :
    (∃ p, t.feed.merge = s.feed.merge.filter p) ∨
      ∃ r : Resv, t.feed.merge = insertResv r (s.feed.merge.filter fun x => x.sheet != r.sheet) := by
  have same : t.feed.merge = s.feed.merge → ∃ p, t.feed.merge = s.feed.merge.filter p := fun e =>
    ⟨fun _ => true, by rw [e, List.filter_eq_self.mpr fun _ _ => rfl]⟩
  have none' : t.feed.merge = [] → ∃ p, t.feed.merge = s.feed.merge.filter p := fun e => ⟨fun _ => false, by rw [e]; simp⟩
  cases hA : hasBlock A .feed with
  | false => exact .inl (same (by rw [m.via.feed_eq hA]))
  | true =>
    cases m with
    | define | ramped | halted | reheld => exact .inl (same (congrArg Feed.merge (Part.setPath_feed ..) :))
    | judgeTrayEmpty | judgeBinFull | pickTimer | holdoff | dropRamp | dropRunOn => exact .inl (same rfl)
    | abandon job i => exact .inl (same (by rw [s.abandonCore_feed]; rfl))
    | feed g h | hold g h => exact .inl (same (congrArg Feed.merge (h s.feed) :))
    | drain => exact .inl (same (by rw [s.enterDraining_feed]))
    | goBack => exact .inl (same (by rw [s.returnToRunning_feed]))
    | runOnDone | closed | resetIdle => exact .inl (same (congrArg Feed.merge (Part.enterIdle_feed _) :))
    | start =>
      obtain ⟨c, d, e⟩ := s.start_feed
      exact .inl (same (by rw [e]))
    | startJammed st =>
      obtain ⟨b, c, e⟩ := s.startJammed_feed st
      exact .inl (same (by rw [e]))
    | armRunOn => exact .inl (same (by rw [s.armRunOn_feed]))
    | pick n => exact .inr (s.pickCore_merge n)
    | reserve r => exact .inr ⟨r, rfl⟩
    | unreserve p => exact .inl ⟨p, rfl⟩
    | openEpisode j extra =>
      obtain ⟨b, e, -⟩ := s.openCore_effect j extra
      exact .inl (same (by rw [e]))
    | abandonSweep bar => exact .inl (same (by rw [s.abandonSweep_feed]))
    | startSweep h hd =>
      refine .inl (same ?_)
      rw [s.startSweep_eq hd]
      simp only [Part.runDrives, Part.modEpisode_feed, Part.modOut_feed, Part.setPath_feed]
    | planBuild => exact .inl (none' (by rw [Part.planBuild_feed]))
    | discardAll => exact .inl (none' (by rw [s.discardCoreAll_feed]; rfl))
    | _ => cases hA

theorem Move.mergeNumbers {q : Mode} {A : List Block} {a b : Phase} {s t : Part} (m : Move q A a s b t)
    (h : (s.feed.merge.map Resv.sheet).Nodup) : (t.feed.merge.map Resv.sheet).Nodup := by
  rcases m.merge with ⟨p, e⟩ | ⟨r, e⟩ <;> rw [e]
  · exact h.sublist (List.filter_sublist.map _)
  · exact place_numbers r h

end Sys2Proof.Machine
end

