-- ==== Sys2Proof/Proofs/KeptLists.lean ====
section
/-! PROOF. Every step keeps every queue and list within its places, each slot with a PROGRESS pending held and the JAM notices apart
(R5, R31, R37, R92, R116, R134). -/

namespace Sys2Proof.Machine

/-! ## PROGRESS and JAM notices: the operations that leave them alone -/

/-- The pending PROGRESS and JAM notices. -/
def Notices.counted (n : Notices) : Vector Bool 8 × List JamNote := (n.progress, n.jams)

variable (s : Part)

@[simp] theorem Part.setPath_counted (p : PathState) : (s.setPath p).notices.counted = s.notices.counted := by
  unfold Part.setPath
  split <;> rfl

@[simp] theorem Part.judgeWatermark_counted (g : Group) (r c : Nat) : (s.judgeWatermark g r c).notices.counted = s.notices.counted := by
  unfold Part.judgeWatermark
  dsimp only
  split
  · cases g <;> rfl
  · rfl

@[simp] theorem Part.countStation_counted (st : Fin 24) (c : Fin 3) : (s.countStation st c).notices.counted = s.notices.counted :=
  Part.judgeWatermark_counted ..

@[simp] theorem Part.countTray_counted (u : Fin 5) (c : Fin 3) : (s.countTray u c).notices.counted = s.notices.counted :=
  Part.judgeWatermark_counted ..

@[simp] theorem Part.countPath_counted (c : Fin 10) : (s.countPath c).notices.counted = s.notices.counted :=
  Part.judgeWatermark_counted ..

@[simp] theorem Part.judgeIntakeLow_counted (k : Queue) : (s.judgeIntakeLow k).notices.counted = s.notices.counted := by
  cases k <;> rfl

@[simp] theorem Part.enterIdle_counted : s.enterIdle.notices.counted = s.notices.counted := by
  unfold Part.enterIdle
  rw [Part.setPath_counted]
  rfl

theorem Part.enterPath_counted : s.enterPath.notices.counted = s.notices.counted := by
  unfold Part.enterPath Part.runDrives
  dsimp only
  rw [Part.modOut_notices, Part.modOut_notices, Part.setPath_counted]
  rfl

theorem Part.enterDraining_counted : s.enterDraining.notices.counted = s.notices.counted := by
  unfold Part.enterDraining
  rw [(Part.armRunOn_via _).notices_eq rfl, Part.setPath_counted]
  rfl

theorem Part.openCore_counted (j : Jam) (extra : AreaSet) : (s.openCore j extra).notices.counted = s.notices.counted := by
  have halt : ∀ (p : Part) (b : Bool), (p.halt b).notices.counted = p.notices.counted := fun p b => by
    unfold Part.halt
    split <;> exact Part.setPath_counted ..
  unfold Part.openCore
  dsimp only
  rw [halt, (Part.addFinisherArea_via _).notices_eq rfl, (Part.addAreas_via ..).notices_eq rfl, (Part.retain_via _).notices_eq rfl,
    (Part.strand_via ..).notices_eq rfl, (Part.makeRunOut_via ..).notices_eq rfl, (Part.feedOnEpisode_via _).notices_eq rfl]
  rfl

theorem Part.planBuild_counted : s.planBuild.notices.counted = s.notices.counted := by
  have sheets : ∀ (l : List Sheet) (p : Part), (l.foldl Part.planSheet p).notices = p.notices := fun l p =>
    (Via.fold (A := [.table, .stations, .planner, .dry]) (.refl p) l fun p x => p.planSheet_via x).notices_eq rfl
  have ready : ∀ p : Part, p.notePlanReady.notices.counted = p.notices.counted := fun _ => rfl
  unfold Part.planBuild
  dsimp only
  rw [ready, Part.setPath_counted, Part.modPlanner_notices, (Part.planEmpty_via _).notices_eq rfl,
    (Part.planSet_via _).notices_eq rfl, sheets, Part.modEpisode_notices, (Part.stopDrives_via s).notices_eq rfl]

theorem Part.takeNext_counted (n : NextPage) : (s.takeNext n).notices.counted = s.notices.counted := by
  unfold Part.takeNext
  dsimp only
  split
  · rfl
  · exact Part.judgeIntakeLow_counted ..
  · exact Part.judgeIntakeLow_counted ..

theorem Part.notePick_counted (n : NextPage) : (s.notePick n).notices.counted = s.notices.counted := by
  unfold Part.notePick
  dsimp only
  split <;> rfl

theorem Part.pickCore_counted (n : NextPage) : (s.pickCore n).notices.counted = s.notices.counted := by
  unfold Part.pickCore
  dsimp only
  rw [Part.notePick_counted, (Part.callFront_via ..).notices_eq rfl, Part.modOut_notices, (Part.reserve_via ..).notices_eq rfl,
    (Part.armNext_via ..).notices_eq rfl, (Part.joinTable_via ..).notices_eq rfl, s.takeNext_counted]

theorem Part.learnAt_counted (st : Fin 24) (r : Int) (o : Arrival) : (s.learnAt st r o).notices.counted = s.notices.counted := by
  unfold Part.learnAt Part.setStep
  rfl

theorem Part.acceptPage_counted (p : Page) : (s.acceptPage p).notices.counted = s.notices.counted := by
  unfold Part.acceptPage
  dsimp only
  rw [Part.judgeIntakeLow_counted]
  split <;> rfl

theorem Part.noteSpoil_counted (sheet page n : Nat) : (s.noteSpoil sheet page n).notices.counted = s.notices.counted := by
  unfold Part.noteSpoil
  dsimp only
  split <;> rfl

theorem Part.noteSetDone_counted (x : Option SetDoneNote) :
    (if s.mask.setDone then s.modNotices fun n => { n with setDone := x } else s).notices.counted = s.notices.counted := by
  split <;> rfl

theorem Part.endFinal_counted : s.endFinal.notices.counted = s.notices.counted := by
  unfold Part.endFinal
  dsimp only
  rw [Part.modFinisher_notices, Part.noteSetDone_counted]
  split
  · rfl
  · exact Part.countPath_counted ..

theorem Part.stapled_counted : s.stapled.notices.counted = s.notices.counted := by
  unfold Part.stapled
  rw [(Part.eject_via ..).notices_eq rfl, Part.countPath_counted]
  rfl

/-! ## Slots held (R37) -/

variable {s}

theorem Part.progressHeld_of {t : Part} (h : s.progressHeld)
    (hn : ∀ i : Fin 8, t.notices.progress[i] = true → s.notices.progress[i] = true)
    (hs : ∀ i : Fin 8, (s.intake.slots[i]).isSome = true → (t.intake.slots[i]).isSome = true) : t.progressHeld := fun i hi =>
  hs i (h i (hn i hi))

theorem Part.modSlot_slots (s : Part) (i : Fin 8) (g : Slot → Slot) (k : Fin 8) :
    (s.modSlot i g).intake.slots[k] = if k = i then (s.intake.slots[i]).map g else s.intake.slots[k] := by
  unfold Part.modSlot
  simp only [Part.modIntake_intake, Fin.getElem_fin, Vector.getElem_set]
  by_cases h : k = i
  · simp [h]
  · rw [if_neg fun e => h (Fin.ext e.symm), if_neg h]

theorem Part.modSlot_isSome (s : Part) (i : Fin 8) (g : Slot → Slot) (k : Fin 8) :
    ((s.modSlot i g).intake.slots[k]).isSome = (s.intake.slots[k]).isSome := by
  rw [s.modSlot_slots]
  split
  · next h => rw [h, Option.isSome_map]
  · rfl

theorem Part.progressHeld_modSlot (h : s.progressHeld) (i : Fin 8) (g : Slot → Slot) : (s.modSlot i g).progressHeld :=
  Part.progressHeld_of h (fun _ => id) fun k hk => (s.modSlot_isSome i g k).trans hk

theorem Part.noteProgress_progress (s : Part) (i k : Fin 8) :
    (s.noteProgress i).notices.progress[k] = if k = i then s.notices.progress[i] || s.mask.progress else s.notices.progress[k] := by
  unfold Part.noteProgress
  simp only [Part.modNotices_notices, Fin.getElem_fin, Vector.getElem_set]
  by_cases h : k = i
  · simp [h]
  · rw [if_neg fun e => h (Fin.ext e.symm), if_neg h]

theorem Part.progressHeld_noteProgress (h : s.progressHeld) {i : Fin 8} (hi : (s.intake.slots[i]).isSome = true) :
    (s.noteProgress i).progressHeld := by
  intro k hk
  rw [s.noteProgress_progress] at hk
  split at hk
  · next e => exact e ▸ hi
  · exact h k hk

theorem Part.examineSlot_slots (s : Part) (i k : Fin 8) :
    (s.examineSlot i).intake.slots[k] = s.intake.slots[k] ∨ k = i ∧ s.notices.progress[i] = false := by
  unfold Part.examineSlot
  split
  · exact .inl rfl
  · split
    · next hc =>
      simp only [Part.modIntake_intake, Fin.getElem_fin, Vector.getElem_set]
      by_cases h : k = i
      · exact .inr ⟨h, hc.2.2⟩
      · exact .inl (if_neg fun e => h (Fin.ext e.symm))
    · exact .inl rfl

theorem Part.progressHeld_examineSlot (h : s.progressHeld) (i : Fin 8) : (s.examineSlot i).progressHeld := by
  intro k hk
  rw [(Part.examineSlot_via ..).notices_eq rfl] at hk
  rcases s.examineSlot_slots i k with e | ⟨rfl, e⟩
  · rw [e]
    exact h k hk
  · simp [e] at hk

theorem Intake.slotOf_isSome {x : Intake} {job : Nat} {i : Fin 8} (h : x.slotOf job = some i) : (x.slots[i]).isSome = true := by
  have := List.find?_some h
  cases e : x.slots[i] <;> simp_all

theorem Part.progressHeld_deliverPages (h : s.progressHeld) (job : Nat) (pages : List Page) : (s.deliverPages job pages).progressHeld := by
  unfold Part.deliverPages
  split
  · next i p hi hp =>
    refine Part.progressHeld_examineSlot (Part.progressHeld_noteProgress (Part.progressHeld_modSlot h i _) ?_) i
    rw [Part.modSlot_isSome]
    exact Intake.slotOf_isSome hi
  · exact h

theorem Part.progressHeld_of_counted {t : Part} (h : s.progressHeld) (hn : t.notices.counted = s.notices.counted)
    (hs : t.intake.slots = s.intake.slots) : t.progressHeld := by
  obtain ⟨hp, -⟩ := Prod.mk.inj hn
  exact Part.progressHeld_of h (fun i hi => by rwa [hp] at hi) fun i hi => by rwa [hs]

/-! ## What the moves do to the queues and the slots -/

theorem Part.judgeIntakeLow_slots (s : Part) (k : Queue) : (s.judgeIntakeLow k).intake.slots = s.intake.slots ∧
    (s.judgeIntakeLow k).intake.normal = s.intake.normal ∧ (s.judgeIntakeLow k).intake.priority = s.intake.priority := by
  cases k <;> exact ⟨rfl, rfl, rfl⟩

theorem Part.takeNext_intake (s : Part) (n : NextPage) : (s.takeNext n).intake.slots = s.intake.slots ∧
    (s.takeNext n).intake.normal =
      (if n.source = some .normal then s.intake.normal.drop n.pages.length else s.intake.normal) ∧
    (s.takeNext n).intake.priority =
      (if n.source = some .priority then s.intake.priority.drop n.pages.length else s.intake.priority) := by
  unfold Part.takeNext
  dsimp only
  split
  · next h => exact h ▸ ⟨rfl, rfl, rfl⟩
  · next h =>
    obtain ⟨hs, hn, hp⟩ := Part.judgeIntakeLow_slots (s.modIntake fun x => { x with normal := x.normal.drop n.pages.length }) .normal
    rw [h]
    exact ⟨hs, hn, hp⟩
  · next h =>
    obtain ⟨hs, hn, hp⟩ := Part.judgeIntakeLow_slots (s.modIntake fun x => { x with priority := x.priority.drop n.pages.length }) .priority
    rw [h]
    exact ⟨hs, hn, hp⟩

theorem Part.pickCore_intake (s : Part) (n : NextPage) : (s.pickCore n).intake = (s.takeNext n).intake := by
  unfold Part.pickCore
  dsimp only
  rw [(Part.notePick_via ..).intake_eq rfl, (Part.callFront_via ..).intake_eq rfl, Part.modOut_intake,
    (Part.reserve_via ..).intake_eq rfl, (Part.armNext_via ..).intake_eq rfl, (Part.joinTable_via ..).intake_eq rfl]

theorem Part.withdrawJob_intake (s : Part) (job : Nat) : (s.withdrawJob job).intake =
    { s.intake with
      normal := s.intake.normal.filter fun p => p.job != job, priority := s.intake.priority.filter fun p => p.job != job } := by
  have sheets : ∀ (l : List Sheet) (p : Part), (l.foldl Part.abandonSheet p).intake = p.intake := fun l p =>
    (Via.fold (A := [.table, .calls]) (.refl p) l fun p x => p.abandonSheet_via x).intake_eq rfl
  unfold Part.withdrawJob
  dsimp only
  rw [Part.modFeed_intake, Part.modFinisher_intake, sheets, (Part.abandonPlanned_via ..).intake_eq rfl]
  rfl

theorem Part.withdrawJob_counted (s : Part) (job : Nat) : (s.withdrawJob job).notices.counted = s.notices.counted := by
  have sheets : ∀ (l : List Sheet) (p : Part), (l.foldl Part.abandonSheet p).notices = p.notices := fun l p =>
    (Via.fold (A := [.table, .calls]) (.refl p) l fun p x => p.abandonSheet_via x).notices_eq rfl
  unfold Part.withdrawJob
  dsimp only
  rw [Part.modFeed_notices, Part.modFinisher_notices, sheets]
  unfold Part.abandonPlanned
  dsimp only
  split <;> rfl

theorem Part.abandonCore_queues (s : Part) (job : Nat) (i : Fin 8) :
    (s.abandonCore job i).intake.normal = (s.intake.normal.filter fun p => p.job != job) ∧
      (s.abandonCore job i).intake.priority = s.intake.priority.filter fun p => p.job != job := by
  have h := s.withdrawJob_intake job
  unfold Part.abandonCore Part.modSlot
  dsimp only
  split
  · rw [Part.modIntake_intake, h]
    exact ⟨rfl, rfl⟩
  · rw [(Part.noteProgress_via ..).intake_eq rfl, Part.modIntake_intake, h]
    exact ⟨rfl, rfl⟩

/-- What the completion of an eject keeps that neither its own outcome nor a page can touch. -/
theorem Part.completeEject_cases (s : Part) : ∃ r : Part,
    r = (((s.modOut fun o => { o with ejector := false }).modFinisher fun f => { f with ejectLimit := none }).modDry fun d =>
      { d with home := none }).deliverPages (s.finisher.ident.getD (0, 0)).1 (s.finisher.sheets.flatMap Held.pages) ∧
    s.completeEject.intake = r.intake ∧ s.completeEject.notices.counted = r.notices.counted := by
  refine ⟨_, rfl, ?_⟩
  unfold Part.completeEject
  dsimp only
  split
  · exact ⟨rfl, rfl⟩
  · exact ⟨(Part.endFinal_via _).intake_eq rfl, Part.endFinal_counted _⟩

theorem Part.progressHeld_completeEject {s : Part} (h : s.progressHeld) : s.completeEject.progressHeld := by
  obtain ⟨r, hr, hi, hn⟩ := s.completeEject_cases
  have held : r.progressHeld := hr ▸ Part.progressHeld_deliverPages (by exact h) _ _
  exact Part.progressHeld_of_counted held hn (congrArg Intake.slots hi)

theorem Part.progressHeld_deliverTo {s : Part} (h : s.progressHeld) (x : Sheet) (r : Option Role) : (s.deliverTo x r).progressHeld := by
  have bin := Part.progressHeld_of_counted (Part.progressHeld_deliverPages h x.job x.pages) (Part.countPath_counted _ 1)
    (congrArg Intake.slots ((Part.countPath_via ..).intake_eq rfl))
  unfold Part.deliverTo
  split
  · exact bin
  · exact bin
  · exact h
  · refine Part.progressHeld_of_counted h ?_ (congrArg Intake.slots ((Part.countPurge_via _).intake_eq rfl))
    unfold Part.countPurge
    rw [Part.countPath_counted]
    split <;> rfl
  · exact h

theorem Part.progressHeld_abandonCore {s : Part} (h : s.progressHeld) (job : Nat) {i : Fin 8} (hi : s.intake.slotOf job = some i) :
    (s.abandonCore job i).progressHeld := by
  have slots : (s.withdrawJob job).intake.slots = s.intake.slots := by rw [s.withdrawJob_intake]
  have held := Part.progressHeld_of_counted h (s.withdrawJob_counted job) slots
  unfold Part.abandonCore
  dsimp only
  generalize s.withdrawJob job = p at held slots ⊢
  split
  · exact Part.progressHeld_modSlot held _ _
  · refine Part.progressHeld_noteProgress (Part.progressHeld_modSlot held _ _) ?_
    rw [Part.modSlot_isSome, slots]
    exact Intake.slotOf_isSome hi

theorem Intake.takeSlot_isSome (x : Intake) (p : Page) (k : Fin 8) (h : (x.slots[k]).isSome = true) :
    ((x.takeSlot p).slots[k]).isSome = true := by
  unfold Intake.takeSlot
  split
  · exact h
  · split
    · exact h
    · simp only [Fin.getElem_fin, Vector.getElem_set]
      split
      · rfl
      · exact h

theorem Intake.append_slots (x : Intake) (q : Queue) (p : Page) : (x.append q p).slots = x.slots := by
  cases q <;> rfl

/-- The slot's account of an accepted page (R30). -/
def Part.charge (s : Part) (p : Page) : Part :=
  match s.intake.slotOf p.job with
  | some i => s.modSlot i fun y => y.accept p
  | none => s

theorem Part.acceptPage_eq (s : Part) (p : Page) : s.acceptPage p =
    ((s.modIntake fun x => (x.takeSlot p).append (s.intake.queueFor p) p).charge p).judgeIntakeLow (s.intake.queueFor p) := rfl

theorem Part.charge_queues (s : Part) (p : Page) :
    (s.charge p).intake.normal = s.intake.normal ∧ (s.charge p).intake.priority = s.intake.priority := by
  unfold Part.charge
  split <;> exact ⟨rfl, rfl⟩

theorem Part.progressHeld_acceptPage {s : Part} (h : s.progressHeld) (p : Page) : (s.acceptPage p).progressHeld := by
  have taken : (s.modIntake fun x => (x.takeSlot p).append (s.intake.queueFor p) p).progressHeld :=
    Part.progressHeld_of h (fun _ => id) fun k hk => by
      rw [Part.modIntake_intake, Intake.append_slots]
      exact Intake.takeSlot_isSome _ p k hk
  rw [s.acceptPage_eq]
  refine Part.progressHeld_of_counted ?_ (Part.judgeIntakeLow_counted ..) (Part.judgeIntakeLow_slots ..).1
  unfold Part.charge
  split
  · exact Part.progressHeld_modSlot taken _ _
  · exact taken

/-! ## What the moves do to the PROGRESS and JAM notices -/

theorem Part.jams_of_counted {s t : Part} (h : t.notices.counted = s.notices.counted) : t.notices.jams = s.notices.jams :=
  congrArg Prod.snd h

theorem Part.deliverPages_jams (s : Part) (job : Nat) (pages : List Page) :
    (s.deliverPages job pages).notices.jams = s.notices.jams := by
  unfold Part.deliverPages
  split
  · rw [(Part.examineSlot_via ..).notices_eq rfl]
    rfl
  · rfl

theorem Part.deliverTo_jams (s : Part) (x : Sheet) (r : Option Role) : (s.deliverTo x r).notices.jams = s.notices.jams := by
  have bin := (Part.jams_of_counted (Part.countPath_counted (s.deliverPages x.job x.pages) 1)).trans (s.deliverPages_jams _ _)
  unfold Part.deliverTo
  split
  · exact bin
  · exact bin
  · rfl
  · refine Part.jams_of_counted ?_
    unfold Part.countPurge
    rw [Part.countPath_counted]
    split <;> rfl
  · rfl

theorem Part.abandonCore_jams (s : Part) (job : Nat) (i : Fin 8) : (s.abandonCore job i).notices.jams = s.notices.jams := by
  have h := Part.jams_of_counted (s.withdrawJob_counted job)
  unfold Part.abandonCore
  dsimp only
  split <;> exact h

/-- Every move leaves the PROGRESS and JAM notices, takes some of them, notes a record of the episode, or counts pages of a job. -/
theorem Move.counted {q : Mode} {A : List Block} {a b : Phase} {s t : Part} (m : Move q A a s b t) :
    t.notices.counted = s.notices.counted ∨
      (∃ g, Notices.Taken g ∧ t.notices = g s.notices ∧ t.intake = s.intake) ∨ (∃ x, t = s.noteJam x) ∨
      hasBlock A .intake = true ∧ t.notices.jams = s.notices.jams := by
  cases hA : hasBlock A .notices with
  | false => exact .inl (congrArg Notices.counted (m.via.notices_eq hA))
  | true =>
    cases m with
    | discard => exact .inl rfl
    | mask k =>
      refine .inr (.inl ⟨fun n => n.masked k, fun n => ⟨.refl _, fun i hi => ?_⟩, rfl, rfl⟩)
      simp only [Notices.masked, Fin.getElem_fin, Vector.getElem_map, Bool.and_eq_true] at hi
      exact hi.1
    | taken g hg => exact .inr (.inl ⟨g, hg, rfl, rfl⟩)
    | define => exact .inl (Part.setPath_counted ..)
    | dropDoorNotices => exact .inl rfl
    | countStation => exact .inl (Part.countStation_counted ..)
    | countTray => exact .inl (Part.countTray_counted ..)
    | countPath => exact .inl (Part.countPath_counted ..)
    | clearCounters => exact .inl (Part.judgeWatermark_counted ..)
    | setWidth => exact .inl (Part.judgeWatermark_counted ..)
    | judgeTrayEmpty => exact .inl rfl
    | judgeBinFull => exact .inl rfl
    | judgePurgeFull => exact .inl rfl
    | judgeIntakeLow k => exact .inl (Part.judgeIntakeLow_counted ..)
    | judgeDoor => exact .inl rfl
    | learnAt => exact .inl (Part.learnAt_counted ..)
    | acceptPage p => exact .inl (s.acceptPage_counted p)
    | abandon job i => exact .inr (.inr (.inr ⟨rfl, s.abandonCore_jams job i⟩))
    | ramped => exact .inl (Part.setPath_counted ..)
    | drain => exact .inl (Part.enterDraining_counted _)
    | goBack => exact .inl (Part.setPath_counted ..)
    | runOnDone => exact .inl (Part.enterIdle_counted _)
    | closed => exact .inl (Part.enterIdle_counted _)
    | start => exact .inl (Part.enterPath_counted _)
    | startJammed st =>
      left
      unfold Part.startJammed
      rw [Part.openCore_counted, Part.countStation_counted, Part.enterPath_counted]
    | pick n => exact .inl (s.pickCore_counted n)
    | deliver =>
      exact .inr (.inr (.inr ⟨rfl, (congrArg Notices.jams ((Part.removeSheet_via ..).notices_eq rfl)).trans (Part.deliverTo_jams ..)⟩))
    | spoiled => exact .inl (Part.noteSpoil_counted ..)
    | openEpisode => exact .inl (Part.openCore_counted ..)
    | noteRecord k j => exact .inr (.inr (.inl ⟨_, rfl⟩))
    | halted => exact .inl (Part.setPath_counted ..)
    | abandonSweep => exact .inl (Part.setPath_counted ..)
    | startSweep _ hd =>
      left
      rw [s.startSweep_eq hd]
      exact Part.setPath_counted ..
    | planBuild =>
      left
      rw [Part.planBuild_counted, Part.setPath_counted]
    | reheld => exact .inl (Part.setPath_counted ..)
    | discardAll => exact .inr (.inr (.inr ⟨rfl, rfl⟩))
    | resetIdle => exact .inl (Part.enterIdle_counted _)
    | stapled => exact .inl (Part.stapled_counted _)
    | ejected =>
      obtain ⟨r, hr, -, hn⟩ := s.completeEject_cases
      exact .inr (.inr (.inr ⟨rfl, (Part.jams_of_counted hn).trans (hr ▸ Part.deliverPages_jams ..)⟩))
    | _ => cases hA

/-- A slot with a PROGRESS pending stays held (R37). -/
theorem Move.progressHeld {q : Mode} {A : List Block} {a b : Phase} {s t : Part} (m : Move q A a s b t) (h : s.progressHeld) :
    t.progressHeld := by
  cases hA : hasBlock A .intake with
  | false =>
    have slots := congrArg Intake.slots (m.via.intake_eq hA)
    rcases m.counted with hn | ⟨g, hg, hn, -⟩ | ⟨x, rfl⟩ | ⟨hi, -⟩
    · exact Part.progressHeld_of_counted h hn slots
    · exact Part.progressHeld_of h (fun i hi => (hg s.notices).2 i (hn ▸ hi)) fun i hi => by rwa [slots]
    · exact Part.progressHeld_of h (fun _ => id) fun _ => id
    · rw [hA] at hi
      cases hi
  | true =>
    cases m with
    | judgeIntakeLow k => exact Part.progressHeld_of_counted h (Part.judgeIntakeLow_counted ..) (Part.judgeIntakeLow_slots ..).1
    | acceptPage p => exact Part.progressHeld_acceptPage h p
    | setReady id => exact Part.progressHeld_of h (fun _ => (·)) fun _ hi => hi
    | abandon job i _ hi => exact Part.progressHeld_abandonCore h job hi
    | examineSlot i => exact Part.progressHeld_examineSlot h i
    | pick n =>
      refine Part.progressHeld_of_counted h (s.pickCore_counted n) ?_
      rw [s.pickCore_intake n]
      exact (s.takeNext_intake n).1
    | deliver =>
      exact Part.progressHeld_of_counted (Part.progressHeld_deliverTo h _ _)
        (congrArg Notices.counted ((Part.removeSheet_via ..).notices_eq rfl))
        (congrArg Intake.slots ((Part.removeSheet_via ..).intake_eq rfl))
    | discardAll =>
      intro i hi
      have e : s.discardCoreAll.notices.progress = .replicate 8 false := rfl
      rw [e] at hi
      simp at hi
    | ejected => exact Part.progressHeld_completeEject h
    | _ => cases hA

/-- A JAM notice takes the place of the one of its position (R116). -/
theorem Move.jamsApart {q : Mode} {A : List Block} {a b : Phase} {s t : Part} (m : Move q A a s b t) (h : s.jamsApart) :
    t.jamsApart := by
  unfold Part.jamsApart at *
  rcases m.counted with hn | ⟨g, hg, hn, -⟩ | ⟨x, rfl⟩ | ⟨-, hj⟩
  · rwa [Part.jams_of_counted hn]
  · rw [hn]
    exact h.sublist ((hg _).1.map _)
  · have e : (s.noteJam x).notices.jams = s.notices.jams.filter (fun y => y.position != x.position) ++ [x] := rfl
    rw [e, List.map_append, List.nodup_append]
    refine ⟨h.sublist (List.filter_sublist.map _), by simp, fun p hp k hk => ?_⟩
    obtain ⟨y, hy, rfl⟩ := List.mem_map.mp hp
    obtain rfl : k = x.position := by simpa using hk
    simpa using (List.mem_filter.mp hy).2
  · rwa [hj]

/-! ## Every list within its places -/

/-- A queue's room is for one more page. -/
theorem Intake.hasRoom_of_refuses {x : Intake} {p : Page} (h : x.refuses p = none) : x.hasRoom (x.queueFor p) = true := by
  unfold Intake.refuses at h
  dsimp only at h
  by_contra hr
  rw [Bool.not_eq_true] at hr
  split at h
  · cases h
  · split at h
    · cases h
    · simp [hr] at h

theorem Intake.takeSlot_queues (x : Intake) (p : Page) :
    (x.takeSlot p).normal = x.normal ∧ (x.takeSlot p).priority = x.priority := by
  unfold Intake.takeSlot
  split
  · exact ⟨rfl, rfl⟩
  · split <;> exact ⟨rfl, rfl⟩

/-- The page joins its job's queue. -/
theorem Part.acceptPage_queues (s : Part) (p : Page) :
    (s.acceptPage p).intake.normal = (if s.intake.queueFor p = .normal then s.intake.normal ++ [p] else s.intake.normal) ∧
      (s.acceptPage p).intake.priority =
        if s.intake.queueFor p = .priority then s.intake.priority ++ [p] else s.intake.priority := by
  obtain ⟨hn, hp⟩ := s.intake.takeSlot_queues p
  rw [s.acceptPage_eq, (Part.judgeIntakeLow_slots ..).2.1, (Part.judgeIntakeLow_slots ..).2.2, (Part.charge_queues ..).1,
    (Part.charge_queues ..).2, Part.modIntake_intake, ← hn, ← hp]
  cases s.intake.queueFor p <;> simp [Intake.append]

theorem Part.deliverPages_queues (s : Part) (job : Nat) (pages : List Page) :
    (s.deliverPages job pages).intake.normal = s.intake.normal ∧ (s.deliverPages job pages).intake.priority = s.intake.priority := by
  unfold Part.deliverPages Part.examineSlot
  split
  · split
    · exact ⟨rfl, rfl⟩
    · split <;> exact ⟨rfl, rfl⟩
  · exact ⟨rfl, rfl⟩

theorem Part.deliverTo_intake (s : Part) (x : Sheet) (r : Option Role) : (s.deliverTo x r).intake = s.intake ∨
    (s.deliverTo x r).intake = (s.deliverPages x.job x.pages).intake := by
  unfold Part.deliverTo
  split
  · exact .inr ((Part.countPath_via ..).intake_eq rfl)
  · exact .inr ((Part.countPath_via ..).intake_eq rfl)
  · exact .inl rfl
  · exact .inl ((Part.countPurge_via _).intake_eq rfl)
  · exact .inl rfl

/-- No queue grows but at a PAGE taken, and then by one within its room (R28, R31). -/
theorem Move.queues {q : Mode} {A : List Block} {a b : Phase} {s t : Part} (m : Move q A a s b t) :
    t.intake.normal.length ≤ max s.intake.normal.length 64 ∧ t.intake.priority.length ≤ max s.intake.priority.length 16 := by
  have same : t.intake.normal = s.intake.normal ∧ t.intake.priority = s.intake.priority →
      t.intake.normal.length ≤ max s.intake.normal.length 64 ∧ t.intake.priority.length ≤ max s.intake.priority.length 16 := by
    rintro ⟨hn, hp⟩
    rw [hn, hp]
    omega
  cases hA : hasBlock A .intake with
  | false =>
    have e := m.via.intake_eq hA
    exact same ⟨congrArg Intake.normal e, congrArg Intake.priority e⟩
  | true =>
    cases m with
    | judgeIntakeLow k => exact same (Part.judgeIntakeLow_slots ..).2
    | acceptPage p hp ho h =>
      have room := Intake.hasRoom_of_refuses h
      obtain ⟨hn, hq⟩ := s.acceptPage_queues p
      rw [hn, hq]
      cases e : s.intake.queueFor p <;> rw [e] at room
      · have : s.intake.normal.length < 64 := of_decide_eq_true room
        simp only [if_true, reduceCtorEq, if_false, List.length_append, List.length_singleton]
        omega
      · have : s.intake.priority.length < 16 := of_decide_eq_true room
        simp only [if_true, reduceCtorEq, if_false, List.length_append, List.length_singleton]
        omega
    | setReady id =>
      have hn : (s.setReady id).intake.normal.length = s.intake.normal.length := List.length_map ..
      have hp : (s.setReady id).intake.priority.length = s.intake.priority.length := List.length_map ..
      omega
    | abandon job i =>
      obtain ⟨hn, hp⟩ := s.abandonCore_queues job i
      rw [hn, hp]
      exact ⟨le_max_of_le_left (List.length_filter_le ..), le_max_of_le_left (List.length_filter_le ..)⟩
    | examineSlot i =>
      refine same ?_
      unfold Part.examineSlot
      split
      · exact ⟨rfl, rfl⟩
      · split <;> exact ⟨rfl, rfl⟩
    | pick n =>
      obtain ⟨-, hn, hp⟩ := s.takeNext_intake n
      rw [s.pickCore_intake n, hn, hp]
      constructor <;> refine le_max_of_le_left ?_ <;> split <;> simp
    | @deliver x st =>
      have e : (s.deliverCore x st).intake = _ := (Part.removeSheet_via ..).intake_eq rfl
      rcases s.deliverTo_intake x (s.force.roleOf st) with h | h
      · exact same ⟨congrArg Intake.normal (e.trans h), congrArg Intake.priority (e.trans h)⟩
      · obtain ⟨hn, hp⟩ := Part.deliverPages_queues s _ _
        exact same ⟨(congrArg Intake.normal (e.trans h)).trans hn, (congrArg Intake.priority (e.trans h)).trans hp⟩
    | discardAll => exact ⟨Nat.zero_le _, Nat.zero_le _⟩
    | ejected =>
      obtain ⟨r, hr, hi, -⟩ := s.completeEject_cases
      obtain ⟨hn, hp⟩ := Part.deliverPages_queues (((s.modOut fun o => { o with ejector := false }).modFinisher fun f =>
        { f with ejectLimit := none }).modDry fun d => { d with home := none }) (s.finisher.ident.getD (0, 0)).1
        (s.finisher.sheets.flatMap Held.pages)
      rw [← hr] at hn hp
      exact same ⟨(congrArg Intake.normal hi).trans hn, (congrArg Intake.priority hi).trans hp⟩
    | _ => cases hA

theorem Part.withdrawJob_calls (s : Part) (job : Nat) (h : s.calls.queue.length ≤ 8) :
    (s.withdrawJob job).calls.queue.length ≤ 8 := by
  have sheets : ∀ (l : List Sheet) (p : Part), p.calls.queue.length ≤ 8 →
      (l.foldl Part.abandonSheet p).calls.queue.length ≤ 8 := by
    intro l
    induction l with
    | nil => exact fun _ h => h
    | cons x l ih =>
      intro p h
      refine ih _ ?_
      unfold Part.abandonSheet
      dsimp only
      refine Calls.tame_drop _ _ ?_
      rw [(Part.modSheet_via ..).calls_eq rfl]
      split
      · exact h
      · rwa [(Part.purgeSheet_via ..).calls_eq rfl]
  unfold Part.withdrawJob
  dsimp only
  rw [Part.modFeed_calls, Part.modFinisher_calls]
  exact sheets _ _ (by rwa [(Part.abandonPlanned_via ..).calls_eq rfl])

theorem Part.planBuild_calls (s : Part) : s.planBuild.calls = ⟨[], []⟩ := by
  unfold Part.planBuild
  dsimp only
  rw [(Part.notePlanReady_via _).calls_eq rfl, (Part.setPath_via ..).calls_eq rfl, Part.modPlanner_calls]
  rfl

theorem Part.pickCore_calls (s : Part) (n : NextPage) : (s.pickCore n).calls.queue.length ≤ s.calls.queue.length + 1 := by
  have base : ((((s.takeNext n).joinTable (s.newSheet n)).armNext (s.newSheet n).number).reserve (s.newSheet n) .feed
      (feedLegOf n.unit)).calls = s.calls := by
    rw [(Part.reserve_via ..).calls_eq rfl, (Part.armNext_via ..).calls_eq rfl, (Part.joinTable_via ..).calls_eq rfl,
      (s.takeNext_via n).calls_eq rfl]
  unfold Part.pickCore
  dsimp only
  rw [(Part.notePick_via ..).calls_eq rfl]
  unfold Part.callFront
  split
  · rw [Part.modOut_calls, base]
    omega
  · rw [Part.modCalls_calls, Part.modOut_calls, base]
    exact (insertCall_length ..).le

/-- The image calls keep within their queue (R92). -/
theorem Move.callsFit {q : Mode} {A : List Block} {a b : Phase} {s t : Part} (m : Move q A a s b t)
    (h : s.calls.queue.length ≤ 8) : t.calls.queue.length ≤ 8 := by
  cases hA : hasBlock A .calls with
  | false => exact m.via.calls_eq hA ▸ h
  | true =>
    cases m with
    | abandon job i =>
      have e : (s.abandonCore job i).calls = (s.withdrawJob job).calls := by
        unfold Part.abandonCore
        dsimp only
        split
        · exact (Part.modSlot_via ..).calls_eq rfl
        · exact ((Part.noteProgress_via ..).calls_eq rfl).trans ((Part.modSlot_via ..).calls_eq rfl)
      rw [e]
      exact s.withdrawJob_calls job h
    | pick n _ _ _ hh =>
      have room := ((s.pickHolds_iff n).mp hh).2.2.2.2.2.2.1
      have := s.pickCore_calls n
      unfold Calls.unsent at room
      omega
    | spoil x =>
      refine Calls.tame_drop _ _ ?_
      rwa [(Part.modSheet_via ..).calls_eq rfl, (Part.reprint_via ..).calls_eq rfl, (Part.purgeSheet_via ..).calls_eq rfl]
    | calls g hg => exact hg _ h
    | planBuild =>
      rw [Part.planBuild_calls]
      exact Nat.zero_le _
    | discardAll => exact Nat.zero_le _
    | _ => cases hA

/-- The jam records and the overflow count keep within their places (R116). -/
theorem Move.recordsFit {q : Mode} {A : List Block} {a b : Phase} {s t : Part} (m : Move q A a s b t)
    (h : s.episode.records.length ≤ 4 ∧ s.episode.overflow ≤ 65535) :
    t.episode.records.length ≤ 4 ∧ t.episode.overflow ≤ 65535 := by
  have core : ∀ {e f : Episode}, e.core = f.core → f.records.length ≤ 4 ∧ f.overflow ≤ 65535 →
      e.records.length ≤ 4 ∧ e.overflow ≤ 65535 := fun {e f} k hf => by
    have fits : f.core.records.length ≤ 4 ∧ f.core.overflow ≤ 65535 := hf
    rwa [← k] at fits
  have opened : ∀ (p : Part) (j : Jam) (x : AreaSet), (p.openCore j x).episode.records.length ≤ 4 ∧
      (p.openCore j x).episode.overflow ≤ 65535 := fun p j x => by
    obtain ⟨-, -, -, e⟩ := p.openCore_effect j x
    exact core (f := { p.episode with
      number := p.episode.number + 1, isOpen := true, firstKind := some j.kind, records := [j], overflow := 0,
      sweepTimer := none }) e ⟨Nat.le_add_left 1 3, Nat.zero_le _⟩
  cases hA : hasBlock A .episode with
  | false => exact m.via.episode_eq hA ▸ h
  | true =>
    cases m with
    | judgeDoor => exact h
    | startJammed => exact opened ..
    | openEpisode => exact opened ..
    | record j hr =>
      refine ⟨?_, h.2⟩
      simp only [Part.modEpisode_episode, List.length_append, List.length_singleton]
      omega
    | overflow => exact ⟨h.1, min_le_right ..⟩
    | episode g hg => exact core (hg _) h
    | strand p => exact h
    | abandonSweep bar =>
      unfold Part.abandonSweep
      rw [(Part.setPath_via ..).episode_eq rfl]
      exact h
    | dropSweep => exact h
    | startSweep _ hd =>
      rw [s.startSweep_eq hd, Part.modEpisode_episode, (Part.runDrives_via _).episode_eq rfl, Part.modOut_episode,
        (Part.setPath_via ..).episode_eq rfl]
      exact h
    | planBuild =>
      rw [Part.planBuild_episode, (Part.setPath_via ..).episode_eq rfl]
      exact h
    | resume => exact h
    | discardAll =>
      rw [s.discardCoreAll_episode]
      exact h
    | resetIdle =>
      rw [(Part.enterIdle_via _).episode_eq rfl]
      exact h
    | _ => cases hA

theorem Move.legsFit {q : Mode} {A : List Block} {a b : Phase} {s t : Part} (m : Move q A a s b t)
    (h : s.stored.legsInRange ∧ s.force.legsInRange) : t.stored.legsInRange ∧ t.force.legsInRange := by
  rcases m.descs with ⟨es, ef⟩ | ⟨-, -, -, ⟨g, hg, rfl⟩ | ⟨-, rfl⟩⟩
  · rwa [es, ef]
  · rw [(Part.setPath_via ..).stored_eq rfl, (Part.setPath_via ..).force_eq rfl]
    exact ⟨hg.legs _ h.1, h.2⟩
  · exact ⟨h.1, h.1⟩

theorem Move.withinPlaces {q : Mode} {A : List Block} {a b : Phase} {s t : Part} (m : Move q A a s b t) (h : s.withinPlaces) :
    t.withinPlaces := by
  obtain ⟨hn, hp, hc, hr, ho, hs, hf⟩ := h
  obtain ⟨qn, qp⟩ := m.queues
  obtain ⟨rr, ro⟩ := m.recordsFit ⟨hr, ho⟩
  exact ⟨by omega, by omega, m.callsFit hc, rr, ro, m.legsFit ⟨hs, hf⟩⟩

/-- Settles O53: the lists change by an insertion at its place, a bounded append, or a removal. -/
theorem listsKept : Obligations.ListsKept :=
  keptByEveryStep_of_moves (fun _ p => p.planner.ordered ∧ p.withinPlaces ∧ p.progressHeld ∧ p.jamsApart) (fun _ h => h)
    (fun _ h => h)
    (fun rate pin => by
      have legs : Desc.reset.legsInRange := by decide
      refine ⟨List.Pairwise.nil, ⟨Nat.zero_le _, Nat.zero_le _, Nat.zero_le _, Nat.zero_le _, Nat.zero_le _, legs, legs⟩,
        fun i hi => ?_, List.nodup_nil⟩
      have e : (Part.reset rate pin).notices.progress = .replicate 8 false := rfl
      rw [e] at hi
      simp at hi)
    fun m ⟨ho, hw, hp, hj⟩ => ⟨m.ordered ho, m.withinPlaces hw, m.progressHeld hp, m.jamsApart hj⟩

end Sys2Proof.Machine
end

