-- ==== Sys2Proof/Proofs/KeptPath.lean ====
section
/-! PROOF. What every step keeps between the path state and the drives, the timers, the episode and the hold flag (03 section 3.1,
R45, R47, R52, R111, R128). -/

namespace Sys2Proof.Machine

/-! ## The sheet numbers in the table -/

/-- The sheet numbers in the table. -/
def Part.numbers (s : Part) : List Nat := s.table.sheets.map Sheet.number

theorem Part.numbers_of_table {s t : Part} (h : t.table = s.table) : t.numbers = s.numbers := congrArg (fun x : Table => x.sheets.map Sheet.number) h

theorem Part.numbers_of_map {s t : Part} {g : Sheet → Sheet} (e : t.table.sheets = s.table.sheets.map g)
    (h : ∀ x, (g x).number = x.number) : t.numbers = s.numbers := by
  rw [Part.numbers, Part.numbers, e, List.map_map]
  exact List.map_congr_left fun x _ => h x

theorem Part.numbers_fold {α : Type} {f : Part → α → Part} (hf : ∀ (p : Part) (x : α), (f p x).numbers = p.numbers) (l : List α)
    (s : Part) : (l.foldl f s).numbers = s.numbers := by
  induction l generalizing s with
  | nil => rfl
  | cons x l ih => rw [List.foldl_cons, ih, hf]

theorem Part.numbers_openCore (s : Part) (j : Jam) (extra : AreaSet) : (s.openCore j extra).numbers = s.numbers := by
  obtain ⟨ns, -, e⟩ := s.openCore_sheets j extra
  refine Part.numbers_of_map (e.trans (List.map_map ..)) fun x => ?_
  simp only [Function.comp_apply, Sheet.strandIf, Sheet.runOutIf]
  split <;> split <;> rfl

theorem Part.numbers_abandonSheet (s : Part) (x : Sheet) : (s.abandonSheet x).numbers = s.numbers := by
  have release : ∀ p : Part, ((p.modSheet x.number Sheet.release).dropSheetCalls x.number).numbers = p.numbers := fun p =>
    (Part.numbers_of_table ((Part.dropSheetCalls_via ..).table_eq rfl)).trans (p.modSheet_numbers _ _ fun _ => rfl)
  unfold Part.abandonSheet
  dsimp only
  rw [release]
  split
  · rfl
  · exact s.modSheet_numbers _ _ fun _ => rfl

theorem Part.numbers_abandonCore (s : Part) (job : Nat) (i : Fin 8) : (s.abandonCore job i).numbers = s.numbers := by
  have withdrawn : (s.withdrawJob job).numbers = s.numbers := by
    unfold Part.withdrawJob
    dsimp only
    refine (Part.numbers_of_table rfl).trans ((Part.numbers_fold Part.numbers_abandonSheet _ _).trans ?_)
    exact Part.numbers_of_table ((Part.abandonPlanned_via ..).table_eq rfl)
  unfold Part.abandonCore
  dsimp only
  split
  · exact (Part.numbers_of_table ((Part.modSlot_via ..).table_eq rfl)).trans withdrawn
  · exact (Part.numbers_of_table ((Part.noteProgress_via ..).table_eq rfl)).trans
      ((Part.numbers_of_table ((Part.modSlot_via ..).table_eq rfl)).trans withdrawn)

/-- The table keeps its numbers but at a pick, a delivery, a plan build and PATH RESET. -/
theorem Move.numbers {q : Mode} {A : List Block} {a b : Phase} {s t : Part} (m : Move q A a s b t) :
    t.numbers = s.numbers ∨ (∃ n, a = .settled ∧ b = .settled ∧ s.feed.path = .running ∧ t = s.pickCore n) ∨
      (∃ x st, a = .leaving x st ∧ b = .delivering ∧ t = s.deliverCore x st) ∨
      (a = .settled ∧ b = .settled ∧ (s.feed.path = .held ∨ s.feed.path = .sweeping) ∧ t = (s.setPath .sweeping).planBuild) ∨
      b = .resetting ∧ t = s.discardCoreAll := by
  cases hA : hasBlock A .table with
  | false => exact .inl (Part.numbers_of_table (m.via.table_eq hA))
  | true =>
    cases m with
    | setReady id => exact .inl (Part.numbers_of_map (t := s.setReady id) rfl fun _ => rfl)
    | abandon job i => exact .inl (s.numbers_abandonCore job i)
    | startJammed st =>
      exact .inl ((Part.numbers_openCore ..).trans (Part.numbers_of_table
        (((Part.countStation_via ..).table_eq rfl).trans ((Part.enterPath_via s).table_eq rfl))))
    | pick n hp => exact .inr (.inl ⟨n, rfl, rfl, hp, rfl⟩)
    | sheet n g h => exact .inl (s.modSheet_numbers n g fun x => (h.kept x).1)
    | uncover x st => exact .inl (s.uncover_numbers x st)
    | cover x step =>
      exact .inl ((Part.numbers_of_table ((Part.coverWith_via ..).table_eq rfl)).trans (s.modSheet_numbers _ _ fun _ => rfl))
    | spoil x =>
      refine .inl (Part.numbers_of_map (s.spoilSheet_sheets x) fun y => ?_)
      split <;> rfl
    | @deliver x st => exact .inr (.inr (.inl ⟨x, st, rfl, rfl, rfl⟩))
    | openEpisode j extra => exact .inl (s.numbers_openCore j extra)
    | strand p =>
      refine .inl (Part.numbers_of_map (s.strand_sheets p) fun x => ?_)
      unfold Sheet.strandIf
      split <;> rfl
    | planBuild hp => exact .inr (.inr (.inr (.inl ⟨rfl, rfl, hp, rfl⟩)))
    | discardAll => exact .inr (.inr (.inr (.inr ⟨rfl, rfl⟩)))
    | _ => cases hA

theorem Part.sheets_nil_iff {s t : Part} (h : t.numbers = s.numbers) : t.table.sheets = [] ↔ s.table.sheets = [] := by
  rw [← List.map_eq_nil_iff (f := Sheet.number), ← List.map_eq_nil_iff (f := Sheet.number) (l := s.table.sheets)]
  exact Eq.congr_left h

/-! ## What the path state speaks of -/

/-- The path state and what it speaks of: timers, hold flag and set-end mark, drives, clutches, episode and sweep timer. -/
structure Watch where
  path : PathState
  pickTimer : Option Tick
  holdoff : Option Tick
  ramp : Option Tick
  runOn : Option Tick
  hold : Bool
  setEnd : Bool
  drives : Bool × Bool × Bool × Bool
  clutch : Vector Bool 5
  isOpen : Bool
  sweepTimer : Option Tick

/-- The four drive enables. -/
def Outputs.enables (o : Outputs) : Bool × Bool × Bool × Bool := (o.enFeed, o.enProcess, o.enDuplex, o.enDelivery)

/-- What is watched of the Feed Scheduler, the outputs and the Episode Unit. -/
def Watch.of (f : Feed) (o : Outputs) (e : Episode) : Watch where
  path := f.path
  pickTimer := f.pickTimer
  holdoff := f.holdoff
  ramp := f.ramp
  runOn := f.runOn
  hold := f.hold
  setEnd := f.setEnd
  drives := o.enables
  clutch := o.clutch
  isOpen := e.isOpen
  sweepTimer := e.sweepTimer

/-- What is watched of a part. -/
def Part.watch (s : Part) : Watch := .of s.feed s.out s.episode

/-- The drive enables a path state asks for (03 section 3.1). -/
def PathState.enables (p : PathState) : Bool × Bool × Bool × Bool :=
  (p.allDrives, p.allDrives, p.allDrives, p.allDrives || p == .halting)

/-- `pathSound` phase by phase, of what is watched and whether the table is empty. -/
structure Watch.sound (a : Phase) (w : Watch) (bare : Prop) : Prop where
  drives : a ≠ .resetting → w.drives = w.path.enables
  episode : a ≠ .resetting → a ≠ .resuming → w.isOpen = w.path.inEpisode
  hold : a ≠ .resetting → w.isOpen = true → w.hold = false ∧ w.setEnd = false
  clutch : a ≠ .resetting → w.isOpen = true → w.clutch = .replicate 5 false
  pick : w.pickTimer.isSome = true → w.path = .running ∧ a ≠ .resetting
  holdoff : w.holdoff.isSome = true → w.path = .running ∧ a ≠ .resetting
  ramp : w.ramp.isSome = true ↔ w.path = .starting ∧ a ≠ .resetting
  runOn : w.runOn.isSome = true → w.path = .draining ∧ bare ∧ a ≠ .resetting
  runsOn : a ≠ .resetting → a ≠ .delivering → w.path = .draining → bare → w.runOn.isSome = true
  sweep : w.sweepTimer.isSome = true ↔ w.path = .sweeping ∧ a ≠ .resetting
  empty : w.path = .unconfigured ∨ w.path = .idle → bare
  resuming : a = .resuming → w.path = .resumable ∧ w.isOpen = false
  resetting : a = .resetting → bare

theorem Part.pathSound_iff (s : Part) : s.pathSound ↔ s.watch.sound .settled (s.table.sheets = []) := by
  constructor
  · rintro ⟨hf, hp, hd, hv, he, hh, hc, pick, holdoff, ramp, runOn, sweep, empty⟩
    refine ⟨fun _ => ?_, fun _ _ => he, fun _ => hh, fun _ => hc, fun h => ⟨pick h, nofun⟩, fun h => ⟨holdoff h, nofun⟩,
      ⟨fun h => ⟨ramp.mp h, nofun⟩, fun h => ramp.mpr h.1⟩, fun h => ⟨(runOn.mp h).1, (runOn.mp h).2, nofun⟩,
      fun _ _ h k => runOn.mpr ⟨h, k⟩, ⟨fun h => ⟨sweep.mp h, nofun⟩, fun h => sweep.mpr h.1⟩, empty, nofun, nofun⟩
    show s.out.enables = _
    rw [Outputs.enables, hf, hp, hd, hv]
    rfl
  · rintro ⟨drives, episode, hold, clutch, pick, holdoff, ramp, runOn, runsOn, sweep, empty, -, -⟩
    have ds : s.out.enables = s.feed.path.enables := drives nofun
    simp only [Outputs.enables, PathState.enables, Prod.mk.injEq] at ds
    obtain ⟨hf, hp, hd, hv⟩ := ds
    exact ⟨hf, hp, hd, hv, episode nofun nofun, hold nofun, clutch nofun, fun h => (pick h).1, fun h => (holdoff h).1,
      ⟨fun h => (ramp.mp h).1, fun h => ramp.mpr ⟨h, nofun⟩⟩,
      ⟨fun h => ⟨(runOn h).1, (runOn h).2.1⟩, fun h => runsOn nofun nofun h.1 h.2⟩,
      ⟨fun h => (sweep.mp h).1, fun h => sweep.mpr ⟨h, nofun⟩⟩, empty⟩

/-! ## The transitions -/

variable {w u : Watch} {bare bare' : Prop} {a b : Phase}

/-- What is asked between two operations, where nothing is owed. -/
theorem Watch.sound_iff : w.sound .settled bare ↔
    w.drives = w.path.enables ∧ w.isOpen = w.path.inEpisode ∧
      (w.path.inEpisode = true → w.hold = false ∧ w.setEnd = false ∧ w.clutch = .replicate 5 false) ∧
      (w.path ≠ .running → w.pickTimer = none ∧ w.holdoff = none) ∧ (w.path ≠ .starting ↔ w.ramp = none) ∧
      (¬ (w.path = .draining ∧ bare) ↔ w.runOn = none) ∧ (w.path ≠ .sweeping ↔ w.sweepTimer = none) ∧
      (w.path = .unconfigured ∨ w.path = .idle → bare) := by
  constructor
  · rintro ⟨drives, episode, hold, clutch, pick, holdoff, ramp, runOn, runsOn, sweep, empty, -, -⟩
    simp only [← Option.not_isSome_iff_eq_none]
    have open_ := episode nofun nofun
    refine ⟨drives nofun, open_, fun k => ?_, fun k => ⟨fun e => k (pick e).1, fun e => k (holdoff e).1⟩, ?_, ?_, ?_, empty⟩
    · exact ⟨(hold nofun (open_.trans k)).1, (hold nofun (open_.trans k)).2, clutch nofun (open_.trans k)⟩
    · exact not_congr ⟨fun e => ramp.mpr ⟨e, nofun⟩, fun e => (ramp.mp e).1⟩
    · exact not_congr ⟨fun e => runsOn nofun nofun e.1 e.2, fun e => ⟨(runOn e).1, (runOn e).2.1⟩⟩
    · exact not_congr ⟨fun e => sweep.mpr ⟨e, nofun⟩, fun e => (sweep.mp e).1⟩
  · rintro ⟨drives, episode, still, timers, ramp, runOn, sweep, empty⟩
    simp only [← Option.not_isSome_iff_eq_none, ne_eq, not_iff_not] at ramp runOn sweep
    refine ⟨fun _ => drives, fun _ _ => episode, fun _ e => ?_, fun _ e => (still (episode ▸ e)).2.2, fun e => ⟨?_, nofun⟩,
      fun e => ⟨?_, nofun⟩, ⟨fun e => ⟨ramp.mpr e, nofun⟩, fun e => ramp.mp e.1⟩, fun e => ⟨(runOn.mpr e).1, (runOn.mpr e).2, nofun⟩,
      fun _ _ e k => runOn.mp ⟨e, k⟩, ⟨fun e => ⟨sweep.mpr e, nofun⟩, fun e => sweep.mp e.1⟩, empty, nofun, nofun⟩
    · exact ⟨(still (episode ▸ e)).1, (still (episode ▸ e)).2.1⟩
    · by_contra k
      simp [(timers k).1] at e
    · by_contra k
      simp [(timers k).2] at e

/-- Between UNCONFIGURED and IDLE the path moves alone (R2, R15). -/
theorem Watch.sound.define (h : w.sound .settled bare) (hp : w.path = .unconfigured ∨ w.path = .idle) :
    ({ w with path := .unconfigured } : Watch).sound .settled bare := by
  rw [Watch.sound_iff] at *
  rcases hp with hp | hp <;> simp_all [PathState.enables, PathState.allDrives, PathState.inEpisode]

/-- The ramp ends (R45). -/
theorem Watch.sound.ramped (h : w.sound .settled bare) (hp : w.path = .starting) :
    ({ w with ramp := none, path := .running } : Watch).sound .settled bare := by
  rw [Watch.sound_iff] at *
  simp_all [PathState.enables, PathState.allDrives, PathState.inEpisode]

/-- The path drains (R46, R47). -/
theorem Watch.sound.drain (h : w.sound .settled bare) (hp : w.path = .running) {r : Option Tick} (hr : r.isSome = true ↔ bare) :
    ({ w with path := .draining, pickTimer := none, holdoff := none, runOn := r } : Watch).sound .settled bare := by
  rw [Watch.sound_iff] at *
  cases r <;> simp_all [PathState.enables, PathState.allDrives, PathState.inEpisode]

/-- The path returns to RUNNING (R47). -/
theorem Watch.sound.goBack (h : w.sound .settled bare) (hp : w.path = .draining) :
    ({ w with path := .running, runOn := none } : Watch).sound .settled bare := by
  rw [Watch.sound_iff] at *
  simp_all [PathState.enables, PathState.allDrives, PathState.inEpisode]

/-- The path comes to rest, from a run-on or from UNCONFIGURED (R15, R47). -/
theorem Watch.sound.toIdle (h : w.sound .settled bare) (hp : w.path = .draining ∧ w.runOn.isSome = true ∨ w.path = .unconfigured) :
    ({ w with path := .idle, runOn := none, drives := (false, false, false, false) } : Watch).sound .settled bare := by
  rw [Watch.sound_iff] at *
  rcases hp with ⟨hp, hr⟩ | hp
  · rw [← Option.ne_none_iff_isSome] at hr
    simp_all [PathState.enables, PathState.allDrives, PathState.inEpisode]
  · simp_all [PathState.enables, PathState.allDrives, PathState.inEpisode]

/-- The path starts, from IDLE or at RESUME (R45, R145). -/
theorem Watch.sound.start (h : w.sound a bare) (hp : a = .settled ∧ w.path = .idle ∨ a = .resuming) (d : Tick) :
    ({ w with path := .starting, ramp := some d, drives := (true, true, true, true) } : Watch).sound .settled bare := by
  rcases hp with ⟨rfl, hp⟩ | rfl
  · rw [Watch.sound_iff] at *
    simp_all [PathState.enables, PathState.allDrives, PathState.inEpisode]
  · obtain ⟨-, -, -, -, pick, holdoff, -, runOn, -, sweep, -, resuming, -⟩ := h
    obtain ⟨hp, ho⟩ := resuming rfl
    rw [Watch.sound_iff]
    simp_all [PathState.enables, PathState.allDrives, PathState.inEpisode]

/-- In an episode the path goes to HELD or RESUMABLE: the drives are at rest and no sweep is under way. -/
theorem Watch.sound.still (h : w.sound .settled bare) {p : PathState} (hin : w.path.inEpisode = true) (hp : p = .held ∨ p = .resumable)
    {x : Option Tick} (hx : x = none) :
    ({ w with path := p, sweepTimer := x, drives := (false, false, false, false) } : Watch).sound .settled bare' := by
  rw [Watch.sound_iff] at *
  subst hx
  rcases hp with rfl | rfl <;> cases e : w.path <;>
    simp_all [PathState.enables, PathState.allDrives, PathState.inEpisode]

/-- The run-on timer is judged after a delivery (R47). -/
theorem Watch.sound.armRunOn (h : w.sound .delivering bare) {c : Prop} [Decidable c] (hc : c ↔ bare) (d : Tick) :
    ({ w with runOn := if w.path = .draining ∧ c then some d else w.runOn } : Watch).sound .settled bare := by
  obtain ⟨drives, episode, hold, clutch, pick, holdoff, ramp, runOn, runsOn, sweep, empty, resuming, resetting⟩ := h
  refine ⟨fun _ => drives nofun, fun _ _ => episode nofun nofun, fun _ => hold nofun, fun _ => clutch nofun,
    fun k => ⟨(pick k).1, nofun⟩, fun k => ⟨(holdoff k).1, nofun⟩, ⟨fun k => ⟨(ramp.mp k).1, nofun⟩, fun k => ramp.mpr ⟨k.1, nofun⟩⟩,
    fun k => ?_, fun _ _ (hp : w.path = .draining) hb => ?_,
    ⟨fun k => ⟨(sweep.mp k).1, nofun⟩, fun k => sweep.mpr ⟨k.1, nofun⟩⟩, empty, nofun, nofun⟩
  · dsimp only at k ⊢
    split at k
    · next e => exact ⟨e.1, hc.mp e.2, nofun⟩
    · exact ⟨(runOn k).1, (runOn k).2.1, nofun⟩
  · dsimp only
    rw [if_pos ⟨hp, hc.mpr hb⟩]
    rfl

/-- RESUME closes the episode; the path is to start (R145). -/
theorem Watch.sound.resume (h : w.sound .settled bare) (hp : w.path = .resumable) :
    ({ w with isOpen := false } : Watch).sound .resuming bare := by
  rw [Watch.sound_iff] at h
  constructor <;> simp_all [PathState.enables, PathState.allDrives, PathState.inEpisode]

/-- PATH RESET leaves the path IDLE (R181). -/
theorem Watch.sound.resetIdle (h : w.sound .resetting bare) :
    ({ w with isOpen := false, path := .idle, runOn := none, drives := (false, false, false, false) } : Watch).sound .settled bare := by
  obtain ⟨-, -, -, -, pick, holdoff, ramp, runOn, -, sweep, -, -, resetting⟩ := h
  rw [Watch.sound_iff]
  simp_all [PathState.enables, PathState.allDrives, PathState.inEpisode]

/-- A sweep starts (R128). -/
theorem Watch.sound.startSweep (h : w.sound .settled bare) (hp : w.path = .held) (d : Tick) :
    ({ w with path := .sweeping, sweepTimer := some d, drives := (true, true, true, true) } : Watch).sound .settled bare := by
  rw [Watch.sound_iff] at *
  simp_all [PathState.enables, PathState.allDrives, PathState.inEpisode]

/-- An episode opens (R52, R109, R111), whatever stood before. -/
theorem Watch.sound_opened {p : PathState} (hp : p = .halting ∨ p = .held) (path : u.path = p)
    (timers : u.pickTimer = none ∧ u.holdoff = none ∧ u.ramp = none ∧ u.runOn = none ∧ u.sweepTimer = none)
    (hold : u.hold = false ∧ u.setEnd = false) (drives : u.drives = p.enables) (clutch : u.clutch = .replicate 5 false)
    (open_ : u.isOpen = true) (hb : b ≠ .resuming ∧ b ≠ .resetting) : u.sound b bare := by
  obtain ⟨hpick, hoff, hramp, hrun, hsweep⟩ := timers
  refine ⟨fun _ => path ▸ drives, fun _ _ => ?_, fun _ _ => hold, fun _ _ => clutch, fun k => by simp [hpick] at k,
    fun k => by simp [hoff] at k, ?_, fun k => by simp [hrun] at k, fun _ _ k => ?_, ?_, fun k => ?_, fun k => absurd k hb.1,
    fun k => absurd k hb.2⟩
  · rw [open_, path]
    rcases hp with rfl | rfl <;> rfl
  all_goals rcases hp with rfl | rfl <;> simp_all

theorem Phase.calm_ne (h : a.calm = true) : a ≠ .resuming ∧ a ≠ .resetting := by
  cases a <;> simp_all [Phase.calm]

/-- Where no episode is being closed and nothing discarded, the phases that ask the same are one as good as another. -/
theorem Watch.sound.phase (h : w.sound a bare) (ha : a.calm = true) (hb : b ≠ .resuming ∧ b ≠ .resetting) : w.sound b bare := by
  have hr : a ≠ .resetting ∧ a ≠ .resuming ∧ a ≠ .delivering := by cases a <;> simp_all [Phase.calm]
  exact ⟨fun _ => h.drives hr.1, fun _ _ => h.episode hr.1 hr.2.1, fun _ => h.hold hr.1, fun _ => h.clutch hr.1,
    fun k => ⟨(h.pick k).1, hb.2⟩, fun k => ⟨(h.holdoff k).1, hb.2⟩,
    ⟨fun k => ⟨(h.ramp.mp k).1, hb.2⟩, fun k => h.ramp.mpr ⟨k.1, hr.1⟩⟩, fun k => ⟨(h.runOn k).1, (h.runOn k).2.1, hb.2⟩,
    fun _ _ => h.runsOn hr.1 hr.2.2, ⟨fun k => ⟨(h.sweep.mp k).1, hb.2⟩, fun k => h.sweep.mpr ⟨k.1, hr.1⟩⟩, h.empty,
    fun k => absurd k hb.1, fun k => absurd k hb.2⟩

/-- A sheet leaves the table. -/
theorem Watch.sound.thin (h : w.sound .delivering bare) (hb : bare → bare') : w.sound .delivering bare' :=
  ⟨h.drives, h.episode, h.hold, h.clutch, h.pick, h.holdoff, h.ramp, fun k => ⟨(h.runOn k).1, hb (h.runOn k).2.1, nofun⟩,
    fun _ k => absurd rfl k, h.sweep, fun k => hb (h.empty k), nofun, nofun⟩

theorem Part.openCore_watch (s : Part) (j : Jam) (extra : AreaSet) (hb : b ≠ .resuming ∧ b ≠ .resetting) :
    (s.openCore j extra).watch.sound b bare := by
  obtain ⟨h, hf, ho, he⟩ := s.openCore_effect j extra
  have open_ : (s.openCore j extra).episode.isOpen = true := (congrArg Episode.isOpen he :)
  have sweep : (s.openCore j extra).episode.sweepTimer = none := (congrArg Episode.sweepTimer he :)
  refine Watch.sound_opened (p := if h then .halting else .held) (by cases h <;> simp) (congrArg Feed.path hf)
    ⟨congrArg Feed.pickTimer hf, congrArg Feed.holdoff hf, congrArg Feed.ramp hf, congrArg Feed.runOn hf, sweep⟩
    ⟨congrArg Feed.hold hf, congrArg Feed.setEnd hf⟩ ((congrArg Outputs.enables ho).trans ?_) (congrArg Outputs.clutch ho)
    open_ hb
  cases h <;> rfl

theorem Part.watch_eq {t : Part} {f : Feed} {o : Outputs} {e : Episode} (hf : t.feed = f) (ho : t.out = o) (he : t.episode = e) :
    t.watch = .of f o e := by
  rw [Part.watch, hf, ho, he]

/-- A move that leaves Feed Scheduler, outputs and Episode Unit leaves what is watched. -/
theorem Move.watch_of_blocks {q : Mode} {A : List Block} {s t : Part} (m : Move q A a s b t)
    (hA : (hasBlock A .feed || hasBlock A .out || hasBlock A .episode) = false) : t.watch = s.watch := by
  obtain ⟨hfo, he⟩ := Bool.or_eq_false_iff.mp hA
  obtain ⟨hf, ho⟩ := Bool.or_eq_false_iff.mp hfo
  exact Part.watch_eq (m.via.feed_eq hf) (m.via.out_eq ho) (m.via.episode_eq he)

theorem Watch.of_feedCore {f g : Feed} (h : g.core = f.core) (o : Outputs) (e : Episode) : Watch.of g o e = .of f o e :=
  show Watch.of g.core o e = Watch.of f.core o e by rw [h]

theorem Watch.of_episodeCore {d e : Episode} (h : e.core = d.core) (f : Feed) (o : Outputs) : Watch.of f o e = .of f o d :=
  show Watch.of f o e.core = Watch.of f o d.core by rw [h]

theorem Watch.of_outputsCore {o p : Outputs} (h : p.core = o.core) (f : Feed) (e : Episode) : Watch.of f p e = .of f o e :=
  show Watch.of f p.core e = Watch.of f o.core e by rw [h]

theorem Part.completeEject_out (s : Part) : s.completeEject.out = { s.out with ejector := false } := by
  unfold Part.completeEject
  dsimp only
  split
  · rw [(Part.endPartial_via _).out_eq rfl, (Part.deliverPages_via ..).out_eq rfl]
    rfl
  · rw [(Part.endFinal_via _).out_eq rfl, (Part.deliverPages_via ..).out_eq rfl]
    rfl

theorem Move.phase_kept {q : Mode} {A : List Block} {s t : Part} (m : Move q A a s b t)
    (hA : (hasBlock A .feed || hasBlock A .out || hasBlock A .episode) = false) :
    b = a ∨ a.calm = true ∧ b ≠ .resuming ∧ b ≠ .resetting := by
  cases m with
  | left | uncover | cover | arrived | deliver => exact .inr ⟨rfl, nofun, nofun⟩
  | armRunOn | start | startJammed | openEpisode | resume | discardAll | resetIdle => cases hA
  | _ => exact .inl rfl

theorem Part.pickCore_watch (s : Part) (n : NextPage) : (s.pickCore n).watch = { s.watch with
    hold := ((s.pickCore n).feed.hold), setEnd := (s.pickCore n).feed.setEnd, pickTimer := none, holdoff := none
    clutch := s.out.clutch.set n.unit true } := by
  obtain ⟨m, hf⟩ := s.pickCore_feed n
  obtain ⟨hp, hr, ho, -⟩ := Feed.bound_kept { s.feed with merge := m } n
  have path : (s.pickCore n).feed.path = s.feed.path := by rw [hf, hp]
  have ramp : (s.pickCore n).feed.ramp = s.feed.ramp := by rw [hf, hr]
  have runOn : (s.pickCore n).feed.runOn = s.feed.runOn := by rw [hf, ho]
  have pick : (s.pickCore n).feed.pickTimer = none ∧ (s.pickCore n).feed.holdoff = none := by rw [hf]; exact ⟨rfl, rfl⟩
  have out := s.pickCore_out n
  have episode := (s.pickCore_via n).episode_eq rfl
  unfold Part.watch Watch.of
  rw [path, ramp, runOn, pick.1, pick.2, out, episode]
  rfl

/-- The hold flag, the set-end mark and the clutches move freely where no episode is open. -/
theorem Watch.sound.loose (h : w.sound a bare) (ho : w.isOpen = false) (x y : Bool) (v : Vector Bool 5) :
    ({ w with hold := x, setEnd := y, clutch := v } : Watch).sound a bare :=
  ⟨h.drives, h.episode, fun _ k => absurd (ho ▸ k) Bool.false_ne_true, fun _ k => absurd (ho ▸ k) Bool.false_ne_true, h.pick, h.holdoff,
    h.ramp, h.runOn, h.runsOn, h.sweep, h.empty, h.resuming, h.resetting⟩

/-- The timers of RUNNING move freely in it, and may go anywhere. -/
theorem Watch.sound.timers (h : w.sound a bare) {x y : Option Tick}
    (hx : x.isSome = true → w.path = .running ∧ a ≠ .resetting) (hy : y.isSome = true → w.path = .running ∧ a ≠ .resetting) :
    ({ w with pickTimer := x, holdoff := y } : Watch).sound a bare :=
  ⟨h.drives, h.episode, h.hold, h.clutch, hx, hy, h.ramp, h.runOn, h.runsOn, h.sweep, h.empty, h.resuming, h.resetting⟩

theorem Watch.sound_bare (h : w.sound a bare) (hb : bare ↔ bare') : w.sound a bare' := propext hb ▸ h

/-! ## The moves -/

theorem Part.strand_watch (s : Part) (p : Sheet → Bool) : (s.strand p).watch = s.watch :=
  (Part.watch_eq ((s.strand_via p).feed_eq rfl) ((s.strand_via p).out_eq rfl) rfl).trans (Watch.of_episodeCore (s.strand_core p) _ _)

theorem Part.completeEject_watch (s : Part) : s.completeEject.watch = s.watch :=
  (Part.watch_eq ((Part.completeEject_via s).feed_eq rfl) s.completeEject_out ((Part.completeEject_via s).episode_eq rfl)).trans rfl

theorem Part.stapled_out (s : Part) : s.stapled.out = { s.out with stapler := false, ejector := true } := by
  unfold Part.stapled Part.eject
  rw [Part.modOut_out, Part.modFinisher_out, (Part.countPath_via ..).out_eq rfl]
  rfl

theorem Part.stapled_watch (s : Part) : s.stapled.watch = s.watch :=
  (Part.watch_eq (s.stapled_via.feed_eq rfl) s.stapled_out (s.stapled_via.episode_eq rfl)).trans rfl

theorem Part.abandonCore_watch (s : Part) (job : Nat) (i : Fin 8) : (s.abandonCore job i).watch = s.watch :=
  (Part.watch_eq (s.abandonCore_feed job i) ((s.abandonCore_via job i).out_eq rfl)
    ((s.abandonCore_via job i).episode_eq rfl)).trans rfl

/-- The path state alone moves. -/
theorem Part.setPath_watch (s : Part) (p : PathState) : (s.setPath p).watch = { s.watch with path := p } :=
  Part.watch_eq (s.setPath_feed p) ((s.setPath_via p).out_eq rfl) ((s.setPath_via p).episode_eq rfl)

theorem Part.enterIdle_watch (s : Part) : s.enterIdle.watch =
    { s.watch with path := .idle, runOn := none, drives := (false, false, false, false) } :=
  Part.watch_eq s.enterIdle_feed s.enterIdle_out (s.enterIdle_via.episode_eq rfl)

theorem Part.stopDrives_watch (s : Part) : s.stopDrives.watch = { s.watch with drives := (false, false, false, false) } := rfl

theorem Part.enterDraining_watch (s : Part) : s.enterDraining.watch = { s.watch with
    path := .draining, pickTimer := none, holdoff := none
    runOn := if s.table.sheets.isEmpty then some (plusTicks s.tick ((s.force.drive.map DriveSet.runOn).getD 0)) else s.feed.runOn } :=
  Part.watch_eq s.enterDraining_feed (s.enterDraining_via.out_eq rfl) (s.enterDraining_via.episode_eq rfl)

theorem Part.returnToRunning_watch (s : Part) : s.returnToRunning.watch = { s.watch with path := .running, runOn := none } :=
  Part.watch_eq s.returnToRunning_feed (s.returnToRunning_via.out_eq rfl) (s.returnToRunning_via.episode_eq rfl)

theorem Part.armRunOn_watch (s : Part) : s.armRunOn.watch = { s.watch with
    runOn := if s.feed.path = .draining ∧ s.table.sheets.isEmpty then
      some (plusTicks s.tick ((s.force.drive.map DriveSet.runOn).getD 0)) else s.feed.runOn } :=
  Part.watch_eq s.armRunOn_feed (s.armRunOn_via.out_eq rfl) (s.armRunOn_via.episode_eq rfl)

theorem Part.start_watch (s : Part) : ∃ d, s.start.watch =
    { s.watch with path := .starting, ramp := some d, drives := (true, true, true, true) } := by
  obtain ⟨c, d, hf⟩ := s.start_feed
  obtain ⟨c', ho⟩ := s.enterPath_out
  exact ⟨d, Part.watch_eq hf (s.start_out.trans ho) (s.enterPath_via.episode_eq rfl)⟩

theorem Part.abandonSweep_watch (s : Part) (bar : Bool) : (s.abandonSweep bar).watch =
    { s.watch with path := .held, sweepTimer := none, drives := (false, false, false, false) } := by
  unfold Part.abandonSweep
  rw [Part.setPath_watch]
  rfl

theorem Part.startSweep_watch (s : Part) (hd : s.dry.on = false) : ∃ d, s.startSweep.watch =
    { s.watch with path := .sweeping, sweepTimer := some d, drives := (true, true, true, true) } := by
  have e := s.setPath_watch .sweeping
  rw [s.startSweep_eq hd]
  generalize s.setPath .sweeping = p at e ⊢
  refine ⟨plusTicks s.tick ((s.force.drive.map DriveSet.sweep).getD 0), ?_⟩
  have swept : ((((p.modOut fun o => { o with presented := s.force.slowest }).runDrives).modEpisode fun e =>
      { e with sweepTimer := some (plusTicks s.tick ((s.force.drive.map DriveSet.sweep).getD 0)) })).watch =
      { p.watch with sweepTimer := some (plusTicks s.tick ((s.force.drive.map DriveSet.sweep).getD 0))
                     drives := (true, true, true, true) } := rfl
  rw [swept, e]

theorem Part.planBuild_watch (s : Part) : s.planBuild.watch =
    { s.watch with path := .resumable, sweepTimer := none, drives := (false, false, false, false) } :=
  Part.watch_eq s.planBuild_feed s.planBuild_out s.planBuild_episode

theorem Part.closeEpisode_watch (s : Part) : s.closeEpisode.watch = { s.watch with isOpen := false } := rfl

theorem Part.discardCoreAll_watch (s : Part) : s.discardCoreAll.watch =
    { s.watch with
      pickTimer := none, holdoff := none, ramp := none, runOn := none, hold := false, setEnd := false
      drives := (false, false, false, false), clutch := .replicate 5 false, sweepTimer := none } :=
  Part.watch_eq s.discardCoreAll_feed s.discardCoreAll_out s.discardCoreAll_episode

theorem Part.sheets_nil_or (s : Part) : s.table.sheets.isEmpty = true ↔ s.table.sheets = [] := List.isEmpty_iff

/-- A clutch moves in a path state without an episode, or comes to rest. -/
theorem Watch.sound.clutch_set (h : w.sound a bare) (x : Fin 5) {v : Bool} (hv : v = true → w.path = .running ∨ w.path = .draining) :
    ({ w with clutch := w.clutch.set x v } : Watch).sound a bare := by
  refine ⟨h.drives, h.episode, h.hold, fun ha (ho : w.isOpen = true) => ?_, h.pick, h.holdoff, h.ramp, h.runOn, h.runsOn, h.sweep, h.empty,
    h.resuming, h.resetting⟩
  have rest : v = false := by
    by_contra hn
    have hi : a ≠ .resuming := fun k => absurd ((h.resuming k).2 ▸ ho) Bool.false_ne_true
    have := h.episode ha hi
    rcases hv (by simpa using hn) with e | e <;> simp [e, ho, PathState.inEpisode] at this
  dsimp only
  rw [h.clutch ha ho, rest]
  ext i
  simp

/-- A sheet is picked in RUNNING (R61). -/
theorem Part.pickCore_watchSound {s : Part} (h : s.watch.sound .settled bare) (hp : s.feed.path = .running) (n : NextPage) :
    (s.pickCore n).watch.sound .settled bare' := by
  rw [Part.pickCore_watch, Watch.sound_iff]
  rw [Watch.sound_iff] at h
  have path : s.watch.path = .running := hp
  simp_all [PathState.enables, PathState.allDrives, PathState.inEpisode]

/-- The plan is built in an episode (R136 to R139). -/
theorem Part.planBuild_watchSound {s : Part} (h : s.watch.sound .settled bare) (hp : s.feed.path = .held ∨ s.feed.path = .sweeping) :
    ((s.setPath .sweeping).planBuild).watch.sound .settled bare' := by
  rw [Part.planBuild_watch, Part.setPath_watch]
  exact Watch.sound.still (w := s.watch) h (by rcases hp with e | e <;> exact congrArg PathState.inEpisode e) (.inr rfl) rfl

/-- PATH RESET has discarded (R181). -/
theorem Part.discardCoreAll_watchSound {s : Part} (hb : bare') : s.discardCoreAll.watch.sound .resetting bare' := by
  rw [Part.discardCoreAll_watch]
  constructor <;> simp_all

theorem Move.watchSound {q : Mode} {A : List Block} {s t : Part} (m : Move q A a s b t)
    (h : s.watch.sound a (s.table.sheets = [])) : t.watch.sound b (t.table.sheets = []) := by
  rcases m.numbers with same | ⟨n, rfl, rfl, hp, rfl⟩ | ⟨x, st, rfl, rfl, rfl⟩ | ⟨rfl, rfl, hp, rfl⟩ | ⟨rfl, rfl⟩
  case inr.inl => exact Part.pickCore_watchSound h hp n
  case inr.inr.inl =>
    refine Watch.sound.thin (bare := s.table.sheets = []) ?_ fun e => ?_
    · rw [Part.watch_eq ((s.deliverCore_via x st).feed_eq rfl) ((s.deliverCore_via x st).out_eq rfl)
        ((s.deliverCore_via x st).episode_eq rfl)]
      exact h.phase rfl ⟨nofun, nofun⟩
    · have thins : s.Thins (s.deliverCore x st) := .trans (.of_table ((Part.deliverTo_via ..).table_eq rfl)) (Part.thins_removeSheet ..)
      exact thins.nil e
  case inr.inr.inr.inl => exact Part.planBuild_watchSound h hp
  case inr.inr.inr.inr => exact Part.discardCoreAll_watchSound (by rw [s.discardCoreAll_table]; rfl)
  refine Watch.sound_bare ?_ (Part.sheets_nil_iff same).symm
  have bareIff := s.sheets_nil_or
  generalize (s.table.sheets = []) = bare at h bareIff
  have keep : t.watch = s.watch → a = b → t.watch.sound b bare := fun e k => e ▸ k ▸ h
  cases hA : hasBlock A .feed || hasBlock A .out || hasBlock A .episode with
  | false =>
    rw [m.watch_of_blocks hA]
    rcases m.phase_kept hA with rfl | ⟨ha, hb⟩
    · exact h
    · exact h.phase ha hb
  | true =>
    cases m with
    | judgeTrayEmpty | judgeBinFull | judgeDoor | reserve | unreserve => exact keep rfl rfl
    | record | overflow | staple | eject | abort | stapleFails | ejectFails => exact keep rfl rfl
    | strand p => exact keep (s.strand_watch p) rfl
    | feed g hg => exact keep (Watch.of_feedCore (hg _) _ _) rfl
    | gates g hg => exact keep (Watch.of_outputsCore (hg _) _ _) rfl
    | episode g hg => exact keep (Watch.of_episodeCore (hg _) _ _) rfl
    | ejected => exact keep s.completeEject_watch rfl
    | stapled => exact keep s.stapled_watch rfl
    | abandon job i => exact keep (s.abandonCore_watch job i) rfl
    | define g hg hd =>
      rw [Part.setPath_watch]
      exact Watch.sound.define (w := s.watch) h (Part.definable_cases hd)
    | hold g hg hp =>
      have closed : s.watch.isOpen = false := (h.episode nofun nofun).trans hp
      have e : (s.modFeed g).watch = { s.watch with hold := (g s.feed).hold, setEnd := (g s.feed).setEnd } := by
        have core : ∀ f k : Feed, ({ f with hold := false, setEnd := false } : Feed) = { k with hold := false, setEnd := false } →
            Watch.of f s.out s.episode = { Watch.of k s.out s.episode with hold := f.hold, setEnd := f.setEnd } := by
          intro f k e
          cases f
          cases k
          simp_all [Watch.of]
        exact core _ _ (hg s.feed)
      rw [e]
      exact h.loose closed _ _ s.watch.clutch
    | pickTimer v hv => exact h.timers (x := v) (fun k => ⟨hv k, nofun⟩) h.holdoff
    | holdoff g hg =>
      refine h.timers (y := g s.feed.holdoff) h.pick fun k => ⟨?_, nofun⟩
      rcases hg with e | e
      · rw [e] at k
        cases k
      · exact e
    | dropRamp hp =>
      have e : s.watch.ramp = none := ((Watch.sound_iff.mp h).2.2.2.2.1).mp hp
      have same : (s.modFeed fun f => { f with ramp := none }).watch = s.watch := by
        show ({ s.watch with ramp := none } : Watch) = s.watch
        rw [← e]
      exact keep same rfl
    | dropRunOn hp =>
      have e : s.watch.runOn = none := ((Watch.sound_iff.mp h).2.2.2.2.2.1).mp fun k => hp k.1
      have same : (s.modFeed fun f => { f with runOn := none }).watch = s.watch := by
        show ({ s.watch with runOn := none } : Watch) = s.watch
        rw [← e]
      exact keep same rfl
    | dropSweep hp =>
      have e : s.watch.sweepTimer = none := ((Watch.sound_iff.mp h).2.2.2.2.2.2.1).mp hp
      have same : (s.modEpisode fun e => { e with sweepTimer := none }).watch = s.watch := by
        show ({ s.watch with sweepTimer := none } : Watch) = s.watch
        rw [← e]
      exact keep same rfl
    | ramped hp =>
      rw [Part.setPath_watch]
      exact Watch.sound.ramped (w := s.watch) h hp
    | drain hp =>
      rw [Part.enterDraining_watch]
      refine Watch.sound.drain (w := s.watch) h hp ?_
      have e : s.feed.runOn = none := ((Watch.sound_iff.mp h).2.2.2.2.2.1).mp fun k => nomatch hp.symm.trans k.1
      split
      · next k => exact ⟨fun _ => bareIff.mp k, fun _ => rfl⟩
      · next k => exact ⟨fun n => by simp [e] at n, fun n => absurd (bareIff.mpr n) k⟩
    | goBack hp =>
      rw [Part.returnToRunning_watch]
      exact Watch.sound.goBack (w := s.watch) h hp
    | runOnDone hp hr =>
      rw [Part.enterIdle_watch]
      exact Watch.sound.toIdle (w := s.watch) h (.inl ⟨hp, hr⟩)
    | closed hp =>
      rw [Part.enterIdle_watch]
      exact Watch.sound.toIdle (w := s.watch) h (.inr hp)
    | start hp =>
      obtain ⟨d, e⟩ := s.start_watch
      rw [e]
      exact Watch.sound.start (w := s.watch) h hp d
    | startJammed st hp => exact Part.openCore_watch _ _ _ ⟨nofun, nofun⟩
    | armRunOn =>
      rw [Part.armRunOn_watch]
      exact Watch.sound.armRunOn (w := s.watch) h bareIff _
    | pick n hp => exact Part.pickCore_watchSound h hp n
    | clutch u v hv => exact Watch.sound.clutch_set (w := s.watch) h u hv
    | openEpisode j x hp =>
      refine Part.openCore_watch _ _ _ ?_
      rcases hp with ⟨ha, rfl⟩ | ⟨-, rfl⟩
      · exact Phase.calm_ne ha
      · exact ⟨nofun, nofun⟩
    | halted ha hp hn =>
      have calm := h.phase (b := .settled) ha ⟨nofun, nofun⟩
      rw [Part.setPath_watch, Part.stopDrives_watch]
      refine (calm.still (p := .held) (congrArg PathState.inEpisode hp) (.inl rfl) ?_).phase rfl (Phase.calm_ne ha)
      exact ((Watch.sound_iff.mp calm).2.2.2.2.2.2.1).mp fun k => nomatch hp.symm.trans k
    | abandonSweep bar ha hp =>
      have calm := h.phase (b := .settled) ha ⟨nofun, nofun⟩
      rw [Part.abandonSweep_watch]
      exact (calm.still (p := .held) (congrArg PathState.inEpisode hp) (.inl rfl) rfl).phase rfl (Phase.calm_ne ha)
    | startSweep hp hd =>
      obtain ⟨d, e⟩ := s.startSweep_watch hd
      rw [e]
      exact Watch.sound.startSweep (w := s.watch) h hp d
    | planBuild hp => exact Part.planBuild_watchSound h hp
    | reheld hp =>
      obtain ⟨drives, -, -, -, -, -, sweep, -⟩ := Watch.sound_iff.mp h
      have rest : s.watch.drives = (false, false, false, false) := drives.trans (congrArg PathState.enables hp)
      rw [Part.setPath_watch]
      have held := Watch.sound.still (w := s.watch) (bare' := bare) h (p := .held) (congrArg PathState.inEpisode hp) (.inl rfl)
        (sweep.mp fun k => nomatch hp.symm.trans k)
      rwa [← rest] at held
    | resume hp => exact Watch.sound.resume (w := s.watch) h hp
    | discardAll =>
      refine Part.discardCoreAll_watchSound (bareIff.mp ?_)
      have none_ : s.discardCoreAll.numbers = [] := by rw [Part.numbers, s.discardCoreAll_table]; rfl
      exact List.isEmpty_iff.mpr (List.map_eq_nil_iff.mp (same.symm.trans none_))
    | resetIdle =>
      rw [Part.enterIdle_watch]
      exact Watch.sound.resetIdle (w := s.watch) h
    | _ => cases hA

/-- Settles O50: what is watched of the path is sound phase by phase, and right after a reset. -/
theorem pathStateKept : Obligations.PathStateKept :=
  keptByEveryStep_of_moves (fun a p => p.watch.sound a (p.table.sheets = [])) (fun s => s.pathSound_iff.mp)
    (fun s => s.pathSound_iff.mpr)
    (fun rate pin => by
      rw [Part.pathSound_iff, Watch.sound_iff]
      exact ⟨rfl, rfl, nofun, fun _ => ⟨rfl, rfl⟩, ⟨fun _ => rfl, fun _ => nofun⟩, ⟨fun _ => rfl, fun _ k => nomatch k.1⟩,
        ⟨fun _ => rfl, fun _ => nofun⟩, fun _ => rfl⟩)
    fun m h => m.watchSound h

end Sys2Proof.Machine
end

