-- ==== Sys2Proof/Proofs/KeptLink.lean ====
section
/-! PROOF. What a string of moves leaves alone without leave for it, and the pairing of the receive queue and the replies (R176). -/

namespace Sys2Proof.Machine

variable {q : Mode} {A : List Block} {a b : Phase} {s t : Part}

/-! ## What needs leave -/

theorem Move.tick_eq (m : Move q A a s b t) (h : q.tick = false) : t.tick = s.tick := by
  cases hA : hasBlock A .tick with
  | false => exact m.via.tick_eq hA
  | true =>
    cases m with
    | tick g hq => simp [h] at hq
    | _ => cases hA

theorem Move.lines_eq (m : Move q A a s b t) (h : q.lines = false) (hf : q.force = false) : t.lines = s.lines := by
  cases hA : hasBlock A .lines with
  | false => exact m.via.lines_eq hA
  | true =>
    cases m with
    | lines g hq => simp [h] at hq
    | putInForce _ _ hq => simp [hf] at hq
    | _ => cases hA

theorem Move.link_eq (m : Move q A a s b t) (h : q.link = false) : t.link = s.link := by
  cases hA : hasBlock A .link with
  | false => exact m.via.link_eq hA
  | true =>
    cases m with
    | link g _ _ hq => simp [h] at hq
    | anyLink g _ _ _ hq => simp [h] at hq
    | discard hq => simp [h] at hq
    | _ => cases hA

theorem Move.mask_eq (m : Move q A a s b t) (h : q.mask = false) : t.mask = s.mask := by
  cases hA : hasBlock A .mask with
  | false => exact m.via.mask_eq hA
  | true =>
    cases m with
    | mask k _ hq => simp [h] at hq
    | _ => cases hA

theorem Move.stored_eq (m : Move q A a s b t) (h : q.define = false) : t.stored = s.stored := by
  cases hA : hasBlock A .stored with
  | false => exact m.via.stored_eq hA
  | true =>
    cases m with
    | define _ _ _ hq => simp [h] at hq
    | _ => cases hA

theorem Move.force_eq (m : Move q A a s b t) (h : q.force = false) : t.force = s.force := by
  cases hA : hasBlock A .force with
  | false => exact m.via.force_eq hA
  | true =>
    cases m with
    | putInForce _ _ hq => simp [h] at hq
    | _ => cases hA

/-- What every move keeps equal, a string of moves does. -/
theorem Moves.eq_of {α : Type} (f : Part → α) (hf : ∀ {A a s b t}, Move q A a s b t → f t = f s) (h : Moves q a s b t) : f t = f s := by
  induction h with
  | refl => rfl
  | snoc _ m ih => exact (hf m).trans ih

theorem Moves.link_eq (h : Moves q a s b t) (hq : q.link = false) : t.link = s.link := h.eq_of Part.link fun m => m.link_eq hq

/-- The leave of an owner that answers a request, and of what happens in an event: neither the tick, the lines, the Link Unit, the
descriptions nor the mask is theirs to move. -/
def Mode.inner : Mode :=
  { Mode.free with
    doors := false, tick := false, lines := false, link := false, queue := false, mask := false, define := false, force := false }

/-- What stands through it. -/
theorem Moves.inner_eq (h : Moves .inner a s b t) :
    t.tick = s.tick ∧ t.lines = s.lines ∧ t.link = s.link ∧ t.stored = s.stored ∧ t.force = s.force ∧ t.mask = s.mask :=
  ⟨h.eq_of Part.tick fun m => m.tick_eq rfl, h.eq_of Part.lines fun m => m.lines_eq rfl rfl, h.link_eq rfl,
    h.eq_of Part.stored fun m => m.stored_eq rfl, h.eq_of Part.force fun m => m.force_eq rfl, h.eq_of Part.mask fun m => m.mask_eq rfl⟩

/-! ## The transmitter (R177) -/

/-- Leave for everything but the Link Unit. -/
def Mode.offLink : Mode := { Mode.free with link := false }

/-- The transmitter's turn: nothing, a reply started, or without one a notice. -/
theorem Part.conclude_link (s : Part) : s.conclude.link = s.link ∨
    s.link.sending = none ∧ (∃ f rest, s.link.replies = f :: rest ∧
      s.conclude.link = { s.link with sending := some ⟨f, true⟩, replies := rest }) ∨
    s.link.sending = none ∧ s.link.replies = [] ∧ ∃ f, s.conclude.link = { s.link with sending := some ⟨f, false⟩ } := by
  cases hs : s.link.sending with
  | some x =>
    rw [s.conclude_sending (by rw [hs]; rfl)]
    exact .inl rfl
  | none =>
    unfold Part.conclude
    rw [if_neg (by simp [hs])]
    split
    · exact .inl rfl
    · next c hc =>
      rcases s.select_cases hc with ⟨f, rest, hr, rfl⟩ | ⟨hr, f, hf, hc⟩
      · exact .inr (.inl ⟨rfl, f, rest, hr, rfl⟩)
      · obtain ⟨m, reply⟩ := s.selectors_tell (q := .offLink) rfl hs hf hc
        refine .inr (.inr ⟨rfl, hr, c.frame, ?_⟩)
        rw [Part.modLink_link, m.link_eq rfl, reply]

/-! ## Frames and replies paired (R176) -/

theorem Link.paired_of_eq {l m : Link} (h : l.paired) (hs : m.sending = l.sending) (hr : m.replies = l.replies)
    (hq : m.rxQueue = l.rxQueue) : m.paired := by
  unfold Link.paired at *
  rwa [hs, hr, hq]

theorem Part.conclude_paired {s : Part} (h : s.link.paired) : s.conclude.link.paired := by
  rcases s.conclude_link with e | ⟨hs, f, rest, hr, e⟩ | ⟨hs, hr, f, e⟩
  · rwa [e]
  · rw [e]
    unfold Link.paired at *
    simpa [hs, hr, Option.filter_some] using h
  · rw [e]
    unfold Link.paired at *
    simpa [hs, hr, Option.filter_some] using h

theorem Part.discardFrame_paired {s : Part} (h : s.link.paired) : s.discardFrame.link.paired := by
  have e : s.discardFrame.link = s.discardCore.link := by
    rw [Part.discardFrame_eq, (Part.countPath_via ..).link_eq rfl]
  rw [e]
  exact Link.paired_of_eq h rfl rfl rfl

theorem Part.acceptFrame_paired {s : Part} (h : s.link.paired) (kind : Byte) (body : List Byte) (owner : Part → Answer)
    (ho : ∀ r, (owner r).part.link = r.link) : (s.acceptFrame kind body owner).link.paired := by
  unfold Part.acceptFrame
  split
  · exact Part.discardFrame_paired h
  · next hf =>
    have room : s.link.rxQueue.length < 4 := by
      have := mt (decide_eq_true (p := 4 ≤ s.link.rxQueue.length)) hf
      omega
    obtain ⟨hp, -⟩ := h
    rw [Part.reply, Part.modLink_link, ho]
    refine ⟨?_, by simp [Part.enqueue]; omega⟩
    simp only [Part.enqueue, Part.modLink_link, List.map_append, List.map_cons, List.map_nil, ← List.append_assoc, hp]

/-- An event that leaves the pairing alone keeps it to its end. -/
theorem Part.event_paired {s : Part} {t : Tick} {g : Part → Part} (h : s.link.paired)
    (hg : ∀ {r : Part}, r.link.paired → (g r).link.paired) : (s.event t g).link.paired :=
  Part.conclude_paired (hg (r := s.advance t) h)

theorem Part.gapDiscard_paired {s : Part} (h : s.link.paired) : s.gapDiscard.link.paired := by
  unfold Part.gapDiscard
  split
  · exact h
  · exact Part.conclude_paired (Part.discardFrame_paired h)

theorem Part.takeByte_paired {s : Part} (h : s.link.paired) (t : Tick) (x : RxByte) : (s.takeByte t x).link.paired := by
  have gap : (s.gapBefore t).link.paired := by
    unfold Part.gapBefore
    split
    · exact h
    · split
      · exact Part.gapDiscard_paired h
      · exact h
  rcases s.takeByte_cases t x with ⟨r, -, e⟩ | ⟨-, e⟩ | ⟨f, -, e⟩ <;> rw [e]
  · exact Link.paired_of_eq gap rfl rfl rfl
  · exact Part.event_paired gap Part.discardFrame_paired
  · exact Part.event_paired gap fun h =>
      Part.acceptFrame_paired h _ _ _ fun r => (answerFrame_moves (q := .offLink) r rfl f).link_eq rfl

theorem Part.takeBytes_paired {s : Part} (h : s.link.paired) (t : Tick) (rx : List RxByte) : (s.takeBytes t rx).link.paired := by
  induction rx generalizing s t with
  | nil => exact h
  | cons x rest ih => exact ih (Part.takeByte_paired h _ x) _

theorem Part.sent_paired {s : Part} (h : s.link.paired) : s.sent.link.paired := by
  unfold Part.sent
  split
  · exact h
  · next x hx =>
    obtain ⟨hp, hl⟩ := h
    rw [hx] at hp
    unfold Link.paired
    simp only [Part.modLink_link]
    cases hr : x.reply with
    | false => exact ⟨by simpa [hr, Option.filter_some] using hp, by simpa using hl⟩
    | true =>
      cases hq : s.link.rxQueue with
      | nil => simp_all
      | cons f rest =>
        simp only [hq, hr, List.length_cons, Option.filter_some, if_true, Option.map_some, Option.toList_some, List.singleton_append,
          List.map_cons, List.cons.injEq] at hp hl
        simp only [Option.filter_none, Option.map_none, Option.toList_none, List.nil_append, hp.2, if_true, List.drop_succ_cons,
          List.drop_zero]
        exact ⟨trivial, by omega⟩

theorem Part.concludes.paired {s t : Part} (h : s.concludes t .offLink) (hs : s.link.paired) : t.link.paired := by
  rcases h with rfl | ⟨u, m, rfl⟩
  · exact hs
  · exact Part.conclude_paired (m.link_eq rfl ▸ hs)

theorem Part.Ends.paired {s t : Part} (h : s.Ends .offLink t) (hs : s.link.paired) : t.link.paired := by
  cases h with
  | concludes h => exact h.paired hs
  | request t kind body owner _ ho =>
    exact Part.event_paired (Part.gapDiscard_paired hs) fun h => Part.acceptFrame_paired h kind body owner fun r => (ho r).link_eq rfl
  | bytes t rx => exact Part.takeBytes_paired hs t rx
  | gap t rx => exact Part.gapDiscard_paired (Part.takeBytes_paired hs t rx)
  | sent t => exact Part.conclude_paired (Part.sent_paired hs)
  | faultEnds =>
    unfold Part.expiry
    split
    · exact hs
    · exact Part.conclude_paired (Link.paired_of_eq hs rfl rfl rfl)

/-- Without the Link Unit's leave every command but HARDWARE_RESET runs. -/
theorem Mode.offLink_runs (p : Part) {c : Instr} (h : ∀ t b, c ≠ .hardwareReset t b) : Mode.offLink.runs p c := by
  cases c with
  | hardwareReset t b => exact absurd rfl (h t b)
  | _ => simp [Mode.runs, Mode.offLink, Mode.free]

/-- Settles O47: a frame joins the queue as its reply joins the replies, and leaves it as that reply has been sent. -/
theorem linkPairingKept : Obligations.LinkPairingKept := by
  rintro ⟨w, p⟩ t hp e
  cases w with
  | nil =>
    cases e
    exact (p.pathTick_concludes (q := .offLink) ⟨rfl, rfl, rfl, rfl, rfl, rfl⟩).paired hp
  | cons c rest =>
    by_cases hc : ∃ a b, c = .hardwareReset a b
    · obtain ⟨a, b, rfl⟩ := hc
      cases e
      exact ⟨rfl, Nat.zero_le _⟩
    · obtain ⟨p', ep, ends⟩ := exec_ends (q := .offLink) rfl c rest p
        (Mode.offLink_runs p fun a b h => hc ⟨a, b, h⟩)
      have : Host.Outcome.next ⟨rest, p'⟩ = (.next t : Host.Outcome State Fault Refusal) := ep.symm.trans e
      cases this
      exact ends.paired hp

end Sys2Proof.Machine
end

