-- ==== Sys2Proof/Proofs/KeptOwned.lean ====
section
/-! PROOF. What only certain commands, or the path tick, may change: each is read off the leave that the moves of the other steps
lack. -/

namespace Sys2Proof.Machine

variable {q : Mode} {A : List Block} {a b : Phase} {s t : Part}

/-! ## What needs leave -/

theorem Move.rate_eq (m : Move q A a s b t) : t.link.rate = s.link.rate := by
  cases hA : hasBlock A .link with
  | false => exact congrArg Link.rate (m.via.link_eq hA)
  | true =>
    cases m with
    | link g h => exact (h s.link).2.2
    | anyLink g h => exact h s.link
    | discard => rfl
    | _ => cases hA

theorem Move.rxQueue_eq (m : Move q A a s b t) (hq : q.queue = false) : t.link.rxQueue = s.link.rxQueue := by
  cases hA : hasBlock A .link with
  | false => exact congrArg Link.rxQueue (m.via.link_eq hA)
  | true =>
    cases m with
    | link g _ hk => exact hk.resolve_left (by simp [hq]) s.link
    | anyLink g _ hk => exact hk.resolve_left (by simp [hq]) s.link
    | discard => rfl
    | _ => cases hA

theorem Move.run_eq (m : Move q A a s b t) (hq : q.dryRun = false) : t.dry.run = s.dry.run :=
  m.dryRun_eq.resolve_right (by simp [hq])

theorem Move.purgeCount_eq (m : Move q A a s b t) (hd : q.deliver = false) (he : q.empty = false) :
    t.gate.purgeCount = s.gate.purgeCount :=
  m.purgeCount.resolve_right (by simp [hd, he])

/-- In dry run a delivery leaves the purge count (R169). -/
theorem Move.purgeCount_dry (m : Move q A a s b t) (he : q.empty = false) (hd : s.dry.on = true) :
    t.gate.purgeCount = s.gate.purgeCount := by
  rcases m.purgeCount with e | ⟨h, -⟩ | ⟨-, x, st, -, -, rfl⟩
  · exact e
  · simp [he] at h
  · have e : (s.deliverCore x st).gate.purgeCount = _ :=
      (congrArg Gate.purgeCount ((Part.removeSheet_via ..).gate_eq rfl)).trans (s.deliverTo_purgeCount x (s.force.roleOf st))
    rw [e, if_neg (by simp [hd])]

theorem Moves.purgeCount_dry (h : Moves q a s b t) (hq : q.dryRun = false) (he : q.empty = false) (hd : s.dry.on = true) :
    t.gate.purgeCount = s.gate.purgeCount := by
  suffices t.gate.purgeCount = s.gate.purgeCount ∧ t.dry.on = true from this.1
  induction h with
  | refl => exact ⟨rfl, hd⟩
  | snoc _ m ih => exact ⟨(m.purgeCount_dry he ih.2).trans ih.1, (Dry.run_on (m.run_eq hq)).trans ih.2⟩

theorem Move.learnsNothing (m : Move q A a s b t) (hl : q.learn = false) (hf : q.force = false) : s.LearnsNothing t :=
  m.learned.resolve_right (by simp [hl, hf])

theorem Move.nextSheet_le (m : Move q A a s b t) : s.feed.nextSheet ≤ t.feed.nextSheet := by
  rcases m.numbering with e | ⟨n, rfl⟩
  · exact (congrArg Prod.fst e).ge
  · obtain ⟨_, e⟩ := s.pickCore_feed n
    rw [e]
    exact Nat.le_succ _

/-! ## Counters (R161) -/

/-- No counter of `y` is below that of `x`. -/
def Stats.atMost (x y : Stats) : Prop :=
  (∀ i : Fin 10, x.path[i] ≤ y.path[i]) ∧ (∀ (st : Fin 24) (i : Fin 3), (x.station[st])[i] ≤ (y.station[st])[i]) ∧
    ∀ (u : Fin 5) (i : Fin 3), (x.tray[u])[i] ≤ (y.tray[u])[i]

theorem Stats.atMost.refl (x : Stats) : x.atMost x := ⟨fun _ => le_rfl, fun _ _ => le_rfl, fun _ _ => le_rfl⟩

theorem Stats.atMost.trans {x y z : Stats} (h : x.atMost y) (k : y.atMost z) : x.atMost z :=
  ⟨fun i => (h.1 i).trans (k.1 i), fun st i => (h.2.1 st i).trans (k.2.1 st i), fun u i => (h.2.2 u i).trans (k.2.2 u i)⟩

theorem le_raised (w : Width) (c : Nat) : c ≤ raised w c := by
  unfold raised
  split <;> omega

theorem le_set_raised {n : Nat} (v : Vector Nat n) (w : Width) (c i : Fin n) : v[i] ≤ (v.set c (raised w v[c]))[i] := by
  simp only [Fin.getElem_fin, Vector.getElem_set]
  split
  · next e => exact Fin.ext e ▸ le_raised ..
  · exact le_rfl

theorem le_set_set_raised {n k : Nat} (v : Vector (Vector Nat k) n) (w : Width) (r j : Fin n) (c i : Fin k) :
    (v[j])[i] ≤ ((v.set r ((v[r]).set c (raised w (v[r])[c])))[j])[i] := by
  by_cases e : r = j
  · subst e
    simpa using le_set_raised v[r] w c i
  · simp [Fin.val_ne_of_ne e]

theorem Stats.atMost_judged (x : Stats) (g : Group) : x.atMost (x.judged g) := by
  cases g <;> exact Stats.atMost.refl x

theorem Part.atMost_judgeWatermark (s : Part) (g : Group) (r c : Nat) : s.stats.atMost (s.judgeWatermark g r c).stats := by
  rw [Part.judgeWatermark_stats]
  exact s.stats.atMost_judged g

theorem Part.atMost_countStation (s : Part) (st : Fin 24) (c : Fin 3) : s.stats.atMost (s.countStation st c).stats := by
  unfold Part.countStation
  refine .trans ?_ (Part.atMost_judgeWatermark ..)
  rw [Part.modStats_stats]
  exact ⟨fun _ => le_rfl, fun j i => le_set_set_raised _ _ st j c i, fun _ _ => le_rfl⟩

theorem Part.atMost_countTray (s : Part) (u : Fin 5) (c : Fin 3) : s.stats.atMost (s.countTray u c).stats := by
  unfold Part.countTray
  refine .trans ?_ (Part.atMost_judgeWatermark ..)
  rw [Part.modStats_stats]
  exact ⟨fun _ => le_rfl, fun _ _ => le_rfl, fun j i => le_set_set_raised _ _ u j c i⟩

theorem Part.atMost_countPath (s : Part) (c : Fin 10) : s.stats.atMost (s.countPath c).stats := by
  unfold Part.countPath
  refine .trans ?_ (Part.atMost_judgeWatermark ..)
  rw [Part.modStats_stats]
  exact ⟨fun i => le_set_raised _ _ c i, fun _ _ => le_rfl, fun _ _ => le_rfl⟩

/-- A change that leaves the Statistics Unit alone lowers no counter. -/
theorem Via.atMost (v : Via A s t) (hA : hasBlock A .stats = false) : s.stats.atMost t.stats :=
  v.stats_eq hA ▸ Stats.atMost.refl _

theorem Part.atMost_deliverTo (s : Part) (x : Sheet) (r : Option Role) : s.stats.atMost (s.deliverTo x r).stats := by
  unfold Part.deliverTo
  split
  · exact ((Part.deliverPages_via ..).atMost rfl).trans (Part.atMost_countPath ..)
  · exact ((Part.deliverPages_via ..).atMost rfl).trans (Part.atMost_countPath ..)
  · exact (Part.handOver_via ..).atMost rfl
  · refine Stats.atMost.trans ?_ (Part.atMost_countPath _ 3)
    split
    · exact .refl _
    · exact ((Via.gate (.refl s) _ rfl).andThen (Part.judgePurgeFull_via _) rfl :
        Via [.notices, .gate] s _).atMost rfl
  · exact .refl _

theorem Part.atMost_endFinal (s : Part) : s.stats.atMost s.endFinal.stats := by
  unfold Part.endFinal
  dsimp only
  rw [Part.modFinisher_stats, apply_ite Part.stats, Part.modNotices_stats, ite_self]
  split
  · exact .refl _
  · exact s.atMost_countPath 8

theorem Part.atMost_completeEject (s : Part) : s.stats.atMost s.completeEject.stats := by
  have pages := ((((Via.out (.refl s) (fun o => { o with ejector := false }) rfl).finisher
    (fun f => { f with ejectLimit := none }) rfl).dry (fun d => { d with home := none }) rfl).andThen
    (Part.deliverPages_via _ (s.finisher.ident.getD (0, 0)).1 (s.finisher.sheets.flatMap Held.pages)) rfl :
    Via [.notices, .intake, .out, .finisher, .dry] s _).atMost rfl
  unfold Part.completeEject
  dsimp only
  split
  · exact pages
  · exact pages.trans (Part.atMost_endFinal _)

/-- Only with leave to clear is a counter lowered. -/
theorem Move.atMost (m : Move q A a s b t) (hq : q.clear = false) : s.stats.atMost t.stats := by
  cases hA : hasBlock A .stats with
  | false => exact m.via.atMost hA
  | true =>
    cases m with
    | countStation st c => exact s.atMost_countStation st c
    | countTray u c => exact s.atMost_countTray u c
    | countPath c => exact s.atMost_countPath c
    | clearCounters _ _ _ h => simp [hq] at h
    | setWidth _ _ _ h => simp [hq] at h
    | startJammed st =>
      exact ((s.enterPath_via.atMost rfl).trans (Part.atMost_countStation _ st 2)).trans ((Part.openCore_via ..).atMost rfl)
    | deliver => exact (s.atMost_deliverTo _ _).trans ((Part.removeSheet_via ..).atMost rfl)
    | stapled =>
      exact (Part.atMost_countPath (((s.modOut fun o => { o with stapler := false }).modFinisher fun f =>
        { f with stapleLimit := none, stapled := true }).modDry fun d => { d with home := none }) 7).trans ((Part.eject_via ..).atMost rfl)
    | ejected => exact s.atMost_completeEject
    | _ => cases hA

theorem Moves.atMost (h : Moves q a s b t) (hq : q.clear = false) : s.stats.atMost t.stats := by
  induction h with
  | refl => exact .refl _
  | snoc _ m ih => exact ih.trans (m.atMost hq)

/-! ## What a command asks leave for -/

/-- The front command is neither HARDWARE_RESET nor bytes of the line. -/
def plainFront (w : List Instr) : Prop :=
  (∀ a b, w.head? ≠ some (.hardwareReset a b)) ∧
    ∀ u b, w.head? ≠ some (.frameDiscard u b) ∧ w.head? ≠ some (.byteGapTimeout u b)

/-- The front command is a request of a kind `ok`. -/
def askedFor (w : List Instr) (ok : Byte → Prop) : Prop := ∃ c ∈ w.head?, ∃ u kind b, c.request? = some (u, kind, b) ∧ ok kind

section

variable {w : List Instr} {p : Part} {t : State} (hw : plainFront w) (e : step ⟨w, p⟩ = .next t)

include hw e

/-- A step's moves in a mode that gives leave for the front command. -/
theorem plain_moves (q : Mode) (hq : q.tick = true ∧ q.link = true ∧ q.withdraw = true) (hn : w = [] → q.ticks)
    (hc : ∀ c ∈ w.head?, (∀ a b, c ≠ .hardwareReset a b) → (∀ u b, c ≠ .frameDiscard u b ∧ c ≠ .byteGapTimeout u b) → q.runs p c) :
    Moves q .settled p .settled t.part :=
  step_moves hq.1 hq.2.1 hn
    (fun c h => hc c h (fun a b k => hw.1 a b (k ▸ h)) fun u b => ⟨fun k => (hw.2 u b).1 (k ▸ h), fun k => (hw.2 u b).2 (k ▸ h)⟩)
    (.inl hq.2.2) e

theorem force_eq_of_step (hn : ¬ askedFor w (· = 0x0A)) : t.part.force = p.force := by
  refine (plain_moves hw e { Mode.free with force := false } ⟨rfl, rfl, rfl⟩ (fun _ => ⟨rfl, rfl, rfl, rfl, rfl, rfl⟩) ?_).eq_of Part.force
    fun m => m.force_eq rfl
  intro c hc hr hb
  cases c with
  | pathClose u b => exact (hn ⟨_, hc, u, _, b, rfl, rfl⟩).elim
  | hardwareReset a b => exact (hr a b rfl).elim
  | frameDiscard u b => exact ((hb u b).1 rfl).elim
  | byteGapTimeout u b => exact ((hb u b).2 rfl).elim
  | _ => simp [Mode.runs, Mode.free]

theorem stored_eq_of_step (hn : ¬ askedFor w fun kind => inRange 1 8 kind.toNat) : t.part.stored = p.stored := by
  refine (plain_moves hw e { Mode.free with define := false } ⟨rfl, rfl, rfl⟩ (fun _ => ⟨rfl, rfl, rfl, rfl, rfl, rfl⟩) ?_).eq_of Part.stored
    fun m => m.stored_eq rfl
  intro c hc hr hb
  cases c with
  | stationDef u b | legDef u b | driveDef u b | trayDef u b | doorDef u b | timingDef u b | finisherDef u b | lineDef u b =>
    exact (hn ⟨_, hc, u, _, b, rfl, by decide⟩).elim
  | hardwareReset a b => exact (hr a b rfl).elim
  | frameDiscard u b => exact ((hb u b).1 rfl).elim
  | byteGapTimeout u b => exact ((hb u b).2 rfl).elim
  | _ => simp [Mode.runs, Mode.free]

theorem mask_eq_of_step (hn : ¬ askedFor w (· = 0x09)) : t.part.mask = p.mask := by
  refine (plain_moves hw e { Mode.free with mask := false } ⟨rfl, rfl, rfl⟩ (fun _ => ⟨rfl, rfl, rfl, rfl, rfl, rfl⟩) ?_).eq_of Part.mask
    fun m => m.mask_eq rfl
  intro c hc hr hb
  cases c with
  | noticeMask u b => exact (hn ⟨_, hc, u, _, b, rfl, rfl⟩).elim
  | hardwareReset a b => exact (hr a b rfl).elim
  | frameDiscard u b => exact ((hb u b).1 rfl).elim
  | byteGapTimeout u b => exact ((hb u b).2 rfl).elim
  | _ => simp [Mode.runs, Mode.free]

theorem dryRun_eq_of_step (hn : ¬ askedFor w (· = 0x1A)) : t.part.dry.run = p.dry.run := by
  refine (plain_moves hw e { Mode.free with dryRun := false } ⟨rfl, rfl, rfl⟩ (fun _ => ⟨rfl, rfl, rfl, rfl, rfl, rfl⟩) ?_).eq_of
    (fun s => s.dry.run) fun m => m.run_eq rfl
  intro c hc hr hb
  cases c with
  | dryRun u b => exact (hn ⟨_, hc, u, _, b, rfl, rfl⟩).elim
  | hardwareReset a b => exact (hr a b rfl).elim
  | frameDiscard u b => exact ((hb u b).1 rfl).elim
  | byteGapTimeout u b => exact ((hb u b).2 rfl).elim
  | _ => simp [Mode.runs, Mode.free]

theorem rxQueue_eq_of_step (hn : ¬ askedFor w fun _ => True) (hs : ∀ u, w.head? ≠ some (.frameSent u))
    (hk : ∀ u k b, w.head? ≠ some (.unknownKind u k b)) : t.part.link.rxQueue = p.link.rxQueue := by
  refine (plain_moves hw e { Mode.free with queue := false } ⟨rfl, rfl, rfl⟩ (fun _ => ⟨rfl, rfl, rfl, rfl, rfl, rfl⟩) ?_).eq_of
    (fun s => s.link.rxQueue) fun m => m.rxQueue_eq rfl
  intro c hc hr hb
  cases c with
  | stationDef u b | legDef u b | driveDef u b | trayDef u b | doorDef u b | timingDef u b | finisherDef u b
  | lineDef u b | noticeMask u b | pathClose u b | page u b | imageReady u b | hold u b | continueFeed u b
  | hostStop u b | abandonJob u b | resyncStation u b | sweep u b | planRead u b | resume u b | statusRead u b
  | sheetRead u b | jamRead u b | counterRead u b | counterWidth u b | dryRun u b | faultPlan u b | pathReset u b =>
    exact (hn ⟨_, hc, u, _, b, rfl, trivial⟩).elim
  | hardwareReset a b => exact (hr a b rfl).elim
  | frameDiscard u b => exact ((hb u b).1 rfl).elim
  | byteGapTimeout u b => exact ((hb u b).2 rfl).elim
  | frameSent u => exact (hs u hc).elim
  | unknownKind u k b => exact (hk u k b hc).elim
  | _ => simp [Mode.runs, Mode.free]

theorem lines_eq_of_step (hne : w ≠ []) (hn : ¬ askedFor w (· = 0x0A)) (hd : ¬ ∃ c ∈ w.head?, c.drivesLine = true) :
    t.part.lines = p.lines := by
  refine (plain_moves hw e { Mode.free with lines := false, force := false } ⟨rfl, rfl, rfl⟩ (fun h => absurd h hne) ?_).eq_of Part.lines
    fun m => m.lines_eq rfl rfl
  intro c hc hr hb
  cases hq : c.drivesLine with
  | true => exact (hd ⟨c, hc, hq⟩).elim
  | false =>
    cases c with
    | pathClose u b => exact (hn ⟨_, hc, u, _, b, rfl, rfl⟩).elim
    | hardwareReset a b => exact (hr a b rfl).elim
    | frameDiscard u b => exact ((hb u b).1 rfl).elim
    | byteGapTimeout u b => exact ((hb u b).2 rfl).elim
    | stationLeadingEdge _ _ | stationTrailingEdge _ _ | doorOpening _ _ | doorClosing _ _ | trayLevelChange _ _ _ _
    | binFullLineChange _ _ _ | purgeBinRemoved _ _ | stapleHomeEdge _ _ | ejectHomeEdge _ _ | compileTrayEdge _ _ => cases hq
    | _ => simp [Mode.runs, Mode.free]

theorem learned_eq_of_step (hne : w ≠ []) (hn : ¬ askedFor w fun kind => kind = 0x0A ∨ kind = 0x11)
    (hl : ∀ st u, w.head? ≠ some (.stationLeadingEdge u st)) (hs : ∀ st v, w.head? ≠ some (.synthesisedStationEdge st v)) :
    p.LearnsNothing t.part := by
  refine fun st => (plain_moves hw e { Mode.free with learn := false, force := false } ⟨rfl, rfl, rfl⟩ (fun h => absurd h hne) ?_).eq_of
    (fun s => s.learned st) fun m => m.learnsNothing rfl rfl st
  intro c hc hr hb
  cases c with
  | pathClose u b => exact (hn ⟨_, hc, u, _, b, rfl, .inl rfl⟩).elim
  | resyncStation u b => exact (hn ⟨_, hc, u, _, b, rfl, .inr rfl⟩).elim
  | stationLeadingEdge u st => exact (hl st u hc).elim
  | synthesisedStationEdge st v => exact (hs st v hc).elim
  | hardwareReset a b => exact (hr a b rfl).elim
  | frameDiscard u b => exact ((hb u b).1 rfl).elim
  | byteGapTimeout u b => exact ((hb u b).2 rfl).elim
  | _ => simp [Mode.runs, Mode.free]

/-- A sheet delivered by a synthesised edge is delivered in dry run, where the purge count stands. -/
theorem purgeCount_eq_of_step (hne : w ≠ []) (ht : ∀ st u, w.head? ≠ some (.stationTrailingEdge u st))
    (hp : ∀ u v, w.head? ≠ some (.purgeBinRemoved u v)) : t.part.gate.purgeCount = p.gate.purgeCount := by
  by_cases hd : (∃ st v, w.head? = some (.synthesisedStationEdge st v)) ∧ p.dry.on = true
  · obtain ⟨⟨st, v, hs⟩, on⟩ := hd
    refine (plain_moves hw e { Mode.free with empty := false, dryRun := false } ⟨rfl, rfl, rfl⟩ (fun h => absurd h hne)
      ?_).purgeCount_dry rfl rfl on
    intro c hc _ _
    cases hc.symm.trans hs
    exact ⟨rfl, fun _ => rfl, fun _ _ => rfl⟩
  · refine (plain_moves hw e { Mode.free with empty := false, deliver := false } ⟨rfl, rfl, rfl⟩ (fun h => absurd h hne) ?_).eq_of
      (fun s => s.gate.purgeCount) fun m => m.purgeCount_eq rfl rfl
    intro c hc hr hb
    cases c with
    | stationTrailingEdge u st => exact (ht st u hc).elim
    | purgeBinRemoved u v => exact (hp u v hc).elim
    | synthesisedStationEdge st v => exact ⟨rfl, fun _ => rfl, fun _ on => (hd ⟨⟨st, v, hc⟩, on⟩).elim⟩
    | hardwareReset a b => exact (hr a b rfl).elim
    | frameDiscard u b => exact ((hb u b).1 rfl).elim
    | byteGapTimeout u b => exact ((hb u b).2 rfl).elim
    | _ => simp [Mode.runs, Mode.free]

theorem atMost_of_step (hn : ¬ askedFor w fun kind => kind = 0x18 ∨ kind = 0x19) : p.stats.atMost t.part.stats := by
  refine (plain_moves hw e { Mode.free with clear := false } ⟨rfl, rfl, rfl⟩ (fun _ => ⟨rfl, rfl, rfl, rfl, rfl, rfl⟩) ?_).atMost rfl
  intro c hc hr hb
  cases c with
  | counterRead u b => exact (hn ⟨_, hc, u, _, b, rfl, .inl rfl⟩).elim
  | counterWidth u b => exact (hn ⟨_, hc, u, _, b, rfl, .inr rfl⟩).elim
  | hardwareReset a b => exact (hr a b rfl).elim
  | frameDiscard u b => exact ((hb u b).1 rfl).elim
  | byteGapTimeout u b => exact ((hb u b).2 rfl).elim
  | _ => simp [Mode.runs, Mode.free]

end

theorem Moves.nextSheet_le (h : Moves q a s b t) : s.feed.nextSheet ≤ t.feed.nextSheet := by
  induction h with
  | refl => exact le_rfl
  | snoc _ m ih => exact ih.trans m.nextSheet_le

/-- Settles O60: each field's owners are the commands with leave to move it. -/
theorem ownedByOneRequest : Obligations.OwnedByOneRequest := by
  intro w p t e hr hb
  have hw : plainFront w := ⟨hr, hb⟩
  have all : Moves .free .settled p .settled t.part := plain_moves hw e .free ⟨rfl, rfl, rfl⟩ (fun _ => ⟨rfl, rfl, rfl, rfl, rfl, rfl⟩)
    fun c _ k _ => Mode.free_runs p k
  refine ⟨fun h => ?_, fun h => ?_, fun h => ?_, fun h => ?_, ?_, ?_, fun h => ?_, fun h => ?_, fun h => ?_, fun h => ?_,
    fun h => atMost_of_step hw e h⟩
  · exact by_contra fun hn => h (force_eq_of_step hw e hn)
  · exact by_contra fun hn => h (stored_eq_of_step hw e hn)
  · exact by_contra fun hn => h (mask_eq_of_step hw e hn)
  · refine by_contra fun hn => ?_
    have run := dryRun_eq_of_step hw e hn
    exact h.elim (· (congrArg Prod.fst run)) (· (congrArg Prod.snd run))
  · exact all.eq_of (fun s => s.link.rate) fun m => m.rate_eq
  · exact all.nextSheet_le
  · refine by_contra fun hn => h ?_
    obtain ⟨hq, hs⟩ := not_or.mp hn
    exact rxQueue_eq_of_step hw e hq (fun u k => hs ⟨u, .inl k⟩) fun u k b c => hs ⟨u, .inr ⟨k, b, c⟩⟩
  · refine by_contra fun hn => h ?_
    obtain ⟨hne, hn⟩ := not_or.mp hn
    obtain ⟨hd, hq⟩ := not_or.mp hn
    exact lines_eq_of_step hw e hne hq hd
  · refine by_contra fun hn => h ?_
    obtain ⟨hne, hn⟩ := not_or.mp hn
    exact purgeCount_eq_of_step hw e hne (fun st u k => hn ⟨u, .inl ⟨st, k⟩⟩) fun u v k => hn ⟨u, .inr ⟨v, k⟩⟩
  · refine by_contra fun hn => ?_
    obtain ⟨hne, hn⟩ := not_or.mp hn
    obtain ⟨hq, hn⟩ := not_or.mp hn
    obtain ⟨st, hst⟩ := h
    exact hst (learned_eq_of_step hw e hne hq (fun st u k => hn ⟨st, .inl ⟨u, k⟩⟩) (fun st v k => hn ⟨st, .inr ⟨v, k⟩⟩) st)

end Sys2Proof.Machine
end

