-- ==== Sys2Proof/Proofs/Sampling.lean ====
section
/-! PROOF. A step's command, the path tick of an empty queue (R13) and the levels of the output lines (R14). -/

namespace Sys2Proof.Machine

variable {s t : Part}

/-- Settles O1. -/
theorem stepTakesFront : Obligations.StepTakesFront := fun _ _ _ => rfl

/-! ## What the transmitter's turn leaves alone (R177) -/

/-- The leave of the transmitter's turn. -/
def Mode.turn : Mode := { Mode.inner with link := true, dryRun := false, learn := false, deliver := false, empty := false, clear := false }

/-- The transmitter's turn leaves the tick, the lines, both descriptions and the mask. -/
theorem Part.conclude_same (s : Part) : s.conclude.tick = s.tick ∧ s.conclude.lines = s.lines ∧ s.conclude.stored = s.stored ∧
    s.conclude.force = s.force ∧ s.conclude.mask = s.mask := by
  have m : Moves .turn .settled s .settled s.conclude := s.conclude_moves rfl (.inl rfl)
  exact ⟨m.eq_of Part.tick fun m => m.tick_eq rfl, m.eq_of Part.lines fun m => m.lines_eq rfl rfl,
    m.eq_of Part.stored fun m => m.stored_eq rfl, m.eq_of Part.force fun m => m.force_eq rfl, m.eq_of Part.mask fun m => m.mask_eq rfl⟩

/-! ## The path tick (R13) -/

/-- The sample of a line as O2 spells it: what the polarity makes of the pin. -/
theorem Part.runAfter_eq (s : Part) (i : Fin 32) : (s.modTick (· + 1)).runAfter i =
    if (s.lines.pin[i] == (s.force.inputs[i]).high) = s.lines.level[i] then 0 else s.lines.run[i] + 1 := by
  unfold Part.runAfter Part.differs sampled
  by_cases h : (s.lines.pin[i] == (s.force.inputs[i]).high) = s.lines.level[i] <;> simp_all [Part.modTick]

theorem Part.edgeDue_iff (s : Part) (i : Fin 32) : (s.modTick (· + 1)).edgeDue i = true ↔
    1 ≤ (if (s.lines.pin[i] == (s.force.inputs[i]).high) = s.lines.level[i] then 0 else s.lines.run[i] + 1) ∧
      (s.force.inputs[i]).filter ≤ if (s.lines.pin[i] == (s.force.inputs[i]).high) = s.lines.level[i] then 0 else s.lines.run[i] + 1 := by
  rw [← s.runAfter_eq i]
  unfold Part.edgeDue
  rw [decide_eq_true_iff]
  exact max_le_iff

theorem Part.sampledTick_lines (s : Part) : s.sampledTick.lines = ⟨s.lines.pin, s.lines.level, .ofFn (s.modTick (· + 1)).runAfter⟩ := rfl

theorem Part.sampledTick_force (s : Part) : s.sampledTick.force = s.force := rfl

/-- With no filter satisfied the tick delivers no edge. -/
theorem Part.pathTick_none (h : ∀ i, (s.modTick (· + 1)).edgeDue i = false) : s.pathTick = s.sampledTick.conclude := by
  rw [Part.pathTick_eq, List.filter_eq_nil_iff.mpr fun i _ => Bool.eq_false_iff.mp (h i)]
  rfl

/-- With one filter satisfied the tick delivers the edge of its line. -/
theorem Part.pathTick_one {i : Fin 32} (h : (s.modTick (· + 1)).edgeDue i = true) (ho : ∀ j, j ≠ i → (s.modTick (· + 1)).edgeDue j = false) :
    s.pathTick = (s.sampledTick.inputEdge i).conclude := by
  have one : (List.finRange 32).filter (s.modTick (· + 1)).edgeDue = [i] := by
    have e : (List.finRange 32).filter (s.modTick (· + 1)).edgeDue = (List.finRange 32).filter (· == i) := by
      refine List.filter_congr fun j _ => ?_
      by_cases hj : j = i
      · rw [hj, h, beq_self_eq_true]
      · rw [ho j hj, beq_eq_false_iff_ne.mpr hj]
    rw [e, List.filter_beq, List.count_eq_one_of_mem (List.nodup_finRange 32) (List.mem_finRange i)]
    rfl
  rw [Part.pathTick_eq, one]
  rfl

/-- An event at the tick the part has reached. -/
theorem Part.event_now (s : Part) (g : Part → Part) : s.event s.tick g = (g s).conclude := by
  have e : laterOf s.tick s.tick = s.tick := ite_self _
  unfold Part.event Part.advance Part.modTick
  dsimp only
  rw [e]

/-- The edge of a line with a role is the command of its edge (R12). -/
theorem Part.exec_edgeCommand (s : Part) (r : InputRole) (v : Bool) :
    exec (r.edgeCommand s.tick v) ⟨[], s⟩ = .next ⟨[], (s.deliverEdge r v).conclude⟩ := by
  have e := s.event_now fun p => p.deliverEdge r v
  rw [← e]
  cases r with
  | station st => cases v <;> rfl
  | door d => cases v <;> rfl
  | _ => rfl

/-- A line without a role is filtered and its edge reaches no block (R12). -/
theorem Part.inputEdge_none {i : Fin 32} (h : s.force.roleOfLine i = none) :
    s.inputEdge i = s.modLines fun l => l.edge s.force.inputs i (sampled (s.force.inputs[i]) (s.lines.pin[i])) := by
  unfold Part.inputEdge
  rw [h]

theorem Part.inputEdge_some {i : Fin 32} {r : InputRole} (h : s.force.roleOfLine i = some r) :
    s.inputEdge i = s.deliverEdge r (sampled (s.force.inputs[i]) (s.lines.pin[i])) := by
  unfold Part.inputEdge
  rw [h]

/-- The filter's level agrees with the pin it was sampled from, so the pin stands. -/
theorem Lines.edge_sampled (l : Lines) (inputs : Vector InputSet 32) (i : Fin 32) :
    l.edge inputs i (sampled inputs[i] l.pin[i]) = ⟨l.pin, l.level.set i (l.pin[i] == (inputs[i]).high), l.run.set i 0⟩ := by
  have pin : (sampled inputs[i] l.pin[i] == (inputs[i]).high) = l.pin[i] := by
    unfold sampled
    cases l.pin[i] <;> cases (inputs[i]).high <;> rfl
  unfold Lines.edge
  rw [pin, Fin.getElem_fin, Vector.set_getElem_self]
  rfl

theorem Part.exec_sampledTick (s : Part) (r : InputRole) (i : Fin 32) :
    exec (r.edgeCommand (s.tick + 1) (s.lines.pin[i] == (s.force.inputs[i]).high))
      ⟨[], { s with tick := s.tick + 1, lines := { s.lines with run := .ofFn (s.modTick (· + 1)).runAfter } }⟩ =
    .next ⟨[], (s.sampledTick.deliverEdge r (sampled (s.sampledTick.force.inputs[i]) (s.sampledTick.lines.pin[i]))).conclude⟩ := by
  have e : s.sampledTick = { s with tick := s.tick + 1, lines := { s.lines with run := .ofFn (s.modTick (· + 1)).runAfter } } := rfl
  have v : sampled (s.sampledTick.force.inputs[i]) (s.sampledTick.lines.pin[i]) = (s.lines.pin[i] == (s.force.inputs[i]).high) := by
    rw [s.sampledTick_lines, s.sampledTick_force]
    rfl
  have tick : s.sampledTick.tick = s.tick + 1 := rfl
  rw [← e, v, ← tick, s.sampledTick.exec_edgeCommand]

/-- Settles O2: the tick's edges are those of the lines whose filter is satisfied. -/
theorem emptyQueueTicks : Obligations.EmptyQueueTicks := by
  intro p
  refine ⟨p.pathTick, rfl, ?_⟩
  have run : (fun i : Fin 32 => if (p.lines.pin[i] == (p.force.inputs[i]).high) = p.lines.level[i] then 0 else p.lines.run[i] + 1) =
      (p.modTick (· + 1)).runAfter := funext fun i => (p.runAfter_eq i).symm
  dsimp only
  rw [run]
  have off : ∀ {i : Fin 32}, _ → (p.modTick (· + 1)).edgeDue i = false := fun {i} h => Bool.eq_false_iff.mpr (mt (p.edgeDue_iff i).mp h)
  refine ⟨fun h => ?_, fun i hi ho => ?_⟩
  · rw [Part.pathTick_none fun i => off (h i)]
    obtain ⟨tick, lines, -⟩ := p.sampledTick.conclude_same
    exact ⟨tick, lines, fun hs => Part.conclude_sending _ hs⟩
  have one := Part.pathTick_one ((p.edgeDue_iff i).mpr hi) fun j hj => off (ho j hj)
  refine ⟨fun hr => ?_, fun r hr => ?_⟩
  · rw [one, Part.inputEdge_none (s := p.sampledTick) hr]
    obtain ⟨tick, lines, -⟩ := Part.conclude_same (p.sampledTick.modLines fun l =>
      l.edge p.sampledTick.force.inputs i (sampled (p.sampledTick.force.inputs[i]) (p.sampledTick.lines.pin[i])))
    rw [Part.modLines_lines, Lines.edge_sampled, p.sampledTick_lines, p.sampledTick_force] at lines
    exact ⟨tick, lines⟩
  · rw [one, Part.inputEdge_some (s := p.sampledTick) hr]
    exact p.exec_sampledTick r i

/-! ## Output lines (R12, R14, R117, R167) -/

theorem Outputs.wish_eq_asked (o : Outputs) (r : OutputRole) : o.wish r = asked o r := by
  cases r with
  | enable d => cases d <;> rfl
  | select0 | select1 => exact (beq_eq_decide ..).symm
  | _ => rfl

theorem OutputRole.heldByDoor_iff (r : OutputRole) : r.heldByDoor = true ↔ r ≠ .select0 ∧ r ≠ .select1 := by
  cases r <;> simp [OutputRole.heldByDoor]

theorem mem_allOutputRoles (r : OutputRole) : r ∈ allOutputRoles := by
  cases r with
  | clutch u => simp [allOutputRoles]
  | enable d => cases d <;> simp [allOutputRoles]
  | _ => simp [allOutputRoles]

theorem Part.anyDoorOpen_iff (s : Part) : s.anyDoorOpen = true ↔ ∃ d : Fin 8, s.doorIsOpen d = true := by
  simp [Part.anyDoorOpen]

/-- Outside dry run a role is active where its owner asks and no open door holds it. -/
theorem Part.outputActive_iff (s : Part) (r : OutputRole) (hd : s.dry.on = false) : s.outputActive r = true ↔
    asked s.out r = true ∧ ¬ (r ≠ .select0 ∧ r ≠ .select1 ∧ ∃ d : Fin 8, s.doorIsOpen d = true) := by
  rw [← and_assoc (a := r ≠ .select0), ← r.heldByDoor_iff, ← s.anyDoorOpen_iff]
  simp [Part.outputActive, hd, Outputs.wish_eq_asked]
  exact fun _ => by cases r.heldByDoor <;> simp

theorem Part.outputLevel_rest {line : Fin 24} (h : ∀ r, s.force.outLineOf r = some line → s.outputActive r = false) :
    s.outputLevel line = s.force.restHigh[line] := by
  have none : (allOutputRoles.any fun r => s.force.outLineOf r == some line && s.outputActive r) = false :=
    List.any_eq_false.mpr fun r _ => by
      rw [Bool.and_eq_true, beq_iff_eq]
      exact fun hr => Bool.eq_false_iff.mp (h r hr.1) hr.2
  unfold Part.outputLevel
  rw [none]
  exact Bool.bne_false _

/-- Settles O25. -/
theorem outputLevels : Obligations.OutputLevels := by
  intro p line
  refine ⟨fun h => Part.outputLevel_rest fun r hr => absurd hr (h r), fun hd => Part.outputLevel_rest fun r _ => ?_,
    fun r hr only hd => ?_⟩
  · simp [Part.outputActive, hd]
  · have one : (allOutputRoles.any fun r => p.force.outLineOf r == some line && p.outputActive r) = p.outputActive r := by
      rw [Bool.eq_iff_iff, List.any_eq_true]
      constructor
      · rintro ⟨x, -, hx⟩
        rw [Bool.and_eq_true, beq_iff_eq] at hx
        exact only x hx.1 ▸ hx.2
      · exact fun ha => ⟨r, mem_allOutputRoles r, by simp [hr, ha]⟩
    unfold Part.outputLevel
    simp only [one, ← p.outputActive_iff r hd]
    cases p.outputActive r <;> simp

end Sys2Proof.Machine
end

