-- ==== Sys2Proof/Proofs/ResetState.lean ====
section
/-! PROOF. The reset state meets every invariant (R182). -/

namespace Sys2Proof.Machine

variable (rate : Rate) (pin : Vector Bool 32)

theorem Part.reset_pathSound : (Part.reset rate pin).pathSound := by
  constructor <;> simp [Part.reset, Feed.reset, Outputs.reset, Episode.reset, PathState.allDrives, PathState.inEpisode]

theorem Part.reset_withinPlaces : (Part.reset rate pin).withinPlaces := by
  have legs : Desc.reset.legsInRange := by decide
  refine ⟨?_, ?_, ?_, ?_, ?_, legs, legs⟩ <;> exact Nat.zero_le _

theorem Part.reset_pagesSound : (Part.reset rate pin).pagesSound where
  table := Part.reset_tableSound rate pin
  empty := Part.reset_emptyAtRest rate pin
  valid h := absurd rfl h
  balance i x hx := by simp [Part.reset, Intake.reset] at hx
  oneSlot i j x hx := by simp [Part.reset, Intake.reset] at hx
  hasSlot y hy := by simp [Part.records, Part.reset, Intake.reset, Finisher.reset] at hy
  queues := And.intro (by exact trivial) (by exact trivial)
  fresh y hy := by simp [Part.reset, Intake.reset] at hy
  list := ⟨trivial, List.Pairwise.nil⟩
  origins := ⟨List.nodup_nil, fun _ h => absurd h List.not_mem_nil⟩
  sheets x hx := absurd hx List.not_mem_nil
  held h hh := absurd hh List.not_mem_nil
  noSet _ := rfl
  halting h := nomatch h
  covers st c hc := by simp [Part.reset, Station.reset] at hc

theorem Part.reset_gatesSound : (Part.reset rate pin).gatesSound where
  table := Part.reset_tableSound rate pin
  empty := Part.reset_emptyAtRest rate pin
  valid h := absurd rfl h
  still := nofun
  halting := nofun
  exit _ _ _ h := nomatch h.1
  purge _ _ _ h := nomatch h.1

theorem Part.reset_progressHeld : (Part.reset rate pin).progressHeld := fun i h => by
  simp [Part.reset, Notices.reset] at h

/-- Settles O59. -/
theorem resetMeetsInvariants : Obligations.ResetMeetsInvariants :=
  ⟨⟨rfl, Nat.zero_le _⟩, Part.reset_tableSound _ _, Stats.reset_sound, Part.reset_pathSound _ _, Part.finisherSound_of_reset rfl rfl,
    Part.reset_stationsSound _ _, List.Pairwise.nil, Part.reset_withinPlaces _ _, Part.reset_progressHeld _ _, List.nodup_nil,
    Part.reset_pagesSound _ _, Part.reset_purgeSound _ _, ⟨Part.reset_emptyAtRest _ _, Nat.zero_le _⟩, Part.reset_gatesSound _ _, rfl⟩

end Sys2Proof.Machine
end

