-- ==== Sys2Proof/Proofs/KeptMerge.lean ====
section
/-! PROOF. The Merge Reservation List keeps one entry to a sheet, and its lead order (R63). A command makes at most two entries anew: the
one its arrival or deadline predicts, and the one of the pick that follows. -/

namespace Sys2Proof.Machine

variable {u : Tick} {l : List Resv} {r : Resv}

/-! ## Ticks near one another (R1) -/

/-- A tick within a quarter of the range after `u`. -/
def nearTick (u a : Tick) : Prop := 0 ≤ since u a ∧ since u a < 1073741824

theorem since_eq_sub {u a b : Tick} (ha : nearTick u a) (hb : nearTick u b) : since a b = since u b - since u a := by
  have e : b - a = (b - u) - (a - u) :=
    (sub_sub_sub_cancel_right b a u).symm
  unfold nearTick since at *
  rw [e, BitVec.toInt_sub, Int.bmod_eq_of_le] <;> omega

theorem since_inj {u a b : Tick} (h : since u a = since u b) : a = b := by
  have : a - u = b - u := BitVec.eq_of_toInt_eq h
  exact sub_left_injective this

/-! ## The order of the list -/

/-- `x` stands before `y` in lead order. -/
def Resv.before (u : Tick) (x y : Resv) : Prop := since u x.lead < since u y.lead ∨ (x.lead = y.lead ∧ x.sheet < y.sheet)

theorem Resv.before_trans {x y z : Resv} (h : x.before u y) (k : y.before u z) : x.before u z := by
  unfold Resv.before at *
  rcases h with h | ⟨h, hs⟩ <;> rcases k with k | ⟨k, ks⟩
  · exact .inl (h.trans k)
  · exact .inl (k ▸ h)
  · exact .inl (h ▸ k)
  · exact .inr ⟨h.trans k, hs.trans ks⟩

theorem Resv.before_of_precedes {x : Resv} (hx : nearTick u x.lead) (hr : nearTick u r.lead) (hn : x.sheet ≠ r.sheet)
    (h : x.precedes r = true) : x.before u r := by
  unfold Resv.precedes isBefore at h
  rw [Bool.or_eq_true, decide_eq_true_eq, since_eq_sub hx hr, Bool.and_eq_true, beq_iff_eq, decide_eq_true_eq] at h
  rcases h with h | ⟨h, hs⟩
  · exact .inl (by omega)
  · exact .inr ⟨h, by omega⟩

theorem Resv.before_of_not_precedes {x : Resv} (hx : nearTick u x.lead) (hr : nearTick u r.lead) (h : x.precedes r = false) :
    r.before u x := by
  unfold Resv.precedes isBefore at h
  rw [Bool.or_eq_false_iff, decide_eq_false_iff_not, since_eq_sub hx hr] at h
  obtain ⟨hlt, hs⟩ := h
  by_cases e : x.lead = r.lead
  · rw [e, beq_self_eq_true, Bool.true_and, decide_eq_false_iff_not] at hs
    exact .inr ⟨e.symm, by omega⟩
  · have : since u x.lead ≠ since u r.lead := fun k => e (since_inj k)
    exact .inl (by omega)

theorem mem_insertResv {x : Resv} : x ∈ insertResv r l ↔ x = r ∨ x ∈ l := by
  have h : x ∈ l ↔ x ∈ l.takeWhile (fun x => x.precedes r) ∨ x ∈ l.dropWhile (fun x => x.precedes r) := by
    rw [← List.mem_append, List.takeWhile_append_dropWhile]
  rw [h]
  simp only [insertResv, List.mem_append, List.mem_cons]
  exact or_left_comm

/-- An entry placed in a list in lead order, its sheet without another entry there. -/
theorem insertResv_ordered (h : inLeadOrder u l) (hn : nearLeads u (insertResv r l)) (hr : ∀ x ∈ l, x.sheet ≠ r.sheet) :
    inLeadOrder u (insertResv r l) := by
  have near : ∀ x ∈ l, nearTick u x.lead := fun x hx => hn x (mem_insertResv.mpr (.inr hx))
  have nearR : nearTick u r.lead := hn r (mem_insertResv.mpr (.inl rfl))
  exact pairwise_place (R := Resv.before u) h (fun x hx k => Resv.before_of_precedes (near x hx) nearR (hr x hx) k)
    (fun x hx k => Resv.before_of_not_precedes (near x hx) nearR k) (fun _ _ _ _ => Resv.before_trans)
    fun _ _ _ _ => Resv.before_trans

/-- The list with every entry of a sheet gone. -/
def without (n : Nat) (l : List Resv) : List Resv := l.filter fun x => x.sheet != n

/-- An entry placed anew. -/
def placed (r : Resv) (l : List Resv) : List Resv := insertResv r (without r.sheet l)

theorem sheet_ne_of_mem_without {n : Nat} {x : Resv} (h : x ∈ without n l) : x.sheet ≠ n := by
  simpa using (List.mem_filter.mp h).2

/-- A list is in order once all its leads are near. -/
def settlesInOrder (u : Tick) (l : List Resv) : Prop := nearLeads u l → inLeadOrder u l

/-- An entry placed in a list in order. -/
theorem placed_settles (h : settlesInOrder u (without r.sheet l)) : settlesInOrder u (placed r l) := fun hn =>
  insertResv_ordered (h fun x hx => hn x (mem_insertResv.mpr (.inr hx))) hn fun _ hx => sheet_ne_of_mem_without hx

/-- A list in order with near leads, or one with one entry placed in it. -/
def onceplaced (u : Tick) (l : List Resv) : Prop :=
  ∃ m, inLeadOrder u m ∧ nearLeads u m ∧ (l = m ∨ ∃ r, l = placed r m)

theorem without_placed (r : Resv) (l : List Resv) : without r.sheet (placed r l) = without r.sheet l := by
  have split := List.takeWhile_append_dropWhile (p := fun x : Resv => x.precedes r) (l := without r.sheet l)
  have self : ∀ x ∈ without r.sheet l, (x.sheet != r.sheet) = true := fun x hx => (List.mem_filter.mp hx).2
  unfold placed insertResv
  rw [without, List.filter_append, List.filter_cons_of_neg (by simp), ← List.filter_append, split]
  exact List.filter_eq_self.mpr self

theorem onceplaced.settles_without (h : onceplaced u l) (n : Nat) : settlesInOrder u (without n l) := by
  obtain ⟨m, ho, hn, rfl | ⟨r, rfl⟩⟩ := h
  · exact fun _ => ho.sublist List.filter_sublist
  · by_cases e : r.sheet = n
    · rw [← e, without_placed]
      exact fun _ => ho.sublist List.filter_sublist
    · intro hw
      have hr : nearTick u r.lead := hw r (List.mem_filter.mpr ⟨mem_insertResv.mpr (.inl rfl), by simpa using e⟩)
      refine List.Pairwise.sublist List.filter_sublist (placed_settles (fun _ => ho.sublist List.filter_sublist) fun x hx => ?_)
      rcases mem_insertResv.mp hx with rfl | hx
      · exact hr
      · exact hn x (List.mem_filter.mp hx).1

theorem onceplaced.settles (h : onceplaced u l) : settlesInOrder u l := by
  obtain ⟨m, ho, hn, rfl | ⟨r, rfl⟩⟩ := h
  · exact fun _ => ho
  · exact placed_settles fun _ => ho.sublist List.filter_sublist

/-! ## Without leave to track: at most one pick's entry -/

variable {q : Mode} {A : List Block} {a b : Phase} {s t : Part}

/-- The reservations and the unconfirmed pick. -/
def Feed.merging (f : Feed) : List Resv × Option Nat := (f.merge, f.unconfirmed)

theorem Part.setPath_merging (s : Part) (p : PathState) : (s.setPath p).feed.merging = s.feed.merging := by
  rw [Part.setPath_feed]
  rfl

/-- A move that tracks nothing leaves the reservations, or places a pick's where none is unconfirmed, or ends them all. -/
theorem Move.merging (m : Move q A a s b t) (hq : q.track = false) :
    t.feed.merging = s.feed.merging ∨
      (s.feed.unconfirmed = none ∧ t.feed.unconfirmed.isSome = true ∧ ∃ r, t.feed.merge = placed r s.feed.merge) ∨ t.feed.merge = [] := by
  cases hA : hasBlock A .feed with
  | false => exact .inl (by rw [m.via.feed_eq hA])
  | true =>
    cases m with
    | define | ramped | halted | reheld => exact .inl (Part.setPath_merging ..)
    | judgeTrayEmpty | judgeBinFull | pickTimer | holdoff | dropRamp | dropRunOn => exact .inl rfl
    | abandon job i => exact .inl (by rw [s.abandonCore_feed]; rfl)
    | feed g h hu =>
      have merge : (g s.feed).merge = s.feed.merge := (congrArg Feed.merge (h s.feed) :)
      exact .inl (Prod.ext merge (hu.resolve_left (by simp [hq]) s.feed))
    | hold g h => exact .inl (congrArg Feed.merging (h s.feed) :)
    | drain => exact .inl (by rw [s.enterDraining_feed]; rfl)
    | goBack => exact .inl (by rw [s.returnToRunning_feed]; rfl)
    | runOnDone | closed | resetIdle => exact .inl (congrArg Feed.merging (Part.enterIdle_feed _) :)
    | start =>
      obtain ⟨c, d, e⟩ := s.start_feed
      exact .inl (by rw [e]; rfl)
    | startJammed st =>
      obtain ⟨b, c, e⟩ := s.startJammed_feed st
      exact .inl (by rw [e]; rfl)
    | armRunOn => exact .inl (by rw [s.armRunOn_feed]; rfl)
    | pick n _ _ _ hh =>
      obtain ⟨-, -, free, -⟩ := (s.pickHolds_iff n).mp hh
      obtain ⟨_, e⟩ := s.pickCore_feed n
      exact .inr (.inl ⟨free, by rw [e]; rfl, s.pickCore_merge n⟩)
    | reserve r h => simp [hq] at h
    | unreserve p h => simp [hq] at h
    | openEpisode j extra =>
      obtain ⟨b, e, -⟩ := s.openCore_effect j extra
      exact .inl (by rw [e]; rfl)
    | abandonSweep bar => exact .inl (by rw [s.abandonSweep_feed]; rfl)
    | startSweep h hd =>
      refine .inl ?_
      rw [s.startSweep_eq hd]
      simp only [Part.runDrives, Part.modEpisode_feed, Part.modOut_feed, Part.setPath_merging]
    | planBuild => exact .inr (.inr (by rw [Part.planBuild_feed]))
    | discardAll => exact .inr (.inr (by rw [s.discardCoreAll_feed]; rfl))
    | _ => cases hA

/-- The reservations come from `l` by at most one pick, or were ended and at most one pick followed. -/
def Part.mergesFrom (l : List Resv) (s : Part) : Prop :=
  s.feed.merge = l ∨ s.feed.merge = [] ∨
    s.feed.unconfirmed.isSome = true ∧ ((∃ r, s.feed.merge = placed r l) ∨ ∃ r, s.feed.merge = [r])

theorem Move.mergesFrom (m : Move q A a s b t) (hq : q.track = false) (h : s.mergesFrom l) : t.mergesFrom l := by
  rcases m.merging hq with e | ⟨free, some, r, e⟩ | e
  · obtain ⟨em, eu⟩ := Prod.ext_iff.mp e
    unfold Part.mergesFrom
    rwa [show t.feed.merge = s.feed.merge from em, show t.feed.unconfirmed = s.feed.unconfirmed from eu]
  · refine .inr (.inr ⟨some, ?_⟩)
    rcases h with h | h | ⟨k, -⟩
    · exact .inl ⟨r, h ▸ e⟩
    · exact .inr ⟨r, by rw [e, h]; rfl⟩
    · simp [free] at k
  · exact .inr (.inl e)

theorem Moves.mergesFrom (m : Moves q a s b t) (hq : q.track = false) (h : s.mergesFrom l) : t.mergesFrom l := by
  induction m with
  | refl => exact h
  | snoc _ m ih => exact m.mergesFrom hq ih

theorem Part.mergesFrom.ordered (h : s.mergesFrom l) (hl : onceplaced u l) (hn : nearLeads u s.feed.merge) :
    inLeadOrder u s.feed.merge := by
  rcases h with h | h | ⟨-, ⟨r, h⟩ | ⟨r, h⟩⟩
  · exact h ▸ hl.settles (h ▸ hn)
  · exact h ▸ .nil
  · exact h ▸ placed_settles (hl.settles_without r.sheet) (h ▸ hn)
  · exact h ▸ List.pairwise_singleton _ r

/-! ## What tracking places (R63 to R65) -/

/-- One entry placed anew, or none. -/
def places (l m : List Resv) : Prop := m = l ∨ ∃ r, m = placed r l

theorem Part.endHalting_merge (s : Part) : s.endHalting.feed.merge = s.feed.merge := by
  unfold Part.endHalting
  split
  · rw [Part.setPath_feed]
    rfl
  · rfl

theorem Part.takeJam_merge (s : Part) (j : Jam) : (s.takeJam j).feed.merge = s.feed.merge := by
  have opened : (s.openEpisode j 0).feed.merge = s.feed.merge := by
    obtain ⟨b, e, -⟩ := s.openCore_effect j 0
    rw [Part.openEpisode_eq, (Part.countPath_via ..).feed_eq rfl, (Part.noteRecord_via ..).feed_eq rfl, e]
  unfold Part.takeJam
  split
  case h_1 =>
    unfold Part.holdOver
    split <;> rfl
  case h_2 => rfl
  case h_3 =>
    split
    · exact opened
    · rfl
  case h_7 =>
    unfold Part.extendHalting
    rw [Part.endHalting_merge, (Part.strand_via ..).feed_eq rfl, s.addRecord_feed]
  case h_8 => rw [s.addRecord_feed]
  case h_9 => rw [Part.abandonSweep_feed, s.addRecord_feed]
  all_goals exact opened

theorem Part.jamAt_merge (s : Part) (kind : JamKind) (st : Fin 24) (t : Tick) (x : Option Sheet) :
    (s.jamAt kind st t x).feed.merge = s.feed.merge := by
  unfold Part.jamAt
  rw [Part.takeJam_merge, (Part.countStation_via ..).feed_eq rfl]

theorem Part.passAction_merge (s : Part) (x : Sheet) : (s.passAction x).feed.merge = s.feed.merge := by
  unfold Part.passAction Part.confirmPick
  dsimp only
  split <;> split <;> rfl

/-- A role's action places an entry of its sheet at most. -/
theorem Part.roleAction_merge (s : Part) (x : Sheet) (st : Fin 24) : (s.roleAction x st).feed.merge = s.feed.merge ∨
    ∃ r : Resv, r.sheet = x.number ∧ (s.roleAction x st).feed.merge = placed r s.feed.merge := by
  have pass := s.passAction_merge x
  rw [Part.roleAction_eq]
  split
  · exact .inl (by rw [(Part.decideCommit_via ..).feed_eq rfl, pass])
  · split
    · refine .inr ⟨_, ?_, by rw [(Part.callBack_via ..).feed_eq rfl, ← pass]; rfl⟩
      rfl
    · exact .inl pass
  · split
    · exact .inl (by rw [Part.jamAt_merge, pass])
    · exact .inl pass
  · exact .inl pass

theorem Part.repredict_merge (s : Part) (n : Nat) (lead trail : Tick) : (s.repredict n lead trail).feed.merge = s.feed.merge ∨
    ∃ r : Resv, r.sheet = n ∧ (s.repredict n lead trail).feed.merge = placed r s.feed.merge := by
  unfold Part.repredict
  split
  · exact .inl rfl
  · next r h =>
    obtain rfl : r.sheet = n := by simpa using List.find?_some h
    exact .inr ⟨{ r with lead := lead, trail := trail }, rfl, rfl⟩

/-- Of two entries of one sheet placed one after another the later stands. -/
theorem placed_placed {r v : Resv} (h : r.sheet = v.sheet) (l : List Resv) : placed v (placed r l) = placed v l := by
  rw [placed, ← h, without_placed, h]
  rfl

theorem Part.takeArrival_places (s : Part) (x : Sheet) (step : Step) (e : Expect) (o : Arrival) :
    places s.feed.merge (s.takeArrival x step e o).feed.merge := by
  rw [Part.takeArrival_eq]
  dsimp only
  generalize hl : (s.learnAt step.station (since (plusTicks x.anchor e.transit) s.tick) o).countArrival step.station o = l
  have before : (l.enterArrival x step).feed.merge = s.feed.merge := by
    rw [(Part.enterArrival_via ..).feed_eq rfl, ← hl, (Part.countArrival_via ..).feed_eq rfl, (Part.learnAt_via ..).feed_eq rfl]
  have acted := (l.enterArrival x step).roleAction_merge (x.arrived step.station l.tick) step.station
  rw [before] at acted
  generalize (l.enterArrival x step).roleAction (x.arrived step.station l.tick) step.station = p at acted ⊢
  have number : (x.arrived step.station l.tick).number = x.number := rfl
  rw [number] at acted
  unfold Part.repredictAt
  split
  · rcases p.repredict_merge x.number (p.predictFrom p.tick step.leg step.pos x.media).1 (p.predictFrom p.tick step.leg step.pos x.media).2 with e | ⟨r, hr, e⟩ <;> rcases acted with k | ⟨v, hv, k⟩
    · exact .inl (e.trans k)
    · exact .inr ⟨v, e.trans k⟩
    · exact .inr ⟨r, k ▸ e⟩
    · exact .inr ⟨r, by rw [e, k, placed_placed (hv.trans hr.symm)]⟩
  · exact acted.imp_right fun ⟨r, _, k⟩ => ⟨r, k⟩

theorem Part.leadingEdge_places (s : Part) (st : Fin 24) : places s.feed.merge (s.leadingEdge st).feed.merge := by
  have matched : places s.feed.merge (s.matchLeading st).feed.merge := by
    unfold Part.matchLeading
    split
    · exact .inl (s.jamAt_merge ..)
    · split
      · exact .inl (s.jamAt_merge ..)
      · split
        · split
          · exact .inl (s.jamAt_merge ..)
          · exact s.takeArrival_places ..
        · exact .inl rfl
  unfold Part.leadingEdge
  split
  case h_1 => exact .inl (s.jamAt_merge ..)
  case h_2 => exact .inl (s.jamAt_merge ..)
  case h_3 => exact matched
  case h_4 => exact matched
  case h_5 => exact matched
  all_goals exact .inl rfl

theorem Part.leadingExpiry_places (s : Part) (x : Sheet) (step : Step) (d : Tick) :
    places s.feed.merge (s.leadingExpiry x step d).feed.merge := by
  unfold Part.leadingExpiry Part.firstExpiry
  dsimp only
  split
  · split
    · unfold Part.retryPick
      dsimp only
      rw [(Part.countTray_via ..).feed_eq rfl]
      refine (Part.repredict_merge _ x.number _ _).imp (fun e => e.trans ?_) fun ⟨r, _, e⟩ => ⟨r, e.trans (congrArg _ ?_)⟩ <;>
        rw [Part.modOut_feed, (Part.armNext_via ..).feed_eq rfl, (Part.withdrawEdges_via ..).feed_eq rfl,
          (Part.modSheet_via ..).feed_eq rfl] <;> rfl
    · exact .inl (by rw [Part.jamAt_merge, (Part.countTray_via ..).feed_eq rfl]; rfl)
  · exact .inl (by rw [Part.jamAt_merge]; rfl)

/-- A trailing edge ends reservations at most. -/
theorem Part.trailingEdge_merge (s : Part) (st : Fin 24) : ∃ p, (s.trailingEdge st).feed.merge = s.feed.merge.filter p := by
  have same : ∀ {m : List Resv}, m = s.feed.merge → ∃ p, m = s.feed.merge.filter p := fun e =>
    ⟨fun _ => true, by rw [e, List.filter_eq_self.mpr fun _ _ => rfl]⟩
  have delivered : ∀ (p : Part) (x : Sheet), (p.deliver x st).feed.merge = p.feed.merge := by
    intro p x
    rw [Part.deliver_eq, Part.endHalting_merge, Part.armRunOn_feed]
    have core : (p.deliverCore x st).feed = p.feed := (Part.deliverCore_via ..).feed_eq rfl
    split
    · rw [(Part.completeCompile_via _).feed_eq rfl, core]
    · rw [core]
  have taken : ∀ x c, ∃ p, (s.takeTrailing x c st).feed.merge = s.feed.merge.filter p := by
    intro x c
    unfold Part.takeTrailing
    dsimp only
    have checked : (if x.itinerary.head?.map Step.station = some st then (s.uncover x st).checkLength x st c.lead
        else s.uncover x st).feed.merge = s.feed.merge := by
      have left : (s.uncover x st).feed = s.feed := (Part.uncover_via ..).feed_eq rfl
      unfold Part.checkLength
      dsimp only
      split
      · split
        · rw [Part.jamAt_merge, (Part.countPath_via ..).feed_eq rfl, left]
        · split
          · rw [Part.jamAt_merge, left]
          · rw [left]
      · rw [left]
    generalize (if x.itinerary.head?.map Step.station = some st then (s.uncover x st).checkLength x st c.lead
      else s.uncover x st) = v at checked ⊢
    have freed : ∃ p, (if (v.force.leg .main).steps.head?.map LegStep.station = some st then v.unreserve x else v).feed.merge =
        s.feed.merge.filter p := by
      split
      · exact ⟨_, by rw [← checked]; rfl⟩
      · exact same checked
    split
    · rwa [delivered]
    · exact freed
  have matched : ∃ p, (s.matchTrailing st).feed.merge = s.feed.merge.filter p := by
    unfold Part.matchTrailing
    split
    · exact taken _ _
    · exact same rfl
  unfold Part.trailingEdge
  split
  case h_1 => exact matched
  case h_2 => exact matched
  case h_3 => exact matched
  all_goals exact same rfl

/-! ## A command's entries -/

/-- The reservations were tracked from those of `l` and at most one pick followed. -/
def Part.mergesOnce (u : Tick) (s : Part) : Prop := ∃ l, onceplaced u l ∧ s.mergesFrom l

theorem Moves.mergesOnce (m : Moves q a s b t) (hq : q.track = false) (h : s.mergesOnce u) : t.mergesOnce u :=
  h.imp fun _ ⟨hl, k⟩ => ⟨hl, m.mergesFrom hq k⟩

/-- Leave for everything but tracking. -/
def Mode.untracked : Mode := { Mode.free with track := false }

theorem Part.judge_conclude_mergesOnce (h : onceplaced u s.feed.merge) : s.judge.conclude.mergesOnce u :=
  ((s.judge_moves (q := .untracked)).trans (Part.conclude_moves _ rfl (.inl rfl))).mergesOnce rfl ⟨_, h, .inl rfl⟩

/-- The reservations in order before the command. -/
structure Part.merges (u : Tick) (s : Part) : Prop where
  order : inLeadOrder u s.feed.merge
  near : nearLeads u s.feed.merge

theorem Part.merges.of_feed (h : s.merges u) (e : t.feed = s.feed) : t.merges u := by
  obtain ⟨ho, hn⟩ := h
  exact ⟨e ▸ ho, e ▸ hn⟩

theorem Part.merges.once (h : s.merges u) : onceplaced u s.feed.merge := ⟨_, h.order, h.near, .inl rfl⟩

theorem Part.merges.places (h : s.merges u) {l : List Resv} (k : places s.feed.merge l) : onceplaced u l :=
  ⟨_, h.order, h.near, k⟩

theorem Part.merges.filter (h : s.merges u) (p : Resv → Bool) : onceplaced u (s.feed.merge.filter p) :=
  ⟨_, h.order.sublist List.filter_sublist, fun r hr => h.near r (List.mem_filter.mp hr).1, .inl rfl⟩

theorem Part.merges.conclude (h : s.merges u) : s.conclude.mergesOnce u :=
  (s.conclude_moves (q := .untracked) rfl (.inl rfl)).mergesOnce rfl ⟨_, h.once, .inl rfl⟩

theorem Part.merges.leadingEdge (h : s.merges u) (st : Fin 24) : (s.leadingEdge st).judge.conclude.mergesOnce u :=
  Part.judge_conclude_mergesOnce (h.places (s.leadingEdge_places st))

theorem Part.merges.trailingEdge (h : s.merges u) (st : Fin 24) : (s.trailingEdge st).judge.conclude.mergesOnce u := by
  obtain ⟨p, e⟩ := s.trailingEdge_merge st
  exact Part.judge_conclude_mergesOnce (e ▸ h.filter p)

/-- A real edge of a station. -/
theorem Part.merges.stationEdge (h : s.merges u) (t : Tick) (st : Fin 24) (v : Bool) (g : Part → Part)
    (hg : ∀ {p : Part}, p.merges u → (g p).judge.conclude.mergesOnce u) : (s.event t fun p => p.stationEdge st v g).mergesOnce u := by
  have lined : ((s.advance t).lineEdge (.station st) v).merges u := h.of_feed ((Part.lineEdge_via ..).feed_eq rfl)
  unfold Part.event Part.stationEdge
  dsimp only
  split
  · exact lined.conclude
  · exact hg lined

theorem Part.merges.expireLeading (h : s.merges u) (n : Nat) : (s.expireLeading n).mergesOnce u := by
  unfold Part.expireLeading
  split
  · exact ⟨_, h.once, .inl rfl⟩
  · split
    · exact Part.judge_conclude_mergesOnce (h.places (s.leadingExpiry_places ..))
    · exact ⟨_, h.once, .inl rfl⟩

/-- A synthesised edge is delivered as one of its direction, or discarded. -/
theorem Part.runEdge_cases (s : Part) (e : Edge) : ∃ r : Part, r.feed = s.feed ∧
    (s.runEdge e = r ∨ s.runEdge e = r.leadingEdge e.station ∨ s.runEdge e = r.trailingEdge e.station) := by
  unfold Part.runEdge
  dsimp only
  split
  · split
    · refine ⟨_, ?_, .inr (.inl rfl)⟩
      rfl
    · refine ⟨_, ?_, .inr (.inr rfl)⟩
      rfl
  · refine ⟨_, ?_, .inl rfl⟩
    rfl

theorem Part.merges.synthesised (h : s.merges u) (st : Fin 24) (v : Bool) : (s.synthesised st v).mergesOnce u := by
  unfold Part.synthesised
  split
  · exact ⟨_, h.once, .inl rfl⟩
  · next e _ =>
    obtain ⟨r, hr, k⟩ := s.runEdge_cases e
    have hr := h.of_feed hr
    rcases k with k | k | k <;> rw [k]
    · exact Part.judge_conclude_mergesOnce hr.once
    · exact hr.leadingEdge _
    · exact hr.trailingEdge _

/-- A command that may track runs so. -/
inductive tracks (p : Part) : Instr → Part → Prop where
  | leading (t st) : tracks p (.stationLeadingEdge t st) (p.event t fun p => p.stationEdge st true fun p => p.leadingEdge st)
  | trailing (t st) : tracks p (.stationTrailingEdge t st) (p.event t fun p => p.stationEdge st false fun p => p.trailingEdge st)
  | deadline (n) : tracks p (.leadingDeadlineExpiry n) (p.expireLeading n)
  | synthesised (st v) : tracks p (.synthesisedStationEdge st v) (p.synthesised st v)

theorem tracks.exec {c : Instr} {p p' : Part} (h : tracks p c p') (w : List Instr) : exec c ⟨w, p⟩ = .next ⟨w, p'⟩ := by
  cases h <;> rfl

theorem tracks.mergesOnce {c : Instr} {p p' : Part} (h : tracks p c p') (hp : p.merges u) : p'.mergesOnce u := by
  cases h with
  | leading t st => exact hp.stationEdge t st true (fun p => p.leadingEdge st) fun k => k.leadingEdge st
  | trailing t st => exact hp.stationEdge t st false (fun p => p.trailingEdge st) fun k => k.trailingEdge st
  | deadline n => exact hp.expireLeading n
  | synthesised st v => exact hp.synthesised st v

/-- A command but bytes is a reset, may track, or runs without leave to. -/
theorem Instr.tracks_cases (p : Part) {c : Instr} (hb : ∀ v b, c ≠ .frameDiscard v b ∧ c ≠ .byteGapTimeout v b) :
    (∃ a b, c = .hardwareReset a b) ∨ (∃ p', tracks p c p') ∨ Mode.untracked.runs p c := by
  cases c with
  | hardwareReset a b => exact .inl ⟨a, b, rfl⟩
  | stationLeadingEdge x st => exact .inr (.inl ⟨_, .leading x st⟩)
  | stationTrailingEdge x st => exact .inr (.inl ⟨_, .trailing x st⟩)
  | leadingDeadlineExpiry n => exact .inr (.inl ⟨_, .deadline n⟩)
  | synthesisedStationEdge st v => exact .inr (.inl ⟨_, .synthesised st v⟩)
  | frameDiscard v b => exact ((hb v b).1 rfl).elim
  | byteGapTimeout v b => exact ((hb v b).2 rfl).elim
  | _ => exact .inr (.inr (by simp [Mode.runs, Mode.untracked, Mode.free]))

/-- What a command but bytes makes of the reservations. -/
theorem exec_mergesOnce {c : Instr} {w : List Instr} {p : Part} {t : State} (h : p.merges u) (e : step ⟨c :: w, p⟩ = .next t)
    (hb : ∀ v b, c ≠ .frameDiscard v b ∧ c ≠ .byteGapTimeout v b) : t.part.mergesOnce u := by
  rcases Instr.tracks_cases p hb with ⟨a, b, rfl⟩ | ⟨p', hp⟩ | hc
  · cases e
    exact ⟨_, h.once, .inr (.inl rfl)⟩
  · have : Host.Outcome.next ⟨w, p'⟩ = (.next t : Host.Outcome State Fault Refusal) := (hp.exec w).symm.trans e
    cases this
    exact hp.mergesOnce h
  · have m : Moves .untracked .settled p .settled t.part :=
      step_moves (w := c :: w) rfl rfl (fun k => (List.cons_ne_nil _ _ k).elim) (fun x hx => Option.some.inj hx ▸ hc) (.inl rfl) e
    exact m.mergesOnce rfl ⟨_, h.once, .inl rfl⟩

/-- Settles O58: a command places the entry it tracks, and then its pick's. -/
theorem mergeListKept : Obligations.MergeListKept := by
  refine ⟨keptByEveryStep_of_moves (fun _ p => (p.feed.merge.map Resv.sheet).Nodup) (fun _ h => h) (fun _ h => h)
    (fun _ _ => List.nodup_nil) fun m h => m.mergeNumbers h, ?_⟩
  intro c rest p t u e hb ho hn ht
  obtain ⟨l, hl, h⟩ := exec_mergesOnce ⟨ho, hn⟩ e hb
  exact h.ordered hl ht

end Sys2Proof.Machine
end

