-- ==== Sys2Proof/Proofs/KeptNotices.lean ====
section
/-! PROOF. What becomes of the notices and the conditions they tell of while a frame is being sent (R36, R38, R178): every move that
makes a condition active makes its notice pending, and none withdraws one. -/

namespace Sys2Proof.Machine

/-! ## What is told -/

/-- A notice is told: it stays pending, and what becomes active, of a kind enabled, makes it pending. -/
def told (enabled was now before after : Bool) : Prop := (before = true ∨ (enabled = true ∧ now = true ∧ was = false)) → after = true

theorem told_same {e w b : Bool} : told e w w b b := by
  rintro (h | ⟨-, h, k⟩)
  · exact h
  · simp [h] at k

theorem told.trans {e w m n b c d : Bool} (h : told e w m b c) (k : told e m n c d) : told e w n b d := by
  rintro (hb | ⟨he, hn, hw⟩)
  · exact k (.inl (h (.inl hb)))
  · cases m with
    | true => exact k (.inl (h (.inr ⟨he, rfl, hw⟩)))
    | false => exact k (.inr ⟨he, hn, rfl⟩)

theorem told_gated (e w n b : Bool) : told e w n b (gated e w n b) := by
  unfold told gated
  cases e <;> cases w <;> cases n <;> cases b <;> simp

/-- What becomes inactive tells nothing. -/
theorem told_ends {e w n b : Bool} (h : n = true → w = true) : told e w n b b := by
  rintro (k | ⟨-, k, l⟩)
  · exact k
  · simp [h k] at l

theorem told_set {n : Nat} (e now : Bool) (v w : Vector Bool n) (u k : Fin n) :
    told e v[k] (v.set u now)[k] w[k] (w.set u (gated e v[u] now w[u]))[k] := by
  by_cases h : u = k
  · subst h
    simpa using told_gated e v[u] now w[u]
  · simpa [Vector.getElem_set, Fin.val_ne_of_ne h] using told_same

/-! ## The conditions (R178) -/

/-- The gated conditions. -/
inductive Alarm where
  | lowNormal | lowPriority | trayEmpty (u : Fin 5) | binFull (b : Fin 2) | purgeFull | outOfStep (st : Fin 24) | watermark (g : Group)
  | linkFault | exhausted | door (d : Fin 8)

/-- The condition is a DOOR condition. -/
def Alarm.ofDoor : Alarm → Bool
  | .door _ => true
  | _ => false

/-- The mask enables the condition's kind of notice. -/
def Mask.allows (m : Mask) : Alarm → Bool
  | .lowNormal | .lowPriority => m.intakeLow
  | .door _ => m.door
  | _ => m.condition

/-- The condition is active. -/
def Part.stands (s : Part) : Alarm → Bool
  | .lowNormal => s.intake.lowNormal
  | .lowPriority => s.intake.lowPriority
  | .trayEmpty u => s.feed.trayEmpty[u]
  | .binFull b => s.feed.binFull[b]
  | .purgeFull => s.gate.purgeFull
  | .outOfStep st => (s.stations[st]).outOfStep
  | .watermark g => (s.stats.groupSet g).active
  | .linkFault => s.link.fault
  | .exhausted => s.feed.exhausted
  | .door d => s.episode.doorActive[d]

/-- The condition's notice is pending. -/
def Notices.pends (n : Notices) : Alarm → Bool
  | .lowNormal => n.lowNormal
  | .lowPriority => n.lowPriority
  | .trayEmpty u => n.trayEmpty[u]
  | .binFull b => n.binFull[b]
  | .purgeFull => n.purgeFull
  | .outOfStep st => n.outOfStep[st]
  | .watermark g => (n.watermark g).isSome
  | .linkFault => n.linkFault
  | .exhausted => n.exhausted
  | .door d => n.door[d]

/-- The notices of no condition. -/
def Notices.others (n : Notices) : List JamNote × Bool × Bool × Option SpoilNote × Option SetDoneNote × Vector Bool 8 :=
  (n.jams, n.planReady, n.pathState, n.spoil, n.setDone, n.progress)

/-- What `t` tells of `s`: each condition that becomes active, a change of the path state and of a slot's counts, and everything told
before; with `drops` the DOOR notices are left out, which PATH CLOSE may withdraw (R117). -/
structure Part.hears (drops : Bool) (s t : Part) : Prop where
  mask : t.mask = s.mask
  alarms : ∀ a, (drops = true → a.ofDoor = false) → told (s.mask.allows a) (s.stands a) (t.stands a) (s.notices.pends a) (t.notices.pends a)
  path : told s.mask.pathState false (t.feed.path != s.feed.path) s.notices.pathState t.notices.pathState
  progress : ∀ i : Fin 8, s.notices.progress[i] = true → t.notices.progress[i] = true
  counts : ∀ i : Fin 8, ∀ x ∈ s.intake.slots[i], ∀ y ∈ t.intake.slots[i], s.mask.progress = true →
    (y.delivered ≠ x.delivered ∨ y.abandoned ≠ x.abandoned) → t.notices.progress[i] = true
  planReady : s.notices.planReady = true → t.notices.planReady = true
  spoil : s.notices.spoil.isSome = true → t.notices.spoil.isSome = true
  setDone : s.notices.setDone.isSome = true → t.notices.setDone.isSome = true
  jams : s.jamsApart → t.jamsApart ∧ s.notices.jams.length ≤ t.notices.jams.length

/-- No slot is taken. -/
def Part.slotsStayFree (s t : Part) : Prop := ∀ i : Fin 8, s.intake.slots[i] = none → t.intake.slots[i] = none

variable {D : Bool} {s t u : Part}

theorem Part.hears.trans (h : s.hears D t) (k : t.hears D u) 
    (free : ∀ i : Fin 8, t.intake.slots[i] = none → u.intake.slots[i] = none ∨ s.intake.slots[i] = none) : s.hears D u where
  mask := k.mask.trans h.mask
  alarms a ha := (h.alarms a ha).trans (h.mask ▸ k.alarms a ha)
  path := by
    rintro (hb | ⟨he, hn, -⟩)
    · exact k.path (.inl (h.path (.inl hb)))
    · by_cases e : t.feed.path = s.feed.path
      · exact k.path (.inr ⟨h.mask ▸ he, e ▸ hn, rfl⟩)
      · exact k.path (.inl (h.path (.inr ⟨he, by simpa using e, rfl⟩)))
  progress i hi := k.progress i (h.progress i hi)
  counts i x hx z hz he hd := by
    cases ht : t.intake.slots[i] with
    | none =>
      rcases free i ht with e | e
      · cases hz.symm.trans e
      · cases hx.symm.trans e
    | some y =>
      by_cases hy : y.delivered ≠ x.delivered ∨ y.abandoned ≠ x.abandoned
      · exact k.progress i (h.counts i x hx y ht he hy)
      · refine k.counts i y ht z hz (h.mask ▸ he) ?_
        rw [not_or, not_not, not_not] at hy
        rwa [hy.1, hy.2]
  planReady hb := k.planReady (h.planReady hb)
  spoil hb := k.spoil (h.spoil hb)
  setDone hb := k.setDone (h.setDone hb)
  jams hj := by
    obtain ⟨ht, hl⟩ := h.jams hj
    obtain ⟨hu, hm⟩ := k.jams ht
    exact ⟨hu, hl.trans hm⟩

/-- A change that tells of conditions alone. -/
theorem Part.hears_of_alarms (hm : t.mask = s.mask) (hn : t.notices.others = s.notices.others) (hp : t.feed.path = s.feed.path)
    (hs : t.intake.slots = s.intake.slots)
    (ha : ∀ a, told (s.mask.allows a) (s.stands a) (t.stands a) (s.notices.pends a) (t.notices.pends a)) : s.hears D t := by
  simp only [Notices.others, Prod.mk.injEq] at hn
  obtain ⟨hj, hr, hps, hsp, hd, hpr⟩ := hn
  refine ⟨hm, fun a _ => ha a, ?_, ?_, ?_, ?_, ?_, ?_, ?_⟩
  · rw [hp, hps, bne_self_eq_false]
    exact told_same
  · rw [hpr]
    exact fun _ h => h
  · intro i x hx y hy _ hc
    rw [hs] at hy
    cases hx.symm.trans hy
    simp at hc
  · rw [hr]; exact id
  · rw [hsp]; exact id
  · rw [hd]; exact id
  · unfold Part.jamsApart
    rw [hj]
    exact fun h => ⟨h, le_rfl⟩

/-- The signs `hears` looks at, all but the slots' freedom. -/
structure Part.sameSigns (s t : Part) : Prop where
  mask : t.mask = s.mask
  notices : t.notices = s.notices
  path : t.feed.path = s.feed.path
  slots : t.intake.slots = s.intake.slots
  stands : t.stands = s.stands

theorem Part.sameSigns.hears (h : s.sameSigns t) : s.hears D t :=
  Part.hears_of_alarms h.mask (congrArg Notices.others h.notices) h.path h.slots fun a => by
    rw [h.stands, h.notices]
    exact told_same

theorem Part.slotsStayFree_of_eq (h : t.intake.slots = s.intake.slots) : s.slotsStayFree t := fun i hi => by rw [h, hi]

theorem Part.slotsStayFree.trans (h : s.slotsStayFree t) (k : t.slotsStayFree u) : s.slotsStayFree u := fun i hi => k i (h i hi)

/-- `t` tells what has come of `s`, and no slot is taken between them. -/
structure Part.tellsOf (drops : Bool) (s t : Part) : Prop where
  hears : s.hears drops t
  free : s.slotsStayFree t

theorem Part.tellsOf.trans (h : s.tellsOf D t) (k : t.tellsOf D u) : s.tellsOf D u := 
  ⟨h.hears.trans k.hears fun i hi => .inl (k.free i hi), h.free.trans k.free⟩

theorem Part.sameSigns.tellsOf (h : s.sameSigns t) : s.tellsOf D t := ⟨h.hears, Part.slotsStayFree_of_eq h.slots⟩

theorem Part.tellsOf.refl (s : Part) : s.tellsOf D s := (⟨rfl, rfl, rfl, rfl, rfl⟩ : s.sameSigns s).tellsOf

theorem Part.tellsOf_of_alarms (hm : t.mask = s.mask) (hn : t.notices.others = s.notices.others) (hp : t.feed.path = s.feed.path)
    (hs : t.intake.slots = s.intake.slots)
    (ha : ∀ a, told (s.mask.allows a) (s.stands a) (t.stands a) (s.notices.pends a) (t.notices.pends a)) : s.tellsOf D t :=
  ⟨Part.hears_of_alarms hm hn hp hs ha, Part.slotsStayFree_of_eq hs⟩

theorem Part.tellsOf.ite {c : Prop} [Decidable c] (h : c → s.tellsOf D t) (k : ¬ c → s.tellsOf D u) : s.tellsOf D (if c then t else u) := by
  split
  · next hc => exact h hc
  · next hc => exact k hc

theorem Part.tellsOf.fold {α : Type} {f : Part → α → Part} (hf : ∀ (p : Part) (x : α), p.tellsOf D (f p x)) (l : List α) (s : Part) :
    s.tellsOf D (l.foldl f s) := by
  induction l generalizing s with
  | nil => exact .refl s
  | cons x l ih => exact (hf s x).trans (ih _)

/-- The blocks in which a sign stands. -/
def signBlocks : List Block := [.mask, .notices, .link, .stats, .gate, .feed, .stations, .episode, .intake]

/-- A change of no block in which a sign stands. -/
theorem Via.tellsOf {A : List Block} (v : Via A s t) (h : signBlocks.all (fun b => !hasBlock A b) = true) : s.tellsOf D t := by
  have off : ∀ b ∈ signBlocks, hasBlock A b = false := fun b hb => by simpa using List.all_eq_true.mp h b hb
  have stations := v.stations_eq (off _ (by decide))
  have feed := v.feed_eq (off _ (by decide))
  have intake := v.intake_eq (off _ (by decide))
  have gate := v.gate_eq (off _ (by decide))
  have stats := v.stats_eq (off _ (by decide))
  have link := v.link_eq (off _ (by decide))
  have episode := v.episode_eq (off _ (by decide))
  refine (⟨v.mask_eq (off _ (by decide)), v.notices_eq (off _ (by decide)), by rw [feed], by rw [intake], funext fun a => ?_⟩ :
    s.sameSigns t).tellsOf
  cases a <;> simp only [Part.stands, stations, feed, intake, gate, stats, link, episode]

/-- A change that learns nothing and keeps the DOOR conditions, and leaves the other blocks in which a sign stands. -/
theorem Via.tellsOf_learns {A : List Block} (v : Via A s t)
    (h : [Block.mask, .notices, .link, .stats, .gate, .feed, .intake].all (fun b => !hasBlock A b) = true) (hl : s.LearnsNothing t)
    (hd : t.episode.doorActive = s.episode.doorActive) : s.tellsOf D t := by
  have off : ∀ b ∈ [Block.mask, .notices, .link, .stats, .gate, .feed, .intake], hasBlock A b = false := fun b hb => by
    simpa using List.all_eq_true.mp h b hb
  have feed := v.feed_eq (off _ (by decide))
  have intake := v.intake_eq (off _ (by decide))
  have gate := v.gate_eq (off _ (by decide))
  have stats := v.stats_eq (off _ (by decide))
  have link := v.link_eq (off _ (by decide))
  refine (⟨v.mask_eq (off _ (by decide)), v.notices_eq (off _ (by decide)), by rw [feed], by rw [intake], funext fun a => ?_⟩ :
    s.sameSigns t).tellsOf
  cases a with
  | outOfStep st => exact congrArg (fun x => x.2.2.1) (hl st)
  | _ => simp only [Part.stands, feed, intake, gate, stats, link, hd]

/-! ## The operations that tell (R36 to R38, R43, R58, R82, R103, R116, R117, R163) -/

theorem Part.setPath_tells (s : Part) (p : PathState) : s.tellsOf D (s.setPath p) := by
  unfold Part.setPath
  split
  · exact .refl s
  · refine ⟨⟨rfl, fun a _ => by cases a <;> exact told_same, ?_, fun _ h => h, ?_, id, id, id, fun h => ⟨h, le_rfl⟩⟩,
      fun _ h => h⟩
    · rintro (h | ⟨h, -⟩)
      · exact Bool.or_eq_true_iff.mpr (.inl h)
      · exact Bool.or_eq_true_iff.mpr (.inr h)
    · intro i x hx y hy _ hc
      cases hx.symm.trans hy
      simp at hc

theorem Part.judgeTrayEmpty_tells (s : Part) (u : Fin 5) : s.tellsOf D (s.judgeTrayEmpty u) :=
  Part.tellsOf_of_alarms rfl rfl rfl rfl fun a => by
    cases a with
    | trayEmpty v => exact told_set _ _ _ _ _ _
    | _ => exact told_same

theorem Part.judgeBinFull_tells (s : Part) (b : Fin 2) : s.tellsOf D (s.judgeBinFull b) :=
  Part.tellsOf_of_alarms rfl rfl rfl rfl fun a => by
    cases a with
    | binFull v => exact told_set _ _ _ _ _ _
    | _ => exact told_same

theorem Part.judgePurgeFull_tells (s : Part) : s.tellsOf D s.judgePurgeFull :=
  Part.tellsOf_of_alarms rfl rfl rfl rfl fun a => by
    cases a with
    | purgeFull => exact told_gated _ _ _ _
    | _ => exact told_same

theorem Part.judgeIntakeLow_tells (s : Part) (k : Queue) : s.tellsOf D (s.judgeIntakeLow k) := by
  cases k with
  | normal =>
    refine Part.tellsOf_of_alarms rfl rfl rfl rfl fun a => ?_
    cases a with
    | lowNormal => exact told_gated _ _ _ _
    | _ => exact told_same
  | priority =>
    refine Part.tellsOf_of_alarms rfl rfl rfl rfl fun a => ?_
    cases a with
    | lowPriority => exact told_gated _ _ _ _
    | _ => exact told_same

theorem Part.judgeDoor_tells (s : Part) (d : Fin 8) : s.tellsOf D (s.judgeDoor d) :=
  Part.tellsOf_of_alarms rfl rfl rfl rfl fun a => by
    cases a with
    | door v => exact told_set _ _ _ _ _ _
    | _ => exact told_same

theorem Part.exhaust_tells (s : Part) : s.tellsOf D s.exhaust :=
  Part.tellsOf_of_alarms rfl rfl rfl rfl fun a => by
    cases a with
    | exhausted => exact told_gated _ _ _ _
    | _ => exact told_same

theorem Part.setStep_tells (s : Part) (st : Fin 24) (now : Bool) : s.tellsOf D (s.setStep st now) :=
  Part.tellsOf_of_alarms rfl rfl rfl rfl fun a => by
    cases a with
    | outOfStep v =>
      have e : ((s.setStep st now).stations[v]).outOfStep = if v = st then now else (s.stations[v]).outOfStep := by
        show ((s.modStation st fun x => { x with outOfStep := now }).stations[v]).outOfStep = _
        rw [Part.getElem_modStation]
        split
        · rfl
        · rfl
      have n : (s.setStep st now).notices.outOfStep =
          s.notices.outOfStep.set st (gated s.mask.condition (s.stations[st]).outOfStep now (s.notices.outOfStep[st])) := rfl
      show told s.mask.condition (s.stations[v]).outOfStep ((s.setStep st now).stations[v]).outOfStep s.notices.outOfStep[v]
        ((s.setStep st now).notices.outOfStep)[v]
      rw [e, n]
      by_cases h : v = st
      · subst h
        simpa using told_gated s.mask.condition (s.stations[v]).outOfStep now s.notices.outOfStep[v]
      · rw [if_neg h]
        simpa [Vector.getElem_set, Fin.val_ne_of_ne (Ne.symm h)] using told_same
    | _ => exact told_same

theorem Notices.watermark_setWatermark_other (n : Notices) {g h : Group} (y : Option WatermarkNote) (e : h ≠ g) :
    (n.setWatermark g y).watermark h = n.watermark h := by
  cases g <;> cases h <;> simp_all [Notices.setWatermark, Notices.watermark]

/-- A group's condition judged (R163). -/
theorem Part.judgeWatermark_tells (s : Part) (g : Group) (r c : Nat) : s.tellsOf D (s.judgeWatermark g r c) := by
  have fields : (s.judgeWatermark g r c).notices.others = s.notices.others ∧ (∀ a, (∀ h, a ≠ .watermark h) →
      (s.judgeWatermark g r c).notices.pends a = s.notices.pends a) ∧ ∀ h, (s.judgeWatermark g r c).notices.watermark h =
        if h = g ∧ s.mask.condition = true ∧ s.stats.reached g = true ∧ (s.stats.groupSet g).active = false then
          some ⟨(s.stats.groupSet g).watermark, r, c⟩ else s.notices.watermark h := by
    unfold Part.judgeWatermark
    dsimp only
    split
    · next hc =>
      simp only [Bool.and_eq_true, Bool.not_eq_true'] at hc
      obtain ⟨⟨hm, hr⟩, ha⟩ := hc
      have hm : s.mask.condition = true := hm
      have w : ((s.stats.setGroup g { s.stats.groupSet g with active := s.stats.reached g }).groupSet g).watermark =
          (s.stats.groupSet g).watermark := by cases g <;> rfl
      refine ⟨by cases g <;> rfl, fun a h => ?_, fun h => ?_⟩
      · cases a with
        | watermark h' => exact absurd rfl (h h')
        | _ => cases g <;> rfl
      · rw [Part.modNotices_notices, Part.modStats_stats, w]
        by_cases e : h = g
        · rw [if_pos ⟨e, hm, hr, ha⟩, e]
          cases g <;> rfl
        · rw [if_neg fun k => e k.1]
          exact s.notices.watermark_setWatermark_other _ e
    · next hc =>
      refine ⟨rfl, fun _ _ => rfl, fun h => (if_neg fun k => hc ?_).symm⟩
      obtain ⟨-, hm, hr, ha⟩ := k
      simp only [Bool.and_eq_true, Bool.not_eq_true']
      exact ⟨⟨hm, hr⟩, ha⟩
  obtain ⟨others, same, marks⟩ := fields
  have via := s.judgeWatermark_via g r c
  have stands : ∀ a, (∀ h, a ≠ .watermark h) → (s.judgeWatermark g r c).stands a = s.stands a := by
    intro a ha
    cases a with
    | watermark h => exact absurd rfl (ha h)
    | _ =>
      simp only [Part.stands, via.feed_eq rfl, via.intake_eq rfl, via.gate_eq rfl, via.stations_eq rfl, via.link_eq rfl, via.episode_eq rfl]
  refine Part.tellsOf_of_alarms (via.mask_eq rfl) others (by rw [via.feed_eq rfl]) (by rw [via.intake_eq rfl]) fun a => ?_
  by_cases ha : ∀ h, a ≠ .watermark h
  · rw [same a ha, stands a ha]
    exact told_same
  · obtain ⟨h, rfl⟩ : ∃ h, a = .watermark h := by simpa using ha
    show told s.mask.condition (s.stats.groupSet h).active ((s.judgeWatermark g r c).stats.groupSet h).active
      (s.notices.watermark h).isSome ((s.judgeWatermark g r c).notices.watermark h).isSome
    rw [marks, Part.judgeWatermark_stats]
    by_cases e : h = g
    · subst e
      have now : ((s.stats.judged h).groupSet h).active = s.stats.reached h := by cases h <;> rfl
      rw [now]
      rintro (k | ⟨hm, hr, ha⟩)
      · split
        · rfl
        · exact k
      · rw [if_pos ⟨rfl, hm, hr, ha⟩]
        rfl
    · rw [Stats.groupSet_judged_other _ _ _ e, if_neg fun k => e k.1]
      exact told_same

/-- A change of the Statistics Unit that keeps every condition. -/
theorem Part.modStats_tells (s : Part) (g : Stats → Stats) (h : ∀ k, ((g s.stats).groupSet k).active = (s.stats.groupSet k).active) :
    s.tellsOf D (s.modStats g) :=
  Part.tellsOf_of_alarms rfl rfl rfl rfl fun a => by
    cases a with
    | watermark k =>
      show told _ (s.stats.groupSet k).active ((g s.stats).groupSet k).active _ _
      rw [h k]
      exact told_same
    | _ => exact told_same

theorem Part.countStation_tells (s : Part) (st : Fin 24) (c : Fin 3) : s.tellsOf D (s.countStation st c) := by
  unfold Part.countStation
  exact (s.modStats_tells _ (by intro k; cases k <;> rfl)).trans (Part.judgeWatermark_tells ..)

theorem Part.countTray_tells (s : Part) (u : Fin 5) (c : Fin 3) : s.tellsOf D (s.countTray u c) := by
  unfold Part.countTray
  exact (s.modStats_tells _ (by intro k; cases k <;> rfl)).trans (Part.judgeWatermark_tells ..)

theorem Part.countPath_tells (s : Part) (c : Fin 10) : s.tellsOf D (s.countPath c) := by
  unfold Part.countPath
  exact (s.modStats_tells _ (by intro k; cases k <;> rfl)).trans (Part.judgeWatermark_tells ..)

theorem Part.clearCounters_tells (s : Part) (g : Group) (i k : Nat) :
    s.tellsOf D ((s.modStats fun x => x.cleared g i).judgeWatermark g i k) :=
  (s.modStats_tells _ fun h => by rw [Stats.groupSet_cleared]).trans (Part.judgeWatermark_tells ..)

theorem Part.setWidth_tells (s : Part) (g : Group) (w : Width) (m : Nat) : s.tellsOf D (s.setWidth g w m) := by
  rw [Part.setWidth_eq]
  refine (s.modStats_tells _ fun h => ?_).trans (Part.judgeWatermark_tells ..)
  rw [Stats.groupSet_withWidth]
  split
  · next e => rw [e]
  · rfl

end Sys2Proof.Machine
end

