-- ==== Sys2Proof/Proofs/KeptTold.lean ====
section
/-! PROOF. Every move without leave to withdraw notices or to accept a page tells what has come of the part. -/

namespace Sys2Proof.Machine

variable {D : Bool} {s t : Part}

/-! ## Changes of one block -/

theorem Part.modPlanner_tells (s : Part) (g : Planner → Planner) : s.tellsOf D (s.modPlanner g) :=
  (Via.planner (A := [.planner]) (.refl s) g rfl).tellsOf rfl

theorem Part.modFinisher_tells (s : Part) (g : Finisher → Finisher) : s.tellsOf D (s.modFinisher g) :=
  (Via.finisher (A := [.finisher]) (.refl s) g rfl).tellsOf rfl

theorem Part.modOut_tells (s : Part) (g : Outputs → Outputs) : s.tellsOf D (s.modOut g) :=
  (Via.out (A := [.out]) (.refl s) g rfl).tellsOf rfl

theorem Part.modDry_tells (s : Part) (g : Dry → Dry) : s.tellsOf D (s.modDry g) :=
  (Via.dry (A := [.dry]) (.refl s) g rfl).tellsOf rfl

theorem Part.modCalls_tells (s : Part) (g : Calls → Calls) : s.tellsOf D (s.modCalls g) :=
  (Via.calls (A := [.calls]) (.refl s) g rfl).tellsOf rfl

theorem Part.modFeed_tells (s : Part) (g : Feed → Feed) (h : (g s.feed).path = s.feed.path ∧ (g s.feed).trayEmpty = s.feed.trayEmpty ∧
    (g s.feed).binFull = s.feed.binFull ∧ (g s.feed).exhausted = s.feed.exhausted) : s.tellsOf D (s.modFeed g) := by
  obtain ⟨hp, ht, hb, he⟩ := h
  refine (⟨rfl, rfl, hp, rfl, funext fun a => ?_⟩ : s.sameSigns (s.modFeed g)).tellsOf
  cases a with
  | trayEmpty u => exact congrArg (fun v : Vector Bool 5 => v[u]) ht
  | binFull b => exact congrArg (fun v : Vector Bool 2 => v[b]) hb
  | exhausted => exact he
  | _ => rfl

/-- A change of the intake that keeps both INTAKE LOW conditions and the counts of each slot that stays held. -/
theorem Part.modIntake_hears (s : Part) (g : Intake → Intake)
    (h : (g s.intake).lowNormal = s.intake.lowNormal ∧ (g s.intake).lowPriority = s.intake.lowPriority)
    (hs : ∀ k : Fin 8, ∀ x ∈ s.intake.slots[k], ∀ y ∈ (g s.intake).slots[k], y.delivered = x.delivered ∧ y.abandoned = x.abandoned) :
    s.hears D (s.modIntake g) := by
  obtain ⟨hn, hp⟩ := h
  refine ⟨rfl, fun a _ => ?_, ?_, fun _ => id, fun k x hx y hy _ hc => ?_, id, id, id, fun h => ⟨h, le_rfl⟩⟩
  · have e : (s.modIntake g).stands a = s.stands a := by
      cases a with
      | lowNormal => exact hn
      | lowPriority => exact hp
      | _ => rfl
    rw [e]
    exact told_same
  · rw [Part.modIntake_feed, bne_self_eq_false]
    exact told_same
  · simp [hs k x hx y hy] at hc

/-- And takes no slot. -/
theorem Part.modIntake_tells (s : Part) (g : Intake → Intake)
    (h : (g s.intake).lowNormal = s.intake.lowNormal ∧ (g s.intake).lowPriority = s.intake.lowPriority)
    (hs : ∀ k : Fin 8, ∀ y ∈ (g s.intake).slots[k], ∃ x, s.intake.slots[k] = some x ∧ y.delivered = x.delivered ∧ y.abandoned = x.abandoned) :
    s.tellsOf D (s.modIntake g) := by
  refine ⟨s.modIntake_hears g h fun k x hx y hy => ?_, fun k hk => ?_⟩
  · obtain ⟨z, hz, e⟩ := hs k y hy
    cases hx.symm.trans hz
    exact e
  · refine Option.eq_none_iff_forall_ne_some.mpr fun y hy => ?_
    obtain ⟨z, hz, -⟩ := hs k y hy
    cases hk.symm.trans hz

theorem Part.modEpisode_tells (s : Part) (g : Episode → Episode) (h : (g s.episode).doorActive = s.episode.doorActive) :
    s.tellsOf D (s.modEpisode g) :=
  (Via.episode (A := [.episode]) (.refl s) g rfl).tellsOf_learns rfl (.of_stations rfl) h

theorem Part.modGate_tells (s : Part) (g : Gate → Gate) (h : (g s.gate).purgeFull = s.gate.purgeFull) : s.tellsOf D (s.modGate g) := by
  refine (⟨rfl, rfl, rfl, rfl, funext fun a => ?_⟩ : s.sameSigns (s.modGate g)).tellsOf
  cases a with
  | purgeFull => exact h
  | _ => rfl

theorem Part.modLink_tells (s : Part) (g : Link → Link) (h : (g s.link).fault = true → s.link.fault = true) : s.tellsOf D (s.modLink g) :=
  Part.tellsOf_of_alarms rfl rfl rfl rfl fun a => by
    cases a with
    | linkFault => exact told_ends h
    | _ => exact told_same

/-- A change by which no station comes to be out of step. -/
theorem Via.tellsOf_stations {A : List Block} (v : Via A s t)
    (hA : [Block.mask, .notices, .link, .stats, .gate, .feed, .intake, .episode].all (fun b => !hasBlock A b) = true)
    (h : ∀ st : Fin 24, (t.stations[st]).outOfStep = true → (s.stations[st]).outOfStep = true) : s.tellsOf D t := by
  have off : ∀ b ∈ [Block.mask, .notices, .link, .stats, .gate, .feed, .intake, .episode], hasBlock A b = false := fun b hb => by
    simpa using List.all_eq_true.mp hA b hb
  have notices := v.notices_eq (off _ (by decide))
  have feed := v.feed_eq (off _ (by decide))
  have intake := v.intake_eq (off _ (by decide))
  have gate := v.gate_eq (off _ (by decide))
  have stats := v.stats_eq (off _ (by decide))
  have link := v.link_eq (off _ (by decide))
  have episode := v.episode_eq (off _ (by decide))
  refine Part.tellsOf_of_alarms (v.mask_eq (off _ (by decide))) (congrArg Notices.others notices) (by rw [feed]) (by rw [intake]) fun a => ?_
  cases a with
  | outOfStep st =>
    rw [notices]
    exact told_ends (h st)
  | _ =>
    simp only [Part.stands, notices, feed, intake, gate, stats, link, episode]
    exact told_same

theorem Station.learn_outOfStep (x : Station) (tm : Timing) (r : Int) (o : Arrival) : (x.learn tm r o).outOfStep = x.outOfStep := by
  unfold Station.learn
  dsimp only
  split <;> rfl

theorem Part.learnAt_tells (s : Part) (st : Fin 24) (r : Int) (o : Arrival) : s.tellsOf D (s.learnAt st r o) := by
  unfold Part.learnAt
  dsimp only
  refine .trans (Via.tellsOf_stations (s.modStation_via st fun x => x.learn s.force.timing r o) rfl fun u hu => ?_)
    (Part.setStep_tells (s.modStation st fun x => x.learn s.force.timing r o) st _)
  rw [Part.getElem_modStation] at hu
  split at hu
  · next e => rwa [e, ← Station.learn_outOfStep]
  · exact hu

theorem Station.onClose_inStep (x : Station) (c : Bool) (tm : Timing) (h : (x.onClose c tm).outOfStep = true) : x.outOfStep = true := by
  unfold Station.onClose at h
  split at h
  · cases h
  · exact h

theorem Part.putInForce_stations (s : Part) (st : Fin 24) : s.putInForce.stations[st] =
    (s.stations[st]).onClose (stationChanged (s.force.stations[st]) (s.stored.stations[st])) s.stored.timing := by
  unfold Part.putInForce
  simp

theorem Part.putInForce_tells (s : Part) : s.tellsOf D s.putInForce :=
  Via.tellsOf_stations s.putInForce_via rfl fun st h => Station.onClose_inStep _ _ _ (s.putInForce_stations st ▸ h)

/-! ## Notices of no condition -/

/-- A change of the notices of no condition, by which none goes. -/
theorem Part.modNotices_tells (s : Part) (g : Notices → Notices) (hp : (g s.notices).pends = s.notices.pends)
    (ho : (g s.notices).pathState = s.notices.pathState ∧ (g s.notices).progress = s.notices.progress)
    (hr : s.notices.planReady = true → (g s.notices).planReady = true)
    (hs : s.notices.spoil.isSome = true → (g s.notices).spoil.isSome = true)
    (hd : s.notices.setDone.isSome = true → (g s.notices).setDone.isSome = true)
    (hj : s.jamsApart → (s.modNotices g).jamsApart ∧ s.notices.jams.length ≤ (g s.notices).jams.length) :
    s.tellsOf D (s.modNotices g) := by
  refine ⟨⟨rfl, fun a _ => ?_, ?_, fun i hi => ?_, fun i x hx y hy _ hc => ?_, hr, hs, hd, hj⟩, fun _ => id⟩
  · rw [Part.modNotices_notices, hp]
    exact told_same
  · rw [Part.modNotices_notices, ho.1, Part.modNotices_feed, bne_self_eq_false]
    exact told_same
  · rwa [Part.modNotices_notices, ho.2]
  · cases hx.symm.trans hy
    simp at hc

theorem Part.notePlanReady_tells (s : Part) : s.tellsOf D s.notePlanReady :=
  s.modNotices_tells _ (funext fun a => by cases a <;> rfl) ⟨rfl, rfl⟩ (fun _ => rfl) id id fun h => ⟨h, le_rfl⟩

theorem length_le_filter_ne {α β : Type} [DecidableEq β] (f : α → β) (b : β) {l : List α} (h : (l.map f).Nodup) :
    l.length ≤ (l.filter fun x => f x != b).length + 1 := by
  have once : l.countP (fun x => f x == b) ≤ 1 := by
    have e : (l.map f).count b = l.countP fun x => f x == b := by
      rw [List.count, List.countP_map]
      rfl
    exact e ▸ List.nodup_iff_count_le_one.mp h b
  have split := List.length_eq_countP_add_countP (fun x => f x != b) (l := l)
  have e : (fun x => decide ¬ (f x != b) = true) = fun x => f x == b := funext fun x => by by_cases h : f x = b <;> simp [h]
  rw [e] at split
  rw [← List.countP_eq_length_filter]
  omega

/-- A JAM notice takes the place of at most one, that of its position (R116). -/
theorem Part.noteRecord_tells (s : Part) (k : Nat) (j : Jam) : s.tellsOf D (s.noteRecord k j) :=
  s.modNotices_tells _ (funext fun a => by cases a <;> rfl) ⟨rfl, rfl⟩ id id id fun h =>
    ⟨(Move.noteRecord (q := .free) (a := .settled) k j).jamsApart h, by
      simpa using length_le_filter_ne JamNote.position k h⟩

theorem Part.noteSpoil_tells (s : Part) (sheet page n : Nat) : s.tellsOf D (s.noteSpoil sheet page n) := by
  unfold Part.noteSpoil
  dsimp only
  refine .trans (s.modGate_tells (fun g => { g with spoilCount := g.spoilCount + 1 }) rfl) (.ite (fun _ => ?_) fun _ => .refl _)
  exact Part.modNotices_tells _ _ (funext fun a => by cases a <;> rfl) ⟨rfl, rfl⟩ id (fun _ => rfl) id fun h => ⟨h, le_rfl⟩

theorem Part.noteSetDone_tells (s : Part) (x : SetDoneNote) : s.tellsOf D (s.modNotices fun n => { n with setDone := some x }) :=
  s.modNotices_tells _ (funext fun a => by cases a <;> rfl) ⟨rfl, rfl⟩ id id (fun _ => rfl) fun h => ⟨h, le_rfl⟩

/-! ## A slot's counts (R36, R37) -/

/-- A change of a slot's counts, with its PROGRESS noted. -/
theorem Part.slotCount_tells (s : Part) (i : Fin 8) (g : Slot → Slot) : s.tellsOf D ((s.modSlot i g).noteProgress i) := by
  have slots : ∀ k : Fin 8, ((s.modSlot i g).noteProgress i).intake.slots[k] = if k = i then (s.intake.slots[i]).map g else s.intake.slots[k] :=
    fun k => s.modSlot_slots i g k
  have progress : ∀ k : Fin 8, ((s.modSlot i g).noteProgress i).notices.progress[k] =
      if k = i then s.notices.progress[i] || s.mask.progress else s.notices.progress[k] := fun k => (s.modSlot i g).noteProgress_progress i k
  refine ⟨⟨rfl, fun a _ => by cases a <;> exact told_same, ?_, fun k hk => ?_, fun k x hx y hy he hc => ?_, id, id, id, fun h => ⟨h, le_rfl⟩⟩,
    fun k hk => ?_⟩
  · show told _ _ (s.feed.path != s.feed.path) _ _
    rw [bne_self_eq_false]
    exact told_same
  · rw [progress k]
    split
    · next e => rw [← e, hk]; rfl
    · exact hk
  · rw [slots k] at hy
    rw [progress k]
    split at hy
    · next e => rw [if_pos e, he, Bool.or_true]
    · cases hx.symm.trans hy
      simp at hc
  · rw [slots k]
    split
    · next e => rw [← e, hk]; rfl
    · exact hk

/-- A change of a slot that keeps its counts of pages delivered and abandoned. -/
theorem Part.modSlot_tells (s : Part) (i : Fin 8) (g : Slot → Slot) (h : ∀ y, (g y).delivered = y.delivered ∧ (g y).abandoned = y.abandoned) :
    s.tellsOf D (s.modSlot i g) :=
  s.modIntake_tells _ ⟨rfl, rfl⟩ fun k y hy => by
    have hy : (s.modSlot i g).intake.slots[k] = some y := hy
    rw [s.modSlot_slots i g k] at hy
    split at hy
    · next e =>
      obtain ⟨x, hx, rfl⟩ := Option.map_eq_some_iff.mp hy
      exact ⟨x, e ▸ hx, h x⟩
    · exact ⟨y, hy, rfl, rfl⟩

theorem Part.examineSlot_tells (s : Part) (i : Fin 8) : s.tellsOf D (s.examineSlot i) := by
  unfold Part.examineSlot
  split
  · exact .refl s
  · refine .ite (fun _ => ?_) fun _ => .refl s
    refine s.modIntake_tells _ ⟨rfl, rfl⟩ fun k y hy => ⟨y, ?_, rfl, rfl⟩
    simp only [Fin.getElem_fin, Vector.getElem_set, Option.mem_def] at hy ⊢
    split at hy
    · cases hy
    · exact hy

/-- Pages delivered (R36). -/
theorem Part.deliverPages_tells (s : Part) (job : Nat) (pages : List Page) : s.tellsOf D (s.deliverPages job pages) := by
  unfold Part.deliverPages
  split
  · next i p _ _ =>
    exact .trans (s.slotCount_tells i fun x => { x with delivered := x.delivered + pages.length, lastPage := some p.id })
      (Part.examineSlot_tells _ i)
  · exact .refl s

/-! ## Operations made of several changes -/

theorem Part.abandonPlanned_tells (s : Part) (job : Nat) : s.tellsOf D (s.abandonPlanned job) := by
  have list := s.modPlanner_tells (D := D) fun x => { x with list := x.list.filter fun y => y.page.job != job }
  unfold Part.abandonPlanned
  dsimp only
  refine .ite (fun _ => list.trans (.trans (Part.modPlanner_tells _ _) (Part.notePlanReady_tells _))) fun _ => list

theorem Feed.abandonMarks_signs (f : Feed) (job : Nat) : (f.abandonMarks job).path = f.path ∧ (f.abandonMarks job).trayEmpty = f.trayEmpty ∧
    (f.abandonMarks job).binFull = f.binFull ∧ (f.abandonMarks job).exhausted = f.exhausted := ⟨rfl, rfl, rfl, rfl⟩

theorem Part.withdrawJob_tells (s : Part) (job : Nat) : s.tellsOf D (s.withdrawJob job) := by
  have sheets : ∀ (l : List Sheet) (p : Part), p.tellsOf D (l.foldl Part.abandonSheet p) := fun l p =>
    .fold (fun p x => (p.abandonSheet_via x).tellsOf rfl) l p
  unfold Part.withdrawJob
  dsimp only
  refine .trans (.trans (.trans (.trans (s.modIntake_tells _ ⟨rfl, rfl⟩ fun k y hy => ⟨y, hy, rfl, rfl⟩) (Part.abandonPlanned_tells _ job))
    (sheets _ _)) (Part.modFinisher_tells _ _)) (Part.modFeed_tells _ _ (Feed.abandonMarks_signs _ job))

theorem Part.abandonCore_tells (s : Part) (job : Nat) (i : Fin 8) : s.tellsOf D (s.abandonCore job i) := by
  unfold Part.abandonCore
  dsimp only
  refine .ite (fun h => (s.withdrawJob_tells job).trans (Part.modSlot_tells _ _ _ fun y => ⟨rfl, ?_⟩)) fun _ =>
    (s.withdrawJob_tells job).trans (Part.slotCount_tells _ _ _)
  show y.abandoned + s.abandonCount job = y.abandoned
  omega

theorem Part.discardCore_tells (s : Part) : s.tellsOf D s.discardCore :=
  Part.tellsOf_of_alarms rfl rfl rfl rfl fun a => by
    cases a with
    | linkFault => exact told_gated _ _ _ _
    | _ => exact told_same

/-- A path state entered from a Feed Scheduler whose conditions stand. -/
theorem Part.modFeed_setPath_tells (s : Part) (g : Feed → Feed) (p : PathState)
    (h : (g s.feed).path = s.feed.path ∧ (g s.feed).trayEmpty = s.feed.trayEmpty ∧
      (g s.feed).binFull = s.feed.binFull ∧ (g s.feed).exhausted = s.feed.exhausted) : s.tellsOf D ((s.modFeed g).setPath p) :=
  (s.modFeed_tells g h).trans (Part.setPath_tells _ p)

theorem Part.armRunOn_tells (s : Part) : s.tellsOf D s.armRunOn :=
  .ite (fun _ => s.modFeed_tells _ ⟨rfl, rfl, rfl, rfl⟩) fun _ => .refl s

theorem Part.enterDraining_tells (s : Part) : s.tellsOf D s.enterDraining :=
  (s.modFeed_setPath_tells (fun f => { f with pickTimer := none, holdoff := none }) .draining ⟨rfl, rfl, rfl, rfl⟩).trans
    (Part.armRunOn_tells _)

theorem Part.enterIdle_tells (s : Part) : s.tellsOf D s.enterIdle :=
  (s.stopDrives_via.tellsOf rfl).trans (Part.modFeed_setPath_tells s.stopDrives
    (fun f => { f with runOn := none, normalMark := true, priorityMark := true, lastBound := none }) .idle ⟨rfl, rfl, rfl, rfl⟩)

theorem Part.closeEpisode_tells (s : Part) : s.tellsOf D s.closeEpisode :=
  s.modEpisode_tells (fun e => { e with isOpen := false, areas := 0, barred := false }) rfl

theorem Part.enterPath_tells (s : Part) : s.tellsOf D s.enterPath :=
  .trans (.trans (s.modFeed_setPath_tells _ .starting ⟨rfl, rfl, rfl, rfl⟩) (Part.modOut_tells _ _)) ((Part.runDrives_via _).tellsOf rfl)

theorem Part.start_tells (s : Part) : s.tellsOf D s.start :=
  s.enterPath_tells.trans (Part.modFeed_tells _ (fun f => { f with ramp := some (plusTicks s.tick ((s.force.drive.map DriveSet.ramp).getD 0)) }) ⟨rfl, rfl, rfl, rfl⟩)

theorem Part.halt_tells (s : Part) (b : Bool) : s.tellsOf D (s.halt b) :=
  .ite (fun _ => (s.modOut_tells fun o => { o with enFeed := false, enProcess := false, enDuplex := false, enDelivery := true }).trans
    (Part.setPath_tells _ _)) fun _ => (s.stopDrives_via.tellsOf rfl).trans (Part.setPath_tells _ _)

theorem Part.addAreas_tells (s : Part) (a : AreaSet) : s.tellsOf D (s.addAreas a) :=
  s.modEpisode_tells (fun e => { e with areas := e.areas ||| a }) rfl

theorem Part.strand_tells (s : Part) (p : Sheet → Bool) : s.tellsOf D (s.strand p) :=
  (s.strand_via p).tellsOf_learns rfl (s.learnsNothing_strand p) rfl

theorem Part.removeSheet_tells (s : Part) (n : Nat) : s.tellsOf D (s.removeSheet n) :=
  (s.removeSheet_via n).tellsOf_learns rfl (s.learnsNothing_removeSheet n) rfl

theorem Part.uncover_tells (s : Part) (x : Sheet) (st : Fin 24) : s.tellsOf D (s.uncover x st) :=
  (s.uncover_via x st).tellsOf_learns rfl (s.learnsNothing_uncover x st) (by rw [(s.uncover_via x st).episode_eq rfl])

theorem Part.feedOnEpisode_tells (s : Part) : s.tellsOf D s.feedOnEpisode :=
  (s.modFeed_tells (fun f => { f with
    pickTimer := none, holdoff := none, ramp := none, runOn := none, hold := false, setEnd := false }) ⟨rfl, rfl, rfl, rfl⟩).trans
    (Part.modOut_tells _ fun o => { o with clutch := .replicate 5 false })

theorem Part.openCore_tells (s : Part) (j : Jam) (extra : AreaSet) : s.tellsOf D (s.openCore j extra) := by
  unfold Part.openCore
  dsimp only
  generalize hp : (s.modEpisode fun e => { e with
    number := e.number + 1, isOpen := true, firstKind := some j.kind, records := [j], overflow := 0, areas := extra,
    sweepTimer := none, barred := false }).feedOnEpisode = p
  have opened : s.tellsOf D p := hp ▸ (s.modEpisode_tells _ rfl).trans (Part.feedOnEpisode_tells _)
  have ran := opened.trans ((p.makeRunOut_via (p.runOutSet j)).tellsOf rfl)
  have stranded := ran.trans (Part.strand_tells _ fun x => !(p.runOutSet j).contains x.number)
  have kept := stranded.trans ((Part.retain_via _).tellsOf rfl)
  refine ((kept.trans (Part.addAreas_tells _ (areaSet j.area))).trans ?_).trans (Part.halt_tells _ _)
  exact .ite (fun _ => Part.addAreas_tells _ _) fun _ => .refl _

theorem Part.startJammed_tells (s : Part) (st : Fin 24) : s.tellsOf D (s.startJammed st) :=
  (s.enterPath_tells.trans (Part.countStation_tells _ st 2)).trans (Part.openCore_tells _ _ _)

theorem Part.planSheet_tells (s : Part) (x : Sheet) : s.tellsOf D (s.planSheet x) :=
  ((s.reprint_via .stranded x.pages).tellsOf rfl).trans (Part.removeSheet_tells _ _)

theorem Part.planBuild_tells (s : Part) : s.tellsOf D s.planBuild := by
  unfold Part.planBuild
  dsimp only
  have stopped : s.tellsOf D (s.stopDrives.modEpisode fun e => { e with sweepTimer := none }) :=
    (s.stopDrives_via.tellsOf rfl).trans (Part.modEpisode_tells _ _ rfl)
  have planned := stopped.trans (.fold (f := Part.planSheet) (fun p x => p.planSheet_tells x)
    ((s.stopDrives.modEpisode fun e => { e with sweepTimer := none }).table.sheets.filter fun x => x.cond == .stranded) _)
  have set_ := planned.trans ((Part.planSet_via _).tellsOf rfl)
  have empty := set_.trans (.trans (Part.modFeed_tells _ (fun f => { f with merge := [], unconfirmed := none }) ⟨rfl, rfl, rfl, rfl⟩)
    (Part.modCalls_tells _ fun _ => ⟨[], []⟩))
  exact .trans (.trans (empty.trans (Part.modPlanner_tells _ fun p => { p with revision := p.revision + 1, readThrough := false }))
    (Part.setPath_tells _ _)) (Part.notePlanReady_tells _)

theorem Part.takeNext_tells (s : Part) (n : NextPage) : s.tellsOf D (s.takeNext n) := by
  unfold Part.takeNext
  dsimp only
  split
  · exact s.modPlanner_tells _
  · exact (s.modIntake_tells _ ⟨rfl, rfl⟩ fun k y hy => ⟨y, hy, rfl, rfl⟩).trans (Part.judgeIntakeLow_tells _ _)
  · exact (s.modIntake_tells _ ⟨rfl, rfl⟩ fun k y hy => ⟨y, hy, rfl, rfl⟩).trans (Part.judgeIntakeLow_tells _ _)

theorem Feed.bound_signs (f : Feed) (n : NextPage) : (f.bound n).path = f.path ∧ (f.bound n).trayEmpty = f.trayEmpty ∧
    (f.bound n).binFull = f.binFull ∧ (f.bound n).exhausted = f.exhausted := by
  unfold Feed.bound
  dsimp only
  split <;> exact ⟨rfl, rfl, rfl, rfl⟩

theorem Part.notePick_tells (s : Part) (n : NextPage) : s.tellsOf D (s.notePick n) := by
  unfold Part.notePick
  dsimp only
  have bound : s.tellsOf D (s.modFeed fun f =>
      { f.bound n with nextSheet := s.feed.nextSheet + 1, pickTimer := none, holdoff := none, unconfirmed := some s.feed.nextSheet }) :=
    s.modFeed_tells _ (Feed.bound_signs s.feed n)
  exact .ite (fun _ => bound.trans (Part.exhaust_tells _)) fun _ => bound

theorem Part.reserve_tells (s : Part) (x : Sheet) (kind : ResvKind) (leg : LegName) : s.tellsOf D (s.reserve x kind leg) := by
  unfold Part.reserve
  exact s.modFeed_tells _ ⟨rfl, rfl, rfl, rfl⟩

theorem Part.pickCore_tells (s : Part) (n : NextPage) : s.tellsOf D (s.pickCore n) := by
  unfold Part.pickCore
  dsimp only
  have joined := ((s.takeNext_tells (D := D) n).trans ((Part.joinTable_via _ (s.newSheet n)).tellsOf rfl)).trans
    ((Part.armNext_via _ (s.newSheet n).number).tellsOf rfl)
  have reserved := joined.trans (Part.reserve_tells _ (s.newSheet n) .feed (feedLegOf n.unit))
  have pulsed := reserved.trans (Part.modOut_tells _ fun o => { o with clutch := o.clutch.set n.unit true })
  exact (pulsed.trans ((Part.callFront_via _ (s.newSheet n) n.front).tellsOf rfl)).trans (Part.notePick_tells _ n)

theorem Part.countPurge_tells (s : Part) : s.tellsOf D s.countPurge := by
  unfold Part.countPurge
  refine .trans (.ite (fun _ => .refl s) fun _ => ?_) (Part.countPath_tells _ 3)
  exact (s.modGate_tells _ rfl).trans (Part.judgePurgeFull_tells _)

theorem Part.deliverTo_tells (s : Part) (x : Sheet) (r : Option Role) : s.tellsOf D (s.deliverTo x r) := by
  have bin := (s.deliverPages_tells (D := D) x.job x.pages).trans (Part.countPath_tells _ 1)
  unfold Part.deliverTo
  split
  · exact bin
  · exact bin
  · exact (s.handOver_via x).tellsOf rfl
  · exact s.countPurge_tells
  · exact .refl s

theorem Part.deliverCore_tells (s : Part) (x : Sheet) (st : Fin 24) : s.tellsOf D (s.deliverCore x st) :=
  (s.deliverTo_tells x _).trans (Part.removeSheet_tells _ _)

theorem Part.eject_tells (s : Part) (b : Bool) : s.tellsOf D (s.eject b) := (s.eject_via b).tellsOf rfl

theorem Part.stapled_tells (s : Part) : s.tellsOf D s.stapled := by
  unfold Part.stapled
  exact ((((s.modOut_tells _).trans (Part.modFinisher_tells _ _)).trans (Part.modDry_tells _ _)).trans
    (Part.countPath_tells _ 7)).trans (Part.eject_tells _ false)

theorem Part.endFinal_tells (s : Part) : s.tellsOf D s.endFinal := by
  unfold Part.endFinal
  dsimp only
  have counted : s.tellsOf D (if s.finisher.abandoned then s else s.countPath 8) :=
    .ite (fun _ => .refl s) fun _ => s.countPath_tells 8
  refine (counted.trans (.ite (fun _ => ?_) fun _ => .refl _)).trans (Part.modFinisher_tells _ _)
  exact Part.noteSetDone_tells _ _

theorem Part.completeEject_tells (s : Part) : s.tellsOf D s.completeEject := by
  unfold Part.completeEject
  dsimp only
  have rested := ((s.modOut_tells (D := D) fun o => { o with ejector := false }).trans
    (Part.modFinisher_tells _ fun f => { f with ejectLimit := none })).trans (Part.modDry_tells _ fun d => { d with home := none })
  have delivered := rested.trans (Part.deliverPages_tells _ (s.finisher.ident.getD (0, 0)).1 (s.finisher.sheets.flatMap Held.pages))
  exact .ite (fun _ => delivered.trans (Part.modFinisher_tells _ _)) fun _ => delivered.trans (Part.endFinal_tells _)

/-! ## Every move -/

/-- What the moves of a Feed Scheduler's core keep. -/
theorem Feed.signs_of_core {f g : Feed} (h : g.core = f.core) : g.path = f.path ∧ g.trayEmpty = f.trayEmpty ∧ g.binFull = f.binFull ∧
    g.exhausted = f.exhausted :=
  ⟨(congrArg Feed.path h :), (congrArg Feed.trayEmpty h :), (congrArg Feed.binFull h :), (congrArg Feed.exhausted h :)⟩

theorem Feed.signs_of_hold {f g : Feed} (h : { g with hold := false, setEnd := false } = { f with hold := false, setEnd := false }) :
    g.path = f.path ∧ g.trayEmpty = f.trayEmpty ∧ g.binFull = f.binFull ∧ g.exhausted = f.exhausted :=
  ⟨(congrArg Feed.path h :), (congrArg Feed.trayEmpty h :), (congrArg Feed.binFull h :), (congrArg Feed.exhausted h :)⟩

/-- Every move without leave to withdraw notices or to accept a page tells what has come of the part. -/
theorem Move.tellsOf {q : Mode} {A : List Block} {a b : Phase} {s t : Part} (m : Move q A a s b t) (hw : q.withdraw = false)
    (ha : q.accept = false) : s.tellsOf q.doors t := by
  cases hA : signBlocks.all (fun b => !hasBlock A b) with
  | true => exact m.via.tellsOf hA
  | false =>
    cases m with
    | link g h => exact s.modLink_tells g (h s.link).2.1
    | anyLink _ _ _ h | mask _ h | taken _ _ _ h | spoilCount h | discardAll _ h => cases hw.symm.trans h
    | acceptPage _ _ _ _ h => cases ha.symm.trans h
    | discard => exact s.discardCore_tells
    | define g =>
      have stored : s.tellsOf q.doors (s.modStored g) := (Via.stored (A := [.stored]) (.refl s) g rfl).tellsOf rfl
      exact stored.trans (Part.setPath_tells _ _)
    | putInForce => exact s.putInForce_tells
    | dropDoorNotices h =>
      refine ⟨⟨rfl, fun a ha => ?_, ?_, fun _ => id, fun i x hx y hy _ hc => ?_, id, id, id, fun h => ⟨h, le_rfl⟩⟩, fun _ => id⟩
      · cases a with
        | door d => cases ha h
        | _ => exact told_same
      · show told _ _ (s.feed.path != s.feed.path) _ _
        rw [bne_self_eq_false]
        exact told_same
      · cases hx.symm.trans hy
        simp at hc
    | countStation st c => exact s.countStation_tells st c
    | countTray u c => exact s.countTray_tells u c
    | countPath c => exact s.countPath_tells c
    | clearCounters g i k => exact s.clearCounters_tells g i k
    | setWidth g w m => exact s.setWidth_tells g w m
    | judgeTrayEmpty u => exact s.judgeTrayEmpty_tells u
    | judgeBinFull b => exact s.judgeBinFull_tells b
    | judgePurgeFull => exact s.judgePurgeFull_tells
    | judgeIntakeLow k => exact s.judgeIntakeLow_tells k
    | judgeDoor d => exact s.judgeDoor_tells d
    | learnAt st r o => exact s.learnAt_tells st r o
    | resync st =>
      refine Via.tellsOf_stations (s.modStation_via st fun x => { x with resync := true }) rfl fun u hu => ?_
      rw [Part.getElem_modStation] at hu
      split at hu
      · next e => rwa [e]
      · exact hu
    | setReady id =>
      exact (⟨rfl, rfl, rfl, rfl, funext fun a => by cases a <;> rfl⟩ : s.sameSigns (s.setReady id)).tellsOf
    | abandon job i => exact s.abandonCore_tells job i
    | examineSlot i => exact s.examineSlot_tells i
    | feed g h => exact s.modFeed_tells g (Feed.signs_of_core (h s.feed))
    | hold g h => exact s.modFeed_tells g (Feed.signs_of_hold (h s.feed))
    | pickTimer | holdoff | dropRamp | dropRunOn | reserve | unreserve => exact s.modFeed_tells _ ⟨rfl, rfl, rfl, rfl⟩
    | ramped => exact s.modFeed_setPath_tells _ _ ⟨rfl, rfl, rfl, rfl⟩
    | drain => exact s.enterDraining_tells
    | goBack => exact s.modFeed_setPath_tells _ _ ⟨rfl, rfl, rfl, rfl⟩
    | runOnDone =>
      exact (s.modFeed_tells (fun f => { f with runOn := none }) ⟨rfl, rfl, rfl, rfl⟩).trans (Part.enterIdle_tells _)
    | closed => exact s.enterIdle_tells
    | start => exact s.start_tells
    | startJammed st => exact s.startJammed_tells st
    | armRunOn => exact s.armRunOn_tells
    | pick n => exact s.pickCore_tells n
    | station st g h => exact (s.modStation_via st g).tellsOf_learns rfl (s.learnsNothing_modStation st g ⟨h.1, h.2.1, h.2.2.1, h.2.2.2.1⟩) rfl
    | uncover x st => exact s.uncover_tells x st
    | cover x step =>
      have v := ((s.modSheet_via x.number fun y => y.arrived step.station s.tick).mono (A := [.table, .stations]) rfl).andThen
        (Part.coverWith_via _ x step.station s.tick) rfl
      exact v.tellsOf_learns rfl (Part.learnsNothing_modStation (s.modSheet x.number _) step.station _ ⟨rfl, rfl, rfl, rfl⟩) rfl
    | deliver => exact s.deliverCore_tells _ _
    | spoiled x p n => exact s.noteSpoil_tells x p n
    | emptyBin => exact s.modGate_tells _ rfl
    | openEpisode j extra => exact s.openCore_tells j extra
    | noteRecord k j => exact s.noteRecord_tells k j
    | record | overflow | dropSweep => exact s.modEpisode_tells _ rfl
    | episode g h => exact s.modEpisode_tells g (congrArg Episode.doorActive (h s.episode) :)
    | strand p => exact s.strand_tells p
    | halted => exact (s.stopDrives_via.tellsOf rfl).trans (Part.setPath_tells _ _)
    | abandonSweep bar => exact (s.modEpisode_tells _ rfl).trans ((Part.stopDrives_via _).tellsOf rfl |>.trans (Part.setPath_tells _ _))
    | startSweep _ hd =>
      rw [s.startSweep_eq hd]
      exact (((s.setPath_tells _).trans (Part.modOut_tells _ _)).trans ((Part.runDrives_via _).tellsOf rfl)).trans
        (Part.modEpisode_tells _ _ rfl)
    | planBuild => exact (s.setPath_tells _).trans (Part.planBuild_tells _)
    | reheld => exact s.setPath_tells _
    | resume => exact s.closeEpisode_tells
    | resetIdle => exact s.closeEpisode_tells.trans (Part.enterIdle_tells _)
    | stapled => exact s.stapled_tells
    | ejected => exact s.completeEject_tells
    | _ => cases hA

theorem Moves.tellsOf {q : Mode} {a b : Phase} {s t : Part} (h : Moves q a s b t) (hw : q.withdraw = false) (ha : q.accept = false) :
    s.tellsOf q.doors t := by
  induction h with
  | refl => exact .refl _
  | snoc _ m ih => exact ih.trans (m.tellsOf hw ha)

/-- A slot already held stays as it is where one is taken (R29). -/
theorem Intake.takeSlot_held (x : Intake) (p : Page) {k : Fin 8} {y : Slot} (h : x.slots[k] = some y) :
    (x.takeSlot p).slots[k] = some y := by
  unfold Intake.takeSlot
  split
  · exact h
  · split
    · exact h
    · next i hi =>
      have free : x.slots[i] = none := by simpa using List.find?_some hi
      have other : ¬ i = k := fun e => by
        rw [e, h] at free
        cases free
      simpa [Vector.getElem_set, Fin.val_ne_of_ne other] using h

theorem Intake.takeSlot_low (x : Intake) (p : Page) :
    (x.takeSlot p).lowNormal = x.lowNormal ∧ (x.takeSlot p).lowPriority = x.lowPriority := by
  unfold Intake.takeSlot
  split
  · exact ⟨rfl, rfl⟩
  · split <;> exact ⟨rfl, rfl⟩

theorem Intake.append_low (x : Intake) (q : Queue) (p : Page) :
    (x.append q p).lowNormal = x.lowNormal ∧ (x.append q p).lowPriority = x.lowPriority := by
  cases q <;> exact ⟨rfl, rfl⟩

/-- A page accepted may take a slot, whose counts are then none (R29, R30). -/
theorem Part.acceptPage_hears (s : Part) (p : Page) : s.hears D (s.acceptPage p) := by
  have taken : s.hears D (s.modIntake fun x => (x.takeSlot p).append (s.intake.queueFor p) p) := by
    refine s.modIntake_hears _ ?_ fun k x hx y hy => ?_
    · rw [(Intake.append_low ..).1, (Intake.append_low ..).2]
      exact Intake.takeSlot_low _ p
    · rw [Intake.append_slots, Intake.takeSlot_held _ p hx] at hy
      cases hy
      exact ⟨rfl, rfl⟩
  have charged : ∀ t : Part, t.tellsOf D (t.charge p) := fun t => by
    unfold Part.charge
    split
    · exact t.modSlot_tells _ _ fun _ => ⟨rfl, rfl⟩
    · exact .refl t
  rw [s.acceptPage_eq]
  have rest := (charged (s.modIntake fun x => (x.takeSlot p).append (s.intake.queueFor p) p)).trans
    (Part.judgeIntakeLow_tells _ (s.intake.queueFor p))
  exact taken.trans rest.hears fun i hi => .inl (rest.free i hi)

/-! ## A request's parts -/

variable {q : Mode}

/-- What happens while a frame is being sent is what happens at its tick. -/
theorem Part.event_sending {s : Part} {t : Tick} {g : Part → Part} (h : (g (s.advance t)).link.sending.isSome = true) :
    s.event t g = g (s.advance t) := Part.conclude_sending _ h

theorem Part.discardFrame_sending (s : Part) : s.discardFrame.link.sending = s.link.sending :=
  Moves.sending_eq (q := { Mode.free with withdraw := false }) (a := .settled) (s.discardFrame_moves rfl) rfl

/-- The blocks in which a request is received. -/
def takingBlocks : List Block := [.tick, .link, .notices, .stats]

/-- Received so far: moves that keep the frame being sent, in the link, the tick and what a discard counts and notes. -/
structure Part.receives (q : Mode) (s t : Part) : Prop where
  moves : Moves q .settled s .settled t
  via : Via takingBlocks s t
  sending : t.link.sending = s.link.sending

theorem Part.receives.trans {s t u : Part} (h : s.receives q t) (k : t.receives q u) : s.receives q u :=
  ⟨h.moves.trans k.moves, h.via.andThen k.via rfl, k.sending.trans h.sending⟩

theorem Part.advance_receives (s : Part) (ht : q.tick = true) (t : Tick) : s.receives q (s.advance t) :=
  ⟨s.advance_moves ht t, (s.advance_via t).mono rfl, rfl⟩

theorem Part.discardFrame_receives (s : Part) (hl : q.link = true) : s.receives q s.discardFrame :=
  ⟨s.discardFrame_moves hl, s.discardFrame_via.mono rfl, s.discardFrame_sending⟩

theorem Part.gapDiscard_receives {s : Part} (hs : s.link.sending.isSome = true) (ht : q.tick = true) (hl : q.link = true) :
    s.receives q s.gapDiscard := by
  unfold Part.gapDiscard
  split
  · exact ⟨.refl _ _, .refl s, rfl⟩
  · next last _ =>
    have r := (s.advance_receives ht (plusTicks last Config.byteGapTicks)).trans (Part.discardFrame_receives _ hl)
    rw [Part.event_sending (r.sending ▸ hs)]
    exact r

/-- A request that comes while a frame is being sent is discarded, or its owner runs on what is received so far and its reply
follows. -/
theorem Part.takeRequest_parts {s : Part} (hs : s.link.sending.isSome = true) (ht : q.tick = true) (hl : q.link = true)
    (hk : q.queue = true) (t : Tick) (kind : Byte) (body : List Byte) (owner : Part → Answer)
    (ho : ∀ p, (owner p).part.link.sending = p.link.sending) :
    ∃ p, s.receives q p ∧
      (s.takeRequest t kind body owner = p ∨ s.takeRequest t kind body owner = Part.reply kind (owner p)) := by
  have r := (Part.gapDiscard_receives hs ht hl).trans (Part.advance_receives _ ht t)
  have event : ∀ u, (s.gapDiscard.advance t).acceptFrame kind body owner = u → u.link.sending.isSome = true →
      s.takeRequest t kind body owner = u := fun u hu h => by
    subst hu
    exact Part.event_sending h
  by_cases full : (s.gapDiscard.advance t).queueFull = true
  · have d := r.trans (Part.discardFrame_receives _ hl)
    refine ⟨_, d, .inl (event _ (if_pos full) (d.sending ▸ hs))⟩
  · have e : (s.gapDiscard.advance t).receives q ((s.gapDiscard.advance t).enqueue ⟨kind, body⟩) :=
      ⟨(Move.link _ (by exact fun _ => ⟨rfl, id, rfl⟩) (.inl hk) hl).moves, .link (.refl _) _ rfl, rfl⟩
    refine ⟨_, r.trans e, .inr (event _ (if_neg full) ?_)⟩
    show (owner _).part.link.sending.isSome = true
    rw [ho, (r.trans e).sending]
    exact hs

end Sys2Proof.Machine
end

