-- ==== Sys2Proof/Proofs/ConditionsNoticed.lean ====
section
/-! PROOF. What every step tells while a frame is being sent (O46). -/

namespace Sys2Proof.Machine

variable {q : Mode} {A : List Block} {a b : Phase} {s t u : Part}

/-! ## INTAKE LOW (R38) -/

/-- A queue's count of pages and its INTAKE LOW condition. -/
def Intake.gauge (x : Intake) : Queue → Nat × Bool
  | .normal => (x.normal.length, x.lowNormal)
  | .priority => (x.priority.length, x.lowPriority)

/-- A queue's INTAKE LOW mark in force. -/
def Part.mark (s : Part) : Queue → Nat
  | .normal => s.force.timing.markNormal
  | .priority => s.force.timing.markPriority

/-- INTAKE LOW says whether the queue is below its mark. -/
def Part.lowJudged (s : Part) (k : Queue) : Prop := (s.intake.gauge k).2 = decide ((s.intake.gauge k).1 < s.mark k)

/-- Each queue's count and condition stand, or the condition is judged. -/
def Part.judgesLow (s t : Part) : Prop := ∀ k, t.intake.gauge k = s.intake.gauge k ∨ t.lowJudged k

theorem Part.judgesLow_of_gauge (h : t.intake.gauge = s.intake.gauge) : s.judgesLow t := fun k => .inl (congrFun h k)

theorem Part.judgesLow.refl (s : Part) : s.judgesLow s := Part.judgesLow_of_gauge rfl

theorem Part.judgesLow.trans (h : s.judgesLow t) (k : t.judgesLow u) (hf : u.force = t.force) : s.judgesLow u := fun j => by
  rcases k j with e | e
  · rcases h j with d | d
    · exact .inl (e.trans d)
    · right
      unfold Part.lowJudged Part.mark at *
      rw [e, hf]
      exact d
  · exact .inr e

theorem Part.judgesLow.of_same (h : s.judgesLow t) (hi : u.intake = t.intake) (hf : u.force = t.force) : s.judgesLow u :=
  h.trans (Part.judgesLow_of_gauge (by rw [hi])) hf

theorem Part.judgeIntakeLow_gauge (s : Part) {j k : Queue} (h : j ≠ k) : (s.judgeIntakeLow k).intake.gauge j = s.intake.gauge j := by
  cases k with
  | normal => cases j with
    | normal => exact (h rfl).elim
    | priority => rfl
  | priority => cases j with
    | normal => rfl
    | priority => exact (h rfl).elim

theorem Part.judgeIntakeLow_judged (s : Part) (k : Queue) : (s.judgeIntakeLow k).lowJudged k := by
  cases k <;> rfl

/-- A judgement of the queue whose count moved. -/
theorem Part.judgeIntakeLow_judgesLow (k : Queue) (h : ∀ j, j ≠ k → t.intake.gauge j = s.intake.gauge j) : s.judgesLow (t.judgeIntakeLow k) := by
  intro j
  by_cases e : j = k
  · exact .inr (e ▸ t.judgeIntakeLow_judged j)
  · exact .inl ((t.judgeIntakeLow_gauge e).trans (h j e))

theorem Intake.gauge_eq {x y : Intake} (hn : y.normal.length = x.normal.length) (hp : y.priority.length = x.priority.length)
    (hl : y.lowNormal = x.lowNormal) (hm : y.lowPriority = x.lowPriority) : y.gauge = x.gauge :=
  funext fun k => by
    cases k
    · exact Prod.ext hn hl
    · exact Prod.ext hp hm

theorem Part.modSlot_gauge (s : Part) (i : Fin 8) (g : Slot → Slot) : (s.modSlot i g).intake.gauge = s.intake.gauge := rfl

theorem Part.examineSlot_gauge (s : Part) (i : Fin 8) : (s.examineSlot i).intake.gauge = s.intake.gauge := by
  unfold Part.examineSlot
  split
  · rfl
  · split <;> rfl

theorem Part.deliverPages_gauge (s : Part) (job : Nat) (pages : List Page) : (s.deliverPages job pages).intake.gauge = s.intake.gauge := by
  unfold Part.deliverPages
  split
  · exact Part.examineSlot_gauge _ _
  · rfl

theorem Part.completeEject_gauge (s : Part) : s.completeEject.intake.gauge = s.intake.gauge := by
  obtain ⟨r, hr, hi, -⟩ := s.completeEject_cases
  rw [hi, hr, Part.deliverPages_gauge]
  rfl

theorem Part.deliverCore_gauge (s : Part) (x : Sheet) (st : Fin 24) : (s.deliverCore x st).intake.gauge = s.intake.gauge := by
  unfold Part.deliverCore
  rw [(Part.removeSheet_via ..).intake_eq rfl]
  rcases s.deliverTo_intake x (s.force.roleOf st) with e | e
  · rw [e]
  · rw [e, Part.deliverPages_gauge]

theorem Part.takeNext_judgesLow (s : Part) (n : NextPage) : s.judgesLow (s.takeNext n) := by
  unfold Part.takeNext
  dsimp only
  split
  · exact Part.judgesLow_of_gauge rfl
  · refine Part.judgeIntakeLow_judgesLow .normal fun j hj => ?_
    cases j with
    | normal => exact (hj rfl).elim
    | priority => rfl
  · refine Part.judgeIntakeLow_judgesLow .priority fun j hj => ?_
    cases j with
    | normal => rfl
    | priority => exact (hj rfl).elim

theorem Intake.append_gauge (x : Intake) (p : Page) {j k : Queue} (h : j ≠ k) : (x.append k p).gauge j = x.gauge j := by
  cases k with
  | normal => cases j with
    | normal => exact (h rfl).elim
    | priority => rfl
  | priority => cases j with
    | normal => rfl
    | priority => exact (h rfl).elim

theorem Intake.takeSlot_gauge (x : Intake) (p : Page) : (x.takeSlot p).gauge = x.gauge := by
  obtain ⟨hn, hp⟩ := x.takeSlot_queues p
  obtain ⟨hl, hm⟩ := x.takeSlot_low p
  exact Intake.gauge_eq (by rw [hn]) (by rw [hp]) hl hm

theorem Part.acceptPage_judgesLow (s : Part) (p : Page) : s.judgesLow (s.acceptPage p) := by
  rw [s.acceptPage_eq]
  refine Part.judgeIntakeLow_judgesLow _ fun j hj => ?_
  have charged : ∀ t : Part, (t.charge p).intake.gauge = t.intake.gauge := fun t => by
    unfold Part.charge
    split <;> rfl
  rw [charged, Part.modIntake_intake, Intake.append_gauge _ _ hj, Intake.takeSlot_gauge]

/-- Every move without leave to abandon a job or to put a description in force judges the queue whose count it moves. -/
theorem Move.judgesLow (m : Move q A a s b t) (hw : q.withdraw = false) (ha : q.abandon = false) : s.judgesLow t := by
  cases hA : hasBlock A .intake with
  | false => exact Part.judgesLow_of_gauge (by rw [m.via.intake_eq hA])
  | true =>
    cases m with
    | judgeIntakeLow k => exact Part.judgeIntakeLow_judgesLow k fun _ _ => rfl
    | acceptPage p => exact s.acceptPage_judgesLow p
    | setReady id => exact Part.judgesLow_of_gauge (Intake.gauge_eq (List.length_map _) (List.length_map _) rfl rfl)
    | abandon _ _ _ _ h => cases ha.symm.trans h
    | examineSlot i => exact Part.judgesLow_of_gauge (s.examineSlot_gauge i)
    | pick n =>
      exact (s.takeNext_judgesLow n).of_same (s.pickCore_intake n)
        (((s.pickCore_via n).force_eq rfl).trans ((s.takeNext_via n).force_eq rfl).symm)
    | deliver => exact Part.judgesLow_of_gauge (s.deliverCore_gauge _ _)
    | discardAll _ h => cases hw.symm.trans h
    | ejected => exact Part.judgesLow_of_gauge s.completeEject_gauge
    | _ => cases hA

theorem Moves.judgesLow (h : Moves q a s b t) (hw : q.withdraw = false) (ha : q.abandon = false) (hf : q.force = false) : s.judgesLow t := by
  induction h with
  | refl => exact .refl _
  | snoc _ m ih => exact ih.trans (m.judgesLow hw ha) (m.force_eq hf)

/-! ## The two requests that need their parts -/

/-- What the statement says of the queues. -/
def Part.lowTold (s t : Part) : Prop := ∀ k, (t.intake.gauge k).1 ≠ (s.intake.gauge k).1 → t.lowJudged k

theorem Part.judgesLow.told (h : s.judgesLow t) : s.lowTold t := fun k hk => (h k).resolve_left fun e => hk (by rw [e])

/-- Leave for all that a step may do while a frame is being sent, but to accept a page, abandon a job or put a description in force. -/
def Mode.quiet : Mode := { Mode.free with withdraw := false, doors := false, force := false, accept := false, abandon := false }

theorem Part.receives.intake_eq {s t : Part} (h : s.receives q t) : t.intake = s.intake := h.via.intake_eq rfl

theorem Part.reply_tells (k : Byte) (x : Answer) {D : Bool} : x.part.tellsOf D (Part.reply k x) := x.part.modLink_tells _ id

/-- A PAGE is refused, or its page accepted and the path judged. -/
theorem ownerPage_cases (body : List Byte) (s : Part) : (∃ r, ownerPage body s = s.refuse r) ∨
    ∃ p, ownerPage body s = (s.acceptPage p).judge.done := by
  unfold ownerPage Part.checked Part.answerPage
  split
  · dsimp only
    split
    · exact .inl ⟨_, rfl⟩
    · split
      · exact .inl ⟨_, rfl⟩
      · split
        · exact .inl ⟨_, rfl⟩
        · exact .inr ⟨_, rfl⟩
  · exact .inl ⟨_, rfl⟩

theorem ownerPage_hears (body : List Byte) (s : Part) : s.hears false (ownerPage body s).part := by
  rcases ownerPage_cases body s with ⟨r, e⟩ | ⟨p, e⟩
  · rw [e]
    exact (Part.tellsOf.refl s).hears
  · rw [e, Part.done_part]
    have rest := (Part.judge_moves (q := .quiet) (s.acceptPage p)).tellsOf rfl rfl
    exact (s.acceptPage_hears p).trans rest.hears fun i hi => .inl (rest.free i hi)

theorem Part.hears.drop (h : s.hears false t) (D : Bool) : s.hears D t :=
  { h with alarms := fun a _ => h.alarms a fun k => nomatch k }

theorem page_hears {s : Part} (hs : s.link.sending.isSome = true) (u : Tick) (body : List Byte) :
    s.hears false (s.takeRequest u 0x0B body (ownerPage body)) := by
  obtain ⟨p, r, e⟩ := Part.takeRequest_parts (q := .quiet) hs rfl rfl rfl u 0x0B body (ownerPage body) fun p => by
    exact congrArg Link.sending (ownerPage_moves (q := .inner) p rfl body).inner_eq.2.2.1
  have first := r.moves.tellsOf rfl rfl
  rcases e with e | e
  · rw [e]
    exact first.hears
  · rw [e]
    have owner := (ownerPage_hears body p).trans (Part.reply_tells 0x0B (ownerPage body p)).hears fun i hi =>
      .inl ((Part.reply_tells (D := false) 0x0B (ownerPage body p)).free i hi)
    exact first.hears.trans owner fun i hi => .inr (by rw [← r.intake_eq]; exact hi)

/-- PATH CLOSE puts the description in force before it judges a queue (R17). -/
theorem ownerPathClose_lowTold (body : List Byte) (s : Part) : s.lowTold (ownerPathClose body s).part := by
  have same : s.lowTold s := (Part.judgesLow.refl s).told
  unfold ownerPathClose Part.checked
  split
  · dsimp only
    by_cases h : s.definable = true ∧ s.stored.badPath = none
    · have judged := (s.closePath_moves (q := { Mode.quiet with doors := true }) rfl h.1 h.2).judgesLow rfl rfl rfl
      exact fun k hk => judged.told k (by rwa [s.putInForce_via.intake_eq rfl])
    · rwa [s.answerPathClose_refused h]
  · exact same

/-- What PATH CLOSE may do while a frame is being sent. -/
def Mode.closing : Mode := { Mode.free with withdraw := false, accept := false, abandon := false }

theorem pathClose_lowTold {s : Part} (hs : s.link.sending.isSome = true) (u : Tick) (body : List Byte) :
    s.lowTold (s.takeRequest u 0x0A body (ownerPathClose body)) := by
  obtain ⟨p, r, e⟩ := Part.takeRequest_parts (q := .closing) hs rfl rfl rfl u 0x0A body (ownerPathClose body) fun p =>
    (ownerPathClose_moves (q := .closing) p rfl rfl body).sending_eq rfl
  intro k hk
  rcases e with e | e
  · rw [e, r.intake_eq] at hk
    exact (hk rfl).elim
  · have owner := ownerPathClose_lowTold body p k
    rw [e] at hk ⊢
    exact owner (r.intake_eq ▸ hk)

/-! ## Every step -/

/-- While a frame is being sent every step but a reset, NOTICE MASK and the bytes of a line tells what has come of the part. -/
theorem step_hears {w : List Instr} {p : Part} {t : State} (ho : oneEvent w) (hs : p.link.sending.isSome = true)
    (e : step ⟨w, p⟩ = .next t) (D : Bool) (hd : (∃ u b, w.head? = some (.pathClose u b)) → D = true) : p.hears D t.part := by
  by_cases hp : ∃ u b, w.head? = some (.page u b)
  · obtain ⟨u, b, hw⟩ := hp
    cases w with
    | nil => cases hw
    | cons c rest =>
      obtain rfl := Option.some.inj hw
      cases e
      exact (page_hears hs u b).drop D
  · refine ((step_moves (q := { Mode.free with withdraw := false, accept := false, doors := D }) rfl rfl
      (fun _ => ⟨rfl, rfl, rfl, rfl, rfl, rfl⟩) (fun c hc => ?_) (.inr hs) e).tellsOf rfl rfl).hears
    unfold oneEvent at ho
    rw [hc] at ho
    cases c with
    | hardwareReset | pathReset | noticeMask | frameSent | frameDiscard | byteGapTimeout => exact ho.elim
    | page u b => exact (hp ⟨u, b, hc⟩).elim
    | pathClose u b => exact ⟨rfl, hd ⟨u, b, hc⟩, rfl⟩
    | _ => simp [Mode.runs, Mode.free]

theorem step_lowTold {w : List Instr} {p : Part} {t : State} (ho : oneEvent w) (hs : p.link.sending.isSome = true)
    (e : step ⟨w, p⟩ = .next t) (hn : ∀ u b, w.head? ≠ some (.abandonJob u b)) : p.lowTold t.part := by
  by_cases hp : ∃ u b, w.head? = some (.pathClose u b)
  · obtain ⟨u, b, hw⟩ := hp
    cases w with
    | nil => cases hw
    | cons c rest =>
      obtain rfl := Option.some.inj hw
      cases e
      exact pathClose_lowTold hs u b
  · refine ((step_moves (q := { Mode.free with withdraw := false, abandon := false, force := false }) rfl rfl
      (fun _ => ⟨rfl, rfl, rfl, rfl, rfl, rfl⟩) (fun c hc => ?_) (.inr hs) e).judgesLow rfl rfl rfl).told
    unfold oneEvent at ho
    rw [hc] at ho
    cases c with
    | hardwareReset | pathReset | noticeMask | frameSent | frameDiscard | byteGapTimeout => exact ho.elim
    | abandonJob u b => exact (hn u b hc).elim
    | pathClose u b => exact (hp ⟨u, b, hc⟩).elim
    | _ => simp [Mode.runs, Mode.free]

/-- Settles O46. -/
theorem conditionsNoticed : Obligations.ConditionsNoticed := by
  intro w p t ho hs e
  have hears := step_hears ho hs e
  have all := hears true fun _ => rfl
  have low := step_lowTold ho hs e
  have alarm : ∀ a : Alarm, a.ofDoor = false → _ := fun a h => all.alarms a fun _ => h
  refine ⟨alarm .lowNormal rfl, alarm .lowPriority rfl, fun u => alarm (.trayEmpty u) rfl, fun i => alarm (.binFull i) rfl,
    alarm .purgeFull rfl, fun st => alarm (.outOfStep st) rfl, alarm (.watermark .station) rfl, alarm (.watermark .tray) rfl,
    alarm (.watermark .path) rfl, alarm .linkFault rfl, alarm .exhausted rfl, fun h d => ?_, all.path, fun i x hx y hy => ?_, ?_, ?_, ?_,
    fun h => (all.jams h).2, fun h => ⟨low h .normal, low h .priority⟩⟩
  · exact (hears false fun ⟨u, b, k⟩ => (h u b k).elim).alarms (.door d) fun h => nomatch h
  · rintro (h | ⟨hm, hc, -⟩)
    · exact all.progress i h
    · refine all.counts i x hx y hy hm ?_
      simp only [Bool.or_eq_true, bne_iff_ne] at hc
      exact hc.imp Ne.symm Ne.symm
  · rintro (h | ⟨-, -, h⟩)
    · exact all.planReady h
    · cases h
  · rintro (h | ⟨-, -, h⟩)
    · exact all.spoil h
    · cases h
  · rintro (h | ⟨-, -, h⟩)
    · exact all.setDone h
    · cases h

end Sys2Proof.Machine
end

