-- ==== Sys2Proof/Proofs/Asked.lean ====
section
/-! PROOF. What every request's owner is given: its length checked, then its path state (O3). -/

namespace Sys2Proof.Machine

variable {t : Tick} {kind : Byte} {body : List Byte}

/-! ## Lengths (12.3) -/

theorem lengthIs_iff {b : List Byte} {n : Nat} : lengthIs b n = true ↔ b.length = n := beq_iff_eq

theorem legLengthOk_iff {b : List Byte} : legLengthOk b = true ↔ ∃ k, 1 ≤ k ∧ k ≤ 8 ∧ b.length = 4 + 3 * k := by
  simp only [legLengthOk, List.any_eq_true, List.mem_range, beq_iff_eq]
  constructor
  · rintro ⟨k, hk, h⟩
    exact ⟨k + 1, by omega, by omega, h⟩
  · rintro ⟨k, hl, hk, h⟩
    exact ⟨k - 1, by omega, by rw [h]; omega⟩

theorem planLengthOk_iff {b : List Byte} : planLengthOk b = true ↔ ∃ k, k ≤ 8 ∧ b.length = 8 * k := by
  simp only [planLengthOk, List.any_eq_true, List.mem_range, beq_iff_eq]
  constructor
  · rintro ⟨k, hk, h⟩
    exact ⟨k, by omega, h⟩
  · rintro ⟨k, hk, h⟩
    exact ⟨k, by omega, h⟩

/-! ## Path states (12.3) -/

/-- An owner refuses a path state with a result's code. -/
def refusesAs (owner : Part → Answer) (p : Part) (code : Byte) : Prop := ∃ r : Result, owner p = p.refuse r ∧ r.byte = code

theorem Part.definable_iff (s : Part) : s.definable = true ↔ s.feed.path = .unconfigured ∨ s.feed.path = .idle := by
  simp [Part.definable]

theorem Part.define_refused {s : Part} (h : s.definable = false) (edit : Option (Desc → Desc)) : s.define edit = s.refuse .wrongState := by
  unfold Part.define
  rw [if_neg (by simp [h])]

theorem Part.defineFinisher_refused {s : Part} (h : s.definable = false) (b : List Byte) : s.defineFinisher b = s.refuse .wrongState := by
  unfold Part.defineFinisher
  split
  · exact Part.define_refused h _
  · rfl

/-- What a request's owner is given: a length checked first, then the path state. -/
structure Asks (kind : Byte) (body : List Byte) (ok : Bool) (owner : Part → Answer) : Prop where
  answer : answerFrame ⟨kind, body⟩ = fun p => p.checked ok owner
  length : ok = true ↔ catalogueLength kind body.length
  refused : ∀ p code, refusedIn kind p.feed.path = some code → refusesAs owner p code

/-- The kinds taken in UNCONFIGURED and IDLE alone. -/
theorem refused_unless_definable {owner : Part → Answer} {code : Byte} {p : Part} (h : p.definable = false → owner p = p.refuse .wrongState)
    (hr : (if p.feed.path = .unconfigured ∨ p.feed.path = .idle then none else some 0x05#8) = some code) : refusesAs owner p code := by
  split at hr
  · cases hr
  · next hp => exact ⟨_, h (Bool.not_eq_true _ ▸ fun k => hp (p.definable_iff.mp k)), Option.some.inj hr⟩

/-- The kinds refused with NOT CONFIGURED in UNCONFIGURED alone. -/
theorem refused_unconfigured {owner : Part → Answer} {code : Byte} {p : Part}
    (h : p.feed.path = .unconfigured → owner p = p.refuse .notConfigured)
    (hr : (if p.feed.path = .unconfigured then some 0x04#8 else none) = some code) : refusesAs owner p code := by
  split at hr
  · next hp => exact ⟨_, h hp, Option.some.inj hr⟩
  · cases hr

/-- The kinds no path state refuses. -/
theorem refused_never {owner : Part → Answer} {code : Byte} {p : Part} (hr : (none : Option Byte) = some code) : refusesAs owner p code := by
  cases hr

theorem asks_definition {kind : Byte} {ok : Bool} {edit : Part → Option (Desc → Desc)}
    (ha : answerFrame ⟨kind, body⟩ = fun p => p.checked ok fun p => p.define (edit p)) (hl : ok = true ↔ catalogueLength kind body.length)
    (hr : ∀ x, refusedIn kind x = if x = .unconfigured ∨ x = .idle then none else some 0x05) : Asks kind body ok fun p => p.define (edit p) :=
  ⟨ha, hl, fun _ _ h => refused_unless_definable (fun hd => Part.define_refused hd _) (hr _ ▸ h)⟩

/-- STOP's refusals (R120). -/
def PathState.stopRefusal : PathState → Option Result
  | .unconfigured => some .notConfigured
  | .idle | .held | .resumable => some .wrongState
  | _ => none

/-- The refusals of a request taken in one path state (R124, R142, R144). -/
def PathState.otherThan (only x : PathState) : Option Result :=
  if x = .unconfigured then some .notConfigured else if x = only then none else some .wrongState

/-- The refusals of a request taken in IDLE (R166, R170). -/
def PathState.idleRefusal (x : PathState) : Option Result := if x = .idle then none else some .wrongState

/-- A request whose refusals by path state are `f`. -/
theorem refused_by (f : PathState → Option Result) {owner : Part → Answer} {code : Byte} {p : Part}
    (hf : ∀ x, refusedIn kind x = (f x).map Result.byte) (ho : ∀ r, f p.feed.path = some r → owner p = p.refuse r)
    (h : refusedIn kind p.feed.path = some code) : refusesAs owner p code := by
  rw [hf] at h
  obtain ⟨r, hr, e⟩ := Option.map_eq_some_iff.mp h
  exact ⟨r, ho r hr, e⟩

theorem Part.answerHold_refused {p : Part} {r : Result} (b : List Byte) (h : p.feed.path.holdRefusal = some r) :
    p.answerHold b = p.refuse r := by
  unfold Part.answerHold
  rw [h]

theorem Part.answerContinue_refused {p : Part} {r : Result} (h : p.feed.path.holdRefusal = some r) : p.answerContinue = p.refuse r := by
  unfold Part.answerContinue
  rw [h]

theorem Part.answerStop_refused {p : Part} {r : Result} (h : p.feed.path.stopRefusal = some r) : p.answerStop = p.refuse r := by
  unfold Part.answerStop
  revert h
  cases p.feed.path <;> intro h <;> cases h <;> rfl

theorem Part.answerSweep_refused {p : Part} {r : Result} (h : PathState.otherThan .held p.feed.path = some r) :
    p.answerSweep = p.refuse r := by
  unfold Part.answerSweep
  revert h
  cases p.feed.path <;> intro h <;> cases h <;> rfl

theorem Part.answerPlanRead_refused {p : Part} {r : Result} (b : List Byte) (h : PathState.otherThan .resumable p.feed.path = some r) :
    p.answerPlanRead b = p.refuse r := by
  unfold Part.answerPlanRead
  revert h
  dsimp only
  cases p.feed.path <;> intro h <;> cases h <;> rfl

theorem Part.answerResume_refused {p : Part} {r : Result} (h : PathState.otherThan .resumable p.feed.path = some r) :
    p.answerResume = p.refuse r := by
  unfold Part.answerResume
  revert h
  cases p.feed.path <;> intro h <;> cases h <;> rfl

theorem PathState.idleRefusal_eq {x : PathState} {r : Result} (h : x.idleRefusal = some r) : x ≠ .idle ∧ r = .wrongState := by
  unfold PathState.idleRefusal at h
  split at h
  · cases h
  · next hx => exact ⟨hx, (Option.some.inj h).symm⟩

theorem Part.answerDryRun_refused {p : Part} {r : Result} (b : List Byte) (h : p.feed.path.idleRefusal = some r) :
    p.answerDryRun b = p.refuse r := by
  obtain ⟨hp, rfl⟩ := PathState.idleRefusal_eq h
  exact if_neg fun k => hp k.1

theorem Part.answerFaultPlan_refused {p : Part} {r : Result} (b : List Byte) (h : p.feed.path.idleRefusal = some r) :
    p.answerFaultPlan b = p.refuse r := by
  obtain ⟨hp, rfl⟩ := PathState.idleRefusal_eq h
  exact if_neg hp

/-! ## Every request -/

theorem exec_request (c : Instr) (s : State) (h : c.request? = some (t, kind, body)) :
    exec c s = s.takes (fun p => p.takeRequest t kind body (answerFrame ⟨kind, body⟩)) := by
  cases c <;> cases h <;> rfl

theorem request_asks (c : Instr) (h : c.request? = some (t, kind, body)) : ∃ ok owner, Asks kind body ok owner := by
  cases c with
  | stationDef u b => cases h; exact ⟨_, _, asks_definition rfl lengthIs_iff fun _ => rfl⟩
  | legDef u b => cases h; exact ⟨_, _, asks_definition rfl legLengthOk_iff fun _ => rfl⟩
  | driveDef u b => cases h; exact ⟨_, _, asks_definition rfl lengthIs_iff fun _ => rfl⟩
  | trayDef u b => cases h; exact ⟨_, _, asks_definition rfl lengthIs_iff fun _ => rfl⟩
  | doorDef u b => cases h; exact ⟨_, _, asks_definition rfl lengthIs_iff fun _ => rfl⟩
  | timingDef u b => cases h; exact ⟨_, _, asks_definition rfl lengthIs_iff fun _ => rfl⟩
  | lineDef u b => cases h; exact ⟨_, _, asks_definition rfl lengthIs_iff fun _ => rfl⟩
  | finisherDef u b => cases h; exact ⟨_, _, rfl, lengthIs_iff, fun _ _ => refused_unless_definable fun hd => Part.defineFinisher_refused hd _⟩
  | noticeMask u b => cases h; exact ⟨_, _, rfl, lengthIs_iff, fun _ _ => refused_unless_definable fun hd => if_neg (by simp [hd])⟩
  | pathClose u b => cases h; exact ⟨_, _, rfl, lengthIs_iff, fun _ _ => refused_unless_definable fun hd => if_neg (by simp [hd])⟩
  | page u b => cases h; exact ⟨_, _, rfl, lengthIs_iff, fun _ _ => refused_unconfigured fun hp => if_pos hp⟩
  | abandonJob u b => cases h; exact ⟨_, _, rfl, lengthIs_iff, fun _ _ => refused_unconfigured fun hp => if_pos hp⟩
  | resyncStation u b => cases h; exact ⟨_, _, rfl, lengthIs_iff, fun _ _ => refused_unconfigured fun hp => if_pos hp⟩
  | pathReset u b => cases h; exact ⟨_, _, rfl, lengthIs_iff, fun _ _ => refused_unconfigured fun hp => if_pos hp⟩
  | imageReady u b => cases h; exact ⟨_, _, rfl, lengthIs_iff, fun _ _ => refused_never⟩
  | statusRead u b => cases h; exact ⟨_, _, rfl, lengthIs_iff, fun _ _ => refused_never⟩
  | sheetRead u b => cases h; exact ⟨_, _, rfl, lengthIs_iff, fun _ _ => refused_never⟩
  | jamRead u b => cases h; exact ⟨_, _, rfl, lengthIs_iff, fun _ _ => refused_never⟩
  | counterRead u b => cases h; exact ⟨_, _, rfl, lengthIs_iff, fun _ _ => refused_never⟩
  | counterWidth u b => cases h; exact ⟨_, _, rfl, lengthIs_iff, fun _ _ => refused_never⟩
  | hold u b => cases h; exact ⟨_, _, rfl, lengthIs_iff, fun _ _ => refused_by PathState.holdRefusal (fun x => by cases x <;> rfl) fun _ => Part.answerHold_refused _⟩
  | continueFeed u b => cases h; exact ⟨_, _, rfl, lengthIs_iff, fun _ _ => refused_by PathState.holdRefusal (fun x => by cases x <;> rfl) fun _ => Part.answerContinue_refused⟩
  | hostStop u b => cases h; exact ⟨_, _, rfl, lengthIs_iff, fun _ _ => refused_by PathState.stopRefusal (fun x => by cases x <;> rfl) fun _ => Part.answerStop_refused⟩
  | sweep u b => cases h; exact ⟨_, _, rfl, lengthIs_iff, fun _ _ => refused_by (PathState.otherThan .held) (fun x => by cases x <;> rfl) fun _ => Part.answerSweep_refused⟩
  | planRead u b => cases h; exact ⟨_, _, rfl, lengthIs_iff, fun _ _ => refused_by (PathState.otherThan .resumable) (fun x => by cases x <;> rfl) fun _ => Part.answerPlanRead_refused _⟩
  | resume u b => cases h; exact ⟨_, _, rfl, lengthIs_iff, fun _ _ => refused_by (PathState.otherThan .resumable) (fun x => by cases x <;> rfl) fun _ => Part.answerResume_refused⟩
  | dryRun u b => cases h; exact ⟨_, _, rfl, lengthIs_iff, fun _ _ => refused_by PathState.idleRefusal (fun x => by cases x <;> rfl) fun _ => Part.answerDryRun_refused _⟩
  | faultPlan u b => cases h; exact ⟨_, _, rfl, planLengthOk_iff, fun _ _ => refused_by PathState.idleRefusal (fun x => by cases x <;> rfl) fun _ => Part.answerFaultPlan_refused _⟩
  | _ => cases h

/-- A request's answer that leaves what its owner found. -/
theorem exec_unchanged {c : Instr} {s : State} (h : c.request? = some (t, kind, body)) (hs : s.part.canAccept) (r : Result)
    (data : List Byte) (ha : answerFrame ⟨kind, body⟩ (s.part.found t kind body) = ⟨s.part.found t kind body, r, data⟩) :
    exec c s = .next { s with part := s.part.answered t kind body (r.byte :: data) } := by
  rw [exec_request c s h]
  exact congrArg (fun p => Host.Outcome.next { s with part := p }) (s.part.takeRequest_unchanged t kind body _ hs r data ha)

/-- Settles O3. -/
theorem requestsRefused : Obligations.RequestsRefused := by
  refine ⟨fun c s t kind body h hs hl => ?_, fun s t kind body hk hs => ?_, fun c s t kind body code h hs hl hr => ?_⟩
  · obtain ⟨ok, owner, asks⟩ := request_asks c h
    obtain rfl : ok = false := Bool.eq_false_iff.mpr fun k => hl (asks.length.mp k)
    exact exec_unchanged h hs .badLength [] (by rw [asks.answer]; rfl)
  · have notRequest : isRequestKind kind = false := decide_eq_false hk
    show Host.Outcome.next _ = _
    rw [notRequest]
    exact congrArg (fun p => Host.Outcome.next { s with part := p })
      (s.part.takeRequest_unchanged t kind body (fun p => p.refuse .unknownKind) hs .unknownKind [] rfl)
  · obtain ⟨ok, owner, asks⟩ := request_asks c h
    obtain ⟨r, ho, rfl⟩ := asks.refused (s.part.found t kind body) code hr
    refine exec_unchanged h hs r [] ?_
    rw [asks.answer, asks.length.mpr hl]
    exact ho

end Sys2Proof.Machine
end

