-- ==== Sys2Proof/Proofs/Bodies.lean ====
section
/-! PROOF. Reading a body is the inverse of laying it out (12.7): how numbers stand in bytes, and what the field readers accept. -/

namespace Sys2Proof.Machine

variable {b r : List Byte} {i j n v : Nat}

/-! ## Numbers in bytes -/

theorem numAt_one_append (h : v < 256) : numAt (one v ++ r) 0 1 = v := by
  simp [numAt, one, beNat, Nat.mod_eq_of_lt h]

theorem numAt_one (h : v < 256) : numAt (one v) 0 1 = v := by
  simp [numAt, one, beNat, Nat.mod_eq_of_lt h]

theorem numAt_two_append (h : v < 65536) : numAt (two v ++ r) 0 2 = v := by
  simp only [numAt, two, beNat, List.drop_zero, List.cons_append, List.nil_append, List.take_succ_cons, List.take_zero, List.foldl_cons,
    List.foldl_nil, BitVec.toNat_ofNat]
  omega

theorem numAt_four_append (h : v < 4294967296) : numAt (four v ++ r) 0 4 = v := by
  simp only [numAt, four, beNat, List.drop_zero, List.cons_append, List.nil_append, List.take_succ_cons, List.take_zero, List.foldl_cons,
    List.foldl_nil, BitVec.toNat_ofNat]
  omega

theorem numAt_append_add (p : List Byte) (h : p.length = n) : numAt (p ++ r) (n + i) j = numAt r i j := by
  rw [numAt, List.drop_append, List.drop_eq_nil_of_le (by omega), List.nil_append, h, Nat.add_sub_cancel_left, numAt]

theorem numAt_one_add : numAt (one v ++ r) (i + 1) j = numAt r i j := Nat.add_comm i 1 ▸ numAt_append_add _ rfl

theorem numAt_two_add : numAt (two v ++ r) (i + 2) j = numAt r i j := Nat.add_comm i 2 ▸ numAt_append_add _ rfl

theorem numAt_four_add : numAt (four v ++ r) (i + 4) j = numAt r i j := Nat.add_comm i 4 ▸ numAt_append_add _ rfl

theorem numAt_drop : numAt (b.drop i) j n = numAt b (i + j) n := by
  rw [numAt, numAt, List.drop_drop]

theorem beNat_lt (l : List Byte) : beNat l < 256 ^ l.length := by
  induction l using List.reverseRecOn with
  | nil => decide
  | append_singleton l x ih =>
    have hx := x.isLt
    have e : beNat (l ++ [x]) = beNat l * 256 + x.toNat := by simp [beNat]
    rw [e, List.length_append, List.length_singleton, Nat.pow_succ]
    omega

theorem numAt_lt (b : List Byte) (i n : Nat) : numAt b i n < 256 ^ n :=
  (beNat_lt _).trans_le (Nat.pow_le_pow_right (by decide) (List.length_take_le ..))

/-- A body from a place on: the byte there, and the rest. -/
theorem drop_eq_one (h : i < b.length) (hj : j = i + 1) : b.drop i = one (numAt b i 1) ++ b.drop j := by
  subst hj
  rw [numAt, List.drop_eq_getElem_cons h]
  simp only [beNat, one, List.take_succ_cons, List.take_zero, List.foldl_cons, List.foldl_nil, Nat.zero_mul, Nat.zero_add,
    BitVec.ofNat_toNat, BitVec.setWidth_eq, List.cons_append, List.nil_append]

/-- Two bytes, and the rest. -/
theorem drop_eq_two (h : i + 1 < b.length) (hj : j = i + 2) : b.drop i = two (numAt b i 2) ++ b.drop j := by
  subst hj
  rw [numAt, List.drop_eq_getElem_cons (by omega), List.drop_eq_getElem_cons h]
  have hl := b[i].isLt
  have hm := b[i + 1].isLt
  simp only [beNat, two, List.cons_append, List.nil_append, List.cons.injEq, and_true, List.take_succ_cons, List.take_zero, List.foldl_cons,
    List.foldl_nil]
  constructor
  · apply BitVec.eq_of_toNat_eq
    rw [BitVec.toNat_ofNat]
    omega
  · apply BitVec.eq_of_toNat_eq
    rw [BitVec.toNat_ofNat]
    omega

/-- Four bytes, and the rest. -/
theorem drop_eq_four (h : i + 3 < b.length) (hj : j = i + 4) : b.drop i = four (numAt b i 4) ++ b.drop j := by
  subst hj
  rw [numAt, List.drop_eq_getElem_cons (by omega), List.drop_eq_getElem_cons (by omega), List.drop_eq_getElem_cons (by omega),
    List.drop_eq_getElem_cons h]
  have h0 := b[i].isLt
  have h1 := b[i + 1].isLt
  have h2 := b[i + 2].isLt
  have h3 := b[i + 3].isLt
  simp only [beNat, four, List.cons_append, List.nil_append, List.cons.injEq, and_true, List.take_succ_cons, List.take_zero,
    List.foldl_cons, List.foldl_nil]
  refine ⟨?_, ?_, ?_, ?_⟩ <;> apply BitVec.eq_of_toNat_eq <;> rw [BitVec.toNat_ofNat] <;> omega

/-! ## Fields (12.7) -/

@[simp] theorem within_iff {lo hi v w : Nat} : within lo hi v = some w ↔ v = w ∧ lo ≤ w ∧ w ≤ hi := by
  unfold within
  split
  · simp only [Option.some.injEq]
    constructor
    · rintro rfl
      exact ⟨rfl, by assumption⟩
    · exact And.left
  · next h =>
    simp only [reduceCtorEq, false_iff]
    rintro ⟨rfl, k⟩
    exact h k

@[simp] theorem below_iff {n v : Nat} {x : Fin n} : below n v = some x ↔ v = x.val := by
  unfold below
  split
  · simp only [Option.some.injEq]
    exact Fin.ext_iff
  · next h =>
    simp only [reduceCtorEq, false_iff]
    rintro rfl
    exact h x.isLt

@[simp] theorem flagOf_iff {v : Nat} {x : Bool} : flagOf v = some x ↔ v = x.toNat := by
  unfold flagOf
  cases x <;> split <;> simp_all

@[simp] theorem onOffOf_iff {v : Nat} {x : Bool} : onOffOf v = some x ↔ v = if x then 0 else 1 := by
  unfold onOffOf
  rw [Option.map_eq_some_iff]
  cases x <;> simp

@[simp] theorem highLowOf_iff {v : Nat} {x : Bool} : highLowOf v = some x ↔ v = if x then 0 else 1 := onOffOf_iff

/-- A value by its position in a list. -/
theorem position_iff {α : Type} {l : List α} {v : Nat} {x : α} {k : Nat} (hk : l[k]? = some x) (hn : l.Nodup) : l[v]? = some x ↔ v = k := by
  constructor
  · intro h
    obtain ⟨hv, ev⟩ := List.getElem?_eq_some_iff.mp h
    obtain ⟨hl, el⟩ := List.getElem?_eq_some_iff.mp hk
    exact (hn.getElem_inj_iff).mp (ev.trans el.symm)
  · rintro rfl
    exact hk

@[simp] theorem roleAt_iff {v : Nat} {x : Role} : roleAt v = some x ↔ v = x.ctorIdx := position_iff (by cases x <;> rfl) (by decide)

@[simp] theorem driveAt_iff {v : Nat} {x : Drive} : driveAt v = some x ↔ v = x.ctorIdx := position_iff (by cases x <;> rfl) (by decide)

@[simp] theorem legAt_iff {v : Nat} {x : LegName} : legAt v = some x ↔ v = x.pos.val := position_iff (by cases x <;> rfl) (by decide)

@[simp] theorem sideAt_iff {v : Nat} {x : Side} : sideAt v = some x ↔ v = x.ctorIdx := position_iff (by cases x <;> rfl) (by decide)

@[simp] theorem readyGateAt_iff {v : Nat} {x : ReadyGate} : readyGateAt v = some x ↔ v = x.ctorIdx :=
  position_iff (by cases x <;> rfl) (by decide)

@[simp] theorem faultAt_iff {v : Nat} {x : FaultKind} : faultAt v = some x ↔ v = x.ctorIdx :=
  position_iff (by cases x <;> rfl) (by decide)

@[simp] theorem onlyIf_iff {α : Type} {c : Bool} {x y : α} : onlyIf c x = some y ↔ c = true ∧ x = y := by
  cases c <;> simp [onlyIf]

/-- A reading of several fields, its first apart. -/
theorem bind_iff {α β : Type} {o : Option α} {f : α → Option β} {y : β} : (o >>= f) = some y ↔ ∃ x, o = some x ∧ f x = some y :=
  Option.bind_eq_some_iff

/-! ## The bodies of the settings (R7, R10, R11) -/

theorem readDrive_iff (h : b.length = 22) {x : DriveSet} : readDrive b = some x ↔ DriveBody x b := by
  simp only [readDrive, ↓bind_iff, within_iff, below_iff, Option.some.injEq]
  constructor
  · rintro ⟨_, ⟨e0, k0⟩, _, ⟨e1, k1⟩, _, ⟨e2, k2⟩, _, ⟨e3, k3⟩, _, ⟨e4, -, k4⟩, _, ⟨e5, k5⟩, _, e6, _, e7, _, e8, _, e9, _, e10,
      _, e11, rfl⟩
    refine ⟨?_, k0, k1, k2, k3, k4, k5⟩
    dsimp only
    rw [← e0, ← e1, ← e2, ← e3, ← e4, ← e5, ← e6, ← e7, ← e8, ← e9, ← e10, ← e11]
    refine (List.drop_zero (l := b)).symm.trans ?_
    rw [drop_eq_two (j := 2) (by omega) rfl, drop_eq_two (j := 4) (by omega) rfl, drop_eq_two (j := 6) (by omega) rfl, drop_eq_two (j := 8) (by omega) rfl,
      drop_eq_four (j := 12) (by omega) rfl, drop_eq_four (j := 16) (by omega) rfl, drop_eq_one (j := 17) (by omega) rfl,
      drop_eq_one (j := 18) (by omega) rfl, drop_eq_one (j := 19) (by omega) rfl, drop_eq_one (j := 20) (by omega) rfl, drop_eq_one (j := 21) (by omega) rfl,
      drop_eq_one (j := 22) (by omega) rfl, List.drop_of_length_le (by omega), List.append_nil]
    simp only [List.append_assoc]
  · rintro ⟨rfl, k0, k1, k2, k3, k4, k5⟩
    refine ⟨x.speed0, ⟨?_, k0⟩, x.speed1, ⟨?_, k1⟩, x.speed2, ⟨?_, k2⟩, x.ramp, ⟨?_, k3⟩, x.runOn, ⟨?_, by omega, k4⟩, x.sweep,
      ⟨?_, k5⟩, x.feedLine, ?_, x.processLine, ?_, x.duplexLine, ?_, x.deliveryLine, ?_, x.select0, ?_, x.select1, ?_, rfl⟩ <;>
    simp (disch := omega) only [List.append_assoc, numAt_one, numAt_one_append, numAt_two_append, numAt_four_append, numAt_one_add,
      numAt_two_add, numAt_four_add]

theorem ReadyGate.ctorIdx_lt (x : ReadyGate) : x.ctorIdx < 256 := by cases x <;> decide

theorem onOff_lt (x : Bool) : (if x then 0 else 1) < 256 := by cases x <;> decide

theorem readTiming_iff (h : b.length = 24) {x : Timing} : readTiming b = some x ↔ TimingBody x b := by
  simp only [readTiming, ↓bind_iff, within_iff, onOffOf_iff, readyGateAt_iff, Option.some.injEq]
  constructor
  · rintro ⟨_, ⟨e0, k0⟩, _, ⟨e1, k1⟩, _, ⟨e2, k2⟩, _, ⟨e3, -, k3⟩, _, ⟨e4, k4⟩, _, e5, _, ⟨e6, k6⟩, _, ⟨e7, -, k7⟩, _, ⟨e8, k8⟩,
      _, ⟨e9, -, k9⟩, _, e10, _, ⟨e11, k11⟩, _, e12, _, ⟨e13, -, k13⟩, _, ⟨e14, -, k14⟩, rfl⟩
    refine ⟨?_, k0, k1, k2, k3, k4, k6, k7, k8, k9, k11, k13, k14⟩
    dsimp only
    rw [← e0, ← e1, ← e2, ← e3, ← e4, ← e5, ← e6, ← e7, ← e8, ← e9, ← e10, ← e11, ← e12, ← e13, ← e14]
    refine (List.drop_zero (l := b)).symm.trans ?_
    rw [drop_eq_one (j := 1) (by omega) rfl, drop_eq_two (j := 3) (by omega) rfl, drop_eq_two (j := 5) (by omega) rfl, drop_eq_two (j := 7) (by omega) rfl,
      drop_eq_one (j := 8) (by omega) rfl, drop_eq_one (j := 9) (by omega) rfl, drop_eq_two (j := 11) (by omega) rfl, drop_eq_two (j := 13) (by omega) rfl,
      drop_eq_two (j := 15) (by omega) rfl, drop_eq_four (j := 19) (by omega) rfl, drop_eq_one (j := 20) (by omega) rfl,
      drop_eq_one (j := 21) (by omega) rfl, drop_eq_one (j := 22) (by omega) rfl, drop_eq_one (j := 23) (by omega) rfl, drop_eq_one (j := 24) (by omega) rfl,
      List.drop_of_length_le (by omega), List.append_nil]
    simp only [List.append_assoc]
  · rintro ⟨e, k0, k1, k2, k3, k4, k6, k7, k8, k9, k11, k13, k14⟩
    simp only [List.append_assoc] at e
    subst e
    clear h
    have hg := x.readyGate.ctorIdx_lt
    have hr := onOff_lt x.autoResync
    have hs := onOff_lt x.autoSweep
    refine ⟨x.q, ⟨?_, k0⟩, x.wmin, ⟨?_, k1⟩, x.jam, ⟨?_, k2⟩, x.omax, ⟨?_, by omega, k3⟩, x.window, ⟨?_, k4⟩, x.autoResync, ?_, x.gap,
      ⟨?_, k6⟩, x.caution, ⟨?_, by omega, k7⟩, x.multifeed, ⟨?_, k8⟩, x.holdoff, ⟨?_, by omega, k9⟩, x.readyGate, ?_, x.loop, ⟨?_, k11⟩,
      x.autoSweep, ?_, x.markNormal, ⟨?_, by omega, k13⟩, x.markPriority, ⟨?_, by omega, k14⟩, rfl⟩ <;>
    simp (disch := omega) only [numAt_one, numAt_one_append, numAt_two_append, numAt_four_append, numAt_one_add,
      numAt_two_add, numAt_four_add]

theorem readFinisher_iff (h : b.length = 16) {x : Nat × FinisherSet} : readFinisher b = some x ↔ FinisherBody x b := by
  simp only [readFinisher, ↓bind_iff, within_iff, below_iff, onlyIf_iff, decide_eq_true_eq]
  constructor
  · rintro ⟨_, ⟨e0, k0⟩, _, ⟨e1, k1⟩, _, ⟨e2, k2⟩, _, ⟨e3, k3⟩, _, ⟨e4, -, k4⟩, _, e5, _, e6, _, e7, _, e8, _, e9, k, rfl⟩
    refine ⟨?_, k0, k1, k2, k3, k4, k⟩
    dsimp only
    rw [← e0, ← e1, ← e2, ← e3, ← e4, ← e5, ← e6, ← e7, ← e8, ← e9]
    refine (List.drop_zero (l := b)).symm.trans ?_
    rw [drop_eq_one (j := 1) (by omega) rfl, drop_eq_two (j := 3) (by omega) rfl, drop_eq_four (j := 7) (by omega) rfl, drop_eq_two (j := 9) (by omega) rfl,
      drop_eq_two (j := 11) (by omega) rfl, drop_eq_one (j := 12) (by omega) rfl, drop_eq_one (j := 13) (by omega) rfl, drop_eq_one (j := 14) (by omega) rfl,
      drop_eq_one (j := 15) (by omega) rfl, drop_eq_one (j := 16) (by omega) rfl, List.drop_of_length_le (by omega), List.append_nil]
    simp only [List.append_assoc]
  · rintro ⟨rfl, k0, k1, k2, k3, k4, k⟩
    refine ⟨x.1, ⟨?_, k0⟩, x.2.nominal, ⟨?_, k1⟩, x.2.limit, ⟨?_, k2⟩, x.2.eject, ⟨?_, k3⟩, x.2.settle, ⟨?_, by omega, k4⟩, x.2.stapler, ?_,
      x.2.ejector, ?_, x.2.stapleHome, ?_, x.2.ejectHome, ?_, x.2.compileTray, ?_, k, rfl⟩ <;>
    simp (disch := omega) only [List.append_assoc, numAt_one, numAt_one_append, numAt_two_append, numAt_four_append, numAt_one_add,
      numAt_two_add, numAt_four_add]

/-! ## The bodies of doors, lines and units (R8, R9, R14) -/

theorem readDoor_iff (h : b.length = 5) {x : Fin 8 × Option DoorDef} : readDoor b = some x ↔ DoorBody x b := by
  simp only [readDoor, ↓bind_iff, below_iff, flagOf_iff, Option.some.injEq]
  constructor
  · rintro ⟨id, e0, rm, e1, line, e2, fin, e4, rfl⟩
    refine ⟨⟨line, BitVec.ofNat 8 (numAt b 3 1), fin⟩, ?_, ?_⟩
    · have flag : (if (if rm = true then none else some (⟨line, BitVec.ofNat 8 (numAt b 3 1), fin⟩ : DoorDef)).isSome = true then 0 else 1)
          = rm.toNat := by cases rm <;> rfl
      dsimp only
      rw [flag, ← e0, ← e1, ← e2, ← e4]
      refine (List.drop_zero (l := b)).symm.trans ?_
      rw [drop_eq_one (j := 1) (by omega) rfl, drop_eq_one (j := 2) (by omega) rfl, drop_eq_one (j := 3) (by omega) rfl, drop_eq_one (j := 4) (by omega) rfl,
        drop_eq_one (j := 5) (by omega) rfl, List.drop_of_length_le (by omega), List.append_nil]
      simp only [one, List.append_assoc]
    · cases rm
      · exact .inr rfl
      · exact .inl rfl
  · obtain ⟨id, door⟩ := x
    rintro ⟨d, rfl, hd⟩
    have hf := d.finisher.toNat_lt
    have areas : numAt ([d.areas] ++ one d.finisher.toNat) 0 1 = d.areas.toNat := numAt_cons_head _ _
    have skip : numAt ([d.areas] ++ one d.finisher.toNat) 1 1 = numAt (one d.finisher.toNat) 0 1 := rfl
    refine ⟨id, ?_, !door.isSome, ?_, d.line, ?_, d.finisher, ?_, ?_⟩
    · simp (disch := omega) only [List.append_assoc, numAt_one_append]
    · have act : (if door.isSome then 0 else 1) < 256 := by split <;> decide
      simp only [List.append_assoc, numAt_one_add, numAt_one_append act]
      cases door <;> rfl
    · simp (disch := omega) only [List.append_assoc, numAt_one_add, numAt_one_append]
    · simp (disch := omega) only [List.append_assoc, numAt_one_add, skip, numAt_one]
    · simp only [List.append_assoc, numAt_one_add, areas, BitVec.ofNat_toNat, BitVec.setWidth_eq]
      rcases hd with rfl | rfl <;> rfl

theorem readLine_iff (h : b.length = 4) {x : (Fin 32 × InputSet) ⊕ (Fin 24 × Bool)} : readLine b = some x ↔ LineBody x b := by
  simp only [readLine, ↓bind_iff, flagOf_iff, highLowOf_iff]
  constructor
  · rintro ⟨out, e0, high, e2, hx⟩
    have whole : b = one (numAt b 0 1) ++ one (numAt b 1 1) ++ one (numAt b 2 1) ++ one (numAt b 3 1) := by
      refine (List.drop_zero (l := b)).symm.trans ?_
      rw [drop_eq_one (j := 1) (by omega) rfl, drop_eq_one (j := 2) (by omega) rfl, drop_eq_one (j := 3) (by omega) rfl,
        drop_eq_one (j := 4) (by omega) rfl, List.drop_of_length_le (by omega), List.append_nil]
      simp only [List.append_assoc]
    cases out with
    | true =>
      rw [if_pos rfl, bind_iff] at hx
      obtain ⟨line, e1, hx⟩ := hx
      obtain rfl := Option.some.inj hx
      refine ⟨one (numAt b 3 1), rfl, ?_⟩
      rw [below_iff] at e1
      rw [← e1, ← e2]
      exact whole.trans (by rw [e0]; rfl)
    | false =>
      rw [if_neg Bool.false_ne_true, bind_iff] at hx
      obtain ⟨line, e1, hx⟩ := hx
      obtain ⟨filter, e3, hx⟩ := bind_iff.mp hx
      obtain rfl := Option.some.inj hx
      rw [below_iff] at e1
      rw [within_iff] at e3
      refine ⟨?_, e3.2.2⟩
      dsimp only
      rw [← e1, ← e2, ← e3.1]
      exact whole.trans (by rw [e0]; rfl)
  · cases x with
    | inl y =>
      rintro ⟨rfl, hf⟩
      have hh := onOff_lt y.2.high
      refine ⟨false, ?_, y.2.high, ?_, ?_⟩
      · simp (disch := omega) only [List.append_assoc, numAt_one_append, Bool.toNat_false]
      · simp (disch := omega) only [List.append_assoc, numAt_one_add, numAt_one_append]
      · rw [if_neg Bool.false_ne_true, bind_iff]
        refine ⟨y.1, below_iff.mpr ?_, bind_iff.mpr ⟨y.2.filter, within_iff.mpr ⟨?_, by omega, hf⟩, rfl⟩⟩
        · simp (disch := omega) only [List.append_assoc, numAt_one_add, numAt_one_append]
        · simp (disch := omega) only [List.append_assoc, numAt_one_add, numAt_one]
    | inr y =>
      rintro ⟨r, hr, rfl⟩
      have hh := onOff_lt y.2
      refine ⟨true, ?_, y.2, ?_, ?_⟩
      · simp (disch := omega) only [List.append_assoc, numAt_one_append, Bool.toNat_true]
      · simp (disch := omega) only [List.append_assoc, numAt_one_add, numAt_one_append]
      · rw [if_pos rfl, bind_iff]
        refine ⟨y.1, below_iff.mpr ?_, rfl⟩
        simp (disch := omega) only [List.append_assoc, numAt_one_add, numAt_one_append]

theorem readTray_iff (h : b.length = 5) (u : Fin 5) (hu : numAt b 0 1 = u.val) {x : UnitSet} {count : Nat} :
    readTray b u = some x ↔ ∃ y, x = .tray u y ∧ UnitBody count (.tray u y) b := by
  simp only [readTray, ↓bind_iff, below_iff, within_iff, Option.some.injEq]
  constructor
  · rintro ⟨_, e1, _, e2, _, e3, _, ⟨e4, -, k⟩, rfl⟩
    refine ⟨_, rfl, ?_, k⟩
    dsimp only
    rw [← hu, ← e1, ← e2, ← e3, ← e4]
    refine (List.drop_zero (l := b)).symm.trans ?_
    rw [drop_eq_one (j := 1) (by omega) rfl, drop_eq_one (j := 2) (by omega) rfl, drop_eq_one (j := 3) (by omega) rfl,
      drop_eq_one (j := 4) (by omega) rfl, drop_eq_one (j := 5) (by omega) rfl, List.drop_of_length_le (by omega), List.append_nil]
    simp only [List.append_assoc]
  · rintro ⟨y, rfl, rfl, k⟩
    refine ⟨y.clutch, ?_, y.present, ?_, y.paperOut, ?_, y.retries, ⟨?_, by omega, k⟩, rfl⟩ <;>
    simp (disch := omega) only [List.append_assoc, numAt_one, numAt_one_append, numAt_one_add]

theorem readBin_iff (h : b.length = 5) (i : Fin 2) (hu : numAt b 0 1 = 5 + i.val) {x : UnitSet} {count : Nat} :
    (below 32 (numAt b 1 1)).map (.bin i) = some x ↔ ∃ y, x = .bin i y ∧ UnitBody count (.bin i y) b := by
  rw [Option.map_eq_some_iff]
  constructor
  · rintro ⟨line, e1, rfl⟩
    refine ⟨line, rfl, b.drop 2, by rw [List.length_drop, h], ?_⟩
    rw [← hu, ← below_iff.mp e1]
    refine (List.drop_zero (l := b)).symm.trans ?_
    rw [drop_eq_one (j := 1) (by omega) rfl, drop_eq_one (j := 2) (by omega) rfl, List.append_assoc]
  · rintro ⟨line, rfl, r, hr, rfl⟩
    refine ⟨line, below_iff.mpr ?_, rfl⟩
    simp (disch := omega) only [List.append_assoc, numAt_one_append, numAt_one_add]

theorem readPurge_iff (h : b.length = 5) (hu : numAt b 0 1 = 7) {x : UnitSet} {count : Nat} :
    ((below 32 (numAt b 1 1)) >>= fun removed => (within 30 250 (numAt b 2 1)) >>= fun capacity =>
      onlyIf (decide (count ≤ capacity)) (.purge ⟨removed, capacity⟩)) = some x ↔ ∃ y, x = .purge y ∧ UnitBody count (.purge y) b := by
  simp only [↓bind_iff, below_iff, within_iff, onlyIf_iff, decide_eq_true_eq]
  constructor
  · rintro ⟨removed, e1, capacity, ⟨e2, k⟩, hc, rfl⟩
    refine ⟨_, rfl, b.drop 3, by rw [List.length_drop, h], ?_, k, hc⟩
    dsimp only
    rw [← hu, ← e1, ← e2]
    refine (List.drop_zero (l := b)).symm.trans ?_
    rw [drop_eq_one (j := 1) (by omega) rfl, drop_eq_one (j := 2) (by omega) rfl, drop_eq_one (j := 3) (by omega) rfl]
    simp only [List.append_assoc]
  · rintro ⟨y, rfl, r, hr, rfl, k, hc⟩
    refine ⟨y.removed, ?_, y.capacity, ⟨?_, k⟩, hc, rfl⟩ <;>
    simp (disch := omega) only [List.append_assoc, numAt_one_append, numAt_one_add]

theorem readUnit_tray (u : Fin 5) (hu : numAt b 0 1 = u.val) (count : Nat) : readUnit b count = readTray b u := by
  unfold readUnit
  rw [hu]
  match u with
  | 0 | 1 | 2 | 3 | 4 => rfl

theorem readUnit_bin (i : Fin 2) (hu : numAt b 0 1 = 5 + i.val) (count : Nat) :
    readUnit b count = (below 32 (numAt b 1 1)).map (.bin i) := by
  unfold readUnit
  rw [hu]
  match i with
  | 0 | 1 => rfl

theorem readUnit_purge (hu : numAt b 0 1 = 7) (count : Nat) :
    readUnit b count = ((below 32 (numAt b 1 1)) >>= fun removed => (within 30 250 (numAt b 2 1)) >>= fun capacity =>
      onlyIf (decide (count ≤ capacity)) (.purge ⟨removed, capacity⟩)) := by
  unfold readUnit
  rw [hu]
  rfl

theorem readUnit_none (hu : 8 ≤ numAt b 0 1) (count : Nat) : readUnit b count = none := by
  unfold readUnit
  obtain ⟨k, hk⟩ := Nat.exists_eq_add_of_le' hu
  rw [hk]
  rfl

/-- The unit byte of a body. -/
def UnitSet.byte : UnitSet → Nat
  | .tray u _ => u.val
  | .bin i _ => 5 + i.val
  | .purge _ => 7

theorem UnitBody.byte {x : UnitSet} {count : Nat} (hx : UnitBody count x b) : numAt b 0 1 = x.byte := by
  cases x with
  | tray u y =>
    obtain ⟨rfl, -⟩ := hx
    simp (disch := omega) only [List.append_assoc, numAt_one_append, UnitSet.byte]
  | bin i line =>
    obtain ⟨r, -, rfl⟩ := hx
    simp (disch := omega) only [List.append_assoc, numAt_one_append, UnitSet.byte]
  | purge y =>
    obtain ⟨r, -, rfl, -⟩ := hx
    simp (disch := omega) only [List.append_assoc, numAt_one_append, UnitSet.byte]

theorem readUnit_iff (h : b.length = 5) {x : UnitSet} {count : Nat} : readUnit b count = some x ↔ UnitBody count x b := by
  constructor
  · intro hx
    by_cases ht : numAt b 0 1 < 5
    · rw [readUnit_tray ⟨_, ht⟩ rfl, readTray_iff h _ rfl (count := count)] at hx
      obtain ⟨y, rfl, hb⟩ := hx
      exact hb
    · by_cases hb : numAt b 0 1 < 7
      · have hi : numAt b 0 1 = 5 + (⟨numAt b 0 1 - 5, by omega⟩ : Fin 2).val := by
          show _ = 5 + (numAt b 0 1 - 5)
          omega
        rw [readUnit_bin _ hi, readBin_iff h _ hi (count := count)] at hx
        obtain ⟨y, rfl, hb⟩ := hx
        exact hb
      · by_cases hp : numAt b 0 1 = 7
        · rw [readUnit_purge hp, readPurge_iff h hp] at hx
          obtain ⟨y, rfl, hb⟩ := hx
          exact hb
        · rw [readUnit_none (by omega)] at hx
          cases hx
  · intro hb
    have byte := hb.byte
    cases x with
    | tray u y =>
      rw [readUnit_tray u byte, readTray_iff h u byte (count := count)]
      exact ⟨y, rfl, hb⟩
    | bin i line =>
      rw [readUnit_bin i byte, readBin_iff h i byte (count := count)]
      exact ⟨line, rfl, hb⟩
    | purge y =>
      rw [readUnit_purge byte, readPurge_iff h byte]
      exact ⟨y, rfl, hb⟩

/-! ## The bodies of stations and legs (R3, R5) -/

theorem Role.ctorIdx_lt (x : Role) : x.ctorIdx < 256 := by cases x <;> decide

theorem Drive.ctorIdx_lt (x : Drive) : x.ctorIdx < 256 := by cases x <;> decide

/-- The gate line's reading: it stands with EXIT and PURGE GATE alone (R3). -/
def readGate (b : List Byte) (role : Role) : Option (Option (Fin 24)) :=
  if role = .exit ∨ role = .purgeGate then (below 24 (numAt b 6 1)).map some else some none

theorem readGate_iff {role : Role} {g : Option (Fin 24)} : readGate b role = some g ↔
    if role = .exit ∨ role = .purgeGate then ∃ l : Fin 24, g = some l ∧ numAt b 6 1 = l.val else g = none := by
  unfold readGate
  split
  · simp only [Option.map_eq_some_iff, below_iff]
    exact exists_congr fun l => and_comm.trans (and_congr_left fun _ => eq_comm)
  · rw [Option.some.injEq, eq_comm]

/-- A station replaced: the fields read after the action. -/
def readStationDef (b : List Byte) (id : Fin 24) : Option (Fin 24 × Option StationDef) := do
  let line ← below 32 (numAt b 2 1)
  let role ← roleAt (numAt b 3 1)
  let area ← below 8 (numAt b 4 1)
  let drive ← driveAt (numAt b 5 1)
  let gate ← readGate b role
  some (id, some ⟨line, role, area, drive, gate⟩)

theorem readStation_eq (b : List Byte) : readStation b = (below 24 (numAt b 0 1)) >>= fun id =>
    match numAt b 1 1 with
    | 1 => some (id, none)
    | 0 => readStationDef b id
    | _ => none := by
  unfold readStation
  refine bind_congr fun id => ?_
  generalize numAt b 1 1 = act
  match act with
  | 0 =>
    refine bind_congr fun line => bind_congr fun role => bind_congr fun area => bind_congr fun drive => ?_
    unfold readGate
    split <;> rfl
  | 1 => rfl
  | _ + 2 => rfl

theorem readStationDef_iff (h : b.length = 7) (ha : numAt b 1 1 = 0) {id : Fin 24} (hi : numAt b 0 1 = id.val)
    {x : Fin 24 × Option StationDef} : readStationDef b id = some x ↔ ∃ d, x = (id, some d) ∧ StationBody (id, some d) b := by
  simp only [readStationDef, ↓bind_iff, below_iff, roleAt_iff, driveAt_iff, readGate_iff, Option.some.injEq]
  constructor
  · rintro ⟨line, e2, role, e3, area, e4, drive, e5, gate, hg, rfl⟩
    refine ⟨_, rfl, BitVec.ofNat 8 (numAt b 6 1), ?_, ?_⟩
    · dsimp only
      rw [← hi, ← ha, ← e2, ← e3, ← e4, ← e5]
      refine (List.drop_zero (l := b)).symm.trans ?_
      rw [drop_eq_one (j := 1) (by omega) rfl, drop_eq_one (j := 2) (by omega) rfl, drop_eq_one (j := 3) (by omega) rfl,
        drop_eq_one (j := 4) (by omega) rfl, drop_eq_one (j := 5) (by omega) rfl, drop_eq_one (j := 6) (by omega) rfl,
        drop_eq_one (j := 7) (by omega) rfl, List.drop_of_length_le (by omega), List.append_nil]
      simp only [one, List.append_assoc, ha]
    · dsimp only
      split at hg
      · next hr =>
        obtain ⟨l, hl, e⟩ := hg
        rw [if_pos hr]
        exact ⟨l, hl, by rw [e]⟩
      · next hr =>
        rw [if_neg hr]
        exact hg
  · rintro ⟨d, rfl, g, rfl, hg⟩
    have hr := d.role.ctorIdx_lt
    have hd := d.drive.ctorIdx_lt
    refine ⟨d.line, ?_, d.role, ?_, d.area, ?_, d.drive, ?_, d.gate, ?_, rfl⟩
    · simp (disch := omega) only [List.append_assoc, numAt_one_append, numAt_one_add]
    · simp (disch := omega) only [List.append_assoc, numAt_one_append, numAt_one_add]
    · simp (disch := omega) only [List.append_assoc, numAt_one_append, numAt_one_add]
    · simp (disch := omega) only [List.append_assoc, numAt_one_append, numAt_one_add]
    · have byte : numAt (one id.val ++ one 0 ++ one d.line.val ++ one d.role.ctorIdx ++ one d.area.val ++ one d.drive.ctorIdx ++ [g]) 6 1
          = g.toNat := by
        simp only [List.append_assoc, numAt_one_add, numAt_cons_head]
      split at hg
      · next hr =>
        obtain ⟨l, hl, rfl⟩ := hg
        rw [if_pos hr, byte]
        exact ⟨l, hl, by rw [BitVec.toNat_ofNat]; omega⟩
      · next hr => rwa [if_neg hr]

theorem readStation_iff (h : b.length = 7) {x : Fin 24 × Option StationDef} : readStation b = some x ↔ StationBody x b := by
  rw [readStation_eq, bind_iff]
  constructor
  · rintro ⟨id, hi, hx⟩
    rw [below_iff] at hi
    split at hx
    · next ha =>
      obtain rfl := Option.some.inj hx
      refine ⟨b.drop 2, by rw [List.length_drop, h], ?_⟩
      dsimp only
      rw [← hi, ← ha]
      refine (List.drop_zero (l := b)).symm.trans ?_
      rw [drop_eq_one (j := 1) (by omega) rfl, drop_eq_one (j := 2) (by omega) rfl, List.append_assoc, ha]
    · next ha =>
      obtain ⟨d, rfl, hb⟩ := (readStationDef_iff h ha hi).mp hx
      exact hb
    · cases hx
  · obtain ⟨id, def_⟩ := x
    intro hb
    cases def_ with
    | none =>
      obtain ⟨r, -, rfl⟩ := hb
      refine ⟨id, below_iff.mpr ?_, ?_⟩
      · simp (disch := omega) only [List.append_assoc, numAt_one_append]
      · have act : numAt (one id.val ++ one 1 ++ r) 1 1 = 1 := by
          simp (disch := omega) only [List.append_assoc, numAt_one_append, numAt_one_add]
        rw [act]
        rfl
    | some d =>
      have hi : numAt b 0 1 = id.val := by
        obtain ⟨g, rfl, -⟩ := hb
        simp (disch := omega) only [List.append_assoc, numAt_one_append]
      have ha : numAt b 1 1 = 0 := by
        obtain ⟨g, rfl, -⟩ := hb
        simp (disch := omega) only [List.append_assoc, numAt_one_append, numAt_one_add]
      refine ⟨id, below_iff.mpr hi, ?_⟩
      rw [ha]
      exact (readStationDef_iff h ha hi).mpr ⟨d, rfl, hb⟩

end Sys2Proof.Machine
end

