-- ==== Sys2Proof/Proofs/Definitions.lean ====
section
/-! PROOF. The definition requests: what each stores, and what it refuses (O4, O5). -/

namespace Sys2Proof.Machine

/-! ## Bodies of entries one after another (R5, R170) -/

section Entries

variable {α : Type} {b : List Byte} {base size : Nat} {f : Nat → Option α} {code : α → List Byte} {good : α → Prop}

theorem mapM_range_succ (f : Nat → Option α) (k : Nat) (l : List α) :
    (List.range (k + 1)).mapM f = some l ↔ ∃ m, (List.range k).mapM f = some m ∧ ∃ y, f k = some y ∧ l = m ++ [y] := by
  rw [List.range_succ, List.mapM_append, bind_iff]
  refine exists_congr fun m => and_congr_right fun _ => ?_
  rw [bind_iff]
  constructor
  · rintro ⟨l', h, e⟩
    obtain ⟨y, hy, rfl⟩ : ∃ y, f k = some y ∧ l' = [y] := by
      simp only [List.mapM_cons, List.mapM_nil, bind_iff] at h
      obtain ⟨y, hy, _, hz, e⟩ := h
      obtain rfl := Option.some.inj hz
      exact ⟨y, hy, (Option.some.inj e).symm⟩
    exact ⟨y, hy, (Option.some.inj e).symm⟩
  · rintro ⟨y, hy, rfl⟩
    exact ⟨[y], by simp [hy], rfl⟩

theorem flatMap_length (size_eq : ∀ y, (code y).length = size) (m : List α) : (m.flatMap code).length = size * m.length := by
  induction m with
  | nil => rfl
  | cons y m ih =>
    rw [List.flatMap_cons, List.length_append, ih, size_eq, List.length_cons]
    ring

/-- Entries of one size read one after another are those laid out one after another. -/
theorem entries_iff (size_eq : ∀ y, (code y).length = size)
    (entry : ∀ i y, base + size * (i + 1) ≤ b.length →
      (f i = some y ↔ good y ∧ b.drop (base + size * i) = code y ++ b.drop (base + size * (i + 1))))
    (k : Nat) (hk : base + size * k ≤ b.length) (l : List α) :
    (List.range k).mapM f = some l ↔ l.length = k ∧ (∀ y ∈ l, good y) ∧ b.drop base = l.flatMap code ++ b.drop (base + size * k) := by
  have flat := flatMap_length size_eq
  induction k generalizing l with
  | zero =>
    simp only [List.range_zero, List.mapM_nil, Option.pure_def, Option.some.injEq, Nat.mul_zero, Nat.add_zero, List.length_eq_zero_iff]
    constructor
    · rintro rfl
      exact ⟨rfl, by simp, rfl⟩
    · rintro ⟨rfl, -⟩
      rfl
  | succ k ih =>
    have hk' : base + size * k ≤ b.length := by
      rw [Nat.mul_succ] at hk
      omega
    rw [mapM_range_succ]
    constructor
    · rintro ⟨m, hm, y, hy, rfl⟩
      obtain ⟨rfl, gm, em⟩ := (ih hk' m).mp hm
      obtain ⟨gy, ey⟩ := (entry _ y hk).mp hy
      refine ⟨by simp, ?_, ?_⟩
      · intro z hz
        rcases List.mem_append.mp hz with hz | hz
        · exact gm z hz
        · exact List.mem_singleton.mp hz ▸ gy
      · rw [em, ey]
        simp
    · rintro ⟨hl, gl, el⟩
      obtain ⟨m, y, rfl⟩ : ∃ m y, l = m ++ [y] := by
        have hne : l ≠ [] := by
          rintro rfl
          cases hl
        exact ⟨_, _, (List.dropLast_append_getLast hne).symm⟩
      have hm : m.length = k := by simpa using hl
      rw [List.flatMap_append, List.flatMap_singleton, List.append_assoc] at el
      have rest : b.drop (base + size * k) = code y ++ b.drop (base + size * (k + 1)) := by
        rw [← List.drop_drop, el, List.drop_append_of_le_length (by rw [flat, hm]), List.drop_of_length_le (by rw [flat, hm]), List.nil_append]
      refine ⟨m, (ih hk' m).mpr ⟨hm, fun z hz => gl z (List.mem_append_left _ hz), el.trans (by rw [rest])⟩, y,
        (entry k y hk).mpr ⟨gl y (by simp), rest⟩, rfl⟩

end Entries

/-! ## LEG DEF's body (R5) -/

variable {b : List Byte}

/-- A leg's step as its three bytes. -/
def LegStep.code (y : LegStep) : List Byte := one y.station.val ++ two y.dist

theorem readLegStep_iff {i : Nat} {y : LegStep} (h : 2 + 3 * (i + 1) ≤ b.length) : readLegStep b i = some y ↔
    inRange 1 20000 y.dist ∧ b.drop (2 + 3 * i) = y.code ++ b.drop (2 + 3 * (i + 1)) := by
  have e := (drop_eq_one (b := b) (i := 2 + 3 * i) (j := 3 + 3 * i) (by omega) (by omega)).trans
    (congrArg _ (drop_eq_two (b := b) (i := 3 + 3 * i) (j := 2 + 3 * (i + 1)) (by omega) (by omega)))
  simp only [readLegStep, ↓bind_iff, below_iff, within_iff, Option.some.injEq, LegStep.code]
  constructor
  · rintro ⟨st, e0, dist, ⟨e1, k⟩, rfl⟩
    refine ⟨k, ?_⟩
    dsimp only
    rw [e, e0, e1, List.append_assoc]
  · rintro ⟨k, e'⟩
    have station := congrArg (numAt · 0 1) e'
    have dist := congrArg (numAt · 1 2) e'
    simp (disch := omega) only [numAt_drop, List.append_assoc, numAt_one_append, numAt_one_add, numAt_two_append, Nat.add_zero] at station dist
    rw [show 2 + 3 * i + 1 = 3 + 3 * i by omega] at dist
    exact ⟨y.station, station, y.dist, ⟨dist, k⟩, rfl⟩

/-- The end distance's reading: a leg without one stores none (R5). -/
def readEnd (b : List Byte) (leg : LegName) (k : Nat) : Option Nat :=
  if leg.hasEnd then within 1 20000 (numAt b (2 + 3 * k) 2) else some 0

theorem LegName.hasEnd_iff (leg : LegName) :
    (leg = .duplex ∨ leg = .insert ∨ leg = .tray0 ∨ leg = .tray1 ∨ leg = .tray2 ∨ leg = .tray3) ↔ leg.hasEnd = true := by
  cases leg <;> decide

theorem readLeg_eq (b : List Byte) : readLeg b = (legAt (numAt b 0 1)) >>= fun leg =>
    (onlyIf (numAt b 1 1 == (b.length - 4) / 3) ()) >>= fun _ => ((List.range ((b.length - 4) / 3)).mapM (readLegStep b)) >>= fun steps =>
      (readEnd b leg ((b.length - 4) / 3)) >>= fun e => some (leg, ⟨steps, e⟩) := by
  unfold readLeg
  refine bind_congr fun leg => bind_congr fun _ => bind_congr fun steps => ?_
  unfold readEnd
  simp only [leg.hasEnd_iff]
  split <;> rfl

theorem readLeg_iff (h : catalogueLength 0x02 b.length) {x : LegName × Leg} : readLeg b = some x ↔ LegBody x b := by
  obtain ⟨k, hl, hk, hb⟩ := h
  have count : (b.length - 4) / 3 = k := by omega
  have steps_iff := fun l => entries_iff (b := b) (base := 2) (size := 3) (code := LegStep.code) (good := fun y => inRange 1 20000 y.dist)
    (fun _ => rfl) (fun _ _ => readLegStep_iff) k (by omega) l
  have tail : b.drop (2 + 3 * k) = two (numAt b (2 + 3 * k) 2) := by
    rw [drop_eq_two (j := 4 + 3 * k) (by omega) (by omega), List.drop_of_length_le (by omega), List.append_nil]
  have small : numAt b (2 + 3 * k) 2 < 65536 := numAt_lt b (2 + 3 * k) 2
  rw [readLeg_eq, count]
  simp only [↓bind_iff, legAt_iff, onlyIf_iff, steps_iff, beq_iff_eq, Option.some.injEq]
  constructor
  · rintro ⟨leg, e0, _, ⟨e1, -⟩, steps, ⟨rfl, gs, es⟩, e, he, rfl⟩
    refine ⟨numAt b (2 + 3 * steps.length) 2, small, ⟨hl, hk⟩, gs, ?_, ?_⟩
    · dsimp only
      rw [← e0, ← e1]
      refine (List.drop_zero (l := b)).symm.trans ?_
      rw [drop_eq_one (j := 1) (by omega) rfl, drop_eq_one (j := 2) (by omega) rfl, es, tail]
      simp only [List.append_assoc, e1]
      rfl
    · unfold readEnd at he
      split at he
      · next hh =>
        obtain ⟨he, k1, k2⟩ := within_iff.mp he
        rw [if_pos hh]
        exact ⟨he.symm, he ▸ k1, he ▸ k2⟩
      · next hh =>
        rw [if_neg hh]
        exact (Option.some.inj he).symm
  · obtain ⟨leg, steps, e⟩ := x
    rintro ⟨w, hw, ks, gs, body, he⟩
    dsimp only at ks gs body he
    have flat : (steps.flatMap LegStep.code).length = 3 * steps.length := flatMap_length (code := LegStep.code) (fun _ => rfl) steps
    have body : b = one leg.pos.val ++ (one steps.length ++ (steps.flatMap LegStep.code ++ two w)) := by
      rw [body]
      simp only [List.append_assoc]
      rfl
    obtain rfl : steps.length = k := by
      have := congrArg List.length body
      simp only [List.length_append, flat, hb] at this
      simp only [one, two, List.length_cons, List.length_nil] at this
      omega
    have e0 : numAt b 0 1 = leg.pos.val := by rw [body, numAt_one_append (by omega)]
    have e1 : numAt b 1 1 = steps.length := by rw [body, numAt_one_add, numAt_one_append (by omega)]
    have d2 : b.drop 2 = steps.flatMap LegStep.code ++ two w := by rw [body]; rfl
    have dk : b.drop (2 + 3 * steps.length) = two w := by
      rw [← List.drop_drop, d2, ← flat, List.drop_left]
    have en : numAt b (2 + 3 * steps.length) 2 = w := by
      have := numAt_two_append (r := []) hw
      rwa [List.append_nil, ← dk, numAt_drop] at this
    refine ⟨leg, e0, (), ⟨e1, trivial⟩, steps, ⟨rfl, gs, by rw [d2, dk]⟩, e, ?_, rfl⟩
    unfold readEnd
    split at he
    · next hh =>
      obtain ⟨rfl, ke⟩ := he
      rw [if_pos hh]
      exact within_iff.mpr ⟨en, ke⟩
    · next hh => rw [if_neg hh, he]

/-! ## A definition request (R2) -/

variable {t : Tick} {kind : Byte} {body : List Byte}

theorem Part.definable_of {s : Part} (h : (if s.feed.path = .unconfigured ∨ s.feed.path = .idle then none else some 0x05#8) = none) :
    s.definable = true := by
  split at h
  · next hp => exact s.definable_iff.mpr hp
  · cases h

theorem Part.setPath_unconfigured (s : Part) : s.setPath .unconfigured = s.unconfigure := by
  unfold Part.setPath Part.unconfigure
  split
  · next h =>
    have feed : ({ s.feed with path := .unconfigured } : Feed) = s.feed := by rw [← h]
    have notices : ({ s.notices with
        pathState := s.notices.pathState || (s.mask.pathState && s.feed.path != .unconfigured) } : Notices) = s.notices := by
      simp [h]
    rw [feed, notices]
  · next h =>
    have left : (s.feed.path != .unconfigured) = true := by simpa using h
    rw [left, Bool.and_true]
    rfl

theorem Part.define_taken {s : Part} (h : s.definable = true) (g : Desc → Desc) :
    s.define (some g) = ((s.modStored g).setPath .unconfigured).done := if_pos h

theorem Part.define_badValue {s : Part} (h : s.definable = true) : s.define none = s.refuse .badValue := if_pos h

/-- A definition request that is taken. -/
theorem exec_define {c : Instr} {s : State} {g : Desc → Desc} (h : c.request? = some (t, kind, body)) (hs : s.part.canAccept)
    (ha : answerFrame ⟨kind, body⟩ (s.part.found t kind body) =
      (((s.part.found t kind body).modStored g).setPath .unconfigured).done) :
    exec c s = .next (defined s t kind body (g s.part.stored)) := by
  rw [exec_request c s h]
  refine congrArg (fun p => Host.Outcome.next { s with part := p }) ?_
  rw [Part.setPath_unconfigured] at ha
  refine (s.part.takeRequest_owner t kind body _ hs (by rw [ha]; rfl)).trans ?_
  rw [ha]
  rfl

/-- Whatever a definition request's body lays out is stored, and a body that lays out nothing is refused. -/
theorem exec_definition {α : Type} {c : Instr} {s : State} {edit : α → Desc → Desc} {o : Option α} (h : c.request? = some (t, kind, body))
    (hs : s.part.canAccept) (hd : s.part.definable = true)
    (ha : answerFrame ⟨kind, body⟩ (s.part.found t kind body) = (s.part.found t kind body).define (o.map edit)) :
    (∀ x, o = some x → exec c s = .next (defined s t kind body (edit x s.part.stored))) ∧
      (o = none → exec c s = .next { s with part := s.part.answered t kind body [0x03] }) := by
  have hd : (s.part.found t kind body).definable = true := hd
  constructor
  · rintro x rfl
    exact exec_define h hs (ha.trans (Part.define_taken hd _))
  · rintro rfl
    exact exec_unchanged h hs .badValue [] (ha.trans (Part.define_badValue hd))

/-- A body that lays out nothing is not read. -/
theorem read_none {α : Type} {o : Option α} {P : α → Prop} (iff : ∀ {x}, o = some x ↔ P x) (h : ∀ x, ¬ P x) : o = none :=
  Option.eq_none_iff_forall_ne_some.mpr fun x hx => h x (iff.mp hx)

/-- Settles O4. -/
theorem pathDefsTaken : Obligations.PathDefsTaken := by
  refine ⟨fun s t b hs hp hl => ?_, fun s t b hs hp hl => ?_, fun s t b hs hp hl => ?_, fun s t b hs hp hl => ?_⟩
  · have ha : answerFrame ⟨0x01, b⟩ (s.part.found t 0x01 b) = (s.part.found t 0x01 b).define ((readStation b).map Desc.withStation) :=
      if_pos (lengthIs_iff.mpr hl)
    obtain ⟨taken, refused⟩ := exec_definition (c := .stationDef t b) rfl hs (Part.definable_of hp) ha
    exact ⟨fun x hx => taken x ((readStation_iff hl).mpr hx), fun hn => refused (read_none (readStation_iff hl) hn)⟩
  · have ha : answerFrame ⟨0x02, b⟩ (s.part.found t 0x02 b) = (s.part.found t 0x02 b).define ((readLeg b).map Desc.withLeg) :=
      if_pos (legLengthOk_iff.mpr hl)
    obtain ⟨taken, refused⟩ := exec_definition (c := .legDef t b) rfl hs (Part.definable_of hp) ha
    exact ⟨fun x hx => taken x ((readLeg_iff hl).mpr hx), fun hn => refused (read_none (readLeg_iff hl) hn)⟩
  · have ha : answerFrame ⟨0x04, b⟩ (s.part.found t 0x04 b) =
        (s.part.found t 0x04 b).define ((readUnit b s.part.gate.purgeCount).map Desc.withUnit) := if_pos (lengthIs_iff.mpr hl)
    obtain ⟨taken, refused⟩ := exec_definition (c := .trayDef t b) rfl hs (Part.definable_of hp) ha
    exact ⟨fun x hx => taken x ((readUnit_iff hl).mpr hx), fun hn => refused (read_none (readUnit_iff hl) hn)⟩
  · have ha : answerFrame ⟨0x05, b⟩ (s.part.found t 0x05 b) = (s.part.found t 0x05 b).define ((readDoor b).map Desc.withDoor) :=
      if_pos (lengthIs_iff.mpr hl)
    obtain ⟨taken, refused⟩ := exec_definition (c := .doorDef t b) rfl hs (Part.definable_of hp) ha
    exact ⟨fun x hx => taken x ((readDoor_iff hl).mpr hx), fun hn _ => refused (read_none (readDoor_iff hl) hn)⟩

/-- Settles O5. -/
theorem settingDefsTaken : Obligations.SettingDefsTaken := by
  refine ⟨fun s t b hs hp hl => ?_, fun s t b hs hp hl => ?_, fun s t b hs hp hl => ⟨fun he => ?_, fun he => ?_⟩, fun s t b hs hp hl => ?_⟩
  · have ha : answerFrame ⟨0x03, b⟩ (s.part.found t 0x03 b) = (s.part.found t 0x03 b).define ((readDrive b).map Desc.withDrive) :=
      if_pos (lengthIs_iff.mpr hl)
    obtain ⟨taken, refused⟩ := exec_definition (c := .driveDef t b) rfl hs (Part.definable_of hp) ha
    exact ⟨fun x hx => taken x ((readDrive_iff hl).mpr hx), fun hn => refused (read_none (readDrive_iff hl) hn)⟩
  · have ha : answerFrame ⟨0x06, b⟩ (s.part.found t 0x06 b) = (s.part.found t 0x06 b).define ((readTiming b).map Desc.withTiming) :=
      if_pos (lengthIs_iff.mpr hl)
    obtain ⟨taken, refused⟩ := exec_definition (c := .timingDef t b) rfl hs (Part.definable_of hp) ha
    exact ⟨fun x hx => taken x ((readTiming_iff hl).mpr hx), fun hn => refused (read_none (readTiming_iff hl) hn)⟩
  · have ha : answerFrame ⟨0x07, b⟩ (s.part.found t 0x07 b) = (s.part.found t 0x07 b).define ((readFinisher b).map Desc.withFinisher) :=
      (if_pos (lengthIs_iff.mpr hl)).trans (if_pos he)
    obtain ⟨taken, refused⟩ := exec_definition (c := .finisherDef t b) rfl hs (Part.definable_of hp) ha
    exact ⟨fun x hx => taken x ((readFinisher_iff hl).mpr hx), fun hn => refused (read_none (readFinisher_iff hl) hn)⟩
  · exact exec_unchanged (c := .finisherDef t b) rfl hs .wrongState [] ((if_pos (lengthIs_iff.mpr hl)).trans (if_neg he))
  · have ha : answerFrame ⟨0x08, b⟩ (s.part.found t 0x08 b) = (s.part.found t 0x08 b).define ((readLine b).map Desc.withLine) :=
      if_pos (lengthIs_iff.mpr hl)
    obtain ⟨taken, refused⟩ := exec_definition (c := .lineDef t b) rfl hs (Part.definable_of hp) ha
    exact ⟨fun x hx => taken x ((readLine_iff hl).mpr hx), fun hn => refused (read_none (readLine_iff hl) hn)⟩

end Sys2Proof.Machine
end

