-- ==== Sys2Proof/Proofs/MaskAndReads.lean ====
section
/-! PROOF. Requests that move nothing in the path: NOTICE MASK (O6), the reads (O16), DRY RUN and FAULT PLAN (O18). -/

namespace Sys2Proof.Machine

/-! ## NOTICE MASK (R178, R37) -/

/-- What a slot is once it was examined: free where it is closed, its counts balance and no PROGRESS of it is pending (R37). -/
def examinedSlot (pending : Bool) (x : Option Slot) : Option Slot :=
  x.filter fun y => !(y.closed && y.accepted == y.delivered + y.abandoned && !pending)

/-- The part with other slots. -/
def Part.withSlots (s : Part) (v : Vector (Option Slot) 8) : Part := s.modIntake fun x => { x with slots := v }

theorem Part.withSlots_eq {s : Part} {v : Vector (Option Slot) 8} (h : v = s.intake.slots) : s.withSlots v = s := h ▸ rfl

theorem Part.examineSlot_eq (s : Part) (i : Fin 8) :
    s.examineSlot i = s.withSlots (s.intake.slots.set i (examinedSlot (s.notices.progress[i]) (s.intake.slots[i]))) := by
  have same : ∀ y, s.intake.slots[i] = y → s.intake.slots.set i y = s.intake.slots := fun y hy => hy ▸ Vector.set_getElem_self i.isLt
  unfold Part.examineSlot
  split
  · next h =>
    rw [h]
    exact (Part.withSlots_eq (same none h)).symm
  · next x h =>
    rw [h]
    split
    · next hc =>
      have e : examinedSlot (s.notices.progress[i]) (some x) = none := by simp [examinedSlot, hc]
      rw [e]
      rfl
    · next hc =>
      have e : examinedSlot (s.notices.progress[i]) (some x) = some x := by
        refine Option.filter_eq_some_iff.mpr ⟨rfl, ?_⟩
        rw [Bool.not_eq_true', Bool.eq_false_iff]
        simpa using hc
      rw [e]
      exact (Part.withSlots_eq (same _ h)).symm

/-- The slots once some of them were examined. -/
def Part.examinedAll (s : Part) (l : List (Fin 8)) : Vector (Option Slot) 8 :=
  .ofFn fun k => if k ∈ l then examinedSlot (s.notices.progress[k]) (s.intake.slots[k]) else s.intake.slots[k]

theorem Part.examineSlots_eq (l : List (Fin 8)) (h : l.Nodup) (s : Part) : l.foldl Part.examineSlot s = s.withSlots (s.examinedAll l) := by
  induction l generalizing s with
  | nil =>
    refine (Part.withSlots_eq (Vector.ext fun k hk => ?_)).symm
    simp [Part.examinedAll]
  | cons i l ih =>
    obtain ⟨hi, hl⟩ := List.nodup_cons.mp h
    rw [List.foldl_cons, ih hl, s.examineSlot_eq]
    refine congrArg s.withSlots (Vector.ext fun k hk => ?_)
    simp only [Part.examinedAll, Part.withSlots, Vector.getElem_ofFn, List.mem_cons, Part.modIntake_intake, Part.modIntake_notices,
      Fin.getElem_fin, Vector.getElem_set]
    by_cases hki : (⟨k, hk⟩ : Fin 8) = i
    · subst hki
      simp [hi]
    · have : ¬ i.val = k := fun e => hki (Fin.ext e.symm)
      simp [hki, this]

theorem Part.setMask_eq (s : Part) (m : Mask) : s.setMask m = { s with
    mask := m
    notices := s.notices.masked m
    intake := { s.intake with
      slots := .ofFn fun i : Fin 8 => examinedSlot ((s.notices.progress[i]) && m.progress) (s.intake.slots[i]) } } := by
  unfold Part.setMask
  dsimp only
  rw [Part.examineSlots_eq _ (List.nodup_finRange 8)]
  refine congrArg (Part.withSlots ((s.modMask fun _ => m).modNotices fun n => n.masked m)) (Vector.ext fun k hk => ?_)
  simp [Part.examinedAll, Notices.masked]

variable {t : Tick} {kind : Byte} {body : List Byte}

/-- A request that is taken and whose owner leaves the Link Unit alone. -/
theorem exec_taken {c : Instr} {s : State} (h : c.request? = some (t, kind, body)) (hs : s.part.canAccept) {q : Part} {data : List Byte}
    {r : Result} (ha : answerFrame ⟨kind, body⟩ (s.part.found t kind body) = ⟨q, r, data⟩) (hl : q.link = (s.part.found t kind body).link) :
    exec c s = .next { s with part := { q with link := s.part.linkAfter kind body (r.byte :: data) } } := by
  rw [exec_request c s h]
  refine congrArg (fun p => Host.Outcome.next { s with part := p }) ?_
  refine (s.part.takeRequest_owner t kind body _ hs (by rw [ha]; exact hl)).trans ?_
  rw [ha]

/-- A request that is taken completes with its owner's part, the Link Unit answering. -/
theorem completes_of {c : Instr} {s : State} {φ : Part → Prop} {q : Part} {data : List Byte} {r : Result}
    (h : c.request? = some (t, kind, body)) (hs : s.part.canAccept)
    (ha : answerFrame ⟨kind, body⟩ (s.part.found t kind body) = ⟨q, r, data⟩) (hl : q.link = (s.part.found t kind body).link)
    (hφ : φ { q with link := s.part.linkAfter kind body (r.byte :: data) }) : Completes c s φ :=
  ⟨_, exec_taken h hs ha hl, rfl, hφ⟩

/-- What an owner's moves leave to the Link Unit. -/
theorem repliedTo_of {p q : Part} {reply : List Byte} (m : Moves .inner .settled (p.found t kind body) .settled q) :
    p.repliedTo t kind body reply { q with link := p.linkAfter kind body reply } := by
  obtain ⟨tick, lines, -, stored, force, mask⟩ := m.inner_eq
  exact ⟨tick, rfl, lines, stored, force, mask⟩

/-- Settles O6. -/
theorem noticeMaskTaken : Obligations.NoticeMaskTaken := by
  intro w p t m hs hp
  have hd : (p.found t 0x09 [m]).definable = true := Part.definable_of (s := p) hp
  have asked : answerFrame ⟨0x09, [m]⟩ (p.found t 0x09 [m]) = (p.found t 0x09 [m]).answerMask [m] := rfl
  have ha : answerFrame ⟨0x09, [m]⟩ (p.found t 0x09 [m]) = ((p.found t 0x09 [m]).setMask (readMask [m])).done :=
    asked.trans (if_pos hd)
  rw [Part.setMask_eq] at ha
  exact exec_taken (c := .noticeMask t [m]) (s := ⟨w, p⟩) rfl hs ha rfl

/-! ## Numbers laid out (12.7) -/

theorem bytesOf_one {v : Nat} (h : v < 256) : bytesOf 1 v = one v := by
  simp [bytesOf, one, h, List.range_succ]

theorem bytesOf_two {v : Nat} (h : v < 65536) : bytesOf 2 v = two v := by
  simp [bytesOf, two, h, List.range_succ]

theorem bytesOf_three {v : Nat} (h : v < 16777216) : bytesOf 3 v = three v := by
  simp [bytesOf, three, h, List.range_succ]

theorem bytesOf_four {v : Nat} (h : v < 4294967296) : bytesOf 4 v = four v := by
  simp [bytesOf, four, h, List.range_succ]

theorem tickBytes_eq (x : BitVec 32) : tickBytes x = four x.toNat := bytesOf_four x.isLt

theorem areaBytes_eq (a : AreaSet) : areaBytes a = two a.toNat := bytesOf_two (a.isLt.trans (by decide))

theorem bits_lt (l : List Bool) : bits l < 2 ^ l.length := by
  induction l with
  | nil => decide
  | cons b l ih =>
    simp only [bits, List.length_cons, Nat.pow_succ]
    split <;> omega

theorem bitField_flag (b : Bool) : bitField 1 b.toNat = if b then 1 else 0 := by cases b <;> rfl

theorem packed_flag (b : Bool) (l : List (Nat × Nat)) : packed ((1, b.toNat) :: l) = (if b then 1 else 0) + 2 * packed l := by
  rw [packed, bitField_flag, Nat.pow_one]

theorem bitSet_eq (l : List Bool) : bitSet l = bits l := by
  induction l with
  | nil => rfl
  | cons b l ih =>
    rw [bits, ← ih, bitSet, List.map_cons, packed_flag]
    rfl

theorem bytesOf_bits_one {l : List Bool} (h : l.length ≤ 8) : bytesOf 1 (bitSet l) = one (bits l) := by
  rw [bitSet_eq, bytesOf_one ((bits_lt l).trans_le (Nat.pow_le_pow_right (by decide) h))]

theorem bytesOf_bits_two {l : List Bool} (h : l.length ≤ 16) : bytesOf 2 (bitSet l) = two (bits l) := by
  rw [bitSet_eq, bytesOf_two ((bits_lt l).trans_le (Nat.pow_le_pow_right (by decide) h))]

theorem bytesOf_bits_three {l : List Bool} (h : l.length ≤ 24) : bytesOf 3 (bitSet l) = three (bits l) := by
  rw [bitSet_eq, bytesOf_three ((bits_lt l).trans_le (Nat.pow_le_pow_right (by decide) h))]

/-! ## The reads (R122, R179, R180) -/

theorem Part.clear_eq (p : Part) :
    (!p.clear) = (p.anyDoorOpen || p.anyPaper || p.strayTrayPaper || (p.finisher.state == .stapling || p.finisher.state == .ejecting)) := by
  unfold Part.clear Finisher.busy
  cases p.anyDoorOpen <;> cases p.anyPaper <;> cases p.strayTrayPaper <;> simp

theorem Part.clearanceReport_eq (p : Part) : p.clearanceReport = report p := by
  unfold Part.clearanceReport report Part.openDoors
  rw [bytesOf_bits_one (by simp), bytesOf_bits_one (by simp), bytesOf_bits_three (by simp), Part.clear_eq]
  rfl

theorem PathState.ctorIdx_lt (x : PathState) : x.ctorIdx < 256 := by cases x <;> decide

theorem SetState.ctorIdx_lt (x : SetState) : x.ctorIdx < 8 := by cases x <;> decide

theorem bitField_lt (w v : Nat) : bitField w v < 2 ^ w := by
  unfold bitField
  split
  · assumption
  · exact Nat.mod_lt _ (Nat.two_pow_pos w)

theorem packed_last (w v : Nat) : packed [(w, v)] = bitField w v := by
  rw [packed, packed, Nat.mul_zero, Nat.add_zero]

/-- The byte of flags and the class (R179). -/
theorem bytesOf_flags_class (a b c d : Bool) (v : Nat) :
    bytesOf 1 (packed [(1, a.toNat), (1, b.toNat), (1, c.toNat), (1, d.toNat), (2, v)]) = one (bits [a, b, c, d] + 16 * bitField 2 v) := by
  have e : packed [(1, a.toNat), (1, b.toNat), (1, c.toNat), (1, d.toNat), (2, v)] = bits [a, b, c, d] + 16 * bitField 2 v := by
    simp only [packed_flag, packed_last, bits]
    ring
  have hb := bits_lt [a, b, c, d]
  have hf := bitField_lt 2 v
  rw [e, bytesOf_one]
  simp only [List.length_cons, List.length_nil] at hb
  omega

/-- The byte of flags and the Compile Set's state (R179). -/
theorem bytesOf_flags_state (a b : Bool) (x : SetState) :
    bytesOf 1 (packed [(1, a.toNat), (1, b.toNat), (3, x.code)]) = one (bits [a, b] + 4 * x.ctorIdx) := by
  have code : bitField 3 x.code = x.ctorIdx := if_pos x.ctorIdx_lt
  have e : packed [(1, a.toNat), (1, b.toNat), (3, x.code)] = bits [a, b] + 4 * x.ctorIdx := by
    simp only [packed_flag, packed_last, bits, code]
    ring
  have hb := bits_lt [a, b]
  have hx := x.ctorIdx_lt
  rw [e, bytesOf_one]
  simp only [List.length_cons, List.length_nil] at hb
  omega

theorem Part.status_eq (p : Part) : p.status = statusData p p.tick := by
  have path : bytesOf 1 p.feed.path.code = one p.feed.path.ctorIdx := bytesOf_one p.feed.path.ctorIdx_lt
  have slots : bytesOf 1 (bitSet (p.intake.slots.toList.map Option.isSome)) = one (bits (p.intake.slots.toList.map Option.isSome)) :=
    bytesOf_bits_one (by simp)
  unfold Part.status statusData Part.activeConditions
  rw [path, bytesOf_flags_class, bytesOf_flags_state, Part.clearanceReport_eq, bytesOf_bits_two (by simp), bytesOf_bits_three (by simp),
    slots, areaBytes_eq, List.countP_eq_length_filter, tickBytes_eq, tickBytes_eq, tickBytes_eq, tickBytes_eq]

theorem statusData_found (p : Part) (t : Tick) (kind : Byte) (body : List Byte) :
    statusData (p.found t kind body) (p.found t kind body).tick = statusData p (laterOf p.tick t) := rfl

theorem Part.answerSheetRead_eq (s : Part) (v : Byte) : s.answerSheetRead [v] =
    if indexTaken v.toNat s.table.sheets.length then ⟨s, .done, s.sheetData v.toNat⟩ else s.refuse .badValue := by
  unfold Part.answerSheetRead
  rw [numAt_singleton]

theorem Part.answerJamRead_eq (s : Part) (v : Byte) : s.answerJamRead [v] =
    if indexTaken v.toNat s.episode.records.length then ⟨s, .done, s.jamData v.toNat⟩ else s.refuse .badValue := by
  unfold Part.answerJamRead
  rw [numAt_singleton]

/-- Settles O16. -/
theorem readsTaken : Obligations.ReadsTaken := by
  intro w p t v hs
  refine ⟨exec_unchanged (c := .statusRead t []) (s := ⟨w, p⟩) rfl hs .done _ ?_, ?_, ?_⟩
  · have asked : answerFrame ⟨0x15, []⟩ (p.found t 0x15 []) = ⟨p.found t 0x15 [], .done, (p.found t 0x15 []).status⟩ := rfl
    rw [asked, Part.status_eq, statusData_found]
  · have asked : answerFrame ⟨0x16, [v]⟩ (p.found t 0x16 [v]) = (p.found t 0x16 [v]).answerSheetRead [v] := rfl
    rw [Part.answerSheetRead_eq] at asked
    split
    · next hv =>
      exact exec_unchanged (c := .sheetRead t [v]) (s := ⟨w, p⟩) rfl hs .done _
        (asked.trans (if_pos ((indexTaken_toNat_iff v p.table.sheets).mpr hv)))
    · next hv =>
      exact exec_unchanged (c := .sheetRead t [v]) (s := ⟨w, p⟩) rfl hs .badValue []
        (asked.trans (if_neg fun k => hv ((indexTaken_toNat_iff v p.table.sheets).mp k)))
  · have asked : answerFrame ⟨0x17, [v]⟩ (p.found t 0x17 [v]) = (p.found t 0x17 [v]).answerJamRead [v] := rfl
    rw [Part.answerJamRead_eq] at asked
    split
    · next hv =>
      exact exec_unchanged (c := .jamRead t [v]) (s := ⟨w, p⟩) rfl hs .done _
        (asked.trans (if_pos ((indexTaken_toNat_iff v p.episode.records).mpr hv)))
    · next hv =>
      exact exec_unchanged (c := .jamRead t [v]) (s := ⟨w, p⟩) rfl hs .badValue []
        (asked.trans (if_neg fun k => hv ((indexTaken_toNat_iff v p.episode.records).mp k)))

/-! ## Supplies (R57, R58, R103) -/

/-- The part with other TRAY EMPTY and BIN FULL conditions. -/
def Part.supplied (s : Part) (trays : Vector Bool 5) (bins : Vector Bool 2) (n : Notices) : Part :=
  { s with feed := { s.feed with trayEmpty := trays, binFull := bins }, notices := n }

theorem Part.judgeTrays_eq (l : List (Fin 5)) (s : Part) : ∃ n, l.foldl Part.judgeTrayEmpty s =
    s.supplied (.ofFn fun k => if k ∈ l then !s.trayAvailable k else s.feed.trayEmpty[k]) s.feed.binFull n := by
  induction l generalizing s with
  | nil =>
    refine ⟨s.notices, ?_⟩
    have e : (.ofFn fun k : Fin 5 => if k ∈ ([] : List (Fin 5)) then !s.trayAvailable k else s.feed.trayEmpty[k]) = s.feed.trayEmpty :=
      Vector.ext fun k hk => by simp
    rw [e]
    rfl
  | cons u l ih =>
    obtain ⟨n, e⟩ := ih (s.judgeTrayEmpty u)
    refine ⟨n, e.trans ?_⟩
    have same : ∀ k, (s.judgeTrayEmpty u).trayAvailable k = s.trayAvailable k := fun _ => rfl
    have empties : (s.judgeTrayEmpty u).feed.trayEmpty = s.feed.trayEmpty.set u (!s.trayAvailable u) := rfl
    have trays : (.ofFn fun k : Fin 5 => if k ∈ l then !(s.judgeTrayEmpty u).trayAvailable k else (s.judgeTrayEmpty u).feed.trayEmpty[k]) =
        (.ofFn fun k : Fin 5 => if k ∈ u :: l then !s.trayAvailable k else s.feed.trayEmpty[k] : Vector Bool 5) :=
      Vector.ext fun k hk => by
        simp only [same, empties, Vector.getElem_ofFn, List.mem_cons, Fin.getElem_fin, Vector.getElem_set]
        by_cases hu : (⟨k, hk⟩ : Fin 5) = u
        · subst hu
          simp
        · have : ¬ u.val = k := fun e => hu (Fin.ext e.symm)
          simp [hu, this]
    rw [trays]
    rfl

theorem Part.judgeBins_eq (l : List (Fin 2)) (s : Part) : ∃ n, l.foldl Part.judgeBinFull s =
    s.supplied s.feed.trayEmpty (.ofFn fun k => if k ∈ l then s.binIsFull k else s.feed.binFull[k]) n := by
  induction l generalizing s with
  | nil =>
    refine ⟨s.notices, ?_⟩
    have e : (.ofFn fun k : Fin 2 => if k ∈ ([] : List (Fin 2)) then s.binIsFull k else s.feed.binFull[k]) = s.feed.binFull :=
      Vector.ext fun k hk => by simp
    rw [e]
    rfl
  | cons u l ih =>
    obtain ⟨n, e⟩ := ih (s.judgeBinFull u)
    refine ⟨n, e.trans ?_⟩
    have same : ∀ k, (s.judgeBinFull u).binIsFull k = s.binIsFull k := fun _ => rfl
    have full : (s.judgeBinFull u).feed.binFull = s.feed.binFull.set u (s.binIsFull u) := rfl
    have bins : (.ofFn fun k : Fin 2 => if k ∈ l then (s.judgeBinFull u).binIsFull k else (s.judgeBinFull u).feed.binFull[k]) =
        (.ofFn fun k : Fin 2 => if k ∈ u :: l then s.binIsFull k else s.feed.binFull[k] : Vector Bool 2) :=
      Vector.ext fun k hk => by
        simp only [same, full, Vector.getElem_ofFn, List.mem_cons, Fin.getElem_fin, Vector.getElem_set]
        by_cases hu : (⟨k, hk⟩ : Fin 2) = u
        · subst hu
          simp
        · have : ¬ u.val = k := fun e => hu (Fin.ext e.symm)
          simp [hu, this]
    rw [bins]
    rfl

/-- The supplies judged: every TRAY EMPTY and BIN FULL says what the unit's lines and dry run say. -/
theorem Part.judgeSupplies_eq (s : Part) : ∃ n, s.judgeSupplies =
    s.supplied (.ofFn fun u => !s.trayAvailable u) (.ofFn fun i => s.binIsFull i) n := by
  obtain ⟨n, e⟩ := s.judgeTrays_eq (List.finRange 5)
  obtain ⟨m, f⟩ := ((List.finRange 5).foldl Part.judgeTrayEmpty s).judgeBins_eq (List.finRange 2)
  refine ⟨m, f.trans ?_⟩
  rw [e]
  simp only [List.mem_finRange, if_true]
  rfl

/-- The supplies and the purge reserve judged in dry run, and out of it. -/
theorem Part.judgeAll_eq (s : Part) : ∃ n, s.judgeSupplies.judgePurgeFull = { s with
    notices := n
    feed := { s.feed with trayEmpty := .ofFn fun u => !s.trayAvailable u, binFull := .ofFn fun i => s.binIsFull i }
    gate := { s.gate with purgeFull := !s.reserveMet } } := by
  obtain ⟨n, e⟩ := s.judgeSupplies_eq
  rw [e]
  exact ⟨_, rfl⟩

/-! ## FAULT PLAN's body (R170) -/

/-- A fault as its eight bytes. -/
def FaultEntry.code (y : FaultEntry) : List Byte :=
  two y.ordinal ++ one y.station ++ one y.kind.ctorIdx ++ four (BitVec.ofInt 32 y.amount).toNat

/-- A fault whose fields are in range, unspent. -/
def FaultEntry.fits (y : FaultEntry) : Prop :=
  (BitVec.ofInt 32 y.amount).toInt = y.amount ∧ inRange 1 65535 y.ordinal ∧ y.station < 256 ∧ (y.kind = .noStaple ∨ y.station ≤ 23) ∧
    (y.kind = .delay → -20000 ≤ y.amount ∧ y.amount ≤ 20000) ∧ (y.kind = .stretch → 1 ≤ y.amount ∧ y.amount ≤ 100000) ∧ y.spent = false

variable {b : List Byte}

theorem faultBody_iff {y : FaultEntry} : FaultBody y b ↔ y.fits ∧ b = y.code := by
  constructor
  · rintro ⟨a, rfl, ha, rest⟩
    have e : BitVec.ofInt 32 y.amount = a := by rw [ha, BitVec.ofInt_toInt]
    exact ⟨⟨by rw [e, ha], rest⟩, by rw [FaultEntry.code, e]⟩
  · rintro ⟨⟨ha, rest⟩, rfl⟩
    exact ⟨BitVec.ofInt 32 y.amount, rfl, ha.symm, rest⟩

theorem planBody_iff {l : List FaultEntry} : PlanBody l b ↔ (∀ y ∈ l, y.fits) ∧ b = l.flatMap FaultEntry.code := by
  induction l generalizing b with
  | nil => simp [PlanBody]
  | cons y l ih =>
    simp only [PlanBody, faultBody_iff, ih, List.forall_mem_cons, List.flatMap_cons]
    constructor
    · rintro ⟨h, r, rfl, ⟨hy, rfl⟩, hl, rfl⟩
      exact ⟨⟨hy, hl⟩, rfl⟩
    · rintro ⟨⟨hy, hl⟩, rfl⟩
      exact ⟨_, _, rfl, ⟨hy, rfl⟩, hl, rfl⟩

theorem FaultKind.ctorIdx_lt (x : FaultKind) : x.ctorIdx < 256 := by cases x <;> decide

/-- The amounts a kind of fault takes (R170). -/
theorem amountFits_iff (kind : FaultKind) (v : Int) : (match kind with
    | .delay => decide (-20000 ≤ v ∧ v ≤ 20000)
    | .stretch => decide (1 ≤ v ∧ v ≤ 100000)
    | _ => true) = true ↔ (kind = .delay → -20000 ≤ v ∧ v ≤ 20000) ∧ (kind = .stretch → 1 ≤ v ∧ v ≤ 100000) := by
  cases kind <;> simp

theorem readFault_iff {i : Nat} {y : FaultEntry} (h : 0 + 8 * (i + 1) ≤ b.length) : readFault b i = some y ↔
    y.fits ∧ b.drop (0 + 8 * i) = y.code ++ b.drop (0 + 8 * (i + 1)) := by
  have e : b.drop (0 + 8 * i) = two (numAt b (8 * i) 2) ++ (one (numAt b (8 * i + 2) 1) ++ (one (numAt b (8 * i + 3) 1) ++
      (four (numAt b (8 * i + 4) 4) ++ b.drop (0 + 8 * (i + 1))))) := by
    rw [Nat.zero_add, drop_eq_two (j := 8 * i + 2) (by omega) rfl, drop_eq_one (j := 8 * i + 3) (by omega) rfl,
      drop_eq_one (j := 8 * i + 4) (by omega) rfl, drop_eq_four (j := 0 + 8 * (i + 1)) (by omega) (by omega)]
  have h1 : numAt b (8 * i + 2) 1 < 256 := numAt_lt b _ 1
  have h4 : numAt b (8 * i + 4) 4 < 4294967296 := numAt_lt b _ 4
  simp only [readFault, ↓bind_iff, within_iff, faultAt_iff, onlyIf_iff, Option.some.injEq, Bool.or_eq_true, beq_iff_eq,
    decide_eq_true_eq]
  constructor
  · rintro ⟨ordinal, ⟨e0, k0⟩, kind, e3, _, ⟨hs, -⟩, _, ⟨fits, -⟩, rfl⟩
    obtain ⟨hd, ht⟩ := (amountFits_iff kind _).mp fits
    have amount : (BitVec.ofInt 32 (intAt b (8 * i + 4))) = BitVec.ofNat 32 (numAt b (8 * i + 4) 4) := BitVec.ofInt_toInt
    refine ⟨⟨by rw [amount]; rfl, k0, h1, hs, hd, ht, rfl⟩, ?_⟩
    rw [e, FaultEntry.code]
    dsimp only
    rw [amount, BitVec.toNat_ofNat, Nat.mod_eq_of_lt h4, ← e0, ← e3]
    simp only [List.append_assoc]
  · rintro ⟨⟨ha, ho, hs, hk, hd, ht, hn⟩, e'⟩
    have hc := y.kind.ctorIdx_lt
    have hm := (BitVec.ofInt 32 y.amount).isLt
    have e0 := congrArg (numAt · 0 2) e'
    have e2 := congrArg (numAt · 2 1) e'
    have e3 := congrArg (numAt · 3 1) e'
    have e4 := congrArg (numAt · 4 4) e'
    simp (disch := omega) only [FaultEntry.code, numAt_drop, List.append_assoc, numAt_one_append, numAt_one_add, numAt_two_append, numAt_two_add,
      numAt_four_append, Nat.add_zero, Nat.zero_add] at e0 e2 e3 e4
    have amount : intAt b (8 * i + 4) = y.amount := by rw [intAt, e4, BitVec.ofNat_toNat, BitVec.setWidth_eq, ha]
    refine ⟨y.ordinal, ⟨e0, ho⟩, y.kind, e3, (), ⟨e2 ▸ hk, trivial⟩, (), ⟨(amountFits_iff y.kind _).mpr (amount.symm ▸ ⟨hd, ht⟩), trivial⟩, ?_⟩
    rw [e2, amount, ← hn]

theorem readFaultPlan_iff (h : catalogueLength 0x1B b.length) {l : List FaultEntry} : readFaultPlan b = some l ↔ PlanBody l b := by
  obtain ⟨k, hk, hb⟩ := h
  have count : b.length / 8 = k := by omega
  have size : ∀ y : FaultEntry, y.code.length = 8 := fun _ => rfl
  rw [readFaultPlan, count, planBody_iff, entries_iff (b := b) (base := 0) (size := 8) (code := FaultEntry.code) (good := FaultEntry.fits)
    size (fun _ _ => readFault_iff) k (by omega) l, List.drop_zero, List.drop_of_length_le (by omega), List.append_nil]
  refine and_iff_right_of_imp fun ⟨_, e⟩ => ?_
  have := congrArg List.length e
  rw [flatMap_length size] at this
  omega

/-! ## DRY RUN and FAULT PLAN (R166, R170) -/

theorem Part.answerDryRun_eq (s : Part) (v : Byte) (hp : s.feed.path = .idle) (hf : s.finisher.state = .empty) : s.answerDryRun [v] =
    match onOffOf v.toNat with
    | some true => s.dryRunOn.done
    | some false => s.dryRunOff.done
    | none => s.refuse .badValue := by
  unfold Part.answerDryRun
  rw [if_pos ⟨hp, hf⟩, numAt_singleton] <;> rfl

theorem ofFn_const {α : Type} (n : Nat) (a : α) : (Vector.ofFn fun _ : Fin n => a) = .replicate n a := Vector.ext fun i hi => by simp

/-- DRY RUN's answer in IDLE with an EMPTY Compile Set. -/
theorem dryRun_asked (p : Part) (t : Tick) (v : Byte) (hp : p.feed.path = .idle) (hf : p.finisher.state = .empty) :
    answerFrame ⟨0x1A, [v]⟩ (p.found t 0x1A [v]) = match onOffOf v.toNat with
      | some true => (p.found t 0x1A [v]).dryRunOn.done
      | some false => (p.found t 0x1A [v]).dryRunOff.done
      | none => (p.found t 0x1A [v]).refuse .badValue := Part.answerDryRun_eq _ v hp hf

theorem dryRunOn_taken (w : List Instr) (p : Part) (t : Tick) (hs : p.canAccept) (hp : p.feed.path = .idle) (hf : p.finisher.state = .empty) :
    Completes (.dryRun t [0x00]) ⟨w, p⟩ fun q => p.repliedTo t 0x1A [0x00] [0x00] q ∧ q = { p with
      tick := q.tick, link := q.link, notices := q.notices, dry := { p.dry with on := true, firstSheet := p.feed.nextSheet }
      feed := { p.feed with trayEmpty := .replicate 5 false, binFull := .replicate 2 false }
      gate := { p.gate with purgeFull := false } } := by
  obtain ⟨n, e⟩ := ((p.found t 0x1A [0x00]).modDry fun d => { d with on := true, firstSheet := p.feed.nextSheet }).judgeAll_eq
  have ha : answerFrame ⟨0x1A, [0x00]⟩ (p.found t 0x1A [0x00]) = ⟨_, .done, []⟩ := (dryRun_asked p t 0x00 hp hf).trans (congrArg Part.done e)
  refine completes_of (c := .dryRun t [0x00]) (s := ⟨w, p⟩) rfl hs ha rfl ⟨⟨rfl, rfl, rfl, rfl, rfl, rfl⟩, ?_⟩
  have trays : (Vector.ofFn fun u => !((p.found t 0x1A [0x00]).modDry fun d => { d with on := true, firstSheet := p.feed.nextSheet }).trayAvailable u)
      = .replicate 5 false := ofFn_const 5 false
  have bins : (Vector.ofFn fun i => ((p.found t 0x1A [0x00]).modDry fun d => { d with on := true, firstSheet := p.feed.nextSheet }).binIsFull i)
      = .replicate 2 false := ofFn_const 2 false
  rw [trays, bins]
  rfl

theorem dryRunOff_taken (w : List Instr) (p : Part) (t : Tick) (hs : p.canAccept) (hp : p.feed.path = .idle) (hf : p.finisher.state = .empty)
    (hd : p.dry.on = true) :
    Completes (.dryRun t [0x01]) ⟨w, p⟩ fun q => p.repliedTo t 0x1A [0x01] [0x00] q ∧ q = { p with
      tick := q.tick, link := q.link, notices := q.notices, dry := { p.dry with on := false }
      feed := { p.feed with
        trayEmpty := .ofFn fun u : Fin 5 => !(p.levelOf (.present u) && !p.levelOf (.paperOut u))
        binFull := .ofFn fun i : Fin 2 => p.levelOf (.binFull i) }
      gate := { p.gate with
        purgeFull := !decide (p.gate.purgeCount + 24 < (p.force.purge.map PurgeSet.capacity).getD 0) } } := by
  obtain ⟨n, e⟩ := ((p.found t 0x1A [0x01]).modDry fun d => { d with on := false }).judgeAll_eq
  have off : (p.found t 0x1A [0x01]).dryRunOff = _ := (if_pos hd).trans e
  have ha : answerFrame ⟨0x1A, [0x01]⟩ (p.found t 0x1A [0x01]) = ⟨_, .done, []⟩ :=
    (dryRun_asked p t 0x01 hp hf).trans (congrArg Part.done off)
  exact completes_of (c := .dryRun t [0x01]) (s := ⟨w, p⟩) rfl hs ha rfl ⟨⟨rfl, rfl, rfl, rfl, rfl, rfl⟩, rfl⟩

/-- Settles O18. -/
theorem dryRunAndFaultPlan : Obligations.DryRunAndFaultPlan := by
  refine ⟨fun w p t hs hp => ⟨fun hf => ⟨dryRunOn_taken w p t hs hp hf, fun hd => dryRunOff_taken w p t hs hp hf hd, fun hd => ?_⟩,
    fun hf v => ?_⟩, fun w p t b hs hp hl => ?_⟩
  · have off : (p.found t 0x1A [0x01]).dryRunOff = p.found t 0x1A [0x01] := if_neg (Bool.eq_false_iff.mp hd)
    exact exec_unchanged (c := .dryRun t [0x01]) (s := ⟨w, p⟩) rfl hs .done []
      ((dryRun_asked p t 0x01 hp hf).trans (congrArg Part.done off))
  · have asked : answerFrame ⟨0x1A, [v]⟩ (p.found t 0x1A [v]) = (p.found t 0x1A [v]).answerDryRun [v] := rfl
    exact exec_unchanged (c := .dryRun t [v]) (s := ⟨w, p⟩) rfl hs .wrongState [] (asked.trans (if_neg fun k => hf k.2))
  · have asked : answerFrame ⟨0x1B, b⟩ (p.found t 0x1B b) = (p.found t 0x1B b).answerFaultPlan b := if_pos (planLengthOk_iff.mpr hl)
    have idle : (p.found t 0x1B b).answerFaultPlan b = match readFaultPlan b with
      | some l => ((p.found t 0x1B b).modDry fun d => { d with plan := l }).done
      | none => (p.found t 0x1B b).refuse .badValue := if_pos hp
    constructor
    · intro l h
      rw [(readFaultPlan_iff hl).mpr h] at idle
      exact exec_taken (c := .faultPlan t b) (s := ⟨w, p⟩) rfl hs (asked.trans idle) rfl
    · intro h
      rw [read_none (readFaultPlan_iff hl) h] at idle
      exact exec_unchanged (c := .faultPlan t b) (s := ⟨w, p⟩) rfl hs .badValue [] (asked.trans idle)

end Sys2Proof.Machine
end

