-- ==== Sys2Proof/Proofs/LineHeard.lean ====
section
/-! PROOF. The serial line: the reset values (O24), frames heard (O20), bytes in turn (O21). -/

namespace Sys2Proof.Machine

/-! ## Reset (R182) -/

theorem Part.reset_outputLevel (i : Fin 24) : State.reset.part.outputLevel i = false := by
  revert i
  decide

theorem Stats.reset_zero (g : Group) : ∀ r ∈ State.reset.part.stats.records g, ∀ c ∈ r, c = 0 := by
  cases g <;> simp [Stats.records, State.reset, Part.reset, Stats.reset]

/-- Settles O24. -/
theorem hardwareReset : Obligations.HardwareReset := by
  refine ⟨fun w p a b => ⟨_, rfl, rfl, ?_, rfl, rfl⟩, ?_⟩
  · cases a <;> cases b <;> rfl
  · intro p
    have stations : ∀ st : Fin 24, p.stations[st] = ⟨0, [], false, false, none⟩ := by decide
    have legs : ∀ l : LegName, p.force.legs[l.pos] = none := fun l => by cases l <;> rfl
    have inputs : ∀ i : Fin 32, p.force.inputs[i] = ⟨true, 3⟩ := by decide
    have sets : ∀ g, p.stats.groupSet g = ⟨.narrow, 0, false⟩ := fun g => by cases g <;> rfl
    refine ⟨rfl, rfl, rfl, by decide, legs, rfl, by decide, by decide, rfl, by decide, rfl, rfl, rfl, inputs, by decide,
      Part.reset_outputLevel, rfl, rfl, rfl, rfl, rfl, rfl, rfl, rfl, rfl, rfl, rfl, rfl, rfl, rfl, rfl, rfl, ⟨rfl, rfl, rfl⟩,
      by decide, rfl, rfl, rfl, rfl, rfl, rfl, ⟨rfl, rfl, rfl, rfl⟩, rfl, rfl, rfl, rfl, rfl, rfl, rfl, stations, rfl, rfl, rfl, rfl,
      rfl, rfl, rfl, rfl, rfl, rfl, rfl, rfl, rfl, rfl, Stats.reset_zero, sets, rfl, rfl, rfl⟩


/-! ## Frames heard (R173, R174) -/

theorem bytesOf_length (n v : Nat) : (bytesOf n v).length = n := by simp [bytesOf]

theorem Frame.covered_length (f : Frame) : f.covered.length = f.body.length + 2 := rfl

/-- A frame's LEN, which the first byte covered carries (R173). -/
theorem Frame.covered_head {f : Frame} (h : f.body.length ≤ 64) (l : List Byte) : ((f.covered ++ l).headD 0).toNat = f.body.length + 1 := by
  show (BitVec.ofNat 8 (f.body.length + 1)).toNat = _
  rw [BitVec.toNat_ofNat]
  omega

theorem headD_append_cons (l : List Byte) (b : Byte) (m : List Byte) : (l ++ b :: m).headD 0 = (l ++ [b]).headD 0 := by
  cases l <;> rfl

theorem examine_moves {l : List Byte} {t : Tick} (hr : inRange 1 65 (l.headD 0).toNat) (hl : l.length < (l.headD 0).toNat + 3) :
    examine l t = .moves (.inFrame l t) := by
  rcases examine_cases l t with ⟨h, -⟩ | ⟨-, -, h⟩ | ⟨-, h, -⟩
  · have := hr.1
    have := hr.2
    omega
  · exact h
  · omega

/-- The bytes of a frame but the last are kept (R174). -/
theorem hear_within (l m : List Byte) (t : Tick) (hm : m ≠ [] → inRange 1 65 ((l ++ m).headD 0).toNat ∧
    (l ++ m).length < ((l ++ m).headD 0).toNat + 3) : (Receiver.inFrame l t).hear t m = .moves (.inFrame (l ++ m) t) := by
  induction m generalizing l with
  | nil => rw [List.append_nil]; rfl
  | cons b m ih =>
    obtain ⟨range, short⟩ := hm (by simp)
    rw [headD_append_cons] at range short
    have one : receive (.inFrame l t) t ⟨0, b, true⟩ = .moves (.inFrame (l ++ [b]) t) :=
      examine_moves range (by simp only [List.length_append, List.length_cons, List.length_nil] at short ⊢; omega)
    have e : l ++ b :: m = l ++ [b] ++ m := by simp
    rw [Receiver.hear, one, e]
    refine ih _ fun _ => ?_
    rw [← e, headD_append_cons]
    exact ⟨range, short⟩

/-- What is heard after bytes that only moved the receiver. -/
theorem Receiver.hear_append {r r' : Receiver} {t : Tick} {l : List Byte} (h : r.hear t l = .moves r') (m : List Byte) :
    r.hear t (l ++ m) = r'.hear t m := by
  induction l generalizing r with
  | nil => cases h; rfl
  | cons b l ih =>
    rw [Receiver.hear] at h
    cases e : receive r t ⟨0, b, true⟩ with
    | moves q =>
      rw [List.cons_append, Receiver.hear, e]
      rw [e] at h
      exact ih h
    | discards => rw [e] at h; revert h; dsimp only; split <;> exact nofun
    | accepts f => rw [e] at h; revert h; dsimp only; split <;> exact nofun

theorem hear_start (t : Tick) (l : List Byte) : Receiver.hunting.hear t (0xD5 :: l) = (Receiver.inFrame [] t).hear t l := rfl

/-- The last byte of what is laid out as a frame. -/
theorem examine_whole {f : Frame} (h : f.body.length ≤ 64) (t : Tick) (c d : Byte) : examine (f.covered ++ [c, d]) t =
    if bytesOf 2 (crc f.covered).toNat = [c, d] then .accepts f else .discards := by
  have len := f.covered_head h [c, d]
  have size : (f.covered ++ [c, d]).length = f.body.length + 4 := by simp [f.covered_length]
  have take : (f.covered ++ [c, d]).take (f.body.length + 1 + 1) = f.covered := List.take_left' rfl
  have drop : (f.covered ++ [c, d]).drop (f.body.length + 1 + 1) = [c, d] := List.drop_left' rfl
  have kind : ((f.covered ++ [c, d]).drop 1).headD 0 = f.kind := rfl
  have body : f.covered.drop 2 = f.body := rfl
  rcases examine_cases (f.covered ++ [c, d]) t with ⟨hl, -⟩ | ⟨-, hl, -⟩ | ⟨-, -, hw⟩
  · rw [len] at hl; omega
  · rw [len, size] at hl; omega
  · rw [len, take, drop, kind, body] at hw
    split at hw
    · next e => rw [hw, if_pos e]
    · next e => rw [hw, if_neg e]

/-- A frame's bytes up to its last leave the receiver inside it. -/
theorem hear_all_but_last {f : Frame} (h : f.body.length ≤ 64) (t : Tick) (c : Byte) :
    Receiver.hunting.hear t (0xD5 :: (f.covered ++ [c])) = .moves (.inFrame (f.covered ++ [c]) t) := by
  rw [hear_start, hear_within [] (f.covered ++ [c]) t fun _ => ?_]
  · rfl
  · rw [List.nil_append, f.covered_head h]
    exact ⟨⟨by omega, by omega⟩, by simp [f.covered_length]⟩

theorem hear_whole {f : Frame} (h : f.body.length ≤ 64) (t : Tick) (c d : Byte) : Receiver.hunting.hear t (0xD5 :: f.covered ++ [c, d]) =
    if bytesOf 2 (crc f.covered).toNat = [c, d] then .accepts f else .discards := by
  have e : (0xD5 : Byte) :: f.covered ++ [c, d] = 0xD5 :: (f.covered ++ [c]) ++ [d] := by simp
  have last : receive (.inFrame (f.covered ++ [c]) t) t ⟨0, d, true⟩ = examine (f.covered ++ [c, d]) t :=
    congrArg (examine · t) (List.append_assoc ..)
  rw [e, Receiver.hear_append (hear_all_but_last h t c), Receiver.hear, last, examine_whole h]
  by_cases hc : bytesOf 2 (crc f.covered).toNat = [c, d]
  · simp only [if_pos hc]
    rfl
  · simp only [if_neg hc]
    rfl

/-- The CRC of a frame is two bytes (R173). -/
theorem Frame.bytes_eq (f : Frame) : ∃ c d, [c, d] = bytesOf 2 (crc f.covered).toNat ∧ f.bytes = 0xD5 :: f.covered ++ [c, d] :=
  ⟨_, _, rfl, rfl⟩

/-- Settles O20. -/
theorem framesHeard : Obligations.FramesHeard := by
  intro f t h
  obtain ⟨a, b, crc, bytes⟩ := f.bytes_eq
  rw [bytes, hear_whole h]
  refine ⟨if_pos crc.symm, fun c d hc => ?_⟩
  rw [hear_whole h]
  exact if_neg fun e => hc e.symm

/-! ## Bytes in turn (R174) -/

theorem Part.gapDiscard_inFrame {p : Part} {l : List Byte} {last : Tick} (h : p.link.receiver = .inFrame l last) :
    p.gapDiscard = p.event (plusTicks last 41) Part.discardFrame := by
  unfold Part.gapDiscard
  rw [h]
  rfl

theorem Part.gapBefore_hunting {p : Part} (h : p.link.receiver = .hunting) (t : Tick) : p.gapBefore t = p := by
  unfold Part.gapBefore
  rw [h]

theorem Part.gapBefore_inFrame {p : Part} {l : List Byte} {last : Tick} (h : p.link.receiver = .inFrame l last) (t : Tick) :
    p.gapBefore t = if (41 : Int) ≤ since last t then p.gapDiscard else p := by
  unfold Part.gapBefore
  rw [h]
  rfl

/-- The transmitter's turn leaves what is received. -/
theorem Part.conclude_received (s : Part) : s.conclude.link.receiver = s.link.receiver ∧ s.conclude.link.rxQueue = s.link.rxQueue ∧
    s.conclude.link.fault = s.link.fault ∧ s.conclude.link.faultTimer = s.link.faultTimer := by
  rcases s.conclude_link with e | ⟨-, f, rest, -, e⟩ | ⟨-, -, f, e⟩ <;> rw [e] <;> exact ⟨rfl, rfl, rfl, rfl⟩

theorem Part.discardFrame_link (s : Part) : s.discardFrame.link =
    { s.link with receiver := .hunting, fault := true, faultTimer := some (plusTicks s.tick 20000) } := by
  rw [Part.discardFrame_eq, (Part.countPath_via ..).link_eq rfl]
  rfl

theorem Part.event_discardFrame_receiver (p : Part) (t : Tick) : (p.event t Part.discardFrame).link.receiver = .hunting := by
  unfold Part.event
  rw [(Part.conclude_received _).1, Part.discardFrame_link]

theorem Part.gapDiscard_receiver (p : Part) : p.gapDiscard.link.receiver = .hunting := by
  unfold Part.gapDiscard
  split
  · assumption
  · exact p.event_discardFrame_receiver _

/-- A byte that finds no gap passed only moves the receiver. -/
theorem Part.takeByte_receives {p : Part} {t : Tick} {x : RxByte} {r : Receiver} (hg : p.gapBefore t = p)
    (h : receive p.link.receiver t x = .moves r) : p.takeByte t x = { p with link := { p.link with receiver := r } } := by
  unfold Part.takeByte
  dsimp only
  rw [hg, h]
  rfl

theorem Part.takeByte_discarding {p : Part} {t : Tick} {x : RxByte} (hg : p.gapBefore t = p)
    (h : receive p.link.receiver t x = .discards) : p.takeByte t x = p.event t Part.discardFrame := by
  unfold Part.takeByte
  dsimp only
  rw [hg, h]

theorem Part.takeByte_accepting {p : Part} {t : Tick} {x : RxByte} {f : Frame} (hg : p.gapBefore t = p)
    (h : receive p.link.receiver t x = .accepts f) :
    p.takeByte t x = p.event t fun s => s.acceptFrame f.kind f.body (answerFrame f) := by
  unfold Part.takeByte
  dsimp only
  rw [hg, h]

theorem isRequestKind_iff (k : Byte) : isRequestKind k = true ↔ inRange 1 28 k.toNat := by
  simp [isRequestKind]

theorem answerFrame_unknown {f : Frame} (h : ¬ inRange 1 28 f.kind.toNat) : answerFrame f = fun p => p.refuse .unknownKind := by
  unfold answerFrame
  split
  case h_29 => rfl
  all_goals exact absurd (by simp [inRange, *]) h

/-- The command of a good frame takes it at its owner. -/
theorem exec_heard {f : Frame} {t : Tick} {c : Instr} (h : heardAs f t c) (s : State) :
    exec c s = s.takes fun p => p.takeRequest t f.kind f.body (answerFrame f) := by
  rcases h with h | ⟨rfl, hk⟩
  · exact exec_request c s h
  · have off : isRequestKind f.kind = false := Bool.eq_false_iff.mpr (mt (isRequestKind_iff _).mp hk)
    rw [answerFrame_unknown hk]
    show execUnknownKind t f.kind f.body s = _
    unfold execUnknownKind
    simp only [off, Bool.false_eq_true, if_false]

/-- A frame accepted leaves the receiver hunting whatever it was in. -/
theorem Part.acceptFrame_receiver (p : Part) (t : Tick) (r : Receiver) (kind : Byte) (body : List Byte) (owner : Part → Answer) :
    ({ p with link := { p.link with receiver := r } } : Part).event t (fun s => s.acceptFrame kind body owner) =
      p.event t fun s => s.acceptFrame kind body owner := rfl


/-- Settles O21. -/
theorem bytesInTurn : Obligations.BytesInTurn := by
  intro w p t x now heard
  have one : exec (.frameDiscard t [x]) ⟨w, p⟩ = .next ⟨w, p.takeByte now x⟩ := rfl
  refine ⟨⟨_, one, rfl, fun rest => ⟨rfl, rfl⟩⟩, fun h => ?_, fun l last h => ⟨⟨⟨w, p.gapDiscard⟩, rfl, rfl, fun late => ?_, fun c u f hc => ?_⟩,
    fun inTime good => ⟨fun range short => ?_, fun f c hf whole hc => ?_⟩⟩⟩
  · have e : receive p.link.receiver now x = .moves (if x.stopOk && x.byte == 0xD5#8 then .inFrame [] now else .hunting) := by
      rw [h]; rfl
    rw [one, Part.takeByte_receives (Part.gapBefore_hunting h now) e]
    simp only [Bool.and_eq_true, beq_iff_eq]
    rfl
  · have gap : p.gapBefore now = p.gapDiscard.gapBefore now := by
      rw [Part.gapBefore_inFrame h, if_pos late, Part.gapBefore_hunting p.gapDiscard_receiver]
    show Host.Outcome.next (⟨w, p.takeByte now x⟩ : State) = .next ⟨w, p.gapDiscard.takeByte now x⟩
    unfold Part.takeByte
    rw [gap]
  · rw [exec_heard hc, exec_heard hc]
    unfold State.takes
    simp only [Part.takeRequest, Part.gapDiscard_hunting _ p.gapDiscard_receiver]
  · have still : p.gapBefore now = p := by rw [Part.gapBefore_inFrame h, if_neg (Int.not_le.mpr inTime)]
    have e : receive p.link.receiver now x = .moves (.inFrame (l ++ [x.byte]) now) := by
      rw [h]
      exact (if_pos good).trans (examine_moves range (by rw [List.length_append, List.length_singleton]; omega))
    rw [one, Part.takeByte_receives still e]
  · have still : p.gapBefore now = p := by rw [Part.gapBefore_inFrame h, if_neg (Int.not_le.mpr inTime)]
    obtain ⟨a, b, crc, bytes⟩ := f.bytes_eq
    have all : l ++ [x.byte] = f.covered ++ [a, b] := List.tail_eq_of_cons_eq (whole.trans bytes)
    have e : receive p.link.receiver now x = .accepts f := by
      rw [h]
      exact (if_pos good).trans (by rw [all, examine_whole hf, if_pos crc.symm])
    rw [one, Part.takeByte_accepting still e, exec_heard hc]
    rfl

end Sys2Proof.Machine
end

