-- ==== Sys2Proof/Proofs/FramesDiscarded.lean ====
section
/-! PROOF. Frames discarded (O22): a discard is one event, counted once, whatever the transmitter does at its end. -/

namespace Sys2Proof.Machine

variable {q : Mode} {A : List Block} {a b : Phase} {s t : Part}

/-! ## Frames discarded are counted by the Link Unit alone (R174) -/

/-- The count of frames discarded, and the width it is kept at. -/
def Stats.discards (x : Stats) : Nat × Width := (x.path[9], x.pathSet.width)

theorem Stats.judged_discards (x : Stats) (g : Group) : (x.judged g).discards = x.discards := by
  cases g <;> rfl

theorem Part.judgeWatermark_discards (s : Part) (g : Group) (r c : Nat) : (s.judgeWatermark g r c).stats.discards = s.stats.discards := by
  rw [Part.judgeWatermark_stats, Stats.judged_discards]

theorem Part.countStation_discards (s : Part) (st : Fin 24) (c : Fin 3) : (s.countStation st c).stats.discards = s.stats.discards :=
  Part.judgeWatermark_discards ..

theorem Part.countTray_discards (s : Part) (u : Fin 5) (c : Fin 3) : (s.countTray u c).stats.discards = s.stats.discards :=
  Part.judgeWatermark_discards ..

theorem Part.countPath_discards (s : Part) {c : Fin 10} (h : c ≠ 9) : (s.countPath c).stats.discards = s.stats.discards := by
  have ne : c.val ≠ 9 := fun e => h (Fin.ext e)
  refine (Part.judgeWatermark_discards ..).trans ?_
  simp [Stats.discards, ne]

theorem Via.discards (v : Via A s t) (hA : hasBlock A .stats = false) : t.stats.discards = s.stats.discards :=
  congrArg Stats.discards (v.stats_eq hA)

theorem Part.deliverTo_discards (s : Part) (x : Sheet) (r : Option Role) : (s.deliverTo x r).stats.discards = s.stats.discards := by
  unfold Part.deliverTo
  split
  · exact (Part.countPath_discards _ (by decide)).trans ((Part.deliverPages_via ..).discards rfl)
  · exact (Part.countPath_discards _ (by decide)).trans ((Part.deliverPages_via ..).discards rfl)
  · exact (Part.handOver_via ..).discards rfl
  · refine (Part.countPath_discards _ (by decide)).trans ?_
    split
    · rfl
    · exact ((Via.gate (.refl s) _ rfl).andThen (Part.judgePurgeFull_via _) rfl : Via [.notices, .gate] s _).discards rfl
  · rfl

theorem Part.completeEject_discards (s : Part) : s.completeEject.stats.discards = s.stats.discards := by
  have pages := ((((Via.out (.refl s) (fun o => { o with ejector := false }) rfl).finisher
    (fun f => { f with ejectLimit := none }) rfl).dry (fun d => { d with home := none }) rfl).andThen
    (Part.deliverPages_via _ (s.finisher.ident.getD (0, 0)).1 (s.finisher.sheets.flatMap Held.pages)) rfl :
    Via [.notices, .intake, .out, .finisher, .dry] s _).discards rfl
  have final : ∀ p : Part, p.endFinal.stats.discards = p.stats.discards := fun p => by
    unfold Part.endFinal
    dsimp only
    rw [Part.modFinisher_stats, apply_ite Part.stats, Part.modNotices_stats, ite_self]
    split
    · rfl
    · exact p.countPath_discards (by decide)
  unfold Part.completeEject
  dsimp only
  split
  · exact pages
  · exact (final _).trans pages

/-- Without leave to move the Link Unit or to clear, no frame discarded is counted. -/
theorem Move.discards (m : Move q A a s b t) (hl : q.link = false) (hq : q.clear = false) : t.stats.discards = s.stats.discards := by
  cases hA : hasBlock A .stats with
  | false => exact m.via.discards hA
  | true =>
    cases m with
    | countStation st c => exact s.countStation_discards st c
    | countTray u c => exact s.countTray_discards u c
    | countPath c hc => exact s.countPath_discards (hc.resolve_left (by simp [hl]))
    | clearCounters _ _ _ h => simp [hq] at h
    | setWidth _ _ _ h => simp [hq] at h
    | startJammed st =>
      exact ((Part.openCore_via ..).discards rfl).trans ((Part.countStation_discards _ st 2).trans (s.enterPath_via.discards rfl))
    | deliver => exact ((Part.removeSheet_via ..).discards rfl).trans (s.deliverTo_discards _ _)
    | stapled =>
      exact ((Part.eject_via ..).discards rfl).trans (Part.countPath_discards (((s.modOut fun o => { o with stapler := false }).modFinisher
        fun f => { f with stapleLimit := none, stapled := true }).modDry fun d => { d with home := none }) (c := 7) (by decide))
    | ejected => exact s.completeEject_discards
    | _ => cases hA

/-- The leave of the transmitter's choice, the Link Unit apart. -/
def Mode.choice : Mode := { Mode.turn with link := false }

/-- The transmitter's choice is a string of moves, and the Link Unit is started on it. -/
theorem Part.conclude_choice (s : Part) : ∃ c g, Moves .choice .settled s .settled c ∧ s.conclude = c.modLink g := by
  unfold Part.conclude
  cases hs : s.link.sending with
  | some x => exact ⟨s, id, .refl _ _, rfl⟩
  | none =>
    rw [if_neg (by simp)]
    cases hc : s.select with
    | none => exact ⟨s, id, .refl _ _, rfl⟩
    | some c =>
      rcases s.select_cases hc with ⟨f, rest, -, rfl⟩ | ⟨-, f, hf, hc⟩
      · exact ⟨s, fun l => { l with replies := rest, sending := some ⟨f, true⟩ }, .refl _ _, rfl⟩
      · exact ⟨c.part, _, (s.selectors_tell rfl hs hf hc).1, rfl⟩

theorem Part.conclude_discards (s : Part) : s.conclude.stats.discards = s.stats.discards := by
  obtain ⟨c, g, m, e⟩ := s.conclude_choice
  rw [e, Part.modLink_stats]
  exact m.eq_of (fun p : Part => p.stats.discards) fun m => m.discards rfl rfl

/-! ## A discard as an event (R174, R175) -/

theorem Via.sameButReports (v : Via [.tick, .link, .notices, .stats] s t) : s.sameButReports t := by
  unfold Part.sameButReports
  rw [v.lines_eq rfl, v.stored_eq rfl, v.force_eq rfl, v.mask_eq rfl, v.calls_eq rfl, v.intake_eq rfl, v.feed_eq rfl, v.out_eq rfl,
    v.table_eq rfl, v.stations_eq rfl, v.gate_eq rfl, v.episode_eq rfl, v.planner_eq rfl, v.finisher_eq rfl, v.dry_eq rfl]

theorem Part.discardFrame_discards (s : Part) : s.discardFrame.stats.discards = (raised s.stats.pathSet.width (s.stats.path[9]), s.stats.pathSet.width) := by
  refine (Part.judgeWatermark_discards ..).trans ?_
  simp [Stats.discards]

/-- A discard, taken as the event of its tick. -/
theorem Part.event_discarded (p : Part) (t : Tick) : p.discarded (laterOf p.tick t) (p.event t Part.discardFrame) := by
  obtain ⟨receiver, queue, fault, timer⟩ := (p.advance t).discardFrame.conclude_received
  rw [Part.discardFrame_link] at receiver queue fault timer
  have tick : (p.advance t).discardFrame.tick = laterOf p.tick t := (Part.discardFrame_via _).tick_eq rfl
  have count := ((p.advance t).discardFrame.conclude_discards).trans (Part.discardFrame_discards _)
  refine ⟨(Part.conclude_same _).1.trans tick, receiver, queue, fault, timer, congrArg Prod.fst count, fun hs => ?_⟩
  have e : p.event t Part.discardFrame = (p.advance t).discardFrame := Part.conclude_sending _ (by rw [Part.discardFrame_link]; exact hs)
  rw [e]
  refine ⟨Via.sameButReports ?_, ?_, ?_⟩
  · exact ((p.advance_via t).mono rfl).andThen (Part.discardFrame_via _) rfl
  · rw [Part.discardFrame_link]; rfl
  · rw [Part.discardFrame_link]; rfl

/-- What the receiver was in makes no difference to a discard. -/
theorem Part.event_discardFrame_received (p : Part) (t : Tick) (r : Receiver) :
    ({ p with link := { p.link with receiver := r } } : Part).event t Part.discardFrame = p.event t Part.discardFrame := rfl

/-! ## Bytes received at one tick -/

theorem plusTicks_zero (t : Tick) : plusTicks t 0 = t := BitVec.add_zero t

theorem Part.gapBefore_same {p : Part} {t : Tick} (h : p.link.receiver = .hunting ∨ ∃ l, p.link.receiver = .inFrame l t) :
    p.gapBefore t = p := by
  rcases h with h | ⟨l, h⟩
  · exact Part.gapBefore_hunting h t
  · rw [Part.gapBefore_inFrame h, if_neg (by simp [since])]

theorem receive_moves {r r' : Receiver} {t : Tick} {x : RxByte} (h : receive r t x = .moves r') :
    r' = .hunting ∨ ∃ l, r' = .inFrame l t := by
  cases r with
  | hunting =>
    obtain rfl := Received.moves.inj h
    split
    · exact .inr ⟨_, rfl⟩
    · exact .inl rfl
  | inFrame l last =>
    rw [receive] at h
    split at h
    · rcases examine_cases (l ++ [x.byte]) t with ⟨-, e⟩ | ⟨-, -, e⟩ | ⟨-, -, e⟩
      · rw [e] at h; cases h
      · rw [e] at h; cases h; exact .inr ⟨_, rfl⟩
      · split at e <;> rw [e] at h <;> cases h
    · cases h

/-- Bytes with good stop bits that move the receiver alone. -/
theorem Part.takeBytes_hears {p : Part} {t : Tick} (h : p.link.receiver = .hunting ∨ ∃ l, p.link.receiver = .inFrame l t) {l : List Byte}
    {r : Receiver} (hl : p.link.receiver.hear t l = .moves r) (rest : List RxByte) : p.takeBytes t (clean l ++ rest) =
      ({ p with link := { p.link with receiver := r } } : Part).takeBytes t rest := by
  induction l generalizing p with
  | nil => cases hl; rfl
  | cons b l ih =>
    rw [Receiver.hear] at hl
    cases e : receive p.link.receiver t ⟨0, b, true⟩ with
    | moves q =>
      rw [e] at hl
      show (p.takeByte (plusTicks t 0) ⟨0, b, true⟩).takeBytes (plusTicks t 0) (clean l ++ rest) = _
      rw [plusTicks_zero, Part.takeByte_receives (Part.gapBefore_same h) e]
      exact ih (p := { p with link := { p.link with receiver := q } }) (receive_moves e) hl
    | discards => rw [e] at hl; revert hl; dsimp only; split <;> exact nofun
    | accepts f => rw [e] at hl; revert hl; dsimp only; split <;> exact nofun

/-- A last byte that discards what was heard. -/
theorem Part.takeBytes_discards {p : Part} {t : Tick} (h : p.link.receiver = .hunting) {l : List Byte} {r : Receiver} {x : RxByte}
    (hl : Receiver.hunting.hear t l = .moves r) (hr : r = .hunting ∨ ∃ m, r = .inFrame m t) (hx : x.after = 0)
    (e : receive r t x = .discards) : p.takeBytes t (clean l ++ [x]) = p.event t Part.discardFrame := by
  rw [Part.takeBytes_hears (.inl h) (h ▸ hl)]
  show Part.takeByte _ (plusTicks t x.after) x = _
  rw [hx, plusTicks_zero, Part.takeByte_discarding (Part.gapBefore_same hr) e]
  exact p.event_discardFrame_received t r

theorem completes_discarded {c : Instr} {w : List Instr} {p q : Part} (t : Tick) (h : exec c ⟨w, p⟩ = .next ⟨w, q⟩)
    (e : q = p.event t Part.discardFrame) : Completes c ⟨w, p⟩ (p.discarded (laterOf p.tick t)) :=
  ⟨_, h, rfl, e ▸ p.event_discarded t⟩

theorem clean_append (l m : List Byte) : clean (l ++ m) = clean l ++ clean m := List.map_append

theorem Part.queueFull_of {p : Part} (h : 4 ≤ p.link.rxQueue.length) : p.queueFull = true := decide_eq_true h

/-- A frame that finds the receive queue full is discarded. -/
theorem Part.event_acceptFrame_full {p : Part} (h : 4 ≤ p.link.rxQueue.length) (t : Tick) (k : Byte) (b : List Byte) (owner : Part → Answer) :
    (p.event t fun s => s.acceptFrame k b owner) = p.event t Part.discardFrame :=
  congrArg Part.conclude (if_pos (Part.queueFull_of (p := p.advance t) h))

/-- A frame begun is kept byte by byte up to its last (R174). -/
theorem hear_begun {f : Frame} (h : f.body.length ≤ 64) {k : Nat} (hk : inRange 1 (f.body.length + 4) k) (t : Tick) :
    Receiver.hunting.hear t (f.bytes.take k) = .moves (.inFrame (f.bytes.tail.take (k - 1)) t) := by
  obtain ⟨lo, hi⟩ := hk
  obtain ⟨n, rfl⟩ : ∃ n, k = n + 1 := ⟨k - 1, by omega⟩
  show (Receiver.inFrame [] t).hear t (f.bytes.tail.take n) = _
  rw [hear_within [] _ t fun hm => ?_]
  · rfl
  · obtain ⟨m, rfl⟩ : ∃ m, n = m + 1 := Nat.exists_eq_succ_of_ne_zero fun e => hm (by rw [e]; rfl)
    have head : (([] ++ f.bytes.tail.take (m + 1)).headD 0).toNat = f.body.length + 1 := f.covered_head h []
    rw [head]
    exact ⟨⟨by omega, by omega⟩, by rw [List.nil_append, List.length_take]; omega⟩

theorem exec_linkFaultTimer {p : Part} {d : Tick} (h : p.link.faultTimer = some d) (w : List Instr) :
    exec .linkFaultTimerExpiry ⟨w, p⟩ = .next ⟨w, p.event d fun p => p.modLink fun l => { l with fault := false, faultTimer := none }⟩ := by
  show Host.Outcome.next (⟨w, p.expiry p.link.faultTimer _⟩ : State) = _
  rw [h]
  rfl

theorem Part.event_faultEnds (p : Part) (d : Tick) :
    let q := p.event d fun p => p.modLink fun l => { l with fault := false, faultTimer := none }
    q.tick = laterOf p.tick d ∧ q.link.fault = false ∧ q.link.faultTimer = none ∧ q.link.rxQueue = p.link.rxQueue ∧
      q.stored = p.stored ∧ q.force = p.force ∧ q.mask = p.mask ∧ q.lines = p.lines ∧
      (p.link.sending.isSome = true → q = { p with tick := q.tick, link := { p.link with fault := false, faultTimer := none } }) := by
  intro q
  obtain ⟨tick, lines, stored, force, mask⟩ :=
    ((p.advance d).modLink fun l => { l with fault := false, faultTimer := none }).conclude_same
  obtain ⟨-, queue, fault, timer⟩ := ((p.advance d).modLink fun l => { l with fault := false, faultTimer := none }).conclude_received
  refine ⟨tick, fault, timer, queue, stored, force, mask, lines, fun hs => ?_⟩
  have e : q = (p.advance d).modLink fun l => { l with fault := false, faultTimer := none } := Part.conclude_sending _ hs
  rw [e]
  rfl

/-- Settles O22. -/
theorem discards : Obligations.Discards := by
  refine ⟨fun w p t => ⟨fun l last b h hl => ?_, fun h => ⟨fun len hl => ?_, fun f c d hf hc => ?_, fun f hf full => ?_⟩⟩,
    fun w p t => ⟨fun h => ⟨?_, fun f k hf hk => ?_⟩, fun l last h => ?_⟩, fun w p c t f hc h full => ?_, fun w p => ⟨fun d h => ?_, fun h => ?_⟩⟩
  · refine completes_discarded t (q := p.takeByte (plusTicks t 0) ⟨0, b, false⟩) rfl ?_
    have still : p.gapBefore t = p := by rw [Part.gapBefore_inFrame h, if_neg (Int.not_le.mpr hl)]
    rw [plusTicks_zero, Part.takeByte_discarding still (by rw [h]; rfl)]
  · refine completes_discarded t rfl (Part.takeBytes_discards (l := [0xD5]) h rfl (.inr ⟨[], rfl⟩) rfl ?_)
    exact if_pos hl
  · refine completes_discarded t rfl ?_
    have e : (0xD5 : Byte) :: f.covered ++ [c, d] = 0xD5 :: (f.covered ++ [c]) ++ [d] := by simp
    rw [e, clean_append]
    refine Part.takeBytes_discards h (hear_all_but_last hf t c) (.inr ⟨_, rfl⟩) rfl ?_
    have last : f.covered ++ [c] ++ [d] = f.covered ++ [c, d] := List.append_assoc ..
    show examine (f.covered ++ [c] ++ [d]) t = _
    rw [last, examine_whole hf, if_neg fun e => hc e.symm]
  · refine completes_discarded t rfl ?_
    obtain ⟨c, d, crc, bytes⟩ := f.bytes_eq
    have e : f.bytes = 0xD5 :: (f.covered ++ [c]) ++ [d] := by rw [bytes]; simp
    have last : f.covered ++ [c] ++ [d] = f.covered ++ [c, d] := List.append_assoc ..
    rw [e, clean_append]
    refine (Part.takeBytes_hears (.inl h) (h ▸ hear_all_but_last hf t c) (clean [d])).trans ?_
    show Part.takeByte _ (plusTicks t 0) ⟨0, d, true⟩ = _
    have whole : receive (.inFrame (f.covered ++ [c]) t) t ⟨0, d, true⟩ = .accepts f := by
      show examine (f.covered ++ [c] ++ [d]) t = _
      rw [last, examine_whole hf, if_pos crc.symm]
    rw [plusTicks_zero, Part.takeByte_accepting (Part.gapBefore_same (.inr ⟨_, rfl⟩)) whole]
    exact Part.event_acceptFrame_full full t ..
  · show Host.Outcome.next (⟨w, p.gapDiscard⟩ : State) = _
    rw [Part.gapDiscard_hunting p h]
  · refine completes_discarded (plusTicks t 41) rfl ?_
    rw [← List.append_nil (clean _)]
    refine (congrArg Part.gapDiscard (Part.takeBytes_hears (.inl h) (h ▸ hear_begun hf hk t) [])).trans ?_
    exact Part.gapDiscard_inFrame (p := { p with link := { p.link with receiver := .inFrame (f.bytes.tail.take (k - 1)) t } }) rfl
  · exact completes_discarded (plusTicks last 41) rfl (Part.gapDiscard_inFrame h)
  · refine completes_discarded t (exec_heard hc _) ?_
    unfold Part.takeRequest
    dsimp only
    rw [Part.gapDiscard_hunting p h]
    exact Part.event_acceptFrame_full full t ..
  · exact ⟨⟨w, p.event d fun p => p.modLink fun l => { l with fault := false, faultTimer := none }⟩, exec_linkFaultTimer h w, rfl,
      p.event_faultEnds d⟩
  · show Host.Outcome.next (⟨w, p.expiry p.link.faultTimer _⟩ : State) = _
    rw [h]
    rfl

end Sys2Proof.Machine
end

