-- ==== Sys2Proof/Proofs/Judged.lean ====
section
/-! PROOF. What the judgements at the end of an event can do (entry 26), block by block: the Finisher Unit, the Feed Scheduler and the
pick. An obligation about an event is its own operation's effect carried through these. -/

namespace Sys2Proof.Machine

variable {s t u : Part}

/-! ## The Finisher Unit judged (R150) -/

/-- The outputs but for the stapler and the ejector. -/
def Outputs.still (o : Outputs) : Outputs := { o with stapler := false, ejector := false }

theorem Part.deliverPages_nil (s : Part) (job : Nat) : s.deliverPages job [] = s := by
  unfold Part.deliverPages
  split
  · next h => cases h
  · rfl

/-- An empty set whose eject completes counts no page. -/
theorem Part.completeEject_intake (h : s.finisher.sheets = []) : s.completeEject.intake = s.intake := by
  obtain ⟨r, hr, hi, -⟩ := s.completeEject_cases
  rw [hi, hr, h, List.flatMap_nil, Part.deliverPages_nil]
  rfl

/-- What the judgement of the Finisher Unit can be: closure alone, an empty set finished, STAPLING or EJECTING entered. -/
theorem Part.judgeFinisher_cases (s : Part) :
    let u := s.judgeClosure
    s.judgeFinisher = u ∧ u.cycleReady = false ∨
    u.cycleReady = true ∧
      (u.finisher.closed = true ∧ u.finisher.sheets = [] ∧
          s.judgeFinisher = (u.modFinisher fun f => { f with split := false }).completeEject ∨
        u.finisher.closed = true ∧ u.finisher.sheets ≠ [] ∧ u.finisher.toStaple = true ∧ u.finisher.stapled = false ∧
          u.finisher.skipped = false ∧ u.finisher.abandoned = false ∧ s.judgeFinisher = u.enterStapling ∨
        u.finisher.closed = true ∧ u.finisher.sheets ≠ [] ∧ ¬ (u.finisher.toStaple = true ∧ u.finisher.stapled = false ∧
          u.finisher.skipped = false ∧ u.finisher.abandoned = false) ∧ s.judgeFinisher = u.enterEjecting false ∨
        u.finisher.closed = false ∧ s.judgeFinisher = u.enterEjecting true) := by
  intro u
  unfold Part.judgeFinisher
  dsimp only
  by_cases hr : u.cycleReady = true
  · refine .inr ⟨hr, ?_⟩
    rw [if_pos hr]
    unfold Part.startCycle
    dsimp only
    by_cases hc : u.finisher.closed = true
    · rw [if_pos hc]
      by_cases he : u.finisher.sheets = []
      · rw [if_pos (List.isEmpty_iff.mpr he)]
        exact .inl ⟨hc, he, rfl⟩
      · rw [if_neg (mt List.isEmpty_iff.mp he)]
        by_cases hs : u.finisher.toStaple = true ∧ u.finisher.stapled = false ∧ u.finisher.skipped = false ∧ u.finisher.abandoned = false
        · obtain ⟨h1, h2, h3, h4⟩ := hs
          rw [if_pos (by rw [h1, h2, h3, h4]; rfl)]
          exact .inr (.inl ⟨hc, he, h1, h2, h3, h4, rfl⟩)
        · rw [if_neg (by simpa [and_assoc] using hs)]
          exact .inr (.inr (.inl ⟨hc, he, hs, rfl⟩))
    · rw [if_neg hc]
      exact .inr (.inr (.inr ⟨Bool.eq_false_iff.mpr hc, rfl⟩))
  · rw [if_neg hr]
    exact .inl ⟨rfl, Bool.eq_false_iff.mpr hr⟩

theorem Part.judgeFinisher_intake (s : Part) : s.judgeFinisher.intake = s.intake := by
  have closure := s.judgeClosure_via.intake_eq rfl
  rcases s.judgeFinisher_cases with ⟨e, -⟩ | ⟨-, ⟨-, he, e⟩ | ⟨-, -, -, -, -, -, e⟩ | ⟨-, -, -, e⟩ | ⟨-, e⟩⟩ <;> rw [e, ← closure]
  · exact Part.completeEject_intake he
  · exact (Part.enterStapling_via _).intake_eq rfl
  · exact (Part.enterEjecting_via ..).intake_eq rfl
  · exact (Part.enterEjecting_via ..).intake_eq rfl

theorem Part.enterStapling_out (s : Part) : s.enterStapling.out = { s.out with stapler := true } := by
  unfold Part.enterStapling
  dsimp only
  split
  · rfl
  · split <;> rfl

theorem Part.enterEjecting_out (s : Part) (part : Bool) : (s.enterEjecting part).out = { s.out with ejector := true } := by
  unfold Part.enterEjecting
  dsimp only
  split <;> rfl

theorem Part.judgeFinisher_out (s : Part) : s.judgeFinisher.out.still = s.out.still := by
  have closure := s.judgeClosure_via.out_eq rfl
  rcases s.judgeFinisher_cases with ⟨e, -⟩ | ⟨-, ⟨-, -, e⟩ | ⟨-, -, -, -, -, -, e⟩ | ⟨-, -, -, e⟩ | ⟨-, e⟩⟩ <;> rw [e, ← closure]
  · rw [Part.completeEject_out]
    rfl
  · rw [Part.enterStapling_out]
    rfl
  · rw [Part.enterEjecting_out]
    rfl
  · rw [Part.enterEjecting_out]
    rfl

/-! ## The Feed Scheduler judged (R44 to R47, R50, R60) -/

/-- The Feed Scheduler but for the path state, the selector and the timers that RUNNING and DRAINING judge. -/
def Feed.still (f : Feed) : Feed := { f with path := .idle, selector := .normal, pickTimer := none, holdoff := none, runOn := none }

/-- The scheduler moved between RUNNING and DRAINING, its selector and its timers, and nothing else but notices. -/
def Part.shifts (s t : Part) : Prop := Via [.notices, .feed] s t ∧ t.feed.still = s.feed.still

theorem Part.shifts.refl (s : Part) : s.shifts s := ⟨.refl s, rfl⟩

theorem Part.shifts.trans (h : s.shifts t) (k : t.shifts u) : s.shifts u := ⟨h.1.trans k.1, k.2.trans h.2⟩

/-- What a shift keeps of the scheduler. -/
theorem Part.shifts.feed_eq (h : s.shifts t) {α : Type} (f : Feed → α) (hf : ∀ x, f x.still = f x := by exact fun _ => rfl) :
    f t.feed = f s.feed := by
  rw [← hf t.feed, h.2, hf]

theorem Part.judgeSelector_shifts (s : Part) : s.shifts s.judgeSelector := by
  refine ⟨(Part.judgeSelector_via s).mono rfl, ?_⟩
  unfold Part.judgeSelector
  split
  · split <;> split <;> rfl
  · rfl

theorem Part.judgeHoldoff_shifts (s : Part) : s.shifts s.judgeHoldoff := ⟨(Part.judgeHoldoff_via s).mono rfl, rfl⟩

theorem Part.judgeHoldoff_path (s : Part) : s.judgeHoldoff.feed.path = s.feed.path := rfl

theorem Part.pickTimer_shifts (s : Part) (v : Option Tick) : s.shifts (s.modFeed fun f => { f with pickTimer := v }) :=
  ⟨Via.feed (.refl s) _ rfl, rfl⟩

theorem Part.enterDraining_shifts (s : Part) : s.shifts s.enterDraining :=
  ⟨s.enterDraining_via, by rw [Part.enterDraining_feed]; rfl⟩

theorem Part.returnToRunning_shifts (s : Part) : s.shifts s.returnToRunning :=
  ⟨(Part.returnToRunning_via s).mono rfl, by rw [Part.returnToRunning_feed]; rfl⟩

/-- A pick of `n` is due now (R57, R60). -/
structure Part.picks (u : Part) (n : NextPage) : Prop where
  running : u.feed.path = .running
  hold : u.feed.hold = false
  numbers : u.feed.exhausted = false
  next : u.nextPage = some n
  holds : u.pickHolds n = true
  due : ∃ v, u.pickTick n = some v ∧ notAfter v u.tick = true

/-- What the judgement of RUNNING and DRAINING can do: shift, with one pick at most on the way. -/
def Part.feeds (s t : Part) : Prop := s.shifts t ∨ ∃ u n, s.shifts u ∧ u.picks n ∧ (u.makePick n).shifts t

theorem Part.drainHolds_false (h : s.drainHolds = false) : s.feed.hold = false ∧ s.feed.exhausted = false ∧
    ∀ n, s.nextPage = some n → n.front.cls = s.feed.cls := by
  simp only [Part.drainHolds, Bool.or_eq_false_iff] at h
  obtain ⟨⟨hh, he⟩, hn⟩ := h
  refine ⟨hh, he, fun n hs => ?_⟩
  rw [hs] at hn
  simpa using hn

/-- The pick conditions judged: the pick timer moved, or the pick made. -/
theorem Part.judgePick_cases (hp : s.feed.path = .running) (hd : s.feed.hold = false) (he : s.feed.exhausted = false) :
    (∃ v, s.judgePick = s.modFeed fun f => { f with pickTimer := v }) ∨ ∃ n, s.picks n ∧ s.judgePick = s.makePick n := by
  unfold Part.judgePick
  dsimp only
  split
  · exact .inl ⟨none, rfl⟩
  · next n hn =>
    split
    · next hh =>
      split
      · exact .inl ⟨none, rfl⟩
      · next v hv =>
        split
        · next ht => exact .inr ⟨n, ⟨hp, hd, he, hn, hh, v, hv, ht⟩, rfl⟩
        · exact .inl ⟨some v, rfl⟩
    · exact .inl ⟨none, rfl⟩

/-- RUNNING judged, in three courses: it drains, it waits, or it picks and is judged once more. -/
theorem Part.judgeRunning_cases (hp : s.feed.path = .running) :
    (s.judgeSelector.drainHolds = true ∧ s.judgeRunning = s.judgeSelector.enterDraining) ∨
    (s.judgeSelector.drainHolds = false ∧ ∃ v, s.judgeSelector.judgeHoldoff.judgePick =
        (s.judgeSelector.judgeHoldoff.modFeed fun f => { f with pickTimer := v }) ∧
      s.judgeRunning = s.judgeSelector.judgeHoldoff.modFeed fun f => { f with pickTimer := v }) ∨
    (s.judgeSelector.drainHolds = false ∧ ∃ n, s.judgeSelector.judgeHoldoff.picks n ∧
      s.judgeRunning = if (s.judgeSelector.judgeHoldoff.makePick n).judgeSelector.drainHolds then
          (s.judgeSelector.judgeHoldoff.makePick n).judgeSelector.enterDraining
        else (s.judgeSelector.judgeHoldoff.makePick n).judgeSelector.judgeHoldoff) := by
  have running : s.judgeSelector.judgeHoldoff.feed.path = .running := (Part.judgeSelector_path s).trans hp
  unfold Part.judgeRunning
  dsimp only
  by_cases hd : s.judgeSelector.drainHolds = true
  · exact .inl ⟨hd, if_pos hd⟩
  · rw [if_neg hd]
    have hd := Bool.eq_false_iff.mpr hd
    obtain ⟨hold, numbers, -⟩ := Part.drainHolds_false hd
    rcases Part.judgePick_cases running (by exact hold) (by exact numbers) with ⟨v, e⟩ | ⟨n, hn, e⟩
    · refine .inr (.inl ⟨hd, v, e, ?_⟩)
      rw [e, if_pos (by rfl)]
    · refine .inr (.inr ⟨hd, n, hn, ?_⟩)
      have number : (s.judgeSelector.judgeHoldoff.makePick n).feed.nextSheet = s.judgeSelector.feed.nextSheet + 1 := by
        obtain ⟨m, hf⟩ := s.judgeSelector.judgeHoldoff.pickCore_feed n
        rw [Part.makePick_eq, (Part.judgeFinisher_via _).feed_eq rfl, (Part.judgeGates_via _).feed_eq rfl,
          (Part.countPath_via ..).feed_eq rfl, (Part.countTray_via ..).feed_eq rfl, hf]
        rfl
      rw [e, if_neg (by omega)]

theorem Part.judgeRunning_feeds (hp : s.feed.path = .running) : s.feeds s.judgeRunning := by
  rcases Part.judgeRunning_cases hp with ⟨-, e⟩ | ⟨-, v, -, e⟩ | ⟨-, n, hn, e⟩
  · exact .inl (e ▸ s.judgeSelector_shifts.trans (Part.enterDraining_shifts _))
  · exact .inl (e ▸ (s.judgeSelector_shifts.trans (Part.judgeHoldoff_shifts _)).trans (Part.pickTimer_shifts _ v))
  · refine .inr ⟨_, n, s.judgeSelector_shifts.trans (Part.judgeHoldoff_shifts _), hn, ?_⟩
    rw [e]
    split
    · exact (Part.judgeSelector_shifts _).trans (Part.enterDraining_shifts _)
    · exact (Part.judgeSelector_shifts _).trans (Part.judgeHoldoff_shifts _)

theorem Part.judgeRunning_path (hp : s.feed.path = .running) :
    s.judgeRunning.feed.path = .running ∨ s.judgeRunning.feed.path = .draining := by
  have sel : s.judgeSelector.feed.path = .running := (Part.judgeSelector_path s).trans hp
  rcases Part.judgeRunning_cases hp with ⟨-, e⟩ | ⟨-, v, -, e⟩ | ⟨-, n, hn, e⟩
  · exact .inr (by rw [e, Part.enterDraining_feed])
  · exact .inl (by rw [e]; exact sel)
  · rw [e]
    split
    · exact .inr (by rw [Part.enterDraining_feed])
    · refine .inl ?_
      rw [Part.judgeHoldoff_path, Part.judgeSelector_path, Part.makePick_path]
      exact sel

theorem Part.judgeDraining_feeds (s : Part) : s.feeds s.judgeDraining := by
  unfold Part.judgeDraining
  dsimp only
  split
  · have back := s.judgeSelector_shifts.trans (Part.returnToRunning_shifts _)
    rcases Part.judgeRunning_feeds (s := s.judgeSelector.returnToRunning) (by rw [Part.returnToRunning_feed]) with h | ⟨u, n, h, hn, k⟩
    · exact .inl (back.trans h)
    · exact .inr ⟨u, n, back.trans h, hn, k⟩
  · exact .inl s.judgeSelector_shifts

theorem Part.judgeDraining_path (hp : s.feed.path = .draining) :
    s.judgeDraining.feed.path = .running ∨ s.judgeDraining.feed.path = .draining := by
  unfold Part.judgeDraining
  dsimp only
  split
  · exact Part.judgeRunning_path (by rw [Part.returnToRunning_feed])
  · exact .inr ((Part.judgeSelector_path s).trans hp)

/-- Outside IDLE the Feed Scheduler's judgement shifts, with one pick at most. -/
theorem Part.judgeFeed_feeds (h : s.feed.path ≠ .idle) : s.feeds s.judgeFeed := by
  unfold Part.judgeFeed
  split
  · next hi => exact absurd hi h
  · next hr => exact Part.judgeRunning_feeds hr
  · exact s.judgeDraining_feeds
  · exact .inl (.refl s)

theorem Part.judgeFeed_path (h : s.feed.path = .running ∨ s.feed.path = .draining) :
    s.judgeFeed.feed.path = .running ∨ s.judgeFeed.feed.path = .draining := by
  unfold Part.judgeFeed
  rcases h with h | h <;> rw [h]
  · exact Part.judgeRunning_path h
  · exact Part.judgeDraining_path h

/-- In the other path states the Feed Scheduler judges nothing. -/
theorem Part.judgeFeed_still (hi : s.feed.path ≠ .idle) (hr : s.feed.path ≠ .running) (hd : s.feed.path ≠ .draining) :
    s.judgeFeed = s := by
  unfold Part.judgeFeed
  split
  · next h => exact absurd h hi
  · next h => exact absurd h hr
  · next h => exact absurd h hd
  · rfl

theorem Part.judgeFeed_idle (h : s.feed.path = .idle) : s.judgeFeed = s.judgeStart := by
  unfold Part.judgeFeed
  rw [h]

/-! ## The pick (R61) -/

theorem Part.makePick_feed (s : Part) (n : NextPage) : (s.makePick n).feed = (s.pickCore n).feed := by
  rw [Part.makePick_eq, (Part.judgeFinisher_via _).feed_eq rfl, (Part.judgeGates_via _).feed_eq rfl,
    (Part.countPath_via ..).feed_eq rfl, (Part.countTray_via ..).feed_eq rfl]

theorem Part.makePick_calls (s : Part) (n : NextPage) : (s.makePick n).calls = (s.pickCore n).calls := by
  rw [Part.makePick_eq, (Part.judgeFinisher_via _).calls_eq rfl, (Part.judgeGates_via _).calls_eq rfl,
    (Part.countPath_via ..).calls_eq rfl, (Part.countTray_via ..).calls_eq rfl]

theorem Part.makePick_intake (s : Part) (n : NextPage) : (s.makePick n).intake = (s.pickCore n).intake := by
  rw [Part.makePick_eq, Part.judgeFinisher_intake, (Part.judgeGates_via _).intake_eq rfl,
    (Part.countPath_via ..).intake_eq rfl, (Part.countTray_via ..).intake_eq rfl]

theorem Part.makePick_table (s : Part) (n : NextPage) : (s.makePick n).table = (s.pickCore n).table := by
  rw [Part.makePick_eq, (Part.judgeFinisher_via _).table_eq rfl, (Part.judgeGates_via _).table_eq rfl,
    (Part.countPath_via ..).table_eq rfl, (Part.countTray_via ..).table_eq rfl]

theorem Part.makePick_planner (s : Part) (n : NextPage) : (s.makePick n).planner = (s.pickCore n).planner := by
  rw [Part.makePick_eq, (Part.judgeFinisher_via _).planner_eq rfl, (Part.judgeGates_via _).planner_eq rfl,
    (Part.countPath_via ..).planner_eq rfl, (Part.countTray_via ..).planner_eq rfl]

theorem Part.makePick_nextSheet (s : Part) (n : NextPage) : (s.makePick n).feed.nextSheet = s.feed.nextSheet + 1 := by
  obtain ⟨m, e⟩ := s.pickCore_feed n
  rw [Part.makePick_feed, e]

/-- A pick calls no image from the deferred set. -/
theorem Part.makePick_deferred (s : Part) (n : NextPage) : (s.makePick n).calls.deferred = s.calls.deferred := by
  have base : ((((s.takeNext n).joinTable (s.newSheet n)).armNext (s.newSheet n).number).reserve (s.newSheet n) .feed
      (feedLegOf n.unit)).calls = s.calls := by
    rw [(Part.reserve_via ..).calls_eq rfl, (Part.armNext_via ..).calls_eq rfl, (Part.joinTable_via ..).calls_eq rfl,
      (s.takeNext_via n).calls_eq rfl]
  rw [Part.makePick_calls]
  unfold Part.pickCore
  dsimp only
  rw [(Part.notePick_via ..).calls_eq rfl]
  unfold Part.callFront
  split
  · rw [Part.modOut_calls, base]
  · rw [Part.modCalls_calls, Part.modOut_calls, base]

/-! ## What the Feed Scheduler's judgement keeps -/

/-- Where no number was given there was no pick. -/
theorem Part.feeds.shifts_of (h : s.feeds t) (hn : t.feed.nextSheet = s.feed.nextSheet) : s.shifts t := by
  rcases h with h | ⟨u, n, h, -, k⟩
  · exact h
  · have := k.feed_eq Feed.nextSheet
    have := h.feed_eq Feed.nextSheet
    have := u.makePick_nextSheet n
    omega

theorem Part.judgeFeed_calls (s : Part) : s.judgeFeed.calls.deferred = s.calls.deferred ∧
    (s.judgeFeed.feed.nextSheet = s.feed.nextSheet → s.judgeFeed.calls = s.calls) := by
  by_cases hi : s.feed.path = .idle
  · have same : s.judgeFeed.calls = s.calls := by
      rw [Part.judgeFeed_idle hi]
      exact s.judgeStart_via.calls_eq rfl
    exact ⟨congrArg Calls.deferred same, fun _ => same⟩
  · have feeds := Part.judgeFeed_feeds hi
    refine ⟨?_, fun hn => (feeds.shifts_of hn).1.calls_eq rfl⟩
    rcases feeds with h | ⟨u, n, h, -, k⟩
    · rw [h.1.calls_eq rfl]
    · rw [k.1.calls_eq rfl, u.makePick_deferred n, h.1.calls_eq rfl]

end Sys2Proof.Machine
end

