-- ==== Sys2Proof/Proofs/FrameSent.lean ====
section
/-! PROOF. FRAME_SENT and the order of R177 (O23): each class of notices as the list of frames it would send, the selector's choice as
the head of them all. -/

namespace Sys2Proof.Machine

variable {s : Part}

/-! ## The classes of R177 -/

/-- The notices but the image calls, class by class: how the selector chooses one, and the frames that are pending. -/
def noticeClasses : List ((Part → Option Choice) × (Part → List Frame)) :=
  [(Part.chooseJam, fun p => p.notices.jams.map JamNote.frame),
    (Part.choosePlanReady, fun p => if p.notices.planReady then [p.planReadyFrame] else []),
    (Part.choosePath, fun p => if p.notices.pathState then [p.pathStateFrame] else []),
    (Part.chooseDoor, fun p => ((List.finRange 8).filter fun d => p.notices.door[d]).map p.doorFrame),
    (Part.chooseSpoil, fun p => p.notices.spoil.toList.map p.spoilFrame),
    (Part.chooseSetDone, fun p => p.notices.setDone.toList.map SetDoneNote.frame),
    (Part.chooseProgress, fun p => ((List.finRange 8).filter fun i => p.notices.progress[i]).flatMap fun i =>
      (p.intake.slots[i]).toList.map fun x => x.frame i),
    (Part.chooseTrayEmpty, fun p => ((List.finRange 5).filter fun u => p.notices.trayEmpty[u]).map fun u => conditionFrame 0 u.val ⟨0, 0, 0⟩),
    (Part.chooseBinFull, fun p => ((List.finRange 2).filter fun b => p.notices.binFull[b]).map fun b => conditionFrame 1 b.val ⟨0, 0, 0⟩),
    (Part.choosePurgeFull, fun p => if p.notices.purgeFull then [conditionFrame 2 0 ⟨0, 0, 0⟩] else []),
    (Part.chooseOutOfStep, fun p => ((List.finRange 24).filter fun st => p.notices.outOfStep[st]).map fun st =>
      conditionFrame 3 st.val ⟨0, 0, 0⟩),
    (Part.chooseWatermark .station, fun p => p.notices.wmStation.toList.map (conditionFrame 4 0)),
    (Part.chooseWatermark .tray, fun p => p.notices.wmTray.toList.map (conditionFrame 4 1)),
    (Part.chooseWatermark .path, fun p => p.notices.wmPath.toList.map (conditionFrame 4 2)),
    (Part.chooseLinkFault, fun p => if p.notices.linkFault then [conditionFrame 5 0 ⟨0, 0, 0⟩] else []),
    (Part.chooseExhausted, fun p => if p.notices.exhausted then [conditionFrame 6 0 ⟨0, 0, 0⟩] else []),
    (Part.chooseLowNormal, fun p =>
      if p.notices.lowNormal then [intakeLowFrame 0 p.intake.normal.length p.force.timing.markNormal] else []),
    (Part.chooseLowPriority, fun p =>
      if p.notices.lowPriority then [intakeLowFrame 1 p.intake.priority.length p.force.timing.markPriority] else [])]

/-- The frames of every class but the image calls, in order. -/
def pendingNotices (p : Part) : List Frame := (noticeClasses.map fun x => x.2 p).flatten

theorem selectors_eq : selectors = Part.chooseReply :: Part.chooseCall :: noticeClasses.map Prod.fst := by
  simp only [selectors, noticeClasses, List.map_cons, List.map_nil]

theorem noticesInOrder_eq (p : Part) : noticesInOrder p = p.calls.queue.map Call.frame ++ pendingNotices p := by
  delta noticesInOrder
  simp only [pendingNotices, noticeClasses, List.map_cons, List.map_nil, List.flatten_cons, List.flatten_nil, List.append_assoc,
    List.append_nil]

/-- A choice of class `k` takes the head of its frames, and leaves every other class. -/
structure Part.takesHead (s : Part) (k : Nat) (frames : Part → List Frame) (c : Choice) : Prop where
  notice : c.reply = false
  head : frames s = c.frame :: frames c.part
  others : (noticeClasses.map fun x => x.2 c.part) = (noticeClasses.map fun x => x.2 s).set k (frames c.part)
  calls : c.part.calls = s.calls
  gate : c.part.gate = if c.frame.kind == 0x45 then { s.gate with spoilCount := 0 } else s.gate
  progress : c.frame.kind = 0x47 → ∀ i : Fin 8, s.notices.progress[i] = true → (∀ j : Fin 8, j < i → s.notices.progress[j] = false) →
    ∀ y ∈ s.intake.slots[i], c.part.notices.progress[i] = false ∧ c.part.intake = { s.intake with
      slots := s.intake.slots.set i (if y.closed = true ∧ y.accepted = y.delivered + y.abandoned then none else some y) : Intake }

/-- The turn of class `k`: nothing pending and nothing chosen, or the head chosen. -/
def Part.turn (s : Part) (k : Nat) (choose : Part → Option Choice) (frames : Part → List Frame) : Prop :=
  choose s = none ∧ frames s = [] ∨ ∃ c, choose s = some c ∧ s.takesHead k frames c

/-! ## The turn of each class -/

/-- A frame of another kind than SPOIL and PROGRESS. -/
def plainKind (f : Frame) : Prop := (f.kind == 0x45) = false ∧ f.kind ≠ 0x47

theorem plainKind_noticeKind {i : Nat} (h : i ∈ [1, 2, 3, 4, 6, 8, 9]) (b : List Byte) : plainKind ⟨noticeKind i, b⟩ := by
  simp only [List.mem_cons, List.not_mem_nil, or_false] at h
  rcases h with rfl | rfl | rfl | rfl | rfl | rfl | rfl <;> exact ⟨rfl, by show noticeKind _ ≠ _; decide⟩

/-- A choice that moves the notices alone, of a plain kind. -/
theorem Part.takesHead_plain {k : Nat} {frames : Part → List Frame} {f : Frame} {g : Notices → Notices} (hf : plainKind f)
    (head : frames s = f :: frames (s.modNotices g))
    (others : (noticeClasses.map fun x => x.2 (s.modNotices g)) = (noticeClasses.map fun x => x.2 s).set k (frames (s.modNotices g))) :
    s.takesHead k frames (Machine.notice f (s.modNotices g)) where
  notice := rfl
  head := head
  others := others
  calls := rfl
  gate := by
    show s.gate = _
    rw [if_neg (by rw [show (Machine.notice f (s.modNotices g)).frame = f from rfl, hf.1]; exact Bool.false_ne_true)]
  progress h := absurd h hf.2

theorem Part.turn_flag {k : Nat} (b : Part → Bool) (fr : Part → Frame) (g : Notices → Notices) (hf : plainKind (fr s))
    (hb : b (s.modNotices g) = false)
    (others : (noticeClasses.map fun x => x.2 (s.modNotices g)) = (noticeClasses.map fun x => x.2 s).set k []) :
    s.turn k (fun s => if b s then some (Machine.notice (fr s) (s.modNotices g)) else none) (fun p => if b p then [fr p] else []) := by
  by_cases h : b s = true
  · refine .inr ⟨_, if_pos h, Part.takesHead_plain hf ?_ ?_⟩
    · simp only [h, hb, if_true, Bool.false_eq_true, if_false]
    · simp only [hb, Bool.false_eq_true, if_false]
      exact others
  · exact .inl ⟨if_neg h, if_neg h⟩

theorem Part.turn_option {k : Nat} {α : Type} (o : Part → Option α) (fr : Part → α → Frame) (g : Notices → Notices)
    (hf : ∀ x, plainKind (fr s x)) (hb : o (s.modNotices g) = none)
    (others : (noticeClasses.map fun x => x.2 (s.modNotices g)) = (noticeClasses.map fun x => x.2 s).set k []) :
    s.turn k (fun s => (o s).map fun x => Machine.notice (fr s x) (s.modNotices g)) (fun p => (o p).toList.map (fr p)) := by
  cases h : o s with
  | none => exact .inl ⟨by simp only [h]; rfl, by simp only [h]; rfl⟩
  | some x =>
    refine .inr ⟨Machine.notice (fr s x) (s.modNotices g), by simp only [h]; rfl, Part.takesHead_plain (hf x) ?_ ?_⟩
    · simp only [h, hb]
      rfl
    · simp only [hb]
      exact others

/-- The first of some flags, and the rest once it is cleared. -/
theorem filter_of_find {n : Nat} {v : Vector Bool n} {i : Fin n} (h : (List.finRange n).find? (fun j => v[j]) = some i) :
    (List.finRange n).filter (fun j => v[j]) = i :: (List.finRange n).filter fun j => (v.set i false)[j] := by
  obtain ⟨hi, l₁, l₂, e, none⟩ := List.find?_eq_some_iff_append.mp h
  have nodup : (l₁ ++ i :: l₂).Nodup := e ▸ List.nodup_finRange n
  have apart : i ∉ l₁ ∧ i ∉ l₂ := by
    rw [List.nodup_append] at nodup
    exact ⟨fun hm => nodup.2.2 i hm i (by simp) rfl, (List.nodup_cons.mp nodup.2.1).1⟩
  have same : ∀ l : List (Fin n), i ∉ l → l.filter (fun j => (v.set i false)[j]) = l.filter fun j => v[j] := fun l hl =>
    List.filter_congr fun j hj => by
      have : i.val ≠ j.val := fun e => hl (Fin.ext e ▸ hj)
      simp [this]
  have empty : l₁.filter (fun j => v[j]) = [] := List.filter_eq_nil_iff.mpr fun j hj => by simpa using none j hj
  rw [e, List.filter_append, List.filter_append, List.filter_cons, List.filter_cons, same _ apart.1, same _ apart.2, empty, if_pos hi,
    if_neg (by simp)]
  rfl

theorem Part.turn_find {k n : Nat} (v : Part → Vector Bool n) (fr : Part → Fin n → Frame) (g : Fin n → Notices → Notices)
    (hf : ∀ i, plainKind (fr s i)) (hv : ∀ i, v (s.modNotices (g i)) = (v s).set i false) (hr : ∀ i, fr (s.modNotices (g i)) = fr s)
    (others : ∀ i, (noticeClasses.map fun x => x.2 (s.modNotices (g i))) = (noticeClasses.map fun x => x.2 s).set k
      (((List.finRange n).filter fun j => (v (s.modNotices (g i)))[j]).map (fr (s.modNotices (g i))))) :
    s.turn k (fun s => ((List.finRange n).find? fun i => (v s)[i]).map fun i => Machine.notice (fr s i) (s.modNotices (g i)))
      (fun p => ((List.finRange n).filter fun i => (v p)[i]).map (fr p)) := by
  cases h : (List.finRange n).find? fun i => (v s)[i] with
  | none =>
    refine .inl ⟨by simp only [h]; rfl, ?_⟩
    rw [List.find?_eq_none] at h
    exact List.map_eq_nil_iff.mpr (List.filter_eq_nil_iff.mpr h)
  | some i =>
    refine .inr ⟨Machine.notice (fr s i) (s.modNotices (g i)), by simp only [h]; rfl, Part.takesHead_plain (hf i) ?_ (others i)⟩
    show ((List.finRange n).filter fun j => (v s)[j]).map (fr s) = fr s i :: ((List.finRange n).filter fun j =>
      (v (s.modNotices (g i)))[j]).map (fr (s.modNotices (g i)))
    rw [filter_of_find h, hv i, hr i]
    rfl

theorem Part.turn_jams (s : Part) : s.turn 0 Part.chooseJam fun p => p.notices.jams.map JamNote.frame := by
  unfold Part.turn Part.chooseJam
  dsimp only
  cases h : s.notices.jams with
  | nil => exact .inl ⟨rfl, rfl⟩
  | cons x rest => exact .inr ⟨_, rfl, Part.takesHead_plain (plainKind_noticeKind (by simp) _) (by rw [h]; rfl) rfl⟩

/-- The choice of SPOIL, which sets the running spoil count to 0 (R100). -/
theorem Part.turn_spoil (s : Part) : s.turn 4 Part.chooseSpoil fun p => p.notices.spoil.toList.map p.spoilFrame := by
  unfold Part.turn Part.chooseSpoil
  dsimp only
  cases h : s.notices.spoil with
  | none => exact .inl ⟨rfl, rfl⟩
  | some x => exact .inr ⟨_, rfl, rfl, by rw [h]; rfl, rfl, rfl, rfl, fun hk => absurd hk (by show noticeKind 5 ≠ 0x47; decide)⟩

theorem Part.examineSlot_eq_of {i : Fin 8} {y : Slot} (hy : s.intake.slots[i] = some y) (hp : s.notices.progress[i] = false) :
    let kept := if y.closed = true ∧ y.accepted = y.delivered + y.abandoned then none else some y
    s.examineSlot i = s.modIntake fun x => { x with slots := x.slots.set i kept } := by
  intro kept
  unfold Part.examineSlot
  rw [hy]
  dsimp only
  rw [hp]
  by_cases h : y.closed = true ∧ y.accepted = y.delivered + y.abandoned
  · rw [if_pos ⟨h.1, h.2, rfl⟩, show kept = none from if_pos h]
  · rw [if_neg fun k => h ⟨k.1, k.2.1⟩, show kept = s.intake.slots[i] from (if_neg h).trans hy.symm]
    have : s.intake.slots.set i s.intake.slots[i] = s.intake.slots := Vector.set_getElem_self _
    exact congrArg (fun v => s.modIntake fun x => { x with slots := v }) this.symm

theorem firstPending {n : Nat} {v : Vector Bool n} {i j : Fin n} (h : (List.finRange n).find? (fun j => v[j]) = some i)
    (hj : v[j] = true) (first : ∀ k : Fin n, k < j → v[k] = false) : j = i := by
  obtain ⟨hi, l₁, l₂, e, none⟩ := List.find?_eq_some_iff_append.mp h
  have sorted : (l₁ ++ i :: l₂).Pairwise (· < ·) := e ▸ List.pairwise_lt_finRange n
  have mem : j ∈ l₁ ++ i :: l₂ := e ▸ List.mem_finRange j
  rcases List.mem_append.mp mem with hm | hm
  · exact absurd hj (by simpa using none j hm)
  · rcases List.mem_cons.mp hm with hm | hm
    · exact hm
    · have lt : i < j := (List.pairwise_cons.mp (List.pairwise_append.mp sorted).2.1).1 j hm
      exact absurd hi (by simp [first i lt])

/-- The choice of a PROGRESS, whose sending may free its slot (R37). -/
theorem Part.turn_progress (h : s.progressHeld) : s.turn 6 Part.chooseProgress fun p =>
    ((List.finRange 8).filter fun i => p.notices.progress[i]).flatMap fun i => (p.intake.slots[i]).toList.map fun x => x.frame i := by
  unfold Part.turn Part.chooseProgress
  dsimp only
  cases e : (List.finRange 8).find? fun i => s.notices.progress[i] with
  | none =>
    rw [List.find?_eq_none] at e
    exact .inl ⟨rfl, by rw [List.filter_eq_nil_iff.mpr e]; rfl⟩
  | some i =>
    have pending : s.notices.progress[i] = true := by simpa using List.find?_some e
    obtain ⟨y, hy⟩ := Option.isSome_iff_exists.mp (h i pending)
    refine .inr ⟨_, by simp only [Option.bind_some, hy]; rfl, ?_⟩
    have part : (s.modNotices fun n => { n with progress := n.progress.set i false }).examineSlot i = _ :=
      Part.examineSlot_eq_of (s := s.modNotices fun n => { n with progress := n.progress.set i false }) hy (by simp)
    rw [part]
    refine ⟨rfl, ?_, rfl, rfl, rfl, fun _ j hj first z hz => ?_⟩
    · show List.flatMap _ (List.filter (fun k => s.notices.progress[k]) _) = _ :: List.flatMap _ (List.filter (fun k =>
        (s.notices.progress.set i false)[k]) _)
      rw [filter_of_find e, List.flatMap_cons, hy]
      refine congrArg (y.frame i :: ·) (List.flatMap_congr fun k hk => ?_)
      have ne : i.val ≠ k.val := fun e => by
        obtain rfl := Fin.ext e
        simp at hk
      exact congrArg (fun o : Option Slot => o.toList.map fun x => x.frame k) (Vector.getElem_set_ne i.isLt k.isLt ne).symm
    · obtain rfl : j = i := firstPending e hj first
      obtain rfl : z = y := Option.some.inj (hz.symm.trans hy)
      exact ⟨Vector.getElem_set_self _, rfl⟩

/-- The turns of the classes, in the order of R177. -/
theorem Part.turns (h : s.progressHeld) {k : Nat} {x : (Part → Option Choice) × (Part → List Frame)} (hx : noticeClasses[k]? = some x) :
    s.turn k x.1 x.2 := by
  have hk : k < 18 := (List.getElem?_eq_some_iff.mp hx).1
  have plain : ∀ {i} (_ : i ∈ [1, 2, 3, 4, 6, 8, 9]) (b : List Byte), plainKind ⟨noticeKind i, b⟩ := fun h b => plainKind_noticeKind h b
  interval_cases k <;> cases hx
  · exact s.turn_jams
  · exact Part.turn_flag (fun p => p.notices.planReady) Part.planReadyFrame _ (plain (by simp) _) rfl rfl
  · exact Part.turn_flag (fun p => p.notices.pathState) Part.pathStateFrame _ (plain (by simp) _) rfl rfl
  · exact Part.turn_find (fun p => p.notices.door) Part.doorFrame _ (fun _ => plain (by simp) _) (fun _ => rfl) (fun _ => rfl) fun _ => rfl
  · exact s.turn_spoil
  · exact Part.turn_option (fun p => p.notices.setDone) (fun _ => SetDoneNote.frame) _ (fun _ => plain (by simp) _) rfl rfl
  · exact Part.turn_progress h
  · exact Part.turn_find (fun p => p.notices.trayEmpty) (fun _ u => conditionFrame 0 u.val ⟨0, 0, 0⟩) _ (fun _ => plain (by simp) _)
      (fun _ => rfl) (fun _ => rfl) fun _ => rfl
  · exact Part.turn_find (fun p => p.notices.binFull) (fun _ u => conditionFrame 1 u.val ⟨0, 0, 0⟩) _ (fun _ => plain (by simp) _)
      (fun _ => rfl) (fun _ => rfl) fun _ => rfl
  · exact Part.turn_flag (fun p => p.notices.purgeFull) (fun _ => conditionFrame 2 0 ⟨0, 0, 0⟩) _ (plain (by simp) _) rfl rfl
  · exact Part.turn_find (fun p => p.notices.outOfStep) (fun _ u => conditionFrame 3 u.val ⟨0, 0, 0⟩) _ (fun _ => plain (by simp) _)
      (fun _ => rfl) (fun _ => rfl) fun _ => rfl
  · exact Part.turn_option (fun p => p.notices.wmStation) (fun _ => conditionFrame 4 0) _ (fun _ => plain (by simp) _) rfl rfl
  · exact Part.turn_option (fun p => p.notices.wmTray) (fun _ => conditionFrame 4 1) _ (fun _ => plain (by simp) _) rfl rfl
  · exact Part.turn_option (fun p => p.notices.wmPath) (fun _ => conditionFrame 4 2) _ (fun _ => plain (by simp) _) rfl rfl
  · exact Part.turn_flag (fun p => p.notices.linkFault) (fun _ => conditionFrame 5 0 ⟨0, 0, 0⟩) _ (plain (by simp) _) rfl rfl
  · exact Part.turn_flag (fun p => p.notices.exhausted) (fun _ => conditionFrame 6 0 ⟨0, 0, 0⟩) _ (plain (by simp) _) rfl rfl
  · exact Part.turn_flag (fun p => p.notices.lowNormal) (fun p => intakeLowFrame 0 p.intake.normal.length p.force.timing.markNormal) _
      (plain (by simp) _) rfl rfl
  · exact Part.turn_flag (fun p => p.notices.lowPriority) (fun p => intakeLowFrame 1 p.intake.priority.length p.force.timing.markPriority) _
      (plain (by simp) _) rfl rfl

/-! ## The selector's choice -/

/-- Without a reply or a call pending the selector chooses the head of the notices (R177). -/
theorem Part.select_notice (h : s.progressHeld) (hr : s.link.replies = []) (hc : s.calls.queue = []) :
    s.select = none ∧ pendingNotices s = [] ∨
      ∃ c k frames, s.select = some c ∧ pendingNotices s = c.frame :: pendingNotices c.part ∧ s.takesHead k frames c := by
  have choice : s.select = noticeClasses.findSome? fun x => x.1 s := by
    have reply : s.chooseReply = none := by simp only [Part.chooseReply, hr]
    have call : s.chooseCall = none := by simp only [Part.chooseCall, hc]
    rw [Part.select, selectors_eq, List.findSome?_cons, reply, List.findSome?_cons, call, List.findSome?_map]
    rfl
  rw [choice]
  cases e : noticeClasses.findSome? fun x => x.1 s with
  | none =>
    refine .inl ⟨rfl, List.flatten_eq_nil_iff.mpr fun l hl => ?_⟩
    obtain ⟨x, hx, rfl⟩ := List.mem_map.mp hl
    obtain ⟨k, hk, hx⟩ := List.mem_iff_getElem?.mp hx |>.imp fun k hk => And.intro hk hk
    rcases Part.turns h hk with ⟨-, none⟩ | ⟨c, hc, -⟩
    · exact none
    · rw [List.findSome?_eq_none_iff.mp e x (List.mem_of_getElem? hk)] at hc
      cases hc
  | some c =>
    obtain ⟨before, x, after, all, hx, none⟩ := List.findSome?_eq_some_iff.mp e
    have place : noticeClasses[before.length]? = some x := by rw [all]; simp
    rcases Part.turns h place with ⟨no, -⟩ | ⟨c', hc', turn⟩
    · rw [no] at hx; cases hx
    · obtain rfl : c' = c := Option.some.inj (hc'.symm.trans hx)
      refine .inr ⟨c', _, _, rfl, ?_, turn⟩
      have empty : ∀ y ∈ before, y.2 s = [] := fun y hy => by
        obtain ⟨k, hk, rfl⟩ := List.mem_iff_getElem.mp hy
        have place : noticeClasses[k]? = some before[k] := by rw [all, List.getElem?_append_left hk, List.getElem?_eq_getElem hk]
        rcases Part.turns h place with ⟨-, none⟩ | ⟨d, hd, -⟩
        · exact none
        · rw [none _ hy] at hd; cases hd
      have nothing : (before.map fun y => y.2 s).flatten = [] := List.flatten_eq_nil_iff.mpr fun l hl => by
        obtain ⟨y, hy, rfl⟩ := List.mem_map.mp hl
        exact empty y hy
      unfold pendingNotices
      rw [turn.others, all, List.map_append, List.map_cons, List.set_append_right _ _ (by simp), List.length_map, Nat.sub_self,
        List.set_cons_zero, List.flatten_append, List.flatten_append, nothing, List.flatten_cons, List.flatten_cons, turn.head]
      rfl

/-! ## Deferred calls (R94) -/

theorem insertCall_perm (c : Call) (l : List Call) : (insertCall c l).Perm (c :: l) := by
  unfold insertCall
  exact List.perm_middle.trans (by rw [List.takeWhile_append_dropWhile])

theorem firstCall_mem {l : List Call} {c : Call} (h : firstCall l = some c) : c ∈ l := by
  induction l generalizing c with
  | nil => cases h
  | cons x rest ih =>
    unfold firstCall at h
    split at h
    · exact Option.some.inj h ▸ List.mem_cons_self
    · next d hd =>
      split at h
      · exact Option.some.inj h ▸ List.mem_cons_self
      · exact List.mem_cons_of_mem _ (ih (hd.trans h))

theorem firstCall_isSome {l : List Call} (h : l ≠ []) : ∃ c, firstCall l = some c := by
  cases l with
  | nil => exact absurd rfl h
  | cons x rest =>
    unfold firstCall
    split
    · exact ⟨_, rfl⟩
    · split <;> exact ⟨_, rfl⟩

/-- No call is lost or made as deferred calls enter the queue, and none becomes deferred. -/
theorem promote_perm (k : Nat) (c : Calls) :
    ((promote k c).queue ++ (promote k c).deferred).Perm (c.queue ++ c.deferred) ∧ (promote k c).deferred.length ≤ c.deferred.length := by
  induction k generalizing c with
  | zero => exact ⟨.refl _, le_rfl⟩
  | succ k ih =>
    unfold promote
    split
    · split
      · exact ⟨.refl _, le_rfl⟩
      · next x hx =>
        have mem := firstCall_mem hx
        obtain ⟨perm, le⟩ := ih ⟨insertCall x c.queue, c.deferred.erase x⟩
        refine ⟨perm.trans ?_, le.trans (List.length_erase_of_mem mem ▸ Nat.sub_le ..)⟩
        exact ((insertCall_perm x c.queue).append_right _).trans
          (List.perm_middle.symm.trans ((List.perm_cons_erase mem).symm.append_left _))
    · exact ⟨.refl _, le_rfl⟩

/-- A place freed lets a deferred call in. -/
theorem promote_fewer {c : Calls} (hq : c.queue.length < 8) (hd : c.deferred ≠ []) :
    (promote c.deferred.length c).deferred.length < c.deferred.length := by
  obtain ⟨k, hk⟩ : ∃ k, c.deferred.length = k + 1 := Nat.exists_eq_succ_of_ne_zero (mt List.length_eq_zero_iff.mp hd)
  obtain ⟨x, hx⟩ := firstCall_isSome hd
  rw [hk]
  unfold promote
  rw [if_pos (show c.queue.length < Config.imageCallSize from hq), hx]
  refine (promote_perm k _).2.trans_lt ?_
  rw [List.length_erase_of_mem (firstCall_mem hx)]
  omega

/-! ## The frame sent (R177) -/

theorem Part.conclude_of_select (hs : s.link.sending = none) {c : Choice} (h : s.select = some c) :
    s.conclude = c.part.modLink fun l => { l with sending := some ⟨c.frame, c.reply⟩ } := by
  unfold Part.conclude
  rw [if_neg (by simp [hs]), h]

theorem Part.conclude_of_none (hs : s.link.sending = none) (h : s.select = none) : s.conclude = s := by
  unfold Part.conclude
  rw [if_neg (by simp [hs]), h]

theorem Part.select_reply {f : Frame} {rest : List Frame} (h : s.link.replies = f :: rest) :
    s.select = some ⟨f, true, s.modLink fun l => { l with replies := rest }⟩ := by
  have reply : s.chooseReply = some ⟨f, true, s.modLink fun l => { l with replies := rest }⟩ := by simp only [Part.chooseReply, h]
  rw [Part.select, selectors_eq, List.findSome?_cons, reply]

theorem Part.select_call (hr : s.link.replies = []) {c : Call} {rest : List Call} (h : s.calls.queue = c :: rest) :
    s.select = some (notice c.frame ((s.modCalls fun x => promote x.deferred.length { x with queue := rest }).judgeFeed)) := by
  have reply : s.chooseReply = none := by simp only [Part.chooseReply, hr]
  have call : s.chooseCall = some (notice c.frame ((s.modCalls fun x => promote x.deferred.length { x with queue := rest }).judgeFeed)) := by
    simp only [Part.chooseCall, h]
  rw [Part.select, selectors_eq, List.findSome?_cons, reply, List.findSome?_cons, call]

/-- The part once the transmission under way has ended. -/
def Part.freed (p : Part) (t : Tick) (x : Sending) : Part :=
  { p with
    tick := laterOf p.tick t
    link := { p.link with sending := none, rxQueue := if x.reply then p.link.rxQueue.drop 1 else p.link.rxQueue } }

theorem exec_frameSent {p : Part} {x : Sending} (h : p.link.sending = some x) (w : List Instr) (t : Tick) :
    exec (.frameSent t) ⟨w, p⟩ = .next ⟨w, (p.freed t x).conclude⟩ := by
  have e : (p.advance t).sent = p.freed t x := by
    unfold Part.sent
    rw [show (p.advance t).link.sending = some x from h]
    rfl
  show Host.Outcome.next (⟨w, ((p.advance t).sent).conclude⟩ : State) = _
  rw [e]

theorem Part.freed_notices (p : Part) (t : Tick) (x : Sending) : pendingNotices (p.freed t x) = pendingNotices p := rfl

/-- A call's frame is no SPOIL and no PROGRESS. -/
theorem Call.frame_kind (c : Call) : (c.frame.kind == 0x45) = false ∧ (c.frame.kind == 0x47) = false := ⟨rfl, rfl⟩

theorem Part.freed_replies (p : Part) (t : Tick) (x : Sending) : (p.freed t x).conclude.link.replies = p.link.replies.drop 1 := by
  cases hr : p.link.replies with
  | nil =>
    rcases (p.freed t x).conclude_link with e | ⟨-, f, rest, h, -⟩ | ⟨-, -, f, e⟩
    · rw [e]; exact hr
    · exact nomatch hr.symm.trans h
    · rw [e]; exact hr
  | cons r rest =>
    rw [Part.conclude_of_select rfl (Part.select_reply (s := p.freed t x) hr)]
    rfl

/-- With no call waiting the transmitter goes on with the head of the notices, which is pending no longer. -/
theorem Part.freed_notice {p : Part} {t : Tick} {x : Sending} (held : p.progressHeld) (hr : p.link.replies = []) (hc : p.calls.queue = []) :
    let q := (p.freed t x).conclude
    let first := (pendingNotices p).head?
    q.link.sending = first.map (fun f => ⟨f, false⟩) ∧ q.calls.queue = [] ∧ pendingNotices q = (pendingNotices p).drop 1 ∧
      (first = none → q = p.freed t x) ∧
      q.gate = (if first.any (fun f => f.kind == 0x45) = true then { p.gate with spoilCount := 0 } else p.gate) ∧
      (first.any (fun f => f.kind == 0x47) = true → ∀ i : Fin 8, p.notices.progress[i] = true →
        (∀ j : Fin 8, j < i → p.notices.progress[j] = false) → ∀ y ∈ p.intake.slots[i],
        let kept := if y.closed = true ∧ y.accepted = y.delivered + y.abandoned then none else some y
        q.notices.progress[i] = false ∧ q.intake = { p.intake with slots := p.intake.slots.set i kept }) := by
  intro q first
  rcases Part.select_notice (s := p.freed t x) held hr hc with ⟨no, nothing⟩ | ⟨c, k, frames, some, head, turn⟩
  · have e : q = p.freed t x := Part.conclude_of_none rfl no
    have nothing : pendingNotices p = [] := nothing
    rw [show first = none from congrArg List.head? nothing, e, p.freed_notices, nothing]
    exact ⟨rfl, hc, rfl, fun _ => rfl, rfl, fun h => absurd h Bool.false_ne_true⟩
  · have e : q = c.part.modLink fun l => { l with sending := Option.some ⟨c.frame, c.reply⟩ } := Part.conclude_of_select rfl some
    have head : pendingNotices p = c.frame :: pendingNotices c.part := head
    rw [show first = Option.some c.frame from congrArg List.head? head, e, head, turn.notice]
    exact ⟨rfl, (congrArg Calls.queue turn.calls).trans hc, rfl, nofun, turn.gate, fun h => turn.progress (beq_iff_eq.mp h)⟩

/-- With a call waiting the transmitter goes on with it: it leaves the queue and lets a deferred call in (R94). -/
theorem Part.freed_call {p : Part} {t : Tick} {x : Sending} (hr : p.link.replies = []) {c : Call} {rest : List Call}
    (hc : p.calls.queue = c :: rest) :
    let q := (p.freed t x).conclude
    q.link.sending = some ⟨c.frame, false⟩ ∧ q.gate = p.gate ∧
      (q.feed.nextSheet = p.feed.nextSheet → (q.calls.queue ++ q.calls.deferred).Perm (rest ++ p.calls.deferred)) ∧
      (rest.length < 8 → p.calls.deferred ≠ [] → q.calls.deferred.length < p.calls.deferred.length) := by
  intro q
  let r := (p.freed t x).modCalls fun x => promote x.deferred.length { x with queue := rest }
  have e : q = r.judgeFeed.modLink fun l => { l with sending := some ⟨c.frame, false⟩ } :=
    Part.conclude_of_select rfl (Part.select_call (s := p.freed t x) hr hc)
  obtain ⟨deferred, same⟩ := r.judgeFeed_calls
  have perm := (promote_perm p.calls.deferred.length { p.calls with queue := rest }).1
  rw [e]
  refine ⟨rfl, r.judgeFeed_via.gate_eq rfl, fun hn => ?_, fun hq hd => ?_⟩
  · rw [Part.modLink_calls, same hn]
    exact perm
  · rw [Part.modLink_calls, deferred]
    exact promote_fewer (c := { p.calls with queue := rest }) hq hd

/-- Settles O23: the transmitter's choice is the head of everything pending. -/
theorem frameSent : Obligations.FrameSent := by
  intro w p t x held hs
  refine ⟨_, exec_frameSent hs w t, rfl, ?_⟩
  dsimp only
  obtain ⟨tick, lines, stored, force, mask⟩ := (p.freed t x).conclude_same
  obtain ⟨receiver, queue, -, -⟩ := (p.freed t x).conclude_received
  refine ⟨tick, stored, force, mask, lines, receiver, queue, p.freed_replies t x, fun r rest hr => ?_, fun hr => ?_⟩
  · rw [Part.conclude_of_select rfl (Part.select_reply (s := p.freed t x) hr)]
    rfl
  · rw [noticesInOrder_eq]
    cases hc : p.calls.queue with
    | nil =>
      obtain ⟨sending, calls, rest, idle, gate, progress⟩ := Part.freed_notice (t := t) (x := x) held hr hc
      refine ⟨sending, fun _ => ⟨?_, fun h => ?_⟩, nofun, gate, progress⟩
      · rw [noticesInOrder_eq, calls]
        exact rest
      · rw [idle h]
        rfl
    | cons c rest =>
      obtain ⟨sending, gate, perm, fewer⟩ := Part.freed_call (t := t) (x := x) hr hc
      refine ⟨sending, nofun, fun c' rest' h => ?_, gate, fun h => absurd h (Bool.eq_false_iff.mp c.frame_kind.2)⟩
      cases h
      exact ⟨perm, fewer⟩

end Sys2Proof.Machine
end

