-- ==== Sys2Proof/Proofs/PathChecked.lean ====
section
/-! PROOF. The six checks of PATH CLOSE (O8): each check's search is the first item that fails what R16 and R17 ask, where the checks
before it pass. -/

namespace Sys2Proof.Machine

variable {d : Desc} {detail : Nat}

/-! ## First items that fail -/

theorem find_eq_some_iff {α : Type} {l : List α} {p : α → Bool} {ok : α → Prop} (h : ∀ x ∈ l, p x = true ↔ ¬ ok x) (x : α) :
    l.find? p = some x ↔ firstFailing l ok x := by
  rw [List.find?_eq_some_iff_append]
  constructor
  · rintro ⟨hx, before, after, rfl, none⟩
    exact ⟨before, after, rfl, (h x (by simp)).mp hx, fun y hy => by
      have := (h y (by simp [hy])).not.mp (by simpa using none y hy)
      exact not_not.mp this⟩
  · rintro ⟨before, after, rfl, hx, all⟩
    exact ⟨(h x (by simp)).mpr hx, before, after, rfl, fun y hy => by
      simpa using (h y (by simp [hy])).not.mpr (not_not.mpr (all y hy))⟩

theorem find_eq_none_iff {α : Type} {l : List α} {p : α → Bool} {ok : α → Prop} (h : ∀ x ∈ l, p x = true ↔ ¬ ok x) :
    l.find? p = none ↔ allPass l ok := by
  rw [List.find?_eq_none]
  exact forall₂_congr fun x hx => by rw [h x hx, not_not]

/-- A search, and what follows where it finds nothing. -/
theorem search_iff {α : Type} {l : List α} {p : α → Bool} {ok : α → Prop} (h : ∀ x ∈ l, p x = true ↔ ¬ ok x) (f : α → Nat)
    (next : Option Nat) :
    (match l.find? p with
      | some x => some (f x)
      | none => next) = some detail ↔
    (∃ x, firstFailing l ok x ∧ detail = f x) ∨ allPass l ok ∧ next = some detail := by
  have unique : ∀ x, firstFailing l ok x ↔ l.find? p = some x := fun x => (find_eq_some_iff h x).symm
  simp only [unique, ← find_eq_none_iff h]
  cases l.find? p with
  | none => simp
  | some x => simp [eq_comm]

theorem search_map_iff {α : Type} {l : List α} {p : α → Bool} {ok : α → Prop} (h : ∀ x ∈ l, p x = true ↔ ¬ ok x) (f : α → Nat) :
    (l.find? p).map f = some detail ↔ ∃ x, firstFailing l ok x ∧ detail = f x := by
  simp only [← find_eq_some_iff h]
  cases l.find? p with
  | none => simp
  | some x => simp [eq_comm]

theorem firstFailing_finRange {n : Nat} {ok : Fin n → Prop} {i : Fin n} :
    firstFailing (List.finRange n) ok i ↔ ¬ ok i ∧ ∀ j < i, ok j := by
  constructor
  · rintro ⟨before, after, e, hi, all⟩
    have sorted : (before ++ i :: after).Pairwise (· < ·) := e ▸ List.pairwise_lt_finRange n
    obtain ⟨-, tail, -⟩ := List.pairwise_append.mp sorted
    refine ⟨hi, fun j hj => ?_⟩
    rcases List.mem_append.mp (e ▸ List.mem_finRange j : j ∈ before ++ i :: after) with h | h
    · exact all j h
    · rcases List.mem_cons.mp h with rfl | h
      · exact absurd hj (lt_irrefl _)
      · exact absurd hj (lt_asymm ((List.pairwise_cons.mp tail).1 j h))
  · rintro ⟨hi, all⟩
    obtain ⟨before, after, e⟩ := List.append_of_mem (List.mem_finRange i)
    have sorted : (before ++ i :: after).Pairwise (· < ·) := e ▸ List.pairwise_lt_finRange n
    exact ⟨before, after, e, hi, fun y hy => all y ((List.pairwise_append.mp sorted).2.2 y hy i (by simp))⟩

/-! ## 1: a missing item (R16) -/

theorem Desc.unitsSet_eq (d : Desc) : d.unitsSet = (List.finRange 8).map d.unitSet := by
  refine List.ext_getElem (by simp [Desc.unitsSet]) fun i h₁ h₂ => ?_
  have hi : i < 8 := by simpa using h₂
  interval_cases i <;> simp [Desc.unitsSet, Desc.unitSet]

theorem findIdx_map {n : Nat} (f : Fin n → Bool) :
    ((List.finRange n).map f).findIdx? (!·) = ((List.finRange n).find? fun i => !f i).map Fin.val := by
  rw [Option.ext_iff]
  intro i
  rw [List.findIdx?_eq_some_iff_getElem, Option.map_eq_some_iff]
  have iff := fun k => find_eq_some_iff (l := List.finRange n) (p := fun i => !f i) (ok := fun i => f i = true) (fun x _ => by simp) k
  simp only [iff, firstFailing_finRange]
  constructor
  · rintro ⟨hi, no, before⟩
    have hi : i < n := by simpa using hi
    refine ⟨⟨i, hi⟩, ⟨by simpa using no, fun j hj => ?_⟩, rfl⟩
    simpa using before j hj
  · rintro ⟨k, ⟨no, before⟩, rfl⟩
    refine ⟨by simp, by simpa using no, fun j hj => ?_⟩
    simpa using before ⟨j, hj.trans k.isLt⟩ hj

theorem Desc.holding_eq (d : Desc) (r : Role) : d.holding r = (d.holders r).length := List.countP_eq_length_filter

/-- The holders before a station. -/
theorem Desc.countP_before (d : Desc) (r : Role) (st : Fin 24) :
    (List.finRange 24).countP (fun k => decide (k < st) && d.roleOf k == some r) = ((d.holders r).filter fun k => decide (k < st)).length := by
  rw [List.countP_eq_length_filter, Desc.holders, List.filter_filter]

/-- The second holder of a role. -/
theorem Desc.second_iff {a b : Fin 24} {rest : List (Fin 24)} {r : Role} (h : d.holders r = a :: b :: rest) (st : Fin 24) :
    d.roleOf st = some r ∧ (List.finRange 24).countP (fun k => decide (k < st) && d.roleOf k == some r) = 1 ↔ st = b := by
  have sorted : (a :: b :: rest).Pairwise (· < ·) := h ▸ (List.pairwise_lt_finRange 24).filter _
  obtain ⟨ha, tail⟩ := List.pairwise_cons.mp sorted
  obtain ⟨hb, -⟩ := List.pairwise_cons.mp tail
  have mem : d.roleOf st = some r ↔ st ∈ a :: b :: rest := by rw [← h, Desc.holders]; simp
  rw [d.countP_before, h, mem]
  constructor
  · rintro ⟨hm, count⟩
    rcases List.mem_cons.mp hm with rfl | hm
    · rw [List.filter_eq_nil_iff.mpr fun y hy => ?_] at count
      · cases count
      · rcases List.mem_cons.mp hy with rfl | hy
        · simp
        · simpa using (ha y hy).le
    · rcases List.mem_cons.mp hm with rfl | hm
      · rfl
      · have one := ha st (List.mem_cons_of_mem _ hm)
        rw [List.filter_cons_of_pos (by simpa using one), List.filter_cons_of_pos (by simpa using hb st hm)] at count
        simp at count
  · rintro rfl
    refine ⟨by simp, ?_⟩
    rw [List.filter_cons_of_pos (by simpa using ha st (by simp)), List.filter_cons_of_neg (by simp),
      List.filter_eq_nil_iff.mpr fun y hy => by simpa using (hb y hy).le]
    rfl

/-- A role no station holds, or a second one does. -/
theorem Desc.roleFault_iff (d : Desc) (r : Role) : d.roleFault r = some detail ↔ ¬ d.holding r = 1 ∧
    if d.holding r = 0 then detail = 0x60 + r.ctorIdx
    else ∃ st : Fin 24, d.roleOf st = some r ∧ detail = st.val ∧
      (List.finRange 24).countP (fun k => decide (k < st) && d.roleOf k == some r) = 1 := by
  unfold Desc.roleFault
  rw [d.holding_eq]
  match h : d.holders r with
  | [] => simp [Role.code, eq_comm]
  | [a] => simp
  | a :: b :: rest =>
    have only : (∃ st : Fin 24, d.roleOf st = some r ∧ detail = st.val ∧
        (List.finRange 24).countP (fun k => decide (k < st) && d.roleOf k == some r) = 1) ↔ b.val = detail := by
      constructor
      · rintro ⟨st, hr, rfl, hc⟩
        rw [(Desc.second_iff h st).mp ⟨hr, hc⟩]
      · rintro rfl
        obtain ⟨hr, hc⟩ := (Desc.second_iff h b).mpr rfl
        exact ⟨b, hr, rfl, hc⟩
    rw [only]
    simp

theorem Desc.roleFault_none (d : Desc) (r : Role) : d.roleFault r = none ↔ d.holding r = 1 := by
  unfold Desc.roleFault
  rw [d.holding_eq]
  match h : d.holders r with
  | [] => simp
  | [a] => simp
  | a :: b :: rest => simp

theorem roles_iff : soleRoles.findSome? d.roleFault = some detail ↔
    ∃ r : Role, firstFailing roleOrder (fun r => d.holding r = 1) r ∧
      if d.holding r = 0 then detail = 0x60 + r.ctorIdx
      else ∃ st : Fin 24, d.roleOf st = some r ∧ detail = st.val ∧
        (List.finRange 24).countP (fun k => decide (k < st) && d.roleOf k == some r) = 1 := by
  rw [List.findSome?_eq_some_iff]
  constructor
  · rintro ⟨before, r, after, e, hr, none⟩
    obtain ⟨no, what⟩ := (d.roleFault_iff r).mp hr
    exact ⟨r, ⟨before, after, e, no, fun y hy => (d.roleFault_none y).mp (none y hy)⟩, what⟩
  · rintro ⟨r, ⟨before, after, e, no, all⟩, what⟩
    exact ⟨before, r, after, e, (d.roleFault_iff r).mpr ⟨no, what⟩, fun y hy => (d.roleFault_none y).mpr (all y hy)⟩

/-- Check 1. -/
theorem Desc.missingItem_iff (d : Desc) : d.missingItem = some detail ↔ missing d detail := by
  unfold Desc.missingItem missing
  simp only [Option.isNone_iff_eq_none]
  split
  · simp [eq_comm]
  · split
    · simp [eq_comm]
    · rw [d.unitsSet_eq, findIdx_map, ← roles_iff,
        ← search_iff (l := legOrder) (p := fun l => (d.legs[l.pos]).isNone) (fun l _ => by simp) (fun l => 0x20 + l.pos.val)]
      have units := search_iff (detail := detail) (l := List.finRange 8) (p := fun i => !d.unitSet i) (ok := fun i => d.unitSet i = true)
        (fun i _ => by simp) (fun i => 0x50 + i.val)
      rw [← units]
      cases (List.finRange 8).find? fun i => !d.unitSet i with
      | none => cases h : allLegs.find? fun l => (d.legs[l.pos]).isNone <;> rw [show legOrder = allLegs from rfl, h] <;> rfl
      | some i => rfl

/-! ## 2: a leg's shape (R16) -/

theorem Desc.stationsOf_eq (d : Desc) (l : LegName) : d.stationsOf l = d.way l := rfl

theorem Desc.apart_iff (d : Desc) (l : LegName) : d.apart l = true ↔
    ∀ m : LegName, m ≠ l → ¬ (m.isDeliver = true ∧ l.isDeliver = true) → ∀ st ∈ d.way l, st ∉ d.way m := by
  have all : ∀ m : LegName, m ∈ allLegs := fun m => by cases m <;> decide
  simp only [Desc.apart, d.stationsOf_eq, List.all_eq_true, Bool.or_eq_true, Bool.and_eq_true, beq_iff_eq, Bool.not_eq_true', or_assoc]
  constructor
  · intro h m hm hd st hs
    rcases h m (all m) with h | h | h
    · exact absurd h hm
    · exact absurd h hd
    · simpa using h st hs
  · intro h m _
    by_cases hm : m = l
    · exact .inl hm
    · by_cases hd : m.isDeliver = true ∧ l.isDeliver = true
      · exact .inr (.inl hd)
      · exact .inr (.inr fun st hs => by simpa using h m hm hd st hs)

/-- A DELIVER leg that holds the PURGE GATE and ends with an entry has two stations at least. -/
theorem two_le_of {α : Type} {l : List α} {r : α → Option Role} {a b : Role} (hm : ∃ x ∈ l, r x = some a)
    (hl : l.getLast?.bind r = some b) (hn : a ≠ b) : 2 ≤ l.length := by
  obtain ⟨x, hx, ha⟩ := hm
  match l with
  | [y] =>
    obtain rfl : x = y := by simpa using hx
    exact absurd (Option.some.inj (ha.symm.trans hl)) hn
  | _ :: _ :: _ => simp

theorem getLast_map_iff {α : Type} {l : List α} {r : α → Option Role} {b : Role} :
    (l.map r).getLast? = some (some b) ↔ l.getLast?.bind r = some b := by
  rw [List.getLast?_map]
  cases l.getLast? <;> simp

/-- The roles of a leg's stations, by its kind. -/
theorem Desc.rolesFit_iff (d : Desc) (l : LegName) : d.rolesFit l = true ↔
    (l.hasEnd = true → ∀ st ∈ d.way l, d.roleOf st = some .plain) ∧
    (l.hasEnd = false → 2 ≤ (d.way l).length ∧ (∃ st ∈ d.way l, d.roleOf st = some (if l = .main then .registration else .purgeGate)) ∧
      (d.way l).getLast?.bind d.roleOf = some (if l = .main then .exit else entryRole l) ∧
      ∀ st ∈ (d.way l).dropLast, d.roleOf st = some .plain ∨ d.roleOf st = some (if l = .main then .registration else .purgeGate)) := by
  unfold Desc.rolesFit
  dsimp only
  cases l.hasEnd with
  | true => simp [Desc.stationsOf, Desc.way]
  | false =>
    rw [if_neg Bool.false_ne_true]
    simp only [Bool.and_eq_true, decide_eq_true_eq, beq_iff_eq, List.contains_iff_mem, List.mem_map, getLast_map_iff,
      List.length_map, ← List.map_dropLast, List.all_map, List.all_eq_true, Function.comp_apply, Bool.or_eq_true, and_assoc,
      Bool.false_eq_true, false_imp_iff, true_and, true_imp_iff]
    rfl

/-- Check 2's shape of a leg. -/
theorem Desc.legFits_iff (d : Desc) (l : LegName) : d.legFits l = true ↔ d.legSound l := by
  have parts : d.legFits l = true ↔ (∀ st ∈ d.way l, (d.stations[st]).isSome = true) ∧ (d.way l).Nodup ∧ d.apart l = true ∧
      d.rolesFit l = true ∧ d.endFits l = true := by
    simp only [Desc.legFits, Bool.and_eq_true, List.all_eq_true, decide_eq_true_eq, and_assoc]
    rfl
  have ends : d.endFits l = true ↔ (l.hasEnd = true →
      (d.leg l).endDist + ((d.leg .main).steps.head?.map LegStep.dist).getD 0 ≤ 20000) := by
    unfold Desc.endFits
    cases l.hasEnd <;> simp
  rw [parts, d.apart_iff, d.rolesFit_iff, ends]
  constructor
  · rintro ⟨defined, once, apart, ⟨plain, roles⟩, ends⟩
    refine ⟨defined, once, apart, plain, fun h => ?_, fun h => ?_, ends⟩
    · subst h
      obtain ⟨two, reg, last, inner⟩ := roles rfl
      exact ⟨two, last, reg, fun st hs => (inner st hs).symm⟩
    · have he : l.hasEnd = false := by revert h; cases l <;> decide
      have hm : l ≠ .main := by rintro rfl; cases h
      obtain ⟨-, gate, last, inner⟩ := roles he
      simp only [if_neg hm] at gate last inner
      exact ⟨gate, by cases l <;> exact last, fun st hs => (inner st hs).symm⟩
  · rintro ⟨defined, once, apart, plain, main, deliver, ends⟩
    refine ⟨defined, once, apart, ⟨plain, fun he => ?_⟩, ends⟩
    by_cases hm : l = .main
    · obtain ⟨two, last, reg, inner⟩ := main hm
      simp only [if_pos hm]
      exact ⟨two, reg, last, fun st hs => (inner st hs).symm⟩
    · have hd : l.isDeliver = true := by revert he hm; cases l <;> simp [LegName.hasEnd, LegName.isFeed, LegName.isDeliver]
      obtain ⟨gate, ends, inner⟩ := deliver hd
      have last : (d.way l).getLast?.bind d.roleOf = some (entryRole l) := by cases l <;> exact ends
      simp only [if_neg hm]
      exact ⟨two_le_of gate last (by cases l <;> simp [entryRole]), gate, last, fun st hs => (inner st hs).symm⟩

/-- A defined station stands in some leg. -/
def Desc.inLeg (d : Desc) (st : Fin 24) : Prop := (d.stations[st]).isSome = true → ∃ l : LegName, st ∈ d.way l

theorem Desc.inLeg_iff (d : Desc) (st : Fin 24) :
    ((d.stations[st]).isSome && !(allLegs.any fun l => (d.stationsOf l).contains st)) = true ↔ ¬ d.inLeg st := by
  have all : ∀ m : LegName, m ∈ allLegs := fun m => by cases m <;> decide
  simp only [Desc.inLeg, d.stationsOf_eq, Bool.and_eq_true, Bool.not_eq_true', List.any_eq_false, List.contains_iff_mem, Classical.not_imp, not_exists]
  exact and_congr_right fun _ => ⟨fun h l => h l (all l), fun h l _ => h l⟩

/-- Check 2. -/
theorem Desc.legShape_iff (d : Desc) : d.legShape = some detail ↔
    (∃ l : LegName, firstFailing legOrder d.legSound l ∧ detail = 0x20 + l.pos.val) ∨
      allPass legOrder d.legSound ∧ ∃ st : Fin 24, firstFailing (List.finRange 24) d.inLeg st ∧ detail = st.val := by
  have stations := search_map_iff (detail := detail) (l := List.finRange 24) (fun st _ => d.inLeg_iff st) Fin.val
  rw [← stations]
  unfold Desc.legShape
  refine Iff.trans ?_ (search_iff (l := allLegs) (p := fun l => !d.legFits l) (ok := d.legSound) (fun l _ => by rw [← d.legFits_iff]; simp)
    LegName.detail _)
  cases allLegs.find? fun l => !d.legFits l <;> rfl

/-! ## 3: the DELIVER legs up to the PURGE GATE (R17) -/

/-- The step is the PURGE GATE's. -/
def Desc.isGate (d : Desc) (x : LegStep) : Bool := d.roleOf x.station == some .purgeGate

theorem Desc.prefixOf_eq (d : Desc) (l : List LegStep) : d.prefixOf l = l.take (l.findIdx d.isGate + 1) := by
  induction l with
  | nil => rfl
  | cons x rest ih =>
    rw [Desc.prefixOf, List.findIdx_cons]
    by_cases h : d.roleOf x.station = some .purgeGate
    · have g : d.isGate x = true := by simp [Desc.isGate, h]
      rw [if_pos h, g]
      simp
    · have g : d.isGate x = false := by simp [Desc.isGate, h]
      rw [if_neg h, g, ih]
      simp

/-- A leg's first PURGE GATE, where each station stands in it once and one station holds the role, is its only one. -/
theorem Desc.gate_unique {l : LegName} (hn : (d.way l).Nodup) (hr : d.holding .purgeGate = 1) {i j : Nat} {x y : LegStep}
    (hi : (d.leg l).steps[i]? = some x) (hx : d.isGate x = true) (hj : (d.leg l).steps[j]? = some y) (hy : d.isGate y = true) : i = j := by
  obtain ⟨a, ha⟩ := List.length_eq_one_iff.mp (d.holding_eq .purgeGate ▸ hr)
  have held : ∀ z, d.isGate z = true → z.station = a := fun z hz => by
    have : z.station ∈ d.holders .purgeGate := by simpa [Desc.holders, Desc.isGate] using hz
    simpa [ha] using this
  have hi' : (d.way l)[i]? = some a := by rw [Desc.way, List.getElem?_map, hi, ← held x hx]; rfl
  have hj' : (d.way l)[j]? = some a := by rw [Desc.way, List.getElem?_map, hj, ← held y hy]; rfl
  obtain ⟨hi', -⟩ := List.getElem?_eq_some_iff.mp hi'
  exact (List.getElem?_inj hi' hn).mp (by rw [‹(d.way l)[i]? = some a›, hj'])

/-- The DELIVER legs up to the gate, as check 3 compares them. -/
theorem Desc.agrees_iff {l : LegName} (hr : d.holding .purgeGate = 1) (h₀ : d.legSound .deliverBin0) (hl : d.legSound l)
    (hd : l.isDeliver = true) (fit : (d.leg .deliverBin0).steps.length ≤ 8) :
    d.prefixOf (d.leg l).steps = d.prefixOf (d.leg .deliverBin0).steps ↔ d.agrees l := by
  have found : ∀ {m : LegName}, d.legSound m → m.isDeliver = true → ∃ x, (d.leg m).steps[(d.leg m).steps.findIdx d.isGate]? = some x ∧
      d.isGate x = true := fun {m} hm hd => by
    obtain ⟨st, hs, role⟩ := (hm.deliver hd).1
    obtain ⟨x, hx, rfl⟩ := List.mem_map.mp hs
    have hlt : (d.leg m).steps.findIdx d.isGate < (d.leg m).steps.length :=
      List.findIdx_lt_length_of_exists ⟨x, hx, by simp [Desc.isGate, role]⟩
    exact ⟨_, List.getElem?_eq_getElem hlt, List.findIdx_getElem⟩
  obtain ⟨x, hx, gx⟩ := found h₀ rfl
  obtain ⟨y, hy, gy⟩ := found hl hd
  have lx := (List.getElem?_eq_some_iff.mp hx).1
  have ly := (List.getElem?_eq_some_iff.mp hy).1
  rw [d.prefixOf_eq, d.prefixOf_eq]
  constructor
  · intro e
    have lengths := congrArg List.length e
    rw [List.length_take, List.length_take, min_eq_left ly, min_eq_left lx] at lengths
    have same : (d.leg l).steps.findIdx d.isGate = (d.leg .deliverBin0).steps.findIdx d.isGate := by omega
    refine ⟨⟨_, lx.trans_le fit⟩, ?_, ?_⟩
    · rw [hx]
      simpa [Desc.isGate] using gx
    · rw [same] at e
      exact e
  · rintro ⟨i, gate, e⟩
    cases hz : (d.leg .deliverBin0).steps[i.val]? with
    | none => simp [hz] at gate
    | some z =>
      have gz : d.isGate z = true := by simpa [hz, Desc.isGate] using gate
      have hz' : (d.leg l).steps[i.val]? = some z := by
        have := congrArg (fun m => m[i.val]?) e
        simpa [List.getElem?_take, hz] using this
      rw [Desc.gate_unique h₀.once hr hx gx hz gz, Desc.gate_unique hl.once hr hy gy hz' gz]
      exact e

/-- The stations after the gate are those of check 3's tails. -/
theorem Desc.beyondGate_iff {l : LegName} (fit : (d.leg l).steps.length ≤ 8) (st : Fin 24) :
    (d.tailStations l).contains st = true ↔ d.beyondGate l st := by
  have tail : d.tailStations l = (d.way l).drop ((d.leg l).steps.findIdx d.isGate + 1) := by
    rw [Desc.tailStations, d.prefixOf_eq, List.length_take, Desc.way, List.map_drop]
    by_cases h : (d.leg l).steps.findIdx d.isGate + 1 ≤ (d.leg l).steps.length
    · rw [min_eq_left h]
    · rw [min_eq_right (by omega), ← List.map_drop, ← List.map_drop, List.drop_length, List.drop_of_length_le (by omega)]
  rw [tail, List.contains_iff_mem, List.mem_iff_getElem?]
  simp only [List.getElem?_drop]
  constructor
  · rintro ⟨k, hk⟩
    have size : (d.leg l).steps.findIdx d.isGate + 1 + k < (d.leg l).steps.length := by
      obtain ⟨h, -⟩ := List.getElem?_eq_some_iff.mp hk
      simpa [Desc.way] using h
    have hlt : (d.leg l).steps.findIdx d.isGate < (d.leg l).steps.length := by omega
    refine ⟨⟨_, hlt.trans_le fit⟩, ⟨_, size.trans_le fit⟩, by simp only [Fin.mk_lt_mk]; omega, hk, ?_⟩
    have gate := List.findIdx_getElem (w := hlt)
    rw [Desc.way, List.getElem?_map, List.getElem?_eq_getElem hlt]
    simpa [Desc.isGate] using gate
  · rintro ⟨i, j, hij, hj, gate⟩
    rw [Desc.way, List.getElem?_map] at gate
    cases hx : (d.leg l).steps[i.val]? with
    | none => simp [hx] at gate
    | some x =>
      obtain ⟨hi, rfl⟩ := List.getElem?_eq_some_iff.mp hx
      have first : (d.leg l).steps.findIdx d.isGate ≤ i.val := Nat.le_of_not_lt fun lt =>
        Bool.eq_false_iff.mp (List.not_of_lt_findIdx lt) (by simpa [hx, Desc.isGate] using gate)
      have hij : i.val < j.val := hij
      exact ⟨j.val - ((d.leg l).steps.findIdx d.isGate + 1), by rwa [show (d.leg l).steps.findIdx d.isGate + 1 +
        (j.val - ((d.leg l).steps.findIdx d.isGate + 1)) = j.val by omega]⟩

/-- Two of a list that holds no item twice. -/
theorem two_le_countP_iff {α : Type} {l : List α} (hl : l.Nodup) (p : α → Bool) :
    2 ≤ l.countP p ↔ ∃ a ∈ l, ∃ b ∈ l, a ≠ b ∧ p a = true ∧ p b = true := by
  rw [List.countP_eq_length_filter]
  have nodup := hl.filter p
  have mem : ∀ x, x ∈ l.filter p ↔ x ∈ l ∧ p x = true := fun x => List.mem_filter
  constructor
  · intro h
    match e : l.filter p with
    | a :: b :: rest =>
      rw [e] at nodup
      obtain ⟨ha, pa⟩ := (mem a).mp (by rw [e]; simp)
      obtain ⟨hb, pb⟩ := (mem b).mp (by rw [e]; simp)
      exact ⟨a, ha, b, hb, by rintro rfl; simp at nodup, pa, pb⟩
    | [_] => simp [e] at h
    | [] => simp [e] at h
  · rintro ⟨a, ha, b, hb, ne, pa, pb⟩
    have ha := (mem a).mpr ⟨ha, pa⟩
    have hb := (mem b).mpr ⟨hb, pb⟩
    match e : l.filter p with
    | _ :: _ :: _ => simp
    | [x] =>
      rw [e, List.mem_singleton] at ha hb
      exact absurd (ha.trans hb.symm) ne
    | [] => rw [e] at ha; cases ha

/-- A station stands after the gate in one DELIVER leg at most. -/
def Desc.inOneTail (d : Desc) (st : Fin 24) : Prop := ∀ l m : LegName, l.isDeliver = true → m.isDeliver = true → l ≠ m →
  ¬ (d.beyondGate l st ∧ d.beyondGate m st)

theorem mem_deliverLegs (l : LegName) : l ∈ deliverLegs ↔ l.isDeliver = true := by
  cases l <;> decide

theorem Desc.leg_fits {d : Desc} (h : d.legsInRange) (l : LegName) : (d.leg l).steps.length ≤ 8 := by
  unfold Desc.leg
  cases hl : d.legs[l.pos] with
  | none => exact Nat.zero_le _
  | some x => exact (h l.pos x hl).2

/-- Check 3, where the checks before it pass. -/
theorem Desc.deliverPrefix_iff (fit : d.legsInRange) (hr : d.holding .purgeGate = 1) (sound : ∀ l, d.legSound l) :
    d.deliverPrefix = some detail ↔
    (∃ l : LegName, firstFailing (legOrder.drop 7) d.agrees l ∧ detail = 0x20 + l.pos.val) ∨
      allPass (legOrder.drop 7) d.agrees ∧ ∃ st : Fin 24, firstFailing (List.finRange 24) d.inOneTail st ∧ detail = st.val := by
  have tail : ∀ st : Fin 24, decide (2 ≤ deliverLegs.countP fun l => (d.tailStations l).contains st) = true ↔ ¬ d.inOneTail st := fun st => by
    rw [decide_eq_true_iff, two_le_countP_iff (by decide)]
    simp only [Desc.beyondGate_iff (Desc.leg_fits fit _), mem_deliverLegs, Desc.inOneTail]
    push Not
    exact ⟨fun ⟨l, hl, m, hm, ne, bl, bm⟩ => ⟨l, m, hl, hm, ne, bl, bm⟩, fun ⟨l, m, hl, hm, ne, bl, bm⟩ => ⟨l, hl, m, hm, ne, bl, bm⟩⟩
  have stations := search_map_iff (detail := detail) (l := List.finRange 24) (fun st _ => tail st) Fin.val
  rw [← stations]
  unfold Desc.deliverPrefix
  refine Iff.trans ?_ (search_iff (l := deliverLegs) (p := fun l => d.prefixOf (d.leg l).steps != d.prefixOf (d.leg .deliverBin0).steps)
    (ok := d.agrees) (fun l hl => ?_) LegName.detail _)
  · cases deliverLegs.find? fun l => d.prefixOf (d.leg l).steps != d.prefixOf (d.leg .deliverBin0).steps <;> rfl
  · rw [← Desc.agrees_iff hr (sound .deliverBin0) (sound l) ((mem_deliverLegs l).mp hl) (Desc.leg_fits fit _)]
    simp

/-! ## 4: drives (R17) -/

/-- The drive that place `i` of leg `l` asks for. -/
def Desc.asksDrive (d : Desc) (l : LegName) (i : Fin 8) : Drive :=
  if l.isFeed then .feed else if l = .duplex then .duplex else if l.isDeliver then .delivery
  else if ∃ j : Fin 8, j ≤ i ∧ (((d.way l)[j.val]?).any fun y => d.roleOf y == some .registration) = true then .process
  else .feed

/-- The items before the first that fails `p`, of a list that holds none twice. -/
theorem mem_takeWhile_iff {α : Type} {p : α → Bool} {x : α} : ∀ {l : List α} {i : Nat}, l.Nodup → l[i]? = some x →
    (x ∈ l.takeWhile p ↔ ∀ j ≤ i, ∀ y, l[j]? = some y → p y = true)
  | [], i, _, h => by simp at h
  | a :: l, 0, hn, h => by
    obtain rfl : a = x := by simpa using h
    have := (List.nodup_cons.mp hn).1
    by_cases ha : p a = true
    · simp [ha]
    · simp [ha]
  | a :: l, i + 1, hn, h => by
    obtain ⟨notin, hn⟩ := List.nodup_cons.mp hn
    have h : l[i]? = some x := by simpa using h
    have ne : x ≠ a := by rintro rfl; exact notin (List.mem_of_getElem? h)
    by_cases ha : p a = true
    · rw [List.takeWhile_cons_of_pos ha, List.mem_cons, or_iff_right ne, mem_takeWhile_iff hn h]
      refine ⟨fun all j hj y hy => ?_, fun all j hj y hy => all (j + 1) (by omega) y (by simpa using hy)⟩
      cases j with
      | zero =>
        obtain rfl : a = y := by simpa using hy
        exact ha
      | succ j => exact all j (by omega) y (by simpa using hy)
    · rw [List.takeWhile_cons_of_neg ha]
      exact ⟨fun m => (List.not_mem_nil m).elim, fun all => absurd (all 0 (by omega) a rfl) ha⟩

/-- A station's place asks for the drive its leg asks for. -/
theorem Desc.placeDrive_eq (sound : ∀ l, d.legSound l) {l : LegName} {i : Fin 8} {st : Fin 24} (h : (d.way l)[i.val]? = some st) :
    d.placeDrive st = d.asksDrive l i := by
  have here : st ∈ d.way l := List.mem_of_getElem? h
  have elsewhere : ∀ m : LegName, m ≠ l → ¬ (m.isDeliver = true ∧ l.isDeliver = true) → st ∉ d.way m := fun m hm hd =>
    (sound l).apart m hm hd st here
  have all : ∀ m : LegName, m ∈ allLegs := fun m => by cases m <;> decide
  have feeds : (allLegs.any fun m => m.isFeed && (d.stationsOf m).contains st) = true ↔ l.isFeed = true := by
    simp only [List.any_eq_true, Bool.and_eq_true, List.contains_iff_mem, d.stationsOf_eq]
    constructor
    · rintro ⟨m, -, hm, mem⟩
      by_contra hl
      refine elsewhere m (by rintro rfl; exact hl hm) (fun both => ?_) mem
      revert hm both
      cases m <;> simp [LegName.isFeed, LegName.isDeliver]
    · exact fun hl => ⟨l, all l, hl, here⟩
  have only : ∀ m : LegName, m.isDeliver = false → ((d.stationsOf m).contains st = true ↔ l = m) := fun m hm => by
    rw [List.contains_iff_mem, d.stationsOf_eq]
    exact ⟨fun mem => by_contra fun ne => elsewhere m (Ne.symm ne) (by simp [hm]) mem, fun e => e ▸ here⟩
  have early : d.beforeRegistration.contains st = true → l = .main := fun m =>
    (only .main rfl).mp (List.contains_iff_mem.mpr (List.takeWhile_subset _ (List.contains_iff_mem.mp m)))
  unfold Desc.placeDrive Desc.asksDrive
  simp only [Bool.or_eq_true, feeds, only .main rfl, only .duplex rfl]
  by_cases hf : l.isFeed = true
  · simp [hf]
  by_cases hm : l = .main
  · subst hm
    have before : d.beforeRegistration.contains st = true ↔
        ¬ ∃ j : Fin 8, j ≤ i ∧ (((d.way .main)[j.val]?).any fun y => d.roleOf y == some .registration) = true := by
      rw [List.contains_iff_mem, Desc.beforeRegistration, d.stationsOf_eq, mem_takeWhile_iff (sound .main).once h]
      simp only [bne_iff_ne, Option.any_eq_true, beq_iff_eq]
      exact ⟨fun hall ⟨j, hj, y, hy, r⟩ => hall j.val hj y hy r,
        fun none j hj y hy r => none ⟨⟨j, lt_of_le_of_lt hj i.isLt⟩, hj, y, hy, r⟩⟩
    rw [if_neg hf, if_neg (show LegName.main ≠ .duplex by decide), if_neg (show ¬ LegName.main.isDeliver = true by decide), if_pos rfl]
    by_cases reg : ∃ j : Fin 8, j ≤ i ∧ (((d.way .main)[j.val]?).any fun y => d.roleOf y == some .registration) = true
    · rw [if_neg (by rw [before]; exact fun h => h.elim hf fun no => no reg), if_pos reg, if_neg (by decide)]
    · rw [if_pos (.inr (before.mpr reg)), if_neg reg, if_neg (by decide)]
  · rw [if_neg (by simpa [hf] using fun e => hm (early e)), if_neg hm, if_neg hf]
    by_cases hx : l = .duplex
    · rw [if_pos hx, if_pos hx]
    · rw [if_neg hx, if_neg hx, if_pos]
      revert hf hm hx
      cases l <;> simp [LegName.isFeed, LegName.isDeliver]

/-- Check 4, where the checks before it pass. -/
theorem Desc.driveMismatch_iff (fit : d.legsInRange) (sound : ∀ l, d.legSound l) (inLeg : ∀ st, d.inLeg st) :
    d.driveMismatch = some detail ↔ ∃ st : Fin 24, firstFailing (List.finRange 24) d.driveFits st ∧ detail = st.val := by
  have fits : ∀ st, d.driveFits st ↔ ∀ x ∈ d.stations[st], ∀ (l : LegName) (i : Fin 8), (d.way l)[i.val]? = some st →
      x.drive = d.asksDrive l i := fun st => Iff.rfl
  unfold Desc.driveMismatch
  refine search_map_iff (fun st _ => ?_) Fin.val
  rw [Bool.and_eq_true, bne_iff_ne, fits, Desc.driveOf]
  cases hx : d.stations[st] with
  | none => simp
  | some x =>
    simp only [Option.isSome_some, Option.map_some, ne_eq, Option.some.injEq, Option.mem_def, forall_eq', true_and]
    refine not_congr ⟨fun e l i h => e.trans (Desc.placeDrive_eq sound h), fun h => ?_⟩
    obtain ⟨l, mem⟩ := inLeg st (by rw [hx]; rfl)
    obtain ⟨i, hi⟩ := List.mem_iff_getElem?.mp mem
    have lt : i < 8 := by
      obtain ⟨lt, -⟩ := List.getElem?_eq_some_iff.mp hi
      have := Desc.leg_fits fit l
      simp only [Desc.way, List.length_map] at lt
      omega
    exact (h l ⟨i, lt⟩ hi).trans (Desc.placeDrive_eq (i := ⟨i, lt⟩) sound hi).symm

/-! ## 5: lines (R17) -/

/-- One role at most names an input line. -/
def Desc.oneInput (d : Desc) (i : Fin 32) : Prop := ∀ r ∈ allInputRoles, ∀ r' ∈ allInputRoles, d.lineOf r = some i → d.lineOf r' = some i → r = r'

/-- One role at most names an output line. -/
def Desc.oneOutput (d : Desc) (o : Fin 24) : Prop :=
  ∀ r ∈ allOutputRoles, ∀ r' ∈ allOutputRoles, d.outLineOf r = some o → d.outLineOf r' = some o → r = r'

theorem conflict_iff {α β : Type} [DecidableEq β] {l : List α} (hl : l.Nodup) (f : α → Option β) (i : β) :
    decide (2 ≤ l.countP fun r => f r == some i) = true ↔ ¬ ∀ r ∈ l, ∀ r' ∈ l, f r = some i → f r' = some i → r = r' := by
  rw [decide_eq_true_iff, two_le_countP_iff hl]
  push Not
  simp only [beq_iff_eq]
  exact ⟨fun ⟨a, ha, b, hb, ne, pa, pb⟩ => ⟨a, ha, b, hb, pa, pb, ne⟩, fun ⟨a, ha, b, hb, pa, pb, ne⟩ => ⟨a, ha, b, hb, ne, pa, pb⟩⟩

/-- Check 5. -/
theorem Desc.lineConflict_iff (d : Desc) : d.lineConflict = some detail ↔
    (∃ i : Fin 32, firstFailing (List.finRange 32) d.oneInput i ∧ detail = i.val) ∨
      allPass (List.finRange 32) d.oneInput ∧ ∃ o : Fin 24, firstFailing (List.finRange 24) d.oneOutput o ∧ detail = 0x80 + o.val := by
  have inputs : allInputRoles.Nodup := by decide
  have outputs : allOutputRoles.Nodup := by decide
  have lines := search_map_iff (detail := detail) (l := List.finRange 24)
    (fun o _ => conflict_iff outputs d.outLineOf o) (fun o => 0x80 + o.val)
  refine Iff.trans ?_ (or_congr Iff.rfl (and_congr Iff.rfl lines))
  unfold Desc.lineConflict
  refine Iff.trans ?_ (search_iff (l := List.finRange 32) (fun i _ => conflict_iff inputs d.lineOf i) Fin.val _)
  cases (List.finRange 32).find? fun i => decide (2 ≤ allInputRoles.countP fun r => d.lineOf r == some i) <;> rfl

/-! ## 6: areas (R17) -/

/-- Check 6. -/
theorem Desc.areaUncovered_iff (d : Desc) : d.areaUncovered = some detail ↔
    (∃ a : Fin 8, firstFailing (List.finRange 8) d.exposed a ∧ detail = a.val) ∨
      allPass (List.finRange 8) d.exposed ∧ (∀ i : Fin 8, ∀ y ∈ d.doors[i], y.finisher = false) ∧ detail = 8 := by
  have area : ∀ a : Fin 8, d.uncoveredArea a = true ↔ ¬ d.exposed a := fun a => by
    have names : ((List.finRange 24).any fun (st : Fin 24) => (d.stations[st]).any fun x => x.area == a) = true ↔
        ∃ st : Fin 24, ∃ x ∈ d.stations[st], x.area = a := by simp [Option.any_eq_true]
    have exposes : ((List.finRange 8).any fun (i : Fin 8) => (d.doors[i]).any fun x => x.areas.getLsbD a.val) = true ↔
        ∃ i : Fin 8, ∃ y ∈ d.doors[i], y.areas.getLsbD a.val = true := by simp [Option.any_eq_true]
    rw [Desc.uncoveredArea, Bool.and_eq_true, names, Bool.not_eq_true', ← Bool.not_eq_true, exposes, Desc.exposed, Classical.not_imp]
  have last : (if (List.finRange 8).any fun (i : Fin 8) => (d.doors[i]).any DoorDef.finisher then none else some 8) = some detail ↔
      (∀ i : Fin 8, ∀ y ∈ d.doors[i], y.finisher = false) ∧ detail = 8 := by
    have none : ((List.finRange 8).any fun (i : Fin 8) => (d.doors[i]).any DoorDef.finisher) = true ↔
        ¬ ∀ i : Fin 8, ∀ y ∈ d.doors[i], y.finisher = false := by
      push Not
      simp [Option.any_eq_true]
    rw [Option.ite_none_left_eq_some, none, not_not, Option.some.injEq, eq_comm (a := 8)]
  rw [← last]
  unfold Desc.areaUncovered
  refine Iff.trans ?_ (search_iff (l := List.finRange 8) (fun a _ => area a) Fin.val _)
  cases (List.finRange 8).find? d.uncoveredArea <;> rfl

/-! ## The six checks in turn -/

/-- What check 1 leaves where it passes: one station holds each sole role. -/
theorem Desc.holding_of_missingItem (h : d.missingItem = none) {r : Role} (hr : r ∈ soleRoles) : d.holding r = 1 := by
  unfold Desc.missingItem at h
  split at h
  · cases h
  · split at h
    · cases h
    · split at h
      · cases h
      · split at h
        · cases h
        · exact (d.roleFault_none r).mp (List.findSome?_eq_none_iff.mp h r hr)

/-- What check 2 leaves where it passes. -/
theorem Desc.sound_of_legShape (h : d.legShape = none) : (∀ l, d.legSound l) ∧ ∀ st, d.inLeg st := by
  have all : ∀ m : LegName, m ∈ allLegs := fun m => by cases m <;> decide
  have fits : ∀ l ∈ allLegs, (!d.legFits l) = true ↔ ¬ d.legSound l := fun l _ => by rw [← d.legFits_iff]; simp
  unfold Desc.legShape at h
  split at h
  · cases h
  · next legs =>
    have stations := (find_eq_none_iff (l := List.finRange 24) fun st _ => d.inLeg_iff st).mp (Option.map_eq_none_iff.mp h)
    exact ⟨fun l => (find_eq_none_iff fits).mp legs l (all l), fun st => stations st (List.mem_finRange st)⟩

/-- The result of each check, by its place. -/
def Desc.check (d : Desc) (i : Nat) : Option Nat :=
  [d.missingItem, d.legShape, d.deliverPrefix, d.driveMismatch, d.lineConflict, d.areaUncovered][i]?.join

/-- The first result of a list, with its place. -/
theorem findSome_zipIdx_iff {k e : Nat} : ∀ (l : List (Option Nat)) (n : Nat),
    (l.zipIdx n).findSome? (fun x => x.1.map fun detail => (x.2 + 1, detail)) = some (k, e) ↔
      ∃ i, k = n + i + 1 ∧ l[i]?.join = some e ∧ ∀ j < i, l[j]?.join = none
  | [], n => by simp
  | none :: l, n => by
    rw [List.zipIdx_cons, List.findSome?_cons_of_isNone (by simp), findSome_zipIdx_iff l (n + 1)]
    constructor
    · rintro ⟨i, hk, he, all⟩
      refine ⟨i + 1, by omega, he, fun j hj => ?_⟩
      cases j with
      | zero => rfl
      | succ j => exact all j (by omega)
    · rintro ⟨i, hk, he, all⟩
      cases i with
      | zero => cases he
      | succ i => exact ⟨i, by omega, he, fun j hj => all (j + 1) (by omega)⟩
  | some x :: l, n => by
    rw [List.zipIdx_cons, List.findSome?_cons_of_isSome (by simp)]
    constructor
    · intro h
      obtain ⟨rfl, rfl⟩ : n + 1 = k ∧ x = e := by simpa using h
      exact ⟨0, rfl, rfl, fun j hj => absurd hj (Nat.not_lt_zero j)⟩
    · rintro ⟨i, hk, he, all⟩
      cases i with
      | zero =>
        obtain rfl : x = e := by simpa using he
        simp [hk]
      | succ i => cases all 0 (by omega)

theorem Desc.badPath_iff {k e : Nat} : d.badPath = some (k, e) ↔ ∃ i, k = i + 1 ∧ d.check i = some e ∧ ∀ j < i, d.check j = none := by
  have first := findSome_zipIdx_iff (k := k) (e := e)
    [d.missingItem, d.legShape, d.deliverPrefix, d.driveMismatch, d.lineConflict, d.areaUncovered] 0
  simp only [Nat.zero_add] at first
  exact first

theorem Desc.badPath_none_iff : d.badPath = none ↔ ∀ i, d.check i = none := by
  constructor
  · intro h i
    obtain ⟨h₁, h₂, h₃, h₄, h₅, h₆⟩ := Desc.checks_of_badPath h
    unfold Desc.check
    rw [h₁, h₂, h₃, h₄, h₅, h₆]
    match i with
    | 0 | 1 | 2 | 3 | 4 | 5 => rfl
    | _ + 6 => rfl
  · intro h
    refine Option.eq_none_iff_forall_not_mem.mpr fun x hx => ?_
    obtain ⟨i, -, he, -⟩ := Desc.badPath_iff.mp hx
    rw [h i] at he
    cases he

/-- Each check is what `fails` says, where the checks before it pass. -/
theorem Desc.check_iff (fit : d.legsInRange) (i : Nat) (passed : ∀ j < i, d.check j = none) :
    d.check i = some detail ↔ fails d (i + 1) detail := by
  have gate : 1 ≤ i → d.holding .purgeGate = 1 := fun h => Desc.holding_of_missingItem (passed 0 h) (by decide)
  have shape : 2 ≤ i → (∀ l, d.legSound l) ∧ ∀ st, d.inLeg st := fun h => Desc.sound_of_legShape (passed 1 h)
  match i with
  | 0 => exact d.missingItem_iff
  | 1 => exact d.legShape_iff
  | 2 => exact Desc.deliverPrefix_iff fit (gate (by decide)) (shape (by decide)).1
  | 3 => exact Desc.driveMismatch_iff fit (shape (by decide)).1 (shape (by decide)).2
  | 4 => exact d.lineConflict_iff
  | 5 => exact d.areaUncovered_iff
  | _ + 6 => simp [Desc.check, fails]

theorem fails_pos {k e : Nat} (h : fails d k e) : ∃ i, k = i + 1 := by
  cases k with
  | zero => exact h.elim
  | succ i => exact ⟨i, rfl⟩

/-- The first checks pass exactly where none of them fails. -/
theorem Desc.passed_iff (fit : d.legsInRange) (n : Nat) : (∀ j < n, d.check j = none) ↔ ∀ k, k < n + 1 → ∀ e, ¬ fails d k e := by
  induction n with
  | zero => exact ⟨fun _ k hk e h => by obtain ⟨i, rfl⟩ := fails_pos h; omega, fun _ j hj => absurd hj (Nat.not_lt_zero j)⟩
  | succ n ih =>
    constructor
    · intro h k hk e he
      have before := fun j hj => h j (Nat.lt_succ_of_lt hj)
      rcases Nat.lt_succ_iff_lt_or_eq.mp hk with hk | rfl
      · exact ih.mp before k hk e he
      · have := (Desc.check_iff fit n before).mpr he
        rw [h n (Nat.lt_succ_self n)] at this
        cases this
    · intro h j hj
      have before := ih.mpr fun k hk => h k (by omega)
      rcases Nat.lt_succ_iff_lt_or_eq.mp hj with hj | rfl
      · exact before j hj
      · exact Option.eq_none_iff_forall_not_mem.mpr fun e he => h (j + 1) (by omega) e ((Desc.check_iff fit j before).mp he)

/-- PATH CLOSE's verdict is the first check that fails. -/
theorem Desc.badPath_fails (fit : d.legsInRange) (reason detail : Nat) :
    d.badPath = some (reason, detail) ↔ fails d reason detail ∧ ∀ k, k < reason → ∀ e, ¬ fails d k e := by
  rw [Desc.badPath_iff]
  constructor
  · rintro ⟨i, rfl, he, before⟩
    exact ⟨(Desc.check_iff fit i before).mp he, (Desc.passed_iff fit i).mp before⟩
  · rintro ⟨he, before⟩
    obtain ⟨i, rfl⟩ := fails_pos he
    have before := (Desc.passed_iff fit i).mpr before
    exact ⟨i, rfl, (Desc.check_iff fit i before).mpr he, before⟩

theorem Desc.badPath_passes (fit : d.legsInRange) : d.badPath = none ↔ ∀ k e, ¬ fails d k e := by
  rw [Desc.badPath_none_iff]
  exact ⟨fun h k => (Desc.passed_iff fit k).mp (fun j _ => h j) k (Nat.lt_succ_self k),
    fun h i => (Desc.passed_iff fit (i + 1)).mpr (fun k _ => h k) i (Nat.lt_succ_self i)⟩

/-! ## The detail byte -/

theorem leg_detail_lt (l : LegName) : 0x20 + l.pos.val < 256 := by have := l.pos.isLt; omega

theorem missing_lt (h : missing d detail) : detail < 256 := by
  unfold missing at h
  split at h
  · omega
  · split at h
    · omega
    · rcases h with ⟨i, -, rfl⟩ | ⟨-, ⟨l, -, rfl⟩ | ⟨-, r, -, h⟩⟩
      · omega
      · exact leg_detail_lt l
      · split at h
        · have : r.ctorIdx < 16 := by cases r <;> decide
          omega
        · obtain ⟨st, -, rfl, -⟩ := h
          omega

/-- Every detail is a byte. -/
theorem Desc.check_lt {i : Nat} (h : d.check i = some detail) : detail < 256 := by
  match i, h with
  | 0, h => exact missing_lt (d.missingItem_iff.mp h)
  | 1, h =>
    rcases d.legShape_iff.mp h with ⟨l, -, rfl⟩ | ⟨-, st, -, rfl⟩
    · exact leg_detail_lt l
    · omega
  | 2, h =>
    change d.deliverPrefix = some detail at h
    unfold Desc.deliverPrefix at h
    split at h
    · next l _ => exact Option.some.inj h ▸ leg_detail_lt l
    · obtain ⟨st, -, rfl⟩ := Option.map_eq_some_iff.mp h
      omega
  | 3, h =>
    change d.driveMismatch = some detail at h
    obtain ⟨st, -, rfl⟩ := Option.map_eq_some_iff.mp h
    omega
  | 4, h =>
    rcases d.lineConflict_iff.mp h with ⟨i, -, rfl⟩ | ⟨-, o, -, rfl⟩
    · omega
    · omega
  | 5, h =>
    rcases d.areaUncovered_iff.mp h with ⟨a, -, rfl⟩ | ⟨-, -, rfl⟩
    · omega
    · omega
  | _ + 6, h => simp [Desc.check] at h

theorem Desc.check_place {i : Nat} (h : d.check i = some detail) : i < 6 := by
  by_contra hi
  have : [d.missingItem, d.legShape, d.deliverPrefix, d.driveMismatch, d.lineConflict, d.areaUncovered][i]? = none :=
    List.getElem?_eq_none (Nat.not_lt.mp hi)
  rw [Desc.check, this] at h
  cases h

/-- Settles O8. -/
theorem pathCloseChecked : Obligations.PathCloseChecked := by
  refine ⟨fun w p t reason detail hs hr hb => ?_, fun d fit => ⟨Desc.badPath_fails fit, Desc.badPath_passes fit⟩⟩
  obtain ⟨i, rfl, he, -⟩ := Desc.badPath_iff.mp hb
  have place := Desc.check_place he
  have byte := Desc.check_lt he
  refine ⟨⟨by omega, by omega⟩, ?_⟩
  have hd : (p.found t 0x0A []).definable = true := (Part.definable_of hr : p.definable = true)
  have hb : (p.found t 0x0A []).stored.badPath = some (i + 1, detail) := hb
  have asked : answerFrame ⟨0x0A, []⟩ (p.found t 0x0A []) = (p.found t 0x0A []).answerPathClose := rfl
  have taken : (p.found t 0x0A []).answerPathClose = ⟨p.found t 0x0A [], .badPath, bytesOf 1 (i + 1) ++ bytesOf 1 detail⟩ := by
    rw [Part.answerPathClose, if_pos hd, hb]
  rw [bytesOf_one (by omega), bytesOf_one byte] at taken
  exact exec_unchanged (c := .pathClose t []) (s := ⟨w, p⟩) rfl hs .badPath _ (asked.trans taken)

end Sys2Proof.Machine
end

