-- ==== Sys2Proof/Proofs/Concluded.lean ====
section
/-! PROOF. What the end of an event does: the transmitter's turn (R177), and the judgements without a page to bind. -/

namespace Sys2Proof.Machine

variable {s t u : Part} {q : Mode}

/-! ## An event of its own -/

/-- An event whose operation leaves the tick, the Link Unit, both descriptions and the mask alone. -/
theorem Part.event_passes_of {p : Part} {t : Tick} {g : Part → Part} (tick : (g (p.advance t)).tick = laterOf p.tick t)
    (link : (g (p.advance t)).link = p.link) (stored : (g (p.advance t)).stored = p.stored) (force : (g (p.advance t)).force = p.force)
    (mask : (g (p.advance t)).mask = p.mask) : p.passesTo t (p.event t g) ∧ (p.event t g).lines = (g (p.advance t)).lines := by
  obtain ⟨htick, hlines, hstored, hforce, hmask⟩ := (g (p.advance t)).conclude_same
  obtain ⟨receiver, queue, fault, timer⟩ := (g (p.advance t)).conclude_received
  rw [link] at receiver queue fault timer
  exact ⟨⟨htick.trans tick, hstored.trans stored, hforce.trans force, hmask.trans mask, receiver, queue, fault, timer⟩, hlines⟩

theorem Part.event_passes {p : Part} {t : Tick} {g : Part → Part} (m : Moves .inner .settled (p.advance t) .settled (g (p.advance t))) :
    p.passesTo t (p.event t g) ∧ (p.event t g).lines = p.lines := by
  obtain ⟨tick, lines, link, stored, force, mask⟩ := m.inner_eq
  obtain ⟨passes, e⟩ := Part.event_passes_of (p := p) (t := t) (g := g) tick link stored force mask
  exact ⟨passes, e.trans lines⟩

theorem completes_next {c : Instr} {w : List Instr} {p q : Part} {φ : Part → Prop} (h : exec c ⟨w, p⟩ = .next ⟨w, q⟩) (hφ : φ q) :
    Completes c ⟨w, p⟩ φ := ⟨_, h, rfl, hφ⟩

/-! ## The transmitter's turn (R177) -/

/-- Slots stand, but for those freed: closed and balanced ones (R37). -/
def Part.frees (s t : Part) : Prop :=
  ∀ i : Fin 8, t.intake.slots[i] = s.intake.slots[i] ∨
    (t.intake.slots[i] = none ∧ ∃ x, s.intake.slots[i] = some x ∧ x.closed = true ∧ x.accepted = x.delivered + x.abandoned)

theorem Part.frees_of (h : t.intake.slots = s.intake.slots) : s.frees t := fun i => .inl (by rw [h])

theorem Part.frees.trans (h : s.frees t) (k : t.frees u) : s.frees u := fun i => by
  rcases k i with e | ⟨gone, x, hx, closed, balanced⟩
  · rw [e]
    exact h i
  · rcases h i with e | ⟨none, -⟩
    · exact .inr ⟨gone, x, e ▸ hx, closed, balanced⟩
    · rw [none] at hx
      cases hx

theorem Part.examineSlot_frees (s : Part) (i : Fin 8) : s.frees (s.examineSlot i) := by
  unfold Part.examineSlot
  split
  · exact Part.frees_of rfl
  · next x hx =>
    split
    · next h =>
      obtain ⟨closed, balanced, -⟩ := h
      intro j
      by_cases hj : i = j
      · subst hj
        exact .inr ⟨by simp, x, hx, closed, balanced⟩
      · exact .inl (Vector.getElem_set_ne i.isLt j.isLt fun e => hj (Fin.ext e))
    · exact Part.frees_of rfl

/-- The transmitter's own part of its turn: notices withdrawn, a call gone, a slot freed, the spoil count back at 0. -/
structure Part.serves (s t : Part) : Prop where
  via : Via [.link, .notices, .calls, .intake, .gate] s t
  queues : t.intake.normal = s.intake.normal ∧ t.intake.priority = s.intake.priority
  count : t.gate.purgeCount = s.gate.purgeCount ∧ t.gate.purgeFull = s.gate.purgeFull
  calls : s.calls.queue = [] → t.calls = s.calls
  slots : s.frees t
  gone : (callsOf t).Subperm (callsOf s)

theorem Part.serves.refl (s : Part) : s.serves s := ⟨.refl s, ⟨rfl, rfl⟩, ⟨rfl, rfl⟩, fun _ => rfl, Part.frees_of rfl, .refl _⟩

theorem Part.serves.trans (h : s.serves t) (k : t.serves u) : s.serves u :=
  ⟨h.via.trans k.via, ⟨k.queues.1.trans h.queues.1, k.queues.2.trans h.queues.2⟩,
    ⟨k.count.1.trans h.count.1, k.count.2.trans h.count.2⟩, fun none =>
      (k.calls (by rwa [h.calls none])).trans (h.calls none), h.slots.trans k.slots, k.gone.trans h.gone⟩

theorem Part.serves_modLink (s : Part) (g : Link → Link) : s.serves (s.modLink g) :=
  ⟨(Via.refl s).link g rfl, ⟨rfl, rfl⟩, ⟨rfl, rfl⟩, fun _ => rfl, Part.frees_of rfl, .refl _⟩

theorem Part.serves_modNotices (s : Part) (g : Notices → Notices) : s.serves (s.modNotices g) :=
  ⟨(Via.refl s).notices g rfl, ⟨rfl, rfl⟩, ⟨rfl, rfl⟩, fun _ => rfl, Part.frees_of rfl, .refl _⟩

theorem Part.serves_modCalls (g : Calls → Calls) (h : s.calls.queue ≠ []) (hu : (callsOf (s.modCalls g)).Subperm (callsOf s)) :
    s.serves (s.modCalls g) :=
  ⟨(Via.refl s).calls g rfl, ⟨rfl, rfl⟩, ⟨rfl, rfl⟩, fun none => absurd none h, Part.frees_of rfl, hu⟩

/-- A call that has gone leaves the others unsent. -/
theorem Calls.unsent_gone {x : Calls} {c : Call} {rest : List Call} (h : x.queue = c :: rest) (k : Nat) :
    ((promote k { x with queue := rest }).queue ++ (promote k { x with queue := rest }).deferred).Subperm (x.queue ++ x.deferred) := by
  refine (promote_perm k { x with queue := rest }).1.subperm.trans (List.Sublist.subperm ?_)
  rw [h]
  exact List.sublist_cons_self ..

theorem Part.serves.unsent (h : s.serves t) : t.calls.unsent ≤ s.calls.unsent := by
  have length := h.gone.length_le
  unfold callsOf at length
  rwa [List.length_append, List.length_append] at length

theorem Part.serves_spoilCount (s : Part) : s.serves (s.modGate fun g => { g with spoilCount := 0 }) :=
  ⟨(Via.refl s).gate _ rfl, ⟨rfl, rfl⟩, ⟨rfl, rfl⟩, fun _ => rfl, Part.frees_of rfl, .refl _⟩

theorem Part.serves_examineSlot (s : Part) (i : Fin 8) : s.serves (s.examineSlot i) := by
  have slots := s.examineSlot_frees i
  rw [s.examineSlot_eq] at slots ⊢
  exact ⟨(Via.refl s).intake _ rfl, ⟨rfl, rfl⟩, ⟨rfl, rfl⟩, fun _ => rfl, slots, .refl _⟩

/-- What the transmitter's choice leaves: the part served, with the Feed Scheduler judged where a call has gone. -/
def Part.turnsTo (s t : Part) : Prop := s.serves t ∨ ∃ u, s.serves u ∧ u.judgeFeed = t

theorem Part.turnsTo_of_ite {b : Prop} [Decidable b] {f : Frame} {g : Notices → Notices} {c : Choice}
    (h : (if b then some (notice f (s.modNotices g)) else none) = some c) : s.turnsTo c.part := by
  rw [Option.ite_none_right_eq_some] at h
  exact Option.some.inj h.2 ▸ .inl (s.serves_modNotices g)

theorem Part.turnsTo_of_map {α : Type} {o : Option α} {f : α → Frame} {g : α → Notices → Notices}
    {c : Choice} (h : (o.map fun x => notice (f x) (s.modNotices (g x))) = some c) : s.turnsTo c.part := by
  obtain ⟨x, -, rfl⟩ := Option.map_eq_some_iff.mp h
  exact .inl (s.serves_modNotices (g x))

theorem Part.chooseCall_turnsTo {c : Choice} (h : s.chooseCall = some c) : s.turnsTo c.part := by
  unfold Part.chooseCall at h
  split at h
  · cases h
  · next c rest hq =>
    obtain rfl := Option.some.inj h
    exact .inr ⟨_, Part.serves_modCalls (fun x => promote x.deferred.length { x with queue := rest }) (by simp [hq])
      (Calls.unsent_gone hq _), rfl⟩

theorem Part.chooseJam_turnsTo {c : Choice} (h : s.chooseJam = some c) : s.turnsTo c.part := by
  unfold Part.chooseJam at h
  split at h
  · cases h
  · next x rest _ =>
    obtain rfl := Option.some.inj h
    exact .inl (s.serves_modNotices fun n => { n with jams := rest })

theorem Part.chooseSpoil_turnsTo {c : Choice} (h : s.chooseSpoil = some c) : s.turnsTo c.part := by
  obtain ⟨x, -, rfl⟩ := Option.map_eq_some_iff.mp h
  exact .inl ((s.serves_modNotices _).trans (Part.serves_spoilCount _))

theorem Part.chooseProgress_turnsTo {c : Choice} (h : s.chooseProgress = some c) : s.turnsTo c.part := by
  unfold Part.chooseProgress at h
  simp only [Option.bind_eq_some_iff, Option.map_eq_some_iff] at h
  obtain ⟨i, -, x, -, rfl⟩ := h
  exact .inl ((s.serves_modNotices _).trans (Part.serves_examineSlot ..))

theorem Part.selectors_turnTo {f : Part → Option Choice} (hf : f ∈ selectors.tail) {c : Choice} (hc : f s = some c) : s.turnsTo c.part := by
  simp only [selectors, List.tail_cons, List.mem_cons, List.not_mem_nil, or_false] at hf
  rcases hf with rfl | rfl | rfl | rfl | rfl | rfl | rfl | rfl | rfl | rfl | rfl | rfl | rfl | rfl | rfl | rfl | rfl | rfl | rfl
  · exact Part.chooseCall_turnsTo hc
  · exact Part.chooseJam_turnsTo hc
  · exact Part.turnsTo_of_ite hc
  · exact Part.turnsTo_of_ite hc
  · exact Part.turnsTo_of_map hc
  · exact Part.chooseSpoil_turnsTo hc
  · exact Part.turnsTo_of_map hc
  · exact Part.chooseProgress_turnsTo hc
  · exact Part.turnsTo_of_map hc
  · exact Part.turnsTo_of_map hc
  · exact Part.turnsTo_of_ite hc
  · exact Part.turnsTo_of_map hc
  · exact Part.turnsTo_of_map hc
  · exact Part.turnsTo_of_map hc
  · exact Part.turnsTo_of_map hc
  · exact Part.turnsTo_of_ite hc
  · exact Part.turnsTo_of_ite hc
  · exact Part.turnsTo_of_ite hc
  · exact Part.turnsTo_of_ite hc

/-- The transmitter's turn: the part served, with the Feed Scheduler judged once at most on the way. -/
theorem Part.conclude_turns (s : Part) : s.serves s.conclude ∨ ∃ u, s.serves u ∧ u.judgeFeed.serves s.conclude := by
  unfold Part.conclude
  split
  · exact .inl (.refl s)
  · split
    · exact .inl (.refl s)
    · next c hc =>
      have chosen : s.turnsTo c.part := by
        rcases s.select_cases hc with ⟨f, rest, -, rfl⟩ | ⟨-, f, hf, hc⟩
        · exact .inl (s.serves_modLink fun l => { l with replies := rest })
        · exact Part.selectors_turnTo hf hc
      rcases chosen with h | ⟨u, h, e⟩
      · exact .inl (h.trans (Part.serves_modLink ..))
      · exact .inr ⟨u, h, e ▸ Part.serves_modLink ..⟩

/-- What a property of the part keeps through the transmitter's turn, which serving and the judgement of the Feed Scheduler keep. -/
theorem Part.conclude_keeps {φ : Part → Prop} (hs : φ s) (serves : ∀ {s t}, φ s → s.serves t → φ t)
    (feed : ∀ {s}, φ s → φ s.judgeFeed) : φ s.conclude := by
  rcases s.conclude_turns with h | ⟨u, h, k⟩
  · exact serves hs h
  · exact serves (feed (serves hs h)) k

/-- In the path states without a pick to make the transmitter serves alone. -/
theorem Part.conclude_serves (hi : s.feed.path ≠ .idle) (hr : s.feed.path ≠ .running) (hd : s.feed.path ≠ .draining) :
    s.serves s.conclude := by
  rcases s.conclude_turns with h | ⟨u, h, k⟩
  · exact h
  · have e := h.via.feed_eq rfl
    rw [u.judgeFeed_still (by rwa [e]) (by rwa [e]) (by rwa [e])] at k
    exact h.trans k

/-! ## The judgements at the end of an event -/

/-- Outside HELD no clearance is judged. -/
theorem Part.judgeClearance_still (h : s.feed.path ≠ .held) : s.judgeClearance = s := by
  unfold Part.judgeClearance
  rw [if_neg]
  intro ready
  simp only [Part.autoSweepReady, Bool.and_eq_true, beq_iff_eq] at ready
  exact h ready.1.1.1

/-- The diverters and the Compile Set judged. -/
def Part.judgeSet (s : Part) : Part := s.judgeGates.judgeFinisher

theorem Part.judge_eq (s : Part) : s.judge = s.judgeSet.judgeClearance.judgeFeed := rfl

theorem Part.judgeSet_via (s : Part) : Via [.notices, .intake, .out, .finisher, .stats, .dry] s s.judgeSet :=
  ((Part.judgeGates_via s).mono rfl).andThen (Part.judgeFinisher_via _) rfl

theorem Part.judgeSet_intake (s : Part) : s.judgeSet.intake = s.intake :=
  (Part.judgeFinisher_intake _).trans (s.judgeGates_via.intake_eq rfl)

theorem Part.judge_unheld (h : s.feed.path ≠ .held) : s.judge = s.judgeSet.judgeFeed := by
  rw [Part.judge_eq, Part.judgeClearance_still (by rwa [s.judgeSet_via.feed_eq rfl])]

theorem Part.judgeExitGate_out (s : Part) : ∃ b, s.judgeExitGate.out = { s.out with exitGate := b } := by
  unfold Part.judgeExitGate
  split
  · split
    · exact ⟨_, rfl⟩
    · exact ⟨_, rfl⟩
  · exact ⟨_, rfl⟩

theorem Part.judgePurgeGate_out (s : Part) : ∃ b, s.judgePurgeGate.out = { s.out with purgeGate := b } := by
  unfold Part.judgePurgeGate
  split
  · split
    · exact ⟨_, rfl⟩
    · exact ⟨_, rfl⟩
  · exact ⟨_, rfl⟩

/-- The outputs that are the Feed Scheduler's: the drives, the clutches, the class presented. -/
def Outputs.fed (o : Outputs) : Outputs := { o.still with exitGate := false, purgeGate := false }

theorem Part.judgeGates_out (s : Part) : s.judgeGates.out.fed = s.out.fed := by
  obtain ⟨b, e⟩ := s.judgeExitGate.judgePurgeGate_out
  obtain ⟨c, k⟩ := s.judgeExitGate_out
  rw [Part.judgeGates, e, k]
  rfl

theorem Outputs.fed_of_still {o p : Outputs} (h : o.still = p.still) : o.fed = p.fed :=
  congrArg (fun o => { o with exitGate := false, purgeGate := false }) h

theorem Part.judgeSet_out (s : Part) : s.judgeSet.out.fed = s.out.fed :=
  (Outputs.fed_of_still (Part.judgeFinisher_out _)).trans s.judgeGates_out

/-! ## Without a page to bind -/

theorem Part.nextUp_noPages (h : s.noPages) : s.nextUp = none := by
  obtain ⟨normal, priority, list⟩ := h
  have empty : ∀ x : Queue, s.intake.queue x = [] := fun x => by cases x <;> assumption
  simp [Part.nextUp, list, empty]

/-- The selector turned, if at all. -/
theorem Part.judgeSelector_eq (s : Part) : s.judgeSelector = s.modFeed fun f => { f with selector := s.activeQueue } := by
  have turned : ∃ x, s.judgeSelector = s.modFeed fun f => { f with selector := x } := by
    unfold Part.judgeSelector
    split
    · split <;> split <;> exact ⟨_, rfl⟩
    · exact ⟨_, rfl⟩
  obtain ⟨x, e⟩ := turned
  have sel := s.judgeSelector_selector
  rw [e] at sel
  obtain rfl : x = s.activeQueue := sel
  exact e

/-- The active queue is not one to turn from. -/
theorem Part.activeQueue_stays (s : Part) :
    ¬ (s.planner.list = [] ∧ s.activeQueue = .normal ∧ s.feed.normalMark = true ∧ s.intake.priority ≠ []) ∧
      ¬ (s.planner.list = [] ∧ s.activeQueue = .priority ∧ s.feed.priorityMark = true ∧ s.intake.priority = []) := by
  unfold Part.activeQueue
  cases s.feed.selector with
  | normal =>
    constructor
    · rintro ⟨list, e, mark, pages⟩
      rw [if_pos ⟨list, rfl, mark, pages⟩] at e
      cases e
    · rintro ⟨-, e, -, none⟩
      rw [if_neg fun h => h.2.2.2 none, if_neg (by simp)] at e
      cases e
  | priority =>
    constructor
    · rintro ⟨-, e, -, pages⟩
      rw [if_neg (by simp), if_neg fun h => pages h.2.2.2] at e
      cases e
    · rintro ⟨list, e, mark, none⟩
      rw [if_neg (by simp), if_pos ⟨list, rfl, mark, none⟩] at e
      cases e

/-- Judging the selector once more changes nothing. -/
theorem Part.judgeSelector_activeQueue (s : Part) : s.judgeSelector.activeQueue = s.activeQueue := by
  obtain ⟨normal, priority⟩ := s.activeQueue_stays
  rw [s.judgeSelector_eq]
  show (if s.planner.list = [] ∧ s.activeQueue = .normal ∧ s.feed.normalMark = true ∧ s.intake.priority ≠ [] then Queue.priority
    else if s.planner.list = [] ∧ s.activeQueue = .priority ∧ s.feed.priorityMark = true ∧ s.intake.priority = [] then .normal
    else s.activeQueue) = s.activeQueue
  rw [if_neg normal, if_neg priority]

/-- What the queues, the Reprint List, the selector and the marks say of the page to bind, serving does not change. -/
theorem Part.serves.activeQueue_eq (h : s.serves t) : t.activeQueue = s.activeQueue := by
  unfold Part.activeQueue
  rw [h.via.planner_eq rfl, h.via.feed_eq rfl, h.queues.2]

theorem Part.serves.nextUp_eq (h : s.serves t) : t.nextUp = s.nextUp := by
  have queue : ∀ x : Queue, t.intake.queue x = s.intake.queue x := fun x => by
    cases x
    · exact h.queues.1
    · exact h.queues.2
  unfold Part.nextUp
  rw [h.via.planner_eq rfl, h.activeQueue_eq, queue]

theorem Part.judgeSelector_nextUp (s : Part) : s.judgeSelector.nextUp = s.nextUp := by
  unfold Part.nextUp
  rw [s.judgeSelector_activeQueue, s.judgeSelector_lists.1, s.judgeSelector_lists.2]

/-- The start conditions, once the selector is judged (R44). -/
abbrev Part.starts (s : Part) : Prop :=
  s.nextUp.isSome = true ∧ s.feed.hold = false ∧ s.anyDoorOpen = false ∧ s.finisher.state ≠ .faulted ∧ s.finisher.state ≠ .retained ∧
    s.feed.exhausted = false

theorem Part.startReady_iff (s : Part) : s.judgeSelector.startReady = true ↔ s.starts := by
  have e := s.judgeSelector_via
  have hold := s.judgeSelector_shifts.feed_eq Feed.hold
  have numbers := s.judgeSelector_shifts.feed_eq Feed.exhausted
  have door : s.judgeSelector.anyDoorOpen = s.anyDoorOpen := by rw [s.judgeSelector_eq]; rfl
  simp only [Part.startReady, Part.starts, s.judgeSelector_nextPage, hold, numbers, e.finisher_eq rfl, door, Bool.and_eq_true,
    Bool.not_eq_true', bne_iff_ne, and_assoc]

theorem Part.judgeFeed_unstarted (hp : s.feed.path = .idle) (h : ¬ s.starts) : s.judgeFeed = s.judgeSelector := by
  rw [Part.judgeFeed_idle hp]
  exact if_neg (mt s.startReady_iff.mp h)

/-- In DRAINING without the return conditions (R47). -/
abbrev Part.returns (s : Part) : Prop :=
  s.feed.hold = false ∧ s.feed.exhausted = false ∧ s.nextUp.any (fun n => n.front.cls == s.feed.cls) = true

theorem Part.returnHolds_iff (s : Part) : s.judgeSelector.returnHolds = true ↔ s.returns := by
  have hold := s.judgeSelector_shifts.feed_eq Feed.hold
  have numbers := s.judgeSelector_shifts.feed_eq Feed.exhausted
  have cls := s.judgeSelector_shifts.feed_eq Feed.cls
  simp only [Part.returnHolds, Part.returns, s.judgeSelector_nextPage, hold, numbers, cls, Bool.and_eq_true, Bool.not_eq_true', and_assoc]

theorem Part.judgeFeed_draining (hp : s.feed.path = .draining) (h : ¬ s.returns) : s.judgeFeed = s.judgeSelector := by
  unfold Part.judgeFeed
  rw [hp]
  exact if_neg (mt s.returnHolds_iff.mp h)

/-- Where nothing starts and nothing returns, the Feed Scheduler's judgement turns the selector at most. -/
def Part.waiting (s : Part) : Prop := s.feed.path = .idle ∧ ¬ s.starts ∨ s.feed.path = .draining ∧ ¬ s.returns

theorem Part.judgeFeed_waiting (h : s.waiting) : s.judgeFeed = s.judgeSelector := by
  rcases h with ⟨hp, h⟩ | ⟨hp, h⟩
  · exact Part.judgeFeed_unstarted hp h
  · exact Part.judgeFeed_draining hp h

theorem Part.serves.starts_iff (h : s.serves t) : t.starts ↔ s.starts := by
  have door : t.anyDoorOpen = s.anyDoorOpen := by
    unfold Part.anyDoorOpen Part.doorIsOpen Part.levelOf
    rw [h.via.force_eq rfl, h.via.lines_eq rfl]
  unfold Part.starts
  rw [h.nextUp_eq, h.via.feed_eq rfl, h.via.finisher_eq rfl, door]

theorem Part.serves.returns_iff (h : s.serves t) : t.returns ↔ s.returns := by
  unfold Part.returns
  rw [h.nextUp_eq, h.via.feed_eq rfl]

theorem Part.judgeSelector_starts (s : Part) : s.judgeSelector.starts ↔ s.starts := by
  have door : s.judgeSelector.anyDoorOpen = s.anyDoorOpen := by rw [s.judgeSelector_eq]; rfl
  unfold Part.starts
  rw [s.judgeSelector_nextUp, s.judgeSelector_shifts.feed_eq Feed.hold, s.judgeSelector_shifts.feed_eq Feed.exhausted, door,
    s.judgeSelector_via.finisher_eq rfl]

theorem Part.judgeSelector_returns (s : Part) : s.judgeSelector.returns ↔ s.returns := by
  unfold Part.returns
  rw [s.judgeSelector_nextUp, s.judgeSelector_shifts.feed_eq Feed.hold, s.judgeSelector_shifts.feed_eq Feed.exhausted,
    s.judgeSelector_shifts.feed_eq Feed.cls]

/-- Served, with the selector turned at most. -/
structure Part.turnsSelector (s t : Part) : Prop where
  via : Via [.link, .notices, .calls, .intake, .gate, .feed] s t
  queues : t.intake.normal = s.intake.normal ∧ t.intake.priority = s.intake.priority
  count : t.gate.purgeCount = s.gate.purgeCount ∧ t.gate.purgeFull = s.gate.purgeFull
  feed : t.feed = s.feed ∨ t.feed = { s.feed with selector := s.activeQueue }

/-- An end of an event where nothing starts and nothing returns. -/
theorem Part.conclude_waiting (h : s.waiting) : s.turnsSelector s.conclude := by
  rcases s.conclude_turns with k | ⟨u, k, j⟩
  · exact ⟨k.via.mono rfl, k.queues, k.count, .inl (k.via.feed_eq rfl)⟩
  · have waits : u.waiting := by
      rcases h with ⟨hp, h⟩ | ⟨hp, h⟩
      · exact .inl ⟨by rwa [k.via.feed_eq rfl], by rwa [k.starts_iff]⟩
      · exact .inr ⟨by rwa [k.via.feed_eq rfl], by rwa [k.returns_iff]⟩
    rw [Part.judgeFeed_waiting waits, u.judgeSelector_eq] at j
    refine ⟨((k.via.mono rfl).feed _ rfl).trans (j.via.mono rfl), ⟨j.queues.1.trans k.queues.1, j.queues.2.trans k.queues.2⟩,
      ⟨j.count.1.trans k.count.1, j.count.2.trans k.count.2⟩, .inr ?_⟩
    rw [j.via.feed_eq rfl, Part.modFeed_feed, k.via.feed_eq rfl, k.activeQueue_eq]

/-- Judged and served where nothing starts and nothing returns: the selector names the active queue. -/
theorem Part.waiting_ends (h : s.waiting) : s.judgeFeed.conclude.feed = { s.feed with selector := s.activeQueue } ∧
    Via [.link, .notices, .calls, .intake, .gate, .feed] s s.judgeFeed.conclude ∧
    s.judgeFeed.conclude.intake.normal = s.intake.normal ∧ s.judgeFeed.conclude.intake.priority = s.intake.priority ∧
    s.judgeFeed.conclude.gate.purgeCount = s.gate.purgeCount ∧ s.judgeFeed.conclude.gate.purgeFull = s.gate.purgeFull := by
  rw [Part.judgeFeed_waiting h]
  have waits : s.judgeSelector.waiting := by
    rcases h with ⟨hp, h⟩ | ⟨hp, h⟩
    · exact .inl ⟨(Part.judgeSelector_path s).trans hp, by rwa [s.judgeSelector_starts]⟩
    · exact .inr ⟨(Part.judgeSelector_path s).trans hp, by rwa [s.judgeSelector_returns]⟩
  have k := Part.conclude_waiting waits
  have active := s.judgeSelector_activeQueue
  have feed : s.judgeSelector.feed = { s.feed with selector := s.activeQueue } := by rw [s.judgeSelector_eq]; rfl
  have lists := s.judgeSelector_lists.2
  refine ⟨?_, ((s.judgeSelector_via).mono rfl).trans k.via, k.queues.1.trans (congrArg Intake.normal lists),
    k.queues.2.trans (congrArg Intake.priority lists), k.count.1.trans (by rw [s.judgeSelector_via.gate_eq rfl]), k.count.2.trans (by rw [s.judgeSelector_via.gate_eq rfl])⟩
  rcases k.feed with e | e
  · exact e.trans feed
  · rw [e, feed, active]

end Sys2Proof.Machine
end

