-- ==== Sys2Proof/Proofs/FeedTimed.lean ====
section
/-! PROOF. The timers of the Feed Scheduler (O44) and its own steps PATH_START and DRAIN_RETURN (O45). -/

namespace Sys2Proof.Machine

variable {s t u : Part}

theorem Part.anyDoorOpen_of (hf : t.force = s.force) (hl : t.lines = s.lines) : t.anyDoorOpen = s.anyDoorOpen := by
  unfold Part.anyDoorOpen Part.doorIsOpen Part.levelOf
  rw [hf, hl]

/-- What the end of an event finds where its operation leaves the scheduler waiting. -/
theorem Part.judge_waiting (h : s.judgeSet.waiting) : s.judge.conclude.feed = { s.feed with selector := s.activeQueue } ∧
    Via [.link, .notices, .calls, .intake, .gate, .feed, .out, .finisher, .stats, .dry] s s.judge.conclude ∧
    s.judge.conclude.intake.normal = s.intake.normal ∧ s.judge.conclude.intake.priority = s.intake.priority ∧
    s.judge.conclude.out.fed = s.out.fed := by
  have held : s.feed.path ≠ .held := by
    rw [← s.judgeSet_via.feed_eq rfl]
    rcases h with ⟨hp, -⟩ | ⟨hp, -⟩ <;> rw [hp] <;> decide
  rw [Part.judge_unheld held]
  obtain ⟨feed, via, normal, priority, -⟩ := Part.waiting_ends h
  have active : s.judgeSet.activeQueue = s.activeQueue := by
    unfold Part.activeQueue
    rw [s.judgeSet_via.planner_eq rfl, s.judgeSet_via.feed_eq rfl, s.judgeSet_intake]
  rw [active, s.judgeSet_via.feed_eq rfl] at feed
  refine ⟨feed, (s.judgeSet_via.mono rfl).trans (via.mono rfl), ?_, ?_, ?_⟩
  · rw [normal, s.judgeSet_intake]
  · rw [priority, s.judgeSet_intake]
  · rw [via.out_eq rfl, s.judgeSet_out]

theorem Part.judgeSet_noPages (h : s.noPages) : s.judgeSet.noPages := by
  unfold Part.noPages
  rwa [s.judgeSet_intake, s.judgeSet_via.planner_eq rfl]

theorem Part.returns_noPages (h : s.noPages) : ¬ s.returns := by
  rintro ⟨-, -, any⟩
  rw [Part.nextUp_noPages h] at any
  cases any

theorem Part.starts_noPages (h : s.noPages) : ¬ s.starts := by
  rintro ⟨any, -⟩
  rw [Part.nextUp_noPages h] at any
  cases any

theorem exec_expiry {c : Instr} {g : Part → Part} {timer : Part → Option Tick} {w : List Instr} {p : Part} {d : Tick}
    (h : ∀ s : State, exec c s = s.takes fun p => p.expiry (timer p) g) (hd : timer p = some d) :
    exec c ⟨w, p⟩ = .next ⟨w, p.event d g⟩ := by
  rw [h]
  show Host.Outcome.next (State.mk w (p.expiry (timer p) g)) = _
  rw [hd]
  rfl

theorem exec_idleTimer {c : Instr} {g : Part → Part} {timer : Part → Option Tick} {w : List Instr} {p : Part}
    (h : ∀ s : State, exec c s = s.takes fun p => p.expiry (timer p) g) (hd : timer p = none) :
    exec c ⟨w, p⟩ = .next ⟨w, p⟩ := by
  rw [h]
  show Host.Outcome.next (State.mk w (p.expiry (timer p) g)) = _
  rw [hd]
  rfl

/-! ## The holdoff (R46, R50) -/

/-- The holdoff's expiry in RUNNING without a page. -/
theorem starvationHoldoff_drains {w : List Instr} {p : Part} {d : Tick} (hd : p.feed.holdoff = some d) (hp : p.feed.path = .running)
    (none : p.noPages) : Completes .starvationHoldoffExpiry ⟨w, p⟩ fun q =>
      p.passesTo d q ∧ q.lines = p.lines ∧ q.feed.path = .draining ∧ q.feed.holdoff = .none ∧ q.feed.pickTimer = .none ∧
      q.table = p.table ∧ (p.table.sheets = [] →
        q.feed.runOn = some (plusTicks q.tick ((p.force.drive.map DriveSet.runOn).getD 0))) := by
  refine completes_next (exec_expiry (g := Part.starve) (timer := fun p => p.feed.holdoff) (fun _ => rfl) hd) ?_
  obtain ⟨passes, lines⟩ := Part.event_passes (p := p) (t := d) (g := Part.starve) (Part.starve_moves _)
  have drained : (p.advance d).starve = (((p.advance d).modFeed fun f => { f with holdoff := .none }).enterDraining).judge := if_pos hp
  generalize he : ((p.advance d).modFeed fun f => { f with holdoff := .none }).enterDraining = s at drained
  have feed := he ▸ Part.enterDraining_feed ((p.advance d).modFeed fun f => { f with holdoff := .none })
  have via : Via [.notices, .feed] ((p.advance d).modFeed fun f => { f with holdoff := .none }) s := he ▸ Part.enterDraining_via _
  have noPages : s.noPages := by
    unfold Part.noPages
    rw [via.intake_eq rfl, via.planner_eq rfl]
    exact none
  have waits : s.judgeSet.waiting := .inr ⟨by rw [s.judgeSet_via.feed_eq rfl, feed], Part.returns_noPages (Part.judgeSet_noPages noPages)⟩
  obtain ⟨ends, kept, -⟩ := Part.judge_waiting waits
  have q : p.event d Part.starve = s.judge.conclude := congrArg Part.conclude drained
  rw [q] at passes lines ⊢
  refine ⟨passes, lines, ?_, ?_, ?_, ?_, fun empty => ?_⟩
  · rw [ends, feed]
  · rw [ends, feed]
  · rw [ends, feed]
  · rw [kept.table_eq rfl, via.table_eq rfl]
    rfl
  · have tick : s.judge.conclude.tick = (p.advance d).tick := passes.1
    rw [ends, feed, tick]
    exact if_pos (List.isEmpty_iff.mpr empty)

/-! ## The ramp (R45) -/

theorem Part.makePick_ramp (s : Part) (n : NextPage) : (s.makePick n).feed.ramp = s.feed.ramp := by
  obtain ⟨m, e⟩ := s.pickCore_feed n
  rw [Part.makePick_feed, e]
  exact (Feed.bound_kept ..).2.1

/-- What RUNNING and DRAINING judged leaves alone. -/
theorem Part.judgeFeed_moving_via (h : s.feed.path = .running ∨ s.feed.path = .draining) :
    Via [.notices, .calls, .intake, .feed, .out, .table, .planner, .finisher, .stats, .dry] s s.judgeFeed := by
  unfold Part.judgeFeed
  rcases h with h | h <;> rw [h]
  · exact s.judgeRunning_via
  · exact s.judgeDraining_via

theorem Part.feeds.ramp_eq (h : s.feeds t) : t.feed.ramp = s.feed.ramp := by
  rcases h with h | ⟨u, n, h, -, k⟩
  · exact h.feed_eq Feed.ramp
  · rw [k.feed_eq Feed.ramp, u.makePick_ramp, h.feed_eq Feed.ramp]

/-- The path moves sheets, or is about to. -/
def Part.onTheMove (s : Part) : Prop := s.feed.path = .running ∨ s.feed.path = .draining

theorem Part.onTheMove.ne_idle (h : s.onTheMove) : s.feed.path ≠ .idle := by
  rcases h with h | h <;> rw [h] <;> decide

theorem Part.onTheMove.ne_held (h : s.onTheMove) : s.feed.path ≠ .held := by
  rcases h with h | h <;> rw [h] <;> decide

/-- The end of an event that leaves the path RUNNING or DRAINING. -/
theorem Part.judge_onTheMove (h : s.onTheMove) : s.judge.conclude.onTheMove ∧ s.judge.conclude.feed.ramp = s.feed.ramp ∧
    s.judge.conclude.episode = s.episode := by
  rw [Part.judge_unheld h.ne_held]
  have feed := s.judgeSet_via.feed_eq rfl
  have judged : ∀ {t : Part}, t.onTheMove ∧ t.feed.ramp = s.feed.ramp ∧ t.episode = s.episode →
      t.judgeFeed.onTheMove ∧ t.judgeFeed.feed.ramp = s.feed.ramp ∧ t.judgeFeed.episode = s.episode := fun ⟨path, ramp, episode⟩ =>
    ⟨Part.judgeFeed_path path, (Part.judgeFeed_feeds path.ne_idle).ramp_eq.trans ramp,
      ((Part.judgeFeed_moving_via path).episode_eq rfl).trans episode⟩
  refine Part.conclude_keeps (φ := fun t => t.onTheMove ∧ t.feed.ramp = s.feed.ramp ∧ t.episode = s.episode)
    (judged ⟨?_, by rw [feed], s.judgeSet_via.episode_eq rfl⟩) (fun ⟨path, ramp, episode⟩ k => ⟨?_, ?_, ?_⟩) judged
  · rwa [Part.onTheMove, feed]
  · rwa [Part.onTheMove, k.via.feed_eq rfl]
  · rwa [k.via.feed_eq rfl]
  · rwa [k.via.episode_eq rfl]

/-- RUNNING with nothing to bind and nothing to drain for. -/
structure Part.starves (s : Part) : Prop where
  path : s.feed.path = .running
  pages : s.noPages
  hold : s.feed.hold = false
  numbers : s.feed.exhausted = false

theorem Part.starves.judgeFeed (h : s.starves) : s.judgeFeed.starves ∧ s.judgeFeed.table = s.table := by
  obtain ⟨path, pages, hold, numbers⟩ := h
  have next : s.judgeSelector.nextPage = none := by rw [s.judgeSelector_nextPage, Part.nextUp_noPages pages]
  have e : s.judgeFeed = s.judgeRunning := by unfold Part.judgeFeed; rw [path]
  have shifted : s.shifts s.judgeRunning ∧ s.judgeRunning.feed.path = .running := by
    rcases Part.judgeRunning_cases path with ⟨hd, -⟩ | ⟨-, v, -, k⟩ | ⟨-, n, hn, -⟩
    · simp [Part.drainHolds, next, s.judgeSelector_shifts.feed_eq Feed.hold, s.judgeSelector_shifts.feed_eq Feed.exhausted, hold,
        numbers] at hd
    · rw [k]
      exact ⟨(s.judgeSelector_shifts.trans (Part.judgeHoldoff_shifts _)).trans (Part.pickTimer_shifts ..),
        (Part.judgeSelector_path s).trans path⟩
    · have := hn.next
      rw [show s.judgeSelector.judgeHoldoff.nextPage = s.judgeSelector.nextPage from rfl, next] at this
      cases this
  rw [e]
  obtain ⟨shifted, running⟩ := shifted
  refine ⟨⟨running, ?_, ?_, ?_⟩, shifted.1.table_eq rfl⟩
  · unfold Part.noPages
    rwa [shifted.1.intake_eq rfl, shifted.1.planner_eq rfl]
  · rwa [shifted.feed_eq Feed.hold]
  · rwa [shifted.feed_eq Feed.exhausted]

theorem Part.starves.ends (h : s.starves) : s.judge.conclude.starves ∧ s.judge.conclude.table = s.table := by
  rw [Part.judge_unheld (by rw [h.path]; decide)]
  have feed := s.judgeSet_via.feed_eq rfl
  have judged : ∀ {t : Part}, t.starves ∧ t.table = s.table → t.judgeFeed.starves ∧ t.judgeFeed.table = s.table := fun ⟨h, table⟩ =>
    ⟨h.judgeFeed.1, h.judgeFeed.2.trans table⟩
  refine Part.conclude_keeps (φ := fun t => t.starves ∧ t.table = s.table) (judged ⟨⟨?_, Part.judgeSet_noPages h.pages, ?_, ?_⟩,
    s.judgeSet_via.table_eq rfl⟩) (fun ⟨h, table⟩ k => ⟨⟨?_, ?_, ?_, ?_⟩, ?_⟩) judged
  · rw [feed, h.path]
  · rw [feed, h.hold]
  · rw [feed, h.numbers]
  · rw [k.via.feed_eq rfl, h.path]
  · unfold Part.noPages
    rw [k.queues.1, k.queues.2, k.via.planner_eq rfl]
    exact h.pages
  · rw [k.via.feed_eq rfl, h.hold]
  · rw [k.via.feed_eq rfl, h.numbers]
  · rwa [k.via.table_eq rfl]

/-- The ramp's expiry in STARTING. -/
theorem rampTimer_runs {w : List Instr} {p : Part} {d : Tick} (hd : p.feed.ramp = some d) (hp : p.feed.path = .starting) :
    Completes .rampTimerExpiry ⟨w, p⟩ fun q =>
      p.passesTo d q ∧ q.lines = p.lines ∧ q.feed.ramp = none ∧ q.episode = p.episode ∧
      (q.feed.path = .running ∨ q.feed.path = .draining) ∧
      (p.noPages → p.feed.hold = false → p.feed.exhausted = false → q.feed.path = .running ∧ q.table = p.table) := by
  refine completes_next (exec_expiry (g := Part.rampDone) (timer := fun p => p.feed.ramp) (fun _ => rfl) hd) ?_
  obtain ⟨passes, lines⟩ := Part.event_passes (p := p) (t := d) (g := Part.rampDone) (Part.rampDone_moves _)
  have ran : (p.advance d).rampDone = (((p.advance d).modFeed fun f => { f with ramp := none }).setPath .running).judge := if_pos hp
  generalize he : ((p.advance d).modFeed fun f => { f with ramp := none }).setPath .running = s at ran
  have feed : s.feed = { p.feed with ramp := none, path := .running } := he ▸ Part.setPath_feed ..
  have via : Via [.notices, .feed] ((p.advance d).modFeed fun f => { f with ramp := none }) s := he ▸ Part.setPath_via ..
  have q : p.event d Part.rampDone = s.judge.conclude := congrArg Part.conclude ran
  rw [q] at passes lines ⊢
  obtain ⟨path, ramp, episode⟩ := Part.judge_onTheMove (s := s) (.inl (by rw [feed]))
  refine ⟨passes, lines, ?_, ?_, path, fun none hold numbers => ?_⟩
  · rw [ramp, feed]
  · rw [episode, via.episode_eq rfl]
    rfl
  · have starves : s.starves := by
      refine ⟨by rw [feed], ?_, by rw [feed]; exact hold, by rw [feed]; exact numbers⟩
      unfold Part.noPages
      rw [via.intake_eq rfl, via.planner_eq rfl]
      exact none
    obtain ⟨h, table⟩ := starves.ends
    refine ⟨h.path, ?_⟩
    rw [table, via.table_eq rfl]
    rfl

/-! ## The run-on (R47) -/

theorem Outputs.drives_of_fed {o r : Outputs} (h : o.fed = r.fed) (v : Bool) (k : r.drives v) : o.drives v := by
  obtain ⟨feed, process, duplex, delivery⟩ := k
  exact ⟨(congrArg Outputs.enFeed h).trans feed, (congrArg Outputs.enProcess h).trans process,
    (congrArg Outputs.enDuplex h).trans duplex, (congrArg Outputs.enDelivery h).trans delivery⟩

/-- The run-on's expiry in DRAINING where nothing starts the path again. -/
theorem runOnTimer_stops {w : List Instr} {p : Part} {d : Tick} (hd : p.feed.runOn = some d) (hp : p.feed.path = .draining)
    (stays : p.noPages ∨ p.feed.hold = true ∨ p.feed.exhausted = true ∨ p.anyDoorOpen = true) :
    Completes .runOnTimerExpiry ⟨w, p⟩ fun q =>
      p.passesTo d q ∧ q.lines = p.lines ∧ q.feed.path = .idle ∧ q.feed.runOn = none ∧ q.out.drives false ∧
      q.feed.normalMark = true ∧ q.feed.priorityMark = true ∧ q.feed.lastBound = none := by
  refine completes_next (exec_expiry (g := Part.runOnDone) (timer := fun p => p.feed.runOn) (fun _ => rfl) hd) ?_
  obtain ⟨passes, lines⟩ := Part.event_passes (p := p) (t := d) (g := Part.runOnDone)
    (Part.runOnDone_moves _ (by rw [show (p.advance d).feed.runOn = some d from hd]; rfl))
  have idle : (p.advance d).runOnDone = (((p.advance d).modFeed fun f => { f with runOn := none }).enterIdle).judge := if_pos hp
  generalize he : ((p.advance d).modFeed fun f => { f with runOn := none }).enterIdle = s at idle
  have feed := he ▸ Part.enterIdle_feed (s := (p.advance d).modFeed fun f => { f with runOn := none })
  have out := he ▸ Part.enterIdle_out (s := (p.advance d).modFeed fun f => { f with runOn := none })
  have via : Via [.notices, .feed, .out] ((p.advance d).modFeed fun f => { f with runOn := none }) s := he ▸ Part.enterIdle_via _
  have path : s.judgeSet.feed.path = .idle := by rw [s.judgeSet_via.feed_eq rfl, feed]
  have door : s.judgeSet.anyDoorOpen = p.anyDoorOpen := by
    refine Part.anyDoorOpen_of ?_ ?_
    · rw [s.judgeSet_via.force_eq rfl, via.force_eq rfl]
      rfl
    · rw [s.judgeSet_via.lines_eq rfl, via.lines_eq rfl]
      rfl
  have waits : s.judgeSet.waiting := .inl ⟨path, fun starts => by
    obtain ⟨page, hold, doors, -, -, numbers⟩ := starts
    rw [s.judgeSet_via.feed_eq rfl, feed] at hold numbers
    rcases stays with none | h | h | h
    · have noPages : s.noPages := by
        unfold Part.noPages
        rw [via.intake_eq rfl, via.planner_eq rfl]
        exact none
      rw [Part.nextUp_noPages (Part.judgeSet_noPages noPages)] at page
      cases page
    · exact absurd (h.symm.trans hold) (by decide)
    · exact absurd (h.symm.trans numbers) (by decide)
    · exact absurd ((h.symm.trans door.symm).trans doors) (by decide)⟩
  obtain ⟨ends, -, -, -, outs⟩ := Part.judge_waiting waits
  have q : p.event d Part.runOnDone = s.judge.conclude := congrArg Part.conclude idle
  rw [q] at passes lines ⊢
  refine ⟨passes, lines, ?_, ?_, Outputs.drives_of_fed outs false (by rw [out]; exact ⟨rfl, rfl, rfl, rfl⟩), ?_, ?_, ?_⟩ <;> rw [ends, feed]

/-- Settles O44. -/
theorem feedTimers : Obligations.FeedTimers := fun _ _ _ =>
  ⟨starvationHoldoff_drains, rampTimer_runs, runOnTimer_stops,
    exec_idleTimer (g := fun p => (p.modFeed fun f => { f with pickTimer := none }).judge) (timer := fun p => p.feed.pickTimer) (fun _ => rfl),
    exec_idleTimer (g := Part.starve) (timer := fun p => p.feed.holdoff) (fun _ => rfl),
    exec_idleTimer (g := Part.rampDone) (timer := fun p => p.feed.ramp) (fun _ => rfl),
    exec_idleTimer (g := Part.runOnDone) (timer := fun p => p.feed.runOn) (fun _ => rfl)⟩

end Sys2Proof.Machine
end

