-- ==== Sys2Proof/Proofs/Recovered.lean ====
section
/-! PROOF. What a plan build, a sweep and the clearance judged leave (R125 to R141), and the end of an event in the path states without
a pick to make. -/

namespace Sys2Proof.Machine

variable {s t u : Part}

/-! ## The plan built (R136 to R141) -/

theorem insertEntry_perm (e : Entry) (l : List Entry) : (insertEntry e l).Perm (e :: l) := by
  unfold insertEntry
  refine List.perm_middle.trans (List.Perm.cons e ?_)
  rw [List.takeWhile_append_dropWhile]

theorem insertEntries_perm (reason : Reason) (pages : List Page) (l : List Entry) :
    (pages.foldl (fun l x => insertEntry ⟨x, reason⟩ l) l).Perm (l ++ pages.map (⟨·, reason⟩)) := by
  induction pages generalizing l with
  | nil => simp
  | cons x pages ih =>
    rw [List.foldl_cons, List.map_cons]
    exact (ih _).trans (((insertEntry_perm ⟨x, reason⟩ l).append_right _).trans List.perm_middle.symm)

theorem Part.planSheet_list (s : Part) (x : Sheet) :
    (s.planSheet x).planner.list.Perm (s.planner.list ++ x.pages.map (⟨·, .stranded⟩)) := by
  have e : (s.planSheet x).planner = (s.reprint .stranded x.pages).planner := (Part.removeSheet_via ..).planner_eq rfl
  rw [e]
  exact insertEntries_perm .stranded x.pages s.planner.list

theorem Part.planSheets_list (l : List Sheet) (s : Part) :
    (l.foldl Part.planSheet s).planner.list.Perm (s.planner.list ++ (l.flatMap Sheet.pages).map (⟨·, .stranded⟩)) := by
  induction l generalizing s with
  | nil => simp
  | cons x l ih =>
    rw [List.foldl_cons, List.flatMap_cons, List.map_append, ← List.append_assoc]
    exact (ih _).trans ((s.planSheet_list x).append_right _)

theorem Part.planSet_list (s : Part) : s.planSet.planner.list.Perm (s.planner.list ++
    if s.finisher.disturbed then (s.finisher.sheets.flatMap Held.pages).map (⟨·, .setRestart⟩) else []) := by
  unfold Part.planSet
  split
  · exact insertEntries_perm .setRestart _ s.planner.list
  · rw [List.append_nil]

theorem Part.planSheets_sheets (l : List Sheet) (s : Part) : (l.foldl Part.planSheet s).table.sheets =
    s.table.sheets.filter fun x => l.all fun y => x.number != y.number := by
  induction l generalizing s with
  | nil => simp
  | cons y l ih =>
    have one : (s.planSheet y).table.sheets = s.table.sheets.filter fun x => x.number != y.number := rfl
    rw [List.foldl_cons, ih, one, List.filter_filter]
    exact List.filter_congr fun x _ => by rw [List.all_cons, Bool.and_comm]

/-- With numbers apart, the sheets that share no number with a STRANDED one are those not STRANDED. -/
theorem filter_unstranded {l : List Sheet} (h : (l.map Sheet.number).Pairwise (· < ·)) :
    (l.filter fun x => (l.filter fun y => y.cond == .stranded).all fun y => x.number != y.number) = l.filter fun x => x.cond != .stranded := by
  have apart : ∀ x ∈ l, ∀ y ∈ l, x.number = y.number → x = y :=
    fun x hx y hy => List.inj_on_of_nodup_map (h.imp fun h => h.ne) hx hy
  refine List.filter_congr fun x hx => ?_
  rw [Bool.eq_iff_iff]
  simp only [List.all_eq_true, List.mem_filter, beq_iff_eq, bne_iff_ne, and_imp]
  constructor
  · exact fun all stranded => all x hx stranded rfl
  · exact fun hc y hy stranded e => hc (apart x hx y hy e ▸ stranded)

/-- What a plan build builds. -/
theorem Part.planBuild_builtPlan (hs : (s.table.sheets.map Sheet.number).Pairwise (· < ·)) : s.builtPlan s.planBuild := by
  let start := s.stopDrives.modEpisode fun e => { e with sweepTimer := none }
  have sheets : Via [.table, .stations, .planner, .dry] start ((s.table.sheets.filter fun x => x.cond == .stranded).foldl Part.planSheet start) :=
    Via.fold (.refl start) _ fun p x => p.planSheet_via x
  have revision : s.planBuild.planner.revision = s.planner.revision + 1 ∧ s.planBuild.planner.readThrough = false := by
    have planned : ∀ (l : List Sheet) (p : Part), (l.foldl Part.planSheet p).planner.revision = p.planner.revision := fun l p =>
      List.foldlRecOn l Part.planSheet (motive := fun q => q.planner.revision = p.planner.revision) rfl fun q hq x _ =>
        (congrArg Planner.revision ((Part.removeSheet_via (q.reprint .stranded x.pages) x.number).planner_eq rfl)).trans hq
    have set : ∀ p : Part, p.planSet.planner.revision = p.planner.revision := fun p => by
      unfold Part.planSet
      split <;> rfl
    unfold Part.planBuild
    dsimp only
    rw [(Part.notePlanReady_via _).planner_eq rfl, (Part.setPath_via ..).planner_eq rfl, Part.modPlanner_planner]
    refine ⟨?_, rfl⟩
    rw [(Part.planEmpty_via _).planner_eq rfl, set, planned]
    rfl
  refine ⟨by rw [Part.planBuild_feed], revision.1, revision.2, ?_, ?_, fun hd => ?_, by rw [Part.planBuild_feed], s.planBuild_calls,
    by rw [Part.planBuild_feed], ?_, by rw [Part.planBuild_episode]⟩
  · have disturbed : ∀ p : Part, p.finisher = s.finisher → p.planSet.planner.list.Perm (p.planner.list ++
        if s.finisher.disturbed then (s.finisher.sheets.flatMap Held.pages).map (⟨·, .setRestart⟩) else []) := fun p e => e ▸ p.planSet_list
    rw [Part.planBuild_list]
    refine (disturbed _ (sheets.finisher_eq rfl)).trans ?_
    exact (Part.planSheets_list _ start).append_right _
  · rw [congrArg Table.sheets s.planBuild_table, Part.planSheets_sheets]
    exact filter_unstranded hs
  · rw [Part.planBuild_finisher, if_pos hd]
  · rw [Part.planBuild_out]
    exact ⟨rfl, rfl, rfl, rfl⟩

/-- What was built is built of the planner, the table and the set alone. -/
theorem Part.builtPlan.of {p r q : Part} (h : r.builtPlan q) (planner : r.planner = p.planner) (table : r.table = p.table)
    (finisher : r.finisher = p.finisher) : p.builtPlan q := by
  unfold Part.builtPlan at h ⊢
  rwa [← planner, ← table, ← finisher]

theorem Part.builtPlan.serves {p q : Part} (h : p.builtPlan q) (k : q.serves t) : p.builtPlan t := by
  obtain ⟨path, revision, through, list, sheets, set, merge, calls, pick, drives, timer⟩ := h
  have hcalls : t.calls = q.calls := k.calls (by rw [calls])
  unfold Part.builtPlan
  rw [k.via.feed_eq rfl, k.via.planner_eq rfl, k.via.table_eq rfl, k.via.finisher_eq rfl, hcalls, k.via.out_eq rfl, k.via.episode_eq rfl]
  exact ⟨path, revision, through, list, sheets, set, merge, calls, pick, drives, timer⟩

/-! ## A sweep started (R128, R132) -/

theorem Part.startSweep_dry (hd : s.dry.on = true) : s.startSweep = (s.setPath .sweeping).planBuild := by
  unfold Part.startSweep
  dsimp only
  rw [(s.setPath_via .sweeping).dry_eq rfl, hd, if_pos rfl]

/-- What stands of the episode but for its sweep timer. -/
def Episode.recorded (e : Episode) : Episode := { e with sweepTimer := none }

/-- The Feed Scheduler but for what a plan build moves. -/
def Feed.planned (f : Feed) : Feed := { f with path := .idle, merge := [], unconfirmed := none }

/-- Covering entries stay as they are or go. -/
def Part.coversGo (s t : Part) : Prop := ∀ st : Fin 24, (t.stations[st]).cover = none ∨ (t.stations[st]).cover = (s.stations[st]).cover

theorem Part.coversGo_of (h : t.stations = s.stations) : s.coversGo t := fun st => .inr (by rw [h])

theorem Part.coversGo.trans (h : s.coversGo t) (k : t.coversGo u) : s.coversGo u := fun st => by
  rcases k st with e | e
  · exact .inl e
  · rw [e]
    exact h st

theorem Part.removeSheet_coversGo (s : Part) (n : Nat) : s.coversGo (s.removeSheet n) := fun st => by
  have row : (s.removeSheet n).stations[st] =
      if (s.stations[st]).cover.any (fun c => c.sheet == n) then { s.stations[st] with cover := none } else s.stations[st] :=
    Vector.getElem_map ..
  rw [row]
  split
  · exact .inl rfl
  · exact .inr rfl

theorem Part.planSheet_coversGo (s : Part) (x : Sheet) : s.coversGo (s.planSheet x) := by
  unfold Part.planSheet
  exact (Part.coversGo_of ((Part.reprint_via ..).stations_eq rfl)).trans (Part.removeSheet_coversGo _ _)

theorem Part.planBuild_coversGo (s : Part) : s.coversGo s.planBuild := by
  have sheets : ∀ (l : List Sheet) (p : Part), p.coversGo (l.foldl Part.planSheet p) := by
    intro l
    induction l with
    | nil => exact fun p => Part.coversGo_of rfl
    | cons x l ih =>
      intro p
      rw [List.foldl_cons]
      have first := p.planSheet_coversGo x
      generalize p.planSheet x = q at first ⊢
      exact first.trans (ih q)
  obtain ⟨r, hr⟩ : ∃ r : Part, s.stopDrives.modEpisode (fun e => { e with sweepTimer := none }) = r := ⟨_, rfl⟩
  have base : r.stations = s.stations := by rw [← hr, Part.modEpisode_stations, (Part.stopDrives_via s).stations_eq rfl]
  have built := s.planBuild_stations
  rw [hr] at built
  exact ((Part.coversGo_of base).trans (sheets _ r)).trans (Part.coversGo_of built)

/-- A sweep started, by the dry-run flag. -/
structure Part.sweeps (s t : Part) : Prop where
  via : Via [.notices, .calls, .feed, .out, .table, .stations, .episode, .planner, .finisher, .dry] s t
  episode : t.episode.recorded = s.episode.recorded
  feed : t.feed.planned = s.feed.planned
  clutch : t.out.clutch = s.out.clutch
  sheets : t.table.sheets.Sublist s.table.sheets
  covers : s.coversGo t
  course : if s.dry.on then t.feed.path = .resumable ∧ ((s.table.sheets.map Sheet.number).Pairwise (· < ·) → s.builtPlan t)
    else s.startedSweep s.tick t ∧ t.table = s.table ∧ t.planner = s.planner ∧ t.finisher = s.finisher ∧ t.stations = s.stations

theorem Part.planBuild_sheets (s : Part) : s.planBuild.table.sheets.Sublist s.table.sheets := by
  rw [congrArg Table.sheets s.planBuild_table, Part.planSheets_sheets]
  exact List.filter_sublist

theorem Part.startSweep_sweeps (s : Part) : s.sweeps s.startSweep := by
  have path := s.setPath_via .sweeping
  cases hd : s.dry.on with
  | true =>
    have e := Part.startSweep_dry hd
    refine ⟨Part.startSweep_via s, ?_, ?_, ?_, ?_, ?_, ?_⟩
    · rw [e, Part.planBuild_episode, path.episode_eq rfl]
      rfl
    · rw [e, Part.planBuild_feed, Part.setPath_feed]
      rfl
    · rw [e, Part.planBuild_out, path.out_eq rfl]
    · rw [e, ← path.table_eq rfl]
      exact Part.planBuild_sheets _
    · rw [e]
      exact (Part.coversGo_of (path.stations_eq rfl)).trans (Part.planBuild_coversGo _)
    · rw [if_pos hd, e]
      refine ⟨by rw [Part.planBuild_feed], fun hs => ?_⟩
      exact (Part.planBuild_builtPlan (by rwa [path.table_eq rfl])).of (path.planner_eq rfl) (path.table_eq rfl) (path.finisher_eq rfl)
  | false =>
    have e := s.startSweep_eq hd
    have feed : s.startSweep.feed = { s.feed with path := .sweeping } := by
      rw [e, Part.modEpisode_feed, (Part.runDrives_via _).feed_eq rfl, Part.modOut_feed, Part.setPath_feed]
    have out : s.startSweep.out = { s.out with presented := s.force.slowest, enFeed := true, enProcess := true, enDuplex := true, enDelivery := true } := by
      rw [e, Part.modEpisode_out, Part.runDrives, Part.modOut_out, Part.modOut_out, path.out_eq rfl]
    have episode : s.startSweep.episode =
        { s.episode with sweepTimer := some (plusTicks s.tick ((s.force.drive.map DriveSet.sweep).getD 0)) } := by
      rw [e, Part.modEpisode_episode, (Part.runDrives_via _).episode_eq rfl, Part.modOut_episode, path.episode_eq rfl]
    have table : s.startSweep.table = s.table := by
      rw [e, Part.modEpisode_table, (Part.runDrives_via _).table_eq rfl, Part.modOut_table, path.table_eq rfl]
    refine ⟨Part.startSweep_via s, ?_, ?_, ?_, ?_, ?_, ?_⟩
    · rw [episode]
      rfl
    · rw [feed]
      rfl
    · rw [out]
    · rw [table]
    · refine Part.coversGo_of ?_
      rw [e, Part.modEpisode_stations, (Part.runDrives_via _).stations_eq rfl, Part.modOut_stations, path.stations_eq rfl]
    · rw [if_neg (by rw [hd]; exact Bool.false_ne_true)]
      refine ⟨⟨by rw [feed], by rw [out], by rw [feed], by rw [out]; exact ⟨rfl, rfl, rfl, rfl⟩, by rw [episode]⟩, table, ?_, ?_, ?_⟩
      · rw [e, Part.modEpisode_planner, (Part.runDrives_via _).planner_eq rfl, Part.modOut_planner, path.planner_eq rfl]
      · rw [e, Part.modEpisode_finisher, (Part.runDrives_via _).finisher_eq rfl, Part.modOut_finisher, path.finisher_eq rfl]
      · rw [e, Part.modEpisode_stations, (Part.runDrives_via _).stations_eq rfl, Part.modOut_stations, path.stations_eq rfl]

/-! ## The end of an event with no pick to make -/

/-- The path states in which the Feed Scheduler judges nothing. -/
def PathState.rests (x : PathState) : Prop := x ≠ .idle ∧ x ≠ .running ∧ x ≠ .draining

theorem Part.judgeFeed_rests (h : s.feed.path.rests) : s.judgeFeed = s := Part.judgeFeed_still h.1 h.2.1 h.2.2

theorem Part.conclude_rests (h : s.feed.path.rests) : s.serves s.conclude := Part.conclude_serves h.1 h.2.1 h.2.2

theorem Part.sweeps.rests (h : s.sweeps t) : t.feed.path.rests := by
  have course := h.course
  split at course
  · rw [course.1]
    exact ⟨by decide, by decide, by decide⟩
  · rw [course.1.1]
    exact ⟨by decide, by decide, by decide⟩

/-- The end of an event in a path state without a pick to make: the set judged, and in HELD a sweep started where it is ready. -/
theorem Part.judge_rests (h : s.feed.path.rests) :
    s.judgeSet.autoSweepReady = false ∧ s.judgeSet.serves s.judge.conclude ∨
    s.judgeSet.autoSweepReady = true ∧ s.feed.path = .held ∧ ∃ t, s.judgeSet.sweeps t ∧ t.serves s.judge.conclude := by
  have feed := s.judgeSet_via.feed_eq rfl
  rw [Part.judge_eq]
  cases hr : s.judgeSet.autoSweepReady with
  | false =>
    have e : s.judgeSet.judgeClearance = s.judgeSet := if_neg (by rw [hr]; exact Bool.false_ne_true)
    have rests : s.judgeSet.feed.path.rests := by rwa [feed]
    rw [e, Part.judgeFeed_rests rests]
    exact .inl ⟨rfl, Part.conclude_rests rests⟩
  | true =>
    have e : s.judgeSet.judgeClearance = s.judgeSet.startSweep := if_pos hr
    have sweeps := s.judgeSet.startSweep_sweeps
    rw [e, Part.judgeFeed_rests sweeps.rests]
    have held : s.judgeSet.feed.path = .held := by
      simp only [Part.autoSweepReady, Bool.and_eq_true, beq_iff_eq] at hr
      exact hr.1.1.1
    exact .inr ⟨rfl, by rwa [feed] at held, _, sweeps, Part.conclude_rests sweeps.rests⟩

end Sys2Proof.Machine
end

