-- ==== Sys2Proof/Proofs/Jammed.lean ====
section
/-! PROOF. What a jam does: the opening of an episode, its extension, and what the end of the event leaves of them (R108 to R116). -/

namespace Sys2Proof.Machine

variable {s t u p : Part} {j : Jam}

/-! ## Areas (R115) -/

theorem areaSet_getLsbD {a : Option (Fin 9)} {b : Fin 9} (h : a = some b) : (areaSet a).getLsbD b.val = true := by
  subst h
  revert b
  decide

theorem Part.addAreas_areas (s : Part) (x : AreaSet) : (s.addAreas x).episode.areas = s.episode.areas ||| x := rfl

/-- Every area of `s` is one of `t`. -/
def Part.areasIn (s t : Part) : Prop := ∀ a : Fin 9, s.episode.areas.getLsbD a.val = true → t.episode.areas.getLsbD a.val = true

theorem Part.areasIn.trans (h : s.areasIn t) (k : t.areasIn u) : s.areasIn u := fun a ha => k a (h a ha)

theorem Part.areasIn_of (h : t.episode.areas = s.episode.areas) : s.areasIn t := fun _ ha => h ▸ ha

theorem Part.areasIn_addAreas (s : Part) (x : AreaSet) : s.areasIn (s.addAreas x) := fun a ha => by
  rw [s.addAreas_areas, BitVec.getLsbD_or, ha, Bool.true_or]

theorem Part.areasIn_addFinisherArea (s : Part) : s.areasIn s.addFinisherArea := by
  unfold Part.addFinisherArea
  split
  · exact s.areasIn_addAreas _
  · exact Part.areasIn_of rfl

/-- The jam's area is in the set. -/
def Part.hasArea (s : Part) (j : Jam) : Prop := ∀ a : Fin 9, j.area = some a → s.episode.areas.getLsbD a.val = true

theorem Part.hasArea.keep (h : s.hasArea j) (k : s.areasIn t) : t.hasArea j := fun a ha => k a (h a ha)

theorem Part.hasArea_addAreas (s : Part) (j : Jam) : (s.addAreas (areaSet j.area)).hasArea j := fun a ha => by
  rw [s.addAreas_areas, BitVec.getLsbD_or, areaSet_getLsbD ha, Bool.or_true]

/-! ## The opening (R109 to R111) -/

/-- The sheets an opening leaves: RUNNING OUT where they are of the run-out set, STRANDED otherwise. -/
theorem Part.opened_sheets (s : Part) (ns : List Nat) :
    ((s.makeRunOut ns).strand fun x => !ns.contains x.number).table.sheets =
      s.table.sheets.map fun x => Sheet.strandIf (fun x => !ns.contains x.number) (x.runOutIf ns) := List.map_map ..

theorem Sheet.opened_cond (ns : List Nat) (x : Sheet) :
    (Sheet.strandIf (fun x => !ns.contains x.number) (x.runOutIf ns)).cond = if ns.contains x.number then .runningOut else .stranded := by
  unfold Sheet.strandIf Sheet.runOutIf Sheet.moving
  by_cases h : ns.contains x.number = true
  · simp only [h, if_true]
    simp
  · rw [Bool.not_eq_true] at h
    simp only [h, Bool.not_false, Bool.and_true, Bool.false_eq_true, if_false]
    split
    · rfl
    · next hm => simpa using hm

theorem Part.openCore_opens (s : Part) (j : Jam) (extra : AreaSet) : ∃ ns : List Nat, (∀ n ∈ ns, ∃ x ∈ s.table.sheets, x.number = n) ∧
    (s.openCore j extra).table.sheets = s.table.sheets.map (fun x => Sheet.strandIf (fun x => !ns.contains x.number) (x.runOutIf ns)) ∧
    (s.openCore j extra).feed.path = if ns = [] then .held else .halting := by
  let opened := (s.modEpisode fun e => { e with
    number := e.number + 1, isOpen := true, firstKind := some j.kind, records := [j], overflow := 0, areas := extra,
    sweepTimer := none, barred := false }).feedOnEpisode
  refine ⟨opened.runOutSet j, ?_, ?_, ?_⟩
  · intro n hn
    unfold Part.runOutSet at hn
    split at hn
    · cases hn
    · obtain ⟨x, hx, rfl⟩ := List.mem_map.mp hn
      exact ⟨x, (List.takeWhile_sublist _).subset hx, rfl⟩
  · unfold Part.openCore
    dsimp only
    rw [(Part.halt_via ..).table_eq rfl, (Part.addFinisherArea_via _).table_eq rfl, (Part.addAreas_via ..).table_eq rfl,
      (Part.retain_via _).table_eq rfl, Part.opened_sheets]
    rfl
  · unfold Part.openCore
    dsimp only
    rw [Part.halt_feed]
    show (if !(opened.runOutSet j).isEmpty then PathState.halting else PathState.held) = _
    cases opened.runOutSet j <;> rfl

theorem Part.openCore_conds (s : Part) (j : Jam) (extra : AreaSet) :
    (∀ x ∈ (s.openCore j extra).table.sheets, x.cond = .runningOut ∨ x.cond = .stranded) ∧
    ((s.openCore j extra).feed.path = .halting ↔ ∃ x ∈ (s.openCore j extra).table.sheets, x.cond = .runningOut) := by
  obtain ⟨ns, named, sheets, path⟩ := s.openCore_opens j extra
  rw [sheets, path]
  constructor
  · intro x hx
    obtain ⟨y, -, rfl⟩ := List.mem_map.mp hx
    rw [Sheet.opened_cond]
    split
    · exact .inl rfl
    · exact .inr rfl
  · constructor
    · intro h
      obtain ⟨n, hn⟩ : ∃ n, n ∈ ns := List.exists_mem_of_ne_nil ns (by rintro rfl; cases h)
      obtain ⟨x, hx, rfl⟩ := named n hn
      refine ⟨_, List.mem_map_of_mem hx, ?_⟩
      rw [Sheet.opened_cond, if_pos (List.contains_iff_mem.mpr hn)]
    · rintro ⟨x, hx, hc⟩
      obtain ⟨y, -, rfl⟩ := List.mem_map.mp hx
      rw [Sheet.opened_cond] at hc
      split at hc
      · next h => exact if_neg (List.ne_nil_of_mem (List.contains_iff_mem.mp h))
      · cases hc

theorem Part.openEpisode_via_core (s : Part) (j : Jam) (extra : AreaSet) :
    Via [.notices, .stats] (s.openCore j extra) (s.openEpisode j extra) :=
  ((Part.noteRecord_via ..).mono rfl).andThen (Part.countPath_via ..) rfl

theorem Part.openCore_hasArea (s : Part) (j : Jam) (extra : AreaSet) : (s.openCore j extra).hasArea j := by
  unfold Part.openCore
  dsimp only
  exact ((Part.hasArea_addAreas _ j).keep (Part.areasIn_addFinisherArea _)).keep
    (Part.areasIn_of (congrArg Episode.areas ((Part.halt_via ..).episode_eq rfl)))

theorem Part.openEpisode_openedWith (s : Part) (j : Jam) (extra : AreaSet) : s.openedWith j (s.openEpisode j extra) := by
  obtain ⟨b, feed, out, episode⟩ := s.openCore_effect j extra
  obtain ⟨conds, path⟩ := s.openCore_conds j extra
  have via := s.openEpisode_via_core j extra
  unfold Part.openedWith Feed.timersIdle
  rw [via.episode_eq rfl, via.feed_eq rfl, via.out_eq rfl, via.table_eq rfl]
  refine ⟨(congrArg Episode.isOpen episode :), (congrArg Episode.number episode :), (congrArg Episode.firstKind episode :),
    (congrArg Episode.records episode :), (congrArg Episode.overflow episode :), ?_, ?_, ?_, ?_, conds, path⟩
  · rw [feed]
    exact ⟨rfl, rfl, rfl, rfl⟩
  · rw [feed]
  · rw [feed]
  · rw [out]

theorem Part.openEpisode_inEpisode (s : Part) (j : Jam) (extra : AreaSet) :
    (s.openEpisode j extra).feed.path = .halting ∨ (s.openEpisode j extra).feed.path = .held := by
  obtain ⟨ns, -, -, path⟩ := s.openCore_opens j extra
  rw [(s.openEpisode_via_core j extra).feed_eq rfl, path]
  split
  · exact .inr rfl
  · exact .inl rfl

theorem Part.openEpisode_hasArea (s : Part) (j : Jam) (extra : AreaSet) : (s.openEpisode j extra).hasArea j := by
  unfold Part.hasArea
  rw [(s.openEpisode_via_core j extra).episode_eq rfl]
  exact s.openCore_hasArea j extra

/-! ## A further jam (R113, R116) -/

theorem Part.extendedWith_of_recorded {q r : Part} (h : p.extendedWith j q) (e : r.episode.recorded = q.episode.recorded) :
    p.extendedWith j r := by
  obtain ⟨isOpen, number, firstKind, records⟩ := h
  refine ⟨(congrArg Episode.isOpen e :).trans isOpen, (congrArg Episode.number e :).trans number,
    (congrArg Episode.firstKind e :).trans firstKind, ?_⟩
  have hr : r.episode.records = q.episode.records := (congrArg Episode.records e :)
  have ho : r.episode.overflow = q.episode.overflow := (congrArg Episode.overflow e :)
  rw [hr, ho]
  exact records

theorem Part.extendedWith_of_core {q r : Part} (h : p.extendedWith j q) (number : r.episode.number = q.episode.number)
    (isOpen : r.episode.isOpen = q.episode.isOpen) (firstKind : r.episode.firstKind = q.episode.firstKind)
    (records : r.episode.records = q.episode.records) (overflow : r.episode.overflow = q.episode.overflow) : p.extendedWith j r := by
  obtain ⟨h₁, h₂, h₃, h₄⟩ := h
  unfold Part.extendedWith
  rw [number, isOpen, firstKind, records, overflow]
  exact ⟨h₁, h₂, h₃, h₄⟩

theorem Part.addRecord_extendedWith (s : Part) (j : Jam) : s.extendedWith j (s.addRecord j) := by
  unfold Part.extendedWith Part.addRecord
  dsimp only
  by_cases h : s.episode.records.length < 4
  · rw [if_pos (show (s.addAreas (areaSet j.area)).episode.records.length < Config.jamRecordSize from h), if_pos h]
    exact ⟨rfl, rfl, rfl, rfl, rfl⟩
  · rw [if_neg (show ¬ (s.addAreas (areaSet j.area)).episode.records.length < Config.jamRecordSize from h), if_neg h]
    split <;> exact ⟨rfl, rfl, rfl, rfl, rfl⟩

theorem Part.addRecord_hasArea (s : Part) (j : Jam) : (s.addRecord j).hasArea j := by
  have has := s.hasArea_addAreas j
  unfold Part.addRecord
  dsimp only
  split
  · exact has
  · split <;> exact has

theorem Part.strand_areasIn (s : Part) (f : Sheet → Bool) : s.areasIn (s.strand f) := by
  intro a ha
  unfold Part.strand
  rw [Part.addAreas_areas, BitVec.getLsbD_or, Bool.or_eq_true]
  left
  simpa only [Part.modDry_episode, Part.modStations_episode,
    (Part.raiseRevision_via _ _).episode_eq rfl, Part.modTable_episode] using ha

theorem Part.endHalting_path (s : Part) (h : s.feed.path = .halting) :
    s.endHalting.feed.path = .halting ∨ s.endHalting.feed.path = .held := by
  unfold Part.endHalting
  split
  · exact .inr (Part.setPath_path ..)
  · exact .inl h

/-- A jam in HALTING. -/
theorem Part.extendHalting_extends (s : Part) (j : Jam) (hp : s.feed.path = .halting) : s.extendedWith j (s.extendHalting j) ∧
    (s.extendHalting j).hasArea j ∧ ((s.extendHalting j).feed.path = .halting ∨ (s.extendHalting j).feed.path = .held) := by
  let f : Sheet → Bool := fun x => x.cond == .runningOut && (j.sheet.all fun n => decide (n ≤ x.number))
  have episode : (s.extendHalting j).episode = ((s.addRecord j).strand f).episode := (Part.endHalting_via _).episode_eq rfl
  refine ⟨?_, ?_, Part.endHalting_path _ ?_⟩
  · refine Part.extendedWith_of_core (s.addRecord_extendedWith j) ?_ ?_ ?_ ?_ ?_ <;> rw [episode] <;> rfl
  · exact ((s.addRecord_hasArea j).keep (Part.strand_areasIn _ f)).keep (Part.areasIn_of (congrArg Episode.areas episode))
  · rw [(Part.strand_via ..).feed_eq rfl, Part.addRecord_feed, hp]

theorem Part.abandonSweep_extends (s : Part) (j : Jam) (bar : Bool) : s.extendedWith j ((s.addRecord j).abandonSweep bar) ∧
    ((s.addRecord j).abandonSweep bar).hasArea j := by
  have episode : ((s.addRecord j).abandonSweep bar).episode =
      { (s.addRecord j).episode with sweepTimer := none, barred := (s.addRecord j).episode.barred || bar } := by
    unfold Part.abandonSweep
    rw [(Part.setPath_via ..).episode_eq rfl, (Part.stopDrives_via _).episode_eq rfl]
    rfl
  constructor
  · refine Part.extendedWith_of_core (s.addRecord_extendedWith j) ?_ ?_ ?_ ?_ ?_ <;> rw [episode]
  · exact (s.addRecord_hasArea j).keep (Part.areasIn_of (by rw [episode]))

/-! ## A jam taken (R108) -/

/-- A jam is taken: the path is in a state that takes it, or it is one that opens an episode in IDLE too. -/
def Part.takes (s : Part) (j : Jam) : Prop :=
  s.feed.path.takesJams = true ∨ s.feed.path = .idle ∧ (j.kind = .doorOpen ∨ j.kind = .stapleFail)

theorem Part.takeJam_tookJam (h : s.takes j) : s.tookJam j (s.takeJam j) ∧ (s.takeJam j).feed.path ≠ .resumable := by
  have opened : s.openedWith j (s.openEpisode j 0) ∧ (s.openEpisode j 0).hasArea j ∧ (s.openEpisode j 0).feed.path.inEpisode = true ∧
      (s.openEpisode j 0).feed.path ≠ .resumable := by
    refine ⟨s.openEpisode_openedWith j 0, s.openEpisode_hasArea j 0, ?_⟩
    rcases s.openEpisode_inEpisode j 0 with e | e <;> rw [e] <;> exact ⟨rfl, by decide⟩
  obtain ⟨opened, area, inEpisode, unresumable⟩ := opened
  unfold Part.tookJam Part.takeJam
  cases hp : s.feed.path with
  | unconfigured => rcases h with h | ⟨h, -⟩ <;> rw [hp] at h <;> cases h
  | resumable => rcases h with h | ⟨h, -⟩ <;> rw [hp] at h <;> cases h
  | idle =>
    rcases h with h | ⟨-, h⟩
    · rw [hp] at h
      cases h
    · dsimp only
      rw [if_pos h]
      exact ⟨⟨by simpa using opened, area, inEpisode⟩, unresumable⟩
  | starting => exact ⟨⟨by simpa using opened, area, inEpisode⟩, unresumable⟩
  | running => exact ⟨⟨by simpa using opened, area, inEpisode⟩, unresumable⟩
  | draining => exact ⟨⟨by simpa using opened, area, inEpisode⟩, unresumable⟩
  | halting =>
    obtain ⟨extended, area, path⟩ := s.extendHalting_extends j hp
    have rests : (s.extendHalting j).feed.path.inEpisode = true ∧ (s.extendHalting j).feed.path ≠ .resumable := by
      rcases path with e | e <;> rw [e] <;> exact ⟨rfl, by decide⟩
    exact ⟨⟨by simpa using extended, area, rests.1⟩, rests.2⟩
  | held =>
    have path : (s.addRecord j).feed.path = .held := by rw [Part.addRecord_feed, hp]
    exact ⟨⟨by simpa using s.addRecord_extendedWith j, s.addRecord_hasArea j, by rw [path]; rfl⟩, by rw [path]; decide⟩
  | sweeping =>
    obtain ⟨extended, area⟩ := s.abandonSweep_extends j (decide (j.kind = .residual))
    have path : ((s.addRecord j).abandonSweep (decide (j.kind = .residual))).feed.path = .held := by
      rw [Part.abandonSweep_feed]
    exact ⟨⟨by simpa using extended, area, by rw [path]; rfl⟩, by rw [path]; decide⟩

/-! ## What the end of the event leaves of it -/

theorem PathState.rests_of_inEpisode {x : PathState} (h : x.inEpisode = true) : x.rests := by
  cases x
  case halting | held | sweeping | resumable => exact ⟨by decide, by decide, by decide⟩
  all_goals cases h

/-- What the end of an event keeps of an episode. -/
structure Part.episodeStands (s t : Part) : Prop where
  episode : t.episode.recorded = s.episode.recorded
  feed : t.feed.planned = s.feed.planned
  clutch : t.out.clutch = s.out.clutch
  sheets : t.table.sheets.Sublist s.table.sheets
  path : t.feed.path = s.feed.path ∧ t.table = s.table ∨ s.feed.path = .held ∧ (t.feed.path = .sweeping ∨ t.feed.path = .resumable)

theorem Part.serves.stands (h : s.serves t) : s.episodeStands t :=
  ⟨by rw [h.via.episode_eq rfl], by rw [h.via.feed_eq rfl], by rw [h.via.out_eq rfl], by rw [h.via.table_eq rfl],
    .inl ⟨by rw [h.via.feed_eq rfl], h.via.table_eq rfl⟩⟩

theorem Part.episodeStands.serves (h : s.episodeStands t) (k : t.serves u) : s.episodeStands u := by
  obtain ⟨episode, feed, clutch, sheets, path⟩ := h
  refine ⟨?_, ?_, ?_, ?_, ?_⟩
  · rwa [k.via.episode_eq rfl]
  · rwa [k.via.feed_eq rfl]
  · rwa [k.via.out_eq rfl]
  · rwa [k.via.table_eq rfl]
  · rwa [k.via.feed_eq rfl, k.via.table_eq rfl]

theorem Outputs.clutch_of_fed {o r : Outputs} (h : o.fed = r.fed) : o.clutch = r.clutch := (congrArg Outputs.clutch h :)

theorem Part.judgeSet_stands (s : Part) : s.episodeStands s.judgeSet :=
  ⟨by rw [s.judgeSet_via.episode_eq rfl], by rw [s.judgeSet_via.feed_eq rfl], Outputs.clutch_of_fed s.judgeSet_out,
    by rw [s.judgeSet_via.table_eq rfl], .inl ⟨by rw [s.judgeSet_via.feed_eq rfl], s.judgeSet_via.table_eq rfl⟩⟩

theorem Part.judge_stands (h : s.feed.path.rests) : s.episodeStands s.judge.conclude := by
  have set := s.judgeSet_stands
  rcases Part.judge_rests h with ⟨-, k⟩ | ⟨-, held, t, sweeps, k⟩
  · exact set.serves k
  · refine Part.episodeStands.serves ⟨sweeps.episode.trans set.episode, sweeps.feed.trans set.feed, sweeps.clutch.trans set.clutch,
      sweeps.sheets.trans set.sheets, .inr ⟨held, ?_⟩⟩ k
    have course := sweeps.course
    split at course
    · exact .inr course.1
    · exact .inl course.1.1

theorem Part.episodeStands.inEpisode (h : s.episodeStands t) (hs : s.feed.path.inEpisode = true) : t.feed.path.inEpisode = true := by
  rcases h.path with ⟨e, -⟩ | ⟨-, e | e⟩
  · rwa [e]
  · rw [e]
    rfl
  · rw [e]
    rfl

theorem Part.openedWith.stands (h : p.openedWith j s) (k : s.episodeStands t) : p.openedWith j t := by
  obtain ⟨isOpen, number, kind, records, overflow, ⟨pick, holdoff, ramp, runOn⟩, hold, setEnd, clutch, conds, path⟩ := h
  refine ⟨(congrArg Episode.isOpen k.episode :).trans isOpen, (congrArg Episode.number k.episode :).trans number,
    (congrArg Episode.firstKind k.episode :).trans kind, (congrArg Episode.records k.episode :).trans records,
    (congrArg Episode.overflow k.episode :).trans overflow,
    ⟨(congrArg Feed.pickTimer k.feed :).trans pick, (congrArg Feed.holdoff k.feed :).trans holdoff,
      (congrArg Feed.ramp k.feed :).trans ramp, (congrArg Feed.runOn k.feed :).trans runOn⟩,
    (congrArg Feed.hold k.feed :).trans hold, (congrArg Feed.setEnd k.feed :).trans setEnd, k.clutch.trans clutch,
    fun x hx => conds x (k.sheets.subset hx), ?_⟩
  rcases k.path with ⟨hp, table⟩ | ⟨held, hp⟩
  · rw [hp, table]
    exact path
  · have none : ¬ ∃ x ∈ s.table.sheets, x.cond = .runningOut := fun some => by
      rw [path.mpr some] at held
      cases held
    constructor
    · intro halting
      rcases hp with e | e <;> rw [e] at halting <;> cases halting
    · rintro ⟨x, hx, hc⟩
      exact absurd ⟨x, k.sheets.subset hx, hc⟩ none

theorem Part.tookJam.stands (h : p.tookJam j s) (k : s.episodeStands t) : p.tookJam j t := by
  obtain ⟨course, area, inEpisode⟩ := h
  have areas : t.episode.areas = s.episode.areas := (congrArg Episode.areas k.episode :)
  refine ⟨?_, by rwa [areas], k.inEpisode inEpisode⟩
  split at course
  · next hp => rw [if_pos hp]; exact course.stands k
  · next hp => rw [if_neg hp]; exact Part.extendedWith_of_recorded course k.episode

/-- A jam taken stands when the event has ended. -/
theorem Part.tookJam.ends (h : p.tookJam j s) : p.tookJam j s.judge.conclude :=
  h.stands (Part.judge_stands (PathState.rests_of_inEpisode h.2.2))

/-- A jam is taken from a part that differs in nothing the jam's record and the path tell. -/
theorem Part.tookJam.of {q r : Part} (h : r.tookJam j q) (path : r.feed.path = p.feed.path) (episode : r.episode = p.episode) :
    p.tookJam j q := by
  unfold Part.tookJam Part.openedWith Part.extendedWith at h ⊢
  rwa [← path, ← episode]

end Sys2Proof.Machine
end

