-- ==== Sys2Proof/Proofs/PathStarted.lean ====
section
/-! PROOF. The scheduler's own steps PATH_START and DRAIN_RETURN (O45). -/

namespace Sys2Proof.Machine

variable {s t u p : Part} {j : Jam}

/-! ## STARTING entered (R44, R45) -/

theorem PathState.starting_rests : PathState.starting.rests := ⟨by decide, by decide, by decide⟩

/-- The class the path starts in: that of the page that would be bound first (R44). -/
def Part.startClass (s : Part) : Nat := ((s.nextPage).map fun n => n.front.cls).getD s.feed.cls

theorem Part.enterPath_eq (s : Part) : s.enterPath =
    (((s.modFeed fun f => { f with cls := s.startClass }).setPath .starting).modOut fun o =>
      { o with presented := s.startClass }).runDrives := by
  have e : s.startClass = match s.nextPage with
      | some n => n.front.cls
      | none => s.feed.cls := by
    unfold Part.startClass
    cases s.nextPage <;> rfl
  rw [e]
  rfl

theorem Part.enterPath_starts (s : Part) : s.enterPath.feed = { s.feed with cls := s.startClass, path := .starting } ∧
    s.enterPath.out = { s.out with
      presented := s.startClass, enFeed := true, enProcess := true, enDuplex := true, enDelivery := true } := by
  rw [s.enterPath_eq]
  constructor
  · exact Part.setPath_feed ..
  · unfold Part.runDrives
    simp only [Part.modOut_out, (Part.setPath_via ..).out_eq rfl, Part.modFeed_out]

theorem Part.enterPath_paperAt (s : Part) : s.enterPath.paperAt = s.paperAt := by
  funext st
  unfold Part.paperAt Part.levelOf
  rw [s.enterPath_via.dry_eq rfl, s.enterPath_via.force_eq rfl, s.enterPath_via.lines_eq rfl]

/-- In HALTING and HELD a jam extends the episode and leaves the scheduler but its path state, and the class presented. -/
theorem Part.jamAt_extends (kind : JamKind) (st : Fin 24) (x : Option Sheet)
    (hp : s.feed.path = .halting ∨ s.feed.path = .held) (t : Tick) :
    let q := s.jamAt kind st t x
    (∃ j, s.extendedWith j q) ∧ (q.feed.path = .halting ∨ q.feed.path = .held) ∧
      { q.feed with path := .idle } = { s.feed with path := .idle } ∧ q.out.presented = s.out.presented := by
  intro q
  have count := s.countStation_via st 2
  generalize hj : ({ kind := kind, station := some st, door := none, area := s.force.areaName st
                     sheet := x.map Sheet.number, tick := t, front := x.bind fun y => y.front.map Page.id
                     back := x.bind fun y => y.back.map Page.id } : Jam) = j
  have hq : q = (s.countStation st 2).takeJam j := by rw [← hj]; rfl
  have path : (s.countStation st 2).feed.path = s.feed.path := by rw [count.feed_eq rfl]
  have halt : ∀ r : Part, { r.endHalting.feed with path := .idle } = { r.feed with path := .idle } ∧
      r.endHalting.out.presented = r.out.presented := fun r => by
    unfold Part.endHalting
    split
    · rw [Part.setPath_feed, (Part.setPath_via ..).out_eq rfl]
      exact ⟨rfl, rfl⟩
    · exact ⟨rfl, rfl⟩
  unfold Part.extendedWith
  rw [hq, ← count.episode_eq rfl, ← count.feed_eq rfl, ← count.out_eq rfl]
  rcases hp with hp | hp <;> rw [← path] at hp <;> unfold Part.takeJam <;> rw [hp]
  · obtain ⟨extended, -, after⟩ := (s.countStation st 2).extendHalting_extends j hp
    let f : Sheet → Bool := fun x => x.cond == .runningOut && (j.sheet.all fun n => decide (n ≤ x.number))
    have via : Via [.notices, .episode, .table, .stations, .dry] (s.countStation st 2) (((s.countStation st 2).addRecord j).strand f) :=
      ((Part.addRecord_via ..).mono rfl).andThen (Part.strand_via ..) rfl
    obtain ⟨feed, out⟩ := halt (((s.countStation st 2).addRecord j).strand f)
    rw [via.feed_eq rfl] at feed
    rw [via.out_eq rfl] at out
    exact ⟨⟨j, extended⟩, after, feed, out⟩
  · have via := (s.countStation st 2).addRecord_via j
    refine ⟨⟨j, (s.countStation st 2).addRecord_extendedWith j⟩, ?_, ?_, ?_⟩
    · rw [Part.addRecord_feed]
      exact .inr hp
    · rw [Part.addRecord_feed]
    · rw [via.out_eq rfl]

/-- What the opening of the RESIDUAL episode leaves, and each further jam of the start keeps. -/
structure Part.residualOpen (s : Part) (st : Fin 24) (t : Part) : Prop where
  path : t.feed.path = .halting ∨ t.feed.path = .held
  isOpen : t.episode.isOpen = true
  number : t.episode.number = s.episode.number + 1
  kind : t.episode.firstKind = some .residual
  first : t.episode.records.head? = some (s.residual st)
  cls : t.feed.cls = s.startClass ∧ t.feed.selector = s.feed.selector
  presented : t.out.presented = s.startClass
  hold : t.feed.hold = false ∧ t.feed.setEnd = false

theorem Part.startJammed_opens (s : Part) (st : Fin 24) :
    s.residualOpen st (s.enterPath.jamAt .residual st s.enterPath.tick none) := by
  rw [s.jamAt_enterPath]
  have via : Via [.notices, .stats] (s.startJammed st) (((s.startJammed st).noteRecord 1 (s.residual st)).countPath 6) :=
    ((Part.noteRecord_via ..).mono rfl).andThen (Part.countPath_via ..) rfl
  have count := s.enterPath.countStation_via st 2
  obtain ⟨feedStarts, outStarts⟩ := s.enterPath_starts
  obtain ⟨b, feed, out, episode⟩ := (s.enterPath.countStation st 2).openCore_effect (s.residual st) 0
  have feed : (s.startJammed st).feed = _ := feed
  have out : (s.startJammed st).out = _ := out
  have episode : (s.startJammed st).episode.core = _ := episode
  have number : (s.enterPath.countStation st 2).episode.number = s.episode.number := by
    rw [count.episode_eq rfl, s.enterPath_via.episode_eq rfl]
  refine ⟨?_, ?_, ?_, ?_, ?_, ?_, ?_, ?_⟩
  · rw [via.feed_eq rfl, feed]
    cases b
    · exact .inr rfl
    · exact .inl rfl
  · rw [via.episode_eq rfl]
    exact (congrArg Episode.isOpen episode :)
  · rw [via.episode_eq rfl, ← number]
    exact (congrArg Episode.number episode :)
  · rw [via.episode_eq rfl]
    exact (congrArg Episode.firstKind episode :)
  · rw [via.episode_eq rfl]
    have records : (s.startJammed st).episode.records = [s.residual st] := (congrArg Episode.records episode :)
    rw [records]
    rfl
  · rw [via.feed_eq rfl, feed, count.feed_eq rfl, feedStarts]
    exact ⟨rfl, rfl⟩
  · rw [via.out_eq rfl, out, count.out_eq rfl, outStarts]
  · rw [via.feed_eq rfl, feed]
    exact ⟨rfl, rfl⟩

theorem Part.residualOpen.jamAt {st : Fin 24} (h : s.residualOpen st t) (st' : Fin 24) :
    s.residualOpen st (t.jamAt .residual st' t.tick none) := by
  obtain ⟨⟨j, isOpen, number, kind, records⟩, path, feed, presented⟩ := Part.jamAt_extends .residual st' none h.path t.tick
  refine ⟨path, isOpen.trans h.isOpen, number.trans h.number, kind.trans h.kind, ?_, ?_, presented.trans h.presented, ?_⟩
  · split at records
    · rw [records.1, List.head?_append_of_ne_nil]
      · exact h.first
      · intro none
        have first := h.first
        rw [none] at first
        cases first
    · rw [records.1]
      exact h.first
  · exact ⟨(congrArg Feed.cls feed :).trans h.cls.1, (congrArg Feed.selector feed :).trans h.cls.2⟩
  · exact ⟨(congrArg Feed.hold feed :).trans h.hold.1, (congrArg Feed.setEnd feed :).trans h.hold.2⟩

/-- STARTING entered: the ramp armed, or a RESIDUAL episode opened by the first station that reads paper. -/
theorem Part.enterStarting_cases (s : Part) :
    s.anyPaper = false ∧ s.enterStarting = s.start ∨
    s.anyPaper = true ∧ ∃ st, (List.finRange 24).find? s.paperAt = some st ∧ s.residualOpen st s.enterStarting := by
  rw [Part.enterStarting_eq, s.enterPath_paperAt]
  have first := List.head?_filter (p := s.paperAt) (l := List.finRange 24)
  cases hl : (List.finRange 24).filter s.paperAt with
  | nil =>
    refine .inl ⟨?_, rfl⟩
    unfold Part.anyPaper
    rw [List.any_eq_false]
    exact fun x hx => (List.filter_eq_nil_iff.mp hl) x hx
  | cons st rest =>
    rw [hl] at first
    have found : (List.finRange 24).find? s.paperAt = some st := first.symm
    refine .inr ⟨List.any_eq_true.mpr ⟨st, List.mem_finRange st, List.find?_some found⟩, st, found, ?_⟩
    show s.residualOpen st (rest.foldl (fun s st => s.jamAt .residual st s.tick none)
      (s.enterPath.jamAt .residual st s.enterPath.tick none))
    exact List.foldlRecOn rest _ (s.startJammed_opens st) fun t h st' _ => h.jamAt st'

/-- The path starts outside DRY RUN's paper: what `start` makes of it. -/
theorem Part.start_starts (s : Part) : s.start.feed = { s.feed with
      cls := s.startClass, path := .starting
      ramp := some (plusTicks s.tick ((s.force.drive.map DriveSet.ramp).getD 0)) } ∧
    s.start.out = s.enterPath.out ∧ Via [.notices, .feed, .out] s s.start := by
  refine ⟨?_, rfl, s.enterPath_via.feed _ rfl⟩
  rw [Part.start, Part.modFeed_feed, s.enterPath_starts.1]

/-! ## PATH_START (R44) -/

theorem Part.pathStart_moves (p : Part) (t : Tick) (hp : p.feed.path = .idle) :
    Moves .inner .settled (p.advance t) .settled (p.advance t).judgeStart := Part.judgeStart_moves _ hp

theorem exec_pathStart {w : List Instr} {p : Part} (t : Tick) (hp : p.feed.path = .idle) :
    exec (.pathStart t) ⟨w, p⟩ = .next ⟨w, p.event t Part.judgeStart⟩ := by
  have e : p.event t (fun p => if p.feed.path = .idle then p.judgeStart else p) = p.event t Part.judgeStart :=
    congrArg Part.conclude (if_pos hp)
  exact congrArg (fun q => Host.Outcome.next (State.mk w q)) e

theorem Part.advance_nextUp (p : Part) (t : Tick) : (p.advance t).nextUp = p.nextUp := rfl

theorem Part.advance_starts (p : Part) (t : Tick) : (p.advance t).starts ↔ p.starts := Iff.rfl

theorem Part.startClass_nextUp (s : Part) : s.judgeSelector.startClass = ((s.nextUp).map fun n => n.front.cls).getD s.feed.cls := by
  unfold Part.startClass
  rw [s.judgeSelector_nextPage, s.judgeSelector_shifts.feed_eq Feed.cls]

/-- The path starts: STARTING, or the RESIDUAL episode (R44, R45). -/
theorem Part.judgeStart_starts (h : s.starts) :
    let q := s.judgeStart.conclude
    (∀ n ∈ s.nextUp, q.feed.cls = n.front.cls ∧ q.out.presented = n.front.cls) ∧ q.feed.selector = s.activeQueue ∧
      q.intake.normal = s.intake.normal ∧ q.intake.priority = s.intake.priority ∧ q.planner = s.planner ∧
      if s.anyPaper = false then
        q.feed.path = .starting ∧ q.out.drives true ∧ q.table = s.table ∧ q.episode = s.episode ∧
        q.feed.ramp = some (plusTicks s.tick ((s.force.drive.map DriveSet.ramp).getD 0))
      else q.feed.path.inEpisode = true ∧ q.episode.isOpen = true ∧ q.episode.number = s.episode.number + 1 ∧
        q.episode.firstKind = some .residual ∧
        q.episode.records.head? = ((List.finRange 24).find? s.paperAt).map fun st => stationJam s .residual st s.tick none := by
  intro q
  have sel := s.judgeSelector_via
  have started : s.judgeStart = s.judgeSelector.enterStarting := if_pos (s.startReady_iff.mpr h)
  have via : Via [.notices, .feed, .out, .table, .stations, .episode, .finisher, .stats, .dry] s s.judgeStart := s.judgeStart_via
  have cls : ∀ n ∈ s.nextUp, s.judgeSelector.startClass = n.front.cls := fun n hn => by
    rw [s.startClass_nextUp, Option.mem_def.mp hn]
    rfl
  have selector : s.judgeSelector.feed.selector = s.activeQueue := s.judgeSelector_selector
  have paper : s.judgeSelector.anyPaper = s.anyPaper ∧ s.judgeSelector.paperAt = s.paperAt := by
    rw [s.judgeSelector_eq]
    exact ⟨rfl, rfl⟩
  rcases s.judgeSelector.enterStarting_cases with ⟨none, e⟩ | ⟨some, st, found, opened⟩
  · rw [paper.1] at none
    rw [e] at started
    obtain ⟨feed, out, kept⟩ := s.judgeSelector.start_starts
    have path : s.judgeStart.feed.path = .starting := by rw [started, feed]
    have serves : s.judgeStart.serves q := Part.conclude_rests (by rw [path]; exact PathState.starting_rests)
    have qfeed : q.feed = s.judgeSelector.start.feed := by rw [serves.via.feed_eq rfl, started]
    have qout : q.out = s.judgeSelector.enterPath.out := by rw [serves.via.out_eq rfl, started, out]
    rw [if_pos none]
    refine ⟨fun n hn => ⟨?_, ?_⟩, ?_, ?_, ?_, ?_, ?_, ?_, ?_, ?_, ?_⟩
    · rw [qfeed, feed, ← cls n hn]
    · rw [qout, s.judgeSelector.enterPath_starts.2, ← cls n hn]
    · rw [qfeed, feed, ← selector]
    · rw [serves.queues.1, via.intake_eq rfl]
    · rw [serves.queues.2, via.intake_eq rfl]
    · rw [serves.via.planner_eq rfl, via.planner_eq rfl]
    · rw [qfeed, feed]
    · rw [qout, s.judgeSelector.enterPath_starts.2]
      exact ⟨rfl, rfl, rfl, rfl⟩
    · rw [serves.via.table_eq rfl, started, kept.table_eq rfl, sel.table_eq rfl]
    · rw [serves.via.episode_eq rfl, started, kept.episode_eq rfl, sel.episode_eq rfl]
    · rw [qfeed, feed, sel.tick_eq rfl, sel.force_eq rfl]
  · rw [paper.1] at some
    rw [paper.2] at found
    rw [← started] at opened
    have inEpisode : s.judgeStart.feed.path.inEpisode = true := by
      rcases opened.path with e | e <;> rw [e] <;> rfl
    have serves : s.judgeStart.serves q := Part.conclude_rests (PathState.rests_of_inEpisode inEpisode)
    have jam : s.judgeSelector.residual st = stationJam s .residual st s.tick none := by
      unfold Part.residual
      rw [sel.force_eq rfl, sel.tick_eq rfl]
      rfl
    rw [if_neg (by rw [some]; decide), found]
    refine ⟨fun n hn => ⟨?_, ?_⟩, ?_, ?_, ?_, ?_, ?_, ?_, ?_, ?_, ?_⟩
    · rw [serves.via.feed_eq rfl, opened.cls.1, cls n hn]
    · rw [serves.via.out_eq rfl, opened.presented, cls n hn]
    · rw [serves.via.feed_eq rfl, opened.cls.2, selector]
    · rw [serves.queues.1, via.intake_eq rfl]
    · rw [serves.queues.2, via.intake_eq rfl]
    · rw [serves.via.planner_eq rfl, via.planner_eq rfl]
    · rw [serves.via.feed_eq rfl, inEpisode]
    · rw [serves.via.episode_eq rfl, opened.isOpen]
    · rw [serves.via.episode_eq rfl, opened.number, sel.episode_eq rfl]
    · rw [serves.via.episode_eq rfl, opened.kind]
    · rw [serves.via.episode_eq rfl, opened.first, jam]
      rfl

theorem pathStart_taken (w : List Instr) (p : Part) (t : Tick) (hp : p.feed.path = .idle) : Completes (.pathStart t) ⟨w, p⟩ fun q =>
     p.passesTo t q ∧ q.lines = p.lines ∧ q.intake.normal = p.intake.normal ∧ q.intake.priority = p.intake.priority ∧
     q.planner = p.planner ∧
     q.feed.selector = p.activeQueue ∧
     if p.nextUp.isSome = true ∧ p.feed.hold = false ∧ p.anyDoorOpen = false ∧ p.finisher.state ≠ .faulted ∧
         p.finisher.state ≠ .retained ∧ p.feed.exhausted = false then
       (∀ n ∈ p.nextUp, q.feed.cls = n.front.cls ∧ q.out.presented = n.front.cls) ∧
       if p.anyPaper = false then
         q.feed.path = .starting ∧ q.out.drives true ∧ q.table = p.table ∧ q.episode = p.episode ∧
         q.feed.ramp = some (plusTicks q.tick ((p.force.drive.map DriveSet.ramp).getD 0))
       else q.feed.path.inEpisode = true ∧ q.episode.isOpen = true ∧ q.episode.number = p.episode.number + 1 ∧
         q.episode.firstKind = some .residual ∧
         q.episode.records.head? = ((List.finRange 24).find? p.paperAt).map fun st => stationJam p .residual st q.tick none
     else q.feed.path = .idle ∧ q.table = p.table ∧ q.episode = p.episode := by
  refine completes_next (exec_pathStart t hp) ?_
  obtain ⟨passes, lines⟩ := Part.event_passes (Part.pathStart_moves p t hp)
  have tick : (p.event t Part.judgeStart).tick = (p.advance t).tick := passes.1
  by_cases h : p.starts
  · obtain ⟨cls, selector, normal, priority, planner, course⟩ := Part.judgeStart_starts (s := p.advance t) h
    rw [if_pos h, tick]
    exact ⟨passes, lines, normal, priority, planner, selector, cls, course⟩
  · have waits : (p.advance t).waiting := .inl ⟨hp, h⟩
    obtain ⟨feed, via, normal, priority, -⟩ := Part.waiting_ends waits
    rw [Part.judgeFeed_idle (s := p.advance t) hp] at feed via normal priority
    have feed : (p.event t Part.judgeStart).feed = { p.feed with selector := p.activeQueue } := feed
    rw [if_neg h, feed]
    exact ⟨passes, lines, normal, priority, via.planner_eq rfl, rfl, hp, via.table_eq rfl, via.episode_eq rfl⟩

/-! ## DRAIN_RETURN (R47) -/

/-- Back in RUNNING with nothing to drain for, or drained again by the pick that came of it. -/
def Part.returned (n : Nat) (s : Part) : Prop :=
  s.feed.path = .running ∧ s.feed.runOn = none ∧ s.judgeSelector.drainHolds = false ∧
      (s.feed.nextSheet = n ∨ s.feed.nextSheet = n + 1 ∧ s.feed.unconfirmed.isSome = true) ∨
    s.feed.path = .draining ∧ s.feed.nextSheet = n + 1 ∧ ¬ s.returns

theorem Part.drainHolds_iff (s : Part) : s.judgeSelector.drainHolds = true ↔
    s.feed.hold = true ∨ s.feed.exhausted = true ∨ ∃ n, s.nextUp = some n ∧ n.front.cls ≠ s.feed.cls := by
  simp only [Part.drainHolds, s.judgeSelector_nextPage, s.judgeSelector_shifts.feed_eq Feed.hold,
    s.judgeSelector_shifts.feed_eq Feed.exhausted, s.judgeSelector_shifts.feed_eq Feed.cls, Bool.or_eq_true, Option.any_eq_true,
    bne_iff_ne, or_assoc]

/-- What drains the path does not let it return. -/
theorem Part.not_returns_of_drainHolds (h : s.judgeSelector.drainHolds = true) : ¬ s.returns := by
  rintro ⟨hold, numbers, page⟩
  rcases s.drainHolds_iff.mp h with h | h | ⟨n, hn, cls⟩
  · rw [hold] at h
    cases h
  · rw [numbers] at h
    cases h
  · rw [hn] at page
    exact cls (by simpa using page)

theorem Part.serves.drainHolds_iff (h : s.serves t) : t.judgeSelector.drainHolds = true ↔ s.judgeSelector.drainHolds = true := by
  rw [Part.drainHolds_iff, Part.drainHolds_iff, h.nextUp_eq, h.via.feed_eq rfl]

theorem Part.returned.serves {n : Nat} (h : s.returned n) (k : s.serves t) : t.returned n := by
  unfold Part.returned at h ⊢
  rw [← Bool.not_eq_true, k.drainHolds_iff, k.returns_iff, k.via.feed_eq rfl, Bool.not_eq_true]
  exact h

/-- Where the drain conditions fail, the next page and the flags they look at stay through a shift that keeps the selector judged. -/
theorem Part.judgeSelector_judgeSelector (s : Part) : s.judgeSelector.judgeSelector = s.judgeSelector := by
  have sel := s.judgeSelector_activeQueue
  rw [Part.judgeSelector_eq s.judgeSelector, sel, ← s.judgeSelector_selector]
  rfl

/-- The scheduler's timers do not bear on the drain conditions. -/
theorem Part.drainHolds_timers (v : Option Tick) (h : s.judgeSelector.drainHolds = false) :
    ((s.judgeSelector.judgeHoldoff).modFeed fun f => { f with pickTimer := v }).judgeSelector.drainHolds = false := by
  have same : ∀ (r : Part) (v : Option Tick), (r.modFeed fun f => { f with pickTimer := v }).judgeSelector.drainHolds = r.judgeSelector.drainHolds :=
    fun r v => by
      rw [Bool.eq_iff_iff, Part.drainHolds_iff, Part.drainHolds_iff]
      rfl
  have holdoff : s.judgeSelector.judgeHoldoff.judgeSelector.drainHolds = s.judgeSelector.judgeSelector.drainHolds := by
    rw [Bool.eq_iff_iff, Part.drainHolds_iff, Part.drainHolds_iff]
    rfl
  rw [same, holdoff, s.judgeSelector_judgeSelector]
  exact h

theorem Part.enterDraining_returns (s : Part) : s.enterDraining.returns ↔ s.returns := by
  have via := s.enterDraining_via
  have active : s.enterDraining.activeQueue = s.activeQueue := by
    unfold Part.activeQueue
    rw [via.planner_eq rfl, via.intake_eq rfl, Part.enterDraining_feed]
  have next : s.enterDraining.nextUp = s.nextUp := by
    unfold Part.nextUp
    rw [via.planner_eq rfl, via.intake_eq rfl, active]
  unfold Part.returns
  rw [next, Part.enterDraining_feed]

theorem Part.makePick_unconfirmed (s : Part) (n : NextPage) : (s.makePick n).feed.unconfirmed = some s.feed.nextSheet ∧
    (s.makePick n).feed.runOn = s.feed.runOn := by
  obtain ⟨m, e⟩ := s.pickCore_feed n
  rw [Part.makePick_feed, e]
  exact ⟨rfl, (Feed.bound_kept ..).2.2.1⟩

theorem Part.returned.judgeFeed {n : Nat} (h : s.returned n) : s.judgeFeed.returned n := by
  rcases h with ⟨path, runOn, stays, numbers⟩ | ⟨path, numbers, no⟩
  · have e : s.judgeFeed = s.judgeRunning := by unfold Part.judgeFeed; rw [path]
    rw [e]
    have sel := s.judgeSelector_shifts
    rcases Part.judgeRunning_cases path with ⟨hd, -⟩ | ⟨-, v, -, k⟩ | ⟨-, pg, hn, k⟩
    · rw [stays] at hd
      cases hd
    · rw [k]
      have shifts := (sel.trans (Part.judgeHoldoff_shifts _)).trans (Part.pickTimer_shifts _ v)
      have runs : (s.judgeSelector.judgeHoldoff.modFeed fun f => { f with pickTimer := v }).feed.runOn = none := by
        show s.judgeSelector.feed.runOn = none
        rw [s.judgeSelector_eq]
        exact runOn
      refine .inl ⟨(Part.judgeSelector_path s).trans path, runs, Part.drainHolds_timers v stays, ?_⟩
      rw [shifts.feed_eq Feed.nextSheet, shifts.feed_eq Feed.unconfirmed]
      exact numbers
    · have shifts := sel.trans (Part.judgeHoldoff_shifts s.judgeSelector)
      have free : s.judgeSelector.judgeHoldoff.feed.unconfirmed = none := by
        simpa using ((Part.pickHolds_iff _ pg).mp hn.holds).2.2.1
      have number : s.feed.nextSheet = n := by
        refine numbers.resolve_right fun h => ?_
        rw [shifts.feed_eq Feed.unconfirmed] at free
        rw [free] at h
        cases h.2
      obtain ⟨pending, run⟩ := s.judgeSelector.judgeHoldoff.makePick_unconfirmed pg
      have next := s.judgeSelector.judgeHoldoff.makePick_nextSheet pg
      rw [shifts.feed_eq Feed.nextSheet, number] at next
      have running : (s.judgeSelector.judgeHoldoff.makePick pg).judgeSelector.feed.path = .running := by
        rw [Part.judgeSelector_path, Part.makePick_path]
        exact (Part.judgeSelector_path s).trans path
      have runs : s.judgeSelector.judgeHoldoff.feed.runOn = none := by
        show s.judgeSelector.feed.runOn = none
        rw [s.judgeSelector_eq]
        exact runOn
      rw [k]
      generalize hm : s.judgeSelector.judgeHoldoff.makePick pg = m at pending run next running ⊢
      split
      · next hd =>
        refine .inr ⟨by rw [Part.enterDraining_feed], ?_, ?_⟩
        · rw [Part.enterDraining_feed]
          exact (m.judgeSelector_shifts.feed_eq Feed.nextSheet).trans next
        · rw [Part.enterDraining_returns]
          exact Part.not_returns_of_drainHolds (by rwa [m.judgeSelector_judgeSelector])
      · next hd =>
        have after := m.judgeSelector_shifts.trans (Part.judgeHoldoff_shifts _)
        refine .inl ⟨running, ?_, ?_, .inr ⟨?_, ?_⟩⟩
        · show m.judgeSelector.feed.runOn = none
          rw [m.judgeSelector_eq]
          exact run.trans runs
        · exact Part.drainHolds_timers (s := m) (m.judgeSelector.judgeHoldoff.feed.pickTimer) (Bool.eq_false_iff.mpr hd)
        · rw [after.feed_eq Feed.nextSheet, next]
        · rw [after.feed_eq Feed.unconfirmed, pending]
          rfl
  · rw [Part.judgeFeed_draining path no]
    refine .inr ⟨(Part.judgeSelector_path s).trans path, ?_, by rwa [s.judgeSelector_returns]⟩
    rw [s.judgeSelector_shifts.feed_eq Feed.nextSheet, numbers]

theorem exec_drainReturn {w : List Instr} {p : Part} (t : Tick) (hp : p.feed.path = .draining) :
    exec (.drainReturn t) ⟨w, p⟩ = .next ⟨w, p.event t Part.judgeDraining⟩ := by
  have e : p.event t (fun p => if p.feed.path = .draining then p.judgeDraining else p) = p.event t Part.judgeDraining :=
    congrArg Part.conclude (if_pos hp)
  exact congrArg (fun q => Host.Outcome.next (State.mk w q)) e

theorem Part.judgeDraining_eq (hp : s.feed.path = .draining) : s.judgeFeed = s.judgeDraining := by
  unfold Part.judgeFeed
  rw [hp]

theorem drainReturn_taken (w : List Instr) (p : Part) (t : Tick) (hp : p.feed.path = .draining) :
    Completes (.drainReturn t) ⟨w, p⟩ fun q =>
    p.passesTo t q ∧ q.lines = p.lines ∧ q.episode = p.episode ∧
    if p.feed.hold = false ∧ p.feed.exhausted = false ∧
        p.nextUp.any (fun n => n.front.cls == p.feed.cls) = true then
      (q.feed.path = .running ∧ q.feed.runOn = none) ∨
        (q.feed.path = .draining ∧ q.feed.nextSheet = p.feed.nextSheet + 1)
    else q.feed.path = .draining ∧ q.feed.runOn = p.feed.runOn ∧ q.table = p.table ∧ q.feed.selector = p.activeQueue := by
  refine completes_next (exec_drainReturn t hp) ?_
  obtain ⟨passes, lines⟩ := Part.event_passes (p := p) (t := t) (g := Part.judgeDraining) (Part.judgeDraining_moves _ hp)
  by_cases h : p.returns
  · rw [if_pos h]
    let s := (p.advance t).judgeSelector
    have back : (p.advance t).judgeDraining = s.returnToRunning.judgeRunning := if_pos ((p.advance t).returnHolds_iff.mpr h)
    have feed := s.returnToRunning_feed
    have running : s.returnToRunning.feed.path = .running := by rw [feed]
    have keeps : s.returnToRunning.returned p.feed.nextSheet := by
      refine .inl ⟨running, by rw [feed], ?_, .inl ?_⟩
      · have via := s.returnToRunning_via
        have active : s.returnToRunning.activeQueue = s.activeQueue := by
          unfold Part.activeQueue
          rw [via.planner_eq rfl, via.intake_eq rfl, feed]
        have next : s.returnToRunning.nextUp = p.nextUp := by
          have : s.returnToRunning.nextUp = s.nextUp := by
            unfold Part.nextUp
            rw [via.planner_eq rfl, via.intake_eq rfl, active]
          exact this.trans (p.advance t).judgeSelector_nextUp
        obtain ⟨hold, numbers, page⟩ := h
        have sel := (p.advance t).judgeSelector_shifts
        rw [← Bool.not_eq_true, Part.drainHolds_iff, next, feed]
        rintro (h | h | ⟨n, hn, cls⟩)
        · exact absurd (h.symm.trans ((sel.feed_eq Feed.hold).trans hold)) (by decide)
        · exact absurd (h.symm.trans ((sel.feed_eq Feed.exhausted).trans numbers)) (by decide)
        · rw [hn] at page
          have same : n.front.cls = p.feed.cls := by simpa using page
          exact cls (same.trans (sel.feed_eq Feed.cls).symm)
      · rw [feed]
        exact (p.advance t).judgeSelector_shifts.feed_eq Feed.nextSheet
    have judged : ((p.advance t).judgeDraining).returned p.feed.nextSheet := by
      have e : s.returnToRunning.judgeFeed = s.returnToRunning.judgeRunning := by unfold Part.judgeFeed; rw [running]
      rw [back, ← e]
      exact keeps.judgeFeed
    have moving : ∀ {r : Part}, r.returned p.feed.nextSheet → r.onTheMove := fun h => h.imp And.left And.left
    have ends : (p.event t Part.judgeDraining).returned p.feed.nextSheet ∧ (p.event t Part.judgeDraining).episode = p.episode := by
      refine Part.conclude_keeps (φ := fun r => r.returned p.feed.nextSheet ∧ r.episode = p.episode) ⟨judged, ?_⟩
        (fun ⟨h, e⟩ k => ⟨h.serves k, (k.via.episode_eq rfl).trans e⟩)
        fun ⟨h, e⟩ => ⟨h.judgeFeed, ((Part.judgeFeed_moving_via (moving h)).episode_eq rfl).trans e⟩
      exact (Part.judgeDraining_via _).episode_eq rfl
    refine ⟨passes, lines, ends.2, ?_⟩
    rcases ends.1 with ⟨path, runOn, -, -⟩ | ⟨path, number, -⟩
    · exact .inl ⟨path, runOn⟩
    · exact .inr ⟨path, number⟩
  · obtain ⟨feed, via, -⟩ := Part.waiting_ends (s := p.advance t) (.inr ⟨hp, h⟩)
    rw [Part.judgeDraining_eq (s := p.advance t) hp] at feed via
    have feed : (p.event t Part.judgeDraining).feed = { p.feed with selector := p.activeQueue } := feed
    rw [if_neg h, feed]
    exact ⟨passes, lines, via.episode_eq rfl, hp, rfl, via.table_eq rfl, rfl⟩

/-- Settles O45. -/
theorem pathStartAndReturn : Obligations.PathStartAndReturn := ⟨pathStart_taken, drainReturn_taken⟩

end Sys2Proof.Machine
end

