-- ==== Sys2Proof/Proofs/Cleared.lean ====
section
/-! PROOF. SWEEP (O13), the edges and the internal step that judge the clearance, and the end of a sweep (O28, O29). -/

namespace Sys2Proof.Machine

variable {s t u p : Part} {j : Jam}

/-! ## The DOOR conditions through an event -/

/-- The DOOR conditions stand as they were. -/
def Part.sameDoors (s t : Part) : Prop := t.episode.doorActive = s.episode.doorActive

theorem Part.sameDoors.trans (h : s.sameDoors t) (k : t.sameDoors u) : s.sameDoors u := Eq.trans k h

theorem Part.sameDoors_of (h : t.episode = s.episode) : s.sameDoors t := congrArg Episode.doorActive h

theorem Part.addRecord_sameDoors (s : Part) (j : Jam) : s.sameDoors (s.addRecord j) := by
  unfold Part.addRecord
  dsimp only
  split
  · exact rfl
  · split <;> exact rfl

theorem Part.openEpisode_sameDoors (s : Part) (j : Jam) (extra : AreaSet) : s.sameDoors (s.openEpisode j extra) := by
  obtain ⟨b, -, -, episode⟩ := s.openCore_effect j extra
  have core : s.sameDoors (s.openCore j extra) := (congrArg Episode.doorActive episode :)
  exact core.trans (Part.sameDoors_of ((s.openEpisode_via_core j extra).episode_eq rfl))

theorem Part.strand_sameDoors (s : Part) (f : Sheet → Bool) : s.sameDoors (s.strand f) := rfl

theorem Part.extendHalting_sameDoors (s : Part) (j : Jam) : s.sameDoors (s.extendHalting j) := by
  unfold Part.extendHalting
  exact ((s.addRecord_sameDoors j).trans (Part.strand_sameDoors ..)).trans (Part.sameDoors_of ((Part.endHalting_via _).episode_eq rfl))

theorem Part.abandonSweep_sameDoors (s : Part) (bar : Bool) : s.sameDoors (s.abandonSweep bar) := by
  unfold Part.abandonSweep Part.sameDoors
  rw [(Part.setPath_via ..).episode_eq rfl, (Part.stopDrives_via _).episode_eq rfl]
  rfl

theorem Part.takeJam_sameDoors (s : Part) (j : Jam) : s.sameDoors (s.takeJam j) := by
  unfold Part.takeJam
  split
  case h_1 =>
    unfold Part.holdOver
    split <;> exact rfl
  case h_2 => exact rfl
  case h_3 =>
    split
    · exact s.openEpisode_sameDoors j 0
    · exact rfl
  case h_4 | h_5 | h_6 => exact s.openEpisode_sameDoors j 0
  case h_7 => exact s.extendHalting_sameDoors j
  case h_8 => exact s.addRecord_sameDoors j
  case h_9 => exact (s.addRecord_sameDoors j).trans (Part.abandonSweep_sameDoors ..)

theorem Part.jamAt_sameDoors (s : Part) (kind : JamKind) (st : Fin 24) (t : Tick) (x : Option Sheet) : s.sameDoors (s.jamAt kind st t x) :=
  (Part.sameDoors_of ((s.countStation_via st 2).episode_eq rfl)).trans (Part.takeJam_sameDoors _ _)

theorem Part.enterStarting_sameDoors (s : Part) : s.sameDoors s.enterStarting := by
  have path : s.sameDoors s.enterPath := Part.sameDoors_of (s.enterPath_via.episode_eq rfl)
  rw [Part.enterStarting_eq]
  split
  · exact path
  · next st rest _ =>
    exact List.foldlRecOn (st :: rest) _ path fun t h st' _ => h.trans (t.jamAt_sameDoors .residual st' t.tick none)

theorem Part.judgeStart_sameDoors (s : Part) : s.sameDoors s.judgeStart := by
  have sel : s.sameDoors s.judgeSelector := Part.sameDoors_of (s.judgeSelector_via.episode_eq rfl)
  unfold Part.judgeStart
  dsimp only
  split
  · exact sel.trans (Part.enterStarting_sameDoors _)
  · exact sel

theorem Part.judgeFeed_sameDoors (s : Part) : s.sameDoors s.judgeFeed := by
  by_cases hi : s.feed.path = .idle
  · rw [Part.judgeFeed_idle hi]
    exact s.judgeStart_sameDoors
  · by_cases hm : s.onTheMove
    · exact Part.sameDoors_of ((Part.judgeFeed_moving_via hm).episode_eq rfl)
    · rw [Part.judgeFeed_still hi (fun h => hm (.inl h)) fun h => hm (.inr h)]
      exact rfl

theorem Part.judgeClearance_sameDoors (s : Part) : s.sameDoors s.judgeClearance := by
  unfold Part.judgeClearance
  split
  · exact (congrArg Episode.doorActive s.startSweep_sweeps.episode :)
  · exact rfl

theorem Part.judge_sameDoors (s : Part) : s.sameDoors s.judge :=
  ((Part.sameDoors_of (s.judgeSet_via.episode_eq rfl)).trans (Part.judgeClearance_sameDoors _)).trans (Part.judgeFeed_sameDoors _)

theorem Part.conclude_sameDoors (s : Part) : s.sameDoors s.conclude :=
  Part.conclude_keeps (φ := s.sameDoors) rfl (fun h k => h.trans (Part.sameDoors_of (k.via.episode_eq rfl)))
    fun h => h.trans (Part.judgeFeed_sameDoors _)

/-! ## The Compile Set through the judgement -/

/-- With an episode open, or a set that is not COMPILING, the set is at most closed. -/
theorem Part.judgeFinisher_closes (h : s.episode.isOpen = true ∨ s.finisher.state ≠ .compiling) :
    s.judgeFinisher.finisher = s.finisher ∨ s.judgeFinisher.finisher = { s.finisher with closed := true } := by
  have closure : s.judgeClosure.finisher = s.finisher ∨ s.judgeClosure.finisher = { s.finisher with closed := true } := by
    unfold Part.judgeClosure
    dsimp only
    split
    · exact .inr rfl
    · exact .inl rfl
  have state : s.judgeClosure.finisher.state = s.finisher.state := by
    rcases closure with e | e <;> rw [e]
  have open_ : s.judgeClosure.episode = s.episode := s.judgeClosure_via.episode_eq rfl
  have waits : s.judgeClosure.cycleReady = false := by
    unfold Part.cycleReady
    dsimp only
    rw [open_, state]
    rcases h with h | h
    · simp [h]
    · simp [h]
  have e : s.judgeFinisher = s.judgeClosure := if_neg (by rw [waits]; exact Bool.false_ne_true)
  rwa [e]

theorem Part.judgeSet_closes (h : s.episode.isOpen = true ∨ s.finisher.state ≠ .compiling) :
    s.judgeSet.finisher = s.finisher ∨ s.judgeSet.finisher = { s.finisher with closed := true } := by
  have gates := s.judgeGates_via
  have e := Part.judgeFinisher_closes (s := s.judgeGates) (by rwa [gates.episode_eq rfl, gates.finisher_eq rfl])
  rwa [gates.finisher_eq rfl] at e

/-- A set that is not COMPILING or RETAINED stays as it is. -/
theorem Part.judgeSet_same (hc : s.finisher.state ≠ .compiling) (hr : s.finisher.state ≠ .retained) :
    s.judgeSet.finisher = s.finisher ∧ s.judgeSet.out = s.judgeGates.out ∧ s.judgeSet = s.judgeGates := by
  have gates := s.judgeGates_via
  have closure : s.judgeGates.judgeClosure = s.judgeGates := by
    unfold Part.judgeClosure
    dsimp only
    rw [gates.finisher_eq rfl, if_neg]
    simp [hc, hr]
  have e : s.judgeSet = s.judgeGates := by
    have waits : s.judgeGates.cycleReady = false := by
      unfold Part.cycleReady
      rw [gates.finisher_eq rfl]
      simp [hc]
    show (if s.judgeGates.judgeClosure.cycleReady then _ else s.judgeGates.judgeClosure) = _
    rw [closure, waits]
    rfl
  exact ⟨by rw [e, gates.finisher_eq rfl], by rw [e], e⟩

theorem Part.builtPlan.judgeSet {q : Part} (h : p.builtPlan q) : p.builtPlan q.judgeSet := by
  obtain ⟨path, revision, through, list, sheets, set, merge, calls, pick, drives, timer⟩ := h
  have via := q.judgeSet_via
  unfold Part.builtPlan
  rw [via.feed_eq rfl, via.planner_eq rfl, via.table_eq rfl, via.calls_eq rfl, via.episode_eq rfl]
  refine ⟨path, revision, through, list, sheets, fun hd => ?_, merge, calls, pick, Outputs.drives_of_fed q.judgeSet_out false drives, timer⟩
  have reset := set hd
  have state : q.finisher.state = .empty := by rw [reset]; rfl
  rw [(Part.judgeSet_same (by rw [state]; decide) (by rw [state]; decide)).1, reset]

theorem Outputs.presented_of_fed {o r : Outputs} (h : o.fed = r.fed) : o.presented = r.presented := (congrArg Outputs.presented h :)

theorem Episode.barred_of_recorded {e f : Episode} (h : e.recorded = f.recorded) : e.barred = f.barred := (congrArg Episode.barred h :)

theorem Part.startedSweep.judgeSet {q : Part} {now : Tick} (h : p.startedSweep now q) : p.startedSweep now q.judgeSet := by
  obtain ⟨path, presented, cls, drives, timer⟩ := h
  have via := q.judgeSet_via
  unfold Part.startedSweep
  rw [via.feed_eq rfl, via.episode_eq rfl]
  exact ⟨path, (Outputs.presented_of_fed q.judgeSet_out).trans presented, cls, Outputs.drives_of_fed q.judgeSet_out true drives, timer⟩

theorem Part.startedSweep.serves {q : Part} {now : Tick} (h : p.startedSweep now q) (k : q.serves t) : p.startedSweep now t := by
  unfold Part.startedSweep at h ⊢
  rwa [k.via.feed_eq rfl, k.via.out_eq rfl, k.via.episode_eq rfl]

/-- What was built is built of the planner, the table and a disturbed set's sheets alone. -/
theorem Part.builtPlan.of_closed {r q : Part} (h : r.builtPlan q) (planner : r.planner = p.planner) (table : r.table = p.table)
    (disturbed : r.finisher.disturbed = p.finisher.disturbed) (sheets : r.finisher.sheets = p.finisher.sheets) : p.builtPlan q := by
  unfold Part.builtPlan at h ⊢
  rwa [← planner, ← table, ← disturbed, ← sheets]

/-! ## SWEEP (R127) -/

theorem PathState.otherThan_wrongState {only x : PathState} (h : x ≠ only) (hu : x ≠ .unconfigured) : PathState.otherThan only x = some .wrongState := by
  unfold PathState.otherThan
  rw [if_neg hu, if_neg h]

/-- In a path state that rests, judging at the end of a request judges the set and, in HELD, the clearance. -/
theorem Part.judge_rests_unheld (h : s.feed.path.rests) (hh : s.feed.path ≠ .held) : s.judge = s.judgeSet := by
  rw [Part.judge_unheld hh, Part.judgeFeed_rests (by rwa [s.judgeSet_via.feed_eq rfl])]

/-- A sweep started, and judged. -/
theorem Part.startSweep_judge (s : Part) (hs : (s.table.sheets.map Sheet.number).Pairwise (· < ·)) :
    s.startSweep.judge.episode.recorded = s.episode.recorded ∧
      if s.dry.on = true then s.builtPlan s.startSweep.judge else s.startedSweep s.tick s.startSweep.judge ∧ s.startSweep.judge.table = s.table := by
  have sweeps := s.startSweep_sweeps
  have course := sweeps.course
  have unheld : s.startSweep.feed.path ≠ .held := by
    split at course
    · rw [course.1]
      decide
    · rw [course.1.1]
      decide
  rw [Part.judge_rests_unheld sweeps.rests unheld]
  have via := s.startSweep.judgeSet_via
  refine ⟨by rw [via.episode_eq rfl, sweeps.episode], ?_⟩
  cases hd : s.dry.on with
  | true =>
    rw [hd, if_pos rfl] at course
    exact (course.2 hs).judgeSet
  | false =>
    rw [hd, if_neg Bool.false_ne_true] at course
    exact ⟨course.1.judgeSet, by rw [via.table_eq rfl, course.2.1]⟩

theorem Part.sweepStarts_moves (s : Part) (hp : s.feed.path = .held) :
    Moves .inner .settled s .settled ((s.modEpisode fun e => { e with barred := false }).startSweep).judge :=
  ((Move.episode _ (by exact fun _ => rfl)).moves.trans (Part.startSweep_moves _ hp)).trans (Part.judge_moves _)

theorem sweep_asked (p : Part) : answerFrame ⟨0x12, []⟩ p = p.answerSweep := rfl

/-- Settles O13. -/
theorem sweepRequest : Obligations.SweepRequest := by
  intro w p t hs sound
  have asked := sweep_asked (p.found t 0x12 [])
  refine ⟨fun hp => ?_, fun hu hp => ?_, fun hp => ?_⟩
  · exact exec_unchanged (c := .sweep t []) (s := ⟨w, p⟩) rfl hs .notConfigured []
      (asked.trans (Part.answerSweep_refused (by rw [show (p.found t 0x12 []).feed.path = .unconfigured from hp]; rfl)))
  · exact exec_unchanged (c := .sweep t []) (s := ⟨w, p⟩) rfl hs .wrongState []
      (asked.trans (Part.answerSweep_refused (PathState.otherThan_wrongState hp hu)))
  · have clear : (p.found t 0x12 []).clear = true ↔ p.clearance := (p.found t 0x12 []).clear_iff
    have taken : (p.found t 0x12 []).answerSweep = if (p.found t 0x12 []).clear then
        (((p.found t 0x12 []).modEpisode fun e => { e with barred := false }).startSweep).judge.done else (p.found t 0x12 []).notClear := by
      unfold Part.answerSweep
      rw [show (p.found t 0x12 []).feed.path = .held from hp]
    by_cases hc : p.clearance
    · rw [if_pos hc]
      rw [if_pos (clear.mpr hc)] at taken
      have moves := Part.sweepStarts_moves (p.found t 0x12 []) hp
      obtain ⟨episode, course⟩ := Part.startSweep_judge ((p.found t 0x12 []).modEpisode fun e => { e with barred := false }) sound.1
      have barred := Episode.barred_of_recorded episode
      generalize (((p.found t 0x12 []).modEpisode fun e => { e with barred := false }).startSweep).judge = q at taken moves course barred
      refine completes_of (c := .sweep t []) (s := ⟨w, p⟩) rfl hs (asked.trans taken) moves.inner_eq.2.2.1
        ⟨repliedTo_of moves, barred, ?_⟩
      split
      · next hd =>
        have built := (if_pos hd).mp course
        exact Part.builtPlan.of built rfl rfl rfl
      · next hd => exact (if_neg hd).mp course
    · rw [if_neg hc]
      rw [if_neg (mt clear.mp hc)] at taken
      have e := (asked.trans taken)
      unfold Part.notClear at e
      rw [Part.clearanceReport_eq] at e
      exact exec_unchanged (c := .sweep t []) (s := ⟨w, p⟩) rfl hs .notClear (report p) e

end Sys2Proof.Machine
end

