-- ==== Sys2Proof/Proofs/Swept.lean ====
section
/-! PROOF. The edges and the internal step that judge the clearance, and the end of a sweep (O28, O29). -/

namespace Sys2Proof.Machine

variable {s t u p : Part} {j : Jam}

/-! ## The clearance judged in HELD (R124 to R126) -/

/-- The clearance conditions, as the statements spell them. -/
theorem Part.clear_spelled (s : Part) : s.clear = true ↔ s.anyDoorOpen = false ∧ s.anyPaper = false ∧ s.strayTrayPaper = false ∧
    s.finisher.state ≠ .stapling ∧ s.finisher.state ≠ .ejecting := by
  simp [Part.clear, Finisher.busy, and_assoc]

/-- The clearance conditions look at the levels, the description in force, the dry-run flag and what paper the set holds. -/
theorem Part.clear_of (lines : t.lines = s.lines) (force : t.force = s.force) (dry : t.dry.on = s.dry.on)
    (expected : t.finisher.paperExpected = s.finisher.paperExpected) (busy : t.finisher.busy = s.finisher.busy) : t.clear = s.clear := by
  have door := Part.anyDoorOpen_of (s := s) (t := t) force lines
  have paper : t.paperAt = s.paperAt := by
    funext st
    unfold Part.paperAt Part.levelOf
    rw [lines, force, dry]
  have tray : t.trayPaper = s.trayPaper := by
    unfold Part.trayPaper Part.levelOf
    rw [lines, force, dry]
  unfold Part.clear Part.anyPaper Part.strayTrayPaper
  rw [door, paper, tray, expected, busy]

theorem Part.autoSweepReady_iff (s : Part) : s.autoSweepReady = true ↔
    s.feed.path = .held ∧ s.clear = true ∧ s.force.timing.autoSweep = true ∧ s.episode.barred = false := by
  simp [Part.autoSweepReady, and_assoc]

/-- With an episode open the set judged starts no cycle. -/
theorem Part.judgeSet_open (hi : s.episode.isOpen = true) : s.judgeSet = s.judgeGates.judgeClosure := by
  have waits : s.judgeGates.judgeClosure.cycleReady = false := by
    unfold Part.cycleReady
    dsimp only
    rw [(Part.judgeClosure_via _).episode_eq rfl, s.judgeGates_via.episode_eq rfl, hi]
    simp
  exact if_neg (by rw [waits]; exact Bool.false_ne_true)

theorem Part.judgeSet_dry (hi : s.episode.isOpen = true) : s.judgeSet.dry = s.dry := by
  rw [Part.judgeSet_open hi, (Part.judgeClosure_via _).dry_eq rfl, s.judgeGates_via.dry_eq rfl]

/-- In HELD with an episode open the set judged leaves the automatic start as ready as it was. -/
theorem Part.judgeSet_ready (hi : s.episode.isOpen = true) : s.judgeSet.autoSweepReady = s.autoSweepReady ∧
    s.judgeSet.finisher.disturbed = s.finisher.disturbed ∧ s.judgeSet.finisher.sheets = s.finisher.sheets := by
  have via := s.judgeSet_via
  have dry : s.judgeSet.dry.on = s.dry.on := by rw [Part.judgeSet_dry hi]
  have clear : s.judgeSet.clear = s.clear := by
    rcases Part.judgeSet_closes (s := s) (.inl hi) with e | e
    · exact Part.clear_of (via.lines_eq rfl) (via.force_eq rfl) dry (by rw [e]) (by rw [e])
    · exact Part.clear_of (via.lines_eq rfl) (via.force_eq rfl) dry (by rw [e]; rfl) (by rw [e]; rfl)
  have ready : s.judgeSet.autoSweepReady = s.autoSweepReady := by
    unfold Part.autoSweepReady
    rw [via.feed_eq rfl, clear, via.force_eq rfl, via.episode_eq rfl]
  rcases Part.judgeSet_closes (s := s) (.inl hi) with e | e
  · exact ⟨ready, by rw [e], by rw [e]⟩
  · exact ⟨ready, by rw [e], by rw [e]⟩

/-- What a ready sweep makes of the part before. -/
theorem Part.sweeps.course_of (h : s.sweeps t) (sound : (s.table.sheets.map Sheet.number).Pairwise (· < ·)) (k : t.serves u) :
    if s.dry.on = true then s.builtPlan u else s.startedSweep s.tick u ∧ u.table = s.table := by
  have course := h.course
  split
  · next hd =>
    rw [if_pos hd] at course
    exact (course.2 sound).serves k
  · next hd =>
    rw [if_neg hd] at course
    exact ⟨course.1.serves k, by rw [k.via.table_eq rfl, course.2.1]⟩

/-- A sweep's course, told of a part that agrees on what a sweep and a plan build take. -/
theorem sweptIfClear_of {p r s q : Part} {now : Tick} (hp : s.feed.path = .held) (ready : s.autoSweepReady = true ↔
      (r.anyDoorOpen = false ∧ r.anyPaper = false ∧ r.strayTrayPaper = false ∧ r.finisher.state ≠ .stapling ∧
        r.finisher.state ≠ .ejecting ∧ p.force.timing.autoSweep = true ∧ p.episode.barred = false))
    (swept : s.autoSweepReady = true → if p.dry.on = true then p.builtPlan q else p.startedSweep now q ∧ q.table = p.table)
    (stays : s.autoSweepReady = false → q.feed = s.feed ∧ q.table = p.table ∧ q.episode.records = p.episode.records) :
    sweptIfClear p r now q := by
  unfold sweptIfClear
  by_cases h : s.autoSweepReady = true
  · rw [if_pos (ready.mp h)]
    exact swept h
  · rw [if_neg (mt ready.mpr h)]
    obtain ⟨feed, table, records⟩ := stays (Bool.eq_false_iff.mpr h)
    exact ⟨by rw [feed, hp], table, records⟩

/-- `s` agrees with `p` on all that the clearance judged looks at or moves, but for the levels. -/
structure Part.alike (p s : Part) : Prop where
  force : s.force = p.force
  dry : s.dry = p.dry
  finisher : s.finisher = p.finisher
  table : s.table = p.table
  planner : s.planner = p.planner
  feed : s.feed = p.feed
  barred : s.episode.barred = p.episode.barred
  records : s.episode.records = p.episode.records

theorem Part.alike.ready (h : p.alike s) (hp : p.feed.path = .held) : s.autoSweepReady = true ↔
    (let r := { p with lines := s.lines }
    r.anyDoorOpen = false ∧ r.anyPaper = false ∧ r.strayTrayPaper = false ∧ r.finisher.state ≠ .stapling ∧
      r.finisher.state ≠ .ejecting ∧ p.force.timing.autoSweep = true ∧ p.episode.barred = false) := by
  have clear : s.clear = ({ p with lines := s.lines } : Part).clear :=
    Part.clear_of rfl h.force (by rw [h.dry]) (by rw [h.finisher]) (by rw [h.finisher])
  have spelled := ({ p with lines := s.lines } : Part).clear_spelled
  rw [Part.autoSweepReady_iff, h.feed, h.force, h.barred, clear, spelled, and_iff_right hp]
  simp only [and_assoc]

/-- In HELD with an open episode the end of an event sweeps if clear. -/
theorem Part.alike.swept (h : p.alike s) (hp : p.feed.path = .held) (hi : s.episode.isOpen = true) (sound : p.tableSound) :
    sweptIfClear p { p with lines := s.lines } s.tick s.judge.conclude := by
  have path : s.feed.path = .held := by rw [h.feed, hp]
  have via := s.judgeSet_via
  have rests : s.feed.path.rests := by rw [path]; exact ⟨by decide, by decide, by decide⟩
  obtain ⟨ready, disturbed, sheets⟩ := Part.judgeSet_ready hi
  refine sweptIfClear_of path (h.ready hp) (fun hr => ?_) fun hr => ?_
  · rcases Part.judge_rests rests with ⟨no, -⟩ | ⟨-, -, t, sweeps, k⟩
    · rw [ready, hr] at no
      cases no
    · have course := sweeps.course_of (by rw [via.table_eq rfl, h.table]; exact sound.1) k
      have dry : s.judgeSet.dry.on = p.dry.on := by rw [Part.judgeSet_dry hi, h.dry]
      rw [dry] at course
      split
      · next hd =>
        rw [if_pos hd] at course
        exact course.of_closed (by rw [via.planner_eq rfl, h.planner]) (by rw [via.table_eq rfl, h.table])
          (by rw [disturbed, h.finisher]) (by rw [sheets, h.finisher])
      · next hd =>
        rw [if_neg hd] at course
        obtain ⟨started, table⟩ := course
        refine ⟨?_, by rw [table, via.table_eq rfl, h.table]⟩
        unfold Part.startedSweep at started ⊢
        rwa [via.tick_eq rfl, via.force_eq rfl, via.feed_eq rfl, h.force, h.feed] at started
  · rcases Part.judge_rests rests with ⟨-, k⟩ | ⟨yes, -⟩
    · exact ⟨by rw [k.via.feed_eq rfl, via.feed_eq rfl], by rw [k.via.table_eq rfl, via.table_eq rfl, h.table],
        by rw [k.via.episode_eq rfl, via.episode_eq rfl, h.records]⟩
    · rw [ready, hr] at yes
      cases yes

/-! ## A door closing, and the compile tray (R117, R125) -/

/-- An event that moves a line and is then judged. -/
theorem Part.event_edge {p : Part} {t : Tick} {g : Part → Part} {line : Fin 32} {asserted : Bool} (hg : g (p.advance t) = s.judge)
    (via : Via [.notices, .episode] ((p.advance t).modLines fun l => l.edge p.force.inputs line asserted) s) :
    p.passesTo t (p.event t g) ∧ (p.event t g).lines = p.lines.edge p.force.inputs line asserted := by
  have judged := s.judge_via
  obtain ⟨passes, lines⟩ := Part.event_passes_of (p := p) (t := t) (g := g)
    (by rw [hg, judged.tick_eq rfl, via.tick_eq rfl]; rfl) (by rw [hg, judged.link_eq rfl, via.link_eq rfl]; rfl)
    (by rw [hg, judged.stored_eq rfl, via.stored_eq rfl]; rfl) (by rw [hg, judged.force_eq rfl, via.force_eq rfl]; rfl)
    (by rw [hg, judged.mask_eq rfl, via.mask_eq rfl]; rfl)
  refine ⟨passes, ?_⟩
  rw [lines, hg, judged.lines_eq rfl, via.lines_eq rfl]
  rfl

theorem Part.lineEdge_some {r : InputRole} {line : Fin 32} (h : s.force.lineOf r = some line) (asserted : Bool) :
    s.lineEdge r asserted = s.modLines fun l => l.edge s.force.inputs line asserted := by
  unfold Part.lineEdge
  rw [h]

theorem Lines.edge_level (l : Lines) (inputs : Vector InputSet 32) (line : Fin 32) (asserted : Bool) :
    (l.edge inputs line asserted).level[line] = asserted := by
  simp [Lines.edge]

/-- A door's line read back. -/
theorem Part.doorIsOpen_edge {p : Part} {d : Fin 8} {x : DoorDef} (hd : p.force.doors[d] = some x) (asserted : Bool) :
    (p.modLines fun l => l.edge p.force.inputs x.line asserted).doorIsOpen d = !asserted := by
  have line : p.force.lineOf (.door d) = some x.line := by simp [Desc.lineOf, hd]
  unfold Part.doorIsOpen Part.levelOf
  rw [Part.modLines_force, hd, line, Part.modLines_lines]
  rw [Option.isSome_some, Bool.true_and]
  exact congrArg (!·) (Lines.edge_level ..)

theorem doorClosing_taken (w : List Instr) (p : Part) (t : Tick) (sound : p.tableSound) (hi : p.feed.path = .held → p.episode.isOpen = true)
    (d : Fin 8) (x : DoorDef) (hd : p.force.doors[d] = some x) : Completes (.doorClosing t d) ⟨w, p⟩ fun q =>
      p.passesTo t q ∧ q.lines = p.lines.edge p.force.inputs x.line true ∧ q.episode.doorActive[d] = false ∧
      (p.feed.path = .held → sweptIfClear p { p with lines := q.lines } q.tick q) := by
  refine completes_next (q := p.event t fun p => p.doorEdge d true fun p => (p.judgeDoor d).judge) rfl ?_
  have line : p.force.lineOf (.door d) = some x.line := by simp [Desc.lineOf, hd]
  let moved := (p.advance t).modLines fun l => l.edge p.force.inputs x.line true
  have edge : (p.advance t).doorEdge d true (fun p => (p.judgeDoor d).judge) = (moved.judgeDoor d).judge := by
    have defined : ((p.advance t).force.doors[d]).isSome = true := by rw [show (p.advance t).force.doors[d] = some x from hd]; rfl
    unfold Part.doorEdge
    rw [if_pos defined, Part.lineEdge_some (s := p.advance t) line]
    rfl
  have via := (moved.judgeDoor_via d)
  obtain ⟨passes, lines⟩ := Part.event_edge (p := p) (t := t) (g := fun p => p.doorEdge d true fun p => (p.judgeDoor d).judge) edge
    (via.mono rfl)
  have q : (p.event t fun p => p.doorEdge d true fun p => (p.judgeDoor d).judge) = (moved.judgeDoor d).judge.conclude :=
    congrArg Part.conclude edge
  refine ⟨passes, lines, ?_, fun hp => ?_⟩
  · have same : ((moved.judgeDoor d).judge.conclude).episode.doorActive = (moved.judgeDoor d).episode.doorActive :=
      (Part.judge_sameDoors _).trans (Part.conclude_sameDoors _)
    have closed : moved.doorIsOpen d = false := Part.doorIsOpen_edge (p := p.advance t) hd true
    have set : (moved.judgeDoor d).episode.doorActive = moved.episode.doorActive.set d (moved.doorIsOpen d) := rfl
    rw [q, same, set, closed]
    simp
  · have alike : p.alike (moved.judgeDoor d) :=
      ⟨via.force_eq rfl, via.dry_eq rfl, via.finisher_eq rfl, via.table_eq rfl, via.planner_eq rfl, via.feed_eq rfl, rfl, rfl⟩
    have swept := alike.swept hp (hi hp) sound
    have tick : (p.event t fun p => p.doorEdge d true fun p => (p.judgeDoor d).judge).tick = (moved.judgeDoor d).tick :=
      passes.1
    rw [tick, lines, q]
    exact swept

theorem compileTray_taken (w : List Instr) (p : Part) (t : Tick) (sound : p.tableSound) (hi : p.feed.path = .held → p.episode.isOpen = true)
    (paper : Bool) (x : FinisherSet) (hx : p.force.finisher = some x) : Completes (.compileTrayEdge t paper) ⟨w, p⟩ fun q =>
        p.passesTo t q ∧ q.lines = p.lines.edge p.force.inputs x.compileTray paper ∧
        (p.feed.path = .held → sweptIfClear p { p with lines := q.lines } q.tick q) := by
  refine completes_next (q := p.event t fun p => (p.lineEdge .compileTray paper).judge) rfl ?_
  have line : p.force.lineOf .compileTray = some x.compileTray := by simp [Desc.lineOf, hx]
  let moved := (p.advance t).modLines fun l => l.edge p.force.inputs x.compileTray paper
  have edge : ((p.advance t).lineEdge .compileTray paper).judge = moved.judge := by
    rw [Part.lineEdge_some (s := p.advance t) line]
    rfl
  obtain ⟨passes, lines⟩ := Part.event_edge (p := p) (t := t) (g := fun p => (p.lineEdge .compileTray paper).judge) edge (.refl moved)
  have q : (p.event t fun p => (p.lineEdge .compileTray paper).judge) = moved.judge.conclude := congrArg Part.conclude edge
  refine ⟨passes, lines, fun hp => ?_⟩
  have alike : p.alike moved := ⟨rfl, rfl, rfl, rfl, rfl, rfl, rfl, rfl⟩
  have swept := alike.swept hp (hi hp) sound
  have tick : (p.event t fun p => (p.lineEdge .compileTray paper).judge).tick = moved.tick := passes.1
  rw [tick, lines, q]
  exact swept

/-- Settles O28. -/
theorem clearanceEdges : Obligations.ClearanceEdges := fun w p t sound hi =>
  ⟨doorClosing_taken w p t sound hi, compileTray_taken w p t sound hi⟩

/-! ## The sweep by itself, and its end (R126, R131) -/

theorem autoSweep_taken (w : List Instr) (p : Part) (t : Tick) (sound : p.tableSound) : Completes (.autoSweep t) ⟨w, p⟩ fun q =>
       p.passesTo t q ∧ q.lines = p.lines ∧
       (p.feed.path ≠ .idle → q.episode.records = p.episode.records ∧ q.episode.number = p.episode.number) ∧
       (p.feed.path = .held → sweptIfClear p p q.tick q) := by
  refine completes_next (q := p.event t Part.judgeClearance) rfl ?_
  obtain ⟨passes, lines⟩ := Part.event_passes (p := p) (t := t) (g := Part.judgeClearance) (Part.judgeClearance_moves _)
  have alike : p.alike (p.advance t) := ⟨rfl, rfl, rfl, rfl, rfl, rfl, rfl, rfl⟩
  have tick : (p.event t Part.judgeClearance).tick = (p.advance t).tick := passes.1
  have swept : p.feed.path = .held → (p.advance t).autoSweepReady = true →
      ∃ r, (p.advance t).sweeps r ∧ r.serves (p.event t Part.judgeClearance) := fun hp hr => by
    have e : (p.advance t).judgeClearance = (p.advance t).startSweep := if_pos hr
    have sweeps := (p.advance t).startSweep_sweeps
    refine ⟨_, sweeps, ?_⟩
    have q : p.event t Part.judgeClearance = (p.advance t).startSweep.conclude := congrArg Part.conclude e
    rw [q]
    exact Part.conclude_rests sweeps.rests
  have stays : (p.advance t).autoSweepReady = false → p.event t Part.judgeClearance = (p.advance t).conclude := fun hr =>
    congrArg Part.conclude (if_neg (by rw [hr]; exact Bool.false_ne_true))
  have held_rests : PathState.held.rests := ⟨by decide, by decide, by decide⟩
  refine ⟨passes, lines, fun hi => ?_, fun hp => ?_⟩
  · have episode : (p.event t Part.judgeClearance).episode.recorded = p.episode.recorded := by
      cases hr : (p.advance t).autoSweepReady with
      | true =>
        have hp := ((Part.autoSweepReady_iff _).mp hr).1
        obtain ⟨r, sweeps, k⟩ := swept hp hr
        rw [k.via.episode_eq rfl]
        exact sweeps.episode
      | false =>
        rw [stays hr]
        by_cases hm : (p.advance t).onTheMove
        · exact (Part.conclude_keeps (φ := fun s => s.onTheMove ∧ s.episode.recorded = p.episode.recorded) ⟨hm, rfl⟩
            (fun ⟨h, e⟩ k => ⟨by rwa [Part.onTheMove, k.via.feed_eq rfl], by rwa [k.via.episode_eq rfl]⟩)
            fun ⟨h, e⟩ => ⟨Part.judgeFeed_path h, by rwa [(Part.judgeFeed_moving_via h).episode_eq rfl]⟩).2
        · have serves := Part.conclude_rests (s := p.advance t) ⟨hi, fun h => hm (.inl h), fun h => hm (.inr h)⟩
          rw [serves.via.episode_eq rfl]
          rfl
    exact ⟨(congrArg Episode.records episode :), (congrArg Episode.number episode :)⟩
  · rw [tick]
    refine sweptIfClear_of (s := p.advance t) hp (alike.ready hp) (fun hr => ?_) fun hr => ?_
    · obtain ⟨r, sweeps, k⟩ := swept hp hr
      have course := sweeps.course_of sound.1 k
      generalize p.event t Part.judgeClearance = q at course ⊢
      split
      · next hd => exact ((if_pos hd).mp course : (p.advance t).builtPlan q).of rfl rfl rfl
      · next hd => exact (if_neg hd).mp course
    · have serves := Part.conclude_rests (s := p.advance t) (by rw [show (p.advance t).feed.path = .held from hp]; exact held_rests)
      rw [stays hr]
      exact ⟨serves.via.feed_eq rfl, serves.via.table_eq rfl, congrArg Episode.records (serves.via.episode_eq rfl)⟩

theorem sweepTimer_taken (w : List Instr) (p : Part) (d : Tick) (sound : p.tableSound) (hp : p.feed.path = .sweeping)
    (hd : p.episode.sweepTimer = some d) : Completes .sweepTimerExpiry ⟨w, p⟩ fun q =>
      p.passesTo d q ∧ q.lines = p.lines ∧ p.builtPlan q ∧ q.episode.records = p.episode.records ∧
      q.episode.areas = p.episode.areas := by
  refine completes_next (exec_expiry (g := Part.sweepDone) (timer := fun p => p.episode.sweepTimer) (fun _ => rfl) hd) ?_
  obtain ⟨passes, lines⟩ := Part.event_passes (p := p) (t := d) (g := Part.sweepDone) (Part.sweepDone_moves _)
  have done : (p.advance d).sweepDone = (((p.advance d).modEpisode fun e => { e with sweepTimer := none }).planBuild).judge := if_pos hp
  have built := Part.planBuild_builtPlan (s := (p.advance d).modEpisode fun e => { e with sweepTimer := none }) sound.1
  have episode := Part.planBuild_episode (s := (p.advance d).modEpisode fun e => { e with sweepTimer := none })
  generalize ((p.advance d).modEpisode fun e => { e with sweepTimer := none }).planBuild = s at done built episode
  have rests : s.feed.path.rests := by rw [built.1]; exact ⟨by decide, by decide, by decide⟩
  have judged : s.judge = s.judgeSet := Part.judge_rests_unheld rests (by rw [built.1]; decide)
  have q : p.event d Part.sweepDone = s.judgeSet.conclude := (congrArg Part.conclude done).trans (congrArg Part.conclude judged)
  have serves : s.judgeSet.serves s.judgeSet.conclude := Part.conclude_rests (by rwa [s.judgeSet_via.feed_eq rfl])
  have same : s.judgeSet.conclude.episode = { p.episode with sweepTimer := none } := by
    rw [serves.via.episode_eq rfl, s.judgeSet_via.episode_eq rfl, episode]
    rfl
  rw [q] at passes lines ⊢
  exact ⟨passes, lines, (built.judgeSet.serves serves).of rfl rfl rfl, by rw [same], by rw [same]⟩

/-- Settles O29. -/
theorem sweepsByItself : Obligations.SweepsByItself := ⟨autoSweep_taken, sweepTimer_taken⟩

end Sys2Proof.Machine
end

