-- ==== Sys2Proof/Proofs/SetKept.lean ====
section
/-! PROOF. What becomes of the Compile Set's cycle while an event is judged and concluded: the entries to STAPLING and EJECTING, and
what the judgements that follow leave of them. -/

namespace Sys2Proof.Machine

variable {s t u p : Part} {j : Jam}

/-! ## Counters of the PATH, TRAY and STATION groups (R160, R161) -/

theorem Stats.judged_records (x : Stats) (g : Group) : (x.judged g).path = x.path ∧ (x.judged g).tray = x.tray ∧
    (x.judged g).station = x.station ∧ (x.judged g).pathSet.width = x.pathSet.width ∧ (x.judged g).traySet.width = x.traySet.width ∧
    (x.judged g).stationSet.width = x.stationSet.width := by
  cases g <;> exact ⟨rfl, rfl, rfl, rfl, rfl, rfl⟩

theorem Part.countPath_path (s : Part) (c : Fin 10) :
    (s.countPath c).stats.path = s.stats.path.set c (raised s.stats.pathSet.width (s.stats.path[c])) := by
  unfold Part.countPath
  rw [Part.judgeWatermark_stats, (Stats.judged_records _ _).1]
  rfl

theorem Part.countPath_same (s : Part) {c d : Fin 10} (h : c ≠ d) : (s.countPath c).stats.path[d] = s.stats.path[d] := by
  rw [s.countPath_path]
  exact Vector.getElem_set_ne _ _ fun e => h (Fin.ext e)

theorem Part.countPath_raised (s : Part) (c : Fin 10) : countedUp s.stats.pathSet.width s.stats.path (s.countPath c).stats.path c := by
  unfold countedUp
  rw [s.countPath_path]
  exact Vector.getElem_set_self _

theorem Part.countTray_path (s : Part) (u : Fin 5) (c : Fin 3) : (s.countTray u c).stats.path = s.stats.path := by
  unfold Part.countTray
  rw [Part.judgeWatermark_stats, (Stats.judged_records _ _).1]
  rfl

theorem Part.countStation_path (s : Part) (st : Fin 24) (c : Fin 3) : (s.countStation st c).stats.path = s.stats.path := by
  unfold Part.countStation
  rw [Part.judgeWatermark_stats, (Stats.judged_records _ _).1]
  rfl

/-! ## The scheduled home edge (R169) -/

theorem Part.removeSheet_home (s : Part) (n : Nat) : (s.removeSheet n).dry.home = s.dry.home := rfl

theorem Part.planSheet_home (s : Part) (x : Sheet) : (s.planSheet x).dry.home = s.dry.home :=
  (Part.removeSheet_home ..).trans (congrArg Dry.home ((s.reprint_via .stranded x.pages).dry_eq rfl))

theorem Part.strand_home (s : Part) (f : Sheet → Bool) : (s.strand f).dry.home = s.dry.home := by
  unfold Part.strand
  dsimp only
  rw [(Part.addAreas_via ..).dry_eq rfl]
  rfl

theorem Part.armNext_home (s : Part) (n : Nat) : (s.armNext n).dry.home = s.dry.home := by
  unfold Part.armNext Part.scheduleLeading
  split
  · rfl
  · split
    · rfl
    · dsimp only
      split
      · rfl
      · split <;> rfl

theorem Part.pickCore_home (s : Part) (n : NextPage) : (s.pickCore n).dry.home = s.dry.home := by
  unfold Part.pickCore
  dsimp only
  rw [(Part.notePick_via ..).dry_eq rfl, (Part.callFront_via ..).dry_eq rfl, Part.modOut_dry, (Part.reserve_via ..).dry_eq rfl,
    Part.armNext_home, (Part.joinTable_via ..).dry_eq rfl, (Part.takeNext_via ..).dry_eq rfl]

theorem Part.openCore_home (s : Part) (j : Jam) (extra : AreaSet) : (s.openCore j extra).dry.home = s.dry.home := by
  unfold Part.openCore
  dsimp only
  rw [(Part.halt_via ..).dry_eq rfl, (Part.addFinisherArea_via _).dry_eq rfl, (Part.addAreas_via ..).dry_eq rfl,
    (Part.retain_via _).dry_eq rfl, Part.strand_home, (Part.makeRunOut_via ..).dry_eq rfl, (Part.feedOnEpisode_via _).dry_eq rfl,
    Part.modEpisode_dry]

theorem Part.planBuild_home (s : Part) : s.planBuild.dry.home = s.dry.home := by
  have sheets : ∀ (l : List Sheet) (p : Part), (l.foldl Part.planSheet p).dry.home = p.dry.home := by
    intro l
    induction l with
    | nil => intro p; rfl
    | cons x l ih =>
      intro p
      rw [List.foldl_cons, ih, Part.planSheet_home]
  unfold Part.planBuild
  dsimp only
  rw [(Part.notePlanReady_via _).dry_eq rfl, (Part.setPath_via ..).dry_eq rfl, Part.modPlanner_dry, (Part.planEmpty_via _).dry_eq rfl,
    (Part.planSet_via _).dry_eq rfl, sheets, Part.modEpisode_dry, (Part.stopDrives_via s).dry_eq rfl]

/-! ## A cycle entered (R151, R152) -/

theorem Part.enterStapling_finisher (s : Part) : s.enterStapling.finisher =
    { s.finisher with state := .stapling, stapleLimit := some (plusTicks s.tick s.finisherSet.limit) } := by
  unfold Part.enterStapling
  dsimp only
  split
  · rfl
  · split <;> rfl

theorem Part.enterEjecting_finisher (s : Part) (part : Bool) : (s.enterEjecting part).finisher = { s.finisher with
    state := .ejecting, split := part, ejectLimit := some (plusTicks s.tick (2 * s.finisherSet.eject)) } := by
  unfold Part.enterEjecting
  dsimp only
  split <;> rfl

theorem Part.enterEjecting_home (s : Part) (part : Bool) : (s.enterEjecting part).dry.home =
    if s.dry.on then some ⟨false, plusTicks s.tick s.finisherSet.eject⟩ else s.dry.home := by
  unfold Part.enterEjecting
  dsimp only
  cases hd : s.dry.on
  · rw [if_pos (by rw [Part.modOut_dry, Part.modFinisher_dry, hd]; rfl), if_neg Bool.false_ne_true]
    rfl
  · rw [if_neg (by rw [Part.modOut_dry, Part.modFinisher_dry, hd]; decide), if_pos rfl]
    rfl

/-! ## What a set's cycle is, and what leaves it -/

/-- The Compile Set with its outputs and its scheduled home edge. -/
def Part.cycle (s : Part) : Finisher × (Bool × Bool) × Option HomeEdge := (s.finisher, (s.out.stapler, s.out.ejector), s.dry.home)

/-- The Compile Set, its outputs and its home edge stay, no counter of the PATH record but sheets picked and episodes moves, and no
slot but one freed. -/
structure Part.setStays (s t : Part) : Prop where
  cycle : t.cycle = s.cycle
  counts : ∀ c : Fin 10, c ≠ 0 → c ≠ 6 → t.stats.path[c] = s.stats.path[c]
  slots : s.frees t

theorem Part.setStays.refl (s : Part) : s.setStays s := ⟨rfl, fun _ _ _ => rfl, Part.frees_of rfl⟩

theorem Part.setStays.trans (h : s.setStays t) (k : t.setStays u) : s.setStays u :=
  ⟨k.cycle.trans h.cycle, fun c h0 h6 => (k.counts c h0 h6).trans (h.counts c h0 h6), h.slots.trans k.slots⟩

theorem Part.setStays_of (finisher : t.finisher = s.finisher) (stapler : t.out.stapler = s.out.stapler)
    (ejector : t.out.ejector = s.out.ejector) (home : t.dry.home = s.dry.home) (stats : t.stats.path = s.stats.path)
    (slots : t.intake.slots = s.intake.slots) : s.setStays t :=
  ⟨by unfold Part.cycle; rw [finisher, stapler, ejector, home], fun c _ _ => by rw [stats], Part.frees_of slots⟩

theorem Part.setStays.of_via {A : List Block} (h : Via A s t) (hf : hasBlock A .finisher = false) (ho : hasBlock A .out = false)
    (hd : hasBlock A .dry = false) (hs : hasBlock A .stats = false) (hi : hasBlock A .intake = false) : s.setStays t :=
  Part.setStays_of (h.finisher_eq hf) (by rw [h.out_eq ho]) (by rw [h.out_eq ho]) (by rw [h.dry_eq hd]) (by rw [h.stats_eq hs])
    (by rw [h.intake_eq hi])

theorem Part.setStays.finisher (h : s.setStays t) : t.finisher = s.finisher := congrArg Prod.fst h.cycle

theorem Part.setStays.stapler (h : s.setStays t) : t.out.stapler = s.out.stapler := congrArg (fun c => c.2.1.1) h.cycle

theorem Part.setStays.ejector (h : s.setStays t) : t.out.ejector = s.out.ejector := congrArg (fun c => c.2.1.2) h.cycle

theorem Part.setStays.home (h : s.setStays t) : t.dry.home = s.dry.home := congrArg (fun c => c.2.2) h.cycle

/-- A set that no closure and no episode moves: one in a cycle, FAULTED or EMPTY. -/
abbrev Finisher.settled (f : Finisher) : Prop := f.state ≠ .compiling ∧ f.state ≠ .retained

/-- An empty set that is not split, its ejector at rest, stays so or is finished. -/
def Part.setEmptied (s t : Part) : Prop :=
  (t.finisher = .reset ∨ t.finisher.sheets = [] ∧ t.finisher.split = false ∧ t.finisher.ejectLimit = s.finisher.ejectLimit ∧
    t.finisher.ident = s.finisher.ident ∧ t.finisher.ejected = s.finisher.ejected) ∧ t.out.ejector = false

/-- What the judgements of an event may make of the Compile Set: a settled one stays; a RETAINED one is at most closed; one that
holds sheets keeps them, its staple mark and whose they are; and an empty one is at most finished. -/
structure Part.setGoesOn (s t : Part) : Prop where
  settled : s.finisher.settled → t.cycle = s.cycle ∧ t.stats.path[8] = s.stats.path[8]
  retained : s.finisher.state = .retained →
    (t.finisher = s.finisher ∨ t.finisher = { s.finisher with closed := true }) ∧ t.cycle.2 = s.cycle.2
  sheets : s.finisher.sheets ≠ [] → t.finisher.sheets = s.finisher.sheets ∧ t.finisher.toStaple = s.finisher.toStaple ∧
    t.finisher.ident = s.finisher.ident
  emptied : s.finisher.sheets = [] → s.finisher.split = false → s.out.ejector = false → s.setEmptied t
  counts : ∀ c : Fin 10, c ≠ 0 → c ≠ 6 → c ≠ 8 → t.stats.path[c] = s.stats.path[c]
  slots : s.frees t

theorem Part.setStays.goesOn (h : s.setStays t) : s.setGoesOn t where
  settled _ := ⟨h.cycle, h.counts 8 (by decide) (by decide)⟩
  retained _ := ⟨.inl h.finisher, congrArg Prod.snd h.cycle⟩
  sheets _ := by rw [h.finisher]; exact ⟨rfl, rfl, rfl⟩
  emptied sheets split ejector := by
    refine ⟨.inr ?_, h.ejector.trans ejector⟩
    rw [h.finisher]
    exact ⟨sheets, split, rfl, rfl, rfl⟩
  counts c h0 h6 _ := h.counts c h0 h6
  slots := h.slots

theorem Part.setEmptied.goesOn (h : s.setEmptied t) (k : t.setGoesOn u) : s.setEmptied u := by
  obtain ⟨e | ⟨none, unsplit, limit, ident, ejected⟩, rest⟩ := h
  · obtain ⟨cycle, -⟩ := k.settled (by rw [e]; exact ⟨by decide, by decide⟩)
    exact ⟨.inl ((congrArg Prod.fst cycle).trans e), (congrArg (fun c => c.2.1.2) cycle).trans rest⟩
  · obtain ⟨e | ⟨none', unsplit', limit', ident', ejected'⟩, rest'⟩ := k.emptied none unsplit rest
    · exact ⟨.inl e, rest'⟩
    · exact ⟨.inr ⟨none', unsplit', limit'.trans limit, ident'.trans ident, ejected'.trans ejected⟩, rest'⟩

theorem Part.setGoesOn.trans (h : s.setGoesOn t) (k : t.setGoesOn u) : s.setGoesOn u where
  settled hs := by
    obtain ⟨cycle, count⟩ := h.settled hs
    have finisher : t.finisher = s.finisher := congrArg Prod.fst cycle
    obtain ⟨cycle', count'⟩ := k.settled (by rwa [Finisher.settled, finisher])
    exact ⟨cycle'.trans cycle, count'.trans count⟩
  retained hr := by
    obtain ⟨e, cycle⟩ := h.retained hr
    have state : t.finisher.state = .retained := by rcases e with e | e <;> rw [e] <;> exact hr
    obtain ⟨e', cycle'⟩ := k.retained state
    refine ⟨?_, cycle'.trans cycle⟩
    rcases e with e | e
    · rwa [e] at e'
    · rw [e] at e'
      exact .inr (e'.elim id id)
  sheets hs := by
    obtain ⟨e, f, g⟩ := h.sheets hs
    obtain ⟨e', f', g'⟩ := k.sheets (by rwa [e])
    exact ⟨e'.trans e, f'.trans f, g'.trans g⟩
  emptied sheets split ejector := (h.emptied sheets split ejector).goesOn k
  counts c h0 h6 h8 := (k.counts c h0 h6 h8).trans (h.counts c h0 h6 h8)
  slots := h.slots.trans k.slots

theorem Part.setGoesOn.refl (s : Part) : s.setGoesOn s := (Part.setStays.refl s).goesOn

/-! ## The operations -/

theorem Part.serves.setStays (h : s.serves t) : s.setStays t := by
  refine ⟨?_, fun c _ _ => by rw [h.via.stats_eq rfl], h.slots⟩
  unfold Part.cycle
  rw [h.via.finisher_eq rfl, h.via.out_eq rfl, h.via.dry_eq rfl]

theorem Part.shifts.setStays (h : s.shifts t) : s.setStays t := .of_via h.1 rfl rfl rfl rfl rfl

theorem Part.judgeGates_setStays (s : Part) : s.setStays s.judgeGates := by
  have via := s.judgeGates_via
  have out := s.judgeGates_out
  obtain ⟨b, e⟩ := s.judgeExitGate.judgePurgeGate_out
  obtain ⟨c, k⟩ := s.judgeExitGate_out
  have out : s.judgeGates.out = { s.out with exitGate := c, purgeGate := b } := by rw [Part.judgeGates, e, k]
  exact Part.setStays_of (via.finisher_eq rfl) (by rw [out]) (by rw [out]) (by rw [via.dry_eq rfl]) (by rw [via.stats_eq rfl])
    (by rw [via.intake_eq rfl])

theorem Part.setClosed_goesOn (s : Part) : s.setGoesOn (s.modFinisher fun f => { f with closed := true }) ∨ s.finisher.settled := by
  by_cases h : s.finisher.settled
  · exact .inr h
  · exact .inl ⟨fun k => absurd k h, fun _ => ⟨.inr rfl, rfl⟩, fun _ => ⟨rfl, rfl, rfl⟩,
      fun none unsplit rest => ⟨.inr ⟨none, unsplit, rfl, rfl, rfl⟩, rest⟩, fun _ _ _ _ => rfl, Part.frees_of rfl⟩

theorem Part.judgeClosure_goesOn (s : Part) : s.setGoesOn s.judgeClosure := by
  unfold Part.judgeClosure
  dsimp only
  split
  · next h =>
    rw [Bool.and_eq_true, Bool.and_eq_true, Bool.or_eq_true, beq_iff_eq, beq_iff_eq] at h
    rcases s.setClosed_goesOn with k | ⟨hc, hr⟩
    · exact k
    · rcases h.1.1 with e | e
      · exact absurd e hc
      · exact absurd e hr
  · exact .refl s

/-- A COMPILING set's change keeps its sheets where it holds any. -/
theorem Part.setGoesOn_of_compiling (h : s.finisher.state = .compiling)
    (sheets : s.finisher.sheets ≠ [] → t.finisher.sheets = s.finisher.sheets ∧ t.finisher.toStaple = s.finisher.toStaple ∧
      t.finisher.ident = s.finisher.ident)
    (emptied : s.finisher.sheets = [] → s.finisher.split = false → t.finisher = .reset ∧ t.out.ejector = false)
    (counts : ∀ c : Fin 10, c ≠ 8 → t.stats.path[c] = s.stats.path[c]) (slots : t.intake = s.intake) : s.setGoesOn t :=
  ⟨fun k => absurd h k.1, fun k => absurd (h.symm.trans k) (by decide), sheets,
    fun none unsplit _ => ⟨.inl (emptied none unsplit).1, (emptied none unsplit).2⟩, fun c _ _ h8 => counts c h8,
    Part.frees_of (congrArg Intake.slots slots)⟩

theorem Part.endFinal_path (s : Part) {c : Fin 10} (h : c ≠ 8) : s.endFinal.stats.path[c] = s.stats.path[c] := by
  have noted : ∀ (r : Part) (b : Bool) (g : Notices → Notices), (if b then r.modNotices g else r).stats = r.stats := fun r b g => by
    cases b <;> rfl
  unfold Part.endFinal
  dsimp only
  simp only [Part.modFinisher_stats, noted]
  split
  · rfl
  · exact s.countPath_same h.symm

theorem Part.endEject_path (s : Part) (split : Bool) {c : Fin 10} (h : c ≠ 8) :
    (if split then s.endPartial else s.endFinal).stats.path[c] = s.stats.path[c] := by
  cases split
  · exact s.endFinal_path h
  · rfl

theorem Part.completeEject_path (s : Part) {c : Fin 10} (h : c ≠ 8) : s.completeEject.stats.path[c] = s.stats.path[c] := by
  unfold Part.completeEject
  dsimp only
  simp only [Part.endEject_path _ _ h, (Part.deliverPages_via ..).stats_eq rfl]
  rfl

theorem Part.completeEject_final (h : s.finisher.split = false) : s.completeEject.finisher = .reset := by
  unfold Part.completeEject
  dsimp only
  rw [h]
  exact Part.modFinisher_finisher ..

theorem Part.cycleReady_due (h : s.cycleReady = true) : s.finisher.closed = true ∨ s.finisher.split = true := by
  simp only [Part.cycleReady, Bool.and_eq_true, Bool.or_eq_true] at h
  exact h.1.1.1.1.2

theorem Part.judgeFinisher_goesOn (s : Part) : s.setGoesOn s.judgeFinisher := by
  have closure := s.judgeClosure_goesOn
  have stats := s.judgeClosure_via.stats_eq rfl
  refine closure.trans ?_
  have intake : s.judgeFinisher.intake = s.judgeClosure.intake := s.judgeFinisher_intake.trans (s.judgeClosure_via.intake_eq rfl).symm
  rcases s.judgeFinisher_cases with ⟨e, -⟩ | ⟨hr, h⟩
  · rw [e]
    exact .refl _
  · have compiling := (Part.cycleReady_state _ hr).1
    rcases h with ⟨-, he, e⟩ | ⟨-, he, -, -, -, -, e⟩ | ⟨-, he, -, e⟩ | ⟨open_, e⟩ <;> rw [e] at intake ⊢
    · refine Part.setGoesOn_of_compiling compiling (fun h => absurd he h) (fun _ _ => ⟨Part.completeEject_final rfl, ?_⟩)
        (fun c h8 => Part.completeEject_path _ h8) intake
      rw [Part.completeEject_out]
    · refine Part.setGoesOn_of_compiling compiling (fun _ => ?_) (fun none => absurd none he)
        (fun c _ => by rw [(Part.enterStapling_via _).stats_eq rfl]) intake
      rw [Part.enterStapling_finisher]
      exact ⟨rfl, rfl, rfl⟩
    · refine Part.setGoesOn_of_compiling compiling (fun _ => ?_) (fun none => absurd none he)
        (fun c _ => by rw [(Part.enterEjecting_via ..).stats_eq rfl]) intake
      rw [Part.enterEjecting_finisher]
      exact ⟨rfl, rfl, rfl⟩
    · refine Part.setGoesOn_of_compiling compiling (fun _ => ?_) (fun _ unsplit => ?_)
        (fun c _ => by rw [(Part.enterEjecting_via ..).stats_eq rfl]) intake
      · rw [Part.enterEjecting_finisher]
        exact ⟨rfl, rfl, rfl⟩
      · rcases Part.cycleReady_due hr with due | due
        · rw [open_] at due
          cases due
        · rw [unsplit] at due
          cases due

theorem Part.judgeSet_goesOn (s : Part) : s.setGoesOn s.judgeSet := s.judgeGates_setStays.goesOn.trans (Part.judgeFinisher_goesOn _)

theorem Part.pickCore_setStays (s : Part) (n : NextPage) : s.setStays (s.pickCore n) := by
  have via := s.pickCore_via n
  have out := Part.pickCore_out (s := s) n
  exact Part.setStays_of (via.finisher_eq rfl) (by rw [out]) (by rw [out]) (s.pickCore_home n) (by rw [via.stats_eq rfl])
    ((congrArg Intake.slots (s.pickCore_intake n)).trans (s.takeNext_intake n).1)

theorem Part.countTray_setStays (s : Part) (u : Fin 5) (c : Fin 3) : s.setStays (s.countTray u c) := by
  have via := s.countTray_via u c
  exact Part.setStays_of (via.finisher_eq rfl) (by rw [via.out_eq rfl]) (by rw [via.out_eq rfl]) (by rw [via.dry_eq rfl])
    (s.countTray_path u c) (by rw [via.intake_eq rfl])

theorem Part.countStation_setStays (s : Part) (st : Fin 24) (c : Fin 3) : s.setStays (s.countStation st c) := by
  have via := s.countStation_via st c
  exact Part.setStays_of (via.finisher_eq rfl) (by rw [via.out_eq rfl]) (by rw [via.out_eq rfl]) (by rw [via.dry_eq rfl])
    (s.countStation_path st c) (by rw [via.intake_eq rfl])

theorem Part.countPath_setStays (s : Part) {c : Fin 10} (h : c = 0 ∨ c = 6) : s.setStays (s.countPath c) := by
  have via := s.countPath_via c
  refine ⟨?_, fun d h0 h6 => s.countPath_same ?_, Part.frees_of (by rw [via.intake_eq rfl])⟩
  · unfold Part.cycle
    rw [via.finisher_eq rfl, via.out_eq rfl, via.dry_eq rfl]
  · rintro rfl
    exact h.elim h0 h6

theorem Part.makePick_goesOn (s : Part) (n : NextPage) : s.setGoesOn (s.makePick n) := by
  rw [Part.makePick_eq]
  have picked := ((s.pickCore_setStays n).trans (Part.countTray_setStays _ n.unit 0)).trans (Part.countPath_setStays _ (.inl rfl))
  exact (picked.trans (Part.judgeGates_setStays _)).goesOn.trans (Part.judgeFinisher_goesOn _)

theorem Part.feeds.goesOn (h : s.feeds t) : s.setGoesOn t := by
  rcases h with h | ⟨u, n, h, -, k⟩
  · exact h.setStays.goesOn
  · exact (h.setStays.goesOn.trans (u.makePick_goesOn n)).trans k.setStays.goesOn

/-! ## Jams -/

theorem Part.retain_goesOn (h : t.finisher = s.retain.finisher) (cycle : t.cycle.2 = s.cycle.2)
    (counts : ∀ c : Fin 10, c ≠ 6 → t.stats.path[c] = s.stats.path[c]) (slots : t.intake = s.intake) : s.setGoesOn t := by
  rw [Part.retain_finisher] at h
  refine ⟨fun k => ⟨Prod.ext ?_ cycle, counts 8 (by decide)⟩, fun k => ⟨.inl ?_, cycle⟩, fun _ => ?_, fun none unsplit rest => ⟨.inr ?_, ?_⟩,
    fun c _ h6 _ => counts c h6, Part.frees_of (congrArg Intake.slots slots)⟩
  · rw [if_neg k.1] at h
    exact h
  · rwa [k, if_neg (by decide)] at h
  · rw [h]
    split <;> exact ⟨rfl, rfl, rfl⟩
  · rw [h]
    split <;> exact ⟨none, unsplit, rfl, rfl, rfl⟩
  · exact (congrArg (fun c => c.1.2) cycle).trans rest

theorem Part.openEpisode_goesOn (s : Part) (j : Jam) (extra : AreaSet) : s.setGoesOn (s.openEpisode j extra) := by
  obtain ⟨b, -, out, -⟩ := s.openCore_effect j extra
  have via : Via [.notices, .stats] (s.openCore j extra) (s.openEpisode j extra) := s.openEpisode_via_core j extra
  refine Part.retain_goesOn ?_ ?_ ?_ ((via.intake_eq rfl).trans ((s.openCore_via j extra).intake_eq rfl))
  · rw [via.finisher_eq rfl, Part.openCore_finisher]
  · unfold Part.cycle
    rw [via.out_eq rfl, out, via.dry_eq rfl, s.openCore_home j extra]
  · intro c h
    have stats : ((s.openCore j extra).noteRecord 1 j).stats = s.stats :=
      ((Part.noteRecord_via ..).stats_eq rfl).trans ((s.openCore_via j extra).stats_eq rfl)
    exact (Part.countPath_same _ h.symm).trans (congrArg (fun x : Stats => x.path[c]) stats)

theorem Part.addRecord_setStays (s : Part) (j : Jam) : s.setStays (s.addRecord j) := .of_via (s.addRecord_via j) rfl rfl rfl rfl rfl

theorem Part.strand_setStays (s : Part) (f : Sheet → Bool) : s.setStays (s.strand f) := by
  have via := s.strand_via f
  exact Part.setStays_of (via.finisher_eq rfl) (by rw [via.out_eq rfl]) (by rw [via.out_eq rfl]) (s.strand_home f) (by rw [via.stats_eq rfl])
    (by rw [via.intake_eq rfl])

theorem Part.stopped_setStays (s : Part) (x : PathState) : s.setStays (s.stopDrives.setPath x) := by
  have path := s.stopDrives.setPath_via x
  have stop := s.stopDrives_via
  have out : (s.stopDrives.setPath x).out = s.stopDrives.out := path.out_eq rfl
  refine Part.setStays_of ?_ ?_ ?_ ?_ ?_ ?_
  · rw [path.finisher_eq rfl, stop.finisher_eq rfl]
  · rw [out]; rfl
  · rw [out]; rfl
  · rw [path.dry_eq rfl, stop.dry_eq rfl]
  · rw [path.stats_eq rfl, stop.stats_eq rfl]
  · rw [path.intake_eq rfl, stop.intake_eq rfl]

theorem Part.endHalting_setStays (s : Part) : s.setStays s.endHalting := by
  unfold Part.endHalting
  split
  · exact s.stopped_setStays .held
  · exact .refl s

theorem Part.abandonSweep_setStays (s : Part) (bar : Bool) : s.setStays (s.abandonSweep bar) :=
  (Part.setStays.of_via ((Via.refl s).episode (fun e => { e with sweepTimer := none, barred := e.barred || bar }) (A := [.episode]) rfl)
    rfl rfl rfl rfl rfl).trans (Part.stopped_setStays _ .held)

theorem Part.takeJam_goesOn (s : Part) (j : Jam) : s.setGoesOn (s.takeJam j) := by
  unfold Part.takeJam
  split
  case h_1 => exact (Part.setStays.of_via (s.holdOver_via j) rfl rfl rfl rfl rfl).goesOn
  case h_2 => exact .refl s
  case h_3 =>
    split
    · exact s.openEpisode_goesOn j 0
    · exact .refl s
  case h_4 | h_5 | h_6 => exact s.openEpisode_goesOn j 0
  case h_7 => exact (((s.addRecord_setStays j).trans (Part.strand_setStays ..)).trans (Part.endHalting_setStays _)).goesOn
  case h_8 => exact (s.addRecord_setStays j).goesOn
  case h_9 => exact ((s.addRecord_setStays j).trans (Part.abandonSweep_setStays ..)).goesOn

theorem Part.jamAt_goesOn (s : Part) (kind : JamKind) (st : Fin 24) (t : Tick) (x : Option Sheet) : s.setGoesOn (s.jamAt kind st t x) :=
  (s.countStation_setStays st 2).goesOn.trans (Part.takeJam_goesOn _ _)

/-! ## The path judged -/

theorem Part.enterPath_setStays (s : Part) : s.setStays s.enterPath := by
  have via := s.enterPath_via
  have out := s.enterPath_starts.2
  exact Part.setStays_of (via.finisher_eq rfl) (by rw [out]) (by rw [out]) (by rw [via.dry_eq rfl]) (by rw [via.stats_eq rfl])
    (by rw [via.intake_eq rfl])

theorem Part.enterStarting_goesOn (s : Part) : s.setGoesOn s.enterStarting := by
  have path := s.enterPath_setStays.goesOn
  rw [Part.enterStarting_eq]
  split
  · exact path.trans (Part.setStays.of_via (A := [.feed]) (Via.feed (.refl s.enterPath) _ rfl) rfl rfl rfl rfl rfl).goesOn
  · next st rest _ =>
    exact List.foldlRecOn (st :: rest) _ path fun t h st' _ => h.trans (t.jamAt_goesOn .residual st' t.tick none)

theorem Part.judgeStart_goesOn (s : Part) : s.setGoesOn s.judgeStart := by
  have sel := s.judgeSelector_shifts.setStays.goesOn
  unfold Part.judgeStart
  dsimp only
  split
  · exact sel.trans (Part.enterStarting_goesOn _)
  · exact sel

theorem Part.judgeFeed_goesOn (s : Part) : s.setGoesOn s.judgeFeed := by
  by_cases hi : s.feed.path = .idle
  · rw [Part.judgeFeed_idle hi]
    exact s.judgeStart_goesOn
  · exact (Part.judgeFeed_feeds hi).goesOn

theorem Part.conclude_goesOn (s : Part) : s.setGoesOn s.conclude :=
  Part.conclude_keeps (φ := s.setGoesOn) (.refl s) (fun h k => h.trans k.setStays.goesOn) fun h => h.trans (Part.judgeFeed_goesOn _)

/-- A sweep empties no set but a disturbed one, and that in dry run alone (R138). -/
theorem Part.startSweep_setStays (h : s.dry.on = false ∨ s.finisher.disturbed = false) : s.setStays s.startSweep := by
  have path := s.setPath_via .sweeping
  cases hd : s.dry.on with
  | true =>
    have undisturbed := h.resolve_left (by rw [hd]; decide)
    have e : s.startSweep = (s.setPath .sweeping).planBuild := if_pos (by rw [path.dry_eq rfl, hd])
    have start : s.setStays (s.setPath .sweeping) := .of_via path rfl rfl rfl rfl rfl
    rw [e]
    refine start.trans (Part.setStays_of ?_ ?_ ?_ (Part.planBuild_home _) ?_ ?_)
    · rw [Part.planBuild_finisher, path.finisher_eq rfl, undisturbed]
      rfl
    · rw [Part.planBuild_out]
    · rw [Part.planBuild_out]
    · rw [(Part.planBuild_via _).stats_eq rfl]
    · rw [(Part.planBuild_via _).intake_eq rfl]
  | false =>
    have start : s.setStays (s.setPath .sweeping) := .of_via path rfl rfl rfl rfl rfl
    rw [s.startSweep_eq hd]
    exact start.trans (Part.setStays_of rfl rfl rfl rfl rfl rfl)

/-- Leave for everything but DRY RUN's own. -/
def Mode.offDryRun : Mode := { Mode.free with dryRun := false }

theorem Part.judgeSet_on (s : Part) : s.judgeSet.dry.on = s.dry.on := by
  have moves : Moves .offDryRun .settled s .settled s.judgeSet := (Part.judgeGates_moves s).trans (Part.judgeFinisher_moves _ (.inl rfl))
  exact Dry.run_on (moves.eq_of (fun p : Part => p.dry.run) fun m => m.run_eq rfl)

theorem Part.judgeSet_undisturbed (h : s.finisher.disturbed = false) : s.judgeSet.finisher.disturbed = false := by
  have gates := s.judgeGates_via.finisher_eq rfl
  have closure : s.judgeGates.judgeClosure.finisher.disturbed = false := by
    unfold Part.judgeClosure
    dsimp only
    split
    · rw [Part.modFinisher_finisher, gates, h]
    · rw [gates, h]
  unfold Part.judgeSet
  rcases s.judgeGates.judgeFinisher_cases with ⟨e, -⟩ | ⟨-, ⟨-, -, e⟩ | ⟨-, -, -, -, -, -, e⟩ | ⟨-, -, -, e⟩ | ⟨-, e⟩⟩ <;> rw [e]
  · exact closure
  · rw [Part.completeEject_final rfl]
    rfl
  · rw [Part.enterStapling_finisher]
    exact closure
  · rw [Part.enterEjecting_finisher]
    exact closure
  · rw [Part.enterEjecting_finisher]
    exact closure

/-- The judgements of an event, where no sweep empties a disturbed set. -/
theorem Part.judge_goesOn (h : s.feed.path ≠ .held ∨ s.dry.on = false ∨ s.finisher.disturbed = false) : s.setGoesOn s.judge := by
  have set := s.judgeSet_goesOn
  rw [Part.judge_eq]
  refine (set.trans ?_).trans (Part.judgeFeed_goesOn _)
  unfold Part.judgeClearance
  split
  · next hr =>
    have held : s.feed.path = .held := by
      have := ((Part.autoSweepReady_iff _).mp hr).1
      rwa [s.judgeSet_via.feed_eq rfl] at this
    refine (Part.startSweep_setStays ?_).goesOn
    rcases h with h | h | h
    · exact absurd held h
    · exact .inl (s.judgeSet_on.trans h)
    · exact .inr (Part.judgeSet_undisturbed h)
  · exact .refl _

end Sys2Proof.Machine
end

