-- ==== Sys2Proof/Proofs/Limits.lean ====
section
/-! PROOF. The Finisher Unit's limits (O41) and home edges (O39). -/

namespace Sys2Proof.Machine

variable {s t u p : Part} {j : Jam}

/-! ## A settled set through the end of an event -/

theorem Part.addFinisherArea_setStays (s : Part) : s.setStays s.addFinisherArea :=
  .of_via s.addFinisherArea_via rfl rfl rfl rfl rfl

/-- What an event leaves of the set its operation left, where no sweep empties a disturbed set. -/
theorem Part.ends_goesOn (h : s.feed.path ≠ .held ∨ s.dry.on = false ∨ s.finisher.disturbed = false) : s.setGoesOn s.judge.conclude :=
  (Part.judge_goesOn h).trans (Part.conclude_goesOn _)

theorem Part.setGoesOn.settled_eq (h : s.setGoesOn t) (k : s.finisher.settled) : t.finisher = s.finisher ∧ t.out.stapler = s.out.stapler ∧
    t.out.ejector = s.out.ejector ∧ t.dry.home = s.dry.home := by
  obtain ⟨cycle, -⟩ := h.settled k
  exact ⟨congrArg Prod.fst cycle, congrArg (fun c => c.2.1.1) cycle, congrArg (fun c => c.2.1.2) cycle, congrArg (fun c => c.2.2) cycle⟩

theorem Part.setGoesOn.undisturbed (h : s.setGoesOn t) (k : s.finisher.settled ∨ s.finisher.state = .retained)
    (hd : s.finisher.disturbed = false) : t.finisher.disturbed = false := by
  rcases k with k | k
  · rw [(h.settled_eq k).1, hd]
  · rcases (h.retained k).1 with e | e <;> rw [e, hd]

/-- A set RETAINED stays so, with its outputs. -/
theorem Part.setGoesOn.retained_eq (h : s.setGoesOn t) (k : s.finisher.state = .retained) : t.finisher.state = .retained ∧
    t.finisher.ejectLimit = s.finisher.ejectLimit ∧ t.finisher.sheets = s.finisher.sheets ∧ t.out.ejector = s.out.ejector := by
  obtain ⟨e, cycle⟩ := h.retained k
  refine ⟨?_, ?_, ?_, congrArg (fun c => c.1.2) cycle⟩
  all_goals rcases e with e | e <;> rw [e]
  · exact k
  · exact k

/-! ## The limits (R151, R153) -/

theorem Part.tookJam.of_core {q r : Part} (h : r.tookJam j q) (path : r.feed.path = p.feed.path) (core : r.episode.core = p.episode.core) :
    p.tookJam j q := by
  have number : r.episode.number = p.episode.number := (congrArg Episode.number core :)
  have isOpen : r.episode.isOpen = p.episode.isOpen := (congrArg Episode.isOpen core :)
  have firstKind : r.episode.firstKind = p.episode.firstKind := (congrArg Episode.firstKind core :)
  have records : r.episode.records = p.episode.records := (congrArg Episode.records core :)
  have overflow : r.episode.overflow = p.episode.overflow := (congrArg Episode.overflow core :)
  unfold Part.tookJam Part.openedWith Part.extendedWith at h ⊢
  rwa [← path, ← number, ← isOpen, ← firstKind, ← records, ← overflow]

/-- The jam a limit declares. -/
abbrev Part.failed (p : Part) (d : Tick) (q : Part) : Prop :=
  (p.feed.path = .idle ∨ p.feed.path.takesJams = true → p.tookJam ⟨.stapleFail, none, none, some 8, none, d, none, none⟩ q) ∧
    (p.feed.path = .unconfigured → q.feed.path = .unconfigured ∧ q.episode.isOpen = p.episode.isOpen ∧
      q.episode.records = p.episode.records ∧ q.episode.heldOver = some d)

theorem PathState.unconfigured_rests : PathState.unconfigured.rests := ⟨by decide, by decide, by decide⟩

/-- In UNCONFIGURED the end of an event leaves path and episode. -/
theorem Part.unconfigured_ends (h : s.feed.path = .unconfigured) :
    s.judge.conclude.feed = s.feed ∧ s.judge.conclude.episode = s.episode := by
  have rests : s.feed.path.rests := by rw [h]; exact PathState.unconfigured_rests
  have set := s.judgeSet_via
  have serves : s.judgeSet.serves s.judgeSet.conclude := Part.conclude_rests (by rwa [set.feed_eq rfl])
  rw [Part.judge_rests_unheld rests (by rw [h]; decide)]
  exact ⟨(serves.via.feed_eq rfl).trans (set.feed_eq rfl), (serves.via.episode_eq rfl).trans (set.episode_eq rfl)⟩

theorem Part.stapleFail_fails (s : Part) (d : Tick) : s.failed d (s.stapleFail d).judge.conclude := by
  refine ⟨fun h => ?_, fun h => ?_⟩
  · have takes : s.takes (plainJam .stapleFail none (some 8) d) := by
      rcases h with h | h
      · exact .inr ⟨h, .inr rfl⟩
      · exact .inl h
    exact (Part.takeJam_tookJam takes).1.ends
  · have e : s.stapleFail d = s.modEpisode fun x => { x with heldOver := some d } := by
      unfold Part.stapleFail Part.takeJam Part.holdOver
      rw [h]
      rfl
    obtain ⟨feed, episode⟩ := Part.unconfigured_ends (s := s.modEpisode fun x => { x with heldOver := some d }) h
    rw [e, feed, episode]
    exact ⟨h, rfl, rfl, rfl⟩

theorem Part.failed.of_core {q : Part} {d : Tick} (h : s.failed d q) (path : s.feed.path = p.feed.path)
    (core : s.episode.core = p.episode.core) : p.failed d q := by
  obtain ⟨taken, held⟩ := h
  have isOpen : s.episode.isOpen = p.episode.isOpen := (congrArg Episode.isOpen core :)
  have records : s.episode.records = p.episode.records := (congrArg Episode.records core :)
  refine ⟨fun k => (taken (by rwa [path])).of_core path core, fun k => ?_⟩
  rw [← isOpen, ← records]
  exact held (by rwa [path])

/-- The set when its staple limit has expired, the jam not yet declared. -/
def Part.unstapled (s : Part) : Part :=
  let s := (s.modOut fun o => { o with stapler := false }).modFinisher fun f => { f with stapleLimit := none, state := .faulted }
  let s := s.modDry fun x => { x with home := none }
  if s.episode.isOpen then s.addFinisherArea else s

theorem Part.unstapled_left (s : Part) : s.unstapled.finisher = { s.finisher with stapleLimit := none, state := .faulted } ∧
    s.unstapled.out.stapler = false ∧ s.unstapled.feed = s.feed ∧ s.unstapled.episode.core = s.episode.core := by
  unfold Part.unstapled
  dsimp only
  split
  · rw [(Part.addFinisherArea_via _).finisher_eq rfl, (Part.addFinisherArea_via _).out_eq rfl, (Part.addFinisherArea_via _).feed_eq rfl,
      Part.addFinisherArea_core]
    exact ⟨rfl, rfl, rfl, rfl⟩
  · exact ⟨rfl, rfl, rfl, rfl⟩

/-- The set when its eject limit has expired, the jam not yet declared. -/
def Part.unejected (s : Part) : Part :=
  ((s.modOut fun o => { o with ejector := false }).modFinisher fun f => { f with ejectLimit := none, state := .retained }).modDry fun x =>
    { x with home := none }

/-- The jam declared and the event ended, of an undisturbed set that no closure moves on. -/
theorem Part.stapleFail_goesOn (hd : s.finisher.disturbed = false) (k : s.finisher.settled ∨ s.finisher.state = .retained) (d : Tick) :
    s.setGoesOn (s.stapleFail d).judge.conclude := by
  have taken : s.setGoesOn (s.stapleFail d) := s.takeJam_goesOn _
  exact taken.trans (Part.ends_goesOn (.inr (.inr (taken.undisturbed k hd))))

theorem exec_stapleLimit {w : List Instr} {p : Part} {d : Tick} (h : p.finisher.stapleLimit = some d) :
    exec .stapleLimitExpiry ⟨w, p⟩ = .next ⟨w, p.event d (Part.stapleLimit d)⟩ := by
  show Host.Outcome.next (State.mk w (p.expiry p.finisher.stapleLimit (Part.stapleLimit (p.finisher.stapleLimit.getD 0)))) = _
  rw [h]
  rfl

theorem exec_ejectLimit {w : List Instr} {p : Part} {d : Tick} (h : p.finisher.ejectLimit = some d) :
    exec .ejectLimitExpiry ⟨w, p⟩ = .next ⟨w, p.event d (Part.ejectLimit d)⟩ := by
  show Host.Outcome.next (State.mk w (p.expiry p.finisher.ejectLimit (Part.ejectLimit (p.finisher.ejectLimit.getD 0)))) = _
  rw [h]
  rfl

theorem stapleLimit_left (w : List Instr) (p : Part) (d : Tick) (hd : p.finisher.disturbed = false) (hs : p.finisher.state = .stapling)
    (ht : p.finisher.stapleLimit = some d) : Completes .stapleLimitExpiry ⟨w, p⟩ fun q =>
      p.passesTo d q ∧ q.lines = p.lines ∧ q.finisher = { p.finisher with state := .faulted, stapleLimit := none } ∧
      q.out.stapler = false ∧ p.failed d q := by
  refine completes_next (exec_stapleLimit ht) ?_
  obtain ⟨passes, lines⟩ := Part.event_passes (p := p) (t := d) (g := Part.stapleLimit d) (Part.stapleLimit_moves _ d)
  have e : Part.stapleLimit d (p.advance d) = ((p.advance d).unstapled.stapleFail d).judge := if_pos hs
  have q : p.event d (Part.stapleLimit d) = ((p.advance d).unstapled.stapleFail d).judge.conclude := congrArg Part.conclude e
  obtain ⟨finisher, stapler, feed, core⟩ := (p.advance d).unstapled_left
  rw [q] at passes lines ⊢
  generalize (p.advance d).unstapled = s at passes lines finisher stapler feed core ⊢
  have state : s.finisher.state = .faulted := by rw [finisher]
  have settled : s.finisher.settled := by rw [Finisher.settled, state]; exact ⟨by decide, by decide⟩
  obtain ⟨finisher', stapler', -⟩ := (Part.stapleFail_goesOn (s := s) (by rw [finisher]; exact hd) (.inl settled) d).settled_eq settled
  exact ⟨passes, lines, finisher'.trans finisher, stapler'.trans stapler, (s.stapleFail_fails d).of_core (by rw [feed]; rfl) core⟩

theorem ejectLimit_left (w : List Instr) (p : Part) (d : Tick) (hd : p.finisher.disturbed = false) (hs : p.finisher.state = .ejecting)
    (ht : p.finisher.ejectLimit = some d) : Completes .ejectLimitExpiry ⟨w, p⟩ fun q =>
      p.passesTo d q ∧ q.lines = p.lines ∧ q.finisher.state = .retained ∧ q.finisher.ejectLimit = none ∧
      q.finisher.sheets = p.finisher.sheets ∧ q.out.ejector = false ∧ p.failed d q := by
  refine completes_next (exec_ejectLimit ht) ?_
  obtain ⟨passes, lines⟩ := Part.event_passes (p := p) (t := d) (g := Part.ejectLimit d) (Part.ejectLimit_moves _ d)
  have e : Part.ejectLimit d (p.advance d) = ((p.advance d).unejected.stapleFail d).judge := if_pos hs
  have q : p.event d (Part.ejectLimit d) = ((p.advance d).unejected.stapleFail d).judge.conclude := congrArg Part.conclude e
  have finisher : (p.advance d).unejected.finisher = { p.finisher with ejectLimit := none, state := .retained } := rfl
  have ejector : (p.advance d).unejected.out.ejector = false := rfl
  have feed : (p.advance d).unejected.feed = p.feed := rfl
  have episode : (p.advance d).unejected.episode = p.episode := rfl
  rw [q] at passes lines ⊢
  generalize (p.advance d).unejected = s at passes lines finisher ejector feed episode ⊢
  have state : s.finisher.state = .retained := by rw [finisher]
  obtain ⟨state', limit, sheets, ejector'⟩ :=
    (Part.stapleFail_goesOn (s := s) (by rw [finisher]; exact hd) (.inr state) d).retained_eq state
  rw [finisher] at limit sheets
  exact ⟨passes, lines, state', limit, sheets, ejector'.trans ejector, (s.stapleFail_fails d).of_core (by rw [feed]) (by rw [episode])⟩

/-- Settles O41. -/
theorem finisherLimits : Obligations.FinisherLimits := fun w p d hd =>
  ⟨fun hs ht => stapleLimit_left w p d hd hs ht, fun hs ht => ejectLimit_left w p d hd hs ht⟩

end Sys2Proof.Machine
end

