-- ==== Sys2Proof/Proofs/HomeEdges.lean ====
section
/-! PROOF. The home edges of the stapler and the ejector (O39). -/

namespace Sys2Proof.Machine

variable {s t u p : Part} {j : Jam}

/-! ## SET DONE is made pending by the end of a set alone (R158) -/

theorem Part.setPath_setDone (s : Part) (x : PathState) : (s.setPath x).notices.setDone = s.notices.setDone := by
  unfold Part.setPath
  split <;> rfl

theorem Part.judgeWatermark_setDone (s : Part) (g : Group) (r c : Nat) : (s.judgeWatermark g r c).notices.setDone = s.notices.setDone := by
  unfold Part.judgeWatermark
  dsimp only
  split
  · cases g <;> rfl
  · rfl

theorem Part.judgeIntakeLow_setDone (s : Part) (k : Queue) : (s.judgeIntakeLow k).notices.setDone = s.notices.setDone := by
  cases k <;> rfl

theorem Part.enterIdle_setDone (s : Part) : s.enterIdle.notices.setDone = s.notices.setDone := by
  unfold Part.enterIdle
  rw [Part.setPath_setDone]
  rfl

theorem Part.enterPath_setDone (s : Part) : s.enterPath.notices.setDone = s.notices.setDone := by
  unfold Part.enterPath Part.runDrives
  dsimp only
  rw [Part.modOut_notices, Part.modOut_notices, Part.setPath_setDone]
  rfl

theorem Part.enterDraining_setDone (s : Part) : s.enterDraining.notices.setDone = s.notices.setDone := by
  unfold Part.enterDraining
  rw [(Part.armRunOn_via _).notices_eq rfl, Part.setPath_setDone]
  rfl

theorem Part.openCore_setDone (s : Part) (j : Jam) (extra : AreaSet) : (s.openCore j extra).notices.setDone = s.notices.setDone := by
  have halt : ∀ (p : Part) (b : Bool), (p.halt b).notices.setDone = p.notices.setDone := fun p b => by
    unfold Part.halt
    split <;> exact Part.setPath_setDone ..
  unfold Part.openCore
  dsimp only
  rw [halt, (Part.addFinisherArea_via _).notices_eq rfl, (Part.addAreas_via ..).notices_eq rfl, (Part.retain_via _).notices_eq rfl,
    (Part.strand_via ..).notices_eq rfl, (Part.makeRunOut_via ..).notices_eq rfl, (Part.feedOnEpisode_via _).notices_eq rfl]
  rfl

theorem Part.planBuild_setDone (s : Part) : s.planBuild.notices.setDone = s.notices.setDone := by
  have sheets : ∀ (l : List Sheet) (p : Part), (l.foldl Part.planSheet p).notices = p.notices := fun l p =>
    (Via.fold (A := [.table, .stations, .planner, .dry]) (.refl p) l fun p x => p.planSheet_via x).notices_eq rfl
  have ready : ∀ p : Part, p.notePlanReady.notices.setDone = p.notices.setDone := fun _ => rfl
  unfold Part.planBuild
  dsimp only
  rw [ready, Part.setPath_setDone, Part.modPlanner_notices, (Part.planEmpty_via _).notices_eq rfl,
    (Part.planSet_via _).notices_eq rfl, sheets, Part.modEpisode_notices, (Part.stopDrives_via s).notices_eq rfl]

theorem Part.takeNext_setDone (s : Part) (n : NextPage) : (s.takeNext n).notices.setDone = s.notices.setDone := by
  unfold Part.takeNext
  dsimp only
  split
  · rfl
  · exact Part.judgeIntakeLow_setDone ..
  · exact Part.judgeIntakeLow_setDone ..

theorem Part.notePick_setDone (s : Part) (n : NextPage) : (s.notePick n).notices.setDone = s.notices.setDone := by
  unfold Part.notePick
  dsimp only
  split <;> rfl

theorem Part.pickCore_setDone (s : Part) (n : NextPage) : (s.pickCore n).notices.setDone = s.notices.setDone := by
  unfold Part.pickCore
  dsimp only
  rw [Part.notePick_setDone, (Part.callFront_via ..).notices_eq rfl, Part.modOut_notices, (Part.reserve_via ..).notices_eq rfl,
    (Part.armNext_via ..).notices_eq rfl, (Part.joinTable_via ..).notices_eq rfl, s.takeNext_setDone]

theorem Part.noteSpoil_setDone (s : Part) (sheet page n : Nat) : (s.noteSpoil sheet page n).notices.setDone = s.notices.setDone := by
  unfold Part.noteSpoil
  dsimp only
  split <;> rfl

/-- Leave for what the judgements at the end of an event do. -/
def Mode.judging : Mode :=
  { Mode.free with
    withdraw := false, doors := false, define := false, clear := false, deliver := false, accept := false, abandon := false, learn := false }

/-- With the set EMPTY no set ends. -/
theorem Move.setDone_eq {A : List Block} {a b : Phase} (m : Move .judging A a s b t) (h : s.finisher = .reset) :
    t.notices.setDone = s.notices.setDone := by
  have state : s.finisher.state = .empty := by rw [h]; rfl
  cases hA : hasBlock A .notices with
  | false => exact congrArg Notices.setDone (m.via.notices_eq hA)
  | true =>
    cases m with
    | discard => exact rfl
    | mask _ hw => cases hw
    | taken _ _ _ hw => cases hw
    | define _ _ _ hq => cases hq
    | dropDoorNotices hq => cases hq
    | countStation => exact Part.judgeWatermark_setDone ..
    | countTray => exact Part.judgeWatermark_setDone ..
    | countPath => exact Part.judgeWatermark_setDone ..
    | clearCounters _ _ _ hq => cases hq
    | setWidth _ _ _ hq => cases hq
    | judgeTrayEmpty => exact rfl
    | judgeBinFull => exact rfl
    | judgePurgeFull => exact rfl
    | judgeIntakeLow k => exact Part.judgeIntakeLow_setDone ..
    | judgeDoor => exact rfl
    | learnAt _ _ _ hq => cases hq
    | acceptPage _ _ _ _ hq => cases hq
    | abandon _ _ _ _ hq => cases hq
    | ramped => exact Part.setPath_setDone ..
    | drain => exact Part.enterDraining_setDone _
    | goBack => exact Part.setPath_setDone ..
    | runOnDone => exact Part.enterIdle_setDone _
    | closed => exact Part.enterIdle_setDone _
    | start => exact Part.enterPath_setDone _
    | startJammed st =>
      unfold Part.startJammed
      rw [Part.openCore_setDone, Part.countStation, Part.judgeWatermark_setDone]
      exact Part.enterPath_setDone _
    | pick n => exact s.pickCore_setDone n
    | deliver _ hq => cases hq
    | spoiled => exact Part.noteSpoil_setDone ..
    | openEpisode => exact Part.openCore_setDone ..
    | noteRecord k j => exact rfl
    | halted => exact Part.setPath_setDone ..
    | abandonSweep => exact Part.setPath_setDone ..
    | startSweep _ hd =>
      rw [s.startSweep_eq hd]
      exact Part.setPath_setDone ..
    | planBuild => rw [Part.planBuild_setDone, Part.setPath_setDone]
    | reheld => exact Part.setPath_setDone ..
    | discardAll _ hw => cases hw
    | resetIdle => exact Part.enterIdle_setDone _
    | stapled hs =>
      rw [state] at hs
      cases hs
    | ejected _ hs =>
      rw [state] at hs
      rcases hs with hs | ⟨hs, -⟩ <;> cases hs
    | _ => cases hA

/-- An EMPTY set stays as it is. -/
theorem Move.reset_eq {A : List Block} {a b : Phase} (m : Move .judging A a s b t) (h : s.finisher = .reset) : t.finisher = .reset := by
  have state : s.finisher.state = .empty := by rw [h]; rfl
  have retain : s.retain.finisher = .reset := by rw [Part.retain_finisher, h]; rfl
  cases hA : hasBlock A .finisher with
  | false => exact (m.via.finisher_eq hA).trans h
  | true =>
    cases m with
    | abandon _ _ _ _ hq => cases hq
    | startJammed st =>
      have started : (s.enterPath.countStation st 2).finisher = .reset := by
        rw [(Part.countStation_via ..).finisher_eq rfl, s.enterPath_via.finisher_eq rfl, h]
      unfold Part.startJammed
      rw [Part.openCore_finisher, Part.retain_finisher, started]
      rfl
    | deliver _ hq => cases hq
    | openEpisode => rw [Part.openCore_finisher, retain]
    | planBuild => rw [Part.planBuild_finisher, (Part.setPath_via ..).finisher_eq rfl, h]; rfl
    | discardAll _ hw => cases hw
    | finisher _ _ hn => exact absurd h hn
    | staple hs => rw [state] at hs; rcases hs with hs | hs <;> cases hs
    | eject _ hs => rw [state] at hs; cases hs
    | stapled hs => rw [state] at hs; cases hs
    | ejected _ hs => rw [state] at hs; rcases hs with hs | ⟨hs, -⟩ <;> cases hs
    | retain => exact retain
    | recompile hs => rw [state] at hs; cases hs
    | abort hs => rw [h] at hs; cases hs
    | disturb =>
      unfold Part.disturb
      rw [h]
      exact h
    | stapleFails hs => rw [state] at hs; cases hs
    | ejectFails hs => rw [state] at hs; cases hs
    | dropStapleLimit => rw [Part.modFinisher_finisher, h]; rfl
    | dropEjectLimit => rw [Part.modFinisher_finisher, h]; rfl
    | _ => cases hA

theorem Part.judge_setDone (h : s.finisher = .reset) : s.judge.notices.setDone = s.notices.setDone := by
  have kept : s.judge.finisher = .reset ∧ s.judge.notices.setDone = s.notices.setDone :=
    Moves.keeps (I := fun _ r => r.finisher = .reset ∧ r.notices.setDone = s.notices.setDone)
      (fun m h => ⟨m.reset_eq h.1, (m.setDone_eq h.1).trans h.2⟩) (Part.judge_moves (q := .judging) s) ⟨h, rfl⟩
  exact kept.2

/-! ## A home edge as an event (R13, R169) -/

/-- A staple or an eject reaches home. -/
def Part.home (staple : Bool) (s : Part) : Part := if staple then s.stapleHome else s.ejectHome

theorem Part.home_moves (s : Part) (staple : Bool) {q : Mode} : Moves q .settled s .settled (s.home staple) := by
  cases staple
  · exact s.ejectHome_moves
  · exact s.stapleHome_moves

/-- The command of a home edge, the line's own outside dry run and synthesised in it. -/
abbrev Part.bringsHome (p : Part) (staple : Bool) (c : Instr) (t : Tick) : Prop :=
  (c = (if staple then .stapleHomeEdge t true else .ejectHomeEdge t true) ∧ p.dry.on = false ∧ p.force.finisher.isSome = true) ∨
    (c = .synthesisedHomeEdge ∧ p.dry.on = true ∧ p.dry.home = some ⟨staple, t⟩)

/-- What a home edge's event finds: the part at its tick, the line or the schedule moved. -/
structure Part.atHome (p : Part) (t : Tick) (s : Part) : Prop where
  via : Via [.tick, .lines, .dry] p s
  tick : s.tick = laterOf p.tick t
  dry : s.dry.on = p.dry.on

theorem Part.atHome.passes {d : Tick} {g : Part → Part} {staple : Bool} (h : p.atHome d s) (e : g (p.advance d) = (s.home staple).judge) :
    p.passesTo d (p.event d g) := by
  have moves : Moves .inner .settled s .settled (s.home staple).judge := (s.home_moves staple).trans (Part.judge_moves _)
  obtain ⟨tick, -, link, stored, force, mask⟩ := moves.inner_eq
  rw [← e] at tick link stored force mask
  exact (Part.event_passes_of (tick.trans h.tick) (link.trans (h.via.link_eq rfl)) (stored.trans (h.via.stored_eq rfl))
    (force.trans (h.via.force_eq rfl)) (mask.trans (h.via.mask_eq rfl))).1

theorem exec_homeEdge {w : List Instr} {p : Part} {c : Instr} {t : Tick} {staple : Bool} (h : p.bringsHome staple c t) :
    ∃ s g, p.atHome t s ∧ g (p.advance t) = (s.home staple).judge ∧ exec c ⟨w, p⟩ = .next ⟨w, p.event t g⟩ := by
  rcases h with ⟨rfl, dry, defined⟩ | ⟨rfl, dry, home⟩
  · obtain ⟨x, hx⟩ := Option.isSome_iff_exists.mp defined
    have edge : ∀ (r : InputRole) (g : Part → Part), (p.force.lineOf r).isSome = true →
        (p.advance t).homeEdge r true g = (g ((p.advance t).lineEdge r true)).judge := fun r g hr => by
      have via := (p.advance t).lineEdge_via r true
      unfold Part.homeEdge
      dsimp only
      rw [if_pos]
      have off : (p.advance t).dry.on = false := dry
      have here : ((p.advance t).force.lineOf r).isSome = true := hr
      rw [via.dry_eq rfl, via.force_eq rfl, off, here]
      rfl
    have found : ∀ r : InputRole, p.atHome t ((p.advance t).lineEdge r true) := fun r =>
      have via := (p.advance t).lineEdge_via r true
      ⟨((p.advance_via t).mono rfl).andThen via rfl, via.tick_eq rfl, by rw [via.dry_eq rfl]; rfl⟩
    cases staple
    · exact ⟨_, fun q => q.homeEdge .ejectHome true Part.ejectHome, found .ejectHome,
        edge .ejectHome Part.ejectHome (by simp [Desc.lineOf, hx]), rfl⟩
    · exact ⟨_, fun q => q.homeEdge .stapleHome true Part.stapleHome, found .stapleHome,
        edge .stapleHome Part.stapleHome (by simp [Desc.lineOf, hx]), rfl⟩
  · refine ⟨(p.advance t).modDry fun d => { d with home := none }, Part.takeHome ⟨staple, t⟩,
      ⟨((p.advance_via t).mono rfl).dry _ rfl, rfl, rfl⟩, ?_, ?_⟩
    · exact if_pos dry
    · show Host.Outcome.next (State.mk w (match p.dry.home with
        | none => p
        | some h => p.event h.tick (Part.takeHome h))) = _
      rw [home]

/-! ## Pages counted delivered (R35, R37) -/

theorem Part.countedDelivered.frees {q r : Part} {job : Nat} {pages : List Page} (h : p.countedDelivered job pages q) (k : q.frees r) :
    p.countedDelivered job pages r := by
  intro i hi x hx last hl
  rcases k i with e | ⟨gone, y, hy, closed, balanced⟩
  · rw [e]
    exact h i hi x hx last hl
  · rcases h i hi x hx last hl with e | ⟨e, -⟩
    · obtain rfl := Option.some.inj (hy.symm.trans e)
      exact .inr ⟨gone, closed, balanced⟩
    · rw [e] at hy
      cases hy

theorem Part.modSlot_slot (s : Part) (i : Fin 8) (g : Slot → Slot) : (s.modSlot i g).intake.slots[i] = (s.intake.slots[i]).map g := by
  simp [Part.modSlot]

theorem Part.deliverPages_counts (s : Part) (job : Nat) (pages : List Page) : s.countedDelivered job pages (s.deliverPages job pages) := by
  intro i hi x hx last hl
  have counted : ∀ r : Part, r.intake.slots[i] = some { x with delivered := x.delivered + pages.length, lastPage := some last.id } →
      (r.examineSlot i).intake.slots[i] = some { x with delivered := x.delivered + pages.length, lastPage := some last.id } ∨
        ((r.examineSlot i).intake.slots[i] = none ∧ x.closed = true ∧ x.accepted = x.delivered + pages.length + x.abandoned) := by
    intro r hr
    rcases r.examineSlot_frees i i with e | ⟨gone, y, hy, closed, balanced⟩
    · exact .inl (e.trans hr)
    · obtain rfl := Option.some.inj (hy.symm.trans hr)
      exact .inr ⟨gone, closed, balanced⟩
  have e : s.deliverPages job pages = ((s.modSlot i fun x => { x with
      delivered := x.delivered + pages.length, lastPage := some last.id }).noteProgress i).examineSlot i := by
    unfold Part.deliverPages
    rw [hi, Option.mem_def.mp hl]
  rw [e]
  refine counted _ ?_
  refine (s.modSlot_slot i _).trans ?_
  rw [Option.mem_def.mp hx]
  rfl

theorem Part.countedDelivered.of {q r : Part} {job : Nat} {pages : List Page} (h : r.countedDelivered job pages q)
    (e : r.intake = p.intake) : p.countedDelivered job pages q := by
  unfold Part.countedDelivered at h ⊢
  rwa [← e]

/-! ## The home edges taken (R151, R152) -/

theorem Part.stapleHome_taken (h : s.finisher.state = .stapling) : s.stapleHome.finisher = { s.finisher with
      state := .ejecting, stapled := true, split := false, stapleLimit := none
      ejectLimit := some (plusTicks s.tick (2 * s.finisherSet.eject)) } ∧
    s.stapleHome.out.stapler = false ∧ s.stapleHome.out.ejector = true ∧
    s.stapleHome.dry.home = (if s.dry.on then some ⟨false, plusTicks s.tick s.finisherSet.eject⟩ else none) ∧
    countedUp s.stats.pathSet.width s.stats.path s.stapleHome.stats.path 7 := by
  have e : s.stapleHome = ((((s.modOut fun o => { o with stapler := false }).modFinisher fun f =>
      { f with stapleLimit := none, stapled := true }).modDry fun d => { d with home := none }).countPath 7).enterEjecting false := if_pos h
  have raised := Part.countPath_raised (((s.modOut fun o => { o with stapler := false }).modFinisher fun f =>
      { f with stapleLimit := none, stapled := true }).modDry fun d => { d with home := none }) 7
  have via := Part.countPath_via (((s.modOut fun o => { o with stapler := false }).modFinisher fun f =>
      { f with stapleLimit := none, stapled := true }).modDry fun d => { d with home := none }) 7
  rw [e, Part.enterEjecting_finisher, Part.enterEjecting_out, Part.enterEjecting_home, (Part.enterEjecting_via ..).stats_eq rfl]
  unfold Part.finisherSet
  rw [via.finisher_eq rfl, via.out_eq rfl, via.dry_eq rfl, via.tick_eq rfl, via.force_eq rfl]
  exact ⟨rfl, rfl, rfl, rfl, raised⟩

theorem Part.endEject_deliver (s : Part) : ∃ r : Part,
    r = (((s.modOut fun o => { o with ejector := false }).modFinisher fun f => { f with ejectLimit := none }).modDry fun d =>
      { d with home := none }).deliverPages (s.finisher.ident.getD (0, 0)).1 (s.finisher.sheets.flatMap Held.pages) ∧
    s.completeEject = if s.finisher.split then r.endPartial else r.endFinal := ⟨_, rfl, rfl⟩

theorem Part.completeEject_delivers (s : Part) :
    s.countedDelivered (s.finisher.ident.getD (0, 0)).1 (s.finisher.sheets.flatMap Held.pages) s.completeEject := by
  obtain ⟨r, hr, intake, -⟩ := s.completeEject_cases
  have delivered := Part.deliverPages_counts (((s.modOut fun o => { o with ejector := false }).modFinisher fun f =>
    { f with ejectLimit := none }).modDry fun d => { d with home := none }) (s.finisher.ident.getD (0, 0)).1
      (s.finisher.sheets.flatMap Held.pages)
  rw [← hr] at delivered
  exact (delivered.frees (Part.frees_of (congrArg Intake.slots intake))).of rfl

theorem Part.completeEject_partial (h : s.finisher.split = true) : s.completeEject.finisher = { s.finisher with
    sheets := [], ejected := ejectedAfter s.finisher.ejected s.finisher.sheets.length, split := false, ejectLimit := none
    state := if s.episode.isOpen then .retained else .compiling } := by
  obtain ⟨r, hr, e⟩ := s.endEject_deliver
  have via : Via [.notices, .intake] _ r := hr ▸ Part.deliverPages_via ..
  rw [if_pos h] at e
  unfold Part.endPartial at e
  rw [e, Part.modFinisher_finisher, via.finisher_eq rfl, via.episode_eq rfl]
  rfl

theorem Part.endFinal_noted (s : Part) : (s.finisher.abandoned = false →
      countedUp s.stats.pathSet.width s.stats.path s.endFinal.stats.path 8) ∧
    (s.mask.setDone = true → ∀ id, s.finisher.ident = some id → s.endFinal.notices.setDone =
      some ⟨id.1, id.2, s.finisher.ejected + s.finisher.sheets.length, s.finisher.outcome⟩) := by
  have noted : ∀ (r : Part) (b : Bool) (g : Notices → Notices), (if b then r.modNotices g else r).stats = r.stats := fun r b g => by
    cases b <;> rfl
  constructor
  · intro kept
    unfold Part.endFinal
    dsimp only
    simp only [Part.modFinisher_stats, noted, kept, Bool.false_eq_true, if_false]
    exact s.countPath_raised 8
  · intro enabled id hid
    have mask : (if s.finisher.abandoned then s else s.countPath 8).mask.setDone = true := by
      split
      · exact enabled
      · rw [(Part.countPath_via ..).mask_eq rfl, enabled]
    unfold Part.endFinal
    dsimp only
    rw [if_pos mask, hid]
    rfl

theorem Part.completeEject_noted (h : s.finisher.split = false) : (s.finisher.abandoned = false →
      countedUp s.stats.pathSet.width s.stats.path s.completeEject.stats.path 8) ∧
    (s.mask.setDone = true → ∀ id, s.finisher.ident = some id → s.completeEject.notices.setDone =
      some ⟨id.1, id.2, s.finisher.ejected + s.finisher.sheets.length, s.finisher.outcome⟩) := by
  obtain ⟨r, hr, e⟩ := s.endEject_deliver
  have via : Via [.notices, .intake] _ r := hr ▸ Part.deliverPages_via ..
  rw [if_neg (by rw [h]; exact Bool.false_ne_true)] at e
  have noted := r.endFinal_noted
  rw [via.finisher_eq rfl, via.stats_eq rfl, via.mask_eq rfl] at noted
  rw [e]
  exact noted

/-! ## Through the end of the event -/

theorem countedUp.keep {n : Nat} {w : Width} {old new after : Vector Nat n} {c : Fin n} (h : countedUp w old new c) (e : after[c] = new[c]) :
    countedUp w old after c := e.trans h

theorem Finisher.settled_of_busy {f : Finisher} (h : f.state = .stapling ∨ f.state = .ejecting) : f.settled := by
  rcases h with h | h <;> rw [Finisher.settled, h] <;> exact ⟨nofun, nofun⟩

/-- A set whose cycle the judgement found or started bars the clearance, and stays. -/
theorem Part.judgeSet_ends (h : s.judgeSet.finisher.state = .stapling ∨ s.judgeSet.finisher.state = .ejecting) :
    s.judgeSet.setGoesOn s.judge.conclude := by
  have still : s.judgeSet.judgeClearance = s.judgeSet := by
    unfold Part.judgeClearance
    rw [if_neg]
    intro ready
    obtain ⟨-, -, -, stapling, ejecting⟩ := s.judgeSet.clear_iff.mp ((Part.autoSweepReady_iff _).mp ready).2.1
    exact h.elim stapling ejecting
  rw [Part.judge_eq, still]
  exact (Part.judgeFeed_goesOn _).trans (Part.conclude_goesOn _)

theorem Part.ends_busy (h : s.finisher.state = .stapling ∨ s.finisher.state = .ejecting) : s.setGoesOn s.judge.conclude := by
  have set := s.judgeSet_goesOn
  refine set.trans (Part.judgeSet_ends ?_)
  rwa [(set.settled_eq (Finisher.settled_of_busy h)).1]

/-- The counters of sheets compiled and the like stay through the end of an event, a set that ends apart. -/
theorem Part.ends_counts (s : Part) {c : Fin 10} (h0 : c ≠ 0) (h6 : c ≠ 6) (h8 : c ≠ 8) :
    s.judge.conclude.stats.path[c] = s.stats.path[c] := by
  have clearance : s.judgeSet.judgeClearance.stats = s.judgeSet.stats := by
    unfold Part.judgeClearance
    split
    · exact s.judgeSet.startSweep_sweeps.via.stats_eq rfl
    · rfl
  have counts : s.judgeSet.judgeClearance.stats.path[c] = s.stats.path[c] := by
    rw [clearance]
    exact s.judgeSet_goesOn.counts c h0 h6 h8
  rw [Part.judge_eq]
  exact (((Part.judgeFeed_goesOn _).trans (Part.conclude_goesOn _)).counts c h0 h6 h8).trans counts

/-- An empty set stays so or is finished, and no slot but one freed moves. -/
theorem Part.ends_emptied (sheets : s.finisher.sheets = []) (split : s.finisher.split = false) (ejector : s.out.ejector = false) :
    s.setEmptied s.judge.conclude := by
  have set := s.judgeSet_goesOn.emptied sheets split ejector
  have clearance : s.setEmptied s.judgeSet.judgeClearance := by
    unfold Part.judgeClearance
    split
    · by_cases h : s.judgeSet.dry.on = false ∨ s.judgeSet.finisher.disturbed = false
      · exact set.goesOn (Part.startSweep_setStays h).goesOn
      · rw [not_or, Bool.not_eq_false, Bool.not_eq_false] at h
        have path := s.judgeSet.setPath_via .sweeping
        have e : s.judgeSet.startSweep = (s.judgeSet.setPath .sweeping).planBuild := if_pos (by rw [path.dry_eq rfl, h.1])
        rw [e]
        refine ⟨.inl ?_, ?_⟩
        · rw [Part.planBuild_finisher, path.finisher_eq rfl, h.2]
          rfl
        · rw [Part.planBuild_out, path.out_eq rfl]
          exact set.2
    · exact set
  rw [Part.judge_eq]
  exact (clearance.goesOn (Part.judgeFeed_goesOn _)).goesOn (Part.conclude_goesOn _)

theorem Part.ends_frees (s : Part) : s.frees s.judge.conclude := by
  have clearance : s.judgeSet.frees s.judgeSet.judgeClearance := by
    unfold Part.judgeClearance
    split
    · exact Part.frees_of (congrArg Intake.slots (s.judgeSet.startSweep_sweeps.via.intake_eq rfl))
    · exact Part.frees_of rfl
  rw [Part.judge_eq]
  exact ((s.judgeSet_goesOn.slots.trans clearance).trans (Part.judgeFeed_goesOn _).slots).trans (Part.conclude_goesOn _).slots

theorem Part.event_home {g : Part → Part} {staple : Bool} {t : Tick} (e : g (p.advance t) = (s.home staple).judge) :
    p.event t g = (s.home staple).judge.conclude := congrArg Part.conclude e

theorem Part.home_ejecting (h : s.finisher.state = .ejecting) : s.home false = s.completeEject := by
  show s.ejectHome = s.completeEject
  exact if_pos h

theorem stapleHome_left (w : List Instr) (p : Part) (c : Instr) (t : Tick) (h : p.bringsHome true c t) (hs : p.finisher.state = .stapling) :
    Completes c ⟨w, p⟩ fun q =>
       p.passesTo t q ∧ q.out.stapler = false ∧ q.out.ejector = true ∧
       q.finisher = { p.finisher with
         state := .ejecting, stapled := true, split := false, stapleLimit := none
         ejectLimit := some (plusTicks q.tick (2 * p.finisherSet.eject)) } ∧
       q.dry.home = (if p.dry.on then some ⟨false, plusTicks q.tick p.finisherSet.eject⟩ else none) ∧
       countedUp p.stats.pathSet.width p.stats.path q.stats.path 7 := by
  obtain ⟨s, g, found, e, run⟩ := exec_homeEdge (w := w) h
  have passes := found.passes e
  have event := Part.event_home e
  have same : s.finisher = p.finisher := found.via.finisher_eq rfl
  obtain ⟨finisher, stapler, ejector, home, count⟩ := Part.stapleHome_taken (s := s) (by rw [same, hs])
  refine completes_next run ?_
  have tick := passes.1
  rw [event] at passes tick ⊢
  rw [show s.home true = s.stapleHome from rfl] at passes tick ⊢
  unfold Part.finisherSet at finisher home
  rw [found.via.force_eq rfl, found.tick, ← tick, same] at finisher
  rw [found.via.force_eq rfl, found.tick, ← tick, found.dry] at home
  rw [found.via.stats_eq rfl] at count
  generalize s.stapleHome = u at passes tick finisher stapler ejector home count ⊢
  have busy : u.finisher.state = .ejecting := by rw [finisher]
  have goesOn := Part.ends_busy (.inr busy)
  obtain ⟨finisher', stapler', ejector', home'⟩ := goesOn.settled_eq (by rw [Finisher.settled, busy]; exact ⟨by decide, by decide⟩)
  exact ⟨passes, stapler'.trans stapler, ejector'.trans ejector, finisher'.trans finisher, home'.trans home,
    count.keep (goesOn.counts 7 (by decide) (by decide) (by decide))⟩

theorem ejectHome_left (w : List Instr) (p : Part) (c : Instr) (t : Tick) (h : p.bringsHome false c t) (hs : p.finisher.state = .ejecting) :
    Completes c ⟨w, p⟩ fun q =>
      p.passesTo t q ∧ q.out.ejector = false ∧
      p.countedDelivered (p.finisher.ident.getD (0, 0)).1 (p.finisher.sheets.flatMap Held.pages) q ∧
      if p.finisher.split = true then
        q.finisher = .reset ∨ (q.finisher.sheets = [] ∧ q.finisher.split = false ∧ q.finisher.ejectLimit = none ∧
          q.finisher.ident = p.finisher.ident ∧
          (p.finisher.ejected + p.finisher.sheets.length ≤ 65535 →
            q.finisher.ejected = p.finisher.ejected + p.finisher.sheets.length))
      else q.finisher = .reset ∧
        (p.finisher.abandoned = false → countedUp p.stats.pathSet.width p.stats.path q.stats.path 8) ∧
        (p.mask.setDone = true → p.link.sending.isSome = true → ∀ id, p.finisher.ident = some id →
          q.notices.setDone = some ⟨id.1, id.2, p.finisher.ejected + p.finisher.sheets.length, p.finisher.outcome⟩) := by
  obtain ⟨s, g, found, e, run⟩ := exec_homeEdge (w := w) h
  have passes := found.passes e
  have event := Part.event_home e
  have same : s.finisher = p.finisher := found.via.finisher_eq rfl
  have taken := Part.home_ejecting (s := s) (by rw [same, hs])
  have delivered := (s.completeEject_delivers).of (found.via.intake_eq rfl)
  have ejector : s.completeEject.out.ejector = false := by rw [Part.completeEject_out]
  have link : s.completeEject.link = p.link := (s.completeEject_via.link_eq rfl).trans (found.via.link_eq rfl)
  refine completes_next run ?_
  rw [event, taken] at passes ⊢
  rw [same] at delivered
  cases hsplit : p.finisher.split with
  | true =>
    have finisher := Part.completeEject_partial (s := s) (by rw [same, hsplit])
    rw [same] at finisher
    generalize s.completeEject = u at passes delivered ejector finisher ⊢
    obtain ⟨left, rest⟩ := Part.ends_emptied (s := u) (by rw [finisher]) (by rw [finisher]) ejector
    refine ⟨passes, rest, delivered.frees u.ends_frees, ?_⟩
    rw [if_pos rfl]
    rcases left with left | ⟨sheets, split, limit, ident, ejected⟩
    · exact .inl left
    · rw [finisher] at limit ident ejected
      exact .inr ⟨sheets, split, limit, ident, fun h => ejected.trans (if_pos h)⟩
  | false =>
    have unsplit : s.finisher.split = false := by rw [same, hsplit]
    have finisher := Part.completeEject_final unsplit
    obtain ⟨count, done⟩ := Part.completeEject_noted unsplit
    rw [same, found.via.stats_eq rfl] at count
    rw [same, found.via.mask_eq rfl] at done
    generalize s.completeEject = u at passes delivered ejector finisher count done link ⊢
    have settled : u.finisher.settled := by rw [Finisher.settled, finisher]; exact ⟨by decide, by decide⟩
    have goesOn := Part.ends_goesOn (s := u) (.inr (.inr (by rw [finisher]; rfl)))
    obtain ⟨finisher', -, ejector', -⟩ := goesOn.settled_eq settled
    refine ⟨passes, ejector'.trans ejector, delivered.frees u.ends_frees, ?_⟩
    rw [if_neg Bool.false_ne_true]
    refine ⟨finisher'.trans finisher, fun h => (count h).keep (goesOn.settled settled).2, fun enabled sending id hid => ?_⟩
    have quiet : u.judge.conclude = u.judge := Part.conclude_sending _ (by
      have moves : Moves .inner .settled u .settled u.judge := Part.judge_moves u
      rw [moves.link_eq rfl, link, sending])
    rw [quiet, Part.judge_setDone finisher]
    exact done enabled id hid

/-- Settles O39. -/
theorem homeEdges : Obligations.HomeEdges := ⟨stapleHome_left, ejectHome_left⟩

end Sys2Proof.Machine
end

