-- ==== Sys2Proof/Proofs/Cycles.lean ====
section
/-! PROOF. The Compile Set's cycles: started, split, and taken up by RESUME (O15, O42). -/

namespace Sys2Proof.Machine

variable {s t u p : Part} {j : Jam}

/-! ## Closure and readiness (R150) -/

theorem Part.cycleReady_iff (s : Part) : s.cycleReady = true ↔ s.finisher.state = .compiling ∧
    (s.finisher.closed = true ∨ s.finisher.split = true) ∧ s.finisher.disturbed = false ∧ (∀ h ∈ s.finisher.sheets, h.settling = false) ∧
    s.episode.isOpen = false ∧ s.anyDoorOpen = false := by
  simp [Part.cycleReady, and_assoc]

/-- Closing a closed set moves nothing. -/
theorem Part.judgeClosure_closed (h : s.finisher.closed = true) : s.judgeClosure.finisher = s.finisher := by
  unfold Part.judgeClosure
  dsimp only
  split
  · rw [Part.modFinisher_finisher, ← h]
  · rfl

/-- None of the three conditions of R150 holds. -/
abbrev Part.unclosed (s : Part) : Prop :=
  (∀ h ∈ s.finisher.sheets, h.lastOfSet = false) ∧ ¬ s.overtaken ∧ s.finisher.abandoned = false

theorem Part.judgeClosure_unclosed (h : s.unclosed) : s.judgeClosure = s := by
  obtain ⟨last, behind, kept⟩ := h
  have followed : s.followedByOther = false := by
    rw [← Bool.not_eq_true, s.followedByOther_iff]
    exact behind
  have none : (s.finisher.sheets.any fun h => h.lastOfSet && !h.settling) = false := by
    rw [List.any_eq_false]
    intro h hh
    rw [last h hh]
    simp
  unfold Part.judgeClosure
  dsimp only
  rw [if_neg]
  rw [none, followed, kept]
  simp

theorem Part.judgeClosure_closes (hc : s.finisher.state = .compiling) (hd : s.finisher.disturbed = false)
    (h : ∃ h ∈ s.finisher.sheets, h.lastOfSet = true ∧ h.settling = false) : s.judgeClosure.finisher = { s.finisher with closed := true } := by
  obtain ⟨h, hh, last, settled⟩ := h
  have some : (s.finisher.sheets.any fun h => h.lastOfSet && !h.settling) = true :=
    List.any_eq_true.mpr ⟨h, hh, by rw [last, settled]; rfl⟩
  unfold Part.judgeClosure
  dsimp only
  rw [if_pos]
  · rfl
  · rw [some, hc, hd]
    rfl

/-! ## The cycle (R150, R154) -/

theorem Part.inFinalCycle.goesOn {now : Tick} (h : p.inFinalCycle now s) (k : s.setGoesOn t) : p.inFinalCycle now t := by
  unfold Part.inFinalCycle at h ⊢
  split at h
  · next hs =>
    rw [if_pos hs]
    have settled : s.finisher.settled := by rw [h.1]; exact ⟨nofun, nofun⟩
    obtain ⟨finisher, stapler, -⟩ := k.settled_eq settled
    exact ⟨finisher.trans h.1, stapler.trans h.2⟩
  · next hs =>
    rw [if_neg hs]
    have settled : s.finisher.settled := by rw [h.1]; exact ⟨nofun, nofun⟩
    obtain ⟨finisher, -, ejector, -⟩ := k.settled_eq settled
    exact ⟨finisher.trans h.1, ejector.trans h.2⟩

theorem Part.inPartialEject.goesOn {now : Tick} (h : p.inPartialEject now s) (k : s.setGoesOn t) : p.inPartialEject now t := by
  unfold Part.inPartialEject at h ⊢
  have settled : s.finisher.settled := by rw [Finisher.settled, h.1]; exact ⟨nofun, nofun⟩
  obtain ⟨finisher, -, ejector, home⟩ := k.settled_eq settled
  rwa [finisher, ejector, home]

/-- A closed COMPILING set that nothing holds back starts its cycle, or is finished where it holds no sheet. -/
theorem Part.judgeFinisher_starts (hc : s.finisher.state = .compiling) (closed : s.finisher.closed = true)
    (hd : s.finisher.disturbed = false) (settled : ∀ h ∈ s.finisher.sheets, h.settling = false) (episode : s.episode.isOpen = false)
    (doors : s.anyDoorOpen = false) :
    if s.finisher.sheets = [] then s.judgeFinisher.finisher = .reset ∧ s.judgeFinisher.out.ejector = false
    else s.inFinalCycle s.tick s.judgeFinisher := by
  have via := s.judgeClosure_via
  have finisher := Part.judgeClosure_closed closed
  have door : s.judgeClosure.anyDoorOpen = s.anyDoorOpen := anyDoorOpen_of (via.force_eq rfl) (via.lines_eq rfl)
  have ready : s.judgeClosure.cycleReady = true := by
    rw [Part.cycleReady_iff, finisher, via.episode_eq rfl, door]
    exact ⟨hc, .inl closed, hd, settled, episode, doors⟩
  have set : s.judgeClosure.finisherSet = s.finisherSet := by
    unfold Part.finisherSet
    rw [via.force_eq rfl]
  rcases s.judgeFinisher_cases with ⟨-, e⟩ | ⟨-, h⟩
  · rw [ready] at e
    cases e
  · rw [finisher] at h
    unfold Part.inFinalCycle
    rcases h with ⟨-, none, e⟩ | ⟨-, some, staple, stapled, skipped, kept, e⟩ | ⟨-, some, unstapled, e⟩ | ⟨opened, -⟩
    · rw [if_pos none, e, Part.completeEject_out]
      exact ⟨Part.completeEject_final rfl, rfl⟩
    · rw [if_neg some, if_pos ⟨staple, stapled, skipped, kept⟩, e, Part.enterStapling_finisher, Part.enterStapling_out, finisher, set,
        via.tick_eq rfl]
      exact ⟨rfl, rfl⟩
    · rw [if_neg some, if_neg unstapled, e, Part.enterEjecting_finisher, Part.enterEjecting_out, finisher, set, via.tick_eq rfl]
      exact ⟨rfl, rfl⟩
    · rw [closed] at opened
      cases opened

theorem Part.judgeSplit_closed (h : s.finisher.closed = true) : s.judgeSplit = s := by
  unfold Part.judgeSplit
  dsimp only
  rw [if_neg]
  rw [h]
  simp

/-- A full set that nothing closes is split: COMPILING, it is ejected at once; RETAINED, it is marked. -/
theorem Part.judgeSplit_full (h : s.fullUnclosed s.finisher.sheets) (settled : ∀ h ∈ s.finisher.sheets, h.settling = false) :
    (s.finisher.state = .compiling → s.inPartialEject s.tick s.judgeSplit ∧ s.judgeSplit.finisher.sheets = s.finisher.sheets) ∧
    (s.finisher.state = .retained → s.judgeSplit.finisher = { s.finisher with skipped := true, split := true }) := by
  obtain ⟨full, hd, opened, -⟩ := h
  have none : s.finisher.sheets.any Held.settling = false := by
    rw [List.any_eq_false]
    exact fun h hh => by rw [settled h hh]; exact Bool.false_ne_true
  have due : ∀ x : Bool, (!s.finisher.closed && !s.finisher.disturbed && s.finisher.sheets.length == s.force.capacity &&
      !(s.finisher.sheets.any Held.settling) && x) = x := fun x => by
    rw [opened, hd, full, none]
    simp
  unfold Part.judgeSplit
  dsimp only
  rw [due]
  constructor
  · intro hc
    rw [if_pos (by rw [hc]; rfl), if_pos (by rw [hc]; rfl)]
    unfold Part.inPartialEject
    rw [Part.enterEjecting_finisher, Part.enterEjecting_out, Part.enterEjecting_home]
    exact ⟨⟨rfl, rfl, rfl, rfl, opened, rfl, rfl, rfl, fun hd => if_pos hd⟩, rfl⟩
  · intro hr
    rw [if_pos (by rw [hr]; rfl), if_neg (by rw [hr]; decide)]
    rfl

/-! ## SET_CYCLE_START (R150) -/

theorem setCycleStart_taken (w : List Instr) (p : Part) (t : Tick) :
    (p.finisher.state = .compiling → p.finisher.closed = true → p.finisher.disturbed = false →
      (∀ h ∈ p.finisher.sheets, h.settling = false) → p.episode.isOpen = false → p.anyDoorOpen = false →
      Completes (.setCycleStart t) ⟨w, p⟩ fun q =>
        p.passesTo t q ∧ q.lines = p.lines ∧
        if p.finisher.sheets = [] then q.finisher = .reset ∧ q.out.ejector = false else p.inFinalCycle q.tick q) ∧
    (p.finisher.state ≠ .compiling → p.finisher.state ≠ .retained → Completes (.setCycleStart t) ⟨w, p⟩ fun q =>
      p.passesTo t q ∧ q.lines = p.lines ∧ q.finisher = p.finisher) := by
  have run : exec (.setCycleStart t) ⟨w, p⟩ = .next ⟨w, p.event t Part.judgeFinisher⟩ := rfl
  obtain ⟨passes, lines⟩ := Part.event_passes (p := p) (t := t) (g := Part.judgeFinisher) (Part.judgeFinisher_moves _ (.inl rfl))
  have ends : (p.advance t).judgeFinisher.setGoesOn (p.event t Part.judgeFinisher) := Part.conclude_goesOn _
  have tick := passes.1
  constructor
  · intro hc closed hd settled episode doors
    have starts := Part.judgeFinisher_starts (s := p.advance t) hc closed hd settled episode doors
    refine completes_next run ⟨passes, lines, ?_⟩
    rw [tick]
    generalize p.event t Part.judgeFinisher = q at ends ⊢
    generalize (p.advance t).judgeFinisher = r at ends starts
    split at starts
    · next none =>
      rw [if_pos (show p.finisher.sheets = [] from none)]
      obtain ⟨finisher, -, ejector, -⟩ := ends.settled_eq (by rw [starts.1]; exact ⟨by decide, by decide⟩)
      exact ⟨finisher.trans starts.1, ejector.trans starts.2⟩
    · next some =>
      rw [if_neg (show ¬ p.finisher.sheets = [] from some)]
      exact Part.inFinalCycle.goesOn starts ends
  · intro hc hr
    have judged := (p.advance t).judgeFinisher_goesOn.trans ends
    exact completes_next run ⟨passes, lines, (judged.settled_eq ⟨hc, hr⟩).1⟩

end Sys2Proof.Machine
end

