-- ==== Sys2Proof/Proofs/Resumed.lean ====
section
/-! PROOF. RESUME (O15), and the settle expiry (O42). -/

namespace Sys2Proof.Machine

variable {s t u p : Part} {j : Jam}

/-! ## The set taken up again (R157) -/

/-- RESUME's part before the set is taken up: the plan unread again, the episode closed. -/
def Part.reopened (s : Part) : Part := (s.modPlanner fun x => { x with readThrough := false }).closeEpisode

theorem Part.resumePath_eq (s : Part) : s.resumePath = s.reopened.resumeFinisher.judgeSelector.enterStarting := rfl

/-- A RETAINED set taken up, its closure and split not yet judged. -/
def Part.recompiled (s : Part) : Part := s.modFinisher fun f => { f with state := .compiling }

theorem Part.resumeFinisher_retained (h : s.finisher.state = .retained) :
    s.resumeFinisher = (s.recompiled.judgeClosure.judgeSplit).judgeFinisher := by
  unfold Part.resumeFinisher
  rw [h]
  rfl

theorem Part.resumeFinisher_faulted (h : s.finisher.state = .faulted) (hd : s.finisher.disturbed = false) :
    s.resumeFinisher = s.enterStapling := by
  unfold Part.resumeFinisher
  rw [h]
  dsimp only
  rw [if_neg (by rw [hd]; exact Bool.false_ne_true)]

theorem Part.resumeFinisher_left (s : Part) : s.resumeFinisher.intake = s.intake ∧ s.resumeFinisher.dry.on = s.dry.on := by
  have moves : Moves .offDryRun .settled s .settled s.resumeFinisher := s.resumeFinisher_moves (.inl rfl)
  refine ⟨?_, Dry.run_on (moves.eq_of (fun p : Part => p.dry.run) fun m => m.run_eq rfl)⟩
  unfold Part.resumeFinisher
  split
  · rw [Part.judgeFinisher_intake, (Part.judgeSplit_via _).intake_eq rfl, (Part.judgeClosure_via _).intake_eq rfl]
    rfl
  · split
    · rfl
    · exact (Part.enterStapling_via _).intake_eq rfl
  · rfl

/-- The judgement makes no set FAULTED, RETAINED or COMPILING. -/
theorem Part.judgeFinisher_never {x : SetState} (hx : x ≠ .empty ∧ x ≠ .stapling ∧ x ≠ .ejecting) (h : s.finisher.state ≠ x) :
    s.judgeFinisher.finisher.state ≠ x := by
  obtain ⟨empty, stapling, ejecting⟩ := hx
  have closure : s.judgeClosure.finisher.state = s.finisher.state := by
    unfold Part.judgeClosure
    dsimp only
    split <;> rfl
  rcases s.judgeFinisher_cases with ⟨e, -⟩ | ⟨-, ⟨-, -, e⟩ | ⟨-, -, -, -, -, -, e⟩ | ⟨-, -, -, e⟩ | ⟨-, e⟩⟩ <;> rw [e]
  · rwa [closure]
  · rw [Part.completeEject_final rfl]
    exact empty.symm
  · rw [Part.enterStapling_finisher]
    exact stapling.symm
  · rw [Part.enterEjecting_finisher]
    exact ejecting.symm
  · rw [Part.enterEjecting_finisher]
    exact ejecting.symm

theorem Part.judgeSplit_unretained (h : s.finisher.state ≠ .retained) : s.judgeSplit.finisher.state ≠ .retained := by
  unfold Part.judgeSplit
  dsimp only
  split
  · split
    · rw [Part.enterEjecting_finisher]
      exact nofun
    · exact h
  · exact h

theorem Part.judgeClosure_state (s : Part) : s.judgeClosure.finisher.state = s.finisher.state := by
  unfold Part.judgeClosure
  dsimp only
  split <;> rfl

/-- A RETAINED set taken up is RETAINED no longer. -/
theorem Part.resumeFinisher_unretained (h : s.finisher.state = .retained) : s.resumeFinisher.finisher.state ≠ .retained := by
  rw [Part.resumeFinisher_retained h]
  refine Part.judgeFinisher_never ⟨nofun, nofun, nofun⟩ (Part.judgeSplit_unretained ?_)
  rw [Part.judgeClosure_state]
  exact nofun

theorem Part.judgeSet_never {x : SetState} (hx : x ≠ .empty ∧ x ≠ .stapling ∧ x ≠ .ejecting) (h : s.finisher.state ≠ x) :
    s.judgeSet.finisher.state ≠ x := by
  refine Part.judgeFinisher_never hx ?_
  rwa [s.judgeGates_via.finisher_eq rfl]

/-! ## The path started again (R145) -/

theorem Part.nextUp_of (feed : t.feed = s.feed) (intake : t.intake = s.intake) (list : t.planner.list = s.planner.list) :
    t.nextUp = s.nextUp := by
  have active : t.activeQueue = s.activeQueue := by
    unfold Part.activeQueue
    rw [feed, intake, list]
  unfold Part.nextUp
  rw [active, intake, list]

theorem Part.anyPaper_of (dry : t.dry.on = s.dry.on) (force : t.force = s.force) (lines : t.lines = s.lines) : t.anyPaper = s.anyPaper := by
  have paper : t.paperAt = s.paperAt := by
    funext st
    unfold Part.paperAt Part.levelOf
    rw [dry, force, lines]
  unfold Part.anyPaper
  rw [paper]

/-- The set taken up, before the path is started. -/
abbrev Part.takenUp (s : Part) : Part := s.reopened.resumeFinisher

theorem Part.takenUp_via (s : Part) : Via [.notices, .intake, .out, .finisher, .stats, .dry] s.reopened s.takenUp :=
  s.reopened.resumeFinisher_via

/-- With no paper under a station RESUME starts the path. -/
theorem Part.resumePath_starts (paper : s.anyPaper = false) : s.resumePath = s.takenUp.judgeSelector.start := by
  have via := s.takenUp_via
  have clear : s.takenUp.judgeSelector.anyPaper = false := by
    rw [Part.judgeSelector_eq]
    exact (Part.anyPaper_of s.reopened.resumeFinisher_left.2 (via.force_eq rfl) (via.lines_eq rfl)).trans paper
  rw [s.resumePath_eq]
  rcases s.takenUp.judgeSelector.enterStarting_cases with ⟨-, e⟩ | ⟨some, -⟩
  · exact e
  · rw [clear] at some
    cases some

/-- What a RESUME that passes leaves (R145). -/
structure Part.resumed (s t : Part) : Prop where
  path : t.feed.path = .starting
  episode : t.episode = { s.episode with isOpen := false, areas := 0, barred := false }
  planner : t.planner = { s.planner with readThrough := false }
  table : t.table = s.table
  intake : t.intake = s.intake
  cls : t.feed.cls = ((s.judgeSelector.nextPage).map fun n => n.front.cls).getD s.feed.cls
  presented : t.out.presented = t.feed.cls
  drives : t.out.drives true
  ramp : t.feed.ramp = some (plusTicks s.tick ((s.force.drive.map DriveSet.ramp).getD 0))
  set : s.takenUp.setGoesOn t
  unretained : s.finisher.state = .retained → t.finisher.state ≠ .retained

theorem Part.start_setStays (s : Part) : s.setStays s.start :=
  s.enterPath_setStays.trans (.of_via (A := [.feed]) (Via.feed (.refl s.enterPath) _ rfl) rfl rfl rfl rfl rfl)

theorem Part.resumePath_resumed (paper : s.anyPaper = false) : s.resumed s.resumePath.judge := by
  have taken := s.takenUp_via
  have intake : s.takenUp.intake = s.intake := s.reopened.resumeFinisher_left.1
  have unretained : s.finisher.state = .retained → s.takenUp.finisher.state ≠ .retained := fun h =>
    Part.resumeFinisher_unretained (s := s.reopened) h
  have feedUp : s.takenUp.feed = s.feed := taken.feed_eq rfl
  have next : s.takenUp.nextUp = s.judgeSelector.nextPage := by
    rw [Part.judgeSelector_nextPage]
    refine Part.nextUp_of feedUp intake ?_
    rw [taken.planner_eq rfl]
    rfl
  rw [Part.resumePath_starts paper]
  have sel := s.takenUp.judgeSelector_via
  have shifts := s.takenUp.judgeSelector_shifts
  have cls := s.takenUp.startClass_nextUp
  obtain ⟨feed, out, via⟩ := s.takenUp.judgeSelector.start_starts
  have starts := s.takenUp.judgeSelector.enterPath_starts.2
  have stays := s.takenUp.judgeSelector.start_setStays
  have path : s.takenUp.judgeSelector.start.feed.path = .starting := by rw [feed]
  have ramp : s.takenUp.judgeSelector.start.feed.ramp = some (plusTicks s.tick ((s.force.drive.map DriveSet.ramp).getD 0)) := by
    rw [feed, sel.tick_eq rfl, sel.force_eq rfl, taken.tick_eq rfl, taken.force_eq rfl]
    rfl
  have cls : s.takenUp.judgeSelector.start.feed.cls = ((s.judgeSelector.nextPage).map fun n => n.front.cls).getD s.feed.cls := by
    rw [feed, cls, next, feedUp]
  have presented : s.takenUp.judgeSelector.start.out.presented = s.takenUp.judgeSelector.start.feed.cls := by
    rw [out, starts, feed]
  have drives : s.takenUp.judgeSelector.start.out.drives true := by
    rw [out, starts]
    exact ⟨rfl, rfl, rfl, rfl⟩
  have episode : s.takenUp.judgeSelector.start.episode = { s.episode with isOpen := false, areas := 0, barred := false } := by
    rw [via.episode_eq rfl, sel.episode_eq rfl, taken.episode_eq rfl]
    rfl
  have planner : s.takenUp.judgeSelector.start.planner = { s.planner with readThrough := false } := by
    rw [via.planner_eq rfl, sel.planner_eq rfl, taken.planner_eq rfl]
    rfl
  have table : s.takenUp.judgeSelector.start.table = s.table := by
    rw [via.table_eq rfl, sel.table_eq rfl, taken.table_eq rfl]
    rfl
  have intake : s.takenUp.judgeSelector.start.intake = s.intake := by
    rw [via.intake_eq rfl, sel.intake_eq rfl, intake]
  have finisher : s.takenUp.judgeSelector.start.finisher = s.takenUp.finisher := by
    rw [via.finisher_eq rfl, sel.finisher_eq rfl]
  have set : s.takenUp.setGoesOn s.takenUp.judgeSelector.start := (shifts.setStays.trans stays).goesOn
  generalize s.takenUp.judgeSelector.start = r at path ramp cls presented drives episode planner table intake finisher set ⊢
  rw [Part.judge_rests_unheld (by rw [path]; exact PathState.starting_rests) (by rw [path]; exact nofun)]
  have judged := r.judgeSet_via
  have feed := judged.feed_eq rfl
  exact {
    path := by rw [feed, path]
    episode := by rw [judged.episode_eq rfl, episode]
    planner := by rw [judged.planner_eq rfl, planner]
    table := by rw [judged.table_eq rfl, table]
    intake := by rw [Part.judgeSet_intake, intake]
    cls := by rw [feed, cls]
    presented := by rw [feed, Outputs.presented_of_fed r.judgeSet_out, presented]
    drives := Outputs.drives_of_fed r.judgeSet_out true drives
    ramp := by rw [feed, ramp]
    set := set.trans r.judgeSet_goesOn
    unretained := fun h => Part.judgeSet_never ⟨nofun, nofun, nofun⟩ (by rw [finisher]; exact unretained h) }

/-! ## RESUME (R144, R145) -/

theorem resume_asked (p : Part) : answerFrame ⟨0x14, []⟩ p = p.answerResume := rfl

theorem Part.answerResume_unread (hp : s.feed.path = .resumable) (h : s.planner.readThrough = false) : s.answerResume = s.refuse .planUnread := by
  unfold Part.answerResume
  rw [if_neg (by rw [hp]; exact nofun), if_neg (not_not.mpr hp), if_pos h]

theorem Part.answerResume_unclear (hp : s.feed.path = .resumable) (h : s.planner.readThrough = true) (hc : s.clear = false) :
    s.answerResume = s.notClear := by
  unfold Part.answerResume
  rw [if_neg (by rw [hp]; exact nofun), if_neg (not_not.mpr hp), if_neg (by rw [h]; exact nofun), if_pos hc]

theorem Part.answerResume_taken (hp : s.feed.path = .resumable) (h : s.planner.readThrough = true) (hc : s.clear = true) :
    s.answerResume = s.resumePath.judge.done := by
  unfold Part.answerResume
  rw [if_neg (by rw [hp]; exact nofun), if_neg (not_not.mpr hp), if_neg (by rw [h]; exact nofun), if_neg (by rw [hc]; exact nofun)]

theorem Part.clear_parts (p : Part) : p.clear = true ↔ p.anyDoorOpen = false ∧ p.anyPaper = false ∧ p.strayTrayPaper = false ∧
    p.finisher.state ≠ .stapling ∧ p.finisher.state ≠ .ejecting := by
  unfold Part.clear Finisher.busy
  simp [and_assoc]

theorem Part.found_nextPage (p : Part) (t : Tick) (k : Byte) (b : List Byte) :
    (p.found t k b).judgeSelector.nextPage = p.judgeSelector.nextPage := by
  rw [Part.judgeSelector_nextPage, Part.judgeSelector_nextPage]
  exact Part.nextUp_of rfl rfl rfl

/-- A RESUME that passes its checks, as a request. -/
theorem resume_passes {w : List Instr} {p : Part} {t : Tick} {φ : Part → Prop} (hs : p.canAccept) (hp : p.feed.path = .resumable)
    (h : p.planner.readThrough = true) (hc : p.clear = true)
    (hφ : ∀ q : Part, (p.found t 0x14 []).resumed q → Moves .inner .settled (p.found t 0x14 []) .settled q →
      φ { q with link := p.linkAfter 0x14 [] [0x00] }) : Completes (.resume t []) ⟨w, p⟩ φ := by
  have taken := (resume_asked (p.found t 0x14 [])).trans (Part.answerResume_taken hp h hc)
  have moves : Moves .inner .settled (p.found t 0x14 []) .settled (p.found t 0x14 []).resumePath.judge :=
    (Part.resumePath_moves (s := p.found t 0x14 []) hp).trans (Part.judge_moves _)
  have resumed := Part.resumePath_resumed (s := p.found t 0x14 []) ((Part.clear_parts _).mp hc).2.1
  generalize (p.found t 0x14 []).resumePath.judge = q at taken moves resumed
  exact completes_of (c := .resume t []) (s := ⟨w, p⟩) rfl hs taken moves.inner_eq.2.2.1 (hφ q resumed moves)

/-- Settles O15. -/
theorem resumeTaken : Obligations.ResumeTaken := by
  intro w p t hs now
  have asked := resume_asked (p.found t 0x14 [])
  refine ⟨fun hp => ?_, fun hu hp => ?_, fun hp unread => ?_, fun hp read => ?_⟩
  · exact exec_unchanged (c := .resume t []) (s := ⟨w, p⟩) rfl hs .notConfigured []
      (asked.trans (Part.answerResume_refused (by rw [show (p.found t 0x14 []).feed.path = .unconfigured from hp]; rfl)))
  · exact exec_unchanged (c := .resume t []) (s := ⟨w, p⟩) rfl hs .wrongState []
      (asked.trans (Part.answerResume_refused (PathState.otherThan_wrongState hp hu)))
  · exact exec_unchanged (c := .resume t []) (s := ⟨w, p⟩) rfl hs .planUnread [] (asked.trans (Part.answerResume_unread hp unread))
  · split
    · next clear =>
      refine resume_passes hs hp read (p.clear_parts.mpr clear) fun q resumed moves => ?_
      have cls := resumed.cls
      rw [Part.found_nextPage] at cls
      refine ⟨repliedTo_of moves, resumed.path, resumed.episode, resumed.planner, resumed.table, resumed.intake, cls,
        resumed.presented, resumed.drives, resumed.ramp, resumed.unretained, fun faulted hd => ?_⟩
      have e : (p.found t 0x14 []).takenUp = (p.found t 0x14 []).reopened.enterStapling := Part.resumeFinisher_faulted faulted hd
      have set := resumed.set
      have finisher := (p.found t 0x14 []).reopened.enterStapling_finisher
      have out := (p.found t 0x14 []).reopened.enterStapling_out
      rw [e] at set
      generalize (p.found t 0x14 []).reopened.enterStapling = r at set finisher out
      obtain ⟨finisher', stapler, -⟩ := set.settled_eq (by rw [finisher]; exact ⟨nofun, nofun⟩)
      exact ⟨finisher'.trans finisher, stapler.trans (by rw [out])⟩
    · next blocked =>
      have unclear : (p.found t 0x14 []).clear = false := by
        rw [← Bool.not_eq_true]
        exact mt (Part.clear_parts _).mp blocked
      have e := asked.trans (Part.answerResume_unclear hp read unclear)
      unfold Part.notClear at e
      rw [Part.clearanceReport_eq] at e
      exact exec_unchanged (c := .resume t []) (s := ⟨w, p⟩) rfl hs .notClear (report p) e

end Sys2Proof.Machine
end

