-- ==== Sys2Proof/Proofs/SetCycles.lean ====
section
/-! PROOF. The settle expiry, and RESUME of a RETAINED set (O42). -/

namespace Sys2Proof.Machine

variable {s t u p : Part} {j : Jam}

/-! ## RESUME of a RETAINED set (R157) -/

theorem Part.overtaken_of (finisher : t.finisher.ident = s.finisher.ident) (table : t.table = s.table) : t.overtaken ↔ s.overtaken := by
  unfold Part.overtaken
  rw [finisher, table]

theorem Part.takenUp_cycle (hr : s.finisher.state = .retained) (hd : s.finisher.disturbed = false)
    (settled : ∀ h ∈ s.finisher.sheets, h.settling = false) (doors : s.anyDoorOpen = false) :
    (s.finisher.closed = true → s.finisher.sheets ≠ [] → s.inFinalCycle s.tick s.takenUp) ∧
    (s.fullUnclosed s.finisher.sheets → s.inPartialEject s.tick s.takenUp ∧ s.takenUp.finisher.sheets = s.finisher.sheets) := by
  have e : s.takenUp = (s.reopened.recompiled.judgeClosure.judgeSplit).judgeFinisher := Part.resumeFinisher_retained (s := s.reopened) hr
  rw [e]
  constructor
  · intro closed some
    have closure := Part.judgeClosure_closed (s := s.reopened.recompiled) closed
    have via := s.reopened.recompiled.judgeClosure_via
    generalize hc : s.reopened.recompiled.judgeClosure = c at closure via
    have finisher : c.finisher = { s.finisher with state := .compiling } := closure
    rw [Part.judgeSplit_closed (by rw [finisher]; exact closed)]
    have starts := Part.judgeFinisher_starts (s := c) (by rw [finisher]) (by rw [finisher]; exact closed) (by rw [finisher]; exact hd)
      (by rw [finisher]; exact settled) (by rw [via.episode_eq rfl]; rfl)
      ((anyDoorOpen_of (via.force_eq rfl) (via.lines_eq rfl)).trans doors)
    rw [if_neg (by rw [finisher]; exact some), via.tick_eq rfl] at starts
    unfold Part.inFinalCycle Part.finisherSet at starts ⊢
    rw [finisher, via.force_eq rfl] at starts
    exact starts
  · intro full
    obtain ⟨count, -, opened, last, behind, kept⟩ := full
    have unclosed : s.reopened.recompiled.unclosed := ⟨last, behind, kept⟩
    rw [Part.judgeClosure_unclosed unclosed]
    have split := (Part.judgeSplit_full (s := s.reopened.recompiled) ⟨count, hd, opened, last, behind, kept⟩ settled).1 rfl
    generalize s.reopened.recompiled.judgeSplit = r at split
    obtain ⟨ejects, sheets⟩ := split
    have busy : r.finisher.state = .ejecting := ejects.1
    have goesOn := r.judgeFinisher_goesOn
    refine ⟨Part.inPartialEject.goesOn (p := s) ejects goesOn, ?_⟩
    rw [(goesOn.settled_eq (Finisher.settled_of_busy (.inr busy))).1, sheets]
    rfl

theorem resume_cycle (w : List Instr) (p : Part) (t : Tick) (hs : p.canAccept) (hp : p.feed.path = .resumable)
    (read : p.planner.readThrough = true) (clear : p.clearance) (hr : p.finisher.state = .retained) (hd : p.finisher.disturbed = false)
    (settled : ∀ h ∈ p.finisher.sheets, h.settling = false) : Completes (.resume t []) ⟨w, p⟩ fun q =>
       p.repliedTo t 0x14 [] [0x00] q ∧ q.feed.path = .starting ∧
       (p.finisher.closed = true → p.finisher.sheets ≠ [] → p.inFinalCycle q.tick q) ∧
       (p.fullUnclosed p.finisher.sheets → p.inPartialEject q.tick q ∧ q.finisher.sheets = p.finisher.sheets) := by
  refine resume_passes hs hp read (p.clear_iff.mpr clear) fun q resumed moves => ?_
  have cycle := Part.takenUp_cycle (s := p.found t 0x14 []) hr hd settled clear.1
  have set := resumed.set
  have tick : q.tick = (p.found t 0x14 []).tick := moves.inner_eq.1
  refine ⟨repliedTo_of moves, resumed.path, fun closed some => ?_, fun full => ?_⟩
  · have final := Part.inFinalCycle.goesOn (cycle.1 closed some) set
    rw [← tick] at final
    exact final
  · obtain ⟨ejects, sheets⟩ := cycle.2 full
    have ends := Part.inPartialEject.goesOn ejects set
    rw [← tick] at ends
    exact ⟨ends, (set.settled_eq (Finisher.settled_of_busy (.inr ejects.1))).1 ▸ sheets⟩

/-! ## The settle expiry (R149) -/

theorem settleFirst_eq {before after : List Held} {h : Held} (hb : ∀ y ∈ before, y.settling = false) (hs : h.settling = true) :
    settleFirst (before ++ h :: after) = before ++ { h with settling := false } :: after := by
  induction before with
  | nil => exact if_pos hs
  | cons y rest ih =>
    have e : settleFirst (y :: (rest ++ h :: after)) = y :: settleFirst (rest ++ h :: after) :=
      if_neg (by rw [hb y List.mem_cons_self]; exact nofun)
    rw [List.cons_append, e, ih fun z hz => hb z (List.mem_cons_of_mem y hz)]
    rfl

theorem find_settling {before after : List Held} {h : Held} (hb : ∀ y ∈ before, y.settling = false) (hs : h.settling = true) :
    (before ++ h :: after).find? Held.settling = some h := by
  rw [List.find?_append, List.find?_eq_none.mpr fun y hy => by rw [hb y hy]; exact nofun]
  exact List.find?_cons_of_pos hs

/-- One sheet compiled: its mark cleared, its staple flag joined to the set's, and counted. -/
def Part.compiles (s : Part) (h : Held) : Part :=
  (s.modFinisher fun f => { f with sheets := settleFirst f.sheets, toStaple := f.toStaple || h.staple }).countPath 2

theorem Part.completeCompile_eq {h : Held} (hf : s.finisher.sheets.find? Held.settling = some h) :
    s.completeCompile = (s.compiles h).judgeClosure.judgeSplit := by
  unfold Part.completeCompile
  rw [hf]
  rfl

theorem Part.judgeSplit_sheets (s : Part) : s.judgeSplit.finisher.sheets = s.finisher.sheets ∧
    s.judgeSplit.finisher.toStaple = s.finisher.toStaple ∧ s.judgeSplit.finisher.disturbed = s.finisher.disturbed := by
  unfold Part.judgeSplit
  dsimp only
  split
  · split
    · rw [Part.enterEjecting_finisher]
      exact ⟨rfl, rfl, rfl⟩
    · exact ⟨rfl, rfl, rfl⟩
  · exact ⟨rfl, rfl, rfl⟩

theorem Part.judgeClosure_sheets (s : Part) : s.judgeClosure.finisher.sheets = s.finisher.sheets ∧
    s.judgeClosure.finisher.toStaple = s.finisher.toStaple ∧ s.judgeClosure.finisher.disturbed = s.finisher.disturbed := by
  unfold Part.judgeClosure
  dsimp only
  split <;> exact ⟨rfl, rfl, rfl⟩

/-- What one sheet's compile leaves, closure and split not yet judged. -/
structure Part.justCompiled (p : Part) (sheets : List Held) (staple : Bool) (s : Part) : Prop where
  via : Via [.tick, .finisher, .notices, .stats] p s
  finisher : s.finisher = { p.finisher with sheets := sheets, toStaple := p.finisher.toStaple || staple }
  count : countedUp p.stats.pathSet.width p.stats.path s.stats.path 2

theorem Part.compiles_just {h : Held} {before after : List Held} (e : p.finisher.sheets = before ++ h :: after)
    (hb : ∀ y ∈ before, y.settling = false) (hs : h.settling = true) (t : Tick) :
    p.justCompiled (before ++ { h with settling := false } :: after) h.staple ((p.advance t).compiles h) := by
  have count := Part.countPath_via ((p.advance t).modFinisher fun f =>
    { f with sheets := settleFirst f.sheets, toStaple := f.toStaple || h.staple }) 2
  refine ⟨((((p.advance_via t).mono rfl).finisher _ rfl).andThen count rfl), ?_, ?_⟩
  · unfold Part.compiles
    rw [count.finisher_eq rfl, Part.modFinisher_finisher, ← settleFirst_eq hb hs, ← e]
    rfl
  · exact Part.countPath_raised ((p.advance t).modFinisher fun f =>
      { f with sheets := settleFirst f.sheets, toStaple := f.toStaple || h.staple }) 2

theorem Part.settleExpiry_moves (s : Part) : Moves .inner .settled s .settled s.completeCompile.judge :=
  (Part.completeCompile_moves s).trans (Part.judge_moves _)

/-- The sheet just compiled closes the set: its cycle starts at the end of the event. -/
theorem Part.justCompiled.closes {sheets : List Held} {staple : Bool} (h : p.justCompiled sheets staple s)
    (last : ∃ y ∈ sheets, y.lastOfSet = true) (settled : ∀ y ∈ sheets, y.settling = false) (hc : p.finisher.state = .compiling)
    (hd : p.finisher.disturbed = false) (episode : p.episode.isOpen = false) (doors : p.anyDoorOpen = false) :
    ({ p with finisher := { p.finisher with sheets := sheets, toStaple := p.finisher.toStaple || staple, closed := true } } : Part).inFinalCycle
      s.tick s.judgeClosure.judgeSplit.judge.conclude := by
  obtain ⟨y, hy, hl⟩ := last
  have closure := Part.judgeClosure_closes (s := s) (by rw [h.finisher]; exact hc) (by rw [h.finisher]; exact hd)
    ⟨y, by rw [h.finisher]; exact hy, hl, settled y hy⟩
  rw [Part.judgeSplit_closed (by rw [closure])]
  have via := h.via.andThen s.judgeClosure_via rfl
  have tick : s.judgeClosure.tick = s.tick := s.judgeClosure_via.tick_eq rfl
  rw [h.finisher] at closure
  generalize s.judgeClosure = c at closure via tick ⊢
  have gates := c.judgeGates_via
  have starts := Part.judgeFinisher_starts (s := c.judgeGates) (by rw [gates.finisher_eq rfl, closure]; exact hc)
    (by rw [gates.finisher_eq rfl, closure]) (by rw [gates.finisher_eq rfl, closure]; exact hd)
    (by rw [gates.finisher_eq rfl, closure]; exact settled) (by rw [gates.episode_eq rfl, via.episode_eq rfl]; exact episode)
    ((anyDoorOpen_of ((gates.force_eq rfl).trans (via.force_eq rfl)) ((gates.lines_eq rfl).trans (via.lines_eq rfl))).trans doors)
  have some : sheets ≠ [] := List.ne_nil_of_mem hy
  rw [if_neg (by rw [gates.finisher_eq rfl, closure]; exact some), gates.tick_eq rfl, tick] at starts
  unfold Part.inFinalCycle Part.finisherSet at starts
  rw [gates.finisher_eq rfl, gates.force_eq rfl, via.force_eq rfl, closure] at starts
  have judged : ({ p with finisher := { p.finisher with
      sheets := sheets, toStaple := p.finisher.toStaple || staple, closed := true } } : Part).inFinalCycle s.tick c.judgeSet := starts
  refine judged.goesOn (Part.judgeSet_ends ?_)
  show c.judgeGates.judgeFinisher.finisher.state = .stapling ∨ c.judgeGates.judgeFinisher.finisher.state = .ejecting
  split at starts
  · exact .inl (by rw [starts.1])
  · exact .inr (by rw [starts.1])

/-- The sheet just compiled fills the set, which nothing closes: it is split. -/
theorem Part.justCompiled.splits {sheets : List Held} {staple : Bool} (h : p.justCompiled sheets staple s)
    (settled : ∀ y ∈ sheets, y.settling = false) (full : p.fullUnclosed sheets) :
    (p.finisher.state = .compiling → p.inPartialEject s.tick s.judgeClosure.judgeSplit.judge.conclude) ∧
    (p.finisher.state = .retained → s.judgeClosure.judgeSplit.judge.conclude.finisher.state = .retained ∧
      s.judgeClosure.judgeSplit.judge.conclude.finisher.skipped = true ∧ s.judgeClosure.judgeSplit.judge.conclude.finisher.split = true) := by
  obtain ⟨count, hd, opened, last, behind, kept⟩ := full
  have finisher := h.finisher
  have behind' : ¬ s.overtaken := by
    rw [Part.overtaken_of (by rw [finisher]) (h.via.table_eq rfl)]
    exact behind
  have unclosed : s.unclosed := ⟨by rw [finisher]; exact last, behind', by rw [finisher]; exact kept⟩
  have fullS : s.fullUnclosed s.finisher.sheets :=
    ⟨by rw [finisher, h.via.force_eq rfl]; exact count, by rw [finisher]; exact hd, by rw [finisher]; exact opened, unclosed⟩
  rw [Part.judgeClosure_unclosed unclosed]
  obtain ⟨compiling, retained⟩ := Part.judgeSplit_full fullS (by rw [finisher]; exact settled)
  rw [finisher] at compiling retained
  constructor
  · intro hc
    obtain ⟨ejects, -⟩ := compiling hc
    have ends := ejects.goesOn (Part.ends_busy (.inr ejects.1))
    unfold Part.inPartialEject Part.finisherSet at ends ⊢
    rwa [finisher, h.via.force_eq rfl, h.via.dry_eq rfl] at ends
  · intro hr
    have e := retained hr
    have state : s.judgeSplit.finisher.state = .retained := by rw [e]; exact hr
    have goesOn := Part.ends_goesOn (s := s.judgeSplit) (.inr (.inr (by rw [e]; exact hd)))
    obtain ⟨same, -⟩ := goesOn.retained state
    rw [e] at same
    rcases same with same | same <;> rw [same] <;> exact ⟨hr, rfl, rfl⟩

theorem settleExpiry_taken (w : List Instr) (p : Part) (before after : List Held) (h : Held) (e : p.finisher.sheets = before ++ h :: after)
    (hb : ∀ y ∈ before, y.settling = false) (hs : h.settling = true) : Completes .settleExpiry ⟨w, p⟩ fun q =>
       p.passesTo h.settleAt q ∧ q.lines = p.lines ∧ countedUp p.stats.pathSet.width p.stats.path q.stats.path 2 ∧
       (p.feed.path ≠ .held ∨ p.dry.on = false ∨ p.finisher.disturbed = false →
         q.finisher.sheets = before ++ { h with settling := false } :: after ∧
         q.finisher.toStaple = (p.finisher.toStaple || h.staple)) ∧
       (h.lastOfSet = true → (∀ y ∈ after, y.settling = false) → p.finisher.state = .compiling → p.finisher.disturbed = false →
         p.episode.isOpen = false → p.anyDoorOpen = false →
         if q.finisher.toStaple = true ∧ p.finisher.stapled = false ∧ p.finisher.skipped = false ∧ p.finisher.abandoned = false then
           q.finisher.state = .stapling ∧ q.out.stapler = true ∧
           q.finisher.stapleLimit = some (plusTicks q.tick p.finisherSet.limit)
         else q.finisher.state = .ejecting ∧ q.out.ejector = true ∧
           q.finisher.ejectLimit = some (plusTicks q.tick (2 * p.finisherSet.eject))) ∧
       ((∀ y ∈ after, y.settling = false) → p.fullUnclosed (before ++ h :: after) →
         (p.finisher.state = .compiling → p.inPartialEject q.tick q) ∧
         (p.finisher.state = .retained →
           q.finisher.state = .retained ∧ q.finisher.skipped = true ∧ q.finisher.split = true)) := by
  have found : p.finisher.sheets.find? Held.settling = some h := by rw [e]; exact find_settling hb hs
  have run := exec_expiry (c := .settleExpiry) (w := w) (p := p) (d := h.settleAt) (g := fun p => p.completeCompile.judge)
    (timer := fun p => (p.finisher.sheets.find? Held.settling).map Held.settleAt) (fun _ => rfl) (by rw [found]; rfl)
  refine completes_next run ?_
  obtain ⟨passes, lines⟩ := Part.event_passes (p := p) (t := h.settleAt) (g := fun p => p.completeCompile.judge)
    (Part.settleExpiry_moves _)
  have just := Part.compiles_just e hb hs h.settleAt
  have eq : (p.event h.settleAt fun p => p.completeCompile.judge) =
      ((p.advance h.settleAt).compiles h).judgeClosure.judgeSplit.judge.conclude :=
    congrArg (fun r : Part => r.judge.conclude) (Part.completeCompile_eq (s := p.advance h.settleAt) found)
  have tick : ((p.advance h.settleAt).compiles h).tick = laterOf p.tick h.settleAt := (Part.countPath_via ..).tick_eq rfl
  have passed := passes.1
  rw [eq] at passes lines passed ⊢
  rw [← passed] at tick
  generalize (p.advance h.settleAt).compiles h = s at just passes lines tick ⊢
  have settledAll : (∀ y ∈ after, y.settling = false) → ∀ y ∈ before ++ { h with settling := false } :: after, y.settling = false := by
    intro ha y hy
    rcases List.mem_append.mp hy with hy | hy
    · exact hb y hy
    · rcases List.mem_cons.mp hy with rfl | hy
      · rfl
      · exact ha y hy
  have closure := s.judgeClosure_sheets
  have split := s.judgeClosure.judgeSplit_sheets
  have via := (s.judgeClosure_via.mono (A := [.out, .finisher, .dry]) rfl).andThen s.judgeClosure.judgeSplit_via rfl
  have kept : s.judgeClosure.judgeSplit.finisher.sheets = before ++ { h with settling := false } :: after ∧
      s.judgeClosure.judgeSplit.finisher.toStaple = (p.finisher.toStaple || h.staple) ∧
      s.judgeClosure.judgeSplit.finisher.disturbed = p.finisher.disturbed := by
    rw [split.1, split.2.1, split.2.2, closure.1, closure.2.1, closure.2.2, just.finisher]
    exact ⟨rfl, rfl, rfl⟩
  refine ⟨passes, lines, ?_, fun hw => ?_, fun last ha hc hd episode doors => ?_, fun ha full => ?_⟩
  · refine just.count.keep ?_
    rw [Part.ends_counts _ (by decide) (by decide) (by decide), via.stats_eq rfl]
  · have on : s.judgeClosure.judgeSplit.dry.on = p.dry.on := by
      have moves : Moves .offDryRun .settled s .settled s.judgeClosure.judgeSplit := (Part.judgeClosure_moves s).trans (Part.judgeSplit_moves _)
      rw [Dry.run_on (moves.eq_of (fun p : Part => p.dry.run) fun m => m.run_eq rfl), just.via.dry_eq rfl]
    have goesOn := Part.ends_goesOn (s := s.judgeClosure.judgeSplit) (by rwa [via.feed_eq rfl, just.via.feed_eq rfl, on, kept.2.2])
    obtain ⟨sheets, staple, -⟩ := goesOn.sheets (by rw [kept.1]; exact List.append_ne_nil_of_right_ne_nil _ (List.cons_ne_nil _ _))
    exact ⟨sheets.trans kept.1, staple.trans kept.2.1⟩
  · have closes := just.closes ⟨_, List.mem_append_right _ List.mem_cons_self, last⟩ (settledAll ha) hc hd episode doors
    rw [tick] at closes
    unfold Part.inFinalCycle at closes
    split at closes
    · next hstaple =>
      obtain ⟨finisher, stapler⟩ := closes
      rw [if_pos (by rw [finisher]; exact hstaple), finisher]
      exact ⟨rfl, stapler, rfl⟩
    · next hstaple =>
      obtain ⟨finisher, ejector⟩ := closes
      rw [if_neg (by rw [finisher]; exact hstaple), finisher]
      exact ⟨rfl, ejector, rfl⟩
  · have full' : p.fullUnclosed (before ++ { h with settling := false } :: after) := by
      obtain ⟨count, hd, opened, last, rest⟩ := full
      refine ⟨by simpa using count, hd, opened, fun y hy => ?_, rest⟩
      rcases List.mem_append.mp hy with hy | hy
      · exact last y (List.mem_append_left _ hy)
      · rcases List.mem_cons.mp hy with rfl | hy
        · exact last h (List.mem_append_right _ List.mem_cons_self)
        · exact last y (List.mem_append_right _ (List.mem_cons_of_mem _ hy))
    have splits := just.splits (settledAll ha) full'
    rwa [tick] at splits

/-- Settles O42. -/
theorem setCycles : Obligations.SetCycles := ⟨settleExpiry_taken, resume_cycle, setCycleStart_taken⟩

end Sys2Proof.Machine
end

