-- ==== Sys2Proof/Proofs/Operated.lean ====
section
/-! PROOF. The operator's requests: HOLD, CONTINUE, STOP and RESYNC STATION (O12). -/

namespace Sys2Proof.Machine

variable {s t u p : Part} {j : Jam}

/-! ## The hold flag and the set-end mark through the judgement -/

/-- What the judgement makes of the hold flag and the set-end mark: they stay; or a pick turned the mark into the flag; or the start
from IDLE opened an episode, which clears both (R48, R52). -/
inductive Part.holdsOn (s t : Part) : Prop where
  | stays (hold : t.feed.hold = s.feed.hold) (setEnd : t.feed.setEnd = s.feed.setEnd)
  | turned (before : s.feed.setEnd = true) (hold : t.feed.hold = true) (setEnd : t.feed.setEnd = false)
      (picked : t.feed.nextSheet = s.feed.nextSheet + 1)
  | opened (idle : s.feed.path = .idle) (inEpisode : t.feed.path.inEpisode = true) (hold : t.feed.hold = false)
      (setEnd : t.feed.setEnd = false)

theorem Feed.bound_hold (f : Feed) (n : NextPage) : (f.bound n).hold = (f.hold || (f.setEnd && n.pages.any Page.lastOfSet)) ∧
    (f.bound n).setEnd = (f.setEnd && !(f.setEnd && n.pages.any Page.lastOfSet)) := by
  unfold Feed.bound
  dsimp only
  split <;> exact ⟨rfl, rfl⟩

theorem Part.feeds.holdsOn (h : s.feeds t) : s.holdsOn t := by
  rcases h with h | ⟨u, n, h, -, k⟩
  · exact .stays (h.feed_eq Feed.hold) (h.feed_eq Feed.setEnd)
  · obtain ⟨m, picked⟩ := Part.pickCore_feed (s := u) n
    have feed := (u.makePick_feed n).trans picked
    obtain ⟨hold, setEnd⟩ := Feed.bound_hold ({ u.feed with merge := m } : Feed) n
    have hold' : (u.makePick n).feed.hold = _ := (congrArg Feed.hold feed).trans hold
    have setEnd' : (u.makePick n).feed.setEnd = _ := (congrArg Feed.setEnd feed).trans setEnd
    have number : (u.makePick n).feed.nextSheet = u.feed.nextSheet + 1 := congrArg Feed.nextSheet feed
    rw [← k.feed_eq Feed.hold] at hold'
    rw [← k.feed_eq Feed.setEnd] at setEnd'
    rw [← k.feed_eq Feed.nextSheet, h.feed_eq Feed.nextSheet] at number
    have before := h.feed_eq Feed.setEnd
    by_cases closes : u.feed.setEnd = true ∧ n.pages.any Page.lastOfSet = true
    · exact .turned (before ▸ closes.1) (by rw [hold']; simp [closes]) (by rw [setEnd']; simp [closes]) number
    · have open_ : (u.feed.setEnd && n.pages.any Page.lastOfSet) = false := by
        rw [← Bool.not_eq_true, Bool.and_eq_true]
        exact closes
      refine .stays (by rw [hold', open_, Bool.or_false]; exact h.feed_eq Feed.hold) (by rw [setEnd', open_]; simpa using before)

theorem Part.judgeFeed_holdsOn (s : Part) : s.holdsOn s.judgeFeed := by
  by_cases hi : s.feed.path = .idle
  · rw [Part.judgeFeed_idle hi]
    have sel := s.judgeSelector_shifts
    have stays : s.holdsOn s.judgeSelector := .stays (sel.feed_eq Feed.hold) (sel.feed_eq Feed.setEnd)
    unfold Part.judgeStart
    dsimp only
    split
    · rcases s.judgeSelector.enterStarting_cases with ⟨-, e⟩ | ⟨-, st, -, opened⟩
      · have feed := s.judgeSelector.start_starts.1
        rw [e]
        exact .stays ((congrArg Feed.hold feed).trans (sel.feed_eq Feed.hold)) ((congrArg Feed.setEnd feed).trans (sel.feed_eq Feed.setEnd))
      · exact .opened hi (by rcases opened.path with e | e <;> rw [e] <;> rfl) opened.hold.1 opened.hold.2
    · exact stays
  · exact (Part.judgeFeed_feeds hi).holdsOn

theorem Part.judge_holdsOn (h : s.feed.path ≠ .held) : s.holdsOn s.judge := by
  have feed := s.judgeSet_via.feed_eq rfl
  rw [Part.judge_unheld h]
  cases s.judgeSet.judgeFeed_holdsOn with
  | stays hold setEnd => exact .stays (by rw [hold, feed]) (by rw [setEnd, feed])
  | turned before hold setEnd picked => exact .turned (by rwa [← feed]) hold setEnd (by rw [picked, feed])
  | opened idle inEpisode hold setEnd => exact .opened (by rwa [← feed]) inEpisode hold setEnd

/-- The path states HOLD and CONTINUE are taken in (R48, R49). -/
abbrev PathState.operable (x : PathState) : Prop := x = .idle ∨ x = .starting ∨ x = .running ∨ x = .draining

theorem PathState.operable_of_hold {x : PathState} (h : x.holdRefusal = none) : x.operable := by
  cases x <;> simp [PathState.holdRefusal] at h <;> simp [PathState.operable]

/-- What the judgement leaves alone where it neither starts, picks nor opens. -/
theorem Part.heldStill_of_shifts (intake : t.intake = s.intake)
    (via : Via [.notices, .intake, .feed, .out, .finisher, .stats, .dry] s t) : heldStill s t :=
  ⟨intake, via.table_eq rfl, via.planner_eq rfl, via.calls_eq rfl, via.stations_eq rfl, via.episode_eq rfl, via.gate_eq rfl⟩

theorem Part.judgeFeed_holding (hold : s.feed.hold = true) (hp : s.feed.path.operable) :
    s.shifts s.judgeFeed ∧ drained s s.judgeFeed := by
  have unstarted : ¬ s.starts := fun ⟨_, off, _⟩ => absurd (hold.symm.trans off) (by decide)
  have unreturned : ¬ s.returns := fun ⟨off, _⟩ => absurd (hold.symm.trans off) (by decide)
  have sel := s.judgeSelector_shifts
  have still : s.feed.path ≠ .running → ∀ q : Part, q.feed.path = s.feed.path → drained s q := fun hr q hq =>
    ⟨by rw [if_neg hr, hq], fun h => absurd h hr⟩
  rcases hp with hp | hp | hp | hp
  · rw [Part.judgeFeed_unstarted hp unstarted]
    exact ⟨sel, still (by rw [hp]; exact nofun) _ s.judgeSelector_path⟩
  · rw [Part.judgeFeed_rests (by rw [hp]; exact PathState.starting_rests)]
    exact ⟨.refl s, still (by rw [hp]; exact nofun) _ rfl⟩
  · have e : s.judgeFeed = s.judgeRunning := by unfold Part.judgeFeed; rw [hp]
    rw [e]
    rcases Part.judgeRunning_cases hp with ⟨-, e⟩ | ⟨no, -⟩ | ⟨no, -⟩
    · rw [e]
      refine ⟨sel.trans (Part.enterDraining_shifts _), ?_⟩
      unfold drained
      rw [if_pos hp, Part.enterDraining_feed]
      exact ⟨rfl, fun _ => ⟨rfl, rfl⟩⟩
    all_goals
      have off := (Part.drainHolds_false no).1
      rw [sel.feed_eq Feed.hold, hold] at off
      cases off
  · rw [Part.judgeFeed_draining hp unreturned]
    exact ⟨sel, still (by rw [hp]; exact nofun) _ s.judgeSelector_path⟩

/-- The hold flag set, and judged. -/
theorem Part.judge_holding (hold : s.feed.hold = true) (hp : s.feed.path.operable) :
    s.judge.feed.hold = true ∧ s.judge.feed.setEnd = s.feed.setEnd ∧ drained s s.judge ∧ heldStill s s.judge := by
  have set := s.judgeSet_via
  have feed := set.feed_eq rfl
  have unheld : s.feed.path ≠ .held := by rcases hp with h | h | h | h <;> rw [h] <;> exact nofun
  rw [Part.judge_unheld unheld]
  obtain ⟨shifts, drains⟩ := Part.judgeFeed_holding (s := s.judgeSet) (by rw [feed, hold]) (by rwa [feed])
  refine ⟨?_, ?_, ?_, Part.heldStill_of_shifts ?_ ((set.mono rfl).andThen shifts.1 rfl)⟩
  · rw [shifts.feed_eq Feed.hold, feed, hold]
  · rw [shifts.feed_eq Feed.setEnd, feed]
  · unfold drained at drains ⊢
    rwa [feed] at drains
  · rw [shifts.1.intake_eq rfl, s.judgeSet_intake]

/-! ## HOLD (R48) -/

theorem hold_asked (b : Byte) (p : Part) : answerFrame ⟨0x0D, [b]⟩ p = p.answerHold [b] := rfl

theorem Part.answerHold_eq (h : s.feed.path.holdRefusal = none) (b : Byte) : s.answerHold [b] =
    match b.toNat with
    | 0 => (s.modFeed Feed.holdAtSheet).judge.done
    | 1 => (s.modFeed Feed.holdAtSetEnd).judge.done
    | _ => s.refuse .badValue := by
  unfold Part.answerHold
  rw [h, numAt_singleton] <;> rfl

theorem refused_hold {x : PathState} (h : refusedIn 0x0D x = none) : x.holdRefusal = none := by
  revert h
  cases x <;> decide

theorem refused_continue {x : PathState} (h : refusedIn 0x0E x = none) : x.holdRefusal = none := by
  revert h
  cases x <;> decide

theorem Part.holds_moves (s : Part) (g : Feed → Feed)
    (h : ∀ f : Feed, { g f with hold := false, setEnd := false } = { f with hold := false, setEnd := false })
    (hp : s.feed.path.operable) : Moves .inner .settled s .settled (s.modFeed g).judge :=
  (Move.hold g h (by rcases hp with h | h | h | h <;> rw [h] <;> rfl)).moves.trans (Part.judge_moves _)

/-- A HOLD that sets the hold flag. -/
theorem hold_sets {w : List Instr} {p : Part} {t : Tick} {v : Byte} {g : Feed → Feed} (hs : p.canAccept)
    (ha : (p.found t 0x0D [v]).answerHold [v] = ((p.found t 0x0D [v]).modFeed g).judge.done)
    (hg : ∀ f : Feed, { g f with hold := false, setEnd := false } = { f with hold := false, setEnd := false })
    (hp : p.feed.path.operable) (hold : (g p.feed).hold = true) : Completes (.hold t [v]) ⟨w, p⟩ fun q =>
      p.repliedTo t 0x0D [v] [0x00] q ∧ q.feed.hold = true ∧ q.feed.setEnd = (g p.feed).setEnd ∧ drained p q ∧ heldStill p q := by
  have moves := Part.holds_moves (p.found t 0x0D [v]) g hg hp
  have path : (g p.feed).path = p.feed.path := (congrArg Feed.path (hg p.feed) :)
  have taken := (hold_asked v (p.found t 0x0D [v])).trans ha
  obtain ⟨held, setEnd, drains, still⟩ := Part.judge_holding (s := (p.found t 0x0D [v]).modFeed g) hold (path.symm ▸ hp)
  have drains : drained p ((p.found t 0x0D [v]).modFeed g).judge := by
    unfold drained at drains ⊢
    rwa [show ((p.found t 0x0D [v]).modFeed g).feed.path = p.feed.path from path] at drains
  generalize ((p.found t 0x0D [v]).modFeed g).judge = q at taken moves held setEnd drains still
  exact completes_of (c := .hold t [v]) (s := ⟨w, p⟩) rfl hs taken moves.inner_eq.2.2.1
    ⟨repliedTo_of moves, held, setEnd, drains, still⟩

/-- A HOLD AT SET END that waits for the set's last page. -/
theorem hold_marks {w : List Instr} {p : Part} {t : Tick} {v : Byte} (hs : p.canAccept)
    (ha : (p.found t 0x0D [v]).answerHold [v] = ((p.found t 0x0D [v]).modFeed fun f => { f with setEnd := true }).judge.done)
    (hp : p.feed.path.operable) (hold : p.feed.hold = false) : Completes (.hold t [v]) ⟨w, p⟩ fun q =>
      p.repliedTo t 0x0D [v] [0x00] q ∧ ((q.feed.hold = false ∧ q.feed.setEnd = true) ∨
         (q.feed.hold = true ∧ q.feed.setEnd = false ∧ q.feed.nextSheet = p.feed.nextSheet + 1) ∨
         (p.feed.path = .idle ∧ q.feed.path.inEpisode = true)) := by
  have moves := Part.holds_moves (p.found t 0x0D [v]) (fun f => { f with setEnd := true }) (fun _ => rfl) hp
  have taken := (hold_asked v (p.found t 0x0D [v])).trans ha
  have unheld : p.feed.path ≠ .held := by rcases hp with h | h | h | h <;> rw [h] <;> exact nofun
  have course := Part.judge_holdsOn (s := (p.found t 0x0D [v]).modFeed fun f => { f with setEnd := true }) unheld
  generalize ((p.found t 0x0D [v]).modFeed fun f => { f with setEnd := true }).judge = q at taken moves course
  refine completes_of (c := .hold t [v]) (s := ⟨w, p⟩) rfl hs taken moves.inner_eq.2.2.1 ⟨repliedTo_of moves, ?_⟩
  cases course with
  | stays same setEnd => exact .inl ⟨same.trans hold, setEnd⟩
  | turned _ holds setEnd picked => exact .inr (.inl ⟨holds, setEnd, picked⟩)
  | opened idle inEpisode _ _ => exact .inr (.inr ⟨idle, inEpisode⟩)

theorem Feed.holdAtSetEnd_waits {f : Feed} (hold : f.hold = false) (h : f.lastBound = some false) : f.holdAtSetEnd = { f with setEnd := true } := by
  unfold Feed.holdAtSetEnd
  rw [hold, if_neg Bool.false_ne_true, if_pos h]

theorem Feed.holdAtSetEnd_holds {f : Feed} (h : f.hold = true ∨ f.lastBound ≠ some false) :
    f.holdAtSetEnd = { f with hold := true } := by
  unfold Feed.holdAtSetEnd
  cases hold : f.hold
  · rw [if_neg Bool.false_ne_true, if_neg (h.resolve_left (by rw [hold]; exact Bool.false_ne_true))]
  · rw [if_pos rfl, ← hold]

theorem hold_taken (w : List Instr) (p : Part) (t : Tick) (hs : p.canAccept) (hr : refusedIn 0x0D p.feed.path = none) :
     Completes (.hold t [0x00]) ⟨w, p⟩ (fun q =>
       p.repliedTo t 0x0D [0x00] [0x00] q ∧ q.feed.hold = true ∧ q.feed.setEnd = (p.feed.hold && p.feed.setEnd) ∧
       drained p q ∧ heldStill p q) ∧
     Completes (.hold t [0x01]) ⟨w, p⟩ (fun q =>
       p.repliedTo t 0x0D [0x01] [0x00] q ∧
       if p.feed.hold = true ∨ p.feed.lastBound ≠ some false then
         q.feed.hold = true ∧ q.feed.setEnd = p.feed.setEnd ∧ drained p q ∧ heldStill p q
       else (q.feed.hold = false ∧ q.feed.setEnd = true) ∨
         (q.feed.hold = true ∧ q.feed.setEnd = false ∧ q.feed.nextSheet = p.feed.nextSheet + 1) ∨
         (p.feed.path = .idle ∧ q.feed.path.inEpisode = true)) ∧
     ∀ v : Byte, 2 ≤ v.toNat → exec (.hold t [v]) ⟨w, p⟩ = .next ⟨w, p.answered t 0x0D [v] [0x03]⟩ := by
  have unrefused := refused_hold hr
  have operable := PathState.operable_of_hold unrefused
  have atSetEnd : ∀ g : Feed → Feed, p.feed.holdAtSetEnd = g p.feed →
      (p.found t 0x0D [0x01]).answerHold [0x01] = ((p.found t 0x0D [0x01]).modFeed g).judge.done := fun g hg =>
    (Part.answerHold_eq (s := p.found t 0x0D [0x01]) unrefused 0x01).trans
      (congrArg (fun f => Part.done (Part.judge { p.found t 0x0D [0x01] with feed := f })) hg)
  refine ⟨?_, ?_, fun v hv => ?_⟩
  · have set : (Feed.holdAtSheet p.feed).hold = true ∧ (Feed.holdAtSheet p.feed).setEnd = (p.feed.hold && p.feed.setEnd) := by
      unfold Feed.holdAtSheet
      cases hh : p.feed.hold
      · exact ⟨rfl, rfl⟩
      · exact ⟨hh, (Bool.true_and _).symm⟩
    have sets := hold_sets (w := w) hs (Part.answerHold_eq (s := p.found t 0x0D [0x00]) unrefused 0x00)
      (fun f => by unfold Feed.holdAtSheet; split <;> rfl) operable set.1
    rwa [set.2] at sets
  · split
    · next h =>
      exact hold_sets hs (atSetEnd (fun f => { f with hold := true }) (Feed.holdAtSetEnd_holds h)) (fun _ => rfl) operable rfl
    · next h =>
      rw [not_or, not_not, Bool.not_eq_true] at h
      exact hold_marks hs (atSetEnd (fun f => { f with setEnd := true }) (Feed.holdAtSetEnd_waits h.1 h.2)) operable h.1
  · refine exec_unchanged (c := .hold t [v]) (s := ⟨w, p⟩) rfl hs .badValue [] ((hold_asked v _).trans ?_)
    rw [Part.answerHold_eq (s := p.found t 0x0D [v]) unrefused v]
    split
    · next e => rw [e] at hv; cases hv
    · next e => rw [e] at hv; exact absurd hv (by decide)
    · rfl

end Sys2Proof.Machine
end

