-- ==== Sys2Proof/Proofs/Stopped.lean ====
section
/-! PROOF. CONTINUE, STOP and RESYNC STATION (O12). -/

namespace Sys2Proof.Machine

variable {s t u p : Part} {j : Jam}

/-! ## CONTINUE (R49) -/

theorem Part.nextPage_noPages (h : s.noPages) : s.nextPage = none := by
  obtain ⟨normal, priority, list⟩ := h
  have empty : ∀ x : Queue, s.intake.queue x = [] := fun x => by cases x <;> assumption
  unfold Part.nextPage
  rw [list, empty]
  rfl

/-- Without a page, a hold or the numbers' end, judging the feed moves the selector and the timers at most. -/
theorem Part.judgeFeed_noPages (none : s.noPages) (hold : s.feed.hold = false) (numbers : s.feed.exhausted = false)
    (hp : s.feed.path.operable) : s.shifts s.judgeFeed ∧ s.judgeFeed.feed.path = s.feed.path := by
  rcases hp with hp | hp | hp | hp
  · rw [Part.judgeFeed_unstarted hp (Part.starts_noPages none)]
    exact ⟨s.judgeSelector_shifts, s.judgeSelector_path⟩
  · rw [Part.judgeFeed_rests (by rw [hp]; exact PathState.starting_rests)]
    exact ⟨.refl s, rfl⟩
  · have e : s.judgeFeed = s.judgeRunning := by unfold Part.judgeFeed; rw [hp]
    have sel := s.judgeSelector_shifts
    have noPages : ∀ q : Part, q.intake = s.intake → q.planner = s.planner → q.nextPage = Option.none := fun q hi hl =>
      Part.nextPage_noPages (by unfold Part.noPages; rw [hi, hl]; exact none)
    rw [e]
    rcases Part.judgeRunning_cases hp with ⟨drains, -⟩ | ⟨-, v, -, e⟩ | ⟨-, n, picks, -⟩
    · unfold Part.drainHolds at drains
      rw [sel.feed_eq Feed.hold, sel.feed_eq Feed.exhausted, hold, numbers, noPages _ (sel.1.intake_eq rfl) (sel.1.planner_eq rfl)] at drains
      cases drains
    · rw [e]
      refine ⟨(sel.trans (Part.judgeHoldoff_shifts _)).trans (Part.pickTimer_shifts _ v), ?_⟩
      exact (Part.judgeHoldoff_path _).trans s.judgeSelector_path
    · have via := s.judgeSelector.judgeHoldoff_via
      have next := picks.next
      rw [noPages _ ((via.intake_eq rfl).trans (sel.1.intake_eq rfl)) ((via.planner_eq rfl).trans (sel.1.planner_eq rfl))] at next
      cases next
  · rw [Part.judgeFeed_draining hp (Part.returns_noPages none)]
    exact ⟨s.judgeSelector_shifts, s.judgeSelector_path⟩

theorem Part.judge_noPages (none : s.noPages) (hold : s.feed.hold = false) (numbers : s.feed.exhausted = false)
    (hp : s.feed.path.operable) : s.judge.feed.path = s.feed.path ∧ s.judge.intake = s.intake ∧ s.judge.table = s.table ∧
      s.judge.episode = s.episode := by
  have unheld : s.feed.path ≠ .held := by rcases hp with h | h | h | h <;> rw [h] <;> exact nofun
  have set := s.judgeSet_via
  have feed := set.feed_eq rfl
  obtain ⟨shifts, path⟩ := Part.judgeFeed_noPages (s := s.judgeSet)
    (by unfold Part.noPages; rw [s.judgeSet_intake, set.planner_eq rfl]; exact none)
    (by rw [feed, hold]) (by rw [feed, numbers]) (by rwa [feed])
  rw [Part.judge_unheld unheld, path, shifts.1.intake_eq rfl, shifts.1.table_eq rfl, shifts.1.episode_eq rfl, s.judgeSet_intake,
    feed, set.table_eq rfl, set.episode_eq rfl]
  exact ⟨rfl, rfl, rfl, rfl⟩

/-- Where the start conditions hold in IDLE, the judgement starts the path or finds paper under a station. -/
theorem Part.judge_starts (hp : s.feed.path = .idle) (h : s.starts) :
    s.judge.feed.path = .starting ∨ (s.judge.feed.path.inEpisode = true ∧ s.anyPaper = true) := by
  obtain ⟨next, hold, doors, faulted, retained, numbers⟩ := h
  have set := s.judgeSet_via
  have starts : s.judgeSet.starts := by
    have next' : s.judgeSet.nextUp = s.nextUp := Part.nextUp_of (set.feed_eq rfl) s.judgeSet_intake (by rw [set.planner_eq rfl])
    have doors' : s.judgeSet.anyDoorOpen = s.anyDoorOpen := anyDoorOpen_of (set.force_eq rfl) (set.lines_eq rfl)
    unfold Part.starts
    rw [next', doors', set.feed_eq rfl]
    exact ⟨next, hold, doors, Part.judgeSet_never ⟨nofun, nofun, nofun⟩ faulted, Part.judgeSet_never ⟨nofun, nofun, nofun⟩ retained, numbers⟩
  have path : s.judgeSet.feed.path = .idle := by rw [set.feed_eq rfl, hp]
  have paper : s.judgeSet.judgeSelector.anyPaper = s.anyPaper := by
    have sel := s.judgeSet.judgeSelector_via
    exact Part.anyPaper_of (by rw [sel.dry_eq rfl, s.judgeSet_on]) ((sel.force_eq rfl).trans (set.force_eq rfl))
      ((sel.lines_eq rfl).trans (set.lines_eq rfl))
  have e : s.judgeSet.judgeStart = s.judgeSet.judgeSelector.enterStarting := if_pos (s.judgeSet.startReady_iff.mpr starts)
  rw [Part.judge_unheld (by rw [hp]; exact nofun), Part.judgeFeed_idle path, e]
  rcases s.judgeSet.judgeSelector.enterStarting_cases with ⟨-, e⟩ | ⟨some, st, -, opened⟩
  · rw [e, s.judgeSet.judgeSelector.start_starts.1]
    exact .inl rfl
  · exact .inr ⟨by rcases opened.path with e | e <;> rw [e] <;> rfl, by rw [← paper, some]⟩

theorem continue_asked (p : Part) : answerFrame ⟨0x0E, []⟩ p = p.answerContinue := rfl

theorem Part.answerContinue_eq (h : s.feed.path.holdRefusal = none) :
    s.answerContinue = (s.modFeed fun f => { f with hold := false, setEnd := false }).judge.done := by
  unfold Part.answerContinue
  rw [h]

/-- The next page does not rest on the hold flag and the set-end mark. -/
theorem Part.nextUp_continued (p : Part) (t : Tick) :
    p.nextUp = ((p.found t 0x0E []).modFeed fun f => { f with hold := false, setEnd := false }).nextUp := by
  unfold Part.nextUp Part.activeQueue
  rfl

theorem continue_taken (w : List Instr) (p : Part) (t : Tick) (hs : p.canAccept) (hr : refusedIn 0x0E p.feed.path = none) :
     Completes (.continueFeed t []) ⟨w, p⟩ fun q =>
       p.repliedTo t 0x0E [] [0x00] q ∧ q.feed.hold = false ∧ q.feed.setEnd = false ∧
       (p.noPages → p.feed.exhausted = false → q.feed.path = p.feed.path ∧ q.intake = p.intake ∧ q.table = p.table ∧
         q.episode = p.episode) ∧
       (p.feed.path = .idle → p.judgeSelector.nextPage.isSome = true → p.anyDoorOpen = false → p.finisher.state ≠ .faulted →
         p.finisher.state ≠ .retained → p.feed.exhausted = false →
         q.feed.path = .starting ∨ (q.feed.path.inEpisode = true ∧ p.anyPaper = true)) := by
  have unrefused := refused_continue hr
  have operable := PathState.operable_of_hold unrefused
  have unheld : p.feed.path ≠ .held := by rcases operable with h | h | h | h <;> rw [h] <;> exact nofun
  have taken := (continue_asked (p.found t 0x0E [])).trans (Part.answerContinue_eq (s := p.found t 0x0E []) unrefused)
  have moves := Part.holds_moves (p.found t 0x0E []) (fun f => { f with hold := false, setEnd := false }) (fun _ => rfl) operable
  have course := Part.judge_holdsOn (s := (p.found t 0x0E []).modFeed fun f => { f with hold := false, setEnd := false }) unheld
  have starts := Part.judge_starts (s := (p.found t 0x0E []).modFeed fun f => { f with hold := false, setEnd := false })
  have still := Part.judge_noPages (s := (p.found t 0x0E []).modFeed fun f => { f with hold := false, setEnd := false })
  have off : ((p.found t 0x0E []).modFeed fun f => { f with hold := false, setEnd := false }).judge.feed.hold = false ∧
      ((p.found t 0x0E []).modFeed fun f => { f with hold := false, setEnd := false }).judge.feed.setEnd = false := by
    cases course with
    | stays hold setEnd => exact ⟨hold, setEnd⟩
    | turned before _ _ _ => cases before
    | opened _ _ hold setEnd => exact ⟨hold, setEnd⟩
  generalize ((p.found t 0x0E []).modFeed fun f => { f with hold := false, setEnd := false }).judge = q at taken moves starts still off
  refine completes_of (c := .continueFeed t []) (s := ⟨w, p⟩) rfl hs taken moves.inner_eq.2.2.1
    ⟨repliedTo_of moves, off.1, off.2, fun none numbers => still none rfl numbers operable, fun hp next doors faulted retained numbers => ?_⟩
  have next' : ((p.found t 0x0E []).modFeed fun f => { f with hold := false, setEnd := false }).nextUp.isSome = true := by
    rwa [Part.judgeSelector_nextPage, Part.nextUp_continued p t] at next
  exact starts hp ⟨next', rfl, doors, faulted, retained, numbers⟩

/-! ## STOP (R120) -/

theorem Part.judgeFinisher_path (s : Part) {c : Fin 10} (h : c ≠ 8) : s.judgeFinisher.stats.path[c] = s.stats.path[c] := by
  have stats := s.judgeClosure_via.stats_eq rfl
  have same : ∀ q : Part, q.stats = s.judgeClosure.stats → q.stats.path[c] = s.stats.path[c] := fun q e => by rw [e, stats]
  rcases s.judgeFinisher_cases with ⟨e, -⟩ | ⟨-, ⟨-, -, e⟩ | ⟨-, -, -, -, -, -, e⟩ | ⟨-, -, -, e⟩ | ⟨-, e⟩⟩ <;> rw [e]
  · exact same _ rfl
  · rw [Part.completeEject_path _ h]
    exact same s.judgeClosure rfl
  · exact same _ ((Part.enterStapling_via _).stats_eq rfl)
  · exact same _ ((Part.enterEjecting_via ..).stats_eq rfl)
  · exact same _ ((Part.enterEjecting_via ..).stats_eq rfl)

theorem Part.judgeSet_path (s : Part) {c : Fin 10} (h : c ≠ 8) : s.judgeSet.stats.path[c] = s.stats.path[c] := by
  have gates := s.judgeGates_via.stats_eq rfl
  refine (Part.judgeFinisher_path s.judgeGates h).trans ?_
  rw [gates]

/-- In an episode at rest the judgement keeps the episode and what a jam left of the path, and counts a set that ends alone. -/
theorem Part.judge_rests_stands (h : s.feed.path.rests) : s.episodeStands s.judge ∧
    ∀ c : Fin 10, c ≠ 8 → s.judge.stats.path[c] = s.stats.path[c] := by
  have set := s.judgeSet_stands
  have path : s.judgeSet.feed.path.rests := by rwa [s.judgeSet_via.feed_eq rfl]
  rw [Part.judge_eq]
  by_cases ready : s.judgeSet.autoSweepReady = true
  · have e : s.judgeSet.judgeClearance = s.judgeSet.startSweep := if_pos ready
    have sweeps := s.judgeSet.startSweep_sweeps
    have held : s.feed.path = .held := by
      have := ((Part.autoSweepReady_iff _).mp ready).1
      rwa [s.judgeSet_via.feed_eq rfl] at this
    rw [e, Part.judgeFeed_rests sweeps.rests]
    refine ⟨⟨sweeps.episode.trans set.episode, sweeps.feed.trans set.feed, sweeps.clutch.trans set.clutch,
      sweeps.sheets.trans set.sheets, .inr ⟨held, ?_⟩⟩, fun c hc => ?_⟩
    · have course := sweeps.course
      split at course
      · exact .inr course.1
      · exact .inl course.1.1
    · rw [sweeps.via.stats_eq rfl]
      exact s.judgeSet_path hc
  · have e : s.judgeSet.judgeClearance = s.judgeSet := if_neg ready
    rw [e, Part.judgeFeed_rests path]
    exact ⟨set, fun c hc => s.judgeSet_path hc⟩

/-- An opening without a run-out set strands every sheet. -/
theorem Part.openEpisode_strandsAll (s : Part) (j : Jam) (hj : j.kind.noRunOut = true) :
    ∀ x ∈ (s.openEpisode j 0).table.sheets, x.cond ≠ .runningOut := by
  obtain ⟨ns, hns, e⟩ := s.openCore_sheets j 0
  have none : ns = [] := by
    rw [hns]
    unfold Part.runOutSet
    rw [hj]
    rfl
  intro x hx
  rw [(s.openEpisode_via_core j 0).table_eq rfl, e, none, List.map_map] at hx
  obtain ⟨y, -, rfl⟩ := List.mem_map.mp hx
  have cond := Sheet.opened_cond [] y
  simp only [List.contains_nil, Bool.false_eq_true, if_false] at cond
  rw [show ((Sheet.strandIf fun x => !([] : List Nat).contains x.number) ∘ Sheet.runOutIf []) y =
    Sheet.strandIf (fun x => !([] : List Nat).contains x.number) (y.runOutIf []) from rfl]
  simp only [List.contains_nil] at cond ⊢
  rw [cond]
  exact nofun

theorem Part.openEpisode_counts (s : Part) (j : Jam) :
    countedUp s.stats.pathSet.width s.stats.path (s.openEpisode j 0).stats.path 6 := by
  have via := (s.openCore_via j 0).andThen ((Part.noteRecord_via _ 1 j).mono (A := [.notices, .feed, .out, .table, .stations, .episode, .finisher, .dry]) rfl) rfl
  have raised := Part.countPath_raised ((s.openCore j 0).noteRecord 1 j) 6
  rw [via.stats_eq rfl] at raised
  exact raised

/-- A jam in HALTING that names no sheet strands every sheet still running out, and the path is HELD. -/
theorem Part.extendHalting_ends (s : Part) (j : Jam) (hj : j.sheet = none) (hp : s.feed.path = .halting) :
    (s.extendHalting j).feed.path = .held ∧ ∀ x ∈ (s.extendHalting j).table.sheets, x.cond ≠ .runningOut := by
  have sheets : ∀ x ∈ s.table.sheets.map (Sheet.strandIf fun x => x.cond == .runningOut && (j.sheet.all fun n => decide (n ≤ x.number))),
      x.cond ≠ .runningOut := by
    intro x hx
    obtain ⟨y, -, rfl⟩ := List.mem_map.mp hx
    rw [hj]
    unfold Sheet.strandIf Sheet.moving
    split
    · exact nofun
    · next h =>
      intro cond
      simp [cond] at h
  refine ⟨?_, by rwa [s.extendHalting_sheets]⟩
  unfold Part.extendHalting Part.endHalting
  rw [if_pos]
  · exact Part.setPath_path ..
  · refine ⟨by rw [(Part.strand_via ..).feed_eq rfl, Part.addRecord_feed, hp], ?_⟩
    rw [Part.strand_sheets, (s.addRecord_via j).table_eq rfl, List.any_eq_false]
    intro x hx
    have cond := sheets x hx
    simpa using cond

/-- What STOP's jam leaves (R113, R120). -/
theorem Part.stopJam_leaves (s : Part) (j : Jam) (hk : j.kind.noRunOut = true) (hj : j.sheet = none)
    (hp : s.feed.path = .starting ∨ s.feed.path = .running ∨ s.feed.path = .draining ∨ s.feed.path = .halting) :
    (s.takeJam j).feed.path = .held ∧ (∀ x ∈ (s.takeJam j).table.sheets, x.cond ≠ .runningOut) ∧
      (s.feed.path ≠ .halting → countedUp s.stats.pathSet.width s.stats.path (s.takeJam j).stats.path 6) := by
  have opened : s.takeJam j = s.openEpisode j 0 → (s.takeJam j).feed.path = .held ∧
      (∀ x ∈ (s.takeJam j).table.sheets, x.cond ≠ .runningOut) ∧
      (s.feed.path ≠ .halting → countedUp s.stats.pathSet.width s.stats.path (s.takeJam j).stats.path 6) := fun e => by
    have strands := s.openEpisode_strandsAll j hk
    have path := (s.openEpisode_openedWith j 0).2.2.2.2.2.2.2.2.2.2
    rw [e]
    refine ⟨(s.openEpisode_inEpisode j 0).resolve_left fun halting => ?_, strands, fun _ => s.openEpisode_counts j⟩
    obtain ⟨x, hx, cond⟩ := path.mp halting
    exact strands x hx cond
  rcases hp with hp | hp | hp | hp
  · exact opened (by unfold Part.takeJam; rw [hp])
  · exact opened (by unfold Part.takeJam; rw [hp])
  · exact opened (by unfold Part.takeJam; rw [hp])
  · have e : s.takeJam j = s.extendHalting j := by unfold Part.takeJam; rw [hp]
    obtain ⟨path, sheets⟩ := s.extendHalting_ends j hj hp
    rw [e]
    exact ⟨path, sheets, fun h => absurd hp h⟩

theorem stop_asked (p : Part) : answerFrame ⟨0x0F, []⟩ p = p.answerStop := rfl

theorem refused_stop {x : PathState} (h : refusedIn 0x0F x = none) :
    x = .starting ∨ x = .running ∨ x = .draining ∨ x = .halting ∨ x = .sweeping := by
  revert h
  cases x <;> decide

/-- A sweep abandoned and barred stays so (R120, R130). -/
theorem Part.abandonSweep_judge (s : Part) : (s.abandonSweep true).judge.feed.path = .held ∧
    (s.abandonSweep true).judge.episode = { s.episode with sweepTimer := none, barred := true } ∧
    (s.abandonSweep true).judge.out.drives false ∧ (s.abandonSweep true).judge.table = s.table ∧
    (s.abandonSweep true).judge.planner = s.planner := by
  have via := s.abandonSweep_via true
  have path : (s.abandonSweep true).feed.path = .held := Part.setPath_path ..
  have episode : (s.abandonSweep true).episode = { s.episode with sweepTimer := none, barred := true } := by
    unfold Part.abandonSweep
    rw [(Part.setPath_via ..).episode_eq rfl, (Part.stopDrives_via _).episode_eq rfl, Part.modEpisode_episode, Bool.or_true]
  have drives : (s.abandonSweep true).out.drives false := by
    unfold Part.abandonSweep
    rw [(Part.setPath_via ..).out_eq rfl]
    exact ⟨rfl, rfl, rfl, rfl⟩
  generalize s.abandonSweep true = r at via path episode drives ⊢
  have set := r.judgeSet_via
  have still : r.judgeSet.judgeClearance = r.judgeSet := by
    unfold Part.judgeClearance
    rw [if_neg]
    intro ready
    have barred := ((Part.autoSweepReady_iff _).mp ready).2.2.2
    rw [set.episode_eq rfl, episode] at barred
    cases barred
  rw [Part.judge_eq, still, Part.judgeFeed_rests (by rw [set.feed_eq rfl, path]; exact ⟨nofun, nofun, nofun⟩), set.feed_eq rfl,
    set.episode_eq rfl, set.table_eq rfl, set.planner_eq rfl, via.table_eq rfl, via.planner_eq rfl]
  exact ⟨path, episode, Outputs.drives_of_fed r.judgeSet_out false drives, rfl, rfl⟩

theorem stop_taken (w : List Instr) (p : Part) (t : Tick) (hs : p.canAccept) (hr : refusedIn 0x0F p.feed.path = none) :
     Completes (.hostStop t []) ⟨w, p⟩ fun q =>
       p.repliedTo t 0x0F [] [0x00] q ∧
       if p.feed.path = .sweeping then
         q.feed.path = .held ∧ q.episode = { p.episode with sweepTimer := none, barred := true } ∧ q.out.drives false ∧
         q.table = p.table ∧ q.planner = p.planner
       else
         p.tookJam ⟨.hostStop, none, none, none, none, laterOf p.tick t, none, none⟩ q ∧ q.feed.path ≠ .halting ∧
         (∀ x ∈ q.table.sheets, x.cond ≠ .runningOut) ∧
         (p.feed.path ≠ .halting → countedUp p.stats.pathSet.width p.stats.path q.stats.path 6) := by
  have asked := stop_asked (p.found t 0x0F [])
  by_cases sweeping : p.feed.path = .sweeping
  · have taken : (p.found t 0x0F []).answerStop = ((p.found t 0x0F []).abandonSweep true).judge.done := by
      unfold Part.answerStop
      rw [show (p.found t 0x0F []).feed.path = .sweeping from sweeping]
    have moves : Moves .inner .settled (p.found t 0x0F []) .settled ((p.found t 0x0F []).abandonSweep true).judge :=
      (Move.abandonSweep (s := p.found t 0x0F []) true rfl sweeping).moves.trans (Part.judge_moves _)
    have leaves := (p.found t 0x0F []).abandonSweep_judge
    generalize ((p.found t 0x0F []).abandonSweep true).judge = q at taken moves leaves
    refine completes_of (c := .hostStop t []) (s := ⟨w, p⟩) rfl hs (asked.trans taken) moves.inner_eq.2.2.1 ⟨repliedTo_of moves, ?_⟩
    rw [if_pos sweeping]
    exact leaves
  · have path : p.feed.path = .starting ∨ p.feed.path = .running ∨ p.feed.path = .draining ∨ p.feed.path = .halting := by
      rcases refused_stop hr with h | h | h | h | h
      · exact .inl h
      · exact .inr (.inl h)
      · exact .inr (.inr (.inl h))
      · exact .inr (.inr (.inr h))
      · exact absurd h sweeping
    generalize hj : (⟨.hostStop, none, none, none, none, laterOf p.tick t, none, none⟩ : Jam) = j
    have taken : (p.found t 0x0F []).answerStop = ((p.found t 0x0F []).takeJam j).judge.done := by
      rw [← hj]
      unfold Part.answerStop
      rcases path with h | h | h | h <;> rw [show (p.found t 0x0F []).feed.path = _ from h] <;> rfl
    have takes : (p.found t 0x0F []).takes j := .inl (by
      show p.feed.path.takesJams = true
      rcases path with h | h | h | h <;> rw [h] <;> rfl)
    have moves : Moves .inner .settled (p.found t 0x0F []) .settled ((p.found t 0x0F []).takeJam j).judge :=
      (Part.takeJam_moves _ j rfl).trans (Part.judge_moves _)
    have took := (Part.takeJam_tookJam takes).1
    obtain ⟨held, sheets, count⟩ := (p.found t 0x0F []).stopJam_leaves j (by rw [← hj]; rfl) (by rw [← hj]) path
    obtain ⟨stands, counts⟩ := Part.judge_rests_stands (s := (p.found t 0x0F []).takeJam j) (by rw [held]; exact ⟨nofun, nofun, nofun⟩)
    generalize (p.found t 0x0F []).takeJam j = r at taken moves took held sheets count stands counts
    have took := took.stands stands
    generalize r.judge = q at taken moves took stands counts
    have left : q.feed.path ≠ .halting := by
      rcases stands.path with ⟨e, -⟩ | ⟨-, e | e⟩
      · rw [e, held]
        exact nofun
      · rw [e]
        exact nofun
      · rw [e]
        exact nofun
    refine completes_of (c := .hostStop t []) (s := ⟨w, p⟩) rfl hs (asked.trans taken) moves.inner_eq.2.2.1 ⟨repliedTo_of moves, ?_⟩
    rw [if_neg sweeping]
    exact ⟨took.of rfl rfl, left, fun x hx => sheets x (stands.sheets.subset hx), fun h => (count h).keep (counts 6 (by decide))⟩

/-! ## RESYNC STATION (R81) -/

theorem resync_asked (v : Byte) (p : Part) : answerFrame ⟨0x11, [v]⟩ p = p.answerResync [v] := rfl

theorem Part.answerResync_eq (hp : s.feed.path ≠ .unconfigured) (v : Byte) : s.answerResync [v] =
    match s.force.definedStation v.toNat with
    | none => s.refuse .badValue
    | some st => (s.modStation st fun x => { x with resync := true }).done := by
  unfold Part.answerResync
  rw [if_neg hp, numAt_singleton] <;> rfl

theorem Desc.definedStation_some {d : Desc} {st : Fin 24} (h : (d.stations[st]).isSome = true) : d.definedStation st.val = some st := by
  unfold Desc.definedStation below
  rw [dif_pos st.isLt]
  exact Option.filter_some_pos h

theorem Desc.definedStation_none {d : Desc} {v : Nat} (h : ∀ st : Fin 24, v = st.val → d.stations[st] = none) : d.definedStation v = none := by
  unfold Desc.definedStation below
  split
  · next hv =>
    refine Option.filter_some_neg ?_
    rw [h ⟨v, hv⟩ rfl]
    rfl
  · rfl

theorem resync_taken (w : List Instr) (p : Part) (t : Tick) (v : Byte) (hs : p.canAccept) (hp : p.feed.path ≠ .unconfigured) :
    (∀ st : Fin 24, v.toNat = st.val → (p.force.stations[st]).isSome = true →
      exec (.resyncStation t [v]) ⟨w, p⟩ = .next ⟨w, { p.answered t 0x11 [v] [0x00] with
        stations := p.stations.set st { p.stations[st] with resync := true } }⟩) ∧
    ((∀ st : Fin 24, v.toNat = st.val → p.force.stations[st] = none) →
      exec (.resyncStation t [v]) ⟨w, p⟩ = .next ⟨w, p.answered t 0x11 [v] [0x03]⟩) := by
  have asked := (resync_asked v (p.found t 0x11 [v])).trans (Part.answerResync_eq (s := p.found t 0x11 [v]) hp v)
  refine ⟨fun st hv defined => ?_, fun undefined => ?_⟩
  · rw [hv, show (p.found t 0x11 [v]).force.definedStation st.val = some st from Desc.definedStation_some defined] at asked
    exact exec_taken (c := .resyncStation t [v]) (s := ⟨w, p⟩) rfl hs asked rfl
  · rw [show (p.found t 0x11 [v]).force.definedStation v.toNat = none from Desc.definedStation_none undefined] at asked
    exact exec_unchanged (c := .resyncStation t [v]) (s := ⟨w, p⟩) rfl hs .badValue [] asked

/-- Settles O12. -/
theorem operatorRequests : Obligations.OperatorRequests :=
  ⟨hold_taken, continue_taken, stop_taken, resync_taken⟩

end Sys2Proof.Machine
end

