-- ==== Sys2Proof/Proofs/DoorOpened.lean ====
section
/-! PROOF. A door opening (O27). -/

namespace Sys2Proof.Machine

variable {s t u p : Part} {j : Jam}

/-! ## The end of an event under an open door -/

/-- Under an open door no diverter moves, no cycle starts, no sweep starts and the path does not start (R44, R85, R124, R150). -/
theorem Part.judgeSet_doorOpen (door : s.anyDoorOpen = true) : s.judgeSet = s.judgeClosure := by
  have exit : s.judgeExitGate = s := by
    unfold Part.judgeExitGate
    rw [door, Bool.not_true, Bool.and_false]
    rfl
  have purge : s.judgePurgeGate = s := by
    unfold Part.judgePurgeGate
    rw [door, Bool.not_true, Bool.and_false]
    rfl
  have gates : s.judgeGates = s := by rw [Part.judgeGates, exit, purge]
  have via := s.judgeClosure_via
  unfold Part.judgeSet
  rw [gates]
  refine if_neg fun ready => ?_
  have shut := ((Part.cycleReady_iff _).mp ready).2.2.2.2.2
  rw [Part.anyDoorOpen_of (via.force_eq rfl) (via.lines_eq rfl), door] at shut
  cases shut

theorem Part.judgeClearance_doorOpen (door : s.anyDoorOpen = true) : s.judgeClearance = s := by
  refine if_neg fun ready => ?_
  have shut := (s.clear_parts.mp ((Part.autoSweepReady_iff _).mp ready).2.1).1
  rw [door] at shut
  cases shut

/-- What the end of an event leaves under an open door, outside RUNNING and DRAINING. -/
structure Part.endsStill (s t : Part) : Prop where
  via : Via [.link, .notices, .calls, .intake, .gate, .feed, .finisher] s t
  path : t.feed.path = s.feed.path
  finisher : t.finisher = s.finisher ∨ t.finisher = { s.finisher with closed := true }

theorem Part.ends_doorOpen (door : s.anyDoorOpen = true) (hr : s.feed.path ≠ .running) (hd : s.feed.path ≠ .draining) :
    s.endsStill s.judge.conclude := by
  have via := s.judgeClosure_via
  have doors : s.judgeClosure.anyDoorOpen = true := (Part.anyDoorOpen_of (via.force_eq rfl) (via.lines_eq rfl)).trans door
  have closure : s.judgeClosure.finisher = s.finisher ∨ s.judgeClosure.finisher = { s.finisher with closed := true } := by
    unfold Part.judgeClosure
    dsimp only
    split
    · exact .inr rfl
    · exact .inl rfl
  have feed := via.feed_eq rfl
  have e : s.judge = s.judgeClosure.judgeFeed := by
    rw [Part.judge_eq, Part.judgeSet_doorOpen door, Part.judgeClearance_doorOpen doors]
  rw [e]
  generalize s.judgeClosure = c at via doors closure feed
  by_cases hi : s.feed.path = .idle
  · have unstarted : ¬ c.starts := fun ⟨_, _, shut, _⟩ => by
      rw [doors] at shut
      cases shut
    have waits : c.judgeSelector.waiting := .inl ⟨by rw [Part.judgeSelector_path, feed, hi], by rwa [Part.judgeSelector_starts]⟩
    rw [Part.judgeFeed_unstarted (by rw [feed, hi]) unstarted]
    have turns := Part.conclude_waiting waits
    refine ⟨((via.mono rfl).andThen c.judgeSelector_via rfl).trans (turns.via.mono rfl), ?_, ?_⟩
    · have path : c.judgeSelector.conclude.feed.path = c.judgeSelector.feed.path := by rcases turns.feed with e | e <;> rw [e]
      rw [path, Part.judgeSelector_path, feed]
    · rwa [turns.via.finisher_eq rfl, c.judgeSelector_via.finisher_eq rfl]
  · have rests : c.feed.path.rests := by rw [feed]; exact ⟨hi, hr, hd⟩
    have serves := Part.conclude_rests rests
    rw [Part.judgeFeed_rests rests]
    exact ⟨(via.mono rfl).trans (serves.via.mono rfl), by rw [serves.via.feed_eq rfl, feed], by rwa [serves.via.finisher_eq rfl]⟩

/-! ## What an opening leaves standing (R117 to R119) -/

/-- The DOOR conditions, the outputs of gates and finisher, and the set's cycle stand; a COMPILING set may be RETAINED, and a set
closed. -/
structure Part.standsOpen (s t : Part) : Prop where
  doors : s.sameDoors t
  barred : s.episode.barred = false → t.episode.barred = false
  gates : t.out.exitGate = s.out.exitGate ∧ t.out.purgeGate = s.out.purgeGate
  cycle : t.out.stapler = s.out.stapler ∧ t.out.ejector = s.out.ejector
  state : t.finisher.state = s.finisher.state ∨ t.finisher.state = .retained
  set : t.finisher.disturbed = s.finisher.disturbed ∧ t.finisher.stapleLimit = s.finisher.stapleLimit ∧
    t.finisher.ejectLimit = s.finisher.ejectLimit

theorem Part.standsOpen.trans (h : s.standsOpen t) (k : t.standsOpen u) : s.standsOpen u where
  doors := h.doors.trans k.doors
  barred e := k.barred (h.barred e)
  gates := ⟨k.gates.1.trans h.gates.1, k.gates.2.trans h.gates.2⟩
  cycle := ⟨k.cycle.1.trans h.cycle.1, k.cycle.2.trans h.cycle.2⟩
  state := by
    rcases k.state with e | e
    · rw [e]
      exact h.state
    · exact .inr e
  set := ⟨k.set.1.trans h.set.1, k.set.2.1.trans h.set.2.1, k.set.2.2.trans h.set.2.2⟩

theorem Part.standsOpen_of (doors : s.sameDoors t) (barred : s.episode.barred = false → t.episode.barred = false)
    (out : t.out = { s.out with
      clutch := t.out.clutch, enFeed := t.out.enFeed, enProcess := t.out.enProcess, enDuplex := t.out.enDuplex
      enDelivery := t.out.enDelivery })
    (finisher : t.finisher = s.finisher ∨ t.finisher = s.retain.finisher ∨ t.finisher = { s.finisher with closed := true }) :
    s.standsOpen t := by
  refine ⟨doors, barred, by rw [out]; exact ⟨rfl, rfl⟩, by rw [out]; exact ⟨rfl, rfl⟩, ?_, ?_⟩
  all_goals rcases finisher with e | e | e <;> rw [e]
  · exact .inl rfl
  · rw [Part.retain_finisher]
    split
    · exact .inr rfl
    · exact .inl rfl
  · exact .inl rfl
  · exact ⟨rfl, rfl, rfl⟩
  · rw [Part.retain_finisher]
    split <;> exact ⟨rfl, rfl, rfl⟩
  · exact ⟨rfl, rfl, rfl⟩

theorem Part.openCore_barred (s : Part) (j : Jam) (extra : AreaSet) : (s.openCore j extra).episode.barred = false := by
  have kept : ∀ r : Part, r.addFinisherArea.episode.barred = r.episode.barred := fun r => by
    unfold Part.addFinisherArea
    split <;> rfl
  unfold Part.openCore
  dsimp only
  rw [(Part.halt_via ..).episode_eq rfl, kept]
  rfl

theorem Part.openEpisode_standsOpen (s : Part) (j : Jam) (extra : AreaSet) : s.standsOpen (s.openEpisode j extra) := by
  obtain ⟨b, -, out, -⟩ := s.openCore_effect j extra
  have via := s.openEpisode_via_core j extra
  refine Part.standsOpen_of (s.openEpisode_sameDoors j extra) (fun _ => ?_) ?_ (.inr (.inl ?_))
  · rw [via.episode_eq rfl, s.openCore_barred j extra]
  · rw [via.out_eq rfl, out]
  · rw [via.finisher_eq rfl, s.openCore_finisher]

theorem Part.addRecord_barred (s : Part) (j : Jam) : (s.addRecord j).episode.barred = s.episode.barred := by
  unfold Part.addRecord
  dsimp only
  split
  · exact rfl
  · split <;> exact rfl

theorem Part.extendHalting_standsOpen (s : Part) (j : Jam) : s.standsOpen (s.extendHalting j) := by
  have ends : ∀ r : Part, r.endHalting.out = { r.out with
      clutch := r.endHalting.out.clutch, enFeed := r.endHalting.out.enFeed, enProcess := r.endHalting.out.enProcess
      enDuplex := r.endHalting.out.enDuplex, enDelivery := r.endHalting.out.enDelivery } := fun r => by
    unfold Part.endHalting
    split
    · rw [(Part.setPath_via ..).out_eq rfl]
      rfl
    · rfl
  have stranded := ((s.addRecord_via j).mono (A := [.notices, .episode, .table, .stations, .dry]) rfl).andThen
    (Part.strand_via (s.addRecord j) fun x => x.cond == .runningOut && (j.sheet.all fun n => decide (n ≤ x.number))) rfl
  refine Part.standsOpen_of (s.extendHalting_sameDoors j) (fun h => ?_) ?_ (.inl ?_)
  · unfold Part.extendHalting
    rw [(Part.endHalting_via _).episode_eq rfl]
    exact (s.addRecord_barred j).trans h
  · unfold Part.extendHalting
    have out := ends ((s.addRecord j).strand fun x => x.cond == .runningOut && (j.sheet.all fun n => decide (n ≤ x.number)))
    rwa [stranded.out_eq rfl] at out
  · unfold Part.extendHalting
    rw [(Part.endHalting_via _).finisher_eq rfl, stranded.finisher_eq rfl]

theorem Part.abandonSweep_standsOpen (s : Part) : s.standsOpen (s.abandonSweep false) := by
  have episode : (s.abandonSweep false).episode = { s.episode with sweepTimer := none, barred := s.episode.barred || false } := by
    unfold Part.abandonSweep
    rw [(Part.setPath_via ..).episode_eq rfl, (Part.stopDrives_via _).episode_eq rfl]
    rfl
  refine Part.standsOpen_of (s.abandonSweep_sameDoors false) (fun h => ?_) ?_ (.inl ((s.abandonSweep_via false).finisher_eq rfl))
  · rw [episode, Bool.or_false]
    exact h
  · unfold Part.abandonSweep
    rw [(Part.setPath_via ..).out_eq rfl]
    rfl

theorem Part.standsOpen.of_via {A : List Block} (h : Via A s t) (he : hasBlock A .episode = false) (ho : hasBlock A .out = false)
    (hf : hasBlock A .finisher = false) : s.standsOpen t :=
  Part.standsOpen_of (Part.sameDoors_of (h.episode_eq he)) (fun e => by rwa [h.episode_eq he]) (by rw [h.out_eq ho]) (.inl (h.finisher_eq hf))

theorem Part.retain_standsOpen (s : Part) : s.standsOpen s.retain := Part.standsOpen_of rfl id rfl (.inr (.inl rfl))

theorem Part.addFinisherArea_standsOpen (s : Part) : s.standsOpen s.addFinisherArea := by
  unfold Part.addFinisherArea
  split
  · exact Part.standsOpen_of rfl id rfl (.inl rfl)
  · exact Part.standsOpen_of rfl id rfl (.inl rfl)

theorem Part.endsStill.standsOpen (h : s.endsStill t) : s.standsOpen t :=
  Part.standsOpen_of (Part.sameDoors_of (h.via.episode_eq rfl)) (fun e => by rwa [h.via.episode_eq rfl]) (by rw [h.via.out_eq rfl])
    (by rcases h.finisher with e | e; exacts [.inl e, .inr (.inr e)])

end Sys2Proof.Machine
end

