-- ==== Sys2Proof/Proofs/DoorOpening.lean ====
section
/-! PROOF. What a door's opening does by path state (O27). -/

namespace Sys2Proof.Machine

variable {s t u p r : Part} {j : Jam} {d : Fin 8}

/-! ## The opening at its door (R117, R118, R156) -/

/-- The part as the opening's judgement by path state finds it. -/
def Part.doorMet (s : Part) (d : Fin 8) (onto : Bool) : Part :=
  let r := (((s.judgeDoor d).modEpisode fun e => { e with barred := false }).restGates).abortCycle
  if onto then r.disturb else r

/-- An open episode retains the set and names its area (R115, R156). -/
def Part.openRetains (s : Part) : Part := if s.episode.isOpen then s.retain.addFinisherArea else s

theorem Part.openDoor_met (s : Part) (d : Fin 8) : s.openDoor d =
    (((s.doorMet d (s.opensOntoSet d)).openInState ((s.doorMet d (s.opensOntoSet d)).doorJam d (s.opensOntoSet d))
      (s.opensOntoSet d)).openRetains).judge := rfl

/-- What the opening does before the path state is looked at. -/
structure Part.metAt (s : Part) (d : Fin 8) (onto : Bool) (r : Part) : Prop where
  via : Via [.notices, .episode, .out, .finisher, .dry] s r
  episode : r.episode = { s.episode with doorActive := s.episode.doorActive.set d (s.doorIsOpen d), barred := false }
  gates : r.out.exitGate = false ∧ r.out.purgeGate = false
  drives : ∀ b, s.out.drives b → r.out.drives b
  state : r.finisher.state ≠ .stapling ∧ r.finisher.state ≠ .ejecting
  rest : s.finisher.state = .stapling ∨ s.finisher.state = .ejecting →
    r.out.stapler = false ∧ r.out.ejector = false ∧ r.finisher.stapleLimit = none ∧ r.finisher.ejectLimit = none
  disturbed : onto = true → s.finisher.sheets ≠ [] → r.finisher.disturbed = true

theorem Finisher.busy_iff (f : Finisher) : f.busy = true ↔ f.state = .stapling ∨ f.state = .ejecting := by
  simp [Finisher.busy]

theorem Part.abortCycle_rests (s : Part) : (s.abortCycle.finisher.state ≠ .stapling ∧ s.abortCycle.finisher.state ≠ .ejecting) ∧
    s.abortCycle.finisher.sheets = s.finisher.sheets ∧
    (s.finisher.state = .stapling ∨ s.finisher.state = .ejecting → s.abortCycle.out.stapler = false ∧ s.abortCycle.out.ejector = false ∧
      s.abortCycle.finisher.stapleLimit = none ∧ s.abortCycle.finisher.ejectLimit = none) := by
  have free := mt (Finisher.busy_iff _).mpr (Bool.eq_false_iff.mp s.abortCycle_busy)
  refine ⟨not_or.mp free, ?_⟩
  by_cases h : s.finisher.busy = true
  · rw [show s.abortCycle = _ from if_pos h]
    exact ⟨rfl, fun _ => ⟨rfl, rfl, rfl, rfl⟩⟩
  · rw [show s.abortCycle = s from if_neg h]
    exact ⟨rfl, fun k => absurd ((Finisher.busy_iff _).mpr k) h⟩

theorem Part.abortCycle_out (s : Part) : s.abortCycle.out = { s.out with
    stapler := s.abortCycle.out.stapler, ejector := s.abortCycle.out.ejector } := by
  unfold Part.abortCycle
  split <;> rfl

theorem Part.disturb_set (s : Part) : (s.disturb.finisher.state = s.finisher.state ∨ s.disturb.finisher.state = .retained) ∧
    s.disturb.finisher.stapleLimit = s.finisher.stapleLimit ∧ s.disturb.finisher.ejectLimit = s.finisher.ejectLimit ∧
    (s.finisher.sheets ≠ [] → s.disturb.finisher.disturbed = true) := by
  unfold Part.disturb
  split
  · next h => exact ⟨.inl rfl, rfl, rfl, fun k => absurd (List.isEmpty_iff.mp h) k⟩
  · refine ⟨?_, rfl, rfl, fun _ => rfl⟩
    by_cases h : s.finisher.state = .compiling
    · exact .inr (if_pos h)
    · exact .inl (if_neg h)

theorem Part.doorMet_metAt (s : Part) (d : Fin 8) (onto : Bool) : s.metAt d onto (s.doorMet d onto) := by
  have met : Via [.notices, .episode, .out] s ((s.judgeDoor d).modEpisode fun e => { e with barred := false }).restGates :=
    (((s.judgeDoor_via d).mono rfl).episode _ rfl).out _ rfl
  have gates : ((s.judgeDoor d).modEpisode fun e => { e with barred := false }).restGates.out =
      { s.out with exitGate := false, purgeGate := false } := rfl
  have episode : ((s.judgeDoor d).modEpisode fun e => { e with barred := false }).restGates.episode =
    { s.episode with doorActive := s.episode.doorActive.set d (s.doorIsOpen d), barred := false } := rfl
  unfold Part.doorMet
  generalize ((s.judgeDoor d).modEpisode fun e => { e with barred := false }).restGates = a at met gates episode ⊢
  obtain ⟨free, sheets, rest⟩ := a.abortCycle_rests
  have out := a.abortCycle_out
  rw [gates] at out
  have via := (met.mono rfl).andThen (A := [.notices, .episode, .out, .finisher, .dry]) a.abortCycle_via rfl
  rw [met.finisher_eq rfl] at sheets rest
  rw [← a.abortCycle_via.episode_eq rfl] at episode
  generalize a.abortCycle = b at free sheets rest out via episode
  have disturbed := b.disturb_via
  obtain ⟨state, stapleLimit, ejectLimit, flag⟩ := b.disturb_set
  have drives : ∀ on, s.out.drives on → b.out.drives on := fun on h => by rwa [out]
  have rests : b.out.exitGate = false ∧ b.out.purgeGate = false := by rw [out]; exact ⟨rfl, rfl⟩
  cases onto with
  | false => exact ⟨via, episode, rests, drives, free, rest, nofun⟩
  | true =>
    refine ⟨via.andThen disturbed rfl, ?_, ?_, ?_, ?_, ?_, fun _ h => flag (by rwa [sheets])⟩
    all_goals simp only [if_true]
    · rwa [disturbed.episode_eq rfl]
    · rwa [disturbed.out_eq rfl]
    · rwa [disturbed.out_eq rfl]
    · rcases state with e | e <;> rw [e]
      · exact free
      · exact ⟨nofun, nofun⟩
    · rwa [disturbed.out_eq rfl, stapleLimit, ejectLimit]

/-! ## The opening by path state (R118) -/

/-- What an opening makes of episode and path, of the part the door has met. -/
structure Part.opensBy (r : Part) (j : Jam) (onto : Bool) (u : Part) : Prop where
  still : r.feed.path = .unconfigured ∨ r.feed.path = .held → u.feed.path = r.feed.path ∧ u.episode.records = r.episode.records
  idle : r.feed.path = .idle → if onto = true then r.tookJam j u ∧ u.feed.path = .held else u.feed.path = .idle
  jammed : r.feed.path = .starting ∨ r.feed.path = .running ∨ r.feed.path = .draining ∨ r.feed.path = .halting →
    r.tookJam j u ∧ u.feed.path = .held ∧ ∀ x ∈ u.table.sheets, x.cond ≠ .runningOut
  sweeping : r.feed.path = .sweeping → u.feed.path = .held ∧ u.episode.records = r.episode.records ∧ u.episode.sweepTimer = none ∧
    u.out.drives false
  resumable : r.feed.path = .resumable → u.feed.path = .held ∧ u.episode.records = r.episode.records ∧
    u.planner = { r.planner with readThrough := false }

/-- A jam of an opening leaves the path HELD and no sheet running out: nothing runs out under an open door (R110, R113). -/
theorem Part.takeJam_opens (r : Part) (j : Jam) (hk : j.kind = .doorOpen) (hj : j.sheet = none)
    (hp : r.feed.path = .idle ∨ r.feed.path = .starting ∨ r.feed.path = .running ∨ r.feed.path = .draining ∨ r.feed.path = .halting) :
    r.tookJam j (r.takeJam j) ∧ (r.takeJam j).feed.path = .held ∧ (∀ x ∈ (r.takeJam j).table.sheets, x.cond ≠ .runningOut) ∧
      r.standsOpen (r.takeJam j) := by
  have noRunOut : j.kind.noRunOut = true := by rw [hk]; rfl
  have took : r.tookJam j (r.takeJam j) := (Part.takeJam_tookJam (by
    rcases hp with h | h | h | h | h <;> unfold Part.takes <;> rw [h]
    · exact .inr ⟨rfl, .inl hk⟩
    all_goals exact .inl rfl)).1
  have opened : r.takeJam j = r.openEpisode j 0 → (r.takeJam j).feed.path = .held ∧
      (∀ x ∈ (r.takeJam j).table.sheets, x.cond ≠ .runningOut) ∧ r.standsOpen (r.takeJam j) := fun e => by
    have strands := r.openEpisode_strandsAll j noRunOut
    have path := (r.openEpisode_openedWith j 0).2.2.2.2.2.2.2.2.2.2
    rw [e]
    refine ⟨(r.openEpisode_inEpisode j 0).resolve_left fun halting => ?_, strands, r.openEpisode_standsOpen j 0⟩
    obtain ⟨x, hx, cond⟩ := path.mp halting
    exact strands x hx cond
  refine ⟨took, ?_⟩
  rcases hp with h | h | h | h | h
  · exact opened (by unfold Part.takeJam; rw [h]; exact if_pos (.inl hk))
  · exact opened (by unfold Part.takeJam; rw [h])
  · exact opened (by unfold Part.takeJam; rw [h])
  · exact opened (by unfold Part.takeJam; rw [h])
  · have e : r.takeJam j = r.extendHalting j := by unfold Part.takeJam; rw [h]
    obtain ⟨path, sheets⟩ := r.extendHalting_ends j hj h
    rw [e]
    exact ⟨path, sheets, r.extendHalting_standsOpen j⟩

theorem Part.openInState_opens (r : Part) (j : Jam) (onto : Bool) (hk : j.kind = .doorOpen) (hj : j.sheet = none) :
    r.opensBy j onto (r.openInState j onto) ∧ r.standsOpen (r.openInState j onto) ∧
      (r.openInState j onto).feed.path ≠ .running ∧ (r.openInState j onto).feed.path ≠ .draining := by
  have jam := r.takeJam_opens j hk hj
  unfold Part.openInState
  cases hp : r.feed.path with
  | unconfigured | held =>
    dsimp only
    rw [hp]
    refine ⟨?_, Part.standsOpen_of rfl id rfl (.inl rfl), nofun, nofun⟩
    constructor <;> rw [hp]
    · exact fun _ => ⟨rfl, rfl⟩
    all_goals exact fun h => by simp at h
  | idle =>
    obtain ⟨took, held, -, stands⟩ := jam (.inl hp)
    dsimp only
    split
    · next ho =>
      refine ⟨?_, stands, by rw [held]; exact nofun, by rw [held]; exact nofun⟩
      constructor <;> rw [hp]
      case idle =>
        intro _
        rw [if_pos ho]
        exact ⟨took, held⟩
      all_goals exact fun h => by simp at h
    · next ho =>
      rw [hp]
      refine ⟨?_, Part.standsOpen_of rfl id rfl (.inl rfl), nofun, nofun⟩
      constructor <;> rw [hp]
      case idle =>
        intro _
        rw [if_neg ho]
      all_goals exact fun h => by simp at h
  | starting | running | draining | halting =>
    obtain ⟨took, held, sheets, stands⟩ := jam (by simp [hp])
    dsimp only
    refine ⟨?_, stands, by rw [held]; exact nofun, by rw [held]; exact nofun⟩
    constructor <;> rw [hp]
    case jammed => exact fun _ => ⟨took, held, sheets⟩
    all_goals exact fun h => by simp at h
  | sweeping =>
    have path : (r.abandonSweep false).feed.path = .held := Part.setPath_path ..
    dsimp only
    refine ⟨?_, r.abandonSweep_standsOpen, by rw [path]; exact nofun, by rw [path]; exact nofun⟩
    constructor <;> rw [hp]
    case sweeping =>
      refine fun _ => ⟨path, ?_, ?_, ?_⟩ <;> unfold Part.abandonSweep
      · rw [(Part.setPath_via ..).episode_eq rfl, (Part.stopDrives_via _).episode_eq rfl]
        rfl
      · rw [(Part.setPath_via ..).episode_eq rfl, (Part.stopDrives_via _).episode_eq rfl]
        rfl
      · rw [(Part.setPath_via ..).out_eq rfl]
        exact ⟨rfl, rfl, rfl, rfl⟩
    all_goals exact fun h => by simp at h
  | resumable =>
    have path : ((r.modPlanner fun x => { x with readThrough := false }).setPath .held).feed.path = .held := Part.setPath_path ..
    have via := Part.setPath_via (r.modPlanner fun x => { x with readThrough := false }) .held
    dsimp only
    refine ⟨?_, ?_, by rw [path]; exact nofun, by rw [path]; exact nofun⟩
    · constructor <;> rw [hp]
      case resumable =>
        refine fun _ => ⟨path, ?_, ?_⟩
        · rw [via.episode_eq rfl]
          rfl
        · rw [via.planner_eq rfl]
          rfl
      all_goals exact fun h => by simp at h
    · exact Part.standsOpen.of_via (A := [.notices, .feed, .planner]) (((Via.refl r).planner _ rfl).andThen via rfl) rfl rfl rfl

/-! ## The end of the opening (R156) -/

theorem Part.openRetains_keeps (s : Part) : Via [.episode, .finisher] s s.openRetains ∧ s.openRetains.episode.core = s.episode.core ∧
    s.areasIn s.openRetains ∧ s.standsOpen s.openRetains := by
  unfold Part.openRetains
  split
  · refine ⟨(s.retain_via.mono rfl).andThen (Part.addFinisherArea_via _) rfl, ?_, ?_, ?_⟩
    · rw [Part.addFinisherArea_core, s.retain_via.episode_eq rfl]
    · exact (Part.areasIn_of (by rw [s.retain_via.episode_eq rfl])).trans (Part.areasIn_addFinisherArea _)
    · exact s.retain_standsOpen.trans (Part.addFinisherArea_standsOpen _)
  · exact ⟨.refl s, rfl, fun _ h => h, Part.standsOpen_of rfl id rfl (.inl rfl)⟩

theorem Part.tookJam.grown (h : r.tookJam j s) (via : Via [.episode, .finisher] s t) (core : t.episode.core = s.episode.core)
    (areas : s.areasIn t) : r.tookJam j t := by
  have number : t.episode.number = s.episode.number := (congrArg Episode.number core :)
  have isOpen : t.episode.isOpen = s.episode.isOpen := (congrArg Episode.isOpen core :)
  have firstKind : t.episode.firstKind = s.episode.firstKind := (congrArg Episode.firstKind core :)
  have records : t.episode.records = s.episode.records := (congrArg Episode.records core :)
  have overflow : t.episode.overflow = s.episode.overflow := (congrArg Episode.overflow core :)
  obtain ⟨course, area, path⟩ := h
  refine ⟨?_, Part.hasArea.keep area areas, by rwa [via.feed_eq rfl]⟩
  unfold Part.openedWith Part.extendedWith at course ⊢
  rwa [number, isOpen, firstKind, records, overflow, via.feed_eq rfl, via.out_eq rfl, via.table_eq rfl]

theorem Part.opensBy.keep {onto : Bool} (h : r.opensBy j onto s) (path : t.feed.path = s.feed.path)
    (core : t.episode.core = s.episode.core) (table : t.table = s.table) (out : t.out = s.out) (planner : t.planner = s.planner)
    (took : r.tookJam j s → r.tookJam j t) : r.opensBy j onto t := by
  have records : t.episode.records = s.episode.records := (congrArg Episode.records core :)
  have timer : t.episode.sweepTimer = s.episode.sweepTimer := (congrArg Episode.sweepTimer core :)
  constructor
  · rw [path, records]
    exact h.still
  · intro hp
    have idle := h.idle hp
    rw [path]
    split at idle
    · next ho =>
      rw [if_pos ho]
      exact ⟨took idle.1, idle.2⟩
    · next ho => rwa [if_neg ho]
  · intro hp
    obtain ⟨jam, held, sheets⟩ := h.jammed hp
    exact ⟨took jam, by rw [path, held], by rwa [table]⟩
  · rw [path, records, timer, out]
    exact h.sweeping
  · rw [path, records, planner]
    exact h.resumable

/-- The end of an opening leaves what the path state made of it. -/
theorem Part.opensBy.ends {onto : Bool} (h : r.opensBy j onto s) (door : s.anyDoorOpen = true) (hr : s.feed.path ≠ .running)
    (hd : s.feed.path ≠ .draining) :
    r.opensBy j onto s.openRetains.judge.conclude ∧ s.standsOpen s.openRetains.judge.conclude := by
  obtain ⟨via, core, areas, stands⟩ := s.openRetains_keeps
  have took := fun h : r.tookJam j s => h.grown via core areas
  generalize s.openRetains = u at via core stands took ⊢
  have ends := Part.ends_doorOpen (s := u) ((Part.anyDoorOpen_of (via.force_eq rfl) (via.lines_eq rfl)).trans door)
    (by rwa [via.feed_eq rfl]) (by rwa [via.feed_eq rfl])
  have ended : r.tookJam j u → r.tookJam j u.judge.conclude := fun h => h.ends
  generalize u.judge.conclude = q at ends ended ⊢
  refine ⟨h.keep ?_ ?_ ?_ ?_ ?_ fun h => ended (took h), stands.trans ends.standsOpen⟩
  · rw [ends.path, via.feed_eq rfl]
  · rw [ends.via.episode_eq rfl, core]
  · rw [ends.via.table_eq rfl, via.table_eq rfl]
  · rw [ends.via.out_eq rfl, via.out_eq rfl]
  · rw [ends.via.planner_eq rfl, via.planner_eq rfl]

theorem Part.doorIsOpen_any (h : s.doorIsOpen d = true) : s.anyDoorOpen = true :=
  List.any_eq_true.mpr ⟨d, List.mem_finRange d, h⟩

theorem Part.opensBy.of {onto : Bool} (h : r.opensBy j onto t) (path : r.feed.path = p.feed.path)
    (episode : r.episode.core = { p.episode with doorActive := r.episode.doorActive }.core) (planner : r.planner = p.planner) :
    p.opensBy j onto t := by
  have records : r.episode.records = p.episode.records := (congrArg Episode.records episode :)
  have took : r.tookJam j t → p.tookJam j t := fun h => by
    have number : r.episode.number = p.episode.number := (congrArg Episode.number episode :)
    have isOpen : r.episode.isOpen = p.episode.isOpen := (congrArg Episode.isOpen episode :)
    have firstKind : r.episode.firstKind = p.episode.firstKind := (congrArg Episode.firstKind episode :)
    have overflow : r.episode.overflow = p.episode.overflow := (congrArg Episode.overflow episode :)
    unfold Part.tookJam Part.openedWith Part.extendedWith at h ⊢
    rwa [← path, ← number, ← isOpen, ← firstKind, ← records, ← overflow]
  obtain ⟨still, idle, jammed, sweeping, resumable⟩ := h
  rw [path] at still idle jammed sweeping resumable
  constructor
  · rwa [← records]
  · intro hp
    have idle := idle hp
    split at idle
    · next ho => rw [if_pos ho]; exact ⟨took idle.1, idle.2⟩
    · next ho => rwa [if_neg ho]
  · intro hp
    obtain ⟨jam, rest⟩ := jammed hp
    exact ⟨took jam, rest⟩
  · rwa [← records]
  · rwa [← records, ← planner]

theorem Part.event_eq {p : Part} {t : Tick} {g : Part → Part} (h : g (p.advance t) = s) : p.event t g = s.conclude := by
  unfold Part.event
  rw [h]

/-- An event that moves a line and then the owners. -/
theorem Part.event_edge_moves {p : Part} {t : Tick} {g : Part → Part} {line : Fin 32} {asserted : Bool} (hg : g (p.advance t) = s)
    (m : Moves .inner .settled ((p.advance t).modLines fun l => l.edge p.force.inputs line asserted) .settled s) :
    p.passesTo t (p.event t g) ∧ (p.event t g).lines = p.lines.edge p.force.inputs line asserted := by
  obtain ⟨tick, lines, link, stored, force, mask⟩ := m.inner_eq
  obtain ⟨passes, e⟩ := Part.event_passes_of (p := p) (t := t) (g := g) (by rw [hg]; exact tick) (by rw [hg]; exact link)
    (by rw [hg]; exact stored) (by rw [hg]; exact force) (by rw [hg]; exact mask)
  exact ⟨passes, by rw [e, hg]; exact lines⟩

theorem Part.openDoor_opens (s : Part) (d : Fin 8) (opened : s.doorIsOpen d = true) :
    s.opensBy (s.doorJam d (s.opensOntoSet d)) (s.opensOntoSet d) (s.openDoor d).conclude ∧
      s.metAt d (s.opensOntoSet d) (s.doorMet d (s.opensOntoSet d)) ∧
      (s.doorMet d (s.opensOntoSet d)).standsOpen (s.openDoor d).conclude := by
  rw [s.openDoor_met d]
  generalize s.opensOntoSet d = onto
  have met := s.doorMet_metAt d onto
  generalize s.doorMet d onto = r at met ⊢
  have jam : r.doorJam d onto = s.doorJam d onto := by
    unfold Part.doorJam
    rw [met.via.tick_eq rfl]
  rw [jam]
  obtain ⟨opens, stands, running, draining⟩ := r.openInState_opens (s.doorJam d onto) onto rfl rfl
  obtain ⟨-, lines, -, -, force, -⟩ := (r.openInState_moves (q := .inner) (s.doorJam d onto) onto).inner_eq
  have door : (r.openInState (s.doorJam d onto) onto).anyDoorOpen = true :=
    (Part.anyDoorOpen_of (force.trans (met.via.force_eq rfl)) (lines.trans (met.via.lines_eq rfl))).trans (Part.doorIsOpen_any opened)
  obtain ⟨ended, still⟩ := opens.ends door running draining
  refine ⟨ended.of (by rw [met.via.feed_eq rfl]) (by rw [met.episode]; rfl) (met.via.planner_eq rfl), met, stands.trans still⟩

/-- What O27 says of an opening, told of the part its edge leaves. -/
theorem Part.openDoor_leaves (s : Part) (d : Fin 8) (opened : s.doorIsOpen d = true) :
    let q := (s.openDoor d).conclude
    let onto := s.opensOntoSet d = true
    q.episode.doorActive[d] = true ∧
      q.episode.barred = false ∧ q.out.exitGate = false ∧ q.out.purgeGate = false ∧
      q.finisher.state ≠ .stapling ∧ q.finisher.state ≠ .ejecting ∧ (onto → q.finisher.disturbed = true) ∧
      (s.finisher.state = .stapling ∨ s.finisher.state = .ejecting →
        q.out.stapler = false ∧ q.out.ejector = false ∧ q.finisher.stapleLimit = none ∧ q.finisher.ejectLimit = none) := by
  obtain ⟨-, met, stands⟩ := s.openDoor_opens d opened
  generalize (s.openDoor d).conclude = q at stands
  have onto : s.opensOntoSet d = true → s.finisher.sheets ≠ [] := fun h => by
    unfold Part.opensOntoSet at h
    intro none
    rw [none] at h
    simp at h
  generalize s.opensOntoSet d = b at met stands onto ⊢
  generalize s.doorMet d b = r at met stands
  obtain ⟨doors, barred, gates, cycle, state, disturbed, stapleLimit, ejectLimit⟩ := stands
  have active : r.episode.doorActive[d] = true := by
    rw [met.episode, opened]
    simp
  refine ⟨by rw [doors, active], barred (by rw [met.episode]), by rw [gates.1, met.gates.1], by rw [gates.2, met.gates.2], ?_, ?_,
    fun h => by rw [disturbed, met.disturbed h (onto h)], fun h => by rw [cycle.1, cycle.2, stapleLimit, ejectLimit]; exact met.rest h⟩
  all_goals rcases state with e | e <;> rw [e]
  · exact met.state.1
  · exact nofun
  · exact met.state.2
  · exact nofun

/-- Settles O27. -/
theorem doorOpening : Obligations.DoorOpening := by
  unfold Obligations.DoorOpening
  intro w p t d x hd
  refine completes_next (q := p.event t fun p => p.doorEdge d false fun p => p.openDoor d) rfl ?_
  have line : p.force.lineOf (.door d) = some x.line := by simp [Desc.lineOf, hd]
  have edge : (p.advance t).doorEdge d false (fun p => p.openDoor d) =
      ((p.advance t).modLines fun l => l.edge p.force.inputs x.line false).openDoor d := by
    have defined : ((p.advance t).force.doors[d]).isSome = true := by rw [show (p.advance t).force.doors[d] = some x from hd]; rfl
    unfold Part.doorEdge
    rw [if_pos defined, Part.lineEdge_some (s := p.advance t) line]
    rfl
  have q : (p.event t fun p => p.doorEdge d false fun p => p.openDoor d) =
      (((p.advance t).modLines fun l => l.edge p.force.inputs x.line false).openDoor d).conclude := congrArg Part.conclude edge
  have opened : ((p.advance t).modLines fun l => l.edge p.force.inputs x.line false).doorIsOpen d = true :=
    Part.doorIsOpen_edge (p := p.advance t) hd false
  obtain ⟨passes, lines⟩ := Part.event_edge_moves (g := fun p => p.doorEdge d false fun p => p.openDoor d) edge (Part.openDoor_moves _ d)
  have onto : ((p.advance t).modLines fun l => l.edge p.force.inputs x.line false).opensOntoSet d = true ↔
      x.finisher = true ∧ p.finisher.sheets ≠ [] := by
    unfold Part.opensOntoSet
    have e : ((p.advance t).modLines fun l => l.edge p.force.inputs x.line false).force.doors[d] = some x := hd
    rw [e, Option.any_some, Bool.and_eq_true, Bool.not_eq_true', List.isEmpty_eq_false_iff]
    rfl
  obtain ⟨opens, -, -⟩ := Part.openDoor_opens _ d opened
  obtain ⟨active, barred, exit, purge, stapling, ejecting, disturbed, rest⟩ := Part.openDoor_leaves _ d opened
  replace opens := opens.of (p := p) rfl rfl rfl
  have jam : ((p.advance t).modLines fun l => l.edge p.force.inputs x.line false).doorJam d
      (((p.advance t).modLines fun l => l.edge p.force.inputs x.line false).opensOntoSet d) =
        ⟨.doorOpen, none, some d, if x.finisher = true ∧ p.finisher.sheets ≠ [] then some 8 else none, none, laterOf p.tick t, none, none⟩ := by
    unfold Part.doorJam plainJam
    simp only [onto]
    rfl
  rw [jam] at opens
  rw [onto] at disturbed
  rw [← q] at opens active barred exit purge stapling ejecting disturbed rest
  obtain ⟨still, idle, jammed, sweeping, resumable⟩ := opens
  refine ⟨passes, lines, active, barred, exit, purge, stapling, ejecting, disturbed, rest, still, fun hp => ?_, jammed, sweeping, resumable⟩
  have idle := idle hp
  by_cases h : x.finisher = true ∧ p.finisher.sheets ≠ []
  · rw [if_pos (onto.mpr h)] at idle
    rw [if_pos h]
    have course := idle.1.1
    rw [if_pos (.inr (.inr (.inr hp)))] at course
    exact ⟨course, idle.2⟩
  · rw [if_neg (mt onto.mp h)] at idle
    rwa [if_neg h]

end Sys2Proof.Machine
end

