-- ==== Sys2Proof/Proofs/Supplies.lean ====
section
/-! PROOF. The tray, bin and purge-bin lines (O26). -/

namespace Sys2Proof.Machine

variable {s t u p r : Part} {j : Jam}

/-! ## TRAY EMPTY and BIN FULL through an event (R58) -/

/-- TRAY EMPTY and BIN FULL stand as they were. -/
def Part.sameSupplies (s t : Part) : Prop := t.feed.trayEmpty = s.feed.trayEmpty ∧ t.feed.binFull = s.feed.binFull

theorem Part.sameSupplies.trans (h : s.sameSupplies t) (k : t.sameSupplies u) : s.sameSupplies u :=
  ⟨k.1.trans h.1, k.2.trans h.2⟩

theorem Part.sameSupplies_of (h : t.feed = s.feed) : s.sameSupplies t := ⟨by rw [h], by rw [h]⟩

theorem Part.setPath_sameSupplies (s : Part) (x : PathState) : s.sameSupplies (s.setPath x) := by
  unfold Part.sameSupplies
  rw [Part.setPath_feed]
  exact ⟨rfl, rfl⟩

theorem Part.openEpisode_sameSupplies (s : Part) (j : Jam) (extra : AreaSet) : s.sameSupplies (s.openEpisode j extra) := by
  obtain ⟨b, feed, -, -⟩ := s.openCore_effect j extra
  unfold Part.sameSupplies
  rw [(s.openEpisode_via_core j extra).feed_eq rfl, feed]
  exact ⟨rfl, rfl⟩

theorem Part.extendHalting_sameSupplies (s : Part) (j : Jam) : s.sameSupplies (s.extendHalting j) := by
  let f : Sheet → Bool := fun x => x.cond == .runningOut && (j.sheet.all fun n => decide (n ≤ x.number))
  have stranded : s.sameSupplies ((s.addRecord j).strand f) :=
    Part.sameSupplies_of (by rw [(Part.strand_via ..).feed_eq rfl, Part.addRecord_feed])
  unfold Part.extendHalting Part.endHalting
  split
  · exact stranded.trans (Part.setPath_sameSupplies ..)
  · exact stranded

theorem Part.takeJam_sameSupplies (s : Part) (j : Jam) : s.sameSupplies (s.takeJam j) := by
  have recorded : s.sameSupplies (s.addRecord j) := Part.sameSupplies_of (s.addRecord_feed j)
  unfold Part.takeJam
  split
  case h_1 => exact Part.sameSupplies_of ((s.holdOver_via j).feed_eq rfl)
  case h_2 => exact ⟨rfl, rfl⟩
  case h_3 =>
    split
    · exact s.openEpisode_sameSupplies j 0
    · exact ⟨rfl, rfl⟩
  case h_4 | h_5 | h_6 => exact s.openEpisode_sameSupplies j 0
  case h_7 => exact s.extendHalting_sameSupplies j
  case h_8 => exact recorded
  case h_9 =>
    refine recorded.trans ?_
    unfold Part.sameSupplies
    rw [Part.abandonSweep_feed]
    exact ⟨rfl, rfl⟩

theorem Part.jamAt_sameSupplies (s : Part) (kind : JamKind) (st : Fin 24) (t : Tick) (x : Option Sheet) :
    s.sameSupplies (s.jamAt kind st t x) :=
  (Part.sameSupplies_of ((s.countStation_via st 2).feed_eq rfl)).trans (Part.takeJam_sameSupplies _ _)

theorem Part.enterStarting_sameSupplies (s : Part) : s.sameSupplies s.enterStarting := by
  have path : s.sameSupplies s.enterPath := by
    obtain ⟨c, feed⟩ := s.enterPath_feed
    unfold Part.sameSupplies
    rw [feed]
    exact ⟨rfl, rfl⟩
  rw [Part.enterStarting_eq]
  split
  · exact path
  · next st rest _ =>
    exact List.foldlRecOn (st :: rest) _ path fun t h st' _ => h.trans (t.jamAt_sameSupplies .residual st' t.tick none)

theorem Part.shifts.sameSupplies (h : s.shifts t) : s.sameSupplies t := ⟨h.feed_eq Feed.trayEmpty, h.feed_eq Feed.binFull⟩

theorem Part.makePick_sameSupplies (s : Part) (n : NextPage) : s.sameSupplies (s.makePick n) := by
  obtain ⟨m, picked⟩ := Part.pickCore_feed (s := s) n
  obtain ⟨-, trays, bins, -⟩ := Feed.bound_signs ({ s.feed with merge := m } : Feed) n
  unfold Part.sameSupplies
  rw [s.makePick_feed n, picked]
  exact ⟨trays, bins⟩

theorem Part.judgeFeed_sameSupplies (s : Part) : s.sameSupplies s.judgeFeed := by
  by_cases hi : s.feed.path = .idle
  · rw [Part.judgeFeed_idle hi]
    have sel := s.judgeSelector_shifts.sameSupplies
    unfold Part.judgeStart
    dsimp only
    split
    · exact sel.trans (Part.enterStarting_sameSupplies _)
    · exact sel
  · rcases Part.judgeFeed_feeds hi with h | ⟨u, n, h, -, k⟩
    · exact h.sameSupplies
    · exact (h.sameSupplies.trans (u.makePick_sameSupplies n)).trans k.sameSupplies

theorem Part.judgeClearance_sameSupplies (s : Part) : s.sameSupplies s.judgeClearance := by
  unfold Part.judgeClearance
  split
  · have feed := s.startSweep_sweeps.feed
    exact ⟨(congrArg Feed.trayEmpty feed :), (congrArg Feed.binFull feed :)⟩
  · exact ⟨rfl, rfl⟩

theorem Part.judge_sameSupplies (s : Part) : s.sameSupplies s.judge :=
  ((Part.sameSupplies_of (s.judgeSet_via.feed_eq rfl)).trans (Part.judgeClearance_sameSupplies _)).trans (Part.judgeFeed_sameSupplies _)

theorem Part.conclude_sameSupplies (s : Part) : s.sameSupplies s.conclude :=
  Part.conclude_keeps (φ := s.sameSupplies) ⟨rfl, rfl⟩ (fun h k => h.trans (Part.sameSupplies_of (k.via.feed_eq rfl)))
    fun h => h.trans (Part.judgeFeed_sameSupplies _)

/-! ## The purge count through an event (R102, R103) -/

theorem Part.conclude_purge (s : Part) :
    s.conclude.gate.purgeCount = s.gate.purgeCount ∧ s.conclude.gate.purgeFull = s.gate.purgeFull :=
  Part.conclude_keeps (φ := fun t => t.gate.purgeCount = s.gate.purgeCount ∧ t.gate.purgeFull = s.gate.purgeFull) ⟨rfl, rfl⟩
    (fun h k => ⟨k.count.1.trans h.1, k.count.2.trans h.2⟩) fun {t} h => by rwa [t.judgeFeed_via.gate_eq rfl]

/-! ## The lines (R39, R102) -/

/-- A supply judged at a level event, by path state (R58). -/
theorem Part.supplyChanged_supplies (s : Part) (g : Part → Part) {trays : Vector Bool 5} {bins : Vector Bool 2}
    (hg : (g s).feed.trayEmpty = trays ∧ (g s).feed.binFull = bins) :
    (s.supplyChanged g).conclude.feed.trayEmpty = (if s.feed.path = .unconfigured then s.feed.trayEmpty else trays) ∧
      (s.supplyChanged g).conclude.feed.binFull = (if s.feed.path = .unconfigured then s.feed.binFull else bins) := by
  have kept : ∀ r : Part, r.sameSupplies r.judge.conclude := fun r => (Part.judge_sameSupplies r).trans (Part.conclude_sameSupplies _)
  unfold Part.supplyChanged
  by_cases hp : s.feed.path = .unconfigured
  · simp only [if_pos hp]
    exact kept s
  · simp only [if_neg hp]
    exact ⟨(kept (g s)).1.trans hg.1, (kept (g s)).2.trans hg.2⟩

/-- The line of a tray unit's sensor. -/
def TraySet.lineAt (x : TraySet) : TraySensor → Fin 32
  | .present => x.present
  | .paperOut => x.paperOut

theorem Desc.trayRole_line {d : Desc} {u : Fin 5} {x : TraySet} (h : d.trays[u] = some x) (sensor : TraySensor) :
    d.lineOf (trayRole sensor u) = some (x.lineAt sensor) := by
  cases sensor <;> simp [trayRole, Desc.lineOf, h, TraySet.lineAt]

theorem Part.trayAvailable_line {u : Fin 5} {x : TraySet} (h : s.force.trays[u] = some x) :
    s.trayAvailable u = (s.dry.on || (s.lines.level[x.present] && !s.lines.level[x.paperOut])) := by
  unfold Part.trayAvailable Part.levelOf
  simp only [Desc.lineOf, h, Option.map_some]

theorem Part.binIsFull_line {i : Fin 2} {l : Fin 32} (h : s.force.lineOf (.binFull i) = some l) :
    s.binIsFull i = (!s.dry.on && s.lines.level[l]) := by
  unfold Part.binIsFull Part.levelOf
  rw [h]

/-- What an event finds whose edge has moved its line. -/
structure Part.edged (p : Part) (t : Tick) (l : Fin 32) (asserted : Bool) (s : Part) : Prop where
  moved : s = (p.advance t).modLines fun a => a.edge p.force.inputs l asserted
  lines : s.lines = p.lines.edge p.force.inputs l asserted
  force : s.force = p.force
  feed : s.feed = p.feed
  dry : s.dry = p.dry

theorem Part.edged_of (p : Part) (t : Tick) {role : InputRole} {l : Fin 32} (h : p.force.lineOf role = some l) (asserted : Bool) :
    p.edged t l asserted ((p.advance t).lineEdge role asserted) := by
  rw [Part.lineEdge_some (s := p.advance t) h]
  exact ⟨rfl, rfl, rfl, rfl, rfl⟩

/-- The event of a supply's line. -/
theorem Part.edged.supplies {l : Fin 32} {t : Tick} {asserted : Bool} {role : InputRole} {g : Part → Part}
    (h : p.edged t l asserted ((p.advance t).lineEdge role asserted)) {trays : Vector Bool 5} {bins : Vector Bool 2}
    (hm : ∀ s, Moves .inner .settled s .settled (g s))
    (hg : ∀ s, p.edged t l asserted s → (g s).feed.trayEmpty = trays ∧ (g s).feed.binFull = bins) :
    let q := p.event t fun p => (p.lineEdge role asserted).supplyChanged g
    p.passesTo t q ∧ q.lines = p.lines.edge p.force.inputs l asserted ∧
      q.feed.trayEmpty = (if p.feed.path = .unconfigured then p.feed.trayEmpty else trays) ∧
      q.feed.binFull = (if p.feed.path = .unconfigured then p.feed.binFull else bins) := by
  have e : (p.event t fun p => (p.lineEdge role asserted).supplyChanged g) =
      (((p.advance t).lineEdge role asserted).supplyChanged g).conclude := rfl
  have supplies := Part.supplyChanged_supplies _ g (hg _ h)
  have moves : Moves .inner .settled ((p.advance t).lineEdge role asserted) .settled (((p.advance t).lineEdge role asserted).supplyChanged g) :=
    Part.supplyChanged_moves _ _ (hm _)
  rw [h.feed] at supplies
  rw [h.moved] at moves
  obtain ⟨passes, lines⟩ := Part.event_edge_moves (g := fun p => (p.lineEdge role asserted).supplyChanged g)
    (congrArg (Part.supplyChanged · g) h.moved) moves
  dsimp only
  rw [e] at passes lines ⊢
  exact ⟨passes, lines, supplies⟩

/-- A change of one of a tray unit's lines (R39, R58). -/
theorem trayLevelChange_taken (w : List Instr) (p : Part) (t : Tick) (asserted : Bool) (u : Fin 5) (x : TraySet) (sensor : TraySensor)
    (hx : p.force.trays[u] = some x) : Completes (.trayLevelChange t u sensor asserted) ⟨w, p⟩ fun q =>
      p.passesTo t q ∧ q.lines = p.lines.edge p.force.inputs (x.lineAt sensor) asserted ∧
      q.feed.binFull = p.feed.binFull ∧
      q.feed.trayEmpty = if p.feed.path = .unconfigured then p.feed.trayEmpty else p.feed.trayEmpty.set u
        !(p.dry.on || (q.lines.level[x.present] && !q.lines.level[x.paperOut])) := by
  refine completes_next (q := p.event t fun p => (p.lineEdge (trayRole sensor u) asserted).supplyChanged fun p => p.judgeTrayEmpty u) rfl ?_
  have edged := p.edged_of t (Desc.trayRole_line hx sensor) asserted
  obtain ⟨passes, lines, trays, bins⟩ := edged.supplies (g := fun p => p.judgeTrayEmpty u) (bins := p.feed.binFull)
    (trays := p.feed.trayEmpty.set u !(p.dry.on || ((p.lines.edge p.force.inputs (x.lineAt sensor) asserted).level[x.present] &&
      !(p.lines.edge p.force.inputs (x.lineAt sensor) asserted).level[x.paperOut])))
    (fun s => (Move.judgeTrayEmpty u).moves) fun s h => by
      have judged : (s.judgeTrayEmpty u).feed = { s.feed with trayEmpty := s.feed.trayEmpty.set u !s.trayAvailable u } := rfl
      rw [judged, Part.trayAvailable_line (by rw [h.force]; exact hx), h.lines, h.feed, h.dry]
      exact ⟨rfl, rfl⟩
  refine ⟨passes, lines, by rw [bins, ite_self], ?_⟩
  rw [lines]
  exact trays

/-- A change of a bin-full line (R39, R58). -/
theorem binFullLineChange_taken (w : List Instr) (p : Part) (t : Tick) (asserted : Bool) (i : Fin 2) (l : Fin 32)
    (hl : p.force.bins[i] = some l) : Completes (.binFullLineChange t i asserted) ⟨w, p⟩ fun q =>
      p.passesTo t q ∧ q.lines = p.lines.edge p.force.inputs l asserted ∧ q.feed.trayEmpty = p.feed.trayEmpty ∧
      q.feed.binFull = if p.feed.path = .unconfigured then p.feed.binFull else p.feed.binFull.set i (!p.dry.on && asserted) := by
  have line : p.force.lineOf (.binFull i) = some l := by simp [Desc.lineOf, hl]
  refine completes_next (q := p.event t fun p => (p.lineEdge (.binFull i) asserted).supplyChanged fun p => p.judgeBinFull i) rfl ?_
  have edged := p.edged_of t line asserted
  obtain ⟨passes, lines, trays, bins⟩ := edged.supplies (g := fun p => p.judgeBinFull i) (trays := p.feed.trayEmpty)
    (bins := p.feed.binFull.set i (!p.dry.on && asserted))
    (fun s => (Move.judgeBinFull i).moves) fun s h => by
      have judged : (s.judgeBinFull i).feed = { s.feed with binFull := s.feed.binFull.set i (s.binIsFull i) } := rfl
      rw [judged, Part.binIsFull_line (by rw [h.force]; exact line), h.lines, Lines.edge_level, h.feed, h.dry]
      exact ⟨rfl, rfl⟩
  exact ⟨passes, lines, by rw [trays, ite_self], bins⟩

/-- An edge of the purge-bin-removed line (R102, R103). -/
theorem purgeBinRemoved_taken (w : List Instr) (p : Part) (t : Tick) (asserted : Bool) (x : PurgeSet) (hx : p.force.purge = some x) :
    Completes (.purgeBinRemoved t asserted) ⟨w, p⟩ fun q =>
      p.passesTo t q ∧ q.lines = p.lines.edge p.force.inputs x.removed asserted ∧
      if asserted = true then
        q.gate.purgeCount = 0 ∧ q.gate.purgeFull = !(p.dry.on || decide (24 < x.capacity))
      else q.gate.purgeCount = p.gate.purgeCount ∧ q.gate.purgeFull = p.gate.purgeFull := by
  have line : p.force.lineOf .purgeRemoved = some x.removed := by simp [Desc.lineOf, hx]
  refine completes_next (q := p.event t fun p => p.purgeBinEdge asserted) rfl ?_
  have moved : (p.advance t).lineEdge .purgeRemoved asserted = (p.advance t).modLines fun a => a.edge p.force.inputs x.removed asserted :=
    Part.lineEdge_some (s := p.advance t) line asserted
  have edge : (p.advance t).purgeBinEdge asserted =
      if asserted = true then ((p.advance t).modLines fun a => a.edge p.force.inputs x.removed asserted).emptyPurgeBin
      else (p.advance t).modLines fun a => a.edge p.force.inputs x.removed asserted := by
    have here : (((p.advance t).modLines fun a => a.edge p.force.inputs x.removed asserted).force.lineOf .purgeRemoved).isSome = true := by
      rw [show ((p.advance t).modLines fun a => a.edge p.force.inputs x.removed asserted).force.lineOf .purgeRemoved = some x.removed from line]
      rfl
    unfold Part.purgeBinEdge
    rw [moved]
    dsimp only
    rw [here, Bool.and_true]
  have emptied : ∀ s : Part, s.force = p.force → s.dry.on = p.dry.on → s.emptyPurgeBin.gate.purgeCount = 0 ∧
      s.emptyPurgeBin.gate.purgeFull = !(p.dry.on || decide (24 < x.capacity)) := fun s force dry => by
    have gate : s.emptyPurgeBin.gate = ((s.modGate fun g => { g with purgeCount := 0 }).judgePurgeFull).gate := (Part.judge_via _).gate_eq rfl
    rw [gate]
    refine ⟨rfl, ?_⟩
    have reserve : (s.modGate fun g => { g with purgeCount := 0 }).reserveMet = (p.dry.on || decide (24 < x.capacity)) := by
      unfold Part.reserveMet
      rw [Part.modGate_force, Part.modGate_dry, force, dry, hx, Part.modGate_gate]
      simp
    exact congrArg (!·) reserve
  have force : ((p.advance t).modLines fun a => a.edge p.force.inputs x.removed asserted).force = p.force := rfl
  have dry : ((p.advance t).modLines fun a => a.edge p.force.inputs x.removed asserted).dry.on = p.dry.on := rfl
  have gate : ((p.advance t).modLines fun a => a.edge p.force.inputs x.removed asserted).gate = p.gate := rfl
  cases asserted with
  | true =>
    rw [if_pos rfl] at edge
    obtain ⟨passes, lines⟩ := Part.event_edge_moves (g := fun p => p.purgeBinEdge true) edge
      (((Move.emptyBin rfl).moves.trans Move.judgePurgeFull.moves).trans (Part.judge_moves _))
    have q := Part.event_eq (g := fun p => p.purgeBinEdge true) edge
    generalize ((p.advance t).modLines fun a => a.edge p.force.inputs x.removed true) = r at force dry q
    obtain ⟨count, full⟩ := r.emptyPurgeBin.conclude_purge
    obtain ⟨zero, reserve⟩ := emptied r force dry
    refine ⟨passes, lines, ?_⟩
    rw [if_pos rfl, q]
    exact ⟨count.trans zero, full.trans reserve⟩
  | false =>
    rw [if_neg Bool.false_ne_true] at edge
    obtain ⟨passes, lines⟩ := Part.event_edge_moves (g := fun p => p.purgeBinEdge false) edge (.refl _ _)
    have q := Part.event_eq (g := fun p => p.purgeBinEdge false) edge
    generalize ((p.advance t).modLines fun a => a.edge p.force.inputs x.removed false) = r at gate q
    obtain ⟨count, full⟩ := r.conclude_purge
    rw [gate] at count full
    refine ⟨passes, lines, ?_⟩
    rw [if_neg Bool.false_ne_true, q]
    exact ⟨count, full⟩

/-- Settles O26. -/
theorem supplyLines : Obligations.SupplyLines := by
  unfold Obligations.SupplyLines
  refine ⟨fun w p t asserted => ⟨fun u x sensor hx => ?_, fun i line hl => binFullLineChange_taken w p t asserted i line hl⟩,
    fun w p t asserted x hx => purgeBinRemoved_taken w p t asserted x hx⟩
  cases sensor
  · exact trayLevelChange_taken w p t asserted u x .present hx
  · exact trayLevelChange_taken w p t asserted u x .paperOut hx

end Sys2Proof.Machine
end

