-- ==== Sys2Proof/Proofs/LevelOnly.lean ====
section
/-! PROOF. Edges that are level only (O40). -/

namespace Sys2Proof.Machine

variable {s t u p r : Part}

/-! ## Events whose end moves no sheet (R71) -/

/-- Path, sheets, stations, episode and planner stand. -/
structure Part.untouched (s t : Part) : Prop where
  path : t.feed.path = s.feed.path
  table : t.table = s.table
  stations : t.stations = s.stations
  episode : t.episode = s.episode
  planner : t.planner = s.planner

theorem Part.untouched_of {A : List Block} (h : Via A s t) (path : t.feed.path = s.feed.path) (ht : hasBlock A .table = false)
    (hs : hasBlock A .stations = false) (he : hasBlock A .episode = false) (hp : hasBlock A .planner = false) : s.untouched t :=
  ⟨path, h.table_eq ht, h.stations_eq hs, h.episode_eq he, h.planner_eq hp⟩

theorem Part.ends_untouched (h : s.feed.path.rests) (still : s.feed.path ≠ .held ∨ s.anyPaper = true) : s.untouched s.judge.conclude := by
  have via := s.judgeSet_via
  have path := via.feed_eq rfl
  rcases Part.judge_rests h with ⟨-, serves⟩ | ⟨ready, held, -⟩
  · exact Part.untouched_of (A := [.link, .notices, .calls, .intake, .gate, .out, .finisher, .stats, .dry])
      ((via.mono rfl).andThen serves.via rfl) (by rw [serves.via.feed_eq rfl, path]) rfl rfl rfl rfl
  · have none := (Part.clear_parts _).mp ((Part.autoSweepReady_iff _).mp ready).2.1
    have paper : s.judgeSet.anyPaper = s.anyPaper := Part.anyPaper_of s.judgeSet_on (via.force_eq rfl) (via.lines_eq rfl)
    rcases still with unheld | some
    · exact absurd held unheld
    · have empty := none.2.1
      rw [paper, some] at empty
      cases empty

/-- In IDLE without a page the transmitter is served alone, once the set is judged. -/
theorem Part.ends_idle (hp : s.feed.path = .idle) (none : s.noPages) :
    Via [.link, .notices, .calls, .intake, .gate, .feed] s.judgeSet s.judge.conclude ∧ s.judge.conclude.feed.path = s.feed.path := by
  have via := s.judgeSet_via
  have path := via.feed_eq rfl
  have unstarted : ¬ s.judgeSet.starts := fun ⟨next, _⟩ => by
    rw [Part.nextUp_noPages (by unfold Part.noPages; rw [s.judgeSet_intake, via.planner_eq rfl]; exact none)] at next
    cases next
  have waits : s.judgeSet.judgeSelector.waiting :=
    .inl ⟨by rw [Part.judgeSelector_path, path, hp], by rwa [Part.judgeSelector_starts]⟩
  have turns := Part.conclude_waiting waits
  rw [Part.judge_unheld (by rw [hp]; exact nofun), Part.judgeFeed_unstarted (by rw [path, hp]) unstarted]
  refine ⟨((Part.judgeSelector_via _).mono rfl).andThen turns.via rfl, ?_⟩
  have kept : s.judgeSet.judgeSelector.conclude.feed.path = s.judgeSet.judgeSelector.feed.path := by
    rcases turns.feed with e | e <;> rw [e]
  rw [kept, Part.judgeSelector_path, path]

theorem Part.ends_untouched_idle (hp : s.feed.path = .idle) (none : s.noPages) : s.untouched s.judge.conclude := by
  obtain ⟨via, path⟩ := Part.ends_idle hp none
  exact Part.untouched_of (A := [.link, .notices, .calls, .intake, .gate, .feed, .out, .finisher, .stats, .dry])
    ((s.judgeSet_via.mono rfl).andThen via rfl) path rfl rfl rfl rfl

/-! ## Station edges (R71, R167) -/

theorem Desc.station_line {d : Desc} {st : Fin 24} {x : StationDef} (h : d.stations[st] = some x) : d.lineOf (.station st) = some x.line := by
  simp [Desc.lineOf, h]

/-- A station edge in dry run, and outside it. -/
theorem Part.stationEdge_eq {st : Fin 24} {x : StationDef} {t : Tick} {leading : Bool} (hx : p.force.stations[st] = some x)
    (h : p.edged t x.line leading s) (g : Part → Part) (hs : (p.advance t).lineEdge (.station st) leading = s) :
    (p.advance t).stationEdge st leading g = if p.dry.on = true then s else (g s).judge := by
  unfold Part.stationEdge
  rw [hs]
  have here : (s.force.stations[st]).isNone = false := by rw [h.force, hx]; rfl
  dsimp only
  rw [here, Bool.or_false, h.dry]

theorem Part.edged.anyPaper {st : Fin 24} {x : StationDef} {t : Tick} (hx : p.force.stations[st] = some x)
    (h : p.edged t x.line true s) (dry : p.dry.on = false) : s.anyPaper = true := by
  refine List.any_eq_true.mpr ⟨st, List.mem_finRange st, ?_⟩
  unfold Part.paperAt Part.levelOf
  rw [h.dry, dry, h.force, Desc.station_line hx, h.lines]
  exact Lines.edge_level ..

/-- The command of a station's edge. -/
def stationEdgeAt (leading : Bool) (t : Tick) (st : Fin 24) : Instr :=
  if leading then .stationLeadingEdge t st else .stationTrailingEdge t st

/-- What a station's edge brings the tracker. -/
def Part.trackEdge (s : Part) (leading : Bool) (st : Fin 24) : Part := if leading then s.leadingEdge st else s.trailingEdge st

theorem exec_stationEdge (w : List Instr) (p : Part) (t : Tick) (st : Fin 24) (leading : Bool) : exec (stationEdgeAt leading t st) ⟨w, p⟩ =
    .next ⟨w, p.event t fun p => p.stationEdge st leading fun p => p.trackEdge leading st⟩ := by
  cases leading <;> rfl

/-- The path states in which a station's edge is level only. -/
abbrev Part.levelOnly (p : Part) (leading : Bool) : Prop :=
  p.feed.path = .unconfigured ∨ p.feed.path = .resumable ∨ (p.feed.path = .idle ∧ p.noPages) ∨
    if leading then p.feed.path = .held else p.feed.path = .starting ∨ p.feed.path = .sweeping

theorem Part.trackEdge_levelOnly {leading : Bool} {st : Fin 24} (h : s.feed.path = .unconfigured ∨ s.feed.path = .resumable ∨
    s.feed.path = .idle ∨ s.feed.path = .held ∨ leading = false ∧ (s.feed.path = .starting ∨ s.feed.path = .sweeping)) :
    s.trackEdge leading st = s := by
  unfold Part.trackEdge Part.leadingEdge Part.trailingEdge
  rcases h with h | h | h | h | ⟨rfl, h | h⟩ <;> rw [h] <;> simp

theorem untracked_taken (w : List Instr) (p : Part) (t : Tick) (st : Fin 24) (x : StationDef) (leading : Bool)
    (hx : p.force.stations[st] = some x) (h : p.levelOnly leading) (dry : p.dry.on = false) :
    Completes (stationEdgeAt leading t st) ⟨w, p⟩ fun q =>
       p.passesTo t q ∧ q.lines = p.lines.edge p.force.inputs x.line leading ∧ q.feed.path = p.feed.path ∧
       q.table = p.table ∧ q.stations = p.stations ∧ q.episode = p.episode ∧ q.planner = p.planner := by
  refine completes_next (exec_stationEdge w p t st leading) ?_
  have edged := p.edged_of t (Desc.station_line hx) leading
  obtain ⟨r, hr⟩ : ∃ r, (p.advance t).lineEdge (.station st) leading = r := ⟨_, rfl⟩
  rw [hr] at edged
  have track : r.trackEdge leading st = r := by
    refine Part.trackEdge_levelOnly ?_
    rw [edged.feed]
    rcases h with h | h | ⟨h, -⟩ | h
    · exact .inl h
    · exact .inr (.inl h)
    · exact .inr (.inr (.inl h))
    · cases leading
      · exact .inr (.inr (.inr (.inr ⟨rfl, h⟩)))
      · exact .inr (.inr (.inr (.inl h)))
  have edge := Part.stationEdge_eq hx edged (fun p => p.trackEdge leading st) hr
  rw [dry, if_neg Bool.false_ne_true, track] at edge
  have same : r.untouched r.judge.conclude := by
    rcases h with h | h | ⟨h, none⟩ | h
    · exact Part.ends_untouched (by rw [edged.feed, h]; exact ⟨nofun, nofun, nofun⟩) (.inl (by rw [edged.feed, h]; exact nofun))
    · exact Part.ends_untouched (by rw [edged.feed, h]; exact ⟨nofun, nofun, nofun⟩) (.inl (by rw [edged.feed, h]; exact nofun))
    · exact Part.ends_untouched_idle (by rw [edged.feed, h]) (by rw [edged.moved]; exact none)
    · cases leading
      · rcases h with h | h
        all_goals
          exact Part.ends_untouched (by rw [edged.feed, h]; exact ⟨nofun, nofun, nofun⟩) (.inl (by rw [edged.feed, h]; exact nofun))
      · exact Part.ends_untouched (by rw [edged.feed, show p.feed.path = .held from h]; exact ⟨nofun, nofun, nofun⟩)
          (.inr (edged.anyPaper hx dry))
  have moved := edged.moved
  obtain ⟨passes, lines⟩ := Part.event_edge_moves (g := fun p => p.stationEdge st leading fun p => p.trackEdge leading st) edge
    (by rw [← moved]; exact Part.judge_moves r)
  have q : (p.event t fun p => p.stationEdge st leading fun p => p.trackEdge leading st) = r.judge.conclude := congrArg Part.conclude edge
  rw [q] at passes lines ⊢
  refine ⟨passes, lines, by rw [same.path, edged.feed], ?_, ?_, ?_, ?_⟩
  · rw [same.table, moved]
    rfl
  · rw [same.stations, moved]
    rfl
  · rw [same.episode, moved]
    rfl
  · rw [same.planner, moved]
    rfl

/-- A trailing edge in HELD has the clearance judged again (R125, R126). -/
theorem trailingHeld_taken (w : List Instr) (p : Part) (t : Tick) (st : Fin 24) (x : StationDef) (sound : p.tableSound)
    (hx : p.force.stations[st] = some x) (held : p.feed.path = .held) (open_ : p.episode.isOpen = true) (dry : p.dry.on = false) :
    Completes (stationEdgeAt false t st) ⟨w, p⟩ fun q =>
       p.passesTo t q ∧ q.lines = p.lines.edge p.force.inputs x.line false ∧ q.stations = p.stations ∧
       sweptIfClear p { p with lines := q.lines } q.tick q := by
  refine completes_next (exec_stationEdge w p t st false) ?_
  have edged := p.edged_of t (Desc.station_line hx) false
  obtain ⟨r, hr⟩ : ∃ r, (p.advance t).lineEdge (.station st) false = r := ⟨_, rfl⟩
  rw [hr] at edged
  have moved := edged.moved
  have track : r.trackEdge false st = r := Part.trackEdge_levelOnly (by rw [edged.feed, held]; exact .inr (.inr (.inr (.inl rfl))))
  have edge := Part.stationEdge_eq hx edged (fun p => p.trackEdge false st) hr
  rw [dry, if_neg Bool.false_ne_true, track] at edge
  obtain ⟨passes, lines⟩ := Part.event_edge_moves (g := fun p => p.stationEdge st false fun p => p.trackEdge false st) edge
    (by rw [← moved]; exact Part.judge_moves r)
  have q : (p.event t fun p => p.stationEdge st false fun p => p.trackEdge false st) = r.judge.conclude := congrArg Part.conclude edge
  rw [q] at passes lines ⊢
  have alike : p.alike r := by rw [moved]; exact ⟨rfl, rfl, rfl, rfl, rfl, rfl, rfl, rfl⟩
  have episode : r.episode = p.episode := by rw [moved]; rfl
  have tick : r.tick = laterOf p.tick t := by rw [moved]; rfl
  have swept := alike.swept held (by rw [episode, open_]) sound
  rw [edged.lines, tick] at swept
  refine ⟨passes, lines, ?_, ?_⟩
  · have via := r.judgeSet_via
    have stations : r.stations = p.stations := by rw [moved]; rfl
    rcases Part.judge_rests (s := r) (by rw [edged.feed, held]; exact ⟨nofun, nofun, nofun⟩) with ⟨-, k⟩ | ⟨-, -, u, sweeps, k⟩
    · rw [k.via.stations_eq rfl, via.stations_eq rfl, stations]
    · have course := sweeps.course
      rw [r.judgeSet_on, edged.dry, dry, if_neg Bool.false_ne_true] at course
      rw [k.via.stations_eq rfl, course.2.2.2.2, via.stations_eq rfl, stations]
  · rw [lines, passes.1]
    exact swept

/-- An event that is level only, while a frame is being sent. -/
theorem Part.event_level {role : InputRole} {l : Fin 32} {t : Tick} {asserted : Bool} {g : Part → Part} (hl : p.force.lineOf role = some l)
    (sending : p.link.sending.isSome = true) (hg : g (p.advance t) = (p.advance t).lineEdge role asserted) :
    p.event t g = { p with tick := laterOf p.tick t, lines := p.lines.edge p.force.inputs l asserted } := by
  have e : g (p.advance t) = { p with tick := laterOf p.tick t, lines := p.lines.edge p.force.inputs l asserted } :=
    hg.trans (Part.lineEdge_some (s := p.advance t) hl asserted)
  unfold Part.event
  rw [e]
  exact Part.conclude_sending _ sending

theorem exec_dryEdge (w : List Instr) (p : Part) (t : Tick) (st : Fin 24) (x : StationDef) (leading : Bool)
    (hx : p.force.stations[st] = some x) (dry : p.dry.on = true) (sending : p.link.sending.isSome = true) :
    exec (stationEdgeAt leading t st) ⟨w, p⟩ = .next ⟨w, { p with
       tick := laterOf p.tick t, lines := p.lines.edge p.force.inputs x.line leading }⟩ := by
  rw [exec_stationEdge, Part.event_level (Desc.station_line hx) sending]
  have edged := p.edged_of t (Desc.station_line hx) leading
  rw [Part.stationEdge_eq hx edged _ rfl, if_pos dry]

theorem Part.homeEdge_level {role : InputRole} {t : Tick} {asserted : Bool} (h : asserted = false ∨ p.dry.on = true) (g : Part → Part) :
    (p.advance t).homeEdge role asserted g = (p.advance t).lineEdge role asserted := by
  have on : ((p.advance t).lineEdge role asserted).dry.on = p.dry.on := by
    rw [((p.advance t).lineEdge_via role asserted).dry_eq rfl]
    rfl
  unfold Part.homeEdge
  dsimp only
  rw [on]
  rcases h with h | h <;> rw [h] <;> simp

/-- Settles O40. -/
theorem levelOnlyEdges : Obligations.LevelOnlyEdges := by
  unfold Obligations.LevelOnlyEdges
  refine ⟨fun w p t st x leading sound hx => ⟨untracked_taken w p t st x leading hx, ?_, exec_dryEdge w p t st x leading hx⟩,
    fun w p t asserted x hx h sending => ⟨?_, ?_⟩⟩
  · rintro rfl held open_ dry
    exact trailingHeld_taken w p t st x sound hx held open_ dry
  · exact congrArg (fun q => Host.Outcome.next (⟨w, q⟩ : State))
      (Part.event_level (by simp [Desc.lineOf, hx]) sending (Part.homeEdge_level h Part.stapleHome))
  · exact congrArg (fun q => Host.Outcome.next (⟨w, q⟩ : State))
      (Part.event_level (by simp [Desc.lineOf, hx]) sending (Part.homeEdge_level h Part.ejectHome))

end Sys2Proof.Machine
end

