-- ==== Sys2Proof/Proofs/PickConditions.lean ====
section
/-! PROOF. The pick conditions and the earliest pick tick, as the statements spell them (O43). -/

namespace Sys2Proof.Machine

variable {s t u p : Part} {n : NextPage} {v : Tick}

/-! ## The earliest tick (R60) -/

theorem isBefore_of_notAfter {a b : Tick} (h : notAfter a b = true) (ne : a ≠ b) : isBefore a b = true := by
  unfold notAfter since at h
  unfold isBefore since
  rw [decide_eq_true_eq] at h ⊢
  rcases h.lt_or_eq with h | h
  · exact h
  · have zero : b - a = 0#32 := BitVec.toInt_inj.mp (by rw [← h]; rfl)
    exact absurd (by rw [← BitVec.sub_add_cancel b a, zero, BitVec.zero_add]) ne

theorem isBefore_flip {a b : Tick} (h : notAfter a b = true) : isBefore b a = false := by
  unfold notAfter since at h
  unfold isBefore since
  rw [decide_eq_true_eq, BitVec.toInt_eq_toNat_cond] at h
  rw [decide_eq_false_iff_not, BitVec.toInt_eq_toNat_cond]
  have := b.isLt
  have := a.isLt
  split at h <;> split <;> bv_omega

/-- A tick not after any other of a list is its earliest. -/
theorem earliest_of_least {a u : Tick} {l : List Tick} (mem : u ∈ a :: l) (least : ∀ b ∈ a :: l, notAfter u b = true) :
    earliest a l = u := by
  induction l generalizing a with
  | nil => exact (List.mem_singleton.mp mem).symm
  | cons b rest ih =>
    have here := least a List.mem_cons_self
    have next := least b (List.mem_cons_of_mem _ List.mem_cons_self)
    have later : ∀ c ∈ rest, notAfter u c = true := fun c hc => least c (List.mem_cons_of_mem _ (List.mem_cons_of_mem _ hc))
    show earliest (if isBefore b a then b else a) rest = u
    by_cases hb : u = b
    · subst hb
      have first : (if isBefore u a then u else a) = u := by
        split
        · rfl
        · next h =>
          by_contra ne
          exact h (isBefore_of_notAfter here (Ne.symm ne))
      rw [first]
      exact ih List.mem_cons_self (List.forall_mem_cons.mpr ⟨next, later⟩)
    · by_cases ha : u = a
      · subst ha
        rw [isBefore_flip next, if_neg Bool.false_ne_true]
        exact ih List.mem_cons_self (List.forall_mem_cons.mpr ⟨here, later⟩)
      · have mem' : u ∈ rest := by
          simp only [List.mem_cons] at mem
          exact (mem.resolve_left ha).resolve_left hb
        refine ih (List.mem_cons_of_mem _ mem') (List.forall_mem_cons.mpr ⟨?_, later⟩)
        split
        · exact next
        · exact here

/-! ## The set gap and the pick ticks as R24, R60 and R66 spell them -/

theorem Part.latestToward_eq (s : Part) : s.latestToward = s.lastToward.map fun x => (setOf x, s.finisherTrail x) := by
  unfold Part.latestToward Part.lastToward
  generalize (s.table.sheets.filter fun x => x.dest == .finisher && x.cond != .purging).getLast? = a
  generalize s.finisher.sheets.getLast? = b
  cases a with
  | none => cases b <;> rfl
  | some x =>
    dsimp only [Option.map_some, setOf]
    unfold Part.finisherTrail
    dsimp only
    have under : ((s.force.stationWith .finisherEntry).bind fun st => (s.stations[st]).cover.filter fun c => c.sheet == x.number) =
        ((s.force.stationWith .finisherEntry).bind fun st => (s.stations[st]).cover).filter fun c => c.sheet == x.number := by
      cases s.force.stationWith .finisherEntry <;> rfl
    rw [under]
    cases (((s.force.stationWith .finisherEntry).bind fun st => (s.stations[st]).cover).filter fun c => c.sheet == x.number) <;> rfl

theorem Part.stapleAwaited_spelled (s : Part) (id : Nat × Nat) :
    (((s.finisher.ident == some id && (s.finisher.toStaple || s.finisher.sheets.any Held.staple)) ||
        s.table.sheets.any fun x => x.dest == .finisher && (x.job, x.set) == id && x.staple) &&
      !(s.finisher.ident == some id && (s.finisher.skipped || s.finisher.abandoned))) = s.stapleAwaited id := by
  have sheets : (fun x : Sheet => x.dest == .finisher && (x.job, x.set) == id && x.staple) =
      fun x => x.dest == .finisher && x.job == id.1 && x.set == id.2 && x.staple := by
    funext x
    have pair : ((x.job, x.set) == id) = (x.job == id.1 && x.set == id.2) := rfl
    rw [pair, ← Bool.and_assoc]
  unfold Part.stapleAwaited
  rw [sheets, Bool.and_comm]

theorem Part.setGapFrom_eq (s : Part) (n : NextPage) : s.setGapFrom n = s.setGapTick n := by
  unfold Part.setGapFrom Part.setGapTick
  rw [s.latestToward_eq]
  by_cases hd : n.front.destination = .finisher
  · rw [if_neg (not_not.mpr hd)]
    cases s.lastToward with
    | none => rfl
    | some last =>
      dsimp only [Option.map_some]
      simp only [hd, ne_eq, not_true_eq_false, false_or, s.stapleAwaited_spelled]
      rfl
  · rw [if_pos hd]
    cases s.lastToward with
    | none => rfl
    | some last => exact if_pos (.inl hd)

/-- The earliest pick tick is the one R60 spells. -/
theorem Part.pickTick_of_picksAt (h : s.picksAt n v) : s.pickTick n = some v := by
  have ticks : s.pickTick n = match (s.pickTicks n).filter (s.mergeAllows n) with
      | [] => none
      | t :: rest => some (earliest t rest) := by
    have base : ((s.setGapFrom n).map (laterOf s.tick)).getD s.tick = match s.setGapTick n with
        | some ts => laterOf s.tick ts
        | none => s.tick := by
      rw [s.setGapFrom_eq]
      cases s.setGapTick n <;> rfl
    unfold Part.pickTick Part.pickTicks
    rw [base, s.gapTicks_eq, s.pickLead_eq] <;> rfl
  obtain ⟨mem, placed, least⟩ := h
  have allowed : v ∈ (s.pickTicks n).filter (s.mergeAllows n) := List.mem_filter.mpr ⟨mem, (s.mergeAllows_iff n v).mpr placed⟩
  have first : ∀ b ∈ (s.pickTicks n).filter (s.mergeAllows n), notAfter v b = true := fun b hb =>
    least b (List.mem_filter.mp hb).1 ((s.mergeAllows_iff n b).mp (List.mem_filter.mp hb).2)
  rw [ticks]
  generalize (s.pickTicks n).filter (s.mergeAllows n) = l at allowed first
  cases l with
  | nil => cases allowed
  | cons a rest => exact congrArg some (earliest_of_least allowed first)

theorem NextPage.dest_holds (s : Part) (n : NextPage) : (match n.front.destination with
      | .bin0 => !s.binIsFull 0
      | .bin1 => !s.binIsFull 1
      | _ => true) = true ↔
    s.dry.on = true ∨ (n.front.dest = 0 → s.levelOf (.binFull 0) = false) ∧ (n.front.dest = 1 → s.levelOf (.binFull 1) = false) := by
  unfold Page.destination Part.binIsFull
  by_cases h0 : n.front.dest = 0
  · simp [h0, Decidable.or_iff_not_imp_left]
  · by_cases h1 : n.front.dest = 1
    · simp [h1, Decidable.or_iff_not_imp_left]
    · simp [h0, h1]

theorem readyGate_spelled (g : ReadyGate) (n : NextPage) : readyGatePasses g n = true ↔
    n.kind = .insert ∨ g = .off ∨ n.front.ready = true ∧ (g = .front ∨ ∀ b ∈ n.back, b.ready = true) := by
  unfold readyGatePasses
  rw [Bool.or_eq_true, beq_iff_eq]
  refine or_congr Iff.rfl ?_
  cases g with
  | off => simp
  | front => simp
  | both => cases hb : n.back <;> simp [NextPage.pages, hb]

/-- The conditions of R57. -/
theorem Part.pickHolds_spelled (s : Part) (n : NextPage) : s.pickHolds n = true ↔ s.mayPick n := by
  have tray : s.trayAvailable n.unit = true ↔
      s.dry.on = true ∨ s.levelOf (.present n.unit) = true ∧ s.levelOf (.paperOut n.unit) = false := by
    simp [Part.trayAvailable]
  have reserve : s.reserveMet = true ↔
      s.dry.on = true ∨ s.force.purge.any (fun x => decide (s.gate.purgeCount + 24 < x.capacity)) = true := by
    unfold Part.reserveMet
    cases s.force.purge <;> simp
  have loops : s.firstPassCount = s.looping := List.countP_eq_length_filter
  refine (s.pickHolds_iff n).trans ((and_congr_right fun _ => and_congr_right fun _ => and_congr_right fun _ => and_congr tray
    (and_congr (NextPage.dest_holds s n) (and_congr reserve (and_congr_right fun _ => and_congr Iff.rfl (readyGate_spelled _ n))))).trans ?_)
  rw [loops]
  unfold Part.mayPick Calls.unsent
  refine and_congr_right fun _ => and_congr_right fun _ => and_congr_right fun _ => ?_
  by_cases on : s.dry.on = true
  · simp [on]
  · simp [on, and_assoc]

/-! ## Parts on which the pick conditions agree -/

/-- The Compile Set but for its closing. -/
def Finisher.unclosed (f : Finisher) : Finisher := { f with closed := false }

/-- `t` agrees with `s` on what the pick conditions read, but for image calls that have gone. -/
structure Part.picksAlike (s t : Part) : Prop where
  tick : t.tick = s.tick
  lines : t.lines = s.lines
  force : t.force = s.force
  table : t.table = s.table
  stations : t.stations = s.stations
  dry : t.dry.on = s.dry.on
  cls : t.feed.cls = s.feed.cls
  unconfirmed : t.feed.unconfirmed = s.feed.unconfirmed
  merge : t.feed.merge = s.feed.merge
  finisher : t.finisher.unclosed = s.finisher.unclosed
  count : t.gate.purgeCount = s.gate.purgeCount
  unsent : t.calls.unsent ≤ s.calls.unsent

theorem Part.picksAlike.trans (h : s.picksAlike t) (k : t.picksAlike u) : s.picksAlike u :=
  ⟨k.tick.trans h.tick, k.lines.trans h.lines, k.force.trans h.force, k.table.trans h.table, k.stations.trans h.stations,
    k.dry.trans h.dry, k.cls.trans h.cls, k.unconfirmed.trans h.unconfirmed, k.merge.trans h.merge, k.finisher.trans h.finisher, k.count.trans h.count, k.unsent.trans h.unsent⟩

theorem Part.picksAlike.holds (h : s.picksAlike t) (holds : s.pickHolds n = true) : t.pickHolds n = true := by
  have level : ∀ r, t.levelOf r = s.levelOf r := fun r => by unfold Part.levelOf; rw [h.force, h.lines]
  have looping : t.looping = s.looping := by unfold Part.looping; rw [h.table]
  have unsent : t.calls.queue.length + t.calls.deferred.length ≤ s.calls.queue.length + s.calls.deferred.length := h.unsent
  rw [Part.pickHolds_spelled] at holds ⊢
  unfold Part.mayPick at holds ⊢
  rw [h.cls, h.table, h.unconfirmed, h.dry, level, level, level, level, h.force, h.count, looping]
  obtain ⟨cls, places, confirmed, supplies, calls, rest⟩ := holds
  exact ⟨cls, places, confirmed, supplies, by omega, rest⟩

theorem Part.picksAlike.pickTick (h : s.picksAlike t) (n : NextPage) : t.pickTick n = s.pickTick n := by
  have ident : t.finisher.ident = s.finisher.ident := (congrArg Finisher.ident h.finisher :)
  have skipped : t.finisher.skipped = s.finisher.skipped := (congrArg Finisher.skipped h.finisher :)
  have abandoned : t.finisher.abandoned = s.finisher.abandoned := (congrArg Finisher.abandoned h.finisher :)
  have toStaple : t.finisher.toStaple = s.finisher.toStaple := (congrArg Finisher.toStaple h.finisher :)
  have sheets : t.finisher.sheets = s.finisher.sheets := (congrArg Finisher.sheets h.finisher :)
  have speed : t.speed = s.speed := by unfold Part.speed; rw [h.force, h.cls]
  have fs : t.finisherSet = s.finisherSet := by unfold Part.finisherSet; rw [h.force]
  have step : t.anyOutOfStep = s.anyOutOfStep := by unfold Part.anyOutOfStep; rw [h.force, h.stations]
  have predict : ∀ a l k m, t.predictFrom a l k m = s.predictFrom a l k m := fun a l k m => by
    unfold Part.predictFrom Part.predict
    rw [h.force, h.stations, speed]
  have last : t.lastToward = s.lastToward := by unfold Part.lastToward; rw [h.table, sheets]
  have trail : ∀ x, t.finisherTrail x = s.finisherTrail x := fun x => by
    unfold Part.finisherTrail
    rw [h.force, h.stations, speed]
  have awaited : ∀ id, t.stapleAwaited id = s.stapleAwaited id := fun id => by
    unfold Part.stapleAwaited
    rw [h.table, ident, skipped, abandoned, toStaple, sheets]
  have done : ∀ x id, t.predictedCompletion x id = s.predictedCompletion x id := fun x id => by
    unfold Part.predictedCompletion
    rw [fs, trail, awaited, h.tick]
  have gap : t.setGapTick n = s.setGapTick n := by
    unfold Part.setGapTick
    rw [last, h.force, h.stations, speed]
    simp only [done]
  have allows : t.mergeAllows n = s.mergeAllows n := by
    funext a
    unfold Part.mergeAllows Part.widened
    rw [h.merge, h.force, step, speed, predict]
  unfold Part.pickTick
  rw [gap, h.tick, h.force, step, speed, predict, h.merge, allows]

end Sys2Proof.Machine
end

