-- ==== Sys2Proof/Proofs/PickTimer.lean ====
section
/-! PROOF. PICK and the pick timer up to the pick itself (O43). -/

namespace Sys2Proof.Machine

variable {s t u p : Part} {n : NextPage} {v : Tick}

/-! ## What the pick conditions do not read -/

theorem Part.shifts.picksAlike (h : s.shifts t) : s.picksAlike t :=
  have via := h.1
  ⟨via.tick_eq rfl, via.lines_eq rfl, via.force_eq rfl, via.table_eq rfl, via.stations_eq rfl, by rw [via.dry_eq rfl],
    h.feed_eq Feed.cls, h.feed_eq Feed.unconfirmed, h.feed_eq Feed.merge, by rw [via.finisher_eq rfl], by rw [via.gate_eq rfl],
    by rw [via.calls_eq rfl]⟩

theorem Part.serves.picksAlike (h : s.serves t) : s.picksAlike t :=
  have via := h.via
  ⟨via.tick_eq rfl, via.lines_eq rfl, via.force_eq rfl, via.table_eq rfl, via.stations_eq rfl, by rw [via.dry_eq rfl],
    by rw [via.feed_eq rfl], by rw [via.feed_eq rfl], by rw [via.feed_eq rfl], by rw [via.finisher_eq rfl], h.count.1, h.unsent⟩

theorem Part.judgeClosure_of (finisher : t.finisher = s.finisher) (table : t.table = s.table) :
    t.judgeClosure.finisher = s.judgeClosure.finisher := by
  have other : t.followedByOther = s.followedByOther := by
    unfold Part.followedByOther
    rw [finisher, table]
  have set : ∀ r : Part, r.judgeClosure.finisher = if (r.finisher.state == .compiling || r.finisher.state == .retained) &&
      !r.finisher.disturbed && ((r.finisher.sheets.any fun h => h.lastOfSet && !h.settling) || r.followedByOther || r.finisher.abandoned)
      then { r.finisher with closed := true } else r.finisher := fun r => by
    unfold Part.judgeClosure
    dsimp only
    split <;> rfl
  rw [set, set, other, finisher]

theorem Part.judgeClosure_ready (finisher : t.finisher = s.finisher) (table : t.table = s.table) (episode : t.episode = s.episode)
    (force : t.force = s.force) (lines : t.lines = s.lines) : t.judgeClosure.cycleReady = s.judgeClosure.cycleReady := by
  have doors : t.judgeClosure.anyDoorOpen = s.judgeClosure.anyDoorOpen := Part.anyDoorOpen_of
    ((t.judgeClosure_via.force_eq rfl).trans (force.trans (s.judgeClosure_via.force_eq rfl).symm))
    ((t.judgeClosure_via.lines_eq rfl).trans (lines.trans (s.judgeClosure_via.lines_eq rfl).symm))
  unfold Part.cycleReady
  rw [Part.judgeClosure_of finisher table, doors, t.judgeClosure_via.episode_eq rfl, episode, s.judgeClosure_via.episode_eq rfl]

/-- Where no cycle is due the set judged is at most closed. -/
theorem Part.judgeSet_unready (h : s.judgeClosure.cycleReady = false) : s.judgeSet = s.judgeGates.judgeClosure := by
  have gates := s.judgeGates_via
  have waits := Part.judgeClosure_ready (gates.finisher_eq rfl) (gates.table_eq rfl) (gates.episode_eq rfl) (gates.force_eq rfl)
    (gates.lines_eq rfl)
  exact if_neg (by rw [waits, h]; exact Bool.false_ne_true)

/-- Gates and closure judged. -/
theorem Part.closes_picksAlike (s : Part) : s.picksAlike s.judgeGates.judgeClosure := by
  have via : Via [.out, .finisher] s s.judgeGates.judgeClosure := (s.judgeGates_via.mono rfl).andThen (Part.judgeClosure_via _) rfl
  refine ⟨via.tick_eq rfl, via.lines_eq rfl, via.force_eq rfl, via.table_eq rfl, via.stations_eq rfl, by rw [via.dry_eq rfl],
    by rw [via.feed_eq rfl], by rw [via.feed_eq rfl], by rw [via.feed_eq rfl], ?_, by rw [via.gate_eq rfl], by rw [via.calls_eq rfl]⟩
  have finisher := s.judgeGates_via.finisher_eq rfl
  unfold Part.judgeClosure
  dsimp only
  split
  · rw [Part.modFinisher_finisher, finisher]
    rfl
  · rw [finisher]

/-! ## RUNNING judged with a page to bind (R60) -/

/-- RUNNING with `n` to bind next, of the current class, and nothing that drains the path (R46). -/
structure Part.upFor (s : Part) (n : NextPage) : Prop where
  path : s.feed.path = .running
  next : s.nextUp = some n
  hold : s.feed.hold = false
  numbers : s.feed.exhausted = false
  cls : n.front.cls = s.feed.cls

/-- The part on which the pick conditions are judged. -/
def Part.looked (s : Part) : Part := s.judgeSelector.judgeHoldoff

theorem Part.looked_shifts (s : Part) : s.shifts s.looked := s.judgeSelector_shifts.trans (Part.judgeHoldoff_shifts _)

theorem Part.looked_nextPage (s : Part) : s.looked.nextPage = s.nextUp := s.judgeSelector_nextPage

theorem Part.looked_path (s : Part) : s.looked.feed.path = s.feed.path := s.judgeSelector_path

theorem Part.upFor.undrained (h : s.upFor n) : s.judgeSelector.drainHolds = false := by
  have sel := s.judgeSelector_shifts
  unfold Part.drainHolds
  rw [s.judgeSelector_nextPage, h.next, sel.feed_eq Feed.hold, sel.feed_eq Feed.exhausted, sel.feed_eq Feed.cls, h.hold, h.numbers]
  simp [h.cls]

/-- What a judgement without a pick leaves: the pick timer at `x`, and the same page to bind. -/
structure Part.waitsAt (s : Part) (x : Option Tick) (t : Part) : Prop where
  shifts : s.shifts t
  path : t.feed.path = .running
  timer : t.feed.pickTimer = x
  next : t.nextUp = s.nextUp

theorem Part.upFor.waits (h : s.upFor n) (x : Option Tick)
    (hx : s.looked.judgePick = s.looked.modFeed fun f => { f with pickTimer := x }) : s.waitsAt x s.judgeFeed := by
  have e : s.judgeFeed = s.looked.modFeed fun f => { f with pickTimer := x } := by
    unfold Part.judgeFeed
    rw [h.path]
    unfold Part.judgeRunning
    dsimp only
    rw [h.undrained, if_neg Bool.false_ne_true, show s.judgeSelector.judgeHoldoff.judgePick = _ from hx, if_pos (by rfl)]
  rw [e]
  refine ⟨s.looked_shifts.trans (Part.pickTimer_shifts _ x), s.looked_path.trans h.path, rfl, ?_⟩
  rw [← s.judgeSelector_nextUp]
  unfold Part.nextUp Part.activeQueue
  rfl

/-- The pick conditions fail (R60). -/
theorem Part.upFor.cancels (h : s.upFor n) (fails : s.pickHolds n = false) : s.waitsAt none s.judgeFeed := by
  refine h.waits none ?_
  have alike : s.looked.picksAlike s := by
    have via := s.looked_shifts.1
    have a := s.looked_shifts.picksAlike
    exact ⟨a.tick.symm, a.lines.symm, a.force.symm, a.table.symm, a.stations.symm, a.dry.symm, a.cls.symm, a.unconfirmed.symm,
      a.merge.symm, a.finisher.symm, a.count.symm, by rw [via.calls_eq rfl]⟩
  have fails' : s.looked.pickHolds n = false := by
    rw [← Bool.not_eq_true] at fails ⊢
    exact mt alike.holds fails
  unfold Part.judgePick
  rw [s.looked_nextPage, h.next]
  dsimp only
  rw [fails', if_neg Bool.false_ne_true]

/-- They hold, and the earliest tick is still to come (R60). -/
theorem Part.upFor.arms (h : s.upFor n) (holds : s.pickHolds n = true) (tick : s.pickTick n = some v) (early : notAfter v s.tick = false) :
    s.waitsAt (some v) s.judgeFeed := by
  refine h.waits (some v) ?_
  have alike := s.looked_shifts.picksAlike
  unfold Part.judgePick
  rw [s.looked_nextPage, h.next]
  dsimp only
  rw [alike.holds holds, if_pos rfl, alike.pickTick n, tick]
  dsimp only
  rw [alike.tick, early, if_neg Bool.false_ne_true]

theorem Part.judgeSelector_timer (s : Part) : s.judgeSelector.feed.pickTimer = s.feed.pickTimer := by
  rw [s.judgeSelector_eq]
  rfl

theorem Part.judgeHoldoff_timer (s : Part) : s.judgeHoldoff.feed.pickTimer = s.feed.pickTimer := rfl

/-- The pick is made (R61). -/
theorem Part.upFor.picked (h : s.upFor n) (holds : s.pickHolds n = true) (tick : s.pickTick n = some v) (due : notAfter v s.tick = true) :
    (s.looked.makePick n).shifts s.judgeFeed ∧ s.judgeFeed.feed.pickTimer = none ∧
      (s.judgeFeed.feed.path = .running ∨ s.judgeFeed.feed.path = .draining) := by
  have alike := s.looked_shifts.picksAlike
  have pick : s.looked.judgePick = s.looked.makePick n := by
    unfold Part.judgePick
    rw [s.looked_nextPage, h.next]
    dsimp only
    rw [alike.holds holds, if_pos rfl, alike.pickTick n, tick]
    dsimp only
    rw [alike.tick, due, if_pos rfl]
  have feeds : s.judgeFeed = s.judgeRunning := by unfold Part.judgeFeed; rw [h.path]
  have path := Part.judgeRunning_path h.path
  rw [feeds]
  rw [← and_assoc, and_iff_left path]
  have idle : (s.looked.makePick n).feed.pickTimer = none := by
    obtain ⟨m, hf⟩ := s.looked.pickCore_feed n
    rw [Part.makePick_feed, hf]
  rcases Part.judgeRunning_cases h.path with ⟨drains, -⟩ | ⟨-, v, e, -⟩ | ⟨-, m, picks, e⟩
  · rw [h.undrained] at drains
    cases drains
  · have number := congrArg (fun q : Part => q.feed.nextSheet) (pick.symm.trans e)
    obtain ⟨m, hf⟩ := s.looked.pickCore_feed n
    rw [Part.makePick_feed, hf] at number
    exact absurd number (by show s.looked.feed.nextSheet + 1 ≠ s.looked.feed.nextSheet; omega)
  · have same : m = n := by
      have next := picks.next
      rw [show s.judgeSelector.judgeHoldoff.nextPage = s.nextUp from s.looked_nextPage, h.next] at next
      exact (Option.some.inj next).symm
    rw [e, same]
    split
    · exact ⟨(Part.judgeSelector_shifts _).trans (Part.enterDraining_shifts _), by rw [Part.enterDraining_feed]⟩
    · exact ⟨(Part.judgeSelector_shifts _).trans (Part.judgeHoldoff_shifts _), by
        rw [Part.judgeHoldoff_timer, Part.judgeSelector_timer]
        exact idle⟩

theorem Part.waitsAt.upFor {x : Option Tick} (h : s.waitsAt x t) (up : s.upFor n) : t.upFor n :=
  ⟨h.path, h.next.trans up.next, (h.shifts.feed_eq Feed.hold).trans up.hold, (h.shifts.feed_eq Feed.exhausted).trans up.numbers,
    up.cls.trans (h.shifts.feed_eq Feed.cls).symm⟩

theorem Part.upFor.serves (h : s.upFor n) (k : s.serves t) : t.upFor n := by
  have feed := k.via.feed_eq rfl
  exact ⟨by rw [feed, h.path], by rw [k.nextUp_eq, h.next], by rw [feed, h.hold], by rw [feed, h.numbers], by rw [feed, h.cls]⟩

end Sys2Proof.Machine
end

