-- ==== Sys2Proof/Proofs/Scheduled.lean ====
section
/-! PROOF. The next leading edge of a sheet: what the tracker arms and the generator schedules (R72, R168, R171). -/

namespace Sys2Proof.Machine

variable {s t u p : Part}

/-! ## The schedule (R168, R171) -/

/-- The Fault Plan entry fires at the first leading edge of sheet `n` at `st`, as the statements spell it. -/
theorem Dry.firing_spelled (d : Dry) (n : Nat) (st : Fin 24) : (fun x : FaultEntry =>
    !x.spent && x.kind != .noStaple && x.ordinal == d.ordinal n && x.station == st.val) =
      fun x => !x.spent && x.kind != .noStaple && x.station == st.val && x.ordinal == n + 1 - d.firstSheet := by
  funext x
  rw [Bool.and_assoc (!x.spent && x.kind != .noStaple), Bool.and_comm (x.ordinal == _), ← Bool.and_assoc]
  rfl

/-- Edges and spent faults of a schedule stand. -/
structure Dry.stands (d e : Dry) : Prop where
  schedule : e.schedule = d.schedule
  plan : ∀ (i : Nat) (x : FaultEntry), d.plan[i]? = some x → x.spent = true → e.plan[i]? = some x

theorem Dry.stands.trans {d e f : Dry} (h : d.stands e) (k : e.stands f) : d.stands f :=
  ⟨k.schedule.trans h.schedule, fun i x hi hx => k.plan i x (h.plan i x hi hx) hx⟩

theorem Dry.stands_of {d e : Dry} (schedule : e.schedule = d.schedule) (plan : e.plan = d.plan) : d.stands e :=
  ⟨schedule, fun _ _ hi _ => by rwa [plan]⟩

theorem Part.scheduledEdge.keep {now : Tick} {num : Nat} {st : Fin 24} {anchor : Tick} {T len : Nat}
    (h : p.scheduledEdge now num st anchor T len s) (k : s.dry.stands t.dry) : p.scheduledEdge now num st anchor T len t := by
  unfold Part.scheduledEdge at h ⊢
  dsimp only at h ⊢
  obtain ⟨spent, edge⟩ := h
  refine ⟨fun i hi => k.plan _ _ (spent i hi) rfl, ?_⟩
  rwa [k.schedule]

theorem Part.scheduledEdge.of {now : Tick} {num : Nat} {st : Fin 24} {anchor : Tick} {T len : Nat}
    (h : s.scheduledEdge now num st anchor T len t) (dry : s.dry = p.dry) : p.scheduledEdge now num st anchor T len t := by
  have e : s = { s with dry := p.dry } := by rw [← dry]
  rw [e] at h
  exact h

theorem faultSum_spelled (k : FaultKind) (plan : List FaultEntry) (f : FaultEntry → Bool) :
    faultSum k (plan.filter f) = ((plan.filter fun x => f x && x.kind == k).map FaultEntry.amount).sum := by
  unfold faultSum
  rw [List.filter_filter]
  simp only [Bool.and_comm]

theorem Part.scheduleLeading_scheduled (on : s.dry.on = true) (x : Sheet) (st : Fin 24) (T : Nat) :
    s.scheduledEdge s.tick x.number st x.anchor T (dwell x.media s.speed) (s.scheduleLeading x st T) := by
  have spell := s.dry.firing_spelled x.number st
  have firing : s.dry.firing x.number st = s.dry.plan.filter fun y =>
      !y.spent && y.kind != .noStaple && y.station == st.val && y.ordinal == x.number + 1 - s.dry.firstSheet := by
    rw [← spell]
    rfl
  have spend : (s.dry.spend x.number st).plan = s.dry.plan.map fun y =>
      if !y.spent && y.kind != .noStaple && y.station == st.val && y.ordinal == x.number + 1 - s.dry.firstSheet then
        { y with spent := true } else y := by
    unfold Dry.spend
    simp only [congrFun spell]
  have scheduled : (s.scheduleLeading x st T).dry = if (s.dry.firing x.number st).any (fun f => f.kind == .omit) then s.dry.spend x.number st
      else { s.dry.spend x.number st with schedule := s.dry.schedule ++ [{
        station := st
        leading := true
        tick := s.edgeTick (plusInt (plusTicks x.anchor T) (faultSum .delay (s.dry.firing x.number st)))
        sheet := some x.number
        stretch := (faultSum .stretch (s.dry.firing x.number st)).toNat
        extras := (s.dry.firing x.number st).countP fun f => f.kind == .extra
        dwell := dwell x.media s.speed }] } := by
    unfold Part.scheduleLeading
    dsimp only
    rw [on, Bool.not_true, if_neg Bool.false_ne_true]
    split <;> rfl
  have plan : (s.scheduleLeading x st T).dry.plan = (s.dry.spend x.number st).plan := by
    rw [scheduled]
    split <;> rfl
  refine ⟨fun i hi => ?_, ?_⟩
  · rw [plan, spend, List.getElem?_map, List.getElem?_eq_getElem i.isLt]
    exact congrArg some (if_pos hi)
  · rw [firing, faultSum_spelled, faultSum_spelled, List.countP_eq_length_filter, List.filter_filter] at scheduled
    have none : ((s.dry.plan.filter fun y => !y.spent && y.kind != .noStaple && y.station == st.val &&
        y.ordinal == x.number + 1 - s.dry.firstSheet).any fun f => f.kind == .omit) = false ↔
        (s.dry.plan.filter fun y => (!y.spent && y.kind != .noStaple && y.station == st.val &&
        y.ordinal == x.number + 1 - s.dry.firstSheet) && y.kind == .omit) = [] := by
      rw [List.filter_eq_nil_iff, List.any_eq_false]
      simp only [List.mem_filter, Bool.and_eq_true]
      exact ⟨fun h y hy k => h y ⟨hy, k.1⟩ k.2, fun h y hy k => h y hy.1 ⟨hy.2, k⟩⟩
    split
    · next h =>
      rw [none.mpr h, if_neg Bool.false_ne_true] at scheduled
      rw [scheduled]
      refine List.mem_append_right _ (List.mem_singleton.mpr ?_)
      simp only [Bool.and_comm]
      rfl
    · next h =>
      rw [if_pos (by rw [← Bool.not_eq_false]; exact mt none.mp h)] at scheduled
      rw [scheduled]
      exact fun e he _ _ => he

/-! ## What the Finisher Unit does to it (R169, R171) -/

theorem Part.completeEject_dry (s : Part) : s.completeEject.dry = { s.dry with home := none } := by
  unfold Part.completeEject
  dsimp only
  split
  · rw [(Part.endPartial_via _).dry_eq rfl, (Part.deliverPages_via ..).dry_eq rfl]
    rfl
  · rw [(Part.endFinal_via _).dry_eq rfl, (Part.deliverPages_via ..).dry_eq rfl]
    rfl

theorem Part.enterStapling_stands (s : Part) : s.dry.stands s.enterStapling.dry := by
  unfold Part.enterStapling
  dsimp only
  split
  · exact Dry.stands_of rfl rfl
  · split
    · refine ⟨rfl, fun i x hi hx => ?_⟩
      show (s.dry.plan.map fun x => if s.dry.noStapleFires s.finisher.sheets x then { x with spent := true } else x)[i]? = some x
      rw [List.getElem?_map, hi]
      refine congrArg some (if_neg ?_)
      simp [Dry.noStapleFires, hx]
    · exact Dry.stands_of rfl rfl

theorem Part.enterEjecting_stands (s : Part) (part : Bool) : s.dry.stands (s.enterEjecting part).dry := by
  unfold Part.enterEjecting
  dsimp only
  split <;> exact Dry.stands_of rfl rfl

theorem Part.judgeFinisher_stands (s : Part) : s.dry.stands s.judgeFinisher.dry := by
  have closure := s.judgeClosure_via.dry_eq rfl
  rw [← closure]
  rcases s.judgeFinisher_cases with ⟨e, -⟩ | ⟨-, ⟨-, -, e⟩ | ⟨-, -, -, -, -, -, e⟩ | ⟨-, -, -, e⟩ | ⟨-, e⟩⟩ <;> rw [e]
  · exact Dry.stands_of rfl rfl
  · rw [Part.completeEject_dry]
    exact Dry.stands_of rfl rfl
  · exact Part.enterStapling_stands _
  · exact Part.enterEjecting_stands _ _
  · exact Part.enterEjecting_stands _ _

theorem Part.judgeSet_standsDry (s : Part) : s.dry.stands s.judgeSet.dry := by
  have e := s.judgeGates_via.dry_eq rfl
  rw [← e]
  exact Part.judgeFinisher_stands _

/-! ## The next step armed (R72) -/

/-- The expected arrival of a sheet at its next step. -/
def Part.expectOf (s : Part) (x : Sheet) : Option Expect :=
  x.nextStep.map fun y => expectAt s.force.timing s.speed x.anchor y.dist (s.stations[y.station]).offset

/-- A sheet armed for its next step. -/
def Sheet.armed (x : Sheet) (e : Option Expect) : Sheet := { x with expect := e, deadline := e.map Expect.deadline }

theorem Part.sheet?_number {n : Nat} {x : Sheet} (h : s.sheet? n = some x) : x.number = n ∧ x ∈ s.table.sheets := by
  unfold Part.sheet? at h
  exact ⟨by simpa using List.find?_some h, List.mem_of_find?_eq_some h⟩

theorem Part.scheduleLeading_sheets (s : Part) (x : Sheet) (st : Fin 24) (T : Nat) : (s.scheduleLeading x st T).table = s.table :=
  (s.scheduleLeading_via x st T).table_eq rfl

/-- What arming the next step does to the table. -/
theorem Part.armNext_table {n : Nat} {x : Sheet} (h : s.sheet? n = some x) : (s.armNext n).table.sheets =
    s.table.sheets.map fun y => if y.number = n then y.armed (s.expectOf x) else y := by
  unfold Part.armNext Part.expectOf
  rw [h]
  dsimp only
  cases x.nextStep with
  | none => rfl
  | some step =>
    dsimp only
    rw [Part.scheduleLeading_sheets]
    rfl

/-- What the generator schedules for it. -/
theorem Part.armNext_scheduled {n : Nat} {x : Sheet} {step : Step} (h : s.sheet? n = some x) (hn : x.nextStep = some step)
    (on : s.dry.on = true) :
    s.scheduledEdge s.tick n step.station x.anchor (transit step.dist s.speed) (dwell x.media s.speed) (s.armNext n) := by
  have e : s.armNext n = (s.modSheet n fun y => y.armed (s.expectOf x)).scheduleLeading x step.station (transit step.dist s.speed) := by
    unfold Part.armNext Part.expectOf
    rw [h]
    dsimp only
    rw [hn]
    rfl
  have scheduled := Part.scheduleLeading_scheduled (s := s.modSheet n fun y => y.armed (s.expectOf x)) on x step.station
    (transit step.dist s.speed)
  rw [e]
  have number := (Part.sheet?_number h).1
  rw [number] at scheduled
  exact Part.scheduledEdge.of scheduled rfl

end Sys2Proof.Machine
end

