-- ==== Sys2Proof/Proofs/PickMade.lean ====
section
/-! PROOF. The pick made, and O43. -/

namespace Sys2Proof.Machine

variable {s t u p : Part} {n : NextPage} {v : Tick}

/-! ## What the pick makes (R55, R56, R61) -/

/-- The interval a pick reserves at the merge. -/
def Part.feedResv (s : Part) (n : NextPage) : Resv :=
  ⟨s.feed.nextSheet, .feed, s.pickLead n s.tick, plusTicks (s.pickLead n s.tick) (dwell n.front.media s.speed)⟩

/-- What a pick leaves behind. -/
structure Part.made (s : Part) (n : NextPage) (q : Part) : Prop where
  via : Via [.link, .notices, .calls, .intake, .gate, .feed, .out, .table, .planner, .finisher, .stats, .dry] s q
  number : q.feed.nextSheet = s.feed.nextSheet + 1
  timer : q.feed.pickTimer = none
  unconfirmed : q.feed.unconfirmed = some s.feed.nextSheet
  clutch : q.out.clutch[n.unit] = true
  merge : q.feed.merge = insertResv (s.feedResv n) (s.feed.merge.filter fun r => r.sheet != s.feed.nextSheet)
  scheduled : s.dry.on = true → ∀ z ∈ (s.force.itinerary n.kind n.unit n.front.destination).head?,
    s.scheduledEdge s.tick s.feed.nextSheet z.station s.tick (transit z.dist s.speed) (dwell n.front.media s.speed) q
  sheets : q.table.sheets = s.table.sheets ++ [(s.newSheet n).armed (s.expectOf (s.newSheet n))]
  queues : ∀ x : Queue, q.intake.queue x = if n.source = some x then (s.intake.queue x).drop n.pages.length else s.intake.queue x
  list : q.planner.list = if n.source.isSome then s.planner.list else s.planner.list.drop n.pages.length
  tray : countedUp s.stats.traySet.width (s.stats.tray[n.unit]) (q.stats.tray[n.unit]) 0
  path : countedUp s.stats.pathSet.width s.stats.path q.stats.path 0

/-- The part once the picked sheet has joined the table. -/
def Part.joined (s : Part) (n : NextPage) : Part := (s.takeNext n).joinTable (s.newSheet n)

theorem Part.pickCore_joined (s : Part) (n : NextPage) : s.pickCore n =
    (((((s.joined n).armNext s.feed.nextSheet).reserve (s.newSheet n) .feed (feedLegOf n.unit)).modOut fun o =>
      { o with clutch := o.clutch.set n.unit true }).callFront (s.newSheet n) n.front).notePick n := rfl

theorem Part.joined_via (s : Part) (n : NextPage) : Via [.notices, .intake, .planner, .table] s (s.joined n) :=
  ((s.takeNext_via n).mono rfl).andThen (Part.joinTable_via ..) rfl

theorem Part.joined_sheets (s : Part) (n : NextPage) : (s.joined n).table.sheets = s.table.sheets ++ [s.newSheet n] := by
  have e : (s.joined n).table.sheets = (s.takeNext n).table.sheets ++ [s.newSheet n] := rfl
  rw [e, (s.takeNext_via n).table_eq rfl]

theorem Part.joined_finds (s : Part) (n : NextPage) (fresh : ∀ x ∈ s.table.sheets, x.number ≠ s.feed.nextSheet) :
    (s.joined n).sheet? s.feed.nextSheet = some (s.newSheet n) := by
  unfold Part.sheet?
  rw [s.joined_sheets, List.find?_append, List.find?_eq_none.mpr fun x hx => by simpa using fresh x hx]
  simp [Part.newSheet]

theorem Part.pickCore_joins (s : Part) (n : NextPage) (fresh : ∀ x ∈ s.table.sheets, x.number ≠ s.feed.nextSheet) :
    (s.pickCore n).table.sheets = s.table.sheets ++ [(s.newSheet n).armed (s.expectOf (s.newSheet n))] := by
  have via := s.joined_via n
  have expect : (s.joined n).expectOf (s.newSheet n) = s.expectOf (s.newSheet n) := by
    unfold Part.expectOf Part.speed
    rw [via.force_eq rfl, via.feed_eq rfl, via.stations_eq rfl]
  rw [s.pickCore_joined, (Part.notePick_via ..).table_eq rfl, (Part.callFront_via ..).table_eq rfl, Part.modOut_table,
    (Part.reserve_via ..).table_eq rfl, Part.armNext_table (s.joined_finds n fresh), s.joined_sheets, expect, List.map_append]
  have kept : s.table.sheets.map (fun y => if y.number = s.feed.nextSheet then y.armed (s.expectOf (s.newSheet n)) else y) =
      s.table.sheets := (List.map_congr_left fun x hx => if_neg (fresh x hx)).trans (List.map_id' _)
  rw [kept, List.map_singleton, if_pos (show (s.newSheet n).number = s.feed.nextSheet from rfl)]

theorem Part.reserve_merge (s : Part) (x : Sheet) (kind : ResvKind) (leg : LegName) : (s.reserve x kind leg).feed.merge =
    insertResv ⟨x.number, kind, (s.predictFrom s.tick leg 0 x.media).1, (s.predictFrom s.tick leg 0 x.media).2⟩
      (s.feed.merge.filter fun r => r.sheet != x.number) := rfl

/-- Predictions read the tick, the description, the class and the learned offsets. -/
theorem Part.predictFrom_of (force : t.force = s.force) (cls : t.feed.cls = s.feed.cls) (stations : t.stations = s.stations)
    (a : Tick) (leg : LegName) (k media : Nat) : t.predictFrom a leg k media = s.predictFrom a leg k media := by
  unfold Part.predictFrom Part.predict Part.speed
  rw [force, cls, stations]

theorem Part.pickCore_reserves (s : Part) (n : NextPage) :
    (s.pickCore n).feed.merge = insertResv (s.feedResv n) (s.feed.merge.filter fun r => r.sheet != s.feed.nextSheet) := by
  have via : Via [.notices, .intake, .planner, .table, .dry] s ((s.joined n).armNext s.feed.nextSheet) :=
    ((s.joined_via n).mono rfl).andThen (Part.armNext_via ..) rfl
  rw [s.pickCore_joined, Part.notePick_feed]
  dsimp only
  rw [(Feed.bound_kept _ n).2.2.2.1, (Part.callFront_via ..).feed_eq rfl, Part.modOut_feed, Part.reserve_merge, via.feed_eq rfl,
    Part.predictFrom_of (via.force_eq rfl) (by rw [via.feed_eq rfl]) (via.stations_eq rfl), via.tick_eq rfl]
  have lead : (s.predictFrom s.tick (feedLegOf n.unit) 0 (s.newSheet n).media).1 = s.pickLead n s.tick := s.pickLead_eq n s.tick
  have trail : (s.predictFrom s.tick (feedLegOf n.unit) 0 (s.newSheet n).media).2 =
      plusTicks (s.predictFrom s.tick (feedLegOf n.unit) 0 (s.newSheet n).media).1 (dwell n.front.media s.speed) := rfl
  rw [trail, lead]
  rfl

theorem Part.pickCore_schedules (s : Part) (n : NextPage) (fresh : ∀ x ∈ s.table.sheets, x.number ≠ s.feed.nextSheet) (on : s.dry.on = true)
    (z : Step) (hz : z ∈ (s.force.itinerary n.kind n.unit n.front.destination).head?) :
    s.scheduledEdge s.tick s.feed.nextSheet z.station s.tick (transit z.dist s.speed) (dwell n.front.media s.speed) (s.pickCore n) := by
  have via := s.joined_via n
  have next : (s.newSheet n).nextStep = some z := by
    have first : (s.newSheet n).nextStep = (s.force.itinerary n.kind n.unit n.front.destination)[0]? := rfl
    rw [first, ← List.head?_eq_getElem?]
    exact hz
  have scheduled := Part.armNext_scheduled (s.joined_finds n fresh) next (by rw [via.dry_eq rfl, on])
  have speed : (s.joined n).speed = s.speed := by unfold Part.speed; rw [via.force_eq rfl, via.feed_eq rfl]
  rw [via.tick_eq rfl, speed] at scheduled
  refine (scheduled.of (via.dry_eq rfl)).keep ?_
  rw [s.pickCore_joined, (Part.notePick_via ..).dry_eq rfl, (Part.callFront_via ..).dry_eq rfl, Part.modOut_dry,
    (Part.reserve_via ..).dry_eq rfl]
  exact Dry.stands_of rfl rfl

/-! ## With its counts and the judgements that follow (R85, R86, R150) -/

theorem Part.countTray_raised (s : Part) (u : Fin 5) (c : Fin 3) :
    countedUp s.stats.traySet.width (s.stats.tray[u]) ((s.countTray u c).stats.tray[u]) c := by
  have tray : (s.countTray u c).stats.tray = s.stats.tray.set u ((s.stats.tray[u]).set c (raised s.stats.traySet.width (s.stats.tray[u])[c])) := by
    unfold Part.countTray
    rw [Part.judgeWatermark_stats, (Stats.judged_records _ _).2.1]
    rfl
  have row : (s.countTray u c).stats.tray[u] = (s.stats.tray[u]).set c (raised s.stats.traySet.width (s.stats.tray[u])[c]) := by
    rw [tray]
    exact Vector.getElem_set_self _
  unfold countedUp
  rw [row]
  exact Vector.getElem_set_self _

theorem Part.countPath_tray (s : Part) (c : Fin 10) : (s.countPath c).stats.tray = s.stats.tray := by
  unfold Part.countPath
  rw [Part.judgeWatermark_stats, (Stats.judged_records _ _).2.1]
  rfl

theorem Part.countTray_width (s : Part) (u : Fin 5) (c : Fin 3) : (s.countTray u c).stats.pathSet.width = s.stats.pathSet.width := by
  unfold Part.countTray
  rw [Part.judgeWatermark_stats, (Stats.judged_records _ _).2.2.2.1]
  rfl

theorem Part.endFinal_tray (s : Part) : s.endFinal.stats.tray = s.stats.tray := by
  have noted : ∀ (r : Part) (b : Bool) (g : Notices → Notices), (if b then r.modNotices g else r).stats = r.stats := fun r b g => by
    cases b <;> rfl
  unfold Part.endFinal
  dsimp only
  simp only [Part.modFinisher_stats, noted]
  split
  · rfl
  · exact s.countPath_tray 8

theorem Part.endEject_tray (s : Part) (part : Bool) : (if part then s.endPartial else s.endFinal).stats.tray = s.stats.tray := by
  cases part
  · exact s.endFinal_tray
  · rfl

theorem Part.completeEject_tray (s : Part) : s.completeEject.stats.tray = s.stats.tray := by
  unfold Part.completeEject
  dsimp only
  rw [Part.endEject_tray, (Part.deliverPages_via ..).stats_eq rfl]
  rfl

theorem Part.judgeSet_tray (s : Part) : s.judgeSet.stats.tray = s.stats.tray := by
  have stats : s.judgeGates.judgeClosure.stats = s.stats :=
    ((Part.judgeClosure_via _).stats_eq rfl).trans (s.judgeGates_via.stats_eq rfl)
  have same : ∀ q : Part, q.stats = s.judgeGates.judgeClosure.stats → q.stats.tray = s.stats.tray := fun q e => by rw [e, stats]
  unfold Part.judgeSet
  rcases s.judgeGates.judgeFinisher_cases with ⟨e, -⟩ | ⟨-, ⟨-, -, e⟩ | ⟨-, -, -, -, -, -, e⟩ | ⟨-, -, -, e⟩ | ⟨-, e⟩⟩ <;> rw [e]
  · exact same _ rfl
  · rw [Part.completeEject_tray]
    exact same s.judgeGates.judgeClosure rfl
  · exact same _ ((Part.enterStapling_via _).stats_eq rfl)
  · exact same _ ((Part.enterEjecting_via ..).stats_eq rfl)
  · exact same _ ((Part.enterEjecting_via ..).stats_eq rfl)

theorem Part.makePick_made (s : Part) (n : NextPage) (fresh : ∀ x ∈ s.table.sheets, x.number ≠ s.feed.nextSheet) :
    s.made n (s.makePick n) := by
  have counts : Via [.notices, .stats] (s.pickCore n) (((s.pickCore n).countTray n.unit 0).countPath 0) :=
    ((Part.countTray_via ..).mono rfl).andThen (Part.countPath_via ..) rfl
  have core := s.pickCore_via n
  have e : s.makePick n = (((s.pickCore n).countTray n.unit 0).countPath 0).judgeSet := rfl
  have feed := s.makePick_feed n
  have set := (((s.pickCore n).countTray n.unit 0).countPath 0).judgeSet_via
  have out := (((s.pickCore n).countTray n.unit 0).countPath 0).judgeSet_out
  have intake := (((s.pickCore n).countTray n.unit 0).countPath 0).judgeSet_intake
  have dry := (((s.pickCore n).countTray n.unit 0).countPath 0).judgeSet_standsDry
  rw [← e] at set out intake dry
  obtain ⟨m, picked⟩ := s.pickCore_feed n
  constructor
  case via => exact ((core.mono rfl).andThen counts rfl).andThen set rfl
  case number => rw [feed, picked]
  case timer => rw [feed, picked]
  case unconfirmed => rw [feed, picked]
  case clutch =>
    rw [Outputs.clutch_of_fed out, counts.out_eq rfl, s.pickCore_out n]
    simp
  case merge => rw [feed, s.pickCore_reserves]
  case scheduled =>
    intro on z hz
    refine (s.pickCore_schedules n fresh on z hz).keep ?_
    rwa [counts.dry_eq rfl] at dry
  case sheets => rw [set.table_eq rfl, counts.table_eq rfl, s.pickCore_joins n fresh]
  case queues =>
    obtain ⟨-, normal, priority⟩ := s.takeNext_intake n
    rw [intake, counts.intake_eq rfl, s.pickCore_intake n]
    intro x
    cases x
    · exact normal
    · exact priority
  case list => rw [set.planner_eq rfl, counts.planner_eq rfl, s.pickCore_list n]
  case tray =>
    have raised := (s.pickCore n).countTray_raised n.unit 0
    rw [core.stats_eq rfl] at raised
    rwa [e, Part.judgeSet_tray, Part.countPath_tray]
  case path =>
    have raised := ((s.pickCore n).countTray n.unit 0).countPath_raised 0
    unfold countedUp at raised ⊢
    rw [Part.countTray_path, Part.countTray_width, core.stats_eq rfl] at raised
    rwa [e, Part.judgeSet_path _ (by decide)]

/-! ## The judgements after it -/

/-- What follows a pick: shifts of the scheduler that leave the pick timer idle, and the transmitter's turn. -/
structure Part.followsPick (s t : Part) : Prop where
  via : Via [.link, .notices, .calls, .intake, .gate, .feed] s t
  queues : t.intake.normal = s.intake.normal ∧ t.intake.priority = s.intake.priority
  still : t.feed.still = s.feed.still
  timer : s.feed.pickTimer = none → t.feed.pickTimer = none

theorem Part.made.follows (h : s.made n t) (k : t.followsPick u) : s.made n u := by
  have still := k.still
  constructor
  case via => exact h.via.andThen k.via rfl
  case number => exact (congrArg Feed.nextSheet still :).trans h.number
  case timer => exact k.timer h.timer
  case unconfirmed => exact (congrArg Feed.unconfirmed still :).trans h.unconfirmed
  case clutch => rw [k.via.out_eq rfl, h.clutch]
  case merge => exact (congrArg Feed.merge still :).trans h.merge
  case scheduled => exact fun on z hz => (h.scheduled on z hz).keep (by rw [k.via.dry_eq rfl]; exact Dry.stands_of rfl rfl)
  case sheets => rw [k.via.table_eq rfl, h.sheets]
  case queues =>
    intro x
    rw [← h.queues x]
    cases x
    · exact k.queues.1
    · exact k.queues.2
  case list => rw [k.via.planner_eq rfl, h.list]
  case tray => rw [k.via.stats_eq rfl]; exact h.tray
  case path => rw [k.via.stats_eq rfl]; exact h.path

theorem Part.followsPick.trans (h : s.followsPick t) (k : t.followsPick u) : s.followsPick u :=
  ⟨h.via.trans k.via, ⟨k.queues.1.trans h.queues.1, k.queues.2.trans h.queues.2⟩, k.still.trans h.still, fun e => k.timer (h.timer e)⟩

theorem Part.serves.followsPick (h : s.serves t) : s.followsPick t :=
  ⟨h.via.mono rfl, h.queues, by rw [h.via.feed_eq rfl], fun e => by rwa [h.via.feed_eq rfl]⟩

theorem Part.shifts.followsPick (h : s.shifts t) (timer : s.feed.pickTimer = none → t.feed.pickTimer = none) : s.followsPick t :=
  ⟨h.1.mono rfl, by rw [h.1.intake_eq rfl]; exact ⟨rfl, rfl⟩, h.2, timer⟩

/-- While a pick is unconfirmed none is made (R57). -/
theorem Part.unconfirmed_still (h : s.feed.unconfirmed.isSome = true) (n : NextPage) : s.pickHolds n = false := by
  rw [← Bool.not_eq_true]
  intro holds
  have free := ((s.pickHolds_iff n).mp holds).2.2.1
  rw [free] at h
  cases h

theorem Part.unconfirmed_running (h : s.feed.unconfirmed.isSome = true) (hp : s.feed.path = .running) : s.followsPick s.judgeRunning ∧
    (s.judgeRunning.feed.path = .running ∨ s.judgeRunning.feed.path = .draining) := by
  refine ⟨?_, Part.judgeRunning_path hp⟩
  have waits : s.looked.feed.unconfirmed.isSome = true := by rwa [s.looked_shifts.feed_eq Feed.unconfirmed]
  rcases Part.judgeRunning_cases hp with ⟨-, e⟩ | ⟨-, v, j, e⟩ | ⟨-, n, picks, -⟩
  · rw [e]
    exact (s.judgeSelector_shifts.trans (Part.enterDraining_shifts _)).followsPick fun _ => by rw [Part.enterDraining_feed]
  · have cancels : s.looked.judgePick = s.looked.modFeed fun f => { f with pickTimer := none } := by
      unfold Part.judgePick
      dsimp only
      split
      · rfl
      · next n _ => rw [Part.unconfirmed_still waits n, if_neg Bool.false_ne_true]
    have timer := congrArg (fun q : Part => q.feed.pickTimer) (cancels.symm.trans j)
    rw [e]
    exact (s.looked_shifts.trans (Part.pickTimer_shifts _ v)).followsPick fun _ => timer.symm
  · have holds := picks.holds
    rw [show s.judgeSelector.judgeHoldoff.pickHolds n = false from Part.unconfirmed_still waits n] at holds
    cases holds

theorem Part.unconfirmed_feed (h : s.feed.unconfirmed.isSome = true) (hp : s.feed.path = .running ∨ s.feed.path = .draining) :
    s.followsPick s.judgeFeed := by
  rcases hp with hp | hp
  · have e : s.judgeFeed = s.judgeRunning := by unfold Part.judgeFeed; rw [hp]
    rw [e]
    exact (Part.unconfirmed_running h hp).1
  · have e : s.judgeFeed = s.judgeDraining := by unfold Part.judgeFeed; rw [hp]
    have sel := s.judgeSelector_shifts
    have selected : s.followsPick s.judgeSelector := sel.followsPick fun k => by rwa [s.judgeSelector_timer]
    rw [e]
    unfold Part.judgeDraining
    dsimp only
    split
    · have back : s.judgeSelector.followsPick s.judgeSelector.returnToRunning :=
        (Part.returnToRunning_shifts _).followsPick fun k => by rw [Part.returnToRunning_feed]; exact k
      refine (selected.trans back).trans (Part.unconfirmed_running ?_ ?_).1
      · rwa [Part.returnToRunning_feed, sel.feed_eq Feed.unconfirmed]
      · rw [Part.returnToRunning_feed]
    · exact selected

end Sys2Proof.Machine
end

