-- ==== Sys2Proof/Proofs/PickEvents.lean ====
section
/-! PROOF. PICK and PICK_TIMER_EXPIRY (O43). -/

namespace Sys2Proof.Machine

variable {s t u p : Part} {n : NextPage} {v : Tick}

/-! ## The two commands (R60) -/

/-- The command of a pick, or of the pick timer's expiry with no set cycle due. -/
abbrev Part.picking (p : Part) (c : Instr) (t : Tick) : Prop :=
  c = .pick t ∨ (c = .pickTimerExpiry ∧ p.feed.pickTimer = some t ∧ p.judgeClosure.cycleReady = false)

/-- The part on which a pick's event judges RUNNING. -/
structure Part.pickMet (p : Part) (t : Tick) (s : Part) : Prop where
  via : Via [.tick, .feed, .out, .finisher] p s
  tick : s.tick = laterOf p.tick t
  feed : s.feed = p.feed ∨ s.feed = { p.feed with pickTimer := none }
  alike : (p.atTick t).picksAlike s

theorem exec_picking {w : List Instr} {c : Instr} {t : Tick} (h : p.picking c t) (hp : p.feed.path = .running) :
    ∃ s g, p.pickMet t s ∧ g (p.advance t) = s.judgeFeed ∧ exec c ⟨w, p⟩ = .next ⟨w, p.event t g⟩ := by
  rcases h with rfl | ⟨rfl, timer, unready⟩
  · refine ⟨p.advance t, fun p => if p.feed.path = .running then p.judgeRunning else p, ?_, ?_, rfl⟩
    · exact ⟨(p.advance_via t).mono rfl, rfl, .inl rfl, ⟨rfl, rfl, rfl, rfl, rfl, rfl, rfl, rfl, rfl, rfl, rfl, le_rfl⟩⟩
    · have running : (p.advance t).feed.path = .running := hp
      dsimp only
      rw [if_pos running]
      unfold Part.judgeFeed
      rw [running]
  · let r := (p.advance t).modFeed fun f => { f with pickTimer := none }
    have path : r.feed.path = .running := hp
    have waits : r.judgeClosure.cycleReady = false :=
      (Part.judgeClosure_ready (s := p) (t := r) rfl rfl rfl rfl rfl).trans unready
    have closes := r.closes_picksAlike
    have via : Via [.out, .finisher] r r.judgeGates.judgeClosure := (r.judgeGates_via.mono rfl).andThen (Part.judgeClosure_via _) rfl
    refine ⟨r.judgeGates.judgeClosure, fun p => (p.modFeed fun f => { f with pickTimer := none }).judge, ?_, ?_, ?_⟩
    · exact ⟨(((p.advance_via t).mono rfl).feed _ rfl).andThen via rfl, via.tick_eq rfl, .inr (via.feed_eq rfl),
        (show (p.atTick t).picksAlike r from ⟨rfl, rfl, rfl, rfl, rfl, rfl, rfl, rfl, rfl, rfl, rfl, le_rfl⟩).trans closes⟩
    · have judged : r.judge = r.judgeGates.judgeClosure.judgeFeed := by
        rw [Part.judge_unheld (by rw [path]; exact nofun), Part.judgeSet_unready waits]
      exact judged
    · exact exec_expiry (g := fun p => (p.modFeed fun f => { f with pickTimer := none }).judge) (timer := fun p => p.feed.pickTimer)
        (fun _ => rfl) timer

theorem Part.pickMet.upFor (h : p.pickMet v s) (up : p.upFor n) : s.upFor n := by
  have next : s.nextUp = p.nextUp := by
    unfold Part.nextUp Part.activeQueue
    rcases h.feed with e | e <;> rw [e, h.via.intake_eq rfl, h.via.planner_eq rfl]
  obtain ⟨path, nextUp, hold, numbers, cls⟩ := up
  rcases h.feed with e | e
  · exact ⟨by rw [e, path], by rw [next, nextUp], by rw [e, hold], by rw [e, numbers], by rw [e, cls]⟩
  · exact ⟨by rw [e]; exact path, by rw [next, nextUp], by rw [e]; exact hold, by rw [e]; exact numbers, by rw [e]; exact cls⟩

theorem Part.pickMet.passes {g : Part → Part} (h : p.pickMet v s) (hg : g (p.advance v) = s.judgeFeed) :
    p.passesTo v (p.event v g) ∧ (p.event v g).lines = p.lines ∧ p.event v g = s.judgeFeed.conclude := by
  have judged := s.judgeFeed_via
  obtain ⟨passes, lines⟩ := Part.event_passes_of (p := p) (t := v) (g := g) (by rw [hg, judged.tick_eq rfl, h.tick])
    (by rw [hg, judged.link_eq rfl, h.via.link_eq rfl]) (by rw [hg, judged.stored_eq rfl, h.via.stored_eq rfl])
    (by rw [hg, judged.force_eq rfl, h.via.force_eq rfl]) (by rw [hg, judged.mask_eq rfl, h.via.mask_eq rfl])
  exact ⟨passes, by rw [lines, hg, judged.lines_eq rfl, h.via.lines_eq rfl], Part.event_eq hg⟩

/-- The pick timer armed stays so through the transmitter's turn (R60). -/
theorem Part.upFor.arms_ends (h : s.upFor n) (holds : s.pickHolds n = true) (tick : s.pickTick n = some v)
    (early : notAfter v s.tick = false) :
    s.judgeFeed.conclude.feed.path = .running ∧ s.judgeFeed.conclude.feed.pickTimer = some v ∧
      s.judgeFeed.conclude.table = s.table ∧ s.judgeFeed.conclude.feed.unconfirmed = none := by
  have first := h.arms holds tick early
  have up := first.upFor h
  have alike := first.shifts.picksAlike
  have confirmed := ((s.pickHolds_iff n).mp holds).2.2.1
  generalize s.judgeFeed = r at first up alike
  rcases r.conclude_turns with k | ⟨u, k, j⟩
  · have feed := k.via.feed_eq rfl
    exact ⟨by rw [feed, first.path], by rw [feed, first.timer], by rw [k.via.table_eq rfl, first.shifts.1.table_eq rfl],
      by rw [feed, first.shifts.feed_eq Feed.unconfirmed, confirmed]⟩
  · have alike' := alike.trans k.picksAlike
    have again := (up.serves k).arms (alike'.holds holds) ((alike'.pickTick n).trans tick) (by rw [alike'.tick, early])
    have feed := j.via.feed_eq rfl
    refine ⟨by rw [feed, again.path], by rw [feed, again.timer], ?_, ?_⟩
    · rw [j.via.table_eq rfl, again.shifts.1.table_eq rfl, alike'.table]
    · rw [feed, again.shifts.feed_eq Feed.unconfirmed, alike'.unconfirmed, confirmed]

/-- The pick made stands through the judgements that follow and the transmitter's turn (R61). -/
theorem Part.upFor.picked_ends (h : s.upFor n) (holds : s.pickHolds n = true) (tick : s.pickTick n = some v)
    (due : notAfter v s.tick = true) (fresh : ∀ x ∈ s.table.sheets, x.number ≠ s.feed.nextSheet) :
    s.looked.made n s.judgeFeed.conclude := by
  have look := s.looked_shifts
  obtain ⟨shifts, timer, path⟩ := h.picked holds tick due
  have fresh' : ∀ x ∈ s.looked.table.sheets, x.number ≠ s.looked.feed.nextSheet := by
    rw [look.1.table_eq rfl, look.feed_eq Feed.nextSheet]
    exact fresh
  generalize s.looked = l at shifts fresh' ⊢
  have follows : (l.makePick n).followsPick s.judgeFeed := shifts.followsPick fun _ => timer
  have made := (l.makePick_made n fresh').follows follows
  have unconfirmed : s.judgeFeed.feed.unconfirmed.isSome = true := by rw [made.unconfirmed]; rfl
  generalize s.judgeFeed = r at made path unconfirmed
  rcases r.conclude_turns with k | ⟨u, k, j⟩
  · exact made.follows k.followsPick
  · have feed := k.via.feed_eq rfl
    exact ((made.follows k.followsPick).follows (Part.unconfirmed_feed (by rwa [feed]) (by rwa [feed]))).follows j.followsPick

/-! ## What the statements say (R57, R60, R61) -/

theorem picking_cancelled {w : List Instr} {c : Instr} {t : Tick} (hc : p.picking c t) (up : p.upFor n) (fails : ¬ (p.atTick t).mayPick n)
    (sending : p.link.sending.isSome = true) : Completes c ⟨w, p⟩ fun q =>
      p.passesTo t q ∧ q.lines = p.lines ∧ q.feed.path = .running ∧ q.feed.pickTimer = none ∧ q.table = p.table := by
  obtain ⟨s, g, met, hg, e⟩ := exec_picking (w := w) hc up.path
  refine completes_next e ?_
  obtain ⟨passes, lines, q⟩ := met.passes hg
  have alike := met.alike
  have back : s.picksAlike (p.atTick t) := ⟨alike.tick.symm, alike.lines.symm, alike.force.symm, alike.table.symm, alike.stations.symm,
    alike.dry.symm, alike.cls.symm, alike.unconfirmed.symm, alike.merge.symm, alike.finisher.symm, alike.count.symm,
    by rw [met.via.calls_eq rfl]; exact le_rfl⟩
  have fails' : s.pickHolds n = false := by
    rw [← Bool.not_eq_true]
    exact fun holds => fails (((p.atTick t).pickHolds_spelled n).mp (back.holds holds))
  have waits := (met.upFor up).cancels fails'
  have silent : s.judgeFeed.link.sending.isSome = true := by rwa [s.judgeFeed_via.link_eq rfl, met.via.link_eq rfl]
  rw [Part.conclude_sending _ silent] at q
  rw [q] at passes lines ⊢
  exact ⟨passes, lines, waits.path, waits.timer, by rw [waits.shifts.1.table_eq rfl, met.via.table_eq rfl]⟩

theorem picking_armed {w : List Instr} {c : Instr} {t u : Tick} (hc : p.picking c t) (up : p.upFor n) (may : (p.atTick t).mayPick n)
    (tick : (p.atTick t).picksAt n u) (early : notAfter u (laterOf p.tick t) = false) : Completes c ⟨w, p⟩ fun q =>
      p.passesTo t q ∧ q.lines = p.lines ∧ q.feed.path = .running ∧ q.feed.pickTimer = some u ∧ q.table = p.table ∧
      q.feed.unconfirmed = none := by
  obtain ⟨s, g, met, hg, e⟩ := exec_picking (w := w) hc up.path
  refine completes_next e ?_
  obtain ⟨passes, lines, q⟩ := met.passes hg
  obtain ⟨path, timer, table, unconfirmed⟩ := (met.upFor up).arms_ends (met.alike.holds (((p.atTick t).pickHolds_spelled n).mpr may))
    ((met.alike.pickTick n).trans (Part.pickTick_of_picksAt tick)) (by rw [met.tick, early])
  rw [q] at passes lines ⊢
  exact ⟨passes, lines, path, timer, by rw [table, met.via.table_eq rfl], unconfirmed⟩

/-- The interval of the picked sheet is the only one of its number. -/
theorem filter_insertResv (r : Resv) (l : List Resv) :
    (insertResv r (l.filter fun x => x.sheet != r.sheet)).filter (fun x => x.sheet == r.sheet) = [r] := by
  have none : ∀ k : List Resv, (∀ x ∈ k, x ∈ l.filter fun x => x.sheet != r.sheet) → k.filter (fun x => x.sheet == r.sheet) = [] :=
    fun k hk => List.filter_eq_nil_iff.mpr fun x hx => by
      have ne := (List.mem_filter.mp (hk x hx)).2
      simpa using ne
  unfold insertResv
  rw [List.filter_append, List.filter_cons, none _ fun x hx => List.takeWhile_subset _ hx,
    none _ fun x hx => (List.dropWhile_sublist _).subset hx]
  simp

/-- The sheet a pick adds, as the statements spell its record. -/
def Part.pickedSheet (p : Part) (n : NextPage) (now : Tick) (y : Sheet) : Prop :=
  let num := p.feed.nextSheet
  let bind := fun x : Page => if n.source.isSome then { x with origin := some num } else x
  y.number = num ∧ y.source = n.unit ∧ y.kind = n.kind ∧
    y.front = some (bind n.front) ∧ y.back = n.back.map bind ∧ y.blankBack = (n.kind == .duplex && n.back.isNone) ∧
    y.job = n.front.job ∧ y.set = n.front.set ∧ y.firstOfSet = n.front.firstOfSet ∧
    y.lastOfSet = (n.front.lastOfSet || n.back.any Page.lastOfSet) ∧ y.staple = n.front.staple ∧ y.media = n.front.media ∧
    y.cls = n.front.cls ∧ y.dest = n.front.destination ∧ y.pass = (if n.kind = .duplex then .first else .final) ∧
    y.itinerary = p.force.itinerary n.kind n.unit n.front.destination ∧ y.index = 0 ∧ y.attempts = 1 ∧ y.anchor = now ∧
    y.cond = .normal ∧ y.released = false ∧ y.covering = none ∧
    y.expect = (y.itinerary.head?).map (fun z =>
      expectAt p.force.timing p.speed now z.dist (p.stations[z.station]).offset) ∧
    y.deadline = y.expect.map fun z => plusTicks z.e z.wj

theorem Part.newSheet_picked (s : Part) (n : NextPage) :
    s.pickedSheet n s.tick ((s.newSheet n).armed (s.expectOf (s.newSheet n))) := by
  have last : (s.newSheet n).lastOfSet = (n.front.lastOfSet || n.back.any Page.lastOfSet) := by
    have e : (s.newSheet n).lastOfSet = n.pages.any Page.lastOfSet := rfl
    rw [e]
    unfold NextPage.pages
    cases n.back <;> simp
  have expect : s.expectOf (s.newSheet n) = ((s.newSheet n).itinerary.head?).map fun z =>
      expectAt s.force.timing s.speed s.tick z.dist (s.stations[z.station]).offset := by
    have next : (s.newSheet n).nextStep = (s.newSheet n).itinerary.head? := List.head?_eq_getElem?.symm
    unfold Part.expectOf
    rw [next]
    rfl
  exact ⟨rfl, rfl, rfl, rfl, rfl, rfl, rfl, rfl, rfl, last, rfl, rfl, rfl, rfl, rfl, rfl, rfl, rfl, rfl, rfl, rfl, rfl, expect, rfl⟩

/-- What a pick's statement reads of the part it is told of. -/
structure Part.pickSame (p : Part) (now : Tick) (l : Part) : Prop where
  via : Via [.tick, .notices, .feed, .out, .finisher] p l
  tick : l.tick = now
  number : l.feed.nextSheet = p.feed.nextSheet
  cls : l.feed.cls = p.feed.cls
  merge : l.feed.merge = p.feed.merge

theorem Part.pickSame.speed {now : Tick} (h : p.pickSame now s) : s.speed = p.speed := by
  unfold Part.speed
  rw [h.via.force_eq rfl, h.cls]

theorem Part.pickSame.lead {now : Tick} (h : p.pickSame now s) (n : NextPage) (a : Tick) : s.pickLead n a = p.pickLead n a := by
  unfold Part.pickLead Part.rollerLead
  rw [h.via.force_eq rfl, h.speed, h.via.stations_eq rfl]

theorem Part.pickSame.sheet {now : Tick} (h : p.pickSame now s) {y : Sheet} (k : s.pickedSheet n s.tick y) : p.pickedSheet n now y := by
  unfold Part.pickedSheet at k ⊢
  rwa [h.tick, h.number, h.via.force_eq rfl, h.speed, h.via.stations_eq rfl] at k

theorem picking_picks {w : List Instr} {c : Instr} {t u : Tick} (hc : p.picking c t) (up : p.upFor n) (sound : p.tableSound)
    (may : (p.atTick t).mayPick n) (tick : (p.atTick t).picksAt n u) (due : notAfter u (laterOf p.tick t) = true) :
    Completes c ⟨w, p⟩ fun q => p.passesTo t q ∧ q.lines = p.lines ∧
      ∃ l, p.pickSame (laterOf p.tick t) l ∧ l.made n q := by
  obtain ⟨s, g, met, hg, e⟩ := exec_picking (w := w) hc up.path
  refine completes_next e ?_
  obtain ⟨passes, lines, q⟩ := met.passes hg
  have number : s.feed.nextSheet = p.feed.nextSheet := by rcases met.feed with e | e <;> rw [e]
  have cls : s.feed.cls = p.feed.cls := by rcases met.feed with e | e <;> rw [e]
  have merge : s.feed.merge = p.feed.merge := by rcases met.feed with e | e <;> rw [e]
  have made := (met.upFor up).picked_ends (met.alike.holds (((p.atTick t).pickHolds_spelled n).mpr may))
    ((met.alike.pickTick n).trans (Part.pickTick_of_picksAt tick)) (by rw [met.tick, due])
    (by
      rw [met.via.table_eq rfl, number]
      exact fun x hx => (sound.2.1 x hx).ne)
  have look := s.looked_shifts
  rw [q] at passes lines ⊢
  refine ⟨passes, lines, s.looked, ⟨(met.via.mono rfl).andThen look.1 rfl, by rw [look.1.tick_eq rfl, met.tick], ?_, ?_, ?_⟩, made⟩
  · rw [look.feed_eq Feed.nextSheet, number]
  · rw [look.feed_eq Feed.cls, cls]
  · rw [look.feed_eq Feed.merge, merge]

theorem NextPage.pages_length (n : NextPage) : n.pages.length = 1 + n.back.toList.length := Nat.add_comm ..

/-- Settles O43. -/
theorem pickMade : Obligations.PickMade := by
  unfold Obligations.PickMade
  intro w p c t u n sound hc path next hold numbers cls
  have up : p.upFor n := ⟨path, next, hold, numbers, cls⟩
  refine ⟨picking_cancelled hc up, picking_armed hc up, fun may tick due => ?_⟩
  obtain ⟨⟨w', q⟩, e, pending, passes, lines, l, same, made⟩ := picking_picks (w := w) hc up sound may tick due
  refine ⟨⟨w', q⟩, e, pending, passes, lines, ?_, ?_, made.timer, ?_, made.clutch, ?_, ?_, ?_, ?_, ?_, ?_, ?_, ?_⟩
  · exact (made.via.episode_eq rfl).trans (same.via.episode_eq rfl)
  · exact made.number.trans (by rw [same.number])
  · exact made.unconfirmed.trans (by rw [same.number])
  · have merge := made.merge
    rw [same.merge] at merge
    have only := filter_insertResv (l.feedResv n) p.feed.merge
    rw [show (l.feedResv n).sheet = l.feed.nextSheet from rfl, ← merge, same.number] at only
    refine only.trans ?_
    unfold Part.feedResv
    rw [same.number, same.lead, same.tick, same.speed]
  · intro r hr ne
    rw [show q.feed.merge = _ from made.merge]
    refine mem_insertResv.mpr (.inr (List.mem_filter.mpr ⟨by rwa [same.merge], ?_⟩))
    rw [same.number]
    simpa using ne
  · intro on z hz
    have dry := same.via.dry_eq rfl
    have scheduled := made.scheduled (by rw [dry, on]) z (by rwa [same.via.force_eq rfl])
    rw [same.tick, same.number, same.speed] at scheduled
    exact scheduled.of dry
  · refine ⟨_, ?_, same.sheet (l.newSheet_picked n)⟩
    rw [← same.via.table_eq rfl]
    exact made.sheets
  · intro x
    rw [← n.pages_length, ← same.via.intake_eq rfl]
    exact made.queues x
  · rw [← n.pages_length, ← same.via.planner_eq rfl]
    refine made.list.trans ?_
    cases n.source <;> rfl
  · rw [← same.via.stats_eq rfl]
    exact made.tray
  · rw [← same.via.stats_eq rfl]
    exact made.path

end Sys2Proof.Machine
end

