-- ==== Sys2Proof/Proofs/TracksOn.lean ====
section
/-! PROOF. What the judgements at the end of an event and the transmitter's turn keep of a part in RUNNING, DRAINING or HALTING:
all but what one pick at most adds. -/

namespace Sys2Proof.Machine

variable {s t u p : Part} {n : NextPage}

/-! ## The statistics (R85, R152) -/

theorem Part.endEject_stats (s : Part) (part : Bool) : (if part then s.endPartial else s.endFinal).stats = s.stats ∨
    (if part then s.endPartial else s.endFinal).stats = (s.countPath 8).stats := by
  have noted : ∀ (q : Part) (b : Bool) (g : Notices → Notices), (if b then q.modNotices g else q).stats = q.stats := fun q b g => by
    cases b <;> rfl
  cases part
  · show s.endFinal.stats = s.stats ∨ s.endFinal.stats = (s.countPath 8).stats
    unfold Part.endFinal
    dsimp only
    rw [Part.modFinisher_stats, noted]
    split
    · exact .inl rfl
    · exact .inr rfl
  · exact .inl rfl

theorem Part.completeEject_stats (s : Part) : s.completeEject.stats = s.stats ∨
    ∃ r : Part, r.stats = s.stats ∧ s.completeEject.stats = (r.countPath 8).stats := by
  unfold Part.completeEject
  dsimp only
  have delivered := (Part.deliverPages_via (((s.modOut fun o => { o with ejector := false }).modFinisher fun f =>
    { f with ejectLimit := none }).modDry fun d => { d with home := none }) (s.finisher.ident.getD (0, 0)).1
    (s.finisher.sheets.flatMap Held.pages)).stats_eq rfl
  generalize Part.deliverPages _ _ _ = r at delivered ⊢
  rcases r.endEject_stats s.finisher.split with e | e
  · exact .inl (e.trans delivered)
  · exact .inr ⟨r, delivered, e⟩

/-- The judgement of the set counts a set that ends, if anything. -/
theorem Part.judgeSet_stats (s : Part) : s.judgeSet.stats = s.stats ∨ ∃ r : Part, r.stats = s.stats ∧ s.judgeSet.stats = (r.countPath 8).stats := by
  have stats : s.judgeGates.judgeClosure.stats = s.stats :=
    ((Part.judgeClosure_via _).stats_eq rfl).trans (s.judgeGates_via.stats_eq rfl)
  unfold Part.judgeSet
  rcases s.judgeGates.judgeFinisher_cases with ⟨e, -⟩ | ⟨-, ⟨-, -, e⟩ | ⟨-, -, -, -, -, -, e⟩ | ⟨-, -, -, e⟩ | ⟨-, e⟩⟩ <;> rw [e]
  · exact .inl stats
  · rcases Part.completeEject_stats (s.judgeGates.judgeClosure.modFinisher fun f => { f with split := false }) with k | ⟨v, hv, k⟩
    · exact .inl (k.trans stats)
    · exact .inr ⟨v, hv.trans stats, k⟩
  · exact .inl (((Part.enterStapling_via _).stats_eq rfl).trans stats)
  · exact .inl (((Part.enterEjecting_via ..).stats_eq rfl).trans stats)
  · exact .inl (((Part.enterEjecting_via ..).stats_eq rfl).trans stats)

theorem Part.countPath_station (s : Part) (c : Fin 10) : (s.countPath c).stats.station = s.stats.station := by
  unfold Part.countPath
  rw [Part.judgeWatermark_stats, (Stats.judged_records _ _).2.2.1]
  rfl

theorem Part.countTray_station (s : Part) (v : Fin 5) (c : Fin 3) : (s.countTray v c).stats.station = s.stats.station := by
  unfold Part.countTray
  rw [Part.judgeWatermark_stats, (Stats.judged_records _ _).2.2.1]
  rfl

theorem Part.countStation_tray (s : Part) (st : Fin 24) (c : Fin 3) : (s.countStation st c).stats.tray = s.stats.tray := by
  unfold Part.countStation
  rw [Part.judgeWatermark_stats, (Stats.judged_records _ _).2.1]
  rfl

theorem Part.judgeSet_station (s : Part) : s.judgeSet.stats.station = s.stats.station := by
  rcases s.judgeSet_stats with e | ⟨r, hr, e⟩ <;> rw [e]
  rw [Part.countPath_station, hr]

theorem Part.countTray_same (s : Part) {v w : Fin 5} {c d : Fin 3} (h : c ≠ d) :
    ((s.countTray v c).stats.tray[w])[d] = (s.stats.tray[w])[d] := by
  have tray : (s.countTray v c).stats.tray = s.stats.tray.set v ((s.stats.tray[v]).set c (raised s.stats.traySet.width (s.stats.tray[v])[c])) := by
    unfold Part.countTray
    rw [Part.judgeWatermark_stats, (Stats.judged_records _ _).2.1]
    rfl
  rw [tray]
  by_cases hv : v = w
  · subst hv
    have row : (s.stats.tray.set v ((s.stats.tray[v]).set c (raised s.stats.traySet.width (s.stats.tray[v])[c])))[v] =
        (s.stats.tray[v]).set c (raised s.stats.traySet.width (s.stats.tray[v])[c]) := Vector.getElem_set_self _
    rw [row]
    exact Vector.getElem_set_ne _ _ fun e => h (Fin.ext e)
  · have row : (s.stats.tray.set v ((s.stats.tray[v]).set c (raised s.stats.traySet.width (s.stats.tray[v])[c])))[w] = s.stats.tray[w] :=
      Vector.getElem_set_ne _ _ fun e => hv (Fin.ext e)
    rw [row]

/-! ## Settling: all but a pick -/

/-- The judgements but for a pick, and the transmitter's turn. -/
structure Part.settles (s t : Part) : Prop where
  via : Via [.link, .notices, .calls, .intake, .gate, .feed, .out, .finisher, .stats, .dry] s t
  still : t.feed.still = s.feed.still
  fed : t.out.fed = s.out.fed
  station : t.stats.station = s.stats.station
  tray : t.stats.tray = s.stats.tray
  counts : ∀ c : Fin 10, c ≠ 8 → t.stats.path[c] = s.stats.path[c]
  dry : s.dry.stands t.dry
  slots : s.frees t
  purge : t.gate.purgeCount = s.gate.purgeCount
  gone : (callsOf t).Subperm (callsOf s)

theorem Part.settles.refl (s : Part) : s.settles s :=
  ⟨.refl s, rfl, rfl, rfl, rfl, fun _ _ => rfl, Dry.stands_of rfl rfl, Part.frees_of rfl, rfl, .refl _⟩

theorem Part.settles.trans (h : s.settles t) (k : t.settles u) : s.settles u :=
  ⟨h.via.trans k.via, k.still.trans h.still, k.fed.trans h.fed, k.station.trans h.station, k.tray.trans h.tray,
    fun c hc => (k.counts c hc).trans (h.counts c hc), h.dry.trans k.dry, h.slots.trans k.slots, k.purge.trans h.purge,
    k.gone.trans h.gone⟩

theorem Part.serves.settles (h : s.serves t) : s.settles t :=
  have via := h.via
  ⟨via.mono rfl, by rw [via.feed_eq rfl], by rw [via.out_eq rfl], by rw [via.stats_eq rfl], by rw [via.stats_eq rfl],
    fun _ _ => by rw [via.stats_eq rfl], by rw [via.dry_eq rfl]; exact Dry.stands_of rfl rfl, h.slots, h.count.1, h.gone⟩

theorem Part.shifts.settles (h : s.shifts t) : s.settles t :=
  have via := h.1
  ⟨via.mono rfl, h.2, by rw [via.out_eq rfl], by rw [via.stats_eq rfl], by rw [via.stats_eq rfl],
    fun _ _ => by rw [via.stats_eq rfl], by rw [via.dry_eq rfl]; exact Dry.stands_of rfl rfl, Part.frees_of (by rw [via.intake_eq rfl]),
    by rw [via.gate_eq rfl], by unfold callsOf; rw [via.calls_eq rfl]⟩

theorem Part.judgeSet_settles (s : Part) : s.settles s.judgeSet :=
  have via := s.judgeSet_via
  ⟨via.mono rfl, by rw [via.feed_eq rfl], s.judgeSet_out, s.judgeSet_station, s.judgeSet_tray, fun _ h => s.judgeSet_path h,
    s.judgeSet_standsDry, Part.frees_of (by rw [s.judgeSet_intake]), by rw [via.gate_eq rfl], by unfold callsOf; rw [via.calls_eq rfl]⟩

theorem Part.settles.feed_eq (h : s.settles t) {α : Type} (f : Feed → α) (hf : ∀ x, f x.still = f x := by exact fun _ => rfl) :
    f t.feed = f s.feed := by
  rw [← hf t.feed, h.still, hf]

theorem Part.settles.clutch (h : s.settles t) : t.out.clutch = s.out.clutch := Outputs.clutch_of_fed h.fed

/-! ## With one pick at most -/

/-- A part in RUNNING, DRAINING or HALTING judged: settled, with one pick at most on the way. -/
def Part.tracksOn (s t : Part) : Prop := s.settles t ∨ ∃ u n, s.settles u ∧ u.feed.unconfirmed = none ∧ (u.makePick n).settles t

theorem Part.settles.tracksOn (h : s.settles t) : s.tracksOn t := .inl h

theorem Part.settles.andTracksOn (h : s.settles t) (k : t.tracksOn u) : s.tracksOn u := by
  rcases k with k | ⟨v, n, k, free, j⟩
  · exact .inl (h.trans k)
  · exact .inr ⟨v, n, h.trans k, free, j⟩

theorem Part.tracksOn.andSettles (h : s.tracksOn t) (k : t.settles u) : s.tracksOn u := by
  rcases h with h | ⟨v, n, h, free, j⟩
  · exact .inl (h.trans k)
  · exact .inr ⟨v, n, h, free, j.trans k⟩

theorem Part.picks.unconfirmed (h : s.picks n) : s.feed.unconfirmed = none := ((s.pickHolds_iff n).mp h.holds).2.2.1

theorem Part.feeds.tracksOn (h : s.feeds t) : s.tracksOn t := by
  rcases h with h | ⟨u, n, h, picks, k⟩
  · exact .inl h.settles
  · exact .inr ⟨u, n, h.settles, picks.unconfirmed, k.settles⟩

/-- A pick made, no other follows before it is confirmed (R57). -/
theorem Part.tracksOn.andFeeds (h : s.tracksOn t) (k : t.feeds u) : s.tracksOn u := by
  rcases h with h | ⟨v, n, h, free, j⟩
  · exact h.andTracksOn k.tracksOn
  · rcases k with k | ⟨w, m, k, picks, -⟩
    · exact .inr ⟨v, n, h, free, j.trans k.settles⟩
    · have waits := picks.unconfirmed
      have settled := j.trans k.settles
      rw [settled.feed_eq Feed.unconfirmed, (v.makePick_unconfirmed n).1] at waits
      cases waits

theorem Part.conclude_tracksOn (h : s.tracksOn t) (hp : t.feed.path ≠ .idle) : s.tracksOn t.conclude := by
  rcases t.conclude_turns with k | ⟨v, k, j⟩
  · exact h.andSettles k.settles
  · have feed := k.via.feed_eq rfl
    exact ((h.andSettles k.settles).andFeeds (Part.judgeFeed_feeds (by rwa [feed]))).andSettles j.settles

theorem PathState.tracks_cases {x : PathState} (h : x.tracks = true) : x = .running ∨ x = .draining ∨ x = .halting := by
  revert h
  cases x <;> decide

theorem Part.judge_tracksOn (h : s.feed.path.tracks = true) : s.tracksOn s.judge ∧ s.judge.feed.path.tracks = true := by
  have set := s.judgeSet_settles
  have feed : s.judgeSet.feed = s.feed := s.judgeSet_via.feed_eq rfl
  have path := PathState.tracks_cases h
  have unheld : s.feed.path ≠ .held := by rcases path with e | e | e <;> rw [e] <;> exact nofun
  rw [Part.judge_unheld unheld]
  have busy : s.judgeSet.feed.path ≠ .idle := by rw [feed]; rcases path with e | e | e <;> rw [e] <;> exact nofun
  refine ⟨set.andTracksOn (Part.judgeFeed_feeds busy).tracksOn, ?_⟩
  rcases path with e | e | e
  · rcases Part.judgeFeed_path (s := s.judgeSet) (.inl (by rw [feed, e])) with k | k <;> rw [k] <;> rfl
  · rcases Part.judgeFeed_path (s := s.judgeSet) (.inr (by rw [feed, e])) with k | k <;> rw [k] <;> rfl
  · rw [Part.judgeFeed_still (by rw [feed, e]; exact nofun) (by rw [feed, e]; exact nofun) (by rw [feed, e]; exact nofun), feed, e]
    rfl

/-- The judgements at the end of an event in RUNNING, DRAINING or HALTING, and the transmitter's turn. -/
theorem Part.ends_tracksOn (h : s.feed.path.tracks = true) : s.tracksOn s.judge.conclude := by
  obtain ⟨on, path⟩ := Part.judge_tracksOn h
  refine Part.conclude_tracksOn on fun e => ?_
  rw [e] at path
  cases path

/-! ## What it keeps -/

/-- No sheet has a number yet to be given. -/
abbrev Part.fresh (s : Part) : Prop := ∀ x ∈ s.table.sheets, x.number < s.feed.nextSheet

theorem Part.settles.fresh (h : s.settles t) (fresh : s.fresh) : ∀ x ∈ t.table.sheets, x.number ≠ t.feed.nextSheet := by
  rw [h.via.table_eq rfl, h.feed_eq Feed.nextSheet]
  exact fun x hx => (fresh x hx).ne

theorem Part.tracksOn.via (h : s.tracksOn t) :
    Via [.link, .notices, .calls, .intake, .gate, .feed, .out, .table, .planner, .finisher, .stats, .dry] s t := by
  rcases h with h | ⟨v, n, h, -, k⟩
  · exact h.via.mono rfl
  · exact ((h.via.mono rfl).andThen (v.makePick_via n) rfl).andThen k.via rfl

/-- Without a pick the table, the reservations, the clutches and the list stay. -/
structure Part.unpicked (s t : Part) : Prop where
  table : t.table = s.table
  planner : t.planner = s.planner
  clutch : t.out.clutch = s.out.clutch
  merge : t.feed.merge = s.feed.merge
  unconfirmed : t.feed.unconfirmed = s.feed.unconfirmed
  gone : (callsOf t).Subperm (callsOf s)

theorem Part.settles.unpicked (h : s.settles t) : s.unpicked t :=
  ⟨h.via.table_eq rfl, h.via.planner_eq rfl, h.clutch, h.feed_eq Feed.merge, h.feed_eq Feed.unconfirmed, h.gone⟩

theorem Part.tracksOn.unpicked (h : s.tracksOn t) (same : t.feed.nextSheet = s.feed.nextSheet) : s.unpicked t := by
  rcases h with h | ⟨v, n, h, -, k⟩
  · exact h.unpicked
  · have := k.feed_eq Feed.nextSheet
    have := h.feed_eq Feed.nextSheet
    have := v.makePick_nextSheet n
    omega

theorem Part.tracksOn.sheets (h : s.tracksOn t) (fresh : s.fresh) :
    ∃ l : List Sheet, t.table.sheets = s.table.sheets ++ l ∧ ∀ y ∈ l, y.number = s.feed.nextSheet := by
  rcases h with h | ⟨v, n, h, -, k⟩
  · exact ⟨[], by rw [h.via.table_eq rfl, List.append_nil], fun _ hy => absurd hy List.not_mem_nil⟩
  · have sheets := (v.makePick_made n (h.fresh fresh)).sheets
    have number : ((v.newSheet n).armed (v.expectOf (v.newSheet n))).number = v.feed.nextSheet := rfl
    generalize (v.newSheet n).armed (v.expectOf (v.newSheet n)) = x at sheets number
    refine ⟨[x], ?_, fun y hy => ?_⟩
    · rw [k.via.table_eq rfl, sheets, h.via.table_eq rfl]
    · rw [List.mem_singleton.mp hy, number]
      exact h.feed_eq Feed.nextSheet

/-- A sheet already numbered is found as it was. -/
theorem Part.tracksOn.mem_iff (h : s.tracksOn t) (fresh : s.fresh) {x : Sheet} (hx : x.number ≠ s.feed.nextSheet) :
    x ∈ t.table.sheets ↔ x ∈ s.table.sheets := by
  obtain ⟨l, e, new⟩ := h.sheets fresh
  rw [e, List.mem_append]
  exact or_iff_left fun hl => hx (new x hl)

theorem Part.tracksOn.merge_iff (h : s.tracksOn t) (fresh : s.fresh) {r : Resv} (hr : r.sheet ≠ s.feed.nextSheet) :
    r ∈ t.feed.merge ↔ r ∈ s.feed.merge := by
  rcases h with h | ⟨v, n, h, -, k⟩
  · rw [h.feed_eq Feed.merge]
  · have number := h.feed_eq Feed.nextSheet
    rw [k.feed_eq Feed.merge, (v.makePick_made n (h.fresh fresh)).merge, mem_insertResv, List.mem_filter, h.feed_eq Feed.merge, number]
    refine ⟨fun e => e.elim (fun e => absurd ?_ hr) And.left, fun e => .inr ⟨e, by simpa using hr⟩⟩
    rw [e]
    exact number

theorem Part.makePick_clutch (s : Part) (n : NextPage) : (s.makePick n).out.clutch = s.out.clutch.set n.unit true := by
  have counts : Via [.notices, .stats] (s.pickCore n) (((s.pickCore n).countTray n.unit 0).countPath 0) :=
    ((Part.countTray_via ..).mono rfl).andThen (Part.countPath_via ..) rfl
  have e : s.makePick n = (((s.pickCore n).countTray n.unit 0).countPath 0).judgeSet := rfl
  have out := counts.out_eq rfl
  generalize ((s.pickCore n).countTray n.unit 0).countPath 0 = q at e out
  rw [e, Outputs.clutch_of_fed q.judgeSet_out, out, s.pickCore_out n]

theorem Part.tracksOn.clutch (h : s.tracksOn t) {v : Fin 5} (on : s.out.clutch[v] = true) : t.out.clutch[v] = true := by
  rcases h with h | ⟨u, n, h, -, k⟩
  · rw [h.clutch, on]
  · rw [k.clutch, u.makePick_clutch n, h.clutch]
    by_cases hv : n.unit = v
    · subst hv
      exact Vector.getElem_set_self _
    · exact (Vector.getElem_set_ne _ _ fun e => hv (Fin.ext e)).trans on

/-- The pick unconfirmed is the one before, or the new sheet's. -/
theorem Part.tracksOn.unconfirmed (h : s.tracksOn t) :
    t.feed.unconfirmed = s.feed.unconfirmed ∨ t.feed.unconfirmed = some s.feed.nextSheet := by
  rcases h with h | ⟨v, n, h, -, k⟩
  · exact .inl (h.feed_eq Feed.unconfirmed)
  · exact .inr (by rw [k.feed_eq Feed.unconfirmed, (v.makePick_unconfirmed _).1, h.feed_eq Feed.nextSheet])

theorem Part.makePick_stats (s : Part) (n : NextPage) : (s.makePick n).stats.station = s.stats.station ∧
    (∀ (v : Fin 5) (c : Fin 3), c ≠ 0 → ((s.makePick n).stats.tray[v])[c] = (s.stats.tray[v])[c]) ∧
    ∀ c : Fin 10, c ≠ 0 → c ≠ 8 → (s.makePick n).stats.path[c] = s.stats.path[c] := by
  have core := (s.pickCore_via n).stats_eq rfl
  have e : s.makePick n = (((s.pickCore n).countTray n.unit 0).countPath 0).judgeSet := rfl
  rw [e]
  refine ⟨?_, fun v c hc => ?_, fun c hc h8 => ?_⟩
  · rw [Part.judgeSet_station, Part.countPath_station, Part.countTray_station, core]
  · rw [Part.judgeSet_tray, Part.countPath_tray, Part.countTray_same _ hc.symm, core]
  · rw [Part.judgeSet_path _ h8, Part.countPath_same _ hc.symm, Part.countTray_path, core]

theorem Part.tracksOn.station (h : s.tracksOn t) : t.stats.station = s.stats.station := by
  rcases h with h | ⟨v, n, h, -, k⟩
  · exact h.station
  · rw [k.station, (v.makePick_stats n).1, h.station]

theorem Part.tracksOn.tray (h : s.tracksOn t) {v : Fin 5} {c : Fin 3} (hc : c ≠ 0) : (t.stats.tray[v])[c] = (s.stats.tray[v])[c] := by
  rcases h with h | ⟨u, n, h, -, k⟩
  · rw [h.tray]
  · rw [k.tray, (u.makePick_stats n).2.1 v c hc, h.tray]

theorem Part.tracksOn.path (h : s.tracksOn t) {c : Fin 10} (hc : c ≠ 0) (h8 : c ≠ 8) : t.stats.path[c] = s.stats.path[c] := by
  rcases h with h | ⟨u, n, h, -, k⟩
  · exact h.counts c h8
  · rw [k.counts c h8, (u.makePick_stats n).2.2 c hc h8, h.counts c h8]

end Sys2Proof.Machine
end

