-- ==== Sys2Proof/Proofs/TracksKept.lean ====
section
/-! PROOF. What the judgements in RUNNING, DRAINING and HALTING keep of the schedule, the slots, the purge count, the calls and the
SPOIL notice. -/

namespace Sys2Proof.Machine

variable {s t u p : Part} {n : NextPage}

/-! ## The schedule (R168, R171) -/

/-- Edges of a sheet were scheduled, and faults spent. -/
structure Dry.schedules (num : Nat) (d e : Dry) : Prop where
  schedule : ∃ more : List Edge, e.schedule = d.schedule ++ more ∧ ∀ a ∈ more, a.sheet = some num ∧ a.leading = true
  plan : ∀ (i : Nat) (x : FaultEntry), d.plan[i]? = some x → x.spent = true → e.plan[i]? = some x

theorem Dry.stands.schedules {d e : Dry} (h : d.stands e) (num : Nat) : d.schedules num e :=
  ⟨⟨[], by rw [h.schedule, List.append_nil], fun _ ha => absurd ha List.not_mem_nil⟩, h.plan⟩

theorem Dry.schedules.trans {d e f : Dry} {num : Nat} (h : d.schedules num e) (k : e.schedules num f) : d.schedules num f := by
  obtain ⟨l, hl, ol⟩ := h.schedule
  obtain ⟨m, hm, om⟩ := k.schedule
  refine ⟨⟨l ++ m, by rw [hm, hl, List.append_assoc], fun a ha => ?_⟩, fun i x hi hx => k.plan i x (h.plan i x hi hx) hx⟩
  exact (List.mem_append.mp ha).elim (ol a) (om a)

theorem Dry.spend_keeps (d : Dry) (num : Nat) (st : Fin 24) {i : Nat} {x : FaultEntry} (hi : d.plan[i]? = some x) (hx : x.spent = true) :
    (d.spend num st).plan[i]? = some x := by
  unfold Dry.spend
  rw [List.getElem?_map, hi]
  refine congrArg some (if_neg ?_)
  rw [hx]
  exact Bool.false_ne_true

theorem Part.scheduleLeading_schedules (s : Part) (x : Sheet) (st : Fin 24) (T : Nat) :
    s.dry.schedules x.number (s.scheduleLeading x st T).dry := by
  unfold Part.scheduleLeading
  dsimp only
  split
  · exact (Dry.stands_of rfl rfl).schedules _
  · split
    · exact ⟨⟨[], (List.append_nil _).symm, fun _ ha => absurd ha List.not_mem_nil⟩, fun _ _ hi hx => s.dry.spend_keeps _ _ hi hx⟩
    · exact ⟨⟨_, rfl, fun a ha => List.mem_singleton.mp ha ▸ ⟨rfl, rfl⟩⟩, fun _ _ hi hx => s.dry.spend_keeps _ _ hi hx⟩

theorem Part.armNext_schedules (s : Part) (m : Nat) : s.dry.schedules m (s.armNext m).dry := by
  unfold Part.armNext
  split
  · exact (Dry.stands_of rfl rfl).schedules _
  · next x hx =>
    dsimp only
    split
    · exact (Dry.stands_of rfl rfl).schedules _
    · next step _ =>
      obtain rfl := (Part.sheet?_number hx).1
      have dry : ∀ g : Sheet → Sheet, (s.modSheet x.number g).dry = s.dry := fun _ => rfl
      rw [← dry fun y => { y with
        expect := some (expectAt s.force.timing s.speed x.anchor step.dist (s.stations[step.station]).offset),
        deadline := some (expectAt s.force.timing s.speed x.anchor step.dist (s.stations[step.station]).offset).deadline }]
      exact Part.scheduleLeading_schedules ..

theorem Part.makePick_schedules (s : Part) (n : NextPage) : s.dry.schedules s.feed.nextSheet (s.makePick n).dry := by
  have counts : Via [.notices, .stats] (s.pickCore n) (((s.pickCore n).countTray n.unit 0).countPath 0) :=
    ((Part.countTray_via ..).mono rfl).andThen (Part.countPath_via ..) rfl
  have e : s.makePick n = (((s.pickCore n).countTray n.unit 0).countPath 0).judgeSet := rfl
  have armed := (s.joined n).armNext_schedules s.feed.nextSheet
  have core : (s.pickCore n).dry = ((s.joined n).armNext s.feed.nextSheet).dry := by
    rw [s.pickCore_joined, (Part.notePick_via ..).dry_eq rfl, (Part.callFront_via ..).dry_eq rfl, Part.modOut_dry,
      (Part.reserve_via ..).dry_eq rfl]
  have set := (((s.pickCore n).countTray n.unit 0).countPath 0).judgeSet_standsDry
  rw [← core, (s.joined_via n).dry_eq rfl] at armed
  rw [counts.dry_eq rfl, ← e] at set
  exact armed.trans (set.schedules _)

theorem Part.tracksOn.schedules (h : s.tracksOn t) : s.dry.schedules s.feed.nextSheet t.dry := by
  rcases h with h | ⟨v, n, h, -, k⟩
  · exact h.dry.schedules _
  · have picked := v.makePick_schedules n
    rw [h.feed_eq Feed.nextSheet] at picked
    exact ((h.dry.schedules _).trans picked).trans (k.dry.schedules _)

theorem Part.scheduledEdge.keeps {now : Tick} {num m : Nat} {st : Fin 24} {anchor : Tick} {T len : Nat}
    (h : p.scheduledEdge now num st anchor T len s) (k : s.dry.schedules m t.dry) (hm : num ≠ m) :
    p.scheduledEdge now num st anchor T len t := by
  unfold Part.scheduledEdge at h ⊢
  dsimp only at h ⊢
  obtain ⟨spent, edge⟩ := h
  obtain ⟨more, schedule, sheet⟩ := k.schedule
  refine ⟨fun i hi => k.plan _ _ (spent i hi) rfl, ?_⟩
  rw [schedule]
  split
  · next none =>
    rw [if_pos none] at edge
    exact List.mem_append_left _ edge
  · next some =>
    rw [if_neg some] at edge
    intro e he of lead
    refine (List.mem_append.mp he).elim (fun he => edge e he of lead) fun he => absurd ?_ hm
    have := of.symm.trans (sheet e he).1
    exact Option.some.inj this

/-! ## The slots and the purge count (R37, R102) -/

theorem Part.makePick_slots (s : Part) (n : NextPage) : (s.makePick n).intake.slots = s.intake.slots := by
  rw [s.makePick_intake n, s.pickCore_intake n]
  exact (s.takeNext_intake n).1

theorem Part.tracksOn.slots (h : s.tracksOn t) : s.frees t := by
  rcases h with h | ⟨v, n, h, -, k⟩
  · exact h.slots
  · exact (h.slots.trans (Part.frees_of (v.makePick_slots n))).trans k.slots

theorem Part.tracksOn.purge (h : s.tracksOn t) : t.gate.purgeCount = s.gate.purgeCount := by
  rcases h with h | ⟨v, n, h, -, k⟩
  · exact h.purge
  · rw [k.purge, (v.makePick_via n).gate_eq rfl, h.purge]

/-! ## The calls (R92, R93) -/

theorem Part.callFront_calls (s : Part) (x : Sheet) (y : Page) :
    (s.callFront x y).calls = s.calls ∨ ∃ c : Call, c.sheet = x.number ∧
      (s.callFront x y).calls = { s.calls with queue := insertCall c s.calls.queue } := by
  unfold Part.callFront
  split
  · exact .inl rfl
  · exact .inr ⟨_, rfl, rfl⟩

theorem Part.makePick_queue (s : Part) (n : NextPage) : (s.makePick n).calls = s.calls ∨
    ∃ c : Call, c.sheet = s.feed.nextSheet ∧ (s.makePick n).calls = { s.calls with queue := insertCall c s.calls.queue } := by
  rw [s.makePick_calls n, s.pickCore_joined, (Part.notePick_via ..).calls_eq rfl]
  have base : ((((s.joined n).armNext s.feed.nextSheet).reserve (s.newSheet n) .feed (feedLegOf n.unit)).modOut fun o =>
      { o with clutch := o.clutch.set n.unit true }).calls = s.calls := by
    rw [Part.modOut_calls, (Part.reserve_via ..).calls_eq rfl, (Part.armNext_via ..).calls_eq rfl, (s.joined_via n).calls_eq rfl]
  rw [← base]
  exact Part.callFront_calls ..

theorem mem_insertCall {c k : Call} {l : List Call} : k ∈ insertCall c l ↔ k = c ∨ k ∈ l := by
  rw [(insertCall_perm c l).mem_iff, List.mem_cons]

theorem Part.tracksOn.calls (h : s.tracksOn t) {k : Call} (hk : k ∈ callsOf t) : k ∈ callsOf s ∨ k.sheet = s.feed.nextSheet := by
  rcases h with h | ⟨v, n, h, -, j⟩
  · exact .inl (h.gone.subset hk)
  · have hk := j.gone.subset hk
    unfold callsOf at hk
    rcases v.makePick_queue n with e | ⟨c, hc, e⟩ <;> rw [e] at hk
    · exact .inl (h.gone.subset hk)
    · rw [List.mem_append, mem_insertCall, or_assoc] at hk
      rcases hk with rfl | hk
      · exact .inr (hc.trans (h.feed_eq Feed.nextSheet))
      · exact .inl (h.gone.subset (List.mem_append.mpr hk))

/-! ## The SPOIL notice (R100) -/

theorem Part.setPath_spoil (s : Part) (x : PathState) : (s.setPath x).notices.spoil = s.notices.spoil := by
  unfold Part.setPath
  split <;> rfl

theorem Part.judgeWatermark_spoil (s : Part) (g : Group) (a b : Nat) : (s.judgeWatermark g a b).notices.spoil = s.notices.spoil := by
  unfold Part.judgeWatermark
  dsimp only
  split
  · cases g <;> rfl
  · rfl

theorem Part.countPath_spoil (s : Part) (c : Fin 10) : (s.countPath c).notices.spoil = s.notices.spoil := Part.judgeWatermark_spoil ..

theorem Part.countTray_spoil (s : Part) (v : Fin 5) (c : Fin 3) : (s.countTray v c).notices.spoil = s.notices.spoil :=
  Part.judgeWatermark_spoil ..

theorem Part.countStation_spoil (s : Part) (st : Fin 24) (c : Fin 3) : (s.countStation st c).notices.spoil = s.notices.spoil :=
  Part.judgeWatermark_spoil ..

theorem Part.judgeIntakeLow_spoil (s : Part) (x : Queue) : (s.judgeIntakeLow x).notices.spoil = s.notices.spoil := by
  cases x <;> rfl

theorem Part.takeNext_spoil (s : Part) (n : NextPage) : (s.takeNext n).notices.spoil = s.notices.spoil := by
  unfold Part.takeNext
  dsimp only
  split
  · rfl
  · exact Part.judgeIntakeLow_spoil ..
  · exact Part.judgeIntakeLow_spoil ..

theorem Part.notePick_spoil (s : Part) (n : NextPage) : (s.notePick n).notices.spoil = s.notices.spoil := by
  unfold Part.notePick
  dsimp only
  split <;> rfl

theorem Part.examineSlot_spoil (s : Part) (i : Fin 8) : (s.examineSlot i).notices = s.notices := by
  rw [s.examineSlot_eq]
  rfl

theorem Part.deliverPages_spoil (s : Part) (job : Nat) (l : List Page) : (s.deliverPages job l).notices.spoil = s.notices.spoil := by
  unfold Part.deliverPages
  split
  · rw [Part.examineSlot_spoil]
    rfl
  · rfl

theorem Part.endEject_spoil (s : Part) (part : Bool) : (if part then s.endPartial else s.endFinal).notices.spoil = s.notices.spoil := by
  cases part
  · have noted : ∀ (q : Part) (b : Bool) (x : SetDoneNote), (if b then q.modNotices fun m => { m with setDone := some x } else q).notices.spoil =
        q.notices.spoil := fun q b x => by cases b <;> rfl
    show s.endFinal.notices.spoil = _
    unfold Part.endFinal
    dsimp only
    rw [Part.modFinisher_notices, noted]
    split
    · rfl
    · exact Part.countPath_spoil ..
  · rfl

theorem Part.completeEject_spoil (s : Part) : s.completeEject.notices.spoil = s.notices.spoil := by
  unfold Part.completeEject
  dsimp only
  rw [Part.endEject_spoil, Part.deliverPages_spoil]
  rfl

theorem Part.judgeSet_spoil (s : Part) : s.judgeSet.notices.spoil = s.notices.spoil := by
  have closure : s.judgeGates.judgeClosure.notices = s.notices :=
    ((Part.judgeClosure_via _).notices_eq rfl).trans (s.judgeGates_via.notices_eq rfl)
  unfold Part.judgeSet
  rcases s.judgeGates.judgeFinisher_cases with ⟨e, -⟩ | ⟨-, ⟨-, -, e⟩ | ⟨-, -, -, -, -, -, e⟩ | ⟨-, -, -, e⟩ | ⟨-, e⟩⟩ <;> rw [e]
  · rw [closure]
  · rw [Part.completeEject_spoil, Part.modFinisher_notices, closure]
  · rw [(Part.enterStapling_via _).notices_eq rfl, closure]
  · rw [(Part.enterEjecting_via ..).notices_eq rfl, closure]
  · rw [(Part.enterEjecting_via ..).notices_eq rfl, closure]

theorem Part.makePick_spoil (s : Part) (n : NextPage) : (s.makePick n).notices.spoil = s.notices.spoil := by
  have e : s.makePick n = (((s.pickCore n).countTray n.unit 0).countPath 0).judgeSet := rfl
  rw [e, Part.judgeSet_spoil, Part.countPath_spoil, Part.countTray_spoil, s.pickCore_joined, Part.notePick_spoil,
    (Part.callFront_via ..).notices_eq rfl, Part.modOut_notices, (Part.reserve_via ..).notices_eq rfl,
    (Part.armNext_via ..).notices_eq rfl]
  exact s.takeNext_spoil n

theorem Part.judgeSelector_spoil (s : Part) : s.judgeSelector.notices = s.notices := s.judgeSelector_via.notices_eq rfl

theorem Part.enterDraining_spoil (s : Part) : s.enterDraining.notices.spoil = s.notices.spoil := by
  unfold Part.enterDraining
  rw [(Part.armRunOn_via _).notices_eq rfl, Part.setPath_spoil]
  rfl

theorem Part.judgeRunning_spoil (hp : s.feed.path = .running) : s.judgeRunning.notices.spoil = s.notices.spoil := by
  rcases Part.judgeRunning_cases hp with ⟨-, e⟩ | ⟨-, v, -, e⟩ | ⟨-, n, -, e⟩ <;> rw [e]
  · rw [Part.enterDraining_spoil, Part.judgeSelector_spoil]
  · exact congrArg Notices.spoil s.judgeSelector_spoil
  · have picked : (s.judgeSelector.judgeHoldoff.makePick n).judgeSelector.notices.spoil = s.notices.spoil := by
      rw [Part.judgeSelector_spoil, Part.makePick_spoil]
      exact congrArg Notices.spoil s.judgeSelector_spoil
    generalize (s.judgeSelector.judgeHoldoff.makePick n).judgeSelector = r at picked ⊢
    split
    · rw [Part.enterDraining_spoil, picked]
    · exact picked

theorem Part.judgeFeed_spoil (h : s.feed.path.tracks = true) : s.judgeFeed.notices.spoil = s.notices.spoil := by
  rcases PathState.tracks_cases h with e | e | e
  · have judged : s.judgeFeed = s.judgeRunning := by unfold Part.judgeFeed; rw [e]
    rw [judged, Part.judgeRunning_spoil e]
  · have judged : s.judgeFeed = s.judgeDraining := by unfold Part.judgeFeed; rw [e]
    rw [judged]
    unfold Part.judgeDraining
    dsimp only
    split
    · rw [Part.judgeRunning_spoil (by rw [Part.returnToRunning_feed])]
      exact (Part.setPath_spoil _ _).trans (congrArg Notices.spoil s.judgeSelector_spoil)
    · rw [s.judgeSelector_spoil]
  · rw [Part.judgeFeed_still] <;> rw [e] <;> exact nofun

/-! ## While a frame is being sent (R177) -/

/-- A frame being sent, the judgements keep the spoil count, the SPOIL notice and every call. -/
structure Part.quiet (s t : Part) : Prop where
  gate : t.gate = s.gate
  spoil : t.notices.spoil = s.notices.spoil
  queue : ∀ k ∈ s.calls.queue, k ∈ t.calls.queue
  deferred : t.calls.deferred = s.calls.deferred

theorem Part.makePick_queued (s : Part) (n : NextPage) {k : Call} (hk : k ∈ s.calls.queue) : k ∈ (s.makePick n).calls.queue := by
  rcases s.makePick_queue n with e | ⟨c, -, e⟩ <;> rw [e]
  · exact hk
  · exact mem_insertCall.mpr (.inr hk)

theorem Part.feeds.queued (h : s.feeds t) {k : Call} (hk : k ∈ s.calls.queue) : k ∈ t.calls.queue := by
  rcases h with h | ⟨u, n, h, -, j⟩
  · rwa [h.1.calls_eq rfl]
  · rw [j.1.calls_eq rfl]
    exact u.makePick_queued n (by rwa [h.1.calls_eq rfl])

theorem Part.judge_quiet (h : s.feed.path.tracks = true) : s.quiet s.judge := by
  have path := PathState.tracks_cases h
  have unheld : s.feed.path ≠ .held := by rcases path with e | e | e <;> rw [e] <;> exact nofun
  have feed : s.judgeSet.feed = s.feed := s.judgeSet_via.feed_eq rfl
  have calls : s.judgeSet.calls = s.calls := s.judgeSet_via.calls_eq rfl
  have busy : s.judgeSet.feed.path ≠ .idle := by rw [feed]; rcases path with e | e | e <;> rw [e] <;> exact nofun
  rw [Part.judge_unheld unheld]
  constructor
  case gate => rw [(Part.judgeFeed_via _).gate_eq rfl, s.judgeSet_via.gate_eq rfl]
  case spoil => rw [Part.judgeFeed_spoil (by rwa [feed]), s.judgeSet_spoil]
  case queue => exact fun k hk => (Part.judgeFeed_feeds busy).queued (by rwa [calls])
  case deferred => rw [s.judgeSet.judgeFeed_calls.1, calls]

theorem Part.ends_quiet (h : s.feed.path.tracks = true) (sending : s.link.sending.isSome = true) : s.quiet s.judge.conclude := by
  rw [Part.conclude_sending _ (by rwa [s.judge_via.link_eq rfl])]
  exact Part.judge_quiet h

end Sys2Proof.Machine
end

