-- ==== Sys2Proof/Proofs/EdgesBrought.lean ====
section
/-! PROOF. The commands that bring the Sheet Tracker an edge: a sensor's own, and in dry run the synthesised one (R13, R167, R168). -/

namespace Sys2Proof.Machine

variable {s t u p r : Part}

theorem Dry.nextEdge_station {d : Dry} {st : Fin 24} {v : Bool} {e : Edge} (h : d.nextEdge st v = some e) : e.station = st := by
  have := (List.mem_filter.mp (firstEdge_mem h)).2
  simp only [Bool.and_eq_true, beq_iff_eq] at this
  exact this.1

theorem Dry.nextEdge_mem {d : Dry} {st : Fin 24} {v : Bool} {e : Edge} (h : d.nextEdge st v = some e) : e ∈ d.schedule :=
  (List.mem_filter.mp (firstEdge_mem h)).1

/-- The edges a delivered one schedules (R168, R171). -/
def Edge.follow (e : Edge) : List Edge := if e.leading then trailingOf e else extrasOf e

/-- The schedule once an edge brought has left it, with what follows it (R168). -/
def Dry.afterEdge (d : Dry) (st : Fin 24) (leading : Bool) : Dry :=
  if d.on then match d.nextEdge st leading with
    | none => d
    | some e => { d with schedule := d.schedule.erase e ++ e.follow }
  else d

/-- The part on which the tracker takes an edge brought to it at tick `t`. -/
structure Part.brought (p : Part) (t : Tick) (st : Fin 24) (line : Fin 32) (leading : Bool) (r : Part) : Prop where
  via : Via [.tick, .lines, .dry] p r
  tick : r.tick = laterOf p.tick t
  lines : r.lines = p.linesAfter line leading
  dry : r.dry = p.dry.afterEdge st leading

section brought

variable {st : Fin 24} {v : Tick} {line : Fin 32} {leading : Bool}

theorem Dry.afterEdge_keeps (d : Dry) (st : Fin 24) (leading : Bool) : (d.afterEdge st leading).on = d.on ∧
    (d.afterEdge st leading).plan = d.plan ∧ (d.afterEdge st leading).firstSheet = d.firstSheet := by
  unfold Dry.afterEdge
  split
  · split <;> exact ⟨rfl, rfl, rfl⟩
  · exact ⟨rfl, rfl, rfl⟩

theorem Part.brought.speed (h : p.brought v st line leading r) : r.speed = p.speed := by
  unfold Part.speed
  rw [h.via.force_eq rfl, h.via.feed_eq rfl]

theorem Part.trackEdge_via (s : Part) (leading : Bool) (st : Fin 24) :
    Via [.notices, .calls, .intake, .feed, .out, .table, .stations, .gate, .episode, .planner, .finisher, .stats, .dry]
      s (s.trackEdge leading st) := by
  cases leading
  · exact (Part.trailingEdge_via s st).mono rfl
  · exact (Part.leadingEdge_via s st).mono rfl

/-- What every event that ends with the judgements leaves alone, and where its tick and lines stand. -/
theorem Part.ends_passes {A : List Block} (h : Via A r s)
    (hA : hasBlock A .tick = false ∧ hasBlock A .link = false ∧ hasBlock A .stored = false ∧ hasBlock A .force = false ∧
      hasBlock A .mask = false ∧ hasBlock A .lines = false)
    (tick : r.tick = laterOf p.tick v) (link : r.link = p.link) (stored : r.stored = p.stored) (force : r.force = p.force)
    (mask : r.mask = p.mask) : p.passesTo v s.judge.conclude ∧ s.judge.conclude.lines = r.lines := by
  obtain ⟨noTick, noLink, noStored, noForce, noMask, noLines⟩ := hA
  have judged := s.judge_via
  obtain ⟨cTick, cLines, cStored, cForce, cMask⟩ := s.judge.conclude_same
  obtain ⟨receiver, queue, fault, timer⟩ := s.judge.conclude_received
  have link := (judged.link_eq rfl).trans ((h.link_eq noLink).trans link)
  rw [link] at receiver queue fault timer
  refine ⟨⟨?_, ?_, ?_, ?_, receiver, queue, fault, timer⟩, ?_⟩
  · rw [cTick, judged.tick_eq rfl, h.tick_eq noTick, tick]
  · rw [cStored, judged.stored_eq rfl, h.stored_eq noStored, stored]
  · rw [cForce, judged.force_eq rfl, h.force_eq noForce, force]
  · rw [cMask, judged.mask_eq rfl, h.mask_eq noMask, mask]
  · rw [cLines, judged.lines_eq rfl, h.lines_eq noLines]

theorem Part.brought.passes (h : p.brought v st line leading r) :
    p.passesTo v (r.trackEdge leading st).judge.conclude ∧ (r.trackEdge leading st).judge.conclude.lines = p.linesAfter line leading := by
  have via := h.via
  obtain ⟨passes, lines⟩ := Part.ends_passes (r.trackEdge_via leading st) ⟨rfl, rfl, rfl, rfl, rfl, rfl⟩ h.tick (via.link_eq rfl)
    (via.stored_eq rfl) (via.force_eq rfl) (via.mask_eq rfl)
  exact ⟨passes, lines.trans h.lines⟩

theorem Part.runEdge_delivered {e : Edge} (on : s.dry.on = true) (takes : s.feed.path.takesEdges = true)
    (here : (s.force.stations[e.station]).isSome = true) : s.runEdge e =
      (((s.modDry fun d => { d with schedule := d.schedule.erase e }).advance e.tick).modDry fun d =>
        { d with schedule := d.schedule ++ e.follow }).trackEdge e.leading e.station := by
  unfold Part.runEdge Part.trackEdge Edge.follow
  dsimp only
  rw [if_pos (by
    have delivered : (s.dry.on && s.feed.path.takesEdges && (s.force.stations[e.station]).isSome) = true := by rw [on, takes, here]; rfl
    exact delivered)]
  cases e.leading <;> rfl

theorem exec_brings {w : List Instr} {c : Instr} {x : StationDef} (h : p.brings c leading st v) (hx : p.force.stations[st] = some x)
    (takes : p.dry.on = true → p.feed.path.takesEdges = true) :
    ∃ r, p.brought v st x.line leading r ∧ exec c ⟨w, p⟩ = .next ⟨w, (r.trackEdge leading st).judge.conclude⟩ := by
  by_cases on : p.dry.on = true
  · rw [Part.brings, if_pos on] at h
    obtain ⟨rfl, next⟩ := h
    obtain ⟨e, he, rfl⟩ := Option.map_eq_some_iff.mp next
    obtain rfl := Dry.nextEdge_station he
    have lead := Dry.nextEdge_leading he
    refine ⟨((p.modDry fun d => { d with schedule := d.schedule.erase e }).advance e.tick).modDry fun d =>
        { d with schedule := d.schedule ++ e.follow }, ⟨?_, rfl, ?_, ?_⟩, ?_⟩
    · exact (((Via.refl p).dry _ rfl).andThen (Part.advance_via _ _) rfl).dry _ rfl
    · unfold Part.linesAfter
      rw [if_pos on]
      rfl
    · unfold Dry.afterEdge
      rw [if_pos on, he]
      rfl
    · have run := Part.runEdge_delivered (e := e) on (takes on) (by rw [hx]; rfl)
      rw [lead] at run
      rw [← run]
      have synthesised : p.synthesised e.station leading = (p.runEdge e).judge.conclude := by
        unfold Part.synthesised
        rw [he]
      exact congrArg (fun q => Host.Outcome.next (⟨w, q⟩ : State)) synthesised
  · have off : p.dry.on = false := Bool.eq_false_iff.mpr on
    rw [Part.brings, if_neg on] at h
    have hc : c = stationEdgeAt leading v st := h
    obtain ⟨r, hr⟩ : ∃ r, (p.advance v).lineEdge (.station st) leading = r := ⟨_, rfl⟩
    have edged := p.edged_of v (Desc.station_line hx) leading
    rw [hr] at edged
    have edge := Part.stationEdge_eq hx edged (fun p => p.trackEdge leading st) hr
    rw [off, if_neg Bool.false_ne_true] at edge
    refine ⟨r, ⟨?_, ?_, ?_, ?_⟩, ?_⟩
    · rw [edged.moved]
      exact ((p.advance_via v).mono rfl).lines _ rfl
    · rw [edged.moved]
      rfl
    · unfold Part.linesAfter
      rw [edged.lines, if_neg on]
    · unfold Dry.afterEdge
      rw [if_neg on, edged.moved]
      rfl
    · rw [hc, exec_stationEdge, Part.event_eq (g := fun p => p.stationEdge st leading fun p => p.trackEdge leading st) edge]

end brought

end Sys2Proof.Machine
end

