-- ==== Sys2Proof/Proofs/StationJams.lean ====
section
/-! PROOF. A jam at a station: its record, its counters, and what the end of the event leaves of them (R90, R106, R108). -/

namespace Sys2Proof.Machine

variable {s t u p : Part}

/-! ## The counters a jam leaves alone -/

/-- The STATION and TRAY records stand, and the PATH record but for episodes and sets finished. -/
structure Part.countsStand (s t : Part) : Prop where
  station : t.stats.station = s.stats.station
  tray : t.stats.tray = s.stats.tray
  path : ∀ c : Fin 10, c ≠ 6 → c ≠ 8 → t.stats.path[c] = s.stats.path[c]

theorem Part.countsStand_of (h : t.stats = s.stats) : s.countsStand t := by
  refine ⟨?_, ?_, fun _ _ _ => ?_⟩ <;> rw [h]

theorem Part.countsStand.trans (h : s.countsStand t) (k : t.countsStand u) : s.countsStand u :=
  ⟨k.station.trans h.station, k.tray.trans h.tray, fun c h6 h8 => (k.path c h6 h8).trans (h.path c h6 h8)⟩

theorem Part.countPath_stands {c : Fin 10} (h : c = 6 ∨ c = 8) (s : Part) : s.countsStand (s.countPath c) := by
  refine ⟨s.countPath_station c, s.countPath_tray c, fun d h6 h8 => s.countPath_same ?_⟩
  rintro rfl
  exact h.elim h6 h8

theorem Part.openEpisode_countsStand (s : Part) (j : Jam) (extra : AreaSet) : s.countsStand (s.openEpisode j extra) := by
  have via := (s.openCore_via j extra).andThen
    ((Part.noteRecord_via _ 1 j).mono (A := [.notices, .feed, .out, .table, .stations, .episode, .finisher, .dry]) rfl) rfl
  exact (Part.countsStand_of (via.stats_eq rfl)).trans (Part.countPath_stands (.inl rfl) _)

theorem Part.takeJam_countsStand (s : Part) (j : Jam) : s.countsStand (s.takeJam j) := by
  unfold Part.takeJam
  split
  · unfold Part.holdOver
    split <;> exact Part.countsStand_of rfl
  · exact Part.countsStand_of rfl
  · split
    · exact s.openEpisode_countsStand j 0
    · exact Part.countsStand_of rfl
  · exact s.openEpisode_countsStand j 0
  · exact s.openEpisode_countsStand j 0
  · exact s.openEpisode_countsStand j 0
  · exact Part.countsStand_of ((Part.extendHalting_via s j).stats_eq rfl)
  · exact Part.countsStand_of ((Part.addRecord_via s j).stats_eq rfl)
  · exact Part.countsStand_of (((Part.abandonSweep_via _ _).stats_eq rfl).trans ((Part.addRecord_via s j).stats_eq rfl))

theorem Part.judgeSet_countsStand (s : Part) : s.countsStand s.judgeSet :=
  ⟨s.judgeSet_station, s.judgeSet_tray, fun _ _ h8 => s.judgeSet_path h8⟩

/-- The end of an event in a path state at rest. -/
theorem Part.rests_countsStand (h : s.feed.path.rests) : s.countsStand s.judge.conclude := by
  rcases Part.judge_rests h with ⟨-, k⟩ | ⟨-, -, v, sweeps, k⟩
  · exact s.judgeSet_countsStand.trans (Part.countsStand_of (k.via.stats_eq rfl))
  · exact (s.judgeSet_countsStand.trans (Part.countsStand_of (sweeps.via.stats_eq rfl))).trans
      (Part.countsStand_of (k.via.stats_eq rfl))

/-! ## The jam (R90, R106) -/

theorem Part.countStation_raised (s : Part) (st : Fin 24) (c : Fin 3) :
    countedUp s.stats.stationSet.width (s.stats.station[st]) ((s.countStation st c).stats.station[st]) c := by
  have station : (s.countStation st c).stats.station =
      s.stats.station.set st ((s.stats.station[st]).set c (raised s.stats.stationSet.width (s.stats.station[st])[c])) := by
    unfold Part.countStation
    rw [Part.judgeWatermark_stats, (Stats.judged_records _ _).2.2.1]
    rfl
  have row : (s.countStation st c).stats.station[st] =
      (s.stats.station[st]).set c (raised s.stats.stationSet.width (s.stats.station[st])[c]) := by
    rw [station]
    exact Vector.getElem_set_self _
  unfold countedUp
  rw [row]
  exact Vector.getElem_set_self _

theorem Part.countStation_same (s : Part) (st : Fin 24) {c d : Fin 3} (h : c ≠ d) :
    ((s.countStation st c).stats.station[st])[d] = (s.stats.station[st])[d] := by
  have station : (s.countStation st c).stats.station =
      s.stats.station.set st ((s.stats.station[st]).set c (raised s.stats.stationSet.width (s.stats.station[st])[c])) := by
    unfold Part.countStation
    rw [Part.judgeWatermark_stats, (Stats.judged_records _ _).2.2.1]
    rfl
  have row : (s.countStation st c).stats.station[st] =
      (s.stats.station[st]).set c (raised s.stats.stationSet.width (s.stats.station[st])[c]) := by
    rw [station]
    exact Vector.getElem_set_self _
  rw [row]
  exact Vector.getElem_set_ne _ _ fun e => h (Fin.ext e)

/-- A jam at a station, taken: the record, the path and the counters when the event has ended. -/
structure Part.jammed (s : Part) (j : Jam) (st : Fin 24) (q : Part) : Prop where
  took : s.tookJam j q
  counted : countedUp s.stats.stationSet.width (s.stats.station[st]) (q.stats.station[st]) 2
  tray : q.stats.tray = s.stats.tray
  path : ∀ c : Fin 10, c ≠ 6 → c ≠ 8 → q.stats.path[c] = s.stats.path[c]

theorem Part.jamAt_eq (s : Part) (kind : JamKind) (st : Fin 24) (tick : Tick) (x : Option Sheet) :
    s.jamAt kind st tick x = (s.countStation st 2).takeJam (stationJam s kind st tick x) := rfl

theorem Part.jamAt_taken (h : s.feed.path.takesJams = true) (kind : JamKind) (st : Fin 24) (tick : Tick) (x : Option Sheet) :
    s.jammed (stationJam s kind st tick x) st (s.jamAt kind st tick x) := by
  have via := s.countStation_via st 2
  have counts := (s.countStation st 2).takeJam_countsStand (stationJam s kind st tick x)
  have took := (Part.takeJam_tookJam (s := s.countStation st 2) (j := stationJam s kind st tick x)
    (.inl (by rwa [via.feed_eq rfl]))).1
  rw [s.jamAt_eq]
  refine ⟨took.of (by rw [via.feed_eq rfl]) (via.episode_eq rfl), ?_, ?_, fun c h6 h8 => ?_⟩
  · rw [counts.station]
    exact s.countStation_raised st 2
  · rw [counts.tray, s.countStation_tray]
  · rw [counts.path c h6 h8, s.countStation_path]

theorem Part.jammed.ends {j : Jam} {st : Fin 24} (h : s.jammed j st t) : s.jammed j st t.judge.conclude := by
  have counts := Part.rests_countsStand (PathState.rests_of_inEpisode h.took.2.2)
  exact ⟨h.took.ends, by rw [counts.station]; exact h.counted, counts.tray.trans h.tray,
    fun c h6 h8 => (counts.path c h6 h8).trans (h.path c h6 h8)⟩

/-- A part that differs in nothing the jam's record and the counters tell. -/
theorem Part.jammed.of {j : Jam} {st : Fin 24} {q : Part} (h : s.jammed j st q) (path : s.feed.path = p.feed.path)
    (episode : s.episode = p.episode) (stats : s.stats = p.stats) : p.jammed j st q :=
  ⟨h.took.of path episode, stats ▸ h.counted, stats ▸ h.tray, stats ▸ h.path⟩

theorem stationJam_of (force : s.force = p.force) (kind : JamKind) (st : Fin 24) (tick : Tick) (x : Option Sheet) :
    stationJam s kind st tick x = stationJam p kind st tick x := by
  unfold stationJam
  rw [force]

/-! ## Where it leaves the path -/

theorem Part.takeJam_path (h : s.feed.path.takesJams = true) (j : Jam) :
    (s.takeJam j).feed.path = .halting ∨ (s.takeJam j).feed.path = .held := by
  unfold Part.takeJam
  cases hp : s.feed.path with
  | unconfigured | idle | resumable =>
    rw [hp] at h
    cases h
  | starting | running | draining => exact s.openEpisode_inEpisode j 0
  | halting => exact (s.extendHalting_extends j hp).2.2
  | held => exact .inr (by rw [Part.addRecord_feed, hp])
  | sweeping => exact .inr (by rw [Part.abandonSweep_feed])

theorem Part.jamAt_path (h : s.feed.path.takesJams = true) (kind : JamKind) (st : Fin 24) (tick : Tick) (x : Option Sheet) :
    (s.jamAt kind st tick x).feed.path = .halting ∨ (s.jamAt kind st tick x).feed.path = .held := by
  rw [s.jamAt_eq]
  exact Part.takeJam_path (by rwa [(s.countStation_via st 2).feed_eq rfl]) _

/-- Once HALTING or HELD the path stays, and in HELD a sweep starts at most: not while a station reads paper outside dry run. -/
theorem Part.haltedEnds_path (h : s.feed.path = .halting ∨ s.feed.path = .held) (paper : s.dry.on = false → s.anyPaper = true) :
    s.judge.conclude.feed.path = .halting ∨ s.judge.conclude.feed.path = .held ∨
      (s.dry.on = true ∧ s.judge.conclude.feed.path = .resumable) := by
  have rests : s.feed.path.rests := by rcases h with e | e <;> rw [e] <;> exact ⟨nofun, nofun, nofun⟩
  have still : s.untouched s.judge.conclude →
      s.judge.conclude.feed.path = .halting ∨ s.judge.conclude.feed.path = .held ∨
        (s.dry.on = true ∧ s.judge.conclude.feed.path = .resumable) := fun k => by
    rw [k.path]
    exact h.imp_right .inl
  cases on : s.dry.on with
  | false => exact on ▸ still (Part.ends_untouched rests (.inr (paper on)))
  | true =>
    rcases Part.judge_rests rests with ⟨-, k⟩ | ⟨-, -, v, sweeps, k⟩
    · rw [k.via.feed_eq rfl, s.judgeSet_via.feed_eq rfl]
      exact h.imp_right .inl
    · have course := sweeps.course
      rw [s.judgeSet_on, on, if_pos rfl] at course
      exact .inr (.inr ⟨rfl, by rw [k.via.feed_eq rfl, course.1]⟩)

end Sys2Proof.Machine
end

