-- ==== Sys2Proof/Proofs/Repredicted.lean ====
section
/-! PROOF. A sheet's record changed, and its reservation predicted anew (R23, R64). -/

namespace Sys2Proof.Machine

variable {s t u p : Part} {n : Nat}

/-! ## The record of a sheet (R69) -/

theorem Part.sheet?_of_mem (sound : (s.table.sheets.map Sheet.number).Pairwise (· < ·)) {x : Sheet} (hx : x ∈ s.table.sheets) :
    s.sheet? x.number = some x := by
  unfold Part.sheet?
  generalize s.table.sheets = l at sound hx ⊢
  induction l with
  | nil => cases hx
  | cons y l ih =>
    rw [List.map_cons, List.pairwise_cons] at sound
    rcases List.mem_cons.mp hx with rfl | hx
    · exact List.find?_cons_of_pos (beq_self_eq_true _)
    · have less := sound.1 _ (List.mem_map_of_mem hx)
      rw [List.find?_cons_of_neg (by simpa using less.ne)]
      exact ih sound.2 hx

/-- Sheets with one number are one. -/
theorem sheet_unique {l : List Sheet} (sound : (l.map Sheet.number).Pairwise (· < ·)) {x y : Sheet} (hx : x ∈ l) (hy : y ∈ l)
    (h : x.number = y.number) : x = y := by
  induction l with
  | nil => cases hx
  | cons z l ih =>
    rw [List.map_cons, List.pairwise_cons] at sound
    rcases List.mem_cons.mp hx with ex | hx <;> rcases List.mem_cons.mp hy with ey | hy
    · rw [ex, ey]
    · exact absurd (ex ▸ h) (sound.1 _ (List.mem_map_of_mem hy)).ne
    · exact absurd (ey ▸ h).symm (sound.1 _ (List.mem_map_of_mem hx)).ne
    · exact ih sound.2 hx hy

theorem Part.modSheet_sheet? {g : Sheet → Sheet} (hg : ∀ y, (g y).number = y.number) (m : Nat) :
    (s.modSheet m g).sheet? n = (s.sheet? n).map fun x => if x.number = m then g x else x := by
  have sheets : (s.modSheet m g).table.sheets = s.table.sheets.map fun x => if x.number = m then g x else x := rfl
  have number : ((fun x : Sheet => x.number == n) ∘ fun x : Sheet => if x.number = m then g x else x) = fun x => x.number == n := by
    funext x
    show ((if x.number = m then g x else x).number == n) = (x.number == n)
    split
    · rw [hg]
    · rfl
  unfold Part.sheet?
  rw [sheets, List.find?_map, number]

theorem Part.modSheet_finds {g : Sheet → Sheet} (hg : ∀ y, (g y).number = y.number) {x : Sheet} (h : s.sheet? n = some x) :
    (s.modSheet n g).sheet? n = some (g x) := by
  rw [Part.modSheet_sheet? hg, h]
  exact congrArg some (if_pos (Part.sheet?_number h).1)

theorem Part.mem_modSheet {g : Sheet → Sheet} {y : Sheet} (hy : y ∈ s.table.sheets) (h : y.number = n) :
    g y ∈ (s.modSheet n g).table.sheets := by
  have mem := List.mem_map_of_mem (f := fun x : Sheet => if x.number = n then g x else x) hy
  rwa [if_pos h] at mem

theorem Part.mem_modSheet_of_ne {g : Sheet → Sheet} {y : Sheet} (hy : y ∈ s.table.sheets) (h : y.number ≠ n) :
    y ∈ (s.modSheet n g).table.sheets := by
  have mem := List.mem_map_of_mem (f := fun x : Sheet => if x.number = n then g x else x) hy
  rwa [if_neg h] at mem

theorem Part.sheet?_of_table (h : t.table = s.table) : t.sheet? n = s.sheet? n := by
  unfold Part.sheet?
  rw [h]

theorem Part.fresh_of (numbers : t.table.sheets.map Sheet.number = s.table.sheets.map Sheet.number)
    (next : t.feed.nextSheet = s.feed.nextSheet) (fresh : s.fresh) : t.fresh := by
  intro x hx
  have mem := List.mem_map_of_mem (f := Sheet.number) hx
  rw [numbers] at mem
  obtain ⟨y, hy, e⟩ := List.mem_map.mp mem
  rw [next, ← e]
  exact fresh y hy

/-! ## Predictions (R23) -/

/-- The predicted lead at the merge from the place after the first `k` steps of a leg. -/
def Part.leadOver (s : Part) (now : Tick) (l : LegName) (k : Nat) : Tick :=
  let way := (s.force.leg l).steps.drop k
  plusInt (plusTicks now (transit ((way.map LegStep.dist).sum + (s.force.leg l).endDist) s.speed))
    (way.map fun y => (s.stations[y.station]).offset).sum

theorem Part.predictFrom_eq (s : Part) (now : Tick) (l : LegName) (k media : Nat) :
    s.predictFrom now l k media = (s.leadOver now l k, plusTicks (s.leadOver now l k) (dwell media s.speed)) := by
  have dist : distanceOver ((s.force.legSteps l 0).drop k) = (((s.force.leg l).steps.drop k).map LegStep.dist).sum := by
    unfold distanceOver
    rw [List.map_drop, show (s.force.legSteps l 0).map Step.dist = (s.force.leg l).steps.map LegStep.dist from
      s.force.legSteps_map l fun k _ => k, ← List.map_drop]
  have offset : offsetsOver s.stations ((s.force.legSteps l 0).drop k) =
      (((s.force.leg l).steps.drop k).map fun y => (s.stations[y.station]).offset).sum := by
    unfold offsetsOver
    rw [List.map_drop, s.force.legSteps_map l fun _ st => (s.stations[st]).offset, ← List.map_drop]
  unfold Part.predictFrom Part.predict Part.leadOver
  dsimp only
  rw [dist, offset]

theorem Part.leadOver_of (force : t.force = s.force) (cls : t.feed.cls = s.feed.cls) (stations : t.stations = s.stations) (now : Tick)
    (l : LegName) (k : Nat) : t.leadOver now l k = s.leadOver now l k := by
  unfold Part.leadOver Part.speed
  rw [force, cls, stations]

theorem Part.rollerLead_eq (s : Part) (v : Fin 5) (now : Tick) : s.rollerLead v now = s.leadOver now (feedLegOf v) 0 := rfl

/-! ## The reservation (R63, R64) -/

/-- A reservation in the place of every other of its sheet. -/
theorem mem_replaced {r r' : Resv} {l : List Resv} (h : r.sheet = n) :
    (r' ∈ insertResv r (l.filter fun x => x.sheet != n) ∧ r'.sheet = n) ↔ r' = r := by
  rw [mem_insertResv, List.mem_filter]
  constructor
  · rintro ⟨rfl | ⟨-, ne⟩, e⟩
    · rfl
    · simp [e] at ne
  · rintro rfl
    exact ⟨.inl rfl, h⟩

theorem mem_replaced_of_ne {r r' : Resv} {l : List Resv} (h : r.sheet = n) (hr : r'.sheet ≠ n) :
    r' ∈ insertResv r (l.filter fun x => x.sheet != n) ↔ r' ∈ l := by
  rw [mem_insertResv, List.mem_filter]
  refine ⟨fun e => e.elim (fun e => absurd (e ▸ h) hr) And.left, fun e => .inr ⟨e, by simpa using hr⟩⟩

theorem Part.repredict_some {lead trail : Tick} {r : Resv} (h : s.feed.merge.find? (fun z => z.sheet == n) = some r) :
    (s.repredict n lead trail).feed.merge =
      insertResv { r with lead := lead, trail := trail } (s.feed.merge.filter fun x => x.sheet != n) := by
  unfold Part.repredict
  rw [h]
  rfl

theorem Part.repredict_replaces {lead trail : Tick} {r : Resv} (h : s.feed.merge.find? (fun z => z.sheet == n) = some r) (r' : Resv) :
    (r' ∈ (s.repredict n lead trail).feed.merge ∧ r'.sheet = n) ↔ r' = { r with lead := lead, trail := trail } := by
  rw [Part.repredict_some h]
  have sheet := List.find?_some h
  exact mem_replaced (by simpa using sheet)

theorem Part.repredict_others {lead trail : Tick} {r' : Resv} (hr : r'.sheet ≠ n) :
    r' ∈ (s.repredict n lead trail).feed.merge ↔ r' ∈ s.feed.merge := by
  cases h : s.feed.merge.find? fun z => z.sheet == n with
  | none =>
    unfold Part.repredict
    rw [h]
  | some r =>
    rw [Part.repredict_some h]
    have sheet := List.find?_some h
    exact mem_replaced_of_ne (by simpa using sheet) hr

theorem Part.repredict_feed (s : Part) (n : Nat) (lead trail : Tick) :
    (s.repredict n lead trail).feed = { s.feed with merge := (s.repredict n lead trail).feed.merge } := by
  unfold Part.repredict
  split <;> rfl

/-! ## The schedule of another part (R168) -/

/-- A schedule with edges gone tells the same of what was scheduled since. -/
theorem Part.scheduledEdge.of_fewer {now : Tick} {num : Nat} {st : Fin 24} {anchor : Tick} {T len : Nat}
    (h : s.scheduledEdge now num st anchor T len t) (plan : s.dry.plan = p.dry.plan) (first : s.dry.firstSheet = p.dry.firstSheet)
    (fewer : ∀ e ∈ s.dry.schedule, e.sheet = some num → e.leading = true → e ∈ p.dry.schedule) :
    p.scheduledEdge now num st anchor T len t := by
  have same : s.dry = { p.dry with schedule := s.dry.schedule, on := s.dry.on, home := s.dry.home } := by
    dsimp only
    rw [← plan, ← first]
  have told := Part.scheduledEdge.of (p := { s with
    dry := { p.dry with schedule := s.dry.schedule, on := s.dry.on, home := s.dry.home } }) h same
  unfold Part.scheduledEdge at told ⊢
  dsimp only at told ⊢
  refine ⟨told.1, ?_⟩
  have edge := told.2
  split at edge
  · next none =>
    rw [if_pos none]
    exact edge
  · next some =>
    rw [if_neg some]
    exact fun e he of lead => fewer e (edge e he of lead) of lead

end Sys2Proof.Machine
end

