-- ==== Sys2Proof/Proofs/Deadlines.lean ====
section
/-! PROOF. The expiry of a leading and of a trailing deadline (O36). -/

namespace Sys2Proof.Machine

variable {s t u p : Part} {x y : Sheet} {step : Step} {d : Tick}

/-! ## The retry (R62, R64) -/

/-- A pick made once more: what the retry leaves. `y` is the sheet's record before it. -/
structure Part.retried (s : Part) (y : Sheet) (step : Step) (q : Part) : Prop where
  via : Via [.notices, .feed, .out, .table, .stats, .dry] s q
  feed : q.feed = { s.feed with merge := q.feed.merge }
  numbers : q.table.sheets.map Sheet.number = s.table.sheets.map Sheet.number
  sheet : ({ y with attempts := y.attempts + 1, anchor := s.tick } : Sheet).armed
    (some (expectAt s.force.timing s.speed s.tick step.dist (s.stations[step.station]).offset)) ∈ q.table.sheets
  scheduled : s.dry.on = true →
    s.scheduledEdge s.tick y.number step.station s.tick (transit step.dist s.speed) (dwell y.media s.speed) q
  replaced : ∀ r, s.feed.merge.find? (fun z => z.sheet == y.number) = some r →
    ∀ r', (r' ∈ q.feed.merge ∧ r'.sheet = y.number) ↔ r' = { r with
      lead := s.rollerLead y.source s.tick, trail := plusTicks (s.rollerLead y.source s.tick) (dwell y.media s.speed) }
  others : ∀ r : Resv, r.sheet ≠ y.number → (r ∈ q.feed.merge ↔ r ∈ s.feed.merge)
  clutch : q.out.clutch[y.source] = true
  counted : countedUp s.stats.traySet.width (s.stats.tray[y.source]) (q.stats.tray[y.source]) 1

/-- The part of a retry once the sheet's new edge is armed. -/
def Part.rearmed (s : Part) (n : Nat) : Part :=
  (((s.modSheet n fun y => { y with attempts := y.attempts + 1, anchor := s.tick }).withdrawEdges n).armNext n)

theorem Part.rearmed_via (s : Part) (n : Nat) : Via [.table, .dry] s (s.rearmed n) :=
  (((Part.modSheet_via s n fun y => { y with attempts := y.attempts + 1, anchor := s.tick }).mono rfl).andThen
    (Part.withdrawEdges_via ..) rfl).andThen (Part.armNext_via ..) rfl

theorem Part.rearmed_table (h : s.sheet? y.number = some y) (hn : y.nextStep = some step) :
    (s.rearmed y.number).table.sheets.map Sheet.number = s.table.sheets.map Sheet.number ∧
    ({ y with attempts := y.attempts + 1, anchor := s.tick } : Sheet).armed
      (some (expectAt s.force.timing s.speed s.tick step.dist (s.stations[step.station]).offset)) ∈ (s.rearmed y.number).table.sheets := by
  obtain ⟨g, hg⟩ : ∃ g : Sheet → Sheet, g = fun y => { y with attempts := y.attempts + 1, anchor := s.tick } := ⟨_, rfl⟩
  have number : ∀ z, (g z).number = z.number := fun z => by rw [hg]
  have finds : ((s.modSheet y.number g).withdrawEdges y.number).sheet? y.number = some (g y) :=
    (Part.sheet?_of_table rfl).trans (Part.modSheet_finds number h)
  have expect : ((s.modSheet y.number g).withdrawEdges y.number).expectOf (g y) =
      some (expectAt s.force.timing s.speed s.tick step.dist (s.stations[step.station]).offset) := by
    have next : (g y).nextStep = some step := by rw [hg]; exact hn
    unfold Part.expectOf
    rw [next, hg]
    rfl
  have table := Part.armNext_table finds
  rw [expect] at table
  unfold Part.rearmed
  rw [← hg, table]
  constructor
  · rw [← Part.modSheet_numbers s y.number g number, List.map_map]
    refine List.map_congr_left fun z _ => ?_
    show (if z.number = y.number then _ else z).number = z.number
    split <;> rfl
  · rw [show ({ y with attempts := y.attempts + 1, anchor := s.tick } : Sheet) = g y by rw [hg]]
    refine List.mem_map.mpr ⟨g y, Part.mem_modSheet (Part.sheet?_number h).2 rfl, if_pos (number y)⟩

theorem Part.rearmed_scheduled (h : s.sheet? y.number = some y) (hn : y.nextStep = some step) (on : s.dry.on = true) :
    s.scheduledEdge s.tick y.number step.station s.tick (transit step.dist s.speed) (dwell y.media s.speed) (s.rearmed y.number) := by
  have finds : ((s.modSheet y.number fun y => { y with attempts := y.attempts + 1, anchor := s.tick }).withdrawEdges y.number).sheet?
      y.number = some { y with attempts := y.attempts + 1, anchor := s.tick } :=
    (Part.sheet?_of_table rfl).trans
      (Part.modSheet_finds (g := fun y => { y with attempts := y.attempts + 1, anchor := s.tick }) (fun _ => rfl) h)
  have scheduled := Part.armNext_scheduled finds hn on
  exact scheduled.of_fewer (p := s) rfl rfl fun e he _ _ => (List.mem_filter.mp he).1

theorem Part.predictFrom_roller (via : Via [.out, .table, .dry] s t) (v : Fin 5) (media : Nat) :
    t.predictFrom t.tick (feedLegOf v) 0 media =
      (s.rollerLead v s.tick, plusTicks (s.rollerLead v s.tick) (dwell media s.speed)) := by
  rw [via.tick_eq rfl, Part.predictFrom_of (s := s) (via.force_eq rfl) (by rw [via.feed_eq rfl]) (via.stations_eq rfl),
    Part.predictFrom_eq, ← Part.rollerLead_eq]

theorem Part.retryPick_eq (s : Part) (x : Sheet) : s.retryPick x =
    (((s.rearmed x.number).modOut fun o => { o with clutch := o.clutch.set x.source true }).repredict x.number
      (s.rollerLead x.source s.tick) (plusTicks (s.rollerLead x.source s.tick) (dwell x.media s.speed))).countTray x.source 1 := by
  have e : ∀ v : Part, v = (s.rearmed x.number).modOut (fun o => { o with clutch := o.clutch.set x.source true }) →
      s.retryPick x = (v.repredict x.number (v.predictFrom v.tick (feedLegOf x.source) 0 x.media).1
        (v.predictFrom v.tick (feedLegOf x.source) 0 x.media).2).countTray x.source 1 := fun v hv => hv ▸ rfl
  have via : Via [.out, .table, .dry] s ((s.rearmed x.number).modOut fun o => { o with clutch := o.clutch.set x.source true }) :=
    ((s.rearmed_via x.number).mono rfl).out _ rfl
  rw [e _ rfl, Part.predictFrom_roller via]

theorem Part.retryPick_retried (h : s.sheet? y.number = some y) (hn : y.nextStep = some step) : s.retried y step (s.retryPick y) := by
  rw [s.retryPick_eq]
  have rearmed := s.rearmed_via y.number
  obtain ⟨numbers, sheet⟩ := Part.rearmed_table h hn
  have scheduled := Part.rearmed_scheduled h hn
  generalize s.rearmed y.number = r at rearmed numbers sheet scheduled
  obtain ⟨v, hv⟩ : ∃ v, v = r.modOut fun o => { o with clutch := o.clutch.set y.source true } := ⟨_, rfl⟩
  have opened : Via [.out] r v := hv ▸ (Via.refl r).out _ rfl
  have clutch : v.out.clutch[y.source] = true := by
    rw [hv]
    exact Vector.getElem_set_self _
  rw [← hv]
  have merge : v.feed.merge = s.feed.merge := by rw [opened.feed_eq rfl, rearmed.feed_eq rfl]
  have replaces := fun r hr => Part.repredict_replaces (s := v) (n := y.number) (lead := s.rollerLead y.source s.tick)
    (trail := plusTicks (s.rollerLead y.source s.tick) (dwell y.media s.speed)) (r := r) hr
  have others := fun r hr => Part.repredict_others (s := v) (n := y.number) (lead := s.rollerLead y.source s.tick)
    (trail := plusTicks (s.rollerLead y.source s.tick) (dwell y.media s.speed)) (r' := r) hr
  have kept := v.repredict_feed y.number (s.rollerLead y.source s.tick)
    (plusTicks (s.rollerLead y.source s.tick) (dwell y.media s.speed))
  have moved := v.repredict_via y.number (s.rollerLead y.source s.tick)
    (plusTicks (s.rollerLead y.source s.tick) (dwell y.media s.speed))
  rw [merge] at replaces others
  generalize v.repredict y.number _ _ = w at replaces others kept moved
  have counts := w.countTray_via y.source 1
  have raised := w.countTray_raised y.source 1
  rw [moved.stats_eq rfl, opened.stats_eq rfl, rearmed.stats_eq rfl] at raised
  constructor
  case via => exact (((rearmed.mono rfl).andThen opened rfl).andThen moved rfl).andThen counts rfl
  case feed =>
    rw [counts.feed_eq rfl]
    conv_lhs => rw [kept, opened.feed_eq rfl, rearmed.feed_eq rfl]
  case numbers => rw [counts.table_eq rfl, moved.table_eq rfl, opened.table_eq rfl, numbers]
  case sheet => rw [counts.table_eq rfl, moved.table_eq rfl, opened.table_eq rfl]; exact sheet
  case scheduled =>
    exact fun on => (scheduled on).keep (by
      rw [counts.dry_eq rfl, moved.dry_eq rfl, opened.dry_eq rfl]
      exact Dry.stands_of rfl rfl)
  case replaced => rw [counts.feed_eq rfl]; exact fun r hr => replaces r hr
  case others => rw [counts.feed_eq rfl]; exact others
  case clutch => rw [counts.out_eq rfl, moved.out_eq rfl, clutch]
  case counted => exact raised

/-! ## The expiry of a leading deadline (R62, R78) -/

/-- The part on which a sheet's leading deadline has expired. -/
def Part.expired (p : Part) (x : Sheet) (d : Tick) : Part := (p.advance d).modSheet x.number fun y => { y with deadline := none }

theorem Part.expired_via (p : Part) (x : Sheet) (d : Tick) : Via [.tick, .table] p (p.expired x d) :=
  ((p.advance_via d).mono rfl).andThen (Part.modSheet_via ..) rfl

theorem exec_leadingDeadline {w : List Instr} (found : p.sheet? x.number = some x) (hd : x.deadline = some d)
    (hn : x.itinerary[x.index]? = some step) :
    exec (.leadingDeadlineExpiry x.number) ⟨w, p⟩ = .next ⟨w, (p.leadingExpiry x step d).judge.conclude⟩ := by
  have e : p.expireLeading x.number = (p.leadingExpiry x step d).judge.conclude := by
    unfold Part.expireLeading
    rw [found]
    dsimp only
    rw [hd, show x.nextStep = some step from hn]
  exact congrArg (fun q => Host.Outcome.next (⟨w, q⟩ : State)) e

theorem Part.expired_finds (found : p.sheet? x.number = some x) (d : Tick) :
    (p.expired x d).sheet? x.number = some { x with deadline := none } :=
  Part.modSheet_finds (s := p.advance d) (g := fun y => { y with deadline := none }) (fun _ => rfl) found

theorem Part.retryPick_undated (s : Part) (x : Sheet) : s.retryPick { x with deadline := none } = s.retryPick x := by
  rw [s.retryPick_eq, s.retryPick_eq]

/-- A part whose sheet's leading deadline has expired, as the statement is told of it. -/
structure Part.expiredAs (p : Part) (x : Sheet) (d : Tick) (s : Part) : Prop where
  via : Via [.tick, .table] p s
  tick : s.tick = laterOf p.tick d
  fresh : s.fresh
  finds : s.sheet? x.number = some { x with deadline := none }

theorem Part.expired_as (sound : p.tableSound) (found : p.sheet? x.number = some x) (d : Tick) : p.expiredAs x d (p.expired x d) := by
  have via := p.expired_via x d
  refine ⟨via, rfl, ?_, p.expired_finds found d⟩
  exact Part.fresh_of (s := p) (Part.modSheet_numbers _ _ _ fun _ => rfl) (by rw [via.feed_eq rfl]) sound.2.1

theorem Part.expiredAs.passes {A : List Block} (h : p.expiredAs x d s) (via : Via A s t)
    (hA : hasBlock A .tick = false ∧ hasBlock A .link = false ∧ hasBlock A .stored = false ∧ hasBlock A .force = false ∧
      hasBlock A .mask = false ∧ hasBlock A .lines = false) :
    p.passesTo d t.judge.conclude ∧ t.judge.conclude.lines = p.lines := by
  obtain ⟨passes, lines⟩ := Part.ends_passes via hA h.tick (h.via.link_eq rfl) (h.via.stored_eq rfl) (h.via.force_eq rfl)
    (h.via.mask_eq rfl)
  exact ⟨passes, lines.trans (h.via.lines_eq rfl)⟩

theorem Part.expiredAs.speed (h : p.expiredAs x d s) : s.speed = p.speed := by
  unfold Part.speed
  rw [h.via.force_eq rfl, h.via.feed_eq rfl]

/-- What the statement says of a pick made once more. -/
abbrev Part.repicks (p : Part) (x : Sheet) (step : Step) (now : Tick) (q : Part) : Prop :=
  (∃ y ∈ q.table.sheets, y.number = x.number ∧ y.attempts = x.attempts + 1 ∧ y.anchor = now ∧ y.index = 0 ∧
    y.expect = some (expectAt p.force.timing p.speed now step.dist (p.stations[step.station]).offset) ∧
    y.deadline = y.expect.map fun z => plusTicks z.e z.wj) ∧
  (p.dry.on = true →
    p.scheduledEdge now x.number step.station now (transit step.dist p.speed) (dwell x.media p.speed) q) ∧
  (∀ r, p.feed.merge.find? (fun z => z.sheet == x.number) = some r →
    let lead := p.rollerLead x.source now
    ∀ r', (r' ∈ q.feed.merge ∧ r'.sheet = x.number) ↔
      r' = { r with lead := lead, trail := plusTicks lead (dwell x.media p.speed) }) ∧
  (∀ r ∈ p.feed.merge, r.sheet ≠ x.number → r.sheet ≠ p.feed.nextSheet → r ∈ q.feed.merge) ∧
  q.out.clutch[x.source] = true ∧ q.episode = p.episode ∧
  countedUp p.stats.traySet.width (p.stats.tray[x.source]) (q.stats.tray[x.source]) 1

theorem Part.retried_repicks {s₁ : Part} (sound : p.tableSound) (hx : x ∈ p.table.sheets) (h : p.expiredAs x d s)
    (rested : Via [.out] s s₁) (first : x.index = 0) (hp : p.feed.path = .running ∨ p.feed.path = .draining)
    (hn : x.itinerary[x.index]? = some step) : p.repicks x step (laterOf p.tick d) (s₁.retryPick x).judge.conclude := by
  have found : s₁.sheet? x.number = some { x with deadline := none } := (Part.sheet?_of_table (rested.table_eq rfl)).trans h.finds
  have retried : s₁.retried { x with deadline := none } step (s₁.retryPick x) := by
    have k := Part.retryPick_retried (y := { x with deadline := none }) found hn
    rwa [s₁.retryPick_undated] at k
  have via : Via [.tick, .table, .out] p s₁ := (h.via.mono rfl).andThen rested rfl
  have tick : s₁.tick = laterOf p.tick d := by rw [rested.tick_eq rfl, h.tick]
  have speed : s₁.speed = p.speed := by unfold Part.speed; rw [via.force_eq rfl, via.feed_eq rfl]
  have lead : s₁.rollerLead x.source (laterOf p.tick d) = p.rollerLead x.source (laterOf p.tick d) := by
    rw [Part.rollerLead_eq, Part.rollerLead_eq, Part.leadOver_of (via.force_eq rfl) (by rw [via.feed_eq rfl]) (via.stations_eq rfl)]
  have number : x.number < p.feed.nextSheet := sound.2.1 x hx
  obtain ⟨rvia, feed, numbers, sheet, scheduled, replaced, others, clutch, counted⟩ := retried
  rw [tick, speed] at scheduled replaced
  rw [tick, speed, via.force_eq rfl, via.stations_eq rfl] at sheet
  rw [lead, via.feed_eq rfl] at replaced
  rw [via.stats_eq rfl] at counted
  generalize s₁.retryPick x = v at *
  have nextSheet : v.feed.nextSheet = p.feed.nextSheet := by rw [feed, via.feed_eq rfl]
  have path : v.feed.path = p.feed.path := by rw [feed, via.feed_eq rfl]
  have ne : x.number ≠ v.feed.nextSheet := by rw [nextSheet]; exact number.ne
  have fresh : v.fresh := by
    refine Part.fresh_of (s := s) (numbers.trans (by rw [rested.table_eq rfl])) ?_ h.fresh
    rw [nextSheet, h.via.feed_eq rfl]
  have on := Part.ends_tracksOn (s := v) (by rw [path]; rcases hp with e | e <;> rw [e] <;> rfl)
  refine ⟨⟨_, (on.mem_iff fresh ?_).mpr sheet, rfl, rfl, rfl, first, rfl, rfl⟩, fun dry => ?_, fun r hr r' => ?_, fun r hr hs hne => ?_,
    on.clutch clutch, ?_, ?_⟩
  · exact ne
  · have told := scheduled (by rw [via.dry_eq rfl, dry])
    exact (told.of (via.dry_eq rfl)).keeps on.schedules ne
  · rw [← replaced r hr r']
    exact and_congr_left fun e => on.merge_iff fresh (by rw [e]; exact ne)
  · refine (on.merge_iff fresh (by rwa [nextSheet])).mpr ((others r hs).mpr ?_)
    rwa [via.feed_eq rfl]
  · rw [on.via.episode_eq rfl, rvia.episode_eq rfl, via.episode_eq rfl]
  · unfold countedUp at counted ⊢
    rw [on.tray (by decide)]
    exact counted

theorem trayAvailable_of (h : Via [.tick, .table, .out] p s) (v : Fin 5) : s.trayAvailable v = p.trayAvailable v := by
  unfold Part.trayAvailable Part.levelOf
  rw [h.force_eq rfl, h.lines_eq rfl, h.dry_eq rfl]

theorem retriesOf_of (h : Via [.tick, .table, .out] p s) (v : Fin 5) : s.retriesOf v = p.retriesOf v := by
  unfold Part.retriesOf
  rw [h.force_eq rfl]

theorem PathState.takesJams_of {x : PathState} (h : x = .running ∨ x = .draining) : x.takesJams = true := by
  rcases h with h | h <;> rw [h] <;> rfl

theorem Part.misfed {s₁ : Part} (h : p.expiredAs x d s) (rested : Via [.out] s s₁)
    (hp : p.feed.path = .running ∨ p.feed.path = .draining) :
    let q := ((s₁.countTray x.source 2).jamAt .misfeed step.station d (some x)).judge.conclude
    p.tookJam (stationJam p .misfeed step.station d (some x)) q ∧ q.out.clutch[x.source] = false ∧
      countedUp p.stats.traySet.width (p.stats.tray[x.source]) (q.stats.tray[x.source]) 2 := by
  have via : Via [.tick, .table, .out] p s₁ := (h.via.mono rfl).andThen rested rfl
  have counts := s₁.countTray_via x.source 2
  have raised := s₁.countTray_raised x.source 2
  rw [via.stats_eq rfl] at raised
  have feed : (s₁.countTray x.source 2).feed = p.feed := by rw [counts.feed_eq rfl, via.feed_eq rfl]
  have jammed := (Part.jamAt_taken (s := s₁.countTray x.source 2) (by rw [feed]; exact PathState.takesJams_of hp) .misfeed
    step.station d (some x)).ends
  have took := jammed.took
  rw [stationJam_of (p := p) (by rw [counts.force_eq rfl, via.force_eq rfl])] at took
  have took := took.of (p := p) (by rw [feed]) (by rw [counts.episode_eq rfl, via.episode_eq rfl])
  refine ⟨took, ?_, ?_⟩
  · have opened := took.1
    rw [if_pos (by tauto)] at opened
    obtain ⟨-, -, -, -, -, -, -, -, clutch, -⟩ := opened
    rw [clutch]
    exact Vector.getElem_replicate _
  · rw [jammed.tray]
    exact raised

theorem leadingDeadline_expires (w : List Instr) (sound : p.tableSound) (hx : x ∈ p.table.sheets) (hd : x.deadline = some d)
    (hn : x.itinerary[x.index]? = some step) (jams : p.feed.path.takesJams = true) :
    Completes (.leadingDeadlineExpiry x.number) ⟨w, p⟩ fun q =>
      let now := laterOf p.tick d
      p.passesTo d q ∧ q.lines = p.lines ∧
      if x.index = 0 ∧ (p.feed.path = .running ∨ p.feed.path = .draining) then
        if x.attempts ≤ p.retriesOf x.source ∧ p.trayAvailable x.source = true then p.repicks x step now q
        else
          p.tookJam (stationJam p .misfeed step.station d (some x)) q ∧ q.out.clutch[x.source] = false ∧
          countedUp p.stats.traySet.width (p.stats.tray[x.source]) (q.stats.tray[x.source]) 2
      else p.tookJam (stationJam p .noArrival step.station d (some x)) q ∧
        countedUp p.stats.stationSet.width (p.stats.station[step.station]) (q.stats.station[step.station]) 2 := by
  have found := Part.sheet?_of_mem sound.1 hx
  refine completes_next (exec_leadingDeadline found hd hn) ?_
  have as := Part.expired_as sound found d
  have e : p.leadingExpiry x step d = if x.index = 0 ∧ ((p.expired x d).feed.path = .running ∨ (p.expired x d).feed.path = .draining) then
      (p.expired x d).firstExpiry x step.station d else (p.expired x d).jamAt .noArrival step.station d (some x) := rfl
  rw [e]
  generalize p.expired x d = s at as
  have feed := as.via.feed_eq rfl
  rw [feed]
  split
  · next h =>
    obtain ⟨first, path⟩ := h
    obtain ⟨s₁, hs₁⟩ : ∃ s₁, s₁ = s.modOut fun o => { o with clutch := o.clutch.set x.source false } := ⟨_, rfl⟩
    have rested : Via [.out] s s₁ := hs₁ ▸ (Via.refl s).out _ rfl
    have via : Via [.tick, .table, .out] p s₁ := (as.via.mono rfl).andThen rested rfl
    have expires : s.firstExpiry x step.station d = if x.attempts ≤ s₁.retriesOf x.source ∧ s₁.trayAvailable x.source = true then
        s₁.retryPick x else (s₁.countTray x.source 2).jamAt .misfeed step.station d (some x) := hs₁ ▸ rfl
    obtain ⟨passes, lines⟩ := as.passes (s.firstExpiry_via x step.station d) ⟨rfl, rfl, rfl, rfl, rfl, rfl⟩
    rw [expires, retriesOf_of via, trayAvailable_of via] at passes lines ⊢
    refine ⟨passes, lines, ?_⟩
    split
    · exact Part.retried_repicks sound hx as rested first path hn
    · exact Part.misfed as rested path
  · obtain ⟨passes, lines⟩ := as.passes (s.jamAt_via .noArrival step.station d (some x)) ⟨rfl, rfl, rfl, rfl, rfl, rfl⟩
    have jammed := (Part.jamAt_taken (s := s) (by rwa [feed]) .noArrival step.station d (some x)).ends
    have same := jammed.of (p := p) (by rw [feed]) (as.via.episode_eq rfl) (as.via.stats_eq rfl)
    rw [stationJam_of (p := p) (as.via.force_eq rfl)] at same
    exact ⟨passes, lines, same.took, same.counted⟩

/-! ## The expiry of a trailing deadline (R78) -/

theorem exec_trailingDeadline {w : List Instr} {st : Fin 24} {c : Cover} (hc : (p.stations[st]).cover = some c) (hd : c.deadline = some d) :
    exec (.trailingDeadlineExpiry st) ⟨w, p⟩ = .next ⟨w, (p.trailingExpiry st c d).judge.conclude⟩ := by
  have e : p.expireTrailing st = (p.trailingExpiry st c d).judge.conclude := by
    unfold Part.expireTrailing
    rw [hc]
    dsimp only
    rw [hd]
  exact congrArg (fun q => Host.Outcome.next (⟨w, q⟩ : State)) e

theorem exec_trailingDeadline_none {w : List Instr} {st : Fin 24} (h : (p.stations[st]).cover.bind Cover.deadline = none) :
    exec (.trailingDeadlineExpiry st) ⟨w, p⟩ = .next ⟨w, p⟩ := by
  have e : p.expireTrailing st = p := by
    unfold Part.expireTrailing
    split
    · rfl
    · next c hc =>
      rw [hc] at h
      rw [show c.deadline = none from h]
  exact congrArg (fun q => Host.Outcome.next (⟨w, q⟩ : State)) e

theorem exec_leadingDeadline_none {w : List Instr} (found : p.sheet? x.number = some x) (h : x.deadline = none) :
    exec (.leadingDeadlineExpiry x.number) ⟨w, p⟩ = .next ⟨w, p⟩ := by
  have e : p.expireLeading x.number = p := by
    unfold Part.expireLeading
    rw [found]
    dsimp only
    rw [h]
  exact congrArg (fun q => Host.Outcome.next (⟨w, q⟩ : State)) e

/-- The part on which a station's trailing deadline has expired. -/
def Part.undated (p : Part) (st : Fin 24) (c : Cover) (d : Tick) : Part :=
  (p.advance d).modStation st fun y => { y with cover := some { c with deadline := none } }

theorem Part.undated_via (p : Part) (st : Fin 24) (c : Cover) (d : Tick) : Via [.tick, .stations] p (p.undated st c d) :=
  ((p.advance_via d).mono rfl).andThen (Part.modStation_via ..) rfl

/-- A covering entry without a deadline stays so or goes. -/
def Part.coverStays (st : Fin 24) (c : Cover) (q : Part) : Prop := (q.stations[st]).cover = none ∨ (q.stations[st]).cover = some c

section coverStays

variable {st : Fin 24} {c : Cover}

theorem Part.coverStays.of (h : s.coverStays st c) (k : s.coversGo t) : t.coverStays st c := by
  rcases k st with e | e
  · exact .inl e
  · unfold Part.coverStays
    rwa [e]

theorem Part.coverStays.relieved (h : s.coverStays st c) (hc : c.deadline = none) {hit : Nat → Bool}
    (k : t.stations = s.stations.map (Station.relieve hit)) : t.coverStays st c := by
  have row : (t.stations[st]).cover = (s.stations[st]).cover.map fun c => if hit c.sheet then { c with deadline := none } else c := by
    rw [k]
    exact congrArg Station.cover (Vector.getElem_map ..)
  unfold Part.coverStays
  rw [row]
  rcases h with e | e <;> rw [e]
  · exact .inl rfl
  · refine .inr (congrArg some ?_)
    show (if hit c.sheet then { c with deadline := none } else c) = c
    rw [← hc, ite_self]

theorem Part.coverStays.openEpisode (h : s.coverStays st c) (hc : c.deadline = none) (j : Jam) (extra : AreaSet) :
    (s.openEpisode j extra).coverStays st c := by
  obtain ⟨hit, e⟩ := s.openCore_stations j extra
  exact (h.relieved hc e).of (Part.coversGo_of ((s.openEpisode_via_core j extra).stations_eq rfl))

theorem Part.coverStays.takeJam (h : s.coverStays st c) (hc : c.deadline = none) (hp : s.feed.path.takesJams = true) (j : Jam) :
    (s.takeJam j).coverStays st c := by
  have recorded : (s.addRecord j).coverStays st c := h.of (Part.coversGo_of ((s.addRecord_via j).stations_eq rfl))
  unfold Part.takeJam
  cases hs : s.feed.path with
  | unconfigured | idle | resumable =>
    rw [hs] at hp
    cases hp
  | starting | running | draining => exact h.openEpisode hc j 0
  | halting =>
    exact (recorded.relieved hc (Part.strand_stations _ _)).of (Part.coversGo_of ((Part.endHalting_via _).stations_eq rfl))
  | held => exact recorded
  | sweeping => exact recorded.of (Part.coversGo_of ((Part.abandonSweep_via _ _).stations_eq rfl))

theorem Part.coverStays.ends (h : s.coverStays st c) (rests : s.feed.path.rests) : s.judge.conclude.coverStays st c := by
  have set : s.judgeSet.coverStays st c := h.of (Part.coversGo_of (s.judgeSet_via.stations_eq rfl))
  rcases Part.judge_rests rests with ⟨-, k⟩ | ⟨-, -, v, sweeps, k⟩
  · exact set.of (Part.coversGo_of (k.via.stations_eq rfl))
  · exact (set.of sweeps.covers).of (Part.coversGo_of (k.via.stations_eq rfl))

end coverStays

theorem trailingDeadline_expires (w : List Instr) {st : Fin 24} {c : Cover} (hc : (p.stations[st]).cover = some c)
    (hd : c.deadline = some d) (jams : p.feed.path.takesJams = true) :
    Completes (.trailingDeadlineExpiry st) ⟨w, p⟩ fun q =>
      p.passesTo d q ∧ q.lines = p.lines ∧
      p.tookJam (stationJam p .stay st d (p.table.sheets.find? fun x => x.number == c.sheet)) q ∧
      ((q.stations[st]).cover = none ∨ (q.stations[st]).cover = some { c with deadline := none }) ∧
      countedUp p.stats.stationSet.width (p.stats.station[st]) (q.stats.station[st]) 2 := by
  refine completes_next (exec_trailingDeadline hc hd) ?_
  have via := p.undated_via st c d
  have covered : (p.undated st c d).coverStays st { c with deadline := none } := by
    refine .inr ?_
    have row : (p.undated st c d).stations[st] = { p.stations[st] with cover := some { c with deadline := none } } :=
      Vector.getElem_set_self _
    rw [row]
  have tick : (p.undated st c d).tick = laterOf p.tick d := rfl
  have e : p.trailingExpiry st c d = (p.undated st c d).jamAt .stay st d ((p.undated st c d).sheet? c.sheet) := rfl
  rw [e]
  generalize p.undated st c d = s at via covered tick
  have feed := via.feed_eq rfl
  have named : s.sheet? c.sheet = p.table.sheets.find? fun x => x.number == c.sheet := by
    unfold Part.sheet?
    rw [via.table_eq rfl]
  rw [named]
  generalize (p.table.sheets.find? fun x => x.number == c.sheet) = x
  have takes : s.feed.path.takesJams = true := by rwa [feed]
  obtain ⟨passes, lines⟩ := Part.ends_passes (p := p) (v := d) (s.jamAt_via .stay st d x) ⟨rfl, rfl, rfl, rfl, rfl, rfl⟩ tick
    (via.link_eq rfl) (via.stored_eq rfl) (via.force_eq rfl) (via.mask_eq rfl)
  have jam := Part.jamAt_taken takes .stay st d x
  have jammed := jam.ends.of (p := p) (by rw [feed]) (via.episode_eq rfl) (via.stats_eq rfl)
  rw [stationJam_of (p := p) (via.force_eq rfl)] at jammed
  have counts := s.countStation_via st 2
  have stays : (s.jamAt .stay st d x).coverStays st { c with deadline := none } := by
    rw [s.jamAt_eq]
    refine Part.coverStays.takeJam ?_ rfl (by rwa [counts.feed_eq rfl]) _
    exact covered.of (Part.coversGo_of (counts.stations_eq rfl))
  exact ⟨passes, lines.trans (via.lines_eq rfl), jammed.took, stays.ends (PathState.rests_of_inEpisode jam.took.2.2), jammed.counted⟩

/-- Settles O36. -/
theorem deadlines : Obligations.Deadlines := by
  unfold Obligations.Deadlines
  refine ⟨fun w p x step d sound hx => ⟨exec_leadingDeadline_none (Part.sheet?_of_mem sound.1 hx), fun hd hn jams => ?_⟩,
    fun w p st => ⟨fun c d hc hd jams => trailingDeadline_expires w hc hd jams, exec_trailingDeadline_none⟩⟩
  exact leadingDeadline_expires w sound hx hd hn jams

end Sys2Proof.Machine
end

