-- ==== Sys2Proof/Proofs/EdgesMatched.lean ====
section
/-! PROOF. The sheet a leading edge is matched to, and what the tracker does with it (R71, R73). -/

namespace Sys2Proof.Machine

variable {s t u p r : Part} {st : Fin 24} {v : Tick} {x y : Sheet} {step : Step} {e : Expect}

/-! ## The sheet expected first (R73) -/

/-- Of ticks a before b, b is not before a. -/
theorem isBefore_asymm {a b : Tick} (h : isBefore a b = true) : isBefore b a = false := by
  refine isBefore_flip ?_
  unfold isBefore at h
  unfold notAfter
  rw [decide_eq_true_eq] at h ⊢
  exact h.le

theorem soonest_of {l : List Sheet} (hx : x ∈ l) (he : x.expect = some e)
    (first : ∀ y ∈ l, y ≠ x → y.expect.any (fun f => isBefore e.e f.e) = true) : soonest l = some x := by
  have ahead : ∀ y ∈ l, y ≠ x → x.expectedBefore y = true ∧ y.expectedBefore x = false := by
    intro y hy ne
    have h := first y hy ne
    obtain ⟨f, hf, before⟩ := (Option.any_eq_true ..).mp h
    unfold Sheet.expectedBefore
    rw [he, hf]
    exact ⟨before, isBefore_asymm before⟩
  clear first
  induction l with
  | nil => cases hx
  | cons z l ih =>
    have later := fun y hy => ahead y (List.mem_cons_of_mem _ hy)
    unfold soonest
    by_cases hz : z = x
    · subst hz
      cases hl : soonest l with
      | none => rfl
      | some y =>
        dsimp only
        by_cases hy : y = z
        · rw [hy, ite_self]
        · rw [(later y (soonest_mem hl) hy).2, if_neg Bool.false_ne_true]
    · rw [ih ((List.mem_cons.mp hx).resolve_left (Ne.symm hz)) later]
      dsimp only
      rw [(ahead z List.mem_cons_self hz).1, if_pos rfl]

/-! ## Matching -/

theorem Sheet.candidateAt_iff (x : Sheet) (st : Fin 24) (now : Tick) : x.candidateAt st now = true ↔
    x.moving = true ∧ (x.nextStep.any fun y => y.station == st) = true ∧ x.retriedAt now = false := by
  have moving : (x.cond != .stranded) = x.moving := by
    unfold Sheet.moving
    cases x.cond <;> rfl
  unfold Sheet.candidateAt
  rw [moving, Bool.and_eq_true, Bool.and_eq_true, and_assoc, Bool.not_eq_true']
  rfl

theorem Part.mem_awaiting_iff : y ∈ s.awaiting st ↔ y ∈ s.table.sheets ∧ y.candidateAt st s.tick = true := by
  rw [Part.mem_awaiting, Sheet.candidateAt_iff]

theorem Part.coveringSheet_none (h : ∀ c ∈ (s.stations[st]).cover, ∀ y ∈ s.table.sheets, y.number = c.sheet → y.cond = .stranded) :
    s.coveringSheet st = none := by
  unfold Part.coveringSheet
  rw [Option.filter_eq_none_iff]
  intro y hy
  obtain ⟨c, hc, found⟩ := Option.bind_eq_some_iff.mp hy
  have cond := h c hc y (Part.sheet?_number found).2 (Part.sheet?_number found).1
  unfold Sheet.moving
  simp [cond]

theorem Part.coveringSheet_some (sound : (s.table.sheets.map Sheet.number).Pairwise (· < ·)) {k : Cover}
    (hk : (s.stations[st]).cover = some k) (hy : y ∈ s.table.sheets) (number : y.number = k.sheet) (moving : y.cond ≠ .stranded) :
    s.coveringSheet st = some y := by
  have found : s.sheet? k.sheet = some y := number ▸ Part.sheet?_of_mem sound hy
  unfold Part.coveringSheet
  rw [hk]
  show (s.sheet? k.sheet).filter Sheet.moving = some y
  rw [found, Option.filter_some, if_pos]
  exact decide_eq_true moving

theorem Part.matchLeading_stay (h : s.coveringSheet st = some y) : s.matchLeading st = s.jamAt .stay st s.tick (some y) := by
  unfold Part.matchLeading
  rw [h]

theorem Part.matchLeading_unexpected (h : s.coveringSheet st = none)
    (none_ : ∀ y ∈ s.table.sheets, y.candidateAt st s.tick = false) : s.matchLeading st = s.jamAt .unexpectedPaper st s.tick none := by
  have awaiting : s.awaiting st = [] := List.eq_nil_iff_forall_not_mem.mpr fun y hy => by
    have k := Part.mem_awaiting_iff.mp hy
    rw [none_ y k.1] at k
    exact Bool.false_ne_true k.2
  unfold Part.matchLeading
  rw [h, awaiting]
  rfl

theorem Part.matchesLead.found (h : s.matchesLead s.tick st x step e) : s.coveringSheet st = none ∧
    soonest (s.awaiting st) = some x ∧ x.nextStep = some step ∧ x.expect = some e := by
  obtain ⟨uncovered, hx, candidate, hn, he, first⟩ := h
  refine ⟨Part.coveringSheet_none uncovered, soonest_of (Part.mem_awaiting_iff.mpr ⟨hx, candidate⟩) he fun y hy ne => ?_, hn, he⟩
  obtain ⟨hy, k⟩ := Part.mem_awaiting_iff.mp hy
  exact first y hy ne k

theorem Part.matchLeading_early (h : s.matchesLead s.tick st x step e) (early : judgeArrival e (since e.e s.tick) = none) :
    s.matchLeading st = s.jamAt .earlyArrival st s.tick (some x) := by
  obtain ⟨uncovered, found, next, expect⟩ := h.found
  unfold Part.matchLeading
  rw [uncovered, found]
  dsimp only
  rw [next, expect]
  dsimp only
  rw [early]

theorem Part.matchLeading_taken {o : Arrival} (h : s.matchesLead s.tick st x step e) (taken : judgeArrival e (since e.e s.tick) = some o) :
    s.matchLeading st = s.takeArrival x step e o := by
  obtain ⟨uncovered, found, next, expect⟩ := h.found
  unfold Part.matchLeading
  rw [uncovered, found]
  dsimp only
  rw [next, expect]
  dsimp only
  rw [taken]

theorem Part.matchesLead.station (h : s.matchesLead v st x step e) : step.station = st := by
  obtain ⟨-, -, candidate, hn, -, -⟩ := h
  have there := ((Sheet.candidateAt_iff x st v).mp candidate).2.1
  rw [show x.nextStep = some step from hn] at there
  simpa using there

theorem judgeArrival_early (h : since e.e v < -(e.wj : Int)) : judgeArrival e (since e.e v) = none := if_pos h

theorem judgeArrival_taken (h : -(e.wj : Int) ≤ since e.e v) : judgeArrival e (since e.e v) =
    some (if -(e.wt : Int) ≤ since e.e v ∧ since e.e v ≤ e.wt then .onTime else .drift) := by
  unfold judgeArrival
  rw [if_neg (not_lt.mpr h)]
  split <;> rfl

/-! ## On the part the edge is brought to -/

section brought

variable {line : Fin 32} {leading : Bool}

theorem Part.brought.matches (h : p.brought v st line leading r) (k : p.matchesLead (laterOf p.tick v) st x step e) :
    r.matchesLead r.tick st x step e := by
  unfold Part.matchesLead at k ⊢
  rwa [h.via.stations_eq rfl, h.via.table_eq rfl, h.tick]

theorem Part.leadingEdge_tracks (h : s.feed.path.tracks = true) : s.leadingEdge st = s.matchLeading st := by
  unfold Part.leadingEdge
  rcases PathState.tracks_cases h with e | e | e <;> rw [e]

theorem Part.leadingEdge_residual (h : s.feed.path = .starting ∨ s.feed.path = .sweeping) :
    s.leadingEdge st = s.jamAt .residual st s.tick none := by
  unfold Part.leadingEdge
  rcases h with e | e <;> rw [e]

theorem Part.brought.on (h : p.brought v st line leading r) : r.dry.on = p.dry.on := by rw [h.dry, (p.dry.afterEdge_keeps ..).1]

theorem Part.brought.anyPaper {d : StationDef} (h : p.brought v st d.line true r) (hd : p.force.stations[st] = some d)
    (off : r.dry.on = false) : r.anyPaper = true := by
  refine List.any_eq_true.mpr ⟨st, List.mem_finRange st, ?_⟩
  have dry : p.dry.on = false := by rw [← h.on, off]
  unfold Part.paperAt Part.levelOf
  rw [off, h.via.force_eq rfl, Desc.station_line hd, h.lines]
  unfold Part.linesAfter
  rw [dry, if_neg Bool.false_ne_true]
  exact Lines.edge_level ..

end brought

end Sys2Proof.Machine
end

