-- ==== Sys2Proof/Proofs/ArrivalEntered.lean ====
section
/-! PROOF. An arrival taken, up to its role's action: what the station learns and counts, the sheet's record, the covering entry,
the next edge, and the pick confirmed (R74, R75). -/

namespace Sys2Proof.Machine

variable {s t u p r : Part} {st : Fin 24} {v : Tick} {x y : Sheet} {step : Step} {e : Expect} {o : Arrival}

/-! ## What the station learns and counts (R21, R80, R160) -/

/-- The part once the station has learned from the arrival and counted it. -/
def Part.taught (s : Part) (x : Sheet) (step : Step) (e : Expect) (o : Arrival) : Part :=
  (s.learnAt step.station (since (plusTicks x.anchor e.transit) s.tick) o).countArrival step.station o

theorem Part.taught_via (s : Part) (x : Sheet) (step : Step) (e : Expect) (o : Arrival) :
    Via [.notices, .stations, .stats] s (s.taught x step e o) :=
  ((Part.learnAt_via ..).mono rfl).andThen (Part.countArrival_via ..) rfl

/-- A station that has learned from an arrival, its mark and step state with it. -/
def Station.learned (old : Station) (tm : Timing) (raw : Int) (o : Arrival) : Station :=
  { old.learn tm raw o with outOfStep := old.stepAfter tm o }

theorem Part.taught_station (s : Part) (x : Sheet) (step : Step) (e : Expect) (o : Arrival) (i : Fin 24) :
    (s.taught x step e o).stations[i] = if i = step.station then
      (s.stations[i]).learned s.force.timing (since (plusTicks x.anchor e.transit) s.tick) o else s.stations[i] := by
  have same : (s.taught x step e o).stations = (s.learnAt step.station (since (plusTicks x.anchor e.transit) s.tick) o).stations :=
    (Part.countArrival_via ..).stations_eq rfl
  rw [same]
  unfold Part.learnAt Part.setStep
  dsimp only
  rw [Part.modNotices_stations, Part.getElem_modStation, Part.getElem_modStation, Part.getElem_modStation]
  split
  · next h =>
    subst h
    rw [if_pos rfl]
    rfl
  · rfl

theorem Part.countArrival_counts (s : Part) (st : Fin 24) (o : Arrival) :
    countedUp s.stats.stationSet.width (s.stats.station[st]) ((s.countArrival st o).stats.station[st]) 0 ∧
    (o = .drift → countedUp s.stats.stationSet.width (s.stats.station[st]) ((s.countArrival st o).stats.station[st]) 1) ∧
    ((s.countArrival st o).stats.station[st])[(2 : Fin 3)] = (s.stats.station[st])[(2 : Fin 3)] ∧
    (s.countArrival st o).stats.tray = s.stats.tray ∧ (s.countArrival st o).stats.path = s.stats.path ∧
    (s.countArrival st o).stats.stationSet.width = s.stats.stationSet.width ∧
    (s.countArrival st o).stats.pathSet.width = s.stats.pathSet.width := by
  have widths : ∀ (q : Part) (c : Fin 3), (q.countStation st c).stats.stationSet.width = q.stats.stationSet.width ∧
      (q.countStation st c).stats.pathSet.width = q.stats.pathSet.width := fun q c => by
    unfold Part.countStation
    rw [Part.judgeWatermark_stats, (Stats.judged_records _ _).2.2.2.1, (Stats.judged_records _ _).2.2.2.2.2]
    exact ⟨rfl, rfl⟩
  have arrived := s.countStation_raised st 0
  unfold Part.countArrival
  dsimp only
  split
  · next h =>
    have drifted := (s.countStation st 0).countStation_raised st 1
    unfold countedUp at arrived drifted ⊢
    rw [(widths s 0).1, s.countStation_same st (c := 0) (d := 1) (by decide)] at drifted
    refine ⟨?_, fun _ => drifted, ?_, ?_, ?_, ?_, ?_⟩
    · rw [Part.countStation_same _ st (by decide), arrived]
    · rw [Part.countStation_same _ st (by decide), s.countStation_same st (by decide)]
    · rw [Part.countStation_tray, Part.countStation_tray]
    · rw [Part.countStation_path, Part.countStation_path]
    · rw [(widths _ 1).1, (widths s 0).1]
    · rw [(widths _ 1).2, (widths s 0).2]
  · next h =>
    exact ⟨arrived, fun k => absurd k h, s.countStation_same st (by decide), s.countStation_tray st 0, s.countStation_path st 0,
      (widths s 0).1, (widths s 0).2⟩

/-! ## The record (R74, R75) -/

/-- The record of a sheet whose arrival has been entered. -/
def Sheet.entered (x : Sheet) (step : Step) (now : Tick) (expect : Option Expect) : Sheet :=
  { (x.arrived step.station now).armed expect with pass := if x.returnsAt step then .final else x.pass }

theorem Sheet.returns_arrived (hn : x.itinerary[x.index]? = some step) (now : Tick) :
    (x.arrived step.station now).returns = x.returnsAt step := by
  unfold Sheet.returns Sheet.returnsAt Sheet.arrived
  dsimp only
  rw [Nat.add_sub_cancel, hn]
  have two : decide (2 ≤ x.index + 1) = (x.index != 0) := by
    cases x.index with
    | zero => rfl
    | succ n => simp
  have before : x.index + 1 - 2 = x.index - 1 := by omega
  rw [two, before]
  show (x.index != 0 && (step.leg == .main && step.pos == 1) && _) = _
  rw [Bool.and_comm (x.index != 0)]

/-- The part before the role's action. -/
def Part.entered (s : Part) (x : Sheet) (step : Step) (e : Expect) (o : Arrival) : Part :=
  ((s.taught x step e o).enterArrival x step).passAction (x.arrived step.station s.tick)

/-- What it is. -/
structure Part.entersAs (s : Part) (x : Sheet) (step : Step) (e : Expect) (o : Arrival) (q : Part) : Prop where
  via : Via [.notices, .feed, .out, .table, .stations, .stats, .dry] s q
  feed : q.feed = { s.feed with
    unconfirmed := if x.index = 0 ∧ s.feed.unconfirmed = some x.number then none else s.feed.unconfirmed }
  clutch : q.out.clutch = if x.index = 0 then s.out.clutch.set x.source false else s.out.clutch
  numbers : q.table.sheets.map Sheet.number = s.table.sheets.map Sheet.number
  finds : q.sheet? x.number = some (x.entered step s.tick ((x.itinerary[x.index + 1]?).map fun z =>
    expectAt s.force.timing s.speed s.tick z.dist (q.stations[z.station]).offset))
  others : ∀ y : Sheet, y.number ≠ x.number → (y ∈ q.table.sheets ↔ y ∈ s.table.sheets)
  station : q.stations[step.station] =
    { (s.stations[step.station]).learned s.force.timing (since (plusTicks x.anchor e.transit) s.tick) o with
      cover := some ⟨x.number, s.tick, some (trailingDeadline s.force.timing s.speed x.media s.tick)⟩ }
  apart : ∀ i : Fin 24, i ≠ step.station → q.stations[i] = s.stations[i]
  stats : q.stats = ((s.learnAt step.station (since (plusTicks x.anchor e.transit) s.tick) o).countArrival step.station o).stats
  scheduled : s.dry.on = true → ∀ z, x.itinerary[x.index + 1]? = some z →
    s.scheduledEdge s.tick x.number z.station s.tick (transit z.dist s.speed) (dwell x.media s.speed) q

theorem mem_map_if_of_ne {g : Sheet → Sheet} {n : Nat} {l : List Sheet} (hg : ∀ z, (g z).number = z.number) (hy : y.number ≠ n) :
    (y ∈ l.map fun z => if z.number = n then g z else z) ↔ y ∈ l := by
  rw [List.mem_map]
  constructor
  · rintro ⟨z, hz, rfl⟩
    by_cases h : z.number = n
    · rw [if_pos h] at hy
      exact absurd ((hg z).trans h) hy
    · rwa [if_neg h]
  · exact fun h => ⟨y, h, if_neg hy⟩

theorem Part.passAction_eq (s : Part) (x : Sheet) : s.passAction x =
    if x.returns then (if x.index = 1 then s.confirmPick x else s).modSheet x.number (fun y => { y with pass := .final })
    else if x.index = 1 then s.confirmPick x else s := rfl

theorem Part.passAction_feed (s : Part) (x : Sheet) : (s.passAction x).feed = { s.feed with
    unconfirmed := if x.index = 1 ∧ s.feed.unconfirmed = some x.number then none else s.feed.unconfirmed } := by
  have confirmed : (if x.index = 1 then s.confirmPick x else s).feed = { s.feed with
      unconfirmed := if x.index = 1 ∧ s.feed.unconfirmed = some x.number then none else s.feed.unconfirmed } := by
    by_cases h : x.index = 1
    · simp only [h, true_and]
      rfl
    · simp only [h, false_and, if_false]
  rw [s.passAction_eq]
  split
  · exact confirmed
  · exact confirmed

theorem Part.passAction_clutch (s : Part) (x : Sheet) :
    (s.passAction x).out.clutch = if x.index = 1 then s.out.clutch.set x.source false else s.out.clutch := by
  have confirmed : (if x.index = 1 then s.confirmPick x else s).out.clutch = if x.index = 1 then s.out.clutch.set x.source false else s.out.clutch := by
    split <;> rfl
  rw [s.passAction_eq]
  split
  · exact confirmed
  · exact confirmed

theorem Part.passAction_sheets (s : Part) (x : Sheet) : (s.passAction x).table.sheets =
    s.table.sheets.map fun y => if y.number = x.number then (if x.returns then { y with pass := .final } else y) else y := by
  have confirmed : (if x.index = 1 then s.confirmPick x else s).table = s.table := by split <;> rfl
  rw [s.passAction_eq]
  cases x.returns with
  | false =>
    rw [if_neg Bool.false_ne_true, confirmed]
    simp
  | true =>
    rw [if_pos rfl]
    show ((if x.index = 1 then s.confirmPick x else s).table.sheets.map fun y => if y.number = x.number then { y with pass := .final } else y) = _
    rw [confirmed]
    simp

/-- The part with the arrival in the sheet's record and the station's covering entry. -/
def Part.covered (s : Part) (x : Sheet) (step : Step) : Part :=
  (s.modSheet x.number fun y => y.arrived step.station s.tick).coverWith x step.station s.tick

theorem Part.covered_via (s : Part) (x : Sheet) (step : Step) : Via [.table, .stations] s (s.covered x step) :=
  ((Part.modSheet_via ..).mono rfl).andThen (Part.coverWith_via ..) rfl

theorem Part.covered_sheets (s : Part) (x : Sheet) (step : Step) : (s.covered x step).table.sheets =
    s.table.sheets.map fun y => if y.number = x.number then y.arrived step.station s.tick else y :=
  congrArg Table.sheets ((Part.coverWith_via ..).table_eq rfl)

theorem Part.covered_finds (found : s.sheet? x.number = some x) (step : Step) :
    (s.covered x step).sheet? x.number = some (x.arrived step.station s.tick) :=
  (Part.sheet?_of_table ((Part.coverWith_via ..).table_eq rfl)).trans
    (Part.modSheet_finds (g := fun y => y.arrived step.station s.tick) (fun _ => rfl) found)

theorem Part.covered_station (s : Part) (x : Sheet) (step : Step) (i : Fin 24) : (s.covered x step).stations[i] =
    if i = step.station then { s.stations[i] with
      cover := some ⟨x.number, s.tick, some (trailingDeadline s.force.timing s.speed x.media s.tick)⟩ } else s.stations[i] := by
  have e : (s.covered x step).stations[i] = if i = step.station then { s.stations[step.station] with
      cover := some ⟨x.number, s.tick, some (trailingDeadline s.force.timing s.speed x.media s.tick)⟩ } else s.stations[i] :=
    Part.getElem_modStation ..
  rw [e]
  split
  · next h => rw [h]
  · rfl

/-- Where the next step is expected and scheduled. -/
theorem Part.enterArrival_armed (found : s.sheet? x.number = some x) (step : Step) :
    let expect := (x.itinerary[x.index + 1]?).map fun z =>
      expectAt s.force.timing s.speed s.tick z.dist ((s.covered x step).stations[z.station]).offset
    (s.enterArrival x step).table.sheets = (s.covered x step).table.sheets.map (fun y => if y.number = x.number then y.armed expect else y) ∧
    (s.enterArrival x step).sheet? x.number = some ((x.arrived step.station s.tick).armed expect) ∧
    (s.dry.on = true → ∀ z, x.itinerary[x.index + 1]? = some z →
      s.scheduledEdge s.tick x.number z.station s.tick (transit z.dist s.speed) (dwell x.media s.speed) (s.enterArrival x step)) := by
  have via := s.covered_via x step
  have finds := Part.covered_finds found step
  have e : s.enterArrival x step = (s.covered x step).armNext x.number := rfl
  have speed : (s.covered x step).speed = s.speed := by unfold Part.speed; rw [via.force_eq rfl, via.feed_eq rfl]
  have expect : (s.covered x step).expectOf (x.arrived step.station s.tick) = (x.itinerary[x.index + 1]?).map fun z =>
      expectAt s.force.timing s.speed s.tick z.dist ((s.covered x step).stations[z.station]).offset := by
    unfold Part.expectOf
    rw [via.force_eq rfl, speed]
    rfl
  have table := Part.armNext_table finds
  have armed := fun z hz on => Part.armNext_scheduled (step := z) finds hz on
  rw [expect] at table
  rw [speed, via.tick_eq rfl] at armed
  rw [e]
  refine ⟨table, ?_, fun on z hz => ?_⟩
  · have numbered : ((fun y : Sheet => y.number == x.number) ∘ fun y : Sheet => if y.number = x.number then
        y.armed ((x.itinerary[x.index + 1]?).map fun z =>
          expectAt s.force.timing s.speed s.tick z.dist ((s.covered x step).stations[z.station]).offset) else y) =
        fun y => y.number == x.number := by
      funext y
      show ((if y.number = x.number then y.armed _ else y).number == x.number) = _
      split <;> rfl
    unfold Part.sheet? at finds ⊢
    rw [table, List.find?_map, numbered, finds]
    exact congrArg some (if_pos rfl)
  · exact (armed z hz (by rw [via.dry_eq rfl, on])).of (via.dry_eq rfl)

theorem Part.enterArrival_numbers (s : Part) (x : Sheet) (step : Step) :
    (s.enterArrival x step).table.sheets.map Sheet.number = s.table.sheets.map Sheet.number :=
  Part.numbers_of_idents (s.enterArrival_idents x step)

theorem Part.enterArrival_mem (found : s.sheet? x.number = some x) (step : Step) (hy : y.number ≠ x.number) :
    y ∈ (s.enterArrival x step).table.sheets ↔ y ∈ s.table.sheets := by
  have armed := (Part.enterArrival_armed found step).1
  generalize (x.itinerary[x.index + 1]?).map _ = expect at armed
  rw [armed, s.covered_sheets, mem_map_if_of_ne (g := fun y => y.armed expect) (fun _ => rfl) hy,
    mem_map_if_of_ne (g := fun y => y.arrived step.station s.tick) (fun _ => rfl) hy]

theorem Part.enterArrival_station (s : Part) (x : Sheet) (step : Step) : (s.enterArrival x step).stations = (s.covered x step).stations :=
  (Part.armNext_via ..).stations_eq rfl

/-! ## The pick confirmed and the pass (R62, R75) -/

theorem Part.passAction_mem (s : Part) (x : Sheet) (hy : y.number ≠ x.number) :
    y ∈ (s.passAction x).table.sheets ↔ y ∈ s.table.sheets := by
  rw [s.passAction_sheets, mem_map_if_of_ne (g := fun y => if x.returns then { y with pass := .final } else y) _ hy]
  intro z
  split <;> rfl

theorem Part.passAction_numbers (s : Part) (x : Sheet) :
    (s.passAction x).table.sheets.map Sheet.number = s.table.sheets.map Sheet.number :=
  Part.numbers_of_idents (s.passAction_idents x)

theorem Part.passAction_finds {n : Nat} (hn : x.number = n) (found : s.sheet? n = some y) :
    (s.passAction x).sheet? n = some (if x.returns then { y with pass := .final } else y) := by
  have numbered : ((fun z : Sheet => z.number == n) ∘ fun z : Sheet => if z.number = x.number then
      (if x.returns then { z with pass := .final } else z) else z) = fun z => z.number == n := by
    funext z
    show ((if z.number = x.number then (if x.returns then { z with pass := .final } else z) else z).number == n) = _
    split
    · split <;> rfl
    · rfl
  have number := (Part.sheet?_number found).1
  unfold Part.sheet? at found ⊢
  rw [s.passAction_sheets, List.find?_map, numbered, found]
  exact congrArg some (if_pos (number.trans hn.symm))

theorem Part.entered_as (found : s.sheet? x.number = some x) (hn : x.itinerary[x.index]? = some step) (e : Expect) (o : Arrival) :
    s.entersAs x step e o (s.entered x step e o) := by
  have taught := s.taught_via x step e o
  have learned := s.taught_station x step e o
  have stats : (s.taught x step e o).stats =
    ((s.learnAt step.station (since (plusTicks x.anchor e.transit) s.tick) o).countArrival step.station o).stats := rfl
  unfold Part.entered
  generalize s.taught x step e o = l at taught learned stats
  have found' : l.sheet? x.number = some x := (Part.sheet?_of_table (taught.table_eq rfl)).trans found
  have via := l.enterArrival_via x step
  obtain ⟨-, finds, scheduled⟩ := Part.enterArrival_armed found' step
  have numbers := l.enterArrival_numbers x step
  have mem := fun (y : Sheet) (hy : y.number ≠ x.number) => Part.enterArrival_mem found' step hy
  have station := fun i : Fin 24 => l.covered_station x step i
  rw [← l.enterArrival_station] at finds station
  have speed : l.speed = s.speed := by unfold Part.speed; rw [taught.force_eq rfl, taught.feed_eq rfl]
  rw [speed, taught.tick_eq rfl] at scheduled finds
  rw [taught.dry_eq rfl] at scheduled
  rw [taught.force_eq rfl] at finds
  rw [taught.table_eq rfl] at numbers
  generalize l.enterArrival x step = r at *
  have passed := r.passAction_via (x.arrived step.station s.tick)
  have stations : (r.passAction (x.arrived step.station s.tick)).stations = r.stations := passed.stations_eq rfl
  have before : Via [.notices, .stations, .stats, .table, .dry] s r := (taught.mono rfl).andThen via rfl
  have first : (x.arrived step.station s.tick).index = 1 ↔ x.index = 0 := by
    show x.index + 1 = 1 ↔ x.index = 0
    omega
  have returns := Sheet.returns_arrived hn s.tick
  constructor
  case via => exact (before.mono rfl).andThen passed rfl
  case feed =>
    rw [r.passAction_feed, before.feed_eq rfl]
    simp only [first]
    rfl
  case clutch =>
    rw [r.passAction_clutch, before.out_eq rfl]
    simp only [first]
    rfl
  case numbers => rw [r.passAction_numbers, numbers]
  case finds =>
    rw [Part.passAction_finds (x := x.arrived step.station s.tick) (n := x.number) rfl finds, stations, returns]
    refine congrArg some ?_
    unfold Sheet.entered
    split <;> rfl
  case others =>
    intro y hy
    rw [r.passAction_mem (x.arrived step.station s.tick) hy, mem y hy, taught.table_eq rfl]
  case station =>
    rw [stations, station, if_pos rfl, learned, if_pos rfl, taught.tick_eq rfl, taught.force_eq rfl, speed]
  case apart =>
    intro i hi
    rw [stations, station, if_neg hi, learned, if_neg hi]
  case stats => rw [passed.stats_eq rfl, via.stats_eq rfl, stats]
  case scheduled =>
    intro on z hz
    have told := (scheduled on z hz).of (taught.dry_eq rfl)
    exact told.keep (by rw [passed.dry_eq rfl]; exact Dry.stands_of rfl rfl)

end Sys2Proof.Machine
end

