-- ==== Sys2Proof/Proofs/LeadingJams.lean ====
section
/-! PROOF. A leading edge that is a jam (O33). -/

namespace Sys2Proof.Machine

variable {s t u p r : Part} {st : Fin 24} {v : Tick} {x y : Sheet} {step : Step} {e : Expect} {o : Arrival} {j : Jam}

/-! ## An arrival taken, by the role of its station (R75) -/

theorem Part.takeArrival_acts (s : Part) (x : Sheet) (step : Step) (e : Expect) (o : Arrival) : s.takeArrival x step e o =
    (((s.taught x step e o).enterArrival x step).roleAction (x.arrived step.station s.tick) step.station).repredictAt x step := by
  have tick : (s.taught x step e o).tick = s.tick := (s.taught_via x step e o).tick_eq rfl
  rw [s.takeArrival_eq]
  show (((s.taught x step e o).enterArrival x step).roleAction (x.arrived step.station (s.taught x step e o).tick) step.station).repredictAt
    x step = _
  rw [tick]

theorem Part.entered_force (s : Part) (x : Sheet) (step : Step) (e : Expect) (o : Arrival) : (s.entered x step e o).force = s.force ∧
    (s.entered x step e o).tick = s.tick ∧ (s.entered x step e o).finisher = s.finisher := by
  have via : Via [.notices, .stations, .stats, .table, .dry, .feed, .out] s (s.entered x step e o) :=
    (((s.taught_via x step e o).mono rfl).andThen (Part.enterArrival_via ..) rfl).andThen (Part.passAction_via ..) rfl
  exact ⟨via.force_eq rfl, via.tick_eq rfl, via.finisher_eq rfl⟩

theorem Part.takeArrival_plain (hr : ∀ a ∈ s.force.roleOf step.station, a ≠ .registration ∧ a ≠ .exit ∧ a ≠ .finisherEntry)
    (e : Expect) (o : Arrival) : s.takeArrival x step e o = (s.entered x step e o).repredictAt x step := by
  have force : (((s.taught x step e o).enterArrival x step).passAction (x.arrived step.station s.tick)).force = s.force :=
    (s.entered_force x step e o).1
  rw [s.takeArrival_acts, Part.roleAction_eq, force]
  split
  · next h => exact absurd rfl (hr _ h).1
  · next h => exact absurd rfl (hr _ h).2.1
  · next h => exact absurd rfl (hr _ h).2.2
  · rfl

theorem Part.takeArrival_registration (hr : s.force.roleOf step.station = some .registration) (e : Expect) (o : Arrival) :
    s.takeArrival x step e o = ((s.entered x step e o).decideCommit x.number).repredictAt x step := by
  have force := (s.entered_force x step e o).1
  have role : (((s.taught x step e o).enterArrival x step).passAction (x.arrived step.station s.tick)).force.roleOf step.station =
      some .registration := (congrArg (fun d => d.roleOf step.station) force).trans hr
  rw [s.takeArrival_acts, Part.roleAction_eq, role]
  rfl

theorem Part.takeArrival_exit (hr : s.force.roleOf step.station = some .exit) (e : Expect) (o : Arrival) :
    s.takeArrival x step e o = (if x.pass = .first then
      ((s.entered x step e o).reserve (x.arrived step.station s.tick) .return .duplex).callBack x.number
      else s.entered x step e o).repredictAt x step := by
  have force := (s.entered_force x step e o).1
  have role : (((s.taught x step e o).enterArrival x step).passAction (x.arrived step.station s.tick)).force.roleOf step.station =
      some .exit := (congrArg (fun d => d.roleOf step.station) force).trans hr
  rw [s.takeArrival_acts, Part.roleAction_eq, role]
  rfl

theorem Part.takeArrival_finisher (hr : s.force.roleOf step.station = some .finisherEntry) (e : Expect) (o : Arrival) :
    s.takeArrival x step e o = (if s.overruns x then
      (s.entered x step e o).jamAt .finisherOverrun step.station s.tick (some (x.arrived step.station s.tick))
      else s.entered x step e o).repredictAt x step := by
  obtain ⟨force, tick, finisher⟩ := s.entered_force x step e o
  have role : (((s.taught x step e o).enterArrival x step).passAction (x.arrived step.station s.tick)).force.roleOf step.station =
      some .finisherEntry := (congrArg (fun d => d.roleOf step.station) force).trans hr
  have overrun : (s.entered x step e o).overruns (x.arrived step.station s.tick) = s.overruns x :=
    Part.overruns_congr finisher force x (x.arrived step.station s.tick) rfl
  rw [s.takeArrival_acts, Part.roleAction_eq, role]
  show Part.repredictAt (if (s.entered x step e o).overruns (x.arrived step.station s.tick) then
    (s.entered x step e o).jamAt .finisherOverrun step.station (s.entered x step e o).tick (some (x.arrived step.station s.tick))
    else s.entered x step e o) x step = _
  rw [overrun, tick]

theorem Part.repredictAt_feed (s : Part) (x : Sheet) (step : Step) :
    (s.repredictAt x step).feed = { s.feed with merge := (s.repredictAt x step).feed.merge } := by
  unfold Part.repredictAt
  split
  · exact Part.repredict_feed ..
  · rfl

/-! ## The jam of an overrun (R155) -/

/-- A reservation predicted anew leaves a jam as it was taken. -/
theorem Part.tookJam.merged (h : p.tookJam j s) (via : Via [.feed] s t) (feed : t.feed = { s.feed with merge := t.feed.merge }) :
    p.tookJam j t := by
  have path := (congrArg Feed.path feed :)
  unfold Part.tookJam Part.openedWith Part.extendedWith Feed.timersIdle at h ⊢
  rw [path, (congrArg Feed.pickTimer feed :), (congrArg Feed.holdoff feed :), (congrArg Feed.ramp feed :), (congrArg Feed.runOn feed :),
    (congrArg Feed.hold feed :), (congrArg Feed.setEnd feed :), via.episode_eq rfl, via.out_eq rfl, via.table_eq rfl]
  exact h

theorem Part.jammed.merged {st : Fin 24} (h : s.jammed j st t) (via : Via [.feed] t u) (feed : u.feed = { t.feed with merge := u.feed.merge }) :
    s.jammed j st u := by
  have stats := via.stats_eq rfl
  exact ⟨h.took.merged via feed, stats ▸ h.counted, stats ▸ h.tray, stats ▸ h.path⟩

/-- What a statement about a jam at a station says of the part that brings it. -/
structure Part.jamsAt (p : Part) (j : Jam) (st : Fin 24) (q : Part) : Prop where
  took : p.tookJam j q
  counted : countedUp p.stats.stationSet.width (p.stats.station[st]) (q.stats.station[st]) 2

theorem Part.overrun_jams (found : s.sheet? x.number = some x) (hn : x.itinerary[x.index]? = some step)
    (hr : s.force.roleOf step.station = some .finisherEntry) (overrun : s.overruns x = true) (jams : s.feed.path.takesJams = true) :
    s.jamsAt (stationJam s .finisherOverrun step.station s.tick (some x)) step.station (s.takeArrival x step e o) ∧
      ((s.takeArrival x step e o).feed.path = .halting ∨ (s.takeArrival x step e o).feed.path = .held) := by
  have as := Part.entered_as found hn e o
  rw [Part.takeArrival_finisher hr, if_pos overrun]
  generalize s.entered x step e o = q at as ⊢
  have path : q.feed.path = s.feed.path := (congrArg Feed.path as.feed :)
  have takes : q.feed.path.takesJams = true := by rwa [path]
  have jam := Part.jamAt_taken takes .finisherOverrun step.station s.tick (some (x.arrived step.station s.tick))
  have left := Part.jamAt_path takes .finisherOverrun step.station s.tick (some (x.arrived step.station s.tick))
  generalize q.jamAt .finisherOverrun step.station s.tick (some (x.arrived step.station s.tick)) = a at jam left ⊢
  have feed := a.repredictAt_feed x step
  have jammed := jam.merged (Part.repredictAt_via ..) feed
  have same : stationJam q .finisherOverrun step.station s.tick (some (x.arrived step.station s.tick)) =
      stationJam s .finisherOverrun step.station s.tick (some x) := stationJam_of (as.via.force_eq rfl) ..
  rw [same] at jammed
  refine ⟨⟨jammed.took.of path (as.via.episode_eq rfl), ?_⟩, ?_⟩
  · have counted := jammed.counted
    obtain ⟨-, -, two, -, -, width, -⟩ := (s.learnAt step.station (since (plusTicks x.anchor e.transit) s.tick) o).countArrival_counts
      step.station o
    have learned := (Part.learnAt_via s step.station (since (plusTicks x.anchor e.transit) s.tick) o).stats_eq rfl
    unfold countedUp at counted ⊢
    rwa [as.stats, two, width, learned] at counted
  · rw [feed]
    exact left

/-! ## The dry run stays one (R167) -/

theorem Moves.dry_on {q : Mode} {a b : Phase} (h : Moves q a s b t) (hq : q.dryRun = false) : t.dry.on = s.dry.on := by
  induction h with
  | refl => rfl
  | snoc _ m ih => exact (Dry.run_on (m.run_eq hq)).trans ih

/-- Leave for all the tracker does of a dry run. -/
def Mode.tracking : Mode := { Mode.free with dryRun := false }

theorem Part.trackEdge_on (s : Part) (leading : Bool) (st : Fin 24) : (s.trackEdge leading st).dry.on = s.dry.on := by
  cases leading
  · exact (Part.trailingEdge_moves (q := .tracking) s rfl rfl st).dry_on rfl
  · exact (Part.leadingEdge_moves (q := .tracking) s rfl rfl st).dry_on rfl

/-! ## A leading edge that jams -/

/-- The jam stands when the event has ended, and the path is where a jam leaves it. -/
theorem Part.brought.jams {d : StationDef} (h : p.brought v st d.line true r) (hd : p.force.stations[st] = some d)
    (jam : r.jamsAt j st (r.trackEdge true st))
    (path : (r.trackEdge true st).feed.path = .halting ∨ (r.trackEdge true st).feed.path = .held) :
    let q := (r.trackEdge true st).judge.conclude
    p.jamsAt j st q ∧ (q.feed.path = .halting ∨ q.feed.path = .held ∨ (p.dry.on = true ∧ q.feed.path = .resumable)) := by
  have via := r.trackEdge_via true st
  have on := r.trackEdge_on true st
  have paper : (r.trackEdge true st).dry.on = false → (r.trackEdge true st).anyPaper = true := fun off => by
    rw [Part.anyPaper_of on (via.force_eq rfl) (via.lines_eq rfl)]
    exact h.anyPaper hd (by rw [← on, off])
  generalize r.trackEdge true st = a at *
  have counts := Part.rests_countsStand (PathState.rests_of_inEpisode jam.took.2.2)
  have left := Part.haltedEnds_path path paper
  rw [on, h.on] at left
  refine ⟨⟨(jam.took.ends).of (by rw [h.via.feed_eq rfl]) (h.via.episode_eq rfl), ?_⟩, left⟩
  rw [counts.station, ← h.via.stats_eq rfl]
  exact jam.counted

theorem Part.jamAt_jamsAt (h : s.feed.path.takesJams = true) (kind : JamKind) (st : Fin 24) (tick : Tick) (x : Option Sheet) :
    s.jamsAt (stationJam s kind st tick x) st (s.jamAt kind st tick x) :=
  have taken := Part.jamAt_taken h kind st tick x
  ⟨taken.took, taken.counted⟩

theorem PathState.tracks_takesJams {x : PathState} (h : x.tracks = true) : x.takesJams = true := by
  rcases PathState.tracks_cases h with e | e | e <;> rw [e] <;> rfl

/-- The jams of the statement. -/
abbrev Part.edgeJam (p : Part) (st : Fin 24) (d : StationDef) (now : Tick) (kind : JamKind) (x : Option Sheet) : Prop :=
  (p.feed.path = .starting ∨ (p.feed.path = .sweeping ∧ p.dry.on = false)) ∧ kind = .residual ∧ x = none ∨
    p.feed.path.tracks = true ∧
      ((kind = .stay ∧ ∃ k ∈ (p.stations[st]).cover, ∃ y ∈ p.table.sheets, y.number = k.sheet ∧ y.cond ≠ .stranded ∧ x = some y) ∨
        (kind = .unexpectedPaper ∧ x = none ∧
          (∀ k ∈ (p.stations[st]).cover, ∀ y ∈ p.table.sheets, y.number = k.sheet → y.cond = .stranded) ∧
          ∀ y ∈ p.table.sheets, y.candidateAt st now = false) ∨
        ∃ y ∈ p.table.sheets, x = some y ∧ ∃ step ∈ y.itinerary[y.index]?, ∃ e ∈ y.expect, p.matchesLead now st y step e ∧
          ((kind = .earlyArrival ∧ since e.e now < -(e.wj : Int)) ∨
            (kind = .finisherOverrun ∧ -(e.wj : Int) ≤ since e.e now ∧ d.role = .finisherEntry ∧
              (p.finisher.state = .stapling ∨ p.finisher.state = .ejecting ∨
                (p.finisher.state ≠ .empty ∧ p.finisher.ident ≠ some (y.job, y.set)) ∨
                p.force.capacity ≤ p.finisher.sheets.length))))

theorem Part.roleOf_some {d : StationDef} (hd : p.force.stations[st] = some d) (force : s.force = p.force) :
    s.force.roleOf st = some d.role := by
  unfold Desc.roleOf
  rw [force, hd]
  rfl

/-- On the part it is brought to, the edge jams. -/
theorem Part.brought.edge_jams {d : StationDef} {kind : JamKind} {x : Option Sheet} (sound : p.tableSound) (h : p.brought v st d.line true r)
    (hd : p.force.stations[st] = some d) (jam : p.edgeJam st d (laterOf p.tick v) kind x) :
    r.jamsAt (stationJam p kind st (laterOf p.tick v) x) st (r.trackEdge true st) ∧
      ((r.trackEdge true st).feed.path = .halting ∨ (r.trackEdge true st).feed.path = .held) := by
  have via := h.via
  have path : r.feed.path = p.feed.path := by rw [via.feed_eq rfl]
  have at_ : r.feed.path.takesJams = true → r.leadingEdge st = r.jamAt kind st r.tick x →
      r.jamsAt (stationJam p kind st (laterOf p.tick v) x) st (r.trackEdge true st) ∧
        ((r.trackEdge true st).feed.path = .halting ∨ (r.trackEdge true st).feed.path = .held) := fun takes e => by
    have edge : r.trackEdge true st = r.jamAt kind st r.tick x := e
    rw [edge, ← stationJam_of (via.force_eq rfl), ← h.tick]
    exact ⟨Part.jamAt_jamsAt takes .., Part.jamAt_path takes ..⟩
  rcases jam with ⟨hp, rfl, rfl⟩ | ⟨tracks, jam⟩
  · have hp : r.feed.path = .starting ∨ r.feed.path = .sweeping := by rw [path]; exact hp.imp_right And.left
    exact at_ (by rcases hp with e | e <;> rw [e] <;> rfl) (Part.leadingEdge_residual hp)
  · have tracks : r.feed.path.tracks = true := by rwa [path]
    have takes := PathState.tracks_takesJams tracks
    have edge := Part.leadingEdge_tracks (st := st) tracks
    rcases jam with ⟨rfl, k, hk, y, hy, number, moving, rfl⟩ | ⟨rfl, rfl, uncovered, none_⟩ | ⟨y, -, rfl, step, -, e, -, matched, jam⟩
    · refine at_ takes (edge.trans (Part.matchLeading_stay ?_))
      exact Part.coveringSheet_some (by rw [via.table_eq rfl]; exact sound.1) (by rw [via.stations_eq rfl]; exact hk)
        (by rwa [via.table_eq rfl]) number moving
    · refine at_ takes (edge.trans (Part.matchLeading_unexpected (Part.coveringSheet_none ?_) ?_))
      · rwa [via.stations_eq rfl, via.table_eq rfl]
      · rwa [via.table_eq rfl, h.tick]
    · have matched := h.matches matched
      have station := matched.station
      rcases jam with ⟨rfl, early⟩ | ⟨rfl, taken, role, overruns⟩
      · exact at_ takes (edge.trans (Part.matchLeading_early matched (by rw [h.tick]; exact judgeArrival_early early)))
      · have arrives := edge.trans (Part.matchLeading_taken matched (by rw [h.tick]; exact judgeArrival_taken taken))
        have track : r.trackEdge true st = _ := arrives
        have found : r.sheet? y.number = some y := Part.sheet?_of_mem (by rw [via.table_eq rfl]; exact sound.1) matched.2.1
        have overrun : r.overruns y = true := by
          rw [Part.overruns_iff, via.finisher_eq rfl, via.force_eq rfl]
          exact overruns
        subst station
        have jams := Part.overrun_jams (e := e) (o := if -(e.wt : Int) ≤ since e.e (laterOf p.tick v) ∧ since e.e (laterOf p.tick v) ≤ e.wt
          then .onTime else .drift) found matched.2.2.2.1 ((Part.roleOf_some hd (via.force_eq rfl)).trans (congrArg some role)) overrun takes
        rw [track]
        rwa [stationJam_of (via.force_eq rfl), h.tick] at jams

theorem Part.edgeJam.brings {d : StationDef} {kind : JamKind} {x : Option Sheet} {now : Tick} (h : p.edgeJam st d now kind x)
    (on : p.dry.on = true) : p.feed.path.takesEdges = true := by
  rcases h with ⟨hp | ⟨-, off⟩, -⟩ | ⟨tracks, -⟩
  · rw [hp]
    rfl
  · rw [on] at off
    cases off
  · rcases PathState.tracks_cases tracks with e | e | e <;> rw [e] <;> rfl

/-- In SWEEPING the jam abandons the sweep and bars the next (R130). -/
theorem Part.brought.bars {d : StationDef} (h : p.brought v st d.line true r) (hd : p.force.stations[st] = some d)
    (sweeping : p.feed.path = .sweeping) (off : p.dry.on = false) :
    let q := (r.trackEdge true st).judge.conclude
    q.feed.path = .held ∧ q.episode.barred = true ∧ q.episode.sweepTimer = none := by
  have via := r.trackEdge_via true st
  have on := r.trackEdge_on true st
  have path : r.feed.path = .sweeping := by rw [h.via.feed_eq rfl, sweeping]
  have paper : (r.trackEdge true st).anyPaper = true := by
    rw [Part.anyPaper_of on (via.force_eq rfl) (via.lines_eq rfl)]
    exact h.anyPaper hd (by rw [h.on, off])
  have counts := r.countStation_via st 2
  have residual : r.trackEdge true st = ((r.countStation st 2).addRecord (stationJam r .residual st r.tick none)).abandonSweep true := by
    have edge : r.trackEdge true st = r.jamAt .residual st r.tick none := Part.leadingEdge_residual (.inr path)
    rw [edge, r.jamAt_eq]
    unfold Part.takeJam
    rw [counts.feed_eq rfl, path]
    rfl
  have held : (r.trackEdge true st).feed.path = .held := by rw [residual, Part.abandonSweep_feed]
  have episode : (r.trackEdge true st).episode.barred = true ∧ (r.trackEdge true st).episode.sweepTimer = none := by
    rw [residual]
    unfold Part.abandonSweep
    rw [(Part.setPath_via ..).episode_eq rfl, (Part.stopDrives_via _).episode_eq rfl]
    exact ⟨Bool.or_true _, rfl⟩
  have still := Part.ends_untouched (s := r.trackEdge true st) (by rw [held]; exact ⟨nofun, nofun, nofun⟩) (.inr paper)
  refine ⟨by rw [still.path, held], ?_⟩
  rw [still.episode]
  exact episode

/-- Settles O33. -/
theorem leadingEdgeJams : Obligations.LeadingEdgeJams := by
  unfold Obligations.LeadingEdgeJams
  intro w p c t st d kind x sound hc hd jam
  obtain ⟨r, brought, e⟩ := exec_brings (w := w) hc hd (Part.edgeJam.brings (x := x) jam)
  refine completes_next e ?_
  obtain ⟨passes, lines⟩ := brought.passes
  obtain ⟨jams, left⟩ := brought.edge_jams sound hd jam
  obtain ⟨jammed, path⟩ := brought.jams hd jams left
  refine ⟨passes, lines, jammed.took, path, fun sweeping => ?_, jammed.counted⟩
  refine brought.bars hd sweeping ?_
  rcases jam with ⟨hp | ⟨-, off⟩, -⟩ | ⟨tracks, -⟩
  · rw [hp] at sweeping
    cases sweeping
  · exact off
  · rw [sweeping] at tracks
    cases tracks

end Sys2Proof.Machine
end

