-- ==== Sys2Proof/Proofs/CommitDecision.lean ====
section
/-! PROOF. The commit decision at REGISTRATION and the spoil cascade, branch by branch (R94 to R100). -/

namespace Sys2Proof.Machine

variable {s t u : Part} {x y : Sheet} {n : Nat} {back : Bool}

/-! ## Calls dropped (R94) -/

theorem mem_callsOf_drop {f : Call → Bool} {k : Call} :
    k ∈ callsOf (s.modCalls fun c => c.drop f) ↔ k ∈ callsOf s ∧ f k = false := by
  have perm := (promote_perm s.calls.deferred.length ⟨s.calls.queue.filter fun x => !f x, s.calls.deferred.filter fun x => !f x⟩).1
  have e : callsOf (s.modCalls fun c => c.drop f) =
      (promote s.calls.deferred.length ⟨s.calls.queue.filter fun x => !f x, s.calls.deferred.filter fun x => !f x⟩).queue ++
      (promote s.calls.deferred.length ⟨s.calls.queue.filter fun x => !f x, s.calls.deferred.filter fun x => !f x⟩).deferred := rfl
  rw [e, perm.mem_iff]
  unfold callsOf
  rw [← List.filter_append, List.mem_filter, Bool.not_eq_true']

/-! ## The cascade (R97 to R100) -/

/-- The subjects are those the statements spell. -/
theorem Part.subjects_eq (s : Part) (x : Sheet) : s.subjects x.number = s.table.sheets.filter (subjectOf s.force x) := by
  refine List.filter_congr fun y _ => ?_
  unfold subjectOf Desc.pastPurgeGate
  rw [List.not_any_eq_all_not]
  rfl

theorem Part.spoilAll_sheets (l : List Sheet) (distinct : (l.map Sheet.number).Nodup) (s : Part) :
    (l.foldl Part.spoilSheet s).table.sheets =
      s.table.sheets.map fun y => if y.number ∈ l.map Sheet.number then s.spoiled y else y := by
  induction l generalizing s with
  | nil => simp
  | cons x l ih =>
    obtain ⟨hx, distinct⟩ := List.nodup_cons.mp distinct
    have force : (s.spoilSheet x).force = s.force := (s.spoilSheet_via x).force_eq rfl
    have spoiled : ∀ y, (s.spoilSheet x).spoiled y = s.spoiled y := fun y => by
      unfold Part.spoiled
      rw [force]
    rw [List.foldl_cons, ih distinct, s.spoilSheet_sheets, List.map_map]
    refine List.map_congr_left fun y _ => ?_
    show (if (if y.number = x.number then (s.force.purged y).release else y).number ∈ l.map Sheet.number then
      (s.spoilSheet x).spoiled (if y.number = x.number then (s.force.purged y).release else y)
      else if y.number = x.number then (s.force.purged y).release else y) = _
    rw [spoiled, List.map_cons]
    by_cases h : y.number = x.number
    · have number : (s.force.purged y).release.number = y.number := rfl
      have out : y.number ∉ l.map Sheet.number := h ▸ hx
      have mem : y.number ∈ x.number :: l.map Sheet.number := List.mem_cons.mpr (.inl h)
      rw [if_pos h, if_pos mem, number, if_neg out]
      rfl
    · rw [if_neg h]
      simp only [List.mem_cons, h, false_or]

theorem Part.spoilAll_via (l : List Sheet) (s : Part) : Via [.table, .planner, .calls] s (l.foldl Part.spoilSheet s) :=
  Via.fold (A := [.table, .planner, .calls]) (.refl s) l fun p x => (p.spoilSheet_via x).mono rfl

theorem Part.spoilAll_calls (l : List Sheet) (s : Part) {k : Call} :
    k ∈ callsOf (l.foldl Part.spoilSheet s) ↔ k ∈ callsOf s ∧ ∀ y ∈ l, k.sheet ≠ y.number := by
  induction l generalizing s with
  | nil => simp
  | cons x l ih =>
    have one : k ∈ callsOf (s.spoilSheet x) ↔ k ∈ callsOf s ∧ k.sheet ≠ x.number := by
      have e : s.spoilSheet x = (((s.purgeSheet x.number).reprint .spoiled x.pages).modSheet x.number Sheet.release).modCalls
          fun c => c.drop fun y => y.sheet == x.number := rfl
      have base : callsOf (((s.purgeSheet x.number).reprint .spoiled x.pages).modSheet x.number Sheet.release) = callsOf s := rfl
      rw [e, mem_callsOf_drop, base, beq_eq_false_iff_ne]
    rw [List.foldl_cons, ih, one, List.forall_mem_cons, and_assoc]

theorem Part.spoilAll_list (l : List Sheet) (s : Part) : (l.foldl Part.spoilSheet s).planner.list.Perm
    (s.planner.list ++ (l.flatMap Sheet.pages).map (⟨·, .spoiled⟩)) := by
  induction l generalizing s with
  | nil => simp
  | cons x l ih =>
    rw [List.foldl_cons, List.flatMap_cons, List.map_append, ← List.append_assoc]
    refine (ih _).trans (List.Perm.append_right _ ?_)
    rw [s.spoilSheet_list]
    exact insertEntries_perm ..

/-- What a cascade leaves: `f` picks its subjects. -/
structure Part.cascaded (s : Part) (n page : Nat) (f : Sheet → Bool) (t : Part) : Prop where
  via : Via [.notices, .calls, .table, .gate, .planner] s t
  sheets : t.table.sheets = s.table.sheets.map fun y => if f y then s.spoiled y else y
  calls : ∀ k ∈ callsOf t, k ∈ callsOf s ∧ ∀ y ∈ s.table.sheets, f y = true → k.sheet ≠ y.number
  list : t.planner.list.Perm (s.planner.list ++ ((s.table.sheets.filter f).flatMap Sheet.pages).map (⟨·, .spoiled⟩))
  gate : t.gate = { s.gate with spoilCount := s.gate.spoilCount + 1 }
  noted : s.mask.spoil = true → t.notices.spoil = some ⟨n, page, (s.table.sheets.filter f).length⟩

theorem Part.noteSpoil_gate (s : Part) (a b c : Nat) : (s.noteSpoil a b c).gate = { s.gate with spoilCount := s.gate.spoilCount + 1 } := by
  unfold Part.noteSpoil
  dsimp only
  split <;> rfl

theorem Part.noteSpoil_notices (s : Part) (a b c : Nat) (h : s.mask.spoil = true) : (s.noteSpoil a b c).notices.spoil = some ⟨a, b, c⟩ := by
  unfold Part.noteSpoil
  dsimp only
  rw [if_pos (show (s.modGate _).mask.spoil = true from h)]
  rfl

theorem Part.cascade_cascaded (sound : (s.table.sheets.map Sheet.number).Pairwise (· < ·)) (x : Sheet) (page : Nat) :
    s.cascaded x.number page (subjectOf s.force x) (s.cascade x.number page) := by
  have e : s.cascade x.number page =
      ((s.table.sheets.filter (subjectOf s.force x)).foldl Part.spoilSheet s).noteSpoil x.number page
        (s.table.sheets.filter (subjectOf s.force x)).length := by
    unfold Part.cascade
    dsimp only
    rw [s.subjects_eq]
  have distinct : ((s.table.sheets.filter (subjectOf s.force x)).map Sheet.number).Nodup :=
    (sound.imp fun h => h.ne).sublist (List.filter_sublist.map _)
  have folded := Part.spoilAll_via (s.table.sheets.filter (subjectOf s.force x)) s
  have sheets := Part.spoilAll_sheets _ distinct s
  have calls := fun k => Part.spoilAll_calls (s.table.sheets.filter (subjectOf s.force x)) s (k := k)
  have list := Part.spoilAll_list (s.table.sheets.filter (subjectOf s.force x)) s
  rw [e]
  generalize (s.table.sheets.filter (subjectOf s.force x)).foldl Part.spoilSheet s = q at folded sheets calls list
  have noted := q.noteSpoil_via x.number page (s.table.sheets.filter (subjectOf s.force x)).length
  constructor
  case via => exact (folded.mono rfl).andThen noted rfl
  case sheets =>
    rw [noted.table_eq rfl, sheets]
    refine List.map_congr_left fun y hy => ?_
    have iff : y.number ∈ (s.table.sheets.filter (subjectOf s.force x)).map Sheet.number ↔ subjectOf s.force x y = true := by
      constructor
      · intro h
        obtain ⟨z, hz, number⟩ := List.mem_map.mp h
        obtain ⟨hz, subject⟩ := List.mem_filter.mp hz
        exact sheet_unique sound hz hy number ▸ subject
      · exact fun h => List.mem_map_of_mem (List.mem_filter.mpr ⟨hy, h⟩)
    simp only [iff]
  case calls =>
    have same : callsOf (q.noteSpoil x.number page (s.table.sheets.filter (subjectOf s.force x)).length) = callsOf q := by
      unfold callsOf
      rw [noted.calls_eq rfl]
    rw [same]
    intro k hk
    obtain ⟨mem, none⟩ := (calls k).mp hk
    exact ⟨mem, fun y hy subject => none y (List.mem_filter.mpr ⟨hy, subject⟩)⟩
  case list => rw [noted.planner_eq rfl]; exact list
  case gate => rw [q.noteSpoil_gate, folded.gate_eq rfl]
  case noted => exact fun on => q.noteSpoil_notices _ _ _ (by rw [folded.mask_eq rfl, on])

/-! ## The branches of the decision (R95) -/

/-- Sheet `n`'s record was changed by `g`, and the calls of its side dropped. -/
structure Part.decided (s : Part) (n : Nat) (back : Bool) (g : Sheet → Sheet) (t : Part) : Prop where
  via : Via [.calls, .table] s t
  sheets : t.table.sheets = s.table.sheets.map fun y => if y.number = n then g y else y
  calls : ∀ k ∈ callsOf t, k ∈ callsOf s ∧ ¬ (k.sheet = n ∧ (k.side == .back) = back)

/-- The side was SPOILED, and the cascade ran. -/
structure Part.spoils (s : Part) (x : Sheet) (back : Bool) (page : Nat) (t : Part) : Prop where
  via : Via [.notices, .calls, .table, .gate, .planner, .stats] s t
  sheets : t.table.sheets = (s.table.sheets.map fun y => if y.number = x.number then y.setSide back .spoiled else y).map fun y =>
    if subjectOf s.force x y then s.spoiled y else y
  calls : ∀ k ∈ callsOf t, ¬ (k.sheet = x.number ∧ (k.side == .back) = back) ∧
    ∀ y ∈ s.table.sheets, subjectOf s.force x y = true → k.sheet ≠ y.number
  list : t.planner.list.Perm (s.planner.list ++ ((s.table.sheets.filter (subjectOf s.force x)).flatMap Sheet.pages).map (⟨·, .spoiled⟩))
  gate : t.gate = { s.gate with spoilCount := s.gate.spoilCount + 1 }
  noted : s.mask.spoil = true → t.notices.spoil = some ⟨x.number, page, (s.table.sheets.filter (subjectOf s.force x)).length⟩
  counted : countedUp s.stats.pathSet.width s.stats.path t.stats.path 4

theorem mem_callsOf_dropSide {k : Call} :
    k ∈ callsOf (s.dropSideCall n back) ↔ k ∈ callsOf s ∧ ¬ (k.sheet = n ∧ (k.side == .back) = back) := by
  have e : s.dropSideCall n back = s.modCalls fun c => c.drop fun y => y.sheet == n && (y.side == .back) == back := rfl
  rw [e, mem_callsOf_drop, ← Bool.not_eq_true, Bool.and_eq_true, beq_iff_eq, beq_iff_eq]

theorem Part.dropSideCall_decided (s : Part) (n : Nat) (back : Bool) (g : Sheet → Sheet) :
    s.decided n back g ((s.dropSideCall n back).modSheet n g) := by
  refine ⟨?_, rfl, fun k hk => mem_callsOf_dropSide.mp hk⟩
  exact ((Part.dropSideCall_via s n back).mono rfl).andThen (Part.modSheet_via ..) rfl

theorem Part.decided_id (s : Part) (n : Nat) (back : Bool) : s.decided n back id (s.dropSideCall n back) := by
  refine ⟨(Part.dropSideCall_via s n back).mono rfl, ?_, fun k hk => mem_callsOf_dropSide.mp hk⟩
  have same : (s.dropSideCall n back).table = s.table := rfl
  rw [same]
  simp

theorem Part.decideCommit_voided (found : s.sheet? n = some x) (h : x.cond = .purging ∨ x.released = true) :
    s.decided n x.backPasses (fun y => y.setSide x.backPasses .void) (s.decideCommit n) := by
  have e : s.decideCommit n = (s.dropSideCall n x.backPasses).modSheet n fun y => y.setSide x.backPasses .void := by
    unfold Part.decideCommit
    rw [found]
    exact if_pos h
  rw [e]
  exact s.dropSideCall_decided ..

theorem Part.decideCommit_blank (found : s.sheet? n = some x) (h : ¬ (x.cond = .purging ∨ x.released = true))
    (none_ : x.kind = .insert ∨ x.pageOf x.backPasses = none) : s.decided n x.backPasses id (s.decideCommit n) := by
  have e : s.decideCommit n = s.dropSideCall n x.backPasses := by
    unfold Part.decideCommit
    rw [found]
    dsimp only
    rw [if_neg h]
    rcases none_ with k | k
    · rw [if_pos k]
    · rw [k, ite_self]
  rw [e]
  exact s.decided_id ..

theorem Part.decideCommit_ready {g : Page} (found : s.sheet? n = some x) (h : ¬ (x.cond = .purging ∨ x.released = true))
    (kind : x.kind ≠ .insert) (page : x.pageOf x.backPasses = some g) (ready : g.ready = true) :
    s.decided n x.backPasses (fun y => y.commit x.backPasses) (s.decideCommit n) := by
  have e : s.decideCommit n = (s.dropSideCall n x.backPasses).modSheet n fun y => y.commit x.backPasses := by
    unfold Part.decideCommit
    rw [found]
    dsimp only
    rw [if_neg h, if_neg kind, page]
    exact if_pos ready
  rw [e]
  exact s.dropSideCall_decided ..

theorem Sheet.setSide_subject (d : Desc) (x y : Sheet) (back : Bool) (v : SideState) : subjectOf d x (y.setSide back v) = subjectOf d x y := by
  unfold Sheet.setSide
  cases back <;> rfl

theorem Sheet.setSide_pages (y : Sheet) (back : Bool) (v : SideState) : (y.setSide back v).pages = y.pages := by
  unfold Sheet.setSide
  cases back <;> rfl

theorem Part.countPath_width (s : Part) (c : Fin 10) : (s.countPath c).stats.pathSet.width = s.stats.pathSet.width := by
  unfold Part.countPath
  rw [Part.judgeWatermark_stats, (Stats.judged_records _ _).2.2.2.1]
  rfl

theorem filter_map_setSide (d : Desc) (x : Sheet) (back : Bool) (l : List Sheet) :
    ((l.map fun y => if y.number = x.number then y.setSide back .spoiled else y).filter (subjectOf d x)).flatMap Sheet.pages =
      (l.filter (subjectOf d x)).flatMap Sheet.pages ∧
    ((l.map fun y => if y.number = x.number then y.setSide back .spoiled else y).filter (subjectOf d x)).length =
      (l.filter (subjectOf d x)).length := by
  have same : (subjectOf d x ∘ fun y : Sheet => if y.number = x.number then y.setSide back .spoiled else y) = subjectOf d x := by
    funext y
    show subjectOf d x (if y.number = x.number then y.setSide back .spoiled else y) = subjectOf d x y
    split
    · exact Sheet.setSide_subject ..
    · rfl
  rw [List.filter_map, same, List.flatMap_map, List.length_map]
  refine ⟨List.flatMap_congr fun y _ => ?_, rfl⟩
  split
  · exact Sheet.setSide_pages ..
  · rfl

theorem Part.decideCommit_spoils {g : Page} (sound : (s.table.sheets.map Sheet.number).Pairwise (· < ·)) (found : s.sheet? x.number = some x)
    (h : ¬ (x.cond = .purging ∨ x.released = true)) (kind : x.kind ≠ .insert) (page : x.pageOf x.backPasses = some g)
    (ready : g.ready = false) : s.spoils x x.backPasses g.id (s.decideCommit x.number) := by
  obtain ⟨v, hv⟩ : ∃ v, v = ((s.dropSideCall x.number x.backPasses).modSheet x.number fun y => y.setSide x.backPasses .spoiled).countPath 4 :=
    ⟨_, rfl⟩
  have e : s.decideCommit x.number = v.cascade x.number g.id := by
    unfold Part.decideCommit
    rw [found]
    dsimp only
    rw [if_neg h, if_neg kind, page]
    dsimp only
    rw [if_neg (by rw [ready]; exact Bool.false_ne_true), hv]
  have counts : Via [.notices, .stats] ((s.dropSideCall x.number x.backPasses).modSheet x.number fun y => y.setSide x.backPasses .spoiled) v :=
    hv ▸ Part.countPath_via ..
  have side := s.dropSideCall_decided x.number x.backPasses fun y => y.setSide x.backPasses .spoiled
  have raised := Part.countPath_raised ((s.dropSideCall x.number x.backPasses).modSheet x.number fun y => y.setSide x.backPasses .spoiled) 4
  rw [← hv, side.via.stats_eq rfl] at raised
  generalize (s.dropSideCall x.number x.backPasses).modSheet x.number (fun y => y.setSide x.backPasses .spoiled) = w at counts side
  have via : Via [.calls, .table, .notices, .stats] s v := (side.via.mono rfl).andThen counts rfl
  have sheets : v.table.sheets = s.table.sheets.map fun y => if y.number = x.number then y.setSide x.backPasses .spoiled else y := by
    rw [counts.table_eq rfl, side.sheets]
  have numbers : v.table.sheets.map Sheet.number = s.table.sheets.map Sheet.number := by
    rw [sheets, List.map_map]
    refine List.map_congr_left fun y _ => ?_
    show (if y.number = x.number then y.setSide x.backPasses .spoiled else y).number = y.number
    split
    · unfold Sheet.setSide
      split <;> rfl
    · rfl
  have cascaded := Part.cascade_cascaded (s := v) (by rw [numbers]; exact sound) x g.id
  obtain ⟨pages, length⟩ := filter_map_setSide s.force x x.backPasses s.table.sheets
  have force := via.force_eq rfl
  have spoiled : ∀ y, v.spoiled y = s.spoiled y := fun y => by
    unfold Part.spoiled
    rw [force]
  have calls : callsOf v = callsOf w := by
    unfold callsOf
    rw [counts.calls_eq rfl]
  rw [force] at cascaded
  rw [e]
  constructor
  case via => exact (via.mono rfl).andThen cascaded.via rfl
  case sheets =>
    rw [cascaded.sheets, sheets]
    simp only [spoiled]
  case calls =>
    intro k hk
    obtain ⟨mem, none⟩ := cascaded.calls k hk
    rw [calls] at mem
    refine ⟨(side.calls k mem).2, fun y hy subject => ?_⟩
    by_cases hn : y.number = x.number
    · have here : y.setSide x.backPasses .spoiled ∈ v.table.sheets := by
        rw [sheets]
        exact List.mem_map.mpr ⟨y, hy, if_pos hn⟩
      have ne := none _ here (by rwa [Sheet.setSide_subject])
      have number : (y.setSide x.backPasses .spoiled).number = y.number := by
        unfold Sheet.setSide
        split <;> rfl
      rwa [number] at ne
    · exact none y (by rw [sheets]; exact List.mem_map.mpr ⟨y, hy, if_neg hn⟩) subject
  case list =>
    have list := cascaded.list
    rw [sheets, pages, via.planner_eq rfl] at list
    exact list
  case gate => rw [cascaded.gate, via.gate_eq rfl]
  case noted =>
    intro on
    have noted := cascaded.noted (by rw [via.mask_eq rfl, on])
    rwa [sheets, length] at noted
  case counted =>
    rw [cascaded.via.stats_eq rfl]
    exact raised

/-! ## What every decision keeps of a sheet -/

/-- What the tracker knows of a sheet's way. -/
def Sheet.tracked (x : Sheet) : (Nat × Nat × Tick × Option (Fin 24)) × Option (Fin 24) × Option Expect × Option Tick × Pass :=
  ((x.number, x.index, x.anchor, x.lastPassed), x.covering, x.expect, x.deadline, x.pass)

/-- The sheets were changed one by one, each on the way it was. -/
def Part.retouches (s t : Part) : Prop := ∃ g : Sheet → Sheet, t.table.sheets = s.table.sheets.map g ∧ ∀ y, (g y).tracked = y.tracked

theorem Part.retouches_of (h : t.table = s.table) : s.retouches t := ⟨id, by rw [h, List.map_id], fun _ => rfl⟩

theorem Part.retouches_if {g : Sheet → Sheet} (hg : ∀ y, (g y).tracked = y.tracked)
    (h : t.table.sheets = s.table.sheets.map fun y => if y.number = n then g y else y) : s.retouches t :=
  ⟨_, h, fun y => by
    show (if y.number = n then g y else y).tracked = y.tracked
    split
    · exact hg y
    · rfl⟩

theorem Sheet.setSide_tracked (y : Sheet) (back : Bool) (v : SideState) : (y.setSide back v).tracked = y.tracked := by
  unfold Sheet.setSide
  split <;> rfl

theorem Part.retouches.mem (h : s.retouches t) (hy : y ∈ s.table.sheets) : ∃ z ∈ t.table.sheets, z.tracked = y.tracked := by
  obtain ⟨g, e, hg⟩ := h
  exact ⟨g y, e ▸ List.mem_map_of_mem hy, hg y⟩

theorem Part.retouches.numbers (h : s.retouches t) : t.table.sheets.map Sheet.number = s.table.sheets.map Sheet.number := by
  obtain ⟨g, e, hg⟩ := h
  rw [e, List.map_map]
  exact List.map_congr_left fun y _ => (congrArg (fun z => z.1.1) (hg y) :)

theorem Part.decideCommit_retouches (sound : (s.table.sheets.map Sheet.number).Pairwise (· < ·)) (found : s.sheet? x.number = some x) :
    s.retouches (s.decideCommit x.number) := by
  by_cases h : x.cond = .purging ∨ x.released = true
  · exact Part.retouches_if (fun y => y.setSide_tracked ..) (Part.decideCommit_voided found h).sheets
  · by_cases none_ : x.kind = .insert ∨ x.pageOf x.backPasses = none
    · exact Part.retouches_if (fun y => rfl) (Part.decideCommit_blank found h none_).sheets
    · obtain ⟨kind, some_⟩ := not_or.mp none_
      obtain ⟨g, page⟩ := Option.ne_none_iff_exists'.mp some_
      cases ready : g.ready with
      | true =>
        refine Part.retouches_if (fun y => ?_) (Part.decideCommit_ready found h kind page ready).sheets
        unfold Sheet.commit
        split <;> rfl
      | false =>
        have sheets := (Part.decideCommit_spoils sound found h kind page ready).sheets
        rw [List.map_map] at sheets
        refine ⟨_, sheets, fun y => ?_⟩
        have inner : (if y.number = x.number then y.setSide x.backPasses .spoiled else y).tracked = y.tracked := by
          split
          · exact y.setSide_tracked ..
          · rfl
        show (if subjectOf s.force x (if y.number = x.number then y.setSide x.backPasses .spoiled else y) then
          s.spoiled (if y.number = x.number then y.setSide x.backPasses .spoiled else y)
          else if y.number = x.number then y.setSide x.backPasses .spoiled else y).tracked = _
        generalize (if y.number = x.number then y.setSide x.backPasses .spoiled else y) = z at inner ⊢
        rw [← inner]
        split <;> rfl

end Sys2Proof.Machine
end

