-- ==== Sys2Proof/Proofs/LeadingArrivals.lean ====
section
/-! PROOF. A leading edge that is an arrival, through the role's action to the end of the event (O30). -/

namespace Sys2Proof.Machine

variable {s t u p r q : Part} {st : Fin 24} {v : Tick} {x y : Sheet} {step : Step} {e : Expect} {o : Arrival} {d : StationDef}
  {c : Instr} {w : List Instr} {n : Nat}

/-! ## What every role's action keeps (R75) -/

/-- From `s` on sheet `n` the sheets went on the way they were, and the reservations of the others stood. -/
structure Part.acts (n : Nat) (s t : Part) : Prop where
  via : Via [.notices, .calls, .feed, .table, .gate, .planner, .stats] s t
  sheets : s.retouches t
  feed : t.feed = { s.feed with merge := t.feed.merge }
  others : ∀ a : Resv, a.sheet ≠ n → (a ∈ t.feed.merge ↔ a ∈ s.feed.merge)
  station : t.stats.station = s.stats.station

theorem Part.retouches.trans (h : s.retouches t) (k : t.retouches u) : s.retouches u := by
  obtain ⟨f, hf, kf⟩ := h
  obtain ⟨g, hg, kg⟩ := k
  exact ⟨g ∘ f, by rw [hg, hf, List.map_map], fun y => (kg (f y)).trans (kf y)⟩

theorem Part.acts.refl (n : Nat) (s : Part) : s.acts n s :=
  ⟨.refl s, Part.retouches_of rfl, rfl, fun _ _ => .rfl, rfl⟩

theorem Part.acts.trans (h : s.acts n t) (k : t.acts n u) : s.acts n u := by
  refine ⟨h.via.trans k.via, h.sheets.trans k.sheets, ?_, fun a ha => (k.others a ha).trans (h.others a ha), k.station.trans h.station⟩
  rw [k.feed, h.feed]

theorem Part.repredictAt_acts (s : Part) (x : Sheet) (step : Step) : s.acts x.number (s.repredictAt x step) := by
  have via := s.repredictAt_via x step
  refine ⟨via.mono rfl, Part.retouches_of (via.table_eq rfl), s.repredictAt_feed x step, fun a ha => ?_, by rw [via.stats_eq rfl]⟩
  unfold Part.repredictAt
  split
  · exact Part.repredict_others ha
  · rfl

theorem Part.reserve_acts (s : Part) (x : Sheet) (kind : ResvKind) (leg : LegName) : s.acts x.number (s.reserve x kind leg) := by
  have via := s.reserve_via x kind leg
  refine ⟨via.mono rfl, Part.retouches_of (via.table_eq rfl), rfl, fun a ha => ?_, by rw [via.stats_eq rfl]⟩
  rw [Part.reserve_merge]
  exact mem_replaced_of_ne rfl ha

theorem Part.callBack_eq {g : Page} (found : s.sheet? n = some x) (page : x.back = some g) (h : x.cond = .normal ∧ x.released = false) :
    s.callBack n = (s.modCalls fun c => c.addBack ⟨g.id, g.side, n,
      s.commitTick s.tick (s.force.through .registration (x.itinerary.drop x.index))⟩).modSheet n fun y => { y with backSide := .called } := by
  unfold Part.callBack
  rw [found]
  dsimp only
  rw [page]
  exact if_pos h

theorem Part.callBack_same (found : s.sheet? n = some x) (h : ¬ (x.cond = .normal ∧ x.released = false ∧ x.back.isSome = true)) :
    s.callBack n = s := by
  unfold Part.callBack
  rw [found]
  dsimp only
  split
  · rfl
  · next g page =>
    refine if_neg fun k => h ⟨k.1, k.2, ?_⟩
    rw [page]
    rfl

theorem Part.callBack_acts (found : s.sheet? x.number = some x) : s.acts x.number (s.callBack x.number) := by
  by_cases h : x.cond = .normal ∧ x.released = false ∧ x.back.isSome = true
  · obtain ⟨g, page⟩ := Option.isSome_iff_exists.mp h.2.2
    rw [Part.callBack_eq found page ⟨h.1, h.2.1⟩]
    refine ⟨?_, Part.retouches_if (g := fun y => { y with backSide := .called }) (fun _ => rfl) rfl, rfl, fun _ _ => .rfl, rfl⟩
    exact ((Via.refl s).calls _ rfl).andThen (Part.modSheet_via ..) rfl
  · rw [Part.callBack_same found h]
    exact .refl _ _

theorem Part.decideCommit_station (s : Part) (n : Nat) : (s.decideCommit n).stats.station = s.stats.station := by
  unfold Part.decideCommit
  split
  · rfl
  · next x _ =>
    dsimp only
    have cascade : ∀ (q : Part) (a b : Nat), (q.cascade a b).stats = q.stats := fun q a b => (q.cascade_via a b).stats_eq rfl
    repeat' split
    case h_2.isFalse => rw [cascade, Part.countPath_station]; rfl
    all_goals rfl

theorem Part.decideCommit_acts (sound : (s.table.sheets.map Sheet.number).Pairwise (· < ·)) (found : s.sheet? x.number = some x) :
    s.acts x.number (s.decideCommit x.number) := by
  have via := s.decideCommit_via x.number
  exact ⟨via.mono rfl, Part.decideCommit_retouches sound found, by rw [via.feed_eq rfl], fun _ _ => by rw [via.feed_eq rfl],
    s.decideCommit_station _⟩

/-! ## The arrival brought (R73, R74) -/

/-- The outcome of an arrival in its window (R21). -/
def Expect.outcome (e : Expect) (now : Tick) : Arrival :=
  if -(e.wt : Int) ≤ since e.e now ∧ since e.e now ≤ e.wt then .onTime else .drift

/-- The part an arrival of `x` is brought to. -/
structure Part.arrivesOn (p : Part) (v : Tick) (st : Fin 24) (d : StationDef) (x : Sheet) (step : Step) (e : Expect) (r : Part) : Prop where
  brought : p.brought v st d.line true r
  here : p.force.stations[st] = some d
  tracks : r.feed.path.tracks = true
  sound : (r.table.sheets.map Sheet.number).Pairwise (· < ·)
  fresh : r.fresh
  mem : x ∈ r.table.sheets
  next : x.itinerary[x.index]? = some step
  station : step.station = st
  apart : d.role = .finisherEntry → r.overruns x = false

theorem Part.arrives.on (h : p.arrives c v st d x step e) : ∃ r, p.arrivesOn v st d x step e r ∧
    exec c ⟨w, p⟩ = .next ⟨w, (r.takeArrival x step e (e.outcome r.tick)).judge.conclude⟩ := by
  obtain ⟨sound, brings, here, tracks, matched, early, -, overruns⟩ := h
  obtain ⟨r, brought, run⟩ := exec_brings (w := w) brings here fun _ => by
    rcases PathState.tracks_cases tracks with e | e | e <;> rw [e] <;> rfl
  have via := brought.via
  have tracks' : r.feed.path.tracks = true := by rwa [via.feed_eq rfl]
  have matched' := brought.matches matched
  have edge : r.trackEdge true st = r.takeArrival x step e (e.outcome r.tick) :=
    (Part.leadingEdge_tracks tracks').trans (Part.matchLeading_taken matched' (by
      rw [brought.tick]
      exact judgeArrival_taken early))
  rw [edge] at run
  refine ⟨r, ⟨brought, here, tracks', ?_, ?_, matched'.2.1, matched.2.2.2.1, matched.station, fun role => ?_⟩, run⟩
  · rw [via.table_eq rfl]
    exact sound.1
  · unfold Part.fresh
    rw [via.table_eq rfl, via.feed_eq rfl]
    exact sound.2.1
  · unfold Part.overruns
    rw [via.finisher_eq rfl, via.force_eq rfl]
    exact overruns role

namespace Part.arrivesOn

theorem found (h : p.arrivesOn v st d x step e r) : r.sheet? x.number = some x := Part.sheet?_of_mem h.sound h.mem

theorem old (h : p.arrivesOn v st d x step e r) : x.number ≠ r.feed.nextSheet := (h.fresh x h.mem).ne

theorem role (h : p.arrivesOn v st d x step e r) : r.force.roleOf step.station = some d.role := by
  rw [h.station]
  exact Part.roleOf_some h.here (h.brought.via.force_eq rfl)

theorem entered (h : p.arrivesOn v st d x step e r) (o : Arrival) : r.entersAs x step e o (r.entered x step e o) :=
  Part.entered_as h.found h.next e o

theorem exits (h : p.arrivesOn v st d x step e r) (exit : d.role = .exit) (first : x.pass = .first) : r.takeArrival x step e o =
    (((r.entered x step e o).reserve (x.arrived step.station r.tick) .return .duplex).callBack x.number).repredictAt x step := by
  rw [Part.takeArrival_exit (h.role.trans (congrArg some exit)), if_pos first]

theorem plain (h : p.arrivesOn v st d x step e r) (exit : d.role = .exit → x.pass ≠ .first) (registration : d.role ≠ .registration) :
    r.takeArrival x step e o = (r.entered x step e o).repredictAt x step := by
  have role := h.role
  by_cases he : d.role = .exit
  · rw [Part.takeArrival_exit (role.trans (congrArg some he)), if_neg (exit he)]
  · by_cases hf : d.role = .finisherEntry
    · rw [Part.takeArrival_finisher (role.trans (congrArg some hf)), h.apart hf, if_neg Bool.false_ne_true]
    · refine Part.takeArrival_plain (fun a ha => ?_) e o
      obtain rfl := Option.some.inj (role.symm.trans ha)
      exact ⟨registration, he, hf⟩

theorem acts (h : p.arrivesOn v st d x step e r) (o : Arrival) : (r.entered x step e o).acts x.number (r.takeArrival x step e o) := by
  have as := h.entered o
  by_cases registration : d.role = .registration
  · rw [Part.takeArrival_registration (h.role.trans (congrArg some registration))]
    generalize r.entered x step e o = a at as ⊢
    have number : (x.entered step r.tick ((x.itinerary[x.index + 1]?).map fun z =>
      expectAt r.force.timing r.speed r.tick z.dist (a.stations[z.station]).offset)).number = x.number := rfl
    have finds := as.finds
    generalize x.entered step r.tick _ = y at finds number
    have decided := Part.decideCommit_acts (s := a) (x := y) (by rw [as.numbers]; exact h.sound) (by rw [number]; exact finds)
    rw [number] at decided
    exact decided.trans (Part.repredictAt_acts ..)
  · by_cases exit : d.role = .exit ∧ x.pass = .first
    · rw [h.exits exit.1 exit.2]
      generalize r.entered x step e o = a at as ⊢
      have reserved : a.acts x.number (a.reserve (x.arrived step.station r.tick) .return .duplex) := Part.reserve_acts ..
      have number : (x.entered step r.tick ((x.itinerary[x.index + 1]?).map fun z =>
        expectAt r.force.timing r.speed r.tick z.dist (a.stations[z.station]).offset)).number = x.number := rfl
      have finds := (Part.sheet?_of_table ((a.reserve_via (x.arrived step.station r.tick) .return .duplex).table_eq rfl)).trans as.finds
      generalize x.entered step r.tick _ = y at finds number
      generalize a.reserve (x.arrived step.station r.tick) .return .duplex = b at reserved finds ⊢
      have called := Part.callBack_acts (s := b) (x := y) (by rw [number]; exact finds)
      rw [number] at called
      exact (reserved.trans called).trans (Part.repredictAt_acts ..)
    · rw [h.plain (fun he hx => exit ⟨he, hx⟩) registration]
      exact Part.repredictAt_acts ..

/-! ## To the end of the event -/

theorem feed (h : p.arrivesOn v st d x step e r) (o : Arrival) : (r.takeArrival x step e o).feed.path = r.feed.path ∧
    (r.takeArrival x step e o).feed.nextSheet = r.feed.nextSheet := by
  rw [(h.acts o).feed, (h.entered o).feed]
  exact ⟨rfl, rfl⟩

theorem tracksOn (h : p.arrivesOn v st d x step e r) (o : Arrival) :
    (r.takeArrival x step e o).tracksOn (r.takeArrival x step e o).judge.conclude :=
  Part.ends_tracksOn (by rw [(h.feed o).1]; exact h.tracks)

theorem still_fresh (h : p.arrivesOn v st d x step e r) (o : Arrival) : (r.takeArrival x step e o).fresh :=
  Part.fresh_of ((h.acts o).sheets.numbers.trans (h.entered o).numbers) (h.feed o).2 h.fresh

theorem ends (h : p.arrivesOn v st d x step e r) (o : Arrival) : p.passesTo v (r.takeArrival x step e o).judge.conclude ∧
    (r.takeArrival x step e o).judge.conclude.lines = p.linesAfter d.line true := by
  have via := h.brought.via
  have took : Via [.notices, .calls, .feed, .out, .table, .stations, .gate, .planner, .stats, .dry] r (r.takeArrival x step e o) :=
    ((h.entered o).via.mono rfl).andThen (h.acts o).via rfl
  obtain ⟨passes, lines⟩ := Part.ends_passes took
    ⟨rfl, rfl, rfl, rfl, rfl, rfl⟩ h.brought.tick (via.link_eq rfl) (via.stored_eq rfl) (via.force_eq rfl) (via.mask_eq rfl)
  exact ⟨passes, lines.trans h.brought.lines⟩

/-- What the event leaves as the arrival entered it. -/
theorem kept (h : p.arrivesOn v st d x step e r) (o : Arrival) :
    (r.takeArrival x step e o).judge.conclude.episode = (r.entered x step e o).episode ∧
    (r.takeArrival x step e o).judge.conclude.stations = (r.entered x step e o).stations ∧
    (r.takeArrival x step e o).judge.conclude.stats.station = (r.entered x step e o).stats.station := by
  have via := (h.tracksOn o).via
  have acts := h.acts o
  exact ⟨(via.episode_eq rfl).trans (acts.via.episode_eq rfl), (via.stations_eq rfl).trans (acts.via.stations_eq rfl),
    (h.tracksOn o).station.trans acts.station⟩

theorem record (h : p.arrivesOn v st d x step e r) (o : Arrival) :
    ∃ y ∈ (r.takeArrival x step e o).judge.conclude.table.sheets, y.tracked =
      (x.entered step r.tick ((x.itinerary[x.index + 1]?).map fun z =>
        expectAt r.force.timing r.speed r.tick z.dist ((r.entered x step e o).stations[z.station]).offset)).tracked := by
  obtain ⟨y, hy, tracked⟩ := (h.acts o).sheets.mem (Part.sheet?_number (h.entered o).finds).2
  have number : y.number = x.number := (congrArg (fun k => k.1.1) tracked :)
  refine ⟨y, ((h.tracksOn o).mem_iff (h.still_fresh o) ?_).mpr hy, tracked⟩
  rw [number, (h.feed o).2]
  exact h.old

end Part.arrivesOn

/-! ## O30 -/

theorem Station.learned_spelled (old : Station) (tm : Timing) (raw : Int) (o : Arrival) :
    (old.learned tm raw o).offset = max (-(tm.omax : Int)) (min (if old.resync then raw else old.offset + (raw - old.offset).tdiv 8) tm.omax) ∧
    (old.learned tm raw o).history = (if old.resync then [] else enterOutcome tm.window old.history o) ∧
    (old.learned tm raw o).outOfStep =
      (if old.resync then old.outOfStep else judgedOutOfStep old.outOfStep (enterOutcome tm.window old.history o)) ∧
    (old.learned tm raw o).resync = (!old.resync && !old.outOfStep && (old.learned tm raw o).outOfStep && tm.autoResync) := by
  unfold Station.learned Station.learn Station.stepAfter updatedOffset clampOffset
  cases hr : old.resync
  · refine ⟨rfl, rfl, rfl, ?_⟩
    dsimp only
    rw [if_neg Bool.false_ne_true, if_neg Bool.false_ne_true]
    cases old.outOfStep <;> simp
  · exact ⟨rfl, rfl, rfl, rfl⟩

theorem Part.arrivesOn.tookArrival (h : p.arrivesOn v st d x step e r) :
    p.tookArrival (laterOf p.tick v) x step e (r.takeArrival x step e (e.outcome r.tick)).judge.conclude := by
  have as := h.entered (e.outcome r.tick)
  obtain ⟨-, stations, station⟩ := h.kept (e.outcome r.tick)
  obtain ⟨y, hy, tracked⟩ := h.record (e.outcome r.tick)
  obtain ⟨arrived, drifted, -, -, -, -, -⟩ := (r.learnAt step.station (since (plusTicks x.anchor e.transit) r.tick)
    (e.outcome r.tick)).countArrival_counts step.station (e.outcome r.tick)
  have via := h.brought.via
  have learned := (Part.learnAt_via r step.station (since (plusTicks x.anchor e.transit) r.tick) (e.outcome r.tick)).stats_eq rfl
  rw [learned, ← as.stats] at arrived drifted
  rw [← h.station] at *
  have own := as.station
  have apart := as.apart
  have tick := h.brought.tick
  rw [via.stats_eq rfl] at arrived drifted
  have oldStations := via.stations_eq rfl
  rw [via.force_eq rfl, h.brought.speed] at own tracked
  rw [← stations] at own apart tracked
  rw [← station] at arrived drifted
  rw [oldStations] at own apart
  generalize (r.takeArrival x step e (e.outcome r.tick)).judge.conclude = q at *
  rw [tick] at own tracked drifted
  obtain ⟨offset, history, outOfStep, resync⟩ := (p.stations[step.station]).learned_spelled p.force.timing
    (since (plusTicks x.anchor e.transit) (laterOf p.tick v)) (e.outcome (laterOf p.tick v))
  generalize (p.stations[step.station]).learned p.force.timing (since (plusTicks x.anchor e.transit) (laterOf p.tick v))
    (e.outcome (laterOf p.tick v)) = l at own offset history outOfStep resync
  unfold Part.tookArrival
  dsimp only
  rw [own]
  refine ⟨⟨y, hy, ?_⟩, rfl, offset, history, outOfStep, resync, apart, arrived, drifted⟩
  unfold Sheet.tracked Sheet.entered Sheet.armed Sheet.arrived at tracked
  simp only [Prod.mk.injEq] at tracked
  obtain ⟨⟨number, index, anchor, last⟩, covering, expect, deadline, -⟩ := tracked
  refine ⟨number, index, anchor, last, covering, expect, ?_⟩
  rw [deadline, expect]
  rfl

/-- Settles O30. -/
theorem leadingEdgeTaken : Obligations.LeadingEdgeTaken := by
  unfold Obligations.LeadingEdgeTaken
  intro w p c t st d x step e h
  obtain ⟨r, on, run⟩ := Part.arrives.on (w := w) h
  refine completes_next run ?_
  obtain ⟨passes, lines⟩ := on.ends (e.outcome r.tick)
  obtain ⟨episode, -, -⟩ := on.kept (e.outcome r.tick)
  refine ⟨passes, lines, ?_, on.tookArrival⟩
  rw [episode, (on.entered _).via.episode_eq rfl, on.brought.via.episode_eq rfl]

end Sys2Proof.Machine
end

