-- ==== Sys2Proof/Proofs/ArrivalRoles.lean ====
section
/-! PROOF. The role actions of an arrival (O31). -/

namespace Sys2Proof.Machine

variable {s t u p r q : Part} {st : Fin 24} {v : Tick} {x y : Sheet} {step : Step} {e : Expect} {o : Arrival} {d : StationDef}
  {c : Instr} {w : List Instr} {n : Nat}

namespace Part.arrivesOn

/-! ## The reservations (R63, R64, R65) -/

theorem merge (h : p.arrivesOn v st d x step e r) (o : Arrival) : (r.entered x step e o).feed.merge = p.feed.merge := by
  rw [(h.entered o).feed, h.brought.via.feed_eq rfl]

theorem next_sheet (h : p.arrivesOn v st d x step e r) (o : Arrival) :
    (r.takeArrival x step e o).feed.nextSheet = p.feed.nextSheet := by
  rw [(h.feed o).2, h.brought.via.feed_eq rfl]

theorem others_stay (h : p.arrivesOn v st d x step e r) (o : Arrival) {a : Resv} (ha : a ∈ p.feed.merge) (other : a.sheet ≠ x.number)
    (old : a.sheet ≠ p.feed.nextSheet) : a ∈ (r.takeArrival x step e o).judge.conclude.feed.merge := by
  refine ((h.tracksOn o).merge_iff (h.still_fresh o) (by rwa [h.next_sheet])).mpr (((h.acts o).others a other).mpr ?_)
  rwa [h.merge]

/-- A reservation of the sheet stands at the end as the tracker left it. -/
theorem own_iff (h : p.arrivesOn v st d x step e r) (o : Arrival) (a : Resv) :
    (a ∈ (r.takeArrival x step e o).judge.conclude.feed.merge ∧ a.sheet = x.number) ↔
      (a ∈ (r.takeArrival x step e o).feed.merge ∧ a.sheet = x.number) := by
  refine and_congr_left fun ha => (h.tracksOn o).merge_iff (h.still_fresh o) ?_
  rw [ha, (h.feed o).2]
  exact h.old

theorem tick (h : p.arrivesOn v st d x step e r) (o : Arrival) : (r.entered x step e o).tick = laterOf p.tick v := by
  rw [(h.entered o).via.tick_eq rfl, h.brought.tick]

theorem force (h : p.arrivesOn v st d x step e r) (o : Arrival) : (r.entered x step e o).force = p.force := by
  rw [(h.entered o).via.force_eq rfl, h.brought.via.force_eq rfl]

theorem speed (h : p.arrivesOn v st d x step e r) (o : Arrival) : (r.entered x step e o).speed = p.speed := by
  unfold Part.speed
  rw [h.force, (h.entered o).feed, h.brought.via.feed_eq rfl]

end Part.arrivesOn

/-- The predicted lead at the merge over what is left of a leg, by the offsets of `q` (R23). -/
def Part.leadBy (p q : Part) (now : Tick) (l : LegName) (behind : Nat) : Tick :=
  let way := (p.force.leg l).steps.drop behind
  plusInt (plusTicks now (transit ((way.map LegStep.dist).sum + (p.force.leg l).endDist) p.speed))
    (way.map fun y => (q.stations[y.station]).offset).sum

theorem Part.predictFrom_leadBy (force : s.force = p.force) (speed : s.speed = p.speed) (stations : q.stations = s.stations) (now : Tick)
    (l : LegName) (k media : Nat) :
    s.predictFrom now l k media = (p.leadBy q now l k, plusTicks (p.leadBy q now l k) (dwell media p.speed)) := by
  have lead : s.leadOver now l k = p.leadBy q now l k := by
    unfold Part.leadOver Part.leadBy
    rw [force, speed, stations]
  rw [Part.predictFrom_eq, lead, speed]

/-- The back image's predicted commit tick, by the offsets of `q` (R93). -/
def Part.commitBy (p q : Part) (now : Tick) (x : Sheet) : Tick :=
  let way := p.force.through .registration (x.itinerary.drop (x.index + 1))
  plusInt (plusTicks now (transit (way.map Step.dist).sum p.speed)) (way.map fun z => (q.stations[z.station]).offset).sum

theorem LegName.main_hasEnd : LegName.main.hasEnd = false := rfl

theorem Part.repredictAt_main (s : Part) (x : Sheet) (h : step.leg.hasEnd = false) : s.repredictAt x step = s := by
  unfold Part.repredictAt
  rw [h]
  exact if_neg Bool.false_ne_true

namespace Part.arrivesOn

/-- The sheet's record when the event has ended is the one the tracker left. -/
theorem sheet_iff (h : p.arrivesOn v st d x step e r) (o : Arrival) (hy : y ∈ (r.takeArrival x step e o).judge.conclude.table.sheets)
    (number : y.number = x.number) : (r.takeArrival x step e o).sheet? x.number = some y := by
  have mem := ((h.tracksOn o).mem_iff (h.still_fresh o) (by rw [number, (h.feed o).2]; exact h.old)).mp hy
  rw [← number]
  refine Part.sheet?_of_mem ?_ mem
  rw [(h.acts o).sheets.numbers, (h.entered o).numbers]
  exact h.sound

/-! ## The pick confirmed (R75) -/

theorem confirmed (h : p.arrivesOn v st d x step e r) (o : Arrival) (first : x.index = 0) :
    let q := (r.takeArrival x step e o).judge.conclude
    q.feed.unconfirmed ≠ some x.number ∧ (q.feed.nextSheet = p.feed.nextSheet → q.out.clutch[x.source] = false) := by
  have on := h.tracksOn o
  have acts := h.acts o
  have as := h.entered o
  dsimp only
  constructor
  · have entered : (r.takeArrival x step e o).feed.unconfirmed ≠ some x.number := by
      rw [acts.feed, as.feed]
      dsimp only
      split
      · exact nofun
      · next none => exact fun same => none ⟨first, same⟩
    rcases on.unconfirmed with k | k <;> rw [k]
    · exact entered
    · rw [(h.feed o).2]
      exact fun same => h.old (Option.some.inj same).symm
  · intro same
    rw [(on.unpicked (same.trans (h.next_sheet o).symm)).clutch, acts.via.out_eq rfl, as.clutch, if_pos first]
    exact Vector.getElem_set_self _

/-! ## EXIT (R63, R75, R93) -/

section exit

variable (exit : d.role = .exit) (main : step.leg = .main) (first : x.pass = .first)
include exit main first

theorem exit_eq (h : p.arrivesOn v st d x step e r) (o : Arrival) : r.takeArrival x step e o =
    ((r.entered x step e o).reserve (x.arrived step.station r.tick) .return .duplex).callBack x.number := by
  rw [h.exits exit first, Part.repredictAt_main _ _ (by rw [main]; rfl)]

theorem exit_merge (h : p.arrivesOn v st d x step e r) (o : Arrival) (a : Resv) :
    let q := (r.takeArrival x step e o).judge.conclude
    (a ∈ q.feed.merge ∧ a.sheet = x.number) ↔ a = ⟨x.number, .return, p.leadBy q (laterOf p.tick v) .duplex 0,
      plusTicks (p.leadBy q (laterOf p.tick v) .duplex 0) (dwell x.media p.speed)⟩ := by
  dsimp only
  rw [h.own_iff o a]
  have stations := (h.kept o).2.1
  generalize (r.takeArrival x step e o).judge.conclude = q at stations ⊢
  rw [h.exit_eq exit main first o, (Part.callBack_via ..).feed_eq rfl, Part.reserve_merge, h.tick,
    Part.predictFrom_leadBy (h.force o) (h.speed o) stations]
  exact mem_replaced rfl

theorem exit_called (h : p.arrivesOn v st d x step e r) (o : Arrival)
    (hy : y ∈ (r.takeArrival x step e o).judge.conclude.table.sheets) (number : y.number = x.number) :
    let q := (r.takeArrival x step e o).judge.conclude
    if x.cond = .normal ∧ x.released = false ∧ x.back.isSome = true then
      y.backSide = .called ∧ (p.link.sending.isSome = true → ∀ pg ∈ x.back,
        if p.calls.queue.length < 8 then (⟨pg.id, pg.side, x.number, p.commitBy q (laterOf p.tick v) x⟩ : Call) ∈ q.calls.queue
        else (⟨pg.id, pg.side, x.number, p.commitBy q (laterOf p.tick v) x⟩ : Call) ∈ q.calls.deferred)
    else y.backSide = x.backSide := by
  have finds := h.sheet_iff o hy number
  have stations := (h.kept o).2.1
  have quiet := fun sending => Part.ends_quiet (s := r.takeArrival x step e o) (by rw [(h.feed o).1]; exact h.tracks) sending
  have link : (r.takeArrival x step e o).link = p.link := by
    rw [(h.acts o).via.link_eq rfl, (h.entered o).via.link_eq rfl, h.brought.via.link_eq rfl]
  rw [link] at quiet
  have as := h.entered o
  have calls : (r.entered x step e o).calls = p.calls := by rw [as.via.calls_eq rfl, h.brought.via.calls_eq rfl]
  have tick := h.tick o
  have force := h.force o
  have speed := h.speed o
  dsimp only
  generalize (r.takeArrival x step e o).judge.conclude = q at *
  rw [h.exit_eq exit main first o] at finds quiet
  have kept := Part.reserve_via (r.entered x step e o) (x.arrived step.station r.tick) .return .duplex
  have sheet := (Part.sheet?_of_table (kept.table_eq rfl)).trans as.finds
  generalize expects : (x.itinerary[x.index + 1]?).map (fun z =>
      expectAt r.force.timing r.speed r.tick z.dist ((r.entered x step e o).stations[z.station]).offset) = expect at sheet
  have kspeed : ((r.entered x step e o).reserve (x.arrived step.station r.tick) .return .duplex).speed = p.speed := speed
  generalize (r.entered x step e o).reserve (x.arrived step.station r.tick) .return .duplex = b at *
  by_cases called : x.cond = .normal ∧ x.released = false ∧ x.back.isSome = true
  · rw [if_pos called]
    obtain ⟨g, page⟩ := Option.isSome_iff_exists.mp called.2.2
    have e := Part.callBack_eq (g := g) sheet page ⟨called.1, called.2.1⟩
    rw [e] at finds quiet
    have left := Part.modSheet_finds (s := b.modCalls fun c => c.addBack ⟨g.id, g.side, x.number,
        b.commitTick b.tick (b.force.through .registration ((x.entered step r.tick expect).itinerary.drop
          (x.entered step r.tick expect).index))⟩) (g := fun y => { y with backSide := .called }) (fun _ => rfl) sheet
    obtain rfl := Option.some.inj (left.symm.trans finds)
    refine ⟨rfl, fun sending pg hpg => ?_⟩
    obtain rfl := Option.some.inj (page.symm.trans hpg)
    have commit : b.commitTick b.tick (b.force.through .registration ((x.entered step r.tick expect).itinerary.drop
        (x.entered step r.tick expect).index)) = p.commitBy q (laterOf p.tick v) x := by
      unfold Part.commitTick Part.commitBy distanceOver offsetsOver
      rw [kspeed, kept.tick_eq rfl, tick, kept.force_eq rfl, force, kept.stations_eq rfl, stations]
      rfl
    obtain ⟨-, -, queue, deferred⟩ := quiet sending
    rw [commit] at queue deferred
    have added : ∀ k : Call, ((b.modCalls fun c => c.addBack k).modSheet x.number fun y => { y with backSide := .called }).calls =
        p.calls.addBack k := fun k => by
      show b.calls.addBack k = _
      rw [kept.calls_eq rfl, calls]
    rw [added] at queue deferred
    unfold Calls.addBack at queue deferred
    split
    · next room =>
      rw [if_pos (show p.calls.queue.length < Config.imageCallSize from room)] at queue
      exact queue _ (mem_insertCall.mpr (.inl rfl))
    · next full =>
      rw [if_neg (show ¬ p.calls.queue.length < Config.imageCallSize from full)] at deferred
      rw [deferred]
      exact List.mem_append_right _ List.mem_cons_self
  · rw [if_neg called]
    rw [Part.callBack_same sheet called] at finds
    obtain rfl := Option.some.inj (sheet.symm.trans finds)
    rfl

end exit

/-! ## A tray, INSERT or DUPLEX leg (R64) -/

theorem predicted_anew (h : p.arrivesOn v st d x step e r) (o : Arrival) (leg : step.leg.hasEnd = true) (exit : d.role ≠ .exit) {a : Resv}
    (ha : p.feed.merge.find? (fun z => z.sheet == x.number) = some a) (b : Resv) :
    let q := (r.takeArrival x step e o).judge.conclude
    (b ∈ q.feed.merge ∧ b.sheet = x.number) ↔ b = { a with
      lead := p.leadBy q (laterOf p.tick v) step.leg step.pos
      trail := plusTicks (p.leadBy q (laterOf p.tick v) step.leg step.pos) (dwell x.media p.speed) } := by
  dsimp only
  rw [h.own_iff o b]
  have stations := (h.kept o).2.1
  generalize (r.takeArrival x step e o).judge.conclude = q at stations ⊢
  have entered := h.entered o
  have merge := h.merge o
  have tick := h.tick o
  have force := h.force o
  have speed := h.speed o
  obtain ⟨k, hk, via⟩ : ∃ k : Part, r.takeArrival x step e o = k.repredictAt x step ∧
      Via [.notices, .calls, .table, .gate, .planner, .stats] (r.entered x step e o) k := by
    by_cases registration : d.role = .registration
    · exact ⟨_, Part.takeArrival_registration (h.role.trans (congrArg some registration)) e o, (Part.decideCommit_via ..).mono rfl⟩
    · exact ⟨_, h.plain (fun he => absurd he exit) registration, .refl _⟩
  generalize r.entered x step e o = i at *
  have speed' : k.speed = p.speed := by
    unfold Part.speed
    rw [via.force_eq rfl, via.feed_eq rfl]
    exact speed
  have predicted := Part.predictFrom_leadBy (s := k) (q := q) ((via.force_eq rfl).trans force) speed'
    (stations.trans (via.stations_eq rfl).symm) (laterOf p.tick v) step.leg step.pos x.media
  have anew : k.repredictAt x step = k.repredict x.number (p.leadBy q (laterOf p.tick v) step.leg step.pos)
      (plusTicks (p.leadBy q (laterOf p.tick v) step.leg step.pos) (dwell x.media p.speed)) := by
    unfold Part.repredictAt
    rw [if_pos leg, via.tick_eq rfl, tick, predicted]
  rw [hk, anew]
  exact Part.repredict_replaces (by rw [via.feed_eq rfl, merge]; exact ha) b

end Part.arrivesOn

/-- Settles O31. -/
theorem roleActions : Obligations.RoleActions := by
  unfold Obligations.RoleActions
  intro w p c t st d x step e h
  obtain ⟨r, on, run⟩ := Part.arrives.on (w := w) h
  refine completes_next run ?_
  refine ⟨fun a ha other old => on.others_stay _ ha other old, on.confirmed _, ?_, fun exit main first back => ?_, fun leg exit a ha =>
    on.predicted_anew _ leg exit ha⟩
  · obtain ⟨y, hy, tracked⟩ := on.record (e.outcome r.tick)
    exact ⟨y, hy, (congrArg (fun k => k.1.1) tracked :), (congrArg (fun k => k.2.2.2.2) tracked :)⟩
  · exact ⟨fun a => on.exit_merge exit main first _ a, fun y hy number => on.exit_called exit main first _ hy number⟩

end Sys2Proof.Machine
end

