-- ==== Sys2Proof/Proofs/CommitArrival.lean ====
section
/-! PROOF. The commit decision of an arrival at REGISTRATION (O32). -/

namespace Sys2Proof.Machine

variable {s t u p r q : Part} {st : Fin 24} {v : Tick} {x y : Sheet} {step : Step} {e : Expect} {o : Arrival} {d : StationDef}
  {c : Instr} {w : List Instr} {n : Nat}

/-! ## The table an arrival is entered in -/

/-- Of two tables with the same numbers, which differ in one sheet's record. -/
theorem sheets_eq_of {l m : List Sheet} (sound : (m.map Sheet.number).Pairwise (· < ·)) (numbers : l.map Sheet.number = m.map Sheet.number)
    (hx : x ∈ l) (others : ∀ y : Sheet, y.number ≠ x.number → (y ∈ l ↔ y ∈ m)) :
    l = m.map fun y => if y.number = x.number then x else y := by
  have length : l.length = m.length := by simpa using congrArg List.length numbers
  refine List.ext_getElem (by rw [List.length_map, length]) fun i hl hm => ?_
  have hm' : i < m.length := by rwa [List.length_map] at hm
  have number : l[i].number = m[i].number := by
    have at_ := congrArg (fun k => k[i]?) numbers
    simpa [hl, hm'] using at_
  rw [List.getElem_map]
  split
  · next h => exact sheet_unique (numbers ▸ sound) (List.getElem_mem hl) hx (number.trans h)
  · next h =>
    have mem := (others _ (by rwa [number])).mp (List.getElem_mem hl)
    exact sheet_unique sound mem (List.getElem_mem hm') number

theorem Part.learnAt_spoil (s : Part) (st : Fin 24) (a : Int) (o : Arrival) : (s.learnAt st a o).notices.spoil = s.notices.spoil := rfl

theorem Part.countArrival_spoil (s : Part) (st : Fin 24) (o : Arrival) : (s.countArrival st o).notices.spoil = s.notices.spoil := by
  unfold Part.countArrival
  dsimp only
  split
  · rw [Part.countStation_spoil, Part.countStation_spoil]
  · rw [Part.countStation_spoil]

theorem Part.entered_spoil (s : Part) (x : Sheet) (step : Step) (e : Expect) (o : Arrival) :
    (s.entered x step e o).notices.spoil = s.notices.spoil := by
  have taught : (s.taught x step e o).notices.spoil = s.notices.spoil :=
    (Part.countArrival_spoil ..).trans (Part.learnAt_spoil ..)
  unfold Part.entered
  rw [(Part.passAction_via ..).notices_eq rfl, (Part.enterArrival_via ..).notices_eq rfl, taught]

/-- The sheet's record, and its sides, once the arrival is entered. -/
structure Sheet.entry (x : Sheet) (step : Step) (X : Sheet) : Prop where
  number : X.number = x.number
  passes : X.backPasses = backPassesAt x step
  sides : X.frontSide = x.frontSide ∧ X.backSide = x.backSide ∧ X.front = x.front ∧ X.back = x.back
  cond : X.cond = x.cond
  released : X.released = x.released
  kind : X.kind = x.kind
  dest : X.dest = x.dest
  way : X.itinerary = x.itinerary

theorem Sheet.entered_entry (x : Sheet) (step : Step) (now : Tick) (a : Option Expect) : x.entry step (x.entered step now a) := by
  refine ⟨rfl, ?_, ⟨rfl, rfl, rfl, rfl⟩, rfl, rfl, rfl, rfl, rfl⟩
  unfold Sheet.backPasses backPassesAt Sheet.entered Sheet.armed Sheet.arrived
  cases x.returnsAt step <;> simp

namespace Sheet.entry

variable {X : Sheet} {back : Bool}

theorem side (h : x.entry step X) (back : Bool) : sideOf X back = sideOf x back := by
  obtain ⟨frontSide, backSide, front, back_⟩ := h.sides
  unfold sideOf
  rw [frontSide, backSide, front, back_]

theorem page (h : x.entry step X) (back : Bool) : X.pageOf back = (sideOf x back).2 := by
  obtain ⟨-, -, front, back_⟩ := h.sides
  unfold Sheet.pageOf sideOf
  rw [front, back_]
  split <;> rfl

theorem pages (h : x.entry step X) : X.pages = x.pages := by
  obtain ⟨-, -, front, back_⟩ := h.sides
  unfold Sheet.pages
  rw [front, back_]

end Sheet.entry

theorem sideOf_setSide (x : Sheet) (back : Bool) (v : SideState) :
    sideOf (x.setSide back v) back = (v, (sideOf x back).2) ∧ sideOf (x.setSide back v) (!back) = sideOf x (!back) := by
  cases back <;> exact ⟨rfl, rfl⟩

theorem sideOf_commit (x : Sheet) (back : Bool) :
    sideOf (x.commit back) back = (.committed, (sideOf x back).2.map fun g => { g with ready := false }) ∧
    sideOf (x.commit back) (!back) = sideOf x (!back) := by
  cases back <;> exact ⟨rfl, rfl⟩

theorem Sheet.setSide_number (y : Sheet) (back : Bool) (v : SideState) : (y.setSide back v).number = y.number := by
  cases back <;> rfl

/-- The subjects are the same with another record of the sheet in its place, and so are their pages. -/
theorem filter_map_record {X : Sheet} (D : Desc) {l : List Sheet} (pages : X.pages = x.pages) (number : X.number = x.number)
    (unique : ∀ y ∈ l, y.number = x.number → y = x) :
    ((l.map fun y => if y.number = x.number then X else y).filter (subjectOf D x)).flatMap Sheet.pages =
      (l.filter (subjectOf D x)).flatMap Sheet.pages ∧
    ((l.map fun y => if y.number = x.number then X else y).filter (subjectOf D x)).length = (l.filter (subjectOf D x)).length := by
  have own : ∀ z : Sheet, z.number = x.number → subjectOf D x z = true := fun z hz => by
    unfold subjectOf
    rw [hz, beq_self_eq_true]
    rfl
  have same : (subjectOf D x ∘ fun y : Sheet => if y.number = x.number then X else y) = subjectOf D x := by
    funext y
    show subjectOf D x (if y.number = x.number then X else y) = subjectOf D x y
    split
    · next hy => rw [own X number, own y hy]
    · rfl
  rw [List.filter_map, same, List.flatMap_map, List.length_map]
  refine ⟨List.flatMap_congr fun y hy => ?_, rfl⟩
  split
  · next hn => rw [pages, unique y (List.mem_filter.mp hy).1 hn]
  · rfl

namespace Part.arrivesOn

/-- The part the commit decision is made on, with the record of the sheet there. -/
theorem decides (h : p.arrivesOn v st d x step e r) (o : Arrival) : ∃ X, x.entry step X ∧
    (r.entered x step e o).sheet? X.number = some X ∧
    (r.entered x step e o).table.sheets = p.table.sheets.map fun y => if y.number = x.number then X else y := by
  have as := h.entered o
  have entry := x.entered_entry step r.tick ((x.itinerary[x.index + 1]?).map fun z =>
    expectAt r.force.timing r.speed r.tick z.dist ((r.entered x step e o).stations[z.station]).offset)
  have finds := as.finds
  generalize x.entered step r.tick _ = X at entry finds
  have number := entry.number
  refine ⟨X, entry, by rwa [number], ?_⟩
  have table : r.table.sheets = p.table.sheets := by rw [h.brought.via.table_eq rfl]
  rw [← table, ← number]
  exact sheets_eq_of h.sound as.numbers (Part.sheet?_number finds).2 (by rw [number]; exact as.others)

theorem registers (h : p.arrivesOn v st d x step e r) (registration : d.role = .registration) (o : Arrival) :
    r.takeArrival x step e o = ((r.entered x step e o).decideCommit x.number).repredictAt x step :=
  Part.takeArrival_registration (h.role.trans (congrArg some registration)) e o

theorem old_number (h : p.arrivesOn v st d x step e r) (hy : y ∈ p.table.sheets) : y.number ≠ p.feed.nextSheet := by
  have less := h.fresh y (by rwa [h.brought.via.table_eq rfl])
  rw [h.brought.via.feed_eq rfl] at less
  exact less.ne

section registration

variable (registration : d.role = .registration)
include registration

/-- What the decision left stands when the event has ended. -/
theorem decided_stands (h : p.arrivesOn v st d x step e r) (o : Arrival) :
    let a := (r.entered x step e o).decideCommit x.number
    let q := (r.takeArrival x step e o).judge.conclude
    (∀ y ∈ a.table.sheets, y.number ≠ p.feed.nextSheet → y ∈ q.table.sheets) ∧
    (∀ k ∈ callsOf q, k ∈ callsOf a ∨ k.sheet = p.feed.nextSheet) ∧
    (q.feed.nextSheet = p.feed.nextSheet → q.planner = a.planner) ∧
    (∀ i : Fin 10, i ≠ 0 → i ≠ 8 → q.stats.path[i] = a.stats.path[i]) ∧
    (p.link.sending.isSome = true → q.gate = a.gate ∧ q.notices.spoil = a.notices.spoil) := by
  have on := h.tracksOn o
  have fresh := h.still_fresh o
  have next := h.next_sheet o
  have link : (r.takeArrival x step e o).link = p.link := by
    rw [(h.acts o).via.link_eq rfl, (h.entered o).via.link_eq rfl, h.brought.via.link_eq rfl]
  have quiet := fun sending => Part.ends_quiet (s := r.takeArrival x step e o) (by rw [(h.feed o).1]; exact h.tracks) sending
  have last := Part.repredictAt_via ((r.entered x step e o).decideCommit x.number) x step
  rw [← h.registers registration o] at last
  dsimp only
  rw [link] at quiet
  generalize (r.entered x step e o).decideCommit x.number = a at last ⊢
  generalize r.takeArrival x step e o = b at *
  refine ⟨fun y hy old => (on.mem_iff fresh (by rwa [next])).mpr (by rwa [last.table_eq rfl]), fun k hk => ?_,
    fun same => ?_, fun i h0 h8 => ?_, fun sending => ?_⟩
  · rcases on.calls hk with k | k
    · exact .inl (by unfold callsOf at k ⊢; rwa [← last.calls_eq rfl])
    · exact .inr (k.trans next)
  · rw [(on.unpicked (same.trans next.symm)).planner, last.planner_eq rfl]
  · rw [on.path h0 h8, last.stats_eq rfl]
  · rw [(quiet sending).gate, (quiet sending).spoil, last.gate_eq rfl, last.notices_eq rfl]
    exact ⟨rfl, rfl⟩

/-- The decision that spoils nothing. -/
theorem decided_kept (h : p.arrivesOn v st d x step e r) (o : Arrival) {back : Bool} {g : Sheet → Sheet} (hg : ∀ y, (g y).number = y.number)
    {X : Sheet} (number : X.number = x.number)
    (sheets : (r.entered x step e o).table.sheets = p.table.sheets.map fun y => if y.number = x.number then X else y)
    (decided : (r.entered x step e o).decided x.number back g ((r.entered x step e o).decideCommit x.number)) :
    let q := (r.takeArrival x step e o).judge.conclude
    (∀ y ∈ p.table.sheets, y.number ≠ x.number → y ∈ q.table.sheets) ∧ g X ∈ q.table.sheets ∧
    (∀ k ∈ callsOf q, ¬ (k.sheet = x.number ∧ (k.side == .back) = back)) ∧
    (q.feed.nextSheet = p.feed.nextSheet → q.planner.list = p.planner.list) ∧
    (p.link.sending.isSome = true → q.gate = p.gate ∧ q.notices.spoil = p.notices.spoil) := by
  obtain ⟨mem, calls, planner, -, quiet⟩ := h.decided_stands registration o
  have via := (h.entered o).via
  have hx : x ∈ p.table.sheets := by rw [← h.brought.via.table_eq rfl]; exact h.mem
  have entered : ∀ y ∈ p.table.sheets, (if y.number = x.number then X else y) ∈ (r.entered x step e o).table.sheets := fun y hy => by
    rw [sheets]
    exact List.mem_map_of_mem hy
  have spoil := r.entered_spoil x step e o
  dsimp only at *
  generalize (r.takeArrival x step e o).judge.conclude = q at *
  generalize (r.entered x step e o).decideCommit x.number = a at *
  generalize r.entered x step e o = b at *
  refine ⟨fun y hy other => mem y ?_ (h.old_number hy), mem (g X) ?_ ?_, fun k hk same => ?_, fun next => ?_, fun sending => ?_⟩
  · rw [decided.sheets]
    have at_ := List.mem_map_of_mem (f := fun y : Sheet => if y.number = x.number then g y else y) (entered y hy)
    rwa [if_neg other, if_neg other] at at_
  · rw [decided.sheets]
    have at_ := List.mem_map_of_mem (f := fun y : Sheet => if y.number = x.number then g y else y) (entered x hx)
    rwa [if_pos rfl, if_pos number] at at_
  · rw [hg, number]
    exact h.old_number hx
  · rcases calls k hk with old | new
    · exact (decided.calls k old).2 same
    · exact h.old_number hx (same.1.symm.trans new)
  · rw [planner next, decided.via.planner_eq rfl, via.planner_eq rfl, h.brought.via.planner_eq rfl]
  · obtain ⟨gate, note⟩ := quiet sending
    rw [gate, note, decided.via.gate_eq rfl, decided.via.notices_eq rfl, via.gate_eq rfl, spoil, h.brought.via.gate_eq rfl,
      h.brought.via.notices_eq rfl]
    exact ⟨rfl, rfl⟩

/-- The decision that spoils the side. -/
theorem spoils_kept (h : p.arrivesOn v st d x step e r) (o : Arrival) {X : Sheet} {g : Page} (entry : x.entry step X)
    (sheets : (r.entered x step e o).table.sheets = p.table.sheets.map fun y => if y.number = x.number then X else y)
    (spoils : (r.entered x step e o).spoils X X.backPasses g.id ((r.entered x step e o).decideCommit x.number)) :
    let q := (r.takeArrival x step e o).judge.conclude
    let gone := p.table.sheets.filter (subjectOf p.force x)
    (∀ y ∈ p.table.sheets, y.number ≠ x.number → (if subjectOf p.force x y = true then p.spoiled y else y) ∈ q.table.sheets) ∧
    p.spoiled (X.setSide X.backPasses .spoiled) ∈ q.table.sheets ∧
    (∀ k ∈ callsOf q, ¬ (k.sheet = x.number ∧ (k.side == .back) = X.backPasses)) ∧
    (∀ k ∈ callsOf q, ∀ y ∈ gone, k.sheet ≠ y.number) ∧
    (q.feed.nextSheet = p.feed.nextSheet → q.planner.list.Perm (p.planner.list ++ (gone.flatMap Sheet.pages).map (⟨·, .spoiled⟩))) ∧
    countedUp p.stats.pathSet.width p.stats.path q.stats.path 4 ∧
    (p.link.sending.isSome = true → q.gate = { p.gate with spoilCount := p.gate.spoilCount + 1 } ∧
      (p.mask.spoil = true → q.notices.spoil = some ⟨x.number, g.id, gone.length⟩)) := by
  obtain ⟨mem, calls, planner, path, quiet⟩ := h.decided_stands registration o
  have as := h.entered o
  have via := as.via
  have force := h.force o
  have hx : x ∈ p.table.sheets := by rw [← h.brought.via.table_eq rfl]; exact h.mem
  have old := fun y (hy : y ∈ p.table.sheets) => h.old_number hy
  have number := entry.number
  have subject : subjectOf p.force X = subjectOf p.force x := by
    unfold subjectOf
    rw [number]
  have counted := spoils.counted
  have counts := (r.learnAt step.station (since (plusTicks x.anchor e.transit) r.tick) o).countArrival_counts step.station o
  have learned := (Part.learnAt_via r step.station (since (plusTicks x.anchor e.transit) r.tick) o).stats_eq rfl
  have width : (r.entered x step e o).stats.pathSet.width = p.stats.pathSet.width ∧ (r.entered x step e o).stats.path = p.stats.path := by
    rw [as.stats, counts.2.2.2.2.1, counts.2.2.2.2.2.2, learned, h.brought.via.stats_eq rfl]
    exact ⟨rfl, rfl⟩
  have spoiled : ∀ y, (r.entered x step e o).spoiled y = p.spoiled y := fun y => by
    unfold Part.spoiled
    rw [force]
  have decided := spoils.sheets
  have decidedCalls := spoils.calls
  have list := spoils.list
  have gate := spoils.gate
  have noted := spoils.noted
  rw [force, number] at decided
  rw [force, number] at decidedCalls
  rw [force] at list noted
  rw [number] at noted
  rw [width.1, width.2] at counted
  simp only [spoiled, subject] at decided decidedCalls list noted
  have unique : ∀ y ∈ p.table.sheets, y.number = x.number → y = x := fun y hy same =>
    sheet_unique (by rw [← h.brought.via.table_eq rfl]; exact h.sound) hy hx same
  have pages := entry.pages
  obtain ⟨gone, length⟩ := filter_map_record p.force pages number unique
  rw [← sheets] at gone length
  rw [gone] at list
  rw [length] at noted
  have entered : ∀ y ∈ p.table.sheets, (if y.number = x.number then X else y) ∈ (r.entered x step e o).table.sheets := fun y hy => by
    rw [sheets]
    exact List.mem_map_of_mem hy
  dsimp only at *
  generalize (r.takeArrival x step e o).judge.conclude = q at *
  generalize (r.entered x step e o).decideCommit x.number = a at *
  generalize r.entered x step e o = b at *
  have at_ : ∀ y ∈ p.table.sheets, (if subjectOf p.force x (if (if y.number = x.number then X else y).number = x.number then
      (if y.number = x.number then X else y).setSide X.backPasses .spoiled else if y.number = x.number then X else y) then
      p.spoiled (if (if y.number = x.number then X else y).number = x.number then
      (if y.number = x.number then X else y).setSide X.backPasses .spoiled else if y.number = x.number then X else y)
      else (if (if y.number = x.number then X else y).number = x.number then
      (if y.number = x.number then X else y).setSide X.backPasses .spoiled else if y.number = x.number then X else y)) ∈
      a.table.sheets := fun y hy => by
    rw [decided]
    exact List.mem_map_of_mem (List.mem_map_of_mem (entered y hy))
  have own : subjectOf p.force x (X.setSide X.backPasses .spoiled) = true := by
    rw [Sheet.setSide_subject]
    unfold subjectOf
    rw [number, beq_self_eq_true]
    rfl
  refine ⟨fun y hy other => mem _ ?_ ?_, mem _ ?_ ?_, fun k hk same => ?_, fun k hk y hy same => ?_, fun next => ?_, ?_, fun sending => ?_⟩
  · have here := at_ y hy
    rwa [if_neg other, if_neg other] at here
  · split
    · exact old y hy
    · exact old y hy
  · have here := at_ x hx
    rwa [if_pos rfl, if_pos number, if_pos own] at here
  · have same : (p.spoiled (X.setSide X.backPasses .spoiled)).number = x.number := (Sheet.setSide_number ..).trans number
    rw [same]
    exact old x hx
  · rcases calls k hk with before | new
    · exact (decidedCalls k before).1 same
    · exact old x hx (same.1.symm.trans new)
  · obtain ⟨hy, reached⟩ := List.mem_filter.mp hy
    rcases calls k hk with before | new
    · have none := (decidedCalls k before).2 _ (entered y hy)
      by_cases hn : y.number = x.number
      · rw [if_pos hn, number] at none
        refine none ?_ (same.trans hn)
        rwa [Sheet.setSide_subject] at own
      · rw [if_neg hn] at none
        exact none reached same
    · exact old y hy (same.symm.trans new)
  · rw [planner next, ← h.brought.via.planner_eq rfl, ← via.planner_eq rfl]
    exact list
  · unfold countedUp at counted ⊢
    rw [path 4 (by decide) (by decide)]
    exact counted
  · obtain ⟨gateKept, note⟩ := quiet sending
    rw [gateKept, note, gate, via.gate_eq rfl, h.brought.via.gate_eq rfl]
    exact ⟨rfl, fun on => noted (by rw [via.mask_eq rfl, h.brought.via.mask_eq rfl, on])⟩

end registration

end Part.arrivesOn

/-- What the statement says where the side is not SPOILED. -/
def Part.committedAs (p : Part) (x : Sheet) (back : Bool) (q : Part) : Prop :=
  (∀ y ∈ p.table.sheets, y.number ≠ x.number → y ∈ q.table.sheets) ∧
  (∃ y ∈ q.table.sheets, y.number = x.number ∧ sideOf y (!back) = sideOf x (!back) ∧ y.cond = x.cond ∧ y.dest = x.dest ∧
    y.released = x.released ∧ sideOf y back =
      if x.cond = .purging ∨ x.released = true then (.void, (sideOf x back).2)
      else if x.kind = .insert ∨ (sideOf x back).2 = none then sideOf x back
      else (.committed, (sideOf x back).2.map fun g => { g with ready := false })) ∧
  (∀ k ∈ callsOf q, ¬ (k.sheet = x.number ∧ (k.side == .back) = back)) ∧
  (q.feed.nextSheet = p.feed.nextSheet → q.planner.list = p.planner.list) ∧
  (p.link.sending.isSome = true → q.gate = p.gate ∧ q.notices.spoil = p.notices.spoil)

/-- The side that passes is SPOILED (R96). -/
abbrev Sheet.spoilsAt (x : Sheet) (step : Step) : Prop :=
  ¬ (x.cond = .purging ∨ x.released = true) ∧ x.kind ≠ .insert ∧ (sideOf x (backPassesAt x step)).2.any (fun g => !g.ready) = true

namespace Part.arrivesOn

variable {X : Sheet}

theorem commits (h : p.arrivesOn v st d x step e r) (registration : d.role = .registration) (o : Arrival) (none : ¬ x.spoilsAt step) :
    p.committedAs x (backPassesAt x step) (r.takeArrival x step e o).judge.conclude := by
  obtain ⟨X, entry, finds, sheets⟩ := h.decides o
  have number := entry.number
  have finish : ∀ g : Sheet → Sheet, (∀ y, (g y).number = y.number) → (g X).cond = X.cond → (g X).dest = X.dest → (g X).released = X.released →
      sideOf (g X) (!backPassesAt x step) = sideOf X (!backPassesAt x step) →
      (r.entered x step e o).decided X.number X.backPasses g ((r.entered x step e o).decideCommit X.number) →
      (sideOf (g X) (backPassesAt x step) =
        if x.cond = .purging ∨ x.released = true then (.void, (sideOf x (backPassesAt x step)).2)
        else if x.kind = .insert ∨ (sideOf x (backPassesAt x step)).2 = Option.none then sideOf x (backPassesAt x step)
        else (.committed, (sideOf x (backPassesAt x step)).2.map fun g => { g with ready := false })) →
      p.committedAs x (backPassesAt x step) (r.takeArrival x step e o).judge.conclude := by
    intro g hg cond dest released other decided own
    rw [number, entry.passes] at decided
    obtain ⟨others, mem, calls, list, quiet⟩ := h.decided_kept registration o hg number sheets decided
    exact ⟨others, ⟨g X, mem, (hg X).trans number, other.trans (entry.side _), cond.trans entry.cond, dest.trans entry.dest,
      released.trans entry.released, own⟩, calls, list, quiet⟩
  have page := entry.page X.backPasses
  have passes := entry.passes
  have side := entry.side (backPassesAt x step)
  by_cases voided : x.cond = .purging ∨ x.released = true
  · obtain ⟨own, other⟩ := sideOf_setSide X (backPassesAt x step) .void
    refine finish (fun y => y.setSide X.backPasses .void) (fun y => y.setSide_number ..) ?_ ?_ ?_ ?_
      (Part.decideCommit_voided finds (by rwa [entry.cond, entry.released])) ?_
    · cases X.backPasses <;> rfl
    · cases X.backPasses <;> rfl
    · cases X.backPasses <;> rfl
    · rw [passes, other]
    · rw [passes, own, side, if_pos voided]
  · have live : ¬ (X.cond = .purging ∨ X.released = true) := by rwa [entry.cond, entry.released]
    by_cases blank : x.kind = .insert ∨ (sideOf x (backPassesAt x step)).2 = Option.none
    · refine finish id (fun _ => rfl) rfl rfl rfl rfl (Part.decideCommit_blank finds live (by rwa [page, entry.kind, passes])) ?_
      rw [if_neg voided, if_pos blank, id, side]
    · obtain ⟨kind, some_⟩ := not_or.mp blank
      obtain ⟨g, hg⟩ := Option.ne_none_iff_exists'.mp some_
      have ready : g.ready = true := by
        refine Bool.not_eq_false _ ▸ fun off => none ⟨voided, kind, ?_⟩
        rw [hg]
        simp [off]
      obtain ⟨own, other⟩ := sideOf_commit X (backPassesAt x step)
      refine finish (fun y => y.commit X.backPasses) (fun y => ?_) ?_ ?_ ?_ ?_
        (Part.decideCommit_ready finds live (by rwa [entry.kind]) (page.trans (by rw [passes, hg])) ready) ?_
      · cases X.backPasses <;> rfl
      · cases X.backPasses <;> rfl
      · cases X.backPasses <;> rfl
      · cases X.backPasses <;> rfl
      · rw [passes, other]
      · rw [passes, own, side, if_neg voided, if_neg blank]

end Part.arrivesOn

/-- Settles O32. -/
theorem commitDecided : Obligations.CommitDecided := by
  unfold Obligations.CommitDecided
  intro w p c t st d x step e h registration
  obtain ⟨r, on, run⟩ := Part.arrives.on (w := w) h
  refine completes_next run ?_
  by_cases spoils : x.spoilsAt step
  · obtain ⟨X, entry, finds, sheets⟩ := on.decides (e.outcome r.tick)
    obtain ⟨live, kind, any⟩ := id spoils
    obtain ⟨g, hg, ready⟩ := (Option.any_eq_true ..).mp any
    have off : g.ready = false := by simpa using ready
    have passes := entry.passes
    have sound : ((r.entered x step e (e.outcome r.tick)).table.sheets.map Sheet.number).Pairwise (· < ·) := by
      rw [(on.entered _).numbers]
      exact on.sound
    have decided := Part.decideCommit_spoils (g := g) sound finds (by rwa [entry.cond, entry.released]) (by rwa [entry.kind])
      (by rw [entry.page, passes, hg]) off
    rw [entry.number] at decided
    obtain ⟨others, own, calls, gone, list, counted, quiet⟩ := on.spoils_kept registration _ entry sheets decided
    obtain ⟨side, other⟩ := sideOf_setSide X (backPassesAt x step) .spoiled
    rw [passes] at own calls
    refine ⟨fun y hy ne => ?_, ⟨_, own, (Sheet.setSide_number ..).trans entry.number, ?_⟩, calls, ?_⟩
    · have reached : (x.spoilsAt step ∧ subjectOf p.force x y = true) ↔ subjectOf p.force x y = true := and_iff_right spoils
      exact (if_congr reached rfl rfl : (if x.spoilsAt step ∧ subjectOf p.force x y = true then p.spoiled y else y) = _) ▸ others y hy ne
    · rw [if_pos spoils]
      have states : ∀ b : Bool, (sideOf (p.spoiled (X.setSide (backPassesAt x step) .spoiled)) b).1 =
          (sideOf (X.setSide (backPassesAt x step) .spoiled) b).1 := fun b => by
        unfold sideOf
        split <;> rfl
      have way : (X.setSide (backPassesAt x step) .spoiled).itinerary = X.itinerary := by
        unfold Sheet.setSide
        split <;> rfl
      refine ⟨?_, ?_, rfl, rfl, rfl, rfl, rfl, ?_⟩
      · rw [states, side]
      · rw [states, other, entry.side]
      · show p.force.toPurge (X.setSide (backPassesAt x step) .spoiled).itinerary = _
        rw [way, entry.way]
    · rw [if_pos spoils]
      refine ⟨gone, list, counted, fun sending => ⟨(quiet sending).1, fun on_ h hh => ?_⟩⟩
      obtain rfl := Option.some.inj (hg.symm.trans hh)
      exact (quiet sending).2 on_
  · obtain ⟨others, ⟨y, hy, number, other, cond, dest, released, own⟩, calls, list, quiet⟩ := on.commits registration (e.outcome r.tick) spoils
    refine ⟨fun z hz ne => ?_, ⟨y, hy, number, ?_⟩, calls, ?_⟩
    · rw [if_neg fun k => spoils k.1]
      exact others z hz ne
    · rw [if_neg spoils]
      exact ⟨other, cond, dest, released, own⟩
    · rw [if_neg spoils]
      exact ⟨list, quiet⟩

end Sys2Proof.Machine
end

