-- ==== Sys2Proof/Proofs/FaultPlanFires.lean ====
section
/-! PROOF. The Fault Plan fires at an arrival and where a set is stapled (O38). -/

namespace Sys2Proof.Machine

variable {s t u p r q : Part} {st : Fin 24} {v : Tick} {x y : Sheet} {step : Step} {e : Expect} {o : Arrival} {d : StationDef}
  {c : Instr} {w : List Instr} {n : Nat}

/-! ## At an arrival (R168, R171) -/

/-- What an edge leading brought leaves of the schedule is no leading edge of a sheet it did not hold before. -/
theorem Part.brought.fewer {line : Fin 32} (h : p.brought v st line true r) :
    ∀ a ∈ r.dry.schedule, a.sheet = some n → a.leading = true → a ∈ p.dry.schedule := by
  intro a ha of lead
  rw [h.dry] at ha
  unfold Dry.afterEdge at ha
  split at ha
  · split at ha
    · exact ha
    · next a' next =>
      rcases List.mem_append.mp ha with old | new
      · exact List.mem_of_mem_erase old
      · unfold Edge.follow at new
        rw [Dry.nextEdge_leading next, if_pos rfl] at new
        unfold trailingOf at new
        split at new
        · exact absurd new List.not_mem_nil
        · obtain rfl := List.mem_singleton.mp new
          cases lead
  · exact ha

theorem Part.arrivesOn.scheduled (h : p.arrivesOn v st d x step e r) (on : p.dry.on = true) (o : Arrival) {z : Step}
    (hz : x.itinerary[x.index + 1]? = some z) : p.scheduledEdge (laterOf p.tick v) x.number z.station (laterOf p.tick v)
      (transit z.dist p.speed) (dwell x.media p.speed) (r.takeArrival x step e o).judge.conclude := by
  have told := (h.entered o).scheduled (by rw [h.brought.on, on]) z hz
  rw [h.brought.tick, h.brought.speed] at told
  obtain ⟨-, plan, first⟩ := p.dry.afterEdge_keeps st true
  rw [← h.brought.dry] at plan first
  have since : p.scheduledEdge (laterOf p.tick v) x.number z.station (laterOf p.tick v) (transit z.dist p.speed) (dwell x.media p.speed)
      (r.entered x step e o) := told.of_fewer plan first h.brought.fewer
  have kept := (h.tracksOn o).schedules
  rw [(h.acts o).via.dry_eq rfl, (h.feed o).2] at kept
  exact since.keeps kept h.old

/-! ## Where a set is stapled (R171) -/

/-- In dry run no station reads paper, and a start leaves the generator alone. -/
theorem Part.judgeStart_dry (on : s.dry.on = true) : s.judgeStart.dry = s.dry := by
  have selector := s.judgeSelector_via.dry_eq rfl
  unfold Part.judgeStart
  dsimp only
  split
  · rcases s.judgeSelector.enterStarting_cases with ⟨-, e⟩ | ⟨some, -⟩
    · have entered : s.judgeSelector.start.dry = s.judgeSelector.dry := s.judgeSelector.enterPath_via.dry_eq rfl
      rw [e, entered, selector]
    · obtain ⟨st, -, paper⟩ := List.any_eq_true.mp some
      unfold Part.paperAt at paper
      rw [selector, on] at paper
      cases paper
  · exact selector

theorem Part.judgeFeed_dry (on : s.dry.on = true) (same : s.judgeFeed.feed.nextSheet = s.feed.nextSheet) : s.judgeFeed.dry = s.dry := by
  by_cases idle : s.feed.path = .idle
  · rw [Part.judgeFeed_idle idle]
    exact Part.judgeStart_dry on
  · exact ((Part.judgeFeed_feeds idle).shifts_of same).1.dry_eq rfl

/-- The transmitter's turn, where it brings no pick, leaves the generator alone. -/
theorem Part.conclude_dry (on : s.dry.on = true) (same : s.conclude.feed.nextSheet = s.feed.nextSheet) : s.conclude.dry = s.dry := by
  rcases s.conclude_turns with k | ⟨u, k, j⟩
  · exact k.via.dry_eq rfl
  · have dry := k.via.dry_eq rfl
    rw [j.via.feed_eq rfl, ← k.via.feed_eq rfl] at same
    rw [j.via.dry_eq rfl, Part.judgeFeed_dry (by rw [dry, on]) same, dry]

/-- The NO STAPLE entries that fire for the sheets held (R171). -/
def Part.withholds (p : Part) (f : FaultEntry) : Bool :=
  !f.spent && f.kind == .noStaple && p.finisher.sheets.any fun h => f.ordinal == h.number + 1 - p.dry.firstSheet

theorem Part.noStapleFires_eq (s : Part) : s.dry.noStapleFires s.finisher.sheets = s.withholds := by
  funext f
  unfold Dry.noStapleFires Part.withholds Dry.ordinal
  refine congrArg (!f.spent && f.kind == .noStaple && ·) (congrArg (s.finisher.sheets.any ·) ?_)
  funext h
  exact BEq.comm

theorem Part.enterStapling_dry (on : s.dry.on = true) : s.enterStapling.dry = if s.dry.plan.any s.withholds = true then
    { s.dry with plan := s.dry.plan.map fun f => if s.withholds f then { f with spent := true } else f }
    else { s.dry with home := some ⟨true, plusTicks s.tick s.finisherSet.nominal⟩ } := by
  rw [← s.noStapleFires_eq]
  generalize fires : s.dry.noStapleFires s.finisher.sheets = f
  have any : ∀ q : Part, q.dry = s.dry → q.finisher.sheets = s.finisher.sheets →
      (if !q.dry.on then q else if q.dry.plan.any (q.dry.noStapleFires q.finisher.sheets) then q.modDry (Dry.spendNoStaple q.finisher.sheets)
        else q.modDry fun d => { d with home := some ⟨true, plusTicks q.tick s.finisherSet.nominal⟩ }).dry =
      if s.dry.plan.any f = true then { s.dry with plan := s.dry.plan.map fun x => if f x then { x with spent := true } else x }
      else { s.dry with home := some ⟨true, plusTicks q.tick s.finisherSet.nominal⟩ } := by
    intro q dry sheets
    have own : q.dry.noStapleFires q.finisher.sheets = f := by rw [dry, sheets, fires]
    rw [own, dry, on, Bool.not_true, if_neg Bool.false_ne_true]
    split
    · rw [Part.modDry_dry, dry]
      unfold Dry.spendNoStaple
      rw [sheets, fires]
    · rw [Part.modDry_dry, dry]
  exact any _ rfl rfl

/-- A closed set to be stapled, which nothing holds back, enters STAPLING. -/
theorem Part.judgeFinisher_staples (hc : s.finisher.state = .compiling) (closed : s.finisher.closed = true)
    (hd : s.finisher.disturbed = false) (settled : ∀ h ∈ s.finisher.sheets, h.settling = false) (episode : s.episode.isOpen = false)
    (doors : s.anyDoorOpen = false) (some : s.finisher.sheets ≠ [])
    (staple : s.finisher.toStaple = true ∧ s.finisher.stapled = false ∧ s.finisher.skipped = false ∧ s.finisher.abandoned = false) :
    s.judgeFinisher = s.judgeClosure.enterStapling := by
  have via := s.judgeClosure_via
  have finisher := Part.judgeClosure_closed closed
  have door : s.judgeClosure.anyDoorOpen = s.anyDoorOpen := anyDoorOpen_of (via.force_eq rfl) (via.lines_eq rfl)
  rcases s.judgeFinisher_cases with ⟨-, e⟩ | ⟨-, h⟩
  · have ready : s.judgeClosure.cycleReady = true := by
      rw [Part.cycleReady_iff, finisher, via.episode_eq rfl, door]
      exact ⟨hc, .inl closed, hd, settled, episode, doors⟩
    rw [ready] at e
    cases e
  · rw [finisher] at h
    rcases h with ⟨-, none, -⟩ | ⟨-, -, -, -, -, -, e⟩ | ⟨-, -, other, -⟩ | ⟨opened, -⟩
    · exact absurd none some
    · exact e
    · exact absurd staple other
    · rw [closed] at opened
      cases opened

/-- Settles O38. -/
theorem faultsFire : Obligations.FaultsFire := by
  unfold Obligations.FaultsFire
  intro w p on
  constructor
  · intro c t st d x step next e h hz
    obtain ⟨r, arrives, run⟩ := Part.arrives.on (w := w) h
    exact completes_next run (arrives.scheduled on _ hz)
  · intro t hc closed hd some settled episode doors toStaple stapled skipped kept
    have run : exec (.setCycleStart t) ⟨w, p⟩ = .next ⟨w, p.event t Part.judgeFinisher⟩ := rfl
    refine completes_next run ?_
    obtain ⟨passes, -⟩ := Part.event_passes (p := p) (t := t) (g := Part.judgeFinisher) (Part.judgeFinisher_moves _ (.inl rfl))
    have tick := passes.1
    have staples := Part.judgeFinisher_staples (s := p.advance t) hc closed hd settled episode doors some ⟨toStaple, stapled, skipped, kept⟩
    have closure := (p.advance t).judgeClosure_via
    have finisher := Part.judgeClosure_closed (s := p.advance t) closed
    have ends : (p.advance t).judgeFinisher.setGoesOn (p.event t Part.judgeFinisher) := Part.conclude_goesOn _
    have idle : p.event t Part.judgeFinisher = (p.advance t).judgeFinisher.conclude := rfl
    rw [staples] at ends idle
    have set : (p.advance t).judgeClosure.finisherSet = p.finisherSet := by
      unfold Part.finisherSet
      rw [closure.force_eq rfl]
      rfl
    have advanced : (p.advance t).tick = laterOf p.tick t := rfl
    have old : (p.advance t).dry = p.dry ∧ (p.advance t).finisher = p.finisher ∧ (p.advance t).feed = p.feed := ⟨rfl, rfl, rfl⟩
    rw [old.2.1] at finisher
    have dry := closure.dry_eq rfl
    have clock := closure.tick_eq rfl
    have feed := closure.feed_eq rfl
    rw [old.1] at dry
    rw [old.2.2] at feed
    rw [advanced] at clock
    generalize p.event t Part.judgeFinisher = q at *
    generalize (p.advance t).judgeClosure = a at *
    have state : a.enterStapling.finisher.state = .stapling := by rw [Part.enterStapling_finisher]
    refine ⟨(ends.settled_eq (by rw [Finisher.settled, state]; exact ⟨nofun, nofun⟩)).1 ▸ state, fun same => ?_⟩
    have generator := Part.enterStapling_dry (s := a) (by rw [dry, on])
    have withholds : a.withholds = p.withholds := by
      funext f
      unfold Part.withholds
      rw [dry, finisher]
    rw [withholds, dry, clock, set, ← tick] at generator
    have stays := Part.conclude_dry (s := a.enterStapling) (by rw [generator]; split <;> exact on) (by
      rw [← idle, same, a.enterStapling_via.feed_eq rfl, feed])
    rw [idle, stays, generator, ← idle]
    rfl

end Sys2Proof.Machine
end

