-- ==== Sys2Proof/Proofs/TrailingEdges.lean ====
section
/-! PROOF. A trailing edge at a station covered by a moving sheet (O35). -/

namespace Sys2Proof.Machine

variable {s t u p r q : Part} {st : Fin 24} {v : Tick} {x y : Sheet} {k : Cover} {d : StationDef} {c : Instr} {w : List Instr} {n : Nat}

/-! ## The edge brought (R76) -/

/-- The part a trailing edge of `x` is brought to. -/
structure Part.departsOn (p : Part) (v : Tick) (st : Fin 24) (d : StationDef) (x : Sheet) (k : Cover) (r : Part) : Prop where
  brought : p.brought v st d.line false r
  here : p.force.stations[st] = some d
  tracks : r.feed.path.tracks = true
  sound : (r.table.sheets.map Sheet.number).Pairwise (· < ·)
  fresh : r.fresh
  mem : x ∈ r.table.sheets
  cover : (r.stations[st]).cover = some k
  edge : r.trackEdge false st = r.takeTrailing x k st

theorem Part.trailingEdge_tracks (h : s.feed.path.tracks = true) : s.trailingEdge st = s.matchTrailing st := by
  unfold Part.trailingEdge
  rcases PathState.tracks_cases h with e | e | e <;> rw [e]

theorem Part.matchTrailing_taken (cover : (s.stations[st]).cover = some k) (covering : s.coveringSheet st = some x) :
    s.matchTrailing st = s.takeTrailing x k st := by
  unfold Part.matchTrailing
  rw [cover, covering]

theorem Part.departs.on (h : p.departs c v st d x k) : ∃ r, p.departsOn v st d x k r ∧
    exec c ⟨w, p⟩ = .next ⟨w, (r.takeTrailing x k st).judge.conclude⟩ := by
  obtain ⟨sound, brings, here, tracks, cover, hx, number, moving⟩ := h
  obtain ⟨r, brought, run⟩ := exec_brings (w := w) brings here fun _ => by
    rcases PathState.tracks_cases tracks with e | e | e <;> rw [e] <;> rfl
  have via := brought.via
  have tracks' : r.feed.path.tracks = true := by rwa [via.feed_eq rfl]
  have sound' : (r.table.sheets.map Sheet.number).Pairwise (· < ·) := by
    rw [via.table_eq rfl]
    exact sound.1
  have hx' : x ∈ r.table.sheets := by rwa [via.table_eq rfl]
  have cover' : (r.stations[st]).cover = some k := by rwa [via.stations_eq rfl]
  have edge : r.trackEdge false st = r.takeTrailing x k st :=
    (Part.trailingEdge_tracks tracks').trans (Part.matchTrailing_taken cover' (Part.coveringSheet_some sound' cover' hx' number moving))
  rw [edge] at run
  refine ⟨r, ⟨brought, here, tracks', sound', ?_, hx', cover', edge⟩, run⟩
  unfold Part.fresh
  rw [via.table_eq rfl, via.feed_eq rfl]
  exact sound.2.1

/-! ## The covering entry gone (R76) -/

/-- The latest other station whose entry names the sheet. -/
def Part.latestBut (p : Part) (x : Sheet) (st : Fin 24) : Option (Fin 24) :=
  ((x.itinerary.take x.index).reverse.map Step.station).find? fun i =>
    i != st && ((p.stations[i]).cover).any fun z => z.sheet == x.number

theorem Part.latestCover_bare (s : Part) (x : Sheet) (st : Fin 24) :
    (s.modStation st fun y => { y with cover := none }).latestCover x = s.latestBut x st := by
  unfold Part.latestCover Part.latestBut
  refine List.find?_congr fun i _ => ?_
  rw [Part.getElem_modStation]
  by_cases h : i = st
  · rw [if_pos h, h]
    simp
  · rw [if_neg h]
    simp [h]

/-- What the tracker leaves of the part with the station uncovered. -/
structure Part.leaves (s : Part) (x : Sheet) (st : Fin 24) (t : Part) : Prop where
  via : Via [.table, .stations] s t
  bare : (t.stations[st]).cover = none
  apart : ∀ i : Fin 24, i ≠ st → t.stations[i] = s.stations[i]
  sheets : t.table.sheets = s.table.sheets.map fun y =>
    if y.number = x.number then { y with covering := if x.covering = some st then s.latestBut x st else y.covering } else y

theorem Part.uncover_leaves (s : Part) (x : Sheet) (st : Fin 24) : s.leaves x st (s.uncover x st) := by
  have row := fun i : Fin 24 => Part.getElem_modStation s st (fun y => { y with cover := none }) i
  have latest := s.latestCover_bare x st
  have via := s.uncover_via x st
  have e : s.uncover x st = if x.covering = some st then (s.modStation st fun y => { y with cover := none }).modSheet x.number fun y =>
      { y with covering := (s.modStation st fun y => { y with cover := none }).latestCover x }
      else s.modStation st fun y => { y with cover := none } := rfl
  rw [latest] at e
  have bare : Via [.stations] s (s.modStation st fun y => { y with cover := none }) := Part.modStation_via ..
  generalize s.modStation st (fun y => { y with cover := none }) = b at row e bare
  have stations : (s.uncover x st).stations = b.stations := by
    rw [e]
    split <;> rfl
  refine ⟨via, ?_, fun i hi => ?_, ?_⟩
  · rw [stations, row, if_pos rfl]
  · rw [stations, row, if_neg hi]
  · rw [e]
    split
    · next h =>
      have sheets : (b.modSheet x.number fun y => { y with covering := s.latestBut x st }).table.sheets =
          b.table.sheets.map fun y => if y.number = x.number then { y with covering := s.latestBut x st } else y := rfl
      rw [sheets, bare.table_eq rfl]
    · rw [bare.table_eq rfl]
      simp

theorem Part.leaves.numbers (h : s.leaves x st t) : t.table.sheets.map Sheet.number = s.table.sheets.map Sheet.number := by
  rw [h.sheets, List.map_map]
  refine List.map_congr_left fun y _ => ?_
  show (if y.number = x.number then _ else y).number = y.number
  split <;> rfl

theorem Part.leaves.mem (h : s.leaves x st t) (hx : x ∈ s.table.sheets) :
    { x with covering := if x.covering = some st then s.latestBut x st else x.covering } ∈ t.table.sheets := by
  rw [h.sheets]
  have mem := List.mem_map_of_mem (f := fun y : Sheet =>
    if y.number = x.number then { y with covering := if x.covering = some st then s.latestBut x st else y.covering } else y) hx
  rwa [if_pos rfl] at mem

/-! ## The reservation that ends at MAIN (R65) -/

/-- The reservation a trailing edge at the first station of MAIN ends. -/
def Part.endsAt (p : Part) (st : Fin 24) (x : Sheet) (a : Resv) : Bool :=
  decide (((p.force.leg .main).steps.head?).map LegStep.station = some st) && (a.sheet == x.number && a.kind == x.endsResv)

/-- The tracker's part once the reservation is gone. -/
def Part.freedAt (s : Part) (x : Sheet) (st : Fin 24) : Part :=
  if ((s.force.leg .main).steps.head?.map LegStep.station) = some st then s.unreserve x else s

theorem Part.freedAt_via (s : Part) (x : Sheet) (st : Fin 24) : Via [.feed] s (s.freedAt x st) := by
  unfold Part.freedAt
  split
  · exact s.unreserve_via x
  · exact .refl s

theorem Part.freedAt_feed (s : Part) (x : Sheet) (st : Fin 24) :
    (s.freedAt x st).feed = { s.feed with merge := s.feed.merge.filter fun a => !s.endsAt st x a } := by
  unfold Part.freedAt Part.endsAt
  split
  · next h =>
    simp only [h, decide_true, Bool.true_and]
    rfl
  · next h =>
    simp only [h, decide_false, Bool.false_and, Bool.not_false, List.filter_true]

theorem Part.takeTrailing_eq (s : Part) (x : Sheet) (k : Cover) (st : Fin 24) : s.takeTrailing x k st =
    if (x.itinerary.getLast?.map Step.station) = some st then
      ((if (x.itinerary.head?.map Step.station) = some st then (s.uncover x st).checkLength x st k.lead else s.uncover x st).freedAt x st).deliver
        x st
    else (if (x.itinerary.head?.map Step.station) = some st then (s.uncover x st).checkLength x st k.lead else s.uncover x st).freedAt x st :=
  rfl

namespace Part.departsOn

theorem old (h : p.departsOn v st d x k r) : x.number ≠ r.feed.nextSheet := (h.fresh x h.mem).ne

theorem ends (h : p.departsOn v st d x k r) : p.passesTo v (r.takeTrailing x k st).judge.conclude ∧
    (r.takeTrailing x k st).judge.conclude.lines = p.linesAfter d.line false := by
  rw [← h.edge]
  exact h.brought.passes

theorem latest (h : p.departsOn v st d x k r) : r.latestBut x st = p.latestBut x st := by
  unfold Part.latestBut
  rw [h.brought.via.stations_eq rfl]

/-- An edge that only uncovers the station and frees the reservation. -/
theorem leaves_ends (h : p.departsOn v st d x k r) (e : r.takeTrailing x k st = (r.uncover x st).freedAt x st) :
    let q := (r.takeTrailing x k st).judge.conclude
    q.episode = p.episode ∧ (q.stations[st]).cover = none ∧ (∀ other : Fin 24, other ≠ st → q.stations[other] = p.stations[other]) ∧
    { x with covering := if x.covering = some st then p.latestBut x st else x.covering } ∈ q.table.sheets ∧
    (∀ a : Resv, a.sheet ≠ p.feed.nextSheet → (a ∈ q.feed.merge ↔ a ∈ p.feed.merge ∧ p.endsAt st x a = false)) := by
  have left := r.uncover_leaves x st
  have via := h.brought.via
  have latest := h.latest
  have fresh := h.fresh
  have old := h.old
  have mem := left.mem h.mem
  rw [e]
  generalize r.uncover x st = b at left mem
  have freed := b.freedAt_via x st
  have feed := b.freedAt_feed x st
  rw [left.via.feed_eq rfl, via.feed_eq rfl] at feed
  have ends : b.endsAt st x = p.endsAt st x := by
    funext a
    unfold Part.endsAt
    rw [left.via.force_eq rfl, via.force_eq rfl]
  rw [ends] at feed
  generalize b.freedAt x st = a at freed feed ⊢
  have tracks : a.feed.path.tracks = true := by
    rw [feed, ← via.feed_eq rfl]
    exact h.tracks
  have still : a.fresh := Part.fresh_of (s := r) (by rw [freed.table_eq rfl, left.numbers]) (by rw [feed, via.feed_eq rfl]) fresh
  have on := Part.ends_tracksOn tracks
  have stations : a.judge.conclude.stations = b.stations := by rw [on.via.stations_eq rfl, freed.stations_eq rfl]
  have next : a.feed.nextSheet = p.feed.nextSheet := by rw [feed]
  dsimp only
  generalize a.judge.conclude = q at *
  refine ⟨?_, ?_, fun i hi => ?_, ?_, fun z hz => ?_⟩
  · rw [on.via.episode_eq rfl, freed.episode_eq rfl, left.via.episode_eq rfl, via.episode_eq rfl]
  · rw [stations, left.bare]
  · rw [stations, left.apart i hi, via.stations_eq rfl]
  · rw [latest] at mem
    refine (on.mem_iff still ?_).mpr (by rw [freed.table_eq rfl]; exact mem)
    rw [next, ← via.feed_eq rfl]
    exact old
  · rw [on.merge_iff still (by rwa [next]), feed]
    simp

end Part.departsOn

theorem Part.endsAt_iff (p : Part) (st : Fin 24) (x : Sheet) (a : Resv) : p.endsAt st x a = true ↔
    ((p.force.leg .main).steps.head?).map LegStep.station = some st ∧ a.sheet = x.number ∧
      a.kind = if x.kind = .duplex ∧ x.pass = .final then .return else .feed := by
  unfold Part.endsAt
  rw [Bool.and_eq_true, Bool.and_eq_true, decide_eq_true_eq, beq_iff_eq, beq_iff_eq]
  rfl

/-! ## The length check (R77) -/

/-- A station no covering entry returns to has none. -/
theorem Part.bare_of (h : ∀ k : Cover, k.deadline = none → s.coverStays st k) : (s.stations[st]).cover = none := by
  rcases h ⟨0, 0, none⟩ rfl with e | e
  · exact e
  · rcases h ⟨1, 0, none⟩ rfl with e' | e'
    · exact e'
    · rw [e] at e'
      cases e'

/-- A jam declared on the part with the station uncovered, to the end of the event. -/
theorem Part.departsOn.jams {b : Part} (h : p.departsOn v st d x k r) (via : Via [.notices, .table, .stations, .stats] r b)
    (bare : (b.stations[st]).cover = none) (kind : JamKind) :
    let q := ((b.jamAt kind st b.tick (some x)).freedAt x st).judge.conclude
    b.jammed (stationJam p kind st (laterOf p.tick v) (some x)) st q ∧ (q.stations[st]).cover = none ∧
      p.tookJam (stationJam p kind st (laterOf p.tick v) (some x)) q := by
  have path : b.feed.path = r.feed.path := by rw [via.feed_eq rfl]
  have takes : b.feed.path.takesJams = true := by
    rw [path]
    exact PathState.tracks_takesJams h.tracks
  have tick : b.tick = laterOf p.tick v := by rw [via.tick_eq rfl, h.brought.tick]
  have jam := Part.jamAt_taken takes kind st b.tick (some x)
  have cover : ∀ k : Cover, k.deadline = none → (b.jamAt kind st b.tick (some x)).coverStays st k := fun k hk => by
    rw [b.jamAt_eq]
    refine Part.coverStays.takeJam ?_ hk (by rwa [(b.countStation_via st 2).feed_eq rfl]) _
    exact .inl (by rw [(b.countStation_via st 2).stations_eq rfl, bare])
  rw [stationJam_of (p := p) (by rw [via.force_eq rfl, h.brought.via.force_eq rfl]), tick] at jam
  rw [tick] at cover ⊢
  generalize b.jamAt kind st (laterOf p.tick v) (some x) = a at jam cover ⊢
  have freed := a.freedAt_via x st
  have jammed := jam.merged freed (by rw [a.freedAt_feed])
  have rests := PathState.rests_of_inEpisode jammed.took.2.2
  dsimp only
  refine ⟨jammed.ends, Part.bare_of fun k hk => ?_, ?_⟩
  · exact ((cover k hk).of (Part.coversGo_of (freed.stations_eq rfl))).ends rests
  · exact jammed.ends.took.of (by rw [path, h.brought.via.feed_eq rfl]) (by rw [via.episode_eq rfl, h.brought.via.episode_eq rfl])

theorem Part.checkLength_eq (s : Part) (x : Sheet) (st : Fin 24) (lead : Tick) : s.checkLength x st lead =
    if x.media + s.force.timing.multifeed < measuredLength s.speed lead s.tick then (s.countPath 5).jamAt .multifeed st s.tick (some x)
    else if measuredLength s.speed lead s.tick + s.force.timing.multifeed < x.media then s.jamAt .sizeMismatch st s.tick (some x)
    else s := rfl

theorem stationUncovered_measured (w : List Instr) (h : p.departs c v st d x k)
    (first : (x.itinerary.head?).map Step.station = some st) (last : (x.itinerary.getLast?).map Step.station ≠ some st) :
    Completes c ⟨w, p⟩ fun q =>
      let length := ((since k.lead (laterOf p.tick v)).toNat * p.speed + 1000) / 2000
      let margin := p.force.timing.multifeed
      p.passesTo v q ∧ q.lines = p.linesAfter d.line false ∧ (q.stations[st]).cover = none ∧
      if x.media + margin < length then
        p.tookJam (stationJam p .multifeed st q.tick (some x)) q ∧ countedUp p.stats.pathSet.width p.stats.path q.stats.path 5
      else if length + margin < x.media then p.tookJam (stationJam p .sizeMismatch st q.tick (some x)) q
      else q.episode = p.episode ∧ ∃ y ∈ q.table.sheets, y = { x with covering := y.covering } := by
  obtain ⟨r, on, run⟩ := Part.departs.on (w := w) h
  refine completes_next run ?_
  obtain ⟨passes, lines⟩ := on.ends
  have tick := passes.1
  refine ⟨passes, lines, ?_⟩
  rw [tick]
  have e := r.takeTrailing_eq x k st
  rw [if_neg last, if_pos first, Part.checkLength_eq] at e
  have left := r.uncover_leaves x st
  have ends := on.leaves_ends
  have via := left.via
  have brought := on.brought.via
  have length : measuredLength (r.uncover x st).speed k.lead (r.uncover x st).tick =
      ((since k.lead (laterOf p.tick v)).toNat * p.speed + 1000) / 2000 := by
    unfold measuredLength Part.speed
    rw [via.tick_eq rfl, on.brought.tick, via.force_eq rfl, via.feed_eq rfl, brought.force_eq rfl, brought.feed_eq rfl]
  have margin : (r.uncover x st).force.timing.multifeed = p.force.timing.multifeed := by rw [via.force_eq rfl, brought.force_eq rfl]
  rw [length, margin] at e
  split
  · next long =>
    rw [if_pos long] at e
    have counts := (r.uncover x st).countPath_via 5
    have raised := (r.uncover x st).countPath_raised 5
    rw [via.stats_eq rfl, brought.stats_eq rfl] at raised
    have jams := on.jams (b := (r.uncover x st).countPath 5) ((via.mono rfl).andThen counts rfl)
      (by rw [counts.stations_eq rfl, left.bare]) .multifeed
    rw [counts.tick_eq rfl, ← e] at jams
    obtain ⟨jammed, bare, took⟩ := jams
    refine ⟨bare, took, ?_⟩
    unfold countedUp at raised ⊢
    rw [jammed.path 5 (by decide) (by decide)]
    exact raised
  · next long =>
    rw [if_neg long] at e
    split
    · next short =>
      rw [if_pos short] at e
      have jams := on.jams (b := r.uncover x st) (via.mono rfl) left.bare .sizeMismatch
      rw [← e] at jams
      exact ⟨jams.2.1, jams.2.2⟩
    · next short =>
      rw [if_neg short] at e
      obtain ⟨episode, bare, -, mem, -⟩ := ends e
      exact ⟨bare, episode, _, mem, rfl⟩

/-- Settles O35. -/
theorem stationUncovered : Obligations.StationUncovered := by
  refine ⟨fun w p c t st d x k h first last => ?_, fun w p c t st d x k h first last => stationUncovered_measured w h first last⟩
  obtain ⟨r, on, run⟩ := Part.departs.on (w := w) h
  refine completes_next run ?_
  obtain ⟨passes, lines⟩ := on.ends
  have e := r.takeTrailing_eq x k st
  rw [if_neg last, if_neg first] at e
  obtain ⟨episode, bare, apart, mem, merge⟩ := on.leaves_ends e
  refine ⟨passes, lines, episode, bare, apart, mem, fun a ha old => ?_, fun atMain a ha own kind => ?_⟩
  · by_cases ends : p.endsAt st x a = true
    · exact .inr ((p.endsAt_iff st x a).mp ends)
    · exact .inl ((merge a old).mpr ⟨ha, Bool.eq_false_iff.mpr ends⟩)
  · have old : a.sheet ≠ p.feed.nextSheet := by
      rw [own, ← on.brought.via.feed_eq rfl]
      exact on.old
    have stays := ((merge a old).mp ha).2
    rw [(p.endsAt_iff st x a).mpr ⟨atMain, own, kind⟩] at stays
    cases stays

end Sys2Proof.Machine
end

