-- ==== Sys2Proof/Proofs/Deliveries.lean ====
section
/-! PROOF. The delivery of a sheet at its final entry station (O34). -/

namespace Sys2Proof.Machine

variable {s t u p r q : Part} {st : Fin 24} {v : Tick} {x y : Sheet} {k : Cover} {d : StationDef} {c : Instr} {w : List Instr} {n : Nat}

/-! ## The end of an event that may leave HALTING (R112) -/

/-- RUNNING, DRAINING or HALTING, or HELD as a HALTING that has ended left it. -/
abbrev PathState.tracked (x : PathState) : Prop := x.tracks = true ∨ x = .held

theorem PathState.rests_of_held {x : PathState} (h : x = .held) : x.rests := by
  rw [h]
  exact ⟨nofun, nofun, nofun⟩

theorem PathState.unheld_of_tracks {x : PathState} (h : x.tracks = true) : x ≠ .held := by
  rintro rfl
  cases h

section ends

variable (h : s.feed.path.tracked)
include h

/-- The sheets stay, but for one picked, and those a plan build takes. -/
theorem Part.ends_table (sound : (s.table.sheets.map Sheet.number).Pairwise (· < ·)) (fresh : s.fresh) :
    (∀ y ∈ s.judge.conclude.table.sheets, y ∈ s.table.sheets ∨ y.number = s.feed.nextSheet) ∧
    (∀ y ∈ s.table.sheets, y ∈ s.judge.conclude.table.sheets ∨
      (s.judge.conclude.feed.path = .resumable ∧ y.cond = .stranded)) := by
  rcases h with tracks | held
  · obtain ⟨l, e, new⟩ := (Part.ends_tracksOn tracks).sheets fresh
    rw [e]
    exact ⟨fun y hy => (List.mem_append.mp hy).imp_right (new y), fun y hy => .inl (List.mem_append_left _ hy)⟩
  · have set := s.judgeSet_via.table_eq rfl
    rcases Part.judge_rests (PathState.rests_of_held held) with ⟨-, serves⟩ | ⟨-, -, t, sweeps, serves⟩
    · rw [serves.via.table_eq rfl, set]
      exact ⟨fun y hy => .inl hy, fun y hy => .inl hy⟩
    · have subset := sweeps.sheets.subset
      have course := sweeps.course
      rw [serves.via.table_eq rfl, serves.via.feed_eq rfl]
      rw [set] at subset course
      refine ⟨fun y hy => .inl (subset hy), fun y hy => ?_⟩
      split at course
      · obtain ⟨path, built⟩ := course
        obtain ⟨-, -, -, -, sheets, -⟩ := built sound
        rw [sheets, set]
        by_cases cond : y.cond = .stranded
        · exact .inr ⟨path, cond⟩
        · exact .inl (List.mem_filter.mpr ⟨hy, by simpa using cond⟩)
      · rw [course.2.1]
        exact .inl hy

/-- A set that holds sheets keeps them, unless a plan build takes them. -/
theorem Part.ends_held (some : s.finisher.sheets ≠ []) (still : s.judge.conclude.feed.path ≠ .resumable) :
    s.judge.conclude.finisher.sheets = s.finisher.sheets ∧ s.judge.conclude.finisher.ident = s.finisher.ident := by
  rcases h with tracks | held
  · have goesOn : s.setGoesOn s.judge.conclude := by
      rw [Part.judge_unheld (PathState.unheld_of_tracks tracks)]
      exact (s.judgeSet_goesOn.trans (Part.judgeFeed_goesOn _)).trans (Part.conclude_goesOn _)
    exact ⟨(goesOn.sheets some).1, (goesOn.sheets some).2.2⟩
  · obtain ⟨sheets, -, ident⟩ := s.judgeSet_goesOn.sheets some
    rcases Part.judge_rests (PathState.rests_of_held held) with ⟨-, serves⟩ | ⟨-, -, t, sweeps, serves⟩
    · rw [serves.via.finisher_eq rfl]
      exact ⟨sheets, ident⟩
    · have course := sweeps.course
      rw [serves.via.feed_eq rfl] at still
      rw [serves.via.finisher_eq rfl]
      split at course
      · exact absurd course.1 still
      · rw [course.2.2.2.1]
        exact ⟨sheets, ident⟩

theorem Part.ends_purge : s.judge.conclude.gate.purgeCount = s.gate.purgeCount := by
  rcases h with tracks | held
  · exact (Part.ends_tracksOn tracks).purge
  · have set := s.judgeSet_via.gate_eq rfl
    rcases Part.judge_rests (PathState.rests_of_held held) with ⟨-, serves⟩ | ⟨-, -, t, sweeps, serves⟩
    · rw [serves.count.1, set]
    · rw [serves.count.1, sweeps.via.gate_eq rfl, set]

theorem Part.ends_covers : s.coversGo s.judge.conclude := by
  rcases h with tracks | held
  · exact Part.coversGo_of ((Part.ends_tracksOn tracks).via.stations_eq rfl)
  · have set : s.coversGo s.judgeSet := Part.coversGo_of (s.judgeSet_via.stations_eq rfl)
    rcases Part.judge_rests (PathState.rests_of_held held) with ⟨-, serves⟩ | ⟨-, -, t, sweeps, serves⟩
    · exact set.trans (Part.coversGo_of (serves.via.stations_eq rfl))
    · exact (set.trans sweeps.covers).trans (Part.coversGo_of (serves.via.stations_eq rfl))

end ends

theorem Part.endHalting_tracked (h : s.feed.path.tracks = true) : s.endHalting.feed.path.tracked ∧
    s.endHalting.feed.nextSheet = s.feed.nextSheet := by
  unfold Part.endHalting
  split
  · have stopped : s.stopDrives.feed = s.feed := (s.stopDrives_via).feed_eq rfl
    rw [Part.setPath_feed, stopped]
    exact ⟨.inr rfl, rfl⟩
  · exact ⟨.inl h, rfl⟩

/-! ## The delivery (R88) -/

/-- The part the sheet is delivered on. -/
def Part.leaving (r : Part) (x : Sheet) (st : Fin 24) : Part := (r.uncover x st).freedAt x st

/-- Delivered, its compile completed at once with a settle time of 0. -/
def Part.delivering (s : Part) (x : Sheet) (st : Fin 24) : Part :=
  if s.force.roleOf st = some .finisherEntry ∧ (s.deliverCore x st).finisherSet.settle = 0 then (s.deliverCore x st).completeCompile
  else s.deliverCore x st

theorem Part.delivering_via (s : Part) (x : Sheet) (st : Fin 24) :
    Via [.notices, .intake, .out, .gate, .finisher, .stats, .table, .stations, .dry] s (s.delivering x st) := by
  have core := s.deliverCore_via x st
  unfold Part.delivering
  split
  · exact (core.mono rfl).andThen (Part.completeCompile_via _) rfl
  · exact core.mono rfl

theorem Part.delivering_table (s : Part) (x : Sheet) (st : Fin 24) :
    (s.delivering x st).table.sheets = s.table.sheets.filter (fun y => y.number != x.number) ∧ s.coversGo (s.delivering x st) := by
  have given := Part.deliverTo_via s x (s.force.roleOf st)
  have core : (s.deliverCore x st).table.sheets = s.table.sheets.filter fun y => y.number != x.number := by
    rw [← given.table_eq rfl]
    rfl
  have covers : s.coversGo (s.deliverCore x st) :=
    (Part.coversGo_of (given.stations_eq rfl)).trans (Part.removeSheet_coversGo _ _)
  have compile := Part.completeCompile_via (s.deliverCore x st)
  unfold Part.delivering
  split
  · rw [compile.table_eq rfl]
    exact ⟨core, covers.trans (Part.coversGo_of (compile.stations_eq rfl))⟩
  · exact ⟨core, covers⟩

/-- The end of a delivery: the run-on timer, and HALTING left. -/
def Part.rounded (s : Part) : Part := s.armRunOn.endHalting

theorem Part.rounded_via (s : Part) : Via [.notices, .feed, .out] s s.rounded :=
  ((s.armRunOn_via).mono rfl).andThen (Part.endHalting_via _) rfl

theorem Part.rounded_tracked (h : s.feed.path.tracks = true) : s.rounded.feed.path.tracked ∧ s.rounded.feed.nextSheet = s.feed.nextSheet := by
  have armed : s.armRunOn.feed.path = s.feed.path ∧ s.armRunOn.feed.nextSheet = s.feed.nextSheet := by
    unfold Part.armRunOn
    split <;> exact ⟨rfl, rfl⟩
  obtain ⟨path, next⟩ := Part.endHalting_tracked (s := s.armRunOn) (by rwa [armed.1])
  exact ⟨path, next.trans armed.2⟩

namespace Part.departsOn

theorem last_eq (_ : p.departsOn v st d x k r) (first : (x.itinerary.head?).map Step.station ≠ some st)
    (last : (x.itinerary.getLast?).map Step.station = some st) :
    r.takeTrailing x k st = ((r.leaving x st).delivering x st).rounded := by
  rw [Part.takeTrailing_eq, if_pos last, if_neg first, Part.deliver_eq]
  rfl

/-- The part the sheet is delivered on, as the statement is told of it. -/
structure leavesAs (p : Part) (v : Tick) (st : Fin 24) (d : StationDef) (x : Sheet) (b : Part) : Prop where
  via : Via [.tick, .lines, .dry, .table, .stations, .feed] p b
  tick : b.tick = laterOf p.tick v
  tracks : b.feed.path.tracks = true
  next : b.feed.nextSheet = p.feed.nextSheet
  sound : (b.table.sheets.map Sheet.number).Pairwise (· < ·)
  fresh : b.fresh
  role : b.force.roleOf st = some d.role
  bare : (b.stations[st]).cover = none
  number : x.number < p.feed.nextSheet
  old : ∀ y ∈ p.table.sheets, y.number ≠ x.number → y ∈ b.table.sheets
  on : b.dry.on = p.dry.on

theorem leaves (h : p.departsOn v st d x k r) : leavesAs p v st d x (r.leaving x st) := by
  have left := r.uncover_leaves x st
  have freed := (r.uncover x st).freedAt_via x st
  have feed := (r.uncover x st).freedAt_feed x st
  have e : r.leaving x st = (r.uncover x st).freedAt x st := rfl
  have brought := h.brought.via
  rw [left.via.feed_eq rfl] at feed
  have via : Via [.table, .stations, .feed] r (r.leaving x st) := (left.via.mono rfl).andThen freed rfl
  rw [← e] at freed feed
  generalize r.leaving x st = b at *
  generalize r.uncover x st = a at *
  have numbers : b.table.sheets.map Sheet.number = r.table.sheets.map Sheet.number := by rw [freed.table_eq rfl, left.numbers]
  have next : b.feed.nextSheet = r.feed.nextSheet := by rw [feed]
  constructor
  case via => exact (brought.mono rfl).andThen via rfl
  case tick => rw [via.tick_eq rfl, h.brought.tick]
  case tracks =>
    rw [feed]
    exact h.tracks
  case next => rw [next, brought.feed_eq rfl]
  case sound => rw [numbers]; exact h.sound
  case fresh => exact Part.fresh_of numbers next h.fresh
  case role => exact Part.roleOf_some h.here ((via.force_eq rfl).trans (brought.force_eq rfl))
  case bare => rw [freed.stations_eq rfl, left.bare]
  case number =>
    rw [← brought.feed_eq rfl]
    exact h.fresh x h.mem
  case old =>
    intro y hy ne
    have mem : y ∈ r.table.sheets := by rwa [brought.table_eq rfl]
    rw [freed.table_eq rfl, left.sheets]
    exact List.mem_map.mpr ⟨y, mem, if_neg ne⟩
  case on => rw [via.dry_eq rfl, h.brought.on]

end Part.departsOn

open Part.departsOn (leavesAs)

namespace Part.departsOn.leavesAs

variable {b : Part}

/-- What the delivery and the end of its event leave of the table and the station. -/
theorem gone (h : leavesAs p v st d x b) :
    let q := (b.delivering x st).rounded.judge.conclude
    (q.stations[st]).cover = none ∧ (∀ y ∈ q.table.sheets, y.number ≠ x.number) ∧
    ∀ y ∈ p.table.sheets, y.number ≠ x.number → y ∈ q.table.sheets ∨ (q.feed.path = .resumable ∧ y.cond = .stranded) := by
  have via := b.delivering_via x st
  obtain ⟨sheets, covers⟩ := b.delivering_table x st
  have tracks := h.tracks
  rw [← via.feed_eq rfl] at tracks
  have next := h.next
  rw [← via.feed_eq rfl] at next
  generalize b.delivering x st = a at via sheets covers tracks next ⊢
  have round := a.rounded_via
  obtain ⟨path, same⟩ := Part.rounded_tracked tracks
  rw [← round.table_eq rfl] at sheets
  have covers := covers.trans (Part.coversGo_of (round.stations_eq rfl))
  rw [next] at same
  generalize a.rounded = e at *
  have sub : ((e.table.sheets.map Sheet.number)).Sublist (b.table.sheets.map Sheet.number) := by
    rw [sheets]
    exact List.filter_sublist.map _
  have fresh : e.fresh := fun y hy => by
    rw [sheets] at hy
    rw [same, ← h.next]
    exact h.fresh y (List.mem_filter.mp hy).1
  obtain ⟨new, old⟩ := Part.ends_table path (h.sound.sublist sub) fresh
  have cover := covers.trans (Part.ends_covers path)
  dsimp only
  generalize e.judge.conclude = q at *
  refine ⟨?_, fun y hy => ?_, fun y hy ne => old y ?_⟩
  · rcases cover st with none | kept
    · exact none
    · rw [kept, h.bare]
  · rcases new y hy with mem | number
    · rw [sheets] at mem
      simpa using (List.mem_filter.mp mem).2
    · rw [number, same]
      exact h.number.ne'
  · rw [sheets]
    exact List.mem_filter.mpr ⟨h.old y hy ne, by simpa using ne⟩

theorem delivering_plain (h : leavesAs p v st d x b) (other : ¬ (d.role = .finisherEntry ∧ p.finisherSet.settle = 0)) :
    b.delivering x st = (b.deliverTo x (some d.role)).removeSheet x.number := by
  have settle : (b.deliverCore x st).finisherSet.settle = p.finisherSet.settle := by
    unfold Part.finisherSet
    rw [(b.deliverCore_via x st).force_eq rfl, h.via.force_eq rfl]
  unfold Part.delivering
  rw [settle, h.role, if_neg fun k => other ⟨Option.some.inj k.1, k.2⟩]
  unfold Part.deliverCore
  rw [h.role]

/-- At a bin the pages are counted delivered, and the sheet (R88, R160). -/
theorem binned (h : leavesAs p v st d x b) (bin : d.role = .binEntry0 ∨ d.role = .binEntry1) :
    let q := (b.delivering x st).rounded.judge.conclude
    p.countedDelivered x.job x.pages q ∧ countedUp p.stats.pathSet.width p.stats.path q.stats.path 1 := by
  have given : b.deliverTo x (some d.role) = (b.deliverPages x.job x.pages).countPath 1 := by rcases bin with e | e <;> rw [e] <;> rfl
  rw [h.delivering_plain (fun k => by rcases bin with e | e <;> rw [e] at k <;> cases k.1), given]
  have pages := b.deliverPages_counts x.job x.pages
  have via := b.deliverPages_via x.job x.pages
  have stats : (b.deliverPages x.job x.pages).stats = p.stats := by rw [via.stats_eq rfl, h.via.stats_eq rfl]
  generalize b.deliverPages x.job x.pages = a at *
  have counts := a.countPath_via 1
  have raised := a.countPath_raised 1
  rw [stats] at raised
  generalize a.countPath 1 = e at *
  have removed := e.removeSheet_via x.number
  have round := (e.removeSheet x.number).rounded_via
  have rest : Via [.table, .stations, .dry, .notices, .feed, .out] e (e.removeSheet x.number).rounded := (removed.mono rfl).andThen round rfl
  generalize (e.removeSheet x.number).rounded = f at *
  refine ⟨?_, ?_⟩
  · have freed : a.frees f := Part.frees_of (congrArg Intake.slots ((rest.intake_eq rfl).trans (counts.intake_eq rfl)))
    exact (pages.frees (freed.trans f.ends_frees)).of (h.via.intake_eq rfl)
  · unfold countedUp at raised ⊢
    rw [f.ends_counts (by decide) (by decide) (by decide), rest.stats_eq rfl]
    exact raised

/-- At the purge bin the purge count rises outside dry run, and the sheet is counted (R102, R160). -/
theorem purged (h : leavesAs p v st d x b) (purge : d.role = .purgeEntry) :
    let q := (b.delivering x st).rounded.judge.conclude
    q.gate.purgeCount = (if p.dry.on = true then p.gate.purgeCount else p.gate.purgeCount + 1) ∧
    countedUp p.stats.pathSet.width p.stats.path q.stats.path 3 := by
  have tracks := h.tracks
  have on := h.on
  rw [h.delivering_plain (fun k => by rw [purge] at k; cases k.1), purge]
  have count : (b.deliverTo x (some .purgeEntry)).gate.purgeCount = if p.dry.on = true then p.gate.purgeCount else p.gate.purgeCount + 1 := by
    rw [Part.deliverTo_purgeCount, on, h.via.gate_eq rfl]
    cases p.dry.on <;> rfl
  have feed := (b.deliverTo_via x (some .purgeEntry)).feed_eq rfl
  have raised : countedUp p.stats.pathSet.width p.stats.path (b.deliverTo x (some .purgeEntry)).stats.path 3 := by
    have stats : ∀ a : Part, a.stats = p.stats → countedUp p.stats.pathSet.width p.stats.path (a.countPath 3).stats.path 3 :=
      fun a e => e ▸ a.countPath_raised 3
    show countedUp _ _ b.countPurge.stats.path 3
    unfold Part.countPurge
    refine stats _ ?_
    rw [← h.via.stats_eq rfl]
    split
    · rfl
    · exact (Part.judgePurgeFull_via _).stats_eq rfl
  generalize b.deliverTo x (some .purgeEntry) = e at *
  have removed := e.removeSheet_via x.number
  have round := (e.removeSheet x.number).rounded_via
  obtain ⟨path, -⟩ := Part.rounded_tracked (s := e.removeSheet x.number) (by rw [removed.feed_eq rfl, feed]; exact tracks)
  have rest : Via [.table, .stations, .dry, .notices, .feed, .out] e (e.removeSheet x.number).rounded := (removed.mono rfl).andThen round rfl
  generalize (e.removeSheet x.number).rounded = f at *
  refine ⟨?_, ?_⟩
  · rw [Part.ends_purge path, rest.gate_eq rfl, count]
  · unfold countedUp at raised ⊢
    rw [f.ends_counts (by decide) (by decide) (by decide), rest.stats_eq rfl]
    exact raised

theorem settle (h : leavesAs p v st d x b) : b.finisherSet = p.finisherSet := by
  unfold Part.finisherSet
  rw [h.via.force_eq rfl]

/-- At the finisher the sheet joins the Compile Set and settles (R148, R149). -/
theorem joins (h : leavesAs p v st d x b) (entry : d.role = .finisherEntry) (slow : 0 < p.finisherSet.settle) :
    let q := (b.delivering x st).rounded.judge.conclude
    q.feed.path ≠ .resumable →
    q.finisher.sheets = p.finisher.sheets ++ [⟨x.number, x.job, x.set, x.pages, x.staple, x.lastOfSet, laterOf p.tick v, true,
      plusTicks (laterOf p.tick v) p.finisherSet.settle⟩] ∧
    (p.finisher.state = .empty → q.finisher.ident = some (x.job, x.set)) := by
  have tracks := h.tracks
  have tick := h.tick
  have settle := h.settle
  rw [h.delivering_plain fun k => absurd k.2 slow.ne', entry]
  have feed := (b.deliverTo_via x (some .finisherEntry)).feed_eq rfl
  have finisher : (b.deliverTo x (some .finisherEntry)).finisher.sheets = p.finisher.sheets ++ [b.heldOf x] ∧
      (p.finisher.state = .empty → (b.deliverTo x (some .finisherEntry)).finisher.ident = some (x.job, x.set)) := by
    show (b.handOver x).finisher.sheets = _ ∧ (_ → (b.handOver x).finisher.ident = _)
    unfold Part.handOver
    rw [Part.modFinisher_finisher, h.via.finisher_eq rfl]
    dsimp only
    refine ⟨?_, fun empty => ?_⟩
    · split <;> rfl
    · rw [if_pos (by rw [empty]; rfl)]
  generalize b.deliverTo x (some .finisherEntry) = e at *
  have removed := e.removeSheet_via x.number
  have round := (e.removeSheet x.number).rounded_via
  obtain ⟨path, -⟩ := Part.rounded_tracked (s := e.removeSheet x.number) (by rw [removed.feed_eq rfl, feed]; exact tracks)
  have rest : Via [.table, .stations, .dry, .notices, .feed, .out] e (e.removeSheet x.number).rounded := (removed.mono rfl).andThen round rfl
  generalize (e.removeSheet x.number).rounded = f at *
  intro q still
  rw [← rest.finisher_eq rfl] at finisher
  obtain ⟨sheets, ident⟩ := Part.ends_held path (by rw [finisher.1]; exact List.append_ne_nil_of_right_ne_nil _ (List.cons_ne_nil _ _)) still
  refine ⟨?_, fun empty => ident.trans (finisher.2 empty)⟩
  rw [sheets, finisher.1]
  unfold Part.heldOf
  rw [tick, settle]

/-- With a settle time of 0 its compile completes at once (R149; entry 39). -/
theorem compiled (h : leavesAs p v st d x b) (entry : d.role = .finisherEntry) (quick : p.finisherSet.settle = 0) :
    countedUp p.stats.pathSet.width p.stats.path (b.delivering x st).rounded.judge.conclude.stats.path 2 := by
  have via := b.deliverCore_via x st
  have settle : (b.deliverCore x st).finisherSet.settle = 0 := by
    unfold Part.finisherSet
    rw [via.force_eq rfl, h.via.force_eq rfl]
    exact quick
  have core : (b.deliverCore x st).finisher = (b.handOver x).finisher := by
    unfold Part.deliverCore
    rw [h.role, entry, (Part.removeSheet_via ..).finisher_eq rfl]
    rfl
  have stats : (b.deliverCore x st).stats = p.stats := by
    unfold Part.deliverCore
    rw [h.role, entry, (Part.removeSheet_via ..).stats_eq rfl]
    exact ((Part.handOver_via b x).stats_eq rfl).trans (h.via.stats_eq rfl)
  have e : b.delivering x st = (b.deliverCore x st).completeCompile := by
    unfold Part.delivering
    rw [if_pos ⟨h.role.trans (congrArg some entry), settle⟩]
  have settling : ((b.deliverCore x st).finisher.sheets.find? Held.settling).isSome = true := by
    rw [core, List.find?_isSome]
    refine ⟨b.heldOf x, ?_, rfl⟩
    unfold Part.handOver
    rw [Part.modFinisher_finisher]
    exact List.mem_append_right _ List.mem_cons_self
  obtain ⟨k, hk⟩ := Option.isSome_iff_exists.mp settling
  rw [e, Part.completeCompile_eq hk]
  have raised : countedUp p.stats.pathSet.width p.stats.path ((b.deliverCore x st).compiles k).stats.path 2 := by
    have raised := Part.countPath_raised ((b.deliverCore x st).modFinisher fun f =>
      { f with sheets := settleFirst f.sheets, toStaple := f.toStaple || k.staple }) 2
    rw [Part.modFinisher_stats, stats] at raised
    exact raised
  generalize (b.deliverCore x st).compiles k = a at raised ⊢
  have rest : Via [.out, .finisher, .dry, .notices, .feed] a a.judgeClosure.judgeSplit.rounded :=
    (((a.judgeClosure_via).mono rfl).andThen (Part.judgeSplit_via _) rfl).andThen (Part.rounded_via _) rfl
  generalize a.judgeClosure.judgeSplit.rounded = f at rest ⊢
  unfold countedUp at raised ⊢
  rw [f.ends_counts (by decide) (by decide) (by decide), rest.stats_eq rfl]
  exact raised

end Part.departsOn.leavesAs

/-- Settles O34. -/
theorem sheetDelivered : Obligations.SheetDelivered := by
  unfold Obligations.SheetDelivered
  intro w p c t st d x k h first last
  obtain ⟨r, on, run⟩ := Part.departs.on (w := w) h
  refine completes_next run ?_
  obtain ⟨passes, lines⟩ := on.ends
  have tick := passes.1
  rw [on.last_eq first last] at passes lines tick ⊢
  have leaves := on.leaves
  generalize r.leaving x st = b at *
  obtain ⟨bare, removed, others⟩ := leaves.gone
  refine ⟨passes, lines, bare, removed, others, leaves.binned, fun entry slow still => ?_, leaves.compiled, leaves.purged⟩
  rw [tick]
  exact leaves.joins entry slow still

end Sys2Proof.Machine
end

