-- ==== Sys2Proof/Proofs/Schedules.lean ====
section
/-! PROOF. What an event makes of the schedule of synthesised edges (R168). -/

namespace Sys2Proof.Machine

variable {s t u p r q : Part} {st : Fin 24} {v : Tick} {x y : Sheet} {step : Step} {e : Expect} {o : Arrival} {d : StationDef}
  {n : NextPage} {g : Bool}

/-! ## Edges come for sheets alone, leading and later (R168) -/

/-- No edge without a sheet comes or goes, and none comes but, where `grow` says so, a leading one after the present tick. -/
structure Part.reschedules (grow : Bool) (s t : Part) : Prop where
  tick : t.tick = s.tick
  spurious : ∀ a : Edge, a.sheet = none → t.dry.schedule.count a = s.dry.schedule.count a
  bound : ∀ a : Edge, grow = false ∨ a.leading = false ∨ isBefore s.tick a.tick = false →
    t.dry.schedule.count a ≤ s.dry.schedule.count a

theorem Part.reschedules.trans (h : s.reschedules g t) (k : t.reschedules g u) : s.reschedules g u :=
  ⟨k.tick.trans h.tick, fun a ha => (k.spurious a ha).trans (h.spurious a ha),
    fun a ha => (k.bound a (by rwa [h.tick])).trans (h.bound a ha)⟩

theorem Part.reschedules_of (tick : t.tick = s.tick) (schedule : t.dry.schedule = s.dry.schedule) : s.reschedules g t :=
  ⟨tick, fun _ _ => by rw [schedule], fun _ _ => by rw [schedule]⟩

theorem Part.reschedules.refl (s : Part) : s.reschedules g s := Part.reschedules_of rfl rfl

theorem Part.reschedules.of_via {A : List Block} (h : Via A s t) (ht : hasBlock A .tick = false) (hd : hasBlock A .dry = false) :
    s.reschedules g t := Part.reschedules_of (h.tick_eq ht) (congrArg Dry.schedule (h.dry_eq hd))

/-- Edges of sheets withdrawn. -/
theorem Part.reschedules_filter {f : Nat → Bool} (tick : t.tick = s.tick)
    (schedule : t.dry.schedule = s.dry.schedule.filter fun a => !(a.sheet.any f)) : s.reschedules g t := by
  refine ⟨tick, fun a ha => ?_, fun a _ => ?_⟩
  · rw [schedule]
    exact List.count_filter (by rw [ha]; rfl)
  · rw [schedule]
    exact List.Sublist.count_le a List.filter_sublist

theorem Part.reschedules.fold {α : Type} {f : Part → α → Part} (l : List α) (s : Part) (hf : ∀ (p : Part) (x : α), p.reschedules g (f p x)) :
    s.reschedules g (l.foldl f s) := by
  induction l generalizing s with
  | nil => exact .refl s
  | cons x l ih => exact (hf s x).trans (ih _)

/-! ## The operations -/

theorem count_append_of_ne {l : List Edge} {a b : Edge} (h : b ≠ a) : (l ++ [b]).count a = l.count a := by
  rw [List.count_append, List.count_singleton, if_neg (by simpa using h), Nat.add_zero]

theorem Part.scheduleLeading_reschedules (hg : g = true ∨ s.dry.on = false) (x : Sheet) (st : Fin 24) (T : Nat) :
    s.reschedules g (s.scheduleLeading x st T) := by
  have added : g = true → ∀ (t : Part) (b : Edge), t.tick = s.tick → t.dry.schedule = s.dry.schedule ++ [b] → b.sheet = some x.number →
      b.leading = true → isBefore s.tick b.tick = true → s.reschedules g t := fun on t b tick schedule sheet leading later => by
    refine ⟨tick, fun a ha => ?_, fun a ha => Nat.le_of_eq ?_⟩
    · rw [schedule, count_append_of_ne]
      rintro rfl
      rw [sheet] at ha
      cases ha
    · rw [schedule, count_append_of_ne]
      rintro rfl
      rw [leading, later, on] at ha
      exact ha.elim nofun fun h => h.elim nofun nofun
  unfold Part.scheduleLeading
  dsimp only
  split
  · exact .refl s
  · next on =>
    have on : s.dry.on = true := by simpa using on
    split
    · exact Part.reschedules_of rfl rfl
    · exact added (hg.resolve_right (by rw [on]; exact nofun)) _ _ rfl rfl rfl rfl (Part.edgeTick_after ..)

theorem Part.armNext_reschedules (hg : g = true ∨ s.dry.on = false) (m : Nat) : s.reschedules g (s.armNext m) := by
  have kept : ∀ f : Sheet → Sheet, s.reschedules g (s.modSheet m f) := fun f => Part.reschedules_of rfl rfl
  unfold Part.armNext
  split
  · exact .refl s
  · next x hx =>
    dsimp only
    split
    · exact kept _
    · exact (kept _).trans (Part.scheduleLeading_reschedules (s := s.modSheet m _) hg ..)

theorem Part.removeSheet_reschedules (s : Part) (m : Nat) : s.reschedules g (s.removeSheet m) := by
  refine Part.reschedules_filter (f := fun k => k == m) rfl ?_
  refine List.filter_congr fun a _ => ?_
  cases a.sheet with
  | none => rfl
  | some k => rfl

theorem Part.strand_reschedules (s : Part) (f : Sheet → Bool) : s.reschedules g (s.strand f) := Part.reschedules_filter rfl rfl

theorem Part.opening_reschedules (s : Part) (ns : List Nat) (f : Sheet → Bool) (x : AreaSet) (b : Bool) :
    s.reschedules g ((((((s.makeRunOut ns).strand f).retain).addAreas x).addFinisherArea).halt b) := by
  have after : Via [.episode, .finisher, .notices, .feed, .out] ((s.makeRunOut ns).strand f)
      ((((((s.makeRunOut ns).strand f).retain).addAreas x).addFinisherArea).halt b) :=
    ((((Part.retain_via _).mono rfl).andThen (Part.addAreas_via ..) rfl).andThen (Part.addFinisherArea_via _) rfl).andThen (Part.halt_via ..) rfl
  exact ((Part.reschedules.of_via (s.makeRunOut_via ns) rfl rfl).trans (Part.strand_reschedules _ f)).trans (.of_via after rfl rfl)

theorem Part.openEpisode_reschedules (s : Part) (j : Jam) (extra : AreaSet) : s.reschedules g (s.openEpisode j extra) := by
  have core : s.reschedules g (s.openCore j extra) := by
    refine Part.reschedules.trans (t := (s.modEpisode fun e => { e with
        number := e.number + 1, isOpen := true, firstKind := some j.kind, records := [j], overflow := 0, areas := extra,
        sweepTimer := none, barred := false }).feedOnEpisode) ?_ (Part.opening_reschedules ..)
    exact Part.reschedules_of rfl rfl
  have noted : Via [.notices, .stats] (s.openCore j extra) (((s.openCore j extra).noteRecord 1 j).countPath 6) :=
    ((Part.noteRecord_via ..).mono rfl).andThen (Part.countPath_via ..) rfl
  exact core.trans (.of_via noted rfl rfl)

theorem Part.takeJam_reschedules (s : Part) (j : Jam) : s.reschedules g (s.takeJam j) := by
  unfold Part.takeJam
  split
  · unfold Part.holdOver
    split <;> exact Part.reschedules_of rfl rfl
  · exact .refl s
  · split
    · exact s.openEpisode_reschedules j 0
    · exact .refl s
  · exact s.openEpisode_reschedules j 0
  · exact s.openEpisode_reschedules j 0
  · exact s.openEpisode_reschedules j 0
  · exact ((Part.reschedules.of_via (s.addRecord_via j) rfl rfl).trans (Part.strand_reschedules ..)).trans
      (.of_via (Part.endHalting_via _) rfl rfl)
  · exact .of_via (s.addRecord_via j) rfl rfl
  · exact (Part.reschedules.of_via (s.addRecord_via j) rfl rfl).trans (.of_via (Part.abandonSweep_via ..) rfl rfl)

theorem Part.jamAt_reschedules (s : Part) (kind : JamKind) (st : Fin 24) (tick : Tick) (o : Option Sheet) :
    s.reschedules g (s.jamAt kind st tick o) := by
  rw [s.jamAt_eq]
  exact (Part.reschedules.of_via (s.countStation_via st 2) rfl rfl).trans (Part.takeJam_reschedules ..)

/-! ## The judgements -/

theorem Part.planSheet_reschedules (s : Part) (x : Sheet) : s.reschedules g (s.planSheet x) :=
  (Part.reschedules.of_via (Part.reprint_via ..) rfl rfl).trans (Part.removeSheet_reschedules ..)

theorem Part.planEnds_via (s : Part) : Via [.planner, .finisher, .calls, .feed, .notices] s
    ((s.planSet.planEmpty.modPlanner fun p => { p with revision := p.revision + 1, readThrough := false }).setPath .resumable).notePlanReady :=
  (((((s.planSet_via).mono rfl).andThen (Part.planEmpty_via _) rfl).planner _ rfl).andThen (Part.setPath_via ..) rfl).andThen
    (Part.notePlanReady_via _) rfl

theorem Part.planBuild_reschedules (s : Part) : s.reschedules g s.planBuild := by
  have base : s.reschedules g (s.stopDrives.modEpisode fun e => { e with sweepTimer := none }) :=
    (Part.reschedules.of_via s.stopDrives_via rfl rfl).trans (Part.reschedules_of rfl rfl)
  exact (base.trans (Part.reschedules.fold _ _ Part.planSheet_reschedules)).trans (.of_via (Part.planEnds_via _) rfl rfl)

theorem Part.judgeSet_reschedules (s : Part) : s.reschedules g s.judgeSet :=
  Part.reschedules_of (s.judgeSet_via.tick_eq rfl) s.judgeSet_standsDry.schedule

theorem Part.makePick_reschedules (hg : g = true ∨ s.dry.on = false) (n : NextPage) : s.reschedules g (s.makePick n) := by
  have e : s.makePick n = (((s.pickCore n).countTray n.unit 0).countPath 0).judgeSet := rfl
  have counts : Via [.notices, .stats] (s.pickCore n) (((s.pickCore n).countTray n.unit 0).countPath 0) :=
    ((Part.countTray_via ..).mono rfl).andThen (Part.countPath_via ..) rfl
  have core : Via [.notices, .calls, .feed, .out] ((s.joined n).armNext s.feed.nextSheet) (s.pickCore n) := by
    rw [s.pickCore_joined]
    exact ((((Part.reserve_via ..).mono rfl).out _ rfl).andThen (Part.callFront_via ..) rfl).andThen (Part.notePick_via ..) rfl
  rw [e]
  exact ((((Part.reschedules.of_via (s.joined_via n) rfl rfl).trans (Part.armNext_reschedules (by rwa [(s.joined_via n).dry_eq rfl]) _)).trans (.of_via core rfl rfl)).trans
    (.of_via counts rfl rfl)).trans (Part.judgeSet_reschedules _)

theorem Part.shifts.reschedules (h : s.shifts t) : s.reschedules g t := .of_via h.1 rfl rfl

theorem Part.feeds.reschedules (hg : g = true ∨ s.dry.on = false) (h : s.feeds t) : s.reschedules g t := by
  rcases h with h | ⟨v, n, h, -, k⟩
  · exact h.reschedules
  · exact (h.reschedules.trans (Part.makePick_reschedules (by rwa [h.1.dry_eq rfl]) n)).trans k.reschedules

theorem Part.judgeStart_reschedules (s : Part) : s.reschedules g s.judgeStart := by
  have selector : s.reschedules g s.judgeSelector := .of_via s.judgeSelector_via rfl rfl
  unfold Part.judgeStart
  dsimp only
  split
  · refine selector.trans ?_
    generalize s.judgeSelector = b
    have path : b.reschedules g b.enterPath := .of_via b.enterPath_via rfl rfl
    rw [Part.enterStarting_eq]
    split
    · exact path.trans (Part.reschedules_of rfl rfl)
    · exact path.trans (Part.reschedules.fold _ _ fun p x => p.jamAt_reschedules ..)
  · exact selector

/-- No edge is scheduled by the judgements: the Feed Scheduler picks nothing, or there is no dry run. -/
abbrev Part.unscheduled (s : Part) : Prop := s.dry.on = false ∨ s.feed.path ≠ .running ∧ s.feed.path ≠ .draining

theorem Part.judgeFeed_reschedules (hg : g = true ∨ s.unscheduled) : s.reschedules g s.judgeFeed := by
  by_cases idle : s.feed.path = .idle
  · rw [Part.judgeFeed_idle idle]
    exact s.judgeStart_reschedules
  · by_cases still : s.feed.path ≠ .running ∧ s.feed.path ≠ .draining
    · rw [Part.judgeFeed_still idle still.1 still.2]
      exact .refl s
    · exact (Part.judgeFeed_feeds idle).reschedules (hg.imp_right fun h => h.resolve_right still)

theorem Part.serves.unscheduled (h : s.serves t) (k : s.unscheduled) : t.unscheduled := by
  unfold Part.unscheduled
  rwa [h.via.dry_eq rfl, h.via.feed_eq rfl]

theorem Part.conclude_reschedules (hg : g = true ∨ s.unscheduled) : s.reschedules g s.conclude := by
  rcases s.conclude_turns with k | ⟨u, k, j⟩
  · exact .of_via k.via rfl rfl
  · exact ((Part.reschedules.of_via k.via rfl rfl).trans (Part.judgeFeed_reschedules (hg.imp_right k.unscheduled))).trans
      (.of_via j.via rfl rfl)

theorem Part.startSweep_reschedules (s : Part) : s.reschedules g s.startSweep := by
  have path : s.reschedules g (s.setPath .sweeping) := .of_via (s.setPath_via .sweeping) rfl rfl
  unfold Part.startSweep
  dsimp only
  split
  · exact path.trans (Part.planBuild_reschedules _)
  · exact (path.trans (Part.reschedules_of rfl rfl)).trans ((Part.reschedules.of_via (Part.runDrives_via _) rfl rfl).trans
      (Part.reschedules_of rfl rfl))

theorem Part.judge_dry_on (s : Part) : s.judge.dry.on = s.dry.on :=
  (Part.judge_moves (q := .tracking) s).dry_on rfl

theorem Part.judgeStart_still (s : Part) (h : s.feed.path = .idle) : s.judgeStart.feed.path ≠ .running ∧ s.judgeStart.feed.path ≠ .draining := by
  have path : s.judgeSelector.feed.path = .idle := by
    rw [s.judgeSelector_eq]
    exact h
  unfold Part.judgeStart
  dsimp only
  split
  · rcases s.judgeSelector.enterStarting_cases with ⟨-, e⟩ | ⟨-, st, -, opened⟩
    · have starting : s.judgeSelector.start.feed.path = .starting := by
        have entered := (congrArg Feed.path s.judgeSelector.enterPath_starts.1 :)
        exact entered
      rw [e, starting]
      exact ⟨nofun, nofun⟩
    · rcases opened.path with e | e <;> rw [e] <;> exact ⟨nofun, nofun⟩
  · rw [path]
    exact ⟨nofun, nofun⟩

theorem Part.judgeClearance_rests (s : Part) (h : s.feed.path = .held) : s.judgeClearance.feed.path.rests := by
  unfold Part.judgeClearance
  split
  · exact s.startSweep_sweeps.rests
  · exact PathState.rests_of_held h

theorem Part.judgeClearance_unscheduled (h : s.unscheduled) : s.judgeClearance.unscheduled := by
  by_cases held : s.feed.path = .held
  · exact .inr (s.judgeClearance_rests held).2
  · have still : s.judgeClearance = s := if_neg fun k => held ((Part.autoSweepReady_iff _).mp k).1
    rwa [still]

theorem Part.judgeSet_unscheduled (h : s.unscheduled) : s.judgeSet.unscheduled := by
  unfold Part.unscheduled
  rwa [s.judgeSet_on, s.judgeSet_via.feed_eq rfl]

theorem Part.judge_unscheduled (h : s.unscheduled) : s.judge.unscheduled := by
  rcases h with off | ⟨hr, hd⟩
  · exact .inl (s.judge_dry_on.trans off)
  · refine .inr ?_
    have set := s.judgeSet_via.feed_eq rfl
    by_cases held : s.feed.path = .held
    · rw [Part.judge_eq]
      have path := s.judgeSet.judgeClearance_rests (by rw [set, held])
      rw [Part.judgeFeed_rests path]
      exact path.2
    · rw [Part.judge_unheld held]
      by_cases idle : s.feed.path = .idle
      · have idle' : s.judgeSet.feed.path = .idle := by rw [set, idle]
        rw [Part.judgeFeed_idle idle']
        exact Part.judgeStart_still _ idle'
      · rw [Part.judgeFeed_still (by rwa [set]) (by rwa [set]) (by rwa [set]), set]
        exact ⟨hr, hd⟩

theorem Part.judge_reschedules (hg : g = true ∨ s.unscheduled) : s.reschedules g s.judge := by
  have clearance : s.judgeSet.reschedules g s.judgeSet.judgeClearance := by
    unfold Part.judgeClearance
    split
    · exact Part.startSweep_reschedules _
    · exact .refl _
  rw [Part.judge_eq]
  refine (s.judgeSet_reschedules.trans clearance).trans (Part.judgeFeed_reschedules (hg.imp_right fun h =>
    Part.judgeClearance_unscheduled (Part.judgeSet_unscheduled h)))

theorem Part.ends_reschedules (hg : g = true ∨ s.unscheduled) : s.reschedules g s.judge.conclude :=
  (Part.judge_reschedules hg).trans (Part.conclude_reschedules (hg.imp_right Part.judge_unscheduled))

/-! ## The edges tracked (R71) -/

theorem Part.roleAction_reschedules (s : Part) (x : Sheet) (st : Fin 24) : s.reschedules g (s.roleAction x st) := by
  have passed : s.reschedules g (s.passAction x) := .of_via (s.passAction_via x) rfl rfl
  rw [Part.roleAction_eq]
  refine passed.trans ?_
  generalize s.passAction x = b
  split
  · exact .of_via (Part.decideCommit_via ..) rfl rfl
  · split
    · exact (Part.reschedules.of_via (Part.reserve_via ..) rfl rfl).trans (.of_via (Part.callBack_via ..) rfl rfl)
    · exact .refl _
  · split
    · exact Part.jamAt_reschedules ..
    · exact .refl _
  · exact .refl _

theorem Part.takeArrival_reschedules (s : Part) (x : Sheet) (step : Step) (e : Expect) (o : Arrival) :
    s.reschedules true (s.takeArrival x step e o) := by
  rw [s.takeArrival_acts]
  have taught : s.reschedules true (s.taught x step e o) := .of_via (s.taught_via x step e o) rfl rfl
  generalize s.taught x step e o = b at taught ⊢
  have entered : b.reschedules true (b.enterArrival x step) :=
    (Part.reschedules.of_via (b.covered_via x step) rfl rfl).trans (Part.armNext_reschedules (.inl rfl) _)
  exact ((taught.trans entered).trans (Part.roleAction_reschedules ..)).trans (.of_via (Part.repredictAt_via ..) rfl rfl)

theorem Part.leadingEdge_reschedules (s : Part) (st : Fin 24) : s.reschedules true (s.leadingEdge st) := by
  have matched : s.reschedules true (s.matchLeading st) := by
    unfold Part.matchLeading
    split
    · exact Part.jamAt_reschedules ..
    · split
      · exact Part.jamAt_reschedules ..
      · split
        · split
          · exact Part.jamAt_reschedules ..
          · exact Part.takeArrival_reschedules ..
        · exact .refl s
  unfold Part.leadingEdge
  split
  case h_1 | h_2 => exact Part.jamAt_reschedules ..
  case h_3 | h_4 | h_5 => exact matched
  all_goals exact .refl s

theorem Part.judgeSplit_reschedules (s : Part) : s.reschedules g s.judgeSplit := by
  unfold Part.judgeSplit
  dsimp only
  split
  · split
    · exact Part.reschedules_of ((Part.enterEjecting_via ..).tick_eq rfl) (Part.enterEjecting_stands _ _).schedule
    · exact Part.reschedules_of rfl rfl
  · exact .refl s

theorem Part.completeCompile_reschedules (s : Part) : s.reschedules g s.completeCompile := by
  cases h : s.finisher.sheets.find? Held.settling with
  | none =>
    unfold Part.completeCompile
    rw [h]
    exact .refl s
  | some k =>
    have settled : s.reschedules g (s.modFinisher fun f => { f with sheets := settleFirst f.sheets, toStaple := f.toStaple || k.staple }) :=
      Part.reschedules_of rfl rfl
    have compiled : s.reschedules g (s.compiles k) := settled.trans (.of_via (Part.countPath_via ..) rfl rfl)
    rw [Part.completeCompile_eq h]
    exact (compiled.trans (.of_via (Part.judgeClosure_via _) rfl rfl)).trans (Part.judgeSplit_reschedules _)

theorem Part.deliver_reschedules (s : Part) (x : Sheet) (st : Fin 24) : s.reschedules g (s.deliver x st) := by
  have core : s.reschedules g (s.deliverCore x st) :=
    (Part.reschedules.of_via (s.deliverTo_via x (s.force.roleOf st)) rfl rfl).trans (Part.removeSheet_reschedules ..)
  have compiled : (s.deliverCore x st).reschedules g (s.deliverCore x st).completeCompile := Part.completeCompile_reschedules _
  have delivering : s.reschedules g (s.delivering x st) := by
    unfold Part.delivering
    split
    · exact core.trans compiled
    · exact core
  rw [Part.deliver_eq]
  exact delivering.trans (.of_via (Part.rounded_via _) rfl rfl)

theorem Part.trailingEdge_reschedules (s : Part) (st : Fin 24) : s.reschedules g (s.trailingEdge st) := by
  have taken : ∀ x k, s.reschedules g (s.takeTrailing x k st) := fun x k => by
    have left : s.reschedules g (s.uncover x st) := .of_via (s.uncover_via x st) rfl rfl
    have checked : s.reschedules g (if (x.itinerary.head?.map Step.station) = some st then (s.uncover x st).checkLength x st k.lead
        else s.uncover x st) := by
      split
      · refine left.trans ?_
        rw [Part.checkLength_eq]
        split
        · exact (Part.reschedules.of_via (Part.countPath_via ..) rfl rfl).trans (Part.jamAt_reschedules ..)
        · split
          · exact Part.jamAt_reschedules ..
          · exact .refl _
      · exact left
    have freed := checked.trans (.of_via (Part.freedAt_via _ x st) rfl rfl)
    rw [Part.takeTrailing_eq]
    split
    · exact freed.trans (Part.deliver_reschedules ..)
    · exact freed
  have matched : s.reschedules g (s.matchTrailing st) := by
    unfold Part.matchTrailing
    split
    · exact taken _ _
    · exact .refl s
  unfold Part.trailingEdge
  split
  case h_1 | h_2 | h_3 => exact matched
  all_goals exact .refl s

end Sys2Proof.Machine
end

