-- ==== Sys2Proof/Proofs/SynthesisedEdges.lean ====
section
/-! PROOF. A synthesised station edge, delivered or discarded (O37). -/

namespace Sys2Proof.Machine

variable {s t u p r q : Part} {st : Fin 24} {v : Tick} {x y : Sheet} {step : Step} {f : Expect} {o : Arrival} {d : StationDef}
  {c : Instr} {w : List Instr} {e : Edge}

/-! ## The edge leaves the schedule (R168) -/

theorem laterOf_notBefore (a b : Tick) : isBefore (laterOf a b) b = false := by
  unfold laterOf
  split
  · unfold isBefore since
    simp
  · next h =>
    refine Bool.eq_false_iff.mpr fun k => h ?_
    unfold isBefore at k
    unfold notAfter
    rw [decide_eq_true_eq] at k ⊢
    exact k.le

/-- The part an edge has left the schedule of. -/
def Part.dropped (p : Part) (e : Edge) : Part := (p.modDry fun d => { d with schedule := d.schedule.erase e }).advance e.tick

theorem Part.dropped_via (p : Part) (e : Edge) : Via [.dry, .tick] p (p.dropped e) :=
  ((Via.refl p).dry _ rfl).andThen (Part.advance_via _ _) rfl

theorem Part.dropped_dry (p : Part) (e : Edge) : (p.dropped e).dry = { p.dry with schedule := p.dry.schedule.erase e } := rfl

theorem Part.dropped_tick (p : Part) (e : Edge) : (p.dropped e).tick = laterOf p.tick e.tick := rfl

theorem exec_synthesised (h : p.dry.nextEdge e.station e.leading = some e) :
    exec (.synthesisedStationEdge e.station e.leading) ⟨w, p⟩ = .next ⟨w, (p.runEdge e).judge.conclude⟩ := by
  have run : p.synthesised e.station e.leading = (p.runEdge e).judge.conclude := by
    unfold Part.synthesised
    rw [h]
  exact congrArg (fun q => Host.Outcome.next (⟨w, q⟩ : State)) run

theorem PathState.takesEdges_iff (x : PathState) : x.takesEdges = true ↔ x = .starting ∨ x = .running ∨ x = .draining ∨ x = .halting := by
  cases x <;> decide

/-- It is delivered. -/
abbrev Part.wants (p : Part) : Prop :=
  p.dry.on = true ∧ (p.feed.path = .starting ∨ p.feed.path = .running ∨ p.feed.path = .draining ∨ p.feed.path = .halting)

theorem Part.runEdge_discarded (h : ¬ (p.wants ∧ (p.force.stations[e.station]).isSome = true)) : p.runEdge e = p.dropped e := by
  have e' : ¬ ((p.dropped e).dry.on && (p.dropped e).feed.path.takesEdges && ((p.dropped e).force.stations[e.station]).isSome) = true := by
    rw [Bool.and_eq_true, Bool.and_eq_true, PathState.takesEdges_iff]
    exact h
  exact if_neg e'

theorem Part.dropped_passes (p : Part) (e : Edge) : p.passesTo e.tick (p.dropped e).judge.conclude ∧
    (p.dropped e).judge.conclude.lines = p.lines := by
  have via := p.dropped_via e
  obtain ⟨passes, lines⟩ := Part.ends_passes (Via.refl (p.dropped e) (A := [])) ⟨rfl, rfl, rfl, rfl, rfl, rfl⟩ (p.dropped_tick e)
    (via.link_eq rfl) (via.stored_eq rfl) (via.force_eq rfl) (via.mask_eq rfl)
  exact ⟨passes, lines.trans (via.lines_eq rfl)⟩

/-- An edge that has left does not come again. -/
theorem Part.reschedules.gone {g : Bool} (h : (p.dropped e).reschedules g q) :
    q.dry.schedule.count e ≤ (p.dry.schedule.erase e).count e :=
  h.bound e (.inr (.inr (laterOf_notBefore ..)))

theorem Part.reschedules.thins (h : s.reschedules false t) {a : Edge} (ha : a ∈ t.dry.schedule) : a ∈ s.dry.schedule := by
  have count := h.bound a (.inl rfl)
  have here := List.count_pos_iff.mpr ha
  exact List.count_pos_iff.mp (by omega)

/-! ## Discarded -/

theorem Part.ends_schedule (h : s.feed.path.rests) (unheld : s.feed.path ≠ .held) : s.judge.conclude.dry.schedule = s.dry.schedule := by
  rcases Part.judge_rests h with ⟨-, serves⟩ | ⟨-, held, -⟩
  · rw [serves.via.dry_eq rfl, s.judgeSet_standsDry.schedule]
  · exact absurd held unheld

/-- At a station no longer in force (entry 46). -/
theorem Part.dropped_wanted (sound : p.tableSound) (h : p.wants) :
    let q := (p.dropped e).judge.conclude
    q.stations = p.stations ∧ q.episode = p.episode ∧ q.stats.station = p.stats.station ∧ (∀ y ∈ p.table.sheets, y ∈ q.table.sheets) ∧
    ∃ more, q.dry.schedule = p.dry.schedule.erase e ++ more ∧ ∀ a ∈ more, a.sheet = some p.feed.nextSheet := by
  have via := p.dropped_via e
  have dry := p.dropped_dry e
  generalize p.dropped e = s at via dry ⊢
  have feed := via.feed_eq rfl
  dsimp only
  rcases h.2 with starting | tracks
  · have rests : s.feed.path.rests := by
      rw [feed, starting]
      exact ⟨nofun, nofun, nofun⟩
    have unheld : s.feed.path ≠ .held := by
      rw [feed, starting]
      exact nofun
    have stays := Part.ends_untouched rests (.inl unheld)
    have counts := Part.rests_countsStand rests
    refine ⟨by rw [stays.stations, via.stations_eq rfl], by rw [stays.episode, via.episode_eq rfl],
      by rw [counts.station, via.stats_eq rfl], fun y hy => by rwa [stays.table, via.table_eq rfl], [], ?_, nofun⟩
    rw [Part.ends_schedule rests unheld, dry, List.append_nil]
  · have on := Part.ends_tracksOn (s := s) (by rw [feed]; rcases tracks with e | e | e <;> rw [e] <;> rfl)
    obtain ⟨l, sheets, -⟩ := on.sheets (by
      unfold Part.fresh
      rw [via.table_eq rfl, feed]
      exact sound.2.1)
    obtain ⟨more, schedule, new⟩ := on.schedules.schedule
    rw [feed] at new
    refine ⟨by rw [on.via.stations_eq rfl, via.stations_eq rfl], by rw [on.via.episode_eq rfl, via.episode_eq rfl],
      by rw [on.station, via.stats_eq rfl], fun y hy => ?_, more, by rw [schedule, dry], fun a ha => (new a ha).1⟩
    rw [sheets, via.table_eq rfl]
    exact List.mem_append_left _ hy

theorem Part.unscheduled_of (h : ¬ p.wants) : (p.dropped e).unscheduled := by
  by_cases on : p.dry.on = true
  · exact .inr ⟨fun k => h ⟨on, .inr (.inl k)⟩, fun k => h ⟨on, .inr (.inr (.inl k))⟩⟩
  · exact .inl (Bool.eq_false_iff.mpr on)

/-- Without a dry run no edge is scheduled. -/
theorem Part.ends_undried (h : s.feed.path.tracks = true) (off : s.dry.on = false) : s.judge.conclude.dry.schedule = s.dry.schedule := by
  obtain ⟨more, schedule, -⟩ := (Part.ends_tracksOn h).schedules.schedule
  have thins : s.reschedules false s.judge.conclude := Part.ends_reschedules (.inr (.inl off))
  cases more with
  | nil => rw [schedule, List.append_nil]
  | cons a more =>
    have count := thins.bound a (.inl rfl)
    rw [schedule, List.count_append, List.count_cons_self] at count
    omega

/-- Outside HELD, and in IDLE without a page, a discarded edge moves no sheet. -/
theorem Part.dropped_still (sound : p.tableSound) (h : ¬ p.wants) (unheld : p.feed.path ≠ .held) (none : p.feed.path = .idle → p.noPages) :
    let q := (p.dropped e).judge.conclude
    q.dry.schedule = p.dry.schedule.erase e ∧ q.stations = p.stations ∧ q.episode = p.episode ∧ ∀ y ∈ p.table.sheets, y ∈ q.table.sheets := by
  have via := p.dropped_via e
  have dry := p.dropped_dry e
  generalize p.dropped e = s at via dry ⊢
  have feed := via.feed_eq rfl
  have schedule : s.dry.schedule = p.dry.schedule.erase e := by rw [dry]
  have left : s.untouched s.judge.conclude → s.judge.conclude.dry.schedule = s.dry.schedule →
      s.judge.conclude.dry.schedule = p.dry.schedule.erase e ∧ s.judge.conclude.stations = p.stations ∧
      s.judge.conclude.episode = p.episode ∧ ∀ y ∈ p.table.sheets, y ∈ s.judge.conclude.table.sheets := fun k kept =>
    ⟨kept.trans schedule, by rw [k.stations, via.stations_eq rfl], by rw [k.episode, via.episode_eq rfl],
      fun y hy => by rwa [k.table, via.table_eq rfl]⟩
  by_cases idle : p.feed.path = .idle
  · have none' : s.noPages := by
      unfold Part.noPages
      rw [via.intake_eq rfl, via.planner_eq rfl]
      exact none idle
    have idle' : s.feed.path = .idle := by rw [feed, idle]
    refine left (Part.ends_untouched_idle idle' none') ?_
    rw [(Part.ends_idle idle' none').1.dry_eq rfl, s.judgeSet_standsDry.schedule]
  · by_cases tracks : p.feed.path = .running ∨ p.feed.path = .draining
    · have off : s.dry.on = false := by
        rw [dry]
        refine Bool.eq_false_iff.mpr fun on => h ⟨on, ?_⟩
        rcases tracks with e | e <;> simp [e]
      have tracks' : s.feed.path.tracks = true := by
        rw [feed]
        rcases tracks with e | e <;> rw [e] <;> rfl
      have on := Part.ends_tracksOn tracks'
      obtain ⟨l, sheets, -⟩ := on.sheets (by
        unfold Part.fresh
        rw [via.table_eq rfl, feed]
        exact sound.2.1)
      refine ⟨by rw [Part.ends_undried tracks' off, schedule], by rw [on.via.stations_eq rfl, via.stations_eq rfl],
        by rw [on.via.episode_eq rfl, via.episode_eq rfl], fun y hy => ?_⟩
      rw [sheets, via.table_eq rfl]
      exact List.mem_append_left _ hy
    · have rests : s.feed.path.rests := by
        rw [feed]
        exact ⟨idle, fun k => tracks (.inl k), fun k => tracks (.inr k)⟩
      have unheld' : s.feed.path ≠ .held := by rwa [feed]
      exact left (Part.ends_untouched rests (.inl unheld')) (Part.ends_schedule rests unheld')

/-- In HELD it has the clearance judged. -/
theorem Part.dropped_swept (sound : p.tableSound) (held : p.feed.path = .held) (isOpen : p.episode.isOpen = true) :
    sweptIfClear p p (p.dropped e).judge.conclude.tick (p.dropped e).judge.conclude := by
  have tick := (p.dropped_passes e).1.1
  have alike : Part.alike { p with dry := { p.dry with schedule := p.dry.schedule.erase e } } (p.dropped e) :=
    ⟨rfl, rfl, rfl, rfl, rfl, rfl, rfl, rfl⟩
  have swept := alike.swept held isOpen sound
  rw [tick, ← p.dropped_tick e]
  exact swept

/-! ## Delivered -/

theorem Part.entered_schedules (s : Part) (x : Sheet) (step : Step) (a : Expect) (o : Arrival) :
    s.dry.schedules x.number (s.entered x step a o).dry := by
  have taught := (s.taught_via x step a o).dry_eq rfl
  unfold Part.entered
  rw [(Part.passAction_via ..).dry_eq rfl, ← taught]
  generalize s.taught x step a o = b
  have covered := (b.covered_via x step).dry_eq rfl
  have armed := (b.covered x step).armNext_schedules x.number
  rw [covered] at armed
  exact armed

theorem Part.brought.schedule (h : p.brought v e.station d.line e.leading r) (on : p.dry.on = true)
    (next : p.dry.nextEdge e.station e.leading = some e) : r.dry.schedule = p.dry.schedule.erase e ++ e.follow := by
  rw [h.dry]
  unfold Dry.afterEdge
  rw [if_pos on, next]

/-- The trailing edge stays for the sheet that arrives. -/
theorem Part.arrivesOn.follows (h : p.arrivesOn v e.station d x step f r) (on : p.dry.on = true) (leading : e.leading = true)
    (next : p.dry.nextEdge e.station true = some e) (sheet : e.sheet.isSome = true) (o : Arrival) :
    ({ e with leading := false, tick := plusTicks e.tick (e.dwell + e.stretch), stretch := 0 } : Edge) ∈
      (r.takeArrival x step f o).judge.conclude.dry.schedule := by
  have schedule := Part.brought.schedule (by rw [leading]; exact h.brought) on (by rw [leading]; exact next)
  obtain ⟨more, entered, -⟩ := (r.entered_schedules x step f o).schedule
  obtain ⟨more', ended, -⟩ := (h.tracksOn o).schedules.schedule
  rw [ended, (h.acts o).via.dry_eq rfl, entered, schedule]
  refine List.mem_append_left _ (List.mem_append_left _ (List.mem_append_right _ ?_))
  unfold Edge.follow trailingOf
  rw [if_pos leading, if_neg (by rw [Option.isNone_iff_eq_none]; exact Option.isSome_iff_ne_none.mp sheet)]
  exact List.mem_cons_self

theorem Edge.follow_leading (leading : e.leading = true) : ∀ a ∈ e.follow, a.leading = false ∧ e.sheet.isSome = true := by
  unfold Edge.follow trailingOf
  rw [if_pos leading]
  split
  · exact fun a ha => absurd ha List.not_mem_nil
  · next h =>
    intro a ha
    rw [List.mem_singleton.mp ha]
    exact ⟨rfl, Option.isSome_iff_ne_none.mpr fun none => h (Option.isNone_iff_eq_none.mpr none)⟩

theorem count_replicate_pair {α : Type} [BEq α] [LawfulBEq α] (n : Nat) (a b c : α) :
    (List.replicate n [a, b]).flatten.count c = n * [a, b].count c := by
  rw [List.count_flatten, List.map_replicate, List.sum_replicate, smul_eq_mul]

/-- A spurious edge of each direction for each EXTRA fault (R171). -/
theorem count_extrasOf (e : Edge) (lead : Bool) : (extrasOf e).count
    { e with leading := lead, tick := plusTicks e.tick (if lead then 1000 else 1000 + e.dwell), sheet := none, extras := 0 } = e.extras := by
  unfold extrasOf
  rw [count_replicate_pair]
  cases lead <;> simp

theorem count_extrasOf_self (e : Edge) : (extrasOf e).count e = 0 := by
  unfold extrasOf
  rw [count_replicate_pair]
  by_cases none : e.extras = 0
  · rw [none, Nat.zero_mul]
  · rw [List.count_eq_zero.mpr, Nat.mul_zero]
    intro mem
    refine none ?_
    rcases List.mem_pair.mp mem with h | h <;> rw [h]

theorem Edge.count_follow_self (e : Edge) : e.follow.count e = 0 := by
  cases leading : e.leading with
  | true =>
    refine List.count_eq_zero.mpr fun mem => ?_
    have trailing := (e.follow_leading leading e mem).1
    rw [leading] at trailing
    cases trailing
  | false =>
    unfold Edge.follow
    rw [if_neg (by rw [leading]; exact Bool.false_ne_true)]
    exact count_extrasOf_self e

theorem Part.trackEdge_reschedules (s : Part) (leading : Bool) (st : Fin 24) : s.reschedules true (s.trackEdge leading st) := by
  cases leading with
  | true => exact s.leadingEdge_reschedules st
  | false => exact s.trailingEdge_reschedules st

/-- Part `q` stands where the edge `e` was delivered to its station. -/
structure Part.deliversEdge (p : Part) (e : Edge) (q : Part) : Prop where
  passes : p.passesTo e.tick q
  lines : q.lines = p.lines
  spurious : ∀ a : Edge, a.sheet = none → q.dry.schedule.count a = (p.dry.schedule.erase e).count a + e.follow.count a
  bound : ∀ a : Edge, a.leading = false ∨ a = e → q.dry.schedule.count a ≤ (p.dry.schedule.erase e).count a + e.follow.count a

theorem exec_delivered (h : p.wants) (here : p.force.stations[e.station] = some d)
    (next : p.dry.nextEdge e.station e.leading = some e) :
    ∃ q, exec (.synthesisedStationEdge e.station e.leading) ⟨w, p⟩ = .next ⟨w, q⟩ ∧ p.deliversEdge e q := by
  obtain ⟨on, takes⟩ := h
  obtain ⟨r, brought, run⟩ := exec_brings (c := .synthesisedStationEdge e.station e.leading) (w := w) (v := e.tick)
    (by
      rw [Part.brings, if_pos on, next]
      exact ⟨rfl, rfl⟩) here fun _ => (PathState.takesEdges_iff _).mpr takes
  obtain ⟨passes, lines⟩ := brought.passes
  have schedule := brought.schedule on next
  have rescheduled : r.reschedules true (r.trackEdge e.leading e.station).judge.conclude :=
    (r.trackEdge_reschedules e.leading e.station).trans (Part.ends_reschedules (.inl rfl))
  refine ⟨_, run, passes, by rw [lines, Part.linesAfter, if_pos on], ?_, ?_⟩
  · intro a ha
    rw [rescheduled.spurious a ha, schedule, List.count_append]
  · intro a ha
    have bound := rescheduled.bound a (.inr (ha.imp_right fun same => by
      rw [same, brought.tick]
      exact laterOf_notBefore ..))
    rwa [schedule, List.count_append] at bound

namespace Part.deliversEdge

theorem gone (h : p.deliversEdge e q) : q.dry.schedule.count e ≤ (p.dry.schedule.erase e).count e := by
  have bound := h.bound e (.inr rfl)
  rwa [e.count_follow_self, Nat.add_zero] at bound

/-- An EXTRA edge schedules no trailing edge. -/
theorem unfollowed (h : p.deliversEdge e q) (leading : e.leading = true) (extra : e.sheet = none) {a : Edge} (ha : a ∈ q.dry.schedule)
    (trailing : a.leading = false) : a ∈ p.dry.schedule := by
  have bound := h.bound a (.inl trailing)
  have here := List.count_pos_iff.mpr ha
  have follow : e.follow.count a = 0 := by
    refine List.count_eq_zero.mpr fun mem => ?_
    have some := (e.follow_leading leading a mem).2
    rw [extra] at some
    cases some
  rw [follow, Nat.add_zero] at bound
  exact List.mem_of_mem_erase (List.count_pos_iff.mp (here.trans_le bound))

theorem paired (h : p.deliversEdge e q) (trailing : e.leading = false) (lead : Bool) :
    let extra := { e with leading := lead, tick := plusTicks e.tick (if lead then 1000 else 1000 + e.dwell), sheet := none, extras := 0 }
    q.dry.schedule.count extra = (p.dry.schedule.erase e).count extra + e.extras := by
  intro extra
  rw [h.spurious extra rfl, ← count_extrasOf e lead]
  unfold Edge.follow
  rw [if_neg (by rw [trailing]; exact Bool.false_ne_true)]

end Part.deliversEdge

/-- Settles O37. -/
theorem synthesisedEdge : Obligations.SynthesisedEdge := by
  unfold Obligations.SynthesisedEdge
  intro w p e sound next
  dsimp only
  refine ⟨fun wants none => ?_, fun unwanted => ?_, fun ⟨wants, here⟩ leading => ?_, fun ⟨wants, here⟩ trailing => ?_⟩
  · have run := exec_synthesised (w := w) next
    rw [Part.runEdge_discarded fun k => by rw [none] at k; exact Bool.false_ne_true k.2] at run
    refine completes_next run ?_
    obtain ⟨passes, lines⟩ := p.dropped_passes e
    have gone := (Part.ends_reschedules (s := p.dropped e) (g := true) (.inl rfl)).gone
    obtain ⟨stations, episode, stats, sheets, more⟩ := Part.dropped_wanted (e := e) sound wants
    exact ⟨passes, lines, stations, episode, stats, sheets, gone, more⟩
  · have run := exec_synthesised (w := w) next
    rw [Part.runEdge_discarded fun k => unwanted k.1] at run
    refine completes_next run ?_
    obtain ⟨passes, lines⟩ := p.dropped_passes e
    have rescheduled := Part.ends_reschedules (g := false) (.inr (Part.unscheduled_of (e := e) unwanted))
    exact ⟨passes, lines, rescheduled.gone, fun a => rescheduled.thins, Part.dropped_swept sound, Part.dropped_still sound unwanted⟩
  · obtain ⟨d, hd⟩ := Option.isSome_iff_exists.mp here
    obtain ⟨q, run, delivered⟩ := exec_delivered (w := w) wants hd next
    refine completes_next run ⟨delivered.passes, delivered.lines, delivered.gone, fun extra a => delivered.unfollowed leading extra,
      fun d x step f sheet arrives => ?_⟩
    obtain ⟨r, on, run'⟩ := Part.arrives.on (w := w) arrives
    rw [run] at run'
    injection run' with same
    injection same with _ same
    rw [same]
    exact on.follows wants.1 leading (by rw [leading] at next; exact next) sheet _
  · obtain ⟨d, hd⟩ := Option.isSome_iff_exists.mp here
    obtain ⟨q, run, delivered⟩ := exec_delivered (w := w) wants hd next
    exact completes_next run ⟨delivered.passes, delivered.lines, delivered.gone, delivered.paired trailing⟩

end Sys2Proof.Machine
end

