-- ==== Sys2Proof/Proofs/Draws.lean ====
section
/-! PROOF. What the judgements at the end of a request take from the queues, the Reprint List and the table: at most the two
records and the one sheet of a pick (R61). -/

namespace Sys2Proof.Machine

variable {s t u : Part}

/-- A list gave up at most two records at its head, and only where picks are made. -/
def drawn {α : Type} (p : PathState) (l m : List α) : Prop := ∃ k, k ≤ 2 ∧ (k ≠ 0 → p = .running ∨ p = .draining) ∧ m = l.drop k

theorem drawn.refl {α : Type} (p : PathState) (l : List α) : drawn p l l := ⟨0, Nat.zero_le 2, fun h => absurd rfl h, rfl⟩

theorem drawn_of_eq {α : Type} {l m : List α} (p : PathState) (h : m = l) : drawn p l m := h ▸ .refl p m

/-- What a sheet shows of its pages. -/
def Sheet.face (x : Sheet) : Nat × Option Page × Option Page := (x.number, x.front, x.back)

def Part.faces (s : Part) : List (Nat × Option Page × Option Page) := s.table.sheets.map Sheet.face

theorem Part.faces_of_table (h : t.table = s.table) : t.faces = s.faces := congrArg (fun x => x.sheets.map Sheet.face) h

theorem Part.faces_of_map (g : Sheet → Sheet) (h : t.table.sheets = s.table.sheets.map g) (hg : ∀ x, (g x).face = x.face) :
    t.faces = s.faces := by
  unfold Part.faces
  rw [h, List.map_map]
  exact List.map_congr_left fun x _ => hg x

theorem Sheet.strandIf_face (p : Sheet → Bool) (x : Sheet) : (Sheet.strandIf p x).face = x.face := by
  unfold Sheet.strandIf
  split <;> rfl

theorem Sheet.runOutIf_face (ns : List Nat) (x : Sheet) : (Sheet.runOutIf ns x).face = x.face := by
  unfold Sheet.runOutIf
  split <;> rfl

/-! ## A jam strands sheets and takes no page from them (R113) -/

theorem Part.openEpisode_faces (s : Part) (j : Jam) (extra : AreaSet) : (s.openEpisode j extra).faces = s.faces := by
  obtain ⟨ns, -, e⟩ := s.openCore_sheets j extra
  have e := (congrArg Table.sheets (s.openEpisode_table j extra)).trans e
  rw [List.map_map] at e
  exact Part.faces_of_map _ e fun x => (Sheet.strandIf_face ..).trans (Sheet.runOutIf_face ..)

theorem Part.extendHalting_faces (s : Part) (j : Jam) : (s.extendHalting j).faces = s.faces :=
  Part.faces_of_map _ (s.extendHalting_sheets j) fun x => Sheet.strandIf_face _ x

theorem Part.takeJam_faces (s : Part) (j : Jam) : (s.takeJam j).faces = s.faces := by
  unfold Part.takeJam
  split
  · exact Part.faces_of_table ((Part.holdOver_via s j).table_eq rfl)
  · rfl
  · split
    · exact s.openEpisode_faces j 0
    · rfl
  · exact s.openEpisode_faces j 0
  · exact s.openEpisode_faces j 0
  · exact s.openEpisode_faces j 0
  · exact s.extendHalting_faces j
  · exact Part.faces_of_table ((s.addRecord_via j).table_eq rfl)
  · exact Part.faces_of_table (((Part.abandonSweep_via ..).table_eq rfl).trans ((s.addRecord_via j).table_eq rfl))

theorem Part.jamAt_faces (s : Part) (kind : JamKind) (st : Fin 24) (v : Tick) (x : Option Sheet) : (s.jamAt kind st v x).faces = s.faces := by
  unfold Part.jamAt
  exact (Part.takeJam_faces ..).trans (Part.faces_of_table ((s.countStation_via st 2).table_eq rfl))

theorem Part.judgeStart_faces (s : Part) : s.judgeStart.faces = s.faces := by
  have selector : s.judgeSelector.faces = s.faces := Part.faces_of_table (s.judgeSelector_via.table_eq rfl)
  unfold Part.judgeStart
  dsimp only
  split
  · rw [← selector, Part.enterStarting_eq]
    generalize s.judgeSelector = a
    have entered : a.enterPath.faces = a.faces := Part.faces_of_table (a.enterPath_via.table_eq rfl)
    split
    · exact Part.faces_of_table (a.start_starts.2.2.table_eq rfl)
    · next st rest _ =>
      rw [← entered]
      exact List.foldlRecOn (motive := fun b : Part => b.faces = a.enterPath.faces) (st :: rest) _ rfl fun b h st' _ =>
        (b.jamAt_faces ..).trans h
  · exact selector

/-! ## A pick (R61) -/

theorem Part.armNext_faces (s : Part) (n : Nat) : (s.armNext n).faces = s.faces := by
  cases h : s.sheet? n with
  | none =>
    unfold Part.armNext
    rw [h]
  | some x =>
    refine Part.faces_of_map _ (Part.armNext_table h) fun y => ?_
    split <;> rfl

theorem Part.pickCore_faces (s : Part) (n : NextPage) : (s.pickCore n).faces = s.faces ++ [(s.newSheet n).face] := by
  have joined : ((s.takeNext n).joinTable (s.newSheet n)).faces = s.faces ++ [(s.newSheet n).face] := by
    unfold Part.joinTable Part.faces
    rw [← (s.takeNext_via n).table_eq rfl]
    exact List.map_append
  have table : (s.pickCore n).table = (((s.takeNext n).joinTable (s.newSheet n)).armNext (s.newSheet n).number).table := by
    unfold Part.pickCore
    dsimp only
    rw [(Part.notePick_via ..).table_eq rfl, (Part.callFront_via ..).table_eq rfl, Part.modOut_table, (Part.reserve_via ..).table_eq rfl]
  rw [Part.faces_of_table table, Part.armNext_faces, joined]

theorem Part.makePick_drawn (s : Part) (n : NextPage) (c : Queue) : (s.makePick n).intake.queue c =
    (s.intake.queue c).drop (if n.source = some c then n.pages.length else 0) := by
  obtain ⟨-, normal, priority⟩ := s.takeNext_intake n
  rw [Part.makePick_intake, Part.pickCore_intake]
  unfold Intake.queue
  cases c with
  | normal =>
    dsimp only
    rw [normal]
    split <;> rfl
  | priority =>
    dsimp only
    rw [priority]
    split <;> rfl

theorem Part.makePick_list (s : Part) (n : NextPage) : (s.makePick n).planner.list =
    s.planner.list.drop (if n.source.isSome then 0 else n.pages.length) := by
  rw [Part.makePick_planner, Part.pickCore_list]
  split <;> rfl

/-! ## The judgements (R30, R33, R40) -/

/-- The queues gave up a pick's records at most. -/
structure Part.draws (s t : Part) : Prop where
  queue : ∀ c, drawn s.feed.path (s.intake.queue c) (t.intake.queue c)
  slots : t.intake.slots = s.intake.slots

/-- So did the Reprint List, and the table gained the pick's sheet at most. -/
structure Part.drawsList (s t : Part) : Prop where
  list : drawn s.feed.path s.planner.list t.planner.list
  faces : ∃ l, l.length ≤ 1 ∧ t.faces = s.faces ++ l

theorem Part.draws_of_intake (h : t.intake = s.intake) : s.draws t := ⟨fun c => drawn_of_eq _ (by rw [h]), by rw [h]⟩

theorem Part.drawsList_of (h : t.planner = s.planner) (hf : t.faces = s.faces) : s.drawsList t :=
  ⟨drawn_of_eq _ (by rw [h]), [], Nat.zero_le 1, by rw [hf, List.append_nil]⟩

theorem Part.feeds.draws (h : s.feeds t) (moves : s.feed.path = .running ∨ s.feed.path = .draining) : s.draws t ∧ s.drawsList t := by
  rcases h with h | ⟨u, n, h, -, k⟩
  · exact ⟨Part.draws_of_intake (h.1.intake_eq rfl), Part.drawsList_of (h.1.planner_eq rfl) (Part.faces_of_table (h.1.table_eq rfl))⟩
  · have few : n.pages.length ≤ 2 := by
      rw [n.pages_length]
      cases n.back <;> simp
    refine ⟨⟨fun c => ⟨if n.source = some c then n.pages.length else 0, ?_, fun _ => moves, ?_⟩, ?_⟩,
      ⟨if n.source.isSome then 0 else n.pages.length, ?_, fun _ => moves, ?_⟩, [(u.newSheet n).face], Nat.le_refl 1, ?_⟩
    · split <;> omega
    · rw [k.1.intake_eq rfl, Part.makePick_drawn, h.1.intake_eq rfl]
    · rw [k.1.intake_eq rfl, Part.makePick_slots, h.1.intake_eq rfl]
    · split <;> omega
    · rw [k.1.planner_eq rfl, Part.makePick_list, h.1.planner_eq rfl]
    · rw [Part.faces_of_table (k.1.table_eq rfl), Part.faces_of_table (u.makePick_table n), u.pickCore_faces n,
        Part.faces_of_table (h.1.table_eq rfl)]

theorem Part.judgeFeed_draws (s : Part) : s.draws s.judgeFeed ∧ s.drawsList s.judgeFeed := by
  by_cases idle : s.feed.path = .idle
  · rw [Part.judgeFeed_idle idle]
    exact ⟨Part.draws_of_intake (s.judgeStart_via.intake_eq rfl), Part.drawsList_of (s.judgeStart_via.planner_eq rfl) s.judgeStart_faces⟩
  · by_cases moves : s.feed.path = .running ∨ s.feed.path = .draining
    · exact (Part.judgeFeed_feeds idle).draws moves
    · rw [Part.judgeFeed_still idle (fun h => moves (.inl h)) fun h => moves (.inr h)]
      exact ⟨Part.draws_of_intake rfl, Part.drawsList_of rfl rfl⟩

theorem Part.draws.carried (h : t.draws u) (path : t.feed.path = s.feed.path) (intake : t.intake = s.intake) : s.draws u := by
  obtain ⟨queue, slots⟩ := h
  rw [path, intake] at queue
  exact ⟨queue, by rw [slots, intake]⟩

theorem Part.drawsList.carried (h : t.drawsList u) (path : t.feed.path = s.feed.path) (planner : t.planner = s.planner)
    (table : t.table = s.table) : s.drawsList u := by
  obtain ⟨list, faces⟩ := h
  rw [path, planner] at list
  exact ⟨list, Part.faces_of_table table ▸ faces⟩

theorem Part.judge_draws (s : Part) : s.draws s.judge := by
  have set := s.judgeSet_via
  have feed := set.feed_eq rfl
  by_cases held : s.feed.path = .held
  · have rests : s.feed.path.rests := PathState.rests_of_held held
    rw [Part.judge_eq]
    have clearance : s.judgeSet.judgeClearance.intake = s.intake := by
      rw [← s.judgeSet_intake]
      unfold Part.judgeClearance
      split
      · exact s.judgeSet.startSweep_sweeps.via.intake_eq rfl
      · rfl
    have still : s.judgeSet.judgeClearance.judgeFeed = s.judgeSet.judgeClearance := by
      refine Part.judgeFeed_rests ?_
      unfold Part.judgeClearance
      split
      · exact s.judgeSet.startSweep_sweeps.rests
      · rwa [feed]
    exact Part.draws_of_intake (by rw [still, clearance])
  · rw [Part.judge_unheld held]
    exact s.judgeSet.judgeFeed_draws.1.carried (by rw [feed]) s.judgeSet_intake

/-- No plan is built. -/
theorem Part.judge_drawsList (h : s.feed.path ≠ .held ∨ s.dry.on = false) : s.drawsList s.judge := by
  have set := s.judgeSet_via
  have feed := set.feed_eq rfl
  by_cases held : s.feed.path = .held
  · have wet : s.judgeSet.dry.on = false := by
      rw [s.judgeSet_on]
      exact h.resolve_left fun k => k held
    rw [Part.judge_eq]
    unfold Part.judgeClearance
    split
    · have sweeps := s.judgeSet.startSweep_sweeps
      have course := sweeps.course
      rw [if_neg (by rw [wet]; exact Bool.false_ne_true)] at course
      obtain ⟨-, table, planner, -⟩ := course
      rw [Part.judgeFeed_rests sweeps.rests]
      exact Part.drawsList_of (planner.trans (set.planner_eq rfl)) (Part.faces_of_table (table.trans (set.table_eq rfl)))
    · rw [Part.judgeFeed_rests (by rw [feed]; exact PathState.rests_of_held held)]
      exact Part.drawsList_of (set.planner_eq rfl) (Part.faces_of_table (set.table_eq rfl))
  · rw [Part.judge_unheld held]
    exact s.judgeSet.judgeFeed_draws.2.carried (by rw [feed]) (set.planner_eq rfl) (set.table_eq rfl)

end Sys2Proof.Machine
end

