-- ==== Sys2Proof/Proofs/PagesJudged.lean ====
section
/-! PROOF. PAGE (O9) and IMAGE READY (O10). -/

namespace Sys2Proof.Machine

variable {s t u p q : Part} {x : Page} {b : List Byte}

/-! ## The body of a PAGE (R25) -/

theorem one_toNat (v : Byte) : one v.toNat = [v] := congrArg (fun x => [x]) (BitVec.ofNat_toNat ..)

theorem readPage_of (h : PageBody x b) : readPage b = some x ∧ b.length = 14 := by
  obtain ⟨flags, rfl, id, job, set, tray, media, cls, dest, noBack, first, last, staple, lastOfJob, priority, ready, origin⟩ := h
  have side : x.side.ctorIdx < 256 := by cases x.side <;> decide
  refine ⟨?_, rfl⟩
  have byte : (four x.id ++ one x.job ++ two x.set ++ one x.side.ctorIdx ++ [flags] ++ one x.tray ++ two x.media ++ one x.cls ++
    one x.dest).getD 8 0 = flags := rfl
  rw [← one_toNat] at byte ⊢
  simp only [readPage, ↓bind_iff, sideAt_iff, Option.some.injEq]
  refine ⟨x.side, ?_, ?_⟩
  · simp (disch := omega) only [List.append_assoc, numAt_one_append, numAt_one_add, numAt_two_add, numAt_four_add]
  · rw [byte]
    simp (disch := omega) only [List.append_assoc, numAt_one, numAt_one_append, numAt_two_append, numAt_four_append, numAt_one_add,
      numAt_two_add, numAt_four_add]
    rw [← first, ← last, ← lastOfJob, ← priority, ← ready, ← origin]
    have flat : (x.dest == 2) = decide (x.dest = 2) := rfl
    rw [← noBack, ← staple]

theorem readPage_none (h : 4 ≤ (b.getD 7 0).toNat) : readPage b = none := by
  have side : sideAt (numAt b 7 1) = none := by
    refine List.getElem?_eq_none ?_
    have byte : numAt b 7 1 = (b.getD 7 0).toNat := by
      unfold numAt
      rw [List.getD_eq_getElem?_getD, ← List.head?_drop]
      cases b.drop 7 with
      | nil => rfl
      | cons v l => simp [beNat]
    exact byte ▸ h
  unfold readPage
  rw [side]
  rfl

/-! ## The checks of R26 -/

theorem Page.consistent_iff (x : Page) : x.consistent = true ↔ x.inOrder := by
  unfold Page.consistent Page.inOrder
  simp only [Bool.and_eq_true, Bool.or_eq_true, Bool.not_eq_true', ← Bool.not_eq_true, beq_iff_eq, decide_eq_true_eq, and_assoc]

theorem Intake.hasRoom_iff (i : Intake) (c : Queue) : (!i.hasRoom c) = true ↔ (match c with | .normal => 64 | .priority => 16) ≤ (i.queue c).length := by
  cases c <;> rw [Bool.not_eq_true', Intake.hasRoom, decide_eq_false_iff_not, Nat.not_lt] <;> rfl

theorem Intake.pageCode_eq (i : Intake) (x : Page) : i.pageCode x = (i.refuses x).map Result.byte := by
  unfold Intake.pageCode Intake.refuses
  simp only [apply_ite (Option.map Result.byte), Option.map_some, Option.map_none]
  refine if_congr ?_ rfl (if_congr ?_ rfl (if_congr (i.hasRoom_iff _).symm rfl (if_congr Iff.rfl rfl (if_congr Iff.rfl rfl ?_))))
  · rw [Bool.or_eq_true, Bool.not_eq_true', ← Bool.not_eq_true, x.consistent_iff]
    rfl
  · rw [Bool.and_eq_true, Option.isNone_iff_eq_none, Option.isNone_iff_eq_none]
  · have unpaired : i.unpaired x = unpairedFront (i.queue (i.queueFor x)) := rfl
    rw [unpaired]
    cases unpairedFront (i.queue (i.queueFor x)) <;> rfl

/-! ## The page accepted (R30) -/

theorem Intake.slotOf_append (i : Intake) (c : Queue) (x : Page) (job : Nat) : (i.append c x).slotOf job = i.slotOf job := by
  unfold Intake.slotOf
  rw [Intake.append_slots]

theorem Intake.slotOf_some {i : Intake} {job : Nat} {k : Fin 8} (h : i.slotOf job = some k) : ∃ y, i.slots[k] = some y ∧ y.job = job := by
  have found := List.find?_some h
  obtain ⟨y, hy, job⟩ := (Option.any_eq_true _ _).mp found
  exact ⟨y, hy, beq_iff_eq.mp job⟩

/-- A job without a slot has the lowest-numbered free one then. -/
theorem Intake.slotOf_takeSlot {i : Intake} {x : Page} {k : Fin 8} (new : i.slotOf x.job = none) (free : i.freeSlot = some k) :
    (i.takeSlot x).slots = i.slots.set k (some ⟨x.job, i.queueFor x, 0, 0, 0, none, false⟩) ∧ (i.takeSlot x).slotOf x.job = some k := by
  have taken : (i.takeSlot x).slots = i.slots.set k (some ⟨x.job, i.queueFor x, 0, 0, 0, none, false⟩) := by
    unfold Intake.takeSlot
    rw [new, free]
    rfl
  have own : ((i.takeSlot x).slots[k]).any (fun y => y.job == x.job) = true := by
    rw [taken, Fin.getElem_fin, Vector.getElem_set_self]
    exact beq_self_eq_true x.job
  have others : ∀ m : Fin 8, m ≠ k → ((i.takeSlot x).slots[m]).any (fun y => y.job == x.job) = false := fun m hm => by
    have same : (i.takeSlot x).slots[m] = i.slots[m] := by
      rw [taken, Fin.getElem_fin, Vector.getElem_set_ne _ _ (fun e => hm (Fin.ext e.symm))]
      rfl
    rw [same]
    exact Bool.eq_false_iff.mpr (List.find?_eq_none.mp new m (List.mem_finRange m))
  refine ⟨taken, ?_⟩
  have found : ((i.takeSlot x).slotOf x.job).isSome = true := List.find?_isSome.mpr ⟨k, List.mem_finRange k, own⟩
  obtain ⟨m, hm⟩ := Option.isSome_iff_exists.mp found
  rw [hm]
  by_contra other
  have found := List.find?_some hm
  rw [others m fun e => other (congrArg some e)] at found
  cases found

theorem Part.charge_slots {s : Part} {x : Page} {k : Fin 8} {y : Slot} (h : s.intake.slotOf x.job = some k) (hy : s.intake.slots[k] = some y) :
    (s.charge x).intake.slots = s.intake.slots.set k (some (y.accept x)) := by
  unfold Part.charge
  rw [h]
  exact congrArg (fun z : Option Slot => s.intake.slots.set k (z.map fun y => y.accept x)) hy

/-- The slot an accepted page is counted by. -/
theorem Part.acceptPage_slots (s : Part) {x : Page} (h : s.intake.refuses x = none) :
    ∃ k : Fin 8, (s.intake.slotOf x.job = some k ∨ s.intake.slotOf x.job = none ∧ s.intake.freeSlot = some k) ∧
      (s.acceptPage x).intake.slots = s.intake.slots.set k
        (some (((s.intake.slot? x.job).getD ⟨x.job, s.intake.queueFor x, 0, 0, 0, none, false⟩).accept x)) := by
  generalize hr : s.modIntake (fun i => (i.takeSlot x).append (s.intake.queueFor x) x) = r
  have slots : r.intake.slots = (s.intake.takeSlot x).slots := by
    rw [← hr]
    exact Intake.append_slots ..
  have own : r.intake.slotOf x.job = (s.intake.takeSlot x).slotOf x.job := by
    rw [← hr]
    exact Intake.slotOf_append ..
  rw [s.acceptPage_eq, (Part.judgeIntakeLow_slots ..).1, hr]
  cases has : s.intake.slotOf x.job with
  | some k =>
    obtain ⟨y, hy, -⟩ := Intake.slotOf_some has
    have kept : s.intake.takeSlot x = s.intake := by
      unfold Intake.takeSlot
      rw [has]
      rfl
    rw [kept] at slots own
    refine ⟨k, .inl rfl, ?_⟩
    rw [Part.charge_slots (own.trans has) (by rw [slots]; exact hy), slots]
    unfold Intake.slot?
    rw [has, Option.bind_some, hy]
    rfl
  | none =>
    have none : s.intake.slot? x.job = none := by
      unfold Intake.slot?
      rw [has]
      rfl
    cases free : s.intake.freeSlot with
    | none =>
      unfold Intake.refuses at h
      dsimp only at h
      rw [none, free] at h
      split at h
      · cases h
      · rw [if_pos (by rfl)] at h
        cases h
    | some k =>
      obtain ⟨taken, here⟩ := Intake.slotOf_takeSlot has free
      refine ⟨k, .inr ⟨rfl, rfl⟩, ?_⟩
      rw [Part.charge_slots (own.trans here) (by rw [slots, taken, Fin.getElem_fin, Vector.getElem_set_self]), slots, taken, none,
        Vector.set_set]
      rfl

theorem Part.acceptPage_queue (s : Part) (x : Page) (c : Queue) : (s.acceptPage x).intake.queue c =
    if c = s.intake.queueFor x then s.intake.queue c ++ [x] else s.intake.queue c := by
  obtain ⟨normal, priority⟩ := s.acceptPage_queues x
  unfold Intake.queue
  cases c with
  | normal =>
    dsimp only
    rw [normal]
    exact if_congr eq_comm rfl rfl
  | priority =>
    dsimp only
    rw [priority]
    exact if_congr eq_comm rfl rfl

theorem Part.acceptPage_ends (s : Part) {x : Page} (h : s.intake.refuses x = none) :
    let slot := (s.intake.slot? x.job).getD ⟨x.job, s.intake.queueFor x, 0, 0, 0, none, false⟩
    (∀ c, drawn s.feed.path (if c = s.intake.queueFor x then s.intake.queue c ++ [x] else s.intake.queue c)
      ((s.acceptPage x).judge.intake.queue c)) ∧
    ∃ k : Fin 8, (s.intake.slotOf x.job = some k ∨ s.intake.slotOf x.job = none ∧ s.intake.freeSlot = some k) ∧
      (s.acceptPage x).judge.intake.slots = s.intake.slots.set k
        (some { slot with accepted := slot.accepted + 1, closed := slot.closed || x.lastOfJob }) := by
  obtain ⟨queue, slots⟩ := (s.acceptPage x).judge_draws
  obtain ⟨k, place, counted⟩ := s.acceptPage_slots h
  refine ⟨fun c => ?_, k, place, slots.trans counted⟩
  rw [← s.acceptPage_queue x c, ← (s.acceptPage_via x).feed_eq rfl]
  exact queue c

/-! ## PAGE (R26) -/

theorem page_asked (length : b.length = 14) (p : Part) : answerFrame ⟨0x0B, b⟩ p = p.answerPage b := by
  have fits : lengthIs b 14 = true := beq_iff_eq.mpr length
  exact if_pos fits

theorem Part.answerPage_taken (configured : s.feed.path ≠ .unconfigured) (read : readPage b = some x) (refuses : s.intake.refuses x = none) :
    s.answerPage b = (s.acceptPage x).judge.done := by
  unfold Part.answerPage
  rw [if_neg configured, read]
  dsimp only
  rw [refuses]

theorem Part.answerPage_refused (configured : s.feed.path ≠ .unconfigured) (read : readPage b = some x) {r : Result}
    (refuses : s.intake.refuses x = some r) : s.answerPage b = s.refuse r := by
  unfold Part.answerPage
  rw [if_neg configured, read]
  dsimp only
  rw [refuses]

theorem Part.answerPage_unread (configured : s.feed.path ≠ .unconfigured) (read : readPage b = none) : s.answerPage b = s.refuse .badValue := by
  unfold Part.answerPage
  rw [if_neg configured, read]

theorem page_taken (w : List Instr) (p : Part) (t : Tick) (hs : p.canAccept) (configured : p.feed.path ≠ .unconfigured)
    (body : PageBody x b) (passes : p.intake.pageCode x = none) :
    Completes (.page t b) ⟨w, p⟩ fun q =>
       let own := p.intake.queueFor x
       let slot := (p.intake.slot? x.job).getD ⟨x.job, own, 0, 0, 0, none, false⟩
       p.repliedTo t 0x0B b [0x00] q ∧
       (∀ c : Queue, ∃ k, k ≤ 2 ∧ (k ≠ 0 → p.feed.path = .running ∨ p.feed.path = .draining) ∧
         q.intake.queue c = (if c = own then p.intake.queue c ++ [x] else p.intake.queue c).drop k) ∧
       ∃ i : Fin 8, (p.intake.slotOf x.job = some i ∨ (p.intake.slotOf x.job = none ∧ p.intake.freeSlot = some i)) ∧
         q.intake.slots = p.intake.slots.set i
           (some { slot with accepted := slot.accepted + 1, closed := slot.closed || x.lastOfJob }) := by
  obtain ⟨read, length⟩ := readPage_of body
  have refuses : p.intake.refuses x = none := by
    rw [Intake.pageCode_eq] at passes
    exact Option.map_eq_none_iff.mp passes
  have path : (p.found t 0x0B b).feed.path ≠ .unconfigured := configured
  have intake : (p.found t 0x0B b).intake = p.intake := rfl
  have state : (p.found t 0x0B b).feed.path = p.feed.path := rfl
  have asked : answerFrame ⟨0x0B, b⟩ (p.found t 0x0B b) = ((p.found t 0x0B b).acceptPage x).judge.done :=
    (page_asked length _).trans (Part.answerPage_taken path read refuses)
  have moves : Moves .inner .settled (p.found t 0x0B b) .settled ((p.found t 0x0B b).acceptPage x).judge :=
    (Move.acceptPage x path (readPage_origin read) refuses rfl).moves.trans (Part.judge_moves _)
  have ends := (p.found t 0x0B b).acceptPage_ends refuses
  rw [intake, state] at ends
  generalize ((p.found t 0x0B b).acceptPage x).judge = q at asked moves ends
  exact completes_of (c := .page t b) (s := ⟨w, p⟩) rfl hs asked moves.inner_eq.2.2.1 ⟨repliedTo_of moves, ends⟩

theorem page_refused (w : List Instr) (p : Part) (t : Tick) (code : Byte) (hs : p.canAccept) (configured : p.feed.path ≠ .unconfigured)
    (length : b.length = 14)
    (h : (∃ x, PageBody x b ∧ p.intake.pageCode x = some code) ∨ (4 ≤ (b.getD 7 0).toNat ∧ code = 0x03)) :
    exec (.page t b) ⟨w, p⟩ = .next ⟨w, p.answered t 0x0B b [code]⟩ := by
  have path : (p.found t 0x0B b).feed.path ≠ .unconfigured := configured
  have asked := page_asked length (p.found t 0x0B b)
  rcases h with ⟨x, body, fails⟩ | ⟨side, rfl⟩
  · rw [Intake.pageCode_eq] at fails
    obtain ⟨r, refuses, rfl⟩ := Option.map_eq_some_iff.mp fails
    exact exec_unchanged (c := .page t b) (s := ⟨w, p⟩) rfl hs r []
      (asked.trans (Part.answerPage_refused path (readPage_of body).1 refuses))
  · exact exec_unchanged (c := .page t b) (s := ⟨w, p⟩) rfl hs .badValue []
      (asked.trans (Part.answerPage_unread path (readPage_none side)))

/-- Settles O9. -/
theorem pageJudged : Obligations.PageJudged :=
  ⟨fun w p t _ _ hs configured => page_taken w p t hs configured,
    fun w p t _ code hs configured length => page_refused w p t code hs configured length⟩

end Sys2Proof.Machine
end

