-- ==== Sys2Proof/Proofs/ImagesReady.lean ====
section
/-! PROOF. IMAGE READY (O10). -/

namespace Sys2Proof.Machine

variable {s t u p q : Part} {b : List Byte} {id : Nat}

/-! ## The records found and their flags (R33) -/

/-- A page of a side not yet COMMITTED is found, and its flag set. -/
theorem readied_side (id : Nat) (side : SideState) (o : Option Page) :
    (if (o.any (fun p => p.id == id) && side != .committed) = true then o.map (Page.readyIf id) else o) =
      if side = .committed then o else o.map (readied id) := by
  cases o with
  | none => split <;> split <;> rfl
  | some p =>
    by_cases committed : side = .committed
    · rw [if_pos committed, committed, if_neg (by simp)]
    · rw [if_neg committed]
      by_cases same : p.id = id
      · rw [if_pos (by simp [same, committed])]
        rfl
      · rw [if_neg (by simp [same])]
        exact congrArg some (if_neg same).symm

theorem Sheet.readyIf_face (id : Nat) (x : Sheet) : (x.readyIf id).face = readiedSides id x :=
  congrArg (Prod.mk x.number) (congrArg₂ Prod.mk (readied_side id x.frontSide x.front) (readied_side id x.backSide x.back))

theorem Part.setReady_queue (s : Part) (id : Nat) (c : Queue) :
    (s.setReady id).intake.queue c = (s.intake.queue c).map (readied id) := by
  cases c <;> rfl

theorem Part.setReady_faces (s : Part) (id : Nat) : (s.setReady id).faces = s.table.sheets.map (readiedSides id) := by
  have sheets : (s.setReady id).table.sheets = s.table.sheets.map (Sheet.readyIf id) := rfl
  unfold Part.faces
  rw [sheets, List.map_map]
  exact List.map_congr_left fun x _ => x.readyIf_face id

/-! ## IMAGE READY (R33) -/

theorem imageReady_asked (h : id < 4294967296) (p : Part) : answerFrame ⟨0x0C, four id⟩ p =
    if p.holdsPage id then (p.setReady id).judge.done else p.refuse .unknownPage := by
  have read : numAt (four id) 0 4 = id := by
    rw [← List.append_nil (four id)]
    exact numAt_four_append h
  have asked : answerFrame ⟨0x0C, four id⟩ p =
      if p.holdsPage (numAt (four id) 0 4) then (p.setReady (numAt (four id) 0 4)).judge.done else p.refuse .unknownPage := rfl
  rw [asked, read]

theorem Part.setReady_ends (s : Part) (id : Nat) :
    (∀ c, drawn s.feed.path ((s.intake.queue c).map (readied id)) ((s.setReady id).judge.intake.queue c)) ∧
    (s.setReady id).judge.intake.slots = s.intake.slots ∧
    (s.feed.path ≠ .held ∨ s.dry.on = false →
      drawn s.feed.path (s.planner.list.map fun y => { y with page := readied id y.page }) (s.setReady id).judge.planner.list ∧
      ((s.setReady id).judge.table.sheets.take s.table.sheets.length).map (fun y => (y.number, y.front, y.back))
        = s.table.sheets.map (readiedSides id) ∧
      (s.setReady id).judge.table.sheets.length ≤ s.table.sheets.length + 1) := by
  obtain ⟨queue, slots⟩ := (s.setReady id).judge_draws
  have via := s.setReady_via id
  rw [via.feed_eq rfl] at queue
  refine ⟨fun c => s.setReady_queue id c ▸ queue c, slots, fun h => ?_⟩
  have lists : (s.setReady id).drawsList (s.setReady id).judge := Part.judge_drawsList (by rwa [via.feed_eq rfl, via.dry_eq rfl])
  obtain ⟨list, l, few, faces⟩ := lists
  rw [via.feed_eq rfl] at list
  rw [s.setReady_faces] at faces
  generalize (s.setReady id).judge = q at *
  have length : q.table.sheets.length = s.table.sheets.length + l.length := by
    have e := congrArg List.length faces
    rw [List.length_append, List.length_map] at e
    unfold Part.faces at e
    rwa [List.length_map] at e
  refine ⟨list, ?_, by omega⟩
  rw [List.map_take]
  have faces : q.table.sheets.map (fun y => (y.number, y.front, y.back)) = s.table.sheets.map (readiedSides id) ++ l := faces
  rw [faces, List.take_left' (List.length_map ..)]

/-- Settles O10. -/
theorem imageReady : Obligations.ImageReady := by
  unfold Obligations.ImageReady
  rintro w p t b id hs range rfl
  have asked := imageReady_asked range (p.found t 0x0C (four id))
  have same : (p.found t 0x0C (four id)).holdsPage id = p.holdsPage id := rfl
  rw [same] at asked
  constructor
  · intro h
    rw [if_pos ((p.holdsPage_iff id).mpr h)] at asked
    have moves : Moves .inner .settled (p.found t 0x0C (four id)) .settled ((p.found t 0x0C (four id)).setReady id).judge :=
      (Move.setReady id).moves.trans (Part.judge_moves _)
    have ends := (p.found t 0x0C (four id)).setReady_ends id
    have feed : (p.found t 0x0C (four id)).feed = p.feed := rfl
    have intake : (p.found t 0x0C (four id)).intake = p.intake := rfl
    have dry : (p.found t 0x0C (four id)).dry = p.dry := rfl
    have planner : (p.found t 0x0C (four id)).planner = p.planner := rfl
    have table : (p.found t 0x0C (four id)).table = p.table := rfl
    rw [feed, intake, dry, planner, table] at ends
    generalize ((p.found t 0x0C (four id)).setReady id).judge = q at asked moves ends
    exact completes_of (c := .imageReady t (four id)) (s := ⟨w, p⟩) rfl hs asked moves.inner_eq.2.2.1 ⟨repliedTo_of moves, ends⟩
  · intro queues list sheets
    have none : ¬ p.holdsPage id = true := by
      rw [p.holdsPage_iff id]
      rintro (⟨c, x, hx, h⟩ | ⟨y, hy, h⟩ | ⟨x, hx, ⟨y, hy, h, side⟩ | ⟨y, hy, h, side⟩⟩)
      · exact queues c x hx h
      · exact list y hy h
      · exact side ((sheets x hx).1 y hy h)
      · exact side ((sheets x hx).2 y hy h)
    rw [if_neg none] at asked
    exact exec_unchanged (c := .imageReady t (four id)) (s := ⟨w, p⟩) rfl hs .unknownPage [] asked

end Sys2Proof.Machine
end

