-- ==== Sys2Proof/Proofs/JobWithdrawn.lean ====
section
/-! PROOF. What ABANDON JOB takes from everywhere, before the judgements (R40). -/

namespace Sys2Proof.Machine

variable {s t u p a : Part} {x y : Sheet} {job : Nat} {i : Fin 8}

/-! ## The sheets reached (R87, R114) -/

theorem Part.abandonable_eq (s : Part) (job : Nat) (x : Sheet) : s.abandonable job x = reached s job x := by
  have gate : (!s.force.pastPurgeGate x) = (x.itinerary.take x.index).all fun z => s.force.roleOf z.station != some .purgeGate := by
    unfold Desc.pastPurgeGate
    rw [List.not_any_eq_all_not]
    rfl
  unfold Part.abandonable reached
  refine congrArg (x.job == job && ·) ?_
  have moves : x.moving = (x.cond != .stranded) := by
    unfold Sheet.moving
    cases x.cond <;> rfl
  cases path : s.feed.path <;> simp [moves, gate]

/-- What ABANDON JOB leaves of a sheet it reaches. -/
def Part.givenUp (s : Part) (y : Sheet) : Sheet :=
  if y.cond = .stranded then { y with front := none, back := none, released := true } else s.spoiled y

theorem Part.givenUp_number (s : Part) (y : Sheet) : (s.givenUp y).number = y.number := by
  unfold Part.givenUp
  split <;> rfl

theorem Part.givenUp_released (s : Part) (y : Sheet) :
    (s.givenUp y).front = none ∧ (s.givenUp y).back = none ∧ (s.givenUp y).released = true := by
  unfold Part.givenUp
  split <;> exact ⟨rfl, rfl, rfl⟩

theorem Part.abandonSheet_sheets (s : Part) (x : Sheet) : (s.abandonSheet x).table.sheets =
    s.table.sheets.map fun y => if y.number = x.number then (if x.cond = .stranded then y.release else s.spoiled y) else y := by
  unfold Part.abandonSheet
  dsimp only
  rw [(Part.dropSheetCalls_via ..).table_eq rfl]
  split
  · rfl
  · unfold Part.purgeSheet Part.raiseRevision Part.modSheet
    simp only [Part.modTable_table, List.map_map]
    refine List.map_congr_left fun y _ => ?_
    simp only [Function.comp_apply]
    by_cases h : y.number = x.number
    · rw [if_pos h, if_pos h]
      exact if_pos h
    · rw [if_neg h, if_neg h, if_neg h]

theorem Part.abandonAll_sheets (l : List Sheet) (distinct : (l.map Sheet.number).Nodup) (s : Part)
    (same : ∀ x ∈ l, ∀ y ∈ s.table.sheets, y.number = x.number → y.cond = x.cond) :
    (l.foldl Part.abandonSheet s).table.sheets =
      s.table.sheets.map fun y => if y.number ∈ l.map Sheet.number then s.givenUp y else y := by
  induction l generalizing s with
  | nil => simp
  | cons x l ih =>
    obtain ⟨hx, distinct⟩ := List.nodup_cons.mp distinct
    obtain ⟨own, rest⟩ := List.forall_mem_cons.mp same
    have force : (s.abandonSheet x).force = s.force := (s.abandonSheet_via x).force_eq rfl
    have given : ∀ y, (s.abandonSheet x).givenUp y = s.givenUp y := fun y => by
      unfold Part.givenUp Part.spoiled
      rw [force]
    have sheets : (s.abandonSheet x).table.sheets = s.table.sheets.map fun y => if y.number = x.number then s.givenUp y else y := by
      rw [s.abandonSheet_sheets]
      refine List.map_congr_left fun y hy => ?_
      split
      · next h =>
        unfold Part.givenUp
        rw [← own y hy h]
        rfl
      · rfl
    rw [List.foldl_cons, ih distinct, sheets, List.map_map]
    · refine List.map_congr_left fun y _ => ?_
      simp only [Function.comp_apply, given, List.map_cons, List.mem_cons]
      by_cases h : y.number = x.number
      · have out : y.number ∉ l.map Sheet.number := h ▸ hx
        rw [if_pos h, s.givenUp_number, if_neg out, if_pos (.inl h)]
      · simp only [h, if_false, false_or]
    · intro z hz y hy number
      rw [sheets] at hy
      obtain ⟨y, here, rfl⟩ := List.mem_map.mp hy
      by_cases h : y.number = x.number
      · rw [if_pos h, s.givenUp_number, h] at number
        exact absurd (number ▸ List.mem_map_of_mem hz) hx
      · rw [if_neg h] at number ⊢
        exact rest z hz y here number

theorem Part.abandonAll_via (l : List Sheet) (s : Part) : Via [.table, .calls] s (l.foldl Part.abandonSheet s) :=
  Via.fold (A := [.table, .calls]) (.refl s) l fun p x => p.abandonSheet_via x

theorem Part.withdrawJob_table (s : Part) (job : Nat) : ∃ q : Part, Via [.intake, .planner, .notices] s q ∧
    (s.withdrawJob job).table = ((s.table.sheets.filter (s.abandonable job)).foldl Part.abandonSheet q).table := by
  refine ⟨(s.abandonQueued job).abandonPlanned job, ?_, rfl⟩
  have queued : Via [.intake, .planner, .notices] s (s.abandonQueued job) := Via.intake (.refl s) _ rfl
  exact queued.andThen (Part.abandonPlanned_via ..) rfl

theorem Part.withdrawJob_sheets (s : Part) (sound : (s.table.sheets.map Sheet.number).Pairwise (· < ·)) (job : Nat) :
    (s.withdrawJob job).table.sheets = s.table.sheets.map fun y => if reached s job y then s.givenUp y else y := by
  obtain ⟨q, via, e⟩ := s.withdrawJob_table job
  have distinct : ((s.table.sheets.filter (s.abandonable job)).map Sheet.number).Nodup :=
    (sound.imp fun h => h.ne).sublist (List.filter_sublist.map _)
  have given : ∀ y, q.givenUp y = s.givenUp y := fun y => by
    unfold Part.givenUp Part.spoiled
    rw [via.force_eq rfl]
  rw [e, Part.abandonAll_sheets _ distinct, via.table_eq rfl]
  · refine List.map_congr_left fun y hy => ?_
    rw [given]
    refine if_congr ⟨fun h => ?_, fun h => ?_⟩ rfl rfl
    · obtain ⟨z, hz, number⟩ := List.mem_map.mp h
      obtain ⟨hz, reaches⟩ := List.mem_filter.mp hz
      rw [← s.abandonable_eq, ← sheet_unique sound hz hy number]
      exact reaches
    · rw [← s.abandonable_eq] at h
      exact List.mem_map_of_mem (List.mem_filter.mpr ⟨hy, h⟩)
  · intro x hx y hy number
    rw [via.table_eq rfl] at hy
    rw [sheet_unique sound hy (List.mem_filter.mp hx).1 number]

theorem Finisher.ofJob_iff {f : Finisher} : f.ofJob job = true ↔ f.ident.map Prod.fst = some job := by
  unfold Finisher.ofJob
  cases f.ident <;> simp

/-- The records removed are those the statements count. -/
theorem Part.abandonCount_eq (s : Part) (job : Nat) : s.abandonCount job = removedBy s job := by
  have sheets : s.table.sheets.filter (s.abandonable job) = s.table.sheets.filter (reached s job) :=
    List.filter_congr fun y _ => s.abandonable_eq job y
  unfold Part.abandonCount removedBy
  rw [sheets]
  refine congrArg₂ (· + ·) (congrArg₂ (· + ·) ?_ rfl) (if_congr Finisher.ofJob_iff rfl rfl)
  rw [List.filter_append, List.filter_append, List.length_append, List.length_append, List.filter_map, List.length_map,
    ← List.countP_eq_length_filter, ← List.countP_eq_length_filter, ← List.countP_eq_length_filter]
  rfl

end Sys2Proof.Machine
end

