-- ==== Sys2Proof/Proofs/JobClosed.lean ====
section
/-! PROOF. The part as ABANDON JOB leaves it to the judgements (R36 to R40). -/

namespace Sys2Proof.Machine

variable {s t u p a : Part} {x : Slot} {job : Nat} {i : Fin 8} {c : Queue}

/-- The job withdrawn, its slot and its queue judged. -/
def Part.withdrawn (s : Part) (job : Nat) (i : Fin 8) (c : Queue) : Part := ((s.abandonCore job i).judgeIntakeLow c).examineSlot i

theorem Part.closeAbandoned_eq (s : Part) (job : Nat) (i : Fin 8) (x : Slot) :
    (s.withdrawJob job).closeAbandoned i x (s.abandonCount job) = s.withdrawn job i x.queue := rfl

theorem Part.withdrawn_of_core (s : Part) (job : Nat) (i : Fin 8) (c : Queue) :
    Via [.notices, .intake] (s.abandonCore job i) (s.withdrawn job i c) :=
  ((Part.judgeIntakeLow_via _ c).mono rfl).andThen (Part.examineSlot_via ..) rfl

theorem Part.withdrawn_via (s : Part) (job : Nat) (i : Fin 8) (c : Queue) :
    Via [.notices, .intake, .planner, .table, .calls, .finisher, .feed] s (s.withdrawn job i c) :=
  (s.abandonCore_via job i).andThen (s.withdrawn_of_core job i c) rfl

theorem Part.withdrawn_feed (s : Part) (job : Nat) (i : Fin 8) (c : Queue) : (s.withdrawn job i c).feed = s.feed.abandonMarks job := by
  rw [(s.withdrawn_of_core job i c).feed_eq rfl, s.abandonCore_feed]

theorem Part.withdrawn_list (s : Part) (job : Nat) (i : Fin 8) (c : Queue) :
    (s.withdrawn job i c).planner.list = s.planner.list.filter fun y => y.page.job != job := by
  rw [(s.withdrawn_of_core job i c).planner_eq rfl, s.abandonCore_list]

theorem Part.withdrawn_finisher (s : Part) (job : Nat) (i : Fin 8) (c : Queue) :
    (s.withdrawn job i c).finisher = if s.finisher.ofJob job then s.finisher.abandon else s.finisher := by
  rw [(s.withdrawn_of_core job i c).finisher_eq rfl, s.abandonCore_finisher]

theorem Part.abandonCore_of_withdrawJob (s : Part) (job : Nat) (i : Fin 8) :
    Via [.notices, .intake] (s.withdrawJob job) (s.abandonCore job i) := by
  have slot : Via [.notices, .intake] (s.withdrawJob job) ((s.withdrawJob job).modSlot i fun y =>
      { y with abandoned := y.abandoned + s.abandonCount job, closed := true }) := (Part.modSlot_via ..).mono rfl
  unfold Part.abandonCore
  exact Via.ite slot (slot.andThen (Part.noteProgress_via ..) rfl)

theorem Part.withdrawn_of_withdrawJob (s : Part) (job : Nat) (i : Fin 8) (c : Queue) :
    Via [.notices, .intake] (s.withdrawJob job) (s.withdrawn job i c) :=
  (s.abandonCore_of_withdrawJob job i).trans (s.withdrawn_of_core job i c)

theorem Part.withdrawn_sheets (s : Part) (sound : (s.table.sheets.map Sheet.number).Pairwise (· < ·)) (job : Nat) (i : Fin 8) (c : Queue) :
    (s.withdrawn job i c).table.sheets = s.table.sheets.map fun y => if reached s job y then s.givenUp y else y := by
  rw [(s.withdrawn_of_withdrawJob job i c).table_eq rfl, s.withdrawJob_sheets sound]

theorem Part.examineSlot_queues (s : Part) (i : Fin 8) : (s.examineSlot i).intake = { s.intake with slots := (s.examineSlot i).intake.slots } := by
  unfold Part.examineSlot
  split
  · rfl
  · split <;> rfl

theorem Part.withdrawn_queue (s : Part) (job : Nat) (i : Fin 8) (c d : Queue) :
    (s.withdrawn job i c).intake.queue d = (s.intake.queue d).filter fun y => y.job != job := by
  obtain ⟨normal, priority⟩ := s.abandonCore_queues job i
  obtain ⟨-, normal', priority'⟩ := (s.abandonCore job i).judgeIntakeLow_slots c
  unfold Part.withdrawn
  rw [Part.examineSlot_queues]
  cases d with
  | normal => exact normal'.trans normal
  | priority => exact priority'.trans priority

/-! ## INTAKE LOW (R38) -/

theorem Part.withdrawn_low (s : Part) (job : Nat) (i : Fin 8) (c : Queue) : (s.withdrawn job i c).lowJudged c := by
  have judged := (s.abandonCore job i).judgeIntakeLow_judged c
  have gauge := ((s.abandonCore job i).judgeIntakeLow c).examineSlot_gauge i
  have force : (s.withdrawn job i c).force = ((s.abandonCore job i).judgeIntakeLow c).force := (Part.examineSlot_via ..).force_eq rfl
  unfold Part.lowJudged Part.mark at judged ⊢
  rw [force]
  unfold Part.withdrawn
  rw [gauge]
  exact judged

/-- A mode without leave to withdraw notices, to accept a page or to abandon a job. -/
def Mode.modest : Mode := { Mode.inner with withdraw := false, accept := false, abandon := false }

theorem Part.judge_low (s : Part) (h : s.lowJudged c) : s.judge.lowJudged c := by
  have moves : Moves .modest .settled s .settled s.judge := s.judge_moves
  rcases moves.judgesLow rfl rfl rfl c with e | e
  · have force := s.judge_via.force_eq rfl
    unfold Part.lowJudged Part.mark at h ⊢
    rw [e, force]
    exact h
  · exact e

theorem Part.judge_hears (s : Part) : s.hears false s.judge :=
  ((s.judge_moves : Moves .modest .settled s .settled s.judge).tellsOf rfl rfl).1

/-! ## The slot (R36, R37) -/

theorem Part.withdrawn_slots (s : Part) (hx : s.intake.slots[i] = some x) (c : Queue) :
    let n := s.abandonCount job
    (s.withdrawn job i c).intake.slots[i] = (if x.accepted = x.delivered + (x.abandoned + n) ∧ s.notices.progress[i] = false ∧
        (n = 0 ∨ s.mask.progress = false) then none else some { x with abandoned := x.abandoned + n, closed := true }) ∧
      ∀ j : Fin 8, j ≠ i → (s.withdrawn job i c).intake.slots[j] = s.intake.slots[j] := by
  intro n
  have base : (s.withdrawJob job).intake.slots = s.intake.slots := by rw [s.withdrawJob_intake]
  have slots : (s.abandonCore job i).intake.slots = s.intake.slots.set i (some { x with abandoned := x.abandoned + n, closed := true }) := by
    have set : ∀ q : Part, q.intake.slots = s.intake.slots →
        (q.modSlot i fun y => { y with abandoned := y.abandoned + n, closed := true }).intake.slots =
          s.intake.slots.set i (some { x with abandoned := x.abandoned + n, closed := true }) := fun q e => by
      unfold Part.modSlot
      rw [Part.modIntake_intake]
      dsimp only
      rw [e, hx]
      rfl
    unfold Part.abandonCore
    dsimp only
    split
    · exact set _ base
    · rw [(Part.noteProgress_via ..).intake_eq rfl]
      exact set _ base
  have progress : (s.abandonCore job i).notices.progress[i] = false ↔
      s.notices.progress[i] = false ∧ (n = 0 ∨ s.mask.progress = false) := by
    have noted : ∀ q : Part, q.notices.progress = s.notices.progress → q.mask = s.mask →
        ((if n = 0 then q else q.noteProgress i).notices.progress[i] = false ↔
          s.notices.progress[i] = false ∧ (n = 0 ∨ s.mask.progress = false)) := fun q same mask => by
      by_cases none : n = 0
      · rw [if_pos none, same]
        exact (and_iff_left (.inl none)).symm
      · rw [if_neg none, Part.noteProgress_progress, if_pos rfl, same, mask, Bool.or_eq_false_iff]
        exact and_congr_right fun _ => (or_iff_right none).symm
    exact noted ((s.withdrawJob job).modSlot i fun y => { y with abandoned := y.abandoned + n, closed := true })
      (congrArg Prod.fst (s.withdrawJob_counted job)) ((s.withdrawJob_via job).mask_eq rfl)
  have judged : (s.withdrawn job i c).intake.slots = (s.abandonCore job i).intake.slots.set i
      (examinedSlot ((s.abandonCore job i).notices.progress[i]) (s.abandonCore job i).intake.slots[i]) := by
    obtain ⟨same, -, -⟩ := (s.abandonCore job i).judgeIntakeLow_slots c
    have noted : ((s.abandonCore job i).judgeIntakeLow c).notices.progress = (s.abandonCore job i).notices.progress :=
      congrArg Prod.fst (Part.judgeIntakeLow_counted ..)
    unfold Part.withdrawn
    rw [Part.examineSlot_eq, same, noted]
    rfl
  have own : (s.abandonCore job i).intake.slots[i] = some { x with abandoned := x.abandoned + n, closed := true } := by
    rw [slots, Fin.getElem_fin, Vector.getElem_set_self]
  constructor
  · rw [judged, own, Fin.getElem_fin, Vector.getElem_set_self]
    by_cases balanced : x.accepted = x.delivered + (x.abandoned + n) ∧ s.notices.progress[i] = false ∧ (n = 0 ∨ s.mask.progress = false)
    · rw [if_pos balanced, progress.mpr balanced.2]
      unfold examinedSlot
      simp [balanced.1]
    · rw [if_neg balanced]
      unfold examinedSlot
      rw [Option.filter_some, if_pos]
      rw [Bool.not_eq_true', Bool.eq_false_iff]
      intro all
      simp only [Bool.and_eq_true, beq_iff_eq, Bool.not_eq_true', true_and] at all
      exact balanced ⟨all.1, progress.mp all.2⟩
  · intro j hj
    rw [judged, slots, Vector.set_set, Fin.getElem_fin, Vector.getElem_set_ne _ _ (fun e => hj (Fin.ext e.symm))]
    rfl

/-! ## The plan (R143) -/

theorem Part.abandonPlanned_new (job : Nat) (resumable : s.feed.path = .resumable) (h : ∃ y ∈ s.planner.list, y.page.job = job) :
    (s.abandonPlanned job).planner.revision = s.planner.revision + 1 ∧ (s.abandonPlanned job).planner.readThrough = false ∧
      (s.abandonPlanned job).notices.planReady = true := by
  have any : (s.planner.list.any fun x => x.page.job == job) = true := by simpa using h
  unfold Part.abandonPlanned
  dsimp only
  rw [if_pos ⟨resumable, any⟩]
  exact ⟨rfl, rfl, rfl⟩

theorem Part.abandonPlanned_same (job : Nat) (h : ¬ ∃ y ∈ s.planner.list, y.page.job = job) :
    (s.abandonPlanned job).planner = s.planner := by
  have none : ¬ (s.planner.list.any fun x => x.page.job == job) = true := by simpa using h
  have list : (s.planner.list.filter fun y => y.page.job != job) = s.planner.list := by
    refine List.filter_eq_self.mpr fun y hy => bne_iff_ne.mpr fun e => h ⟨y, hy, e⟩
  unfold Part.abandonPlanned
  dsimp only
  rw [if_neg fun k => none k.2, Part.modPlanner_planner, list]

theorem Part.withdrawn_planReady (s : Part) (job : Nat) (i : Fin 8) (c : Queue) :
    (s.withdrawn job i c).notices.planReady = (s.withdrawJob job).notices.planReady := by
  have core : (s.abandonCore job i).notices.planReady = (s.withdrawJob job).notices.planReady := by
    unfold Part.abandonCore
    dsimp only
    split <;> rfl
  unfold Part.withdrawn
  rw [Part.examineSlot_spoil, ← core]
  cases c <;> rfl

/-- In RESUMABLE a list it changes is a new plan; any other list and its plan stay. -/
theorem Part.withdrawn_planner (s : Part) (job : Nat) (i : Fin 8) (c : Queue) (resumable : s.feed.path = .resumable) :
    if (∃ y ∈ s.planner.list, y.page.job = job) then
      (s.withdrawn job i c).planner.revision = s.planner.revision + 1 ∧ (s.withdrawn job i c).planner.readThrough = false ∧
        (s.withdrawn job i c).notices.planReady = true
    else (s.withdrawn job i c).planner = s.planner := by
  have planner : (s.withdrawn job i c).planner = ((s.abandonQueued job).abandonPlanned job).planner := by
    rw [(s.withdrawn_of_withdrawJob job i c).planner_eq rfl]
    exact (Part.abandonAll_via ..).planner_eq rfl
  split
  · next h =>
    obtain ⟨revision, unread, ready⟩ := Part.abandonPlanned_new (s := s.abandonQueued job) job resumable h
    refine ⟨by rw [planner, revision]; rfl, by rw [planner, unread], ?_⟩
    have sheets : (s.withdrawJob job).notices.planReady = true := by
      have e : (s.withdrawJob job).notices = ((s.abandonQueued job).abandonPlanned job).notices :=
        (Part.abandonAll_via ..).notices_eq rfl
      rw [e, ready]
    rw [s.withdrawn_planReady, sheets]
  · next h => rw [planner, Part.abandonPlanned_same (s := s.abandonQueued job) job h]; rfl

end Sys2Proof.Machine
end

