-- ==== Sys2Proof/Proofs/JobJudged.lean ====
section
/-! PROOF. What the judgements at the end of ABANDON JOB leave of what it withdrew. -/

namespace Sys2Proof.Machine

variable {s t u p a : Part} {x y : Sheet} {job : Nat} {i : Fin 8}

/-! ## The set given up (R158) -/

/-- A set that holds no page, is not FAULTED, and is abandoned or ended. -/
structure Finisher.forsaken (f : Finisher) : Prop where
  pages : ∀ h ∈ f.sheets, h.pages = []
  state : f.state ≠ .faulted
  ended : f.abandoned = true ∨ f = .reset

theorem Finisher.reset_forsaken : Finisher.reset.forsaken := ⟨fun _ h => absurd h List.not_mem_nil, nofun, .inr rfl⟩

theorem Finisher.abandon_forsaken (f : Finisher) : f.abandon.forsaken := by
  refine ⟨fun h hh => ?_, ?_, .inl rfl⟩
  · obtain ⟨k, -, rfl⟩ := List.mem_map.mp hh
    rfl
  · show (if f.state = .faulted then SetState.retained else f.state) ≠ .faulted
    split
    · nofun
    · assumption

/-- A set that is not EMPTY stays given up while its pages and its mark stay. -/
theorem Finisher.forsaken.goesOn {f g : Finisher} (h : f.forsaken) (sheets : g.sheets = f.sheets) (abandoned : g.abandoned = f.abandoned)
    (some : f.state ≠ .empty) (state : g.state ≠ .faulted) : g.forsaken := by
  refine ⟨by rw [sheets]; exact h.pages, state, .inl ?_⟩
  rcases h.ended with e | e
  · rw [abandoned, e]
  · rw [e] at some
    exact absurd rfl some

theorem Part.judgeClosure_forsaken (h : s.finisher.forsaken) : s.judgeClosure.finisher.forsaken := by
  unfold Part.judgeClosure
  dsimp only
  split
  · next closes =>
    rw [Bool.and_eq_true, Bool.and_eq_true, Bool.or_eq_true, beq_iff_eq, beq_iff_eq] at closes
    refine h.goesOn rfl rfl (fun e => ?_) h.state
    rcases closes.1.1 with k | k <;> rw [e] at k <;> cases k
  · exact h

theorem Part.judgeFinisher_forsaken (h : s.finisher.forsaken) : s.judgeFinisher.finisher.forsaken := by
  have closure := Part.judgeClosure_forsaken h
  rcases s.judgeFinisher_cases with ⟨e, -⟩ | ⟨ready, k⟩
  · rwa [e]
  · have some : s.judgeClosure.finisher.state ≠ .empty := by
      rw [((Part.cycleReady_iff _).mp ready).1]
      nofun
    have marked : s.judgeClosure.finisher.abandoned = true := by
      rcases closure.ended with e | e
      · exact e
      · rw [e] at some
        exact absurd rfl some
    have ejects : ∀ part, (s.judgeClosure.enterEjecting part).finisher.forsaken := fun part => by
      rw [Part.enterEjecting_finisher]
      exact closure.goesOn rfl rfl some nofun
    rcases k with ⟨-, -, e⟩ | ⟨-, -, -, -, -, unmarked, -⟩ | ⟨-, -, -, e⟩ | ⟨-, e⟩
    · rw [e, Part.completeEject_final rfl]
      exact Finisher.reset_forsaken
    · rw [marked] at unmarked
      cases unmarked
    · rw [e]
      exact ejects false
    · rw [e]
      exact ejects true

theorem Part.judgeSet_forsaken (h : s.finisher.forsaken) : s.judgeSet.finisher.forsaken :=
  Part.judgeFinisher_forsaken (by rwa [s.judgeGates_via.finisher_eq rfl])

theorem Part.retain_forsaken (h : s.finisher.forsaken) : s.retain.finisher.forsaken := by
  rw [Part.retain_finisher]
  split
  · next e => exact h.goesOn rfl rfl (by rw [e]; nofun) nofun
  · exact h

/-- A jam that no sheet stopped the stapler for retains the set at most (R153). -/
theorem Part.takeJam_forsaken (h : s.finisher.forsaken) (j : Jam) : (s.takeJam j).finisher.forsaken := by
  have opens : (s.openEpisode j 0).finisher.forsaken := by
    rw [Part.openEpisode_eq, (Part.countPath_via ..).finisher_eq rfl, (Part.noteRecord_via ..).finisher_eq rfl, Part.openCore_finisher]
    exact Part.retain_forsaken h
  unfold Part.takeJam
  split
  · rwa [(Part.holdOver_via s j).finisher_eq rfl]
  · exact h
  · split
    · exact opens
    · exact h
  · exact opens
  · exact opens
  · exact opens
  · rwa [(Part.extendHalting_via s j).finisher_eq rfl]
  · rwa [(s.addRecord_via j).finisher_eq rfl]
  · rwa [(Part.abandonSweep_via ..).finisher_eq rfl, (s.addRecord_via j).finisher_eq rfl]

theorem Part.judgeStart_forsaken (h : s.finisher.forsaken) : s.judgeStart.finisher.forsaken := by
  have selector : s.judgeSelector.finisher.forsaken := by rwa [s.judgeSelector_via.finisher_eq rfl]
  unfold Part.judgeStart
  dsimp only
  split
  · rw [Part.enterStarting_eq]
    generalize s.judgeSelector = b at selector
    have entered : b.enterPath.finisher.forsaken := by rwa [b.enterPath_via.finisher_eq rfl]
    split
    · rwa [b.start_starts.2.2.finisher_eq rfl]
    · next st rest _ =>
      refine List.foldlRecOn (motive := fun b : Part => b.finisher.forsaken) (st :: rest) _ entered fun b h st' _ => ?_
      exact Part.takeJam_forsaken (by rwa [(b.countStation_via st' 2).finisher_eq rfl]) _
  · exact selector

theorem Part.makePick_forsaken (h : s.finisher.forsaken) (n : NextPage) : (s.makePick n).finisher.forsaken := by
  rw [Part.makePick_eq]
  refine Part.judgeFinisher_forsaken ?_
  rwa [(Part.judgeGates_via _).finisher_eq rfl, (Part.countPath_via ..).finisher_eq rfl, (Part.countTray_via ..).finisher_eq rfl,
    (s.pickCore_via n).finisher_eq rfl]

theorem Part.judgeFeed_forsaken (h : s.finisher.forsaken) : s.judgeFeed.finisher.forsaken := by
  by_cases idle : s.feed.path = .idle
  · rw [Part.judgeFeed_idle idle]
    exact Part.judgeStart_forsaken h
  · rcases Part.judgeFeed_feeds idle with k | ⟨u, n, k, -, l⟩
    · rwa [k.1.finisher_eq rfl]
    · rw [l.1.finisher_eq rfl]
      exact Part.makePick_forsaken (by rwa [k.1.finisher_eq rfl]) n

theorem Part.startSweep_forsaken (h : s.finisher.forsaken) : s.startSweep.finisher.forsaken := by
  cases dry : s.dry.on with
  | true =>
    rw [Part.startSweep_dry dry, Part.planBuild_finisher]
    split
    · exact Finisher.reset_forsaken
    · rwa [(s.setPath_via .sweeping).finisher_eq rfl]
  | false =>
    have course := s.startSweep_sweeps.course
    rw [if_neg (by rw [dry]; exact Bool.false_ne_true)] at course
    obtain ⟨-, -, -, finisher, -⟩ := course
    rwa [finisher]

theorem Part.judge_forsaken (h : s.finisher.forsaken) : s.judge.finisher.forsaken := by
  rw [Part.judge_eq]
  refine Part.judgeFeed_forsaken ?_
  unfold Part.judgeClearance
  split
  · exact Part.startSweep_forsaken (Part.judgeSet_forsaken h)
  · exact Part.judgeSet_forsaken h

/-! ## The clearance (R124) -/

theorem Finisher.abandon_paperExpected (f : Finisher) : f.abandon.paperExpected = f.paperExpected ∧ f.abandon.busy = f.busy := by
  have sheets : f.abandon.sheets.isEmpty = f.sheets.isEmpty := List.isEmpty_map
  have state : f.abandon.state = if f.state = .faulted then .retained else f.state := rfl
  have disturbed : f.abandon.disturbed = f.disturbed := rfl
  unfold Finisher.paperExpected Finisher.busy
  rw [sheets, state, disturbed]
  cases f.state <;> refine ⟨by simp, by decide⟩

/-- A set judged is clear only where it was. -/
theorem Part.clear_of_judgeSet (h : s.judgeSet.clear = true) : s.clear = true := by
  have via := s.judgeSet_via
  by_cases going : s.episode.isOpen = true ∨ s.finisher.state ≠ .compiling
  · rw [← h]
    rcases Part.judgeSet_closes going with e | e
    · exact (Part.clear_of (via.lines_eq rfl) (via.force_eq rfl) s.judgeSet_on (by rw [e]) (by rw [e])).symm
    · exact (Part.clear_of (via.lines_eq rfl) (via.force_eq rfl) s.judgeSet_on (by rw [e]; rfl) (by rw [e]; rfl)).symm
  · have compiling : s.finisher.state = .compiling := not_not.mp fun k => going (.inr k)
    have retained : s.judgeSet.finisher.state ≠ .retained := Part.judgeSet_never ⟨nofun, nofun, nofun⟩ (by rw [compiling]; nofun)
    have faulted : s.judgeSet.finisher.state ≠ .faulted := Part.judgeSet_never ⟨nofun, nofun, nofun⟩ (by rw [compiling]; nofun)
    have expected : s.judgeSet.finisher.paperExpected = false := by simp [Finisher.paperExpected, retained, faulted]
    have before : s.finisher.paperExpected = false := by simp [Finisher.paperExpected, compiling]
    have same : ({ s with finisher := s.judgeSet.finisher } : Part).clear = true := by
      rw [← h]
      exact Part.clear_of (via.lines_eq rfl).symm (via.force_eq rfl).symm s.judgeSet_on.symm rfl rfl
    obtain ⟨doors, paper, tray, -⟩ := (Part.clear_spelled _).mp same
    refine (Part.clear_spelled s).mpr ⟨doors, paper, ?_, by rw [compiling]; nofun, by rw [compiling]; nofun⟩
    have tray : (s.trayPaper && !s.judgeSet.finisher.paperExpected) = false := tray
    unfold Part.strayTrayPaper
    rw [expected] at tray
    rw [before]
    exact tray

/-! ## In HELD -/

theorem Part.judge_held (held : s.feed.path = .held) :
    s.judge = if s.judgeSet.autoSweepReady then s.judgeSet.startSweep else s.judgeSet := by
  have feed := s.judgeSet_via.feed_eq rfl
  rw [Part.judge_eq]
  unfold Part.judgeClearance
  split
  · exact Part.judgeFeed_rests s.judgeSet.startSweep_sweeps.rests
  · exact Part.judgeFeed_rests (by rw [feed]; exact PathState.rests_of_held held)

/-! ## The sheets and the list where no plan is built -/

/-- Outside a plan build and a RESIDUAL episode every sheet of the table stays as it is. -/
theorem Part.judge_keeps (fresh : s.fresh) (unbuilt : ¬ (s.feed.path = .held ∧ s.dry.on = true ∧ s.judgeSet.autoSweepReady = true))
    (started : s.feed.path = .idle → s.judge.feed.path.inEpisode = false) :
    s.drawsList s.judge ∧ ∀ y ∈ s.table.sheets, y ∈ s.judge.table.sheets := by
  have via := s.judgeSet_via
  have feed := via.feed_eq rfl
  have same : s.judgeSet.table = s.table := via.table_eq rfl
  by_cases held : s.feed.path = .held
  · have planner : s.judge.planner = s.planner ∧ s.judge.table = s.table := by
      rw [Part.judge_held held]
      split
      · next ready =>
        have dry : s.judgeSet.dry.on = false := by
          rw [s.judgeSet_on]
          exact Bool.eq_false_iff.mpr fun on => unbuilt ⟨held, on, ready⟩
        have course := s.judgeSet.startSweep_sweeps.course
        rw [if_neg (by rw [dry]; exact Bool.false_ne_true)] at course
        obtain ⟨-, table, planner, -⟩ := course
        exact ⟨planner.trans (via.planner_eq rfl), table.trans same⟩
      · exact ⟨via.planner_eq rfl, same⟩
    exact ⟨Part.drawsList_of planner.1 (Part.faces_of_table planner.2), fun y hy => planner.2 ▸ hy⟩
  · refine ⟨Part.judge_drawsList (.inl held), fun y hy => ?_⟩
    by_cases tracks : s.feed.path.tracks = true
    · exact ((Part.judge_tracksOn tracks).1.mem_iff fresh (fresh y hy).ne).mpr hy
    · by_cases idle : s.feed.path = .idle
      · have idle' : s.judgeSet.feed.path = .idle := by rw [feed, idle]
        have calm := started idle
        rw [Part.judge_unheld held, Part.judgeFeed_idle idle'] at calm ⊢
        have table : s.judgeSet.judgeStart.table = s.judgeSet.table := by
          have selector := s.judgeSet.judgeSelector_via.table_eq rfl
          unfold Part.judgeStart at calm ⊢
          dsimp only at calm ⊢
          split at calm
          · next ready =>
            rw [if_pos ready]
            rcases s.judgeSet.judgeSelector.enterStarting_cases with ⟨-, e⟩ | ⟨-, st, -, opened⟩
            · rw [e, s.judgeSet.judgeSelector.start_starts.2.2.table_eq rfl, selector]
            · rcases opened.path with e | e <;> rw [e] at calm <;> cases calm
          · next ready => rw [if_neg ready, selector]
        rw [table, same]
        exact hy
      · have rests : s.feed.path.rests := ⟨idle, fun e => tracks (by rw [e]; rfl), fun e => tracks (by rw [e]; rfl)⟩
        rw [Part.judge_rests_unheld rests held, same]
        exact hy

end Sys2Proof.Machine
end

