-- ==== Sys2Proof/Proofs/JobAbandoned.lean ====
section
/-! PROOF. ABANDON JOB (O11). -/

namespace Sys2Proof.Machine

variable {s t u p a : Part} {x : Slot} {y : Sheet} {job : Nat} {i : Fin 8} {c : Queue}

/-! ## The withdrawn part judged -/

theorem Part.withdrawn_path (s : Part) (job : Nat) (i : Fin 8) (c : Queue) : (s.withdrawn job i c).feed.path = s.feed.path := by
  rw [s.withdrawn_feed]
  rfl

theorem Part.withdrawn_nextSheet (s : Part) (job : Nat) (i : Fin 8) (c : Queue) :
    (s.withdrawn job i c).feed.nextSheet = s.feed.nextSheet := by
  rw [s.withdrawn_feed]
  rfl

theorem Part.withdrawn_clear (s : Part) (job : Nat) (i : Fin 8) (c : Queue) : (s.withdrawn job i c).clear = s.clear := by
  have via := s.withdrawn_via job i c
  obtain ⟨expected, busy⟩ := s.finisher.abandon_paperExpected
  refine Part.clear_of (via.lines_eq rfl) (via.force_eq rfl) (by rw [via.dry_eq rfl]) ?_ ?_
  · rw [s.withdrawn_finisher]
    split
    · exact expected
    · rfl
  · rw [s.withdrawn_finisher]
    split
    · exact busy
    · rfl

/-- In HELD the sweep that follows builds the plan. -/
abbrev Part.builds (s : Part) : Prop :=
  s.feed.path = .held ∧ s.dry.on = true ∧ s.clearance ∧ s.force.timing.autoSweep = true ∧ s.episode.barred = false

theorem Part.withdrawn_unbuilt (h : ¬ s.builds) : ¬ ((s.withdrawn job i c).feed.path = .held ∧ (s.withdrawn job i c).dry.on = true ∧
    (s.withdrawn job i c).judgeSet.autoSweepReady = true) := by
  rintro ⟨held, on, ready⟩
  have via := s.withdrawn_via job i c
  have judged := (s.withdrawn job i c).judgeSet_via
  obtain ⟨-, clear, auto, barred⟩ := (Part.autoSweepReady_iff _).mp ready
  refine h ⟨by rw [← held, s.withdrawn_path], by rw [← on, via.dry_eq rfl], ?_, by rw [← auto, judged.force_eq rfl, via.force_eq rfl],
    by rw [← barred, judged.episode_eq rfl, via.episode_eq rfl]⟩
  rw [← Part.clear_iff, ← s.withdrawn_clear job i c]
  exact Part.clear_of_judgeSet clear

theorem Part.withdrawn_ready (h : s.builds) : (s.withdrawn job i c).autoSweepReady = true := by
  obtain ⟨held, -, clearance, auto, barred⟩ := h
  have via := s.withdrawn_via job i c
  rw [Part.autoSweepReady_iff, s.withdrawn_path, s.withdrawn_clear, via.force_eq rfl, via.episode_eq rfl]
  exact ⟨held, (Part.clear_iff s).mpr clearance, auto, barred⟩

theorem Part.withdrawn_numbers (s : Part) (sound : (s.table.sheets.map Sheet.number).Pairwise (· < ·)) (job : Nat) (i : Fin 8) (c : Queue) :
    (s.withdrawn job i c).table.sheets.map Sheet.number = s.table.sheets.map Sheet.number := by
  rw [s.withdrawn_sheets sound, List.map_map]
  refine List.map_congr_left fun y _ => ?_
  simp only [Function.comp_apply]
  split
  · exact s.givenUp_number y
  · rfl

theorem Part.withdrawn_fresh (sound : s.tableSound) : (s.withdrawn job i c).fresh := by
  intro y hy
  have mem := List.mem_map_of_mem (f := Sheet.number) hy
  rw [s.withdrawn_numbers sound.1] at mem
  obtain ⟨z, hz, number⟩ := List.mem_map.mp mem
  rw [s.withdrawn_nextSheet, ← number]
  exact sound.2.1 z hz

/-! ## The sheets reached show no page any more -/

/-- Where the sheets of an episode or on their way are judged no sheet joins but a pick's. -/
theorem Part.judge_from (fresh : s.fresh) (h : s.feed.path.tracks = true ∨ s.feed.path = .held ∨ s.feed.path = .sweeping)
    (hy : y ∈ s.judge.table.sheets) (old : y.number < s.feed.nextSheet) : y ∈ s.table.sheets := by
  have same : s.judgeSet.table = s.table := s.judgeSet_via.table_eq rfl
  rcases h with tracks | held | sweeping
  · exact ((Part.judge_tracksOn tracks).1.mem_iff fresh old.ne).mp hy
  · rw [Part.judge_held held] at hy
    rw [← same]
    split at hy
    · exact s.judgeSet.startSweep_sweeps.sheets.subset hy
    · exact hy
  · rwa [Part.judge_rests_unheld (by rw [sweeping]; exact ⟨nofun, nofun, nofun⟩) (by rw [sweeping]; nofun), same] at hy

theorem reached_path (h : reached s job y = true) : s.feed.path.tracks = true ∨ s.feed.path = .held ∨ s.feed.path = .sweeping := by
  unfold reached at h
  rw [Bool.and_eq_true] at h
  have h := h.2
  cases path : s.feed.path <;> simp [path, PathState.tracks] at h ⊢

theorem Part.withdrawn_reached (sound : s.tableSound) (hy : y ∈ s.table.sheets) (h : reached s job y = true) :
    ∀ z ∈ (s.withdrawn job i c).judge.table.sheets, z.number = y.number → z.front = none ∧ z.back = none ∧ z.released = true := by
  intro z hz number
  have below : z.number < (s.withdrawn job i c).feed.nextSheet := by
    rw [s.withdrawn_nextSheet, number]
    exact sound.2.1 y hy
  have mem := Part.judge_from (Part.withdrawn_fresh sound) (by rw [s.withdrawn_path]; exact reached_path h) hz below
  rw [s.withdrawn_sheets sound.1] at mem
  obtain ⟨v, hv, e⟩ := List.mem_map.mp mem
  have same : v = y := by
    refine sheet_unique sound.1 hv hy ?_
    rw [← number, ← e]
    split
    · exact (s.givenUp_number v).symm
    · rfl
  rw [same, if_pos h] at e
  rw [← e]
  exact s.givenUp_released y

/-! ## The plan built at once (R126, R136) -/

theorem flatMap_filter_if {α β : Type} (f g : α → Bool) (h : α → List β) (l : List α) :
    (l.filter f).flatMap (fun y => if g y = true then [] else h y) = (l.filter fun y => f y && !g y).flatMap h := by
  induction l with
  | nil => rfl
  | cons v l ih =>
    cases hf : f v <;> cases hg : g v <;> simp [hf, hg, ih]

theorem reached_stranded (held : s.feed.path = .held) (h : reached s job y = true) : y.cond = .stranded := by
  unfold reached at h
  rw [if_pos (.inr (.inl held)), Bool.and_eq_true, Bool.and_eq_true, beq_iff_eq, beq_iff_eq] at h
  exact h.2.1

theorem Part.withdrawn_builds (sound : s.tableSound) (h : s.builds) (isOpen : s.episode.isOpen = true) :
    (s.withdrawn job i c).builtPlan (s.withdrawn job i c).judge := by
  have via := s.withdrawn_via job i c
  have held : (s.withdrawn job i c).feed.path = .held := by rw [s.withdrawn_path, h.1]
  have isOpen : (s.withdrawn job i c).episode.isOpen = true := by rw [via.episode_eq rfl, isOpen]
  have on : (s.withdrawn job i c).dry.on = true := by rw [via.dry_eq rfl, h.2.1]
  have order : ((s.withdrawn job i c).table.sheets.map Sheet.number).Pairwise (· < ·) := by
    rw [s.withdrawn_numbers sound.1]
    exact sound.1
  have ready := Part.withdrawn_ready (job := job) (i := i) (c := c) h
  generalize s.withdrawn job i c = a at *
  have set := a.judgeSet_via
  obtain ⟨same, disturbed, sheets⟩ := Part.judgeSet_ready isOpen
  rw [Part.judge_held held, if_pos (same.trans ready)]
  have course := a.judgeSet.startSweep_sweeps.course
  rw [if_pos (by rw [a.judgeSet_on, on])] at course
  exact (course.2 (by rwa [set.table_eq rfl])).of_closed (set.planner_eq rfl) (set.table_eq rfl) disturbed sheets

/-- The plan of what ABANDON JOB left. -/
theorem Part.withdrawn_plan (sound : s.tableSound) (h : s.builds) (isOpen : s.episode.isOpen = true) :
    let q := (s.withdrawn job i c).judge
    q.feed.path = .resumable ∧ q.table.sheets = s.table.sheets.filter (fun y => y.cond != .stranded) ∧
      q.planner.list.Perm ((s.planner.list.filter fun y => y.page.job != job)
        ++ ((s.table.sheets.filter fun y => y.cond == .stranded && !reached s job y).flatMap Sheet.pages).map (⟨·, .stranded⟩)
        ++ if s.finisher.disturbed = true ∧ s.finisher.ident.map Prod.fst ≠ some job then
            (s.finisher.sheets.flatMap Held.pages).map (⟨·, .setRestart⟩) else []) := by
  obtain ⟨path, -, -, list, sheets, -⟩ := Part.withdrawn_builds (job := job) (i := i) (c := c) sound h isOpen
  have cond : ∀ y ∈ s.table.sheets, (if reached s job y = true then s.givenUp y else y).cond = y.cond := fun y _ => by
    split
    · next reaches =>
      unfold Part.givenUp
      rw [if_pos (reached_stranded h.1 reaches)]
    · rfl
  have kept : ∀ f : Condition → Bool, (s.withdrawn job i c).table.sheets.filter (fun y => f y.cond) =
      (s.table.sheets.filter fun y => f y.cond).map fun y => if reached s job y = true then s.givenUp y else y := fun f => by
    rw [s.withdrawn_sheets sound.1, List.filter_map]
    exact congrArg _ (List.filter_congr fun y hy => congrArg f (cond y hy))
  refine ⟨path, ?_, ?_⟩
  · rw [sheets, kept (· != .stranded)]
    refine (List.map_congr_left fun y hy => ?_).trans (List.map_id _)
    rw [if_neg]
    · rfl
    · intro reaches
      have stranded := reached_stranded h.1 reaches
      have moving := (List.mem_filter.mp hy).2
      rw [stranded] at moving
      cases moving
  · have pages : ∀ y, (if reached s job y = true then s.givenUp y else y).pages = if reached s job y = true then [] else y.pages := fun y => by
      split
      · obtain ⟨front, back, -⟩ := s.givenUp_released y
        unfold Sheet.pages
        rw [front, back]
        rfl
      · rfl
    rw [s.withdrawn_list, kept (· == .stranded), List.flatMap_map] at list
    simp only [pages, flatMap_filter_if] at list
    refine list.trans (List.Perm.append_left _ (List.Perm.of_eq ?_))
    rw [s.withdrawn_finisher]
    by_cases own : s.finisher.ident.map Prod.fst = some job
    · have gone : ∀ l : List Held, (l.map fun h => { h with pages := [] }).flatMap Held.pages = [] := fun l => by
        rw [List.flatMap_map]
        exact List.flatMap_eq_nil_iff.mpr fun _ _ => rfl
      have ofJob := Finisher.ofJob_iff.mpr own
      have none : (s.finisher.abandon.sheets.flatMap Held.pages) = [] := gone _
      have other : ¬ (s.finisher.disturbed = true ∧ s.finisher.ident.map Prod.fst ≠ some job) := fun k => k.2 own
      rw [if_pos ofJob, none, if_neg other]
      split <;> rfl
    · rw [if_neg (mt Finisher.ofJob_iff.mp own)]
      exact if_congr (and_iff_left own).symm rfl rfl

/-! ## ABANDON JOB (R40) -/

/-- Part `q` is `p` after ABANDON JOB, but for its reply. -/
structure Part.jobEnded (p : Part) (job : Nat) (i : Fin 8) (x : Slot) (q : Part) : Prop where
  queues : ∀ c : Queue, drawn p.feed.path ((p.intake.queue c).filter fun y => y.job != job) (q.intake.queue c)
  lowNormal : x.queue = .normal → q.intake.lowNormal = decide (q.intake.normal.length < p.force.timing.markNormal)
  lowPriority : x.queue = .priority → q.intake.lowPriority = decide (q.intake.priority.length < p.force.timing.markPriority)
  kept : ¬ p.builds → (p.feed.path = .idle → q.feed.path.inEpisode = false) →
    drawn p.feed.path (p.planner.list.filter fun y => y.page.job != job) q.planner.list ∧
    ∀ y ∈ p.table.sheets, (if reached p job y = true then p.givenUp y else y) ∈ q.table.sheets
  plan : p.builds → p.episode.isOpen = true →
    q.feed.path = .resumable ∧ q.table.sheets = p.table.sheets.filter (fun y => y.cond != .stranded) ∧
    q.planner.list.Perm ((p.planner.list.filter fun y => y.page.job != job)
      ++ ((p.table.sheets.filter fun y => y.cond == .stranded && !reached p job y).flatMap Sheet.pages).map (⟨·, .stranded⟩)
      ++ if p.finisher.disturbed = true ∧ p.finisher.ident.map Prod.fst ≠ some job then
          (p.finisher.sheets.flatMap Held.pages).map (⟨·, .setRestart⟩) else [])
  revised : p.feed.path = .resumable → if (∃ y ∈ p.planner.list, y.page.job = job) then
    q.planner.revision = p.planner.revision + 1 ∧ q.planner.readThrough = false ∧ q.notices.planReady = true
    else q.planner = p.planner
  released : ∀ y ∈ p.table.sheets, reached p job y = true → ∀ z ∈ q.table.sheets, z.number = y.number →
    z.front = none ∧ z.back = none ∧ z.released = true
  set : p.finisher.ident.map Prod.fst = some job → q.finisher.forsaken
  slot : q.intake.slots[i] = (if x.accepted = x.delivered + (x.abandoned + removedBy p job) ∧ p.notices.progress[i] = false ∧
      (removedBy p job = 0 ∨ p.mask.progress = false) then none
    else some { x with abandoned := x.abandoned + removedBy p job, closed := true })
  others : ∀ j : Fin 8, j ≠ i → q.intake.slots[j] = p.intake.slots[j]

theorem Part.lowJudged.normal {q : Part} (h : q.lowJudged c) (force : q.force = p.force) (own : c = .normal) :
    q.intake.lowNormal = decide (q.intake.normal.length < p.force.timing.markNormal) := by
  subst own
  unfold Part.lowJudged Part.mark at h
  rw [force] at h
  exact h

theorem Part.lowJudged.priority {q : Part} (h : q.lowJudged c) (force : q.force = p.force) (own : c = .priority) :
    q.intake.lowPriority = decide (q.intake.priority.length < p.force.timing.markPriority) := by
  subst own
  unfold Part.lowJudged Part.mark at h
  rw [force] at h
  exact h

theorem Part.withdrawn_judge (sound : s.tableSound) (hx : s.intake.slots[i] = some x) :
    s.jobEnded job i x (s.withdrawn job i x.queue).judge := by
  have via := s.withdrawn_via job i x.queue
  have path := s.withdrawn_path job i x.queue
  obtain ⟨queue, slots⟩ := (s.withdrawn job i x.queue).judge_draws
  obtain ⟨own, others⟩ := s.withdrawn_slots (job := job) hx x.queue
  rw [s.abandonCount_eq] at own
  have low := Part.judge_low _ (s.withdrawn_low job i x.queue)
  have force : (s.withdrawn job i x.queue).judge.force = s.force := by rw [(Part.judge_via _).force_eq rfl, via.force_eq rfl]
  constructor
  case queues =>
    intro c
    have drawn := queue c
    rwa [path, s.withdrawn_queue] at drawn
  case lowNormal => exact low.normal force
  case lowPriority => exact low.priority force
  case kept =>
    intro unbuilt calm
    obtain ⟨⟨list, -⟩, sheets⟩ := Part.judge_keeps (Part.withdrawn_fresh sound) (Part.withdrawn_unbuilt unbuilt) (by rwa [path])
    rw [path, s.withdrawn_list] at list
    refine ⟨list, fun y hy => sheets _ ?_⟩
    rw [s.withdrawn_sheets sound.1]
    exact List.mem_map_of_mem (f := fun y => if reached s job y = true then s.givenUp y else y) hy
  case plan => exact fun builds isOpen => Part.withdrawn_plan sound builds isOpen
  case revised =>
    intro resumable
    have judged := (s.withdrawn job i x.queue).judge_via
    have still : (s.withdrawn job i x.queue).judge.planner = (s.withdrawn job i x.queue).planner := by
      rw [Part.judge_rests_unheld (by rw [path, resumable]; exact ⟨nofun, nofun, nofun⟩) (by rw [path, resumable]; nofun)]
      exact (Part.judgeSet_via _).planner_eq rfl
    have planner := s.withdrawn_planner job i x.queue resumable
    have told := (s.withdrawn job i x.queue).judge_hears.planReady
    split
    · next h =>
      rw [if_pos h] at planner
      obtain ⟨revision, unread, ready⟩ := planner
      rw [still]
      exact ⟨revision, unread, told ready⟩
    · next h =>
      rw [if_neg h] at planner
      rw [still, planner]
  case released => exact fun y hy h => Part.withdrawn_reached sound hy h
  case set =>
    intro own
    refine Part.judge_forsaken ?_
    rw [s.withdrawn_finisher, if_pos (Finisher.ofJob_iff.mpr own)]
    exact s.finisher.abandon_forsaken
  case slot => rw [slots, own]
  case others =>
    intro j hj
    rw [slots]
    exact others j hj

theorem abandonJob_asked (p : Part) (job : Byte) : answerFrame ⟨0x10, [job]⟩ p = p.answerAbandon [job] := rfl

theorem Part.answerAbandon_taken {job : Byte} (configured : s.feed.path ≠ .unconfigured) (has : s.intake.slotOf job.toNat = some i)
    (hx : s.intake.slots[i] = some x) :
    s.answerAbandon [job] = ⟨(s.withdrawn job.toNat i x.queue).judge, .done, bytesOf 2 (removedBy s job.toNat)⟩ := by
  have here : s.intake.slot? job.toNat = some x := by
    unfold Intake.slot?
    rw [has]
    exact hx
  unfold Part.answerAbandon
  rw [numAt_singleton, if_neg configured, has, here]
  dsimp only
  rw [s.closeAbandoned_eq, s.abandonCount_eq]

theorem Part.answerAbandon_unknown {job : Byte} (configured : s.feed.path ≠ .unconfigured) (none : s.intake.slotOf job.toNat = none) :
    s.answerAbandon [job] = s.refuse .unknownJob := by
  unfold Part.answerAbandon
  rw [numAt_singleton, if_neg configured, none]

/-- The tick and the Link Unit bear on none of it. -/
theorem Part.jobEnded.of_found {t : Tick} {kind : Byte} {b : List Byte} {q : Part} (h : (p.found t kind b).jobEnded job i x q) :
    p.jobEnded job i x q := by
  obtain ⟨queues, normal, priority, kept, plan, revised, released, set, slot, others⟩ := h
  exact ⟨queues, normal, priority, kept, plan, revised, released, set, slot, others⟩

/-- Settles O11. -/
theorem abandonJob : Obligations.AbandonJob := by
  unfold Obligations.AbandonJob
  intro w p t job hs configured sound
  have path : (p.found t 0x10 [job]).feed.path ≠ .unconfigured := configured
  have asked := abandonJob_asked (p.found t 0x10 [job]) job
  refine ⟨fun none => ?_, fun i has x hx => ?_⟩
  · exact exec_unchanged (c := .abandonJob t [job]) (s := ⟨w, p⟩) rfl hs .unknownJob []
      (asked.trans (Part.answerAbandon_unknown path none))
  · have taken := asked.trans (Part.answerAbandon_taken path has hx)
    have ended := (Part.withdrawn_judge (s := p.found t 0x10 [job]) (job := job.toNat) (i := i) (x := x) sound hx).of_found
    have moves : Moves .inner .settled (p.found t 0x10 [job]) .settled ((p.found t 0x10 [job]).withdrawn job.toNat i x.queue).judge :=
      (((Move.abandon job.toNat i path has rfl).moves.trans (Move.judgeIntakeLow x.queue).moves).trans (Move.examineSlot i).moves).trans
        (Part.judge_moves _)
    have count : removedBy (p.found t 0x10 [job]) job.toNat = removedBy p job.toNat := rfl
    rw [count] at taken
    generalize ((p.found t 0x10 [job]).withdrawn job.toNat i x.queue).judge = q at taken ended moves
    obtain ⟨queues, normal, priority, kept, plan, revised, released, set, slot, others⟩ := ended
    refine completes_of (c := .abandonJob t [job]) (s := ⟨w, p⟩) rfl hs taken moves.inner_eq.2.2.1
      ⟨repliedTo_of moves, queues, ?_, kept, plan, revised, released, fun own => ?_, slot, others⟩
    · split
      · next e => exact normal e
      · next e => exact priority e
    · obtain ⟨pages, state, ended⟩ := set own
      exact ⟨pages, state, ended⟩

end Sys2Proof.Machine
end

