-- ==== Sys2Proof/Proofs/PathClosed.lean ====
section
/-! PROOF. A PATH CLOSE that passes (O7). -/

namespace Sys2Proof.Machine

variable {s t u p q r : Part}

/-! ## The conditions judged (R38, R58, R103, R117) -/

theorem Part.judgeDoors_active (l : List (Fin 8)) (s : Part) (d : Fin 8) :
    (l.foldl Part.judgeDoor s).episode.doorActive[d] = if d ∈ l then s.doorIsOpen d else s.episode.doorActive[d] := by
  induction l generalizing s with
  | nil => rfl
  | cons e l ih =>
    have doors : (s.judgeDoor e).doorIsOpen d = s.doorIsOpen d := rfl
    have active : (s.judgeDoor e).episode.doorActive = s.episode.doorActive.set e (s.doorIsOpen e) := rfl
    rw [List.foldl_cons, ih, doors, active]
    by_cases later : d ∈ l
    · rw [if_pos later, if_pos (List.mem_cons_of_mem _ later)]
    · rw [if_neg later]
      by_cases own : d = e
      · rw [own, if_pos List.mem_cons_self, Fin.getElem_fin, Vector.getElem_set_self]
      · rw [if_neg (by simp [own, later]), Fin.getElem_fin, Vector.getElem_set_ne _ _ (fun k => own (Fin.ext k.symm))]
        rfl

/-- DOOR, TRAY EMPTY, BIN FULL and PURGE FULL say what the lines, the description and dry run say. -/
structure Part.judgedAll (s : Part) : Prop where
  doors : ∀ d : Fin 8, s.episode.doorActive[d] = s.doorIsOpen d
  trays : ∀ u : Fin 5, s.feed.trayEmpty[u] = !s.trayAvailable u
  bins : ∀ i : Fin 2, s.feed.binFull[i] = s.binIsFull i
  purge : s.gate.purgeFull = !s.reserveMet

/-- They stand while nothing they look at moves. -/
theorem Part.judgedAll.stands (h : s.judgedAll) (doors : s.sameDoors t) (supplies : s.sameSupplies t) (gate : t.gate = s.gate)
    (force : t.force = s.force) (lines : t.lines = s.lines) (dry : t.dry.on = s.dry.on) : t.judgedAll := by
  have level : t.levelOf = s.levelOf := by
    funext k
    unfold Part.levelOf
    rw [force, lines]
  have door : ∀ d, t.doorIsOpen d = s.doorIsOpen d := fun d => by
    unfold Part.doorIsOpen
    rw [force, level]
  have tray : ∀ v, t.trayAvailable v = s.trayAvailable v := fun v => by
    unfold Part.trayAvailable
    rw [dry, level]
  have bin : ∀ i, t.binIsFull i = s.binIsFull i := fun i => by
    unfold Part.binIsFull
    rw [dry, level]
  have reserve : t.reserveMet = s.reserveMet := by
    unfold Part.reserveMet
    rw [dry, gate, force]
  unfold Part.sameDoors at doors
  refine ⟨fun d => ?_, fun v => ?_, fun i => ?_, ?_⟩
  · rw [doors, door, h.doors]
  · rw [supplies.1, tray, h.trays]
  · rw [supplies.2, bin, h.bins]
  · rw [gate, reserve, h.purge]

/-- The supplies and the purge reserve judged. -/
theorem Part.judgeAll_judged (s : Part) : let a := s.judgeSupplies.judgePurgeFull
    (∀ v : Fin 5, a.feed.trayEmpty[v] = !a.trayAvailable v) ∧ (∀ i : Fin 2, a.feed.binFull[i] = a.binIsFull i) ∧
      a.gate.purgeFull = (!a.reserveMet) ∧ a.gate.purgeCount = s.gate.purgeCount := by
  intro a
  obtain ⟨n, all⟩ := s.judgeAll_eq
  have tray : a.trayAvailable = s.trayAvailable := by
    funext v
    unfold Part.trayAvailable Part.levelOf
    rw [show a = _ from all]
  have bin : a.binIsFull = s.binIsFull := by
    funext v
    unfold Part.binIsFull Part.levelOf
    rw [show a = _ from all]
  have reserve : a.reserveMet = s.reserveMet := by
    unfold Part.reserveMet
    rw [show a = _ from all]
  rw [tray, bin, reserve, show a = _ from all]
  exact ⟨fun v => Vector.getElem_ofFn .., fun i => Vector.getElem_ofFn .., rfl, rfl⟩

theorem Part.judgeDoors_via (s : Part) : Via [.notices, .episode] s ((List.finRange 8).foldl Part.judgeDoor s) :=
  Via.fold (A := [.notices, .episode]) (.refl s) (List.finRange 8) fun p d => p.judgeDoor_via d

theorem Part.closeConditions_of (a : Part) (trays : ∀ v : Fin 5, a.feed.trayEmpty[v] = !a.trayAvailable v)
    (bins : ∀ i : Fin 2, a.feed.binFull[i] = a.binIsFull i) (purge : a.gate.purgeFull = !a.reserveMet) :
    ((List.finRange 8).foldl Part.judgeDoor a).judgedAll := by
  have doors := a.judgeDoors_active (List.finRange 8)
  have via := a.judgeDoors_via
  generalize (List.finRange 8).foldl Part.judgeDoor a = b at doors via
  have base : ({ a with episode := { a.episode with doorActive := .ofFn a.doorIsOpen } } : Part).judgedAll :=
    ⟨fun d => Vector.getElem_ofFn .., trays, bins, purge⟩
  refine base.stands (Vector.ext fun k hk => ?_) (Part.sameSupplies_of (via.feed_eq rfl)) (via.gate_eq rfl) (via.force_eq rfl)
    (via.lines_eq rfl) (by rw [via.dry_eq rfl])
  have row := doors ⟨k, hk⟩
  rw [if_pos (List.mem_finRange _)] at row
  exact row.trans (Vector.getElem_ofFn ..).symm

theorem Part.closeConditions_judged (s : Part) : s.closeConditions.judgedAll ∧ s.closeConditions.gate.purgeCount = s.gate.purgeCount := by
  have low : Via [.notices, .intake] s ((s.judgeIntakeLow .normal).judgeIntakeLow .priority) :=
    (Part.judgeIntakeLow_via s .normal).trans (Part.judgeIntakeLow_via _ .priority)
  unfold Part.closeConditions
  generalize (s.judgeIntakeLow .normal).judgeIntakeLow .priority = b at low ⊢
  obtain ⟨trays, bins, purge, count⟩ := b.judgeAll_judged
  generalize b.judgeSupplies.judgePurgeFull = a at *
  have judged := a.closeConditions_of trays bins purge
  have via := a.judgeDoors_via
  generalize (List.finRange 8).foldl Part.judgeDoor a = e at *
  have dropped : Via [.notices] e e.dropDoorNotices := Via.notices (.refl e) _ rfl
  refine ⟨judged.stands (Part.sameDoors_of (dropped.episode_eq rfl)) (Part.sameSupplies_of (dropped.feed_eq rfl)) (dropped.gate_eq rfl)
    (dropped.force_eq rfl) (dropped.lines_eq rfl) (by rw [dropped.dry_eq rfl]), ?_⟩
  rw [dropped.gate_eq rfl, via.gate_eq rfl, count, low.gate_eq rfl]

theorem Part.judgeConditions_judged (s : Part) : s.judgeConditions.judgedAll ∧ s.judgeConditions.gate.purgeCount = s.gate.purgeCount := by
  obtain ⟨judged, count⟩ := s.closeConditions_judged
  rw [Part.judgeConditions_eq]
  split
  · have via : Via [.out] s.closeConditions s.closeConditions.restGates := Via.out (.refl _) _ rfl
    exact ⟨judged.stands (Part.sameDoors_of (via.episode_eq rfl)) (Part.sameSupplies_of (via.feed_eq rfl)) (via.gate_eq rfl)
      (via.force_eq rfl) (via.lines_eq rfl) (by rw [via.dry_eq rfl]), by rw [via.gate_eq rfl, count]⟩
  · exact ⟨judged, count⟩

theorem Part.judgeConditions_lists (s : Part) : s.judgeConditions.intake.normal = s.intake.normal ∧
    s.judgeConditions.intake.priority = s.intake.priority := by
  obtain ⟨-, normal, priority⟩ := s.judgeIntakeLow_slots .normal
  obtain ⟨-, normal', priority'⟩ := (s.judgeIntakeLow .normal).judgeIntakeLow_slots .priority
  have rest : ∀ a : Part, ((List.finRange 8).foldl Part.judgeDoor a.judgeSupplies.judgePurgeFull).dropDoorNotices.intake = a.intake :=
    fun a => by
      have doors := a.judgeSupplies.judgePurgeFull.judgeDoors_via
      exact (doors.intake_eq rfl).trans (((Part.judgePurgeFull_via _).intake_eq rfl).trans ((Part.judgeSupplies_via _).intake_eq rfl))
  have closed : s.closeConditions.intake = ((s.judgeIntakeLow .normal).judgeIntakeLow .priority).intake := rest _
  have same : s.judgeConditions.intake = s.closeConditions.intake := by
    rw [Part.judgeConditions_eq]
    split <;> rfl
  rw [same, closed]
  exact ⟨normal'.trans normal, priority'.trans priority⟩

/-- The episode but for its DOOR conditions. -/
def Episode.indoors (e : Episode) : Episode := { e with doorActive := .replicate 8 false }

theorem Part.judgeConditions_episode (s : Part) : s.judgeConditions.episode.indoors = s.episode.indoors := by
  have doors : ∀ a : Part, ((List.finRange 8).foldl Part.judgeDoor a).episode.indoors = a.episode.indoors := fun a =>
    foldl_keeps (f := Part.judgeDoor) (fun p => p.episode.indoors) (fun _ _ => rfl) (List.finRange 8) a
  have same : s.judgeConditions.episode = s.closeConditions.episode := by
    rw [Part.judgeConditions_eq]
    split <;> rfl
  have before : ∀ a : Part, a.judgeSupplies.judgePurgeFull.episode = a.episode := fun a =>
    ((Part.judgePurgeFull_via _).episode_eq rfl).trans ((Part.judgeSupplies_via a).episode_eq rfl)
  have low : Via [.notices, .intake] s ((s.judgeIntakeLow .normal).judgeIntakeLow .priority) :=
    (Part.judgeIntakeLow_via s .normal).trans (Part.judgeIntakeLow_via _ .priority)
  have dropped : ∀ a : Part, a.dropDoorNotices.episode = a.episode := fun _ => rfl
  rw [same, ← low.episode_eq rfl]
  unfold Part.closeConditions
  generalize (s.judgeIntakeLow .normal).judgeIntakeLow .priority = b
  rw [dropped, doors, before]

/-! ## A finisher fault held over (R119, R153) -/

theorem Part.heldOver_opens (kind : JamKind) (h : if s.finisher.disturbed = true ∧ s.finisher.sheets ≠ [] then kind = .doorOpen
      else (s.finisher.state = .faulted ∨ s.finisher.state = .retained) ∧ kind = .stapleFail) :
    s.heldOver = (s.modEpisode fun e => { e with heldOver := none }).openEpisode
      ⟨kind, none, none, some 8, none, if kind = .stapleFail then s.episode.heldOver.getD s.tick else s.tick, none, none⟩ 0 := by
  unfold Part.heldOver
  dsimp only
  split at h
  · next disturbed =>
    have e : (s.finisher.disturbed && !s.finisher.sheets.isEmpty) = true := by simpa using disturbed
    rw [if_pos e, h, if_neg nofun]
    rfl
  · next calm =>
    have e : ¬ (s.finisher.disturbed && !s.finisher.sheets.isEmpty) = true := by simpa using calm
    obtain ⟨state, rfl⟩ := h
    rw [if_neg e, if_pos (by simpa using state), if_pos rfl]
    rfl

theorem Part.heldOver_none (h : s.finisher.state ≠ .faulted ∧ s.finisher.state ≠ .retained ∧ s.finisher.disturbed = false) :
    s.heldOver = s.modEpisode fun e => { e with heldOver := none } := by
  obtain ⟨faulted, retained, undisturbed⟩ := h
  unfold Part.heldOver
  dsimp only
  rw [if_neg (by simp [undisturbed]), if_neg (by simp [faulted, retained])]

theorem Part.heldOver_judged (h : s.judgedAll) : s.heldOver.judgedAll ∧ s.heldOver.gate = s.gate := by
  have spent : (s.modEpisode fun e => { e with heldOver := none }).judgedAll := ⟨h.doors, h.trays, h.bins, h.purge⟩
  have opens : ∀ j, ((s.modEpisode fun e => { e with heldOver := none }).openEpisode j 0).judgedAll ∧
      ((s.modEpisode fun e => { e with heldOver := none }).openEpisode j 0).gate = s.gate := fun j => by
    have via := (s.modEpisode fun e => { e with heldOver := none }).openEpisode_via j 0
    refine ⟨spent.stands (Part.openEpisode_sameDoors ..) (Part.openEpisode_sameSupplies ..) (via.gate_eq rfl) (via.force_eq rfl)
      (via.lines_eq rfl) ?_, via.gate_eq rfl⟩
    rw [(Part.openEpisode_via_core _ j 0).dry_eq rfl]
    exact Dry.run_on (Part.openCore_run ..)
  unfold Part.heldOver
  dsimp only
  split
  · exact opens _
  · split
    · exact opens _
    · exact ⟨spent, rfl⟩

/-! ## The close (R15 to R17) -/

/-- The part PATH CLOSE comes to before it is judged. -/
def Part.closedTo (s : Part) : Part :=
  if s.feed.path = .unconfigured then s.putInForce.judgeConditions.enterIdle.heldOver else s.putInForce.judgeConditions

theorem Part.answerPathClose_eq (hd : s.definable = true) (hb : s.stored.badPath = none) : s.answerPathClose = s.closedTo.judge.done := by
  unfold Part.answerPathClose
  rw [if_pos hd, hb]
  rfl

theorem Part.enterIdle_judged (h : s.judgedAll) : s.enterIdle.judgedAll := by
  have via := s.enterIdle_via
  exact h.stands (Part.sameDoors_of (via.episode_eq rfl)) (by unfold Part.sameSupplies; rw [s.enterIdle_feed]; exact ⟨rfl, rfl⟩)
    (via.gate_eq rfl) (via.force_eq rfl) (via.lines_eq rfl) (by rw [via.dry_eq rfl])

theorem Part.closedTo_judged (s : Part) : s.closedTo.judgedAll ∧ s.closedTo.gate.purgeCount = s.gate.purgeCount := by
  obtain ⟨judged, count⟩ := s.putInForce.judgeConditions_judged
  rw [s.putInForce_via.gate_eq rfl] at count
  unfold Part.closedTo
  generalize s.putInForce.judgeConditions = a at judged count
  split
  · obtain ⟨held, gate⟩ := Part.heldOver_judged (Part.enterIdle_judged judged)
    exact ⟨held, by rw [gate, a.enterIdle_via.gate_eq rfl, count]⟩
  · exact ⟨judged, count⟩

theorem Part.judge_judged (h : s.judgedAll) : s.judge.judgedAll := by
  have via := s.judge_via
  exact h.stands s.judge_sameDoors s.judge_sameSupplies (via.gate_eq rfl) (via.force_eq rfl) (via.lines_eq rfl) s.judge_dry_on

/-- The leave of what follows once the description is in force. -/
def Mode.closePath : Mode :=
  { Mode.inner with doors := true, dryRun := false, learn := false, deliver := false, empty := false }

theorem Part.closedTo_moves (hd : s.definable = true) (hb : s.stored.badPath = none) :
    Moves .closePath .settled s.putInForce .settled s.closedTo.judge := by
  have moves := s.closePath_moves (q := .closePath) rfl hd hb
  rwa [Part.answerPathClose_eq hd hb] at moves

theorem Part.putInForce_inForce (s : Part) : s.putInForce.lines = s.lines.onClose s.force s.stored ∧ s.putInForce.force = s.stored :=
  ⟨rfl, rfl⟩

/-- What a PATH CLOSE that passes puts in force, and what it leaves alone. -/
theorem Part.closedTo_keeps (hd : s.definable = true) (hb : s.stored.badPath = none) :
    s.closedTo.judge.tick = s.tick ∧ s.closedTo.judge.lines = s.lines.onClose s.force s.stored ∧ s.closedTo.judge.link = s.link ∧
      s.closedTo.judge.stored = s.stored ∧ s.closedTo.judge.force = s.stored ∧ s.closedTo.judge.mask = s.mask ∧
      s.putInForce.LearnsNothing s.closedTo.judge := by
  have moves := Part.closedTo_moves hd hb
  have via := s.putInForce_via
  generalize s.closedTo.judge = q at moves
  refine ⟨?_, ?_, ?_, ?_, ?_, ?_, fun st => moves.eq_of (fun p => p.learned st) fun m => m.learnsNothing rfl rfl st⟩
  · exact (moves.eq_of Part.tick fun m => m.tick_eq rfl).trans (via.tick_eq rfl)
  · exact (moves.eq_of Part.lines fun m => m.lines_eq rfl rfl).trans s.putInForce_inForce.1
  · exact (moves.link_eq rfl).trans (via.link_eq rfl)
  · exact (moves.eq_of Part.stored fun m => m.stored_eq rfl).trans (via.stored_eq rfl)
  · exact (moves.eq_of Part.force fun m => m.force_eq rfl).trans s.putInForce_inForce.2
  · exact (moves.eq_of Part.mask fun m => m.mask_eq rfl).trans (via.mask_eq rfl)

theorem Lines.onClose_level (l : Lines) (old new : Desc) (i : Fin 32) : (l.onClose old new).level[i] =
    if old.roleOfLine i ≠ new.roleOfLine i ∨ old.inputs[i] ≠ new.inputs[i] then l.pin[i] == (new.inputs[i]).high else l.level[i] := by
  have level : (l.onClose old new).level[i] =
      if (old.roleOfLine i != new.roleOfLine i || old.inputs[i] != new.inputs[i]) = true then sampled (new.inputs[i]) (l.pin[i]) else l.level[i] :=
    Vector.getElem_ofFn ..
  simp only [level, Bool.or_eq_true, bne_iff_ne]
  rfl

theorem Lines.level_closed {k l : Lines} {old new : Desc} (h : k = l.onClose old new) (i : Fin 32) : k.level[i] =
    if old.roleOfLine i ≠ new.roleOfLine i ∨ old.inputs[i] ≠ new.inputs[i] then l.pin[i] == (new.inputs[i]).high else l.level[i] := by
  rw [h, Lines.onClose_level]

theorem Lines.pin_closed {k l : Lines} {old new : Desc} (h : k = l.onClose old new) : k.pin = l.pin := by
  rw [h, Lines.onClose]

theorem stationChanged_iff {a b : Option StationDef} :
    stationChanged a b = false ↔ a.map (fun d => (d.line, d.role)) = b.map (fun d => (d.line, d.role)) := by
  cases a <;> cases b <;> simp [stationChanged]

/-- What a station has learned once the description is in force (R4, R10). -/
theorem Part.putInForce_learned (s : Part) (st : Fin 24) :
    if (s.force.stations[st]).map (fun d => (d.line, d.role)) = (s.stored.stations[st]).map (fun d => (d.line, d.role)) then
      s.putInForce.learned st = (max (-(s.stored.timing.omax : Int)) (min (s.stations[st]).offset s.stored.timing.omax),
        (s.stations[st]).history.drop ((s.stations[st]).history.length - s.stored.timing.window), (s.stations[st]).outOfStep,
        (s.stations[st]).resync)
    else s.putInForce.learned st = (0, [], false, false) := by
  unfold Part.learned
  rw [s.putInForce_stations st]
  unfold Station.onClose
  split
  · next same =>
    rw [if_neg (by rw [stationChanged_iff.mpr same]; exact nofun)]
    rfl
  · next changed =>
    rw [if_pos (by simpa using mt stationChanged_iff.mp changed)]

theorem Part.judge_idle (hp : s.feed.path = .idle) (none : s.noPages) : s.judge.feed.path = .idle := by
  have via := s.judgeSet_via
  have path : s.judgeSet.feed.path = .idle := by rw [via.feed_eq rfl, hp]
  have unstarted : ¬ s.judgeSet.starts := fun ⟨next, _⟩ => by
    rw [Part.nextUp_noPages (by unfold Part.noPages; rw [s.judgeSet_intake, via.planner_eq rfl]; exact none)] at next
    cases next
  rw [Part.judge_unheld (by rw [hp]; exact nofun), Part.judgeFeed_unstarted path unstarted, Part.judgeSelector_path, path]

/-- What a station has learned, field by field. -/
theorem Part.learned_spelled {c : Prop} [Decidable c] {st : Fin 24} {o : Int} {h : List Arrival} {a b : Bool}
    (row : if c then q.learned st = (o, h, a, b) else q.learned st = (0, [], false, false)) :
    if c then (q.stations[st]).offset = o ∧ (q.stations[st]).history = h ∧ (q.stations[st]).outOfStep = a ∧ (q.stations[st]).resync = b
    else (q.stations[st]).offset = 0 ∧ (q.stations[st]).history = [] ∧ (q.stations[st]).outOfStep = false ∧
      (q.stations[st]).resync = false := by
  unfold Part.learned at row
  simpa only [Prod.mk.injEq] using row

/-- With no page to bind and no fault held over the path is IDLE. -/
theorem Part.closedTo_idle (hp : s.feed.path = .unconfigured ∨ s.feed.path = .idle) (none : s.noPages)
    (calm : s.feed.path = .idle ∨ (s.finisher.state ≠ .faulted ∧ s.finisher.state ≠ .retained ∧ s.finisher.disturbed = false)) :
    s.closedTo.judge.feed.path = .idle := by
  have via := s.putInForce_via.mono (A := [.stations, .force, .lines, .notices, .feed, .intake, .gate, .episode, .out]) rfl
    |>.andThen (Part.judgeConditions_via _) rfl
  have path : s.putInForce.judgeConditions.feed.path = s.feed.path := by
    rw [Part.judgeConditions_path, s.putInForce_via.feed_eq rfl]
  have pages : s.putInForce.judgeConditions.noPages := by
    obtain ⟨normal, priority⟩ := s.putInForce.judgeConditions_lists
    unfold Part.noPages
    rw [normal, priority, s.putInForce_via.intake_eq rfl, via.planner_eq rfl]
    exact none
  have ends : s.closedTo.feed.path = .idle ∧ s.closedTo.noPages := by
    have finisher := via.finisher_eq rfl
    unfold Part.closedTo
    generalize s.putInForce.judgeConditions = a at *
    split
    · next unconfigured =>
      have idle := a.enterIdle_via
      have fault := calm.resolve_left (by rw [unconfigured]; exact nofun)
      rw [← finisher, ← idle.finisher_eq rfl] at fault
      rw [Part.heldOver_none fault]
      refine ⟨?_, ?_⟩
      · show a.enterIdle.feed.path = .idle
        rw [a.enterIdle_feed]
      · show a.enterIdle.noPages
        unfold Part.noPages
        rw [idle.intake_eq rfl, idle.planner_eq rfl]
        exact pages
    · next configured => exact ⟨path.trans (hp.resolve_left configured), pages⟩
  obtain ⟨idle, pages⟩ := ends
  exact Part.judge_idle idle pages

/-- A fault held over opens its episode. -/
theorem Part.closedTo_opens (kind : JamKind) (hp : s.feed.path = .unconfigured)
    (h : if s.finisher.disturbed = true ∧ s.finisher.sheets ≠ [] then kind = .doorOpen
      else (s.finisher.state = .faulted ∨ s.finisher.state = .retained) ∧ kind = .stapleFail) :
    ∃ r : Part, r.episode.number = s.episode.number ∧ r.episode.heldOver = none ∧ s.closedTo = r.openEpisode
      ⟨kind, none, none, some 8, none, if kind = .stapleFail then s.episode.heldOver.getD s.tick else s.tick, none, none⟩ 0 := by
  have via := s.putInForce_via.mono (A := [.stations, .force, .lines, .notices, .feed, .intake, .gate, .episode, .out]) rfl
    |>.andThen (Part.judgeConditions_via _) rfl |>.andThen (Part.enterIdle_via _) rfl
  have episode : s.putInForce.judgeConditions.enterIdle.episode.indoors = s.episode.indoors := by
    rw [(Part.enterIdle_via _).episode_eq rfl, Part.judgeConditions_episode, s.putInForce_via.episode_eq rfl]
  have closed : s.closedTo = s.putInForce.judgeConditions.enterIdle.heldOver := if_pos hp
  rw [closed]
  generalize s.putInForce.judgeConditions.enterIdle = a at via episode
  have number : a.episode.number = s.episode.number := (congrArg Episode.number episode :)
  have kept : a.episode.heldOver = s.episode.heldOver := (congrArg Episode.heldOver episode :)
  rw [← via.finisher_eq rfl] at h
  refine ⟨a.modEpisode fun e => { e with heldOver := none }, number, rfl, ?_⟩
  rw [Part.heldOver_opens kind h, kept, via.tick_eq rfl]

theorem Part.openEpisode_heldOver (s : Part) (j : Jam) (extra : AreaSet) :
    (s.openEpisode j extra).episode.heldOver = s.episode.heldOver := by
  have kept : ∀ r : Part, r.addFinisherArea.episode.heldOver = r.episode.heldOver := fun r => by
    unfold Part.addFinisherArea
    split <;> rfl
  rw [(s.openEpisode_via_core j extra).episode_eq rfl]
  unfold Part.openCore
  dsimp only
  rw [(Part.halt_via ..).episode_eq rfl, kept]
  rfl

theorem Part.openEpisode_held (s : Part) (j : Jam) (hj : j.kind.noRunOut = true) : (s.openEpisode j 0).feed.path = .held := by
  obtain ⟨-, -, -, -, -, -, -, -, -, -, halting⟩ := s.openEpisode_openedWith j 0
  refine (s.openEpisode_inEpisode j 0).resolve_left fun h => ?_
  obtain ⟨x, hx, out⟩ := halting.mp h
  exact s.openEpisode_strandsAll j hj x hx out

/-- The episode held over, judged. -/
theorem Part.closedTo_opened (kind : JamKind) (hp : s.feed.path = .unconfigured)
    (h : if s.finisher.disturbed = true ∧ s.finisher.sheets ≠ [] then kind = .doorOpen
      else (s.finisher.state = .faulted ∨ s.finisher.state = .retained) ∧ kind = .stapleFail) :
    let declared := if kind = .stapleFail then s.episode.heldOver.getD s.tick else s.tick
    s.openedWith ⟨kind, none, none, some 8, none, declared, none, none⟩ s.closedTo.judge ∧ s.closedTo.judge.episode.heldOver = none ∧
      s.closedTo.judge.episode.areas.getLsbD 8 = true ∧ (s.closedTo.judge.feed.path = .held ∨
        s.closedTo.judge.feed.path = .sweeping ∨ s.closedTo.judge.feed.path = .resumable) := by
  have bare : kind.noRunOut = true := by
    split at h
    · rw [h]
      rfl
    · rw [h.2]
      rfl
  obtain ⟨r, number, spent, e⟩ := Part.closedTo_opens kind hp h
  rw [e]
  intro declared
  have opened := r.openEpisode_openedWith ⟨kind, none, none, some 8, none, declared, none, none⟩ 0
  have area := r.openEpisode_hasArea ⟨kind, none, none, some 8, none, declared, none, none⟩ 0 8 rfl
  have kept := r.openEpisode_heldOver ⟨kind, none, none, some 8, none, declared, none, none⟩ 0
  have held := r.openEpisode_held ⟨kind, none, none, some 8, none, declared, none, none⟩ bare
  generalize r.openEpisode ⟨kind, none, none, some 8, none, declared, none, none⟩ 0 = o at *
  have stands := (Part.judge_rests_stands (s := o) (by rw [held]; exact ⟨nofun, nofun, nofun⟩)).1
  generalize o.judge = q at stands
  obtain ⟨isOpen, numbered, rest⟩ := opened.stands stands
  refine ⟨⟨isOpen, by rw [numbered, number], rest⟩, ?_, ?_, ?_⟩
  · have same : q.episode.heldOver = o.episode.heldOver := (congrArg Episode.heldOver stands.episode :)
    rw [same, kept, spent]
  · have same : q.episode.areas = o.episode.areas := (congrArg Episode.areas stands.episode :)
    rw [same]
    exact area
  · rcases stands.path with ⟨path, -⟩ | ⟨-, path⟩
    · exact .inl (path.trans held)
    · exact .inr path

theorem refused_pathClose {x : PathState} (h : refusedIn 0x0A x = none) : x = .unconfigured ∨ x = .idle := by
  cases x <;> simp_all [refusedIn]

/-- A PATH CLOSE that passes. -/
theorem pathClose_completes {φ : Part → Prop} (w : List Instr) (p : Part) (t : Tick) (hs : p.canAccept) (hd : p.definable = true)
    (hb : p.stored.badPath = none)
    (h : φ { (p.found t 0x0A []).closedTo.judge with link := p.linkAfter 0x0A [] [0x00] }) : Completes (.pathClose t []) ⟨w, p⟩ φ := by
  have asked : answerFrame ⟨0x0A, []⟩ (p.found t 0x0A []) = (p.found t 0x0A []).answerPathClose := rfl
  have taken := Part.answerPathClose_eq (s := p.found t 0x0A []) hd hb
  have link := (Part.closedTo_keeps (s := p.found t 0x0A []) hd hb).2.2.1
  generalize (p.found t 0x0A []).closedTo.judge = q at taken link h
  exact completes_of (c := .pathClose t []) (s := ⟨w, p⟩) rfl hs (asked.trans taken) link h

/-- Settles O7: the description comes into force, the conditions are judged on it, and a fault held over opens its episode on the
path then IDLE. -/
theorem pathCloseTaken : Obligations.PathCloseTaken := by
  unfold Obligations.PathCloseTaken
  refine ⟨fun w p t hs hr hb => ?_, fun w p t kind hs hp hb h => ?_⟩
  · have path := refused_pathClose hr
    have hd : p.definable = true := Part.definable_of hr
    obtain ⟨tick, lines, -, stored, force, mask, learned⟩ := Part.closedTo_keeps (s := p.found t 0x0A []) hd hb
    have ended := (p.found t 0x0A []).closedTo_judged
    have count : (p.found t 0x0A []).closedTo.judge.gate = (p.found t 0x0A []).closedTo.gate := (Part.judge_via _).gate_eq rfl
    have judged := Part.judge_judged ended.1
    have idle := Part.closedTo_idle (s := p.found t 0x0A []) path
    have learns := (p.found t 0x0A []).putInForce_learned
    refine pathClose_completes w p t hs hd hb ?_
    generalize (p.found t 0x0A []).closedTo.judge = q at *
    have purge : q.gate.purgeCount = p.gate.purgeCount := (congrArg Gate.purgeCount count).trans ended.2
    refine ⟨tick, rfl, stored, force, mask, Lines.pin_closed lines, Lines.level_closed lines, fun st => ?_, judged.doors, judged.trays, judged.bins, purge, judged.purge, idle⟩
    have row := learns st
    rw [← learned st] at row
    exact Part.learned_spelled row
  · have hd : p.definable = true := Part.definable_of (by rw [hp]; rfl)
    have opened := Part.closedTo_opened (s := p.found t 0x0A []) kind hp h
    refine pathClose_completes w p t hs hd hb ?_
    generalize (p.found t 0x0A []).closedTo.judge = q at *
    exact opened

end Sys2Proof.Machine
end


-- ==== Sys2Proof/Proofs/PathsReset.lean ====
section
/-! PROOF. PATH RESET (O19): what each owner discards, and what an empty machine makes of the judgements that follow. -/

namespace Sys2Proof.Machine

variable {s t u p q r : Part}

/-! ## A machine emptied -/

/-- No sheet, no covering entry, an EMPTY set, no image call, no reservation, no pick outstanding, no plan read and no edge
scheduled. -/
structure Part.vacant (s : Part) : Prop where
  sheets : s.table.sheets = []
  covers : ∀ st : Fin 24, (s.stations[st]).cover = none
  finisher : s.finisher = .reset
  calls : s.calls = ⟨[], []⟩
  merge : s.feed.merge = []
  unconfirmed : s.feed.unconfirmed = none
  unread : s.planner.readThrough = false
  unscheduled : s.dry.schedule = []

theorem Part.judgeClosure_empty (h : s.finisher = .reset) : s.judgeClosure = s := by
  unfold Part.judgeClosure
  rw [h]
  rfl

theorem Part.judgeFinisher_empty (h : s.finisher = .reset) : s.judgeFinisher = s := by
  have idle : s.judgeClosure.cycleReady = false := by
    rw [Part.judgeClosure_empty h]
    unfold Part.cycleReady
    rw [h]
    rfl
  rcases s.judgeFinisher_cases with ⟨e, -⟩ | ⟨ready, -⟩
  · rw [e, Part.judgeClosure_empty h]
  · rw [idle] at ready
    cases ready

/-- An EMPTY set has nothing to judge: the diverters alone move. -/
theorem Part.judgeSet_empty (h : s.finisher = .reset) : s.judgeSet = s.judgeGates :=
  Part.judgeFinisher_empty (by rw [s.judgeGates_via.finisher_eq rfl, h])

/-- The outputs but for the diverters, which judging them moves alone. -/
theorem Part.judgeGates_moved (s : Part) : ∃ b c, s.judgeGates.out = { s.out with exitGate := b, purgeGate := c } := by
  obtain ⟨c, e⟩ := s.judgeExitGate.judgePurgeGate_out
  obtain ⟨b, k⟩ := s.judgeExitGate_out
  refine ⟨b, c, ?_⟩
  rw [Part.judgeGates, e, k]

/-- What stands of an emptied machine while an episode is judged. -/
structure Part.keptVacant (s t : Part) : Prop where
  via : Via [.notices, .calls, .feed, .out, .episode, .planner] s t
  vacant : t.vacant
  list : t.planner.list = s.planner.list
  revision : t.planner.revision = if t.feed.path = .resumable then s.planner.revision + 1 else s.planner.revision
  planned : t.feed.planned = s.feed.planned
  clutch : t.out.clutch = s.out.clutch
  cycle : t.out.stapler = s.out.stapler ∧ t.out.ejector = s.out.ejector

theorem Part.vacant.of (h : s.vacant) (via : Via [.notices, .calls, .feed, .out, .episode, .planner] s t) (calls : t.calls = ⟨[], []⟩)
    (merge : t.feed.merge = []) (unconfirmed : t.feed.unconfirmed = none) (unread : t.planner.readThrough = false) : t.vacant :=
  ⟨by rw [via.table_eq rfl, h.sheets], by rw [via.stations_eq rfl]; exact h.covers, by rw [via.finisher_eq rfl, h.finisher], calls, merge,
    unconfirmed, unread, by rw [via.dry_eq rfl, h.unscheduled]⟩

/-- A plan built of nothing. -/
theorem Part.planBuild_vacant (h : s.vacant) : s.planBuild =
    (((s.stopDrives.modEpisode fun e => { e with sweepTimer := none }).planEmpty.modPlanner fun p =>
      { p with revision := p.revision + 1, readThrough := false }).setPath .resumable).notePlanReady := by
  have planSet : ∀ a : Part, a.finisher = .reset → a.planSet = a := fun a e => by
    unfold Part.planSet
    rw [e]
    rfl
  have via : Via [.out, .episode] s (s.stopDrives.modEpisode fun e => { e with sweepTimer := none }) :=
    Via.episode (s.stopDrives_via.mono rfl) _ rfl
  unfold Part.planBuild
  dsimp only
  generalize (s.stopDrives.modEpisode fun e => { e with sweepTimer := none }) = a at via
  rw [via.table_eq rfl, h.sheets, List.filter_nil, List.foldl_nil, planSet a (by rw [via.finisher_eq rfl, h.finisher])]

theorem Part.planBuild_keptVacant (h : s.vacant) : s.keptVacant s.planBuild := by
  have via : Via [.notices, .calls, .feed, .out, .episode, .planner] s s.planBuild := by
    rw [Part.planBuild_vacant h]
    have start : Via [.out, .episode] s (s.stopDrives.modEpisode fun e => { e with sweepTimer := none }) :=
      Via.episode (s.stopDrives_via.mono rfl) _ rfl
    exact (((start.mono rfl).andThen (Part.planEmpty_via _) rfl).planner _ rfl).andThen (Part.setPath_via ..) rfl |>.andThen
      (Part.notePlanReady_via _) rfl
  have planner : s.planBuild.planner = { s.planner with revision := s.planner.revision + 1, readThrough := false } := by
    rw [Part.planBuild_vacant h, (Part.notePlanReady_via _).planner_eq rfl, (Part.setPath_via ..).planner_eq rfl, Part.modPlanner_planner,
      (Part.planEmpty_via _).planner_eq rfl, Part.modEpisode_planner, (Part.stopDrives_via _).planner_eq rfl]
  have feed := s.planBuild_feed
  refine ⟨via, h.of via s.planBuild_calls (by rw [feed]) (by rw [feed]) (by rw [planner]), by rw [planner], ?_, by rw [feed]; rfl, ?_, ?_⟩
  · rw [planner, if_pos (by rw [feed])]
  · rw [s.planBuild_out]
  · rw [s.planBuild_out]
    exact ⟨rfl, rfl⟩

/-- A sweep started on an emptied machine. -/
theorem Part.startSweep_keptVacant (h : s.vacant) : s.keptVacant s.startSweep := by
  have path := s.setPath_via .sweeping
  cases dry : s.dry.on with
  | true =>
    have base : (s.setPath .sweeping).vacant := by
      refine h.of (path.mono rfl) ?_ ?_ ?_ ?_
      · rw [path.calls_eq rfl, h.calls]
      · rw [Part.setPath_feed, ← h.merge]
      · rw [Part.setPath_feed, ← h.unconfirmed]
      · rw [path.planner_eq rfl, h.unread]
    obtain ⟨via, vacant, list, revision, planned, clutch, cycle⟩ := Part.planBuild_keptVacant base
    rw [Part.startSweep_dry dry]
    generalize (s.setPath .sweeping).planBuild = q at *
    rw [path.planner_eq rfl] at list revision
    rw [path.out_eq rfl] at clutch cycle
    rw [Part.setPath_feed] at planned
    exact ⟨(path.mono rfl).trans via, vacant, list, revision, planned, clutch, cycle⟩
  | false =>
    have e := s.startSweep_eq dry
    have via : Via [.notices, .feed, .out, .episode] s s.startSweep := by
      rw [e]
      exact Via.episode (((Via.out (path.mono rfl) _ rfl)).andThen (Part.runDrives_via _) rfl) _ rfl
    have feed : s.startSweep.feed = { s.feed with path := .sweeping } := by
      rw [e, Part.modEpisode_feed, (Part.runDrives_via _).feed_eq rfl, Part.modOut_feed, Part.setPath_feed]
    have out : s.startSweep.out = { s.out with presented := s.force.slowest, enFeed := true, enProcess := true, enDuplex := true, enDelivery := true } := by
      rw [e, Part.modEpisode_out, Part.runDrives, Part.modOut_out, Part.modOut_out, path.out_eq rfl]
    have planner := via.planner_eq rfl
    refine ⟨via.mono rfl, h.of (via.mono rfl) ?_ ?_ ?_ ?_, by rw [planner], ?_, by rw [feed]; rfl, by rw [out], by rw [out]; exact ⟨rfl, rfl⟩⟩
    · rw [via.calls_eq rfl, h.calls]
    · rw [feed, ← h.merge]
    · rw [feed, ← h.unconfirmed]
    · rw [planner, h.unread]
    · rw [planner, if_neg (by rw [feed]; exact nofun)]

theorem Part.judgeGates_keptVacant (h : s.vacant) (hp : s.feed.path ≠ .resumable) : s.keptVacant s.judgeGates := by
  have via := s.judgeGates_via
  obtain ⟨b, c, out⟩ := s.judgeGates_moved
  have planner := via.planner_eq rfl
  have feed := via.feed_eq rfl
  refine ⟨via.mono rfl, h.of (via.mono rfl) ?_ ?_ ?_ ?_, by rw [planner], ?_, by rw [feed], by rw [out], by rw [out]; exact ⟨rfl, rfl⟩⟩
  · rw [via.calls_eq rfl, h.calls]
  · rw [feed, h.merge]
  · rw [feed, h.unconfirmed]
  · rw [planner, h.unread]
  · rw [planner, if_neg (by rwa [feed])]

/-- An emptied machine in HELD, judged: a sweep starts where it is clear. -/
theorem Part.judge_keptVacant (h : s.vacant) (hp : s.feed.path = .held) : s.keptVacant s.judge := by
  have gates := Part.judgeGates_keptVacant h (by rw [hp]; exact nofun)
  have set := Part.judgeSet_empty h.finisher
  have held : s.judgeGates.feed.path = .held := by rw [s.judgeGates_via.feed_eq rfl, hp]
  have rests : s.judgeGates.feed.path.rests := by rw [held]; exact ⟨nofun, nofun, nofun⟩
  rw [Part.judge_eq, set]
  unfold Part.judgeClearance
  split
  · have sweep := Part.startSweep_keptVacant gates.vacant
    rw [Part.judgeFeed_rests s.judgeGates.startSweep_sweeps.rests]
    have planner : s.judgeGates.planner = s.planner := s.judgeGates_via.planner_eq rfl
    generalize s.judgeGates.startSweep = q at sweep
    obtain ⟨via, vacant, list, revision, planned, clutch, stapler, ejector⟩ := sweep
    rw [planner] at list revision
    exact ⟨gates.via.trans via, vacant, list, revision, planned.trans gates.planned, clutch.trans gates.clutch,
      stapler.trans gates.cycle.1, ejector.trans gates.cycle.2⟩
  · rw [Part.judgeFeed_rests rests]
    exact gates

/-! ## An episode opened on an emptied machine (R109, R121) -/

theorem Part.strand_vacant (sheets : s.table.sheets = []) (covers : ∀ st : Fin 24, (s.stations[st]).cover = none)
    (unscheduled : s.dry.schedule = []) (f : Sheet → Bool) :
    (s.strand f).table = s.table ∧ (s.strand f).stations = s.stations ∧ (s.strand f).dry = s.dry := by
  have table : (s.strand f).table = ⟨s.table.sheets.map (Sheet.strandIf f), s.table.revision +
      BitVec.ofNat 32 (s.table.sheets.filter fun x => x.moving && f x).length⟩ := rfl
  have stations : (s.strand f).stations = s.stations.map (Station.relieve (s.hits f)) := rfl
  have dry : (s.strand f).dry = { s.dry with schedule := s.dry.schedule.filter fun e => !(e.sheet.any (s.hits f)) } := rfl
  refine ⟨?_, ?_, ?_⟩
  · rw [table, sheets, List.filter_nil, List.map_nil]
    exact congrArg₂ Table.mk sheets.symm (by simp)
  · rw [stations]
    refine Vector.ext fun k hk => ?_
    have none := covers ⟨k, hk⟩
    rw [Fin.getElem_fin] at none
    rw [Vector.getElem_map, Station.relieve, none, Option.map_none, ← none]
  · rw [dry, unscheduled, List.filter_nil, ← unscheduled]

theorem Part.runOutSet_vacant (sheets : s.table.sheets = []) (j : Jam) : s.runOutSet j = [] := by
  unfold Part.runOutSet
  rw [sheets]
  split <;> rfl

theorem Part.makeRunOut_vacant (sheets : s.table.sheets = []) : (s.makeRunOut []).table = s.table := by
  have table : (s.makeRunOut []).table = ⟨s.table.sheets.map (Sheet.runOutIf []), s.table.revision + BitVec.ofNat 32 0⟩ := rfl
  rw [table, sheets, List.map_nil, ← sheets]
  simp

theorem Part.openCore_vacant (h : s.vacant) (j : Jam) (extra : AreaSet) : (s.openCore j extra).table = s.table ∧
    (s.openCore j extra).stations = s.stations ∧ (s.openCore j extra).dry = s.dry ∧ (s.openCore j extra).finisher = .reset := by
  refine ⟨?_, ?_, ?_, by rw [Part.openCore_finisher, Part.retain_finisher, h.finisher]; rfl⟩
  all_goals
    unfold Part.openCore
    dsimp only
    generalize hf : Part.feedOnEpisode _ = a
    have via : Via [.feed, .out, .episode] s a := hf ▸ (Via.episode (.refl s) _ rfl).andThen (Part.feedOnEpisode_via _) rfl
    have sheets : a.table.sheets = [] := by rw [via.table_eq rfl, h.sheets]
    rw [Part.runOutSet_vacant sheets]
    have made := a.makeRunOut_via []
    have table := Part.makeRunOut_vacant sheets
    have stranded := (a.makeRunOut []).strand_vacant (by rw [table, sheets]) (by rw [made.stations_eq rfl, via.stations_eq rfl]; exact h.covers)
      (by rw [made.dry_eq rfl, via.dry_eq rfl, h.unscheduled]) fun x => !([] : List Nat).contains x.number
    generalize (a.makeRunOut []).strand _ = b at stranded ⊢
    have rest : Via [.finisher, .episode, .out, .feed, .notices] b
        (((b.retain.addAreas (areaSet j.area)).addFinisherArea).halt (!([] : List Nat).isEmpty)) :=
      (((Part.retain_via b).mono rfl).andThen (Part.addAreas_via ..) rfl).andThen (Part.addFinisherArea_via _) rfl |>.andThen
        (Part.halt_via ..) rfl
  · rw [rest.table_eq rfl, stranded.1, table, via.table_eq rfl]
  · rw [rest.stations_eq rfl, stranded.2.1, made.stations_eq rfl, via.stations_eq rfl]
  · rw [rest.dry_eq rfl, stranded.2.2, made.dry_eq rfl, via.dry_eq rfl]

/-! ## What PATH RESET discards (R42, R67, R91, R147, R159) -/

/-- What the discard leaves of each block. -/
structure Part.emptied (s t : Part) : Prop where
  vacant : t.vacant
  intake : t.intake = .reset
  list : t.planner.list = []
  table : t.table = s.table.pathReset
  dry : t.dry = { s.dry with plan := [], schedule := [], home := none }
  gate : t.gate = s.gate
  stations : ∀ st : Fin 24, t.stations[st] = { s.stations[st] with cover := none }
  timers : t.feed.timersIdle
  numbers : t.feed.nextSheet = s.feed.nextSheet ∧ t.feed.exhausted = s.feed.exhausted ∧ t.feed.cls = s.feed.cls
  holds : t.feed.hold = false ∧ t.feed.setEnd = false
  selector : t.feed.selector = .normal ∧ t.feed.normalMark = true ∧ t.feed.priorityMark = true
  clutch : t.out.clutch = .replicate 5 false
  cycle : t.out.stapler = false ∧ t.out.ejector = false

theorem Part.emptied.kept (h : s.emptied t) (k : t.keptVacant u) : s.emptied u := by
  have planned := k.planned
  have kept : ∀ {α : Type} (f : Feed → α), (∀ x, f x.planned = f x) → f u.feed = f t.feed := fun f hf => by
    rw [← hf u.feed, planned, hf]
  obtain ⟨pick, holdoff, ramp, runOn⟩ := h.timers
  obtain ⟨next, exhausted, cls⟩ := h.numbers
  refine ⟨k.vacant, (k.via.intake_eq rfl).trans h.intake, k.list.trans h.list, (k.via.table_eq rfl).trans h.table,
    (k.via.dry_eq rfl).trans h.dry, (k.via.gate_eq rfl).trans h.gate, by rw [k.via.stations_eq rfl]; exact h.stations, ⟨?_, ?_, ?_, ?_⟩,
    ⟨?_, ?_, ?_⟩, ⟨?_, ?_⟩, ⟨?_, ?_, ?_⟩, k.clutch.trans h.clutch, k.cycle.1.trans h.cycle.1, k.cycle.2.trans h.cycle.2⟩
  · exact (kept Feed.pickTimer fun _ => rfl).trans pick
  · exact (kept Feed.holdoff fun _ => rfl).trans holdoff
  · exact (kept Feed.ramp fun _ => rfl).trans ramp
  · exact (kept Feed.runOn fun _ => rfl).trans runOn
  · exact (kept Feed.nextSheet fun _ => rfl).trans next
  · exact (kept Feed.exhausted fun _ => rfl).trans exhausted
  · exact (kept Feed.cls fun _ => rfl).trans cls
  · exact (kept Feed.hold fun _ => rfl).trans h.holds.1
  · exact (kept Feed.setEnd fun _ => rfl).trans h.holds.2
  · exact (kept Feed.selector fun _ => rfl).trans h.selector.1
  · exact (kept Feed.normalMark fun _ => rfl).trans h.selector.2.1
  · exact (kept Feed.priorityMark fun _ => rfl).trans h.selector.2.2

theorem Part.discardCoreAll_stores (s : Part) : s.discardCoreAll.intake = .reset ∧ s.discardCoreAll.calls = ⟨[], []⟩ ∧
    s.discardCoreAll.planner = { s.planner with list := [], readThrough := false } := by
  unfold Part.discardCoreAll
  exact ⟨rfl, rfl, rfl⟩

theorem Part.discardAll_feed (s : Part) : ∃ trays bins, s.discardAll.feed = { s.feed.pathReset with trayEmpty := trays, binFull := bins } := by
  obtain ⟨n, e⟩ := s.discardCoreAll.judgeSupplies_eq
  rw [s.discardAll_eq, e]
  exact ⟨_, _, by rw [Part.supplied, s.discardCoreAll_feed]⟩

theorem Part.discardAll_emptied (s : Part) : s.emptied s.discardAll := by
  obtain ⟨trays, bins, feed⟩ := s.discardAll_feed
  obtain ⟨intake, calls, planner⟩ := s.discardCoreAll_stores
  have via := s.discardCoreAll.judgeSupplies_via
  have all := s.discardAll_via
  have table := s.discardCoreAll_table
  have dry := s.discardCoreAll_dry
  have finisher := s.discardCoreAll_finisher
  have stations := s.discardCoreAll_stations
  have out := s.discardCoreAll_out
  rw [← via.intake_eq rfl] at intake
  rw [← via.calls_eq rfl] at calls
  rw [← via.planner_eq rfl] at planner
  rw [← via.table_eq rfl] at table
  rw [← via.dry_eq rfl] at dry
  rw [← via.finisher_eq rfl] at finisher
  rw [← via.stations_eq rfl] at stations
  rw [← via.out_eq rfl] at out
  rw [← s.discardAll_eq] at intake calls planner table dry finisher stations out
  generalize s.discardAll = d at *
  have covers : ∀ st : Fin 24, d.stations[st] = { s.stations[st] with cover := none } := fun st => by
    rw [stations]
    exact Vector.getElem_map ..
  refine ⟨⟨?_, fun st => ?_, finisher, calls, ?_, ?_, ?_, ?_⟩, intake, ?_, table, dry, all.gate_eq rfl, covers, ?_, ?_, ?_, ?_, ?_, ?_⟩
  · rw [table]
    rfl
  · rw [covers]
  · rw [feed]
    rfl
  · rw [feed]
    rfl
  · rw [planner]
  · rw [dry]
  · rw [planner]
  · rw [feed]
    exact ⟨rfl, rfl, rfl, rfl⟩
  · rw [feed]
    exact ⟨rfl, rfl, rfl⟩
  · rw [feed]
    exact ⟨rfl, rfl⟩
  · rw [feed]
    exact ⟨rfl, rfl, rfl⟩
  · rw [out]
    rfl
  · rw [out]
    exact ⟨rfl, rfl⟩

/-- Opening an episode keeps it empty. -/
theorem Part.openEpisode_emptied (h : s.emptied t) (j : Jam) (extra : AreaSet) : s.emptied (t.openEpisode j extra) := by
  obtain ⟨b, feed, out, -⟩ := t.openCore_effect j extra
  obtain ⟨table, stations, dry, finisher⟩ := Part.openCore_vacant h.vacant j extra
  have core := t.openCore_via j extra
  have via := t.openEpisode_via_core j extra
  have planner : (t.openEpisode j extra).planner = t.planner := (via.planner_eq rfl).trans (core.planner_eq rfl)
  have intake : (t.openEpisode j extra).intake = t.intake := (via.intake_eq rfl).trans (core.intake_eq rfl)
  have calls : (t.openEpisode j extra).calls = t.calls := (via.calls_eq rfl).trans (core.calls_eq rfl)
  have gate : (t.openEpisode j extra).gate = t.gate := (via.gate_eq rfl).trans (core.gate_eq rfl)
  rw [← via.feed_eq rfl] at feed
  rw [← via.out_eq rfl] at out
  rw [← via.table_eq rfl] at table
  rw [← via.stations_eq rfl] at stations
  rw [← via.dry_eq rfl] at dry
  rw [← via.finisher_eq rfl] at finisher
  generalize t.openEpisode j extra = o at *
  obtain ⟨vacant, intake', list, table', dry', gate', stations', timers, numbers, holds, selector, clutch, cycle⟩ := h
  obtain ⟨sheets, covers, -, none, merge, unconfirmed, unread, unscheduled⟩ := vacant
  refine ⟨⟨by rw [table, sheets], by rw [stations]; exact covers, finisher, by rw [calls, none], by rw [feed]; exact merge,
    by rw [feed]; exact unconfirmed, by rw [planner, unread], by rw [dry, unscheduled]⟩, intake.trans intake', by rw [planner, list],
    table.trans table', dry.trans dry', gate.trans gate', by rw [stations]; exact stations', ?_, ?_, ?_, ?_, ?_, ?_⟩
  · rw [feed]
    exact ⟨rfl, rfl, rfl, rfl⟩
  · rw [feed]
    exact numbers
  · rw [feed]
    exact ⟨rfl, rfl⟩
  · rw [feed]
    exact selector
  · rw [out]
  · rw [out]
    exact cycle

/-- So does ending one on an IDLE path. -/
theorem Part.closeEpisode_emptied (h : s.emptied t) : s.emptied t.closeEpisode.enterIdle := by
  have via : Via [.notices, .feed, .out, .episode] t t.closeEpisode.enterIdle := (t.closeEpisode_via.mono rfl).andThen (Part.enterIdle_via _) rfl
  have feed := t.closeEpisode.enterIdle_feed
  have out := t.closeEpisode.enterIdle_out
  rw [t.closeEpisode_via.feed_eq rfl] at feed
  rw [t.closeEpisode_via.out_eq rfl] at out
  generalize t.closeEpisode.enterIdle = o at *
  obtain ⟨vacant, intake, list, table, dry, gate, stations, ⟨pick, holdoff, ramp, -⟩, numbers, holds, selector, clutch, cycle⟩ := h
  refine ⟨vacant.of (via.mono rfl) ?_ ?_ ?_ ?_, (via.intake_eq rfl).trans intake, ?_, (via.table_eq rfl).trans table,
    (via.dry_eq rfl).trans dry, (via.gate_eq rfl).trans gate, by rw [via.stations_eq rfl]; exact stations, ?_, ?_, ?_, ?_, ?_, ?_⟩
  · rw [via.calls_eq rfl, vacant.calls]
  · rw [feed]
    exact vacant.merge
  · rw [feed]
    exact vacant.unconfirmed
  · rw [via.planner_eq rfl, vacant.unread]
  · rw [via.planner_eq rfl, list]
  · rw [feed]
    exact ⟨pick, holdoff, ramp, rfl⟩
  · rw [feed]
    exact numbers
  · rw [feed]
    exact holds
  · rw [feed]
    exact ⟨selector.1, rfl, rfl⟩
  · rw [out]
    exact clutch
  · rw [out]
    exact cycle

end Sys2Proof.Machine
end

