-- ==== Sys2Proof/Proofs/HostReset.lean ====
section
/-! PROOF. PATH RESET (O19): the answer, the HOST RESET episode it may open, and the path IDLE otherwise. -/

namespace Sys2Proof.Machine

variable {s t u p q r : Part}

/-- The part PATH RESET comes to before it is judged. -/
def Part.resetTo (s : Part) : Part :=
  if s.resetOpens then s.discardAll.openEpisode (plainJam .hostReset none none s.tick) s.resetAreas else s.discardAll.closeEpisode.enterIdle

theorem Part.answerPathReset_eq (hp : s.feed.path ≠ .unconfigured) :
    s.answerPathReset = ⟨s.resetTo.judge, .done, bytesOf 2 s.resetPages ++ bytesOf 1 s.table.sheets.length⟩ := by
  have tick : s.discardAll.tick = s.tick := s.discardAll_via.tick_eq rfl
  unfold Part.answerPathReset Part.resetTo
  rw [if_neg hp, ← tick]

theorem Part.resetOpens_iff (s : Part) :
    s.resetOpens = true ↔ s.table.sheets ≠ [] ∨ s.finisher.sheets ≠ [] ∨ s.anyDoorOpen = true := by
  unfold Part.resetOpens
  simp [or_assoc]

theorem Part.discardAll_planner (s : Part) : s.discardAll.planner.revision = s.planner.revision := by
  rw [s.discardAll_eq, (Part.judgeSupplies_via _).planner_eq rfl, s.discardCoreAll_stores.2.2]

theorem Part.discardAll_episode (s : Part) : s.discardAll.episode = { s.episode with sweepTimer := none } := by
  rw [s.discardAll_eq, (Part.judgeSupplies_via _).episode_eq rfl, s.discardCoreAll_episode]

/-! ## The path IDLE -/

theorem Part.judgeSelector_emptied (h : s.emptied t) : t.judgeSelector = t := by
  unfold Part.judgeSelector
  rw [h.list, h.selector.1, h.intake]
  simp [Intake.reset]

/-- An emptied machine in IDLE stays there: the diverters alone are judged. -/
theorem Part.judge_emptied (h : s.emptied t) (hp : t.feed.path = .idle) : t.judge = t.judgeGates := by
  have gates := t.judgeGates_via
  have kept := h.kept (Part.judgeGates_keptVacant h.vacant (by rw [hp]; exact nofun))
  have path : t.judgeGates.feed.path = .idle := by rw [gates.feed_eq rfl, hp]
  have pages : t.judgeGates.noPages := by
    unfold Part.noPages
    rw [kept.intake]
    exact ⟨rfl, rfl, kept.list⟩
  have unstarted : ¬ t.judgeGates.starts := fun ⟨next, _⟩ => by
    rw [Part.nextUp_noPages pages] at next
    cases next
  rw [Part.judge_unheld (by rw [hp]; exact nofun), Part.judgeSet_empty h.vacant.finisher, Part.judgeFeed_unstarted path unstarted,
    Part.judgeSelector_emptied kept]

/-- With nothing found the path is IDLE and no episode open. -/
theorem Part.resetTo_idle (h : s.resetOpens = false) : s.emptied s.resetTo.judge ∧
    s.resetTo.judge.planner.revision = s.planner.revision ∧ s.resetTo.judge.feed.path = .idle ∧
    s.resetTo.judge.episode = { s.episode with isOpen := false, areas := 0, barred := false, sweepTimer := none } ∧
    s.resetTo.judge.out.drives false ∧ s.resetTo.judge.stats = s.stats := by
  have e : s.resetTo = s.discardAll.closeEpisode.enterIdle := by
    unfold Part.resetTo
    rw [h]
    rfl
  have emptied := Part.closeEpisode_emptied s.discardAll_emptied
  have via : Via [.notices, .feed, .out, .episode] s.discardAll s.discardAll.closeEpisode.enterIdle :=
    ((Part.closeEpisode_via _).mono rfl).andThen (Part.enterIdle_via _) rfl
  have path : s.discardAll.closeEpisode.enterIdle.feed.path = .idle := by rw [Part.enterIdle_feed]
  have out := s.discardAll.closeEpisode.enterIdle_out
  have episode : s.discardAll.closeEpisode.enterIdle.episode =
      { s.episode with isOpen := false, areas := 0, barred := false, sweepTimer := none } := by
    rw [(Part.enterIdle_via _).episode_eq rfl]
    unfold Part.closeEpisode
    rw [Part.modEpisode_episode, s.discardAll_episode]
  have stats : s.discardAll.closeEpisode.enterIdle.stats = s.stats := (via.stats_eq rfl).trans (s.discardAll_via.stats_eq rfl)
  have revision : s.discardAll.closeEpisode.enterIdle.planner.revision = s.planner.revision := by
    rw [via.planner_eq rfl, s.discardAll_planner]
  rw [e]
  generalize s.discardAll.closeEpisode.enterIdle = r at *
  have kept := emptied.kept (Part.judgeGates_keptVacant emptied.vacant (by rw [path]; exact nofun))
  have gates := r.judgeGates_via
  obtain ⟨b, c, moved⟩ := r.judgeGates_moved
  rw [Part.judge_emptied emptied path]
  refine ⟨kept, by rw [gates.planner_eq rfl, revision], by rw [gates.feed_eq rfl, path], by rw [gates.episode_eq rfl, episode], ?_,
    by rw [gates.stats_eq rfl, stats]⟩
  rw [moved, out]
  exact ⟨rfl, rfl, rfl, rfl⟩

/-! ## A HOST RESET episode (R121) -/

/-- The counters but for the episodes of the PATH record, the widths and the watermarks stand. -/
structure Part.countsEpisode (s t : Part) : Prop where
  station : t.stats.station = s.stats.station
  tray : t.stats.tray = s.stats.tray
  stationSet : t.stats.stationSet = s.stats.stationSet
  traySet : t.stats.traySet = s.stats.traySet
  width : t.stats.pathSet.width = s.stats.pathSet.width
  watermark : t.stats.pathSet.watermark = s.stats.pathSet.watermark
  path : ∀ i : Fin 10, i ≠ 6 → t.stats.path[i] = s.stats.path[i]

theorem Part.countPath_countsEpisode (s : Part) : s.countsEpisode (s.countPath 6) := by
  have stats : (s.countPath 6).stats =
      ({ s.stats with path := s.stats.path.set (6 : Fin 10) (raised s.stats.pathSet.width (s.stats.path[(6 : Fin 10)])) } : Stats).judged .path := by
    unfold Part.countPath
    rw [Part.judgeWatermark_stats]
    rfl
  refine ⟨?_, ?_, ?_, ?_, ?_, ?_, fun i hi => s.countPath_same hi.symm⟩ <;> rw [stats] <;> rfl

/-- What the opening of an episode counts. -/
theorem Part.openEpisode_countsEpisode (s : Part) (j : Jam) (extra : AreaSet) : s.countsEpisode (s.openEpisode j extra) ∧
    countedUp s.stats.pathSet.width s.stats.path (s.openEpisode j extra).stats.path 6 := by
  have stats : ((s.openCore j extra).noteRecord 1 j).stats = s.stats :=
    ((Part.noteRecord_via ..).stats_eq rfl).trans ((s.openCore_via j extra).stats_eq rfl)
  have counts := ((s.openCore j extra).noteRecord 1 j).countPath_countsEpisode
  have raised := ((s.openCore j extra).noteRecord 1 j).countPath_raised 6
  rw [Part.openEpisode_eq]
  generalize (s.openCore j extra).noteRecord 1 j = a at *
  obtain ⟨station, tray, stationSet, traySet, width, watermark, path⟩ := counts
  rw [stats] at raised station tray stationSet traySet width watermark path
  exact ⟨⟨station, tray, stationSet, traySet, width, watermark, path⟩, raised⟩

/-- With a sheet, a set or an open door found an episode opens. -/
theorem Part.resetTo_opens (h : s.resetOpens = true) : s.emptied s.resetTo.judge ∧
    s.resetTo.judge.planner.revision =
      (if s.resetTo.judge.feed.path = .resumable then s.planner.revision + 1 else s.planner.revision) ∧
    s.openedWith ⟨.hostReset, none, none, none, none, s.tick, none, none⟩ s.resetTo.judge ∧
    (s.resetTo.judge.feed.path = .held ∨ s.resetTo.judge.feed.path = .sweeping ∨ s.resetTo.judge.feed.path = .resumable) ∧
    s.countsEpisode s.resetTo.judge ∧ countedUp s.stats.pathSet.width s.stats.path s.resetTo.judge.stats.path 6 := by
  have e : s.resetTo = s.discardAll.openEpisode ⟨.hostReset, none, none, none, none, s.tick, none, none⟩ s.resetAreas := if_pos h
  generalize hj : (⟨.hostReset, none, none, none, none, s.tick, none, none⟩ : Jam) = j at *
  have emptied := Part.openEpisode_emptied s.discardAll_emptied j s.resetAreas
  have opened := s.discardAll.openEpisode_openedWith j s.resetAreas
  obtain ⟨counts, raised⟩ := s.discardAll.openEpisode_countsEpisode j s.resetAreas
  have revision : (s.discardAll.openEpisode j s.resetAreas).planner.revision = s.planner.revision := by
    rw [(Part.openEpisode_via ..).planner_eq rfl, s.discardAll_planner]
  have either := s.discardAll.openEpisode_inEpisode j s.resetAreas
  have number : s.discardAll.episode.number = s.episode.number := by rw [s.discardAll_episode]
  have stats : s.discardAll.stats = s.stats := s.discardAll_via.stats_eq rfl
  rw [e]
  generalize s.discardAll.openEpisode j s.resetAreas = r at *
  have held : r.feed.path = .held := by
    obtain ⟨-, -, -, -, -, -, -, -, -, -, halting⟩ := opened
    refine either.resolve_left fun h => ?_
    obtain ⟨x, hx, -⟩ := halting.mp h
    rw [emptied.vacant.sheets] at hx
    cases hx
  have stands := (Part.judge_rests_stands (s := r) (by rw [held]; exact ⟨nofun, nofun, nofun⟩)).1
  have kept := Part.judge_keptVacant emptied.vacant held
  generalize r.judge = q at *
  obtain ⟨isOpen, numbered, rest⟩ := opened.stands stands
  have same : q.stats = r.stats := kept.via.stats_eq rfl
  obtain ⟨station, tray, stationSet, traySet, width, watermark, path⟩ := counts
  rw [stats, ← same] at station tray stationSet traySet width watermark path raised
  refine ⟨emptied.kept kept, by rw [kept.revision, revision], ⟨isOpen, by rw [numbered, number], rest⟩, ?_,
    ⟨station, tray, stationSet, traySet, width, watermark, path⟩, raised⟩
  rcases stands.path with ⟨path, -⟩ | ⟨-, path⟩
  · exact .inl (path.trans held)
  · exact .inr path

/-! ## The request (R181) -/

/-- The part PATH RESET leaves, by what it found. -/
structure Part.resetLeft (s q : Part) : Prop where
  emptied : s.emptied q
  revision : q.planner.revision = if q.feed.path = .resumable then s.planner.revision + 1 else s.planner.revision
  counts : s.countsEpisode q
  opened : s.table.sheets ≠ [] ∨ s.finisher.sheets ≠ [] ∨ s.anyDoorOpen = true →
    s.openedWith ⟨.hostReset, none, none, none, none, s.tick, none, none⟩ q ∧
      (q.feed.path = .held ∨ q.feed.path = .sweeping ∨ q.feed.path = .resumable) ∧
      countedUp s.stats.pathSet.width s.stats.path q.stats.path 6
  idle : ¬ (s.table.sheets ≠ [] ∨ s.finisher.sheets ≠ [] ∨ s.anyDoorOpen = true) →
    q.feed.path = .idle ∧ q.episode = { s.episode with isOpen := false, areas := 0, barred := false, sweepTimer := none } ∧
      q.out.drives false ∧ q.stats = s.stats

theorem Part.resetTo_left (s : Part) : s.resetLeft s.resetTo.judge := by
  cases h : s.resetOpens with
  | true =>
    obtain ⟨emptied, revision, opened, path, counts, raised⟩ := Part.resetTo_opens h
    exact ⟨emptied, revision, counts, fun _ => ⟨opened, path, raised⟩, fun k => absurd (s.resetOpens_iff.mp h) k⟩
  | false =>
    obtain ⟨emptied, revision, path, episode, drives, stats⟩ := Part.resetTo_idle h
    have unopened : ¬ (s.table.sheets ≠ [] ∨ s.finisher.sheets ≠ [] ∨ s.anyDoorOpen = true) := fun k => by
      rw [s.resetOpens_iff.mpr k] at h
      cases h
    refine ⟨emptied, by rw [revision, if_neg (by rw [path]; exact nofun)], ?_, fun k => absurd k unopened,
      fun _ => ⟨path, episode, drives, stats⟩⟩
    constructor <;> intros <;> rw [stats]

theorem Table.pathReset_revision (x : Table) :
    x.pathReset.revision = if x.sheets = [] then x.revision else x.revision + 1 := by
  unfold Table.pathReset
  simp

theorem pathReset_asked (p : Part) : answerFrame ⟨0x1C, []⟩ p = p.answerPathReset := rfl

/-- Settles O19: what is left is an emptied machine, on which the diverters and, in HELD, a sweep that builds a plan of nothing are all
there is to judge. -/
theorem pathResetTaken : Obligations.PathResetTaken := by
  intro w p t hs hp
  have taken := (pathReset_asked (p.found t 0x1C [])).trans (Part.answerPathReset_eq (s := p.found t 0x1C []) hp)
  have moves : Moves .inner .settled (p.found t 0x1C []) .settled (p.found t 0x1C []).resetTo.judge := by
    have all := (p.found t 0x1C []).answerPathReset_moves (q := .inner) rfl
    rwa [Part.answerPathReset_eq (s := p.found t 0x1C []) hp] at all
  have left := (p.found t 0x1C []).resetTo_left
  generalize (p.found t 0x1C []).resetTo.judge = q at *
  obtain ⟨⟨vacant, intake, list, table, dry, gate, stations, timers, ⟨next, exhausted, cls⟩, ⟨hold, setEnd⟩, ⟨selector, normal, priority⟩,
    clutch, stapler, ejector⟩, revision, counts, opened, idle⟩ := left
  refine completes_of (c := .pathReset t []) (s := ⟨w, p⟩) rfl hs taken moves.inner_eq.2.2.1 ⟨repliedTo_of moves, ⟨?_, ?_, list⟩, ?_,
    vacant.sheets, vacant.calls, vacant.merge, vacant.finisher, dry, timers, next, exhausted, cls, gate, hold, setEnd, selector, normal, priority,
    vacant.unconfirmed, ?_, ?_, ?_, vacant.unread, revision, counts.station, counts.tray, counts.stationSet, counts.traySet, counts.width,
    counts.watermark, counts.path, stations, clutch, stapler, ejector, ?_⟩
  · exact congrArg Intake.normal intake
  · exact congrArg Intake.priority intake
  · exact congrArg Intake.slots intake
  · exact congrArg Intake.lowNormal intake
  · exact congrArg Intake.lowPriority intake
  · exact (congrArg Table.revision table).trans (Table.pathReset_revision _)
  · split
    · next found => exact opened found
    · next found => exact idle found

end Sys2Proof.Machine
end


-- ==== Sys2Proof/Proofs/Ledgers.lean ====
section
/-! PROOF. The ledger of the page records: what the invariant of O54 looks at, image-ready flags and tracking apart (R41). -/

namespace Sys2Proof.Machine

variable {s t : Part}

/-! ## Page records but for their image-ready flags -/

theorem pairsUp_core (w : Bool) (l : List Page) : pairsUp w (l.map Page.core) ↔ pairsUp w l := by
  induction l using pairsUp.induct with
  | case1 => exact Iff.rfl
  | case2 x => exact Iff.rfl
  | case3 x y rest h ih =>
    have h' : x.core.awaitsBack = true := h
    simp only [List.map_cons, pairsUp, if_pos h, if_pos h', ih]
    exact Iff.rfl
  | case4 x y rest h ih =>
    have h' : ¬ x.core.awaitsBack = true := h
    simp only [List.map_cons] at ih
    simp only [List.map_cons, pairsUp, if_neg h, if_neg h', ih]
    exact Iff.rfl

/-- The order of the Reprint List, on pages. -/
def Page.before (a b : Page) : Prop :=
  a.origin.getD 0 < b.origin.getD 0 ∨ (a.origin.getD 0 = b.origin.getD 0 ∧ (a.side = .back → b.side = .back))

/-- A sheet's pages and way: the pages a whole sheet of one job, the itinerary that of its destination, none for the purge bin. -/
structure Sheet.fits (d : Desc) (x : Sheet) : Prop where
  pairs : pairsUp false x.pages
  back : x.back.isSome = true → x.front.any Page.awaitsBack = true
  job : ∀ y ∈ x.pages, y.job = x.job
  way : x.itinerary = d.itinerary x.kind x.source x.dest
  purging : x.cond = .purging → x.dest = .purge
  bare : x.dest = .purge → x.pages = []

theorem Sheet.core_pages (x : Sheet) : x.core.pages = x.pages.map Page.core := by
  unfold Sheet.pages Sheet.core
  cases x.front <;> cases x.back <;> rfl

theorem Sheet.core_fits (d : Desc) (x : Sheet) : x.core.fits d ↔ x.fits d := by
  have back : x.core.back.isSome = x.back.isSome := Option.isSome_map
  have front : x.core.front.any Page.awaitsBack = x.front.any Page.awaitsBack := by
    unfold Sheet.core
    cases x.front <;> rfl
  constructor
  · rintro ⟨h₁, h₂, h₃, h₄, h₅, h₆⟩
    rw [x.core_pages] at h₁ h₃ h₆
    rw [back, front] at h₂
    exact ⟨(pairsUp_core ..).mp h₁, h₂, fun y hy => h₃ y.core (List.mem_map_of_mem hy), h₄, h₅, fun h => List.map_eq_nil_iff.mp (h₆ h)⟩
  · rintro ⟨h₁, h₂, h₃, h₄, h₅, h₆⟩
    refine ⟨?_, ?_, ?_, h₄, h₅, ?_⟩
    · rw [x.core_pages]
      exact (pairsUp_core ..).mpr h₁
    · rwa [back, front]
    · rw [x.core_pages]
      intro y hy
      obtain ⟨z, hz, rfl⟩ := List.mem_map.mp hy
      exact h₃ z hz
    · rw [x.core_pages]
      exact fun h => by rw [h₆ h]; rfl

/-! ## The ledger -/

/-- What accounts for the pages: the queues, the slots, the Reprint List, the sheets, the Compile Set, and what they rest on. -/
@[ext] structure Ledger where
  normal : List Page
  priority : List Page
  slots : Vector (Option Slot) 8
  list : List Page
  sheets : List Sheet
  /-- the pages of each sheet in the compile tray -/
  held : List (List Page)
  ident : Option (Nat × Nat)
  /-- the Compile Set is EMPTY -/
  vacant : Bool
  path : PathState
  next : Nat
  force : Desc
  /-- the sheet each station's covering entry names -/
  covers : Fin 24 → Option Nat

def Part.ledger (s : Part) : Ledger where
  normal := s.intake.normal.map Page.core
  priority := s.intake.priority.map Page.core
  slots := s.intake.slots
  list := s.planner.list.map fun e => e.page.core
  sheets := s.table.sheets.map Sheet.core
  held := s.finisher.sheets.map fun h => h.pages.map Page.core
  ident := s.finisher.ident
  vacant := decide (s.finisher.state = .empty)
  path := s.feed.path
  next := s.feed.nextSheet
  force := s.force
  covers := fun st => (s.stations[st]).cover.map Cover.sheet

/-- The page records outside the queues. -/
def Ledger.bound (L : Ledger) : List Page := L.list ++ L.sheets.flatMap Sheet.pages ++ L.held.flatten

/-- The page records, place by place. -/
def Ledger.records (L : Ledger) : List Page := L.normal ++ L.priority ++ L.bound

/-- The origins of some sheets' worth of pages, one for each. -/
def originsOf (l : List Page) : List (Option Nat) := (l.filter fun x => x.side != .back).map Page.origin

/-- The slots' counts balance over page records, each of a job that holds one slot. -/
structure Accounts (slots : Vector (Option Slot) 8) (records : List Page) : Prop where
  balance : ∀ i : Fin 8, ∀ x ∈ slots[i], x.accepted = x.delivered + x.abandoned + records.countP fun y => y.job == x.job
  oneSlot : ∀ i j : Fin 8, ∀ x ∈ slots[i], ∀ y ∈ slots[j], x.job = y.job → i = j
  hasSlot : ∀ y ∈ records, ∃ i : Fin 8, ∃ x ∈ slots[i], x.job = y.job

/-- Each sheet's worth of pages has an origin of its own, a sheet number already given. -/
structure Traced (next : Nat) (bound : List Page) : Prop where
  nodup : (originsOf bound).Nodup
  below : ∀ o ∈ originsOf bound, ∃ n ∈ o, n < next

/-- A sheet under FINISHER ENTRY fits the Compile Set. -/
def Ledger.welcomes (L : Ledger) (job set : Nat) : Prop := L.vacant = true ∨ L.ident = some (job, set)

/-- The station whose covering entry is not judged yet. -/
def Phase.exempts : Phase → Fin 24 → Prop
  | .arriving _ st _, k => st = k
  | _, _ => False

/-- What an arrival and a departure under way know of their sheet. -/
def Ledger.owes (L : Ledger) : Phase → Prop
  | .arriving x st path =>
    (L.force.roleOf st = some .finisherEntry → path = .halting → x.cond = .runningOut) ∧
      (∀ n, L.covers st = some n → n = x.number) ∧
      ∀ y ∈ L.sheets, y.number = x.number → y.job = x.job ∧ y.set = x.set
  | .leaving x st =>
    (L.force.roleOf st = some .finisherEntry → L.welcomes x.job x.set) ∧ L.force.badPath = none ∧ L.covers st = none ∧
      ∃ y ∈ L.sheets, { y with cond := x.cond } = x.core
  | _ => True

/-- Every page record is in exactly one place and the slots' counts balance (R41), with what keeps it so. -/
structure Ledger.sound (a : Phase) (L : Ledger) : Prop where
  valid : L.path ≠ .unconfigured → L.force.badPath = none
  accounts : Accounts L.slots L.records
  queues : pairsUp true L.normal ∧ pairsUp true L.priority
  fresh : ∀ y ∈ L.normal ++ L.priority, y.origin = none
  list : pairsUp false L.list ∧ L.list.Pairwise Page.before
  traced : Traced L.next L.bound
  sheets : ∀ x ∈ L.sheets, x.fits L.force
  held : ∀ l ∈ L.held, pairsUp false l ∧ (l.countP fun y => y.side != .back) ≤ 1 ∧ ∀ y ∈ l, L.ident.map Prod.fst = some y.job
  noSet : L.vacant = true → L.held = []
  halting : L.path = .halting → ∀ x ∈ L.sheets, x.cond ≠ .normal
  covers : ∀ st : Fin 24, ∀ n ∈ L.covers st, n < L.next ∧ (¬ a.exempts st → L.force.roleOf st = some .finisherEntry →
    ∀ x ∈ L.sheets, x.number = n → x.cond ≠ .stranded → L.welcomes x.job x.set)
  owes : L.owes a

theorem Part.ledger_bound (s : Part) : s.ledger.bound = (s.planner.list.map Entry.page ++ s.table.sheets.flatMap Sheet.pages ++
    s.finisher.sheets.flatMap Held.pages).map Page.core := by
  have sheets : (s.table.sheets.map Sheet.core).flatMap Sheet.pages = (s.table.sheets.flatMap Sheet.pages).map Page.core := by
    rw [List.flatMap_map, List.map_flatMap]
    exact List.flatMap_congr fun x _ => x.core_pages
  have held : (s.finisher.sheets.map fun h => h.pages.map Page.core).flatten = (s.finisher.sheets.flatMap Held.pages).map Page.core := by
    rw [List.map_flatMap, List.flatMap_def]
  unfold Ledger.bound Part.ledger
  dsimp only
  rw [sheets, held, List.map_append, List.map_append, List.map_map]
  rfl

theorem Part.ledger_records (s : Part) : s.ledger.records = s.records.map Page.core := by
  unfold Ledger.records Part.records
  rw [s.ledger_bound]
  simp only [Part.ledger, List.map_append, List.append_assoc]

theorem Part.ledger_origins (s : Part) : originsOf s.ledger.bound = s.origins := by
  unfold originsOf Part.origins
  rw [s.ledger_bound, List.filter_map, List.map_map]
  rfl

theorem Part.ledger_list (s : Part) : s.ledger.list = (s.planner.list.map Entry.page).map Page.core := by
  rw [List.map_map]
  rfl

theorem Part.ledger_queues (s : Part) : s.ledger.normal ++ s.ledger.priority = (s.intake.normal ++ s.intake.priority).map Page.core := by
  rw [List.map_append]
  rfl

theorem Part.ledger_covers (s : Part) (st : Fin 24) (n : Nat) : s.ledger.covers st = some n ↔ ∃ c ∈ (s.stations[st]).cover, c.sheet = n := by
  simp [Part.ledger, Option.map_eq_some_iff]

theorem Part.ledger_welcomes (s : Part) (job set : Nat) :
    s.ledger.welcomes job set ↔ s.finisher.state = .empty ∨ s.finisher.ident = some (job, set) := by
  simp [Ledger.welcomes, Part.ledger]

/-- The invariant of O54 is the order of the table, its emptiness at rest and a sound ledger. -/
theorem Part.pagesSound_iff : s.pagesSound ↔ s.tableSound ∧ s.emptyAtRest ∧ s.ledger.sound .settled := by
  have count : ∀ job : Nat, (s.ledger.records.countP fun y => y.job == job) = s.records.countP fun y => y.job == job := fun job => by
    rw [s.ledger_records, List.countP_map]
    rfl
  constructor
  · rintro ⟨table, empty, valid, balance, oneSlot, hasSlot, queues, fresh, ⟨pairs, order⟩, origins, sheets, held, noSet, halting, covers⟩
    refine ⟨table, empty, ⟨valid, ⟨fun i x hx => ?_, oneSlot, ?_⟩, ?_, ?_, ?_, ?_, ?_, ?_, ?_, ?_, fun st n hn => ?_, trivial⟩⟩
    · rw [count]
      exact balance i x hx
    · rw [s.ledger_records]
      intro z hy
      obtain ⟨y, hm, rfl⟩ := List.mem_map.mp hy
      exact hasSlot y hm
    · exact ⟨(pairsUp_core ..).mpr queues.1, (pairsUp_core ..).mpr queues.2⟩
    · intro y hy
      rw [s.ledger_queues] at hy
      obtain ⟨z, hz, rfl⟩ := List.mem_map.mp hy
      exact fresh z hz
    · refine ⟨?_, List.pairwise_map.mpr order⟩
      rw [s.ledger_list]
      exact (pairsUp_core ..).mpr pairs
    · exact ⟨by rw [s.ledger_origins]; exact origins.1, by rw [s.ledger_origins]; exact origins.2⟩
    · intro z hx
      obtain ⟨x, hm, rfl⟩ := List.mem_map.mp hx
      obtain ⟨pairs, -, back, job, way, purging, bare⟩ := sheets x hm
      exact (x.core_fits _).mpr ⟨pairs, back, job, way, purging, bare⟩
    · intro z hl
      obtain ⟨h, hh, rfl⟩ := List.mem_map.mp hl
      obtain ⟨pairs, few, job⟩ := held h hh
      refine ⟨(pairsUp_core ..).mpr pairs, ?_, fun y hy => ?_⟩
      · rw [List.countP_map]
        exact few
      · obtain ⟨z, hz, rfl⟩ := List.mem_map.mp hy
        exact job z hz
    · intro empty
      rw [show s.ledger.held = s.finisher.sheets.map fun h => h.pages.map Page.core from rfl, noSet (by simpa [Part.ledger] using empty)]
      rfl
    · intro path z hx
      obtain ⟨x, hm, rfl⟩ := List.mem_map.mp hx
      exact halting path x hm
    · obtain ⟨c, hc, rfl⟩ := (s.ledger_covers st n).mp hn
      obtain ⟨below, welcome⟩ := covers st c hc
      refine ⟨below, fun _ role x hx number cond => ?_⟩
      obtain ⟨y, hy, rfl⟩ := List.mem_map.mp hx
      exact (s.ledger_welcomes ..).mpr (welcome role y hy number cond)
  · rintro ⟨table, empty, ⟨valid, ⟨balance, oneSlot, hasSlot⟩, queues, fresh, ⟨pairs, order⟩, ⟨nodup, below⟩, sheets, held, noSet, halting, covers, -⟩⟩
    refine ⟨table, empty, valid, fun i x hx => ?_, oneSlot, fun y hy => ?_, ?_, fun y hy => ?_, ⟨?_, List.pairwise_map.mp order⟩, ?_,
      fun x hx => ?_, fun h hh => ?_, fun empty => ?_, fun path x hx => ?_, fun st c hc => ?_⟩
    · rw [← count]
      exact balance i x hx
    · exact hasSlot y.core (by rw [s.ledger_records]; exact List.mem_map_of_mem hy)
    · exact ⟨(pairsUp_core ..).mp queues.1, (pairsUp_core ..).mp queues.2⟩
    · refine fresh y.core ?_
      rw [s.ledger_queues]
      exact List.mem_map_of_mem hy
    · rw [s.ledger_list] at pairs
      exact (pairsUp_core ..).mp pairs
    · rw [← s.ledger_origins]
      exact ⟨nodup, below⟩
    · obtain ⟨pairs, back, job, way, purging, bare⟩ := (x.core_fits _).mp (sheets x.core (List.mem_map_of_mem hx))
      refine ⟨pairs, ?_, back, job, way, purging, bare⟩
      unfold Sheet.pages
      cases x.front <;> cases x.back <;> simp
    · obtain ⟨pairs, few, job⟩ := held _ (List.mem_map_of_mem hh)
      refine ⟨(pairsUp_core ..).mp pairs, ?_, fun y hy => job y.core (List.mem_map_of_mem hy)⟩
      rw [List.countP_map] at few
      exact few
    · have none := noSet (by simpa [Part.ledger] using empty)
      exact List.map_eq_nil_iff.mp none
    · exact halting path x.core (List.mem_map_of_mem hx)
    · obtain ⟨below, welcome⟩ := covers st c.sheet ((s.ledger_covers st c.sheet).mpr ⟨c, hc, rfl⟩)
      refine ⟨below, fun role x hx number cond => ?_⟩
      exact (s.ledger_welcomes ..).mp (welcome id role x.core (List.mem_map_of_mem hx) number cond)

end Sys2Proof.Machine
end

