-- ==== Sys2Proof/Proofs/PagePairs.lean ====
section
/-! PROOF. Lists of whole sheets' pages: taken apart and joined, and a sheet's pages placed among others in the order of R134. -/

namespace Sys2Proof.Machine

variable {w : Bool} {x y p f b : Page} {l g m : List Page}

/-! ## Whole sheets (R28, R29) -/

theorem Page.side_of_awaitsBack (h : x.awaitsBack = true) : x.side = .front := by
  unfold Page.awaitsBack at h
  rw [Bool.and_eq_true, beq_iff_eq] at h
  exact h.1

theorem pairsUp_single (h : ¬ x.awaitsBack = true) : pairsUp w (x :: l) ↔ x.side ≠ .back ∧ pairsUp w l := by
  cases l with
  | nil =>
    simp only [pairsUp, Bool.not_eq_true] at h ⊢
    simp [h]
  | cons y l => simp only [pairsUp, if_neg h]

theorem pairsUp_pair (h : x.awaitsBack = true) :
    pairsUp w (x :: y :: l) ↔ y.side = .back ∧ y.job = x.job ∧ y.origin = x.origin ∧ pairsUp w l := by
  simp only [pairsUp, if_pos h]

/-- Whole sheets begin with no back. -/
theorem pairsUp_head (h : pairsUp w (x :: l)) : x.side ≠ .back := by
  by_cases front : x.awaitsBack = true
  · rw [Page.side_of_awaitsBack front]
    exact nofun
  · exact ((pairsUp_single front).mp h).1

/-- Whole sheets, one by one: nothing, a page without a back, or a front with its back. -/
theorem pairsUp_induction {φ : ∀ l, pairsUp false l → Prop} (nil : φ [] trivial)
    (single : ∀ x l (bare : ¬ x.awaitsBack = true) (side : x.side ≠ .back) (rest : pairsUp false l), φ l rest →
      φ (x :: l) ((pairsUp_single bare).mpr ⟨side, rest⟩))
    (pair : ∀ x y l (front : x.awaitsBack = true) (side : y.side = .back) (job : y.job = x.job) (origin : y.origin = x.origin)
      (rest : pairsUp false l), φ l rest → φ (x :: y :: l) ((pairsUp_pair front).mpr ⟨side, job, origin, rest⟩))
    {l : List Page} (h : pairsUp false l) : φ l h := by
  induction l using pairsUp.induct with
  | case1 => exact nil
  | case2 x =>
    have bare : ¬ x.awaitsBack = true := by simpa [pairsUp] using h.2
    exact single x [] bare h.1 trivial nil
  | case3 x y l front ih =>
    obtain ⟨side, job, origin, rest⟩ := (pairsUp_pair front).mp h
    exact pair x y l front side job origin rest (ih rest)
  | case4 x y l bare ih =>
    obtain ⟨side, rest⟩ := (pairsUp_single bare).mp h
    exact single x (y :: l) bare side rest (ih rest)

theorem pairsUp_append (h : pairsUp false l) (k : pairsUp w m) : pairsUp w (l ++ m) := by
  induction h using pairsUp_induction with
  | nil => exact k
  | single x l bare side _ ih => exact (pairsUp_single bare).mpr ⟨side, ih⟩
  | pair x y l front side job origin _ ih => exact (pairsUp_pair front).mpr ⟨side, job, origin, ih⟩

/-- Every page of whole sheets has beside it a front, or a page of one side, of its origin. -/
theorem pairsUp_front (h : pairsUp false l) : ∀ y ∈ l, ∃ x ∈ l, x.side ≠ .back ∧ x.origin = y.origin := by
  induction h using pairsUp_induction with
  | nil => exact fun y hy => absurd hy List.not_mem_nil
  | single x l _ side _ ih =>
    intro y hy
    rcases List.mem_cons.mp hy with rfl | hy
    · exact ⟨y, List.mem_cons_self, side, rfl⟩
    · obtain ⟨z, hz, k⟩ := ih y hy
      exact ⟨z, List.mem_cons_of_mem _ hz, k⟩
  | pair x y l front _ _ origin _ ih =>
    have first : x.side ≠ .back := by rw [Page.side_of_awaitsBack front]; exact nofun
    intro z hz
    rcases List.mem_cons.mp hz with rfl | hz
    · exact ⟨z, List.mem_cons_self, first, rfl⟩
    · rcases List.mem_cons.mp hz with rfl | hz
      · exact ⟨x, List.mem_cons_self, first, origin.symm⟩
      · obtain ⟨v, hv, k⟩ := ih z hz
        exact ⟨v, List.mem_cons_of_mem _ (List.mem_cons_of_mem _ hv), k⟩

/-- Whole sheets cut where pages of one origin stay together. -/
theorem pairsUp_cut (q : Page → Bool) (h : pairsUp false l) (together : ∀ x ∈ l, ∀ y ∈ l, y.origin = x.origin → q y = q x) :
    pairsUp false (l.takeWhile q) ∧ pairsUp false (l.dropWhile q) := by
  induction h using pairsUp_induction with
  | nil => exact ⟨trivial, trivial⟩
  | single x l bare side rest ih =>
    obtain ⟨first, second⟩ := ih fun x hx y hy => together x (List.mem_cons_of_mem _ hx) y (List.mem_cons_of_mem _ hy)
    cases hq : q x with
    | true =>
      rw [List.takeWhile_cons_of_pos hq, List.dropWhile_cons_of_pos hq]
      exact ⟨(pairsUp_single bare).mpr ⟨side, first⟩, second⟩
    | false =>
      rw [List.takeWhile_cons_of_neg (by simp [hq]), List.dropWhile_cons_of_neg (by simp [hq])]
      exact ⟨trivial, (pairsUp_single bare).mpr ⟨side, rest⟩⟩
  | pair x y l front side job origin rest ih =>
    obtain ⟨first, second⟩ := ih fun x hx y hy =>
      together x (List.mem_cons_of_mem _ (List.mem_cons_of_mem _ hx)) y (List.mem_cons_of_mem _ (List.mem_cons_of_mem _ hy))
    have same := together x List.mem_cons_self y (List.mem_cons_of_mem _ List.mem_cons_self) origin
    cases hq : q x with
    | true =>
      rw [List.takeWhile_cons_of_pos hq, List.dropWhile_cons_of_pos hq, List.takeWhile_cons_of_pos (same.trans hq),
        List.dropWhile_cons_of_pos (same.trans hq)]
      exact ⟨(pairsUp_pair front).mpr ⟨side, job, origin, first⟩, second⟩
    | false =>
      rw [List.takeWhile_cons_of_neg (by simp [hq]), List.dropWhile_cons_of_neg (by simp [hq])]
      exact ⟨trivial, (pairsUp_pair front).mpr ⟨side, job, origin, rest⟩⟩

/-- The pages of one sheet: none, one, or a front and its back. -/
theorem pairsUp_sheet (h : pairsUp false g) (one : (g.countP fun y => y.side != .back) ≤ 1) :
    g = [] ∨ (∃ x, g = [x] ∧ ¬ x.awaitsBack = true ∧ x.side ≠ .back) ∨
      ∃ f b, g = [f, b] ∧ f.awaitsBack = true ∧ b.side = .back ∧ b.job = f.job ∧ b.origin = f.origin := by
  have none : ∀ {l : List Page}, pairsUp false l → (l.countP fun y => y.side != .back) = 0 → l = [] := fun {l} k few => by
    cases l with
    | nil => rfl
    | cons z l =>
      have := List.countP_eq_zero.mp few z List.mem_cons_self
      exact absurd (pairsUp_head k) (by simpa using this)
  cases h using pairsUp_induction with
  | nil => exact .inl rfl
  | single x l bare side rest _ =>
    have count : (l.countP fun y => y.side != .back) = 0 := by
      rw [List.countP_cons_of_pos (by simpa using side)] at one
      omega
    exact .inr (.inl ⟨x, by rw [none rest count], bare, side⟩)
  | pair x y l front side job origin rest _ =>
    have first : (x.side != .back) = true := by rw [Page.side_of_awaitsBack front]; rfl
    have count : (l.countP fun y => y.side != .back) = 0 := by
      simp only [List.countP_cons, first, side] at one
      simpa using one
    exact .inr (.inr ⟨x, y, by rw [none rest count], front, side, job, origin⟩)

/-! ## Pages placed in order (R134) -/

/-- `x` stands before `p`, whose key is not below its own. -/
def Page.precedes (x p : Page) : Bool :=
  decide (x.orderKey.1 < p.orderKey.1) || (x.orderKey.1 == p.orderKey.1 && decide (x.orderKey.2 ≤ p.orderKey.2))

/-- A page placed in order. -/
def insertPage (p : Page) (l : List Page) : List Page :=
  l.takeWhile (fun x => x.precedes p) ++ p :: l.dropWhile (fun x => x.precedes p)

/-- Pages placed in turn. -/
def insertPages (g l : List Page) : List Page := g.foldl (fun l p => insertPage p l) l

theorem insertEntry_pages (e : Entry) (l : List Entry) :
    (insertEntry e l).map (fun e => e.page.core) = insertPage e.page.core (l.map fun e => e.page.core) := by
  unfold insertEntry insertPage
  rw [List.map_append, List.map_cons, List.takeWhile_map, List.dropWhile_map]
  rfl

theorem insertAll_pages (reason : Reason) (g : List Page) (l : List Entry) :
    (g.foldl (fun l x => insertEntry ⟨x, reason⟩ l) l).map (fun e => e.page.core) =
      insertPages (g.map Page.core) (l.map fun e => e.page.core) := by
  unfold insertPages
  induction g generalizing l with
  | nil => rfl
  | cons x g ih => rw [List.foldl_cons, ih, List.map_cons, List.foldl_cons, insertEntry_pages]

theorem insertPage_perm (p : Page) (l : List Page) : (insertPage p l).Perm (p :: l) := by
  unfold insertPage
  refine List.perm_middle.trans ?_
  rw [List.takeWhile_append_dropWhile]

theorem insertPages_perm (g l : List Page) : (insertPages g l).Perm (g ++ l) := by
  unfold insertPages
  induction g generalizing l with
  | nil => exact .refl _
  | cons x g ih => exact (ih _).trans (((insertPage_perm x l).append_left g).trans List.perm_middle)

theorem insertPages_append (g h l : List Page) : insertPages (g ++ h) l = insertPages h (insertPages g l) := List.foldl_append ..

theorem Page.precedes_iff : x.precedes p = true ↔ x.before p := by
  unfold Page.precedes Page.before Page.orderKey
  simp only [Bool.or_eq_true, Bool.and_eq_true, decide_eq_true_eq, beq_iff_eq, Side.rank_le_iff]

theorem Page.before_of_not_precedes (h : x.precedes p = false) : p.before x :=
  Entry.after_of_not_precedes (a := ⟨x, .spoiled⟩) (r := .spoiled) h

theorem Page.before_trans {a b c : Page} (h : a.before b) (k : b.before c) : a.before c :=
  Entry.before_trans (a := ⟨a, .spoiled⟩) (b := ⟨b, .spoiled⟩) (c := ⟨c, .spoiled⟩) h k

theorem insertPage_ordered (p : Page) (h : l.Pairwise Page.before) : (insertPage p l).Pairwise Page.before :=
  pairwise_place h (fun _ _ hx => Page.precedes_iff.mp hx) (fun _ _ hx => Page.before_of_not_precedes hx)
    (fun _ _ _ _ => Page.before_trans) fun _ _ _ _ => Page.before_trans

theorem insertPages_ordered (g : List Page) (h : l.Pairwise Page.before) : (insertPages g l).Pairwise Page.before := by
  unfold insertPages
  induction g generalizing l with
  | nil => exact h
  | cons x g ih => exact ih (insertPage_ordered x h)

/-- Among other origins, a page stands before exactly where its origin is the smaller. -/
theorem Page.precedes_of_apart (h : p.origin.getD 0 ≠ x.origin.getD 0) : x.precedes p = decide (x.origin.getD 0 < p.origin.getD 0) := by
  unfold Page.precedes Page.orderKey
  have : (x.origin.getD 0 == p.origin.getD 0) = false := by simpa using fun e => h e.symm
  rw [this, Bool.false_and, Bool.or_false]

theorem takeWhile_congr {α : Type} {q r : α → Bool} {l : List α} (h : ∀ x ∈ l, q x = r x) : l.takeWhile q = l.takeWhile r := by
  induction l with
  | nil => rfl
  | cons x l ih =>
    rw [List.takeWhile_cons, List.takeWhile_cons, h x List.mem_cons_self, ih fun y hy => h y (List.mem_cons_of_mem _ hy)]

theorem takeWhile_dropWhile_self {α : Type} (q : α → Bool) (l : List α) : (l.dropWhile q).takeWhile q = [] := by
  induction l with
  | nil => rfl
  | cons x l ih =>
    cases hq : q x with
    | true => rwa [List.dropWhile_cons_of_pos hq]
    | false => rw [List.dropWhile_cons_of_neg (by simp [hq]), List.takeWhile_cons_of_neg (by simp [hq])]

theorem dropWhile_eq_self {α : Type} {q : α → Bool} {l : List α} (h : l.takeWhile q = []) : l.dropWhile q = l := by
  have all := List.takeWhile_append_dropWhile (p := q) (l := l)
  rwa [h, List.nil_append] at all

/-- A front and its back placed one after the other, among other origins, stand side by side. -/
theorem insertPages_pair (front : f.awaitsBack = true) (origin : b.origin = f.origin) (apart : ∀ y ∈ l, f.origin.getD 0 ≠ y.origin.getD 0) :
    insertPages [f, b] l = l.takeWhile (fun x => x.precedes f) ++ f :: b :: l.dropWhile (fun x => x.precedes f) := by
  have same : ∀ y ∈ l, y.precedes b = y.precedes f := fun y hy => by
    rw [Page.precedes_of_apart (apart y hy), Page.precedes_of_apart (by rw [origin]; exact apart y hy), origin]
  have own : f.precedes b = true := by
    unfold Page.precedes Page.orderKey
    rw [origin, Page.side_of_awaitsBack front]
    simp [Side.rank]
  have taken : ∀ y ∈ l.takeWhile (fun x => x.precedes f), y.precedes b = true := fun y hy => by
    rw [same y ((List.takeWhile_sublist _).subset hy)]
    exact List.mem_takeWhile_imp (p := fun x : Page => x.precedes f) hy
  have left : (l.dropWhile (fun x => x.precedes f)).takeWhile (fun x => x.precedes b) = [] := by
    rw [takeWhile_congr fun y hy => same y ((List.dropWhile_sublist _).subset hy), takeWhile_dropWhile_self]
  show insertPage b (insertPage f l) = _
  unfold insertPage
  generalize l.takeWhile (fun x => x.precedes f) = first at taken ⊢
  generalize l.dropWhile (fun x => x.precedes f) = rest at left ⊢
  have take : (first ++ f :: rest).takeWhile (fun x => x.precedes b) = first ++ [f] := by
    rw [List.takeWhile_append_of_pos taken, List.takeWhile_cons, own, left]
    rfl
  have drop : (first ++ f :: rest).dropWhile (fun x => x.precedes b) = rest := by
    rw [List.dropWhile_append_of_pos taken, List.dropWhile_cons, own, dropWhile_eq_self left]
    rfl
  rw [take, drop]
  simp

/-- A sheet's pages placed among whole sheets of other origins leave whole sheets. -/
theorem insertPages_whole (hl : pairsUp false l) (hg : pairsUp false g) (one : (g.countP fun y => y.side != .back) ≤ 1)
    (apart : ∀ x ∈ g, ∀ y ∈ l, x.origin.getD 0 ≠ y.origin.getD 0) : pairsUp false (insertPages g l) := by
  have cut : ∀ x ∈ g, pairsUp false (l.takeWhile fun y => y.precedes x) ∧ pairsUp false (l.dropWhile fun y => y.precedes x) := fun x hx =>
    pairsUp_cut _ hl fun y hy z hz e => by
      rw [Page.precedes_of_apart (apart x hx y hy), Page.precedes_of_apart (apart x hx z hz), e]
  rcases pairsUp_sheet hg one with rfl | ⟨x, rfl, bare, side⟩ | ⟨f, b, rfl, front, side, job, origin⟩
  · exact hl
  · obtain ⟨first, second⟩ := cut x List.mem_cons_self
    exact pairsUp_append first ((pairsUp_single bare).mpr ⟨side, second⟩)
  · obtain ⟨first, second⟩ := cut f List.mem_cons_self
    rw [insertPages_pair front origin (apart f List.mem_cons_self)]
    exact pairsUp_append first ((pairsUp_pair front).mpr ⟨side, job, origin, second⟩)

end Sys2Proof.Machine
end

