-- ==== Sys2Proof/Proofs/LedgersCarried.lean ====
section
/-! PROOF. What most moves make of a ledger: path states, covering entries that go, sheets stranded or running out (R41). -/

namespace Sys2Proof.Machine

variable {s t u : Part} {L M : Ledger} {a b : Phase} {A : List Block}

/-! ## Ledgers -/

/-- A sheet record but for its condition. -/
def Sheet.filed (x : Sheet) : Sheet := { x with cond := .normal }

theorem Sheet.filed_kept {x y : Sheet} (h : y.filed = x.filed) : y.number = x.number ∧ y.job = x.job ∧ y.set = x.set ∧ y.pages = x.pages :=
  ⟨(congrArg Sheet.number h :), (congrArg Sheet.job h :), (congrArg Sheet.set h :), (congrArg Sheet.pages h :)⟩

theorem Sheet.filed_with {x y : Sheet} (h : y.filed = x.filed) (c : Condition) : ({ y with cond := c } : Sheet) = { x with cond := c } :=
  (congrArg (fun z : Sheet => { z with cond := c }) h :)

theorem Sheet.fits_filed {d : Desc} {x y : Sheet} (h : y.filed = x.filed) (k : x.fits d) (purging : y.cond = .purging → x.cond = .purging) :
    y.fits d := by
  obtain ⟨pairs, back, job, way, out, bare⟩ := k
  have pages : y.pages = x.pages := (congrArg Sheet.pages h :)
  have dest : y.dest = x.dest := (congrArg Sheet.dest h :)
  refine ⟨by rwa [pages], ?_, ?_, ?_, fun c => by rw [dest]; exact out (purging c), fun c => by rw [pages]; exact bare (dest ▸ c)⟩
  · rw [show y.back = x.back from (congrArg Sheet.back h :), show y.front = x.front from (congrArg Sheet.front h :)]
    exact back
  · rw [pages, show y.job = x.job from (congrArg Sheet.job h :)]
    exact job
  · rw [show y.itinerary = x.itinerary from (congrArg Sheet.itinerary h :), show y.kind = x.kind from (congrArg Sheet.kind h :),
      show y.source = x.source from (congrArg Sheet.source h :), dest]
    exact way

/-- A sheet marked: stranded, or running out of those that move. -/
def Sheet.marked (x y : Sheet) : Prop :=
  y.filed = x.filed ∧ (y.cond = x.cond ∨ y.cond = .stranded ∨ y.cond = .runningOut ∧ x.cond ≠ .stranded)

/-- The page records stay where they are; sheets are marked, covering entries go, and the path turns. -/
structure Ledger.carries (L M : Ledger) : Prop where
  normal : M.normal = L.normal
  priority : M.priority = L.priority
  slots : M.slots = L.slots
  list : M.list = L.list
  held : M.held = L.held
  ident : M.ident = L.ident
  vacant : M.vacant = L.vacant
  next : M.next = L.next
  force : M.force = L.force
  sheets : List.Forall₂ Sheet.marked L.sheets M.sheets
  covers : ∀ st, M.covers st = none ∨ M.covers st = L.covers st
  path : M.path = .unconfigured ∨ L.path ≠ .unconfigured
  halting : M.path = .halting → L.path = .halting ∨ ∀ x ∈ M.sheets, x.cond ≠ .normal

theorem forall₂_mem_right {α β : Type} {R : α → β → Prop} {l : List α} {m : List β} (h : List.Forall₂ R l m) {y : β} (hy : y ∈ m) :
    ∃ x ∈ l, R x y := by
  induction h with
  | nil => exact absurd hy List.not_mem_nil
  | cons r _ ih =>
    rcases List.mem_cons.mp hy with rfl | hy
    · exact ⟨_, List.mem_cons_self, r⟩
    · obtain ⟨x, hx, k⟩ := ih hy
      exact ⟨x, List.mem_cons_of_mem _ hx, k⟩

theorem Ledger.carries.mem (h : L.carries M) {y : Sheet} (hy : y ∈ M.sheets) : ∃ x ∈ L.sheets, x.marked y :=
  forall₂_mem_right h.sheets hy

theorem flatMap_pages_of_marked {l m : List Sheet} (h : List.Forall₂ Sheet.marked l m) : m.flatMap Sheet.pages = l.flatMap Sheet.pages := by
  induction h with
  | nil => rfl
  | cons marked _ ih => rw [List.flatMap_cons, List.flatMap_cons, ih, (Sheet.filed_kept marked.1).2.2.2]

theorem Ledger.carries.bound (h : L.carries M) : M.bound = L.bound := by
  unfold Ledger.bound
  rw [h.list, h.held, flatMap_pages_of_marked h.sheets]

theorem Ledger.carries.records (h : L.carries M) : M.records = L.records := by
  unfold Ledger.records
  rw [h.normal, h.priority, h.bound]

theorem Ledger.carries.welcomes (h : L.carries M) {job set : Nat} : M.welcomes job set ↔ L.welcomes job set := by
  unfold Ledger.welcomes
  rw [h.vacant, h.ident]

theorem Ledger.carries.owes (h : L.carries M) (k : L.owes a) : M.owes a := by
  cases a with
  | arriving x st path =>
    obtain ⟨role, cover, same⟩ := k
    refine ⟨by rwa [h.force], fun n hn => ?_, fun y hy number => ?_⟩
    · rcases h.covers st with none | e
      · rw [none] at hn
        cases hn
      · exact cover n (e ▸ hn)
    · obtain ⟨z, hz, filed, -⟩ := h.mem hy
      obtain ⟨number', job, set, -⟩ := Sheet.filed_kept filed
      rw [job, set]
      exact same z hz (number' ▸ number)
  | leaving x st =>
    obtain ⟨welcome, valid, bare, y, hy, e⟩ := k
    obtain ⟨z, hz, marked⟩ := forall₂_mem_right h.sheets.flip hy
    refine ⟨?_, by rwa [h.force], ?_, z, hz, ?_⟩
    · rw [h.force, h.welcomes]
      exact welcome
    · rcases h.covers st with none | same
      · exact none
      · rw [same, bare]
    · rw [Sheet.filed_with marked.1, e]
  | settled | delivering | resuming | resetting => trivial

/-- What carries a ledger keeps it sound. -/
theorem Ledger.carries.sound (h : L.carries M) (k : L.sound a) : M.sound a := by
  have owes := h.owes k.owes
  obtain ⟨valid, accounts, queues, fresh, list, traced, sheets, held, noSet, halting, covers, -⟩ := k
  refine ⟨fun path => ?_, by rwa [h.slots, h.records], by rwa [h.normal, h.priority], by rwa [h.normal, h.priority],
    by rwa [h.list], by rwa [h.bound, h.next], fun y hy => ?_, by rwa [h.held, h.ident], by rwa [h.vacant, h.held], fun path y hy => ?_,
    fun st n hn => ?_, owes⟩
  · rw [h.force]
    exact valid (h.path.resolve_left path)
  · obtain ⟨x, hx, filed, cond⟩ := h.mem hy
    rw [h.force]
    refine Sheet.fits_filed filed (sheets x hx) fun c => ?_
    rcases cond with e | e | ⟨e, -⟩
    · exact e ▸ c
    · rw [e] at c
      cases c
    · rw [e] at c
      cases c
  · rcases h.halting path with before | none
    · obtain ⟨x, hx, -, cond⟩ := h.mem hy
      rcases cond with e | e | ⟨e, -⟩
      · rw [e]
        exact halting before x hx
      · rw [e]
        exact nofun
      · rw [e]
        exact nofun
    · exact none y hy
  · have here : L.covers st = some n := by
      rcases h.covers st with none | e
      · rw [none] at hn
        cases hn
      · exact e ▸ hn
    obtain ⟨below, welcome⟩ := covers st n here
    refine ⟨by rwa [h.next], fun judged role y hy number moving => ?_⟩
    obtain ⟨x, hx, filed, cond⟩ := h.mem hy
    obtain ⟨number', job, set, -⟩ := Sheet.filed_kept filed
    rw [job, set, h.welcomes]
    refine welcome judged (h.force ▸ role) x hx (number' ▸ number) fun stranded => ?_
    rcases cond with e | e | ⟨-, e⟩
    · exact moving (e.trans stranded)
    · exact moving e
    · exact e stranded

/-- A ledger in a phase that owes less. -/
theorem Ledger.sound.phase (h : L.sound a) (judged : ∀ st, a.exempts st → b.exempts st) (owes : L.owes b) : L.sound b :=
  { h with covers := fun st n hn => ⟨(h.covers st n hn).1, fun free => (h.covers st n hn).2 fun k => free (judged st k)⟩, owes := owes }

/-! ## Moves that carry the ledger -/

/-- What the ledger keeps of a queue, of the Reprint List and of the Compile Set. -/
def Intake.paged (x : Intake) : List Page × List Page × Vector (Option Slot) 8 := (x.normal.map Page.core, x.priority.map Page.core, x.slots)

def Planner.paged (x : Planner) : List Page := x.list.map fun e => e.page.core

def Finisher.paged (f : Finisher) : List (List Page) × Option (Nat × Nat) × Bool :=
  (f.sheets.map fun h => h.pages.map Page.core, f.ident, decide (f.state = .empty))

/-- The sheets are marked. -/
def Part.marks (s t : Part) : Prop := List.Forall₂ (fun x y => x.core.marked y.core) s.table.sheets t.table.sheets

theorem Part.marks_map (g : Sheet → Sheet) (h : t.table.sheets = s.table.sheets.map g)
    (k : ∀ x ∈ s.table.sheets, x.core.marked (g x).core) : s.marks t := by
  unfold Part.marks
  rw [h, List.forall₂_map_right_iff]
  exact List.forall₂_same.mpr k

theorem Part.marks_of (h : t.table = s.table) : s.marks t :=
  Part.marks_map id (by rw [h, List.map_id]) fun _ _ => ⟨rfl, .inl rfl⟩

/-- The sheets the covering entries name stay or go. -/
def Part.namesGo (s t : Part) : Prop := ∀ st : Fin 24, (t.stations[st]).cover = none ∨
  (t.stations[st]).cover.map Cover.sheet = (s.stations[st]).cover.map Cover.sheet

theorem Part.namesGo_of (h : t.stations = s.stations) : s.namesGo t := fun st => .inr (by rw [h])

theorem Part.namesGo.covers (h : s.namesGo t) (st : Fin 24) : t.ledger.covers st = none ∨ t.ledger.covers st = s.ledger.covers st :=
  (h st).imp_left fun gone => by
    show (t.stations[st]).cover.map Cover.sheet = none
    rw [gone]
    rfl

theorem Part.carries_of (intake : t.intake.paged = s.intake.paged) (list : t.planner.paged = s.planner.paged)
    (finisher : t.finisher.paged = s.finisher.paged) (next : t.feed.nextSheet = s.feed.nextSheet) (force : t.force = s.force)
    (marks : s.marks t) (covers : s.namesGo t) (path : t.feed.path = .unconfigured ∨ s.feed.path ≠ .unconfigured)
    (halting : t.feed.path = .halting → s.feed.path = .halting ∨ ∀ x ∈ t.table.sheets, x.cond ≠ .normal) :
    s.ledger.carries t.ledger := by
  refine ⟨congrArg Prod.fst intake, congrArg (fun v => v.2.1) intake, congrArg (fun v => v.2.2) intake, list, congrArg Prod.fst finisher,
    congrArg (fun v => v.2.1) finisher, congrArg (fun v => v.2.2) finisher, next, force, ?_, covers.covers, path, fun h => ?_⟩
  · unfold Part.ledger
    rwa [List.forall₂_map_left_iff, List.forall₂_map_right_iff]
  · refine (halting h).imp id fun none y hy => ?_
    obtain ⟨x, hx, rfl⟩ := List.mem_map.mp hy
    exact none x hx

/-- Where the queues, the Reprint List, the sheets, the Compile Set, the stations and the description stand, and the next number. -/
theorem Part.carries_fed (via : Via A s t) (next : t.feed.nextSheet = s.feed.nextSheet)
    (path : t.feed.path = .unconfigured ∨ s.feed.path ≠ .unconfigured) (halting : t.feed.path = .halting → s.feed.path = .halting)
    (hA : ([.intake, .planner, .finisher, .force, .table, .stations].all fun b => !hasBlock A b) = true := by rfl) :
    s.ledger.carries t.ledger := by
  simp only [List.all_cons, List.all_nil, Bool.and_true, Bool.and_eq_true, Bool.not_eq_true'] at hA
  obtain ⟨intake, planner, finisher, force, table, stations⟩ := hA
  exact Part.carries_of (by rw [via.intake_eq intake]) (by rw [via.planner_eq planner]) (by rw [via.finisher_eq finisher]) next
    (via.force_eq force) (Part.marks_of (via.table_eq table)) (Part.namesGo_of (via.stations_eq stations)) path fun h => .inl (halting h)

/-- Where path, numbering and description stand. -/
theorem Part.carries_kept (intake : t.intake.paged = s.intake.paged) (list : t.planner.paged = s.planner.paged)
    (finisher : t.finisher.paged = s.finisher.paged) (path : t.feed.path = s.feed.path) (next : t.feed.nextSheet = s.feed.nextSheet)
    (force : t.force = s.force) (marks : s.marks t) (covers : s.namesGo t) : s.ledger.carries t.ledger := by
  refine Part.carries_of intake list finisher next force marks covers ?_ fun h => .inl (path ▸ h)
  rw [path]
  exact em _

theorem Move.carries {q : Mode} (m : Move q A a s b t)
    (hA : ([.intake, .planner, .finisher, .force, .table, .stations, .feed].all fun b => !hasBlock A b) = true) :
    s.ledger.carries t.ledger := by
  simp only [List.all_cons, List.all_nil, Bool.and_true, Bool.and_eq_true, Bool.not_eq_true'] at hA
  obtain ⟨intake, planner, finisher, force, table, stations, feed⟩ := hA
  have via := m.via
  exact Part.carries_kept (by rw [via.intake_eq intake]) (by rw [via.planner_eq planner]) (by rw [via.finisher_eq finisher])
    (by rw [via.feed_eq feed]) (by rw [via.feed_eq feed]) (via.force_eq force) (Part.marks_of (via.table_eq table))
    (Part.namesGo_of (via.stations_eq stations))

/-- The path turns as it may while the ledger is carried. -/
def Feed.turns (f g : Feed) : Prop :=
  g.nextSheet = f.nextSheet ∧ (g.path = .unconfigured ∨ f.path ≠ .unconfigured) ∧ (g.path = .halting → f.path = .halting)

theorem Feed.turns_of {f g : Feed} (path : g.path = f.path) (next : g.nextSheet = f.nextSheet) : f.turns g :=
  ⟨next, by rw [path]; exact em _, fun h => path ▸ h⟩

theorem Feed.turns_to {f g : Feed} {p : PathState} (next : g.nextSheet = f.nextSheet) (path : g.path = p)
    (configured : p = .unconfigured ∨ f.path ≠ .unconfigured) (unhalted : p ≠ .halting) : f.turns g :=
  ⟨next, by rwa [path], fun h => absurd (path ▸ h) unhalted⟩

theorem Part.carries_feed (via : Via A s t) (h : s.feed.turns t.feed)
    (hA : ([.intake, .planner, .finisher, .force, .table, .stations].all fun b => !hasBlock A b) = true := by rfl) :
    s.ledger.carries t.ledger := Part.carries_fed via h.1 h.2.1 h.2.2 hA

end Sys2Proof.Machine
end



-- ==== Sys2Proof/Proofs/LedgersMoved.lean ====
section
/-! PROOF. The moves that carry the ledger, one by one (R41). -/

namespace Sys2Proof.Machine

variable {s t u : Part} {L M : Ledger} {a b : Phase} {A : List Block} {q : Mode}

/-! ## The Feed Scheduler -/

theorem Part.setPath_turns {p : PathState} (configured : p = .unconfigured ∨ s.feed.path ≠ .unconfigured) (unhalted : p ≠ .halting) :
    s.feed.turns (s.setPath p).feed := by
  rw [Part.setPath_feed]
  exact Feed.turns_to rfl rfl configured unhalted

/-- From a path state that is configured, another that is not HALTING. -/
theorem Feed.turns_on {f g : Feed} {p r : PathState} (before : f.path = p) (next : g.nextSheet = f.nextSheet) (path : g.path = r)
    (configured : p ≠ .unconfigured := by exact nofun) (unhalted : r ≠ .halting := by exact nofun) : f.turns g :=
  Feed.turns_to next path (.inr (by rwa [before])) unhalted

/-! ## Sheets -/

theorem Sheet.strandIf_marked (p : Sheet → Bool) (x : Sheet) : x.core.marked (x.strandIf p).core := by
  unfold Sheet.strandIf
  split
  · exact ⟨rfl, .inr (.inl rfl)⟩
  · exact ⟨rfl, .inl rfl⟩

theorem Part.strand_marks (s : Part) (p : Sheet → Bool) : s.marks (s.strand p) :=
  Part.marks_map _ (s.strand_sheets p) fun x _ => x.strandIf_marked p

theorem Station.relieve_name (hit : Nat → Bool) (x : Station) : (x.relieve hit).cover.map Cover.sheet = x.cover.map Cover.sheet := by
  unfold Station.relieve
  cases x.cover with
  | none => rfl
  | some c =>
    simp only [Option.map_some]
    split <;> rfl

theorem Part.relieved_namesGo (hit : Nat → Bool) (h : t.stations = s.stations.map (Station.relieve hit)) : s.namesGo t := fun st => by
  have row : t.stations[st] = (s.stations[st]).relieve hit := by
    rw [h]
    exact Vector.getElem_map ..
  exact .inr (by rw [row, Station.relieve_name])

theorem Part.modStation_namesGo (st : Fin 24) (g : Station → Station)
    (h : (g (s.stations[st])).cover = none ∨ (g (s.stations[st])).cover.map Cover.sheet = (s.stations[st]).cover.map Cover.sheet) :
    s.namesGo (s.modStation st g) := fun k => by
  have row : (s.modStation st g).stations = s.stations.set st (g (s.stations[st])) := rfl
  rw [row]
  by_cases own : k = st
  · subst own
    rw [Fin.getElem_fin, Vector.getElem_set_self]
    exact h
  · rw [Fin.getElem_fin, Vector.getElem_set_ne _ _ (fun e => own (Fin.ext e.symm))]
    exact .inr rfl

/-- The sheets of an episode that opens: none is left NORMAL. -/
theorem Part.openCore_marks (hs : (s.table.sheets.map Sheet.number).Nodup) (j : Jam) (extra : AreaSet) :
    s.marks (s.openCore j extra) ∧ ∀ x ∈ (s.openCore j extra).table.sheets, x.cond ≠ .normal := by
  obtain ⟨ns, hns, e⟩ := s.openCore_sheets j extra
  have moves : ∀ x ∈ s.table.sheets, ns.contains x.number = true → x.cond ≠ .stranded := fun x hx hn stranded => by
    rw [List.contains_iff_mem, hns] at hn
    unfold Part.runOutSet at hn
    split at hn
    · exact absurd hn List.not_mem_nil
    · obtain ⟨y, hy, number⟩ := List.mem_map.mp hn
      have same : y = x := List.inj_on_of_nodup_map hs ((List.takeWhile_sublist _).subset hy) hx number
      have may := List.mem_takeWhile_imp hy
      rw [same] at may
      unfold Part.mayRunOut at may
      simp [stranded] at may
  constructor
  · refine Part.marks_map _ (e.trans (List.map_map ..)) fun x hx => ?_
    have cond := Sheet.opened_cond ns x
    have first : (x.runOutIf ns).core.filed = x.core.filed := by
      unfold Sheet.runOutIf
      split <;> rfl
    refine ⟨(Sheet.strandIf_marked _ _).1.trans first, ?_⟩
    by_cases hn : ns.contains x.number = true
    · rw [if_pos hn] at cond
      exact .inr (.inr ⟨cond, moves x hx hn⟩)
    · rw [if_neg hn] at cond
      exact .inr (.inl cond)
  · rw [e, List.map_map]
    intro y hy
    obtain ⟨x, -, rfl⟩ := List.mem_map.mp hy
    have cond := Sheet.opened_cond ns x
    unfold Function.comp
    rw [cond]
    split <;> exact nofun

theorem Part.openCore_carries (hs : (s.table.sheets.map Sheet.number).Nodup) (hp : s.feed.path ≠ .unconfigured) (j : Jam) (extra : AreaSet) :
    s.ledger.carries (s.openCore j extra).ledger := by
  obtain ⟨b, feed, -, -⟩ := s.openCore_effect j extra
  obtain ⟨marks, none⟩ := Part.openCore_marks hs j extra
  obtain ⟨hit, stations⟩ := s.openCore_stations j extra
  have finisher := s.openCore_finisher j extra
  have via := s.openCore_via j extra
  refine Part.carries_of (by rw [via.intake_eq rfl]) (by rw [via.planner_eq rfl]) ?_ (by rw [feed]) (via.force_eq rfl) marks
    (Part.relieved_namesGo hit stations) (.inr hp) fun _ => .inr none
  rw [finisher, Part.retain_finisher]
  split
  · next compiling =>
    unfold Finisher.paged
    rw [compiling]
    rfl
  · rfl

/-! ## The Compile Set -/

theorem Part.carries_finisher (via : Via A s t) (finisher : t.finisher.paged = s.finisher.paged)
    (hA : ([.intake, .planner, .force, .table, .stations, .feed].all fun b => !hasBlock A b) = true := by rfl) :
    s.ledger.carries t.ledger := by
  simp only [List.all_cons, List.all_nil, Bool.and_true, Bool.and_eq_true, Bool.not_eq_true'] at hA
  obtain ⟨intake, planner, force, table, stations, feed⟩ := hA
  exact Part.carries_kept (by rw [via.intake_eq intake]) (by rw [via.planner_eq planner]) finisher (by rw [via.feed_eq feed])
    (by rw [via.feed_eq feed]) (via.force_eq force) (Part.marks_of (via.table_eq table)) (Part.namesGo_of (via.stations_eq stations))

theorem Finisher.paged_of {f g : Finisher} (sheets : g.sheets = f.sheets) (ident : g.ident = f.ident) (before : f.state ≠ .empty)
    (after : g.state ≠ .empty) : g.paged = f.paged := by
  unfold Finisher.paged
  rw [sheets, ident, decide_eq_false before, decide_eq_false after]

theorem Finisher.paged_core {f g : Finisher} (h : g.core = f.core) : g.paged = f.paged := by
  have state : g.state = f.state := (congrArg Finisher.state h :)
  have ident : g.ident = f.ident := (congrArg Finisher.ident h :)
  have sheets : g.sheets.map Held.core = f.sheets.map Held.core := (congrArg Finisher.sheets h :)
  have pages : ∀ l : List Held, l.map (fun h => h.pages.map Page.core) = (l.map Held.core).map fun h => h.pages.map Page.core := fun l => by
    rw [List.map_map]
    rfl
  unfold Finisher.paged
  rw [state, ident, pages g.sheets, sheets, ← pages]

theorem Finisher.state_of {f : Finisher} {x : SetState} (h : f.state = x) (hx : x ≠ .empty := by exact nofun) : f.state ≠ .empty := by
  rwa [h]

theorem Finisher.busy_state {f : Finisher} (h : f.busy = true) : f.state ≠ .empty := fun e => by
  unfold Finisher.busy at h
  rw [e] at h
  cases h

/-! ## The other blocks -/

theorem Part.judgeIntakeLow_carries (s : Part) (k : Queue) : s.ledger.carries (s.judgeIntakeLow k).ledger := by
  have via := s.judgeIntakeLow_via k
  obtain ⟨slots, normal, priority⟩ := s.judgeIntakeLow_slots k
  refine Part.carries_kept ?_ (by rw [via.planner_eq rfl]) (by rw [via.finisher_eq rfl]) (by rw [via.feed_eq rfl]) (by rw [via.feed_eq rfl])
    (via.force_eq rfl) (Part.marks_of (via.table_eq rfl)) (Part.namesGo_of (via.stations_eq rfl))
  unfold Intake.paged
  rw [slots, normal, priority]

theorem Part.stations_carries (via : Via A s t) (names : s.namesGo t)
    (hA : ([.intake, .planner, .finisher, .force, .table, .feed].all fun b => !hasBlock A b) = true := by rfl) :
    s.ledger.carries t.ledger := by
  simp only [List.all_cons, List.all_nil, Bool.and_true, Bool.and_eq_true, Bool.not_eq_true'] at hA
  obtain ⟨intake, planner, finisher, force, table, feed⟩ := hA
  exact Part.carries_kept (by rw [via.intake_eq intake]) (by rw [via.planner_eq planner]) (by rw [via.finisher_eq finisher])
    (by rw [via.feed_eq feed]) (by rw [via.feed_eq feed]) (via.force_eq force) (Part.marks_of (via.table_eq table)) names

theorem Part.learnAt_carries (s : Part) (st : Fin 24) (r : Int) (o : Arrival) : s.ledger.carries (s.learnAt st r o).ledger := by
  have cover : ∀ x : Station, (x.learn s.force.timing r o).cover = x.cover := fun x => by
    unfold Station.learn
    dsimp only
    split <;> rfl
  refine Part.stations_carries (s.learnAt_via st r o) fun k => .inr ?_
  unfold Part.learnAt Part.setStep
  dsimp only
  rw [Part.modNotices_stations, Part.getElem_modStation, Part.getElem_modStation, Part.getElem_modStation]
  split
  · next own =>
    subst own
    simp [cover]
  · rfl

/-- IMAGE READY flags page records and moves none. -/
theorem Part.setReady_carries (s : Part) (id : Nat) : s.ledger.carries (s.setReady id).ledger := by
  have via := s.setReady_via id
  have ready : ∀ p : Page, (p.readyIf id).core = p.core := fun p => by
    unfold Page.readyIf
    split <;> rfl
  have pages : ∀ l : List Page, (l.map (Page.readyIf id)).map Page.core = l.map Page.core := fun l => by
    rw [List.map_map]
    exact List.map_congr_left fun p _ => ready p
  have sheet : ∀ x : Sheet, (x.readyIf id).core = x.core := fun x => by
    have side : ∀ (b : Bool) (o : Option Page), (if x.reaches b id then o.map (Page.readyIf id) else o).map Page.core = o.map Page.core :=
      fun b o => by
        split
        · rw [Option.map_map]
          exact Option.map_congr fun p _ => ready p
        · rfl
    unfold Sheet.core Sheet.readyIf
    dsimp only
    rw [side, side]
  refine Part.carries_kept ?_ ?_ (by rw [via.finisher_eq rfl]) (by rw [via.feed_eq rfl]) (by rw [via.feed_eq rfl])
    (via.force_eq rfl) (Part.marks_map (Sheet.readyIf id) rfl fun x _ => by rw [sheet x]; exact ⟨rfl, .inl rfl⟩) (Part.namesGo_of (via.stations_eq rfl))
  · have intake : (s.setReady id).intake.paged = ((s.intake.normal.map (Page.readyIf id)).map Page.core,
        (s.intake.priority.map (Page.readyIf id)).map Page.core, s.intake.slots) := rfl
    rw [intake, pages, pages]
    rfl
  · have list : (s.setReady id).planner.paged = (s.planner.list.map fun y => { y with page := y.page.readyIf id }).map fun e => e.page.core := rfl
    rw [list, List.map_map]
    exact List.map_congr_left fun e _ => ready e.page

end Sys2Proof.Machine
end

