-- ==== Sys2Proof/Proofs/SlotAccounts.lean ====
section
/-! PROOF. The accounts of the slots over page records that move, and the origins that trace them (R34 to R37, R41). -/

namespace Sys2Proof.Machine

variable {slots : Vector (Option Slot) 8} {records rest : List Page} {next : Nat} {i : Fin 8} {x y : Slot} {n : Nat}

/-! ## Accounts -/

theorem Accounts.perm (h : Accounts slots records) (k : rest.Perm records) : Accounts slots rest :=
  ⟨fun i x hx => by rw [k.countP_eq]; exact h.balance i x hx, h.oneSlot, fun y hy => h.hasSlot y (k.subset hy)⟩

theorem getElem_setSlot (slots : Vector (Option Slot) 8) (i j : Fin 8) (v : Option Slot) :
    (slots.set i v)[j] = if j = i then v else slots[j] := by
  by_cases own : j = i
  · subst own
    rw [if_pos rfl, Fin.getElem_fin, Vector.getElem_set_self]
  · rw [if_neg own, Fin.getElem_fin, Vector.getElem_set_ne _ _ (fun e => own (Fin.ext e.symm))]
    rfl

/-- One slot changed, of the same job, with the records of that job. -/
theorem Accounts.change (h : Accounts slots records) (hx : x ∈ slots[i]) (job : y.job = x.job)
    (others : ∀ job, job ≠ x.job → (rest.countP fun p => p.job == job) = records.countP fun p => p.job == job)
    (own : y.accepted = y.delivered + y.abandoned + rest.countP fun p => p.job == x.job)
    (known : ∀ p ∈ rest, p.job = x.job ∨ ∃ j : Fin 8, ∃ z ∈ slots[j], z.job = p.job) : Accounts (slots.set i (some y)) rest := by
  have jobs : ∀ j : Fin 8, ∀ z ∈ (slots.set i (some y))[j], ∃ v ∈ slots[j], v.job = z.job := fun j z hz => by
    rw [getElem_setSlot] at hz
    split at hz
    · next e =>
      subst e
      rw [Option.mem_some_iff] at hz
      exact ⟨x, hx, by rw [← hz, job]⟩
    · exact ⟨z, hz, rfl⟩
  refine ⟨fun j z hz => ?_, fun j k z hz v hv e => ?_, fun p hp => ?_⟩
  · have hz' := hz
    rw [getElem_setSlot] at hz
    split at hz
    · rw [Option.mem_some_iff] at hz
      rw [← hz, job]
      exact own
    · next other =>
      rw [others z.job fun e => other (h.oneSlot j i z hz x hx e)]
      exact h.balance j z hz
  · obtain ⟨a, ha, ea⟩ := jobs j z hz
    obtain ⟨b, hb, eb⟩ := jobs k v hv
    exact h.oneSlot j k a ha b hb (by rw [ea, eb, e])
  · have found : ∃ j : Fin 8, ∃ z ∈ slots[j], z.job = p.job := (known p hp).elim (fun e => ⟨i, x, hx, e.symm⟩) id
    obtain ⟨j, z, hz, e⟩ := found
    by_cases same : j = i
    · subst same
      have : z = x := Option.mem_unique hz hx
      refine ⟨j, y, ?_, by rw [job, ← this, e]⟩
      rw [getElem_setSlot, if_pos rfl]
      rfl
    · refine ⟨j, z, ?_, e⟩
      rwa [getElem_setSlot, if_neg same]

/-- Records of one job gone, counted by its slot. -/
theorem Accounts.settle (h : Accounts slots records) (hx : x ∈ slots[i]) (job : y.job = x.job) (accepted : y.accepted = x.accepted)
    (counted : y.delivered + y.abandoned = x.delivered + x.abandoned + n)
    (gone : ∀ job, (rest.countP fun p => p.job == job) + (if job = x.job then n else 0) = records.countP fun p => p.job == job) :
    Accounts (slots.set i (some y)) rest := by
  refine h.change hx job (fun j other => ?_) ?_ fun p hp => .inr ?_
  · have := gone j
    rwa [if_neg other] at this
  · have balance := h.balance i x hx
    have := gone x.job
    rw [if_pos rfl] at this
    omega
  · have held : 0 < rest.countP fun q => q.job == p.job := List.countP_pos_iff.mpr ⟨p, hp, by simp⟩
    have before : 0 < records.countP fun q => q.job == p.job := by
      have := gone p.job
      omega
    obtain ⟨q, hq, e⟩ := List.countP_pos_iff.mp before
    obtain ⟨j, z, hz, k⟩ := h.hasSlot q hq
    exact ⟨j, z, hz, k.trans (by simpa using e)⟩

/-- A slot freed whose counts balance: no record of its job is held (R37). -/
theorem Accounts.freed (h : Accounts slots records) (hx : x ∈ slots[i]) (balanced : x.accepted = x.delivered + x.abandoned) :
    Accounts (slots.set i none) records := by
  have none : ∀ p ∈ records, p.job ≠ x.job := fun p hp e => by
    have count := h.balance i x hx
    have : 0 < records.countP fun y => y.job == x.job := List.countP_pos_iff.mpr ⟨p, hp, by simpa using e⟩
    omega
  have left : ∀ j : Fin 8, ∀ z ∈ (slots.set i Option.none)[j], z ∈ slots[j] := fun j z hz => by
    rw [getElem_setSlot] at hz
    split at hz
    · cases hz
    · exact hz
  refine ⟨fun j z hz => h.balance j z (left j z hz), fun j k z hz v hv => h.oneSlot j k z (left j z hz) v (left k v hv), fun p hp => ?_⟩
  obtain ⟨j, z, hz, e⟩ := h.hasSlot p hp
  refine ⟨j, z, ?_, e⟩
  rw [getElem_setSlot, if_neg]
  · exact hz
  · rintro rfl
    exact none p hp (by rw [← e, Option.mem_unique hz hx])

/-- A slot opened for a job that has none. -/
theorem Accounts.opened (h : Accounts slots records) {i : Fin 8} (free : slots[i] = none) (none : ∀ j : Fin 8, ∀ z ∈ slots[j], z.job ≠ x.job)
    (bare : x.accepted = 0 ∧ x.delivered = 0 ∧ x.abandoned = 0) : Accounts (slots.set i (some x)) records := by
  have count : (records.countP fun p => p.job == x.job) = 0 := List.countP_eq_zero.mpr fun p hp e => by
    obtain ⟨j, z, hz, k⟩ := h.hasSlot p hp
    exact none j z hz (k.trans (by simpa using e))
  obtain ⟨accepted, delivered, abandoned⟩ := bare
  refine ⟨fun j z hz => ?_, fun j k z hz v hv e => ?_, fun p hp => ?_⟩
  · rw [getElem_setSlot] at hz
    split at hz
    · rw [Option.mem_some_iff] at hz
      subst hz
      omega
    · exact h.balance j z hz
  · rw [getElem_setSlot] at hz hv
    split at hz
    · next own =>
      split at hv
      · next own' => exact own.trans own'.symm
      · rw [Option.mem_some_iff] at hz
        exact absurd (e.symm.trans (by rw [hz])) (none k v hv)
    · split at hv
      · rw [Option.mem_some_iff] at hv
        exact absurd (e.trans (by rw [hv])) (none j z hz)
      · exact h.oneSlot j k z hz v hv e
  · obtain ⟨j, z, hz, e⟩ := h.hasSlot p hp
    refine ⟨j, z, ?_, e⟩
    rw [getElem_setSlot, if_neg]
    · exact hz
    · rintro rfl
      rw [free] at hz
      cases hz

/-- A page accepted by its job's slot (R30). -/
theorem Accounts.accepted (h : Accounts slots records) (hx : x ∈ slots[i]) {p : Page} (job : x.job = p.job) :
    Accounts (slots.set i (some (x.accept p))) (p :: records) := by
  refine h.change (y := x.accept p) hx rfl (fun j other => ?_) ?_ fun q hq => ?_
  · rw [List.countP_cons_of_neg]
    rw [← job]
    simpa using other.symm
  · rw [List.countP_cons_of_pos (by simp [job])]
    have := h.balance i x hx
    show x.accepted + 1 = x.delivered + x.abandoned + _
    omega
  · rcases List.mem_cons.mp hq with rfl | hq
    · exact .inl job.symm
    · exact .inr (h.hasSlot q hq)

/-! ## Origins -/

variable {l m g : List Page}

theorem originsOf_append (l m : List Page) : originsOf (l ++ m) = originsOf l ++ originsOf m := by
  unfold originsOf
  rw [List.filter_append, List.map_append]

theorem originsOf_perm (h : l.Perm m) : (originsOf l).Perm (originsOf m) := (h.filter _).map _

theorem originsOf_sublist (h : l.Sublist m) : (originsOf l).Sublist (originsOf m) := (h.filter _).map _

theorem Traced.perm (h : Traced next m) (k : l.Perm m) : Traced next l :=
  ⟨(originsOf_perm k).nodup_iff.mpr h.nodup, fun o ho => h.below o ((originsOf_perm k).subset ho)⟩

theorem Traced.sublist (h : Traced next m) (k : l.Sublist m) : Traced next l :=
  ⟨h.nodup.sublist (originsOf_sublist k), fun o ho => h.below o ((originsOf_sublist k).subset ho)⟩

/-- Pages of two parts of the records have apart origins. -/
theorem Traced.apart (h : Traced next (l ++ m)) (hl : pairsUp false l) (hm : pairsUp false m) :
    ∀ x ∈ l, ∀ y ∈ m, x.origin.getD 0 ≠ y.origin.getD 0 := by
  have own : ∀ {g : List Page}, pairsUp false g → ∀ x ∈ g, x.origin ∈ originsOf g := fun {g} hg x hx => by
    obtain ⟨z, hz, side, e⟩ := pairsUp_front hg x hx
    exact List.mem_map.mpr ⟨z, List.mem_filter.mpr ⟨hz, by simpa using side⟩, e⟩
  obtain ⟨nodup, below⟩ := h
  rw [originsOf_append] at nodup below
  intro x hx y hy e
  obtain ⟨a, ha, -⟩ := below x.origin (List.mem_append_left _ (own hl x hx))
  obtain ⟨b, hb, -⟩ := below y.origin (List.mem_append_right _ (own hm y hy))
  rw [ha, hb, Option.getD_some, Option.getD_some] at e
  refine (List.nodup_append.mp nodup).2.2 x.origin (own hl x hx) y.origin (own hm y hy) ?_
  rw [ha, hb, e]

/-- A sheet's worth of pages under the next number. -/
theorem Traced.grow (h : Traced next l) (hg : originsOf g = [some next]) : Traced (next + 1) (g ++ l) := by
  obtain ⟨nodup, below⟩ := h
  constructor
  · rw [originsOf_append, hg, List.singleton_append, List.nodup_cons]
    refine ⟨fun hm => ?_, nodup⟩
    obtain ⟨n, hn, lt⟩ := below _ hm
    cases hn
    exact Nat.lt_irrefl _ lt
  · rw [originsOf_append, hg]
    intro o ho
    rcases List.mem_append.mp ho with ho | ho
    · exact ⟨next, List.mem_singleton.mp ho ▸ rfl, Nat.lt_succ_self _⟩
    · obtain ⟨n, hn, lt⟩ := below o ho
      exact ⟨n, hn, Nat.lt_succ_of_lt lt⟩

/-! ## The pages of the sheets -/

variable {sheets : List Sheet} {v : Sheet}

/-- Sheets whose pages are taken from them count as gone. -/
theorem flatMap_emptied (p : Sheet → Bool) (f : Sheet → Sheet) (keeps : ∀ y ∈ sheets, p y = true → (f y).pages = y.pages)
    (empties : ∀ y ∈ sheets, p y = false → (f y).pages = []) :
    (sheets.map f).flatMap Sheet.pages = (sheets.filter p).flatMap Sheet.pages := by
  induction sheets with
  | nil => rfl
  | cons y l ih =>
    have rest := ih (fun z hz => keeps z (List.mem_cons_of_mem _ hz)) fun z hz => empties z (List.mem_cons_of_mem _ hz)
    rw [List.map_cons, List.flatMap_cons, rest]
    cases hp : p y with
    | true => rw [List.filter_cons_of_pos hp, List.flatMap_cons, keeps y List.mem_cons_self hp]
    | false => rw [List.filter_cons_of_neg (by simp [hp]), empties y List.mem_cons_self hp, List.nil_append]

/-- A sheet's pages and those of the others. -/
theorem flatMap_split (hv : v ∈ sheets) (nodup : (sheets.map Sheet.number).Nodup) :
    (sheets.flatMap Sheet.pages).Perm (v.pages ++ (sheets.filter fun y => y.number != v.number).flatMap Sheet.pages) := by
  induction sheets with
  | nil => exact absurd hv List.not_mem_nil
  | cons y l ih =>
    rw [List.map_cons, List.nodup_cons] at nodup
    rw [List.flatMap_cons]
    by_cases own : y.number = v.number
    · have same : y = v := by
        rcases List.mem_cons.mp hv with e | hv
        · exact e.symm
        · exact absurd (List.mem_map.mpr ⟨v, hv, own.symm⟩) nodup.1
      have all : (l.filter fun z => z.number != v.number) = l := List.filter_eq_self.mpr fun z hz => by
        simp only [bne_iff_ne]
        exact fun e => nodup.1 (own ▸ e ▸ List.mem_map_of_mem hz)
      rw [List.filter_cons_of_neg (by simp [own]), all, same]
    · have hv' : v ∈ l := (List.mem_cons.mp hv).resolve_left fun e => own (by rw [e])
      rw [List.filter_cons_of_pos (by simpa using own), List.flatMap_cons]
      exact ((ih hv' nodup.2).append_left y.pages).trans (List.perm_append_comm_assoc ..)

end Sys2Proof.Machine
end

