-- ==== Sys2Proof/Proofs/LedgerPaths.lean ====
section
/-! PROOF. What a description that passed PATH CLOSE says of the ways of sheets: where they end, which of them pass FINISHER ENTRY, and
what becomes of them on the way to the purge bin (R6, R16, R87). -/

namespace Sys2Proof.Machine

variable {d : Desc} {l : LegName} {st : Fin 24} {x : Sheet}

/-! ## Roles along the legs (R16) -/

theorem Desc.rolesFit_of_badPath (h : d.badPath = none) (l : LegName) : d.rolesFit l = true := by
  have sound := (Desc.sound_of_legShape (Desc.checks_of_badPath h).2.1).1 l
  have fits := (d.legFits_iff l).mpr sound
  simp only [Desc.legFits, Bool.and_eq_true] at fits
  exact fits.1.2

/-- A station of a leg has a role the leg's name asks for. -/
theorem Desc.role_of_leg (h : d.badPath = none) (hs : st ∈ d.way l) : d.roleOf st = some .plain ∨ d.roleOf st = some .registration ∨
    d.roleOf st = some .purgeGate ∨ l.hasEnd = false ∧ d.roleOf st = some (if l = .main then .exit else entryRole l) := by
  obtain ⟨plain, ends⟩ := (d.rolesFit_iff l).mp (Desc.rolesFit_of_badPath h l)
  cases he : l.hasEnd with
  | true => exact .inl (plain he st hs)
  | false =>
    obtain ⟨-, -, last, inner⟩ := ends he
    have cut := List.dropLast_append_getLast? (l := d.way l)
    obtain ⟨final, hf, last⟩ := Option.bind_eq_some_iff.mp last
    rw [← cut final hf] at hs
    rcases List.mem_append.mp hs with early | late
    · rcases inner st early with role | role
      · exact .inl role
      · split at role
        · exact .inr (.inl role)
        · exact .inr (.inr (.inl role))
    · rw [List.mem_singleton.mp late]
      exact .inr (.inr (.inr ⟨rfl, last⟩))

/-- Only DELIVER FINISHER passes FINISHER ENTRY. -/
theorem Desc.finisherEntry_leg (h : d.badPath = none) (hs : st ∈ d.way l) (role : d.roleOf st = some .finisherEntry) :
    l = .deliverFinisher := by
  rcases Desc.role_of_leg h hs with e | e | e | ⟨he, e⟩
  · rw [e] at role
    cases role
  · rw [e] at role
    cases role
  · rw [e] at role
    cases role
  · rw [e] at role
    revert he role
    cases l <;> decide

/-! ## Itineraries (R6) -/

theorem Desc.station_of_legSteps {extra : Nat} {y : Step} (hy : y ∈ d.legSteps l extra) : y.leg = l ∧ y.station ∈ d.way l := by
  obtain ⟨i, hi, rfl⟩ := List.mem_mapIdx.mp hy
  exact ⟨rfl, List.mem_map_of_mem (List.getElem_mem hi)⟩

theorem Desc.itinerary_split (d : Desc) (k : SheetKind) (u : Fin 5) : ∃ way : List Step, (∀ y ∈ way, y.leg.isDeliver = false ∧
    y.station ∈ d.way y.leg) ∧ ∀ dest, d.itinerary k u dest = way ++ d.legSteps (deliverLegOf dest) 0 := by
  have feed : (feedLegOf u).isDeliver = false := by
    unfold feedLegOf
    split_ifs <;> rfl
  have leg : ∀ {l : LegName} {extra : Nat}, l.isDeliver = false → ∀ y ∈ d.legSteps l extra, y.leg.isDeliver = false ∧ y.station ∈ d.way y.leg :=
    fun hl y hy => by
      obtain ⟨own, hs⟩ := Desc.station_of_legSteps hy
      rw [own]
      exact ⟨hl, hs⟩
  cases k with
  | duplex =>
    refine ⟨_, ?_, fun _ => rfl⟩
    intro y hy
    rcases List.mem_append.mp hy with hy | hy
    · exact (List.mem_append.mp hy).elim (leg feed y) (leg rfl y)
    · exact (List.mem_append.mp hy).elim (leg rfl y) (leg rfl y)
  | simplex | insert =>
    refine ⟨_, ?_, fun _ => rfl⟩
    intro y hy
    exact (List.mem_append.mp hy).elim (leg feed y) (leg rfl y)

/-- The way to PURGE is that of the sheet as it was, from its DELIVER leg on the PURGE leg's (R6, R87). -/
theorem Desc.toPurge_itinerary (d : Desc) (k : SheetKind) (u : Fin 5) (dest : Dest) :
    d.toPurge (d.itinerary k u dest) = d.itinerary k u .purge := by
  obtain ⟨way, undelivered, split⟩ := d.itinerary_split k u
  have kept : way.filter (fun y => !y.leg.isDeliver) = way := List.filter_eq_self.mpr fun y hy => by rw [(undelivered y hy).1]; rfl
  have dropped : (d.legSteps (deliverLegOf dest) 0).filter (fun y => !y.leg.isDeliver) = [] := List.filter_eq_nil_iff.mpr fun y hy => by
    rw [(Desc.station_of_legSteps hy).1]
    cases dest <;> decide
  unfold Desc.toPurge
  rw [split dest, split .purge, List.filter_append, kept, dropped, List.append_nil]
  rfl

/-- A sheet on its way to PURGE passes no FINISHER ENTRY. -/
theorem Desc.purge_avoids_finisherEntry (h : d.badPath = none) {k : SheetKind} {u : Fin 5} {y : Step} (hy : y ∈ d.itinerary k u .purge) :
    d.roleOf y.station ≠ some .finisherEntry := fun role => by
  obtain ⟨way, undelivered, split⟩ := d.itinerary_split k u
  rw [split .purge] at hy
  rcases List.mem_append.mp hy with hy | hy
  · obtain ⟨leg, hs⟩ := undelivered y hy
    rw [Desc.finisherEntry_leg h hs role] at leg
    cases leg
  · cases Desc.finisherEntry_leg h (Desc.station_of_legSteps hy).2 role

/-- A sheet's way ends at the entry of its destination. -/
theorem Desc.itinerary_last (h : d.badPath = none) {k : SheetKind} {u : Fin 5} {dest : Dest}
    (hs : (d.itinerary k u dest).getLast?.map Step.station = some st) : d.roleOf st = some (entryRole (deliverLegOf dest)) := by
  obtain ⟨way, -, split⟩ := d.itinerary_split k u
  have stations : (d.legSteps (deliverLegOf dest) 0).map Step.station = d.way (deliverLegOf dest) := by
    unfold Desc.legSteps Desc.way
    exact List.ext_getElem (by simp) fun i _ _ => by simp
  obtain ⟨two, -, last, -⟩ := ((d.rolesFit_iff _).mp (Desc.rolesFit_of_badPath h (deliverLegOf dest))).2 (by cases dest <;> rfl)
  have some : (d.way (deliverLegOf dest)).getLast? = some st := by
    have filled : d.way (deliverLegOf dest) ≠ [] := fun e => by simp [e] at two
    rw [split dest, ← List.getLast?_map, List.map_append, stations, List.getLast?_append] at hs
    rwa [List.getLast?_eq_some_getLast filled] at hs ⊢
  rw [some, Option.bind_some] at last
  rw [last, if_neg (by cases dest <;> exact nofun)]

/-- A sheet of the ledger delivered elsewhere than at a bin or the finisher carries no page (R88). -/
theorem Sheet.fits.delivered (h : d.badPath = none) (k : x.fits d) (hs : (x.itinerary.getLast?.map Step.station) = some st) :
    d.roleOf st = some .binEntry0 ∨ d.roleOf st = some .binEntry1 ∨ d.roleOf st = some .finisherEntry ∨
      d.roleOf st = some .purgeEntry ∧ x.pages = [] := by
  rw [k.way] at hs
  have role := Desc.itinerary_last h hs
  cases hd : x.dest with
  | bin0 => exact .inl (by rw [role, hd]; rfl)
  | bin1 => exact .inr (.inl (by rw [role, hd]; rfl))
  | finisher => exact .inr (.inr (.inl (by rw [role, hd]; rfl)))
  | purge => exact .inr (.inr (.inr ⟨by rw [role, hd]; rfl, k.bare hd⟩))

end Sys2Proof.Machine
end

