-- ==== Sys2Proof/Proofs/LedgerHalves.lean ====
section
/-! PROOF. A sound ledger in two halves: the books that count the page records, and the standing of the sheets; and what keeps each
of them (R41). -/

namespace Sys2Proof.Machine

variable {L M : Ledger} {a b : Phase} {x y : Sheet} {d : Desc}

/-- The half that counts the page records. -/
structure Ledger.books (L : Ledger) : Prop where
  accounts : Accounts L.slots L.records
  queues : pairsUp true L.normal ∧ pairsUp true L.priority
  fresh : ∀ y ∈ L.normal ++ L.priority, y.origin = none
  list : pairsUp false L.list ∧ L.list.Pairwise Page.before
  traced : Traced L.next L.bound
  held : ∀ l ∈ L.held, pairsUp false l ∧ (l.countP fun y => y.side != .back) ≤ 1 ∧ ∀ y ∈ l, L.ident.map Prod.fst = some y.job
  noSet : L.vacant = true → L.held = []

/-- The half that places the sheets. -/
structure Ledger.standing (a : Phase) (L : Ledger) : Prop where
  valid : L.path ≠ .unconfigured → L.force.badPath = none
  sheets : ∀ x ∈ L.sheets, x.fits L.force
  halting : L.path = .halting → ∀ x ∈ L.sheets, x.cond ≠ .normal
  covers : ∀ st : Fin 24, ∀ n ∈ L.covers st, n < L.next ∧ (¬ a.exempts st → L.force.roleOf st = some .finisherEntry →
    ∀ x ∈ L.sheets, x.number = n → x.cond ≠ .stranded → L.welcomes x.job x.set)

theorem Ledger.sound_iff : L.sound a ↔ L.books ∧ L.standing a ∧ L.owes a :=
  ⟨fun ⟨valid, accounts, queues, fresh, list, traced, sheets, held, noSet, halting, covers, owes⟩ =>
      ⟨⟨accounts, queues, fresh, list, traced, held, noSet⟩, ⟨valid, sheets, halting, covers⟩, owes⟩,
    fun ⟨⟨accounts, queues, fresh, list, traced, held, noSet⟩, ⟨valid, sheets, halting, covers⟩, owes⟩ =>
      ⟨valid, accounts, queues, fresh, list, traced, sheets, held, noSet, halting, covers, owes⟩⟩

/-! ## The standing of the sheets -/

/-- A sheet's record after a change that may take its pages from it and send it to the purge bin. -/
structure Sheet.follows (d : Desc) (x y : Sheet) : Prop where
  number : y.number = x.number
  job : y.job = x.job
  set : y.set = x.set
  fits : x.fits d → y.fits d
  cond : y.cond = x.cond ∨ y.cond = .purging ∧ x.cond ≠ .stranded

theorem Sheet.follows.refl (d : Desc) (x : Sheet) : x.follows d x := ⟨rfl, rfl, rfl, id, .inl rfl⟩

/-- Sheets stay, leave, give up their pages or are purged; covering entries stay or go; the set welcomes whom it did, or none waits. -/
structure Ledger.follows (L M : Ledger) : Prop where
  force : M.force = L.force
  path : M.path = .unconfigured ∨ L.path ≠ .unconfigured
  halting : M.path = .halting → L.path = .halting
  next : L.next ≤ M.next
  sheets : ∀ y ∈ M.sheets, ∃ x ∈ L.sheets, x.follows L.force y
  covers : ∀ st, M.covers st = none ∨ M.covers st = L.covers st
  welcomes : (∀ st, L.force.roleOf st = some .finisherEntry → M.covers st = none) ∨ ∀ job set, L.welcomes job set → M.welcomes job set

theorem Ledger.standing.follow (h : L.standing a) (k : L.follows M) : M.standing a := by
  refine ⟨fun path => ?_, fun y hy => ?_, fun path y hy => ?_, fun st n hn => ?_⟩
  · rw [k.force]
    exact h.valid (k.path.resolve_left path)
  · obtain ⟨x, hx, follows⟩ := k.sheets y hy
    rw [k.force]
    exact follows.fits (h.sheets x hx)
  · obtain ⟨x, hx, follows⟩ := k.sheets y hy
    rcases follows.cond with e | ⟨e, -⟩
    · rw [e]
      exact h.halting (k.halting path) x hx
    · rw [e]
      exact nofun
  · have here : L.covers st = some n := by
      rcases k.covers st with gone | same
      · rw [gone] at hn
        cases hn
      · exact same ▸ hn
    obtain ⟨below, welcome⟩ := h.covers st n here
    refine ⟨Nat.lt_of_lt_of_le below k.next, fun judged role y hy number moving => ?_⟩
    have waits : ¬ M.covers st = none := fun gone => by
      rw [gone] at hn
      cases hn
    refine k.welcomes.resolve_left (fun bare => waits (bare st (k.force ▸ role))) _ _ ?_
    obtain ⟨x, hx, follows⟩ := k.sheets y hy
    rw [follows.job, follows.set]
    refine welcome judged (k.force ▸ role) x hx (follows.number ▸ number) fun stranded => ?_
    rcases follows.cond with e | ⟨-, e⟩
    · exact moving (e.trans stranded)
    · exact e stranded

theorem Ledger.follows.owes (k : L.follows M) (h : L.owes a) (staying : ∀ x st, a ≠ .leaving x st) : M.owes a := by
  cases a with
  | arriving x st path =>
    obtain ⟨role, cover, same⟩ := h
    refine ⟨by rwa [k.force], fun n hn => ?_, fun y hy number => ?_⟩
    · rcases k.covers st with gone | e
      · rw [gone] at hn
        cases hn
      · exact cover n (e ▸ hn)
    · obtain ⟨z, hz, follows⟩ := k.sheets y hy
      rw [follows.job, follows.set]
      exact same z hz (follows.number ▸ number)
  | leaving x st => exact absurd rfl (staying x st)
  | settled | delivering | resuming | resetting => trivial

/-- A phase that exempts no station asks what any does. -/
theorem Ledger.standing.phase (h : L.standing a) (judged : ∀ st, a.exempts st → b.exempts st) : L.standing b :=
  { h with covers := fun st n hn => ⟨(h.covers st n hn).1, fun free => (h.covers st n hn).2 fun k => free (judged st k)⟩ }

/-- A sheet without pages fits wherever its way does. -/
theorem Sheet.fits_bare (front : y.front = none) (back : y.back = none) (way : y.itinerary = d.itinerary y.kind y.source y.dest)
    (purging : y.cond = .purging → y.dest = .purge) : y.fits d := by
  have bare : y.pages = [] := by
    unfold Sheet.pages
    rw [front, back]
    rfl
  refine ⟨?_, fun held => ?_, fun z hz => ?_, way, purging, fun _ => bare⟩
  · rw [bare]
    trivial
  · rw [back] at held
    cases held
  · rw [bare] at hz
    cases hz

theorem Sheet.release_follows (x : Sheet) : x.follows d x.release := ⟨rfl, rfl, rfl, fun k => Sheet.fits_bare rfl rfl k.way k.purging, .inl rfl⟩

/-- A moving sheet purged and its pages released (R87, R98). -/
theorem Sheet.purged_follows (moving : x.cond ≠ .stranded) : x.follows d (d.purged x).release := by
  refine ⟨rfl, rfl, rfl, fun k => Sheet.fits_bare rfl rfl ?_ fun _ => rfl, .inr ⟨rfl, moving⟩⟩
  show d.toPurge x.itinerary = _
  rw [k.way, d.toPurge_itinerary]
  rfl

/-! ## The books -/

/-- The page records of the sheets in the path and in the compile tray. -/
def Ledger.pool (L : Ledger) : List Page := L.sheets.flatMap Sheet.pages ++ L.held.flatten

theorem Ledger.bound_eq (L : Ledger) : L.bound = L.list ++ L.pool := List.append_assoc ..

/-- A sheet's worth of pages released into the Reprint List (R98, R134, R137, R138). -/
theorem Ledger.books.reprint {g : List Page} {S : List Sheet} {H : List (List Page)} {p : PathState} {c : Fin 24 → Option Nat} (h : L.books)
    (whole : pairsUp false g) (one : (g.countP fun y => y.side != .back) ≤ 1)
    (pool : (g ++ (S.flatMap Sheet.pages ++ H.flatten)).Perm L.pool) (held : ∀ l ∈ H, l ∈ L.held) :
    Ledger.books { L with list := insertPages g L.list, sheets := S, held := H, path := p, covers := c } := by
  set M : Ledger := { L with list := insertPages g L.list, sheets := S, held := H, path := p, covers := c } with hM
  have bound : M.bound.Perm L.bound := by
    rw [M.bound_eq, L.bound_eq]
    have first : (M.list ++ M.pool).Perm ((g ++ L.list) ++ M.pool) := (insertPages_perm g L.list).append_right _
    have swap : ((g ++ L.list) ++ M.pool).Perm (L.list ++ (g ++ M.pool)) := by
      rw [← List.append_assoc]
      exact List.perm_append_comm.append_right _
    exact first.trans (swap.trans (pool.append_left _))
  have apart : ∀ x ∈ g, ∀ y ∈ L.list, x.origin.getD 0 ≠ y.origin.getD 0 := by
    have traced : Traced L.next (g ++ L.list) := by
      have all : Traced L.next ((g ++ L.list) ++ M.pool) :=
        (h.traced.perm bound).perm (((insertPages_perm g L.list).append_right _).symm.trans (List.Perm.of_eq M.bound_eq.symm))
      exact all.sublist (List.sublist_append_left ..)
    exact traced.apart whole h.list.1
  exact {
    accounts := h.accounts.perm (bound.append_left _)
    queues := h.queues
    fresh := h.fresh
    list := ⟨insertPages_whole h.list.1 whole one apart, insertPages_ordered g h.list.2⟩
    traced := h.traced.perm bound
    held := fun l hl => h.held l (held l hl)
    noSet := fun vacant => List.eq_nil_iff_forall_not_mem.mpr fun l hl => by
      have := held l hl
      rw [h.noSet vacant] at this
      cases this }

end Sys2Proof.Machine
end

