-- ==== Sys2Proof/Proofs/LedgerReleases.lean ====
section
/-! PROOF. Pages released into the Reprint List: a sheet spoiled, and a plan built (R97, R98, R137 to R139, R41). -/

namespace Sys2Proof.Machine

variable {s t : Part} {L : Ledger} {a : Phase} {A : List Block} {x : Sheet} {d : Desc}

/-- A sheet carries one sheet's worth of pages. -/
theorem Sheet.fits.one (h : x.fits d) : (x.pages.countP fun y => y.side != .back) ≤ 1 := by
  have pairs := h.pairs
  have back := h.back
  revert pairs back
  unfold Sheet.pages
  cases x.front with
  | none =>
    cases x.back with
    | none => exact fun _ _ => Nat.zero_le _
    | some b => exact fun _ _ => List.countP_le_length (l := [b])
  | some f =>
    cases x.back with
    | none => exact fun _ _ => List.countP_le_length (l := [f])
    | some b =>
      intro pairs front
      obtain ⟨side, -⟩ := (pairsUp_pair (l := []) (front rfl)).mp pairs
      show List.countP _ [f, b] ≤ 1
      have own : List.countP (fun y : Page => y.side != .back) [b] = 0 := by simp [side]
      have first : List.countP (fun y : Page => y.side != .back) [f] ≤ 1 := List.countP_le_length
      rw [List.countP_cons, own]
      rw [List.countP_cons, List.countP_nil] at first
      exact first

/-- The ledger where nothing but the Reprint List, the sheets and the covering entries moved. -/
theorem Part.ledger_released (via : Via A s t)
    (hA : ([.intake, .finisher, .force, .feed].all fun b => !hasBlock A b) = true := by rfl) :
    t.ledger = { s.ledger with list := t.ledger.list, sheets := t.ledger.sheets, covers := t.ledger.covers } := by
  simp only [List.all_cons, List.all_nil, Bool.and_true, Bool.and_eq_true, Bool.not_eq_true'] at hA
  obtain ⟨intake, finisher, force, feed⟩ := hA
  unfold Part.ledger
  rw [via.intake_eq intake, via.finisher_eq finisher, via.force_eq force, via.feed_eq feed]

theorem Part.ledger_numbers (s : Part) : s.ledger.sheets.map Sheet.number = s.table.sheets.map Sheet.number := by
  unfold Part.ledger
  rw [List.map_map]
  rfl

/-- Pages joined to the Reprint List. -/
theorem Part.ledger_reprint {reason : Reason} {g : List Page} (h : t.planner.list = (s.reprint reason g).planner.list) :
    t.ledger.list = insertPages (g.map Page.core) s.ledger.list := by
  show t.planner.list.map _ = _
  rw [h]
  exact insertAll_pages reason g s.planner.list

theorem Part.namesGo_of_covers (h : s.coversGo t) : s.namesGo t := fun st => (h st).imp_right (congrArg (Option.map Cover.sheet) ·)

/-! ## A sheet spoiled (R97, R98) -/

theorem Part.spoilSheet_ledger (s : Part) (x : Sheet) : (s.spoilSheet x).ledger =
    { s.ledger with
      list := insertPages x.core.pages s.ledger.list
      sheets := s.ledger.sheets.map fun y => if y.number = x.number then (s.force.purged y).release else y } := by
  have via := s.spoilSheet_via x
  have sheets : (s.spoilSheet x).ledger.sheets =
      s.ledger.sheets.map fun y => if y.number = x.number then (s.force.purged y).release else y := by
    show (s.spoilSheet x).table.sheets.map Sheet.core = _
    rw [s.spoilSheet_sheets x, List.map_map]
    unfold Part.ledger
    rw [List.map_map]
    refine List.map_congr_left fun y _ => ?_
    unfold Function.comp
    dsimp only
    by_cases own : y.number = x.number
    · rw [if_pos own, if_pos (show y.core.number = x.number from own)]
      rfl
    · rw [if_neg own, if_neg (show ¬ y.core.number = x.number from own)]
  have list : (s.spoilSheet x).ledger.list = insertPages x.core.pages s.ledger.list := by
    rw [x.core_pages]
    exact Part.ledger_reprint (s.spoilSheet_list x)
  have covers : (s.spoilSheet x).ledger.covers = s.ledger.covers := by
    unfold Part.ledger
    rw [via.stations_eq rfl]
  rw [Part.ledger_released via, sheets, list, covers]

theorem Ledger.sound.spoil {X : Sheet} (h : L.sound a) (staying : ∀ x st, a ≠ .leaving x st) (hx : X ∈ L.sheets)
    (nodup : (L.sheets.map Sheet.number).Nodup) (moving : X.cond ≠ .stranded) :
    Ledger.sound a { L with
      list := insertPages X.pages L.list
      sheets := L.sheets.map fun y => if y.number = X.number then (L.force.purged y).release else y } := by
  obtain ⟨books, standing, owes⟩ := Ledger.sound_iff.mp h
  have emptied : (L.sheets.map fun y => if y.number = X.number then (L.force.purged y).release else y).flatMap Sheet.pages =
      (L.sheets.filter fun y => y.number != X.number).flatMap Sheet.pages :=
    flatMap_emptied _ _ (fun y _ other => by rw [if_neg (by simpa using other)]) fun y _ own => by
      rw [if_pos (by simpa using own)]
      rfl
  have follows : Ledger.follows L { L with
      list := insertPages X.pages L.list
      sheets := L.sheets.map fun y => if y.number = X.number then (L.force.purged y).release else y } := by
    refine ⟨rfl, em _, id, Nat.le_refl _, fun y hy => ?_, fun _ => .inr rfl, .inr fun _ _ => id⟩
    obtain ⟨z, hz, rfl⟩ := List.mem_map.mp hy
    refine ⟨z, hz, ?_⟩
    split
    · next own =>
      have same : z = X := List.inj_on_of_nodup_map nodup hz hx own
      exact Sheet.purged_follows (same ▸ moving)
    · exact .refl _ _
  refine Ledger.sound_iff.mpr ⟨books.reprint (h.sheets X hx).pairs (h.sheets X hx).one ?_ fun _ => id, standing.follow follows,
    follows.owes owes staying⟩
  rw [emptied, ← List.append_assoc]
  exact (flatMap_split hx nodup).symm.append_right _

theorem Part.spoilSheet_ledgered (h : s.ledger.sound a) (staying : ∀ x st, a ≠ .leaving x st) (hx : x ∈ s.table.sheets)
    (nodup : (s.table.sheets.map Sheet.number).Nodup) (moving : x.cond ≠ .stranded) : (s.spoilSheet x).ledger.sound a := by
  have mem : x.core ∈ s.ledger.sheets := List.mem_map_of_mem hx
  have numbers : (s.ledger.sheets.map Sheet.number).Nodup := by rw [s.ledger_numbers]; exact nodup
  rw [s.spoilSheet_ledger]
  exact h.spoil staying mem numbers moving

/-! ## A plan built (R137 to R139) -/

theorem Part.planSheet_books (h : s.ledger.books) (hx : x ∈ s.table.sheets) (nodup : (s.table.sheets.map Sheet.number).Nodup)
    (fits : x.fits d) : (s.planSheet x).ledger.books := by
  have list : (s.planSheet x).ledger.list = insertPages x.core.pages s.ledger.list := by
    rw [x.core_pages]
    exact Part.ledger_reprint rfl
  have sheets : (s.planSheet x).ledger.sheets = s.ledger.sheets.filter fun y => y.number != x.core.number := by
    show (s.table.sheets.filter fun y => y.number != x.number).map Sheet.core = (s.table.sheets.map Sheet.core).filter _
    rw [List.filter_map]
    rfl
  rw [Part.ledger_released (s.planSheet_via x), list, sheets]
  have core := (x.core_fits d).mpr fits
  refine h.reprint core.pairs core.one ?_ fun _ => id
  rw [← List.append_assoc]
  exact (flatMap_split (List.mem_map_of_mem hx) (s.ledger_numbers ▸ nodup)).symm.append_right _

theorem Part.planSheets_books (l : List Sheet) (hl : ∀ x ∈ l, x ∈ s.table.sheets ∧ x.fits d) (distinct : (l.map Sheet.number).Nodup)
    (nodup : (s.table.sheets.map Sheet.number).Nodup) (h : s.ledger.books) : (l.foldl Part.planSheet s).ledger.books := by
  induction l generalizing s with
  | nil => exact h
  | cons x l ih =>
    obtain ⟨hx, fits⟩ := hl x List.mem_cons_self
    have first := Part.planSheet_books h hx nodup fits
    have sheets : (s.planSheet x).table.sheets = s.table.sheets.filter fun y => y.number != x.number := rfl
    obtain ⟨apart, distinct⟩ := List.nodup_cons.mp distinct
    rw [List.foldl_cons]
    refine ih (fun y hy => ?_) distinct ?_ first
    · obtain ⟨hm, fits⟩ := hl y (List.mem_cons_of_mem _ hy)
      rw [sheets, List.mem_filter]
      refine ⟨⟨hm, ?_⟩, fits⟩
      simp only [bne_iff_ne]
      exact fun e => apart (e ▸ List.mem_map_of_mem hy)
    · rw [sheets]
      exact nodup.sublist (List.filter_sublist.map _)

/-- The pages of a set's sheets released in their order. -/
theorem Ledger.books.reprintAll (H : List (List Page)) (h : L.books) (held : L.held = H) :
    Ledger.books { L with list := insertPages H.flatten L.list, held := [] } := by
  induction H generalizing L with
  | nil =>
    cases L
    cases held
    exact h
  | cons g H ih =>
    obtain ⟨whole, one, -⟩ := h.held g (held ▸ List.mem_cons_self)
    have first : Ledger.books { L with list := insertPages g L.list, held := H } := by
      refine h.reprint whole one ?_ fun l hl => held ▸ List.mem_cons_of_mem _ hl
      unfold Ledger.pool
      rw [held, List.flatten_cons]
      exact List.perm_append_comm_assoc ..
    have rest := ih first rfl
    rw [List.flatten_cons, insertPages_append]
    exact rest

theorem Part.planSet_books {s : Part} (h : s.ledger.books) : s.planSet.ledger.books := by
  unfold Part.planSet
  split
  · have list : ((s.reprint .setRestart (s.finisher.sheets.flatMap Held.pages)).modFinisher fun _ => .reset).ledger =
        { s.ledger with
          list := insertPages s.ledger.held.flatten s.ledger.list, held := [], ident := none, vacant := true } := by
      have joined : ((s.reprint .setRestart (s.finisher.sheets.flatMap Held.pages)).modFinisher fun _ => .reset).ledger.list =
          insertPages s.ledger.held.flatten s.ledger.list := by
        refine (Part.ledger_reprint (s := s) (reason := .setRestart) rfl).trans ?_
        rw [List.map_flatMap, List.flatMap_def]
        rfl
      rw [← joined]
      rfl
    rw [list]
    have all := h.reprintAll _ rfl
    exact { all with held := fun _ hl => absurd hl List.not_mem_nil, noSet := fun _ => rfl }
  · exact h

/-- The ledger where the path turned alone. -/
theorem Part.ledger_turned (intake : t.intake = s.intake) (list : t.planner.list = s.planner.list) (table : t.table = s.table)
    (finisher : t.finisher = s.finisher) (stations : t.stations = s.stations) (force : t.force = s.force)
    (next : t.feed.nextSheet = s.feed.nextSheet) : t.ledger = { s.ledger with path := t.feed.path } := by
  unfold Part.ledger
  rw [intake, list, table, finisher, stations, force, next]

/-- What follows the releases of a plan build turns the path alone. -/
theorem Part.planBuilt_ledger (w : Part) : ((w.planEmpty.modPlanner fun p => { p with revision := p.revision + 1, readThrough := false }).setPath
    .resumable).notePlanReady.ledger = { w.ledger with path := .resumable } := by
  generalize hp : w.planEmpty.modPlanner (fun p => { p with revision := p.revision + 1, readThrough := false }) = p
  have before : p.ledger = { w.ledger with path := w.feed.path } := by
    rw [← hp]
    rfl
  have via := (p.setPath_via .resumable)
  have noted := (p.setPath .resumable).notePlanReady_via
  have feed : (p.setPath .resumable).notePlanReady.feed = { p.feed with path := .resumable } := by
    rw [noted.feed_eq rfl, Part.setPath_feed]
  have after : (p.setPath .resumable).notePlanReady.ledger = { p.ledger with path := (p.setPath .resumable).notePlanReady.feed.path } :=
    Part.ledger_turned ((noted.intake_eq rfl).trans (via.intake_eq rfl)) (by rw [noted.planner_eq rfl, via.planner_eq rfl])
      ((noted.table_eq rfl).trans (via.table_eq rfl)) ((noted.finisher_eq rfl).trans (via.finisher_eq rfl))
      ((noted.stations_eq rfl).trans (via.stations_eq rfl)) ((noted.force_eq rfl).trans (via.force_eq rfl)) (by rw [feed])
  rw [after, before, feed]

theorem Part.planBuild_sound (h : s.ledger.sound .settled) (nodup : (s.table.sheets.map Sheet.number).Nodup) (configured : s.feed.path ≠ .unconfigured) :
    s.planBuild.ledger.sound .settled := by
  obtain ⟨books, standing, -⟩ := Ledger.sound_iff.mp h
  have planned : s.planBuild.ledger.books := by
    obtain ⟨p, hp⟩ : ∃ p : Part, s.stopDrives.modEpisode (fun e => { e with sweepTimer := none }) = p := ⟨_, rfl⟩
    have start : p.ledger.books := hp ▸ books
    have table : p.table.sheets = s.table.sheets := by rw [← hp]; rfl
    have released := Part.planSet_books (Part.planSheets_books (d := s.force) (s := p) (p.table.sheets.filter fun x => x.cond == .stranded) (fun x hx => by
      have hm := (List.mem_filter.mp hx).1
      exact ⟨hm, (x.core_fits _).mp (standing.sheets _ (List.mem_map_of_mem (table ▸ hm)))⟩)
      ((table ▸ nodup).sublist (List.filter_sublist.map _)) (table ▸ nodup) start)
    unfold Part.planBuild
    dsimp only
    rw [hp]
    generalize (List.foldl Part.planSheet p _).planSet = w at released ⊢
    rw [Part.planBuilt_ledger]
    exact { released with }
  have follows : s.ledger.follows s.planBuild.ledger := by
    have via := s.planBuild_via
    refine ⟨via.force_eq rfl, .inr configured, fun path => ?_, ?_, fun y hy => ?_, (Part.namesGo_of_covers s.planBuild_coversGo).covers,
      .inr fun job set welcome => ?_⟩
    · have resumable : s.planBuild.feed.path = .resumable := by rw [s.planBuild_feed]
      exact nomatch resumable.symm.trans path
    · exact Nat.le_of_eq (by
        unfold Part.ledger
        rw [s.planBuild_feed])
    · obtain ⟨x, hx, rfl⟩ := List.mem_map.mp hy
      exact ⟨x.core, List.mem_map_of_mem (s.planBuild_sheets.subset hx), .refl _ _⟩
    · rw [Part.ledger_welcomes] at welcome ⊢
      rw [s.planBuild_finisher]
      split
      · exact .inl rfl
      · exact welcome
  exact Ledger.sound_iff.mpr ⟨planned, standing.follow follows, trivial⟩

end Sys2Proof.Machine
end

