-- ==== Sys2Proof/Proofs/LedgerDeliveries.lean ====
section
/-! PROOF. Pages counted delivered: at a bin and where an eject completes; and a sheet handed over to the Compile Set (R35, R88, R149,
R152, R41). -/

namespace Sys2Proof.Machine

variable {s t : Part} {L : Ledger} {a : Phase} {A : List Block} {x : Sheet} {st : Fin 24} {records rest pages : List Page} {job : Nat}

/-! ## Slots -/

theorem Part.examineSlot_accounts (i : Fin 8) (h : Accounts s.intake.slots records) : Accounts (s.examineSlot i).intake.slots records := by
  unfold Part.examineSlot
  split
  · exact h
  · next y hy =>
    split
    · next free => exact h.freed (Option.mem_def.mpr hy) free.2.1
    · exact h

/-- The job's slot counts its pages delivered (R35). -/
theorem Part.deliverPages_accounts (h : Accounts s.intake.slots records) (gone : ∀ j, (rest.countP fun p => p.job == j) +
    (if j = job then pages.length else 0) = records.countP fun p => p.job == j) :
    Accounts (s.deliverPages job pages).intake.slots rest := by
  unfold Part.deliverPages
  split
  · next i last hi _ =>
    obtain ⟨y, hy, own⟩ := Intake.slotOf_some hi
    refine Part.examineSlot_accounts (s := Part.noteProgress _ i) i ?_
    have row : (s.intake.slots[i]).map (fun z => { z with delivered := z.delivered + pages.length, lastPage := some last.id }) =
        some { y with delivered := y.delivered + pages.length, lastPage := some last.id } := by rw [hy]; rfl
    have slots : (s.modSlot i fun z => { z with delivered := z.delivered + pages.length, lastPage := some last.id }).intake.slots =
        s.intake.slots.set i (some { y with delivered := y.delivered + pages.length, lastPage := some last.id }) := by
      rw [← row]
      rfl
    rw [(Part.noteProgress_via ..).intake_eq rfl, slots]
    refine h.settle (n := pages.length) (Option.mem_def.mpr hy) rfl rfl ?_ fun j => by rw [own]; exact gone j
    dsimp only
    omega
  · next unslotted =>
    have empty : pages = [] := by
      cases hp : pages.getLast? with
      | none => exact List.getLast?_eq_none_iff.mp hp
      | some last =>
        have held : 0 < records.countP fun p => p.job == job := by
          have := gone job
          rw [if_pos rfl] at this
          have : 0 < pages.length := List.length_pos_of_mem (List.mem_of_getLast? hp)
          omega
        obtain ⟨p, hp', own⟩ := List.countP_pos_iff.mp held
        obtain ⟨j, z, hz, known⟩ := h.hasSlot p hp'
        have slot : (s.intake.slotOf job).isSome = true := by
          unfold Intake.slotOf
          rw [List.find?_isSome]
          exact ⟨j, List.mem_finRange j, by rw [Option.mem_def.mp hz]; simpa [known] using own⟩
        obtain ⟨i, hi⟩ := Option.isSome_iff_exists.mp slot
        exact absurd hp (unslotted i last hi)
    subst empty
    have same : ∀ j, (rest.countP fun p => p.job == j) = records.countP fun p => p.job == j := fun j => by
      have := gone j
      simpa using this
    refine ⟨fun i y hy => by rw [same]; exact h.balance i y hy, h.oneSlot, fun p hp => ?_⟩
    have held : 0 < records.countP fun q => q.job == p.job := by
      rw [← same]
      exact List.countP_pos_iff.mpr ⟨p, hp, by simp⟩
    obtain ⟨q, hq, own⟩ := List.countP_pos_iff.mp held
    obtain ⟨j, z, hz, known⟩ := h.hasSlot q hq
    exact ⟨j, z, hz, known.trans (by simpa using own)⟩

theorem countP_job (h : ∀ y ∈ pages, y.job = job) (j : Nat) : (pages.countP fun p => p.job == j) = if j = job then pages.length else 0 := by
  split
  · next own => exact List.countP_eq_length.mpr fun y hy => by simp [h y hy, own]
  · next other => exact List.countP_eq_zero.mpr fun y hy => by simpa [h y hy] using Ne.symm other

/-- Records that are the pages of a job and others. -/
theorem countP_job_split (h : ∀ y ∈ pages, y.job = job) (k : records.Perm (pages ++ rest)) (j : Nat) :
    (rest.countP fun p => p.job == j) + (if j = job then pages.length else 0) = records.countP fun p => p.job == j := by
  rw [k.countP_eq, List.countP_append, countP_job h, Nat.add_comm]

/-! ## Ledgers with fewer records -/

/-- Pages counted delivered leave the sheets or the compile tray. -/
theorem Ledger.books.delivered {slots : Vector (Option Slot) 8} {S : List Sheet} {H : List (List Page)} {i : Option (Nat × Nat)} {v : Bool}
    {c : Fin 24 → Option Nat} (h : L.books) (pool : (S.flatMap Sheet.pages ++ H.flatten).Sublist L.pool)
    (accounts : Accounts slots (L.normal ++ L.priority ++ (L.list ++ (S.flatMap Sheet.pages ++ H.flatten))))
    (held : H = [] ∨ H = L.held ∧ i = L.ident ∧ v = L.vacant) :
    Ledger.books { L with slots := slots, sheets := S, held := H, ident := i, vacant := v, covers := c } := by
  refine {
    accounts := ?_
    queues := h.queues
    fresh := h.fresh
    list := h.list
    traced := ?_
    held := fun l hl => ?_
    noSet := fun vacant => ?_ }
  · unfold Ledger.records
    rw [Ledger.bound_eq]
    exact accounts
  · rw [Ledger.bound_eq]
    have traced := h.traced
    rw [L.bound_eq] at traced
    exact traced.sublist (pool.append_left _)
  · rcases held with rfl | ⟨rfl, rfl, rfl⟩
    · exact absurd hl List.not_mem_nil
    · exact h.held l hl
  · rcases held with rfl | ⟨rfl, rfl, rfl⟩
    · rfl
    · exact h.noSet vacant

theorem Ledger.records_split (L : Ledger) : L.records.Perm (L.pool ++ (L.normal ++ L.priority ++ L.list)) := by
  unfold Ledger.records
  rw [L.bound_eq, ← List.append_assoc]
  exact List.perm_append_comm

/-! ## An eject completed (R152) -/

theorem Part.completeEject_ledger (s : Part) : s.completeEject.ledger =
    { s.ledger with
      slots := s.completeEject.intake.slots, held := [], ident := s.completeEject.finisher.ident
      vacant := decide (s.completeEject.finisher.state = .empty) } := by
  obtain ⟨r, hr, intake, -⟩ := s.completeEject_cases
  have queues := Part.deliverPages_queues (((s.modOut fun o => { o with ejector := false }).modFinisher fun f =>
    { f with ejectLimit := none }).modDry fun d => { d with home := none }) (s.finisher.ident.getD (0, 0)).1 (s.finisher.sheets.flatMap Held.pages)
  rw [← hr, ← intake] at queues
  obtain ⟨normal, priority⟩ := queues
  have sheets : s.completeEject.finisher.sheets = [] := by
    cases split : s.finisher.split with
    | false =>
      rw [Part.completeEject_final split]
      rfl
    | true => rw [Part.completeEject_partial split]
  have via := s.completeEject_via
  unfold Part.ledger
  rw [normal, priority, sheets, via.planner_eq rfl, via.table_eq rfl, via.feed_eq rfl, via.force_eq rfl, via.stations_eq rfl]
  rfl

/-- A set under an eject, or an empty one finished at once, hands its pages over (R35, R152). -/
theorem Part.completeEject_ledgered (h : s.ledger.sound a) (staying : ∀ x st, a ≠ .leaving x st)
    (state : s.finisher.state = .ejecting ∨ s.finisher.state = .compiling ∧ s.finisher.sheets = []) : s.completeEject.ledger.sound a := by
  obtain ⟨books, standing, owes⟩ := Ledger.sound_iff.mp h
  have pool : (s.ledger.sheets.flatMap Sheet.pages ++ ([] : List (List Page)).flatten) = s.ledger.sheets.flatMap Sheet.pages := by simp
  have accounts : Accounts s.completeEject.intake.slots (s.ledger.normal ++ s.ledger.priority ++
      (s.ledger.list ++ (s.ledger.sheets.flatMap Sheet.pages ++ ([] : List (List Page)).flatten))) := by
    obtain ⟨r, hr, intake, -⟩ := s.completeEject_cases
    rw [intake, hr, pool]
    refine Part.deliverPages_accounts (records := s.ledger.records) (s := Part.modDry _ _) books.accounts fun j => ?_
    have length : (s.finisher.sheets.flatMap Held.pages).length = s.ledger.held.flatten.length := by
      unfold Part.ledger
      rw [← List.length_map Page.core, List.map_flatMap, List.flatMap_def]
    have own : ∀ y ∈ s.ledger.held.flatten, y.job = (s.finisher.ident.getD (0, 0)).1 := fun y hy => by
      obtain ⟨l, hl, hy⟩ := List.mem_flatten.mp hy
      have job := (books.held l hl).2.2 y hy
      have ident : s.finisher.ident.map Prod.fst = some y.job := job
      obtain ⟨id, hid, e⟩ := Option.map_eq_some_iff.mp ident
      rw [hid, ← e]
      rfl
    rw [length]
    refine countP_job_split own (s.ledger.records_split.trans ?_) j
    unfold Ledger.pool
    rw [List.append_assoc (s.ledger.sheets.flatMap Sheet.pages)]
    refine (List.perm_append_comm_assoc ..).trans (List.Perm.append_left _ ?_)
    rw [← List.append_assoc _ s.ledger.list]
    exact List.perm_append_comm
  have welcomes : ∀ job set, s.ledger.welcomes job set → s.completeEject.ledger.welcomes job set := fun job set welcome => by
    rw [Part.ledger_welcomes] at welcome ⊢
    cases split : s.finisher.split with
    | false =>
      rw [Part.completeEject_final split]
      exact .inl rfl
    | true =>
      have occupied : s.finisher.state ≠ .empty := by
        rcases state with e | ⟨e, -⟩ <;> rw [e] <;> exact nofun
      rw [Part.completeEject_partial split]
      exact .inr (welcome.resolve_left occupied)
  have follows : s.ledger.follows s.completeEject.ledger := by
    refine ⟨?_, ?_, ?_, ?_, ?_, ?_, .inr welcomes⟩ <;> rw [s.completeEject_ledger]
    · exact em _
    · exact id
    · exact fun y hy => ⟨y, hy, .refl _ _⟩
    · exact fun _ => .inr rfl
  refine Ledger.sound_iff.mpr ⟨?_, standing.follow follows, follows.owes owes staying⟩
  rw [s.completeEject_ledger]
  exact books.delivered (by rw [pool]; exact List.sublist_append_left ..) accounts (.inl rfl)

end Sys2Proof.Machine
end

