-- ==== Sys2Proof/Proofs/LedgerDelivered.lean ====
section
/-! PROOF. A sheet delivered: at a bin, to the Compile Set, at the purge bin (R88, R102, R149, R41). -/

namespace Sys2Proof.Machine

variable {s t : Part} {L : Ledger} {a : Phase} {A : List Block} {x y : Sheet} {st : Fin 24} {d : Desc}

/-- One station holds FINISHER ENTRY. -/
theorem Desc.finisherEntry_unique (h : d.badPath = none) {k : Fin 24} (hs : d.roleOf st = some .finisherEntry)
    (hk : d.roleOf k = some .finisherEntry) : k = st := by
  have one := Desc.holding_of_missingItem (Desc.checks_of_badPath h).1 (show Role.finisherEntry ∈ soleRoles by decide)
  rw [d.holding_eq] at one
  have holds : ∀ {v : Fin 24}, d.roleOf v = some .finisherEntry → v ∈ d.holders .finisherEntry := fun {v} e =>
    List.mem_filter.mpr ⟨List.mem_finRange v, by simpa using e⟩
  obtain ⟨v, hv⟩ := List.length_eq_one_iff.mp one
  have first := holds hs
  have second := holds hk
  rw [hv, List.mem_singleton] at first second
  rw [first, second]

/-! ## The ledger of a delivery -/

/-- The sheet delivered, as the ledger holds it. -/
structure Ledger.delivers (L : Ledger) (x : Sheet) (st : Fin 24) (y : Sheet) : Prop where
  mem : y ∈ L.sheets
  nodup : (L.sheets.map Sheet.number).Nodup
  job : y.job = x.job
  set : y.set = x.set
  valid : L.force.badPath = none
  last : (y.itinerary.getLast?.map Step.station) = some st
  welcome : L.force.roleOf st = some .finisherEntry → L.welcomes x.job x.set
  bare : L.covers st = none

/-- The sheets that stay. -/
def Ledger.others (L : Ledger) (y : Sheet) : List Sheet := L.sheets.filter fun z => z.number != y.number

theorem Ledger.delivers.pool (k : L.delivers x st y) : L.pool.Perm (y.pages ++ ((L.others y).flatMap Sheet.pages ++ L.held.flatten)) := by
  unfold Ledger.pool
  rw [← List.append_assoc]
  exact (flatMap_split k.mem k.nodup).append_right _

theorem Ledger.delivers.follows (k : L.delivers x st y) {M : Ledger} (sheets : M.sheets = L.others y) (force : M.force = L.force)
    (path : M.path = L.path) (next : M.next = L.next) (covers : ∀ st, M.covers st = none ∨ M.covers st = L.covers st)
    (welcomes : L.force.roleOf st = some .finisherEntry ∨ ∀ job set, L.welcomes job set → M.welcomes job set) : L.follows M := by
  refine ⟨force, ?_, fun e => path ▸ e, Nat.le_of_eq next.symm, fun z hz => ?_, covers, welcomes.imp_left fun role v hv => ?_⟩
  · rw [path]
    exact em _
  · rw [sheets] at hz
    exact ⟨z, (List.mem_filter.mp hz).1, .refl _ _⟩
  · rw [Desc.finisherEntry_unique k.valid role hv]
    rcases covers st with gone | same
    · exact gone
    · rw [same, k.bare]

/-- Delivered at a bin, a sheet's pages are counted (R35, R88). -/
theorem Ledger.sound.binned {slots : Vector (Option Slot) 8} {c : Fin 24 → Option Nat} (h : L.sound (.leaving x st)) (k : L.delivers x st y)
    (accounts : Accounts slots ((L.others y).flatMap Sheet.pages ++ L.held.flatten ++ (L.normal ++ L.priority ++ L.list)))
    (covers : ∀ v, c v = none ∨ c v = L.covers v) :
    Ledger.sound .delivering { L with slots := slots, sheets := L.others y, covers := c } := by
  obtain ⟨books, standing, -⟩ := Ledger.sound_iff.mp h
  have sublist : (L.others y).Sublist L.sheets := List.filter_sublist
  have follows : L.follows { L with slots := slots, sheets := L.others y, covers := c } :=
    k.follows rfl rfl rfl rfl covers (.inr fun _ _ => id)
  refine Ledger.sound_iff.mpr ⟨books.delivered ?_ (accounts.perm ?_) (.inr ⟨rfl, rfl, rfl⟩), (standing.follow follows).phase nofun, trivial⟩
  · exact (sublist.flatMap Sheet.pages).append_right _
  · rw [← List.append_assoc]
    exact List.perm_append_comm

/-- Handed over, a sheet's pages are the set's (R149). -/
theorem Ledger.sound.handedOver {c : Fin 24 → Option Nat} (h : L.sound (.leaving x st)) (k : L.delivers x st y)
    (role : L.force.roleOf st = some .finisherEntry) (covers : ∀ v, c v = none ∨ c v = L.covers v) :
    Ledger.sound .delivering { L with
      sheets := L.others y, held := L.held ++ [y.pages], ident := if L.vacant then some (x.job, x.set) else L.ident, vacant := false
      covers := c } := by
  obtain ⟨books, standing, -⟩ := Ledger.sound_iff.mp h
  have follows : L.follows { L with
      sheets := L.others y, held := L.held ++ [y.pages], ident := if L.vacant then some (x.job, x.set) else L.ident, vacant := false
      covers := c } := k.follows rfl rfl rfl rfl covers (.inl role)
  have fits := standing.sheets y k.mem
  have pool : ((L.others y).flatMap Sheet.pages ++ (L.held ++ [y.pages]).flatten).Perm L.pool := by
    refine List.Perm.trans ?_ k.pool.symm
    rw [List.flatten_append, List.flatten_singleton, ← List.append_assoc]
    exact List.perm_append_comm
  refine Ledger.sound_iff.mpr ⟨?_, (standing.follow follows).phase nofun, trivial⟩
  refine {
    accounts := ?_
    queues := books.queues
    fresh := books.fresh
    list := books.list
    traced := ?_
    held := fun l hl => ?_
    noSet := nofun }
  · unfold Ledger.records
    rw [Ledger.bound_eq]
    have accounts := books.accounts
    unfold Ledger.records at accounts
    rw [L.bound_eq] at accounts
    exact accounts.perm ((pool.append_left _).append_left _)
  · rw [Ledger.bound_eq]
    have traced := books.traced
    rw [L.bound_eq] at traced
    exact traced.perm (pool.append_left _)
  · rcases List.mem_append.mp hl with before | own
    · have occupied : ¬ L.vacant = true := fun vacant => by
        rw [books.noSet vacant] at before
        cases before
      rw [if_neg occupied]
      exact books.held l before
    · rw [List.mem_singleton.mp own]
      refine ⟨fits.pairs, fits.one, fun z hz => ?_⟩
      rw [fits.job z hz, k.job]
      split
      · rfl
      · next occupied => rw [(k.welcome role).resolve_left occupied, Option.map_some]

/-! ## The delivery of a sheet -/

theorem Part.deliverCore_sheets (s : Part) (x : Sheet) (st : Fin 24) : (s.deliverCore x st).table.sheets =
    s.table.sheets.filter fun z => z.number != x.number := by
  have same : (s.deliverTo x (s.force.roleOf st)).table = s.table := (s.deliverTo_via x _).table_eq rfl
  show (s.deliverTo x (s.force.roleOf st)).table.sheets.filter _ = _
  rw [same]

theorem Part.deliverCore_covers (s : Part) (x : Sheet) (st : Fin 24) : s.namesGo (s.deliverCore x st) := by
  have same : (s.deliverTo x (s.force.roleOf st)).stations = s.stations := (s.deliverTo_via x _).stations_eq rfl
  exact Part.namesGo_of_covers ((Part.coversGo_of same).trans (Part.removeSheet_coversGo _ _))

/-- What leaves is the record of the sheet that left its last station. -/
theorem Part.leaving_delivers (h : s.ledger.sound (.leaving x st)) (nodup : (s.table.sheets.map Sheet.number).Nodup)
    (last : (x.itinerary.getLast?.map Step.station) = some st) : ∃ y, s.ledger.delivers x st y ∧ y.number = x.number ∧ y.pages = x.core.pages := by
  obtain ⟨welcome, valid, bare, y, hy, e⟩ := h.owes
  have number : y.number = x.number := (congrArg Sheet.number e :)
  have job : y.job = x.job := (congrArg Sheet.job e :)
  have set : y.set = x.set := (congrArg Sheet.set e :)
  have way : y.itinerary = x.itinerary := (congrArg Sheet.itinerary e :)
  have pages : y.pages = x.core.pages := (congrArg Sheet.pages e :)
  exact ⟨y, ⟨hy, s.ledger_numbers ▸ nodup, job, set, valid, by rw [way]; exact last, welcome, bare⟩, number, pages⟩

/-- Where the books of slots and set stay, or the pages of the sheet are counted. -/
theorem Part.deliverCore_ledger {r : Option Role} (e : s.force.roleOf st = r) : (s.deliverCore x st).ledger =
    { s.ledger with
      normal := (s.deliverTo x r).ledger.normal, priority := (s.deliverTo x r).ledger.priority, slots := (s.deliverTo x r).ledger.slots
      held := (s.deliverTo x r).ledger.held, ident := (s.deliverTo x r).ledger.ident, vacant := (s.deliverTo x r).ledger.vacant
      sheets := s.ledger.sheets.filter fun z => z.number != x.number, covers := (s.deliverCore x st).ledger.covers } := by
  subst e
  have removed := (s.deliverTo x (s.force.roleOf st)).removeSheet_via x.number
  have via := s.deliverCore_via x st
  have sheets : (s.deliverCore x st).ledger.sheets = s.ledger.sheets.filter fun z => z.number != x.number := by
    show (s.deliverCore x st).table.sheets.map Sheet.core = (s.table.sheets.map Sheet.core).filter _
    rw [s.deliverCore_sheets, List.filter_map]
    rfl
  rw [← sheets]
  have intake : (s.deliverCore x st).intake = (s.deliverTo x (s.force.roleOf st)).intake := removed.intake_eq rfl
  have finisher : (s.deliverCore x st).finisher = (s.deliverTo x (s.force.roleOf st)).finisher := removed.finisher_eq rfl
  unfold Part.ledger
  rw [intake, finisher, via.planner_eq rfl, via.feed_eq rfl, via.force_eq rfl]

theorem Part.deliverTo_bin (x : Sheet) {r : Option Role} (h : r = some .binEntry0 ∨ r = some .binEntry1) :
    (s.deliverTo x r).ledger = { s.ledger with slots := (s.deliverPages x.job x.pages).intake.slots } := by
  have paid : s.deliverTo x r = (s.deliverPages x.job x.pages).countPath 1 := by rcases h with rfl | rfl <;> rfl
  have via := s.deliverPages_via x.job x.pages
  have counted := (s.deliverPages x.job x.pages).countPath_via 1
  obtain ⟨normal, priority⟩ := s.deliverPages_queues x.job x.pages
  rw [paid]
  unfold Part.ledger
  rw [counted.intake_eq rfl, counted.planner_eq rfl, counted.table_eq rfl, counted.finisher_eq rfl, counted.feed_eq rfl,
    counted.force_eq rfl, counted.stations_eq rfl, normal, priority, via.planner_eq rfl, via.table_eq rfl, via.finisher_eq rfl, via.feed_eq rfl,
    via.force_eq rfl, via.stations_eq rfl]

theorem Part.deliverTo_purge (x : Sheet) : (s.deliverTo x (some .purgeEntry)).ledger = s.ledger := by
  have via : Via _ s (s.deliverTo x (some .purgeEntry)) := s.countPurge_via
  unfold Part.ledger
  rw [via.intake_eq rfl, via.planner_eq rfl, via.table_eq rfl, via.finisher_eq rfl, via.feed_eq rfl, via.force_eq rfl, via.stations_eq rfl]

theorem Part.deliverTo_finisher (x : Sheet) : (s.deliverTo x (some .finisherEntry)).ledger =
    { s.ledger with
      held := s.ledger.held ++ [x.core.pages], ident := if s.ledger.vacant then some (x.job, x.set) else s.ledger.ident, vacant := false } := by
  have finisher : (s.deliverTo x (some .finisherEntry)).finisher.paged =
      (s.ledger.held ++ [x.core.pages], if s.ledger.vacant then some (x.job, x.set) else s.ledger.ident, false) := by
    show (s.handOver x).finisher.paged = _
    rw [x.core_pages]
    unfold Part.handOver Finisher.paged Part.ledger
    rw [Part.modFinisher_finisher]
    by_cases empty : s.finisher.state = .empty
    · simp only [empty, beq_self_eq_true, if_true, decide_true, List.map_append]
      cases s.episode.isOpen <;> rfl
    · simp only [beq_eq_false_iff_ne.mpr empty, Bool.false_eq_true, if_false, decide_eq_false empty, List.map_append]
      rfl
  have parts : (s.deliverTo x (some .finisherEntry)).ledger = { s.ledger with
      held := (s.deliverTo x (some .finisherEntry)).finisher.paged.1, ident := (s.deliverTo x (some .finisherEntry)).finisher.paged.2.1
      vacant := (s.deliverTo x (some .finisherEntry)).finisher.paged.2.2 } := rfl
  rw [parts, finisher]

theorem Part.deliverCore_ledgered (h : s.ledger.sound (.leaving x st)) (nodup : (s.table.sheets.map Sheet.number).Nodup)
    (last : (x.itinerary.getLast?.map Step.station) = some st) : (s.deliverCore x st).ledger.sound .delivering := by
  obtain ⟨y, k, number, pages⟩ := Part.leaving_delivers h nodup last
  have fits := h.sheets y k.mem
  have covers := (s.deliverCore_covers x st).covers
  have split : s.ledger.records.Perm (y.pages ++ ((s.ledger.others y).flatMap Sheet.pages ++ s.ledger.held.flatten ++
      (s.ledger.normal ++ s.ledger.priority ++ s.ledger.list))) :=
    s.ledger.records_split.trans ((k.pool.append_right _).trans (List.Perm.of_eq (List.append_assoc ..)))
  have bin : s.force.roleOf st = some .binEntry0 ∨ s.force.roleOf st = some .binEntry1 → (s.deliverCore x st).ledger.sound .delivering :=
      fun role => by
    rw [Part.deliverCore_ledger rfl, Part.deliverTo_bin x role, ← number]
    refine h.binned k (Part.deliverPages_accounts (records := s.ledger.records) h.accounts fun j => ?_) covers
    have length : x.pages.length = y.pages.length := by rw [pages, x.core_pages, List.length_map]
    rw [length]
    exact countP_job_split (fun z hz => (fits.job z hz).trans k.job) split j
  rcases fits.delivered k.valid k.last with role | role | role | ⟨role, bare⟩
  · exact bin (.inl role)
  · exact bin (.inr role)
  · rw [Part.deliverCore_ledger role, Part.deliverTo_finisher, ← number, ← pages]
    exact h.handedOver k role covers
  · rw [Part.deliverCore_ledger role, Part.deliverTo_purge, ← number]
    refine h.binned k (h.accounts.perm ?_) covers
    rw [bare, List.nil_append] at split
    exact split.symm

end Sys2Proof.Machine
end

