-- ==== Sys2Proof/Proofs/LedgerTracked.lean ====
section
/-! PROOF. The ledger at an arrival and a departure: the covering entry taken, judged and given back (R74 to R76, R155, R41). -/

namespace Sys2Proof.Machine

variable {s t : Part} {L : Ledger} {a : Phase} {A : List Block} {x y : Sheet} {st : Fin 24} {path : PathState} {step : Step}

/-- A ledger with the covering entry of a station replaced. -/
def Ledger.withCover (L : Ledger) (st : Fin 24) (n : Option Nat) : Ledger := { L with covers := Function.update L.covers st n }

theorem Part.ledger_sheets_of (h : t.table.sheets.map Sheet.core = s.table.sheets.map Sheet.core) : t.ledger.sheets = s.ledger.sheets := h

theorem Part.modSheet_cores (n : Nat) (g : Sheet → Sheet) (h : ∀ x, (g x).core = x.core) :
    (s.modSheet n g).table.sheets.map Sheet.core = s.table.sheets.map Sheet.core := by
  rw [s.modSheet_sheets, List.map_map]
  refine List.map_congr_left fun y _ => ?_
  unfold Function.comp
  dsimp only
  split
  · exact h y
  · rfl

theorem Part.modStation_ledger (s : Part) (st : Fin 24) (g : Station → Station) :
    (s.modStation st g).ledger = s.ledger.withCover st ((g (s.stations[st])).cover.map Cover.sheet) := by
  have covers : (s.modStation st g).ledger.covers = Function.update s.ledger.covers st ((g (s.stations[st])).cover.map Cover.sheet) := by
    funext k
    show ((s.modStation st g).stations[k]).cover.map Cover.sheet = _
    rw [Part.getElem_modStation]
    by_cases own : k = st
    · subst own
      rw [if_pos rfl, Function.update_self]
    · rw [if_neg own, Function.update_of_ne own]
      rfl
  unfold Ledger.withCover
  rw [← covers]
  rfl

theorem Part.modSheet_ledger (n : Nat) (g : Sheet → Sheet) (h : ∀ x, (g x).core = x.core) : (s.modSheet n g).ledger = s.ledger := by
  have sheets := Part.ledger_sheets_of (s.modSheet_cores n g h)
  have parts : (s.modSheet n g).ledger = { s.ledger with sheets := (s.modSheet n g).ledger.sheets } := rfl
  rw [parts, sheets]

/-! ## An arrival (R74) -/

theorem Part.cover_ledger (s : Part) (x : Sheet) (st : Fin 24) : ((s.modSheet x.number fun y => y.arrived st s.tick).coverWith x st s.tick).ledger =
    s.ledger.withCover st (some x.number) := by
  unfold Part.coverWith
  rw [Part.modStation_ledger, Part.modSheet_ledger x.number (fun y => y.arrived st s.tick) fun _ => rfl]
  rfl

/-- In HALTING, only a sheet that runs out comes to FINISHER ENTRY (R87, R112). -/
theorem Ledger.sound.reaches (h : L.sound a) (mem : x ∈ L.sheets) (moving : x.cond ≠ .stranded) (next : step ∈ x.itinerary)
    (valid : L.force.badPath = none) (role : L.force.roleOf step.station = some .finisherEntry) (halting : L.path = .halting) :
    x.cond = .runningOut := by
  have normal := h.halting halting x mem
  have fits := h.sheets x mem
  cases cond : x.cond with
  | normal => exact absurd cond normal
  | runningOut => rfl
  | stranded => exact absurd cond moving
  | purging =>
    rw [fits.way, fits.purging cond] at next
    exact absurd role (Desc.purge_avoids_finisherEntry valid next)

theorem Ledger.sound.covered (h : L.sound .settled) (nodup : (L.sheets.map Sheet.number).Nodup) (mem : y ∈ L.sheets) (own : y = x.core)
    (below : x.number < L.next) (owes : L.force.roleOf st = some .finisherEntry → L.path = .halting → x.cond = .runningOut) :
    (L.withCover st (some x.number)).sound (.arriving x st L.path) := by
  obtain ⟨books, standing, -⟩ := Ledger.sound_iff.mp h
  refine Ledger.sound_iff.mpr ⟨{ books with }, { standing with covers := fun k n hn => ?_ }, owes, fun n hn => ?_, fun z hz number => ?_⟩
  · by_cases at' : k = st
    · subst at'
      have named : n = x.number := by
        have : Function.update L.covers k (some x.number) k = some n := hn
        rw [Function.update_self] at this
        exact (Option.some.inj this).symm
      exact ⟨named ▸ below, fun judged => absurd rfl judged⟩
    · have before : L.covers k = some n := by
        have : Function.update L.covers st (some x.number) k = some n := hn
        rwa [Function.update_of_ne at'] at this
      obtain ⟨lt, welcome⟩ := standing.covers k n before
      exact ⟨lt, fun _ => welcome nofun⟩
  · have : Function.update L.covers st (some x.number) st = some n := hn
    rw [Function.update_self] at this
    exact (Option.some.inj this).symm
  · have same : z = y := List.inj_on_of_nodup_map nodup hz mem (by rw [number, own]; rfl)
    rw [same, own]
    exact ⟨rfl, rfl⟩

theorem Part.cover_ledgered (h : s.ledger.sound .settled) (table : s.tableSound) (hx : x ∈ s.table.sheets) (moving : x.moving = true)
    (next : x.nextStep = some step) (tracks : s.feed.path.tracks = true) :
    ((s.modSheet x.number fun y => y.arrived step.station s.tick).coverWith x step.station s.tick).ledger.sound
      (.arriving x step.station s.feed.path) := by
  have nodup : (s.table.sheets.map Sheet.number).Nodup := table.1.imp fun lt => Nat.ne_of_lt lt
  have mem : x.core ∈ s.ledger.sheets := List.mem_map_of_mem hx
  have valid : s.ledger.force.badPath = none := h.valid fun path => by
    have path : s.feed.path = .unconfigured := path
    rw [path] at tracks
    cases tracks
  rw [s.cover_ledger]
  refine h.covered (s.ledger_numbers ▸ nodup) mem rfl (table.2.1 x hx) fun role halting => ?_
  refine h.reaches (x := x.core) mem ?_ (step := step) ?_ valid role halting
  · exact of_decide_eq_true moving
  · exact List.mem_of_getElem? next

theorem Part.overruns_not (h : s.overruns x = false) : s.ledger.welcomes x.job x.set := by
  unfold Part.overruns at h
  simp only [Bool.or_eq_false_iff, Bool.and_eq_false_iff] at h
  obtain ⟨⟨-, set⟩, -⟩ := h
  rw [Part.ledger_welcomes]
  simpa using set

/-- An arrival taken: at FINISHER ENTRY its sheet is one of the set's, or an overrun has stranded it (R155). -/
theorem Part.arrived_ledgered (h : s.ledger.sound (.arriving x st path)) (nodup : (s.table.sheets.map Sheet.number).Nodup)
    (taken : s.force.roleOf st = some .finisherEntry → s.overruns x = true → (s.table.sheets.map Sheet.number).Nodup →
      ∀ y ∈ s.table.sheets, y.number = x.number → y.cond = .stranded ∨ y.cond = x.cond ∧ path = .halting ∧ x.cond ≠ .runningOut) :
    s.ledger.sound .settled := by
  obtain ⟨books, standing, reaches, names, same⟩ := Ledger.sound_iff.mp h
  refine Ledger.sound_iff.mpr ⟨books, { standing with covers := fun k n hn => ?_ }, trivial⟩
  obtain ⟨below, welcome⟩ := standing.covers k n hn
  refine ⟨below, fun _ role z hz number moving => ?_⟩
  by_cases here : st = k
  · subst here
    have own : z.number = x.number := number.trans (names n hn)
    obtain ⟨job, set⟩ := same z hz own
    rw [job, set]
    cases overrun : s.overruns x with
    | false => exact Part.overruns_not overrun
    | true =>
      obtain ⟨w, hw, rfl⟩ := List.mem_map.mp hz
      rcases taken role overrun nodup w hw own with stranded | ⟨-, halting, cond⟩
      · exact absurd stranded moving
      · exact absurd (reaches role halting) cond
  · exact welcome here role z hz number moving

/-! ## A departure (R76) -/

theorem Part.uncover_ledger (s : Part) (x : Sheet) (st : Fin 24) : (s.uncover x st).ledger = s.ledger.withCover st none := by
  have bare : (s.modStation st fun y => { y with cover := none }).ledger = s.ledger.withCover st none := s.modStation_ledger st _
  unfold Part.uncover
  dsimp only
  split
  · rw [Part.modSheet_ledger x.number _ (by exact fun _ => rfl)]
    exact bare
  · exact bare

theorem Ledger.withCover_follows (L : Ledger) (st : Fin 24) : L.follows (L.withCover st none) := by
  refine ⟨rfl, em _, id, Nat.le_refl _, fun y hy => ⟨y, hy, .refl _ _⟩, fun k => ?_, .inr fun _ _ => id⟩
  show Function.update L.covers st none k = none ∨ Function.update L.covers st none k = L.covers k
  by_cases own : k = st
  · subst own
    exact .inl (Function.update_self ..)
  · exact .inr (Function.update_of_ne own ..)

theorem Part.uncover_ledgered (h : s.ledger.sound .settled) (covering : s.coveringSheet st = some x) (tracks : s.feed.path.tracks = true) :
    (s.uncover x st).ledger.sound (.leaving x st) := by
  obtain ⟨books, standing, -⟩ := Ledger.sound_iff.mp h
  have mem : x.core ∈ s.ledger.sheets := List.mem_map_of_mem (Part.mem_of_coveringSheet covering)
  obtain ⟨found, moving⟩ := Option.filter_eq_some_iff.mp covering
  obtain ⟨c, hc, named⟩ := Option.bind_eq_some_iff.mp found
  have number : x.number = c.sheet := by simpa using List.find?_some named
  have valid : s.ledger.force.badPath = none := h.valid fun path => by
    have path : s.feed.path = .unconfigured := path
    rw [path] at tracks
    cases tracks
  rw [s.uncover_ledger]
  refine Ledger.sound_iff.mpr ⟨{ books with }, (standing.follow (s.ledger.withCover_follows st)).phase nofun, fun role => ?_, valid,
    Function.update_self .., x.core, mem, rfl⟩
  have entry : s.ledger.covers st = some c.sheet := (s.ledger_covers st c.sheet).mpr ⟨c, hc, rfl⟩
  exact (standing.covers st c.sheet entry).2 nofun role x.core mem number (of_decide_eq_true moving)

end Sys2Proof.Machine
end

