-- ==== Sys2Proof/Proofs/LedgerAccepted.lean ====
section
/-! PROOF. A page accepted: its queue stays one of whole sheets, its slot counts it (R28 to R30, R34, R41). -/

namespace Sys2Proof.Machine

variable {s t : Part} {L : Ledger} {a : Phase} {w : Bool} {x p f b : Page} {q l : List Page} {slots : Vector (Option Slot) 8} {records : List Page}

/-! ## A queue at its tail (R28, R29) -/

/-- Where no front waits at the tail, the sheets are whole. -/
theorem pairsUp_whole (h : pairsUp true q) (none : unpairedFront q = none) : pairsUp false q := by
  induction q using pairsUp.induct with
  | case1 => trivial
  | case2 x =>
    refine ⟨h.1, .inr ?_⟩
    unfold unpairedFront at none
    rw [List.getLast?_singleton, Option.filter_some] at none
    cases wait : x.awaitsBack with
    | false => rfl
    | true =>
      rw [show x.needsBack = true from wait, if_pos rfl] at none
      cases none
  | case3 x y l front ih =>
    obtain ⟨side, job, origin, rest⟩ := (pairsUp_pair front).mp h
    refine (pairsUp_pair front).mpr ⟨side, job, origin, ?_⟩
    cases l with
    | nil => trivial
    | cons z l => exact ih rest none
  | case4 x y l bare ih =>
    obtain ⟨side, rest⟩ := (pairsUp_single bare).mp h
    exact (pairsUp_single bare).mpr ⟨side, ih rest none⟩

/-- The front that waits at the tail gets its back. -/
theorem pairsUp_paired (h : pairsUp true q) (waits : unpairedFront q = some f) (side : b.side = .back) (job : b.job = f.job)
    (origin : b.origin = f.origin) : pairsUp true (q ++ [b]) := by
  induction q using pairsUp.induct with
  | case1 => cases waits
  | case2 x =>
    obtain ⟨last, front⟩ := Option.filter_eq_some_iff.mp waits
    have same : x = f := by simpa using last
    exact (pairsUp_pair (show x.awaitsBack = true from same ▸ front)).mpr ⟨side, same ▸ job, same ▸ origin, trivial⟩
  | case3 x y l front ih =>
    obtain ⟨side', job', origin', rest⟩ := (pairsUp_pair front).mp h
    refine (pairsUp_pair front).mpr ⟨side', job', origin', ?_⟩
    cases l with
    | nil =>
      obtain ⟨last, front'⟩ := Option.filter_eq_some_iff.mp waits
      have same : y = f := by simpa using last
      have first := Page.side_of_awaitsBack (show f.awaitsBack = true from front')
      rw [← same, side'] at first
      cases first
    | cons z l => exact ih rest waits
  | case4 x y l bare ih =>
    obtain ⟨side', rest⟩ := (pairsUp_single bare).mp h
    exact (pairsUp_single bare).mpr ⟨side', ih rest waits⟩

/-- A page the queue takes (R29): a back for the front that waits, anything but a back where none does. -/
theorem pairsUp_taken (h : pairsUp true q) (fresh : ∀ y ∈ q, y.origin = none) (origin : p.origin = none)
    (taken : if p.side = .back then (unpairedFront q).any (fun f => f.job == p.job) = true else unpairedFront q = none) :
    pairsUp true (q ++ [p]) := by
  by_cases side : p.side = .back
  · rw [if_pos side, Option.any_eq_true] at taken
    obtain ⟨f, waits, job⟩ := taken
    have mem : f ∈ q := List.mem_of_getLast? (Option.filter_eq_some_iff.mp waits).1
    exact pairsUp_paired h waits side (by simpa using job : f.job = p.job).symm (by rw [origin, fresh f mem])
  · rw [if_neg side] at taken
    exact pairsUp_append (pairsUp_whole h taken) ⟨side, .inl rfl⟩

theorem Intake.refuses_tail {i : Intake} (h : i.refuses p = none) : if p.side = .back then
    (unpairedFront (i.queue (i.queueFor p))).any (fun f => f.job == p.job) = true else unpairedFront (i.queue (i.queueFor p)) = none := by
  unfold Intake.refuses at h
  dsimp only at h
  iterate 4 (split at h; · cases h)
  split at h
  · next side =>
    rw [if_pos side]
    split at h
    · next found =>
      obtain ⟨f, waits, job⟩ := (Option.any_eq_true _ _).mp found
      rw [Bool.and_eq_true] at job
      exact (Option.any_eq_true _ _).mpr ⟨f, waits, job.1⟩
    · cases h
  · next side =>
    rw [if_neg side]
    split at h
    · cases h
    · next none => exact Option.not_isSome_iff_eq_none.mp none

/-! ## The slot (R30, R34) -/

theorem Part.acceptPage_accounts (h : s.intake.refuses p = none) (accounts : Accounts s.intake.slots records) :
    Accounts (s.acceptPage p).intake.slots (p.core :: records) := by
  obtain ⟨k, place, counted⟩ := s.acceptPage_slots h
  rw [counted]
  rcases place with has | ⟨new, free⟩
  · obtain ⟨y, hy, job⟩ := Intake.slotOf_some has
    have own : s.intake.slot? p.job = some y := by
      unfold Intake.slot?
      rw [has, Option.bind_some, hy]
    rw [own]
    exact accounts.accepted (p := p.core) (Option.mem_def.mpr hy) job
  · have none : s.intake.slot? p.job = none := by
      unfold Intake.slot?
      rw [new]
      rfl
    rw [none]
    have bare : s.intake.slots[k] = Option.none := by simpa using List.find?_some free
    have unknown : ∀ j : Fin 8, ∀ z ∈ s.intake.slots[j], z.job ≠ p.job := fun j z hz own => by
      have := List.find?_eq_none.mp new j (List.mem_finRange j)
      rw [Option.mem_def.mp hz] at this
      exact this (by simpa using own)
    have opened := accounts.opened (x := ⟨p.job, s.intake.queueFor p, 0, 0, 0, Option.none, false⟩) bare unknown ⟨rfl, rfl, rfl⟩
    have counted := opened.accepted (i := k) (p := p.core) (x := ⟨p.job, s.intake.queueFor p, 0, 0, 0, Option.none, false⟩)
      (by rw [getElem_setSlot, if_pos rfl]; rfl) rfl
    rwa [Vector.set_set] at counted

/-! ## The ledger -/

theorem Part.acceptPage_ledger (s : Part) (p : Page) : (s.acceptPage p).ledger = { s.ledger with
    slots := (s.acceptPage p).intake.slots
    normal := if s.intake.queueFor p = .normal then s.ledger.normal ++ [p.core] else s.ledger.normal
    priority := if s.intake.queueFor p = .priority then s.ledger.priority ++ [p.core] else s.ledger.priority } := by
  have via := s.acceptPage_via p
  obtain ⟨normal, priority⟩ := s.acceptPage_queues p
  unfold Part.ledger
  rw [normal, priority, via.planner_eq rfl, via.table_eq rfl, via.finisher_eq rfl, via.feed_eq rfl, via.force_eq rfl, via.stations_eq rfl]
  cases s.intake.queueFor p <;> simp

theorem Part.acceptPage_ledgered (h : s.ledger.sound .settled) (origin : p.origin = none) (accepted : s.intake.refuses p = none) :
    (s.acceptPage p).ledger.sound .settled := by
  have accounts := Part.acceptPage_accounts accepted h.accounts
  have tail := Intake.refuses_tail accepted
  have queue : ∀ c, pairsUp true ((s.intake.queue c).map Page.core) → (∀ y ∈ s.intake.queue c, y.origin = none) → s.intake.queueFor p = c →
      pairsUp true ((s.intake.queue c).map Page.core ++ [p.core]) := fun c pairs fresh own => by
    rw [own] at tail
    have taken := pairsUp_taken ((pairsUp_core ..).mp pairs) fresh origin tail
    have mapped := (pairsUp_core ..).mpr taken
    rwa [List.map_append, List.map_singleton] at mapped
  have fresh : ∀ y ∈ s.intake.normal ++ s.intake.priority, y.origin = none := fun y hy => by
    refine h.fresh y.core ?_
    rw [s.ledger_queues]
    exact List.mem_map_of_mem hy
  obtain ⟨normal, priority⟩ := h.queues
  rw [s.acceptPage_ledger]
  cases own : s.intake.queueFor p with
  | normal =>
    have joined := queue .normal normal (fun y hy => fresh y (List.mem_append_left _ hy)) own
    refine { h with accounts := accounts.perm ?_, queues := ⟨joined, priority⟩, fresh := fun y hy => ?_ }
    · show (s.ledger.normal ++ [p.core] ++ s.ledger.priority ++ s.ledger.bound).Perm _
      rw [List.append_assoc, List.append_assoc, List.singleton_append]
      refine List.perm_middle.trans (List.Perm.of_eq ?_)
      rw [← List.append_assoc]
      rfl
    · rcases List.mem_append.mp (show y ∈ s.ledger.normal ++ [p.core] ++ s.ledger.priority from hy) with before | after
      · rcases List.mem_append.mp before with before | here
        · exact h.fresh y (List.mem_append_left _ before)
        · rw [List.mem_singleton.mp here]
          exact origin
      · exact h.fresh y (List.mem_append_right _ after)
  | priority =>
    have joined := queue .priority priority (fun y hy => fresh y (List.mem_append_right _ hy)) own
    refine { h with accounts := accounts.perm ?_, queues := ⟨normal, joined⟩, fresh := fun y hy => ?_ }
    · show (s.ledger.normal ++ (s.ledger.priority ++ [p.core]) ++ s.ledger.bound).Perm _
      rw [← List.append_assoc, List.append_assoc, List.singleton_append]
      exact List.perm_middle
    · rcases List.mem_append.mp (show y ∈ s.ledger.normal ++ (s.ledger.priority ++ [p.core]) from hy) with before | after
      · exact h.fresh y (List.mem_append_left _ before)
      · rcases List.mem_append.mp after with before | here
        · exact h.fresh y (List.mem_append_right _ before)
        · rw [List.mem_singleton.mp here]
          exact origin

end Sys2Proof.Machine
end

