-- ==== Sys2Proof/Proofs/LedgerAbandoned.lean ====
section
/-! PROOF. A job abandoned: its records leave every place and its slot counts them (R40, R41). -/

namespace Sys2Proof.Machine

variable {s t : Part} {L : Ledger} {job n m : Nat} {w : Bool} {k l u v : List Page} {i : Fin 8} {x y : Sheet} {c : Slot}

/-! ## Records of a job that leave -/

/-- From `l`, `n` records of a job are gone in `m` and no other. -/
def Leaves (job n : Nat) (l m : List Page) : Prop :=
  ∀ j, (m.countP fun p => p.job == j) + (if j = job then n else 0) = l.countP fun p => p.job == j

theorem Leaves.append (h : Leaves job n l k) (g : Leaves job m u v) : Leaves job (n + m) (l ++ u) (k ++ v) := fun j => by
  have first := h j
  have second := g j
  rw [List.countP_append, List.countP_append]
  by_cases own : j = job
  · rw [if_pos own] at first second ⊢
    omega
  · rw [if_neg own] at first second ⊢
    omega

theorem Leaves.core (h : Leaves job n l k) : Leaves job n (l.map Page.core) (k.map Page.core) := fun j => by
  rw [List.countP_map, List.countP_map]
  exact h j

theorem Leaves.refl (job : Nat) (l : List Page) : Leaves job 0 l l := fun j => by split <;> rfl

/-- The records of the job are filtered out. -/
theorem Leaves.filter (job : Nat) (l : List Page) : Leaves job (l.countP fun p => p.job == job) l (l.filter fun p => p.job != job) := fun j => by
  rw [List.countP_filter]
  by_cases own : j = job
  · subst own
    rw [if_pos rfl, List.countP_eq_zero.mpr fun p _ => by simp, Nat.zero_add]
  · rw [if_neg own, Nat.add_zero]
    refine List.countP_congr fun p _ => ?_
    simp only [Bool.and_eq_true, beq_iff_eq, bne_iff_ne]
    exact ⟨And.left, fun e => ⟨e, fun e' => own (e.symm.trans e')⟩⟩

/-- The sheets the job reaches give up their pages, all of the job. -/
theorem Leaves.sheets {sheets : List Sheet} {p : Sheet → Bool} (own : ∀ y ∈ sheets, p y = true → ∀ z ∈ y.pages, z.job = job) :
    Leaves job ((sheets.filter p).flatMap Sheet.pages).length (sheets.flatMap Sheet.pages)
      ((sheets.filter fun y => !p y).flatMap Sheet.pages) := by
  induction sheets with
  | nil => exact Leaves.refl job []
  | cons y l ih =>
    have rest := ih fun z hz => own z (List.mem_cons_of_mem _ hz)
    cases hp : p y with
    | true =>
      rw [List.filter_cons_of_pos hp, List.filter_cons_of_neg (by simp [hp]), List.flatMap_cons, List.flatMap_cons, List.length_append]
      have taken : Leaves job y.pages.length y.pages [] := fun j => by
        rw [List.countP_nil, Nat.zero_add, countP_job (own y List.mem_cons_self hp)]
      exact taken.append rest
    | false =>
      rw [List.filter_cons_of_neg (by simp [hp]), List.filter_cons_of_pos (by simp [hp]), List.flatMap_cons, List.flatMap_cons]
      have joined := (Leaves.refl job y.pages).append rest
      rwa [Nat.zero_add] at joined

/-- Whole sheets stay whole where the pages of one job stay or go together. -/
theorem pairsUp_filter {p : Page → Bool} (together : ∀ x y : Page, y.job = x.job → p y = p x) (h : pairsUp w l) : pairsUp w (l.filter p) := by
  induction l using pairsUp.induct with
  | case1 => trivial
  | case2 x =>
    cases keep : p x with
    | true =>
      rw [List.filter_cons_of_pos keep]
      exact h
    | false =>
      rw [List.filter_cons_of_neg (by simp [keep])]
      trivial
  | case3 x y l front ih =>
    obtain ⟨side, same, origin, rest⟩ := (pairsUp_pair front).mp h
    have own := together x y same
    cases keep : p x with
    | true =>
      rw [List.filter_cons_of_pos keep, List.filter_cons_of_pos (own.trans keep)]
      exact (pairsUp_pair front).mpr ⟨side, same, origin, ih rest⟩
    | false =>
      rw [List.filter_cons_of_neg (by simp [keep]), List.filter_cons_of_neg (by simp [own, keep])]
      exact ih rest
  | case4 x y l bare ih =>
    obtain ⟨side, rest⟩ := (pairsUp_single bare).mp h
    cases keep : p x with
    | true =>
      rw [List.filter_cons_of_pos keep]
      exact (pairsUp_single bare).mpr ⟨side, ih rest⟩
    | false =>
      rw [List.filter_cons_of_neg (by simp [keep])]
      exact ih rest

theorem pairsUp_without (job : Nat) (h : pairsUp w l) : pairsUp w (l.filter fun p => p.job != job) :=
  pairsUp_filter (fun _ _ same => by rw [same]) h

/-! ## The sheets reached -/

theorem Part.givenUp_follows (s : Part) (y : Sheet) : y.follows s.force (s.givenUp y) := by
  unfold Part.givenUp
  split
  · exact Sheet.release_follows y
  · next moving => exact Sheet.purged_follows moving

theorem Part.givenUp_core (s : Part) (y : Sheet) : (s.givenUp y).core = s.givenUp y.core := by
  unfold Part.givenUp
  have cond : y.core.cond = y.cond := rfl
  rw [cond]
  split <;> rfl

theorem Part.givenUp_pages (s : Part) (y : Sheet) : (s.givenUp y).pages = [] := by
  obtain ⟨front, back, -⟩ := s.givenUp_released y
  unfold Sheet.pages
  rw [front, back]
  rfl

/-! ## The ledger -/

/-- The sheets of the table once a job's are given up. -/
def Part.leftSheets (s : Part) (job : Nat) : List Sheet := s.table.sheets.map fun y => if reached s job y then s.givenUp y else y

/-- The pages of the compile tray once a job's are given up. -/
def Part.leftHeld (s : Part) (job : Nat) : List (List Page) :=
  if s.finisher.ofJob job then s.ledger.held.map fun _ => [] else s.ledger.held

theorem Part.abandonCore_ledger (s : Part) (sorted : (s.table.sheets.map Sheet.number).Pairwise (· < ·)) (job : Nat) (i : Fin 8) :
    (s.abandonCore job i).ledger = { s.ledger with
      normal := s.ledger.normal.filter fun p => p.job != job
      priority := s.ledger.priority.filter fun p => p.job != job
      slots := (s.abandonCore job i).intake.slots
      list := s.ledger.list.filter fun p => p.job != job
      sheets := (s.leftSheets job).map Sheet.core
      held := s.leftHeld job } := by
  have via := s.abandonCore_via job i
  have without : ∀ l : List Page, (l.filter fun p => p.job != job).map Page.core = (l.map Page.core).filter fun p => p.job != job := fun l => by
    rw [List.filter_map]
    rfl
  obtain ⟨normal, priority⟩ := s.abandonCore_queues job i
  have list : (s.abandonCore job i).ledger.list = s.ledger.list.filter fun p => p.job != job := by
    rw [Part.ledger_list, Part.ledger_list, s.abandonCore_list, ← without]
    refine congrArg (List.map Page.core) ?_
    rw [List.filter_map]
    rfl
  have sheets : (s.abandonCore job i).ledger.sheets = (s.leftSheets job).map Sheet.core := by
    have table : (s.abandonCore job i).table = (s.withdrawJob job).table := (s.abandonCore_of_withdrawJob job i).table_eq rfl
    show (s.abandonCore job i).table.sheets.map Sheet.core = _
    rw [table, s.withdrawJob_sheets sorted]
    rfl
  have finisher : (s.abandonCore job i).finisher.paged = (s.leftHeld job, s.ledger.ident, s.ledger.vacant) := by
    rw [s.abandonCore_finisher]
    unfold Part.leftHeld
    split
    · unfold Finisher.paged Finisher.abandon Part.ledger
      dsimp only
      rw [List.map_map, List.map_map]
      refine Prod.ext rfl (Prod.ext rfl ?_)
      dsimp only
      split
      · next faulted => rw [faulted]; rfl
      · rfl
    · rfl
  have queue : ∀ l m : List Page, m = (l.filter fun p => p.job != job) → m.map Page.core = (l.map Page.core).filter fun p => p.job != job :=
    fun l m e => by rw [e, without]
  have feed := s.abandonCore_feed job i
  refine Ledger.ext (queue _ _ normal) (queue _ _ priority) rfl list sheets (congrArg Prod.fst finisher) (congrArg (fun v => v.2.1) finisher)
    (congrArg (fun v => v.2.2) finisher) ?_ ?_ (via.force_eq rfl) ?_
  · show (s.abandonCore job i).feed.path = _
    rw [feed]
    rfl
  · show (s.abandonCore job i).feed.nextSheet = _
    rw [feed]
    rfl
  · unfold Part.ledger
    rw [via.stations_eq rfl]

theorem Part.abandonCore_slots (hx : s.intake.slots[i] = some c) (job : Nat) : (s.abandonCore job i).intake.slots =
    s.intake.slots.set i (some { c with abandoned := c.abandoned + s.abandonCount job, closed := true }) := by
  have base : (s.withdrawJob job).intake.slots = s.intake.slots := by rw [s.withdrawJob_intake]
  have set : ((s.withdrawJob job).modSlot i fun y => { y with abandoned := y.abandoned + s.abandonCount job, closed := true }).intake.slots =
      s.intake.slots.set i (some { c with abandoned := c.abandoned + s.abandonCount job, closed := true }) := by
    unfold Part.modSlot
    rw [Part.modIntake_intake]
    dsimp only
    rw [base, hx]
    rfl
  unfold Part.abandonCore
  dsimp only
  split
  · exact set
  · rw [(Part.noteProgress_via ..).intake_eq rfl]
    exact set

/-! ## The records that leave -/

theorem Sheet.cores_pages (l : List Sheet) : (l.map Sheet.core).flatMap Sheet.pages = (l.flatMap Sheet.pages).map Page.core := by
  rw [List.flatMap_map, List.map_flatMap]
  exact List.flatMap_congr fun x _ => x.core_pages

theorem Part.leftSheets_pages (s : Part) (job : Nat) :
    (s.leftSheets job).flatMap Sheet.pages = (s.table.sheets.filter fun y => !reached s job y).flatMap Sheet.pages := by
  refine flatMap_emptied (fun y => !reached s job y) _ (fun y _ kept => ?_) fun y _ given => ?_
  · rw [Bool.not_eq_true'] at kept
    rw [kept, if_neg Bool.false_ne_true]
  · rw [Bool.not_eq_false'] at given
    rw [given, if_pos rfl, s.givenUp_pages]

theorem Leaves.held (h : ∀ l ∈ L.held, ∀ y ∈ l, L.ident.map Prod.fst = some y.job) (own : L.ident.map Prod.fst = some job) :
    Leaves job L.held.flatten.length L.held.flatten [] := fun j => by
  rw [List.countP_nil, Nat.zero_add, countP_job (job := job)]
  intro y hy
  obtain ⟨l, hl, hy⟩ := List.mem_flatten.mp hy
  exact Option.some.inj ((h l hl y hy).symm.trans own)

theorem Part.leftHeld_flatten (s : Part) (job : Nat) : (s.leftHeld job).flatten = if s.finisher.ofJob job then [] else s.ledger.held.flatten := by
  unfold Part.leftHeld
  split
  · simp
  · rfl

theorem Part.abandonCore_leaves (h : s.ledger.sound .settled) (sorted : (s.table.sheets.map Sheet.number).Pairwise (· < ·)) (job : Nat) (i : Fin 8) :
    Leaves job (s.abandonCount job) s.ledger.records (s.abandonCore job i).ledger.records := by
  have count : ∀ l : List Page, Leaves job (l.countP fun p => p.job == job) (l.map Page.core) ((l.map Page.core).filter fun p => p.job != job) :=
    fun l => by
      have here := Leaves.filter job (l.map Page.core)
      rwa [List.countP_map] at here
  have list : Leaves job (s.planner.list.countP fun e => e.page.job == job) s.ledger.list (s.ledger.list.filter fun p => p.job != job) := by
    have here := count (s.planner.list.map Entry.page)
    rw [List.countP_map, ← Part.ledger_list] at here
    exact here
  have sheets : Leaves job ((s.table.sheets.filter (s.abandonable job)).flatMap Sheet.pages).length (s.ledger.sheets.flatMap Sheet.pages)
      (((s.leftSheets job).map Sheet.core).flatMap Sheet.pages) := by
    have same : s.table.sheets.filter (s.abandonable job) = s.table.sheets.filter (reached s job) :=
      List.filter_congr fun y _ => s.abandonable_eq job y
    rw [Sheet.cores_pages, s.leftSheets_pages, same]
    have before : s.ledger.sheets.flatMap Sheet.pages = (s.table.sheets.flatMap Sheet.pages).map Page.core := Sheet.cores_pages _
    rw [before]
    refine (Leaves.sheets fun y hy reaches z hz => ?_).core
    have fits := (y.core_fits _).mp (h.sheets y.core (List.mem_map_of_mem hy))
    unfold reached at reaches
    rw [Bool.and_eq_true, beq_iff_eq] at reaches
    exact (fits.job z hz).trans reaches.1
  have held : Leaves job (if s.finisher.ofJob job then (s.finisher.sheets.flatMap Held.pages).length else 0) s.ledger.held.flatten
      (s.leftHeld job).flatten := by
    rw [s.leftHeld_flatten]
    split
    · next own =>
      have length : (s.finisher.sheets.flatMap Held.pages).length = s.ledger.held.flatten.length := by
        unfold Part.ledger
        rw [← List.length_map Page.core, List.map_flatMap, List.flatMap_def]
      rw [length]
      exact Leaves.held (fun l hl => (h.held l hl).2.2) (Finisher.ofJob_iff.mp own)
    · exact Leaves.refl job _
  have all := ((count s.intake.normal).append (count s.intake.priority)).append ((list.append sheets).append held)
  rw [s.abandonCore_ledger sorted]
  have total : s.abandonCount job = s.intake.normal.countP (fun p => p.job == job) + s.intake.priority.countP (fun p => p.job == job) +
      (s.planner.list.countP (fun e => e.page.job == job) + ((s.table.sheets.filter (s.abandonable job)).flatMap Sheet.pages).length +
        if s.finisher.ofJob job then (s.finisher.sheets.flatMap Held.pages).length else 0) := by
    unfold Part.abandonCount
    omega
  rw [total]
  exact all

theorem Part.abandonCore_ledgered (h : s.ledger.sound .settled) (sorted : (s.table.sheets.map Sheet.number).Pairwise (· < ·))
    (hi : s.intake.slotOf job = some i) : (s.abandonCore job i).ledger.sound .settled := by
  obtain ⟨books, standing, -⟩ := Ledger.sound_iff.mp h
  obtain ⟨c, hc, own⟩ := Intake.slotOf_some hi
  have accounts : Accounts (s.abandonCore job i).intake.slots (s.abandonCore job i).ledger.records := by
    rw [Part.abandonCore_slots hc job]
    refine h.accounts.settle (n := s.abandonCount job) (Option.mem_def.mpr hc) rfl rfl ?_ ?_
    · dsimp only
      omega
    · rw [own]
      exact Part.abandonCore_leaves h sorted job i
  have ledger := s.abandonCore_ledger sorted job i
  have follows : s.ledger.follows (s.abandonCore job i).ledger := by
    rw [ledger]
    refine ⟨rfl, em _, id, Nat.le_refl _, fun z hz => ?_, fun _ => .inr rfl, .inr fun _ _ => id⟩
    obtain ⟨_, left, rfl⟩ := List.mem_map.mp hz
    obtain ⟨y, hy, rfl⟩ := List.mem_map.mp left
    refine ⟨y.core, List.mem_map_of_mem hy, ?_⟩
    split
    · rw [s.givenUp_core]
      exact s.givenUp_follows _
    · exact .refl _ _
  refine Ledger.sound_iff.mpr ⟨?_, standing.follow follows, trivial⟩
  rw [ledger] at accounts ⊢
  refine {
    accounts := accounts
    queues := ⟨pairsUp_without job books.queues.1, pairsUp_without job books.queues.2⟩
    fresh := fun y hy => books.fresh y ?_
    list := ⟨pairsUp_without job books.list.1, books.list.2.sublist List.filter_sublist⟩
    traced := books.traced.sublist ?_
    held := fun l hl => ?_
    noSet := fun vacant => ?_ }
  · exact (List.filter_sublist.append List.filter_sublist).subset hy
  · refine (List.filter_sublist.append ?_).append ?_
    · have before : s.ledger.sheets.flatMap Sheet.pages = (s.table.sheets.flatMap Sheet.pages).map Page.core := Sheet.cores_pages _
      rw [Sheet.cores_pages, s.leftSheets_pages, before]
      exact ((List.filter_sublist (l := s.table.sheets)).flatMap Sheet.pages).map Page.core
    · rw [s.leftHeld_flatten]
      split
      · exact List.nil_sublist _
      · exact .refl _
  · have hl : l ∈ s.leftHeld job := hl
    unfold Part.leftHeld at hl
    split at hl
    · obtain ⟨_, -, rfl⟩ := List.mem_map.mp hl
      exact ⟨trivial, Nat.zero_le _, fun _ hy => absurd hy List.not_mem_nil⟩
    · exact books.held l hl
  · have none := books.noSet vacant
    show s.leftHeld job = []
    unfold Part.leftHeld
    rw [none]
    split <;> rfl

end Sys2Proof.Machine
end

