-- ==== Sys2Proof/Proofs/LedgerPicked.lean ====
section
/-! PROOF. A sheet picked: the head of a queue or of the Reprint List becomes the newest sheet's (R53, R55, R56, R61, R41). -/

namespace Sys2Proof.Machine

variable {s t : Part} {L M : Ledger} {w : Bool} {q l m : List Page} {n : NextPage} {x y : Page} {z : Sheet} {source : Option Queue}
  {slots : Vector (Option Slot) 8} {next num : Nat}

/-! ## The next page (R53) -/

/-- The next page is the sheet's worth at the head of its source. -/
theorem formNext_head (h : formNext source q = some n) (pairs : pairsUp w q) : q = n.pages ++ q.drop n.pages.length ∧ n.source = source ∧
    pairsUp w (q.drop n.pages.length) ∧ pairsUp false n.pages ∧ (n.back.isSome = true → n.front.awaitsBack = true) ∧
    (∀ y ∈ n.pages, y.job = n.front.job) ∧ (n.pages.filter fun y => y.side != .back) = [n.front] := by
  unfold formNext at h
  split at h
  · cases h
  · next f rest =>
    split at h
    · cases h
    · next side =>
      split at h
      · next front =>
        have front : f.awaitsBack = true := front
        split at h
        · next b rest =>
          split at h
          · next back =>
            obtain rfl := Option.some.inj h
            obtain ⟨-, job, origin, others⟩ := (pairsUp_pair front).mp pairs
            refine ⟨rfl, rfl, others, (pairsUp_pair front).mpr ⟨back, job, origin, trivial⟩, fun _ => front, ?_, ?_⟩
            · rintro y hy
              rcases List.mem_cons.mp hy with rfl | hy
              · rfl
              · rw [List.mem_singleton.mp hy]
                exact job
            · show List.filter _ [f, b] = [f]
              simp [side, back]
          · cases h
        · cases h
      · next bare =>
        have bare : ¬ f.awaitsBack = true := bare
        obtain rfl := Option.some.inj h
        obtain ⟨-, others⟩ := (pairsUp_single bare).mp pairs
        refine ⟨rfl, rfl, others, (pairsUp_single (l := []) bare).mpr ⟨side, trivial⟩, nofun, ?_, ?_⟩
        · intro y hy
          rw [List.mem_singleton.mp hy]
        · show List.filter _ [f] = [f]
          simp [side]

/-! ## The pages bound (R55) -/

theorem boundPage_kept (num : Nat) (source : Option Queue) (p : Page) : (boundPage num source p).side = p.side ∧
    (boundPage num source p).awaitsBack = p.awaitsBack ∧ (boundPage num source p).job = p.job := by
  unfold boundPage
  split <;> exact ⟨rfl, rfl, rfl⟩

theorem boundPage_origin (num : Nat) (source : Option Queue) (same : y.origin = x.origin) :
    (boundPage num source y).origin = (boundPage num source x).origin := by
  unfold boundPage
  split
  · rfl
  · exact same

theorem pairsUp_bound (num : Nat) (source : Option Queue) (h : pairsUp false l) : pairsUp false (l.map (boundPage num source)) := by
  induction h using pairsUp_induction with
  | nil => trivial
  | single x l bare side _ ih =>
    obtain ⟨side', awaits, -⟩ := boundPage_kept num source x
    exact (pairsUp_single (awaits ▸ bare)).mpr ⟨side' ▸ side, ih⟩
  | pair x y l front side job origin _ ih =>
    obtain ⟨-, awaits, job'⟩ := boundPage_kept num source x
    obtain ⟨side', -, job''⟩ := boundPage_kept num source y
    exact (pairsUp_pair (awaits ▸ front)).mpr ⟨side' ▸ side, by rw [job', job'', job], boundPage_origin num source origin, ih⟩

theorem Part.newSheet_pages (s : Part) (n : NextPage) : (s.newSheet n).pages = n.pages.map (boundPage s.feed.nextSheet n.source) := by
  unfold Sheet.pages NextPage.pages Part.newSheet
  cases n.back <;> rfl

/-- The sheet picked fits: its way is its destination's, none of the purge bin (R56). -/
theorem Part.newSheet_fits (s : Part) (pairs : pairsUp false n.pages) (front : n.back.isSome = true → n.front.awaitsBack = true)
    (job : ∀ y ∈ n.pages, y.job = n.front.job) : (s.newSheet n).fits s.force := by
  refine ⟨?_, fun back => ?_, ?_, rfl, nofun, fun purge => ?_⟩
  · rw [s.newSheet_pages]
    exact pairsUp_bound _ _ pairs
  · show (boundPage s.feed.nextSheet n.source n.front).awaitsBack = true
    rw [(boundPage_kept ..).2.1]
    exact front (by rw [← Option.isSome_map]; exact back)
  · rw [s.newSheet_pages]
    intro y hy
    obtain ⟨z, hz, rfl⟩ := List.mem_map.mp hy
    rw [(boundPage_kept ..).2.2]
    exact job z hz
  · have purge : n.front.destination = .purge := purge
    unfold Page.destination at purge
    split at purge
    · cases purge
    · split at purge <;> cases purge

/-! ## The ledger of a pick -/

/-- A ledger with a sheet at the tail of the table. -/
theorem Ledger.bound_joined (sheets : M.sheets = L.sheets ++ [z]) (held : M.held = L.held) :
    M.bound.Perm (z.pages ++ (M.list ++ L.pool)) := by
  rw [M.bound_eq]
  unfold Ledger.pool
  rw [sheets, held, List.flatMap_append, List.flatMap_singleton]
  refine List.Perm.trans (List.Perm.append_left _ ?_) (List.perm_append_comm_assoc ..)
  rw [← List.append_assoc]
  exact List.perm_append_comm.append_right _

theorem Traced.mono (h : Traced next l) : Traced (next + 1) l :=
  ⟨h.nodup, fun o ho => by
    obtain ⟨n, hn, lt⟩ := h.below o ho
    exact ⟨n, hn, Nat.lt_succ_of_lt lt⟩⟩

/-- The accounts count by job alone. -/
theorem Accounts.jobs (h : Accounts slots l) (k : (m.map Page.job).Perm (l.map Page.job)) : Accounts slots m := by
  have count : ∀ j, (m.countP fun p => p.job == j) = l.countP fun p => p.job == j := fun j => by
    have all := k.countP_eq fun v => v == j
    rwa [List.countP_map, List.countP_map] at all
  refine ⟨fun i x hx => by rw [count]; exact h.balance i x hx, h.oneSlot, fun y hy => ?_⟩
  obtain ⟨p, hp, own⟩ := List.mem_map.mp (k.subset (List.mem_map_of_mem hy))
  rw [← own]
  exact h.hasSlot p hp

/-- A new sheet joins the others in RUNNING. -/
theorem Ledger.standing.joined (h : L.standing .settled) (sheets : M.sheets = L.sheets ++ [z]) (fits : z.fits L.force)
    (number : z.number = L.next) (after : M.next = L.next + 1) (force : M.force = L.force) (path : M.path = .running)
    (before : L.path = .running) (covers : M.covers = L.covers) (welcomes : ∀ job set, L.welcomes job set → M.welcomes job set) :
    M.standing .settled := by
  refine ⟨fun _ => ?_, fun y hy => ?_, fun halting => ?_, fun st k hk => ?_⟩
  · rw [force]
    exact h.valid (by rw [before]; exact nofun)
  · rw [sheets] at hy
    rw [force]
    rcases List.mem_append.mp hy with old | new
    · exact h.sheets y old
    · rw [List.mem_singleton.mp new]
      exact fits
  · rw [path] at halting
    cases halting
  · rw [covers] at hk
    obtain ⟨below, welcome⟩ := h.covers st k hk
    refine ⟨by rw [after]; exact Nat.lt_succ_of_lt below, fun judged role y hy number' moving => welcomes _ _ ?_⟩
    rw [sheets] at hy
    rcases List.mem_append.mp hy with old | new
    · exact welcome judged (force ▸ role) y old number' moving
    · rw [List.mem_singleton.mp new, number] at number'
      omega

/-- From the Reprint List the pages come as they are. -/
theorem Ledger.books.relisted (h : L.books) (head : L.list = z.pages ++ l) (pairs : pairsUp false l) :
    Ledger.books { L with list := l, sheets := L.sheets ++ [z], next := L.next + 1 } := by
  have bound : (Ledger.bound { L with list := l, sheets := L.sheets ++ [z], next := L.next + 1 }).Perm L.bound := by
    refine (Ledger.bound_joined (L := L) (M := { L with list := l, sheets := L.sheets ++ [z], next := L.next + 1 }) rfl rfl).trans
      (List.Perm.of_eq ?_)
    rw [L.bound_eq, head, List.append_assoc]
  exact {
    accounts := h.accounts.perm (bound.append_left _)
    queues := h.queues
    fresh := h.fresh
    list := ⟨pairs, by
      have order := h.list.2
      rw [head] at order
      exact order.sublist (List.sublist_append_right ..)⟩
    traced := (h.traced.perm bound).mono
    held := h.held
    noSet := h.noSet }

/-- From a queue the pages take the number given as their origin. -/
theorem Ledger.books.dequeued {N P : List Page} (h : L.books) (jobs : ((z.pages ++ (N ++ P)).map Page.job).Perm ((L.normal ++ L.priority).map Page.job))
    (queues : pairsUp true N ∧ pairsUp true P) (fewer : (N ++ P).Sublist (L.normal ++ L.priority)) (origin : originsOf z.pages = [some L.next]) :
    Ledger.books { L with normal := N, priority := P, sheets := L.sheets ++ [z], next := L.next + 1 } := by
  have bound : (Ledger.bound { L with normal := N, priority := P, sheets := L.sheets ++ [z], next := L.next + 1 }).Perm (z.pages ++ L.bound) := by
    refine (Ledger.bound_joined (L := L) (M := { L with normal := N, priority := P, sheets := L.sheets ++ [z], next := L.next + 1 }) rfl
      rfl).trans (List.Perm.of_eq ?_)
    rw [L.bound_eq]
  refine {
    accounts := h.accounts.jobs ?_
    queues := queues
    fresh := fun y hy => h.fresh y (fewer.subset hy)
    list := h.list
    traced := (h.traced.grow origin).perm bound
    held := h.held
    noSet := h.noSet }
  have all : (N ++ P ++ (z.pages ++ L.bound)).Perm (z.pages ++ (N ++ P) ++ L.bound) := by
    rw [List.append_assoc z.pages]
    exact List.perm_append_comm_assoc ..
  refine ((bound.append_left (N ++ P)).map Page.job).trans ((all.map Page.job).trans ?_)
  unfold Ledger.records
  rw [List.map_append, List.map_append (l₂ := L.bound)]
  exact jobs.append_right _

/-! ## The pick -/

theorem Part.newSheet_core_pages (s : Part) (n : NextPage) :
    (s.newSheet n).core.pages = (n.pages.map (boundPage s.feed.nextSheet n.source)).map Page.core := by
  rw [Sheet.core_pages, s.newSheet_pages]

theorem Part.pickCore_cores (s : Part) (n : NextPage) : (s.pickCore n).ledger.sheets = s.ledger.sheets ++ [(s.newSheet n).core] := by
  obtain ⟨g, tame, e⟩ := s.pickCore_sheets n
  show (s.pickCore n).table.sheets.map Sheet.core = s.table.sheets.map Sheet.core ++ [(s.newSheet n).core]
  have joined : s.table.sheets.map Sheet.core ++ [(s.newSheet n).core] = (s.table.sheets ++ [s.newSheet n]).map Sheet.core := by
    rw [List.map_append]
    rfl
  rw [e, List.map_map, joined]
  refine List.map_congr_left fun y _ => ?_
  unfold Function.comp
  dsimp only
  split
  · exact (tame y).1
  · rfl

theorem Part.pickCore_ledger (s : Part) (n : NextPage) : (s.pickCore n).ledger = { s.ledger with
    normal := if n.source = some .normal then s.ledger.normal.drop n.pages.length else s.ledger.normal
    priority := if n.source = some .priority then s.ledger.priority.drop n.pages.length else s.ledger.priority
    list := if n.source.isSome then s.ledger.list else s.ledger.list.drop n.pages.length
    sheets := s.ledger.sheets ++ [(s.newSheet n).core]
    next := s.ledger.next + 1 } := by
  have via := s.pickCore_via n
  obtain ⟨m, feed⟩ := s.pickCore_feed n
  obtain ⟨path, -⟩ := Feed.bound_kept { s.feed with merge := m } n
  obtain ⟨slots, normal, priority⟩ := s.takeNext_intake n
  rw [← s.pickCore_intake] at slots normal priority
  have drop : ∀ (c : Prop) [Decidable c] (k : Nat) (l : List Page), (if c then l.drop k else l).map Page.core =
      if c then (l.map Page.core).drop k else l.map Page.core := fun c _ k l => by
    split
    · exact List.map_drop
    · rfl
  refine Ledger.ext ?_ ?_ slots ?_ (s.pickCore_cores n) ?_ ?_ ?_ ?_ ?_ (via.force_eq rfl) ?_
  · show (s.pickCore n).intake.normal.map Page.core = _
    rw [normal, drop]
    rfl
  · show (s.pickCore n).intake.priority.map Page.core = _
    rw [priority, drop]
    rfl
  · show (s.pickCore n).planner.list.map _ = _
    rw [s.pickCore_list]
    cases n.source with
    | none => exact List.map_drop
    | some c => rfl
  · unfold Part.ledger
    rw [via.finisher_eq rfl]
  · unfold Part.ledger
    rw [via.finisher_eq rfl]
  · unfold Part.ledger
    rw [via.finisher_eq rfl]
  · show (s.pickCore n).feed.path = s.feed.path
    rw [feed]
    exact path
  · show (s.pickCore n).feed.nextSheet = s.feed.nextSheet + 1
    rw [feed]
  · unfold Part.ledger
    rw [via.stations_eq rfl]

/-- The next page is at the head of the Reprint List, or of a queue. -/
theorem Part.nextPage_head (h : s.nextPage = some n) : formNext none (s.planner.list.map Entry.page) = some n ∨
    ∃ c, formNext (some c) (s.intake.queue c) = some n := by
  unfold Part.nextPage at h
  split at h
  · exact .inr ⟨_, h⟩
  · exact .inl h

theorem originsOf_bound (num : Nat) (c : Queue) (only : (n.pages.filter fun y => y.side != .back) = [n.front]) :
    originsOf ((n.pages.map (boundPage num (some c))).map Page.core) = [some num] := by
  have sides : (fun y : Page => y.side != .back) ∘ (Page.core ∘ boundPage num (some c)) = fun y => y.side != .back := by
    funext y
    show ((boundPage num (some c) y).side != .back) = _
    rw [(boundPage_kept ..).1]
  unfold originsOf
  rw [List.map_map, List.filter_map, sides, only]
  rfl

theorem Part.pickCore_ledgered (h : s.ledger.sound .settled) (hp : s.feed.path = .running) (hn : s.nextPage = some n) :
    (s.pickCore n).ledger.sound .settled := by
  obtain ⟨books, standing, -⟩ := Ledger.sound_iff.mp h
  have ledger := s.pickCore_ledger n
  have fit : (s.newSheet n).core.fits s.ledger.force → (s.pickCore n).ledger.standing .settled := fun fits =>
    standing.joined (s.pickCore_cores n) fits rfl (by rw [ledger]) (by rw [ledger]) (by rw [ledger]; exact hp) hp (by rw [ledger])
      fun _ _ welcome => by rw [ledger]; exact welcome
  have bound : ∀ c, n.source = some c → ((s.newSheet n).core.pages.map Page.job = (n.pages.map Page.core).map Page.job) := fun c _ => by
    rw [s.newSheet_core_pages, List.map_map, List.map_map, List.map_map]
    exact List.map_congr_left fun y _ => (boundPage_kept ..).2.2
  rcases Part.nextPage_head hn with head | ⟨c, head⟩
  · have pairs : pairsUp false (s.planner.list.map Entry.page) := (pairsUp_core ..).mp (s.ledger_list ▸ books.list.1)
    obtain ⟨split, source, rest, whole, front, job, -⟩ := formNext_head head pairs
    refine Ledger.sound_iff.mpr ⟨?_, fit ((Sheet.core_fits _ _).mpr (s.newSheet_fits whole front job)), trivial⟩
    rw [ledger, source]
    have kept : n.pages.map (boundPage s.feed.nextSheet none) = n.pages := List.map_id _
    refine books.relisted ?_ ?_
    · show s.ledger.list = (s.newSheet n).core.pages ++ s.ledger.list.drop n.pages.length
      rw [s.newSheet_core_pages, source, kept, s.ledger_list, ← List.map_drop, ← List.map_append, ← split]
    · show pairsUp false (s.ledger.list.drop n.pages.length)
      rw [s.ledger_list, ← List.map_drop]
      exact (pairsUp_core ..).mpr rest
  · have pairs : pairsUp true (s.intake.queue c) := by
      cases c with
      | normal => exact (pairsUp_core ..).mp books.queues.1
      | priority => exact (pairsUp_core ..).mp books.queues.2
    obtain ⟨split, source, rest, whole, front, job, only⟩ := formNext_head head pairs
    refine Ledger.sound_iff.mpr ⟨?_, fit ((Sheet.core_fits _ _).mpr (s.newSheet_fits whole front job)), trivial⟩
    have origin : originsOf (s.newSheet n).core.pages = [some s.ledger.next] := by
      rw [s.newSheet_core_pages, source]
      exact originsOf_bound _ c only
    have cut : (s.intake.queue c).map Page.core = n.pages.map Page.core ++ ((s.intake.queue c).map Page.core).drop n.pages.length := by
      rw [← List.map_drop, ← List.map_append, ← split]
    have left : pairsUp true (((s.intake.queue c).map Page.core).drop n.pages.length) := by
      rw [← List.map_drop]
      exact (pairsUp_core ..).mpr rest
    have jobs := bound c source
    rw [ledger, source]
    cases c with
    | normal =>
      refine books.dequeued (N := s.ledger.normal.drop n.pages.length) (P := s.ledger.priority) ?_ ⟨left, books.queues.2⟩
        ((List.drop_sublist ..).append_right _) origin
      have cut : s.ledger.normal = n.pages.map Page.core ++ s.ledger.normal.drop n.pages.length := cut
      rw [List.map_append, jobs, ← List.map_append, ← List.append_assoc, ← cut]
    | priority =>
      refine books.dequeued (N := s.ledger.normal) (P := s.ledger.priority.drop n.pages.length) ?_ ⟨books.queues.1, left⟩
        ((List.drop_sublist ..).append_left _) origin
      have cut : s.ledger.priority = n.pages.map Page.core ++ s.ledger.priority.drop n.pages.length := cut
      rw [List.map_append, jobs, ← List.map_append]
      refine List.Perm.map _ ((List.perm_append_comm_assoc ..).trans (List.Perm.of_eq ?_))
      rw [← cut]

end Sys2Proof.Machine
end

