-- ==== Sys2Proof/Proofs/LedgerKept.lean ====
section
/-! PROOF. O54: every move, and so every step, keeps the ledger of the page records sound (R41). -/

namespace Sys2Proof.Machine

variable {s t : Part} {L M : Ledger} {a b : Phase} {A : List Block} {q : Mode}

/-! ## Slots and plans -/

theorem Part.examineSlot_ledgered (i : Fin 8) (h : s.ledger.sound a) : (s.examineSlot i).ledger.sound a := by
  have via := s.examineSlot_via i
  have intake := s.examineSlot_queues i
  have ledger : (s.examineSlot i).ledger = { s.ledger with slots := (s.examineSlot i).intake.slots } := by
    unfold Part.ledger
    rw [intake, via.planner_eq rfl, via.table_eq rfl, via.finisher_eq rfl, via.feed_eq rfl, via.force_eq rfl, via.stations_eq rfl]
  rw [ledger]
  exact { h with accounts := Part.examineSlot_accounts i h.accounts }

/-! ## Path states at rest, and PATH RESET -/

/-- With no sheet in the path, a description that passes and another path state are put in place. -/
theorem Ledger.sound.bare {d : Desc} {p : PathState} {c : Fin 24 → Option Nat} (h : L.sound a) (empty : L.sheets = [])
    (valid : p ≠ .unconfigured → d.badPath = none) (covers : ∀ st, c st = none ∨ c st = L.covers st) :
    Ledger.sound .settled { L with force := d, path := p, covers := c } := by
  have none : ∀ {φ : Sheet → Prop}, ∀ x ∈ L.sheets, φ x := fun x hx => by
    rw [empty] at hx
    cases hx
  exact { h with
    valid := valid
    sheets := none
    halting := fun _ => none
    covers := fun st n hn => by
      have here : L.covers st = some n := by
        rcases covers st with gone | same
        · exact absurd (gone.symm.trans hn) nofun
        · exact same.symm.trans hn
      exact ⟨(h.covers st n here).1, fun _ _ => none⟩
    owes := trivial }

theorem Part.putInForce_names (s : Part) : s.namesGo s.putInForce := fun st => .inr (by
  have cover : ∀ (x : Station) (b : Bool) (m : Timing), (x.onClose b m).cover = x.cover := fun x b m => by
    unfold Station.onClose
    split <;> rfl
  rw [s.putInForce_stations st, cover])

theorem Part.putInForce_ledgered (h : s.ledger.sound .settled) (empty : s.table.sheets = []) (passes : s.stored.badPath = none) :
    s.putInForce.ledger.sound .settled := by
  have via := s.putInForce_via
  have force : s.putInForce.force = s.stored := s.putInForce_inForce.2
  have ledger : s.putInForce.ledger = { s.ledger with force := s.stored, path := s.ledger.path, covers := s.putInForce.ledger.covers } := by
    unfold Part.ledger
    rw [force, via.intake_eq rfl, via.planner_eq rfl, via.table_eq rfl, via.finisher_eq rfl, via.feed_eq rfl]
  rw [ledger]
  exact h.bare (by unfold Part.ledger; rw [empty]; rfl) (fun _ => passes) s.putInForce_names.covers

theorem Part.closed_ledgered (h : s.ledger.sound .settled) (empty : s.table.sheets = []) (passes : s.force.badPath = none) :
    s.enterIdle.ledger.sound .settled := by
  have feed := s.enterIdle_feed
  have via := s.enterIdle_via
  have ledger : s.enterIdle.ledger = { s.ledger with force := s.force, path := .idle, covers := s.ledger.covers } := by
    unfold Part.ledger
    rw [feed, via.intake_eq rfl, via.planner_eq rfl, via.table_eq rfl, via.finisher_eq rfl, via.force_eq rfl, via.stations_eq rfl]
  rw [ledger]
  exact h.bare (by unfold Part.ledger; rw [empty]; rfl) (fun _ => passes) fun _ => .inr rfl

theorem Part.discardCoreAll_intake (s : Part) : s.discardCoreAll.intake = .reset := by
  unfold Part.discardCoreAll
  rfl

theorem Part.discardCoreAll_list (s : Part) : s.discardCoreAll.planner.list = [] := by
  unfold Part.discardCoreAll
  rfl

/-- The ledger of no records. -/
def Ledger.emptied (L : Ledger) : Ledger := ⟨[], [], .replicate 8 none, [], [], [], none, true, L.path, L.next, L.force, fun _ => none⟩

theorem Part.discardCoreAll_ledger (s : Part) : s.discardCoreAll.ledger = s.ledger.emptied := by
  have via := s.discardCoreAll_via
  have covers : s.discardCoreAll.ledger.covers = fun _ => none := by
    funext st
    have gone : (s.discardCoreAll.stations[st]).cover = none := by
      rw [s.discardCoreAll_stations, Fin.getElem_fin, Vector.getElem_map]
    unfold Part.ledger
    dsimp only
    rw [gone]
    rfl
  have bare : s.discardCoreAll.ledger = { s.discardCoreAll.ledger with covers := fun _ => none } := by rw [← covers]
  rw [bare]
  unfold Part.ledger
  rw [s.discardCoreAll_intake, s.discardCoreAll_list, s.discardCoreAll_table, s.discardCoreAll_finisher, s.discardCoreAll_feed,
    via.force_eq rfl]
  rfl

theorem Ledger.emptied_sound (h : L.sound .settled) : L.emptied.sound .resetting := by
  have slot : ∀ {φ : Fin 8 → Slot → Prop}, ∀ i : Fin 8, ∀ x ∈ L.emptied.slots[i], φ i x := fun i x hx => by
    have free : L.emptied.slots[i] = none := Vector.getElem_replicate ..
    rw [free] at hx
    cases hx
  exact {
    valid := h.valid
    accounts := ⟨slot, fun i j x hx => slot (φ := fun _ x => ∀ y ∈ L.emptied.slots[j], x.job = y.job → i = j) i x hx,
      fun _ hy => absurd hy List.not_mem_nil⟩
    queues := ⟨trivial, trivial⟩
    fresh := fun _ hy => absurd hy List.not_mem_nil
    list := ⟨trivial, .nil⟩
    traced := ⟨.nil, fun _ ho => absurd ho List.not_mem_nil⟩
    sheets := fun _ hx => absurd hx List.not_mem_nil
    held := fun _ hl => absurd hl List.not_mem_nil
    noSet := fun _ => rfl
    halting := fun _ _ hx => absurd hx List.not_mem_nil
    covers := fun _ _ hn => nomatch hn
    owes := trivial }

/-! ## Starts -/

theorem Part.enterPath_turns (configured : s.feed.path ≠ .unconfigured) : s.feed.turns s.enterPath.feed := by
  obtain ⟨c, feed⟩ := s.enterPath_feed
  exact Feed.turns_to (p := .starting) (by rw [feed]) (by rw [feed]) (.inr configured) nofun

theorem Part.start_turns (configured : s.feed.path ≠ .unconfigured) : s.feed.turns s.start.feed := by
  obtain ⟨c, v, feed⟩ := s.start_feed
  exact Feed.turns_to (p := .starting) (by rw [feed]) (by rw [feed]) (.inr configured) nofun

/-- A start that finds paper opens its episode. -/
theorem Part.startJammed_ledgered (h : s.ledger.sound a) (configured : s.feed.path ≠ .unconfigured)
    (nodup : (s.table.sheets.map Sheet.number).Nodup) (st : Fin 24) : (s.startJammed st).ledger.sound a := by
  have via : Via [.notices, .feed, .out, .stats] s (s.enterPath.countStation st 2) :=
    (s.enterPath_via.mono rfl).andThen (Part.countStation_via ..) rfl
  have feed : (s.enterPath.countStation st 2).feed = s.enterPath.feed := (Part.countStation_via ..).feed_eq rfl
  have entered : s.ledger.carries (s.enterPath.countStation st 2).ledger := Part.carries_feed via (by
    rw [feed]
    exact Part.enterPath_turns configured)
  have path : (s.enterPath.countStation st 2).feed.path ≠ .unconfigured := by
    obtain ⟨c, e⟩ := s.enterPath_feed
    rw [feed, e]
    exact nofun
  exact (Part.openCore_carries (by rw [via.table_eq rfl]; exact nodup) path (s.residual st) 0).sound (entered.sound h)

/-! ## The Compile Set -/

theorem Finisher.paged_retained (f : Finisher) (g : Finisher) (sheets : g.sheets = f.sheets) (ident : g.ident = f.ident)
    (state : g.state = if f.state = .compiling then .retained else f.state) : g.paged = f.paged := by
  unfold Finisher.paged
  rw [sheets, ident, state]
  split
  · next compiling => rw [compiling]; rfl
  · rfl

theorem Part.strand_carries (s : Part) (p : Sheet → Bool) : s.ledger.carries (s.strand p).ledger := by
  have via := s.strand_via p
  exact Part.carries_kept (by rw [via.intake_eq rfl]) (by rw [via.planner_eq rfl]) (by rw [via.finisher_eq rfl]) (by rw [via.feed_eq rfl])
    (by rw [via.feed_eq rfl]) (via.force_eq rfl) (s.strand_marks p) (Part.relieved_namesGo _ (s.strand_stations p))

theorem Part.stapled_paged (h : s.finisher.state = .stapling) : s.stapled.finisher.paged = s.finisher.paged := by
  have base : ∀ p : Part, (p.eject false).finisher.sheets = p.finisher.sheets ∧ (p.eject false).finisher.ident = p.finisher.ident ∧
      (p.eject false).finisher.state = .ejecting := fun _ => ⟨rfl, rfl, rfl⟩
  obtain ⟨sheets, ident, state⟩ := base (((((s.modOut fun o => { o with stapler := false }).modFinisher fun f =>
    { f with stapleLimit := none, stapled := true }).modDry fun d => { d with home := none }).countPath 7))
  rw [(Part.countPath_via ..).finisher_eq rfl] at sheets ident
  exact Finisher.paged_of sheets ident (Finisher.state_of h) (by rw [Part.stapled, state]; exact nofun)

theorem Part.disturb_paged (s : Part) : s.disturb.finisher.paged = s.finisher.paged := by
  unfold Part.disturb
  split
  · rfl
  · exact Finisher.paged_retained _ _ rfl rfl rfl

theorem Part.retain_paged (s : Part) : s.retain.finisher.paged = s.finisher.paged := by
  rw [s.retain_finisher]
  split
  · next compiling => exact Finisher.paged_retained _ _ rfl rfl (if_pos compiling).symm
  · rfl

/-! ## Plans -/

theorem Part.planRead_carries (g : Planner → Planner) (h : ∀ x, (g x).list = x.list) : s.ledger.carries (s.modPlanner g).ledger := by
  have list : (s.modPlanner g).planner.paged = s.planner.paged := by
    unfold Planner.paged
    rw [Part.modPlanner_planner, h]
  exact Part.carries_kept rfl list rfl rfl rfl rfl (Part.marks_of rfl) (Part.namesGo_of rfl)

theorem Part.startSweep_turns (held : s.feed.path = .held) (hd : s.dry.on = false) : s.feed.turns s.startSweep.feed := by
  have feed : s.startSweep.feed = (s.setPath .sweeping).feed := by
    rw [s.startSweep_eq hd]
    rfl
  rw [feed, Part.setPath_feed]
  exact Feed.turns_on held rfl rfl

theorem Part.swept_ledgered (h : s.ledger.sound .settled) (nodup : (s.table.sheets.map Sheet.number).Nodup)
    (k : s.feed.path = .held ∨ s.feed.path = .sweeping) : (s.setPath .sweeping).planBuild.ledger.sound .settled := by
  have configured : s.feed.path ≠ .unconfigured := by rcases k with k | k <;> rw [k] <;> exact nofun
  have via := s.setPath_via .sweeping
  have swept := (Part.carries_feed via (Part.setPath_turns (.inr configured) nofun)).sound h
  have path : (s.setPath .sweeping).feed.path = .sweeping := by rw [Part.setPath_feed]
  have table : (s.setPath .sweeping).table = s.table := via.table_eq rfl
  generalize s.setPath .sweeping = p at swept path table ⊢
  exact Part.planBuild_sound swept (by rw [table]; exact nodup) (by rw [path]; exact nofun)

/-! ## Every move -/

/-- A start is made from IDLE, or from RESUMABLE by RESUME. -/
theorem Part.resting.starts (h : s.resting a) (k : a = .settled ∧ s.feed.path = .idle ∨ a = .resuming) : s.feed.path ≠ .unconfigured := by
  rcases k with ⟨-, idle⟩ | resuming
  · rw [idle]
    exact nofun
  · rw [h.resuming resuming]
    exact nofun

theorem Phase.staying (h : a = .settled ∨ (∃ y st path, a = .arriving y st path) ∨ a = .resuming) : ∀ x st, a ≠ .leaving x st := by
  rcases h with rfl | ⟨_, _, _, rfl⟩ | rfl
  · exact fun _ _ e => nomatch e
  · exact fun _ _ e => nomatch e
  · exact fun _ _ e => nomatch e

/-- A phase in which a start is made owes nothing. -/
theorem Ledger.sound.started (h : L.sound a) (k : a = .settled ∨ a = .resuming) : L.sound .settled := by
  rcases k with rfl | rfl
  · exact h
  · exact h.phase nofun trivial

theorem Move.ledgered (m : Move q A a s b t) (hs : s.tableSound) (hr : s.resting a) (h : s.ledger.sound a) : t.ledger.sound b := by
  have nodup : (s.table.sheets.map Sheet.number).Nodup := hs.1.imp fun lt => Nat.ne_of_lt lt
  cases hA : [Block.intake, .planner, .finisher, .force, .table, .stations, .feed].all fun b => !hasBlock A b with
  | true =>
    have carried := (m.carries hA).sound h
    cases m with
    | left | resume => exact carried.phase nofun trivial
    | arrived k => exact Part.arrived_ledgered h nodup k
    | openEpisode | startJammed | start | uncover | cover | deliver | armRunOn | discardAll | resetIdle => cases hA
    | _ => exact carried
  | false =>
    have via := m.via
    cases m with
    -- descriptions, conditions, notices
    | define g k hp => exact (Part.carries_feed via (Part.setPath_turns (.inl rfl) nofun)).sound h
    | putInForce hp hb => exact Part.putInForce_ledgered h (hr.empty.1 (Part.definable_cases hp)) hb
    | judgeTrayEmpty | judgeBinFull | pickTimer | holdoff | dropRamp | dropRunOn | reserve | unreserve =>
      exact (Part.carries_feed via (Feed.turns_of rfl rfl)).sound h
    | judgeIntakeLow k => exact (s.judgeIntakeLow_carries k).sound h
    | learnAt st r o => exact (s.learnAt_carries st r o).sound h
    | resync st => exact (Part.stations_carries via (Part.modStation_namesGo st _ (.inr rfl))).sound h
    -- pages and jobs
    | acceptPage p hp ho k => exact Part.acceptPage_ledgered h ho k
    | setReady id => exact (s.setReady_carries id).sound h
    | abandon job i hp hi => exact Part.abandonCore_ledgered h hs.1 hi
    | examineSlot i => exact Part.examineSlot_ledgered i h
    | planRead g k => exact (Part.planRead_carries g k).sound h
    -- the path
    | feed g k | hold g k =>
      exact (Part.carries_feed via (Feed.turns_of (congrArg Feed.path (k s.feed) :) (congrArg Feed.nextSheet (k s.feed) :))).sound h
    | ramped k =>
      refine (Part.carries_feed via ?_).sound h
      rw [Part.setPath_feed]
      exact Feed.turns_on k rfl rfl
    | drain k => exact (Part.carries_feed via (by rw [s.enterDraining_feed]; exact Feed.turns_on k rfl rfl)).sound h
    | goBack k => exact (Part.carries_feed via (by rw [s.returnToRunning_feed]; exact Feed.turns_on k rfl rfl)).sound h
    | runOnDone k => exact (Part.carries_feed via (by rw [Part.enterIdle_feed]; exact Feed.turns_on k rfl rfl)).sound h
    | closed k hb => exact Part.closed_ledgered h (hr.empty.1 (.inl k)) hb
    | start k => exact ((Part.carries_feed via (Part.start_turns (hr.starts k))).sound h).started (k.imp_left And.left)
    | startJammed st k => exact (Part.startJammed_ledgered h (hr.starts k) nodup st).started (k.imp_left And.left)
    | armRunOn => exact ((Part.carries_feed via (by rw [s.armRunOn_feed]; exact Feed.turns_of rfl rfl)).sound h).phase nofun trivial
    | pick n hp hd hn => exact Part.pickCore_ledgered h hp hn
    | halted ha k => exact (Part.carries_feed via (by rw [Part.setPath_feed]; exact Feed.turns_on k rfl rfl)).sound h
    | abandonSweep bar ha k => exact (Part.carries_feed via (by rw [s.abandonSweep_feed]; exact Feed.turns_on k rfl rfl)).sound h
    | startSweep k hd => exact (Part.carries_feed via (Part.startSweep_turns k hd)).sound h
    | reheld k => exact (Part.carries_feed via (by rw [Part.setPath_feed]; exact Feed.turns_on k rfl rfl)).sound h
    | planBuild k => exact Part.swept_ledgered h nodup k
    | discardAll k =>
      rw [s.discardCoreAll_ledger]
      exact Ledger.emptied_sound h
    | resetIdle k =>
      refine ((Part.carries_feed via ?_).sound h).phase nofun trivial
      rw [Part.enterIdle_feed]
      exact Feed.turns_to (p := .idle) rfl rfl (.inr k) nofun
    -- sheets and stations
    | sheet n g k =>
      rw [Part.modSheet_ledger n g fun x => (k x).1]
      exact h
    | station st g k =>
      obtain ⟨-, -, -, -, cover⟩ := k
      exact (Part.stations_carries via (Part.modStation_namesGo st g cover)).sound h
    | uncover x st k hp => exact Part.uncover_ledgered h k hp
    | cover x step hx hm k hp => exact Part.cover_ledgered h hs hx hm k hp
    | spoil x ha k =>
      obtain ⟨mem, moving⟩ := k nodup
      exact Part.spoilSheet_ledgered h (Phase.staying (ha.imp_right .inl)) mem nodup moving
    | deliver k => exact Part.deliverCore_ledgered h nodup k
    | openEpisode j extra k hp =>
      have opened := (Part.openCore_carries nodup hp j extra).sound h
      rcases k with ⟨-, rfl⟩ | ⟨rfl, rfl⟩
      · exact opened
      · exact opened.phase nofun trivial
    | strand p => exact (s.strand_carries p).sound h
    -- the Compile Set
    | finisher g k => exact (Part.carries_finisher via (Finisher.paged_core (k _))).sound h
    | staple k =>
      have occupied : s.finisher.state ≠ .empty := by rcases k with k | k <;> rw [k] <;> exact nofun
      exact (Part.carries_finisher via (Finisher.paged_of rfl rfl occupied nofun)).sound h
    | eject part k => exact (Part.carries_finisher via (Finisher.paged_of rfl rfl (Finisher.state_of k) nofun)).sound h
    | stapled k => exact (Part.carries_finisher via (Part.stapled_paged k)).sound h
    | ejected ha k => exact Part.completeEject_ledgered h (Phase.staying (ha.imp_right .inr)) k
    | retain => exact (Part.carries_finisher via s.retain_paged).sound h
    | recompile k => exact (Part.carries_finisher via (Finisher.paged_of rfl rfl (Finisher.state_of k) nofun)).sound h
    | abort k => exact (Part.carries_finisher via (Finisher.paged_of rfl rfl (Finisher.busy_state k) nofun)).sound h
    | disturb k => exact (Part.carries_finisher via s.disturb_paged).sound h
    | stapleFails k | ejectFails k =>
      exact (Part.carries_finisher via (Finisher.paged_of rfl rfl (Finisher.state_of k) nofun)).sound h
    | dropStapleLimit k | dropEjectLimit k => exact (Part.carries_finisher via rfl).sound h
    | _ => cases hA

/-- Settles O54: every move keeps the ledger sound, and the invariant says of the part what that says of its ledger. -/
theorem pagesAccounted : Obligations.PagesAccounted :=
  keptByEveryStep_of_moves (fun a s => s.tableSound ∧ s.resting a ∧ s.ledger.sound a)
    (fun s h => by
      obtain ⟨table, empty, ledger⟩ := s.pagesSound_iff.mp h
      exact ⟨table, .settled empty, ledger⟩)
    (fun s ⟨table, resting, ledger⟩ => s.pagesSound_iff.mpr ⟨table, resting.empty, ledger⟩)
    Part.reset_pagesSound
    fun m ⟨table, resting, ledger⟩ => ⟨m.tableSound table, m.resting resting, m.ledgered table resting ledger⟩

end Sys2Proof.Machine
end
